-- ==== Sys2Proof/Word.lean ====
section
/-! DEFINITION. The byte, and the plainest arithmetic on bytes and byte strings (00_scope.md R10). -/

namespace Sys2Proof

/-- One byte. -/
abbrev Byte := BitVec 8

/-- A byte string, byte 0 first. -/
abbrev Bytes := List (BitVec 8)

/-- A sparse table: (index, value) pairs with strictly rising indices.  What an index that is not listed holds
is said where the table is read. -/
abbrev Tab (α : Type) := List (Nat × α)

end Sys2Proof
end

