-- ==== Sys2Proof/Machine/Crypto.lean ====
section
/-! DEFINITION. The published algorithms the manual names: AES-256 (FIPS 197), AES-256-GCM (SP 800-38D), CTR
(SP 800-38A), CMAC (SP 800-38B), KW and KWP (SP 800-38F), SHA-384 (FIPS 180-4), HMAC and HKDF (RFC 2104, RFC 5869).
00_scope.md R10 keeps the standards' own encodings, so byte strings here are big-endian blocks, byte 0 first. -/

namespace Sys2Proof.Crypto
open Sys2Proof

/-- Bytes of a natural number, least significant first (R10). -/
def le (n : Nat) : Nat → Bytes
  | v => (List.range n).map fun i => BitVec.ofNat 8 (v >>> (8 * i))

/-- Bytes of a natural number, most significant first. -/
def be (n v : Nat) : Bytes := (le n v).reverse

/-- The little-endian number a byte string spells. -/
def ofLe (b : Bytes) : Nat := b.foldr (fun x a => a * 256 + x.toNat) 0

/-- The big-endian number a byte string spells. -/
def ofBe (b : Bytes) : Nat := b.foldl (fun a x => a * 256 + x.toNat) 0

/-- Bytewise exclusive or, as long as the shorter string. -/
def xorb (a b : Bytes) : Bytes := List.zipWith (· ^^^ ·) a b

/-- A string of zero bytes. -/
def zeros (n : Nat) : Bytes := List.replicate n 0

/-- The string filled with zeros to `n` bytes, or cut to `n`. -/
def fit (n : Nat) (b : Bytes) : Bytes := b.take n ++ zeros (n - b.length)

/-- `n` bytes of `b` from offset `o`, zero-filled. -/
def cut (o n : Nat) (b : Bytes) : Bytes := fit n (b.drop o)

/-- Cuts a string into pieces of `k` bytes, the last one possibly shorter; `fuel` bounds the pieces. -/
def chunks (k : Nat) : Nat → Bytes → List Bytes
  | 0, _ => []
  | _, [] => []
  | f + 1, b => b.take k :: chunks k f (b.drop k)

/-- The pieces of `k` bytes of a whole string. -/
def blocks (k : Nat) (b : Bytes) : List Bytes := chunks k b.length b

/-- ASCII bytes of a label. -/
def ascii (s : String) : Bytes := s.toList.map fun c => BitVec.ofNat 8 c.toNat

/-! ### AES-256 -/

/-- The S-box of FIPS 197, entry b in bits [8b + 7 : 8b]. -/
def sboxTab : BitVec 2048 :=
  0x16bb54b00f2d99416842e6bf0d89a18cdf2855cee9871e9b948ed9691198f8e19e1dc186b95735610ef6034866b53e708a8bbd4b1f74dde8c6b4a61c2e2578ba08ae7a65eaf4566ca94ed58d6d37c8e779e4959162acd3c25c2406490a3a32e0db0b5ede14b8ee4688902a22dc4f816073195d643d7ea7c41744975fec130ccdd2f3ff1021dab6bcf5389d928f40a351a89f3c507f02f94585334d43fbaaefd0cf584c4a39becb6a5bb1fc20ed00d153842fe329b3d63b52a05a6e1b1a2c830975b227ebe28012079a059618c323c7041531d871f1e5a534ccf73f362693fdb7c072a49cafa2d4adf04759fa7dc982ca76abd7fe2b670130c56f6bf27b777c63

/-- The inverse S-box, likewise. -/
def isboxTab : BitVec 2048 :=
  0x7d0c2155631469e126d677ba7e042b17619953833cbbebc8b0f52aae4d3be0a0ef9cc9939f7ae52d0d4ab519a97f51605fec8027591012b131c7078833a8dd1ff45acd78fec0db9a2079d2c64b3e56fc1bbe18aa0e62b76f89c5291d711af1476edf751ce837f9e28535ade72274ac9673e6b4f0cecff297eadc674f4111913a6b8a130103bdafc1020f3fca8f1e2cd00645b3b80558e4f70ad3bc8c00abd890849d8da75746155edab9edfd5048706c92b6655dcc5ca4d41698688664f6f87225d18b6d49a25b76b224d92866a12e084ec3fa420b954cee3d23c2a632947b54cbe9dec444438e3487ff2f9b8239e37cfbd7f3819ea340bf38a53630d56a0952

def sbox (b : Byte) : Byte := (sboxTab >>> (8 * b.toNat)).setWidth 8
def isbox (b : Byte) : Byte := (isboxTab >>> (8 * b.toNat)).setWidth 8

/-- Doubling in the field of FIPS 197. -/
def xtime (b : Byte) : Byte := (b <<< 1) ^^^ (if b.msb then 0x1b else 0)

/-- Product in the field of FIPS 197. -/
def fmul (a b : Byte) : Byte :=
  ((List.range 8).foldl (fun (acc : Byte × Byte) i =>
    (if b.getLsbD i then acc.1 ^^^ acc.2 else acc.1, xtime acc.2)) (0, a)).1

/-- Round constants. -/
def rcon : Nat → Byte
  | 0 => 1
  | n + 1 => xtime (rcon n)

/-- Extends a reversed list of 4-byte key words, of which `i` exist, by `n` more. -/
def expandFrom : Nat → Nat → List Bytes → List Bytes
  | 0, _, ws => ws
  | n + 1, i, ws =>
    let prev := ws.headD []
    let t := if i % 8 = 0 then
        xorb ((prev.drop 1 ++ prev.take 1).map sbox) (rcon (i / 8 - 1) :: zeros 3)
      else if i % 8 = 4 then prev.map sbox else prev
    expandFrom n (i + 1) (xorb t (ws.getD 7 []) :: ws)

/-- The 15 round keys of a 256-bit key. -/
def roundKeys (key : Bytes) : List Bytes :=
  let ws := (expandFrom 52 8 (blocks 4 key).reverse).reverse
  (List.range 15).map fun r => (ws.drop (4 * r)).take 4 |>.flatten

def shiftRows (s : Bytes) : Bytes :=
  (List.range 16).map fun i => s.getD ((i + 4 * (i % 4)) % 16) 0
def ishiftRows (s : Bytes) : Bytes :=
  (List.range 16).map fun i => s.getD ((i + 16 - 4 * (i % 4)) % 16) 0

def mixCol (m : List Byte) (c : Bytes) : Bytes :=
  (List.range 4).map fun r =>
    (List.range 4).foldl (fun a j => a ^^^ fmul (m.getD ((j + 4 - r) % 4) 0) (c.getD j 0)) 0
def mixColumns (m : List Byte) (s : Bytes) : Bytes := ((blocks 4 s).map (mixCol m)).flatten

/-- One AES-256 block encryption under expanded keys. -/
def encBlock (rk : List Bytes) (x : Bytes) : Bytes :=
  let s := xorb x (rk.getD 0 [])
  let s := (List.range 13).foldl (fun s r =>
    xorb (mixColumns [2, 3, 1, 1] (shiftRows (s.map sbox))) (rk.getD (r + 1) [])) s
  xorb (shiftRows (s.map sbox)) (rk.getD 14 [])

/-- One AES-256 block decryption under expanded keys. -/
def decBlock (rk : List Bytes) (x : Bytes) : Bytes :=
  let s := (ishiftRows (xorb x (rk.getD 14 []))).map isbox
  let s := (List.range 13).foldl (fun s r =>
    (ishiftRows (mixColumns [14, 11, 13, 9] (xorb s (rk.getD (13 - r) [])))).map isbox) s
  xorb s (rk.getD 0 [])

/-- A 256-bit key as the byte string AES takes: byte 0 holds bits [7:0] of the slot half (R10). -/
def keyBytes (k : BitVec 256) : Bytes := le 32 k.toNat

/-- The slot half a 32-byte key string spells. -/
def keyOf (b : Bytes) : BitVec 256 := BitVec.ofNat 256 (ofLe (b.take 32))

/-- AES-256 of one 16-byte block. -/
def aes256 (k : BitVec 256) (x : Bytes) : Bytes := encBlock (roundKeys (keyBytes k)) x

/-! ### GCM, CTR, CMAC -/

/-- Product in the GHASH field (bit 127 of the big-endian block is the coefficient of x^0). -/
def gmul (x y : BitVec 128) : BitVec 128 :=
  ((List.range 128).foldl (fun (a : BitVec 128 × BitVec 128) i =>
    (if x.getLsbD (127 - i) then a.1 ^^^ a.2 else a.1,
     (a.2 >>> 1) ^^^ (if a.2.getLsbD 0 then 0xe1000000000000000000000000000000 else 0))) (0, y)).1

def blk (b : Bytes) : BitVec 128 := BitVec.ofNat 128 (ofBe (fit 16 b))
def unblk (v : BitVec 128) : Bytes := be 16 v.toNat

/-- Absorbs a string into a GHASH accumulator, block by block, the last block zero-filled. -/
def ghashFrom (h acc : BitVec 128) (b : Bytes) : BitVec 128 :=
  (blocks 16 b).foldl (fun a x => gmul (a ^^^ blk x) h) acc

/-- GHASH of additional data and ciphertext with their length block. -/
def ghash (h : BitVec 128) (a c : Bytes) : BitVec 128 :=
  ghashFrom h (ghashFrom h (ghashFrom h 0 a) c) (be 8 (8 * a.length) ++ be 8 (8 * c.length))

/-- Keystream of `n` blocks under a 12-byte nonce from counter value `c`. -/
def keystream (rk : List Bytes) (nonce : Bytes) (c n : Nat) : Bytes :=
  ((List.range n).map fun i => encBlock rk (nonce ++ be 4 (c + i))).flatten

def nblocks (n : Nat) : Nat := (n + 15) / 16

/-- The keystream applied to a text, from counter value `c`. -/
def ctrXor (k : BitVec 256) (nonce : Bytes) (c : Nat) (t : Bytes) : Bytes :=
  xorb t (keystream (roundKeys (keyBytes k)) nonce c (nblocks t.length))

/-- The GCM tag of a ciphertext. -/
def gcmTag (k : BitVec 256) (iv a c : Bytes) : Bytes :=
  let rk := roundKeys (keyBytes k)
  let h := blk (encBlock rk (zeros 16))
  xorb (unblk (ghash h a c)) (encBlock rk (iv ++ be 4 1))

/-- AES-256-GCM seal with a 96-bit IV: ciphertext and 128-bit tag. -/
def gcmSeal (k : BitVec 256) (iv a p : Bytes) : Bytes × Bytes :=
  let c := ctrXor k iv 2 p
  (c, gcmTag k iv a c)

/-- AES-256-GCM unseal: no plaintext on a tag mismatch (00_scope.md Table 0.6, Unseal). -/
def gcmOpen (k : BitVec 256) (iv a c tag : Bytes) : Option Bytes :=
  if gcmTag k iv a c = tag then some (ctrXor k iv 2 c) else none

/-- Doubling of SP 800-38B. -/
def dbl (v : BitVec 128) : BitVec 128 := (v <<< 1) ^^^ (if v.msb then 0x87 else 0)

/-- Absorbs whole blocks into a CMAC chaining value. -/
def cmacFrom (rk : List Bytes) (acc : Bytes) (b : Bytes) : Bytes :=
  (blocks 16 b).foldl (fun a x => encBlock rk (xorb a x)) acc

/-- Finishes a CMAC: `last` is the final block, of 0 to 16 bytes. -/
def cmacEnd (rk : List Bytes) (acc last : Bytes) : Bytes :=
  let k1 := dbl (blk (encBlock rk (zeros 16)))
  let m := if last.length = 16 then xorb last (unblk k1)
    else xorb (fit 16 (last ++ [0x80])) (unblk (dbl k1))
  encBlock rk (xorb acc m)

/-- The bytes of a string before its final block, the final block holding 1 to 16 bytes (none if empty). -/
def beforeLast (n : Nat) : Nat := if n = 0 then 0 else 16 * ((n - 1) / 16)

/-- AES-CMAC. -/
def cmac (k : BitVec 256) (m : Bytes) : Bytes :=
  let rk := roundKeys (keyBytes k)
  let n := beforeLast m.length
  cmacEnd rk (cmacFrom rk (zeros 16) (m.take n)) (m.drop n)

/-! ### KW and KWP -/

/-- One pass of the wrap: every semiblock once; `t` is the step count so far. -/
def wrapPass (rk : List Bytes) : Nat → Bytes → List Bytes → Bytes × List Bytes
  | _, a, [] => (a, [])
  | t, a, r :: rs =>
    let b := encBlock rk (a ++ r)
    let (a', rs') := wrapPass rk (t + 1) (xorb (b.take 8) (be 8 (t + 1))) rs
    (a', b.drop 8 :: rs')

/-- W of SP 800-38F over a first semiblock and the rest. -/
def wrapW (k : BitVec 256) (a : Bytes) (p : Bytes) : Bytes :=
  let rk := roundKeys (keyBytes k)
  let n := p.length / 8
  let r := (List.range 6).foldl (fun (s : Bytes × List Bytes) j => wrapPass rk (n * j) s.1 s.2) (a, blocks 8 p)
  r.1 ++ r.2.flatten

/-- One inverse pass, over the semiblocks last first; `t` is the step count of the first of them. -/
def unwrapPass (rk : List Bytes) : Nat → Bytes → List Bytes → Bytes × List Bytes
  | _, a, [] => (a, [])
  | t, a, r :: rs =>
    let b := decBlock rk (xorb a (be 8 t) ++ r)
    let (a', rs') := unwrapPass rk (t - 1) (b.take 8) rs
    (a', b.drop 8 :: rs')

/-- Inverse of `wrapW`: first semiblock and the rest. -/
def unwrapW (k : BitVec 256) (c : Bytes) : Bytes × Bytes :=
  let rk := roundKeys (keyBytes k)
  let n := c.length / 8 - 1
  let r := (List.range 6).foldl (fun (s : Bytes × List Bytes) j => unwrapPass rk (n * (6 - j)) s.1 s.2)
    (c.take 8, (blocks 8 (c.drop 8)).reverse)
  (r.1, r.2.reverse.flatten)

def kwIv : Bytes := List.replicate 8 0xa6

/-- KW wrap. -/
def kwWrap (k : BitVec 256) (p : Bytes) : Bytes := wrapW k kwIv p

/-- KW unwrap: none when the check fails. -/
def kwUnwrap (k : BitVec 256) (c : Bytes) : Option Bytes :=
  if c.length % 8 ≠ 0 ∨ c.length < 24 then none
  else let (a, p) := unwrapW k c; if a = kwIv then some p else none

def kwpIv (n : Nat) : Bytes := [0xa6, 0x59, 0x59, 0xa6] ++ be 4 n

/-- KWP wrap: the text padded with zeros to a multiple of 8; one block when that is one semiblock. -/
def kwpWrap (k : BitVec 256) (p : Bytes) : Bytes :=
  let q := fit (8 * ((p.length + 7) / 8)) p
  if q.length ≤ 8 then encBlock (roundKeys (keyBytes k)) (kwpIv p.length ++ q) else wrapW k (kwpIv p.length) q

/-- KWP unwrap. -/
def kwpUnwrap (k : BitVec 256) (c : Bytes) : Option Bytes :=
  if c.length % 8 ≠ 0 ∨ c.length < 16 then none
  else
    let ap := if c.length = 16 then
        let b := decBlock (roundKeys (keyBytes k)) c; (b.take 8, b.drop 8)
      else unwrapW k c
    let n := ofBe (ap.1.drop 4)
    if ap.1.take 4 = [0xa6, 0x59, 0x59, 0xa6] ∧ n ≤ ap.2.length ∧ ap.2.length < n + 8 ∧
        (ap.2.drop n).all (· = 0) then some (ap.2.take n) else none

/-! ### SHA-384 -/

def shaK : List (BitVec 64) :=
  [0x428a2f98d728ae22, 0x7137449123ef65cd, 0xb5c0fbcfec4d3b2f, 0xe9b5dba58189dbbc,
   0x3956c25bf348b538, 0x59f111f1b605d019, 0x923f82a4af194f9b, 0xab1c5ed5da6d8118,
   0xd807aa98a3030242, 0x12835b0145706fbe, 0x243185be4ee4b28c, 0x550c7dc3d5ffb4e2,
   0x72be5d74f27b896f, 0x80deb1fe3b1696b1, 0x9bdc06a725c71235, 0xc19bf174cf692694,
   0xe49b69c19ef14ad2, 0xefbe4786384f25e3, 0x0fc19dc68b8cd5b5, 0x240ca1cc77ac9c65] ++
  [0x2de92c6f592b0275, 0x4a7484aa6ea6e483, 0x5cb0a9dcbd41fbd4, 0x76f988da831153b5,
   0x983e5152ee66dfab, 0xa831c66d2db43210, 0xb00327c898fb213f, 0xbf597fc7beef0ee4,
   0xc6e00bf33da88fc2, 0xd5a79147930aa725, 0x06ca6351e003826f, 0x142929670a0e6e70,
   0x27b70a8546d22ffc, 0x2e1b21385c26c926, 0x4d2c6dfc5ac42aed, 0x53380d139d95b3df,
   0x650a73548baf63de, 0x766a0abb3c77b2a8, 0x81c2c92e47edaee6, 0x92722c851482353b] ++
  [0xa2bfe8a14cf10364, 0xa81a664bbc423001, 0xc24b8b70d0f89791, 0xc76c51a30654be30,
   0xd192e819d6ef5218, 0xd69906245565a910, 0xf40e35855771202a, 0x106aa07032bbd1b8,
   0x19a4c116b8d2d0c8, 0x1e376c085141ab53, 0x2748774cdf8eeb99, 0x34b0bcb5e19b48a8,
   0x391c0cb3c5c95a63, 0x4ed8aa4ae3418acb, 0x5b9cca4f7763e373, 0x682e6ff3d6b2b8a3,
   0x748f82ee5defb2fc, 0x78a5636f43172f60, 0x84c87814a1f0ab72, 0x8cc702081a6439ec] ++
  [0x90befffa23631e28, 0xa4506cebde82bde9, 0xbef9a3f7b2c67915, 0xc67178f2e372532b,
   0xca273eceea26619c, 0xd186b8c721c0c207, 0xeada7dd6cde0eb1e, 0xf57d4f7fee6ed178,
   0x06f067aa72176fba, 0x0a637dc5a2c898a6, 0x113f9804bef90dae, 0x1b710b35131c471b,
   0x28db77f523047d84, 0x32caab7b40c72493, 0x3c9ebe0a15c9bebc, 0x431d67c49c100d4c,
   0x4cc5d4becb3e42b6, 0x597f299cfc657e2a, 0x5fcb6fab3ad6faec, 0x6c44198c4a475817]

def shaInit : List (BitVec 64) :=
  [0xcbbb9d5dc1059ed8, 0x629a292a367cd507, 0x9159015a3070dd17, 0x152fecd8f70e5939,
   0x67332667ffc00b31, 0x8eb44a8768581511, 0xdb0c2e0d64f98fa7, 0x47b5481dbefa4fa4]

/-- Extends a reversed message schedule by `n` words. -/
def shaSched : Nat → List (BitVec 64) → List (BitVec 64)
  | 0, w => w
  | n + 1, w =>
    let w2 := w.getD 1 0
    let w15 := w.getD 14 0
    let s1 := w2.rotateRight 19 ^^^ w2.rotateRight 61 ^^^ (w2 >>> 6)
    let s0 := w15.rotateRight 1 ^^^ w15.rotateRight 8 ^^^ (w15 >>> 7)
    shaSched n ((s1 + w.getD 6 0 + s0 + w.getD 15 0) :: w)

/-- The eight working variables. -/
structure ShaVars where
  a : BitVec 64
  b : BitVec 64
  c : BitVec 64
  d : BitVec 64
  e : BitVec 64
  f : BitVec 64
  g : BitVec 64
  h : BitVec 64

def shaRound (v : ShaVars) (kw : BitVec 64 × BitVec 64) : ShaVars :=
  let t1 := v.h + (v.e.rotateRight 14 ^^^ v.e.rotateRight 18 ^^^ v.e.rotateRight 41) +
    ((v.e &&& v.f) ^^^ (~~~v.e &&& v.g)) + kw.1 + kw.2
  let t2 := (v.a.rotateRight 28 ^^^ v.a.rotateRight 34 ^^^ v.a.rotateRight 39) +
    ((v.a &&& v.b) ^^^ (v.a &&& v.c) ^^^ (v.b &&& v.c))
  ⟨t1 + t2, v.a, v.b, v.c, v.d + t1, v.e, v.f, v.g⟩

def shaBlock (hs : List (BitVec 64)) (b : Bytes) : List (BitVec 64) :=
  let w0 := (blocks 8 b).map fun x => BitVec.ofNat 64 (ofBe x)
  let w := (shaSched 64 w0.reverse).reverse
  let v0 : ShaVars := ⟨hs.getD 0 0, hs.getD 1 0, hs.getD 2 0, hs.getD 3 0, hs.getD 4 0, hs.getD 5 0, hs.getD 6 0, hs.getD 7 0⟩
  let v := (shaK.zip w).foldl shaRound v0
  List.zipWith (· + ·) hs [v.a, v.b, v.c, v.d, v.e, v.f, v.g, v.h]

/-- SHA-384: 48 bytes. -/
def sha384 (m : Bytes) : Bytes :=
  let z := (239 - m.length % 128) % 128
  let p := m ++ [0x80] ++ zeros z ++ be 16 (8 * m.length)
  (((blocks 128 p).foldl shaBlock shaInit).map fun w => be 8 w.toNat).flatten.take 48

/-- HMAC-SHA-384. -/
def hmac (key m : Bytes) : Bytes :=
  let k := fit 128 (if key.length > 128 then sha384 key else key)
  sha384 (k.map (· ^^^ 0x5c) ++ sha384 (k.map (· ^^^ 0x36) ++ m))

def hkdfExtract (salt ikm : Bytes) : Bytes := hmac salt ikm

/-- HKDF-Expand for up to 96 bytes. -/
def hkdfExpand (prk info : Bytes) (n : Nat) : Bytes :=
  let t1 := hmac prk (info ++ [1])
  (t1 ++ (if n > 48 then hmac prk (t1 ++ info ++ [2]) else [])).take n

/-- The key check value (06_keys_and_cipher_services.md R193). -/
def kcv (k : BitVec 256) : Bytes := (aes256 k (0x4b :: zeros 15)).take 8

end Sys2Proof.Crypto
end

