-- ==== Sys2Proof/Machine/Cbor.lean ====
section
/-! DEFINITION. CBOR in the core deterministic encoding, as evidence, policies and signed requests use it (07 The Zeler
evidence bundle). -/

namespace Sys2Proof.Machine
open Sys2Proof Sys2Proof.Crypto

/-! ### Encoding -/

def cHead (major n : Nat) : Bytes :=
  let m (x : Nat) : Bytes := [BitVec.ofNat 8 (32 * major + x)]
  if n < 24 then m n
  else if n < 2 ^ 8 then m 24 ++ be 1 n
  else if n < 2 ^ 16 then m 25 ++ be 2 n
  else if n < 2 ^ 32 then m 26 ++ be 4 n
  else m 27 ++ be 8 n
def cUint (n : Nat) : Bytes := cHead 0 n
/-- The integer -1 - n. -/
def cNint (n : Nat) : Bytes := cHead 1 n
def cBytes (b : Bytes) : Bytes := cHead 2 b.length ++ b
def cText (x : String) : Bytes := cHead 3 (ascii x).length ++ ascii x
def cArr (l : List Bytes) : Bytes := cHead 4 l.length ++ l.flatten
/-- A map of small unsigned keys, given in rising order. -/
def cMap (l : List (Nat × Bytes)) : Bytes := cHead 5 l.length ++ (l.map fun p => cUint p.1 ++ p.2).flatten
def cTag (t : Nat) (b : Bytes) : Bytes := cHead 6 t ++ b
def cBool (b : Bool) : Bytes := [if b then 0xf5 else 0xf4]
def cNil : Bytes := [0xf6]

/-! ### Decoding -/

inductive Cbor where
  | uint (n : Nat)
  /-- The integer -1 - n. -/
  | nint (n : Nat)
  | bytes (b : Bytes)
  | text (b : Bytes)
  | arr (l : List Cbor)
  /-- Keys and values in turn. -/
  | map (l : List Cbor)
  | tag (n : Nat) (c : List Cbor)
  | simple (n : Nat)
  deriving Repr

/-- Major type, argument and the rest; the argument in its shortest form. -/
def cborHead (b : Bytes) : Option (Nat × Nat × Bytes) :=
  match b with
  | [] => none
  | x :: r =>
    let m := x.toNat / 32
    let a := x.toNat % 32
    let long (n lo : Nat) : Option (Nat × Nat × Bytes) :=
      let v := ofBe (r.take n)
      if r.length < n ∨ v < lo then none else some (m, v, r.drop n)
    if a < 24 then some (m, a, r)
    else if m = 7 then none
    else match a with
      | 24 => long 1 24
      | 25 => long 2 (2 ^ 8)
      | 26 => long 4 (2 ^ 16)
      | 27 => long 8 (2 ^ 32)
      | _ => none

/-- Byte strings in rising bytewise order. -/
def bytesLt : Bytes → Bytes → Bool
  | [], [] => false
  | [], _ :: _ => true
  | _ :: _, [] => false
  | x :: a, y :: b => if x = y then bytesLt a b else decide (x.toNat < y.toNat)

def rising : List Bytes → Bool
  | x :: y :: r => bytesLt x y && rising (y :: r)
  | _ => true

/-- Every second element. -/
def evens {α : Type} : List α → List α
  | x :: _ :: r => x :: evens r
  | [x] => [x]
  | [] => []

/-- `n` items in a row, each with its bytes. -/
def cborItems : Nat → Nat → Bytes → Option (List (Cbor × Bytes) × Bytes)
  | _, 0, b => some ([], b)
  | 0, _, _ => none
  | f + 1, n + 1, b =>
    let one : Option (Cbor × Bytes) :=
      match cborHead b with
      | none => none
      | some (m, v, r) =>
        match m with
        | 0 => some (.uint v, r)
        | 1 => some (.nint v, r)
        | 2 => if r.length < v then none else some (.bytes (r.take v), r.drop v)
        | 3 => if r.length < v then none else some (.text (r.take v), r.drop v)
        | 4 => (cborItems f v r).map fun p => (.arr (p.1.map (·.1)), p.2)
        | 5 =>
          match cborItems f (2 * v) r with
          | none => none
          | some (l, r') => if rising ((evens l).map (·.2)) then some (.map (l.map (·.1)), r') else none
        | 6 => (cborItems f 1 r).map fun p => (.tag v (p.1.map (·.1)), p.2)
        | _ => some (.simple v, r)
    match one with
    | none => none
    | some (c, r) => (cborItems f n r).map fun p => ((c, b.take (b.length - r.length)) :: p.1, p.2)

/-- The one item a byte string encodes deterministically. -/
def cborOf (b : Bytes) : Option Cbor :=
  match cborItems (b.length + 1) 1 b with
  | some ([(c, _)], []) => some c
  | _ => none

/-- The value of an unsigned key in a map's keys and values. -/
def pairGet : List Cbor → Nat → Option Cbor
  | .uint n :: v :: r, k => if n = k then some v else pairGet r k
  | _ :: _ :: r, k => pairGet r k
  | _, _ => none

def Cbor.get (c : Cbor) (k : Nat) : Option Cbor :=
  match c with
  | .map l => pairGet l k
  | _ => none
def Cbor.asUint : Cbor → Option Nat
  | .uint n => some n
  | _ => none
def Cbor.asBytes : Cbor → Option Bytes
  | .bytes b => some b
  | _ => none
def Cbor.asList : Cbor → List Cbor
  | .arr l => l
  | _ => []
/-- An unsigned entry of a map. -/
def Cbor.nat (c : Cbor) (k : Nat) : Option Nat := (c.get k).bind Cbor.asUint
/-- A byte-string entry of a map. -/
def Cbor.bstr (c : Cbor) (k : Nat) : Option Bytes := (c.get k).bind Cbor.asBytes
/-- How many entries a map has. -/
def Cbor.size : Cbor → Nat
  | .map l => l.length / 2
  | _ => 0

end Sys2Proof.Machine
end

