-- ==== Sys2Proof/Config.lean ====
section
/-! DEFINITION. What an implementation or the integrator fixes (the reference configuration of 00_scope.md Table 0.1,
R3), the limits the manual states, and the free values: raw noise bits and what only a party outside the block knows, on
which nothing is known (log 2, log 3). -/

namespace Sys2Proof.Config
open Sys2Proof

/-! ### The reference configuration (00 Table 0.1, 01 Table 1.2) -/

def dies : Nat := 4
def memStations : Nat := 64
def linkStations : Nat := 18

def hostId : Nat := 0xC0
def keepId : Nat := 0xF0

/-- Memory station identifiers (01 R14). -/
def memIds : List Nat := List.range memStations
/-- Link station identifiers (01 R14). -/
def linkIds : List Nat := (List.range linkStations).map (0x80 + ·)
/-- Keepway node identifiers (01 R14). -/
def nodeIds : List Nat := (List.range dies).map (0xE0 + ·)

/-- The die slice of a unit (01 Table 1.2). -/
def dieOf (u : Nat) : Nat :=
  if u < 0x40 then u / 16
  else if u < 0x80 then 3
  else if u < 0x84 then 0
  else if u < 0x89 then 1
  else if u < 0x8E then 2
  else if u < 0xC0 then 3
  else if u < 0xE0 then 0
  else if u < 0xF0 then u - 0xE0
  else 0

/-! ### Time limits, in block-time ticks of 10 ns (00 Table 0.4) -/

def us (n : Nat) : Nat := 100 * n
def ms (n : Nat) : Nat := 100000 * n

/-! ### Free values -/

/-- The raw bits that the conditioner puts into its n-th block (06 R186). -/
opaque rawBits : Nat → BitVec 1024
/-- The key of the conditioner's CBC-MAC, which the manual does not give (06 R186). -/
opaque condKey : BitVec 256
/-- Whether a DER certificate is signed under an Echorn root key with a given SHA-384 digest: the block holds the digest, and
no record carries the key (07 R222, Table 7.6 step 2). -/
opaque rootSigned : Bytes → Bytes → Bool
/-- The policy map whose SHA-384 digest a member was given: the operator keeps it (07 R236, R279). -/
opaque policyMap : Bytes → Bytes
/-- The member count N of a domain, which only the anchor is given (07 R236, Table 7.14). -/
opaque domainSize : Nat → Nat
/-- Live members that a rejoining member of a domain reports: its commit carries no count (log 3). -/
opaque rejoinCount : Nat → Nat
/-- Bytes of the configuration flash past the 16 MiB every device has (14 R438). -/
opaque flashMore : Nat
/-- The manufacturer identity in the integrator's fuses (14 R437). -/
opaque makerId : BitVec 11
/-- The DER certification request of CERT_REQ over an identity key pair (12 R387). -/
opaque certRequest : Bytes → Bytes → Bytes
/-- SPDM 1.3 responder: the response a published message sequence gives, by session, request and responder keys
(07 R250). -/
opaque spdmResponse : Nat → Bytes → Bytes → Bytes
/-- A key that a completed SPDM key exchange derives, by session and label, and the 12-byte IV that goes with it (07 R250). -/
opaque spdmKey : Nat → Nat → BitVec 256
opaque spdmIv : Nat → Nat → BitVec 96
/-- Data of an IDE transaction under a stream key, sealed, and unsealed if the tag matches: PCIe's use of the key (07 R251). -/
opaque ideSeal : BitVec 256 → Bytes → Bytes
opaque ideOpen : BitVec 256 → Bytes → Bytes → Option Bytes
/-- The export master secret of an SPDM session (08 R289). -/
opaque spdmExport : Nat → Nat → Bytes
/-- What Sett's program asks of memory in a control clock: the manual does not give the program (12 R394; log 147). -/
opaque settAccess : Nat → BitVec 68
/-- The protocol engine that a command's work runs on (13 R412 does not say). -/
opaque traceEngine : Nat → Nat
/-- Branches, exceptions and returns of a source's program for a command: kind and the two address words (13 R412). -/
opaque traceBranches : Nat → Nat → List (BitVec 2 × BitVec 64)
/-- A dump section's body from what it holds: the manual names the contents, not their layout (11 Table 11.13). -/
opaque dumpBody : Nat → Bytes → Bytes
/-- What the manual leaves open in a unit's mirror registers, which it does not lay out (11 R367). -/
opaque mirrorBytes : Nat → Nat → Bytes

end Sys2Proof.Config
end

