-- ==== Sys2Proof/Syntax.lean ====
section
/-! DEFINITION. The commands of the block: one constructor for each row of spec/opcode_table.json, in the table's
order.  Every operand is plain data.

A driver command (a row whose opcode one of the manual's command tables lists) has four operands: the queue `q` it is
taken from; the 128 bytes of its ring entry as one little-endian number `e` (09_driver_interface.md Table 9.12);
and what the keep's reads of the command's input objects answer when the command runs: a code `rc` (0 when the
reads succeed) and the bytes `inp`.

A row of a memory station names the station `st`, the unit `origin` that issues the request (0 the cores, else a
station identifier of Table 1.2) and the 256 request bits as yk_ms_i_req packs them (14_integration.md Table 14.1).
A row that is a domain message names the local partition `part` that carries the job, the 16-byte mailbox header
`hdr` (07 Table 7.11) and the body. -/

namespace Sys2Proof

/-- The rows of the table of operations and events. -/
inductive Instr where
  /-- COLD_KEEP_START (R426). A rise of yk_rst_por_n, or a cold reset the block performs itself, runs the cold keep start: repair load, wake clearing, resumption of any transition, PLL lock, identity, DRBG, image selection and table build, then KEEP_READY and opening of the stations. -/
  | coldKeepStart (env : List (List (BitVec 8))) (byPin woken pufOk : Bool) (pufKey : BitVec 256) (selfFail badDies : List Nat) (raw : BitVec 4096) (kat : BitVec 2) (hang : Bool)
  /-- COLD_RESET_INPUT (R359). The cold reset input or power-on resets every domain, losing keys, tables, the vault and the time base. -/
  | coldResetInput (powerOn : Bool)
  /-- WARM_RESET_INPUT (R424). A fall of yk_rst_warm_n held low for at least 4 keep clocks requests one warm reset with cause 0x02. -/
  | warmResetInput (keepClocks : Nat)
  /-- WARM_RESET_SEQUENCE (R360). A warm reset runs safe-state entry, write-backs, the metering cut, the vault write and the hold of keep and stations in order. -/
  | warmResetSequence (lostLines lostContexts : List Nat)
  /-- WARM_KEEP_START (R427). The keep and stations are released 10 µs after the warm reset hold, and the keep start runs steps 5 to 9, restores the vault, takes any armed dump and opens the stations. -/
  | warmKeepStart (pufOk : Bool) (pufKey : BitVec 256) (selfFail badDies : List Nat) (raw : BitVec 4096) (kat : BitVec 2) (hang : Bool)
  /-- VAULT_EXPIRY (R363). 30 s after the vault write without a completed restore, the always-on domain clears the vault and the vault key. -/
  | vaultExpiry
  /-- CURRENT_LIMIT_ASSERT (R345). A fall of the current-limit input ends boost directly on every die slice and is counted. -/
  | currentLimitAssert
  /-- JUNCTION_READING (R434). A junction sample crossing a threshold refuses boost, enters the thermal step-down, or raises the thermal Fatal. -/
  | junctionReading (die : Nat) (raw : BitVec 64) (valid : BitVec 4)
  /-- STEP_DOWN_EXIT (R434). After 1 ms at or below 106 °C on every die slice, the thermal step-down ends. -/
  | stepDownExit
  /-- SENSOR_INVALID_TIMEOUT (R430). A junction sensor whose valid stays low for 10 µs is taken as reading 115 °C. -/
  | sensorInvalidTimeout (die sensor : Nat)
  /-- BOOST_BUDGET_SPENT (R435). When the boost ticks in the current bin and the 200 bins before it reach 200 ms, boost is refused or ended. -/
  | boostBudgetSpent
  /-- CIPHER_CLOCK_SWITCH (R21). At the stamped tick every die slice switches its cipher-clock divider on a common root edge. -/
  | cipherClockSwitch
  /-- HEDGEHOG_TRIP (R347). A tamper sensor trip latches and runs the lockdown: ALARM_N low, safe wires asserted, erase set cleared, keep and stations held in reset. -/
  | hedgehogTrip (sensors : BitVec 20)
  /-- LINK_DOWN (R242). A link-down input on a port attached to a tree neighbour declares that member lost. -/
  | linkDown (port : Nat)
  /-- KEEPWAY_CRC_ERROR (R18). A keepway frame with a CRC mismatch is discarded and repeated; a second failure within 1 µs raises a Fatal.
  `frame` gives the station at the link's other end, and whether the frame carried a stop stamp. -/
  | keepwayCrcError (node : Nat) (frame : Nat × Bool)
  /-- KEEPWAY_FRAME_REPEAT (R18). The repeated frame arrives 80 control clocks later, and a late stop stamp is applied at once and recorded as late. -/
  | keepwayFrameRepeat (node station : Nat)
  /-- READ_TILE (R75). A read tile request taken in at a memory station is checked and then issues its header and payload reads. -/
  | readTile (st origin : Nat) (req : BitVec 256)
  /-- READ_SECTORS (R77). A read sectors request reads each selected sector and its tag pair, each sector confirmed or poisoned on its own. -/
  | readSectors (st origin : Nat) (req : BitVec 256)
  /-- WRITE_TILE (R79). A write tile request is checked, commits at its version increment and streams sealed beats to the channel. -/
  | writeTile (st origin : Nat) (req : BitVec 256) (data : List (BitVec 8))
  /-- WRITE_RANGE (R80). A write range takes a tile lock, reads and unseals the old tile, merges the range and seals it at the next version. -/
  | writeRange (st origin : Nat) (req : BitVec 256) (data : List (BitVec 8))
  /-- ACCUMULATE (R125). An accumulate request adds a contribution into a scaled-block int32 destination tile and seals the sums at the next version. -/
  | accumulate (st origin : Nat) (req : BitVec 256) (data : List (BitVec 8))
  /-- HEADER_READ_RETURN (R75). When the header returns showing a stored length beyond what was read, the station issues the rest of the read. -/
  | headerReadReturn (st acc : Nat) (hdr : List (BitVec 8))
  /-- CHANNEL_READ_RETURN (R76). Read beats returning from the channel are unsealed and forwarded, and the tag check yields a confirm or a poison. -/
  | channelReadReturn (st acc : Nat) (data : List (BitVec 8))
  /-- CHANNEL_WRITE_ACK (R79). The channel's acceptance of a write's last beat and header applies the write and returns its write completion. -/
  | channelWriteAck (st acc : Nat)
  /-- LINE_FETCH_RETURN (R85). A fetched version line is checked by MAC and PARTITION and installed in the cache, or made Broken. -/
  | lineFetchReturn (st entry : Nat) (line : BitVec 512)
  /-- KEY_DELIVERY (R194). The keep answers a station's key request with a delivery frame, holds it until the key becomes usable, or refuses it. -/
  | keyDelivery (st slot : Nat) (gen : BitVec 32)
  /-- DESCRIPTOR_REFILL (R74). A region descriptor arrives from the keep to fill an isolation-checker miss. -/
  | descriptorRefill (st : Nat) (handle : BitVec 32)
  /-- REQUEST_TIMEOUT (R88). A memory-station request that has waited 1 ms without issuing or committing fails with YE_TIMEOUT. -/
  | requestTimeout (st : Nat) (tag : BitVec 10)
  /-- RESEAL_SLOT (R62). The re-seal engine unseals one slot at the old major, seals it at the new major and advances CURSOR, ending the re-seal after slot 31. -/
  | resealSlot (st : Nat) (hdr payload : List (BitVec 8))
  /-- REGION_REKEY_START (R92). A Rotation requested or Exhausted report, or a key command, starts a region re-key under a new region key. -/
  | regionRekeyStart (obj station : Nat) (cause : BitVec 8)
  /-- REKEY_MOVE (R93). A re-key moves the next line, sealed tile or Broken line behind the re-key cursor onto the new key. -/
  | rekeyMove (st obj : Nat) (hdr payload : List (BitVec 8))
  /-- REGION_REKEY_COMMIT (R95). When every placement has been moved the slot commits, and the old key is retired and drained. -/
  | regionRekeyCommit (obj : Nat)
  /-- KEY_RETIRING_MARK (R99). A key-retiring mark arriving at a station makes it refuse new requests under that key. -/
  | keyRetiringMark (st slot : Nat)
  /-- KEY_DRAIN_CUT (R99). A drain cut poisons unconfirmed reads and fails uncommitted writes under the retiring key. -/
  | keyDrainCut (st slot : Nat)
  /-- EPOCH_RETIREMENT_CUT (R100). An epoch retirement cut poisons or fails in-flight requests of the retired epoch. -/
  | epochRetirementCut (st : Nat)
  /-- FREEZE_ARRIVAL (R101). A partition or region freeze arriving at a station fails uncommitted writes and confirms when none are in flight. -/
  | freezeArrival (st part obj : Nat)
  /-- SAFE_STATE_ENTRY (R104). On safe-wire assertion the station stops write intake and channel writes within 100 ns and cuts late committed writes.
  `unit` comes with the egress instances of which a link station cut a packet in emission (R183). -/
  | safeStateEntry (unit : Nat × List Nat)
  /-- STOP_TICK (R352). At stop tick T every station stops intake, completes work in hand, closes open bundles and records its stop point. -/
  | stopTick
  /-- RESUME_TICK (R357). At resume tick R every station leaves Stopped and resumes intake and paused work. -/
  | resumeTick
  /-- MEASURED_HASH_COMPLETE (R113). When a stripe's tiles are hashed the station computes the level-1 node and sends it to the keep. -/
  | measuredHashComplete (st obj stripe : Nat)
  /-- REGION_SEAL_FOLD (R114). Once every load cursor is full and every level-1 digest has arrived the keep computes the upper levels and folds m_r into the PMR. -/
  | regionSealFold (obj : Nat)
  /-- LINK_REQUEST_INTAKE (R139). A request on a link station's inner port is checked, sequenced, sealed and sent. -/
  | linkRequestIntake (st : Nat) (req : BitVec 224) (data : List (BitVec 8))
  /-- INSTANCE_OPEN (R149). An egress station opens a new stream instance with a fresh epoch and issues no packet until the record write-back is applied. -/
  | instanceOpen (st part peer : Nat) (space : Bool)
  /-- CONTEXT_REFILL_DONE (R148). A stream context record read from the backing region and checked enters the station as Open, Closed or Lost.
  `space` comes with the code of the read: 0 when the sector's tag has passed. -/
  | contextRefillDone (st part peer : Nat) (dir : Bool) (space : Bool × BitVec 16)
  /-- BUNDLE_FLUSH_TIMEOUT (R168). A bundle's flush timeout passes since its first Store, and the bundle closes and is sent. -/
  | bundleFlushTimeout (st part peer : Nat)
  /-- PACKET_ARRIVAL (R153). An arriving packet's headers are checked for job, generation, lost members, context and window, and its tag is checked as it lands. -/
  | packetArrival (st slot : Nat) (bytes : List (BitVec 8))
  /-- PACKET_APPLY (R154). The next in-sequence packet whose tag has passed is read back, unsealed and its operations handed on, advancing SEQ. -/
  | packetApply (st part peer : Nat) (space : Bool)
  /-- LOAD_DATA_RELEASE (R159). On the memory station's confirm the sealed Load data response is released, or a poison becomes an Error response. -/
  | loadDataRelease (st tag : Nat)
  /-- FLAGGED_STORE_RELEASE (R160). When every earlier Store of the instance has completed, the held flagged Store is issued. -/
  | flaggedStoreRelease (st part peer : Nat)
  /-- ATOMIC_RESULT (R161). The atomic unit returns the old value and the station seals it into an Atomic result. -/
  | atomicResult (st tag : Nat) (old : BitVec 64)
  /-- INVALIDATE_DONE (R162). The surroundings report no cached copy remains and the station answers Invalidate done. -/
  | invalidateDone (st tag : Nat)
  /-- FLUSH_DONE (R163). Every earlier operation and write completion has returned and the station answers Flush done. -/
  | flushDone (st tag : Nat)
  /-- GAP_TIMEOUT (R157). A space whose next sequence has not arrived 200 µs after a later one breaks, dropping held packets and sending a Break. -/
  | gapTimeout (st part peer : Nat) (space : Bool)
  /-- TRACKER_TIMEOUT (R166). A tracker unanswered 2 ms after its packet left fails its fence with YE_TIMEOUT. -/
  | trackerTimeout (st idx : Nat)
  /-- ROTATION_COMMIT_ARRIVAL (R175). The Commit of a new job key generation reaches the link stations and each egress space opens a new instance. -/
  | rotationCommitArrival (part : Nat)
  /-- GENERATION_DRAIN_TIMEOUT (R177). 200 µs after Commit with no old-generation packet held, the station reports the previous generation drained. -/
  | generationDrainTimeout (st part : Nat)
  /-- MEMBER_LOST_ARRIVAL (R178). A member-lost broadcast at a link station lists the member, makes its contexts Lost, drops its packets and fails its trackers. -/
  | memberLostArrival (part : Nat) (dev : BitVec 18) (mark : BitVec 14)
  /-- BULK_COMPLETION_REPORT (R170). A bulk tile's write completion reaches the keep, which updates the arrival counter. -/
  | bulkCompletionReport (st tag : Nat)
  /-- HOST_DMA_REQUEST (R33). A host DMA or IDE transaction is checked by the host station and passed, sealed or unsealed. -/
  | hostDmaRequest (iface stream : Nat) (ide tbit write : Bool) (req : BitVec 256) (data tag : List (BitVec 8))
  /-- IDE_INTEGRITY_FAILURE (R251). An IDE integrity failure ends the stream and raises a Degrade against the host station. -/
  | ideIntegrityFailure (stream : Nat)
  /-- SPDM_REQUEST (R250). An SPDM request is answered by the keep as responder, or with UnsupportedRequest. -/
  | spdmRequest (session : Nat) (msg : List (BitVec 8))
  /-- KEY_PROG (R251). IDE_KM KEY_PROG writes a key into the pending half of an IDE slot inside a secured session. -/
  | keyProg (session stream keySet sub : Nat) (key : BitVec 256)
  /-- K_SET_GO (R251). IDE_KM K_SET_GO commits the programmed IDE key set. -/
  | kSetGo (session stream keySet : Nat)
  /-- K_SET_STOP (R251). IDE_KM K_SET_STOP stops an IDE key set. -/
  | kSetStop (session stream keySet : Nat)
  /-- LOCK_INTERFACE_REQUEST (R252). TDISP LOCK_INTERFACE_REQUEST binds an interface to a partition and locks it. -/
  | lockInterfaceRequest (session iface part stream : Nat)
  /-- START_INTERFACE_REQUEST (R252). TDISP START_INTERFACE_REQUEST moves a locked interface to RUN. -/
  | startInterfaceRequest (session iface : Nat)
  /-- STOP_INTERFACE_REQUEST (R252). TDISP STOP_INTERFACE_REQUEST returns an interface to CONFIG_UNLOCKED. -/
  | stopInterfaceRequest (session iface : Nat)
  /-- GET_DEVICE_INTERFACE_REPORT (R252). TDISP interface report returns the partition ID and PMR. -/
  | getDeviceInterfaceReport (session iface : Nat)
  /-- HOST_DOORBELL_WRITE (R301). A write of TAIL to a host queue doorbell moves an Open host queue, or is ignored and counted. -/
  | hostDoorbellWrite (q : Nat) (v : BitVec 64)
  /-- DEVICE_DOORBELL_WRITE (R301). A doorbell-port write of a device queue tail publishes commands if the core's lease and queue checks pass. -/
  | deviceDoorbellWrite (q : Nat) (v src : BitVec 32)
  /-- RUN_NOTICE (R261). A run-register write records which lessee runs on a slice, for metering, from the next tick. -/
  | runNotice (v src : BitVec 32)
  /-- ARRIVAL_COUNTER_READ (R170). A doorbell-port read of an arrival counter is served to its partition and refused to others. -/
  | arrivalCounterRead (idx : Nat) (src : BitVec 32)
  /-- ADMIN_ENABLE (R296). Setting ADMIN_CTRL.ENABLE reads the admin registers and starts context 0 and queue 0. -/
  | adminEnable (v : BitVec 32)
  /-- TABLE_READ (R297). Writing GO latches the selected table entry into TABLE_DATA and sets DONE or ERR. -/
  | tableRead (v : BitVec 32)
  /-- EVENT_HEAD_WRITE (R323). The driver writes an event ring HEAD, freeing room for events. -/
  | eventHeadWrite (ctx : Nat) (v : BitVec 64)
  /-- FAULT_ACKNOWLEDGE (R339). Writing UNACK bits of a station word acknowledges that unit's faults of those classes on arrival. -/
  | faultAcknowledge (unit : Nat) (v : BitVec 32)
  /-- UNIT_SNAPSHOT (R402). SNAP_CTRL GO with PROFILE 0 latches a unit's counter block into SNAP_DATA. -/
  | unitSnapshot (v : BitVec 32)
  /-- PROFILE_SNAPSHOT (R409). SNAP_CTRL GO with PROFILE 1 reads a profile set's counters into SNAP_DATA. -/
  | profileSnapshot (v : BitVec 32)
  /-- HEARTBEAT_WRITE (R364). A write to the watchdog beat register is accepted if one above the last, clearing the missed count, or ignored and counted. -/
  | heartbeatWrite (v : BitVec 16)
  /-- REGISTER_WRITE (R295). A write to a register with no behaviour of its own updates it, or is ignored at an unlisted offset. -/
  | registerWrite (off : Nat) (wide : Bool) (v : BitVec 64)
  /-- COMMAND_START (R307). A taken command whose predecessors have started and whose wait fences are satisfied starts. -/
  | commandStart (q : Nat) (seq : BitVec 32) (rc : BitVec 16) (inp : List (BitVec 8))
  /-- COMMAND_WAIT_TIMEOUT (R307). A command still Queued or Waiting when the queue's wait limit passes fails with YE_TIMEOUT. -/
  | commandWaitTimeout (q : Nat) (seq : BitVec 32)
  /-- TAKE_PAUSE_TIMEOUT (R306). A take paused on a Pending completion fence reaches the wait limit and completes at once with YE_TIMEOUT. -/
  | takePauseTimeout (q : Nat)
  /-- FENCE_FAILURE_REPORT (R312). A failure report against a fence is counted and sets the code and detail if first, or is discarded as stray. -/
  | fenceFailureReport (fence part : Nat) (code : BitVec 16) (detail : BitVec 128)
  /-- OBJECT_RETIRE (R322). A Doomed object's queued-reference count reaches zero, so its key retires and the region is drained and crypto-erased. -/
  | objectRetire (obj : Nat)
  /-- CTX_CLOSE_COMPLETE (R325). When every command of a Closing context has completed, the close proceeds as an abandon. -/
  | ctxCloseComplete (ctx : Nat)
  /-- EPOCH_DRAIN_COMPLETE (R265). The last station's zero report retires the draining epoch. -/
  | epochDrainComplete
  /-- EPOCH_DRAIN_TIMEOUT (R265). 5 ms after an install the keep cuts the draining epoch in every station and retires it. -/
  | epochDrainTimeout
  /-- KEY_DRAIN_COMPLETE (R205). When every station reports its count for a retiring slot at zero, both halves are destroyed and the slot becomes Empty. -/
  | keyDrainComplete (slot : Nat)
  /-- KEY_DRAIN_TIMEOUT (R205). A retirement's drain limit passes and the keep cuts the drain and destroys the slot. -/
  | keyDrainTimeout (slot : Nat)
  /-- KEY_PURGE_CONFIRM (R204). On the last station's purge confirmation the keep overwrites the half with zeros and logs the destruction. -/
  | keyPurgeConfirm (slot st : Nat) (gen : BitVec 32)
  /-- SWAP_CONFIRM (R201). A station's confirmation of a key swap; the last one, with the drain condition, lets the old half be destroyed. -/
  | swapConfirm (slot st : Nat)
  /-- PARTITION_REMOVAL_DRAIN_END (R284). A removal's drain ends at zero counts or the 2 ms cut. -/
  | partitionRemovalDrainEnd (part : Nat)
  /-- PARTITION_REMOVAL_FLIGHT_EXPIRY (R284). 200 µs after the drain ends the keep destroys the partition's slots, signals the fence and frees its records. -/
  | partitionRemovalFlightExpiry (part : Nat)
  /-- METERING_INTERVAL_END (R288). At each 1 s boundary the keep forms, MACs and chains one metering record per non-Free tenant partition. -/
  | meteringIntervalEnd
  /-- METERING_CHECKPOINT (R290). At each 60 s boundary the keep writes a checkpoint with a part-level bundle whose nonce is the chain hash. -/
  | meteringCheckpoint
  /-- FAULT_WINDOW_CLOSE (R333). A counted source's window closes W after it opened and its count is cleared. -/
  | faultWindowClose (unit : Nat) (src : BitVec 8)
  /-- WATCHDOG_PERIOD_EXPIRY (R364). A 1 ms period ends without an accepted beat; at ten misses a Fatal and a warm reset with cause 0x03 follow. -/
  | watchdogPeriodExpiry
  /-- WATCHDOG_START_TIMEOUT (R364). No beat accepted within 100 ms of keep start raises the hang Fatal. -/
  | watchdogStartTimeout
  /-- NOISE_SOURCE_FAILURE (R188). A health test failure disables a noise source and raises a fault, stopping generation below two sources.
  `source` comes with the raw bits on which it failed. -/
  | noiseSourceFailure (source : Nat × BitVec 1024)
  /-- DRBG_RESEED (R186). A DRBG instance reseeds after 4,096 generates or 100 ms. -/
  | drbgReseed (inst : Nat)
  /-- DRBG_WAIT_TIMEOUT (R188). A key generation or RANDOM_GET still waiting for entropy after 1 ms fails with YE_TIMEOUT. -/
  | drbgWaitTimeout (q : Nat) (seq : BitVec 32)
  /-- DUMP_TRIGGER (R367). An armed trigger latches every unit's dump mirror; the dump runs at once or at the next keep start. -/
  | dumpTrigger (kind : BitVec 8)
  /-- DUMP_SOURCE_TIMEOUT (R368). A dump source silent for 10 µs is marked unreachable and the engine moves on. -/
  | dumpSourceTimeout (unit : Nat)
  /-- TRACE_DRAIN (R415). A trace buffer holding 512 records, or with a record 1 ms old, is drained into per-owner trace blocks. -/
  | traceDrain (source : Nat)
  /-- PROFILE_BOUNDARY (R408). At the start of the bound queue's next command stations sample and reset the set, and the keep writes a sample record. -/
  | profileBoundary (set : Nat)
  /-- PROFILE_IDLE_BOUNDARY (R408). 100 µs after a command completed with none started, an idle boundary is taken. -/
  | profileIdleBoundary (set : Nat)
  /-- LC_TRANSITION_SEQUENCE (R382). After STEP1 the always-on sequencer wipes, burns the target, verifies and cold-resets into the new state. -/
  | lcTransitionSequence (readBackOk : Bool)
  /-- TEST_SESSION_START (R390). The first open of a Memory test or Scan segment enters the safe state, wipes and holds every station Closed. -/
  | testSessionStart (segment : BitVec 8)
  /-- TAP_LC_REQUEST (R380). A transition request through the LC_REQUEST TAP register is checked and, if accepted, starts the transition. -/
  | tapLcRequest (bytes : List (BitVec 8))
  /-- TAP_TOKEN (R388). A token entered through TOKEN is compared; a match burns its bit, wipes and enters Maker-Test. -/
  | tapToken (idx : BitVec 4) (token : BitVec 256)
  /-- REPAIR_RECORD_BURN (R393). A repair record is burnt through the Memory test segment, or refused. -/
  | repairRecordBurn (rec : BitVec 32) (columns : Nat)
  /-- BEAT_SEND (R242). Every 25 µs a member sends a BEAT to its parent and each child. -/
  | beatSend (part : Nat)
  /-- BEAT (R242). A received BEAT restarts the neighbour's beat timeout. -/
  | beat (part : Nat) (hdr : BitVec 128) (body : List (BitVec 8))
  /-- BEAT_TIMEOUT (R242). No BEAT for 100 µs declares the neighbour lost and sends a LOSS_REPORT. -/
  | beatTimeout (part peer : Nat)
  /-- LOSS_REPORT (R244). The anchor takes the first valid LOSS_REPORT, raises the stream mark, chooses an adopter and sends MEMBER_LOST. -/
  | lossReport (part : Nat) (hdr : BitVec 128) (body : List (BitVec 8))
  /-- MEMBER_LOST (R244). A member forwards MEMBER_LOST to its children and passes it to its link stations. -/
  | memberLost (part : Nat) (hdr : BitVec 128) (body : List (BitVec 8))
  /-- MARK_REQUEST (R152). The anchor raises the domain stream mark on a member's request. -/
  | markRequest (part : Nat) (hdr : BitVec 128) (body : List (BitVec 8))
  /-- MARK (R152). A new domain stream mark is applied, releasing stalled stations and committing a rejoining member. -/
  | mark (part : Nat) (hdr : BitVec 128) (body : List (BitVec 8))
  /-- ROTATE_REQUEST (R248). The anchor starts, merges or queues a job-key rotation. -/
  | rotateRequest (part : Nat) (hdr : BitVec 128) (body : List (BitVec 8))
  /-- ROTATE_PREPARE (R248). A member unwraps the new keys into pending halves, verifies and re-wraps them for its children. -/
  | rotatePrepare (part : Nat) (hdr : BitVec 128) (body : List (BitVec 8))
  /-- ROTATE_CONFIRM (R248). A child's rotation confirmation is counted when its key check values match. -/
  | rotateConfirm (part : Nat) (hdr : BitVec 128) (body : List (BitVec 8))
  /-- ROTATE_COMMIT (R248). A member forwards ROTATE_COMMIT and commits its slots. -/
  | rotateCommit (part : Nat) (hdr : BitVec 128) (body : List (BitVec 8))
  /-- ROTATE_ABORT (R248). A member zeroes its pending halves, or leaves and rejoins if it has already committed. -/
  | rotateAbort (part : Nat) (hdr : BitVec 128) (body : List (BitVec 8))
  /-- ROTATION_DECIDE_TIMEOUT (R248). 20 ms after PREPARE the anchor commits, declaring missing members lost, or aborts. -/
  | rotationDecideTimeout (part : Nat)
  /-- ROTATION_RETRY (R248). 10 ms after an abort the anchor starts a new rotation with fresh keys. -/
  | rotationRetry (part : Nat)
  /-- ADOPT (R245). An orphan's ADOPT records run the admission exchange without key transfer with its adopter. -/
  | adopt (part : Nat) (hdr : BitVec 128) (body : List (BitVec 8))
  /-- TAKEOVER (R246). A TAKEOVER names the new anchor and deputy after the anchor's loss. -/
  | takeover (part : Nat) (hdr : BitVec 128) (body : List (BitVec 8))
  /-- TABLE_SYNC (R243). The deputy applies the anchor's copy of member generations and states. -/
  | tableSync (part : Nat) (hdr : BitVec 128) (body : List (BitVec 8))
  /-- LEAVE (R253). A LEAVE message records a member's departure as a loss with cause 0x05. -/
  | leave (part : Nat) (hdr : BitVec 128) (body : List (BitVec 8))
  /-- DOMAIN_END_MESSAGE (R253). A DOMAIN_END message is forwarded and makes the member Detached. -/
  | domainEndMessage (part : Nat) (hdr : BitVec 128) (body : List (BitVec 8))
  /-- REJOIN_WINDOW_EXPIRY (R247). A lost member not rejoined within the rejoin window starts a rotation with cause 0x07. -/
  | rejoinWindowExpiry (part dev : Nat)
  /-- FORMATION_TIMEOUT (R234). A side waiting longer than the formation timeout refuses with reason 0x0B, or the anchor sends FORM_COMMIT. -/
  | formationTimeout (part peer : Nat)
  /-- ADMIT_OFFER (R234). A Prepared child takes an offer, encapsulates and writes ADMIT_REPLY with its bundle. -/
  | admitOffer (part : Nat)
  /-- ADMIT_REPLY (R234). The parent verifies the child's bundle and writes ADMIT_GRANT with the wrapped keys. -/
  | admitReply (part : Nat)
  /-- ADMIT_GRANT (R234). The child verifies the parent's bundle and mac_p and unwraps and verifies the keys into pending halves. -/
  | admitGrant (part : Nat)
  /-- ADMIT_CONFIRM (R234). The parent checks mac_c and the key check values and counts the child's subtree. -/
  | admitConfirm (part : Nat)
  /-- FORM_COMMIT (R239). A member whose FORM_COMMIT MAC verifies commits its job and checkpoint slots and forwards it. -/
  | formCommit (part : Nat)
  /-- ADMIT_REFUSE (R234). A refusal ends the exchange and destroys every key of the exchange. -/
  | admitRefuse (part : Nat)
  /-- MIG_OFFER (R279). The destination takes a migration offer and replies. -/
  | migOffer (part : Nat)
  /-- MIG_REPLY (R279). The source verifies the destination's bundle and sends MIG_GRANT. -/
  | migReply (part : Nat)
  /-- MIG_GRANT (R279). The destination verifies the source's bundle and derives k_mig. -/
  | migGrant (part : Nat)
  /-- MIG_CONFIRM (R279). A verified MIG_CONFIRM makes the source partition Exporting. -/
  | migConfirm (part : Nat)
  /-- HANDOFF_OFFER_MESSAGE (R272). The receiver takes a fitting landing region, opens an arrival counter and answers ACCEPT or REFUSE. -/
  | handoffOfferMessage (part : Nat) (hdr : BitVec 128) (body : List (BitVec 8))
  /-- HANDOFF_ACCEPT (R273). The offerer copies the region's tiles onto the landing region by bulk copy, ending with a Flush. -/
  | handoffAccept (part : Nat) (hdr : BitVec 128) (body : List (BitVec 8))
  /-- HANDOFF_COMMIT (R273). The receiver commits a complete landing region and answers ACK, or refuses. -/
  | handoffCommit (part : Nat) (hdr : BitVec 128) (body : List (BitVec 8))
  /-- HANDOFF_ACK (R274). The offerer becomes Released, frees its region and sends HANDOFF_RELEASED. -/
  | handoffAck (part : Nat) (hdr : BitVec 128) (body : List (BitVec 8))
  /-- HANDOFF_RELEASED (R274). The receiver clears the landing and freeze flags and sends HANDOFF_CLOSE. -/
  | handoffReleased (part : Nat) (hdr : BitVec 128) (body : List (BitVec 8))
  /-- HANDOFF_REFUSE (R275). The offerer reclaims the region and fails the offer with YE_HANDOFF_FAILED. -/
  | handoffRefuse (part : Nat) (hdr : BitVec 128) (body : List (BitVec 8))
  /-- HANDOFF_QUERY (R276). The offerer answers with HANDOFF_STATE. -/
  | handoffQuery (part : Nat) (hdr : BitVec 128) (body : List (BitVec 8))
  /-- HANDOFF_STATE (R276). The receiver owns or discards its landing content according to the offerer's state. -/
  | handoffState (part : Nat) (hdr : BitVec 128) (body : List (BitVec 8))
  /-- HANDOFF_CLOSE (R277). The offerer drops its handoff record. -/
  | handoffClose (part : Nat) (hdr : BitVec 128) (body : List (BitVec 8))
  /-- HANDOFF_RETRANSMIT (R275). Each 1 ms without an answer the offerer retransmits, reclaiming after 8 retransmissions. -/
  | handoffRetransmit (num : BitVec 32)
  /-- HANDOFF_QUERY_TIMER (R276). A receiver silent for 10 ms sends HANDOFF_QUERY. -/
  | handoffQueryTimer (dev : Nat) (num : BitVec 32)
  /-- STOP_MESSAGE (R354). A member forwards STOP and stamps its own stop tick. -/
  | stopMessage (part : Nat) (hdr : BitVec 128) (body : List (BitVec 8))
  /-- RESUME_MESSAGE (R354). A member forwards RESUME and stamps its own resume tick. -/
  | resumeMessage (part : Nat) (hdr : BitVec 128) (body : List (BitVec 8))
  /-- REGION_RELOAD (R68). Takes a new load generation and returns a sealed region to Loading. -/
  | regionReload (q : Nat) (e : BitVec 1024) (rc : BitVec 16) (inp : List (BitVec 8))
  /-- REGION_SEAL (R114). Seals a Loading region once every load cursor is full, folding its measurement if measured. -/
  | regionSeal (q : Nat) (e : BitVec 1024) (rc : BitVec 16) (inp : List (BitVec 8))
  /-- ACC_OPEN (R133). Opens an accumulation descriptor in every station of its destination and arms its stream fence. -/
  | accOpen (q : Nat) (e : BitVec 1024) (rc : BitVec 16) (inp : List (BitVec 8))
  /-- ACC_CLOSE (R131). Closes a descriptor, drains it, sums its counters and completes its stream fence. -/
  | accClose (q : Nat) (e : BitVec 1024) (rc : BitVec 16) (inp : List (BitVec 8))
  /-- LINK_JOB_CONFIG (R182). Sets a job's flush timeout and port map. -/
  | linkJobConfig (q : Nat) (e : BitVec 1024) (rc : BitVec 16) (inp : List (BitVec 8))
  /-- ARRIVAL_OPEN (R170). Opens an arrival counter on a destination object. -/
  | arrivalOpen (q : Nat) (e : BitVec 1024) (rc : BitVec 16) (inp : List (BitVec 8))
  /-- ARRIVAL_CLOSE (R182). Closes an arrival counter and returns it. -/
  | arrivalClose (q : Nat) (e : BitVec 1024) (rc : BitVec 16) (inp : List (BitVec 8))
  /-- BULK_COPY (R169). Copies whole tiles of a local object to a remote object as Bulk tile packets, ending with a Flush. -/
  | bulkCopy (q : Nat) (e : BitVec 1024) (rc : BitVec 16) (inp : List (BitVec 8))
  /-- CKPT_SEND (R179). Builds, seals and sends a checkpoint record to its data and parity holders. -/
  | ckptSend (q : Nat) (e : BitVec 1024) (rc : BitVec 16) (inp : List (BitVec 8))
  /-- CKPT_RESTORE (R181). Unseals a checkpoint record and writes its tiles. -/
  | ckptRestore (q : Nat) (e : BitVec 1024) (rc : BitVec 16) (inp : List (BitVec 8))
  /-- PARITY_REBUILD (R181). Recovers up to two missing shards from the surviving shards and parity. -/
  | parityRebuild (q : Nat) (e : BitVec 1024) (rc : BitVec 16) (inp : List (BitVec 8))
  /-- KEY_CREATE (R217). Creates a tenant-class key in a new slot. -/
  | keyCreate (q : Nat) (e : BitVec 1024) (rc : BitVec 16) (inp : List (BitVec 8))
  /-- KEY_ROTATE (R217). Replaces the key of a slot, or starts a region re-key by threshold. -/
  | keyRotate (q : Nat) (e : BitVec 1024) (rc : BitVec 16) (inp : List (BitVec 8))
  /-- KEY_RETIRE_PREVIOUS (R217). Destroys the old half of a Draining tenant-class slot. -/
  | keyRetirePrevious (q : Nat) (e : BitVec 1024) (rc : BitVec 16) (inp : List (BitVec 8))
  /-- KEY_DESTROY (R217). Retires and destroys a tenant-class slot. -/
  | keyDestroy (q : Nat) (e : BitVec 1024) (rc : BitVec 16) (inp : List (BitVec 8))
  /-- KEY_QUERY (R217). Returns a slot's attribute word and key check values. -/
  | keyQuery (q : Nat) (e : BitVec 1024) (rc : BitVec 16) (inp : List (BitVec 8))
  /-- KEY_IMPORT (R217). Unwraps a tenant key into a new slot. -/
  | keyImport (q : Nat) (e : BitVec 1024) (rc : BitVec 16) (inp : List (BitVec 8))
  /-- CIPHER_GCM_SEAL (R211). Seals text under a tenant key with an engine-built nonce, possibly chained. -/
  | cipherGcmSeal (q : Nat) (e : BitVec 1024) (rc : BitVec 16) (inp : List (BitVec 8))
  /-- CIPHER_GCM_UNSEAL (R213). Checks the tag in one pass and decrypts in a second only on a match. -/
  | cipherGcmUnseal (q : Nat) (e : BitVec 1024) (rc : BitVec 16) (inp : List (BitVec 8))
  /-- CIPHER_CTR (R210). Encrypts or decrypts in CTR mode. -/
  | cipherCtr (q : Nat) (e : BitVec 1024) (rc : BitVec 16) (inp : List (BitVec 8))
  /-- CIPHER_CMAC (R210). Computes or verifies a CMAC. -/
  | cipherCmac (q : Nat) (e : BitVec 1024) (rc : BitVec 16) (inp : List (BitVec 8))
  /-- CIPHER_WRAP (R210). Wraps data with KW or KWP. -/
  | cipherWrap (q : Nat) (e : BitVec 1024) (rc : BitVec 16) (inp : List (BitVec 8))
  /-- CIPHER_UNWRAP (R213). Unwraps data, writing nothing unless the check passes. -/
  | cipherUnwrap (q : Nat) (e : BitVec 1024) (rc : BitVec 16) (inp : List (BitVec 8))
  /-- STATE_SAVE (R215). Saves a user's chaining state as a MACed record and frees the user. -/
  | stateSave (q : Nat) (e : BitVec 1024) (rc : BitVec 16) (inp : List (BitVec 8))
  /-- STATE_RESTORE (R216). Checks a saved record and restores it into a free user. -/
  | stateRestore (q : Nat) (e : BitVec 1024) (rc : BitVec 16) (inp : List (BitVec 8))
  /-- OP_CANCEL (R214). Cancels a chained cipher operation. -/
  | opCancel (q : Nat) (e : BitVec 1024) (rc : BitVec 16) (inp : List (BitVec 8))
  /-- RANDOM_GET (R187). Writes DRBG instance 1 output to an object. -/
  | randomGet (q : Nat) (e : BitVec 1024) (rc : BitVec 16) (inp : List (BitVec 8))
  /-- EVIDENCE_GET (R228). Latches claims and signs a Zeler evidence bundle. -/
  | evidenceGet (q : Nat) (e : BitVec 1024) (rc : BitVec 16) (inp : List (BitVec 8))
  /-- IDENTITY_GET (R253). Returns the UEID and the identity certificate chain. -/
  | identityGet (q : Nat) (e : BitVec 1024) (rc : BitVec 16) (inp : List (BitVec 8))
  /-- DOMAIN_CREATE (R238). Makes the anchor a Member, generates the job and checkpoint keys and writes offers to its children. -/
  | domainCreate (q : Nat) (e : BitVec 1024) (rc : BitVec 16) (inp : List (BitVec 8))
  /-- DOMAIN_JOIN_PREPARE (R234). Puts a partition in Prepared for a domain or a rejoin. -/
  | domainJoinPrepare (q : Nat) (e : BitVec 1024) (rc : BitVec 16) (inp : List (BitVec 8))
  /-- DOMAIN_MESSAGE (R230). Delivers an admission or migration record from the management path to the block. -/
  | domainMessage (q : Nat) (e : BitVec 1024) (rc : BitVec 16) (inp : List (BitVec 8))
  /-- DOMAIN_LEAVE (R253). Sends LEAVE and retires the member's domain keys. -/
  | domainLeave (q : Nat) (e : BitVec 1024) (rc : BitVec 16) (inp : List (BitVec 8))
  /-- DOMAIN_END (R253). At the anchor sends DOMAIN_END down the tree. -/
  | domainEnd (q : Nat) (e : BitVec 1024) (rc : BitVec 16) (inp : List (BitVec 8))
  /-- DOMAIN_ROTATE (R248). Starts a job or checkpoint key rotation at the anchor. -/
  | domainRotate (q : Nat) (e : BitVec 1024) (rc : BitVec 16) (inp : List (BitVec 8))
  /-- DOMAIN_STATUS (R253). Returns a member's domain state. -/
  | domainStatus (q : Nat) (e : BitVec 1024) (rc : BitVec 16) (inp : List (BitVec 8))
  /-- DOMAIN_ATTACH_MAP (R253). Sets which device is attached to each of 16 ports. -/
  | domainAttachMap (q : Nat) (e : BitVec 1024) (rc : BitVec 16) (inp : List (BitVec 8))
  /-- PART_CREATE (R257). Creates a tenant partition with its version and trace keys. -/
  | partCreate (q : Nat) (e : BitVec 1024) (rc : BitVec 16) (inp : List (BitVec 8))
  /-- PART_REMOVE (R284). Starts a partition's removal, retiring every slot it owns. -/
  | partRemove (q : Nat) (e : BitVec 1024) (rc : BitVec 16) (inp : List (BitVec 8))
  /-- COMPOSE (R264). Checks a slice map and installs it as a new map epoch, waiting for any draining epoch. -/
  | compose (q : Nat) (e : BitVec 1024) (rc : BitVec 16) (inp : List (BitVec 8))
  /-- PART_FREEZE (R278). Freezes every region of a partition by the Bear migration freeze. -/
  | partFreeze (q : Nat) (e : BitVec 1024) (rc : BitVec 16) (inp : List (BitVec 8))
  /-- PART_THAW (R278). Returns a Frozen partition to Active. -/
  | partThaw (q : Nat) (e : BitVec 1024) (rc : BitVec 16) (inp : List (BitVec 8))
  /-- MIGRATE_PREPARE (R279). Reserves an Importing partition at the destination. -/
  | migratePrepare (q : Nat) (e : BitVec 1024) (rc : BitVec 16) (inp : List (BitVec 8))
  /-- MIGRATE_START (R279). Starts the migration exchange at the source. -/
  | migrateStart (q : Nat) (e : BitVec 1024) (rc : BitVec 16) (inp : List (BitVec 8))
  /-- MIGRATE_EXPORT (R280). Writes sealed export records into an output object. -/
  | migrateExport (q : Nat) (e : BitVec 1024) (rc : BitVec 16) (inp : List (BitVec 8))
  /-- MIGRATE_IMPORT (R282). Applies export records in strict order and returns the receipt after End. -/
  | migrateImport (q : Nat) (e : BitVec 1024) (rc : BitVec 16) (inp : List (BitVec 8))
  /-- MIGRATE_FINISH (R283). Checks the receipt and removes the source partition. -/
  | migrateFinish (q : Nat) (e : BitVec 1024) (rc : BitVec 16) (inp : List (BitVec 8))
  /-- MIGRATE_ABORT (R283). Returns the source to Frozen or removes the Importing partition. -/
  | migrateAbort (q : Nat) (e : BitVec 1024) (rc : BitVec 16) (inp : List (BitVec 8))
  /-- HANDOFF_OFFER (R271). Freezes a region and offers it to a receiver. -/
  | handoffOffer (q : Nat) (e : BitVec 1024) (rc : BitVec 16) (inp : List (BitVec 8))
  /-- HANDOFF_LANDING (R269). Registers an Unwritten counted region as a landing region. -/
  | handoffLanding (q : Nat) (e : BitVec 1024) (rc : BitVec 16) (inp : List (BitVec 8))
  /-- HANDOFF_ABANDON (R277). Reclaims or discards a handoff and drops its record. -/
  | handoffAbandon (q : Nat) (e : BitVec 1024) (rc : BitVec 16) (inp : List (BitVec 8))
  /-- METER_CONFIG (R289). Names the metering ring and installs the metering key. -/
  | meterConfig (q : Nat) (e : BitVec 1024) (rc : BitVec 16) (inp : List (BitVec 8))
  /-- NOP (R327). Completes with no effect. -/
  | nop (q : Nat) (e : BitVec 1024) (rc : BitVec 16) (inp : List (BitVec 8))
  /-- CTX_CREATE (R299). Creates a host or device context. -/
  | ctxCreate (q : Nat) (e : BitVec 1024) (rc : BitVec 16) (inp : List (BitVec 8))
  /-- CTX_ABANDON (R326). Abandons a context, failing its work and fences and releasing its objects and rings. -/
  | ctxAbandon (q : Nat) (e : BitVec 1024) (rc : BitVec 16) (inp : List (BitVec 8))
  /-- CTX_CLOSE (R325). Moves a context to Closing. -/
  | ctxClose (q : Nat) (e : BitVec 1024) (rc : BitVec 16) (inp : List (BitVec 8))
  /-- QUEUE_CREATE (R300). Creates a queue on a context. -/
  | queueCreate (q : Nat) (e : BitVec 1024) (rc : BitVec 16) (inp : List (BitVec 8))
  /-- QUEUE_DESTROY (R327). Destroys a queue with no incomplete commands. -/
  | queueDestroy (q : Nat) (e : BitVec 1024) (rc : BitVec 16) (inp : List (BitVec 8))
  /-- OBJ_ALLOC (R319). Places and allocates a region with its key and version lines. -/
  | objAlloc (q : Nat) (e : BitVec 1024) (rc : BitVec 16) (inp : List (BitVec 8))
  /-- OBJ_FREE (R320). Removes the context's ownership, dooming the object at owner count zero. -/
  | objFree (q : Nat) (e : BitVec 1024) (rc : BitVec 16) (inp : List (BitVec 8))
  /-- OBJ_SHARE (R320). Gives another context of the partition ownership of an object. -/
  | objShare (q : Nat) (e : BitVec 1024) (rc : BitVec 16) (inp : List (BitVec 8))
  /-- OBJ_QUERY (R327). Returns an object's record. -/
  | objQuery (q : Nat) (e : BitVec 1024) (rc : BitVec 16) (inp : List (BitVec 8))
  /-- FENCE_ALLOC (R309). Allocates an Idle fence at generation 0. -/
  | fenceAlloc (q : Nat) (e : BitVec 1024) (rc : BitVec 16) (inp : List (BitVec 8))
  /-- FENCE_FREE (R309). Frees a fence once it is not Pending. -/
  | fenceFree (q : Nat) (e : BitVec 1024) (rc : BitVec 16) (inp : List (BitVec 8))
  /-- FENCE_SHARE (R310). Lets another context wait on a fence. -/
  | fenceShare (q : Nat) (e : BitVec 1024) (rc : BitVec 16) (inp : List (BitVec 8))
  /-- FENCE_RELEASE (R310). Ends a context's import of a fence. -/
  | fenceRelease (q : Nat) (e : BitVec 1024) (rc : BitVec 16) (inp : List (BitVec 8))
  /-- FENCE_QUERY (R327). Returns a fence record. -/
  | fenceQuery (q : Nat) (e : BitVec 1024) (rc : BitVec 16) (inp : List (BitVec 8))
  /-- WORK_BEGIN (R314). Arms a work fence and stays Running until WORK_END or its work limit. -/
  | workBegin (q : Nat) (e : BitVec 1024) (rc : BitVec 16) (inp : List (BitVec 8))
  /-- WORK_END (R314). Completes the WORK_BEGIN that armed the work fence 64 control clocks later. -/
  | workEnd (q : Nat) (e : BitVec 1024) (rc : BitVec 16) (inp : List (BitVec 8))
  /-- WORK_LIMIT_TIMEOUT (R314). A WORK_BEGIN still Running at its work limit fails with YE_TIMEOUT. -/
  | workLimitTimeout (q : Nat) (seq : BitVec 32)
  /-- FAULT_CLEAR (R341). Clears acknowledged, ended Degrade and Severe classes on a unit. -/
  | faultClear (q : Nat) (e : BitVec 1024) (rc : BitVec 16) (inp : List (BitVec 8))
  /-- FAULT_THRESHOLD (R334). Changes a counted source's threshold and window. -/
  | faultThreshold (q : Nat) (e : BitVec 1024) (rc : BitVec 16) (inp : List (BitVec 8))
  /-- HEDGEHOG_POLICY (R348). Raises the Hedgehog policy class in force. -/
  | hedgehogPolicy (q : Nat) (e : BitVec 1024) (rc : BitVec 16) (inp : List (BitVec 8))
  /-- FAULT_INJECT (R349). Raises an injected fault at a named class, or starts a lockdown with cause 0x09. -/
  | faultInject (q : Nat) (e : BitVec 1024) (rc : BitVec 16) (inp : List (BitVec 8))
  /-- STOP_WAVE (R351). Stamps a stop tick on every station, locally or across a domain. -/
  | stopWave (q : Nat) (e : BitVec 1024) (rc : BitVec 16) (inp : List (BitVec 8))
  /-- STOP_RESUME (R357). Stamps a resume tick on every station. -/
  | stopResume (q : Nat) (e : BitVec 1024) (rc : BitVec 16) (inp : List (BitVec 8))
  /-- STOP_RECORDS (R353). Writes the stations' stop records. -/
  | stopRecords (q : Nat) (e : BitVec 1024) (rc : BitVec 16) (inp : List (BitVec 8))
  /-- RESET_STATION (R359). Resets one station, which reopens within 200 µs. -/
  | resetStation (q : Nat) (e : BitVec 1024) (rc : BitVec 16) (inp : List (BitVec 8))
  /-- RESET_WARM (R360). Starts a warm reset. -/
  | resetWarm (q : Nat) (e : BitVec 1024) (rc : BitVec 16) (inp : List (BitVec 8))
  /-- RESET_NONCE (R366). Returns a one-use nonce for a signed cold reset. -/
  | resetNonce (q : Nat) (e : BitVec 1024) (rc : BitVec 16) (inp : List (BitVec 8))
  /-- RESET_COLD_SIGNED (R366). Checks an operator-signed request and performs a cold reset with cause 0x01. -/
  | resetColdSigned (q : Nat) (e : BitVec 1024) (rc : BitVec 16) (inp : List (BitVec 8))
  /-- DUMP_CONFIG (R374). Names the dump ring, encapsulation key, triggers and contents. -/
  | dumpConfig (q : Nat) (e : BitVec 1024) (rc : BitVec 16) (inp : List (BitVec 8))
  /-- DUMP_START (R367). Takes a Badger dump at once. -/
  | dumpStart (q : Nat) (e : BitVec 1024) (rc : BitVec 16) (inp : List (BitVec 8))
  /-- LC_NONCE (R380). Returns the current chip nonce. -/
  | lcNonce (q : Nat) (e : BitVec 1024) (rc : BitVec 16) (inp : List (BitVec 8))
  /-- LC_TRANSITION (R382). Checks a signed transition request and burns step 1 of a progress entry. -/
  | lcTransition (q : Nat) (e : BitVec 1024) (rc : BitVec 16) (inp : List (BitVec 8))
  /-- LC_STATUS (R396). Returns the LC_STATUS word. -/
  | lcStatus (q : Nat) (e : BitVec 1024) (rc : BitVec 16) (inp : List (BitVec 8))
  /-- DEBUG_OPEN (R391). Checks a signed debug reopen, wipes, sets debug open and restarts the keep. -/
  | debugOpen (q : Nat) (e : BitVec 1024) (rc : BitVec 16) (inp : List (BitVec 8))
  /-- COUNTER_CLEAR (R398). Clears the selected counter classes of a unit. -/
  | counterClear (q : Nat) (e : BitVec 1024) (rc : BitVec 16) (inp : List (BitVec 8))
  /-- PROFILE_BIND (R406). Binds or unbinds a profile set to a queue. -/
  | profileBind (q : Nat) (e : BitVec 1024) (rc : BitVec 16) (inp : List (BitVec 8))
  /-- TRACE_CONFIG (R413). Enables trace sources and sets their filters. -/
  | traceConfig (q : Nat) (e : BitVec 1024) (rc : BitVec 16) (inp : List (BitVec 8))
  /-- TRACE_RING (R416). Names the issuing partition's trace ring. -/
  | traceRing (q : Nat) (e : BitVec 1024) (rc : BitVec 16) (inp : List (BitVec 8))
  /-- IMAGE_UPDATE (R447). Checks and writes a new image copy into the other flash slot. -/
  | imageUpdate (q : Nat) (e : BitVec 1024) (rc : BitVec 16) (inp : List (BitVec 8))
  /-- IMAGE_STATUS (R452). Returns the running slot and each slot's validity and sequence. -/
  | imageStatus (q : Nat) (e : BitVec 1024) (rc : BitVec 16) (inp : List (BitVec 8))
  /-- LOG_READ (R452). Copies event log sectors into an object. -/
  | logRead (q : Nat) (e : BitVec 1024) (rc : BitVec 16) (inp : List (BitVec 8))
  /-- CURRENT_LIMIT_RELEASE (R432). A rise of yk_sens_ilim_n ends the boost refusal of Table 1.4 priority 2, so queued background work may again run the cipher clock at boost. -/
  | currentLimitRelease
  /-- BOOST_BUDGET_BIN_END (R435). At each 10 ms bin boundary the oldest bin leaves the 201-bin window, and boost refused by the spent budget may be permitted again. -/
  | boostBudgetBinEnd
  /-- PLAIN_REGION_DRAIN_CUT (R322). 2 ms after a plain region's key-retiring flag was set, the keep cuts its drain with YE_KEY_RETIRED and frees its entries and index. -/
  | plainRegionDrainCut (obj : Nat)
  /-- EVENT_LOG_ENTRY_WRITTEN (R450). A queued event-log entry finishes programming into the flash, freeing queue room for waiting producers and, at the 767th entry, writing the sector checkpoint. -/
  | eventLogEntryWritten
  /-- RING_READ_OFFSET_ADVANCE (R411). The owner advances a ring's read offset and the keep writes the items it holds waiting, draining the metering backlog and ending the backlog-full Degrade. -/
  | ringReadOffsetAdvance (ring : BitVec 32) (off : BitVec 64)
  deriving DecidableEq, Repr

end Sys2Proof
end

