-- ==== Sys2Proof/Machine/State.lean ====
section
/-! DEFINITION. The state of the block as plain data: every register, table, buffer, counter, mode and pin the manual
names, the queue of commands that wait, and the model's own observer field `out`.  Sparse tables are lists of
(index, value) in rising index order; an index that is not listed reads as the type's default value. -/

namespace Sys2Proof.Machine
open Sys2Proof

/-- Reasons to stop with a fault.  No meaning of this model raises one: the manual gives every command an effect. -/
inductive Fault where
  /-- Raised by nothing; kept so that the type is inhabited.  Safe: it never arises. -/
  | none
  deriving DecidableEq, Repr

/-- Reasons to give no meaning. -/
inductive Refusal where
  /-- Raised by an arm of `exec` that has no meaning yet.  Safe: the machine stops. -/
  | notModelled (mnemonic : String)
  deriving DecidableEq, Repr

/-- What the block emits, in order (the model's own observer of the ports of 14 Table 14.1; log 5). -/
inductive Out where
  /-- Channel read: station, access, channel address, bytes (`yk_ms_o_cmd`). -/
  | chanRead (st acc addr len : Nat)
  /-- Channel write with its data. -/
  | chanWrite (st acc addr : Nat) (data : Bytes)
  /-- Version line fetch of an entry. -/
  | lineRead (st entry : Nat)
  /-- Version line write-back. -/
  | lineWrite (st entry : Nat) (line : Bytes)
  /-- Plaintext read beats. -/
  | rdata (st origin tag : Nat) (data : Bytes)
  /-- Final indication: sector 16 is the whole tile; code 0 confirms. -/
  | rfin (st origin tag sector code : Nat)
  /-- Write completion. -/
  | wcmp (st origin tag : Nat)
  /-- Answer to an engine: engine, slot, tag, code, data. -/
  | answer (st engine slot tag code : Nat) (data : Bytes)
  /-- Request for a remote operation: target 0 memory, 1 atomic unit, 2 invalidation handler. -/
  | dreq (st target tag : Nat) (req : Bytes) (data : Bytes)
  /-- A packet to the link layer. -/
  | packet (st : Nat) (bytes : Bytes)
  /-- Read of a record of a stream backing region, and its write (05 R148): station, partition, index, record. -/
  | recordRead (st part idx : Nat)
  | recordWrite (st part idx : Nat) (rcd : Bytes)
  /-- A receive-buffer slot released. -/
  | rxFree (st slot : Nat)
  /-- Host DMA read data. -/
  | hostData (iface tag : Nat) (data : Bytes)
  /-- Bytes the keep writes to an object at an offset. -/
  | objWrite (handle off : Nat) (data : Bytes)
  /-- A whole tile the keep writes to an object, with its length and format. -/
  | tileWrite (handle tile len fmt : Nat) (data : Bytes)
  /-- Bytes the keep writes to host memory. -/
  | hostWrite (addr : Nat) (data : Bytes)
  /-- A result entry. -/
  | result (queue idx : Nat) (entry : Bytes)
  /-- An event entry. -/
  | event (ctx idx : Nat) (entry : Bytes)
  /-- An MSI-X message. -/
  | msix (vector : Nat)
  /-- A domain-mailbox Store to a peer. -/
  | mail (part dev : Nat) (hdr body : Bytes)
  /-- An item the keep writes into a ring. -/
  | ring (handle woff : Nat) (item : Bytes)
  /-- An answer on a register window, doorbell port or TAP read. -/
  | data (value : Bytes)
  /-- An SPDM response. -/
  | spdm (session : Nat) (msg : Bytes)
  deriving DecidableEq, Repr

/-- A unit block of counters (13 Table 13.3). A performance pair is one 64-bit count (13 Table 13.1). -/
structure Counters where
  clearTime : Nat := 0
  sticky : BitVec 64 := 0
  words : Tab Nat := []
  /-- Fault counters by source code (13 R404), 16 bits each. -/
  faults : Tab Nat := []
  deriving DecidableEq, Repr

/-- Stop record (11 Table 11.2). -/
structure StopRec where
  late : Bool := false
  safeAt : Bool := false
  resetIn : Bool := false
  lastIntake : Nat := 0
  /-- Request tag of the last request taken in (03 R103). -/
  lastTag : Nat := 0
  tick : Nat := 0
  completed : Nat := 0
  markersSent : Nat := 0
  markersRecv : Nat := 0
  held : Nat := 0
  deriving DecidableEq, Repr

/-- A lease record (03 R73). -/
structure Lease where
  epoch : BitVec 16 := 0
  slice : Option Nat := none
  parts : List Nat := []
  deriving DecidableEq, Repr

/-- What every station has: its state inputs (01 Table 1.5), intake sequence, stop record, counters, leases, key
cache of (slot, generation) pairs, most recent first (03 R87). -/
structure Port where
  opened : Bool := false
  selfTest : Bool := false
  heldClosed : Bool := false
  stopped : Bool := false
  stopAt : Option Nat := none
  resumeAt : Option Nat := none
  intake : Nat := 0
  /-- Request tag of the last request taken in (03 R103). -/
  lastTag : Nat := 0
  stop : StopRec := {}
  cur : Lease := {}
  drain : Option Lease := none
  keys : List (Nat × Nat) := []
  /-- Deliveries asked of the keep (06 R194). -/
  asked : List (Nat × Nat) := []
  /-- In-flight counts are computed from the requests held; these are counts already reported zero. -/
  prof : Tab (List Nat) := []
  deriving DecidableEq, Repr

/-- A cached version line (02 Table 2.8; 03 R84). -/
structure Line where
  entry : Nat := 0
  minors : BitVec 384 := 0
  major : Nat := 0
  dirty : Bool := false
  deriving DecidableEq, Repr

/-- A request held by a memory station.  `stage`: 0 waits at its version stage, 1 waits for its header, 2 waits for
payload, 3 waits for the channel to accept its payload, 4 its header or tag, 5 has its old text back and waits to commit,
9 waits for its region descriptor.  `locked`: it holds the tile lock of its slot (03 R83). -/
structure MReq where
  acc : Nat := 0
  origin : Nat := 0
  kind : Nat := 0
  tag : Nat := 0
  part : Nat := 0
  epoch : BitVec 16 := 0
  handle : BitVec 32 := 0
  pslot : Nat := 0
  hslot : Nat := 0
  off : Nat := 0
  len : Nat := 0
  fmt : Nat := 0
  smask : BitVec 16 := 0
  hint : Nat := 0
  layer : Nat := 0
  oper : Nat := 0
  fence : Nat := 0
  desc : Nat := 0
  srcKind : Nat := 0
  srcDev : Nat := 0
  data : Bytes := []
  born : Nat := 0
  stage : Nat := 0
  committed : Bool := false
  locked : Bool := false
  /-- Counted-fine: the sector in hand, and the first failure code (03 R455). -/
  sector : Nat := 0
  err : Nat := 0
  /-- Counted-fine: a sector has committed; the code with which a cut ends the sectors after the one in hand (03 R99). -/
  began : Bool := false
  cut : Nat := 0
  /-- Accumulate: the saturations counted when it committed, which count when it is applied (04 R130). -/
  convSat : Nat := 0
  addSat : Nat := 0
  hdr : Bytes := []
  old : Bytes := []
  keySlot : Nat := 0
  keyGen : Nat := 0
  major : Nat := 0
  minor : Nat := 0
  deriving DecidableEq, Repr

/-- A station's copy of an accumulation descriptor (04 R119; 09 Table 9.29). -/
structure AccCopy where
  state : Nat := 0
  applied : Nat := 0
  refused : Nat := 0
  convSat : Nat := 0
  addSat : Nat := 0
  tagFails : Nat := 0
  deriving DecidableEq, Repr

/-- Memory station (03). -/
structure MemSt where
  port : Port := {}
  /-- Version root table slice, entry to 64-bit word (02 Table 2.9); absent reads 0. -/
  vrt : Tab (BitVec 64) := []
  lines : List Line := []
  fetching : List Nat := []
  descs : List Nat := []
  reqs : List MReq := []
  /-- The re-seal engine's queue: entries, with true for the move of a re-key (03 R89, R93); the head is in progress. -/
  reseal : List (Nat × Bool) := []
  /-- Tile locks that minor overflows hold until their re-seal ends: entry and payload slot (03 R83). -/
  locks : List (Nat × Nat) := []
  /-- Line reports on their way to the keep: entry, and cause as REGION_REKEY_START names it (02 R59). -/
  reports : List (Nat × Nat) := []
  accs : Tab AccCopy := []
  withheld : List Nat := []
  /-- Slots (entry, slot) of lost tiles, which take their first version when the line is at hand (08 R282). -/
  marks : List (Nat × Nat) := []
  /-- Key-retiring marks by slot, plain-region marks and freeze marks by object or partition that have arrived. -/
  retSlots : List Nat := []
  retObjs : List Nat := []
  frzParts : List Nat := []
  frzObjs : List Nat := []
  deriving DecidableEq, Repr

/-- Job table entry (05 Table 5.1); the local partition is its index. -/
structure Job where
  state : Nat := 0
  domain : Nat := 0
  own : Nat := 0
  keyIndex : Nat := 0
  slot : Nat := 0
  gen : Nat := 0
  prev : Option Nat := none
  armed : Option Nat := none
  mark : Nat := 0
  startMark : Nat := 0
  invocations : Nat := 0
  flush : Nat := 0
  commitAt : Nat := 0
  /-- The job sends and accepts nothing here until a new mark arrives (05 R151). -/
  stalled : Bool := false
  deriving DecidableEq, Repr

/-- Stream context (05 Table 5.11), keyed by partition, peer, direction (true ingress), space (true response). -/
structure Ctxt where
  part : Nat := 0
  peer : Nat := 0
  ingress : Bool := false
  response : Bool := false
  state : Nat := 0
  genBit : Bool := false
  gen : Nat := 0
  sepoch : Nat := 0
  seq : Nat := 0
  flagWait : Bool := false
  gather : Bool := false
  /-- Rotating: the old instance's final sequence. -/
  final : Option Nat := none
  /-- Port of the peer to which an egress instance's packets go, and the station the instance is bound to (05 R137). -/
  port : Nat := 0
  st : Nat := 0
  deriving DecidableEq, Repr

/-- A held packet: reorder descriptor (05 R153). `phase` 0 waits for its context, 1 for its key, 2 has passed its tag,
3 waits for the commit of its generation (07 R249); `body` is the packet before that, its plaintext section after. -/
structure Held where
  phase : Nat := 0
  at_ : Nat := 0
  part : Nat := 0
  peer : Nat := 0
  response : Bool := false
  cls : Nat := 0
  gen : Nat := 0
  sepoch : Nat := 0
  seq : Nat := 0
  slot : Nat := 0
  body : Bytes := []
  deriving DecidableEq, Repr

/-- Outstanding-request tracker (05 R166). -/
structure Tracker where
  part : Nat := 0
  peer : Nat := 0
  engine : Nat := 0
  slot : Nat := 0
  tag : Nat := 0
  kind : Nat := 0
  fence : Nat := 0
  epoch : BitVec 16 := 0
  sentAt : Nat := 0
  seq : Nat := 0
  gen : Nat := 0
  layer : Nat := 0
  oper : Nat := 0
  deriving DecidableEq, Repr

/-- A remote operation issued at this part for an ingress space (05 Operations end to end). -/
structure RemOp where
  tag : Nat := 0
  part : Nat := 0
  peer : Nat := 0
  opcode : Nat := 0
  flagged : Bool := false
  /-- The answer carries a fence reference in the tracker field (05 Table 5.7). -/
  posted : Bool := false
  tracker : Nat := 0
  gen : Nat := 0
  sepoch : Nat := 0
  seq : Nat := 0
  aux : Nat := 0
  handle : BitVec 32 := 0
  off : Nat := 0
  len : Nat := 0
  data : Bytes := []
  issued : Bool := true
  done : Bool := false
  code : Nat := 0
  got : Bytes := []
  /-- The parity unit's step (05 R180): 1 reads the old bytes, 2 writes the combined ones back. -/
  fold : Nat := 0
  deriving DecidableEq, Repr

/-- An open bundle (05 R167). -/
structure Bundle where
  part : Nat := 0
  peer : Nat := 0
  port : Nat := 0
  epoch : BitVec 16 := 0
  gen : Nat := 0
  sepoch : Nat := 0
  seq : Nat := 0
  openAt : Nat := 0
  ops : Bytes := []
  entries : Nat := 0
  dataLen : Nat := 0
  lastHdr : Nat := 0
  deriving DecidableEq, Repr

/-- A link request that waits at intake (context refill, stall). -/
structure LReq where
  kind : Nat := 0
  tag : Nat := 0
  part : Nat := 0
  epoch : BitVec 16 := 0
  engine : Nat := 0
  slot : Nat := 0
  dst : Nat := 0
  handle : BitVec 32 := 0
  off : Nat := 0
  len : Nat := 0
  flagged : Bool := false
  akind : Nat := 0
  desc : Nat := 0
  fence : Nat := 0
  layer : Nat := 0
  oper : Nat := 0
  data : Bytes := []
  /-- The wire opcode when the keep itself issues the operation (bulk tile, checkpoint chunk, mailbox). -/
  wire : Nat := 0
  resp : Bool := false
  aux : Nat := 0
  deriving DecidableEq, Repr

/-- Link station (05). -/
structure LinkSt where
  port : Port := {}
  jobs : Tab Job := []
  ctxs : List Ctxt := []
  held : List Held := []
  trackers : Tab Tracker := []
  ops : List RemOp := []
  bundles : List Bundle := []
  waiting : List LReq := []
  /-- First halves of continued operations (05 R142). -/
  contTx : List Held := []
  /-- Lost-member list: partition, device, mark (05 R152). -/
  lost : List (Nat × Nat × Nat) := []
  deriving DecidableEq, Repr

/-- IDE stream (07 R251). Keys are Key Register slots by (key set, sub-stream); address-association blocks and the
requester-ID range are base and limit, and only the host's configuration accesses write them. -/
structure Ide where
  live : Bool := false
  set : Nat := 0
  slots : Tab Nat := []
  assoc : List (BitVec 64 × BitVec 64) := []
  requesters : Option (BitVec 16 × BitVec 16) := none
  deriving DecidableEq, Repr

/-- TDISP interface (07 Table 7.13). -/
structure Tdisp where
  state : Nat := 0
  part : Option Nat := none
  stream : Nat := 0
  deriving DecidableEq, Repr

/-- An SPDM session (07 R250): phase 1 after KEY_EXCHANGE, 2 established; its key slots, requests first; and how many
messages have been sealed each way. -/
structure Spdm where
  phase : Nat := 0
  slots : List Nat := []
  reqSeq : Nat := 0
  rspSeq : Nat := 0
  /-- Which exchange the session's keys come from (the model's own count). -/
  fresh : Nat := 0
  deriving DecidableEq, Repr

/-- A host transaction as it arrives. -/
structure HostReq where
  iface : Nat := 0
  stream : Nat := 0
  ide : Bool := false
  tbit : Bool := false
  write : Bool := false
  req : BitVec 256 := 0
  data : Bytes := []
  mac : Bytes := []
  deriving DecidableEq, Repr

/-- A read's data on their way back to the host. -/
structure HostAns where
  iface : Nat := 0
  tag : Nat := 0
  part : Nat := 0
  stream : Option Nat := none
  data : Bytes := []
  deriving DecidableEq, Repr

/-- Host station (07 The host link). -/
structure HostSt where
  port : Port := {}
  ide : Tab Ide := []
  tdisp : Tab Tdisp := []
  spdm : Tab Spdm := []
  /-- Host requests in flight: request tag, interface, and the IDE stream that carries the answer. -/
  reqs : List (Nat × Nat × Option Nat) := []
  /-- Transactions that wait at intake, and answers that wait, for a key of the station's cache (01 R28, 06 R196); answers
  also wait while the station is Safe (01 Table 1.5). -/
  waiting : List HostReq := []
  answers : List HostAns := []
  deriving DecidableEq, Repr

/-- Key Register slot (06 Table 6.2, Table 6.4). -/
structure KeySlot where
  state : Nat := 0
  cls : Nat := 0
  owner : Nat := 0
  keepOwn : Bool := false
  gen : Nat := 0
  /-- No key has been committed yet: the current half is zero. -/
  first : Bool := false
  cur : BitVec 256 := 0
  pend : BitVec 256 := 0
  /-- What the pending half holds (06 R190): 0 nothing, 1 the next generation, 2 the previous one. -/
  pendIs : Nat := 0
  /-- Command engine invocations of the current generation (06 R211). -/
  inv : Nat := 0
  /-- Highest checkpoint number and record index sealed (05 R179). -/
  ckpt : Option (Nat × Nat) := none
  waitSwap : List Nat := []
  /-- Purges not yet confirmed: station and generation (06 R204). -/
  waitPurge : List (Nat × Nat) := []
  purging : Nat := 0
  cutAt : Option Nat := none
  /-- Threshold event already raised for this generation. -/
  warned : Bool := false
  deriving DecidableEq, Repr

/-- Region placement on one station (02 Table 2.10; 09 Table 9.20). -/
structure Place where
  st : Nat := 0
  first : Nat := 0
  count : Nat := 0
  entry : Nat := 0
  cursor : Nat := 0
  hdr : Nat := 0
  /-- Re-key: lines or tiles moved, and lines moved onto fresh entries (03 R93). -/
  moved : Nat := 0
  remap : Tab Nat := []
  fresh : Bool := false
  /-- The line or tile at the cursor is being moved. -/
  moving : Bool := false
  deriving DecidableEq, Repr

/-- Region re-key in progress (03 R92). -/
structure Rekey where
  byLimit : Bool := false
  again : Bool := false
  deriving DecidableEq, Repr

/-- Memory object (09 Table 9.18). -/
structure Obj where
  state : Nat := 0
  cls : Nat := 0
  part : Nat := 0
  measured : Bool := false
  landing : Bool := false
  frozen : Bool := false
  gen : Nat := 1
  owners : List Nat := []
  /-- References other than taken commands (09 R321): descriptors, counters, handoffs, exports. -/
  refs : Nat := 0
  tiles : Nat := 0
  keySlot : Nat := 0
  kind : Nat := 0
  label : Nat := 0
  loadGen : Nat := 0
  loading : Bool := false
  /-- Measurement (04 Table 4.1): 0 none, 1 Broken, 2 Hashing, 3 Recorded. -/
  meas : Nat := 0
  mr : Bytes := []
  leaves : Tab Bytes := []
  nodes : Tab Bytes := []
  places : List Place := []
  rekey : Option Rekey := none
  /-- A re-key to start when the region allows it: whether by a limit, and the stations that need fresh entries (03 R92). -/
  wantRekey : Bool := false
  wantLimit : Bool := false
  wantFresh : List Nat := []
  wantReload : Bool := false
  /-- The accepted handoff whose bulk tiles a landing region takes. -/
  accepted : Option (Nat × Nat) := none
  cutAt : Option Nat := none
  /-- A sealed region of an import becomes Sealed when its tiles are written (08 R282). -/
  importing : Bool := false
  /-- Some slot has been written since the region took its versions (08 R269). -/
  written : Bool := false
  deriving DecidableEq, Repr

/-- Partition record (08 Table 8.1). -/
structure Part where
  state : Nat := 0
  policy : Nat := 0
  warm : Bool := false
  migDigest : Bytes := []
  verSlot : Nat := 0
  trcSlot : Nat := 0
  pmr : Bytes := []
  nextImport : Nat := 0
  /-- Meter counters (08 Table 8.12): bytes and operations, and time in ticks. -/
  meter : Tab Nat := []
  meterSince : Nat := 0
  frozenIn : Bool := false
  lengthened : Bool := false
  /-- Removal: when the drain began and when it ended. -/
  removeAt : Nat := 0
  drainEnd : Option Nat := none
  destroying : Bool := false
  /-- Trace ring and undrained marks. -/
  traceRing : Option Nat := none
  deriving DecidableEq, Repr

/-- Slice of an installed map (08 Table 8.4). -/
structure Slice where
  idx : Nat := 0
  chans : BitVec 64 := 0
  ports : BitVec 32 := 0
  cores : BitVec 256 := 0
  lessees : List (Option Nat) := []
  running : Option Nat := none
  deriving DecidableEq, Repr

/-- Context (09 Table 9.8). -/
structure Ctx where
  state : Nat := 0
  device : Bool := false
  part : Nat := 0
  ring : BitVec 64 := 0
  size : Nat := 0
  head : Nat := 0
  tail : Nat := 0
  ovf : Bool := false
  phase : Bool := false
  vector : Nat := 0
  lostEvents : Nat := 0
  /-- Abandoning: past step 4 of 09 R326, and the handles of the objects it waits for. -/
  torn : Bool := false
  dropping : List Nat := []
  deriving DecidableEq, Repr

/-- Queue (09 Table 9.9). -/
structure Queue where
  state : Nat := 0
  ctx : Nat := 0
  secure : Bool := false
  ring : BitVec 64 := 0
  res : BitVec 64 := 0
  size : Nat := 0
  head : Nat := 0
  tail : Nat := 0
  limit : Nat := 0
  nextSeq : Nat := 0
  /-- Accepted device doorbell writes not yet taken: tail, and source core, partition and epoch (09 R301). -/
  pubs : List (Nat × BitVec 32) := []
  pausedAt : Option Nat := none
  pausedE : BitVec 1024 := 0
  deriving DecidableEq, Repr

/-- Fence (09 Table 9.15). -/
structure Fence where
  state : Nat := 0
  inherited : Bool := false
  gen : Nat := 0
  owner : Nat := 0
  importers : List Nat := []
  code : Nat := 0
  errors : Nat := 0
  seq : Nat := 0
  detail : BitVec 128 := 0
  /-- Freed by its owner while importers remain, or to be freed on completion. -/
  freed : Bool := false
  deriving DecidableEq, Repr

/-- A taken command (09 R307). `phase`: 1 Queued or Waiting, 2 Running. -/
structure Taken where
  q : Nat := 0
  seq : Nat := 0
  idx : Nat := 0
  e : BitVec 1024 := 0
  phase : Nat := 1
  takenAt : Nat := 0
  startAt : Nat := 0
  fenceGen : Nat := 0
  objs : List Nat := []
  /-- What the command holds while it runs (a slot, a handoff number, a descriptor ...). -/
  aux : Nat := 0
  askedDrbg : Option Nat := none
  inp : Bytes := []
  deriving DecidableEq, Repr

/-- Accumulation descriptor (04 R119). -/
structure Acc where
  state : Nat := 0
  mode : Nat := 0
  e : BitVec 8 := 0
  bs : Nat := 0
  mask : BitVec 8 := 0
  fence : Nat := 0
  ctx : Nat := 0
  handle : BitVec 32 := 0
  deriving DecidableEq, Repr

/-- Arrival counter (05 Table 5.14). -/
structure Arrival where
  state : Nat := 0
  part : Nat := 0
  ctx : Nat := 0
  handle : BitVec 32 := 0
  landed : Nat := 0
  window : BitVec 64 := 0
  base : Nat := 0
  err : Nat := 0
  failed : Nat := 0
  total : Nat := 0
  /-- Tiles of the copy that failed (05 R171). -/
  bad : List Nat := []
  deriving DecidableEq, Repr

/-- Command cipher engine user (06 R214). -/
structure User where
  live : Bool := false
  ctx : Nat := 0
  op : Nat := 0
  /-- 1 GCM seal, 2 CTR encryption, 3 CTR decryption, 4 CMAC (06 Table 6.9). -/
  mode : Nat := 0
  slot : Nat := 0
  gen : Nat := 0
  counter : Bytes := []
  aadLen : Nat := 0
  textLen : Nat := 0
  acc : Bytes := []
  part : Bytes := []
  deriving DecidableEq, Repr

/-- Operation table entry (06 R214). -/
structure OpRec where
  ctx : Nat := 0
  save : Nat := 0
  deriving DecidableEq, Repr

/-- A member in the anchor's or a parent's view (07 R243). -/
structure Member where
  gen : Nat := 0
  live : Bool := false
  deriving DecidableEq, Repr

/-- An admission or migration exchange (07 R230 to R234, 08 R279). -/
structure Exch where
  num : Nat := 0
  peer : Nat := 0
  parent : Bool := false
  phase : Nat := 0
  a1 : Bytes := []
  a2 : Bytes := []
  a3 : Bytes := []
  kem : BitVec 512 := 0
  ecdh : Nat := 0
  prk : Bytes := []
  kcp : BitVec 256 := 0
  kcc : BitVec 256 := 0
  pairSlot : Option Nat := none
  lastAt : Nat := 0
  /-- Adoption: in-band, without key transfer (07 R245). -/
  inband : Bool := false
  deriving DecidableEq, Repr

/-- The domain membership a partition carries (07 Table 7.10). -/
structure Dom where
  /-- 0 Unjoined, 1 Prepared, 2 Admitting, 3 Confirmed, 4 Member, 5 Leaving, 6 Detached. -/
  state : Nat := 0
  domain : Nat := 0
  own : Nat := 0
  n : Nat := 0
  digest : Bytes := []
  policy : Bytes := []
  parentUeid : Bytes := []
  rejoin : Bool := false
  ring : Nat := 0
  anchor : Nat := 0
  deputy : Nat := 1
  parent : Nat := 0
  grand : Nat := 0
  memberGen : Nat := 0
  jobSlot : Nat := 0
  ckptSlot : Nat := 0
  keyIndex : Nat := 0
  mark : Nat := 0
  offerGen : Nat := 0
  kids : List Nat := []
  members : Tab Member := []
  /-- Devices that formation left out, with all that stand below them, and the members of the domain as counted (07 R238). -/
  outside : List Nat := []
  count : Nat := 0
  /-- Offers that wait for random bits: device, and whether in-band (07 R238, 06 R188). -/
  owed : List (Nat × Bool) := []
  confirmed : Tab Nat := []
  exchs : List Exch := []
  /-- Records that wait for their row (07 Table 7.7), as delivered. -/
  inbox : List Bytes := []
  pairs : Tab Nat := []
  beatTx : Nat := 0
  beatRx : Tab Nat := []
  msgNum : Nat := 0
  /-- Rotation: generation being prepared, selection, who confirmed, when PREPARE left. -/
  rot : Option (Nat × Nat) := none
  rotConf : Tab Nat := []
  rotAt : Nat := 0
  rotSent : Bool := false
  /-- A rotation to start again: when, and its selection; and one queued behind the present one. -/
  rotRetry : Option (Nat × Nat) := none
  rotAgain : Nat := 0
  rejoinBy : Tab Nat := []
  confirmSent : Bool := false
  formAt : Option Nat := none
  /-- The port each peer's beats leave by and the attach map (07 R242). -/
  attach : Tab Nat := []
  portMap : Tab Nat := []
  /-- Records that wait for room in the outbound ring (13 R411). -/
  outq : List Bytes := []
  /-- A rotation the keep has to ask for, with its cause, and a mark raise (05 R174, R149, R151). -/
  askRot : Option Nat := none
  askMark : Bool := false
  /-- A packet under the armed generation has arrived (07 R249). -/
  askCommit : Bool := false
  /-- Fragments of longer messages, by sender and message number (07 R241). -/
  frags : List ((Nat × Nat) × List Bytes) := []
  deriving DecidableEq, Repr

/-- Migration in progress on a partition (08 R278 to R283). -/
structure Mig where
  source : Bool := false
  ueid : Bytes := []
  ring : Nat := 0
  mapObj : Nat := 0
  slot : Nat := 0
  exch : Option Exch := none
  inbox : List Bytes := []
  outq : List Bytes := []
  /-- Export: the next region in `regions`, and 0 for its Region record or one more than the next tile. -/
  at_ : Nat × Nat := (0, 0)
  nextRec : Nat := 0
  lost : Nat := 0
  done : Bool := false
  regions : List Nat := []
  wantTiles : Nat := 0
  tiles : Nat := 0
  mrs : List Bytes := []
  deriving DecidableEq, Repr

/-- Handoff record (08 Table 8.7, Table 8.8). State 0 while the freeze is not confirmed, 1 Offered, 2 Copying, 3 Committing, 4 Released, 5 Reclaimed at
the offerer; 1 Accepted, 2 Committed, 4 Discarded but without its fresh key yet, at the receiver. -/
structure Handoff where
  offerer : Bool := false
  peer : Nat := 0
  num : Nat := 0
  part : Nat := 0
  state : Nat := 0
  obj : Nat := 0
  landing : Nat := 0
  counter : Nat := 0
  tiles : Nat := 0
  retries : Nat := 0
  lastAt : Nat := 0
  cmd : Option (Nat × Nat) := none
  /-- Offerer: tiles handed to the link, and the tile read last with its code. -/
  sent : Nat := 0
  asked : Bool := false
  got : Option (Nat × Bytes) := none
  deriving DecidableEq, Repr

/-- A bulk copy in progress (05 R169): its command, the tiles of a local object that its source station reads one after
another, and where they go. -/
structure Copy where
  st : Nat := 0
  q : Nat := 0
  seq : Nat := 0
  part : Nat := 0
  obj : Nat := 0
  first : Nat := 0
  tiles : Nat := 0
  dst : Nat := 0
  handle : BitVec 32 := 0
  off : Nat := 0
  counter : Nat := 0
  fence : Nat := 0
  /-- Tiles handed to the link station, and the tile read last with its code. -/
  sent : Nat := 0
  asked : Bool := false
  got : Option (Nat × Bytes) := none
  deriving DecidableEq, Repr

/-- A ring the keep writes (13 Table 13.11). -/
structure Ring where
  handle : Nat := 0
  size : Nat := 0
  woff : Nat := 64
  roff : Nat := 64
  dropped : Nat := 0
  deriving DecidableEq, Repr

/-- A fault log record (10 Table 10.8). -/
structure FaultRec where
  time : Nat := 0
  seq : Nat := 0
  unit : Nat := 0
  source : Nat := 0
  cls : Nat := 0
  escalated : Bool := false
  threshold : Bool := false
  lockdown : Bool := false
  prior : Nat := 0
  count : Nat := 1
  fence : Nat := 0xFFFF
  detail : BitVec 64 := 0
  deriving DecidableEq, Repr

/-- A unit's fault bits (10 Table 10.6): classes 1 to 4 at bits 0 to 3. -/
structure FaultWord where
  last : Nat := 0
  uncleared : BitVec 4 := 0
  unack : BitVec 4 := 0
  /-- Uncleared sources whose condition goes on, with their class (10 R341). -/
  active : List (Nat × Nat) := []
  deriving DecidableEq, Repr

/-- A counting window (10 R333) or a changed threshold (10 R334). -/
structure Window where
  count : Nat := 0
  closeAt : Option Nat := none
  curN : Nat := 0
  n : Option Nat := none
  w : Option Nat := none
  deriving DecidableEq, Repr

/-- A sector of the signed event log (14 Table 14.11). -/
structure Sector where
  prev : Bytes := []
  entries : List Bytes := []
  closed : Option (Bytes × Bytes) := none
  deriving DecidableEq, Repr

/-- Always-on domain, OTP and pins (11 Table 11.4; 12; 14 Table 14.6). -/
structure Aon where
  /-- 0 held in cold reset, 1 running, 2 warm reset in progress, 3 held in warm reset, 5
  locked down, 6 transition in progress, 7 dead (no image, no identity, or Scrapped). -/
  phase : Nat := 0
  porLow : Bool := true
  time : Nat := 0
  cause : Nat := 0
  lockdown : Bool := false
  trip : BitVec 64 := 0
  alarm : Bool := false
  coldOut : Bool := true
  warmOut : Bool := false
  vault : Bytes := []
  vaultKey : BitVec 256 := 0
  vaultAt : Option Nat := none
  warmTimes : List Nat := []
  outOfService : Bool := false
  cutTime : Option Nat := none
  /-- When the present phase began, and when a signed cold reset follows (11 R366). -/
  phaseAt : Nat := 0
  coldAt : Option Nat := none
  /-- Target state of the transition in progress. -/
  target : Nat := 0
  /-- Comparisons of step 4 that have failed (12 R382). -/
  retries : Nat := 0
  testFrom : Option Nat := none
  debugOpen : Bool := false
  testSession : Bool := false
  slot : Nat := 0
  trial : Bool := false
  /-- Fuses. -/
  ueid : Bytes := []
  ema : Bytes := []
  era : Bytes := []
  rootM : Bytes := []
  rootP : Bytes := []
  efw : Bytes := []
  ia : Bytes := []
  makerDone : Bool := false
  seedWrap : Bytes := []
  helper : Bytes := []
  tokens : List Bytes := []
  tokensUsed : BitVec 16 := 0
  progress : Tab (BitVec 64) := []
  repairs : List (BitVec 32) := []
  /-- The repair registers of the SRAM macros, as the last cold reset loaded them (12 R392). -/
  spares : List (BitVec 32) := []
  tokenFails : Nat := 0
  deriving DecidableEq, Repr

/-- The configuration flash (14 Table 14.7). -/
structure Flash where
  images : Tab Bytes := []
  certs : List Bytes := []
  sectors : Tab Sector := []
  failed : Tab Nat := []
  logSeq : Nat := 0
  /-- Entries queued in the keep region (14 R450). -/
  queue : List Bytes := []
  deriving DecidableEq, Repr

/-- A CTR_DRBG instance (06 R186): key and counter block, generates since the last seed, and when that was. -/
structure Drbg where
  key : BitVec 256 := 0
  v : BitVec 128 := 0
  use : Nat := 0
  since : Nat := 0
  deriving DecidableEq, Repr

/-- A move of the scratch DMA (12 R395): to scratch or from it, with the cipher engine or with protocol-engine working memory,
where it stands, the beats left, which halves of the first are done, and the bytes that go to scratch. -/
structure ScratchMove where
  toScratch : Bool := false
  cipher : Bool := false
  cell : Nat := 0
  eng : Nat := 0
  beats : Nat := 0
  lo : Bool := false
  hi : Bool := false
  data : Bytes := []
  deriving DecidableEq, Repr

/-- Secure scratch and what moves its data (12 R394, R395): its cells, protocol-engine working memory, both zero where absent,
the DMA's moves in order, the word Sett last loaded, its last exception (1 alignment, 2 access), and the control clocks of
this tick in which a half waited. -/
structure Scratch where
  cells : Tab (BitVec 8) := []
  engine : Tab (BitVec 8) := []
  moves : List ScratchMove := []
  load : BitVec 32 := 0
  exc : Nat := 0
  waited : Nat := 0
  deriving DecidableEq, Repr

/-- Keep-wide registers and firmware-visible state. -/
structure Keep where
  ready : Bool := false
  portsOpen : Bool := false
  adminReady : Bool := false
  startAt : Nat := 0
  startId : Bytes := []
  seed : Bytes := []
  /-- Slot of the keep's own version key, under which the operator partition's lines stand (06 Table 6.3). -/
  verSlot : Option Nat := none
  fwDigest : Bytes := []
  cfgDigest : Bytes := []
  imageSeq : Nat := 0
  boostOk : Bool := false
  policy : Nat := 0
  shift : Nat := 0
  perm : List Nat := []
  vlBase : List Nat := []
  logSectors : Nat := 16
  opKeyM : Bytes := []
  opKeyP : Bytes := []
  resetNonce : Option Bytes := none
  chipNonce : Option Bytes := none
  chainOk : Bool := false
  /-- The cached EK endorsement, a dual signature (07 R223), and the digests of the product CA certificates verified since
  the keep start (07 R229). -/
  endorse : Bytes := []
  caSeen : List Bytes := []
  /-- Register window (09 Table 9.2). -/
  aqRing : BitVec 64 := 0
  aqResult : BitVec 64 := 0
  ev0Ring : BitVec 64 := 0
  adminCtrl : BitVec 32 := 0
  ev0Vector : BitVec 32 := 0
  tableSel : BitVec 32 := 0
  tableIdx : BitVec 32 := 0
  tableStat : BitVec 32 := 0
  tableData : Bytes := []
  capab : Bytes := []
  msix : Tab (BitVec 32) := []
  pba : List Nat := []
  snapCtrl : BitVec 32 := 0
  snapData : Bytes := []
  /-- Watchdog (11 R364). -/
  beat : BitVec 16 := 0
  beatAt : Nat := 0
  missed : Nat := 0
  beaten : Bool := false
  /-- Sett memory, instructions from 0 and data from 65,536, and the protocol engines' microprogram from 98,304; zero where
  absent (14 Table 14.9). -/
  settMem : Tab (BitVec 8) := []
  scratch : Scratch := {}
  /-- Noise sources enabled (06 R185), DRBG instances running, and the working state of each. -/
  noise : BitVec 4 := 0
  drbgUp : BitVec 2 := 0
  drbg0 : Drbg := {}
  drbg1 : Drbg := {}
  /-- The conditioner (06 R186): eighths of a raw bit gathered for the next block, and blocks in its buffer of 8. -/
  condRaw : Nat := 0
  condBuf : Nat := 0
  /-- Verification of a pending half fails: a condition of the hardware, which no command changes (06 R199; log 69). -/
  verifyBad : Bool := false
  rr : Nat := 0
  deriving DecidableEq, Repr

/-- Clocking, temperature and boost (01 R20; 14 R434, R435). -/
structure Clk where
  divider : Nat := 5
  next : Option Nat := none
  /-- Readings in 1/16 °C, by 4 × die slice + sensor. -/
  sensors : Tab (BitVec 16) := []
  refused : Bool := false
  stepDown : Bool := false
  coolSince : Option Nat := none
  /-- The thermal limit has been reached since the last reset. -/
  hot : Bool := false
  ilim : Bool := false
  ilimEnded : Bool := false
  boost : Bool := false
  spent : Bool := false
  /-- Boost ticks per 10 ms bin, newest first. -/
  bins : List Nat := []
  binAt : Nat := 0
  /-- The keep's request for boost is in force. -/
  asked : Bool := false
  deriving DecidableEq, Repr

/-- Fault collector (10). -/
structure Faults where
  words : Tab FaultWord := []
  log : List FaultRec := []
  logSeq : Nat := 0
  windows : List ((Nat × Nat) × Window) := []
  vector : BitVec 32 := 0
  blockSafe : Bool := false
  fatalFirst : Option Nat := none
  deriving DecidableEq, Repr

/-- What is left to record of a removed partition (08 R288). -/
structure MeterEnd where
  part : Nat := 0
  since : Nat := 0
  until_ : Nat := 0
  frozen : Bool := false
  lengthened : Bool := false
  meter : Tab Nat := []
  deriving DecidableEq, Repr

/-- Metering (08 R287 to R292). -/
structure Meter where
  ring : Option Nat := none
  slot : Option Nat := none
  chain : Bytes := []
  seq : Nat := 0
  backlog : List (Nat × Bytes) := []
  startAt : Nat := 0
  stalled : Bool := false
  ckptAt : Nat := 0
  /-- Time up to which counters 0 to 3 are charged. -/
  at_ : Nat := 0
  /-- Run notices that take effect at the next tick: slice and lessee position, `none` idle. -/
  notices : List (Nat × Option Nat) := []
  finals : List MeterEnd := []
  /-- The first metering key takes effect at the next interval end. -/
  fresh : Bool := false
  deriving DecidableEq, Repr

/-- Dump engine (11 R367 to R373). -/
structure Dump where
  ring : Option Nat := none
  ek : Bytes := []
  mask : BitVec 8 := 0
  flags : BitVec 8 := 0
  num : Nat := 0
  armed : Option Nat := none
  armedAt : Nat := 0
  unreachable : List Nat := []
  latched : Bool := false
  ignored : Nat := 0
  mirrors : Tab Bytes := []
  /-- Start identifier of the keep start in which the trigger fell (11 Table 11.11). -/
  startId : Bytes := []
  deriving DecidableEq, Repr

/-- A profile set (13 R406). -/
structure Prof where
  queue : Option Nat := none
  layer : BitVec 16 := 0
  layerMask : BitVec 16 := 0
  oper : BitVec 16 := 0
  operMask : BitVec 16 := 0
  ring : Nat := 0
  seq : Option Nat := none
  fence : Nat := 0xFFFF
  engine : Nat := 0
  doneAt : Option Nat := none
  resetIn : Bool := false
  lastCode : Nat := 0
  e : BitVec 1024 := 0
  startAt : Nat := 0
  /-- Command cipher engine blocks, which the keep counts. -/
  blocks : Nat := 0
  /-- The command that the boundary message on its way starts: sequence, fence, envelope, start time; and when it arrives. -/
  next : Option (Nat × Nat × BitVec 1024 × Nat) := none
  dueAt : Nat := 0
  nextBlocks : Nat := 0
  deriving DecidableEq, Repr

/-- Trace (13 R412 to R416). -/
structure Trace where
  mask : BitVec 16 := 0
  on : Bool := false
  parts : BitVec 256 := 0
  layer : BitVec 16 := 0
  layerMask : BitVec 16 := 0
  oper : BitVec 16 := 0
  operMask : BitVec 16 := 0
  bufs : Tab (List (Nat × Bytes)) := []
  lostRecs : Tab Nat := []
  drains : Tab Nat := []
  /-- Records since each source's last sync record; a source that is not listed owes one. -/
  since : Tab Nat := []
  /-- The model's own count of traced pieces of work. -/
  count : Nat := 0
  lastAt : Tab Nat := []
  deriving DecidableEq, Repr

/-- Stop in force (11 R351). -/
structure Stop where
  inForce : Bool := false
  id : BitVec 64 := 0
  domain : Bool := false
  part : Nat := 0
  tick : Nat := 0
  resume : Option Nat := none
  ever : Bool := false
  waiting : Option (Nat × Nat) := none
  deriving DecidableEq, Repr

/-- The whole block. -/
structure State where
  aon : Aon := {}
  flash : Flash := {}
  keep : Keep := {}
  clk : Clk := {}
  flt : Faults := {}
  /-- Unit blocks of counters, by unit identifier. -/
  ctrs : Tab Counters := []
  mem : Tab MemSt := []
  link : Tab LinkSt := []
  host : HostSt := {}
  keys : Tab KeySlot := []
  parts : Tab Part := []
  objs : Tab Obj := []
  ctxs : Tab Ctx := []
  queues : Tab Queue := []
  fences : Tab Fence := []
  taken : List Taken := []
  accs : Tab Acc := []
  arrivals : Tab Arrival := []
  users : Tab User := []
  opTab : Tab OpRec := []
  nextOp : Nat := 0
  epoch : BitVec 16 := 0
  epochDraining : Bool := false
  epochAt : Nat := 0
  slices : List Slice := []
  oldSlices : List Slice := []
  doms : Tab Dom := []
  migs : Tab Mig := []
  handoffs : List Handoff := []
  copies : List Copy := []
  /-- Records of the stream backing regions, which the part's link stations share (05 R148). -/
  backing : List Ctxt := []
  nextHandoff : BitVec 32 := 0
  rings : Tab Ring := []
  meter : Meter := {}
  dump : Dump := {}
  profs : Tab Prof := []
  trace : Trace := {}
  stop : Stop := {}
  /-- The model's own counters: conditioned blocks taken, and answers of the SPDM responder (log 2, log 3). -/
  cond : Nat := 0
  freeSig : Nat := 0
  /-- Messages that the keep has issued to its stations and that have not arrived, in order: issue time, kind (0 a
  partition's freeze, 1 a region's freeze, 2 a slot's key-retiring mark, 3 a plain region's mark) and identifier (01 R17). -/
  keepway : List (Nat × Nat × Nat) := []
  /-- What the block has emitted, newest first (log 5). -/
  out : List Out := []
  /-- Commands that wait, first in, first out. -/
  pending : List Instr := []
  deriving DecidableEq, Repr

/-- Power-on: cold reset asserted, every table empty, every port Closed (14 R423; 11 Table 11.5). -/
def State.reset : State := {}

end Sys2Proof.Machine
end

