-- ==== Sys2Proof/Machine/Drbg.lean ====
section
/-! DEFINITION. The health tests of the noise sources, the conditioner, and CTR_DRBG with AES-256 and the derivation function
(06 R185, R186; SP 800-90A, SP 800-90B). -/

namespace Sys2Proof.Machine
open Sys2Proof Sys2Proof.Crypto

/-- The number of ones. -/
def popc {w : Nat} (v : BitVec w) : Nat := (List.range w).foldl (fun a i => if v.getLsbD i then a + 1 else a) 0

/-! ### Health tests (06 Table 6.1) -/

/-- Repetition count: somewhere 41 raw bits in a row are the same, that is, 40 neighbours in a row agree. -/
def repeats (raw : BitVec 1024) : Bool :=
  let n := 2 ^ 1023 - 1
  let a := (raw.toNat ^^^ (raw.toNat >>> 1)) &&& n ^^^ n
  let a2 := a &&& (a >>> 1)
  let a4 := a2 &&& (a2 >>> 2)
  let a8 := a4 &&& (a4 >>> 4)
  let a16 := a8 &&& (a8 >>> 8)
  let a32 := a16 &&& (a16 >>> 16)
  a32 &&& (a8 >>> 32) != 0

/-- Adaptive proportion: the first value of the window of 1,024 raw bits, bit 0, occurs 800 times or more. -/
def lopsided (raw : BitVec 1024) : Bool := decide (800 ≤ if raw.getLsbD 0 then popc raw else 1024 - popc raw)

/-- A source fails its health tests on these raw bits. -/
def unhealthy (raw : BitVec 1024) : Bool := repeats raw || lopsided raw

/-! ### The conditioner (06 R186) -/

/-- The n-th conditioned block: the CBC-MAC of 1,024 raw bits. -/
def condBlock (n : Nat) : Bytes := cmacFrom (roundKeys (keyBytes Config.condKey)) (zeros 16) (be 128 (Config.rawBits n).toNat)

/-! ### CTR_DRBG (SP 800-90A 10.2) -/

/-- Counter blocks from `v + i` on, encrypted. -/
def drbgStream (key : BitVec 256) (v : BitVec 128) (i n : Nat) : Bytes :=
  let rk := roundKeys (keyBytes key)
  ((List.range n).map fun j => encBlock rk (unblk (v + BitVec.ofNat 128 (i + j)))).flatten

/-- Update: key and counter from three blocks and 48 bytes of data. -/
def drbgUpdate (i : Nat) (data : Bytes) (d : Drbg) : Drbg :=
  let b := xorb (drbgStream d.key d.v i 3) data
  { d with key := keyOf (b.take 32), v := blk (b.drop 32) }

/-- Block_Cipher_df: 48 bytes from an input string. -/
def drbgDf (input : Bytes) : Bytes :=
  let m := be 4 input.length ++ be 4 48 ++ input ++ [0x80]
  let m := m ++ zeros ((16 - m.length % 16) % 16)
  let rk := roundKeys ((List.range 32).map (BitVec.ofNat 8))
  let t := ((List.range 3).map fun i => cmacFrom rk (zeros 16) (be 4 i ++ zeros 12 ++ m)).flatten
  let rk := roundKeys (t.take 32)
  let x := encBlock rk (t.drop 32)
  let y := encBlock rk x
  x ++ y ++ encBlock rk y

/-- Instantiation at a time, from three conditioned blocks and the personalisation string. -/
def drbgStart (blocks pers : Bytes) (now : Nat) : Drbg := drbgUpdate 1 (drbgDf (blocks ++ pers)) { since := now }

/-- Reseeding, from two conditioned blocks. -/
def drbgReseed (blocks : Bytes) (now : Nat) (d : Drbg) : Drbg := { drbgUpdate 1 (drbgDf blocks) d with use := 0, since := now }

/-- A 256-bit generate: two blocks of output, three of update. -/
def drbgGen (d : Drbg) : BitVec 256 × Drbg :=
  (keyOf (drbgStream d.key d.v 1 2), { drbgUpdate 3 (zeros 48) d with use := d.use + 1 })

/-- `n` generates, one after another. -/
def drbgMany : Nat → Drbg → Bytes × Drbg
  | 0, d => ([], d)
  | n + 1, d =>
    let (x, d) := drbgGen d
    let (b, d) := drbgMany n d
    (keyBytes x ++ b, d)

end Sys2Proof.Machine
end

