-- ==== Sys2Proof/Machine/Tab.lean ====
section
/-! DEFINITION. Sparse tables: reading, writing and removing entries in rising index order. -/

namespace Sys2Proof.Machine
open Sys2Proof

/-- The entry at an index, if it is listed. -/
def tfind {α : Type} : Tab α → Nat → Option α
  | [], _ => none
  | (i, v) :: t, k => if i = k then some v else tfind t k

/-- The entry at an index, or `d`. -/
def tget {α : Type} (d : α) (t : Tab α) (k : Nat) : α := (tfind t k).getD d

/-- Writes an entry, in rising order. -/
def tset {α : Type} : Tab α → Nat → α → Tab α
  | [], k, v => [(k, v)]
  | (i, w) :: t, k, v =>
    if k < i then (k, v) :: (i, w) :: t
    else if k = i then (k, v) :: t
    else (i, w) :: tset t k v

/-- Removes an entry. -/
def tdel {α : Type} : Tab α → Nat → Tab α
  | [], _ => []
  | (i, w) :: t, k => if i = k then t else (i, w) :: tdel t k

/-- Changes an entry, an absent one from `d`. -/
def tupd {α : Type} (d : α) (t : Tab α) (k : Nat) (f : α → α) : Tab α := tset t k (f (tget d t k))

/-- Changes every listed entry. -/
def tmap {α : Type} (f : Nat → α → α) (t : Tab α) : Tab α := t.map fun p => (p.1, f p.1 p.2)

/-- Indices rise strictly. -/
def sorted {α : Type} : Tab α → Bool
  | [] => true
  | [_] => true
  | (i, _) :: (j, w) :: t => decide (i < j) && sorted ((j, w) :: t)

/-- The lowest of `n` indices from `i` that meets a test. -/
def seek (p : Nat → Bool) : Nat → Nat → Option Nat
  | 0, _ => none
  | n + 1, i => if p i then some i else seek p n (i + 1)

/-- The lowest index from `lo`, among `n` candidates, that the table does not list. -/
def lowFree {α : Type} (t : Tab α) (lo n : Nat) : Option Nat := seek (fun i => (tfind t i).isNone) n lo

/-- Removes the first element that meets a test, giving it and the rest. -/
def takeFirst {α : Type} (p : α → Bool) : List α → Option (α × List α)
  | [] => none
  | x :: xs => if p x then some (x, xs) else (takeFirst p xs).map fun r => (r.1, x :: r.2)

/-- Removes every copy of an element. -/
def without {α : Type} [BEq α] (l : List α) (x : α) : List α := l.filter fun y => !(y == x)

end Sys2Proof.Machine
end

