-- ==== Sys2Proof/Machine/Ops.lean ====
section
/-! DEFINITION. Named operations over the state that every family uses: reading and writing tables, counters, events,
rings, faults and the safe state, fences and results, random bits, and the Key Register. -/

namespace Sys2Proof.Machine
open Sys2Proof Sys2Proof.Crypto

abbrev Res := Host.Outcome State Fault Refusal

/-! ### Fence error codes (09 Table 9.17) -/

def yeTagFail : Nat := 0x01
def yePoison : Nat := 0x02
def yeStale : Nat := 0x03
def yeEpoch : Nat := 0x04
def yeKey : Nat := 0x05
def yeLost : Nat := 0x06
def yeAbandoned : Nat := 0x07
def yeProdAbandoned : Nat := 0x08
def yeFrozen : Nat := 0x09
def yeQuota : Nat := 0x0A
def yeLength : Nat := 0x0B
def yeTimeout : Nat := 0x0C
def yeReplay : Nat := 0x0D
def yeSaturated : Nat := 0x0E
def yeExhausted : Nat := 0x0F
def yeDenied : Nat := 0x10
def yeHandoff : Nat := 0x11

/-! ### Reading and changing the tables -/

def State.memSt (s : State) (st : Nat) : MemSt := tget {} s.mem st
def State.onMem (s : State) (st : Nat) (f : MemSt → MemSt) : State := { s with mem := tupd {} s.mem st f }
def State.linkSt (s : State) (st : Nat) : LinkSt := tget {} s.link st
def State.onLink (s : State) (st : Nat) (f : LinkSt → LinkSt) : State := { s with link := tupd {} s.link st f }
def State.key (s : State) (i : Nat) : KeySlot := tget {} s.keys i
def State.onKey (s : State) (i : Nat) (f : KeySlot → KeySlot) : State := { s with keys := tupd {} s.keys i f }
def State.obj (s : State) (i : Nat) : Obj := tget {} s.objs i
def State.onObj (s : State) (i : Nat) (f : Obj → Obj) : State := { s with objs := tupd {} s.objs i f }
def State.part (s : State) (i : Nat) : Part := tget {} s.parts i
def State.onPart (s : State) (i : Nat) (f : Part → Part) : State := { s with parts := tupd {} s.parts i f }
def State.ctx (s : State) (i : Nat) : Ctx := tget {} s.ctxs i
def State.onCtx (s : State) (i : Nat) (f : Ctx → Ctx) : State := { s with ctxs := tupd {} s.ctxs i f }
def State.queue (s : State) (i : Nat) : Queue := tget {} s.queues i
def State.onQueue (s : State) (i : Nat) (f : Queue → Queue) : State := { s with queues := tupd {} s.queues i f }
def State.fence (s : State) (i : Nat) : Fence := tget {} s.fences i
def State.onFence (s : State) (i : Nat) (f : Fence → Fence) : State := { s with fences := tupd {} s.fences i f }
def State.dom (s : State) (i : Nat) : Dom := tget {} s.doms i
def State.onDom (s : State) (i : Nat) (f : Dom → Dom) : State := { s with doms := tupd {} s.doms i f }
def State.now (s : State) : Nat := s.aon.time

/-- Puts one emission on the record. -/
def emit (o : Out) (s : State) : State := { s with out := o :: s.out }

/-- Folds a change over a list. -/
def each {α : Type} (l : List α) (f : α → State → State) (s : State) : State := l.foldl (fun s x => f x s) s

/-! ### Units (01 Table 1.2) -/

def isMem (u : Nat) : Bool := decide (u < Config.memStations)
def isLink (u : Nat) : Bool := decide (0x80 ≤ u) && decide (u < 0x80 + Config.linkStations)
def isNode (u : Nat) : Bool := decide (0xE0 ≤ u) && decide (u < 0xE0 + Config.dies)
def isStation (u : Nat) : Bool := isMem u || isLink u || u == Config.hostId
def isUnit (u : Nat) : Bool := isStation u || u == Config.keepId || isNode u
def stationIds : List Nat := Config.memIds ++ Config.linkIds ++ [Config.hostId]
def unitIds : List Nat := stationIds ++ Config.nodeIds ++ [Config.keepId]

def State.port (s : State) (u : Nat) : Port :=
  if isMem u then (s.memSt u).port else if isLink u then (s.linkSt u).port else s.host.port

def State.onPort (s : State) (u : Nat) (f : Port → Port) : State :=
  if isMem u then s.onMem u fun m => { m with port := f m.port }
  else if isLink u then s.onLink u fun l => { l with port := f l.port }
  else { s with host := { s.host with port := f s.host.port } }

def State.word (s : State) (u : Nat) : FaultWord := tget {} s.flt.words u

/-- A Severe against a station or its die's node, or the block safe state, puts the station in Safe (10 Table 10.1). -/
def State.isSafe (s : State) (u : Nat) : Bool :=
  s.flt.blockSafe || (s.word u).uncleared.getLsbD 2 || (s.word (0xE0 + Config.dieOf u)).uncleared.getLsbD 2

/-- Station states of 01 Table 1.5, highest precedence first. -/
inductive PortState where
  | closed
  | safe
  | stopped
  | opened
  deriving DecidableEq, Repr

/-- The state in force (01 R25). -/
def State.portState (s : State) (u : Nat) : PortState :=
  if !(s.port u).opened then .closed else if s.isSafe u then .safe
  else if (s.port u).stopped then .stopped else .opened

/-- The keep is held by a Severe against itself or any Fatal (10 R330), and a stop restricts it likewise (11
Table 11.1). -/
def State.keepHeld (s : State) : Bool := (s.word Config.keepId).uncleared.getLsbD 2 || s.flt.blockSafe
/-- A stop has reached its tick and is in force (11 R351, R352). -/
def State.keepStopped (s : State) : Bool := s.stop.inForce && decide (s.stop.tick ≤ s.now)
def State.keepLive (s : State) : Bool := s.keep.ready && !s.aon.lockdown && s.aon.phase == 1

/-- Which FAULT_N level the block drives: low while any Degrade or above is uncleared, or before KEEP_READY (10 R342). -/
def State.faultLow (s : State) : Bool :=
  !s.keep.ready || s.flt.words.any fun w => (w.2.uncleared &&& 0b1110#4) != 0#4

/-! ### Counters (13) -/

/-- Accounting words of a unit block (13 Tables 13.5 to 13.8). -/
def isAcct (u w : Nat) : Bool :=
  if isMem u then [5, 6, 7, 8, 25].contains w
  else if isLink u then [5, 6].contains w
  else if u == Config.hostId then [3, 4].contains w
  else u == Config.keepId && [9, 11, 19].contains w

def two64 : Nat := 2 ^ 64

/-- Fires an MSI-X vector: a masked one sets its pending bit (09 R323; PCIe resets the mask bit to 1). -/
def fireVector (v : Nat) (s : State) : State :=
  if s.keep.pba.contains v then s
  else if (tget (1 : BitVec 32) s.keep.msix (4 * v + 3)).getLsbD 0 then { s with keep := { s.keep with pba := v :: s.keep.pba } }
  else emit (.msix v) s

/-- Raises an event on a context (09 R323). -/
def raiseEvent (c cookie type code subject : Nat) (s : State) : State :=
  let x := s.ctx c
  let n := 2 ^ (x.size + 4)
  if x.state = 0 then s
  else if (x.tail + 1) % n = x.head then
    let lost := if x.lostEvents < 0xFFFF then x.lostEvents + 1 else x.lostEvents
    let s := s.onCtx c fun x => { x with ovf := true, lostEvents := lost }
    { s with ctrs := tupd {} s.ctrs Config.keepId fun k => { k with words := tupd 0 k.words 16 (fun v => (v + 1) % two64) } }
  else
    let e := le 8 cookie ++ [BitVec.ofNat 8 type, if x.phase then 0 else 1] ++ le 2 code ++ le 2 subject ++ le 2 0
    let s := emit (.event c x.tail e) s
    let t := (x.tail + 1) % n
    let s := s.onCtx c fun x => { x with tail := t, phase := if t = 0 then !x.phase else x.phase }
    if x.device then s else fireVector x.vector s

/-- Adds to a counter of a unit block (13 R398, R399). -/
def bump (u w n : Nat) (s : State) : State :=
  let c := tget {} s.ctrs u
  let v := tget 0 c.words w
  if isAcct u w then
    let full := decide (two64 ≤ v + n)
    let c' := { c with
      words := tset c.words w (if full then two64 - 1 else v + n),
      sticky := if full then c.sticky ||| (1#64 <<< w) else c.sticky }
    let s' := { s with ctrs := tset s.ctrs u c' }
    if full && !c.sticky.getLsbD w then raiseEvent 0 (256 * u + w) 0x09 0 0xFFFF s' else s'
  else { s with ctrs := tset s.ctrs u { c with words := tset c.words w ((v + n) % two64) } }

/-- Counters of a unit restart from zero; fault counters stay (13 R400). -/
def restartCounters (u : Nat) (s : State) : State :=
  { s with ctrs := tupd {} s.ctrs u fun c => { c with clearTime := s.now, sticky := 0, words := [] } }

/-! ### Rings the keep writes (13 R411) -/

/-- Names a ring: both offsets at 64. -/
def openRing (h kib : Nat) (s : State) : State :=
  let r : Ring := { handle := h, size := 1024 * kib }
  emit (.ring h 0 (le 8 64 ++ le 8 64 ++ le 8 r.size ++ zeros 40)) { s with rings := tset s.rings h r }

/-- Room left before the write offset comes within 64 bytes behind the read offset (13 Table 13.11). -/
def ringRoom (r : Ring) : Nat :=
  let n := r.size - 64
  let used := (r.woff + n - r.roff) % n
  n - used - 64

def pad16 (b : Bytes) : Bytes := b ++ zeros ((16 - b.length % 16) % 16)
def ringItem (type : Nat) (b : Bytes) : Bytes := pad16 (le 4 b.length ++ le 2 type ++ le 2 0 ++ b)

/-- Writes bytes into a ring; `none` when they do not fit. -/
def ringPut (h : Nat) (b : Bytes) (s : State) : Option State :=
  let r := tget {} s.rings h
  if (tfind s.rings h).isSome && decide (b.length ≤ ringRoom r) then
    let w := 64 + (r.woff - 64 + b.length) % (r.size - 64)
    some (emit (.ring h r.woff b) { s with rings := tset s.rings h { r with woff := w } })
  else none

/-- Sample and trace rings drop what does not fit, and count it. -/
def ringPutOrDrop (h : Nat) (b : Bytes) (s : State) : State :=
  match ringPut h b s with
  | some s' => s'
  | none => { s with rings := tmap (fun i r => if i = h then { r with dropped := min (two64 - 1) (r.dropped + 1) } else r) s.rings }

/-! ### The signed event log's queue (14 R450) -/

/-- Queues an event-log entry: time, type, data.  Entries past the queue's 65,536 are those whose producers wait. -/
def logEntry (type : Nat) (d : Bytes) (s : State) : State :=
  let e := le 8 s.now ++ [BitVec.ofNat 8 type, BitVec.ofNat 8 d.length] ++ zeros 6 ++ fit 40 d
  { s with flash := { s.flash with queue := s.flash.queue ++ [e] } }

/-! ### Faults (10) -/

/-- Default threshold, window in ticks, and class at the threshold (10 Table 10.2). -/
def defaultThr (src : Nat) : Option (Nat × Nat × Nat) :=
  match src with
  | 0x01 => some (8, Config.ms 1, 3)
  | 0x02 => some (4, Config.ms 1000, 3)
  | 0x03 => some (4096, Config.ms 1, 3)
  | 0x04 => some (16, Config.ms 1, 3)
  | 0x05 => some (16, Config.ms 1, 3)
  | 0x06 => some (16, Config.ms 1, 3)
  | 0x07 => some (1024, Config.ms 1, 3)
  | 0x08 => some (64, Config.ms 10, 3)
  | 0x10 => some (2, Config.us 1, 4)
  | _ => none

/-- The class one event raises; 0 for a source that is only counted (10 Table 10.2). -/
def eventClass (src : Nat) : Nat :=
  if [0x01, 0x03, 0x04, 0x05, 0x06, 0x07, 0x08, 0x10].contains src then 0
  else if [0x0A, 0x0B, 0x19, 0x1A, 0x21].contains src then 3
  else if [0x12, 0x1B, 0x1F].contains src then 4
  else 2

/-- Sources whose condition goes on after the raise (10 Table 10.2, "Ends"). -/
def lasting (src : Nat) : Bool := [0x09, 0x0B, 0x11, 0x18, 0x19, 0x1C, 0x1D, 0x1E].contains src

/-- The class a fault ends at: the first from `c` upward whose unacknowledged bit is clear, or Fatal (10 R335). -/
def escalate (un : BitVec 4) (c : Nat) : Nat :=
  ((List.range 4).map (· + 1)).find? (fun k => decide (c ≤ k) && (k == 4 || !un.getLsbD (k - 1))) |>.getD 4

/-- A block wipe of the memories that hold keys (06 R207, 10 Table 10.10b). -/
def eraseKeys (s : State) : State :=
  { s with keys := [],
           mem := tmap (fun _ m => { m with port := { m.port with keys := [], asked := [] } }) s.mem,
           link := tmap (fun _ l => { l with port := { l.port with keys := [], asked := [] } }) s.link,
           host := { s.host with port := { s.host.port with keys := [], asked := [] } } }
def eraseVault (s : State) : State :=
  { s with aon := { s.aon with vault := [], vaultKey := 0, vaultAt := none } }
def eraseScratch (s : State) : State := 
  { s with keep := { s.keep with scratch := { s.keep.scratch with cells := [], moves := [] } } }
/-- Clears every slice; the version keys go with them (02 R60). -/
def eraseVrt (s : State) : State :=
  { s with mem := tmap (fun _ m => { m with vrt := [], lines := [], fetching := [], reseal := [], locks := [], reports := [],
                                            withheld := [], marks := [] }) s.mem,
           keys := tmap (fun _ k => if k.cls = 2 then { state := 0, gen := k.gen } else k) s.keys }

/-- A memory station after its reset: the slice and the withheld list stay (11 Table 11.5, 02 R60), as do the marks and
freezes that the keep still holds in force there (03 R99, R101). -/
def freshMem (m : MemSt) : MemSt :=
  { vrt := m.vrt, withheld := m.withheld, retSlots := m.retSlots, retObjs := m.retObjs, frzParts := m.frzParts, frzObjs := m.frzObjs,
    port := { selfTest := m.port.selfTest, heldClosed := m.port.heldClosed, cur := m.port.cur, drain := m.port.drain } }
/-- A link station after its reset: it starts again at the mark in force (05 R135). -/
def freshLink (l : LinkSt) : LinkSt :=
  { jobs := tmap (fun _ j => { j with startMark := j.mark }) l.jobs, lost := l.lost,
    port := { selfTest := l.port.selfTest, heldClosed := l.port.heldClosed, cur := l.port.cur, drain := l.port.drain } }
def freshHost (h : HostSt) : HostSt :=
  { port := { selfTest := h.port.selfTest, heldClosed := h.port.heldClosed, cur := h.port.cur, drain := h.port.drain },
    tdisp := tmap (fun _ t => if t.state = 0 then t else { t with state := 3 }) h.tdisp }

/-- Keep and every station held in reset, every station Closed, with nothing of its work and no cached key left in it (00 R1,
11 Table 11.5, Table 11.6 step 5). -/
def holdAll (s : State) : State :=
  { s with mem := tmap (fun _ m => freshMem m) s.mem, link := tmap (fun _ l => freshLink l) s.link, host := freshHost s.host,
           keep := { s.keep with ready := false, portsOpen := false, adminReady := false } }

/-- The Hedgehog tamper lockdown (10 R347, Table 10.10a, Table 10.10b). -/
def lockdown (cause : Nat) (sensors : BitVec 20) (s : State) : State :=
  if s.aon.lockdown then
    { s with aon := { s.aon with trip := s.aon.trip ||| sensors.setWidth 64 } }
  else
    let s := { s with
      aon := { s.aon with lockdown := true, alarm := true, cause := 4, phase := 5,
                          trip := (BitVec.ofNat 64 cause <<< 32) ||| sensors.setWidth 64 },
      flt := { s.flt with blockSafe := true } }
    let p := s.keep.policy
    let s := if 1 ≤ p then eraseScratch (eraseKeys s) else s
    let s := if 2 ≤ p then eraseVault s else s
    let s := if 3 ≤ p then eraseVrt s else s
    holdAll s

/-- A dump trigger (11 Table 11.11: 1 command, 2 Fatal, 3 hang, 4 station reset, 5 warm reset): every mirror latches. One
that comes while a dump is armed is counted and ignored, unless it is a reset's, which takes the place of the other
(11 R367, R368). -/
def dumpTrigger (kind : Nat) (s : State) : State :=
  let d := s.dump
  if d.ring.isNone || !d.mask.getLsbD (kind - 1) then s
  else if d.armed.isSome && decide (kind < 3) then { s with dump := { d with ignored := d.ignored + 1 } }
  else { s with dump := { d with
    armed := some kind, armedAt := s.now, latched := true, unreachable := [], startId := s.keep.startId,
    mirrors := unitIds.foldl (fun t u => tset t u (Config.mirrorBytes u s.now)) [] } }

/-- Raises a fault of a class against a unit (10 R335, R336, R344). -/
def raise (u src c : Nat) (thr : Bool) (count fence : Nat) (detail : BitVec 64) (s : State) : State :=
  if s.aon.lockdown then s else
  let w := s.word u
  let k := escalate w.unack c
  let level := s.flt.words.any fun x => x.2.unack.getLsbD 3
  let lock := k == 4 && level
  let r : FaultRec := {
    time := s.now, seq := s.flt.logSeq, unit := u, source := src, cls := k,
    escalated := k != c, threshold := thr, lockdown := lock, prior := c, count := count, fence := fence, detail := detail }
  let bit := 1#4 <<< (k - 1)
  let w' : FaultWord := {
    last := src, uncleared := w.uncleared ||| bit, unack := w.unack ||| bit,
    active := if lasting src then (src, k) :: w.active else w.active }
  let s := { s with flt := { s.flt with
      words := tset s.flt.words u w', log := (r :: s.flt.log).take 64,
      logSeq := (s.flt.logSeq + 1) % 2 ^ 32, blockSafe := s.flt.blockSafe || k == 4 } }
  let flags := k + (if k != c then 8 else 0) + (if thr then 16 else 0) + (if lock then 32 else 0)
  let s := logEntry 0x02 (le 8 r.time ++ le 4 r.seq ++ le 1 u ++ le 1 src ++ le 1 flags ++ le 1 c ++ le 2 count ++
      le 2 fence ++ le 4 0 ++ le 8 detail.toNat) s
  let s := if 2 ≤ k then fireVector (s.flt.vector.toNat % 2048) s else s
  let s := if k = 4 ∨ (k = 3 ∧ isNode u) then bump (0xE0 + Config.dieOf u) 5 1 s else s
  let s := if k = 4 ∧ src ≠ 0x1F ∧ s.aon.phase = 1 then dumpTrigger 2 s else s
  if lock then lockdown 8 0 s else s

def findWin (ws : List ((Nat × Nat) × Window)) (k : Nat × Nat) : Window :=
  ((ws.find? fun w => w.1 == k).map (·.2)).getD {}
def setWin (ws : List ((Nat × Nat) × Window)) (k : Nat × Nat) (w : Window) : List ((Nat × Nat) × Window) :=
  (k, w) :: ws.filter fun x => !(x.1 == k)

/-- A unit's fault counter of a source (13 R404). -/
def countFault (u src : Nat) (s : State) : State :=
  { s with ctrs := tupd {} s.ctrs u fun c => { c with faults := tupd 0 c.faults src fun v => min 0xFFFF (v + 1) } }

/-- One event of a fault source against a unit: its counter, its window, and what it raises (10 R332, R333; 13 R404).  An
event in the clock of its window's close comes before the close (10 Table 10.12). -/
def faultEvent (u src fence : Nat) (detail : BitVec 64) (s : State) : State :=
  let s := countFault u src s
  match defaultThr src with
  | none => raise u src (eventClass src) false 1 fence detail s
  | some (n0, w0, cls) =>
    let w := findWin s.flt.windows (u, src)
    let live := match w.closeAt with
      | some t => decide (s.now ≤ t)
      | none => false
    let n := if live then w.curN else w.n.getD n0
    let close := if live then w.closeAt else some (s.now + w.w.getD w0)
    let cnt := (if live then w.count else 0) + 1
    if n ≠ 0 ∧ n ≤ cnt then
      raise u src cls true cnt fence detail
        { s with flt := { s.flt with windows := setWin s.flt.windows (u, src) { w with count := 0, closeAt := none } } }
    else
      let w' : Window := { w with count := cnt, closeAt := close, curN := n }
      let s := { s with flt := { s.flt with windows := setWin s.flt.windows (u, src) w' } }
      if eventClass src = 0 then s else raise u src (eventClass src) false 1 fence detail s

/-- The condition of a lasting source ends (10 Table 10.2). -/
def endCondition (u src : Nat) (s : State) : State :=
  { s with flt := { s.flt with words := tmap (fun i w => if i = u then { w with active := w.active.filter fun a => !(a.1 == src) } else w) s.flt.words } }

/-! ### Fences, results and completion (09) -/

/-- Completes a Pending fence (09 R309), and frees it if its owner has freed it (R310). -/
def fenceComplete (i : Nat) (s : State) : State :=
  s.onFence i fun f =>
    if f.state = 2 then
      if f.freed ∧ f.importers = [] then { gen := f.gen }
      else { f with state := if f.errors = 0 ∧ f.code = 0 then 3 else 4 }
    else f

/-- A failure report against a fence from a request of a partition (09 R312). -/
def fenceReport (i part code : Nat) (detail : BitVec 128) (s : State) : State :=
  let f := s.fence i
  if i ≠ 0xFFFF ∧ f.state = 2 ∧ (s.ctx f.owner).part = part then
    s.onFence i fun f => { f with
      errors := min 0xFFFF (f.errors + 1),
      code := if f.code = 0 ∨ code = yeAbandoned ∨ code = yeProdAbandoned then code else f.code,
      detail := if f.code = 0 then detail else f.detail }
  else bump Config.keepId 4 1 s

/-- A failure that the keep itself sets as a fence completes. -/
def fenceFail (i code : Nat) (detail : BitVec 128) (s : State) : State :=
  fenceComplete i (s.onFence i fun f => if f.state = 2 then { f with
    code := if f.code = 0 ∨ code = yeAbandoned ∨ code = yeProdAbandoned then code else f.code,
    detail := if f.code = 0 then detail else f.detail, errors := min 0xFFFF (f.errors + 1) } else f)

/-- Detail kinds of 09 Table 9.16. -/
def detailStation (st kind pslot : Nat) : BitVec 128 :=
  BitVec.ofNat 128 (1 + st * 2 ^ 8 + kind * 2 ^ 32 + pslot * 2 ^ 64)
def detailLink (st peer seq : Nat) : BitVec 128 :=
  BitVec.ofNat 128 (2 + st * 2 ^ 8 + peer * 2 ^ 32 + seq * 2 ^ 64)
def detailAcc (a b : Nat) : BitVec 128 :=
  BitVec.ofNat 128 (3 + min a (2 ^ 48 - 1) * 2 ^ 32 + min b (2 ^ 48 - 1) * 2 ^ 80)
def detailHandoff (cause num dev : Nat) : BitVec 128 :=
  BitVec.ofNat 128 (4 + cause * 2 ^ 32 + num * 2 ^ 64 + dev * 2 ^ 96)
def detailInherited (fence gen : Nat) : BitVec 128 :=
  BitVec.ofNat 128 (5 + fence * 2 ^ 32 + gen * 2 ^ 48)
def detailCommand (step : Nat) : BitVec 128 := BitVec.ofNat 128 (6 + step * 2 ^ 32)

/-! ### Envelope fields (09 Table 9.12) -/

def envBits (e : BitVec 1024) (off size : Nat) : Nat := (e.toNat >>> (8 * off)) % 2 ^ (8 * size)
def opnd (e : BitVec 1024) (off size : Nat) : Nat := envBits e (32 + off) size
def opBytes (e : BitVec 1024) (off size : Nat) : Bytes := le size (opnd e off size)
def envOpcode (e : BitVec 1024) : Nat := envBits e 0 2
def envEvent (e : BitVec 1024) : Bool := e.getLsbD 16
def envSerial (e : BitVec 1024) : Bool := e.getLsbD 17
def envFence (e : BitVec 1024) : Nat := envBits e 4 2
def envLayer (e : BitVec 1024) : Nat := envBits e 6 2
def envOper (e : BitVec 1024) : Nat := envBits e 8 2
def envCookie (e : BitVec 1024) : Nat := envBits e 24 8

/-- A result entry (09 Table 9.13). -/
def resultEntry (code seq time : Nat) (res : Bytes) : Bytes :=
  le 2 code ++ le 2 (min 48 res.length) ++ le 4 seq ++ le 8 time ++ fit 48 res

/-! ### Trace (13 R412 to R414) -/

/-- Whether a source records work of an attribution. -/
def traced (x : Trace) (src part layer oper : Nat) : Bool :=
  x.on && x.mask.getLsbD src && x.parts.getLsbD part &&
  (BitVec.ofNat 16 layer &&& x.layerMask) == (x.layer &&& x.layerMask) && (BitVec.ofNat 16 oper &&& x.operMask) == (x.oper &&& x.operMask)

/-- One record into a source's buffer of 1,024, or it is lost and counted. -/
def tracePut (src part layer oper type a b : Nat) (s : State) : State :=
  let x := s.trace
  let buf := tget [] x.bufs src
  if 1024 ≤ buf.length then
    bump Config.keepId 17 1 { s with trace := { x with lostRecs := tupd 0 x.lostRecs src (· + 1), since := tdel x.since src } }
  else
    let delta := min 0xFFFF (12 * (s.now - tget s.now x.lastAt src))
    let r := le 1 type ++ le 1 part ++ le 2 layer ++ le 2 oper ++ le 2 delta ++ le 4 a ++ le 4 b
    { s with trace := { x with
      bufs := tset x.bufs src (buf ++ [(s.now, r)]), lastAt := tset x.lastAt src s.now } }

/-- A record, after the lost record and the sync record that are due. -/
def traceRec (src part layer oper type a b : Nat) (s : State) : State :=
  let lost := tget 0 s.trace.lostRecs src
  let s := if lost ≠ 0 ∧ (tget [] s.trace.bufs src).length < 1024 then
      tracePut src part layer oper 6 lost 0 { s with trace := { s.trace with lostRecs := tdel s.trace.lostRecs src, since := tdel s.trace.since src } }
    else s
  let due := match tfind s.trace.since src with
    | none => true
    | some n => decide (256 ≤ n) || decide (0xFFFF ≤ 12 * (s.now - tget s.now s.trace.lastAt src))
  let s := if due then
      let s := tracePut src part layer oper 7 (s.now % 2 ^ 32) (s.now / 2 ^ 32 % 2 ^ 32) s
      { s with trace := { s.trace with since := tset s.trace.since src 0 } }
    else s
  let s := { s with trace := { s.trace with since := tupd 0 s.trace.since src (· + 1) } }
  tracePut src part layer oper type a b s

/-- A source's turn at a piece of work of an attribution: its records, or an owed sync record when it records others. -/
def tracePass (x : Trace) (src part layer oper : Nat) (k : State → State) (s : State) : State :=
  if traced x src part layer oper then k s
  else if x.mask.getLsbD src then { s with trace := { s.trace with since := tdel s.trace.since src } } else s

/-- A command's work starts (type 4) or ends (type 5): its engine's record, and the branches of the programs that ran. -/
def traceWork (t : Taken) (type b : Nat) (s : State) : State :=
  let x := s.trace
  if !x.on then s else
  let part := (s.ctx (s.queue t.q).ctx).part
  let layer := envLayer t.e
  let oper := envOper t.e
  let eng := 1 + Config.traceEngine t.seq % 8
  let n := x.count
  let s := { s with trace := { x with count := n + 1 } }
  let s := tracePass x eng part layer oper (fun s => if type = 4 then traceRec eng part layer oper 4 t.seq b s else s) s
  let s := tracePass x eng part layer oper (fun s => each (Config.traceBranches eng n) (fun r s =>
      traceRec eng part layer oper 1 (r.2.toNat % 2 ^ 32) (r.2.toNat / 2 ^ 32) s) s) s
  let s := tracePass x 0 part layer oper (fun s => each (Config.traceBranches 0 n) (fun r s =>
      traceRec 0 part layer oper (1 + r.1.toNat % 3) (r.2.toNat % 2 ^ 32) (r.2.toNat / 2 ^ 32) s) s) s
  tracePass x eng part layer oper (fun s => if type = 5 then traceRec eng part layer oper 5 t.seq b s else s) s

/-- The profile set that holds a command notes its end (13 R406). -/
def profEnded (t : Taken) (code : Nat) (s : State) : State :=
  { s with profs := tmap (fun _ p => if p.queue = some t.q ∧ (p.seq = some t.seq ∨ (p.next.map (·.1)) = some t.seq) then
      { p with doneAt := some s.now, lastCode := code } else p) s.profs }

/-- Ends a command: result entry, then its fence, then the completion event (09 R305). -/
def endCommand (t : Taken) (code : Nat) (res : Bytes) (fin : State → State) (s : State) : State :=
  let c := (s.queue t.q).ctx
  let s := if t.phase = 2 then traceWork t 5 code s else s
  let s := { s with taken := s.taken.filter fun x => !(x.q == t.q && x.seq == t.seq) }
  let s := if code = 0 then s else bump Config.keepId 3 1 s
  let s := profEnded t code (fin (emit (.result t.q t.idx (resultEntry code t.seq s.now res)) s))
  if envEvent t.e then raiseEvent c (envCookie t.e) 0x01 code (envFence t.e) s else s

/-- The stream fence that a taken ACC_OPEN has armed fails with its command (04 R133).  DESIGN CHOICE (log 137): whatever
failed it, before its body or in it. -/
def failStream (t : Taken) (code : Nat) (detail : BitVec 128) (s : State) : State :=
  if envOpcode t.e = 0x0410 ∧ code ≠ 0 ∧ s.taken.any (fun x => x.q == t.q && x.seq == t.seq) then
    fenceFail (opnd t.e 8 2) code detail s
  else s

/-- Completes a command with a code and, on failure, its detail. -/
def complete (t : Taken) (code : Nat) (detail : BitVec 128) (res : Bytes) (s : State) : State :=
  endCommand t code res (fun s => if code = 0 then fenceComplete (envFence t.e) s else fenceFail (envFence t.e) code detail s)
    (failStream t code detail s)

/-- Completes a command whose failures, if any, have been reported against its fence. -/
def completeReported (t : Taken) (res : Bytes) (s : State) : State :=
  let code := (s.fence (envFence t.e)).code
  endCommand t code (if code = 0 then res else []) (fenceComplete (envFence t.e)) s

/-- Completes with success. -/
def done (t : Taken) (res : Bytes) (s : State) : State := complete t 0 0 res s
/-- Fails during execution (09 Table 9.16 kind 0x06, step 0). -/
def failCmd (t : Taken) (code : Nat) (s : State) : State := complete t code (detailCommand 0) [] s

/-- Keeps a command Running, with what it holds. -/
def keepRunning (t : Taken) (aux : Nat) (s : State) : State :=
  { s with taken := s.taken.map fun x => if x.q == t.q && x.seq == t.seq then { x with phase := 2, aux := aux } else x }

/-- Keeps a command Running with a count and the result it will give. -/
def holdResult (t : Taken) (aux : Nat) (res : Bytes) (s : State) : State :=
  { s with taken := s.taken.map fun x => if x.q == t.q && x.seq == t.seq then { x with phase := 2, aux := aux, inp := res } else x }

/-- Running commands of an opcode that hold `aux`. -/
def runningWith (s : State) (op aux : Nat) : List Taken :=
  s.taken.filter fun t => t.phase == 2 && envOpcode t.e == op && t.aux == aux

/-- The partition a command acts for. -/
def State.partOf (s : State) (t : Taken) : Nat := (s.ctx (s.queue t.q).ctx).part

/-! ### Random bits (06 R184 to R188) -/

/-- An instance generates while two sources are enabled; in a test session the keep holds all key generation (12 R390). -/
def drbgLive (s : State) (inst : Nat) : Bool :=
  decide (2 ≤ popc s.keep.noise) && s.keep.drbgUp.getLsbD inst && (inst == 1 || !s.aon.testSession)

def State.drbg (s : State) (inst : Nat) : Drbg := if inst = 0 then s.keep.drbg0 else s.keep.drbg1

/-- A reseed is due: after 4,096 generates or 100 ms (06 R186). -/
def reseedDue (s : State) (inst : Nat) : Bool :=
  decide (4096 ≤ (s.drbg inst).use) || decide ((s.drbg inst).since + Config.ms 100 ≤ s.now)

/-- An instance has bits to give: it generates and owes no reseed.  A test session holds all key generation, which instance 0
serves (12 R390, 06 R187). -/
def canDraw (s : State) (inst : Nat) : Bool := drbgLive s inst && !reseedDue s inst && !(inst == 0 && s.aon.testSession)

/-- A 256-bit draw from instance 0. -/
def draw0 (s : State) : BitVec 256 × State :=
  ((drbgGen s.keep.drbg0).1, bump Config.keepId 14 1 { s with keep := { s.keep with drbg0 := (drbgGen s.keep.drbg0).2 } })
/-- `n` bytes from instance 1, in 256-bit draws. -/
def drawBytes (n : Nat) (s : State) : Bytes × State :=
  let g := drbgMany ((n + 31) / 32) s.keep.drbg1
  (g.1.take n, bump Config.keepId 14 ((n + 31) / 32) { s with keep := { s.keep with drbg1 := g.2 } })

/-! ### The Key Register (06) -/

/-- RXMASK of a class (06 Table 6.3): bit 0 MS, 1 LS, 2 HS, 3 CE, 4 PE. -/
def rxOf (cls : Nat) : BitVec 5 :=
  match cls with
  | 0x01 => 0b00001 | 0x02 => 0b00001
  | 0x03 => 0b01010 | 0x04 => 0b01010
  | 0x05 => 0b11000
  | 0x06 => 0b00011
  | 0x07 => 0b00100
  | 0x08 => 0b01000 | 0x09 => 0b01000 | 0x0A => 0b01000 | 0x0B => 0b01000 | 0x0C => 0b01000
  | 0x0D => 0b10000
  | 0x0E => 0b01000
  | _ => 0
def vaultable (cls : Nat) : Bool := [1, 2, 9, 0xA, 0xB, 0xC, 0xD].contains cls
def isPeer (cls : Nat) : Bool := cls == 3 || cls == 4
def isTenantCls (cls : Nat) : Bool := [9, 0xA, 0xB, 0xC].contains cls

/-- Stations that may hold keys of a class. -/
def holders (cls : Nat) : List Nat :=
  let m := rxOf cls
  (if m.getLsbD 0 then Config.memIds else []) ++ (if m.getLsbD 1 then Config.linkIds else []) ++
  (if m.getLsbD 2 then [Config.hostId] else [])

/-- Whether a station's kind has its class bit in RXMASK (06 R191). -/
def mayHold (u cls : Nat) : Bool :=
  let m := rxOf cls
  (isMem u && m.getLsbD 0) || (isLink u && m.getLsbD 1) || (u == Config.hostId && m.getLsbD 2)

/-- The attribute word (06 Table 6.2). -/
def attrWord (k : KeySlot) : BitVec 64 :=
  if k.state = 0 then BitVec.ofNat 64 k.gen else
  BitVec.ofNat 64 (k.state * 2 ^ 61 + k.cls * 2 ^ 56 + (rxOf k.cls).toNat * 2 ^ 51 +
    (if isPeer k.cls then 2 ^ 50 else 0) + (if vaultable k.cls then 2 ^ 49 else 0) +
    (if k.keepOwn then 2 ^ 48 else 0) + k.owner * 2 ^ 40 + k.gen)

/-- The lowest free slot; the first 64 are the keep's own (06 R192). -/
def freeSlot (s : State) (keepOwn : Bool) : Option Nat :=
  if keepOwn then seek (fun i => (s.key i).state == 0) 16384 0 else seek (fun i => (s.key i).state == 0) 16320 64
/-- The lowest free slot above another. -/
def nextSlot (s : State) (a : Nat) : Option Nat := seek (fun i => (s.key i).state == 0) (16383 - a) (a + 1)

/-- A first key in the pending half, at the generation after the slot's (06 R190, Table 6.4). -/
def writePending (cls owner : Nat) (keepOwn : Bool) (k : BitVec 256) (x : KeySlot) : KeySlot :=
  { state := 2, cls := cls, owner := owner, keepOwn := keepOwn, gen := x.gen, first := true, pend := k, pendIs := 1 }

/-- A replacement in the pending half. -/
def writeNext (k : BitVec 256) (x : KeySlot) : KeySlot := { x with state := 2, pend := k, pendIs := 1 }

/-- A first key commits without a swap (06 R201). -/
def firstCommits (k : KeySlot) : KeySlot :=
  if k.first then { k with state := 1, first := false, cur := k.pend, pend := 0, pendIs := 0, gen := k.gen + 1 } else k

def commitFirst (slot : Nat) (s : State) : State := s.onKey slot firstCommits

/-- Installs a first key: written to the pending half, verified and committed, the slot Active (06 R199, R201).  Where
verification fails its callers take `keyFails` in its place. -/
def firstKey (i cls owner : Nat) (keepOwn : Bool) (k : BitVec 256) (s : State) : State :=
  s.onKey i fun x => firstCommits (writePending cls owner keepOwn k x)

/-- Verification of a pending half has failed: the half is zeroed and the slot is as before, which leaves the fault against
the keep (06 R199). -/
def keyFails (s : State) : State := faultEvent Config.keepId 0x1A 0xFFFF 0 s

/-- The half of a slot that holds a generation and may unseal in the slot's state (06 Table 6.4). -/
def halfOf (k : KeySlot) (gen : Nat) : Option (BitVec 256) :=
  if k.state = 0 then none
  else if gen = k.gen ∧ k.first = false then some k.cur
  else if gen = k.gen + 1 ∧ k.pendIs = 1 ∧ (k.state = 4 ∨ k.state = 6) then some k.pend
  else if gen + 1 = k.gen ∧ k.pendIs = 2 then some k.pend
  else none

/-- The half an operation of the command engine goes on under: it stays usable until it is destroyed (06 R205). -/
def userHalf (k : KeySlot) (gen : Nat) : Option (BitVec 256) :=
  if k.state = 0 then none else if gen = k.gen then some k.cur
  else if gen + 1 = k.gen ∧ k.pendIs = 2 then some k.pend else none

/-- A slot's key reaches a threshold (06 R203): its condition is recorded, and once for each generation its owner is told, the
operator for the keep's keys (09 Table 9.22). -/
def keyThreshold (slot : Nat) (s : State) : State :=
  let k := s.key slot
  if k.warned then s
  else
    let tell (c : Nat) (s : State) : State := raiseEvent c (slot * 2 ^ 32 + k.gen) 0x04 0 slot s
    let s := s.onKey slot fun k => { k with warned := true }
    if k.keepOwn then tell 0 s
    else each (s.ctxs.filter fun c => c.2.state == 1 && c.2.part == k.owner) (fun c s => tell c.1 s) s

/-- Swap of a slot's halves: Draining, with the swap message on its way to every holder (06 R201). -/
def commitSwap (slot : Nat) (s : State) : State :=
  s.onKey slot fun k => { k with state := 5, cur := k.pend, pend := k.cur, pendIs := 2, gen := k.gen + 1, inv := 0,
                                 warned := false, waitSwap := holders k.cls }

/-- The keep issues a message to every station it concerns; it reaches them in the order of issue (01 R17). -/
def issue (kind id : Nat) (s : State) : State := { s with keepway := s.keepway ++ [(s.now, kind, id)] }

/-- Retirement of a slot (06 R205): its mark goes to the stations, and its drain is cut at `limit` ticks from now. -/
def retireSlot (i limit : Nat) (s : State) : State :=
  if (s.key i).state = 0 ∨ (s.key i).state = 6 then s
  else issue 2 i (s.onKey i fun k => { k with
    state := 6, pend := if k.state = 2 ∨ k.state = 3 then 0 else k.pend,
    pendIs := if k.state = 2 ∨ k.state = 3 then 0 else k.pendIs, cutAt := some (s.now + limit), waitSwap := [] })

/-- Requests of a memory station under a slot. -/
def reqsUnder (m : MemSt) (slot : Nat) : Bool := m.reqs.any fun r => r.keySlot == slot

/-- Generations whose halves a purge names: the previous one alone, or every half the slot holds (06 R204, R205). -/
def purgedGens (k : KeySlot) : List Nat :=
  if k.purging = 2 then [k.gen - 1]
  else (if k.first then [] else [k.gen]) ++ (if k.pendIs = 1 then [k.gen + 1] else if k.pendIs = 2 then [k.gen - 1] else [])

/-- Destruction of the half or halves of a slot: zeros, a log entry for each, and the new state (06 R204).  A slot that became
Retiring while its old half was purged stays Retiring. -/
def overwrite (i : Nat) (s : State) : State :=
  let k := s.key i
  let s := each (purgedGens k) (fun g s =>
    logEntry 0x03 (le 2 i ++ le 1 k.cls ++ le 1 (if k.keepOwn then 0xFF else k.owner) ++ le 4 g) s) s
  s.onKey i fun k =>
    if k.purging = 2 then { k with state := if k.state = 6 then 6 else 1, pend := 0, pendIs := 0, purging := 0, waitPurge := [], waitSwap := [] }
    else { state := 0, gen := k.gen }

end Sys2Proof.Machine
end

