-- ==== Sys2Proof/Machine/Operands.lean ====
section
/-! DEFINITION. Operand forms: which operand bytes each command's table names (09 R304), which queues may carry it (09
Table 9.11), which object handles it names, and the fields of memory-station and link-station requests (03 Table 3.1,
04 Table 4.5, 05 Table 5.2). -/

namespace Sys2Proof.Machine
open Sys2Proof Sys2Proof.Crypto

/-- A row of the command tables. -/
structure CmdInfo where
  opcode : Nat
  fields : List (Nat × Nat)
  operator : Bool
  tenant : Bool
  device : Bool
  objs : List Nat
  exempt : Bool
  deriving DecidableEq, Repr

def cmdTable0 : List CmdInfo := [
  ⟨0x0401, [(0, 4)], true, true, true, [0], false⟩,
  ⟨0x0402, [(0, 4)], true, true, true, [0], false⟩,
  ⟨0x0410, [(0, 4), (4, 1), (5, 1), (6, 1), (7, 1), (8, 2)], true, true, true, [0], false⟩,
  ⟨0x0411, [(0, 1)], true, true, true, [], false⟩,
  ⟨0x0501, [(0, 1), (1, 1), (4, 40)], true, false, false, [], true⟩,
  ⟨0x0510, [(0, 4), (4, 5), (12, 4)], true, true, true, [0], false⟩,
  ⟨0x0511, [(0, 2)], true, true, true, [], false⟩,
  ⟨0x0512, [(0, 4), (4, 5), (9, 3), (12, 4), (16, 5), (22, 2), (24, 4)], true, true, true, [0], false⟩,
  ⟨0x0520, [(0, 4), (4, 5), (9, 3), (12, 4), (16, 4), (20, 6), (26, 1), (27, 1), (28, 4), (32, 3), (35, 3), (38, 4), (42, 4)], true, true, true, [0], false⟩,
  ⟨0x0521, [(0, 4), (4, 4), (8, 5)], true, true, true, [0, 4], false⟩,
  ⟨0x0522, [(0, 1), (1, 2), (4, 40), (44, 4)], true, true, true, [4, 8, 12, 16, 20, 24, 28, 32, 36, 40, 44], false⟩,
  ⟨0x0601, [(0, 1)], false, false, true, [], false⟩,
  ⟨0x0602, [(0, 2)], true, false, true, [], false⟩,
  ⟨0x0603, [(0, 2)], false, false, true, [], false⟩,
  ⟨0x0604, [(0, 2)], false, false, true, [], false⟩,
  ⟨0x0605, [(0, 2)], true, true, true, [], false⟩,
  ⟨0x0606, [(0, 2), (2, 1), (4, 4), (8, 5)], false, false, true, [4], false⟩,
  ⟨0x0610, [(0, 2), (2, 1), (3, 1), (4, 4), (8, 5), (16, 4), (20, 4), (24, 4), (28, 5)], false, false, true, [4, 24], false⟩,
  ⟨0x0611, [(0, 2), (4, 4), (8, 5), (16, 4), (20, 4), (24, 4), (28, 5), (36, 12), (48, 16)], false, false, true, [4, 24], false⟩,
  ⟨0x0612, [(0, 2), (2, 1), (3, 1), (4, 4), (8, 5), (16, 4), (20, 4), (24, 4), (28, 5), (33, 1), (36, 12)], false, false, true, [4, 24], false⟩,
  ⟨0x0613, [(0, 2), (2, 1), (3, 1), (4, 4), (8, 5), (16, 4), (32, 16)], false, false, true, [4], false⟩,
  ⟨0x0614, [(0, 2), (2, 1), (4, 4), (8, 5), (14, 2), (16, 4), (20, 5)], false, false, true, [4, 16], false⟩,
  ⟨0x0615, [(0, 2), (2, 1), (4, 4), (8, 5), (14, 2), (16, 4), (20, 5)], false, false, true, [4, 16], false⟩,
  ⟨0x0618, [(0, 1), (4, 4), (8, 5)], false, false, true, [4], false⟩]

def cmdTable1 : List CmdInfo := [
  ⟨0x0619, [(0, 4), (4, 5)], false, false, true, [0], false⟩,
  ⟨0x061a, [(0, 4)], false, false, true, [], false⟩,
  ⟨0x0620, [(0, 4), (4, 5), (10, 2)], true, true, true, [0], false⟩,
  ⟨0x0701, [(0, 1), (1, 1), (4, 4), (8, 5), (16, 64)], true, true, true, [4], true⟩,
  ⟨0x0702, [(0, 4), (4, 5)], true, true, false, [0], false⟩,
  ⟨0x0710, [(0, 3), (3, 1), (4, 3), (8, 4), (12, 2), (16, 4), (20, 4)], true, false, false, [8, 16], true⟩,
  ⟨0x0711, [(0, 3), (3, 1), (4, 3), (7, 1), (8, 48), (56, 32), (88, 4), (92, 4)], true, false, false, [88], true⟩,
  ⟨0x0712, [(0, 4), (4, 5), (12, 4)], true, false, false, [0], false⟩,
  ⟨0x0713, [(0, 1)], true, false, false, [], true⟩,
  ⟨0x0714, [(0, 1)], true, false, false, [], true⟩,
  ⟨0x0715, [(0, 1), (1, 1)], true, false, false, [], true⟩,
  ⟨0x0716, [(0, 1)], true, false, false, [], true⟩,
  ⟨0x0717, [(0, 1), (1, 1), (4, 64)], true, false, false, [], true⟩,
  ⟨0x0801, [(0, 1), (1, 1), (16, 48)], true, false, false, [], false⟩,
  ⟨0x0802, [(0, 1)], true, false, false, [], true⟩,
  ⟨0x0803, [(0, 4), (4, 5), (10, 2), (12, 2)], true, false, false, [0], false⟩,
  ⟨0x0804, [(0, 1)], true, false, false, [], true⟩,
  ⟨0x0805, [(0, 1)], true, false, false, [], true⟩,
  ⟨0x0810, [(0, 32), (32, 48), (80, 4), (84, 4), (88, 4)], true, false, false, [80, 88], false⟩,
  ⟨0x0811, [(0, 1), (4, 32), (36, 4), (40, 4)], true, false, false, [36], true⟩,
  ⟨0x0812, [(0, 1), (4, 4), (8, 5), (16, 4)], true, false, false, [4], true⟩,
  ⟨0x0813, [(0, 1), (4, 4), (8, 5), (16, 4)], true, false, false, [4], true⟩,
  ⟨0x0814, [(0, 1), (16, 16)], true, false, false, [], true⟩,
  ⟨0x0815, [(0, 1)], true, false, false, [], true⟩]

def cmdTable2 : List CmdInfo := [
  ⟨0x0820, [(0, 4), (4, 3)], true, false, true, [0], false⟩,
  ⟨0x0821, [(0, 4)], true, false, true, [0], false⟩,
  ⟨0x0822, [(0, 3), (4, 4)], true, false, false, [], false⟩,
  ⟨0x0830, [(0, 4), (4, 4), (8, 4), (16, 40)], true, false, false, [0], false⟩,
  ⟨0x0900, [], true, true, true, [], false⟩,
  ⟨0x0901, [(0, 1), (1, 1), (2, 1), (4, 2), (8, 8)], true, false, false, [], true⟩,
  ⟨0x0902, [(0, 2)], true, false, false, [], false⟩,
  ⟨0x0903, [(0, 2)], true, false, false, [], false⟩,
  ⟨0x0910, [(0, 2), (2, 1), (3, 1), (4, 2), (8, 8), (16, 8)], true, false, false, [], false⟩,
  ⟨0x0911, [(0, 2)], true, false, false, [], false⟩,
  ⟨0x0920, [(0, 1), (1, 1), (2, 1), (4, 2), (8, 8), (16, 4), (20, 4), (24, 5)], true, true, true, [20], false⟩,
  ⟨0x0921, [(0, 4)], true, true, true, [0], false⟩,
  ⟨0x0922, [(0, 4), (4, 2)], true, true, true, [0], false⟩,
  ⟨0x0923, [(0, 4)], true, true, true, [0], false⟩,
  ⟨0x0930, [], true, true, true, [], false⟩,
  ⟨0x0931, [(0, 2)], true, true, true, [], false⟩,
  ⟨0x0932, [(0, 2), (2, 2)], true, true, true, [], false⟩,
  ⟨0x0933, [(0, 2)], true, true, true, [], false⟩,
  ⟨0x0934, [(0, 2)], true, true, true, [], false⟩,
  ⟨0x0940, [(0, 4)], false, false, true, [], false⟩,
  ⟨0x0941, [(0, 2)], false, false, true, [], false⟩,
  ⟨0x1001, [(0, 1), (1, 1)], true, false, false, [], false⟩,
  ⟨0x1002, [(0, 1), (1, 1), (2, 2), (4, 4)], true, false, false, [], false⟩,
  ⟨0x1003, [(0, 1)], true, false, false, [], false⟩]

def cmdTable3 : List CmdInfo := [
  ⟨0x1004, [(0, 1), (1, 1)], true, false, false, [], false⟩,
  ⟨0x1101, [(0, 1), (1, 1), (2, 1), (4, 4)], true, false, false, [], true⟩,
  ⟨0x1102, [(0, 1), (1, 1), (2, 1)], true, false, false, [], true⟩,
  ⟨0x1103, [(0, 4), (4, 5)], true, false, false, [0], false⟩,
  ⟨0x1110, [(0, 1)], true, false, false, [], false⟩,
  ⟨0x1111, [], true, false, false, [], false⟩,
  ⟨0x1112, [], true, false, false, [], false⟩,
  ⟨0x1113, [(0, 4), (4, 5), (10, 2)], true, false, false, [0], false⟩,
  ⟨0x1120, [(0, 4), (4, 4), (8, 4), (12, 5), (17, 1), (18, 1)], true, false, false, [0, 8], false⟩,
  ⟨0x1121, [], true, false, false, [], false⟩,
  ⟨0x1201, [], true, false, false, [], false⟩,
  ⟨0x1202, [(0, 4), (4, 5), (10, 2)], true, false, false, [0], false⟩,
  ⟨0x1203, [], true, false, false, [], false⟩,
  ⟨0x1204, [(0, 4), (4, 5), (10, 2)], true, false, false, [0], false⟩,
  ⟨0x1301, [(0, 1), (1, 1)], true, false, false, [], false⟩,
  ⟨0x1310, [(0, 1), (1, 1), (2, 2), (4, 2), (6, 2), (8, 2), (10, 2), (12, 4), (16, 4)], true, true, true, [12], false⟩,
  ⟨0x1320, [(0, 2), (2, 1), (4, 32), (36, 2), (38, 2), (40, 2), (42, 2)], true, false, false, [], false⟩,
  ⟨0x1321, [(0, 4), (4, 4)], true, true, true, [0], false⟩,
  ⟨0x1401, [(0, 4), (4, 5), (12, 4)], true, false, false, [0], false⟩,
  ⟨0x1402, [], true, false, false, [], false⟩,
  ⟨0x1403, [(0, 8), (8, 4), (12, 4), (16, 5)], true, false, false, [12], false⟩]

/-- Every command of the block: opcode, operand fields (offset, size), who may issue it (operator host, tenant host,
device context), operand offsets of object handles, and whether it names a partition in its operands (09 R302). -/
def cmdTable : List CmdInfo := cmdTable0 ++ cmdTable1 ++ cmdTable2 ++ cmdTable3

def cmdInfo (op : Nat) : Option CmdInfo := cmdTable.find? fun c => c.opcode == op

/-- Operand bytes outside the fields are zero (09 R304). -/
def operandsClean (c : CmdInfo) (e : BitVec 1024) : Bool :=
  (List.range 96).all fun i =>
    c.fields.any (fun f => decide (f.1 ≤ i) && decide (i < f.1 + f.2)) || opnd e i 1 == 0

/-- Object handles the command names; a zero handle names none. -/
def handlesOf (c : CmdInfo) (e : BitVec 1024) : List Nat :=
  (c.objs.map fun o => opnd e o 4).filter fun h => h != 0

def handleIdx (h : Nat) : Nat := h % 2 ^ 20
def handleGen (h : Nat) : Nat := h / 2 ^ 20 % 2 ^ 12

/-- A field of a packed request. -/
def rf {w : Nat} (r : BitVec w) (lo n : Nat) : Nat := (r.toNat >>> lo) % 2 ^ n

/-- A memory request as yk_ms_i_req packs it (14 Table 14.1). -/
def memReq (origin : Nat) (r : BitVec 256) (data : Bytes) : MReq :=
  { origin := origin, kind := rf r 0 4, tag := rf r 4 10, part := rf r 14 8, epoch := BitVec.ofNat 16 (rf r 22 16),
    handle := BitVec.ofNat 32 (rf r 38 32), pslot := rf r 70 26, hslot := rf r 96 28, off := rf r 124 13,
    len := rf r 137 14, fmt := rf r 151 8, smask := BitVec.ofNat 16 (rf r 159 16), hint := rf r 175 8,
    layer := rf r 183 16, oper := rf r 199 16, fence := rf r 215 16, desc := rf r 231 6, srcKind := rf r 237 1,
    srcDev := rf r 238 18, data := data }

/-- The packed image of a memory request, as the link station hands it out on yk_ls_i_dreq. -/
def packReq (r : MReq) : Bytes :=
  le 32 (r.kind + r.tag * 2 ^ 4 + r.part * 2 ^ 14 + r.epoch.toNat * 2 ^ 22 + r.handle.toNat * 2 ^ 38 + r.pslot * 2 ^ 70 +
    r.hslot * 2 ^ 96 + r.off * 2 ^ 124 + r.len * 2 ^ 137 + r.fmt * 2 ^ 151 + r.smask.toNat * 2 ^ 159 + r.hint * 2 ^ 175 +
    r.layer * 2 ^ 183 + r.oper * 2 ^ 199 + r.fence * 2 ^ 215 + r.desc * 2 ^ 231 + r.srcKind * 2 ^ 237 + r.srcDev * 2 ^ 238)

/-- A link request as yk_ls_i_req packs it. -/
def linkReq (r : BitVec 224) (data : Bytes) : LReq :=
  { kind := rf r 0 4, tag := rf r 4 12, part := rf r 16 8, epoch := BitVec.ofNat 16 (rf r 24 16), engine := rf r 40 12,
    slot := rf r 52 9, dst := rf r 61 18, handle := BitVec.ofNat 32 (rf r 79 32), off := rf r 111 40, len := rf r 151 14,
    flagged := rf r 165 1 == 1, akind := rf r 166 4, desc := rf r 170 6, fence := rf r 176 16, layer := rf r 192 16,
    oper := rf r 208 16, data := data, wire := rf r 0 4 }

end Sys2Proof.Machine
end

