-- ==== Sys2Proof/Machine/Command.lean ====
section
/-! DEFINITION. Taking a command from a queue, starting it, and what its waits and take checks decide (09 R303 to
R311). A command's body is given as an argument: it runs when the command starts. -/

namespace Sys2Proof.Machine
open Sys2Proof Sys2Proof.Crypto

/-- What a started command does: the command, the code its input reads answered, their bytes. -/
abbrev Body := Taken → Nat → Bytes → State → State

/-- Class of a map epoch (08 R263). -/
inductive EpochClass where
  | current
  | draining
  | retired
  | newer
  deriving DecidableEq, Repr

def classify (cur e : BitVec 16) (drainingLive : Bool) : EpochClass :=
  let d := (cur - e).toNat
  if d = 0 then .current
  else if d = 1 ∧ drainingLive then .draining
  else if d < 2 ^ 15 then .retired
  else .newer

/-- Arms a fence (09 R309). -/
def armFence (i seq : Nat) (s : State) : State :=
  s.onFence i fun f => { f with state := 2, gen := (f.gen + 1) % 2 ^ 16, code := 0, errors := 0, detail := 0,
                                inherited := false, seq := seq }

/-- What a wait on generation `g` of a fence says (09 R311). -/
inductive WaitState where
  | satisfied
  | waits
  | failed
  | refused
  deriving DecidableEq, Repr

def waitOn (f : Fence) (g : Nat) : WaitState :=
  if g = f.gen then
    if f.state = 3 then .satisfied else if f.state = 4 then .failed else if f.state = 2 then .waits else .refused
  else if g = (f.gen + 1) % 2 ^ 16 then .waits
  else .refused

/-- The wait fences an envelope names: (index, generation). -/
def waitsOf (e : BitVec 1024) : List (Nat × Nat) :=
  (List.range (envBits e 3 1)).map fun i => (envBits e (12 + 4 * i) 2, envBits e (14 + 4 * i) 2)

def isOperatorCtx (c : Ctx) : Bool := !c.device && c.part == 0xFF

/-- A queue from which the keep may take now (09 R303, R330, 11 Table 11.1). -/
def mayTake (s : State) (q : Nat) : Bool :=
  let x := s.queue q
  let c := s.ctx x.ctx
  s.keepLive && x.state == 1 && c.state == 1 && x.head != x.tail && (isOperatorCtx c || !(s.keepHeld || s.keepStopped)) &&
  (match x.pausedAt with
   | none => true
   | some _ => (s.fence (envFence x.pausedE)).state != 2)

/-- Operator queues first, then the others in round robin (09 R303). -/
def itsTurn (s : State) (q : Nat) : Bool :=
  if isOperatorCtx (s.ctx (s.queue q).ctx) then true
  else
    let others := s.queues.filter fun x => x.1 != q && mayTake s x.1
    !(others.any fun x => isOperatorCtx (s.ctx x.2.ctx)) &&
    !(others.any fun x => decide ((x.1 + 2048 - s.keep.rr - 1) % 1024 < (q + 2048 - s.keep.rr - 1) % 1024))

/-- Opcodes a block out of service still accepts (11 R365). -/
def acceptedOutOfService (op : Nat) (e : BitVec 1024) : Bool :=
  [0x1112, 0x1113, 0x1120, 0x1121, 0x1001].contains op || (op == 0x0701 && opnd e 0 1 == 0xFF)

/-- Steps 1 of 09 Table 9.14; the opcode of the row must be the entry's. -/
def step1Bad (s : State) (op : Nat) (e : BitVec 1024) : Bool :=
  envOpcode e != op || (cmdInfo op).isNone || decide (4 ≤ envBits e 2 1) || decide (2 < envBits e 3 1) ||
  envBits e 10 2 != 0 || envBits e 20 4 != 0 || (s.aon.outOfService && !acceptedOutOfService op e)

def handleLive (s : State) (h : Nat) : Bool :=
  let o := s.obj (handleIdx h)
  handleIdx h != 0 && o.state == 1 && o.gen == handleGen h

/-- The source of the entry at the head of a device queue (09 R301). -/
def srcOf (x : Queue) : BitVec 32 := ((x.pubs.find? fun p => p.1 != x.head).map (·.2)).getD 0

/-- Steps 3 to 7 of 09 Table 9.14: the failing step and its code. -/
def takeCheck (s : State) (info : CmdInfo) (c : Nat) (x : Queue) (e : BitVec 1024) : Option (Nat × Nat) :=
  let k := s.ctx c
  let may := if k.device then info.device else if k.part = 0xFF then info.operator else info.tenant
  if !may || !operandsClean info e then some (3, yeDenied)
  else if (waitsOf e).any (fun w =>
      let f := s.fence w.1
      f.state == 0 || !(f.owner == c || f.importers.contains c) || waitOn f w.2 == .refused) then some (4, yeStale)
  else if k.device && classify s.epoch ((srcOf x).extractLsb' 16 16) s.epochDraining == .retired then some (5, yeEpoch)
  else if (handlesOf info e).any fun h => !handleLive s h then some (6, yeStale)
  else if !info.exempt && (handlesOf info e).any fun h => !(s.obj (handleIdx h)).owners.contains c then some (7, yeDenied)
  else none

/-- A command that may not start for the state of its partition or interface (08 Table 8.2, R284; 07 Table 7.13). -/
def startBar (s : State) (t : Taken) : Nat :=
  let c := s.ctx (s.queue t.q).ctx
  let p := s.part c.part
  if c.part = 0xFF then 0
  else if p.state = 5 ∨ p.state = 0 then yeKey
  else if p.state = 2 then yeDenied
  else if !c.device ∧ (s.host.tdisp.any fun x => x.2.part == some c.part && x.2.state == 3) then yeDenied
  else 0

/-- Whether the command is serial: its flag, or a profile set bound to its queue (13 R406). -/
def isSerial (s : State) (t : Taken) : Bool := envSerial t.e || s.profs.any fun p => p.2.queue == some t.q

/-- Commands of the queue taken before, not yet complete. -/
def earlier (s : State) (t : Taken) : List Taken := s.taken.filter fun x => x.q == t.q && (x.takenAt < t.takenAt || (x.takenAt == t.takenAt && x.seq != t.seq && (t.seq + 2 ^ 32 - x.seq) % 2 ^ 32 < 2 ^ 31))

/-- The first wait that fails or is refused. -/
def badWait (s : State) (t : Taken) : Option (Nat × Nat) :=
  (waitsOf t.e).find? fun w => waitOn (s.fence w.1) w.2 == .failed || waitOn (s.fence w.1) w.2 == .refused

/-! ### Profile sets (13 R406 to R410) -/

/-- A set's counter, summed over the stations. -/
def profSum (s : State) (set i : Nat) : Nat :=
  ((s.mem.map fun m => (tget [] m.2.port.prof set).getD i 0).sum + (s.link.map fun l => (tget [] l.2.port.prof set).getD i 0).sum +
    (tget [] s.host.port.prof set).getD i 0) % two64

/-- The sample record (13 Table 13.12). -/
def sampleRecord (s : State) (set : Nat) (p : Prof) (flags : Nat) : Bytes :=
  let f := s.fence p.fence
  le 4 (p.seq.getD 0) ++ le 2 (envOpcode p.e) ++ le 2 (envLayer p.e) ++ le 2 (envOper p.e) ++
    le 2 (if p.fence = 0xFFFF ∨ f.state = 2 then 0 else f.code) ++
    le 1 set ++ le 1 (flags + if p.resetIn then 4 else 0) ++ zeros 2 ++ le 8 p.startAt ++ le 8 s.now ++
    ((List.range 7).map fun i => le 8 (profSum s set i)).flatten ++ le 8 (p.blocks % two64)

/-- Every station's counters of a set return to zero. -/
def clearProf (set : Nat) (s : State) : State :=
  let z (x : Port) : Port := { x with prof := tdel x.prof set }
  { s with mem := tmap (fun _ m => { m with port := z m.port }) s.mem, link := tmap (fun _ l => { l with port := z l.port }) s.link,
           host := { s.host with port := z s.host.port } }

/-- A boundary arrives: the record of the command that ended, when one ran; then the next command is matched, or no fence. -/
def boundary (set flags : Nat) (s : State) : State :=
  let p := tget {} s.profs set
  let s := if p.seq.isSome then ringPutOrDrop p.ring (sampleRecord s set p flags) s else s
  let p' : Prof := { p with seq := none, fence := 0xFFFF, blocks := 0, resetIn := false, next := none, nextBlocks := 0 }
  let p' : Prof := match p.next with
    | none => { p' with doneAt := none }
    | some (q, f, e, t) => { p' with seq := some q, fence := f, e := e, startAt := t, blocks := p.nextBlocks }
  clearProf set { s with profs := tset s.profs set p' }

/-- The start of a bound queue's next command sends the boundary message; one still on its way arrives first. -/
def startProf (t : Taken) (s : State) : State :=
  each (s.profs.filter fun p => p.2.queue == some t.q) (fun p s =>
    let s := if p.2.next.isSome then boundary p.1 0 s else s
    { s with profs := tupd {} s.profs p.1 fun x => { x with
        next := some (t.seq, envFence t.e, t.e, s.now), dueAt := s.now + 4, doneAt := none, lastCode := 0, nextBlocks := 0 } }) s

/-- Unbinding takes a final boundary and frees the set (13 R410). -/
def unbindProf (set : Nat) (s : State) : State :=
  let s := if (tget {} s.profs set).next.isSome then boundary set 0 s else s
  let s := boundary set 2 s
  { s with profs := tdel s.profs set }

/-- A waiting command's turn: it fails on a failed wait, starts when every condition of R307 holds, or goes on waiting. -/
def tryStart (body : Body) (t : Taken) (rc : Nat) (inp : Bytes) (s : State) : State :=
  let before := earlier s t
  if before.any (fun x => x.phase == 1) || (isSerial s t && !before.isEmpty) then s
  else match badWait s t with
  | some w =>
    let f := s.fence w.1
    let code := if waitOn f w.2 = .failed then f.code else yeStale
    let s := complete t code (detailInherited w.1 w.2) [] s
    s.onFence (envFence t.e) fun f => { f with inherited := true }
  | none =>
    if (waitsOf t.e).all fun w => waitOn (s.fence w.1) w.2 == .satisfied then
      if startBar s t ≠ 0 then failCmd t (startBar s t) s
      else
        let t' := { t with phase := 2, startAt := s.now }
        let s := { s with taken := s.taken.map fun x => if x.q == t.q && x.seq == t.seq then t' else x }
        body t' rc inp (traceWork t' 4 (envOpcode t'.e) (startProf t' s))
    else s

/-- A refusal at step 1 or 2: the code goes to the result entry, and an event of type 0x07 is raised (09 R306). -/
def refuseTake (q c idx seq code : Nat) (e : BitVec 1024) (s : State) : State :=
  let s := bump Config.keepId 3 1 s
  let s := emit (.result q idx (resultEntry code seq s.now [])) s
  raiseEvent c (envCookie e) 0x07 code q s

/-- ACC_OPEN arms its stream fence as it is taken (04 R133, 09 R309); nothing is armed when the fence may not be used. -/
def takeHook (t : Taken) (c : Nat) (s : State) : Bool × State :=
  if envOpcode t.e ≠ 0x0410 then (true, s) else
  let i := opnd t.e 8 2
  let f := s.fence i
  if f.state = 0 ∨ f.owner ≠ c ∨ f.state = 2 ∨ i = envFence t.e then (false, s) else (true, armFence i t.seq s)

/-- The lowest free fence (09 R454). -/
def freeFence (s : State) : Option Nat := seek (fun i => (s.fence i).state == 0) 65535 0

/-- FENCE_ALLOC may name as its completion fence the index it hands out, so that a context gets its first (log 40). -/
def selfFence (s : State) (op : Nat) (e : BitVec 1024) : Bool := op == 0x0930 && freeFence s == some (envFence e)

/-- The queue moves past the entry at its head (09 R303). -/
def dequeue (q : Nat) (s : State) : State :=
  let s := s.onQueue q fun x => { x with head := (x.head + 1) % 2 ^ (x.size + 4), nextSeq := (x.nextSeq + 1) % 2 ^ 32,
                                         pausedAt := none, pubs := x.pubs.dropWhile fun p => p.1 == (x.head + 1) % 2 ^ (x.size + 4) }
  bump Config.keepId 2 1 { s with keep := { s.keep with rr := q } }

/-- Steps 3 to 7 for a command whose fence is armed; then it is a taken command, and starts if nothing holds it (09 R306, R307). -/
def admitCmd (body : Body) (info : CmdInfo) (t : Taken) (c : Nat) (x : Queue) (rc : Nat) (inp : Bytes) (s : State) : State :=
  match takeCheck s info c x t.e with
  | some (step, code) => complete t code (detailCommand step) [] s
  | none =>
    match takeHook t c s with
    | (false, s) => complete t yeDenied (detailCommand 0) [] s
    | (true, s) => tryStart body t rc inp { s with taken := s.taken ++ [t] }

/-- Takes the next entry of a queue, whose bytes are `e` (09 R303, R306). `rc` with its top bit set says that the read
of the entry itself failed; otherwise it is the code of the command's input reads. -/
def takeCmd (op : Nat) (body : Body) (q : Nat) (e : BitVec 1024) (rc : BitVec 16) (inp : Bytes) (s : State) : State :=
  if !(mayTake s q && itsTurn s q) || decide (16384 ≤ s.taken.length) then s else
  let x := s.queue q
  let c := x.ctx
  if x.pausedAt.isSome && x.pausedE != e then s else
  let self := selfFence s op e
  let f : Fence := if self then { state := 1, owner := c } else s.fence (envFence e)
  let ringBad := rc.msb && (s.ctx c).device
  let bad1 := ringBad || step1Bad s op e
  if !bad1 && f.state == 2 && f.owner == c then
    s.onQueue q fun x => { x with pausedAt := some (x.pausedAt.getD s.now), pausedE := e }
  else
    let s := dequeue q s
    if bad1 then refuseTake q c x.head x.nextSeq (if ringBad then rc.toNat % 2 ^ 15 else yeDenied) e s
    else if f.state = 0 ∨ f.owner ≠ c then refuseTake q c x.head x.nextSeq yeDenied e s
    else
      let s := armFence (envFence e) x.nextSeq (if self then s.onFence (envFence e) fun _ => f else s)
      let info := (cmdInfo op).getD ⟨op, [], false, false, false, [], false⟩
      admitCmd body info { q := q, seq := x.nextSeq, idx := x.head, e := e, takenAt := s.now, fenceGen := (s.fence (envFence e)).gen, inp := inp,
                           objs := (handlesOf info e).map handleIdx, aux := if self then 1 else 0 } c x rc.toNat inp s

/-- Input reads of a started command: a failed read fails the command with its code. -/
def withInput (t : Taken) (rc : Nat) (k : State → State) (s : State) : State :=
  if rc ≠ 0 then failCmd t rc s else k s

/-- Commands taken from stopped secure queues that have not started fail (09 R300). -/
def failStopped (s : State) : State :=
  each (s.taken.filter fun t => t.phase == 1 && (s.queue t.q).state == 2) (fun t s => failCmd t yeDenied s) s

/-- Secure queues whose partition has no interface in RUN are Stopped (09 R300). -/
def stopSecure (s : State) : State :=
  failStopped { s with queues := tmap (fun _ x =>
    if x.secure ∧ x.state = 1 ∧ !(s.host.tdisp.any fun i => i.2.state == 2 && i.2.part == some (s.ctx x.ctx).part) then { x with state := 2 } else x) s.queues }

/-- Bound interfaces that meet a test enter ERROR (07 Table 7.13). -/
def tdispFail (p : Tdisp → Bool) (s : State) : State :=
  stopSecure { s with host := { s.host with tdisp := tmap (fun _ x => if x.state ≠ 0 ∧ p x then { x with state := 3 } else x) s.host.tdisp } }
def tdispError (part : Nat) (s : State) : State := tdispFail (fun x => x.part == some part) s

end Sys2Proof.Machine
end

