-- ==== Sys2Proof/Machine/Tile.lean ====
section
/-! DEFINITION. What a memory station knows of a tile: the address map, the isolation check, formats and lengths,
versions and version lines, sealing and unsealing of tiles and sectors (02, 03). -/

namespace Sys2Proof.Machine
open Sys2Proof Sys2Proof.Crypto

/-! ### Address map (14 R443) and placement (02 R56) -/

/-- Channel and channel-local tile of a tile index. -/
def chanOf (s : State) (u : Nat) : Nat × Nat :=
  let k := s.keep.shift
  let c := u >>> k
  (s.keep.perm.getD (c % Config.memStations) (c % Config.memStations), (c / Config.memStations) <<< k + u % 2 ^ k)

/-- Tile index of a channel-local tile: the inverse map. -/
def tileIndex (s : State) (ch l : Nat) : Nat :=
  let k := s.keep.shift
  let i := ((List.range Config.memStations).find? fun i => s.keep.perm.getD i i == ch).getD ch
  (((l >>> k) * Config.memStations + i) <<< k) + l % 2 ^ k

/-- Header slot size in 32-byte units (02 R41). -/
def hdrUnits (cls : Nat) : Nat := if cls = 3 then 9 else 1
def placeOf (o : Obj) (st : Nat) : Option Place := o.places.find? fun p => p.st == st
def onPlace (o : Obj) (st : Nat) (f : Place → Place) : Obj :=
  { o with places := o.places.map fun p => if p.st = st then f p else p }

/-- Tiles per version line (02 Table 2.1). -/
def lineTiles (cls : Nat) : Nat := if cls = 3 then 2 else 32
def linesOf (cls n : Nat) : Nat := if cls = 2 ∨ cls = 3 then (n + lineTiles cls - 1) / lineTiles cls else 0
/-- Entry of a line of a placement: re-keyed lines may stand on fresh entries (03 R93). -/
def entryOf (p : Place) (line : Nat) : Nat := tget (p.entry + line) p.remap line
/-- Line and slot of a region-local tile (and sector). -/
def slotOf (cls k sector : Nat) : Nat × Nat :=
  if cls = 3 then (k / 2, 16 * (k % 2) + sector) else (k / 32, k % 32)

/-! ### Formats and lengths (02 R42 to R46) -/

def family (f : Nat) : Nat := f / 64
def elemWidth (f : Nat) : Nat := f / 16 % 4
/-- Reserved bits of a format byte set, or element width 11 (02 Table 2.4). -/
def fmtBad (f : Nat) : Bool :=
  if family f = 0 then f % 64 != 0
  else if family f = 3 then false
  else f % 16 != 0 || elemWidth f == 3

/-- Length-class policy in force for a region (02 R44). -/
def policyOf (s : State) (o : Obj) : Nat := if o.cls = 3 ∨ o.cls = 4 then 0 else (s.part o.part).policy

/-- The checks of 02 R43; 0 when they pass. -/
def writeCheck (cls policy l fmt : Nat) : Nat :=
  if l = 0 ∨ 8192 < l then yeLength
  else if fmtBad fmt then yeDenied
  else if fmt = 0 ∧ l ≠ 8192 then yeLength
  else if cls = 3 ∧ fmt ≠ 0 then yeDenied
  else if policy = 1 ∧ (family fmt = 1 ∨ family fmt = 2) ∧ l = 8192 then yeLength
  else 0

/-- Stored payload length of a length-class code (02 Table 2.5). -/
def storedLen (code l : Nat) : Nat :=
  match code with
  | 0 => l | 1 => 512 | 2 => 1024 | 3 => 1536 | 4 => 2048 | 5 => 3072 | 6 => 4096 | 7 => 6144 | _ => 8192

/-- The code under which a tile of length `l` is sealed (02 R44). -/
def classCode (policy l : Nat) : Nat :=
  if policy = 0 then 0
  else if policy = 9 then 9
  else ([1, 2, 3, 4, 5, 6, 7].find? fun c => decide (l ≤ storedLen c l)).getD 8

def codeAllowed (policy code : Nat) : Bool :=
  if policy = 0 then code == 0 else if policy = 9 then code == 9 else decide (1 ≤ code) && decide (code ≤ 8)

/-- A tile header (02 Table 2.2). -/
def header (tag : Bytes) (l fmt code : Nat) : Bytes := fit 16 tag ++ le 2 l ++ le 1 fmt ++ le 1 code ++ zeros 12

/-- IV of a sealed or counted-coarse tile (02 Table 2.6), and of a counted-fine sector (Table 2.7). -/
def tileIv (u ver : Nat) : Bytes := be 12 (u * 2 ^ 70 + ver)
def sectorIv (u sector ver : Nat) : Bytes := be 12 (u * 2 ^ 70 + sector * 2 ^ 66 + ver)
def version (major minor : Nat) : Nat := major * 4096 + minor

/-- Seals a tile (02 R45): header and stored payload, padded to 64 bytes. -/
def sealTile (key : BitVec 256) (u ver policy l fmt : Nat) (payload : Bytes) : Bytes × Bytes :=
  let code := classCode policy l
  let pad (b : Bytes) := b ++ zeros ((64 - b.length % 64) % 64)
  if code = 0 then
    let a := le 2 l ++ le 1 fmt ++ le 1 0 ++ zeros 12
    let (c, t) := gcmSeal key (tileIv u ver) a (fit l payload)
    (fit 16 t ++ a, pad c)
  else
    let a := le 1 code ++ zeros 12
    let p := storedLen code l
    let (c, t) := gcmSeal key (tileIv u ver) a (le 2 l ++ le 1 fmt ++ fit l payload ++ zeros (p - l))
    (fit 16 t ++ c.take 3 ++ a, pad (c.drop 3))

/-- The header check of 02 R46 on what is stored in clear. -/
def headerOk (policy : Nat) (plain : Bool) (h : Bytes) : Bool :=
  let code := ofLe (cut 19 1 h)
  let l := ofLe (cut 16 2 h)
  let f := ofLe (cut 18 1 h)
  (if plain then code == 0 else codeAllowed policy code) && (cut 20 12 h == zeros 12) &&
  (code != 0 || (l != 0 && decide (l ≤ 8192) && !fmtBad f && !(f == 0 && l != 8192)))

/-- Stored payload bytes a header announces. -/
def headerLen (h : Bytes) : Nat := storedLen (ofLe (cut 19 1 h)) (ofLe (cut 16 2 h))

/-- Unseals a tile: length, format and payload, or nothing on any failed check (02 R45, R46). -/
def openTile (key : BitVec 256) (u ver policy : Nat) (h data : Bytes) : Option (Nat × Nat × Bytes) :=
  if !headerOk policy false h then none
  else
    let code := ofLe (cut 19 1 h)
    let p := headerLen h
    if code = 0 then
      (gcmOpen key (tileIv u ver) (cut 16 16 h) (fit p data) (h.take 16)).map fun b => (p, ofLe (cut 18 1 h), b)
    else
      match gcmOpen key (tileIv u ver) (cut 19 13 h) (cut 16 3 h ++ fit p data) (h.take 16) with
      | none => none
      | some b =>
        let l := ofLe (b.take 2)
        let f := ofLe (cut 2 1 b)
        if l = 0 ∨ 8192 < l ∨ p < l ∨ fmtBad f ∨ (f = 0 ∧ l ≠ 8192) ∨ (b.drop (3 + l)).any (fun x => x != 0) then none
        else some (l, f, cut 3 l b)

/-- AAD of a counted-fine sector (02 R45). -/
def fineAad : Bytes := le 2 0x2000 ++ zeros 14
def sealSector (key : BitVec 256) (u sector ver : Nat) (d : Bytes) : Bytes × Bytes :=
  gcmSeal key (sectorIv u sector ver) fineAad (fit 512 d)
def openSector (key : BitVec 256) (u sector ver : Nat) (c tag : Bytes) : Option Bytes :=
  gcmOpen key (sectorIv u sector ver) fineAad (fit 512 c) tag

/-! ### Version root table entries and lines (02 R53, R54, R59) -/

def vrtAlloc (v : BitVec 64) : Bool := v.getLsbD 63
def vrtFine (v : BitVec 64) : Bool := v.getLsbD 62
def vrtReseal (v : BitVec 64) : Bool := v.getLsbD 61
def vrtCursor (v : BitVec 64) : Nat := (v.extractLsb' 56 5).toNat
def vrtCond (v : BitVec 64) : Nat := if vrtReseal v then 0 else vrtCursor v
def vrtPart (v : BitVec 64) : Nat := (v.extractLsb' 48 8).toNat
def vrtRoot (v : BitVec 64) : Nat := (v.extractLsb' 0 48).toNat
def vrtMake (fine reseal : Bool) (cc part root : Nat) : BitVec 64 :=
  BitVec.ofNat 64 (2 ^ 63 + (if fine then 2 ^ 62 else 0) + (if reseal then 2 ^ 61 else 0) + cc * 2 ^ 56 + part * 2 ^ 48 + root)
def vrtSetCond (v : BitVec 64) (c : Nat) : BitVec 64 := vrtMake (vrtFine v) false c (vrtPart v) (vrtRoot v)
/-- A Free entry keeps its root counter (02 R58). -/
def vrtFree (v : BitVec 64) : BitVec 64 := BitVec.ofNat 64 (vrtRoot v)
def MemSt.entry (m : MemSt) (e : Nat) : BitVec 64 := tget 0 m.vrt e

def rootLimit : Nat := 2 ^ 48 - 1
def majorLimit (fine : Bool) : Nat := if fine then 2 ^ 54 - 1 else 2 ^ 58 - 1
/-- The condition a line now meets (02 Table 2.11). -/
def condOf (fine : Bool) (major root : Nat) : Nat :=
  if (if fine then 2 ^ 53 else 2 ^ 57) ≤ major ∨ 2 ^ 47 ≤ root then 1 else 0

def minorOf (l : Line) (i : Nat) : Nat := (l.minors.extractLsb' (12 * i) 12).toNat
def setMinor (l : Line) (i v : Nat) : Line :=
  { l with minors := (l.minors &&& ~~~(0xFFF#384 <<< (12 * i))) ||| (BitVec.ofNat 384 v <<< (12 * i)), dirty := true }

/-- Bytes 0 to 55 of a version line (02 Table 2.8). -/
def lineBody (l : Line) : Bytes := le 48 l.minors.toNat ++ le 8 l.major

/-! ### Version keys (06 Table 6.3) -/

/-- The slot of a partition's version key; the operator partition's lines stand under the keep's own. -/
def verSlotOf (s : State) (part : Nat) : Option Nat :=
  if part = 0xFF then s.keep.verSlot else if (s.part part).state = 0 then none else some (s.part part).verSlot

/-- Slot and generation of the version key of a partition: class, owner and state as 06 R191 asks. -/
def verKey (s : State) (part : Nat) : Option (Nat × Nat) :=
  match verSlotOf s part with
  | none => none
  | some i =>
    let k := s.key i
    if k.cls = 2 ∧ k.state ≠ 0 ∧ (if part = 0xFF then k.keepOwn = true else k.keepOwn = false ∧ k.owner = part) then some (i, k.gen) else none

/-- The half that serves a partition's line MACs; without a version key there is none, and no line of the partition. -/
def verHalf (s : State) (part : Nat) : BitVec 256 :=
  match verKey s part with
  | none => 0
  | some (i, g) => (halfOf (s.key i) g).getD 0

/-- Part address of an entry's line: its place in the station's version line area, through the address map (02 R53, R55). -/
def lineAddr (s : State) (st e : Nat) : Nat :=
  tileIndex s st (s.keep.vlBase.getD st 0 * 256 + e / 128) * 8192 + 64 * (e % 128)

/-- The line MAC (02 R53). -/
def lineMac (s : State) (st : Nat) (l : Line) (part root : Nat) : Bytes :=
  let iv := be 12 (0x4C * 2 ^ 88 + st * 2 ^ 80 + l.entry * 2 ^ 65 + root)
  (gcmTag (verHalf s part) iv (lineBody l ++ le 8 (lineAddr s st l.entry) ++ le 6 root ++ le 1 part ++ [0]) []).take 8

/-! ### Reports of lines, and re-keys (02 R59, 03 R92) -/

def cachedLine (m : MemSt) (e : Nat) : Option Line := m.lines.find? fun l => l.entry == e
/-- Puts a line in front of the cache. -/
def putLine (m : MemSt) (l : Line) : MemSt := { m with lines := l :: m.lines.filter fun x => x.entry != l.entry }

/-- The object and placement a version line belongs to, with the line's number in the placement. -/
def lineOwner (s : State) (st e : Nat) : Option (Nat × Place × Nat) :=
  s.objs.findSome? fun o =>
    if (o.2.cls = 2 ∨ o.2.cls = 3) ∧ o.2.state ≠ 0 then
      match placeOf o.2 st with
      | none => none
      | some p =>
        match (List.range (linesOf o.2.cls p.count)).find? fun i => entryOf p i == e with
        | some i => some (o.1, p, i)
        | none => none
    else none

/-- A keep change to a region's descriptor drops every station's copy, so that the next lookup misses (03 R74). -/
def dropDesc (oi : Nat) (s : State) : State := { s with mem := tmap (fun _ m => { m with descs := without m.descs oi }) s.mem }

/-- Writes a replacement key into a slot's pending half and, once it is verified, makes the slot Dual (06 R202). -/
def startDual (slot : Nat) (s : State) : State :=
  let (k, s) := draw0 s
  s.onKey slot fun x => { writeNext k x with state := 4 }

/-- Notes a re-key that is still to start, with its cause and the stations that need fresh entries. -/
def noteRekey (oi : Nat) (limit : Bool) (fresh : List Nat) (s : State) : State :=
  s.onObj oi fun o => { o with wantRekey := true, wantLimit := o.wantLimit || limit,
                               wantFresh := o.wantFresh ++ fresh.filter fun u => !o.wantFresh.contains u }

/-- Starts a re-key of a region if its slot is Active (03 R92, R96); one whose new key fails its verification fails, with the
command that asked for it (06 R199). -/
def startRekey (oi : Nat) (limit : Bool) (fresh : List Nat) (s : State) : State :=
  let o := s.obj oi
  if o.cls = 4 ∨ ¬ (o.state = 1 ∨ o.state = 2) ∨ o.rekey.isSome ∨ (s.key o.keySlot).state ≠ 1 ∨ o.loading ∨ !canDraw s 0 then
    noteRekey oi limit fresh s
  else if s.keep.verifyBad then
    let s := keyFails (s.onObj oi fun o => { o with wantRekey := false, wantLimit := false, wantFresh := [] })
    each (runningWith s 0x0602 o.keySlot) (fun t s => failCmd t yePoison s) s
  else
    startDual o.keySlot (dropDesc oi (s.onObj oi fun o => { o with
      rekey := some { byLimit := limit }, wantRekey := false, wantLimit := false, wantFresh := [],
      places := o.places.map fun p => { p with moved := 0, moving := false, fresh := fresh.contains p.st } }))

/-- A report that reaches the keep, of a threshold or a limit, from the station's line number `line` of a region (03 R92): it starts a re-key, is
merged into the one that runs, or is kept for a second one if its line has been moved. -/
def rekeyReport (oi st line : Nat) (limit root : Bool) (s : State) : State :=
  let o := s.obj oi
  if ¬ (o.state = 1 ∨ o.state = 2) ∨ o.cls = 4 then s
  else
  let s := keyThreshold o.keySlot s
  match o.rekey with
  | none => startRekey oi limit (if root then [st] else []) s
  | some k =>
    let moved := match placeOf o st with
      | some p => decide (line < p.moved)
      | none => false
    if moved then noteRekey oi limit (if root then [st] else []) (s.onObj oi fun o => { o with rekey := some { k with again := true } })
    else
      dropDesc oi (s.onObj oi fun o => onPlace { o with rekey := some { k with byLimit := k.byLimit || limit } } st
        fun p => { p with fresh := p.fresh || root })

/-- A line's report leaves the station. Cause 1 a threshold, 2 a limit, 3 a root threshold, 4 a root limit. -/
def sendReport (st e cause : Nat) (s : State) : State :=
  s.onMem st fun m => { m with reports := m.reports.filter (fun x => !(x == (e, cause))) ++ [(e, cause)] }

/-! ### Keys in the station (03 R87, 06 R194) -/

/-- Uses a key of a station's cache, or asks the keep for it (06 R194, R195). -/
def askKey (st slot gen : Nat) (s : State) : Option (BitVec 256) × State :=
  let p := s.port st
  if p.keys.contains (slot, gen) then
    (halfOf (s.key slot) gen, s.onPort st fun p => { p with keys := (slot, gen) :: without p.keys (slot, gen) })
  else if p.asked.contains (slot, gen) then (none, s)
  else (none, s.onPort st fun p => { p with asked := (slot, gen) :: p.asked })

/-- The same at a memory station, which counts its misses (13 Table 13.5). -/
def useKey (st slot gen : Nat) (s : State) : Option (BitVec 256) × State :=
  let p := s.port st
  askKey st slot gen (if p.keys.contains (slot, gen) || p.asked.contains (slot, gen) then s else bump st 14 1 s)

/-- Whether the version key of a partition is at hand in the station; it is asked for where it is not. -/
def useVerKey (st part : Nat) (s : State) : Bool × State :=
  match verKey s part with
  | none => (false, s)
  | some (i, g) =>
    let (k, s) := useKey st i g s
    (k.isSome, s)

/-! ### The version line cache (03 R84, R85) -/

/-- Raises the root counter of a line that is written back (02 R58); the threshold of 02 Table 2.11 acts and is reported. -/
def raiseRoot (st : Nat) (l : Line) (s : State) : State :=
  let v := (s.memSt st).entry l.entry
  let r := vrtRoot v + 1
  let c := condOf (vrtFine v) l.major r
  let before := if vrtReseal v then condOf (vrtFine v) l.major (r - 1) else vrtCond v
  let crossed := c == 1 && before == 0
  let v' := vrtMake (vrtFine v) (vrtReseal v) (if vrtReseal v then vrtCursor v else max (vrtCond v) c) (vrtPart v) r
  let s := s.onMem st fun m => { m with vrt := tset m.vrt l.entry v' }
  if crossed then sendReport st l.entry 3 s else s

/-- Writes a line back: the root counter rises, and the stored line carries the MAC under it (02 R53, R58). -/
def writeBack (st : Nat) (l : Line) (s : State) : State :=
  let s := raiseRoot st l s
  let v := (s.memSt st).entry l.entry
  let s := s.onMem st fun m => { m with lines := m.lines.map fun x => if x.entry = l.entry then { x with dirty := false } else x }
  let s := bump st 13 1 (bump st 8 64 s)
  emit (.lineWrite st l.entry (lineBody l ++ lineMac s st l (vrtPart v) (vrtRoot v))) s

/-- A line that cannot be written back at the root limit stays in the cache, Exhausted, and is reported (02 R59). -/
def rootExhausted (st : Nat) (l : Line) (s : State) : State :=
  sendReport st l.entry 4 (s.onMem st fun m => { m with vrt := tset m.vrt l.entry (vrtSetCond (m.entry l.entry) 2),
                                                        reseal := m.reseal.filter fun x => x.1 != l.entry })

/-- A line at version (0, 0) in an entry, written to memory (02 R58, 09 R319). -/
def newLine (st e : Nat) (fine : Bool) (part : Nat) (s : State) : State :=
  writeBack st { entry := e } (s.onMem st fun m => { m with
    vrt := tset m.vrt e (vrtMake fine false 0 part (vrtRoot (m.entry e))),
    lines := m.lines.filter fun l => l.entry != e, reseal := m.reseal.filter fun x => x.1 != e })

/-- A way is pinned (03 R84). -/
def pinned (s : State) (st e : Nat) : Bool :=
  let m := s.memSt st
  m.fetching.contains e || m.reseal.any (fun x => x.1 == e) || (vrtReseal (m.entry e)) ||
  (vrtCond (m.entry e) == 2 && vrtRoot (m.entry e) == rootLimit) ||
  m.reqs.any fun r => r.locked && (match placeOf (s.obj (handleIdx r.handle.toNat)) st with
    | some p =>
      let o := s.obj (handleIdx r.handle.toNat)
      entryOf p (slotOf o.cls ((chanOf s r.pslot).2 - p.first) 0).1 == e
    | none => false)

/-- Makes room in a line's set, whose ways are the cached lines and the fetches in flight: the least recently used way
that is not pinned goes, written back if dirty. False when every way is pinned, when the victim can no longer be written
back (02 R59) or may not be written in Safe (03 R104), or while its version key is asked for. -/
def makeRoom (st e : Nat) (s : State) : Bool × State :=
  let m := s.memSt st
  let ways := m.lines.filter fun l => l.entry % 64 == e % 64
  if ways.length + (m.fetching.filter fun x => x % 64 == e % 64).length < 8 then (true, s)
  else match ways.reverse.find? fun l => !pinned s st l.entry with
  | none => (false, s)
  | some l =>
    let drop (s : State) : State := s.onMem st fun m => { m with lines := m.lines.filter fun x => x.entry != l.entry }
    if !l.dirty then (true, drop s)
    else if s.isSafe st then (false, s)
    else if vrtRoot (m.entry l.entry) = rootLimit then (false, rootExhausted st l s)
    else match useVerKey st (vrtPart (m.entry l.entry)) s with
    | (false, s) => (false, s)
    | (true, s) => (true, drop (writeBack st l s))

/-- Asks for a line that is not cached, and for the version key that will check it; at most 32 fetches are outstanding
(03 R84, R85). -/
def askLine (st e : Nat) (s : State) : State :=
  let m := s.memSt st
  if m.fetching.contains e ∨ 32 ≤ m.fetching.length then s
  else
    let (ok, s) := makeRoom st e s
    if ok then
      let (_, s) := useVerKey st (vrtPart (m.entry e)) s
      emit (.lineRead st e) (bump st 12 1 (bump st 7 64 (s.onMem st fun m => { m with fetching := e :: m.fetching })))
    else s

/-! ### The isolation check (03 Table 3.3, 04 Table 4.6) -/

def isWrite (k : Nat) : Bool := k == 3 || k == 4 || k == 5

/-- Step 1 of 03 Table 3.3. -/
def requestBad (r : MReq) : Bool :=
  let z (n : Nat) : Bool := n != 0
  let acc := z r.desc || z r.srcKind || z r.srcDev
  match r.kind with
  | 1 => z r.off || z r.len || z r.fmt || r.smask != 0 || decide (128 < r.hint) || acc
  | 2 => z r.off || z r.len || z r.fmt || r.smask == 0 || z r.hint || acc
  | 3 => z r.off || r.smask != 0 || z r.hint || acc
  | 4 => z r.fmt || r.smask != 0 || z r.hint || acc
  | 5 => z r.off || r.smask != 0 || z r.hint || (r.srcKind == 0 && z r.srcDev)
  | _ => true

/-- The class of an epoch at a station, and whether the partition holds a lease there in it (03 R73, 08 R260). -/
def leaseCheck (p : Port) (epoch : BitVec 16) (part : Nat) : Nat :=
  match classify p.cur.epoch epoch p.drain.isSome with
  | .retired => yeEpoch
  | .newer => yeDenied
  | .current => if part = 0xFF ∨ p.cur.parts.contains part then 0 else yeDenied
  | .draining => if part = 0xFF ∨ (p.drain.getD {}).parts.contains part then 0 else yeDenied

/-- Class and sealed state against the kind (03 Table 3.2, 02 R68). -/
def kindOk (o : Obj) (p : Place) (kind k : Nat) : Bool :=
  match kind with
  | 1 => o.cls != 1 || !o.loading
  | 2 => o.cls == 3 || o.cls == 4
  | 3 => o.cls != 1 || (o.loading && k == p.cursor && o.meas != 3)
  | 4 => o.cls != 1
  | 5 => o.cls == 2 || o.cls == 4
  | _ => false

/-- The accumulable format codes (04 Table 4.4). -/
def accCodes : List Nat := [0x40, 0x50, 0x60, 0x80, 0x90, 0xA0]
def align16 (n : Nat) : Nat := (n + 15) / 16 * 16

/-- Steps 1 to 4 of 04 Table 4.6 on a contribution. -/
def accCheck (s : State) (st : Nat) (r : MReq) : Nat :=
  let a := tget {} s.accs r.desc
  let c := tget {} (s.memSt st).accs r.desc
  let b := ofLe (cut 0 2 r.data)
  let w := 2 ^ elemWidth r.fmt
  if c.state ≠ 1 ∨ a.handle ≠ r.handle then yeDenied
  else if !((accCodes.zipIdx).any fun x => x.1 == r.fmt && a.mask.getLsbD x.2) then yeDenied
  else if family r.fmt = 1 then
    if cut 2 14 r.data ≠ zeros 14 ∨ cut (16 + b) (align16 b - b) r.data ≠ zeros (align16 b - b) then yeDenied
    else if b ≠ a.bs ∨ r.len ≠ 16 + align16 b + 32 * w * b then yeLength else 0
  else
    let z := ofLe (cut 2 2 r.data)
    let x := align16 (16 + 5 * b)
    let pop := ((List.range b).map fun i => popc (BitVec.ofNat 32 (ofLe (cut (16 + 4 * i) 4 r.data)))).sum
    if cut 4 12 r.data ≠ zeros 12 ∨ cut (16 + 5 * b) (x - 16 - 5 * b) r.data ≠ zeros (x - 16 - 5 * b) ∨ z ≠ pop then yeDenied
    else if b ≠ a.bs ∨ r.len ≠ x + w * z then yeLength else 0

/-- Steps 2 to 11 of 03 Table 3.3, then 04 Table 4.6: the failing step and its code, or (0, 0).  DESIGN CHOICE (log 128): a
range that passes byte 8,192 of its tile, or is empty, is refused at step 11 with YE_LENGTH; step 11 leaves an
accumulate's length and format to 04 Table 4.6. -/
def isolation (s : State) (st : Nat) (r : MReq) : Nat × Nat :=
  let h := r.handle.toNat
  let o := s.obj (handleIdx h)
  let m := s.memSt st
  let (ch, l) := chanOf s r.pslot
  if requestBad r then (1, yeDenied)
  else if o.state = 0 ∨ o.state = 4 ∨ o.gen ≠ handleGen h then (2, yeStale)
  else if o.part ≠ r.part then (3, yeDenied)
  else if m.retObjs.contains (handleIdx h) ∨ (o.cls ≠ 4 ∧ (m.retSlots.contains o.keySlot ∨ (s.key o.keySlot).state = 0)) then (4, yeKey)
  else if leaseCheck m.port r.epoch r.part = yeEpoch then (5, yeEpoch)
  else if leaseCheck m.port r.epoch r.part ≠ 0 then (6, yeDenied)
  else match placeOf o st with
  | none => (7, yeDenied)
  | some p =>
    let k := l - p.first
    if ch ≠ st ∨ l < p.first ∨ p.first + p.count ≤ l ∨ r.hslot < p.hdr ∨
        p.hdr + hdrUnits o.cls * p.count < r.hslot + hdrUnits o.cls then (7, yeDenied)
    else if r.kind = 3 ∧ o.meas = 1 ∧ o.loading then (8, yePoison)
    else if !kindOk o p r.kind k ∨ ((s.part r.part).state = 2 ∧ r.origin ≠ Config.keepId) then (8, yeDenied)
    else if isWrite r.kind ∧ (m.frzParts.contains r.part ∨ m.frzObjs.contains (handleIdx h)) then (9, yeFrozen)
    else if o.landing ∧ ¬ (isLink r.origin ∧ r.kind = 3 ∧ o.accepted.isSome) ∧ 
        ¬ (¬ isWrite r.kind ∧ s.handoffs.any fun x => !x.offerer && x.state == 2 && x.landing == handleIdx h) then (9, yeFrozen)
    else if isWrite r.kind ∧ (o.rekey.map (·.byLimit)).getD false = true then (10, yeExhausted)
    else if r.kind = 3 ∧ writeCheck o.cls (policyOf s o) r.len r.fmt ≠ 0 then (11, writeCheck o.cls (policyOf s o) r.len r.fmt)
    else if r.kind = 4 ∧ (r.len = 0 ∨ 8192 < r.off + r.len) then (11, yeLength)
    else if r.kind = 5 ∧ accCheck s st r ≠ 0 then (12, accCheck s st r)
    else (0, 0)

/-! ### The keep's accesses to objects (06 R209, 08 R255) -/

/-- Tile `k` of an object (04 R108): its placement and its number on the channel. -/
def placeTile (o : Obj) (k : Nat) : Option (Place × Nat) :=
  let n := o.places.length
  if n = 0 ∨ o.tiles ≤ k then none
  else (o.places[(k / 16) % n]?).map fun p => (p, p.first + 16 * (k / 16 / n) + k % 16)

/-- Whether a class has no tile headers to read: its tiles go by sectors. -/
def bySectors (cls : Nat) : Bool := cls == 3 || cls == 4

/-- The keep's request for a tile of a local object under a partition's tag, and its station: a read, or a write of a range of
the tile (03 R78, R80). -/
def tileReq (s : State) (part oi k : Nat) (write : Bool) : Option (Nat × MReq) :=
  let o := s.obj oi
  let sect := bySectors o.cls && !write
  (placeTile o k).map fun x => (x.1.st, {
    origin := Config.keepId, kind := if write then 4 else if sect then 2 else 1, part := part, epoch := s.epoch,
    handle := BitVec.ofNat 32 (o.gen * 2 ^ 20 + oi), pslot := tileIndex s x.1.st x.2, hslot := x.1.hdr + hdrUnits o.cls * (x.2 - x.1.first),
    len := if write then 1 else 0, smask := if sect then 0xFFFF else 0, hint := if write || sect then 0 else 128, fence := 0xFFFF })

/-- Whether the keep's requests for a range of an object under a partition's tag pass the isolation check of every station they go
to (06 R209); the first failing code, or 0.  The keep itself answers for a dead handle, another owner, a key that retires and
a range beyond the object. -/
def objAccess (s : State) (part h off len : Nat) (write : Bool) : Nat :=
  let oi := handleIdx h
  let o := s.obj oi
  let k := s.key o.keySlot
  if oi = 0 ∨ o.state = 0 ∨ o.state = 4 ∨ o.gen ≠ handleGen h then yeStale
  else if o.part ≠ part then yeDenied
  else if o.state = 3 ∨ (o.cls ≠ 4 ∧ (k.state = 6 ∨ k.state = 0)) then yeKey
  else if o.tiles * 8192 < off + len then yeLength
  else
    let first := off / 8192
    let codes := (List.range ((off + len + 8191) / 8192 - first)).map fun i =>
      match tileReq s part oi (first + i) write with
      | some (st, r) => (isolation s st r).2
      | none => yeDenied
    (codes.find? (· != 0)).getD 0

/-- The partition whose object a command reaches: an operator command reaches the objects it names (08 R255). -/
def accPart (s : State) (t : Taken) (h : Nat) : Nat :=
  if s.partOf t = 0xFF then (s.obj (handleIdx h)).part else s.partOf t

end Sys2Proof.Machine
end

