-- ==== Sys2Proof/Machine/Station.lean ====
section
/-! DEFINITION. How a memory station carries its requests forward: reports and completions, the version stage, reads,
writes, write ranges and accumulates, and what waiting requests do after each event (02, 03, 04). -/

namespace Sys2Proof.Machine
open Sys2Proof Sys2Proof.Crypto

/-! ### Accounting -/

/-- Adds to a meter counter of a partition (08 Table 8.12, 13 R399). -/
def addMeter (part i n : Nat) (s : State) : State :=
  if part = 0xFF then s else
  let v := tget 0 (s.part part).meter i
  let s' := s.onPart part fun p => { p with meter := tset p.meter i (min (two64 - 1) (v + n)) }
  if v < two64 - 1 ∧ two64 ≤ v + n then raiseEvent 0 (2 * 2 ^ 32 + i) 0x09 0 part s' else s'

/-- Charges a request's payload bytes to its partition: 4 sealed, 5 unsealed.  What a handoff copies is background work, which is
charged to nobody: the keep's reads at the offerer, the writes onto a landing region at the receiver (08 R287). -/
def meterReq (r : MReq) (i n : Nat) (s : State) : State :=
  if (i = 5 ∧ r.origin = Config.keepId) ∨ (i = 4 ∧ (s.obj (handleIdx r.handle.toNat)).landing) then s else addMeter r.part i n s

/-- Adds to the profile counters of the sets that match a request (13 R407). -/
def profCount (u part fence layer oper : Nat) (adds : List Nat) (s : State) : State :=
  each (s.profs.filter fun p => p.2.fence == fence && fence != 0xFFFF &&
      (s.ctx (s.queue (p.2.queue.getD 0)).ctx).part == part &&
      (BitVec.ofNat 16 layer &&& p.2.layerMask) == (p.2.layer &&& p.2.layerMask) &&
      (BitVec.ofNat 16 oper &&& p.2.operMask) == (p.2.oper &&& p.2.operMask))
    (fun p s => s.onPort u fun x =>
      let old := tget [] x.prof p.1
      { x with prof := tset x.prof p.1 ((List.range 8).map fun i => old.getD i 0 + adds.getD i 0) }) s

/-! ### Ending a request -/

/-- Removes a request from the station. -/
def dropReq (st acc : Nat) (s : State) : State :=
  s.onMem st fun m => { m with
    reqs := m.reqs.filter fun r => r.acc != acc,
    port := if m.port.stopped then { m.port with stop := { m.port.stop with completed := m.port.stop.completed + 1 } } else m.port }

def setReq (st : Nat) (r : MReq) (s : State) : State :=
  s.onMem st fun m => { m with reqs := m.reqs.map fun x => if x.acc = r.acc then r else x }

/-! ### Answers of the host station (01 R33, 07 R251) -/

/-- Slot and generation of a sub-stream's key in the set in force, as 06 R191 asks of class, owner and state. -/
def ideSub (s : State) (stream sub : Nat) : Option (Nat × Nat) :=
  let x := tget {} s.host.ide stream
  match tfind x.slots (6 * x.set + sub) with
  | none => none
  | some i =>
    let k := s.key i
    if x.live ∧ k.cls = 7 ∧ k.keepOwn ∧ k.state ≠ 0 ∧ !k.first then some (i, k.gen) else none

/-- A read's data leave for the host, sealed on an IDE stream under its transmit completion key; false while they wait for
that key, or for the station to leave Safe.  The data of a stream that has ended are dropped. -/
def hostAnswer (a : HostAns) (s : State) : Bool × State :=
  if s.portState Config.hostId = .closed ∨ s.portState Config.hostId = .safe then (false, s)
  else match a.stream with
  | none => (true, emit (.hostData a.iface a.tag a.data) s)
  | some st =>
    match ideSub s st 5 with
    | none => (true, s)
    | some (slot, gen) =>
      match askKey Config.hostId slot gen s with
      | (none, s) => (false, s)
      | (some k, s) =>
        (true, emit (.hostData a.iface a.tag (Config.ideSeal k a.data)) (addMeter a.part 8 a.data.length (bump Config.hostId 3 a.data.length s)))

/-- The link station's operation, the bulk copy or the handoff copy that issued the request learns its outcome. -/
def ackOrigin (r : MReq) (code : Nat) (data : Bytes) (s : State) : State :=
  if isLink r.origin ∧ r.fence ≠ 0xFFFF then
    { s with copies := s.copies.map fun c =>
      if c.st = r.origin ∧ c.asked ∧ c.fence = r.fence then { c with got := some (code, data) } else c }
  else if isLink r.origin then
    s.onLink r.origin fun l => { l with ops := l.ops.map fun o =>
      if o.tag = r.tag ∧ o.issued ∧ !o.done then { o with done := true, code := code, got := data } else o }
  else if r.origin = Config.keepId then
    { s with handoffs := s.handoffs.map fun h =>
      if h.offerer ∧ h.state = 2 ∧ h.asked ∧ h.num % 1024 = r.tag ∧ h.obj = handleIdx r.handle.toNat then { h with got := some (code, data) } else h }
  else if r.origin = Config.hostId then
    match s.host.reqs.find? fun x => x.1 == r.tag with
    | none => s
    | some (_, iface, stream) =>
      let p := s.host.port
      let s := { s with host := { s.host with
        reqs := s.host.reqs.filter fun x => x.1 != r.tag,
        port := if p.stopped then { p with stop := { p.stop with completed := p.stop.completed + 1 } } else p } }
      if isWrite r.kind ∨ code ≠ 0 then s
      else
        let a : HostAns := { iface := iface, tag := r.tag, part := r.part, stream := stream, data := data }
        match hostAnswer a s with
        | (true, s) => s
        | (false, s) => { s with host := { s.host with answers := s.host.answers ++ [a] } }
  else s

/-- A counter of a station's copy of a descriptor: 0 applied, 1 refused, 2 conversion and 3 addition saturations (13 R399). -/
def AccCopy.count (a : AccCopy) (i : Nat) : Nat := [a.applied, a.refused, a.convSat, a.addSat].getD i 0
def AccCopy.setCount (a : AccCopy) (i v : Nat) : AccCopy :=
  if i = 0 then { a with applied := v } else if i = 1 then { a with refused := v }
  else if i = 2 then { a with convSat := v } else { a with addSat := v }

/-- Adds to such a counter: it holds at 2^64 - 1, and the saturation raises its event once (13 R398, R399). -/
def accCount (st d i n : Nat) (s : State) : State :=
  let v := (tget {} (s.memSt st).accs d).count i
  let s' := s.onMem st fun m => { m with accs := tupd {} m.accs d fun a => a.setCount i (min (two64 - 1) (v + n)) }
  if v < two64 - 1 ∧ two64 ≤ v + n then
    raiseEvent 0 (2 ^ 32 + st * 2 ^ 16 + d * 2 ^ 8 + i) 0x09 0 (s.obj (handleIdx (tget {} s.accs d).handle.toNat)).part s'
  else s'

/-- What the 2 KiB beat buffer holds of a contribution (04 R126): its first bytes, taken in at once.  Later beats come no faster
than the destination's and pass on as they come. -/
def beatBuffer (r : MReq) : Bytes := if r.kind = 5 then r.data.take 2048 else []

/-- A descriptor's own count of a refused contribution (04 R130). -/
def countRefused (st : Nat) (r : MReq) (s : State) : State :=
  if r.kind = 5 ∧ (tget {} (s.memSt st).accs r.desc).state ≠ 0 then accCount st r.desc 1 1 s else s

/-- A request fails with a code: report, indication, answer to the issuing link station, removal (03 R97). -/
def failReq (st : Nat) (r : MReq) (code : Nat) (s : State) : State :=
  let s := fenceReport r.fence r.part code (detailStation st r.kind r.pslot) s
  let s := emit (.rfin st r.origin r.tag 16 code) s
  let s := countRefused st r (bump st 20 1 s)
  dropReq st r.acc (ackOrigin r code [] (profCount st r.part r.fence r.layer r.oper [0, 0, 0, 0, 0, 0, 1] s))

/-- A refusal at a step of 03 Table 3.3 or 04 Table 4.6. -/
def refuseReq (st : Nat) (r : MReq) (step code : Nat) (s : State) : State :=
  let s := bump st 19 1 s
  let s := if step = 3 ∨ step = 6 ∨ step = 7 then faultEvent st 0x03 r.fence (BitVec.ofNat 64 r.pslot) s else s
  let s := fenceReport r.fence r.part code (detailStation st r.kind r.pslot) s
  let s := emit (.rfin st r.origin r.tag 16 code) s
  dropReq st r.acc (ackOrigin r code [] (countRefused st r (profCount st r.part r.fence r.layer r.oper [0, 0, 0, 0, 0, 0, 1] s)))

/-- A tag or header failure (03 Table 3.7). -/
def tagFail (st : Nat) (r : MReq) (s : State) : State :=
  failReq st r yeTagFail (faultEvent st 0x01 r.fence (BitVec.ofNat 64 r.pslot) s)

/-- Cipher blocks of a coarse tile's stream (02 R45): a length-class code and the stored length. -/
def tileBlocks (code p : Nat) : Nat := ((if code = 0 then p else p + 3) + 15) / 16 + 1

/-- A read succeeds: beats and confirm.  `blocks` is 0 for what was not unsealed. -/
def endRead (st : Nat) (r : MReq) (n blocks : Nat) (data : Bytes) (s : State) : State :=
  let s := emit (.rfin st r.origin r.tag 16 0) (emit (.rdata st r.origin r.tag data) s)
  let u := if blocks = 0 then 0 else n
  let s := meterReq r 5 n (bump st 9 blocks (bump st 6 u (bump st 3 1 s)))
  let s := profCount st r.part r.fence r.layer r.oper [0, 0, u, blocks] s
  dropReq st r.acc (ackOrigin r 0 data s)

/-- Writes of a station wait in Safe (03 R104). -/
def commitOk (s : State) (st : Nat) : Bool := !s.isSafe st

/-- A committed write's payload goes to the channel; its header follows when the payload is accepted.  `n` is the
request's payload bytes, `blocks` the cipher blocks, 0 for a plain region. -/
def issueWrite (st : Nat) (r : MReq) (addr n blocks : Nat) (payload hdr : Bytes) (s : State) : State :=
  let s := emit (.chanWrite st r.acc addr payload) s
  let u := if blocks = 0 then 0 else n
  let s := bump st 9 blocks (bump st 8 (payload.length + hdr.length) (bump st 5 u (bump st 4 1 s)))
  let s := meterReq r 4 n (profCount st r.part r.fence r.layer r.oper [0, u, 0, blocks, payload.length + hdr.length] s)
  setReq st { r with stage := 3, committed := true, hdr := hdr, data := [] } s

/-- An accumulate is applied: counters (04 R119, 13 word 25, 08 counter 9). -/
def accApplied (st : Nat) (r : MReq) (s : State) : State :=
  addMeter r.part 9 1 (bump st 25 1 (accCount st r.desc 3 r.addSat (accCount st r.desc 2 r.convSat (accCount st r.desc 0 1 s))))

/-- A write is applied: completion to the requester (03 R79), or the failure it has kept (03 R81, R455).  A contribution
counts as applied only here (04 R130). -/
def applied (st : Nat) (r : MReq) (s : State) : State :=
  if r.err ≠ 0 then failReq st r r.err s
  else
    let s := if r.kind = 5 then accApplied st r s else s
    dropReq st r.acc (ackOrigin r 0 [] (emit (.wcmp st r.origin r.tag) s))

/-! ### Lines, slots and keys at the version stage -/

/-- The key and generation that serve a tile (06 R202). -/
def keyGenFor (s : State) (o : Obj) (p : Place) (pos cursor slot : Nat) : Nat × Nat :=
  let k := s.key o.keySlot
  if o.rekey.isSome ∧ k.state = 4 ∧ (pos < p.moved ∨ (pos = p.moved ∧ p.moving ∧ slot < cursor)) then (o.keySlot, k.gen + 1)
  else (o.keySlot, k.gen)

/-- The version of a slot for a read (02 R62): major, minor. -/
def readVersion (p : Place) (line : Nat) (v : BitVec 64) (l : Line) (i : Nat) : Nat × Nat :=
  if vrtReseal v then
    if p.moving ∧ line = p.moved then (if i < vrtCursor v then (1, 0) else (l.major, minorOf l i))
    else if i < vrtCursor v then (l.major, 0) else (l.major - 1, minorOf l i)
  else (l.major, minorOf l i)

/-- What the version stage says of a write to a slot. -/
inductive SlotStep where
  | fail (code : Nat)
  | wait
  | ok (l : Line)

/-- The line is at its region's re-key cursor, and its move is queued or in progress (03 R93, R94). -/
def lineMoving (s : State) (st oi line e : Nat) : Bool :=
  (s.memSt st).reseal.contains (e, true) || match placeOf (s.obj oi) st with
    | some p => p.moving && p.moved == line
    | none => false

/-- Puts a Re-sealing line in the engine's queue if it is not there and there is room. -/
def queueReseal (st e : Nat) (s : State) : State :=
  if (s.memSt st).reseal.contains (e, false) ∨ 32 ≤ (s.memSt st).reseal.length then s
  else s.onMem st fun m => { m with reseal := m.reseal ++ [(e, false)] }

/-- The slot's next version (02 R49, R50, R59): an overflow of the slot at `u` starts the line's re-seal. -/
def nextVersion (st oi line e i u : Nat) (l : Line) (s : State) : SlotStep × State :=
  let m := s.memSt st
  let v := m.entry e
  if vrtCond v = 3 then (.fail yeTagFail, s)
  else if vrtCond v = 2 then (.fail yeExhausted, s)
  else if lineMoving s st oi line e then (.wait, s)
  else if vrtReseal v then (.wait, queueReseal st e s)
  else if minorOf l i = 4095 then
    if majorLimit (vrtFine v) ≤ l.major then
      (.fail yeExhausted, sendReport st e 2 (s.onMem st fun m => { m with vrt := tset m.vrt e (vrtSetCond v 2) }))
    else if 32 ≤ m.reseal.length then (.wait, s)
    else
      let l' := { l with major := l.major + 1, dirty := true }
      let s := s.onMem st fun m => putLine { m with
        vrt := tset m.vrt e (vrtMake (vrtFine v) true 0 (vrtPart v) (vrtRoot v)), reseal := m.reseal ++ [(e, false)],
        locks := m.locks ++ [(e, u)] } l'
      (.wait, if condOf (vrtFine v) l'.major (vrtRoot v) = 1 ∧ vrtCond v = 0 then sendReport st e 1 s else s)
  else (.ok (setMinor l i (minorOf l i + 1)), s)

/-- A write commits: its slot's version rises (03 R79). -/
def commitSlot (st oi : Nat) (l : Line) (s : State) : State :=
  (s.onMem st fun m => putLine m l).onObj oi fun o => { o with written := true }

/-! ### Reads -/

/-- The header an Unwritten tile answers: length 8,192 and format 0x00 (02 R51).  DESIGN CHOICE (log 129): its length-class
byte is 0x00, whatever the partition's policy. -/
def zeroHeader : Bytes := header [] 8192 0 0
def payAddr (s : State) (r : MReq) : Nat := (chanOf s r.pslot).2 * 8192

/-- Issues the header read and what the hint asks of the payload (03 R75). -/
def issueRead (st : Nat) (r : MReq) (n : Nat) (s : State) : State :=
  let s := emit (.chanRead st r.acc (32 * r.hslot) 32) s
  let s := if n = 0 then s else emit (.chanRead st r.acc (payAddr s r) n) s
  let s := profCount st r.part r.fence r.layer r.oper [0, 0, 0, 0, 32 + n] s
  setReq st { r with stage := 1, old := [] } (bump st 7 (32 + n) s)

/-- Read tile of a region that is not counted-fine. -/
def advReadTile (st : Nat) (r : MReq) (o : Obj) (p : Place) (k : Nat) (s : State) : Bool × State :=
  let n := if policyOf s o = 9 then 8192 else 64 * r.hint
  if o.cls = 4 then (true, issueRead st r n s)
  else if o.cls = 1 then
    let (slot, gen) := keyGenFor s o p k 0 1
    let ver := if gen = (s.key slot).gen + 1 then 1 else o.loadGen
    match useKey st slot gen s with
    | (none, s) => (false, s)
    | (some _, s) => (true, issueRead st { r with keySlot := slot, keyGen := gen, major := ver / 4096, minor := ver % 4096 } n s)
  else
    let (line, i) := slotOf o.cls k 0
    let e := entryOf p line
    let v := (s.memSt st).entry e
    if vrtCond v = 3 then (true, tagFail st r s)
    else match cachedLine (s.memSt st) e with
    | none => (false, askLine st e s)
    | some l =>
      let s := bump st 11 1 (s.onMem st fun m => putLine m l)
      let (mj, mn) := readVersion p line v l i
      if mj = 0 ∧ mn = 0 then (true, endRead st r 8192 0 (zeroHeader ++ zeros 8192) s)
      else
        let (slot, gen) := keyGenFor s o p line (vrtCursor v) i
        match useKey st slot gen s with
        | (none, s) => (false, s)
        | (some _, s) => (true, issueRead st { r with keySlot := slot, keyGen := gen, major := mj, minor := mn } n s)

/-- The next selected sector from `i`. -/
def nextSector (mask : BitVec 16) (i : Nat) : Option Nat :=
  (List.range 16).find? fun j => decide (i ≤ j) && mask.getLsbD j

/-- One sector's confirm or poison (03 R77); `blocks` is 0 for what was not unsealed. -/
def sectorOut (st : Nat) (r : MReq) (i code blocks : Nat) (d : Bytes) (s : State) : State :=
  if code = 0 then
    let s := emit (.rfin st r.origin r.tag i 0) (emit (.rdata st r.origin r.tag d) s)
    let u := if blocks = 0 then 0 else 512
    meterReq r 5 512 (bump st 9 blocks (bump st 6 u (profCount st r.part r.fence r.layer r.oper [0, 0, u, blocks] s)))
  else
    let s := fenceReport r.fence r.part code (detailStation st r.kind r.pslot) s
    emit (.rfin st r.origin r.tag i code) (bump st 20 1 (profCount st r.part r.fence r.layer r.oper [0, 0, 0, 0, 0, 0, 1] s))

/-- Every sector is done: one request ends. -/
def endSectors (st : Nat) (r : MReq) (s : State) : State :=
  dropReq st r.acc (ackOrigin r r.err r.old (bump st 3 1 s))

/-- Read sectors, sector by sector: unwritten ones answer zeros, the next written one is read. -/
def advSectors : Nat → Nat → MReq → Obj → Place → Nat → State → Bool × State
  | 0, _, _, _, _, _, s => (true, s)
  | f + 1, st, r, o, p, k, s =>
    match nextSector r.smask r.sector with
    | none => (true, endSectors st r s)
    | some i =>
      let ask (r : MReq) (s : State) : State :=
        let s := emit (.chanRead st r.acc (payAddr s r + 512 * i) 512) s
        let s := if o.cls = 3 then emit (.chanRead st r.acc (32 * r.hslot + 32 + 32 * (i / 2)) 32) s else s
        let n := if o.cls = 3 then 544 else 512
        setReq st { r with sector := i, stage := 2 } (bump st 7 n (profCount st r.part r.fence r.layer r.oper [0, 0, 0, 0, n] s))
      if o.cls = 4 then (true, ask r s)
      else
        let (line, j) := slotOf o.cls k i
        let e := entryOf p line
        let v := (s.memSt st).entry e
        if vrtCond v = 3 then
          let r := { r with sector := i + 1, err := yeTagFail }
          advSectors f st r o p k (setReq st r (sectorOut st r i yeTagFail 0 [] (faultEvent st 0x01 r.fence 0 s)))
        else match cachedLine (s.memSt st) e with
        | none => (false, askLine st e s)
        | some l =>
          let s := bump st 11 1 (s.onMem st fun m => putLine m l)
          let (mj, mn) := readVersion p line v l j
          if mj = 0 ∧ mn = 0 then
            let r := { r with sector := i + 1, old := r.old ++ zeros 512 }
            advSectors f st r o p k (setReq st r (sectorOut st r i 0 0 (zeros 512) s))
          else
            let (slot, gen) := keyGenFor s o p line (vrtCursor v) j
            match useKey st slot gen s with
            | (none, s) => (false, s)
            | (some _, s) => (true, ask { r with keySlot := slot, keyGen := gen, major := mj, minor := mn } s)

/-! ### Writes -/

/-- Leaf digest of a measured tile (04 R109). -/
def leafDigest (k l fmt : Nat) (d : Bytes) : Bytes := sha384 ([0] ++ le 4 k ++ le 2 l ++ le 1 fmt ++ fit l d)
/-- Position of a station among the region's stations, and the object tile of a local tile (04 R108). -/
def objTile (o : Obj) (st q : Nat) : Nat :=
  let j := (o.places.findIdx? fun p => p.st == st).getD 0
  (((q / 16) * o.places.length + j) * 16) + q % 16

/-- Write tile of a region that is not counted-fine.  A sealed region's tile must still be the one at the load cursor when
it commits (02 R68); DESIGN CHOICE (log 130): a write to a Lost slot counts no tag failure, 03 Table 3.7 naming reads. -/
def advWriteTile (st : Nat) (r : MReq) (oi : Nat) (o : Obj) (p : Place) (k : Nat) (s : State) : Bool × State :=
  if !commitOk s st then (false, s)
  else if o.cls = 4 then
    let d := fit r.len r.data
    (true, issueWrite st r (payAddr s r) r.len 0 (d ++ zeros ((64 - d.length % 64) % 64)) (header [] r.len r.fmt 0) s)
  else if o.cls = 1 then
    if o.meas = 1 then (true, refuseReq st r 8 yePoison s)
    else if !o.loading ∨ k ≠ p.cursor then (true, refuseReq st r 8 yeDenied s)
    else
    let (slot, gen) := keyGenFor s o p k 0 1
    match useKey st slot gen s with
    | (none, s) => (false, s)
    | (some key, s) =>
      let pol := policyOf s o
      let (h, d) := sealTile key r.pslot o.loadGen pol r.len r.fmt r.data
      let s := s.onObj oi fun o => onPlace { o with
        leaves := if o.measured then tset o.leaves (objTile o st k) (leafDigest (objTile o st k) r.len r.fmt r.data) else o.leaves }
        st fun p => { p with cursor := p.cursor + 1 }
      let s := if o.measured then bump st 24 ((r.len + 8 + 17 + 127) / 128) s else s
      let c := classCode pol r.len
      (true, issueWrite st { r with keySlot := slot, keyGen := gen } (payAddr s r) r.len (tileBlocks c (storedLen c r.len)) d h s)
  else
    let (line, i) := slotOf o.cls k 0
    let e := entryOf p line
    if vrtCond ((s.memSt st).entry e) = 3 then (true, failReq st r yeTagFail s)
    else match cachedLine (s.memSt st) e with
    | none => (false, askLine st e s)
    | some l =>
      let s := bump st 11 1 s
      match nextVersion st oi line e i r.pslot l s with
      | (.fail c, s) => (true, failReq st r c s)
      | (.wait, s) => (false, s)
      | (.ok l', s) =>
        let (slot, gen) := keyGenFor s o p line 0 32
        match useKey st slot gen s with
        | (none, s) => (false, s)
        | (some key, s) =>
          let pol := policyOf s o
          let (h, d) := sealTile key r.pslot (version l'.major (minorOf l' i)) pol r.len r.fmt r.data
          let c := classCode pol r.len
          (true, issueWrite st { r with keySlot := slot, keyGen := gen } (payAddr s r) r.len (tileBlocks c (storedLen c r.len)) d h
            (commitSlot st oi l' s))

/-- Bytes of a range that fall in a sector: offset in the sector, length, offset in the data. -/
def sectorPart (off len i : Nat) : Nat × Nat × Nat :=
  let a := max off (512 * i)
  let b := min (off + len) (512 * i + 512)
  (a - 512 * i, b - a, a - off)

/-- Sealing one sector at its next version: the ciphertext goes to the channel, and the tag follows when it is accepted, or
never where the old tag did not match (03 R81, R455).  `n` is the request's payload in the sector. -/
def commitSector (st oi : Nat) (o : Obj) (p : Place) (r : MReq) (line e i j n : Nat) (l : Line) (d : Bytes) (tagOk : Bool)
    (s : State) : Option Nat × Bool × State :=
  match nextVersion st oi line e j r.pslot l s with
  | (.fail c, s) => (some c, true, s)
  | (.wait, s) => (none, false, s)
  | (.ok l', s) =>
    let (slot, gen) := keyGenFor s o p line 0 32
    match useKey st slot gen s with
    | (none, s) => (none, false, s)
    | (some key, s) =>
      let (c, t) := sealSector key r.pslot i (version l'.major (minorOf l' j)) d
      let s := emit (.chanWrite st r.acc (payAddr s r + 512 * i) c) (commitSlot st oi l' s)
      let w := if tagOk then 528 else 512
      let s := profCount st r.part r.fence r.layer r.oper [0, n, 0, 33, w] (if r.began then s else bump st 4 1 s)
      let s := meterReq r 4 n (bump st 9 33 (bump st 8 w (bump st 5 n s)))
      let s := if tagOk then s else bump st 21 1 (faultEvent st 0x01 r.fence (BitVec.ofNat 64 r.pslot) s)
      (none, true, setReq st { r with
        stage := 3, committed := true, began := true, sector := i, keySlot := slot, keyGen := gen, old := [],
        hdr := if tagOk then t else [], err := if tagOk ∨ r.err ≠ 0 then r.err else yeTagFail } s)

/-- First byte and length of a counted-fine write's range. -/
def fineSpan (r : MReq) : Nat × Nat := if r.kind = 3 then (0, 8192) else (r.off, r.len)

/-- Counted-fine writes, sector by sector in rising order (03 R455): a whole or unwritten sector is sealed at once, a
partial one is read first; the next sector begins when this one is applied. -/
def advFine : Nat → Nat → MReq → Nat → Obj → Place → Nat → State → Bool × State
  | 0, _, _, _, _, _, _, s => (true, s)
  | f + 1, st, r, oi, o, p, k, s =>
    let (off, len) := fineSpan r
    let i := max r.sector (off / 512)
    if 16 ≤ i ∨ off + len ≤ 512 * i then (true, applied st r s)
    else if !commitOk s st then (false, s)
    else
      let (line, j) := slotOf 3 k i
      let e := entryOf p line
      let v := (s.memSt st).entry e
      let skip (code : Nat) (s : State) : Bool × State :=
        let r := { r with sector := i + 1, err := if r.err = 0 then code else r.err }
        advFine f st r oi o p k (setReq st r s)
      if vrtCond v = 3 then skip yeTagFail s
      else match cachedLine (s.memSt st) e with
      | none => (false, askLine st e s)
      | some l =>
        let s := bump st 11 1 s
        let (a, n, d0) := sectorPart off len i
        let fresh := n == 512 || (l.major == 0 && minorOf l j == 0 && !vrtReseal v)
        if fresh then
          match commitSector st oi o p r line e i j n l (zeros a ++ cut d0 n r.data ++ zeros (512 - a - n)) true s with
          | (some c, _, s) => skip c s
          | (none, prog, s) => (prog, s)
        else if vrtReseal v ∨ minorOf l j = 4095 then
          match nextVersion st oi line e j r.pslot l s with
          | (.fail c, s) => skip c s
          | (_, s) => (false, s)
        else if vrtCond v = 2 then skip yeExhausted s
        else
          let (slot, gen) := keyGenFor s o p line (vrtCursor v) j
          match useKey st slot gen s with
          | (none, s) => (false, s)
          | (some _, s) =>
            let s := emit (.chanRead st r.acc (payAddr s r + 512 * i) 512) s
            let s := emit (.chanRead st r.acc (32 * r.hslot + 32 + 32 * (i / 2)) 32) s
            let s := profCount st r.part r.fence r.layer r.oper [0, 0, 0, 0, 544] s
            (true, setReq st { r with sector := i, stage := 2, keySlot := slot, keyGen := gen,
                                      major := l.major, minor := minorOf l j } (bump st 7 544 s))

/-- A sector's tag in the 32-byte pair that is read with it (03 R77). -/
def pairTag (i : Nat) (pair : Bytes) : Bytes := cut (16 * (i % 2)) 16 pair

/-- Merges a range into an old text. -/
def merge (old : Bytes) (off : Nat) (d : Bytes) : Bytes := old.take off ++ d ++ old.drop (off + d.length)

/-- A partial sector's old text has returned, 512 bytes and its pair of tags: merge and commit (03 R80, R81). -/
def finishFine (st oi : Nat) (o : Obj) (p : Place) (k : Nat) (r : MReq) (s : State) : Bool × State :=
  if !commitOk s st then (false, s) else
  match halfOf (s.key r.keySlot) r.keyGen with
  | none => (true, failReq st r yeKey s)
  | some key =>
    let i := r.sector
    let (line, j) := slotOf 3 k i
    let e := entryOf p line
    match cachedLine (s.memSt st) e with
    | none => (false, askLine st e s)
    | some l =>
      let (off, len) := fineSpan r
      let (a, n, d0) := sectorPart off len i
      let ver := version r.major r.minor
      let old := ctrXor key (sectorIv r.pslot i ver) 2 (fit 512 r.old)
      let ok := (openSector key r.pslot i ver (r.old.take 512) (pairTag i (cut 512 32 r.old))).isSome
      match commitSector st oi o p r line e i j n l (merge old a (cut d0 n r.data)) ok s with
      | (some c, _, s) =>
        let r := { r with stage := 0, sector := i + 1, old := [], err := if r.err = 0 then c else r.err }
        advFine 17 st r oi o p k (setReq st r s)
      | (none, prog, s) => (prog, if prog then bump st 9 33 s else s)

/-- The 32-byte units of a plain tile that hold the partial lanes of a range: at its beginning, at its end (03 R82). -/
def edgeUnits (off len : Nat) : List Nat :=
  let e := off + len
  let a := if off % 16 = 0 then [] else [off / 32 * 32]
  if e % 16 = 0 ∨ a.contains (e / 32 * 32) then a else a ++ [e / 32 * 32]

/-- A range of a plain tile on whole 16-byte lanes, from the units read and the range's bytes: first byte and bytes. -/
def plainLanes (off len : Nat) (units data : Bytes) : Nat × Bytes :=
  let e := off + len
  let us := edgeUnits off len
  let unit (u : Nat) : Bytes := cut (32 * us.idxOf u) 32 units
  let a := off / 16 * 16
  let head := if off % 16 = 0 then [] else cut (a - off / 32 * 32) (off - a) (unit (off / 32 * 32))
  let tail := if e % 16 = 0 then [] else cut (e % 32) (16 - e % 16) (unit (e / 32 * 32))
  (a, head ++ fit len data ++ tail)

/-- The partial lanes of a plain range have returned: the range's lanes are written (03 R82). -/
def finishPlain (st : Nat) (r : MReq) (s : State) : Bool × State :=
  if !commitOk s st then (false, s)
  else
    let (a, b) := plainLanes r.off r.len r.old r.data
    (true, issueWrite st r (payAddr s r + a) r.len 0 b [] s)

/-- Write range of a plain tile (03 R82). -/
def advPlainRange (st : Nat) (r : MReq) (s : State) : Bool × State :=
  let us := edgeUnits r.off r.len
  if us.isEmpty then finishPlain st r s
  else if !commitOk s st then (false, s)
  else
    let s := each us (fun u s => emit (.chanRead st r.acc (payAddr s r + u) 32) s) s
    let n := 32 * us.length
    (true, setReq st { r with stage := 2 } (bump st 7 n (profCount st r.part r.fence r.layer r.oper [0, 0, 0, 0, n] s)))

/-! ### Accumulation arithmetic (04 R128, R129) -/

/-- x / 2^n, ties to the even neighbour. -/
def rhe (x : Int) (n : Nat) : Int :=
  if n = 0 then x else
  let q := x / (2 ^ n : Int)
  let r := x - q * 2 ^ n
  if r > 2 ^ (n - 1) ∨ (r = 2 ^ (n - 1) ∧ q % 2 = 1) then q + 1 else q
def sat32 (x : Int) : Int := min (max x (-2147483648)) 2147483647
def toInt (w : Nat) (b : Bytes) : Int :=
  let v := ofLe (b.take w)
  if 2 ^ (8 * w - 1) ≤ v then (v : Int) - 2 ^ (8 * w) else v
def ofInt (w : Nat) (x : Int) : Bytes := le w (x % (2 ^ (8 * w) : Int)).toNat

/-- A contribution as blocks of (exponent, 32 elements with presence) (04 R117, R118). -/
def parseBlocks (fmt : Nat) (d : Bytes) : List (Int × List (Option Int)) :=
  let b := ofLe (cut 0 2 d)
  let w := 2 ^ elemWidth fmt
  if family fmt = 1 then
    let base := 16 + align16 b
    (List.range b).map fun i => (toInt 1 (cut (16 + i) 1 d),
      (List.range 32).map fun j => some (toInt w (cut (base + w * (32 * i + j)) w d)))
  else
    let base := align16 (16 + 5 * b)
    ((List.range b).foldl (fun (acc : List (Int × List (Option Int)) × Nat) i =>
      let mask := BitVec.ofNat 32 (ofLe (cut (16 + 4 * i) 4 d))
      let row := (List.range 32).foldl (fun (a : List (Option Int) × Nat) j =>
        if mask.getLsbD j then (a.1 ++ [some (toInt w (cut (base + w * a.2) w d))], a.2 + 1) else (a.1 ++ [none], a.2)) ([], acc.2)
      (acc.1 ++ [(toInt 1 (cut (16 + 4 * b + i) 1 d), row.1)], row.2)) ([], 0)).1

/-- One block in exact mode: elements, conversion and addition saturations. -/
def accExact (e : Int) (dest : List Int) (ein : Int) (x : List (Option Int)) : Int × List Int × Nat × Nat :=
  let d := ein - e
  let r := (dest.zip x).map fun p =>
    match p.2 with
    | none => (p.1, 0, 0)
    | some v =>
      let c := if 0 ≤ d then v * 2 ^ d.toNat else rhe v (-d).toNat
      let c' := sat32 c
      let o := sat32 (p.1 + c')
      (o, (if c' = c then 0 else 1), (if o = p.1 + c' then 0 else 1))
  (e, r.map (·.1), (r.map fun t => t.2.1).sum, (r.map fun t => t.2.2).sum)

/-- One block in adaptive mode. -/
def accAdaptive (ed : Int) (dest : List Int) (ein : Int) (x : List (Option Int)) : Int × List Int × Nat × Nat :=
  let t := max ed ein
  let sums := (dest.zip x).map fun p => rhe p.1 (t - ed).toNat + rhe (p.2.getD 0) (t - ein).toNat
  let k := if sums.all fun v => decide (sat32 v = v) then 0 else 1
  if 127 < t + k then
    (127, sums.map sat32, 0, (sums.filter fun v => decide (sat32 v ≠ v)).length)
  else (t + k, sums.map fun v => rhe v k.toNat, 0, 0)

/-- Stored length of a descriptor's destination tiles (04 R120). -/
def destLen (bs : Nat) : Nat := 16 + align16 bs + 128 * bs
/-- The destination's blocks; an Unwritten slot is zeros at E, or at -128 in adaptive mode (04 R124). -/
def destZero (a : Acc) : List (Int × List Int) :=
  List.replicate a.bs (if a.mode = 1 then a.e.toInt else -128, List.replicate 32 0)
def parseDest (bs : Nat) (d : Bytes) : List (Int × List Int) :=
  let base := 16 + align16 bs
  (List.range bs).map fun i => (toInt 1 (cut (16 + i) 1 d), (List.range 32).map fun j => toInt 4 (cut (base + 4 * (32 * i + j)) 4 d))
def buildDest (bs : Nat) (b : List (Int × List Int)) : Bytes :=
  le 2 bs ++ zeros 14 ++ fit (align16 bs) ((b.map fun x => ofInt 1 x.1).flatten) ++ ((b.map fun x => (x.2.map (ofInt 4)).flatten).flatten)

/-- The sums of a contribution and a destination, with both saturation counts (04 R128, R129). -/
def accumulate (a : Acc) (dest : List (Int × List Int)) (x : List (Int × List (Option Int))) : List (Int × List Int) × Nat × Nat :=
  let r := (dest.zip x).map fun p =>
    if a.mode = 1 then accExact a.e.toInt p.1.2 p.2.1 p.2.2 else accAdaptive p.1.1 p.1.2 p.2.1 p.2.2
  (r.map fun t => (t.1, t.2.1), (r.map fun t => t.2.2.1).sum, (r.map fun t => t.2.2.2).sum)

/-! ### Write range and accumulate on a counted-coarse tile, accumulate on a plain tile -/

/-- Seals a new text at the slot's next version; `tagOk` says whether the old tag matched (03 R80, R81). -/
def commitCoarse (st oi : Nat) (o : Obj) (p : Place) (k : Nat) (r : MReq) (text : Bytes) (fmt n : Nat) (tagOk : Bool)
    (s : State) : Bool × State :=
  let (line, i) := slotOf 2 k 0
  let e := entryOf p line
  match cachedLine (s.memSt st) e with
  | none => (false, askLine st e s)
  | some l =>
    match nextVersion st oi line e i r.pslot l s with
    | (.fail c, s) => (true, failReq st r c s)
    | (.wait, s) => (false, s)
    | (.ok l', s) =>
      let (slot, gen) := keyGenFor s o p line 0 32
      match useKey st slot gen s with
      | (none, s) => (false, s)
      | (some key, s) =>
        let pol := policyOf s o
        let (h, d) := sealTile key r.pslot (version l'.major (minorOf l' i)) pol text.length fmt text
        let c := classCode pol text.length
        let blocks := tileBlocks c (storedLen c text.length)
        let r := { r with keySlot := slot, keyGen := gen, old := [] }
        let s := commitSlot st oi l' s
        if tagOk then (true, issueWrite st r (payAddr s r) n blocks d h s)
        else
          let s := faultEvent st 0x01 r.fence (BitVec.ofNat 64 r.pslot) (bump st 21 1 s)
          let s := if r.kind = 5 then s.onMem st fun m => { m with
              accs := tupd {} m.accs r.desc fun a => { a with tagFails := a.tagFails + 1 } } else s
          (true, issueWrite st { r with err := yeTagFail } (payAddr s r) n blocks d [] s)

/-- The decrypted text of a stored coarse tile, whatever its tag: length, format, payload. -/
def rawTile (key : BitVec 256) (u ver : Nat) (h data : Bytes) : Nat × Nat × Bytes :=
  if ofLe (cut 19 1 h) = 0 then
    let l := ofLe (cut 16 2 h)
    (l, ofLe (cut 18 1 h), ctrXor key (tileIv u ver) 2 (fit l data))
  else
    let b := ctrXor key (tileIv u ver) 2 (cut 16 3 h ++ fit (headerLen h) data)
    (ofLe (b.take 2), ofLe (cut 2 1 b), b.drop 3)

/-- Step 5 of 04 Table 4.6 on a destination text. -/
def destOk (a : Acc) (fmt l : Nat) (d : Bytes) : Bool :=
  fmt == 0x60 && l == destLen a.bs && ofLe (cut 0 2 d) == a.bs &&
  (a.mode != 1 || (parseDest a.bs d).all fun b => b.1 == a.e.toInt)

/-- The old tile has returned: merge or add, and commit (03 R80 steps 3 to 5, 04 R123, R125).  A tag that fails wins over
a stored form of the wrong shape: 02 R64 and 04 R123 give every partial write of an Unreadable slot YE_TAG_FAIL. -/
def finishCoarse (st oi : Nat) (o : Obj) (p : Place) (k : Nat) (r : MReq) (s : State) : Bool × State :=
  if !commitOk s st then (false, s) else
  let a := tget {} s.accs r.desc
  let sums (dest : List (Int × List Int)) : MReq × Bytes :=
    let (b, c, d) := accumulate a dest (parseBlocks r.fmt r.data)
    ({ r with convSat := c, addSat := d }, buildDest a.bs b)
  if r.kind = 5 ∧ a.state = 0 then (true, failReq st r yeDenied s)
  else if o.cls = 4 then
    if !headerOk 0 true r.hdr then (true, tagFail st r s)
    else if !destOk a (ofLe (cut 18 1 r.hdr)) (headerLen r.hdr) r.old then (true, failReq st r yeDenied s)
    else
      let (r, text) := sums (parseDest a.bs r.old)
      (true, issueWrite st r (payAddr s r) r.len 0 text (header [] (destLen a.bs) 0x60 0) s)
  else
    match halfOf (s.key r.keySlot) r.keyGen with
    | none => (true, failReq st r yeKey s)
    | some key =>
      let ver := version r.major r.minor
      let (l, f, old) := rawTile key r.pslot ver r.hdr r.old
      let ok := (openTile key r.pslot ver (policyOf s o) r.hdr r.old).isSome
      let shape := if r.kind = 4 then l == 8192 && f == 0 else destOk a f l old
      let out :=
        if !shape then (true, if ok then failReq st r yeDenied s else tagFail st r s)
        else if r.kind = 4 then commitCoarse st oi o p k r (merge (fit 8192 old) r.off (fit r.len r.data)) 0 r.len ok s
        else
          let (r, text) := sums (parseDest a.bs old)
          commitCoarse st oi o p k r text 0x60 r.len ok s
      (out.1, if out.1 then bump st 9 (tileBlocks (ofLe (cut 19 1 r.hdr)) (headerLen r.hdr)) out.2 else out.2)

/-- Write range of a counted-coarse tile, and accumulate, at the version stage. -/
def advCoarse (st : Nat) (r : MReq) (oi : Nat) (o : Obj) (p : Place) (k : Nat) (s : State) : Bool × State :=
  let a := tget {} s.accs r.desc
  if !commitOk s st then (false, s)
  else if r.kind = 5 ∧ a.state = 0 then (true, failReq st r yeDenied s)
  else if o.cls = 4 then (true, issueRead st r (destLen a.bs) s)
  else
    let (line, i) := slotOf 2 k 0
    let e := entryOf p line
    let v := (s.memSt st).entry e
    if vrtCond v = 3 then (true, failReq st r yeTagFail s)
    else match cachedLine (s.memSt st) e with
    | none => (false, askLine st e s)
    | some l =>
      let s := bump st 11 1 s
      if vrtCond v = 2 then (true, failReq st r yeExhausted s)
      else if vrtReseal v ∨ minorOf l i = 4095 then
        match nextVersion st oi line e i r.pslot l s with
        | (.fail c, s) => (true, failReq st r c s)
        | (_, s) => (false, s)
      else if l.major = 0 ∧ minorOf l i = 0 then
        if r.kind = 4 then commitCoarse st oi o p k r (merge (zeros 8192) r.off (fit r.len r.data)) 0 r.len true s
        else
          let (b, c, d) := accumulate a (destZero a) (parseBlocks r.fmt r.data)
          commitCoarse st oi o p k { r with convSat := c, addSat := d } (buildDest a.bs b) 0x60 r.len true s
      else
        let (slot, gen) := keyGenFor s o p line (vrtCursor v) i
        match useKey st slot gen s with
        | (none, s) => (false, s)
        | (some _, s) =>
          (true, issueRead st { r with keySlot := slot, keyGen := gen, major := l.major, minor := minorOf l i } 8192 s)

/-! ### The version stage and the pump -/

/-- Tile locks in use: those of write ranges, and those of minor overflows (03 R83). -/
def lockCount (m : MemSt) : Nat := (m.reqs.filter fun x => x.locked).length + m.locks.length

/-- What a request that holds its lock, or needs none, does at its version stage or with its old text returned. -/
def advanceLocked (st : Nat) (r : MReq) (p : Place) (s : State) : Bool × State :=
  let oi := handleIdx r.handle.toNat
  let o := s.obj oi
  let k := (chanOf s r.pslot).2 - p.first
  match r.kind with
  | 1 => if o.cls = 3 then advSectors 17 st { r with smask := 0xFFFF } o p k s else advReadTile st r o p k s
  | 2 => advSectors 17 st r o p k s
  | 3 => if o.cls = 3 then (if r.stage = 5 then finishFine st oi o p k r s else advFine 17 st r oi o p k s)
         else advWriteTile st r oi o p k s
  | 4 => if o.cls = 3 then (if r.stage = 5 then finishFine st oi o p k r s else advFine 17 st r oi o p k s)
         else if o.cls = 4 then (if r.stage = 5 then finishPlain st r s else advPlainRange st r s)
         else if r.stage = 5 then finishCoarse st oi o p k r s else advCoarse st r oi o p k s
  | _ => if r.stage = 5 then finishCoarse st oi o p k r s else advCoarse st r oi o p k s

/-- A request at its version stage, or with its old text returned, moves on if it can.  A write range and an accumulate
take the lock of their slot first; at most 64 are in use (03 R83). -/
def advance (st : Nat) (r : MReq) (s : State) : Bool × State :=
  match placeOf (s.obj (handleIdx r.handle.toNat)) st with
  | none => (true, refuseReq st r 7 yeDenied s)
  | some p =>
    if (r.kind = 4 ∨ r.kind = 5) ∧ r.locked = false then
      if 64 ≤ lockCount (s.memSt st) then (false, s)
      else advanceLocked st { r with locked := true } p (setReq st { r with locked := true } s)
    else advanceLocked st r p s

/-- An earlier request to the same slot, or an overflow's lock on it, holds a later one back (03 R83).  A read waits for an
earlier write until the write's header is on its way to the channel, which keeps accesses in order (03 R76). -/
def heldBack (m : MemSt) (r : MReq) : Bool :=
  m.locks.any (fun x => x.2 == r.pslot) || m.reqs.any fun x => decide (x.acc < r.acc) && x.pslot == r.pslot &&
    (x.stage == 0 || x.stage == 9 || x.stage == 3 || x.locked || (x.stage != 4 && isWrite r.kind))

/-- Every waiting request, in intake order, moves on if it can. -/
def pump (st : Nat) (s : State) : State :=
  each (s.memSt st).reqs (fun r0 s =>
    match (s.memSt st).reqs.find? fun x => x.acc == r0.acc with
    | none => s
    | some r =>
      if (r.stage = 0 ∨ r.stage = 5) ∧ !heldBack (s.memSt st) r then
        let (_, s') := advance st r s
        s'
      else s) s

/-- The isolation check of a request whose descriptor is at hand, then its version stage. -/
def checkAndGo (st : Nat) (r : MReq) (s : State) : State :=
  let (step, code) := isolation s st r
  if code ≠ 0 then refuseReq st r step code s else pump st (setReq st { r with stage := 0 } s)

/-- Intake of a request (03 R70, 01 Table 1.5): nothing is taken while the port is not ready for it. -/
def intakeOpen (s : State) (st kind : Nat) : Bool :=
  match s.portState st with
  | .opened => true
  | .safe => !isWrite kind && !(s.port st).stopped
  | _ => false

/-- A station holds 1,024 requests (03 Table 3.1). -/
def intake (st : Nat) (r : MReq) (s : State) : State :=
  if !intakeOpen s st r.kind || decide (1024 ≤ (s.memSt st).reqs.length) then s else
  let n := (s.port st).intake + 1
  let r := { r with acc := n, born := s.now }
  let s := s.onPort st fun p => { p with intake := n % 2 ^ 32, lastTag := r.tag }
  let s := profCount st r.part r.fence r.layer r.oper [1] (bump st 2 1 s)
  let oi := handleIdx r.handle.toNat
  if requestBad r then
    refuseReq st r 1 yeDenied (s.onMem st fun m => { m with reqs := m.reqs ++ [r] })
  else if (s.memSt st).descs.contains oi then
    checkAndGo st r (s.onMem st fun m => { m with reqs := m.reqs ++ [r], descs := oi :: without m.descs oi })
  else bump st 15 1 (s.onMem st fun m => { m with reqs := m.reqs ++ [{ r with stage := 9 }] })

/-! ### Bytes that the keep moves for a command (06 R209) -/

/-- Bytes that a command writes to an object of its partition, which is charged for them (08 R287). -/
def writeOut (part h off : Nat) (b : Bytes) (s : State) : State := emit (.objWrite h off b) (addMeter part 4 b.length s)

/-- Writes to an object for a command, or fails the command with the access code. -/
def putObj (t : Taken) (part h off : Nat) (b : Bytes) (k : State → State) (s : State) : State :=
  let c := objAccess s part h off b.length true
  if c ≠ 0 then failCmd t c s else k (writeOut part h off b s)

/-- Input of a command: the access of its partition, then what the read answered. -/
def readIn (t : Taken) (h off len rc : Nat) (k : State → State) (s : State) : State :=
  let a := objAccess s (accPart s t h) h off len false
  if a ≠ 0 then failCmd t a s else withInput t rc (fun s => k (addMeter (accPart s t h) 5 len s)) s

end Sys2Proof.Machine
end

