-- ==== Sys2Proof/Machine/Memory.lean ====
section
/-! DEFINITION. Memory-station rows: requests, returns, fetches, deliveries, timeouts, re-seals and re-keys, marks and
cuts, the safe state (02, 03). -/

namespace Sys2Proof.Machine
open Sys2Proof Sys2Proof.Crypto

/-- A request of the row's kind; another kind code is refused at step 1 as the row's request cannot carry it. -/
def rowReq (kind origin : Nat) (req : BitVec 256) (data : Bytes) : MReq :=
  let r := memReq origin req data
  if r.kind = kind then r else { r with kind := 0 }

/-- READ_TILE (03 R75). -/
def execReadTile (st origin : Nat) (req : BitVec 256) (s : State) : Res := .next (intake st (rowReq 1 origin req []) s)
/-- READ_SECTORS (03 R77). -/
def execReadSectors (st origin : Nat) (req : BitVec 256) (s : State) : Res := .next (intake st (rowReq 2 origin req []) s)
/-- WRITE_TILE (03 R79). -/
def execWriteTile (st origin : Nat) (req : BitVec 256) (data : List (BitVec 8)) (s : State) : Res :=
  .next (intake st (rowReq 3 origin req data) s)
/-- WRITE_RANGE (03 R80, R82). -/
def execWriteRange (st origin : Nat) (req : BitVec 256) (data : List (BitVec 8)) (s : State) : Res :=
  .next (intake st (rowReq 4 origin req data) s)
/-- ACCUMULATE (04 R121 to R125). -/
def execAccumulate (st origin : Nat) (req : BitVec 256) (data : List (BitVec 8)) (s : State) : Res :=
  .next (intake st (rowReq 5 origin req data) s)

def findReq (s : State) (st acc : Nat) : Option MReq := (s.memSt st).reqs.find? fun r => r.acc == acc

/-- The station is in reset, or has not been opened: nothing passes in either direction (00 R1, 01 Table 1.5). -/
def closed (s : State) (st : Nat) : Bool := decide (s.portState st = .closed)

/-- HEADER_READ_RETURN: the header of the tile in hand (03 R75; 02 R46).  A write range waits for the payload and its tag
before it judges the header's shape: 02 R64 lets the tag failure win. -/
def headerReturn (st acc : Nat) (hdr : Bytes) (s : State) : State :=
  match findReq s st acc with
  | none => s
  | some r =>
    if closed s st ∨ r.stage ≠ 1 then s else
    let o := s.obj (handleIdx r.handle.toNat)
    let pol := policyOf s o
    let h := fit 32 hdr
    if !headerOk pol (o.cls == 4) h then pump st (tagFail st r s)
    else
      let n := headerLen h
      let had := if r.kind = 1 then (if pol = 9 then 8192 else 64 * r.hint) else if r.kind = 5 ∧ o.cls = 4 then
        destLen (tget {} s.accs r.desc).bs else 8192
      let s := if had < n then emit (.chanRead st acc (payAddr s r + had) (n - had)) (bump st 7 (n - had)
          (profCount st r.part r.fence r.layer r.oper [0, 0, 0, 0, n - had] s)) else s
      setReq st { r with hdr := h, stage := 2 } s

def execHeaderReadReturn (st acc : Nat) (hdr : List (BitVec 8)) (s : State) : Res := .next (headerReturn st acc hdr s)

/-- A sealed or counted-coarse tile that a read tile fetched (02 R45, R46). -/
def tileReturn (st : Nat) (r : MReq) (o : Obj) (data : Bytes) (s : State) : State :=
  match halfOf (s.key r.keySlot) r.keyGen with
  | none => failReq st r yeKey s
  | some key =>
    match openTile key r.pslot (version r.major r.minor) (policyOf s o) r.hdr data with
    | none => tagFail st r s
    | some (l, f, b) =>
      let code := ofLe (cut 19 1 r.hdr)
      endRead st r l (tileBlocks code (headerLen r.hdr)) (header [] l f code ++ b) s

/-- The sector in hand, 512 bytes and, in a counted-fine region, the pair of tags that holds its own (03 R77). -/
def sectorReturn (st : Nat) (r : MReq) (o : Obj) (data : Bytes) (s : State) : State :=
  let go (code blocks : Nat) (d : Bytes) (s : State) : State :=
    setReq st { r with stage := 0, sector := r.sector + 1, old := r.old ++ d, smask := if r.kind = 1 then 0xFFFF else r.smask,
                       err := if r.err = 0 then code else r.err } (sectorOut st r r.sector code blocks d s)
  if o.cls = 4 then go 0 0 (fit 512 data) s
  else match halfOf (s.key r.keySlot) r.keyGen with
  | none => go yeKey 0 [] s
  | some key =>
    match openSector key r.pslot r.sector (version r.major r.minor) (data.take 512) (pairTag r.sector (cut 512 32 data)) with
    | none => go yeTagFail 0 [] (faultEvent st 0x01 r.fence (BitVec.ofNat 64 r.pslot) s)
    | some d => go 0 33 d s

/-- CHANNEL_READ_RETURN: the payload in hand, unsealed and checked before any beat counts (01 R27; 03 R75 to R82); a
write's old text waits for its commit.  DESIGN CHOICE (log 131): a plain read returns the tag bytes it read, unaltered. -/
def readReturn (st acc : Nat) (data : Bytes) (s : State) : State :=
  match findReq s st acc with
  | none => s
  | some r =>
    if closed s st ∨ r.stage ≠ 2 then s else
    let o := s.obj (handleIdx r.handle.toNat)
    pump st (
      if isWrite r.kind then setReq st { r with old := data, stage := 5 } s
      else if r.kind = 1 ∧ o.cls ≠ 3 then
        if o.cls = 4 then endRead st r (headerLen r.hdr) 0 (r.hdr ++ fit (headerLen r.hdr) data) s
        else tileReturn st r o data s
      else sectorReturn st r o data s)

def execChannelReadReturn (st acc : Nat) (data : List (BitVec 8)) (s : State) : Res := .next (readReturn st acc data s)

/-- A committed write whose header has not been issued is cut (03 R104): the slot stays Unreadable, and a measured load
is Broken (04 Table 4.1). -/
def cutWrite (st : Nat) (r : MReq) (s : State) : State :=
  let s := s.onObj (handleIdx r.handle.toNat) fun o => if o.meas = 2 then { o with meas := 1 } else o
  failReq st r yePoison (bump st 21 1 s)

/-- Channel address of a write's header, or of the sector's tag (02 Table 2.3). -/
def headAddr (fine : Bool) (r : MReq) : Nat := if fine then 32 * r.hslot + 32 + 16 * r.sector else 32 * r.hslot

/-- The payload and the header in hand are accepted: the write is applied, or its next sector begins (03 R79, R455). -/
def accepted (st : Nat) (fine : Bool) (r : MReq) (s : State) : State :=
  if !fine then applied st r s
  else
    let (off, len) := fineSpan r
    if r.cut ≠ 0 ∧ 512 * (r.sector + 1) < off + len then failReq st r (if r.err = 0 then r.cut else r.err) s
    else setReq st { r with stage := 0, sector := r.sector + 1, committed := false, hdr := [] } s

/-- CHANNEL_WRITE_ACK: the channel has accepted the payload, then the header or tag (03 R79). -/
def writeAck (st acc : Nat) (s : State) : State :=
  match findReq s st acc with
  | none => s
  | some r =>
    let fine := (s.obj (handleIdx r.handle.toNat)).cls == 3
    if closed s st then s
    else if r.stage = 3 ∧ r.hdr ≠ [] then
      if s.isSafe st then pump st (cutWrite st r s)
      else pump st (setReq st { r with stage := 4, hdr := [] } (emit (.chanWrite st acc (headAddr fine r) r.hdr) s))
    else if r.stage = 3 ∨ r.stage = 4 then pump st (accepted st fine r s)
    else s

def execChannelWriteAck (st acc : Nat) (s : State) : Res := .next (writeAck st acc s)

/-- Fails every request that waits on a line with a code. -/
def failOnLine (st e code src : Nat) (s : State) : State :=
  each (s.memSt st).reqs (fun r s =>
    let o := s.obj (handleIdx r.handle.toNat)
    match placeOf o st with
    | some p =>
      if (r.stage = 0 ∨ r.stage = 5) ∧ (o.cls = 2 ∨ o.cls = 3) ∧
          entryOf p (slotOf o.cls ((chanOf s r.pslot).2 - p.first) 0).1 = e then
        failReq st r code (if src = 3 then faultEvent st 3 r.fence (BitVec.ofNat 64 r.pslot) s else s)
      else s
    | none => s) s

/-- LINE_FETCH_RETURN: the line's MAC and PARTITION field are checked (02 R53, R61; 03 R85), once the version key is at
hand (03 R87).  DESIGN CHOICE (log 132): the MAC is checked first, so that it decides when both checks fail. -/
def lineReturn (st e : Nat) (line : BitVec 512) (s : State) : State :=
  if closed s st || !(s.memSt st).fetching.contains e then s else
  let v := (s.memSt st).entry e
  match useVerKey st (vrtPart v) s with
  | (false, s) => s
  | (true, s) =>
    let s := s.onMem st fun m => { m with fetching := without m.fetching e }
    let l : Line := { entry := e, minors := line.extractLsb' 0 384, major := (line.extractLsb' 384 64).toNat }
    let owner := (lineOwner s st e).map fun x => (s.obj x.1).part
    if lineMac s st l (vrtPart v) (vrtRoot v) ≠ le 8 (line.extractLsb' 448 64).toNat then
      let s := faultEvent st 0x02 0xFFFF (BitVec.ofNat 64 e) s
      let s := s.onMem st fun m => { m with vrt := tset m.vrt e (vrtSetCond v 3), reseal := m.reseal.filter (fun x => x.1 != e),
                                            locks := m.locks.filter fun x => x.1 != e }
      pump st (failOnLine st e yeTagFail 2 s)
    else if owner ≠ some (vrtPart v) then pump st (failOnLine st e yeDenied 3 s)
    else
      let lost := (s.memSt st).marks.filter fun x => x.1 == e
      let l := if lost.isEmpty then l else lost.foldl (fun (a : Line) x => setMinor a x.2 1) { l with dirty := true }
      pump st (s.onMem st fun m => putLine { m with marks := m.marks.filter fun x => x.1 != e } l)

def execLineFetchReturn (st entry : Nat) (line : BitVec 512) (s : State) : Res := .next (lineReturn st entry line s)

/-- The region keys that a station's background work uses: those of the line at the head of its engine, and of the
sealed regions it moves (03 R87). -/
def engineKeys (s : State) (st : Nat) : List (Nat × Nat) :=
  let both (o : Obj) : List (Nat × Nat) := [(o.keySlot, (s.key o.keySlot).gen), (o.keySlot, (s.key o.keySlot).gen + 1)]
  (match (s.memSt st).reseal.head?.bind fun x => lineOwner s st x.1 with
    | some x => both (s.obj x.1)
    | none => []) ++
  (s.objs.filter fun o => o.2.cls == 1 && o.2.rekey.isSome && (placeOf o.2 st).isSome).flatMap fun o => both o.2

/-- The version keys of the lines that a station fetches (03 R87). -/
def fetchKeys (s : State) (st : Nat) : List (Nat × Nat) :=
  (s.memSt st).fetching.filterMap fun e => verKey s (vrtPart ((s.memSt st).entry e))

/-- A key of the cache that a request or background work of the station uses (06 R196). -/
def keyPinned (s : State) (st : Nat) (k : Nat × Nat) : Bool :=
  if isMem st then ((s.memSt st).reqs.any fun r => r.keySlot == k.1 && r.keyGen == k.2 && r.keyGen != 0) ||
    (engineKeys s st).contains k || (fetchKeys s st).contains k
  else if isLink st then
    let l := s.linkSt st
    let mine (part gen : Nat) : Bool := (tget {} l.jobs part).slot == k.1 && k.2 % 2 ^ 16 == gen
    l.held.any (fun h => (h.phase == 1 || h.phase == 2) && mine h.part h.gen) || l.bundles.any (fun b => mine b.part b.gen) ||
      l.waiting.any fun r => mine r.part (tget {} l.jobs r.part).gen
  else
    let of (i : Nat) : Bool := (tget {} s.host.ide i).slots.any fun y => y.2 == k.1
    s.host.reqs.any (fun x => x.2.2.any of) || s.host.answers.any (fun x => x.stream.any of) || s.host.waiting.any fun x => x.ide && of x.stream

/-- Room for a key: the least recently used key that nothing uses goes; none when all 256 are pinned (06 R196). -/
def keyRoom (st : Nat) (s : State) : Option (List (Nat × Nat)) :=
  let p := s.port st
  if p.keys.length < 256 then some p.keys
  else match p.keys.reverse.find? fun k => !keyPinned s st k with
    | some k => some (without p.keys k)
    | none => none

/-- The generation of a region's key that a waiting request will use (06 R202). -/
def waitsFor (s : State) (st : Nat) (r : MReq) (slot gen : Nat) : Bool :=
  let o := s.obj (handleIdx r.handle.toNat)
  (r.stage == 0 || r.stage == 5) && match placeOf o st with
    | none => false
    | some p =>
      let k := (chanOf s r.pslot).2 - p.first
      let i := if o.cls = 1 then k else (slotOf o.cls k 0).1
      let cursor := if o.cls = 1 then 0 else vrtCursor ((s.memSt st).entry (entryOf p i))
      (o.cls != 4 && keyGenFor s o p i cursor (if o.cls = 1 then 1 else (slotOf o.cls k r.sector).2) == (slot, gen)) ||
      ((o.cls == 2 || o.cls == 3) && (cachedLine (s.memSt st) (entryOf p i)).isNone && verKey s o.part == some (slot, gen))

/-- Fails the station's requests that wait on a key of a generation (06 R194). -/
def failOnKey (st slot gen code : Nat) (s : State) : State :=
  if isMem st then
    each ((s.memSt st).reqs.filter fun r => waitsFor s st r slot gen) (fun r s => failReq st r code s) s
  else s

/-- KEY_DELIVERY: the keep answers a station's request for a key (06 R194).  A half under purge is delivered no more
(06 R204). -/
def keyDelivery (st slot : Nat) (gen : BitVec 32) (s : State) : State :=
  let g := gen.toNat
  let p := s.port st
  if closed s st || !p.asked.contains (slot, g) then s else
  let k := s.key slot
  let drop (s : State) : State := s.onPort st fun p => { p with asked := without p.asked (slot, g) }
  if k.state ≠ 0 ∧ !mayHold st k.cls then
    failOnKey st slot g yeDenied (faultEvent st 0x0A 0xFFFF (BitVec.ofNat 64 slot) (drop s))
  else if k.state = 6 ∨ k.state = 0 then failOnKey st slot g yeKey (drop s)
  else if (k.state = 2 ∨ k.state = 3) ∧ g = k.gen + 1 then s
  else if (halfOf k g).isNone ∨ (k.purging = 2 ∧ g ≠ k.gen) ∨ k.purging = 1 then failOnKey st slot g yeKey (drop s)
  else match keyRoom st s with
  | none => s
  | some ks =>
    let s := drop (s.onPort st fun p => { p with keys := (slot, g) :: ks })
    if isMem st then pump st s else s


/-- DESCRIPTOR_REFILL: the descriptor arrives and the requests that missed are checked (03 R74). -/
def descRefill (st : Nat) (h : BitVec 32) (s : State) : State :=
  let oi := handleIdx h.toNat
  if closed s st || !((s.memSt st).reqs.any fun r => r.stage == 9 && handleIdx r.handle.toNat == oi) then s else
  let s := s.onMem st fun m => { m with descs := (oi :: without m.descs oi).take 128 }
  each ((s.memSt st).reqs.filter fun r => r.stage == 9 && handleIdx r.handle.toNat == oi) (fun r s => checkAndGo st r s) s

def execDescriptorRefill (st : Nat) (handle : BitVec 32) (s : State) : Res := .next (descRefill st handle s)

/-- A request that has neither issued its read nor committed (03 R88). -/
def uncommitted (r : MReq) : Bool :=
  if isWrite r.kind then r.stage != 3 && r.stage != 4 else r.stage == 0 || r.stage == 9

/-- REQUEST_TIMEOUT: 1 ms in the station (03 R88). -/
def requestTimeout (st : Nat) (tag : BitVec 10) (s : State) : State :=
  match (s.memSt st).reqs.find? fun r => r.tag == tag.toNat && uncommitted r && decide (r.born + Config.ms 1 ≤ s.now) with
  | none => s
  | some r => pump st (failReq st r yeTimeout (faultEvent st 0x08 r.fence (BitVec.ofNat 64 r.pslot) s))

def execRequestTimeout (st : Nat) (tag : BitVec 10) (s : State) : Res := .next (requestTimeout st tag s)

/-! ### Re-seal and re-key -/

/-- Background work may take a slot now: Open, and not at 1.6 GHz (01 R31; 03 R90, R103, R104). -/
def backgroundOk (s : State) (st : Nat) : Bool := decide (s.portState st = .opened) && s.clk.divider != 6

/-- Re-seals one stored slot from an old key and version to a new one, or reports the tag failure (02 R62, R64); a fine
slot's tag comes in its pair of tags (03 R77). -/
def resealStored (st : Nat) (o : Obj) (u sector : Nat) (zero : Bool) (k0 k1 : BitVec 256) (v0 v1 pol hslot : Nat)
    (addr : Nat) (hdr payload : Bytes) (s : State) : State :=
  let bad (s : State) : State := bump st 21 1 (faultEvent st 0x01 0xFFFF (BitVec.ofNat 64 u) s)
  let reads (n : Nat) (s : State) : State := if zero then s else bump st 7 n s
  if o.cls = 3 then
    let s := reads 544 s
    match (if zero then some (zeros 512) else openSector k0 u sector v0 (payload.take 512) (pairTag sector hdr)) with
    | none => bad s
    | some d =>
      let (c, t) := sealSector k1 u sector v1 d
      bump st 10 66 (bump st 8 528 (emit (.chanWrite st 0 (32 * hslot + 32 + 16 * sector) t) (emit (.chanWrite st 0 (addr + 512 * sector) c) s)))
  else
    let s := reads (32 + headerLen hdr) s
    match (if zero then some (8192, 0, zeros 8192) else openTile k0 u v0 pol hdr payload) with
    | none => bad s
    | some (l, f, d) =>
      let (h, c) := sealTile k1 u v1 pol l f d
      let n := tileBlocks (classCode pol l) (storedLen (classCode pol l) l)
      bump st 10 (if zero then n else 2 * n) (bump st 8 (c.length + 32) (emit (.chanWrite st 0 (32 * hslot) h) (emit (.chanWrite st 0 addr c) s)))

/-- The line's last slot is done: RESEAL clears, the condition is taken, and the tile locks of the overflow go (02 R62,
03 R83). -/
def endReseal (st e : Nat) (s : State) : State :=
  let v := (s.memSt st).entry e
  let mj := match cachedLine (s.memSt st) e with
    | some l => l.major
    | none => 0
  bump st 16 1 (s.onMem st fun m => { m with
    vrt := tset m.vrt e (vrtMake (vrtFine v) false (condOf (vrtFine v) mj (vrtRoot v)) (vrtPart v) (vrtRoot v)),
    reseal := m.reseal.filter (fun x => x.1 != e || x.2), locks := m.locks.filter fun x => x.1 != e })

/-- A committed write to the slot at `u` is not applied yet (03 R89). -/
def slotBusy (s : State) (st u : Nat) : Bool := (s.memSt st).reqs.any fun r => r.pslot == u && (r.stage == 3 || r.stage == 4)

/-- A queued move whose region is moved no longer: its re-key was abandoned (03 R95). -/
def staleMove (s : State) (st : Nat) (x : Nat × Bool) : Bool :=
  x.2 && match lineOwner s st x.1 with
    | some (oi, _, _) => (s.obj oi).rekey.isNone || (s.key (s.obj oi).keySlot).state != 4
    | none => true

/-- Lines that need no more work of the engine leave its queue. -/
def clearQueue (st : Nat) (s : State) : State :=
  s.onMem st fun m => { m with reseal := m.reseal.filter fun x => !staleMove s st x && (lineOwner s st x.1).isSome }

/-- RESEAL_SLOT: the re-seal engine carries the slot at CURSOR of the line at the head of its queue (02 R62, 03 R89).
DESIGN CHOICE (log 133): at 1.6 GHz it pauses before the next slot, as 03 R90 says of it, where 01 R31 says of background
work at large the next tile boundary: in a counted-fine line a slot is a sector. -/
def resealSlot (st : Nat) (hdr payload : Bytes) (s : State) : State :=
  let s := clearQueue st s
  match (s.memSt st).reseal with
  | (e, false) :: _ =>
    match lineOwner s st e, cachedLine (s.memSt st) e with
    | some (oi, p, line), some l =>
      let o := s.obj oi
      let v := (s.memSt st).entry e
      let i := vrtCursor v
      let k := line * lineTiles o.cls + (if o.cls = 3 then i / 16 else i)
      let tile := p.first + k
      let u := tileIndex s st tile
      let hs := p.hdr + hdrUnits o.cls * k
      if !backgroundOk s st || slotBusy s st u then s
      else
        let (slot, gen) := keyGenFor s o p line 0 32
        match useKey st slot gen s with
        | (none, s) => s
        | (some key, s) =>
          let s := if p.count ≤ k then s else resealStored st o u (i % 16) (l.major == 1 && minorOf l i == 0) key key
            (version (l.major - 1) (minorOf l i)) (version l.major 0) (policyOf s o) hs (tile * 8192) hdr payload s
          let s := s.onMem st fun m => putLine { m with
            vrt := tset m.vrt e (vrtMake (vrtFine v) true ((i + 1) % 32) (vrtPart v) (vrtRoot v)) } (setMinor l i 0)
          if i = 31 then pump st (endReseal st e s) else pump st s
    | _, none => askLine st e s
    | none, _ => s
  | _ => s

def execResealSlot (st : Nat) (hdr payload : List (BitVec 8)) (s : State) : Res := .next (resealSlot st hdr payload s)

/-- The line of a region that a report from a station is about: one in the condition that the cause names, else the line
at the re-key cursor. -/
def reportLine (s : State) (st oi cause : Nat) : Nat :=
  match placeOf (s.obj oi) st with
  | none => 0
  | some p =>
    let c := if cause = 2 ∨ cause = 4 then 2 else 1
    ((List.range (linesOf (s.obj oi).cls p.count)).find? fun i => vrtCond ((s.memSt st).entry (entryOf p i)) == c).getD p.moved

/-- REGION_REKEY_START: a report reaches the keep. Cause 1 a threshold, 2 a limit, 3 a root threshold, 4 a root limit
(02 R59, 03 R92, R93).  A report that the station has sent for the region with that cause is the one that arrives. -/
def rekeyStart (oi st : Nat) (cause : BitVec 8) (s : State) : State :=
  let c := cause.toNat
  let mine (x : Nat × Nat) : Bool := x.2 == c && ((lineOwner s st x.1).map fun y => y.1) == some oi
  let limit := c == 2 || c == 4
  let root := c == 3 || c == 4
  match (s.memSt st).reports.find? mine with
  | some x =>
    rekeyReport oi st (((lineOwner s st x.1).map fun y => y.2.2).getD 0) limit root
      (s.onMem st fun m => { m with reports := without m.reports x })
  | none => rekeyReport oi st (reportLine s st oi c) limit root s

def execRegionRekeyStart (obj station : Nat) (cause : BitVec 8) (s : State) : Res := .next (rekeyStart obj station cause s)

/-- Reports of a station that are still on their way reach the keep. -/
def takeReports (st : Nat) (s : State) : State :=
  each (s.memSt st).reports (fun x s =>
    match lineOwner s st x.1 with
    | none => s.onMem st fun m => { m with reports := without m.reports x }
    | some y => rekeyStart y.1 st (BitVec.ofNat 8 x.2) s) s

/-- The lowest free entry of a station, withheld ones passed over (02 R57, 03 R95). -/
def freeEntry (s : State) (st : Nat) : Option Nat :=
  seek (fun e => !vrtAlloc ((s.memSt st).entry e) && !(s.memSt st).withheld.contains e) 32768 0

/-- Leaves an entry withheld and takes a fresh one for a line. -/
def toFresh (st oi line e e' : Nat) (l : Line) (s : State) : State :=
  let v := (s.memSt st).entry e
  let v' := (s.memSt st).entry e'
  let s := s.onMem st fun m => putLine { m with
    vrt := tset (tset m.vrt e (vrtFree v)) e' (vrtMake (vrtFine v) false 0 (vrtPart v) (vrtRoot v')),
    withheld := e :: m.withheld, lines := m.lines.filter fun x => x.entry != e,
    reseal := m.reseal.map fun x => if x.1 = e then (e', x.2) else x } { l with entry := e', dirty := true }
  s.onObj oi fun o => onPlace o st fun p => { p with remap := tset p.remap line e' }

/-- A fresh entry for a line, with a way of the line cache for it; a station that has none says so once (03 R93). -/
def freshFor (st : Nat) (s : State) : Option Nat × State :=
  match freeEntry s st with
  | none => (none, if (s.word st).active.any (fun a => a.1 == 0x09) then s else faultEvent st 0x09 0xFFFF 0 s)
  | some e =>
    let (ok, s) := makeRoom st e (endCondition st 0x09 s)
    (if ok then some e else none, s)

/-- The line at the re-key cursor has been moved. -/
def lineMoved (st oi line e : Nat) (s : State) : State :=
  bump st 17 1 ((s.onMem st fun m => { m with reseal := m.reseal.filter (fun x => !(x == (e, true))) }).onObj oi fun o =>
    onPlace o st fun p => { p with moved := line + 1, moving := false })

/-- One tile of a sealed region's re-key (03 R96). -/
def moveTile (st oi : Nat) (o : Obj) (p : Place) (hdr payload : Bytes) (s : State) : State :=
  if p.count ≤ p.moved then s
  else
    let g := (s.key o.keySlot).gen
    match useKey st o.keySlot g s with
    | (none, s) => s
    | (some k0, s) =>
      match useKey st o.keySlot (g + 1) s with
      | (none, s) => s
      | (some k1, s) =>
        let tile := p.first + p.moved
        let s := resealStored st o (tileIndex s st tile) 0 false k0 k1 o.loadGen 1 (policyOf s o) (p.hdr + p.moved) (tile * 8192) hdr payload s
        pump st (s.onObj oi fun o => onPlace o st fun p => { p with moved := p.moved + 1 })

/-- A Broken line moves onto a fresh entry with every slot Unreadable (03 R93). -/
def moveBroken (st oi line e : Nat) (s : State) : State :=
  match freshFor st s with
  | (none, s) => s
  | (some e', s) =>
    let ones := (List.range 32).foldl (fun (a : Line) i => setMinor a i 1) { entry := e', major := 1 }
    pump st (lineMoved st oi line e' (toFresh st oi line e e' ones s))

/-- One slot of the line at a counted region's re-key cursor, the line being at the head of the engine's queue (03 R93):
a line that leaves its entry takes the fresh one first. -/
def moveSlot (st oi : Nat) (o : Obj) (p : Place) (line e : Nat) (l : Line) (hdr payload : Bytes) (s : State) : State :=
  if p.fresh ∧ !p.moving ∧ (tfind p.remap line).isNone then
    match freshFor st s with
    | (none, s) => s
    | (some e', s) => toFresh st oi line e e' l s
  else
    let v := (s.memSt st).entry e
    let i := if p.moving then vrtCursor v else 0
    let k := line * lineTiles o.cls + (if o.cls = 3 then i / 16 else i)
    let tile := p.first + k
    let u := tileIndex s st tile
    let g := (s.key o.keySlot).gen
    if slotBusy s st u then s
    else match useKey st o.keySlot g s with
    | (none, s) => s
    | (some k0, s) =>
      match useKey st o.keySlot (g + 1) s with
      | (none, s) => s
      | (some k1, s) =>
        let s := if p.count ≤ k then s else resealStored st o u (i % 16) (l.major == 0 && minorOf l i == 0) k0 k1
          (version l.major (minorOf l i)) (version 1 0) (policyOf s o) (p.hdr + hdrUnits o.cls * k) (tile * 8192) hdr payload s
        if i = 31 then
          let s := s.onMem st fun m => putLine { m with
            vrt := tset m.vrt e (vrtMake (vrtFine v) false (condOf (vrtFine v) 1 (vrtRoot v)) (vrtPart v) (vrtRoot v)) }
            { l with minors := 0, major := 1, dirty := true }
          pump st (lineMoved st oi line e s)
        else
          let s := s.onMem st fun m => putLine { m with
            vrt := tset m.vrt e (vrtMake (vrtFine v) true (i + 1) (vrtPart v) (vrtRoot v)) } { l with dirty := true }
          pump st (s.onObj oi fun o => onPlace o st fun p => { p with moving := true })

/-- REKEY_MOVE: one slot or tile of a region's re-key on a station (03 R93, R96).  A counted line's move takes its place in
the engine's queue when the cursor reaches the line, and goes on once it is at the head. -/
def rekeyMove (st oi : Nat) (hdr payload : Bytes) (s : State) : State :=
  let o := s.obj oi
  match placeOf o st, o.rekey with
  | some p, some _ =>
    if !backgroundOk s st ∨ (s.key o.keySlot).state ≠ 4 then s
    else if o.cls = 1 then moveTile st oi o p hdr payload s
    else if linesOf o.cls p.count ≤ p.moved then s
    else
      let line := p.moved
      let e := entryOf p line
      if vrtCond ((s.memSt st).entry e) = 3 then moveBroken st oi line e s
      else
        let s := clearQueue st s
        let s := if (s.memSt st).reseal.contains (e, true) ∨ 32 ≤ (s.memSt st).reseal.length then s
          else s.onMem st fun m => { m with reseal := m.reseal ++ [(e, true)] }
        if (s.memSt st).reseal.head? ≠ some (e, true) then s
        else match cachedLine (s.memSt st) e with
        | none => askLine st e s
        | some l => moveSlot st oi o p line e l hdr payload s
  | _, _ => s

def execRekeyMove (st obj : Nat) (hdr payload : List (BitVec 8)) (s : State) : Res := .next (rekeyMove st obj hdr payload s)

/-- Every placement of a region has been moved. -/
def allMoved (o : Obj) : Bool :=
  o.places.all fun p => decide ((if o.cls = 1 then p.count else linesOf o.cls p.count) ≤ p.moved)

/-- REGION_REKEY_COMMIT: the re-key has moved every placement, so the keep retires the old key (03 R95, 06 R202). -/
def rekeyCommit (oi : Nat) (s : State) : State :=
  let o := s.obj oi
  match o.rekey with
  | none => s
  | some k =>
    if !allMoved o ∨ (s.key o.keySlot).state ≠ 4 then s
    else commitSwap o.keySlot (dropDesc oi (s.onObj oi fun o => { o with
      rekey := none, wantRekey := o.wantRekey || k.again, loadGen := if o.cls = 1 then 1 else o.loadGen,
      places := o.places.map fun p => { p with moved := 0, fresh := false } }))

def execRegionRekeyCommit (obj : Nat) (s : State) : Res := .next (rekeyCommit obj s)

/-! ### Marks and cuts -/

/-- The mark of a Retiring slot reaches a station (03 R99, 06 R205). -/
def retiringMark (slot st : Nat) (s : State) : State :=
  if isMem st then s.onMem st fun m => { m with
    retSlots := slot :: without m.retSlots slot, descs := m.descs.filter fun oi => (s.obj oi).keySlot != slot || (s.obj oi).cls == 4 }
  else if isLink st then s.onLink st fun l => { l with jobs := tmap (fun _ j => if j.slot = slot ∧ j.state = 1 then { j with state := 2 } else j) l.jobs }
  else s

/-- The mark of a plain region that retires reaches a station (09 R322). -/
def plainMark (oi st : Nat) (s : State) : State :=
  s.onMem st fun m => { m with retObjs := oi :: without m.retObjs oi, descs := without m.descs oi }

/-- Cuts the requests that meet a test: unconfirmed reads and uncommitted writes fail, and a counted-fine write ends with
the sector it has committed (03 R99, R455). -/
def cutReqs (st code : Nat) (p : MReq → Bool) (s : State) : State :=
  let s := s.onMem st fun m => { m with reqs := m.reqs.map fun r => if p r && isWrite r.kind && !uncommitted r then { r with cut := code } else r }
  pump st (each ((s.memSt st).reqs.filter fun r => p r && (!isWrite r.kind || uncommitted r)) (fun r s => failReq st r code s) s)

/-- The freeze of a partition, or of one region, reaches a memory station (03 R101; 08 R278): writes not committed fail. -/
def freezePart (part st : Nat) (s : State) : State :=
  cutReqs st yeFrozen (fun r => isWrite r.kind && r.part == part) (s.onMem st fun m => { m with
    frzParts := part :: without m.frzParts part, descs := m.descs.filter fun oi => (s.obj oi).part != part })

def freezeRegion (oi st : Nat) (s : State) : State :=
  cutReqs st yeFrozen (fun r => isWrite r.kind && handleIdx r.handle.toNat == oi) (s.onMem st fun m => { m with
    frzObjs := oi :: without m.frzObjs oi, descs := without m.descs oi })

/-- A message of the keep reaches all its stations in one control clock (01 R17), unless what it says has ended. -/
def arrive (kind id : Nat) (s : State) : State :=
  match kind with
  | 0 => if (s.part id).state = 3 ∨ (s.part id).state = 4 then each Config.memIds (freezePart id) s else s
  | 1 => if (s.obj id).frozen then each Config.memIds (freezeRegion id) s else s
  | 2 => if (s.key id).state = 6 then each (holders (s.key id).cls) (retiringMark id) s else s
  | _ => if (s.obj id).cls = 4 ∧ ((s.obj id).state = 3 ∨ (s.part (s.obj id).part).state = 5) then each ((s.obj id).places.map (·.st)) (plainMark id) s else s

/-- The first `n` messages on their way arrive, in the order issued (01 R17). -/
def arriveFirst (n : Nat) (s : State) : State :=
  each (s.keepway.take n) (fun m s => arrive m.2.1 m.2.2 s) { s with keepway := s.keepway.drop n }

/-- A message of the keep arrives, and before it those issued earlier (01 R17). -/
def arriveUpTo (kind id : Nat) (s : State) : State :=
  match s.keepway.findIdx? fun m => m.2 == (kind, id) with
  | some i => arriveFirst (i + 1) s
  | none => s

/-- KEY_RETIRING_MARK: the mark of a slot, on its way, reaches the stations (03 R99, 06 R205). -/
def retireArrives (st slot : Nat) (s : State) : State := if (holders (s.key slot).cls).contains st then arriveUpTo 2 slot s else s

def execKeyRetiringMark (st slot : Nat) (s : State) : Res := .next (retireArrives st slot s)

/-- FREEZE_ARRIVAL: the freeze of a partition (`obj` 0) or of one region, on its way, reaches the memory stations. -/
def freezeArrival (st part obj : Nat) (s : State) : State :=
  if !isMem st then s else if obj ≠ 0 then arriveUpTo 1 obj s else arriveUpTo 0 part s

def execFreezeArrival (st part obj : Nat) (s : State) : Res := .next (freezeArrival st part obj s)

/-- Messages that have been under way for 33.3 ns have arrived (01 R17). -/
def keepwayTick (s : State) : State := arriveFirst (s.keepway.takeWhile fun m => decide (m.1 + 4 ≤ s.now)).length s

def underSlot (s : State) (slot : Nat) (r : MReq) : Bool :=
  r.keySlot == slot || ((s.obj (handleIdx r.handle.toNat)).cls != 4 && (s.obj (handleIdx r.handle.toNat)).keySlot == slot)

/-- PLAIN_REGION_DRAIN_CUT's condition at one station: no request of the region is held. -/
def plainDrained (s : State) (oi : Nat) : Bool :=
  (s.obj oi).places.all fun p => (s.memSt p.st).retObjs.contains oi &&
    !((s.memSt p.st).reqs.any fun r => handleIdx r.handle.toNat == oi)

/-- SAFE_STATE_ENTRY: a station that is in Safe cuts what the 100 ns bound catches; link bundles close (03 R104, 10 R338). -/
def safeMem (st : Nat) (s : State) : State :=
  each ((s.memSt st).reqs.filter fun r => r.stage == 3 && !r.hdr.isEmpty) (fun r s => cutWrite st r s) s

end Sys2Proof.Machine
end

