-- ==== Sys2Proof/Machine/Measure.lean ====
section
/-! DEFINITION. Measured loading and the accumulation descriptors: stripes, seals and reloads of sealed regions, and
ACC_OPEN and ACC_CLOSE (04; 02 R68). -/

namespace Sys2Proof.Machine
open Sys2Proof Sys2Proof.Crypto

/-! ### The measurement tree (04 R109) -/

/-- A node of the tree over its children. -/
def treeNode (h i : Nat) (kids : List Bytes) : Bytes :=
  sha384 ([1, BitVec.ofNat 8 h, BitVec.ofNat 8 kids.length] ++ le 4 i ++ kids.flatten)

/-- Groups of 16, in order. -/
def chunks16 {α : Type} : Nat → List α → List (List α)
  | 0, _ => []
  | _ + 1, [] => []
  | f + 1, l => l.take 16 :: chunks16 f (l.drop 16)

/-- Nodes of a level over `m` below, and the level's SHA-384 blocks for its node `i` (04 R109, R115). -/
def levelBlocks (m i : Nat) : Nat := (7 + 48 * min 16 (m - 16 * i) + 17 + 127) / 128

/-- The groups of levels 2 and above, in order, over `m` level-1 nodes: each group's SHA-384 blocks (04 R114). -/
def upperBlocks : Nat → Nat → List Nat
  | 0, _ => []
  | f + 1, m => if m ≤ 1 then [] else (List.range ((m + 15) / 16)).map (levelBlocks m) ++ upperBlocks f ((m + 15) / 16)

/-- The upper levels' work, spread over all memory stations: group n of a region goes to station n modulo their count
(04 R114).  DESIGN CHOICE (log 134): which group goes to which station. -/
def countUpper (m : Nat) (s : State) : State :=
  each (upperBlocks 8 m).zipIdx (fun x s => bump (x.2 % Config.memStations) 24 x.1 s) s

/-- Levels 2 and above over the nodes of level `h` (04 R109). -/
def treeRoot : Nat → Nat → List Bytes → Bytes
  | 0, _, l => l.getD 0 []
  | f + 1, h, l =>
    if l.length ≤ 1 then l.getD 0 []
    else treeRoot f (h + 1) ((chunks16 l.length l).zipIdx.map fun g => treeNode (h + 1) g.2 g.1)

/-- Stripes of a region of n tiles. -/
def stripes (n : Nat) : Nat := (n + 15) / 16

/-- MEASURED_HASH_COMPLETE: every tile of a stripe is hashed, and the station sends the level-1 node (04 R113). -/
def measuredHash (st oi stripe : Nat) (s : State) : State :=
  let o := s.obj oi
  let ks := (List.range 16).map (· + 16 * stripe) |>.filter fun k => decide (k < o.tiles)
  let here := match o.places[stripe % o.places.length]? with
    | some p => p.st == st
    | none => false
  if o.meas = 2 ∧ here = true ∧ ks ≠ [] ∧ (tfind o.nodes stripe).isNone ∧ ks.all (fun k => (tfind o.leaves k).isSome) then
    bump st 24 ((7 + 48 * ks.length + 17 + 127) / 128) (s.onObj oi fun o => { o with
      nodes := tset o.nodes stripe (treeNode 1 stripe (ks.map fun k => tget [] o.leaves k)),
      leaves := o.leaves.filter fun x => x.1 / 16 != stripe })
  else s

def execMeasuredHashComplete (st obj stripe : Nat) (s : State) : Res := .next (measuredHash st obj stripe s)

/-- Every placement's load cursor is at its tile count (02 R68). -/
def cursorsFull (o : Obj) : Bool := o.places.all fun p => p.cursor == p.count

/-- A seal taken earlier by a context of the same partition is not folded yet (04 R110). -/
def earlierSeal (s : State) (t : Taken) : Bool :=
  (s.taken.takeWhile fun x => !(x.q == t.q && x.seq == t.seq)).any fun x =>
    envOpcode x.e == 0x0402 && s.partOf x == s.partOf t && (s.obj (handleIdx (opnd x.e 0 4))).measured

/-- A region leaves Loading: a re-key that waited for it starts (03 R96). -/
def leaveLoading (oi : Nat) (s : State) : State :=
  let s := dropDesc oi (s.onObj oi fun o => { o with loading := false })
  if (s.obj oi).wantRekey then startRekey oi (s.obj oi).wantLimit [] s else s

/-- REGION_SEAL_FOLD: the keep folds the region's measurement into its partition's PMR (04 R110, R114). -/
def sealFold (oi : Nat) (s : State) : State :=
  match (runningWith s 0x0402 oi).head? with
  | none => s
  | some t =>
    let o := s.obj oi
    if o.meas = 1 then failCmd t yePoison s
    else if !o.loading ∨ o.meas ≠ 2 then failCmd t yeDenied s
    else if !cursorsFull o ∨ o.nodes.length ≠ stripes o.tiles ∨ earlierSeal s t then s
    else
      let root := treeRoot 8 1 (o.nodes.map (·.2))
      let mr := sha384 ([2, BitVec.ofNat 8 o.kind] ++ le 2 o.label ++ le 4 o.tiles ++ root)
      let s := s.onPart o.part fun p => { p with pmr := sha384 (fit 48 p.pmr ++ mr) }
      done t mr (leaveLoading oi (countUpper o.nodes.length (s.onObj oi fun o => { o with meas := 3, mr := mr })))

def execRegionSealFold (obj : Nat) (s : State) : Res := .next (sealFold obj s)

/-- REGION_SEAL (02 R68; 04 R114, Table 4.1): before every load cursor is full it fails with YE_DENIED, as 02 R68 and the
codes of 04 Table 4.8 say (log 30). -/
def bodyRegionSeal : Body := fun t _ _ s =>
  let oi := handleIdx (opnd t.e 0 4)
  let o := s.obj oi
  if opnd t.e 0 4 = 0 then failCmd t yeStale s
  else if o.cls ≠ 1 ∨ !o.loading then failCmd t yeDenied s
  else if o.meas = 1 then failCmd t yePoison s
  else if !cursorsFull o then failCmd t yeDenied s
  else if o.measured then keepRunning t oi s
  else done t [] (leaveLoading oi s)

def execRegionSeal (q : Nat) (e : BitVec 1024) (rc : BitVec 16) (inp : List (BitVec 8)) (s : State) : Res :=
  .next (takeCmd 0x0402 bodyRegionSeal q e rc inp s)

/-- A region frozen for writes (08 R278, R272). -/
def writeFrozen (s : State) (o : Obj) : Bool :=
  o.frozen || o.landing || (s.part o.part).state == 3 || (s.part o.part).state == 4

/-- A new load generation (02 R68, R59; 04 Table 4.1). -/
def reload (oi : Nat) (s : State) : State :=
  let s := dropDesc oi <| s.onObj oi fun o => { o with
    loading := true, loadGen := o.loadGen + 1, wantReload := false, leaves := [], nodes := [],
    meas := if o.measured then 2 else 0, mr := [], places := o.places.map fun p => { p with cursor := 0 } }
  if 2 ^ 63 ≤ (s.obj oi).loadGen then noteRekey oi false [] (keyThreshold (s.obj oi).keySlot s) else s

/-- REGION_RELOAD; one taken during a re-key waits until the re-key ends (03 R96). -/
def bodyRegionReload : Body := fun t _ _ s =>
  let oi := handleIdx (opnd t.e 0 4)
  let o := s.obj oi
  if opnd t.e 0 4 = 0 then failCmd t yeStale s
  else if o.cls ≠ 1 then failCmd t yeDenied s
  else if writeFrozen s o then failCmd t yeFrozen s
  else if o.rekey.isSome then keepRunning t oi (s.onObj oi fun o => { o with wantReload := true })
  else if 2 ^ 64 - 1 ≤ o.loadGen then failCmd t yeExhausted s
  else done t [] (reload oi s)

def execRegionReload (q : Nat) (e : BitVec 1024) (rc : BitVec 16) (inp : List (BitVec 8)) (s : State) : Res :=
  .next (takeCmd 0x0401 bodyRegionReload q e rc inp s)

/-- Reloads that waited on a re-key run when it has ended. -/
def reloadWaiting (oi : Nat) (s : State) : State :=
  each (runningWith s 0x0401 oi) (fun t s =>
    if writeFrozen s (s.obj oi) then failCmd t yeFrozen s else done t [] (reload oi s)) s

/-! ### Accumulation descriptors (04 R119 to R132) -/

/-- Frees a descriptor in the keep and at every station. -/
def freeAcc (d : Nat) (s : State) : State :=
  let oi := handleIdx (tget {} s.accs d).handle.toNat
  { s with accs := tdel s.accs d, mem := tmap (fun _ m => { m with accs := tdel m.accs d }) s.mem,
           objs := tmap (fun i o => if i = oi then { o with refs := o.refs - 1 } else o) s.objs }

/-- ACC_OPEN (04 R120, R133). -/
def bodyAccOpen : Body := fun t _ _ s =>
  let h := opnd t.e 0 4
  let oi := handleIdx h
  let o := s.obj oi
  let mode := opnd t.e 4 1
  let ex := BitVec.ofNat 8 (opnd t.e 5 1)
  let bs := opnd t.e 6 1
  let mask := BitVec.ofNat 8 (opnd t.e 7 1)
  let sf := opnd t.e 8 2
  if h = 0 then failCmd t yeStale s
  else if ¬ (o.cls = 2 ∨ o.cls = 4) ∨ ¬ (mode = 1 ∨ mode = 2) ∨ (mode = 2 ∧ ex ≠ 0) ∨ bs = 0 ∨ 63 < bs ∨ 64 ≤ mask.toNat then failCmd t yeDenied s
  else match lowFree s.accs 0 64 with
  | none => failCmd t yeQuota s
  | some d =>
    let a : Acc := { state := 1, mode := mode, e := ex, bs := bs, mask := mask, fence := sf,
                     ctx := (s.queue t.q).ctx, handle := BitVec.ofNat 32 h }
    let s := { s with accs := tset s.accs d a }
    let s := each o.places (fun p s => s.onMem p.st fun m => { m with accs := tset m.accs d { state := 1 } }) s
    done t [BitVec.ofNat 8 d] (s.onObj oi fun o => { o with refs := o.refs + 1 })

def execAccOpen (q : Nat) (e : BitVec 1024) (rc : BitVec 16) (inp : List (BitVec 8)) (s : State) : Res :=
  .next (takeCmd 0x0410 bodyAccOpen q e rc inp s)

/-- A descriptor's counters over its stations (04 R119). -/
def accSums (s : State) (d : Nat) : AccCopy :=
  s.mem.foldl (fun a m =>
    let c := tget {} m.2.accs d
    { state := 0, applied := a.applied + c.applied, refused := a.refused + c.refused, convSat := a.convSat + c.convSat,
      addSat := a.addSat + c.addSat, tagFails := a.tagFails + c.tagFails }) {}

/-- No station holds a request that names the descriptor. -/
def accDrained (s : State) (d : Nat) : Bool :=
  s.mem.all fun m => !(m.2.reqs.any fun r => r.kind == 5 && r.desc == d)

/-- The close of a descriptor reaches every station (04 Table 4.7). -/
def closeAcc (d : Nat) (s : State) : State :=
  { s with accs := tmap (fun i a => if i = d then { a with state := 2 } else a) s.accs,
           mem := tmap (fun _ m => { m with accs := tmap (fun i c => if i = d then { c with state := 2 } else c) m.accs }) s.mem }

/-- The drain has ended: the stream fence completes and the descriptor is free (04 R131). -/
def endAcc (d : Nat) (s : State) : State :=
  let c := accSums s d
  let sf := (tget {} s.accs d).fence
  let s := if c.tagFails ≠ 0 then fenceFail sf yeTagFail (detailAcc c.tagFails c.addSat) s
    else if c.convSat ≠ 0 ∨ c.addSat ≠ 0 then fenceFail sf yeSaturated (detailAcc c.convSat c.addSat) s
    else fenceComplete sf s
  freeAcc d s

def accResult (c : AccCopy) : Bytes :=
  le 8 (min (two64 - 1) c.applied) ++ le 8 (min (two64 - 1) c.refused) ++ le 8 (min (two64 - 1) c.convSat) ++
    le 8 (min (two64 - 1) c.addSat)

/-- Completes an ACC_CLOSE whose descriptor has drained. -/
def settleAcc (t : Taken) (s : State) : State :=
  if accDrained s t.aux then done t (accResult (accSums s t.aux)) (endAcc t.aux s) else s

/-- Descriptors that a station's reset has closed are free once the other stations have drained (04 R132). -/
def settleClosed (s : State) : State :=
  each ((s.accs.filter fun a => a.2.state == 2 && (runningWith s 0x0411 a.1).isEmpty && accDrained s a.1).map (·.1)) freeAcc s

/-- ACC_CLOSE (04 R131, R132): the descriptor is Closing at every station from now on, and is free when its drain has
ended, at the next tick at the earliest, so that an accumulate of this instant is refused and counted (04 Table 4.9). -/
def bodyAccClose : Body := fun t _ _ s =>
  let d := opnd t.e 0 1
  let a := tget {} s.accs d
  if a.state ≠ 1 ∨ (s.obj (handleIdx a.handle.toNat)).part ≠ s.partOf t then failCmd t yeDenied s
  else keepRunning t d (closeAcc d s)

def execAccClose (q : Nat) (e : BitVec 1024) (rc : BitVec 16) (inp : List (BitVec 8)) (s : State) : Res :=
  .next (takeCmd 0x0411 bodyAccClose q e rc inp s)

end Sys2Proof.Machine
end

