-- ==== Sys2Proof/Machine/LinkOps.lean ====
section
/-! DEFINITION. The link station's shared operations: packets, stream contexts, sending, bundles, trackers and the
translation of remote operations to the part's own memory path (05). -/

namespace Sys2Proof.Machine
open Sys2Proof Sys2Proof.Crypto

/-! ### Packets (05 Tables 5.4 to 5.8, 5.10) -/

def opHdr (opcode flags len trk aux handle off : Nat) : Bytes :=
  le 1 opcode ++ le 1 flags ++ le 2 len ++ le 2 trk ++ le 1 aux ++ le 4 handle ++ le 5 off

/-- The epoch word and sequence: IV bits [63:0] (05 R144). -/
def seqField (dst : Nat) (resp : Bool) (gen seq : Nat) : Nat :=
  dst * 2 ^ 46 + (if resp then 2 ^ 45 else 0) + (gen % 512) * 2 ^ 36 + seq
def linkIv (src sepoch word : Nat) : Bytes := be 12 (src * 2 ^ 78 + sepoch * 2 ^ 64 + word)

/-- The 32 header bytes of a packet, the length field as given. -/
def packetHdr (cls dst dport src sport len keyIndex gen sepoch word : Nat) : Bytes :=
  le 4 (dst + dport * 2 ^ 18 + cls * 2 ^ 24) ++ le 4 (src + sport * 2 ^ 18) ++ le 2 len ++ zeros 6 ++
  le 2 keyIndex ++ le 2 gen ++ le 2 sepoch ++ le 2 0 ++ le 8 word

/-- The full generation of a job key slot that a 16-bit generation names. -/
def gen32 (k : KeySlot) (g : Nat) : Nat :=
  if k.gen % 2 ^ 16 = g then k.gen else if (k.gen + 1) % 2 ^ 16 = g then k.gen + 1 else k.gen - 1

/-- The class of a wire opcode (05 Table 5.8); Rotate's class follows its space. -/
def wireClass (op : Nat) (resp : Bool) : Nat :=
  if op = 0xC1 then (if resp then 4 else 1)
  else if 0xC0 ≤ op then 4 else if 0x80 ≤ op then 2 else if op = 7 ∨ op = 8 then 3 else 1

def jobOf (s : State) (st part : Nat) : Job := tget {} (s.linkSt st).jobs part
def onJob (s : State) (st part : Nat) (f : Job → Job) : State := s.onLink st fun l => { l with jobs := tupd {} l.jobs part f }

/-- A new domain stream mark at a station; a job that waited for it goes on (05 R151, R152). -/
def raiseMark (m : Nat) (j : Job) : Job :=
  if j.mark < m then { j with mark := m, startMark := if j.stalled then m else j.startMark, stalled := false } else j

/-- Charges a packet's sealed section to its partition: 6 sent, 7 applied.  The packets of a handoff's copy are background work
(08 R287). -/
def meterPacket (part i : Nat) (copy : Bool) (n : Nat) (s : State) : State := if copy then s else addMeter part i n s

/-- Seals and emits one packet to a port of its destination; the invocation count rises (05 R140, R144, R145, R174). -/
def sendPacket (st part peer dport cls : Nat) (resp : Bool) (gen sepoch seq : Nat) (sect : Bytes) (s : State) : State :=
  let j := jobOf s st part
  let k := s.key j.slot
  let key := (halfOf k (gen32 k gen)).getD 0
  let word := seqField peer resp gen seq
  let hdr (n : Nat) := packetHdr cls peer dport j.own (st - 0x80) n j.keyIndex gen sepoch word
  let (c, t) := gcmSeal key (linkIv j.own sepoch word) (hdr 0) sect
  let s := emit (.packet st (hdr sect.length ++ c ++ t)) s
  let s := meterPacket part 6 (cls == 3 && s.handoffs.any fun h => h.offerer && h.state == 2 && h.part == part && h.peer == peer &&
    h.landing == ofLe (cut 7 4 sect)) sect.length (bump st 5 sect.length (bump st 3 1 s))
  let s := onJob s st part fun j => { j with invocations := if gen = j.gen then j.invocations + 1 else j.invocations }
  if gen = j.gen ∧ j.invocations + 1 = 2 ^ 35 then keyThreshold j.slot (s.onDom part fun d => { d with askRot := some 1 }) else s

/-! ### Stream contexts (05 R146 to R150) -/

def sameCtx (part peer : Nat) (ing resp : Bool) (c : Ctxt) : Bool :=
  c.part == part && c.peer == peer && c.ingress == ing && c.response == resp
def findCtx (l : LinkSt) (part peer : Nat) (ing resp : Bool) : Option Ctxt := l.ctxs.find? (sameCtx part peer ing resp)
/-- Writes a context, most recently used first. -/
def putCtx (c : Ctxt) (l : LinkSt) : LinkSt :=
  { l with ctxs := c :: l.ctxs.filter fun x => !sameCtx c.part c.peer c.ingress c.response x }

/-- A stream context as 05 Table 5.11 lays it out. -/
def ctxBytes (c : Ctxt) : Bytes :=
  let bit (b : Bool) (n : Nat) : Nat := if b then 2 ^ n else 0
  le 11 (c.seq + c.sepoch * 2 ^ 36 + c.peer * 2 ^ 50 + c.part * 2 ^ 68 + bit c.genBit 80 + c.state * 2 ^ 81 + bit c.ingress 84 +
    bit c.response 85 + bit c.flagWait 86 + bit c.gather 87)

/-- Where a space's record stands in its job's backing region, and the record (05 R148). -/
def recordIdx (c : Ctxt) : Nat := 4 * c.peer + (if c.ingress then 2 else 0) + (if c.response then 1 else 0)
def recordBytes (c : Ctxt) : Bytes := ctxBytes c ++ le 2 c.gen ++ zeros 3

/-- Writes a context's record to the job's backing region. -/
def putRecord (st : Nat) (c : Ctxt) (s : State) : State :=
  emit (.recordWrite st c.part (recordIdx c) (recordBytes c))
    { s with backing := c :: s.backing.filter fun x => !sameCtx c.part c.peer c.ingress c.response x }

/-- Changes the record of a space that has one. -/
def onRecord (st part peer : Nat) (ing resp : Bool) (f : Ctxt → Ctxt) (s : State) : State :=
  match s.backing.find? (sameCtx part peer ing resp) with
  | some c => putRecord st (f c) s
  | none => s

def heldFor (c : Ctxt) (h : Held) : Bool := c.ingress && h.part == c.part && h.peer == c.peer && h.response == c.response
def ofInstance (c : Ctxt) (h : Held) : Bool := heldFor c h && h.gen == c.gen && h.sepoch == c.sepoch

/-- A context that may be evicted (05 R148). -/
def evictable (l : LinkSt) (c : Ctxt) : Bool :=
  c.state == 2 && !c.flagWait && !c.gather && !(l.held.any (heldFor c)) &&
  !(l.trackers.any fun t => t.2.part == c.part && t.2.peer == c.peer && c.ingress == c.response)

/-- A miss: the least recently used evictable context makes room and the missing one is Filling; false when every
context is pinned. -/
def askCtx (st part peer : Nat) (ing resp : Bool) (s : State) : Bool × State :=
  let l := s.linkSt st
  let c : Ctxt := { part := part, peer := peer, ingress := ing, response := resp, state := 1, st := st }
  let fill (s : State) : State := emit (.recordRead st part (recordIdx c)) (bump st 21 1 (s.onLink st (putCtx c)))
  if l.ctxs.length < 8192 then (true, fill s)
  else match l.ctxs.reverse.find? (evictable l) with
  | none => (false, s)
  | some v =>
    let s := putRecord st v (s.onLink st fun l => { l with
      ctxs := l.ctxs.filter fun x => !sameCtx v.part v.peer v.ingress v.response x })
    (true, fill (bump st 20 1 s))

/-- A space's record as the part knows it: the context that another station holds for it, else the backing region's. -/
def newestRecord (s : State) (st : Nat) (c : Ctxt) : Option Ctxt :=
  (s.link.findSome? fun l => if l.1 = st then none else
    (findCtx l.2 c.part c.peer c.ingress c.response).filter fun x => x.state != 1).orElse fun _ =>
    s.backing.find? (sameCtx c.part c.peer c.ingress c.response)

/-- The record of a context as it enters after a refill (05 R148): Lost when the peer is listed and the instance is older
than its loss (R178), Open when its instance is this station's and goes on, else Closed. -/
def refillCtx (s : State) (st : Nat) (c : Ctxt) : Ctxt :=
  let r := (newestRecord s st c).getD { c with state := 3 }
  let j := jobOf s st c.part
  let lost := (s.linkSt st).lost.any fun x => x.1 == c.part && x.2.1 == c.peer && (r.gen != j.gen || decide (r.sepoch < x.2.2))
  { r with state := if lost then 5 else if r.state = 2 ∧ r.st = st ∧ (c.ingress ∨ r.gen = j.gen) then 2 else 3,
           st := st, flagWait := false, gather := false, final := none }

/-! ### Keys (06 R194 to R196) -/

/-- Uses a job key half from the station's cache, or asks the keep for it. -/
def linkKey (st slot g : Nat) (s : State) : Option (BitVec 256) × State := askKey st slot (gen32 (s.key slot) g) s

/-! ### Checks at the source (05 Table 5.3) -/

def tracked (kind : Nat) : Bool := kind == 1 || kind == 3 || kind == 4 || kind == 6

/-- Step 1: a reserved kind, or a field the kind does not use is non-zero. -/
def linkBad (r : LReq) : Bool :=
  let z (n : Nat) : Bool := n != 0
  match r.kind with
  | 1 => r.flagged || z r.akind || z r.desc
  | 2 => z r.tag || z r.engine || z r.slot || z r.akind || z r.desc
  | 3 => r.flagged || z r.desc || r.akind == 0 || decide (8 < r.akind)
  | 4 => r.flagged || z r.akind || z r.desc
  | 5 => r.flagged || z r.tag || z r.engine || z r.slot || z r.akind
  | 6 => r.flagged || z r.akind || z r.desc || r.handle != 0 || z r.off || z r.len
  | _ => true

/-- Step 8: lengths, tile boundaries and atomic alignment. -/
def linkLenBad (r : LReq) : Bool :=
  let cross := decide (8192 < r.off % 8192 + r.len)
  match r.kind with
  | 1 | 2 => r.len == 0 || decide (4096 < r.len) || cross
  | 3 => !(r.len == 8 || r.len == 16) || r.off % r.len != 0 || cross
  | 4 | 5 => r.len == 0 || decide (8192 < r.len)
  | _ => false

/-- The code of the first failing step, or 0. -/
def linkCheck (s : State) (st : Nat) (r : LReq) : Nat :=
  let l := s.linkSt st
  let j := tget {} l.jobs r.part
  if linkBad r ∨ (r.handle = 0 ∧ r.kind ≠ 6) then yeDenied
  else if j.state = 0 then yeDenied
  else if j.state = 2 then yeKey
  else if leaseCheck l.port r.epoch r.part ≠ 0 then leaseCheck l.port r.epoch r.part
  else if l.lost.any fun x => x.1 == r.part && x.2.1 == r.dst then yeLost
  else if r.dst = j.own ∨ (tracked r.kind ∧ (384 ≤ r.slot ∨ (l.trackers.any fun t => t.2.engine == r.engine && t.2.slot == r.slot) ∨
      (l.waiting.any fun x => tracked x.kind && x.wire < 0x80 && x.engine == r.engine && x.slot == r.slot))) then yeDenied
  else if linkLenBad r then yeLength
  else 0

/-! ### Answers and trackers (05 R165, R166) -/

/-- A command that ends with Flushes completes when the last is answered, with what its fence has gathered (05 R182). -/
def flushAnswered (q seq : Nat) (s : State) : State :=
  match s.taken.find? fun t => t.q == q && t.seq == seq with
  | none => s
  | some t => if 1 < t.aux then keepRunning t (t.aux - 1) s else completeReported t t.inp s

/-- Gives a tracked request's answer to whoever waits for it. -/
def giveAnswer (st engine slot tag fence part peer seq code : Nat) (data : Bytes) (s : State) : State :=
  let s := if code = 0 then s else fenceReport fence part code (detailLink st peer seq) s
  if engine = 4096 then flushAnswered slot tag s
  else if engine = 4097 then
    { s with handoffs := s.handoffs.map fun h =>
      if h.offerer ∧ h.state = 2 ∧ h.num = tag ∧ h.peer = peer ∧ h.tiles < h.sent then { h with got := some (code, []) } else h }
  else emit (.answer st engine slot tag code data) s

/-- Ends a tracker with an answer or a failure. -/
def endTracker (st i code : Nat) (data : Bytes) (s : State) : State :=
  match tfind (s.linkSt st).trackers i with
  | none => s
  | some t =>
    let s := s.onLink st fun l => { l with
      trackers := tdel l.trackers i,
      port := if l.port.stopped then { l.port with stop := { l.port.stop with completed := l.port.stop.completed + 1 } } else l.port }
    let n := data.length
    let s := profCount st t.part t.fence t.layer t.oper
      [0, 0, n, if n = 0 then 0 else (n + 31) / 16 + 1, if n = 0 then 0 else n + 64, 0, if code = 0 then 0 else 1] s
    giveAnswer st t.engine t.slot t.tag t.fence t.part t.peer t.seq code data s

/-- Fails every tracker that meets a test. -/
def failTrackers (st code : Nat) (p : Tracker → Bool) (s : State) : State :=
  each ((s.linkSt st).trackers.filter fun t => p t.2) (fun t s => endTracker st t.1 code [] s) s

/-- A request fails before it is sent; what the station itself sends, answers and Rotates, is no request. -/
def refuseLink (st : Nat) (r : LReq) (code : Nat) (s : State) : State :=
  if r.resp || r.wire == 0xC1 then s
  else
  let s := profCount st r.part r.fence r.layer r.oper [0, 0, 0, 0, 0, 0, 1] s
  if tracked r.kind then giveAnswer st r.engine r.slot r.tag r.fence r.part r.dst 0 code [] s
  else fenceReport r.fence r.part code (detailLink st r.dst 0) s

/-! ### Bundles (05 R167, R168) -/

def bundleOf (l : LinkSt) (part peer : Nat) : Option Bundle := l.bundles.find? fun b => b.part == part && b.peer == peer

/-- Closes and sends a bundle. -/
def closeBundle (st : Nat) (b : Bundle) (s : State) : State :=
  let sect := b.ops.take (b.lastHdr + 1) ++ [(b.ops.getD (b.lastHdr + 1) 0) ||| 4] ++ b.ops.drop (b.lastHdr + 2)
  let s := s.onLink st fun l => { l with
    bundles := l.bundles.filter fun x => !(x.part == b.part && x.peer == b.peer),
    ctxs := l.ctxs.map fun c => if sameCtx b.part b.peer false false c then { c with gather := false } else c }
  let s := if 2 ≤ b.entries then bump st 23 b.entries (bump st 22 1 s) else s
  sendPacket st b.part b.peer b.port 1 false b.gen b.sepoch b.seq sect s

def closeBundles (st : Nat) (p : Bundle → Bool) (s : State) : State :=
  each ((s.linkSt st).bundles.filter p) (fun b s => closeBundle st b s) s

/-! ### Sending -/

/-- Padded to 16 bytes, the padding sealed (05 R141). -/
def storeOp (flags : Nat) (r : LReq) : Bytes := opHdr 2 flags r.len r.fence 0 r.handle.toNat r.off ++ pad16 (fit r.len r.data)

/-- Takes the next sequence of an egress context. -/
def takeSeq (st : Nat) (c : Ctxt) (s : State) : State := s.onLink st (putCtx { c with seq := c.seq + 1 })

/-- Sends an operation, in two packets when its data is longer than 4,096 bytes (05 R142). -/
def sendOp (st : Nat) (c : Ctxt) (opcode flags len trk aux handle off : Nat) (data : Bytes) (s : State) : State :=
  let cls := wireClass opcode c.response
  if data.length ≤ 4096 then
    sendPacket st c.part c.peer c.port cls c.response c.gen c.sepoch c.seq (opHdr opcode (flags + 4) len trk aux handle off ++ pad16 data)
      (takeSeq st c s)
  else
    let s := sendPacket st c.part c.peer c.port cls c.response c.gen c.sepoch c.seq
      (opHdr opcode (flags + 4 + 2) 4096 trk aux handle off ++ data.take 4096) (takeSeq st c s)
    let c := { c with seq := c.seq + 1 }
    sendPacket st c.part c.peer c.port cls c.response c.gen c.sepoch c.seq
      (opHdr opcode (flags + 4) (len - 4096) trk aux handle off ++ pad16 (data.drop 4096)) (takeSeq st c s)

/-- Joins a Store to the open bundle of its space, or opens one. -/
def bundleStore (st : Nat) (c : Ctxt) (r : LReq) (s : State) : State :=
  let op := storeOp (8 + (if r.flagged then 1 else 0)) r
  let n := op.length - 16
  let open_ (s : State) : State :=
    let b : Bundle := { part := r.part, peer := r.dst, port := c.port, epoch := r.epoch, gen := c.gen, sepoch := c.sepoch, seq := c.seq,
                        openAt := s.now, ops := op, entries := 1, dataLen := n, lastHdr := 0 }
    let s := takeSeq st { c with gather := true } s
    let s := s.onLink st fun l => { l with bundles := l.bundles ++ [b] }
    if r.flagged then closeBundle st b s else s
  match bundleOf (s.linkSt st) r.part r.dst with
  | none => open_ s
  | some b =>
    if 4096 < b.dataLen + n ∨ 32 ≤ b.entries then open_ (closeBundle st b s)
    else
      let b' := { b with ops := b.ops ++ op, entries := b.entries + 1, dataLen := b.dataLen + n, lastHdr := b.ops.length }
      let s := s.onLink st fun l => { l with bundles := l.bundles.map fun x => if x.part = b.part ∧ x.peer = b.peer then b' else x }
      if r.flagged then closeBundle st b' s else s

/-- The lowest free tracker. -/
def freeTracker (l : LinkSt) : Option Nat := lowFree l.trackers 0 4096

/-- The context a sendable request has now: Open under the job's current generation. -/
def egress (s : State) (st : Nat) (r : LReq) : Option Ctxt :=
  match findCtx (s.linkSt st) r.part r.dst false r.resp with
  | some c => if c.state = 2 ∧ c.gen = (jobOf s st r.part).gen then some c else none
  | none => none

/-- Sends one request through its Open context. -/
def sendReq (st : Nat) (r : LReq) (c : Ctxt) (s : State) : State :=
  let j := jobOf s st r.part
  let n := if r.kind = 1 then 0 else r.data.length
  let s := if r.resp ∨ r.wire = 0xC1 then s else profCount st r.part r.fence r.layer r.oper [0, n, 0, (n + 31) / 16 + 1, n + 64] s
  let small := r.wire = 2 ∧ r.len ≤ 512 ∧ j.flush ≠ 0 ∧ r.handle ≠ 0 ∧
    ((bundleOf (s.linkSt st) r.part r.dst).isSome ∨ (s.linkSt st).bundles.length < 64)
  if small then bundleStore st c r s
  else
    let s := closeBundles st (fun b => !r.resp && b.part == r.part && b.peer == r.dst) s
    if r.resp ∨ r.wire = 0xC1 then sendOp st c r.wire r.kind r.data.length r.tag r.aux 0 0 r.data s
    else if tracked r.kind then
      match freeTracker (s.linkSt st) with
      | none => s
      | some i =>
        let t : Tracker := { part := r.part, peer := r.dst, engine := r.engine, slot := r.slot, tag := r.tag, kind := r.kind,
                             fence := r.fence, epoch := r.epoch, sentAt := s.now, seq := c.seq, gen := c.gen,
                             layer := r.layer, oper := r.oper }
        let s := s.onLink st fun l => { l with trackers := tset l.trackers i t }
        sendOp st c r.wire 0 r.len i r.akind r.handle.toNat r.off (if r.kind = 3 then fit r.len r.data else []) s
    else if r.wire = 7 then sendOp st c 7 0 r.len r.tag r.aux r.handle.toNat r.off (fit r.len r.data) s
    else if r.wire = 5 then sendOp st c 5 8 r.len r.fence r.desc r.handle.toNat r.off (fit r.len r.data) s
    else sendOp st c r.wire (8 + (if r.flagged then 1 else 0)) r.len r.fence r.aux r.handle.toNat r.off (fit r.len r.data) s

/-- The station may seal no more packets for a request's job under its generation (05 R174): those sealed, those that open
bundles have taken, and the one or two of the request. -/
def atLimit (l : LinkSt) (r : LReq) : Bool :=
  let j := tget {} l.jobs r.part
  decide (2 ^ 36 - 1 < j.invocations + (l.bundles.filter fun b => b.part == r.part).length + (if 4096 < r.data.length then 2 else 1))

/-- A tracked request finds every tracker held (05 R166). -/
def trackerless (l : LinkSt) (r : LReq) : Bool := tracked r.kind && !r.resp && decide (r.wire < 0x80) && (freeTracker l).isNone

/-- One waiting request: sent, failed, or still waiting (05 R139, R149, R166, R174). -/
def trySend (st : Nat) (r : LReq) (s : State) : Bool × State :=
  let l := s.linkSt st
  let j := tget {} l.jobs r.part
  if s.portState st = .safe ∨ s.portState st = .closed then (false, s)
  else if j.state ≠ 1 then (true, refuseLink st r yeKey s)
  else if j.stalled ∨ atLimit l r ∨ trackerless l r then (false, s)
  else match findCtx l r.part r.dst false r.resp with
  | none => (false, (askCtx st r.part r.dst false r.resp s).2)
  | some _ =>
    match egress s st r with
    | none => (false, s)
    | some c =>
      match linkKey st j.slot j.gen s with
      | (none, s) => (false, s)
      | (some _, s) => (true, sendReq st r c s)

/-- Waiting requests in order; one that waits holds back the later ones of its space, but one that waits for a tracker lets
posted kinds pass (05 R166). -/
def sendWaiting (st : Nat) : List LReq → List (Nat × Nat × Bool) → State → List LReq × State
  | [], _, s => ([], s)
  | r :: rs, held, s =>
    if held.contains (r.part, r.dst, r.resp) then
      let (l, s) := sendWaiting st rs held s
      (r :: l, s)
    else match trySend st r s with
    | (true, s) => sendWaiting st rs held s
    | (false, s) =>
      let (l, s) := sendWaiting st rs (if trackerless (s.linkSt st) r then held else (r.part, r.dst, r.resp) :: held) s
      (r :: l, s)

def linkPump (st : Nat) (s : State) : State :=
  let w := (s.linkSt st).waiting
  let (l, s) := sendWaiting st w [] (s.onLink st fun l => { l with waiting := [] })
  s.onLink st fun x => { x with waiting := l ++ x.waiting }

/-- Queues a request and sends what can be sent. -/
def linkSend (st : Nat) (r : LReq) (s : State) : State :=
  linkPump st (s.onLink st fun l => { l with waiting := l.waiting ++ [r] })

/-- A response or control of this part to a peer: opcode, flags in `kind`, tracker field in `tag`. -/
def sendResp (st part peer opcode flags trk : Nat) (data : Bytes) (s : State) : State :=
  linkSend st { kind := flags, tag := trk, part := part, dst := peer, wire := opcode, resp := true, data := data } s

/-- An Error answer (05 Table 5.8). -/
def sendError (st : Nat) (o : RemOp) (code : Nat) (s : State) : State :=
  sendResp st o.part o.peer 0x8F (if o.posted then 8 else 0) o.tracker (le 2 code ++ zeros 6 ++ le 8 o.seq) s

/-! ### Translation at the destination (05 Operations end to end; 09 R318) -/

/-- A memory-station request of this link station for an operation, or the code that refuses it. -/
def remoteReq (s : State) (st : Nat) (o : RemOp) (kind len fmt : Nat) (smask : BitVec 16) (hint : Nat) : Nat ⊕ (Nat × MReq) :=
  let ob := s.obj (handleIdx o.handle.toNat)
  if handleIdx o.handle.toNat = 0 ∨ ob.state = 0 ∨ ob.state = 4 ∨ ob.gen ≠ handleGen o.handle.toNat then .inl yeStale
  else match placeTile ob (o.off / 8192) with
  | none => .inl yeDenied
  | some (p, c) => .inr (p.st, {
      origin := st, kind := kind, tag := o.tag, part := o.part, epoch := s.epoch, handle := o.handle,
      pslot := tileIndex s p.st c, hslot := p.hdr + hdrUnits ob.cls * (c - p.first),
      off := if kind = 4 then o.off % 8192 else 0, len := len, fmt := fmt, smask := smask, hint := hint, fence := 0xFFFF,
      desc := if kind = 5 then o.aux else 0, srcKind := if kind = 5 then 1 else 0, srcDev := if kind = 5 then o.peer else 0,
      data := o.data })

/-- The format of a contribution that arrives by link: the first accepted code whose body checks pass (log 18). -/
def linkFmt (s : State) (o : RemOp) : Nat :=
  let a := tget {} s.accs o.aux
  let ok := (accCodes.zipIdx.filter fun x => a.mask.getLsbD x.2).map (·.1)
  let good (f : Nat) : Bool := s.mem.any fun m => accCheck s m.1 { kind := 5, desc := o.aux, handle := o.handle, fmt := f, len := o.len, data := o.data } == 0
  ((ok.find? good).orElse fun _ => ok.head?).getD 0x40

/-- The first request an operation makes of the part's memory path. -/
def firstReq (s : State) (st : Nat) (o : RemOp) : Nat ⊕ (Nat × MReq) :=
  let cls := (s.obj (handleIdx o.handle.toNat)).cls
  let a := o.off % 8192 / 512
  let b := (o.off % 8192 + o.len + 511) / 512
  let mask : BitVec 16 := BitVec.ofNat 16 (2 ^ b - 2 ^ a)
  match o.opcode with
  | 1 => if cls = 3 ∨ cls = 4 then remoteReq s st o 2 0 0 mask 0 else remoteReq s st o 1 0 0 0 128
  | 5 => remoteReq s st o 5 o.len (linkFmt s o) 0 0
  | 7 => remoteReq s st o 3 o.len o.aux 0 0
  | 8 => if o.aux % 16 = 15 ∨ o.fold = 2 then remoteReq s st o 4 o.len 0 0 0 else remoteReq s st o 2 0 0 mask 0
  | _ => remoteReq s st o 4 o.len 0 0 0

/-- Hands an operation to the memory path; one that cannot be translated is answered at once. -/
def issueOp (st : Nat) (o : RemOp) (s : State) : State :=
  let put (o : RemOp) (s : State) : State :=
    s.onLink st fun l => { l with
      ops := if l.ops.any fun x => x.tag == o.tag then l.ops.map fun x => if x.tag = o.tag then o else x else l.ops ++ [o] }
  if o.opcode = 3 ∨ o.opcode = 4 then
    emit (.dreq st (o.opcode - 2) o.tag (opHdr o.opcode 0 o.len 0 o.aux o.handle.toNat o.off) o.data) (put { o with issued := true } s)
  else match firstReq s st o with
  | .inl code => put { o with issued := true, done := true, code := code } s
  | .inr (m, r) =>
    emit (.dreq st 0 o.tag (le 1 m ++ packReq r) (if isWrite r.kind then o.data else [])) (put { o with issued := true } s)

/-- The lowest tag, of ten bits, that no operation of the station holds. -/
def freeTag (l : LinkSt) : Option Nat := seek (fun i => !(l.ops.any fun o => o.tag == i)) 1024 0

end Sys2Proof.Machine
end

