-- ==== Sys2Proof/Machine/Link.lean ====
section
/-! DEFINITION. Link-station rows: intake, instances, contexts, bundles, arriving packets and what they do, answers,
timeouts, rotation and member loss; and the key and epoch cuts that reach stations of both kinds (05; 03 R99, R100). -/

namespace Sys2Proof.Machine
open Sys2Proof Sys2Proof.Crypto

/-- LINK_REQUEST_INTAKE: a request on a link station's inner port (05 R138, R139). -/
def linkIntake (st : Nat) (r : LReq) (s : State) : State :=
  if s.portState st ≠ .opened then s else
  let s := s.onPort st fun p => { p with intake := (p.intake + 1) % 2 ^ 32, lastTag := r.tag }
  let s := profCount st r.part r.fence r.layer r.oper [1] (bump st 2 1 s)
  let code := linkCheck s st r
  if code ≠ 0 then refuseLink st r code s else linkSend st r s

def execLinkRequestIntake (st : Nat) (req : BitVec 224) (data : List (BitVec 8)) (s : State) : Res :=
  .next (linkIntake st (linkReq req data) s)

/-- BUNDLE_FLUSH_TIMEOUT (05 R168). -/
def bundleFlush (st part peer : Nat) (s : State) : State :=
  if closed s st then s else
  closeBundles st (fun b => b.part == part && b.peer == peer &&
    decide (b.openAt + 5 * (jobOf s st part).flush ≤ s.now)) s

def execBundleFlushTimeout (st part peer : Nat) (s : State) : Res := .next (bundleFlush st part peer s)

/-! ### Receiving (05 R150, R153 to R158, R176) -/

/-- A drop of an arriving packet: its counter, and its fault source where the row of 05 Table 5.13 names one. -/
def dropPacket (st slot peer word src : Nat) (s : State) : State :=
  let s := bump st word 1 (emit (.rxFree st slot) s)
  if src = 0 then s else faultEvent st src 0xFFFF (BitVec.ofNat 64 peer) s

/-- Keeps a packet under a reorder descriptor. -/
def holdPacket (st : Nat) (h : Held) (s : State) : State := s.onLink st fun l => { l with held := l.held ++ [h] }

/-- Keeps a packet of which it is not known whether it is next for its context, while a descriptor is free (05 R155). -/
def holdOrDrop (st : Nat) (h : Held) (s : State) : State :=
  if 1024 ≤ (s.linkSt st).held.length then dropPacket st h.slot h.peer 13 7 s else holdPacket st h s

/-- Drops held packets, and the first halves of continued operations, under a counter. -/
def dropHeld (st word : Nat) (p : Held → Bool) (s : State) : State :=
  let l := s.linkSt st
  let s := s.onLink st fun l => { l with held := l.held.filter fun h => !p h, contTx := l.contTx.filter fun h => !p h }
  each (l.held.filter p ++ l.contTx.filter p) (fun h s => dropPacket st h.slot h.peer word 0 s) s

/-- Drops held operations that no memory station has been asked for: flagged Stores, and chunks that wait to be folded. -/
def dropOps (st : Nat) (p : RemOp → Bool) (s : State) : State :=
  let v := (s.linkSt st).ops.filter fun o => !o.issued && p o
  bump st 16 v.length (s.onLink st fun l => { l with ops := l.ops.filter fun o => o.issued || !p o })

/-- The instance that another station of the part held for a space ends as this one's starts (05 R137). -/
def closeElsewhere (st : Nat) (c : Ctxt) (s : State) : State :=
  each (s.link.filter fun l => l.1 != st && (findCtx l.2 c.part c.peer c.ingress c.response).any fun x => x.state != 1) (fun l s =>
    let s := if c.ingress then dropHeld l.1 16 (heldFor c) s
      else closeBundles l.1 (fun b => !c.response && b.part == c.part && b.peer == c.peer) s
    s.onLink l.1 (putCtx { c with state := 3, st := l.1, flagWait := false, gather := false, final := none })) s

/-- INSTANCE_OPEN: an egress space opens a new instance, once its record is written; after a rotation its first packet is a
Rotate, unless the previous instance sent nothing (05 R149, R175; log 140). -/
def instanceOpen (st part peer : Nat) (resp : Bool) (s : State) : State :=
  let l := s.linkSt st
  let j := tget {} l.jobs part
  match findCtx l part peer false resp with
  | none => s
  | some c =>
    let wanted := l.waiting.any fun r => r.part == part && r.dst == peer && r.resp == resp
    if closed s st ∨ j.state ≠ 1 ∨ j.stalled ∨ !wanted ∨ ¬ (c.state = 3 ∨ c.state = 4 ∨ c.state = 5 ∨ c.state = 2 ∧ c.gen ≠ j.gen) then s
    else
      let e := if c.gen = j.gen then max (c.sepoch + 1) j.mark else j.mark
      if 0x3FFF < e then keyThreshold j.slot (s.onDom part fun d => { d with askRot := some 2 })
      else
        let c' : Ctxt := { c with state := 2, gen := j.gen, genBit := j.gen % 2 == 1, sepoch := e, seq := 0, gather := false, final := none,
                                  port := tget 0 (s.dom part).portMap (peer % 64), st := st }
        let s := closeElsewhere st c' (putRecord st c' (s.onLink st (putCtx c')))
        let rot : LReq := { part := part, dst := peer, resp := resp, wire := 0xC1, data := le 8 (c.seq - 1) }
        linkPump st (if c.gen ≠ j.gen ∧ c.seq ≠ 0 then s.onLink st fun l => { l with waiting := rot :: l.waiting } else s)

def execInstanceOpen (st part peer : Nat) (space : Bool) (s : State) : Res := .next (instanceOpen st part peer space s)

/-- The ingress context moves to an instance. -/
def startInstance (st : Nat) (c : Ctxt) (gen sepoch : Nat) (s : State) : State :=
  let c' : Ctxt := { c with state := 2, gen := gen, genBit := gen % 2 == 1, sepoch := sepoch, seq := 0, flagWait := false, final := none,
                            st := st }
  closeElsewhere st c' (s.onLink st (putCtx c'))

/-- A packet whose tag has passed is held for its instance, which it may start. -/
def accept (st : Nat) (h : Held) (c : Ctxt) (s : State) : State :=
  let live := c.state = 2 ∨ c.state = 6
  let cur := c.gen = h.gen ∧ c.sepoch = h.sepoch
  if live ∧ cur then holdPacket st h s
  else
    let j := jobOf s st h.part
    let floor : Int := if c.gen = h.gen then c.sepoch else (j.startMark : Int) - 1
    if (h.sepoch : Int) ≤ floor then
      sendResp st h.part h.peer 0xC3 0 0 (le 2 floor.toNat ++ zeros 6) (bump st 26 1 (dropPacket st h.slot h.peer 15 4 s))
    else if live ∧ c.gen ≠ h.gen then
      if h.seq ≠ 0 then holdPacket st h s
      else if ofLe (h.body.take 1) = 0xC1 then
        let f := ofLe (cut 16 8 h.body)
        if c.seq ≤ f then holdPacket st h (s.onLink st (putCtx { c with state := 6, final := some f }))
        else holdPacket st h (startInstance st c h.gen h.sepoch s)
      else holdPacket st h (startInstance st c h.gen h.sepoch (dropHeld st 16 (ofInstance c) s))
    else holdPacket st h (startInstance st c h.gen h.sepoch (dropHeld st 16 (ofInstance c) s))

/-- The tag check of a packet, when its key is at hand. -/
def verify (st : Nat) (h : Held) (c : Ctxt) (s : State) : State :=
  let j := jobOf s st h.part
  match linkKey st j.slot h.gen s with
  | (none, s) => holdPacket st { h with phase := 1 } s
  | (some key, s) =>
    let n := h.body.length - 48
    let word := ofLe (cut 24 8 h.body)
    let aad := h.body.take 8 ++ [0, 0] ++ cut 10 22 h.body
    match gcmOpen key (linkIv h.peer h.sepoch word) aad (cut 32 n h.body) (cut (32 + n) 16 h.body) with
    | none => dropPacket st h.slot h.peer 14 1 s
    | some p => accept st { h with phase := 2, body := p } c s

/-- The window and descriptor checks of a packet, when its context is at hand. -/
def admitPacket (st : Nat) (h : Held) (s : State) : State :=
  let l := s.linkSt st
  match findCtx l h.part h.peer true h.response with
  | none => dropPacket st h.slot h.peer 13 7 s
  | some c =>
    if c.state = 1 then holdOrDrop st { h with phase := 0 } s
    else
      let cur := c.gen = h.gen ∧ c.sepoch = h.sepoch
      let live := c.state = 2 ∨ c.state = 6
      let next := if cur then c.seq else 0
      let held := l.held.any fun x => x.phase != 0 && x.part == h.part && x.peer == h.peer && x.response == h.response &&
        x.gen == h.gen && x.sepoch == h.sepoch && x.seq == h.seq
      if cur ∧ (c.state = 4 ∨ c.state = 5) then dropPacket st h.slot h.peer 16 0 s
      else if (live ∧ h.seq < next) ∨ held then dropPacket st h.slot h.peer 11 4 s
      else if next + 1024 ≤ h.seq then dropPacket st h.slot h.peer 12 4 s
      else if 1024 ≤ l.held.length ∧ h.seq ≠ next then dropPacket st h.slot h.peer 13 7 s
      else verify st h c s

/-- A packet whose header has passed finds its context, or waits for it. -/
def enterPacket (st : Nat) (h : Held) (s : State) : State :=
  match findCtx (s.linkSt st) h.part h.peer true h.response with
  | some _ => admitPacket st h s
  | none =>
    match askCtx st h.part h.peer true h.response s with
    | (true, s) => holdOrDrop st { h with phase := 0 } s
    | (false, s) => dropPacket st h.slot h.peer 13 7 s

/-- A packet whose header does not have the form of 05 Tables 5.4 to 5.6. -/
def packetMalformed (b : Bytes) : Bool :=
  let w0 := ofLe (cut 0 4 b)
  let n := ofLe (cut 8 2 b)
  let cls := w0 / 2 ^ 24
  cls == 0 || decide (4 < cls) || w0 / 2 ^ 23 % 2 == 1 || decide (2 ^ 23 ≤ ofLe (cut 4 4 b)) || cut 10 6 b != zeros 6 ||
    decide (2 ^ 14 ≤ ofLe (cut 16 2 b)) || decide (2 ^ 14 ≤ ofLe (cut 20 2 b)) || cut 22 2 b != zeros 2 || n % 16 != 0 ||
    decide (n < 16) || decide (4608 < n) || b.length != 48 + n

/-- The packet of a partition's job as its header describes it. -/
def packetOf (now part slot : Nat) (b : Bytes) : Held :=
  let cls := ofLe (cut 0 4 b) / 2 ^ 24
  { at_ := now, part := part, peer := ofLe (cut 4 4 b) % 2 ^ 18, response := cls == 2 || cls == 4, cls := cls,
    gen := ofLe (cut 18 2 b), sepoch := ofLe (cut 20 2 b), seq := ofLe (cut 24 8 b) % 2 ^ 36, slot := slot, body := b }

/-- PACKET_ARRIVAL: header checks, then the context's (05 R153, Table 5.13); a Stopped or Safe station goes on with them (11
Table 11.1, 01 Table 1.5).  DESIGN CHOICE (log 141): a packet for a job that waits for a new mark counts under word 17. -/
def packetArrival (st slot : Nat) (b : Bytes) (s : State) : State :=
  if closed s st then s else
  let src := ofLe (cut 4 4 b) % 2 ^ 18
  if packetMalformed b then dropPacket st slot src 7 5 s
  else
    let l := s.linkSt st
    match l.jobs.find? fun j => j.2.state != 0 && j.2.keyIndex == ofLe (cut 16 2 b) with
    | none => dropPacket st slot src 8 6 s
    | some (part, j) =>
      let h := packetOf s.now part slot b
      if j.state = 2 ∨ j.stalled then dropPacket st slot src 17 0 s
      else if h.gen ≠ j.gen ∧ j.prev ≠ some h.gen ∧ j.armed ≠ some h.gen then
        dropPacket st slot src 8 6 (failTrackers st yeKey (fun t => h.response && t.part == part && t.peer == src && t.gen == h.gen) s)
      else if l.lost.any fun x => x.1 == part && x.2.1 == src && decide (h.sepoch < x.2.2) then dropPacket st slot src 9 0 s
      else if ofLe (cut 24 8 b) / 2 ^ 36 ≠ seqField j.own h.response h.gen 0 / 2 ^ 36 then dropPacket st slot src 10 5 s
      else if h.gen ≠ j.gen ∧ j.prev ≠ some h.gen then
        holdOrDrop st { h with phase := 3 } (s.onDom part fun d => { d with askCommit := true })
      else enterPacket st h s

def execPacketArrival (st slot : Nat) (bytes : List (BitVec 8)) (s : State) : Res := .next (packetArrival st slot bytes s)

/-- Held packets that waited for their context or key go on. -/
def retryHeld (st phase : Nat) (p : Held → Bool) (s : State) : State :=
  let v := (s.linkSt st).held.filter fun h => h.phase == phase && p h
  let s := s.onLink st fun l => { l with held := l.held.filter fun h => !(h.phase == phase && p h) }
  each v (fun h s => admitPacket st h s) s

/-- CONTEXT_REFILL_DONE: the record enters when the tag of its sector has passed; until then the context is Filling (05
R148). -/
def refillDone (st part peer : Nat) (ing resp : Bool) (code : Nat) (s : State) : State :=
  match findCtx (s.linkSt st) part peer ing resp with
  | none => s
  | some c =>
    if closed s st ∨ c.state ≠ 1 then s
    else if code ≠ 0 then emit (.recordRead st part (recordIdx c)) s
    else
    let s := s.onLink st (putCtx (refillCtx s st c))
    linkPump st (retryHeld st 0 (fun h => ing && h.part == part && h.peer == peer && h.response == resp) s)

def execContextRefillDone (st part peer : Nat) (dir : Bool) (space : Bool × BitVec 16) (s : State) : Res :=
  .next (refillDone st part peer dir space.1 space.2.toNat s)

/-! ### Applying (05 R154, R159 to R164, R169 to R171) -/

/-- Whether an operation of an opcode carries its data. -/
def carries (opcode : Nat) : Bool := !(opcode == 1 || opcode == 4 || opcode == 6)

/-- The operations of a section: header and data. -/
def parseOps : Nat → Bytes → List (Bytes × Bytes)
  | 0, _ => []
  | _ + 1, [] => []
  | f + 1, b =>
    let h := b.take 16
    let n := if carries (ofLe (h.take 1)) then ofLe (cut 2 2 h) else 0
    (h, cut 16 n b) :: parseOps f (b.drop (16 + align16 n))

def opcodes : List Nat := [1, 2, 3, 4, 5, 6, 7, 8, 0x81, 0x83, 0x84, 0x86, 0x8F, 0xC1, 0xC2, 0xC3, 0xC4]

/-- The data length that 05 Table 5.8 gives an opcode's header. -/
def opLenBad (op : Bytes × Bytes) : Bool :=
  let n := ofLe (cut 2 2 op.1)
  match ofLe (op.1.take 1) with
  | 1 | 2 | 5 | 7 | 8 => n == 0 || decide (4096 < n)
  | 3 => !(n == 8 || n == 16)
  | 4 => n == 0 || decide (8192 < n)
  | 6 | 0x84 | 0x86 => n != 0
  | 0x81 => n == 0 || decide (4096 < n)
  | 0x83 | 0xC1 | 0xC4 => n != 8
  | 0x8F | 0xC2 => n != 16 || cut 2 6 op.2 != zeros 6
  | 0xC3 => n != 8 || cut 2 6 op.2 != zeros 6
  | _ => true

/-- A section that breaks 05 R141 or R142, or holds a non-zero reserved field (00 R11; 05 Table 5.13, last row). -/
def sectionBad (h : Held) (ops : List (Bytes × Bytes)) : Bool :=
  let size (o : Bytes × Bytes) : Nat := if carries (ofLe (o.1.take 1)) then align16 (ofLe (cut 2 2 o.1)) else 0
  let last (o : Bytes × Bytes) : Bool := ofLe (cut 1 1 o.1) / 4 % 2 == 1
  ops.isEmpty || decide (32 < ops.length) || (ops.map size).sum + 16 * ops.length != h.body.length || decide (4096 < (ops.map size).sum) ||
    ops.dropLast.any last || !(ops.getLast?.any last) ||
    ops.any (fun o =>
      let c := ofLe (o.1.take 1)
      !opcodes.contains c || wireClass c h.response != h.cls || decide (16 ≤ ofLe (cut 1 1 o.1)) || opLenBad o ||
      ((decide (2 ≤ ops.length)) && c != 2) || (ofLe (cut 1 1 o.1) / 2 % 2 == 1 && !(c == 5 || c == 7)))

/-- The parity unit folds a chunk: old bytes and the chunk times the shard's power of two (05 R180). -/
def gmulByte (a b : Byte) : Byte :=
  ((List.range 8).foldl (fun (acc : Byte × Byte) i =>
    (if b.getLsbD i then acc.1 ^^^ acc.2 else acc.1, (acc.2 <<< 1) ^^^ (if acc.2.msb then 0x1d else 0))) (0, a)).1
def gpow : Nat → Byte
  | 0 => 1
  | n + 1 => gmulByte 2 (gpow n)
def foldChunk (aux : Nat) (old d : Bytes) : Bytes :=
  let c : Byte := if aux / 16 % 2 = 1 then gpow (aux % 16) else 1
  (List.range d.length).map fun i => old.getD i 0 ^^^ gmulByte c (d.getD i 0)

/-- A chunk whose bytes another chunk is being folded into, at whatever station it came in (05 R180). -/
def foldBusy (s : State) (o : RemOp) : Bool :=
  s.link.any fun l => l.2.ops.any fun x => x.fold != 0 && x.issued && x.handle == o.handle && decide (x.off < o.off + o.len) &&
    decide (o.off < x.off + x.len)

/-- Posted operations that have finished: a failure is answered, a parity chunk goes on to its write-back. -/
def settleOp (st : Nat) (o : RemOp) (s : State) : State :=
  let drop (s : State) : State := s.onLink st fun l => { l with ops := l.ops.filter fun x => x.tag != o.tag }
  if !o.done ∨ ¬ (o.opcode = 2 ∨ o.opcode = 5 ∨ o.opcode = 8) then s
  else if o.code ≠ 0 then drop (sendError st o o.code s)
  else if o.fold = 1 then
    let old := (o.got.drop (o.off % 512)).take o.len
    issueOp st { o with fold := 2, done := false, data := foldChunk o.aux old o.data, got := [] } (bump st 29 1 s)
  else drop s

/-- Chunks that waited for another are read once it is written back. -/
def releaseFolds (s : State) : State :=
  each s.link (fun l s => each (l.2.ops.filter fun o => o.fold == 1 && !o.issued) (fun o s => if foldBusy s o then s else issueOp l.1 o s) s) s

def settleLink (st : Nat) (s : State) : State := releaseFolds (each (s.linkSt st).ops (fun o s => settleOp st o s) s)

/-- The instance of an operation. -/
def sameInst (a b : RemOp) : Bool := a.part == b.part && a.peer == b.peer && a.gen == b.gen && a.sepoch == b.sepoch

/-- Operations of an instance applied before one. -/
def opsBefore (l : LinkSt) (o : RemOp) : List RemOp := (l.ops.takeWhile fun x => x.tag != o.tag).filter (sameInst o)

/-- Whether a tile of a copy has landed or failed (05 R171). -/
def tileSettled (a : Arrival) (i : Nat) : Bool :=
  decide (i < a.landed) || (decide (a.landed < i) && a.window.getLsbD (i - a.landed - 1)) || a.bad.contains i

/-- A bulk tile that must wait for tile c of its copy. -/
def bulkWaits (s : State) (op : Bytes × Bytes) : Bool :=
  ofLe (op.1.take 1) == 7 &&
  (let a := tget {} s.arrivals (ofLe (cut 4 2 op.1))
   let i := (ofLe (cut 11 5 op.1) - a.base) / 8192
   a.state == 1 && decide (65 ≤ i) && !tileSettled a (i - 65))

/-- An egress ordered space breaks at its source (05 R157): its trackers fail. -/
def spaceBroken (st part peer : Nat) (s : State) : State :=
  let p (t : Tracker) : Bool := t.part == part && t.peer == peer
  failTrackers st yeTimeout p (bump st 24 ((s.linkSt st).trackers.filter fun t => p t.2).length (bump st 25 1 s))

/-- A Break for an instance whose context is in its backing region. -/
def breakEvicted (st part peer e : Nat) (s : State) : State :=
  match s.backing.find? (sameCtx part peer false false) with
  | some c => if c.state = 2 ∧ c.sepoch = e then spaceBroken st part peer (putRecord st { c with state := 4 } s) else s
  | none => s

/-- A Break arrives, for a resident instance or for one whose record is in the backing region. -/
def breakArrives (st part peer e : Nat) (s : State) : State :=
  match findCtx (s.linkSt st) part peer false false with
  | some c =>
    if c.state = 2 ∧ c.sepoch = e then
      spaceBroken st part peer (s.onLink st fun l => { putCtx { c with state := 4, gather := false } l with
        bundles := l.bundles.filter fun b => !(b.part == part && b.peer == peer) })
    else if c.state = 1 then breakEvicted st part peer e s else s
  | none => breakEvicted st part peer e s

/-- A Refuse arrives.  It names no space.  DESIGN CHOICE (log 138): both spaces' instances at or below the floor are closed,
and reopen above it (05 R150). -/
def refuseSpace (st part peer floor : Nat) (resp : Bool) (s : State) : State :=
  let shut (c : Ctxt) : Ctxt := if c.sepoch ≤ floor then { c with state := 3, sepoch := floor, gather := false } else c
  let s := onRecord st part peer false resp shut s
  match findCtx (s.linkSt st) part peer false resp with
  | some c =>
    if c.state ≠ 1 ∧ c.sepoch ≤ floor then
      (closeBundles st (fun b => !resp && b.part == part && b.peer == peer) s).onLink st fun l => { l with
        ctxs := l.ctxs.map fun c => if sameCtx part peer false resp c then shut c else c }
    else s
  | none => s

/-- One operation of an applied packet. -/
def applyOp (st : Nat) (h : Held) (op : Bytes × Bytes) (s : State) : State :=
  let code := ofLe (op.1.take 1)
  let flags := ofLe (cut 1 1 op.1)
  let trk := ofLe (cut 4 2 op.1)
  let handle := ofLe (cut 7 4 op.1)
  let tag := (freeTag (s.linkSt st)).getD 0
  let o : RemOp := { tag := tag, part := h.part, peer := h.peer, opcode := code, flagged := flags % 2 == 1,
                     posted := flags / 8 % 2 == 1, tracker := trk, gen := h.gen, sepoch := h.sepoch, seq := h.seq,
                     aux := ofLe (cut 6 1 op.1), handle := BitVec.ofNat 32 handle, off := ofLe (cut 11 5 op.1),
                     len := ofLe (cut 2 2 op.1), data := op.2 }
  let reply (c : Nat) (d : Bytes) (s : State) : State :=
    match tfind (s.linkSt st).trackers trk with
    | some t => if t.part = h.part ∧ t.peer = h.peer then endTracker st trk c d s else bump st 19 1 s
    | none => bump st 19 1 s
  if code = 2 ∧ handle = 0 then emit (.dreq st 4 0 (le 3 h.peer ++ le 1 h.part) op.2) s
  else if code = 6 then s.onLink st fun l => { l with ops := l.ops ++ [o] }
  else if code = 2 ∧ o.flagged then
    let l := s.linkSt st
    if l.ops.any fun x => sameInst o x && x.opcode == 2 && !x.done then
      s.onLink st fun l => { l with
        ops := l.ops ++ [{ o with issued := false }],
        ctxs := l.ctxs.map fun c => if sameCtx h.part h.peer true false c then { c with flagWait := true } else c }
    else issueOp st o s
  else if code = 8 ∧ o.aux % 16 ≠ 15 then
    let o := { o with fold := 1 }
    if foldBusy s o then s.onLink st fun l => { l with ops := l.ops ++ [{ o with issued := false }] } else issueOp st o s
  else if code < 0x80 then issueOp st o s
  else if code = 0x8F then
    let c := ofLe (cut 0 2 op.2)
    if o.posted then fenceReport trk h.part c (detailLink st h.peer (ofLe (cut 8 8 op.2))) s else reply c [] s
  else if code < 0xC0 then reply 0 op.2 s
  else if code = 0xC2 then breakArrives st h.part h.peer (ofLe (op.2.take 2)) s
  else if code = 0xC3 then
    let f := ofLe (op.2.take 2)
    refuseSpace st h.part h.peer f false (refuseSpace st h.part h.peer f true s)
  else if code = 0xC4 ∧ s.stop.inForce ∧ ofLe (op.2.take 8) = s.stop.id.toNat then s.onPort st fun p => { p with stop := { p.stop with markersRecv := p.stop.markersRecv + 1 } }
  else s

/-- The first half of a continued operation, held until the next packet of its instance is applied (05 R142). -/
def contFor (l : LinkSt) (h : Held) : Option Held :=
  l.contTx.find? fun x => x.part == h.part && x.peer == h.peer && x.response == h.response && x.gen == h.gen && x.sepoch == h.sepoch &&
    x.seq + 1 == h.seq

/-- Counts a packet as applied and releases its slot of the receive buffer (05 R154, 13 Table 13.6). -/
def countApplied (st : Nat) (h : Held) (s : State) : State :=
  meterPacket h.part 7 (h.cls == 3 && (s.obj (handleIdx (ofLe (cut 7 4 h.body)))).landing) h.body.length (bump st 6 h.body.length (bump st 4 1 (emit (.rxFree st h.slot) s)))

/-- The whole operation of two packets. -/
def joinOps (a b : Bytes × Bytes) : Bytes × Bytes :=
  (a.1.take 1 ++ le 1 (ofLe (cut 1 1 b.1)) ++ le 2 (ofLe (cut 2 2 a.1) + ofLe (cut 2 2 b.1)) ++ a.1.drop 4, a.2 ++ b.2)

/-- Applies the packet that is next in its space. -/
def applyPacket (st : Nat) (c : Ctxt) (h : Held) (s : State) : State :=
  let l := s.linkSt st
  let ops := parseOps 289 h.body
  let bad := sectionBad h ops
  let cont := !bad && ops.any fun o => ofLe (cut 1 1 o.1) / 2 % 2 == 1
  let first := contFor l h
  let second := match first, ops with
    | some f, [o] => !bad && !cont && f.body.take 1 == o.1.take 1 && cut 4 12 f.body == cut 4 12 o.1
    | _, _ => false
  let same (x : Held) : Bool := x.part == h.part && x.peer == h.peer && x.response == h.response
  let take (s : State) : State := s.onLink st fun l => { putCtx { c with seq := c.seq + 1 } l with
    held := l.held.filter fun x => !(ofInstance c x && x.seq == h.seq && x.phase == 2), contTx := l.contTx.filter fun x => !same x }
  let asks := (ops.filter fun o => decide (ofLe (o.1.take 1) < 0x80)).length
  if (jobOf s st h.part).state ≠ 1 then dropPacket st h.slot h.peer 17 0 (take s)
  else if (asks ≠ 0 ∧ 1024 < l.ops.length + asks) ∨ ops.any (bulkWaits s) then s
  else
    let s := each (l.contTx.filter fun x => same x && !second) (fun x s => dropPacket st x.slot x.peer 18 5 s) (take s)
    if bad then dropPacket st h.slot h.peer 18 5 s
    else if cont then s.onLink st fun l => { l with contTx := l.contTx ++ [h] }
    else
      let s := countApplied st h s
      match first, ops, second with
      | some f, [o], true => applyOp st h (joinOps (f.body.take 16, cut 16 (ofLe (cut 2 2 f.body)) f.body) o) (countApplied st f s)
      | _, _, _ => each ops (fun o s => applyOp st h o s) s

/-- PACKET_APPLY: the next packet of a space, or the end of a rotation (05 R154, R176). -/
def packetApply (st part peer : Nat) (resp : Bool) (s : State) : State :=
  let s := settleLink st s
  let l := s.linkSt st
  match findCtx l part peer true resp with
  | none => s
  | some c =>
    if closed s st ∨ c.flagWait ∨ ¬ (c.state = 2 ∨ c.state = 6) then s
    else if c.state = 6 ∧ (c.final.getD 0) < c.seq then
      match l.held.find? fun h => heldFor c h && h.phase == 2 && h.seq == 0 && h.gen != c.gen with
      | none => s
      | some h =>
        let s := startInstance st c h.gen h.sepoch s
        match findCtx (s.linkSt st) part peer true resp with
        | some c => applyPacket st c h s
        | none => s
    else match l.held.find? fun h => ofInstance c h && h.phase == 2 && h.seq == c.seq with
    | none => s
    | some h => applyPacket st c h s

def execPacketApply (st part peer : Nat) (space : Bool) (s : State) : Res := .next (packetApply st part peer space s)

/-- An operation of an opcode by its tag. -/
def findOp (s : State) (st tag opcode : Nat) : Option RemOp := (s.linkSt st).ops.find? fun o => o.tag == tag && o.opcode == opcode
def dropOp (st tag : Nat) (s : State) : State := s.onLink st fun l => { l with ops := l.ops.filter fun o => o.tag != tag }

/-- The bytes a Load asked for, out of what its memory request returned: a tile's header and payload, or sectors. -/
def loadBytes (s : State) (o : RemOp) : Bytes :=
  let cls := (s.obj (handleIdx o.handle.toNat)).cls
  if cls = 3 ∨ cls = 4 then cut (o.off % 512) o.len o.got else cut (32 + o.off % 8192) o.len o.got

/-- LOAD_DATA_RELEASE (05 R159). -/
def loadRelease (st tag : Nat) (s : State) : State :=
  match findOp s st tag 1 with
  | some o =>
    if !o.done then s
    else if o.code ≠ 0 then sendError st o o.code (dropOp st tag s)
    else sendResp st o.part o.peer 0x81 0 o.tracker (loadBytes s o) (dropOp st tag s)
  | none => s

def execLoadDataRelease (st tag : Nat) (s : State) : Res := .next (loadRelease st tag s)

/-- FLAGGED_STORE_RELEASE (05 R160). -/
def flaggedRelease (st part peer : Nat) (s : State) : State :=
  let s := settleLink st s
  let l := s.linkSt st
  match l.ops.find? fun o => o.opcode == 2 && !o.issued && o.part == part && o.peer == peer with
  | none => s
  | some o =>
    if (opsBefore l o).any fun x => x.opcode == 2 && !x.done then s
    else issueOp st o (s.onLink st fun l => { l with ctxs := l.ctxs.map fun c => if sameCtx part peer true false c then { c with flagWait := false } else c })

def execFlaggedStoreRelease (st part peer : Nat) (s : State) : Res := .next (flaggedRelease st part peer s)

/-- ATOMIC_RESULT (05 R161). -/
def atomicResult (st tag : Nat) (old : BitVec 64) (s : State) : State :=
  match findOp s st tag 3 with
  | some o => sendResp st o.part o.peer 0x83 0 o.tracker (le 8 old.toNat) (dropOp st tag s)
  | none => s

def execAtomicResult (st tag : Nat) (old : BitVec 64) (s : State) : Res := .next (atomicResult st tag old s)

/-- INVALIDATE_DONE (05 R162). -/
def invalidateDone (st tag : Nat) (s : State) : State :=
  match findOp s st tag 4 with
  | some o => sendResp st o.part o.peer 0x84 0 o.tracker [] (dropOp st tag s)
  | none => s

def execInvalidateDone (st tag : Nat) (s : State) : Res := .next (invalidateDone st tag s)

/-- FLUSH_DONE (05 R163): failures of earlier operations are answered first. -/
def flushDone (st tag : Nat) (s : State) : State :=
  let s := settleLink st s
  match findOp s st tag 6 with
  | some o =>
    if (opsBefore (s.linkSt st) o).any fun x => !x.done then s
    else sendResp st o.part o.peer 0x86 0 o.tracker [] (dropOp st tag s)
  | none => s

def execFlushDone (st tag : Nat) (s : State) : Res := .next (flushDone st tag s)

/-- A space breaks (05 R157). -/
def breakSpace (st : Nat) (c : Ctxt) (s : State) : State :=
  let next := (s.linkSt st).held.find? fun h => heldFor c h && h.phase == 2 && h.seq == 0 && h.gen != c.gen
  let s := dropOps st (fun o => !c.response && o.part == c.part && o.peer == c.peer && o.gen == c.gen && o.sepoch == c.sepoch)
    (dropHeld st 16 (ofInstance c) s)
  let s := match c.state, next with
    | 6, some h => startInstance st c h.gen h.sepoch s
    | _, _ => s.onLink st (putCtx { c with state := 4, flagWait := false })
  if c.response then spaceBroken st c.part c.peer s
  else sendResp st c.part c.peer 0xC2 0 0 (le 2 c.sepoch ++ zeros 6 ++ le 8 c.seq) (bump st 25 1 s)

/-- The context as it stands for a new instance of which the first packet, due at sequence 0, has not arrived (05 R176). -/
def freshInstance (c : Ctxt) (h : Held) : Ctxt := { c with state := 2, gen := h.gen, genBit := h.gen % 2 == 1, sepoch := h.sepoch, seq := 0, st := c.st }

/-- GAP_TIMEOUT: 200 µs after a later sequence of an instance arrived, the next is still missing. -/
def gapTimeout (st part peer : Nat) (resp : Bool) (s : State) : State :=
  let l := s.linkSt st
  match findCtx l part peer true resp with
  | none => s
  | some c =>
    let old (h : Held) : Bool := decide (h.at_ + Config.us 200 ≤ s.now)
    let missing := !(l.held.any fun h => ofInstance c h && h.seq == c.seq)
    let late := l.held.any fun h => heldFor c h && ((ofInstance c h && decide (c.seq < h.seq)) || (c.state == 6 && h.gen != c.gen)) && old h
    let newer (h : Held) : Bool := heldFor c h && h.phase == 2 && h.gen != c.gen
    if closed s st ∨ ¬ (c.state = 2 ∨ c.state = 6) then s
    else if missing ∧ late then breakSpace st c s
    else match l.held.find? fun h => newer h && old h with
    | some h => if l.held.any fun x => newer x && x.seq == 0 then s else breakSpace st (freshInstance c h) (dropHeld st 16 (ofInstance c) s)
    | none => s

def execGapTimeout (st part peer : Nat) (space : Bool) (s : State) : Res := .next (gapTimeout st part peer space s)

/-- TRACKER_TIMEOUT (05 R166). -/
def trackerTimeout (st i : Nat) (s : State) : State :=
  match tfind (s.linkSt st).trackers i with
  | some t => if !closed s st && decide (t.sentAt + Config.ms 2 ≤ s.now) then endTracker st i yeTimeout [] (bump st 24 1 s) else s
  | none => s

def execTrackerTimeout (st idx : Nat) (s : State) : Res := .next (trackerTimeout st idx s)

/-! ### Rotation and loss (05 R175 to R178) -/

/-- Whether a job's armed generation is the one its slot has committed to. -/
def commitHere (s : State) (part : Nat) (l : LinkSt) : Bool :=
  let j := tget {} l.jobs part
  j.armed == some ((s.key j.slot).gen % 2 ^ 16)

/-- ROTATION_COMMIT_ARRIVAL: every link station turns to the armed generation; the egress instances of the previous one are
Closed, and open again on next use (05 R175, Table 5.12; 07 R249). -/
def rotationCommit (part : Nat) (s : State) : State :=
  each (s.link.filter fun l => commitHere s part l.2) (fun l s =>
    let st := l.1
    let s := closeBundles st (fun b => b.part == part) s
    let s := onJob s st part fun j => { j with
      prev := some j.gen, gen := j.armed.getD j.gen, armed := none, mark := 0, startMark := 0, invocations := 0, commitAt := s.now }
    let s := s.onLink st fun l => { l with
      lost := l.lost.filter fun x => x.1 != part,
      ctxs := l.ctxs.map fun c => if c.part = part ∧ !c.ingress ∧ c.state = 2 then { c with state := 3, gather := false } else c }
    let v := (s.linkSt st).held.filter fun h => h.phase == 3 && h.part == part
    let s := s.onLink st fun l => { l with held := l.held.filter fun h => !(h.phase == 3 && h.part == part) }
    linkPump st (each v (fun h s => enterPacket st h s) s)) s

def execRotationCommitArrival (part : Nat) (s : State) : Res := .next (rotationCommit part s)

/-- GENERATION_DRAIN_TIMEOUT (05 R177): the previous generation is no longer accepted. -/
def generationDrain (st part : Nat) (s : State) : State :=
  let l := s.linkSt st
  let j := tget {} l.jobs part
  match j.prev with
  | none => s
  | some g =>
    if j.commitAt + Config.us 200 ≤ s.now ∧ !(l.held.any fun h => h.part == part && h.gen == g) then
      onJob s st part fun j => { j with prev := none }
    else s

def execGenerationDrainTimeout (st part : Nat) (s : State) : Res := .next (generationDrain st part s)

/-- MEMBER_LOST_ARRIVAL (05 R178, R152).  DESIGN CHOICE (log 142): a loss that finds the list full is not entered in it. -/
def memberLostAt (part dev mark st : Nat) (s : State) : State :=
  let full := decide (256 ≤ (s.linkSt st).lost.length)
  let s := if full then keyThreshold (jobOf s st part).slot (s.onDom part fun d => { d with askRot := some 3 }) else s
  let s := s.onLink st fun l => { l with
    jobs := tmap (fun i j => if i = part then raiseMark mark j else j) l.jobs,
    lost := if full then l.lost else l.lost ++ [(part, dev, mark)],
    ctxs := l.ctxs.map fun c => if c.part = part ∧ c.peer = dev ∧ c.state ≠ 1 then { c with state := 5, flagWait := false, gather := false, final := none } else c,
    bundles := l.bundles.filter fun b => !(b.part == part && b.peer == dev) }
  let s := dropOps st (fun o => o.part == part && o.peer == dev) (dropHeld st 16 (fun h => h.part == part && h.peer == dev) s)
  let w := (s.linkSt st).waiting.filter fun r => r.part == part && r.dst == dev
  let s := s.onLink st fun l => { l with waiting := l.waiting.filter fun r => !(r.part == part && r.dst == dev) }
  let s := each w (fun r s => refuseLink st r yeLost s) s
  failTrackers st yeLost (fun t => t.part == part && t.peer == dev) s

def execMemberLostArrival (part : Nat) (dev : BitVec 18) (mark : BitVec 14) (s : State) : Res :=
  .next (each (s.link.filter fun l => (tget {} l.2.jobs part).state != 0) (fun l s => memberLostAt part dev.toNat mark.toNat l.1 s) s)

/-! ### Arrival counters (05 R170, R171) -/

/-- Slides the window over tiles that have landed. -/
def slide : Nat → Arrival → Arrival
  | 0, a => a
  | f + 1, a => if a.window.getLsbD 0 then slide f { a with landed := a.landed + 1, window := a.window >>> 1 } else { a with landed := a.landed + 1, window := a.window >>> 1 }

/-- A tile of a copy lands. -/
def landTile (i : Nat) (a : Arrival) : Arrival :=
  if i = a.landed then slide 65 a
  else if a.landed < i then { a with window := a.window ||| (1#64 <<< (i - a.landed - 1)) } else a

/-- BULK_COMPLETION_REPORT: a bulk tile's write completion, or its failure, reaches the keep. -/
def bulkReport (st tag : Nat) (s : State) : State :=
  match findOp s st tag 7 with
  | none => s
  | some o =>
    if !o.done then s else
    let i := o.tracker
    let s := dropOp st tag s
    let s : State := { s with handoffs := s.handoffs.map fun (h : Handoff) =>
      if !h.offerer ∧ h.counter = i ∧ h.part = o.part ∧ h.peer = o.peer then { h with lastAt := s.now } else h }
    { s with arrivals := tmap (fun n a => if n = i ∧ a.state = 1 ∧ a.part = o.part then
        let k := (o.off - a.base) / 8192
        if o.code = 0 then landTile k a
        else { a with failed := a.failed + 1, err := if a.err = 0 then o.code else a.err, bad := k :: a.bad } else a) s.arrivals }

def execBulkCompletionReport (st tag : Nat) (s : State) : Res := .next (bulkReport st tag s)

/-! ### Keys and cuts that reach every kind of station -/

/-- Requests and packets of a link station that wait on a key of a generation the keep refuses (06 R194). -/
def linkFailOnKey (st slot g code : Nat) (s : State) : State :=
  let l := s.linkSt st
  let mine (part gen : Nat) : Bool := (tget {} l.jobs part).slot == slot && gen32 (s.key slot) gen == g
  let waits (r : LReq) : Bool := mine r.part (tget {} l.jobs r.part).gen
  let s := s.onLink st fun l => { l with waiting := l.waiting.filter fun r => !waits r }
  let s := each (l.waiting.filter waits) (fun r s => refuseLink st r code s) s
  dropHeld st 16 (fun h => h.phase == 1 && mine h.part h.gen) s

/-- A delivery at a link or host station. -/
def otherDelivery (st slot : Nat) (gen : BitVec 32) (s : State) : State :=
  let g := gen.toNat
  let p := s.port st
  if closed s st || !p.asked.contains (slot, g) then s else
  let k := s.key slot
  let drop (s : State) : State := s.onPort st fun p => { p with asked := without p.asked (slot, g) }
  if k.state ≠ 0 ∧ !mayHold st k.cls then
    linkFailOnKey st slot g yeDenied (faultEvent st 0x0A 0xFFFF (BitVec.ofNat 64 slot) (drop s))
  else if k.state = 6 ∨ k.state = 0 then linkFailOnKey st slot g yeKey (drop s)
  else if (k.state = 2 ∨ k.state = 3) ∧ g = k.gen + 1 then s
  else if (halfOf k g).isNone ∨ (k.purging = 2 ∧ g ≠ k.gen) ∨ k.purging = 1 then linkFailOnKey st slot g yeKey (drop s)
  else match keyRoom st s with
  | none => s
  | some ks =>
    let s := drop (s.onPort st fun p => { p with keys := (slot, g) :: ks })
    if isLink st then linkPump st (retryHeld st 1 (fun _ => true) s) else s

/-- KEY_DELIVERY: the keep's answer to a station's request for a key (06 R194). -/
def execKeyDelivery (st slot : Nat) (gen : BitVec 32) (s : State) : Res :=
  .next (if isMem st then keyDelivery st slot gen s else otherDelivery st slot gen s)

/-- Everything of a job ends at a link station: trackers and waiting requests fail, held packets are dropped. -/
def cutJob (st part code : Nat) (s : State) : State :=
  let w := (s.linkSt st).waiting.filter fun r => r.part == part
  let s := s.onLink st fun l => { l with
    waiting := l.waiting.filter fun r => r.part != part, bundles := l.bundles.filter fun b => b.part != part,
    ops := l.ops.filter fun o => o.part != part }
  let s := each w (fun r s => refuseLink st r code s) s
  failTrackers st code (fun t => t.part == part) (dropHeld st 17 (fun h => h.part == part) s)

/-- The cut of a Retiring slot's drain at a station (03 R99, 05 R177). -/
def drainCut (st slot : Nat) (s : State) : State :=
  if isMem st then cutReqs st yeKey (underSlot s slot) s
  else if isLink st then each ((s.linkSt st).jobs.filter fun j => j.2.slot == slot && j.2.state != 0) (fun j s => cutJob st j.1 yeKey s) s
  else s

/-- The limit of a Retiring slot's drain has passed (06 R205). -/
def drainOver (s : State) (slot : Nat) : Bool :=
  (s.key slot).state == 6 && (match (s.key slot).cutAt with
    | some t => decide (t ≤ s.now)
    | none => false)

/-- KEY_DRAIN_CUT: the cut that the keep sends at the limit arrives at a station. -/
def execKeyDrainCut (st slot : Nat) (s : State) : Res := .next (if drainOver s slot then drainCut st slot s else s)

/-- EPOCH_RETIREMENT_CUT: work of the draining epoch is cut when the epoch's 5 ms are over (03 R100, 08 R265). -/
def epochCut (st : Nat) (s : State) : State :=
  if ¬ (s.epochDraining ∧ s.epochAt + Config.ms 5 ≤ s.now) then s
  else if isMem st then cutReqs st yeEpoch (fun r => r.epoch == s.epoch - 1) s
  else if isLink st then
    let old (r : LReq) : Bool := r.epoch == s.epoch - 1 && !r.resp && r.engine != 4096 && r.wire != 0xC1
    let w := (s.linkSt st).waiting.filter old
    let s' := s.onLink st fun l => { l with waiting := l.waiting.filter fun r => !old r }
    failTrackers st yeEpoch (fun t => t.epoch == s.epoch - 1 && t.engine != 4096) (each w (fun r s => refuseLink st r yeEpoch s) s')
  else s

def execEpochRetirementCut (st : Nat) (s : State) : Res := .next (epochCut st s)

end Sys2Proof.Machine
end

