-- ==== Sys2Proof/Machine/Fabric.lean ====
section
/-! DEFINITION. The fabric commands: job configuration, arrival counters, bulk copies, checkpoints and parity (05
Table 5.19). -/

namespace Sys2Proof.Machine
open Sys2Proof Sys2Proof.Crypto

/-- The link station that carries the keep's own traffic of a partition to a device (log 19): one that holds the stream's
egress instance, else one on whose slice the partition has a lease. -/
def linkFor (s : State) (part dst : Nat) : Nat :=
  let us := Config.linkIds.filter fun u => leaseCheck (s.linkSt u).port s.epoch part == 0
  let us := if us.isEmpty then Config.linkIds else us
  let live (u : Nat) : Bool := (findCtx (s.linkSt u) part dst false false).any fun c => c.state == 2
  (us.find? live).getD (us.getD (dst % us.length) 0x80)

/-- Egress instances of a job whose destination has another port now are closed, and open again with it (05 R137). -/
def movePorts (part : Nat) (ports : Tab Nat) (s : State) : State :=
  let moved (c : Ctxt) : Bool := c.part == part && !c.ingress && c.state == 2 && c.port != tget 0 ports (c.peer % 64)
  let shut (c : Ctxt) : Ctxt := if moved c then { c with state := 3, gather := false } else c
  let s := each (s.backing.filter moved) (fun c s => putRecord c.st (shut c) s) s
  each (s.link.filter fun l => l.2.ctxs.any moved) (fun l s =>
    (closeBundles l.1 (fun b => l.2.ctxs.any fun c => moved c && sameCtx b.part b.peer false false c) s).onLink l.1 fun l => { l with
      ctxs := l.ctxs.map shut }) s

/-- LINK_JOB_CONFIG (05 R135, Table 5.19). -/
def bodyLinkJobConfig : Body := fun t _ _ s =>
  let part := opnd t.e 0 1
  let flush := opnd t.e 1 1
  let map := opnd t.e 4 40
  if (jobOf s 0x80 part).state ≠ 1 ∨ 200 < flush then failCmd t yeDenied s
  else
    let ports := (List.range 64).map fun i => (i, map / 2 ^ (5 * i) % 32)
    let s := each Config.linkIds (fun st s => onJob s st part fun j => { j with flush := flush }) s
    done t [] (movePorts part ports (s.onDom part fun d => { d with portMap := ports }))

def execLinkJobConfig (q : Nat) (e : BitVec 1024) (rc : BitVec 16) (inp : List (BitVec 8)) (s : State) : Res :=
  .next (takeCmd 0x0501 bodyLinkJobConfig q e rc inp s)

/-! ### Arrival counters -/

/-- An arrival counter as Table 5.14 lays it out. -/
def arrivalBytes (a : Arrival) : Bytes :=
  le 8 a.landed ++ le 8 a.window.toNat ++ le 5 a.base ++ le 1 a.state ++ le 2 a.err ++ le 4 a.failed ++ le 4 a.total

/-- ARRIVAL_OPEN (05 R170). -/
def bodyArrivalOpen : Body := fun t _ _ s =>
  let h := opnd t.e 0 4
  let base := opnd t.e 4 5
  let n := opnd t.e 12 4
  let o := s.obj (handleIdx h)
  if handleIdx h = 0 then failCmd t yeStale s
  else if base % 8192 ≠ 0 ∨ o.tiles < base / 8192 + n then failCmd t yeDenied s
  else match lowFree s.arrivals 0 1024 with
  | none => failCmd t yeQuota s
  | some i =>
    let a : Arrival := { state := 1, part := s.partOf t, ctx := (s.queue t.q).ctx, handle := BitVec.ofNat 32 h, base := base, total := n }
    done t (le 2 i) ({ s with arrivals := tset s.arrivals i a }.onObj (handleIdx h) fun o => { o with refs := o.refs + 1 })

def execArrivalOpen (q : Nat) (e : BitVec 1024) (rc : BitVec 16) (inp : List (BitVec 8)) (s : State) : Res :=
  .next (takeCmd 0x0510 bodyArrivalOpen q e rc inp s)

/-- Frees an arrival counter and its reference. -/
def freeArrival (i : Nat) (s : State) : State :=
  let oi := handleIdx (tget {} s.arrivals i).handle.toNat
  { s with arrivals := tdel s.arrivals i, objs := tmap (fun j o => if j = oi then { o with refs := o.refs - 1 } else o) s.objs }

/-- ARRIVAL_CLOSE. -/
def bodyArrivalClose : Body := fun t _ _ s =>
  let i := opnd t.e 0 2
  let a := tget {} s.arrivals i
  if a.state ≠ 1 ∨ a.part ≠ s.partOf t then failCmd t yeDenied s
  else done t (arrivalBytes { a with state := 2 }) (freeArrival i s)

def execArrivalClose (q : Nat) (e : BitVec 1024) (rc : BitVec 16) (inp : List (BitVec 8)) (s : State) : Res :=
  .next (takeCmd 0x0511 bodyArrivalClose q e rc inp s)

/-! ### Bulk copies and checkpoints -/

/-- Tiles as a command's input reads give them: le16 L, format, 13 zero bytes, and the L bytes padded to 16 (05 R179). -/
def parseTiles : Nat → Bytes → List (Nat × Nat × Bytes)
  | 0, _ => []
  | _ + 1, [] => []
  | f + 1, b =>
    let l := ofLe (b.take 2)
    (l, ofLe (cut 2 1 b), cut 16 l b) :: parseTiles f (b.drop (16 + align16 l))

/-- A tile's entry in a checkpoint record (05 R179). -/
def tileEntry (x : Nat × Nat × Bytes) : Bytes := le 2 x.1 ++ le 1 x.2.1 ++ zeros 13 ++ pad16 (fit x.1 x.2.2)

/-- Steps 2 to 7 of 05 Table 5.3 for the traffic of a partition that the keep starts. -/
def keepLinkCheck (s : State) (part dst : Nat) : Nat :=
  let l := s.linkSt (linkFor s part dst)
  let j := tget {} l.jobs part
  if j.state = 0 then yeDenied else if j.state = 2 then yeKey
  else if leaseCheck l.port s.epoch part ≠ 0 then leaseCheck l.port s.epoch part
  else if l.lost.any fun x => x.1 == part && x.2.1 == dst then yeLost
  else if dst = j.own ∨ 2 ^ 18 ≤ dst then yeDenied else 0

/-- The Flush with which a command's traffic to a device ends (05 R163). -/
def keepFlush (t : Taken) (part dst : Nat) (s : State) : LReq :=
  { kind := 6, wire := 6, part := part, epoch := s.epoch, engine := 4096, slot := t.q, tag := t.seq, dst := dst, fence := envFence t.e }

/-- Queues traffic of the keep on one link station. -/
def keepSend (part dst : Nat) (rs : List LReq) (s : State) : State :=
  let st := linkFor s part dst
  linkPump st (s.onLink st fun l => { l with waiting := l.waiting ++ rs })

/-- The bulk tile of what such a read returned: its length, its format byte and its bytes (05 R169). -/
def bulkTile (s : State) (oi : Nat) (d : Bytes) (r : LReq) : LReq :=
  let n := 32 * hdrUnits (s.obj oi).cls
  if bySectors (s.obj oi).cls then { r with wire := 7, len := 8192, data := d }
  else { r with wire := 7, len := ofLe (cut 16 2 d), aux := ofLe (cut 18 1 d), data := cut n (ofLe (cut 16 2 d)) d }

/-- The next move of a bulk copy: a tile is read through its memory station, its packets leave when it has been confirmed, and
a Flush follows the last.  DESIGN CHOICE (log 143): a tile whose read fails ends the copy. -/
def settleCopy (c : Copy) (s : State) : State :=
  let set (c' : Copy) (s : State) : State := { s with copies := s.copies.map fun x => if x.q = c.q ∧ x.seq = c.seq then c' else x }
  let leave (s : State) : State := { s with copies := s.copies.filter fun x => !(x.q == c.q && x.seq == c.seq) }
  match s.taken.find? fun t => t.q == c.q && t.seq == c.seq with
  | none => leave s
  | some t =>
    let finish (s : State) : State := keepSend c.part c.dst [keepFlush t c.part c.dst s] (leave s)
    if c.tiles ≤ c.sent then finish s
    else match c.got with
    | some (0, d) =>
      let r : LReq := { part := c.part, epoch := s.epoch, dst := c.dst, handle := c.handle, off := c.off + 8192 * c.sent, tag := c.counter,
                        fence := c.fence }
      keepSend c.part c.dst [bulkTile s c.obj d r] (set { c with sent := c.sent + 1, asked := false, got := none } s)
    | some _ => finish s
    | none =>
      if c.asked then s
      else match tileReq s c.part c.obj (c.first + c.sent) false with
      | none => finish s
      | some (m, r) =>
        let r := { r with origin := c.st, tag := c.seq % 1024, fence := c.fence }
        emit (.dreq c.st 0 r.tag (le 1 m ++ packReq r) []) (set { c with asked := true, got := none } s)

def settleCopies (s : State) : State := each s.copies settleCopy s

/-- BULK_COPY (05 R169): Running until its Flush is answered. -/
def bodyBulkCopy : Body := fun t _ _ s =>
  let src := opnd t.e 0 4
  let off := opnd t.e 4 5
  let dst := opnd t.e 9 3
  let doff := opnd t.e 16 5
  let n := opnd t.e 24 4
  let part := s.partOf t
  let a := objAccess s part src off (8192 * n) false
  let k := keepLinkCheck s part dst
  if k ≠ 0 then failCmd t k s
  else if off % 8192 ≠ 0 ∨ doff % 8192 ≠ 0 then failCmd t yeLength s
  else if a ≠ 0 then failCmd t a s
  else
    let c : Copy := { st := linkFor s part dst, q := t.q, seq := t.seq, part := part, obj := handleIdx src, first := off / 8192, tiles := n,
                      dst := dst, handle := BitVec.ofNat 32 (opnd t.e 12 4), off := doff, counter := opnd t.e 22 2, fence := envFence t.e }
    settleCopy c (holdResult t 1 [] { s with copies := s.copies ++ [c] })

def execBulkCopy (q : Nat) (e : BitVec 1024) (rc : BitVec 16) (inp : List (BitVec 8)) (s : State) : Res :=
  .next (takeCmd 0x0512 bodyBulkCopy q e rc inp s)

/-- The header of a checkpoint record (05 Table 5.18). -/
def ckptHdr (num dev idx len : Nat) : Bytes := le 4 num ++ le 3 dev ++ [0] ++ le 6 idx ++ [0, 0] ++ le 8 len ++ zeros 8
def ckptIv (dev num idx : Nat) : Bytes := be 12 (dev * 2 ^ 78 + num * 2 ^ 46 + idx)

/-- Checkpoint chunks of a record to one holder. The data holder's copy carries shard index 15 (log 20). -/
def chunkReqs (t : Taken) (part dst h aux : Nat) (rcd : Bytes) (s : State) : List LReq :=
  ((chunks 4096 rcd.length rcd).zipIdx.map fun x => ({
    wire := 8, part := part, epoch := s.epoch, dst := dst, handle := BitVec.ofNat 32 h, off := 4096 * x.2, len := x.1.length,
    aux := aux, fence := envFence t.e, data := x.1 } : LReq)) ++ [keepFlush t part dst s]

/-- CKPT_SEND (05 R179, R180; 06 Table 6.5). -/
def bodyCkptSend : Body := fun t rc inp s =>
  let src := opnd t.e 0 4
  let off := opnd t.e 4 5
  let data := opnd t.e 9 3
  let n := opnd t.e 12 4
  let num := opnd t.e 16 4
  let idx := opnd t.e 20 6
  let shard := opnd t.e 26 1
  let mode := opnd t.e 27 1
  let part := s.partOf t
  let d := s.dom part
  let k := s.key d.ckptSlot
  let holders := [(data, opnd t.e 28 4, 15)] ++ (if 1 ≤ mode then [(opnd t.e 32 3, opnd t.e 38 4, shard)] else []) ++
    (if mode = 2 then [(opnd t.e 35 3, opnd t.e 42 4, shard + 16)] else [])
  let bad := ((holders.map fun x => keepLinkCheck s part x.1).find? (· != 0)).getD 0
  let old := match k.ckpt with
    | some (a, b) => decide (num < a ∨ (num = a ∧ idx ≤ b))
    | none => false
  let acc := objAccess s part src off (8192 * n) false
  if bad ≠ 0 then failCmd t bad s
  else if 2 < mode ∨ 7 < shard ∨ 2 ^ 46 ≤ idx ∨ k.cls ≠ 4 then failCmd t yeDenied s
  else if off % 8192 ≠ 0 then failCmd t yeLength s
  else if 2 ^ 32 - 1 ≤ num then failCmd t yeExhausted s
  else if old then failCmd t yeDenied s
  else if acc ≠ 0 then failCmd t acc s
  else withInput t rc (fun s =>
    let tiles := parseTiles n inp
    let s := addMeter part 5 (tiles.map (·.1)).sum s
    let body := (tiles.map tileEntry).flatten
    let hdr := ckptHdr num d.own idx body.length
    let (c, tag) := gcmSeal k.cur (ckptIv d.own num idx) hdr body
    let rcd := hdr ++ tag ++ c
    let s := s.onKey d.ckptSlot fun k => { k with ckpt := some (num, idx) }
    let s := if 2 ^ 31 ≤ num ∧ !k.warned then keyThreshold d.ckptSlot (s.onDom part fun d => { d with askRot := some 4 }) else s
    each holders (fun x s => keepSend part x.1 (chunkReqs t part x.1 x.2.1 x.2.2 rcd s) s) (holdResult t holders.length (le 8 rcd.length) s)) s

def execCkptSend (q : Nat) (e : BitVec 1024) (rc : BitVec 16) (inp : List (BitVec 8)) (s : State) : Res :=
  .next (takeCmd 0x0520 bodyCkptSend q e rc inp s)

/-- Whole-tile writes of the keep to an object: a Loading sealed region takes them at its cursor. -/
def tileAccess (s : State) (part h off len : Nat) : Nat :=
  let o := s.obj (handleIdx h)
  if o.cls = 1 ∧ o.loading then objAccess (s.onObj (handleIdx h) fun o => { o with cls := 2 }) part h off len true
  else objAccess s part h off len true

/-- CKPT_RESTORE (05 R181): nothing is written when the record's tag fails. -/
def bodyCkptRestore : Body := fun t rc inp s =>
  let h := opnd t.e 4 4
  let off := opnd t.e 8 5
  let part := s.partOf t
  let k := s.key (s.dom part).ckptSlot
  withInput t rc (fun s =>
    let len := ofLe (cut 16 8 inp)
    let hdr := inp.take 32
    let iv := ckptIv (ofLe (cut 4 3 inp)) (ofLe (cut 0 4 inp)) (ofLe (cut 8 6 inp))
    let open_ (key : BitVec 256) := gcmOpen key iv hdr (cut 48 len inp) (cut 32 16 inp)
    let ra := objAccess s part (opnd t.e 0 4) 0 (48 + len) false
    if ra ≠ 0 then failCmd t ra s
    else if off % 8192 ≠ 0 ∨ len % 16 ≠ 0 ∨ inp.length < 48 + len then failCmd t yeLength s
    else if k.cls ≠ 4 then failCmd t yeKey s
    else
    let s := addMeter part 5 (48 + len) s
    match (open_ k.cur).orElse fun _ => if k.pendIs = 2 then open_ k.pend else none with
    | none => failCmd t yeTagFail s
    | some b =>
      let tiles := parseTiles (b.length / 16) b
      let a := tileAccess s part h off (8192 * tiles.length)
      if a ≠ 0 then failCmd t a s
      else
        let s := addMeter part 4 (tiles.map (·.1)).sum s
        done t (le 4 tiles.length) (each tiles.zipIdx (fun x s => emit (.tileWrite h (off / 8192 + x.2) x.1.1 x.1.2.1 x.1.2.2) s) s)) s

def execCkptRestore (q : Nat) (e : BitVec 1024) (rc : BitVec 16) (inp : List (BitVec 8)) (s : State) : Res :=
  .next (takeCmd 0x0521 bodyCkptRestore q e rc inp s)

/-! ### Parity (05 R180, R181) -/

/-- Shards as the input reads give them: a 4-byte length before each, missing ones of length 0. -/
def parseShards : Nat → Bytes → List Bytes
  | 0, _ => []
  | f + 1, b => cut 4 (ofLe (b.take 4)) b :: parseShards f (b.drop (4 + ofLe (b.take 4)))

/-- a / b in the field, b not zero. -/
def gdiv (a b : Byte) : Byte := ((List.range 256).map (BitVec.ofNat 8)).find? (fun x => gmulByte x b == a) |>.getD 0

/-- One byte position of a stripe: the ten shards after the rebuild. -/
def rebuildByte (missing : List Nat) (v : List Byte) : List Byte :=
  let d (m : Nat) : Byte := v.getD m 0
  let sum0 (skip : List Nat) : Byte := ((List.range 8).filter fun m => !skip.contains m).foldl (fun a m => a ^^^ d m) 0
  let sum1 (skip : List Nat) : Byte := ((List.range 8).filter fun m => !skip.contains m).foldl (fun a m => a ^^^ gmulByte (gpow m) (d m)) 0
  let v' := match missing.filter (· < 8) with
    | [i, k] =>
      let a := d 8 ^^^ sum0 [i, k]
      let b := d 9 ^^^ sum1 [i, k]
      let dk := gdiv (b ^^^ gmulByte (gpow i) a) (gpow i ^^^ gpow k)
      (v.set k dk).set i (a ^^^ dk)
    | [i] => if missing.contains 8 then v.set i (gdiv (d 9 ^^^ sum1 [i]) (gpow i)) else v.set i (d 8 ^^^ sum0 [i])
    | _ => v
  let p0 := (v'.take 8).foldl (fun a x => a ^^^ x) 0
  let p1 := ((v'.take 8).zipIdx).foldl (fun a x => a ^^^ gmulByte (gpow x.2) x.1) 0
  let v' := if missing.contains 8 then v'.set 8 p0 else v'
  if missing.contains 9 then v'.set 9 p1 else v'

/-- PARITY_REBUILD: the rebuilt shards go to the output object one after another, in shard order (log 21). -/
def bodyParityRebuild : Body := fun t rc inp s =>
  let mode := opnd t.e 0 1
  let mask := opnd t.e 1 2
  let part := s.partOf t
  let missing := (List.range 10).filter fun i => mask / 2 ^ i % 2 == 1
  let gone (i : Nat) : Bool := opnd t.e (4 + 4 * i) 4 == 0
  let survives := if mode = 1 then decide ((missing.filter (· < 9)).length ≤ 1) else mode == 2
  let fits := (List.range 10).all fun i => gone i == missing.contains i || (mode == 1 && i == 9)
  if 2 ^ 10 ≤ mask ∨ 2 < missing.length ∨ survives = false ∨ fits = false then failCmd t yeDenied s
  else withInput t rc (fun s =>
    let sh := parseShards 10 inp
    let codes := (sh.zipIdx.filter fun x => !gone x.2).map fun x => objAccess s part (opnd t.e (4 + 4 * x.2) 4) 0 x.1.length false
    let a := (codes.find? (· != 0)).getD 0
    let n := (sh.map List.length).foldl max 0
    let cols := (List.range n).map fun x => rebuildByte missing (sh.map fun b => b.getD x 0)
    let out := ((missing.filter fun i => !(mode == 1 && i == 9)).map fun i => cols.map fun v => v.getD i 0).flatten
    if a ≠ 0 then failCmd t a s
    else putObj t part (opnd t.e 44 4) 0 out (done t []) (addMeter part 5 (sh.map List.length).sum s)) s

def execParityRebuild (q : Nat) (e : BitVec 1024) (rc : BitVec 16) (inp : List (BitVec 8)) (s : State) : Res :=
  .next (takeCmd 0x0522 bodyParityRebuild q e rc inp s)

end Sys2Proof.Machine
end

