-- ==== Sys2Proof/Machine/Keys.lean ====
section
/-! DEFINITION. The Key Register's life: draining, purging and destroying slots, swaps, the random sources, and the
key commands (06). -/

namespace Sys2Proof.Machine
open Sys2Proof Sys2Proof.Crypto

/-! ### Destruction (06 R204, R205; 09 R322) -/

/-- The entries of a placement: those its lines stand on. -/
def placeEntries (cls : Nat) (p : Place) : List Nat := (List.range (linesOf cls p.count)).map (entryOf p)

/-- Frees an object: entries keep their root counters, the index takes its next generation or is Withheld (09 R316). -/
def freeObject (oi : Nat) (s : State) : State :=
  let o := s.obj oi
  let s := each o.places (fun p s => s.onMem p.st fun m =>
    let es := placeEntries o.cls p
    { m with vrt := tmap (fun e v => if es.contains e then vrtFree v else v) m.vrt,
             lines := m.lines.filter fun l => !es.contains l.entry, reseal := m.reseal.filter fun x => !es.contains x.1,
             locks := m.locks.filter fun x => !es.contains x.1, reports := m.reports.filter fun x => !es.contains x.1,
             marks := m.marks.filter fun x => !es.contains x.1,
             fetching := m.fetching.filter fun e => !es.contains e }) s
  let s := { s with mem := tmap (fun _ m => { m with
    descs := without m.descs oi, retObjs := without m.retObjs oi, frzObjs := without m.frzObjs oi }) s.mem }
  if 4095 ≤ o.gen then s.onObj oi fun o => { state := 4, gen := o.gen } else s.onObj oi fun o => { gen := o.gen + 1 }

/-- What follows the overwrite of a slot: its region is free, and commands that waited for it complete. -/
def afterDestroy (slot : Nat) (s : State) : State :=
  let k := s.key slot
  if k.state = 0 then
    let s := each (s.objs.filter fun o => o.2.cls != 4 && o.2.state == 3 && o.2.keySlot == slot) (fun o s => freeObject o.1 s) s
    let s := { s with mem := tmap (fun _ m => { m with retSlots := without m.retSlots slot }) s.mem }
    let s := each (runningWith s 0x0602 slot) (fun t s => failCmd t yeKey s) s
    each (runningWith s 0x0604 slot) (fun t s => done t [] s) s
  else
    each (runningWith s 0x0602 slot) (fun t s =>
      if ofLe t.inp ≤ k.gen then done t (le 4 k.gen ++ kcv k.cur) s else s) s

/-- Starts the purge of a slot's halves: 1 both, 2 the previous one.  Every station that may hold the class confirms each
generation; a class no station holds is overwritten at once. -/
def startPurge (slot which : Nat) (s : State) : State :=
  let s := s.onKey slot fun k =>
    let k := { k with purging := which }
    { k with waitPurge := (purgedGens k).flatMap fun g => (holders k.cls).map fun st => (st, g) }
  if (s.key slot).waitPurge.isEmpty then afterDestroy slot (overwrite slot s) else s

/-- KEY_PURGE_CONFIRM: a station confirms once its cache entry is gone, which waits while it is pinned (06 R204). -/
def purgeConfirm (slot st : Nat) (gen : BitVec 32) (s : State) : State :=
  let g := gen.toNat
  if !(s.key slot).waitPurge.contains (st, g) || ((s.port st).keys.contains (slot, g) && keyPinned s st (slot, g)) then s
  else
    let s := s.onPort st fun p => { p with keys := without p.keys (slot, g) }
    let s := s.onKey slot fun k => { k with waitPurge := without k.waitPurge (st, g) }
    if (s.key slot).waitPurge.isEmpty then afterDestroy slot (overwrite slot s) else s

def execKeyPurgeConfirm (slot st : Nat) (gen : BitVec 32) (s : State) : Res := .next (purgeConfirm slot st gen s)

/-- An operation of the command engine that has started under a slot goes on (06 R205, R218). -/
def engineUses (s : State) (slot : Nat) : Bool :=
  s.users.any fun u => u.2.live && u.2.slot == slot && (userHalf (s.key slot) u.2.gen).isSome

/-- Every station has reported its count for a slot at zero, and no engine operation goes on under it (06 R205). -/
def slotDrained (s : State) (slot : Nat) : Bool :=
  !engineUses s slot && (holders (s.key slot).cls).all fun st =>
    if isMem st then (s.memSt st).retSlots.contains slot && !((s.memSt st).reqs.any (underSlot s slot))
    else if isLink st then
      let l := s.linkSt st
      !(l.jobs.any fun j => j.2.slot == slot && (j.2.state == 1 ||
        l.held.any (fun h => h.part == j.1) || l.trackers.any (fun t => t.2.part == j.1) || l.waiting.any (fun r => r.part == j.1) ||
        l.ops.any (fun o => o.part == j.1)))
    else !keyPinned s st (slot, (s.key slot).gen)

/-- The slot's partition is being removed: the removal destroys its slots together (08 R284). -/
def removing (s : State) (slot : Nat) : Bool := !(s.key slot).keepOwn && (s.part (s.key slot).owner).state == 5

/-- KEY_DRAIN_COMPLETE (06 R205). -/
def drainComplete (slot : Nat) (s : State) : State :=
  let k := s.key slot
  if k.state = 6 ∧ k.purging = 0 ∧ !removing s slot ∧ slotDrained s slot then startPurge slot 1 s else s

def execKeyDrainComplete (slot : Nat) (s : State) : Res := .next (drainComplete slot s)

/-- KEY_DRAIN_TIMEOUT: the keep cuts the drain in every station and destroys the halves (06 R205). -/
def drainTimeout (slot : Nat) (s : State) : State :=
  if drainOver s slot ∧ (s.key slot).purging = 0 ∧ !removing s slot then
    startPurge slot 1 (each (holders (s.key slot).cls) (fun st s => drainCut st slot s) s)
  else s

def execKeyDrainTimeout (slot : Nat) (s : State) : Res := .next (drainTimeout slot s)

/-- The drain condition of 06 Table 6.5 for the old half of a Draining slot. -/
def oldHalfDrained (s : State) (slot : Nat) : Bool :=
  let k := s.key slot
  match k.cls with
  | 1 => s.mem.all fun m => !(m.2.reqs.any fun r => r.keySlot == slot && r.keyGen + 1 == k.gen)
  | 3 => s.link.all fun l => l.2.jobs.all fun j => j.2.slot != slot || (j.2.prev.isNone && j.2.gen == k.gen % 2 ^ 16)
  | 7 => true
  | _ => false

/-- Destroys the old half when every station has confirmed the swap and the drain condition holds. -/
def tryOldHalf (slot : Nat) (s : State) : State :=
  let k := s.key slot
  if k.state = 5 ∧ k.purging = 0 ∧ k.waitSwap.isEmpty ∧ oldHalfDrained s slot then startPurge slot 2 s else s

/-- SWAP_CONFIRM (06 R201, 05 R177). -/
def swapConfirm (slot st : Nat) (s : State) : State :=
  let k := s.key slot
  if k.state ≠ 5 ∨ !k.waitSwap.contains st then s
  else tryOldHalf slot (s.onKey slot fun k => { k with waitSwap := without k.waitSwap st })

def execSwapConfirm (slot st : Nat) (s : State) : Res := .next (swapConfirm slot st s)

/-! ### Random sources (06 R184 to R188) -/

/-- A fault event raised at a class of its own. -/
def faultAs (u src c fence : Nat) (detail : BitVec 64) (s : State) : State :=
  raise u src c false 1 fence detail (countFault u src s)

/-- NOISE_SOURCE_FAILURE: raw bits of a source fail its health tests; a disabled source stays disabled until the next keep
start, and the block that its bits were going into is discarded (06 R188, R218). -/
def noiseFail (i : Nat) (raw : BitVec 1024) (s : State) : State :=
  if s.keep.ready ∧ i < 4 ∧ s.keep.noise.getLsbD i ∧ unhealthy raw then
    let n := s.keep.noise &&& ~~~(1#4 <<< i)
    faultAs Config.keepId 0x18 (if popc n < 2 then 3 else 2) 0xFFFF (BitVec.ofNat 64 i)
      { s with keep := { s.keep with noise := n, condRaw := 0 } }
  else s

def execNoiseSourceFailure (source : Nat × BitVec 1024) (s : State) : Res := .next (noiseFail source.1 source.2 s)

/-- Takes `n` conditioned blocks. -/
def takeCond (n : Nat) (s : State) : Bytes × State :=
  (((List.range n).map fun i => condBlock (s.cond + i)).flatten, { s with cond := s.cond + n })

/-- DRBG_RESEED: after 4,096 generates or 100 ms, from two blocks of the buffer (06 R186). -/
def reseed (i : Nat) (s : State) : State :=
  if 2 ≤ i ∨ !drbgLive s i ∨ !reseedDue s i ∨ s.keep.condBuf < 2 then s
  else
    let (b, s) := takeCond 2 s
    let d := drbgReseed b s.now (s.drbg i)
    { s with keep := { s.keep with condBuf := s.keep.condBuf - 2, drbg0 := if i = 0 then d else s.keep.drbg0, drbg1 := if i = 0 then s.keep.drbg1 else d } }

def execDrbgReseed (inst : Nat) (s : State) : Res := .next (reseed inst s)

/-- The conditioner gathers raw bits, 0.125 in a tick from each enabled source, while two or more are enabled; a block
takes 1,024 of them, and the buffer holds 8 blocks (06 R184, R186, R188). -/
def gatherNoise (s : State) : State :=
  let k := s.keep
  if popc k.noise < 2 ∨ 8 ≤ k.condBuf then s
  else
    let n := k.condRaw + popc k.noise
    { s with keep := if 8192 ≤ n then { k with condRaw := n - 8192, condBuf := k.condBuf + 1 } else { k with condRaw := n } }

/-- A command that needs random bits waits for them (06 R188). -/
def waitDraw (t : Taken) (s : State) : State :=
  { s with taken := s.taken.map fun x =>
    if x.q == t.q && x.seq == t.seq then { x with phase := 2, askedDrbg := some (x.askedDrbg.getD s.now) } else x }

def findTaken (s : State) (q seq : Nat) : Option Taken := s.taken.find? fun t => t.q == q && t.seq == seq

/-- When a command that waits for random bits fails: 1 ms after it asked, and EVIDENCE_GET 50 ms after it was taken
(06 R188, 07 R228). -/
def drawLimit (t : Taken) (asked : Nat) : Nat := if envOpcode t.e = 0x0701 then t.takenAt + Config.ms 50 else asked + Config.ms 1

/-- DRBG_WAIT_TIMEOUT. -/
def drbgTimeout (q seq : Nat) (s : State) : State :=
  match findTaken s q seq with
  | none => s
  | some t =>
    match t.askedDrbg with
    | some a => if drawLimit t a ≤ s.now then failCmd t yeTimeout s else s
    | none => s

def execDrbgWaitTimeout (q : Nat) (seq : BitVec 32) (s : State) : Res := .next (drbgTimeout q seq.toNat s)

/-! ### Key commands (06 Table 6.10) -/

def creatable (cls : Nat) : Bool := cls == 9 || cls == 0xA || cls == 0xC

/-- A tenant slot of the issuing cores' partition (06 R217). -/
def ownsSlot (s : State) (t : Taken) (slot : Nat) : Bool :=
  let k := s.key slot
  (s.ctx (s.queue t.q).ctx).device && k.state != 0 && isTenantCls k.cls && !k.keepOwn && k.owner == s.partOf t

def keyResult (s : State) (slot : Nat) : Bytes := le 2 slot ++ le 4 (s.key slot).gen ++ kcv (s.key slot).cur

/-- A command writes a key into a slot, unless its verification fails (06 R199). -/
def takeKey (t : Taken) (k : State → State) (s : State) : State :=
  if s.keep.verifyBad then failCmd t yePoison (keyFails s) else k s

/-- KEY_CREATE. -/
def bodyKeyCreate : Body := fun t _ _ s =>
  let cls := opnd t.e 0 1
  if !creatable cls then failCmd t yeDenied s
  else match freeSlot s false with
  | none => failCmd t yeQuota s
  | some i =>
    if !canDraw s 0 then waitDraw t s
    else
      let (k, s) := draw0 s
      takeKey t (fun s => let s := firstKey i cls (s.partOf t) false k s; done t (keyResult s i) s) s

def execKeyCreate (q : Nat) (e : BitVec 1024) (rc : BitVec 16) (inp : List (BitVec 8)) (s : State) : Res :=
  .next (takeCmd 0x0601 bodyKeyCreate q e rc inp s)

/-- The object whose region key a slot holds. -/
def regionOf (s : State) (slot : Nat) : Option Nat :=
  (s.objs.find? fun o => o.2.state == 1 && o.2.cls != 4 && o.2.keySlot == slot).map (·.1)

/-- A command that waits on a re-key holds a queued reference on the region (03 R95). -/
def holdRef (t : Taken) (oi : Nat) (s : State) : State :=
  { s with taken := s.taken.map fun x => if x.q == t.q && x.seq == t.seq then { x with objs := oi :: x.objs } else x }

/-- KEY_ROTATE: a region key is re-keyed by threshold and signals when the old key is destroyed; a tenant key keeps its
old half until KEY_RETIRE_PREVIOUS (06 R203, 03 R92, R96). -/
def bodyKeyRotate : Body := fun t _ _ s =>
  let slot := opnd t.e 0 2
  let k := s.key slot
  let region := k.cls = 1 ∧ k.state ≠ 0 ∧ !k.keepOwn ∧ ((s.ctx (s.queue t.q).ctx).device = false ∨ k.owner = s.partOf t)
  if region then
    if k.state = 6 then failCmd t yeKey s
    else match regionOf s slot with
    | none => failCmd t yeDenied s
    | some oi =>
      if !canDraw s 0 then waitDraw t s
      else
        let s := holdRef t oi (holdResult t slot (le 4 (k.gen + (if k.state = 4 then 2 else 1))) s)
        if k.state = 4 then s.onObj oi fun o => { o with rekey := o.rekey.map fun r => { r with again := true } }
        else startRekey oi false [] s
  else if !ownsSlot s t slot then failCmd t yeDenied s
  else if k.state = 6 then failCmd t yeKey s
  else if k.state ≠ 1 then failCmd t yeDenied s
  else if !canDraw s 0 then waitDraw t s
  else
    let (x, s) := draw0 s
    takeKey t (fun s => let s := commitSwap slot (s.onKey slot (writeNext x)); done t (le 4 (s.key slot).gen ++ kcv x) s) s

def execKeyRotate (q : Nat) (e : BitVec 1024) (rc : BitVec 16) (inp : List (BitVec 8)) (s : State) : Res :=
  .next (takeCmd 0x0602 bodyKeyRotate q e rc inp s)

/-- KEY_RETIRE_PREVIOUS. -/
def bodyKeyRetirePrevious : Body := fun t _ _ s =>
  let slot := opnd t.e 0 2
  if !ownsSlot s t slot ∨ (s.key slot).state ≠ 5 then failCmd t yeDenied s
  else done t [] (startPurge slot 2 s)

def execKeyRetirePrevious (q : Nat) (e : BitVec 1024) (rc : BitVec 16) (inp : List (BitVec 8)) (s : State) : Res :=
  .next (takeCmd 0x0603 bodyKeyRetirePrevious q e rc inp s)

/-- KEY_DESTROY: signals when the halves are destroyed. -/
def bodyKeyDestroy : Body := fun t _ _ s =>
  let slot := opnd t.e 0 2
  if !ownsSlot s t slot then failCmd t yeDenied s
  else if (s.key slot).state = 6 then failCmd t yeKey s
  else keepRunning t slot (retireSlot slot (Config.ms 2) s)

def execKeyDestroy (q : Nat) (e : BitVec 1024) (rc : BitVec 16) (inp : List (BitVec 8)) (s : State) : Res :=
  .next (takeCmd 0x0604 bodyKeyDestroy q e rc inp s)

/-- KEY_QUERY: key check values only to the owning partition's cores. -/
def bodyKeyQuery : Body := fun t _ _ s =>
  let slot := opnd t.e 0 2
  let k := s.key slot
  let c := s.ctx (s.queue t.q).ctx
  let owned := k.state ≠ 0 ∧ !k.keepOwn ∧ k.owner = c.part
  if 16384 ≤ slot then failCmd t yeDenied s
  else if c.device then
    if owned then
      done t (le 8 (attrWord k).toNat ++ (if k.first then zeros 8 else kcv k.cur) ++ (if k.pendIs = 0 then zeros 8 else kcv k.pend)) s
    else failCmd t yeDenied s
  else if c.part = 0xFF ∨ owned then done t (le 8 (attrWord k).toNat ++ zeros 16) s
  else failCmd t yeDenied s

def execKeyQuery (q : Nat) (e : BitVec 1024) (rc : BitVec 16) (inp : List (BitVec 8)) (s : State) : Res :=
  .next (takeCmd 0x0605 bodyKeyQuery q e rc inp s)

/-- KEY_IMPORT. -/
def bodyKeyImport : Body := fun t rc inp s =>
  let w := opnd t.e 0 2
  let cls := opnd t.e 2 1
  let k := s.key w
  if !ownsSlot s t w ∨ k.cls ≠ 0xA ∨ !creatable cls then failCmd t yeDenied s
  else if k.state = 6 then failCmd t yeKey s
  else readIn t (opnd t.e 4 4) (opnd t.e 8 5) 40 rc (fun s =>
    let b := fit 40 inp
    match (kwUnwrap k.cur b).orElse fun _ => if k.pendIs = 2 then kwUnwrap k.pend b else none with
    | none => failCmd t yeTagFail s
    | some key =>
      match freeSlot s false with
      | none => failCmd t yeQuota s
      | some i =>
        takeKey t (fun s => let s := firstKey i cls (s.partOf t) false (keyOf key) s; done t (keyResult s i) s) s) s

def execKeyImport (q : Nat) (e : BitVec 1024) (rc : BitVec 16) (inp : List (BitVec 8)) (s : State) : Res :=
  .next (takeCmd 0x0606 bodyKeyImport q e rc inp s)

/-- RANDOM_GET: instance 1 serves it (06 R187). -/
def bodyRandomGet : Body := fun t _ _ s =>
  let n := opnd t.e 10 2
  let h := opnd t.e 0 4
  let off := opnd t.e 4 5
  let part := accPart s t h
  let a := objAccess s part h off n true
  if n = 0 ∨ 4096 < n then failCmd t yeLength s
  else if a ≠ 0 then failCmd t a s
  else if !canDraw s 1 then waitDraw t s
  else
    let (b, s) := drawBytes n s
    done t [] (writeOut part h off b s)

def execRandomGet (q : Nat) (e : BitVec 1024) (rc : BitVec 16) (inp : List (BitVec 8)) (s : State) : Res :=
  .next (takeCmd 0x0620 bodyRandomGet q e rc inp s)

end Sys2Proof.Machine
end

