-- ==== Sys2Proof/Machine/Cipher.lean ====
section
/-! DEFINITION. The command cipher engine: GCM, CTR, CMAC and key-wrap commands, chained operations and their saved
state (06 R209 to R216). -/

namespace Sys2Proof.Machine
open Sys2Proof Sys2Proof.Crypto

/-- The most text one command carries (06 Table 6.7). -/
def maxText : Nat := 4194304
def invLimit : Nat := 2 ^ 48 - 1

/-- The nonce of an invocation (06 Table 6.8). -/
def cmdNonce (slot gen inv : Nat) : Bytes := be 12 (slot * 2 ^ 82 + (gen % 2 ^ 16) * 2 ^ 66 + inv)

/-- Counts an invocation; a tenant key has a threshold (06 R211, Table 6.5). -/
def countInv (slot : Nat) (s : State) : State :=
  let s := s.onKey slot fun k => { k with inv := k.inv + 1 }
  if isTenantCls (s.key slot).cls ∧ 2 ^ 47 ≤ (s.key slot).inv then keyThreshold slot s else s

/-- The half whose generation a nonce names (06 R212). -/
def nonceHalf (k : KeySlot) (nonce : Bytes) : Option (Nat × BitVec 256) :=
  let g := ofBe nonce / 2 ^ 66 % 2 ^ 16
  if k.state = 0 ∨ k.state = 6 then none
  else if g = k.gen % 2 ^ 16 then some (k.gen, k.cur)
  else if k.pendIs = 2 ∧ g = (k.gen - 1) % 2 ^ 16 then some (k.gen - 1, k.pend)
  else none

/-- Text under a counter stream, from a byte position of the operation. -/
def streamXor (key : BitVec 256) (nonce : Bytes) (first pos : Nat) (t : Bytes) : Bytes :=
  (ctrXor key nonce (first + pos / 16) (zeros (pos % 16) ++ t)).drop (pos % 16)

def hashKey (key : BitVec 256) : BitVec 128 := blk (aes256 key (zeros 16))

/-- Ciphertext enters the GHASH accumulator, whole blocks now and the rest with what follows. -/
def absorb (key : BitVec 256) (u : User) (c : Bytes) : User :=
  let d := u.part ++ c
  let n := d.length / 16 * 16
  { u with acc := unblk (ghashFrom (hashKey key) (blk u.acc) (d.take n)), part := d.drop n }

/-- The tag of a finished GCM operation. -/
def finishTag (key : BitVec 256) (u : User) : Bytes :=
  let h := hashKey key
  let a := ghashFrom h (blk u.acc) u.part
  let a := ghashFrom h a (be 8 (8 * u.aadLen) ++ be 8 (8 * u.textLen))
  xorb (unblk a) (aes256 key (u.counter ++ [0, 0, 0, 1]))

/-- CMAC input: everything but the last block is chained. -/
def absorbMac (key : BitVec 256) (u : User) (m : Bytes) : User :=
  let d := u.part ++ m
  let n := beforeLast d.length
  { u with acc := cmacFrom (roundKeys (keyBytes key)) u.acc (d.take n), part := d.drop n }

/-- The lowest free user, and room in the operation table (06 R214). -/
def freeUser (s : State) : Option Nat := if 1024 ≤ s.opTab.length then none else lowFree s.users 0 64

/-- A START takes a user and an operation number. -/
def startUser (t : Taken) (i mode slot gen : Nat) (nonce : Bytes) (s : State) : State :=
  let c := (s.queue t.q).ctx
  { s with users := tset s.users i { live := true, ctx := c, op := s.nextOp, mode := mode, slot := slot, gen := gen,
                                      counter := nonce, acc := zeros 16 },
           opTab := tset s.opTab s.nextOp { ctx := c }, nextOp := (s.nextOp + 1) % 2 ^ 32 }

def dropUser (i : Nat) (s : State) : State :=
  { s with users := tdel s.users i, opTab := tdel s.opTab (tget {} s.users i).op }
def setUser (i : Nat) (u : User) (s : State) : State := { s with users := tset s.users i u }

/-- A command that goes on with a user's operation: the code that refuses it, or 0. -/
def userCheck (s : State) (t : Taken) (i mode slot : Nat) : Nat :=
  let u := tget {} s.users i
  if !u.live ∨ u.ctx ≠ (s.queue t.q).ctx ∨ u.mode ≠ mode ∨ u.slot ≠ slot then yeDenied
  else if (userHalf (s.key slot) u.gen).isNone then yeKey else 0

def userResult (s : State) (i : Nat) : Bytes := le 1 i ++ zeros 3 ++ le 4 (tget {} s.users i).op

/-- Checks of a tenant slot for an operation that starts: ownership, class, state (06 R217, R218). -/
def slotCheck (s : State) (t : Taken) (slot cls : Nat) : Nat :=
  if !ownsSlot s t slot ∨ (s.key slot).cls ≠ cls then yeDenied else if (s.key slot).state = 6 then yeKey else 0

/-- Engine blocks, in the keep's counter and in the profile set of the command (13 R407). -/
def countBlocks (t : Taken) (n : Nat) (s : State) : State :=
  let count (p : Prof) : Prof :=
    if p.queue = some t.q ∧ BitVec.ofNat 16 (envLayer t.e) &&& p.layerMask = p.layer &&& p.layerMask ∧
        BitVec.ofNat 16 (envOper t.e) &&& p.operMask = p.oper &&& p.operMask then
      if p.next.isSome then { p with nextBlocks := p.nextBlocks + n } else { p with blocks := p.blocks + n }
    else p
  bump Config.keepId 12 n { s with profs := tmap (fun _ p => count p) s.profs }

/-! ### GCM -/

/-- CIPHER_GCM_SEAL. -/
def bodyGcmSeal : Body := fun t rc inp s =>
  let slot := opnd t.e 0 2
  let flags := opnd t.e 3 1
  let start := flags % 2 = 1
  let fin := flags / 2 % 2 = 1
  let n := opnd t.e 16 4
  let aad := opnd t.e 20 4
  let k := s.key slot
  let c := slotCheck s t slot 9
  let i := if start then freeUser s else some (opnd t.e 2 1)
  let u := tget {} s.users (i.getD 0)
  let c := if start ∨ c = yeDenied then c else userCheck s t (i.getD 0) 1 slot
  let oc := objAccess s (s.partOf t) (opnd t.e 24 4) (opnd t.e 28 5) n true
  if c ≠ 0 then failCmd t c s
  else if 4 ≤ flags then failCmd t yeDenied s
  else if n = 0 ∨ maxText < n ∨ (¬ start ∧ aad ≠ 0) ∨ 2 ^ 36 - 32 < (if start then 0 else u.textLen) + n then failCmd t yeLength s
  else if start ∧ invLimit ≤ k.inv then failCmd t yeExhausted s
  else match i with
  | none => failCmd t yeQuota s
  | some i =>
    readIn t (opnd t.e 4 4) (opnd t.e 8 5) (aad + n) rc (fun s =>
      if oc ≠ 0 then failCmd t oc s else
      let nonce := cmdNonce slot k.gen k.inv
      let s := if start then countInv slot (startUser t i 1 slot k.gen nonce s) else s
      let u := tget {} s.users i
      let key := (userHalf (s.key slot) u.gen).getD 0
      let u := if start then { absorb key { u with part := [] } (pad16 (fit aad inp)) with aadLen := aad } else u
      let ct := streamXor key u.counter 2 u.textLen (cut aad n inp)
      let u := { absorb key u ct with textLen := u.textLen + n }
      let s := countBlocks t (nblocks n + (if start then 1 else 0) + (if fin then 1 else 0))
        (writeOut (s.partOf t) (opnd t.e 24 4) (opnd t.e 28 5) ct (setUser i u s))
      let res := userResult s i ++ (if start then u.counter else zeros 12) ++ (if fin then finishTag key u else [])
      done t res (if fin then dropUser i s else s)) s

def execCipherGcmSeal (q : Nat) (e : BitVec 1024) (rc : BitVec 16) (inp : List (BitVec 8)) (s : State) : Res :=
  .next (takeCmd 0x0610 bodyGcmSeal q e rc inp s)

/-- CIPHER_GCM_UNSEAL: two passes, and nothing is written unless the tag matches (06 R213). -/
def bodyGcmUnseal : Body := fun t rc inp s =>
  let slot := opnd t.e 0 2
  let n := opnd t.e 16 4
  let aad := opnd t.e 20 4
  let nonce := opBytes t.e 36 12
  let c := slotCheck s t slot 9
  if c ≠ 0 then failCmd t c s
  else if n = 0 ∨ maxText < n then failCmd t yeLength s
  else if ofBe nonce / 2 ^ 48 % 2 ^ 18 ≠ 0 then failCmd t yeTagFail s
  else match nonceHalf (s.key slot) nonce with
  | none => failCmd t yeKey s
  | some (_, key) =>
    readIn t (opnd t.e 4 4) (opnd t.e 8 5) (aad + n) rc (fun s =>
      match gcmOpen key nonce (fit aad inp) (cut aad n inp) (opBytes t.e 48 16) with
      | none => failCmd t yeTagFail s
      | some p => putObj t (s.partOf t) (opnd t.e 24 4) (opnd t.e 28 5) p (fun s => done t [] (countBlocks t (nblocks n + 2) s)) s) s

def execCipherGcmUnseal (q : Nat) (e : BitVec 1024) (rc : BitVec 16) (inp : List (BitVec 8)) (s : State) : Res :=
  .next (takeCmd 0x0611 bodyGcmUnseal q e rc inp s)

/-! ### CTR and CMAC -/

/-- CIPHER_CTR. -/
def bodyCtr : Body := fun t rc inp s =>
  let slot := opnd t.e 0 2
  let flags := opnd t.e 3 1
  let start := flags % 2 = 1
  let fin := flags / 2 % 2 = 1
  let n := opnd t.e 16 4
  let dir := opnd t.e 33 1
  let given := opBytes t.e 36 12
  let k := s.key slot
  let c := slotCheck s t slot 9
  let i := if start then freeUser s else some (opnd t.e 2 1)
  let u := tget {} s.users (i.getD 0)
  let half := if dir = 1 then nonceHalf k given else some (k.gen, k.cur)
  let c := if start ∨ c = yeDenied then c else userCheck s t (i.getD 0) (2 + dir) slot
  let oc := objAccess s (s.partOf t) (opnd t.e 24 4) (opnd t.e 28 5) n true
  if c ≠ 0 then failCmd t c s
  else if 4 ≤ flags ∨ 2 ≤ dir then failCmd t yeDenied s
  else if n = 0 ∨ maxText < n ∨ opnd t.e 20 4 ≠ 0 ∨ 2 ^ 36 < (if start then 0 else u.textLen) + n then failCmd t yeLength s
  else if start ∧ dir = 0 ∧ invLimit ≤ k.inv then failCmd t yeExhausted s
  else match i, half with
  | none, _ => failCmd t yeQuota s
  | some i, h =>
    if start ∧ h.isNone then failCmd t yeKey s
    else readIn t (opnd t.e 4 4) (opnd t.e 8 5) n rc (fun s =>
      if oc ≠ 0 then failCmd t oc s else
      let nonce := if dir = 1 then given else cmdNonce slot k.gen k.inv
      let s := if start then startUser t i (2 + dir) slot (h.getD (0, 0)).1 nonce s else s
      let s := if start ∧ dir = 0 then countInv slot s else s
      let u := tget {} s.users i
      let key := (userHalf (s.key slot) u.gen).getD 0
      let ct := streamXor key u.counter 1 u.textLen (fit n inp)
      let s := countBlocks t (nblocks n) (writeOut (s.partOf t) (opnd t.e 24 4) (opnd t.e 28 5) ct (setUser i { u with textLen := u.textLen + n } s))
      done t (userResult s i ++ (if start then u.counter else [])) (if fin then dropUser i s else s)) s

def execCipherCtr (q : Nat) (e : BitVec 1024) (rc : BitVec 16) (inp : List (BitVec 8)) (s : State) : Res :=
  .next (takeCmd 0x0612 bodyCtr q e rc inp s)

/-- CIPHER_CMAC. -/
def bodyCmac : Body := fun t rc inp s =>
  let slot := opnd t.e 0 2
  let flags := opnd t.e 3 1
  let start := flags % 2 = 1
  let fin := flags / 2 % 2 = 1
  let n := opnd t.e 16 4
  let k := s.key slot
  let c := slotCheck s t slot 9
  let i := if start then freeUser s else some (opnd t.e 2 1)
  let c := if start ∨ c = yeDenied then c else userCheck s t (i.getD 0) 4 slot
  if c ≠ 0 then failCmd t c s
  else if 8 ≤ flags then failCmd t yeDenied s
  else if maxText < n then failCmd t yeLength s
  else match i with
  | none => failCmd t yeQuota s
  | some i =>
    readIn t (opnd t.e 4 4) (opnd t.e 8 5) n rc (fun s =>
      let s := if start then startUser t i 4 slot k.gen [] s else s
      let u := tget {} s.users i
      let key := (userHalf (s.key slot) u.gen).getD 0
      let u := { absorbMac key u (fit n inp) with textLen := u.textLen + n }
      let s := countBlocks t (nblocks n) (setUser i u s)
      let mac := cmacEnd (roundKeys (keyBytes key)) u.acc u.part
      let res := userResult s i ++ (if fin then mac else [])
      if fin then
        let s := dropUser i s
        if flags / 4 % 2 = 1 ∧ mac ≠ opBytes t.e 32 16 then failCmd t yeTagFail s else done t res s
      else done t res s) s

def execCipherCmac (q : Nat) (e : BitVec 1024) (rc : BitVec 16) (inp : List (BitVec 8)) (s : State) : Res :=
  .next (takeCmd 0x0613 bodyCmac q e rc inp s)

/-! ### Key wrap -/

def wrapLenBad (mode n : Nat) : Bool :=
  if mode = 1 then n % 8 != 0 || decide (n < 16) || decide (4096 < n) else n == 0 || decide (4096 < n)
def unwrapLenBad (mode n : Nat) : Bool :=
  n % 8 != 0 || decide (4104 < n) || decide (n < (if mode = 1 then 24 else 16))

/-- CIPHER_WRAP. -/
def bodyWrap : Body := fun t rc inp s =>
  let slot := opnd t.e 0 2
  let mode := opnd t.e 2 1
  let n := opnd t.e 14 2
  let k := s.key slot
  let c := slotCheck s t slot 0xA
  if c ≠ 0 then failCmd t c s
  else if ¬ (mode = 1 ∨ mode = 2) then failCmd t yeDenied s
  else if wrapLenBad mode n then failCmd t yeLength s
  else if invLimit ≤ k.inv then failCmd t yeExhausted s
  else readIn t (opnd t.e 4 4) (opnd t.e 8 5) n rc (fun s =>
    let w := if mode = 1 then kwWrap k.cur (fit n inp) else kwpWrap k.cur (fit n inp)
    putObj t (s.partOf t) (opnd t.e 16 4) (opnd t.e 20 5) w
      (fun s => done t (le 2 w.length) (countBlocks t (6 * (w.length / 8 - 1)) (countInv slot s))) s) s

def execCipherWrap (q : Nat) (e : BitVec 1024) (rc : BitVec 16) (inp : List (BitVec 8)) (s : State) : Res :=
  .next (takeCmd 0x0614 bodyWrap q e rc inp s)

/-- CIPHER_UNWRAP: the current half, then in Draining the previous one. -/
def bodyUnwrap : Body := fun t rc inp s =>
  let slot := opnd t.e 0 2
  let mode := opnd t.e 2 1
  let n := opnd t.e 14 2
  let k := s.key slot
  let c := slotCheck s t slot 0xA
  let un (key : BitVec 256) := if mode = 1 then kwUnwrap key (fit n inp) else kwpUnwrap key (fit n inp)
  if c ≠ 0 then failCmd t c s
  else if ¬ (mode = 1 ∨ mode = 2) then failCmd t yeDenied s
  else if unwrapLenBad mode n then failCmd t yeLength s
  else readIn t (opnd t.e 4 4) (opnd t.e 8 5) n rc (fun s =>
    match (un k.cur).orElse fun _ => if k.pendIs = 2 then un k.pend else none with
    | none => failCmd t yeTagFail s
    | some p => putObj t (s.partOf t) (opnd t.e 16 4) (opnd t.e 20 5) p
        (fun s => done t (le 2 p.length) (countBlocks t (6 * (n / 8 - 1)) s)) s) s

def execCipherUnwrap (q : Nat) (e : BitVec 1024) (rc : BitVec 16) (inp : List (BitVec 8)) (s : State) : Res :=
  .next (takeCmd 0x0615 bodyUnwrap q e rc inp s)

/-! ### Saved state (06 R215, R216) -/

/-- The engine state key: the keep's slot of class 0x0E. -/
def engineKey (s : State) : BitVec 256 := ((s.keys.find? fun k => k.2.cls == 0xE && k.2.state == 1).map (·.2.cur)).getD 0

/-- No engine state key has been generated since the keep start, for want of random bits. -/
def noEngineKey (s : State) : Bool := !(s.keys.any fun k => k.2.cls == 0xE && k.2.state == 1)

/-- A user's state as Table 6.9 lays it out. -/
def saveRecord (key : BitVec 256) (u : User) (save : Nat) : Bytes :=
  let clear := (u.mode = 2 ∨ u.mode = 3) ∧ u.textLen % 16 = 0
  let ctr := if u.mode = 4 then zeros 16 else u.counter ++ be 4 ((if u.mode = 1 then 2 else 1) + u.textLen / 16)
  let head := [if clear then 1 else 2, BitVec.ofNat 8 u.mode] ++ le 2 u.slot ++ le 4 u.gen ++ le 4 u.op ++ le 4 save ++ ctr ++
    le 8 u.aadLen ++ le 8 u.textLen
  let secret := kwWrap key (fit 16 u.acc ++ fit 16 u.part ++ le 1 (u.textLen % 16) ++ zeros 7)
  if clear then head ++ cmac key head else head ++ cmac key (head ++ secret) ++ secret

/-- STATE_SAVE. -/
def bodyStateSave : Body := fun t _ _ s =>
  let i := opnd t.e 0 1
  let u := tget {} s.users i
  if !u.live ∨ u.ctx ≠ (s.queue t.q).ctx then failCmd t yeDenied s
  else if noEngineKey s then waitDraw t s
  else
    let o := tget {} s.opTab u.op
    let r := saveRecord (engineKey s) u (o.save + 1)
    putObj t (s.partOf t) (opnd t.e 4 4) (opnd t.e 8 5) r (fun s =>
      done t (le 2 r.length) { s with users := tdel s.users i, opTab := tset s.opTab u.op { o with save := o.save + 1 } }) s

def execStateSave (q : Nat) (e : BitVec 1024) (rc : BitVec 16) (inp : List (BitVec 8)) (s : State) : Res :=
  .next (takeCmd 0x0618 bodyStateSave q e rc inp s)

/-- STATE_RESTORE; a record is restored once, so that no counter block is used twice (06 R216). -/
def bodyStateRestore : Body := fun t rc inp s =>
  readIn t (opnd t.e 0 4) (opnd t.e 4 5) 64 rc (fun s =>
    let key := engineKey s
    let fmt := ofLe (cut 0 1 inp)
    let mode := ofLe (cut 1 1 inp)
    let slot := ofLe (cut 2 2 inp)
    let gen := ofLe (cut 4 4 inp)
    let op := ofLe (cut 8 4 inp)
    let save := ofLe (cut 12 4 inp)
    let n := ofLe (cut 40 8 inp)
    let secret := kwUnwrap key (cut 64 48 inp)
    let o := tfind s.opTab op
    if fmt = 0 ∨ 2 < fmt ∨ mode = 0 ∨ 4 < mode then failCmd t yeDenied s
    else if noEngineKey s then failCmd t yeTagFail s
    else if cmac key (fit 48 inp ++ (if fmt = 2 then cut 64 48 inp else [])) ≠ cut 48 16 inp ∨ (fmt = 2 ∧ secret.isNone) then failCmd t yeTagFail s
    else match o with
    | none => failCmd t yeDenied s
    | some o =>
      if o.ctx ≠ (s.queue t.q).ctx then failCmd t yeDenied s
      else if o.save ≠ save then failCmd t yeReplay s
      else if (s.key slot).state = 6 ∨ (userHalf (s.key slot) gen).isNone then failCmd t yeKey s
      else match lowFree s.users 0 64 with
      | none => failCmd t yeQuota s
      | some i =>
        let x := secret.getD []
        let pn := if mode = 4 ∧ n ≠ 0 ∧ n % 16 = 0 then 16 else if mode = 1 ∨ mode = 4 then ofLe (cut 32 1 x) else 0
        let u : User := { live := true, ctx := o.ctx, op := op, mode := mode, slot := slot, gen := gen,
                          counter := if mode = 4 then [] else cut 16 12 inp, aadLen := ofLe (cut 32 8 inp), textLen := n,
                          acc := fit 16 x, part := (cut 16 16 x).take pn }
        done t (le 1 i) { s with users := tset s.users i u, opTab := tset s.opTab op { o with save := save + 1 } }) s

def execStateRestore (q : Nat) (e : BitVec 1024) (rc : BitVec 16) (inp : List (BitVec 8)) (s : State) : Res :=
  .next (takeCmd 0x0619 bodyStateRestore q e rc inp s)

/-- Cancels operations that meet a test (06 R214). -/
def cancelOps (p : Nat → OpRec → Bool) (s : State) : State :=
  let gone := (s.opTab.filter fun o => p o.1 o.2).map (·.1)
  { s with opTab := s.opTab.filter fun o => !p o.1 o.2, users := s.users.filter fun u => !gone.contains u.2.op }

/-- OP_CANCEL. -/
def bodyOpCancel : Body := fun t _ _ s =>
  let op := opnd t.e 0 4
  match tfind s.opTab op with
  | none => failCmd t yeDenied s
  | some o =>
    if o.ctx ≠ (s.queue t.q).ctx then failCmd t yeDenied s
    else done t [] (cancelOps (fun i _ => i == op) s)

def execOpCancel (q : Nat) (e : BitVec 1024) (rc : BitVec 16) (inp : List (BitVec 8)) (s : State) : Res :=
  .next (takeCmd 0x061A bodyOpCancel q e rc inp s)

end Sys2Proof.Machine
end

