-- ==== Sys2Proof/Machine/Scratch.lean ====
section
/-! DEFINITION. Secure scratch: its banks, Sett's two windows, and the DMA that moves data between it and protocol-engine
working memory or the command cipher engine (12 R394, R395). -/

namespace Sys2Proof.Machine
open Sys2Proof Sys2Proof.Crypto

/-- Bytes of a memory that reads zero where nothing is listed. -/
def peek (m : Tab (BitVec 8)) (a n : Nat) : Bytes := (List.range n).map fun i => tget 0 m (a + i)
def poke (m : Tab (BitVec 8)) (a : Nat) (b : Bytes) : Tab (BitVec 8) :=
  b.zipIdx.foldl (fun m x => if x.1 = 0 then tdel m (a + x.2) else tset m (a + x.2) x.1) m

/-! ### Sett's access (12 R394) -/

/-- Bytes of secure scratch. -/
def scratchSize : Nat := 0x8000
/-- The bank of the word at a byte address. -/
def bankOf (a : Nat) : Nat := a / 4 % 4

/-- What Sett asks of memory in one control clock: bit 0 an access, bit 1 a store, bits 3:2 log2 of its size, then a 32-bit
address and 32 bits of data. -/
abbrev SettAccess := BitVec 68

def SettAccess.size (x : SettAccess) : Nat := 2 ^ (x.extractLsb' 2 2).toNat
def SettAccess.addr (x : SettAccess) : Nat := (x.extractLsb' 4 32).toNat
def SettAccess.data (x : SettAccess) : Nat := (x.extractLsb' 36 32).toNat

/-- Where an access falls: no part of the windows, an exception (1 alignment, 2 access), or a byte of secure scratch. -/
inductive SettHit where
  | none
  | exc (code : Nat)
  | at (a : Nat)
  deriving DecidableEq, Repr

def settHit (x : SettAccess) : SettHit :=
  let a := x.addr
  if !x.getLsbD 0 || decide (4 < x.size) then .none
  else if 0x20000000 ≤ a ∧ a < 0x20008000 then if a % x.size = 0 then .at (a - 0x20000000) else .exc 1
  else if 0x20010000 ≤ a ∧ a < 0x20018000 then if a + x.size ≤ 0x20018000 then .at (a - 0x20010000) else .exc 2
  else .none

/-- The banks an access takes: one, or the two of a word boundary it crosses. -/
def settBanks (x : SettAccess) : BitVec 4 :=
  match settHit x with
  | .at a => (1#4 <<< bankOf a) ||| (1#4 <<< bankOf (a + x.size - 1))
  | _ => 0

/-- Sett's access is always served in its control clock. -/
def settServe (x : SettAccess) (m : Scratch) : Scratch :=
  match settHit x with
  | .none => m
  | .exc c => { m with exc := c }
  | .at a =>
    if x.getLsbD 1 then { m with cells := poke m.cells a (le x.size x.data) }
    else { m with load := BitVec.ofNat 32 (ofLe (peek m.cells a x.size)) }

/-! ### The scratch DMA (12 R395) -/

/-- One half of the first move's beat: 4 bytes at 4 × `h`. -/
def moveHalf (v : ScratchMove) (h : Nat) (m : Scratch) : Scratch :=
  let a := v.cell + 4 * h
  if v.toScratch then { m with cells := poke m.cells a (fit 4 (cut (4 * h) 4 v.data)) }
  else if v.cipher then m
  else { m with engine := poke m.engine (v.eng + 4 * h) (peek m.cells a 4) }

/-- The move after a beat: the next beat, or none left. -/
def nextBeat (v : ScratchMove) : List ScratchMove :=
  if v.beats ≤ 1 then [] else [{ v with cell := v.cell + 8, eng := v.eng + 8, beats := v.beats - 1, data := v.data.drop 8, lo := false, hi := false }]

/-- A control clock of the DMA, with the banks that Sett uses in it: each half that finds its bank free is done, and the beat
is complete when both are. -/
def dmaClock (busy : BitVec 4) (m : Scratch) : Scratch :=
  match m.moves with
  | [] => m
  | v :: rest =>
    let lo := v.lo || !busy.getLsbD (bankOf v.cell)
    let hi := v.hi || !busy.getLsbD (bankOf (v.cell + 4))
    let m := if lo && !v.lo then moveHalf v 0 m else m
    let m := if hi && !v.hi then moveHalf v 1 m else m
    if lo && hi then { m with moves := nextBeat v ++ rest }
    else { m with moves := { v with lo := lo, hi := hi } :: rest, waited := m.waited + 1 }

/-- One control clock: Sett's access to a bank wins over a half for it (12 Table 12.12). -/
def scratchClock (x : SettAccess) (m : Scratch) : Scratch := dmaClock (settBanks x) (settServe x m)

/-- The 12 control clocks of a tick.  What Sett's program asks in each is a free value (log 147). -/
def scratchTick (s : State) : State :=
  let m := (List.range 12).foldl (fun m k => scratchClock (Config.settAccess (12 * s.now + k)) m) { s.keep.scratch with waited := 0 }
  let t := { s with keep := { s.keep with scratch := { m with waited := 0 } } }
  if s.keep.scratch.moves.isEmpty then t else bump Config.keepId 15 m.waited t

/-- Bytes that Sett has in secure scratch, from its first byte on (log 148), go to protocol-engine working memory, or to the
command cipher engine. -/
def scratchOut (cipher : Bool) (b : Bytes) (s : State) : State :=
  let b := b.take scratchSize
  if b = [] then s
  else { s with keep := { s.keep with scratch := { s.keep.scratch with
    cells := poke s.keep.scratch.cells 0 b,
    moves := s.keep.scratch.moves ++ [{ cipher := cipher, beats := (b.length + 7) / 8 }] } } }

/-- Bytes that the command cipher engine has put out go to secure scratch. -/
def scratchIn (b : Bytes) (s : State) : State :=
  let b := b.take scratchSize
  if b = [] then s
  else { s with keep := { s.keep with scratch := { s.keep.scratch with
    moves := s.keep.scratch.moves ++ [{ toScratch := true, cipher := true, beats := (b.length + 7) / 8, data := b }] } } }

end Sys2Proof.Machine
end

