-- ==== Sys2Proof/Machine/Sponge.lean ====
section
/-! DEFINITION. Keccak and the functions of FIPS 202 that ML-KEM and ML-DSA use: SHA3-256, SHA3-512, SHAKE128 and SHAKE256
(07 R220, R225, R232). -/

namespace Sys2Proof.Crypto
open Sys2Proof

/-- Rotation of the lane x + 5y. -/
def laneTurns : List Nat := [0, 1, 62, 28, 27, 36, 44, 6, 55, 20, 3, 10, 43, 25, 39, 41, 45, 15, 21, 8, 18, 2, 61, 56, 14]

def roundConsts : List (BitVec 64) :=
  [0x0000000000000001, 0x0000000000008082, 0x800000000000808a, 0x8000000080008000, 0x000000000000808b, 0x0000000080000001,
   0x8000000080008081, 0x8000000000008009, 0x000000000000008a, 0x0000000000000088, 0x0000000080008009, 0x000000008000000a] ++
  [0x000000008000808b, 0x800000000000008b, 0x8000000000008089, 0x8000000000008003, 0x8000000000008002, 0x8000000000000080,
   0x000000000000800a, 0x800000008000000a, 0x8000000080008081, 0x8000000000008080, 0x0000000080000001, 0x8000000080008008]

/-- One round of Keccak-f[1600] on 25 lanes. -/
def keccakRound (a : List (BitVec 64)) (rc : BitVec 64) : List (BitVec 64) :=
  let lane (l : List (BitVec 64)) (i : Nat) : BitVec 64 := l.getD i 0
  let cols := (List.range 5).map fun x => lane a x ^^^ lane a (x + 5) ^^^ lane a (x + 10) ^^^ lane a (x + 15) ^^^ lane a (x + 20)
  let mix := (List.range 5).map fun x => lane cols ((x + 4) % 5) ^^^ (lane cols ((x + 1) % 5)).rotateLeft 1
  let a := (List.range 25).map fun i => lane a i ^^^ lane mix (i % 5)
  let b := (List.range 25).map fun i =>
    let j := (i % 5 + 3 * (i / 5)) % 5 + 5 * (i % 5)
    (lane a j).rotateLeft (laneTurns.getD j 0)
  (List.range 25).map fun i =>
    let row := 5 * (i / 5)
    lane b i ^^^ (~~~lane b (row + (i + 1 - row) % 5) &&& lane b (row + (i + 2 - row) % 5)) ^^^ (if i = 0 then rc else 0)

def keccakF (a : List (BitVec 64)) : List (BitVec 64) := roundConsts.foldl keccakRound a

/-- A message with its suffix and the padding to whole blocks of the rate. -/
def spongePad (rate : Nat) (suffix : Byte) (m : Bytes) : Bytes :=
  let k := rate - m.length % rate
  if k = 1 then m ++ [suffix ||| 0x80] else m ++ suffix :: zeros (k - 2) ++ [0x80]

def absorbBlock (a : List (BitVec 64)) (b : Bytes) : List (BitVec 64) :=
  keccakF (a.zipIdx.map fun x => x.1 ^^^ BitVec.ofNat 64 (ofLe (cut (8 * x.2) 8 b)))

/-- Blocks of output, one after another. -/
def squeeze (rate : Nat) : Nat → List (BitVec 64) → Bytes
  | 0, _ => []
  | n + 1, a => (a.map fun w => le 8 w.toNat).flatten.take rate ++ squeeze rate n (keccakF a)

def sponge (rate : Nat) (suffix : Byte) (m : Bytes) (n : Nat) : Bytes :=
  let a := (blocks rate (spongePad rate suffix m)).foldl absorbBlock (List.replicate 25 0)
  (squeeze rate ((n + rate - 1) / rate) a).take n

def sha3_256 (m : Bytes) : Bytes := sponge 136 0x06 m 32
def sha3_512 (m : Bytes) : Bytes := sponge 72 0x06 m 64
def shake128 (m : Bytes) (n : Nat) : Bytes := sponge 168 0x1f m n
def shake256 (m : Bytes) (n : Nat) : Bytes := sponge 136 0x1f m n

/-! ### Polynomials of 256 coefficients in number-theoretic form -/

/-- b to the power e, modulo q. -/
def powMod (q b e : Nat) : Nat :=
  ((List.range (e.log2 + 1)).foldl (fun (a : Nat × Nat) i => (if e.testBit i then a.1 * a.2 % q else a.1, a.2 * a.2 % q)) (1 % q, b % q)).1

/-- The lowest `k` bits of a number, in reverse. -/
def brv (k m : Nat) : Nat := (List.range k).foldl (fun a i => 2 * a + (if m.testBit i then 1 else 0)) 0

def addPoly (q : Nat) (a b : List Nat) : List Nat := List.zipWith (fun x y => (x + y) % q) a b
def subPoly (q : Nat) (a b : List Nat) : List Nat := List.zipWith (fun x y => (x + q - y) % q) a b
def sumPolys (q : Nat) (l : List (List Nat)) : List Nat := l.foldl (addPoly q) (List.replicate 256 0)

/-- The transform of depth `d` from node `m` of the tree of roots `z`. -/
def nttFrom (q : Nat) (z : Nat → Nat) : Nat → Nat → List Nat → List Nat
  | 0, _, f => f
  | d + 1, m, f =>
    let a := f.take (f.length / 2)
    let r := z m
    let b := (f.drop (f.length / 2)).map fun x => x * r % q
    nttFrom q z d (2 * m) (addPoly q a b) ++ nttFrom q z d (2 * m + 1) (subPoly q a b)

/-- Its inverse, but for the factor 2 of each level; `z` gives the roots' inverses. -/
def inttFrom (q : Nat) (z : Nat → Nat) : Nat → Nat → List Nat → List Nat
  | 0, _, f => f
  | d + 1, m, f =>
    let a := inttFrom q z d (2 * m) (f.take (f.length / 2))
    let b := inttFrom q z d (2 * m + 1) (f.drop (f.length / 2))
    let r := z m
    addPoly q a b ++ (subPoly q a b).map fun x => x * r % q

/-- Values of `d` bits each, the first in the lowest bits, and the bytes that hold them. -/
def packBits (d : Nat) (f : List Nat) : Bytes := le (f.length * d / 8) (f.foldr (fun x a => a * 2 ^ d + x % 2 ^ d) 0)
def unpackBits (d n : Nat) (b : Bytes) : List Nat :=
  let v := ofLe b
  (List.range n).map fun i => (v >>> (d * i)) % 2 ^ d

end Sys2Proof.Crypto
end

