-- ==== Sys2Proof/Machine/Curve.lean ====
section
/-! DEFINITION. The curve P-384: public keys, ECDSA with SHA-384, and ECDH (07 R220, R225, R232, R233). -/

namespace Sys2Proof.Crypto
open Sys2Proof

def p384P : Nat :=
  0xfffffffffffffffffffffffffffffffffffffffffffffffffffffffffffffffeffffffff0000000000000000ffffffff
def p384B : Nat :=
  0xb3312fa7e23ee7e4988e056be3f82d19181d9c6efe8141120314088f5013875ac656398d8a2ed19d2a85c8edd3ec2aef
def p384Order : Nat :=
  0xffffffffffffffffffffffffffffffffffffffffffffffffc7634d81f4372ddf581a0db248b0a77aecec196accc52973
/-- The base point. -/
def p384G : Nat × Nat :=
  (0xaa87ca22be8b05378eb1c71ef320ad746e1d3b628ba79b9859f741e082542a385502f25dbf55296c3a545e3872760ab7,
   0x3617de4a96262c6f5d9e98bf9292dc29f8f41dbd289a147ce9da3113b5f0b8c00a60b1ce1d7e819d7a431d7c90ea0e5f)

def invMod (n x : Nat) : Nat := powMod n x (n - 2)

/-- Sum of two points; `none` is the point at infinity. -/
def ecAdd : Option (Nat × Nat) → Option (Nat × Nat) → Option (Nat × Nat)
  | none, q => q
  | p, none => p
  | some (x1, y1), some (x2, y2) =>
    let p := p384P
    if x1 = x2 ∧ (y1 + y2) % p = 0 then none
    else
      let s := if x1 = x2 then (3 * x1 * x1 + p - 3) % p * invMod p (2 * y1 % p) % p
        else (y2 + p - y1) % p * invMod p ((x2 + p - x1) % p) % p
      let x := (s * s + 2 * p - x1 - x2) % p
      some (x, (s * ((x1 + p - x) % p) + p - y1) % p)

/-- A multiple of a point. -/
def ecMul (k : Nat) (pt : Option (Nat × Nat)) : Option (Nat × Nat) :=
  ((List.range 384).foldl (fun (a : Option (Nat × Nat) × Option (Nat × Nat)) i =>
    (if k.testBit i then ecAdd a.1 a.2 else a.1, ecAdd a.2 a.2)) (none, pt)).1

/-- SEC 1 uncompressed form, and the point it spells when that is on the curve. -/
def ecBytes (pt : Option (Nat × Nat)) : Bytes :=
  match pt with
  | none => [0]
  | some (x, y) => 4 :: be 48 x ++ be 48 y
def ecPoint (b : Bytes) : Option (Nat × Nat) :=
  let x := ofBe (cut 1 48 b)
  let y := ofBe (cut 49 48 b)
  if b.length = 97 ∧ b.head? = some 4 ∧ x < p384P ∧ y < p384P ∧ y * y % p384P = (x * x * x + (p384P - 3) * x + p384B) % p384P then some (x, y)
  else none

/-- The public key of a private integer. -/
def p384Pub (d : Nat) : Bytes := ecBytes (ecMul d (some p384G))

/-- The x-coordinate that a private integer and a public key share; none for a key that is no point of the curve. -/
def p384Ecdh (d : Nat) (pub : Bytes) : Option Bytes :=
  match ecPoint pub with
  | none => none
  | some q => (ecMul d (some q)).map fun z => be 48 z.1

/-- ECDSA with the per-signature secret that 56 random bytes give (FIPS 186-5 A.3.1): r and s, 48 bytes each. -/
def p384Sign (d : Nat) (m rnd : Bytes) : Bytes :=
  let n := p384Order
  let k := ofBe (rnd.take 56) % (n - 1) + 1
  let r := ((ecMul k (some p384G)).map (·.1)).getD 0 % n
  let s := invMod n k * ((ofBe (sha384 m) + r * d) % n) % n
  be 48 r ++ be 48 s

/-- ECDSA verification: public key, message, signature. -/
def p384Verify (pub m sig : Bytes) : Bool :=
  let n := p384Order
  let r := ofBe (sig.take 48)
  let s := ofBe (sig.drop 48)
  match ecPoint pub with
  | none => false
  | some q =>
    if sig.length ≠ 96 ∨ r = 0 ∨ n ≤ r ∨ s = 0 ∨ n ≤ s then false
    else
      let w := invMod n s
      match ecAdd (ecMul (ofBe (sha384 m) * w % n) (some p384G)) (ecMul (r * w % n) (some q)) with
      | none => false
      | some z => z.1 % n == r

end Sys2Proof.Crypto
end

