-- ==== Sys2Proof/Machine/Dsa.lean ====
section
/-! DEFINITION. ML-DSA-87 (FIPS 204): keys, signatures with randomness, and their verification (07 R220, R225). -/

namespace Sys2Proof.Crypto
open Sys2Proof

def dsaQ : Nat := 8380417
def dsaK : Nat := 8
def dsaL : Nat := 7
def dsaG1 : Nat := 2 ^ 19
def dsaG2 : Nat := 261888
def dsaBeta : Nat := 120
def dsaOmega : Nat := 75
def dsaTau : Nat := 60

def dsaNtt (f : List Nat) : List Nat := nttFrom dsaQ (fun m => powMod dsaQ 1753 (brv 8 m)) 8 1 f
def dsaIntt (f : List Nat) : List Nat :=
  (inttFrom dsaQ (fun m => powMod dsaQ 1753 (512 - brv 8 m)) 8 1 f).map fun x => x * 8347681 % dsaQ
def dsaMul (f g : List Nat) : List Nat := List.zipWith (fun x y => x * y % dsaQ) f g
def dsaDot (f g : List (List Nat)) : List Nat := sumPolys dsaQ (List.zipWith dsaMul f g)

/-- The integer nearest 0 that a coefficient stands for, and the coefficient of an integer. -/
def centred (x : Nat) : Int := if 2 * x ≤ dsaQ then x else (x : Int) - dsaQ
def coeff (x : Int) : Nat := (x % (dsaQ : Int)).toNat
/-- The largest absolute value in a vector. -/
def normOf (v : List (List Nat)) : Nat := (v.flatten.map fun x => (centred x).natAbs).foldl max 0

/-- Row r, column s of the matrix, in transformed form. -/
def dsaEntry (rho : Bytes) (r s : Nat) : List Nat :=
  (((blocks 3 (shake128 (rho ++ le 1 s ++ le 1 r) 894)).map fun b => ofLe b % 2 ^ 23).filter fun v => decide (v < dsaQ)).take 256
def dsaMatrix (rho : Bytes) : List (List (List Nat)) := (List.range dsaK).map fun r => (List.range dsaL).map (dsaEntry rho r)

/-- A secret polynomial with coefficients from -2 to 2. -/
def dsaSmall (seed : Bytes) (n : Nat) : List Nat :=
  (((shake256 (seed ++ le 2 n) 481).map fun b => [b.toNat % 16, b.toNat / 16]).flatten.filter fun v => decide (v < 15)).take 256 |>.map
    fun v => coeff (2 - (v % 5 : Nat))

/-- The low 13 bits of a coefficient, centred, and the rest. -/
def power2Round (x : Nat) : Nat × Int :=
  let r : Int := if x % 2 ^ 13 ≤ 2 ^ 12 then (x % 2 ^ 13 : Nat) else (x % 2 ^ 13 : Nat) - 2 ^ 13
  (((x - r) / 2 ^ 13).toNat, r)

/-- High and low parts of a coefficient. -/
def decompose (x : Nat) : Nat × Int :=
  let m := 2 * dsaG2
  let r : Int := if x % m ≤ dsaG2 then (x % m : Nat) else (x % m : Nat) - m
  if x - r = dsaQ - 1 then (0, r - 1) else (((x - r) / m).toNat, r)
def highBits (x : Nat) : Nat := (decompose x).1
def lowBits (x : Nat) : Int := (decompose x).2

/-- What a signing key expands to. -/
structure DsaKey where
  rho : Bytes
  k : Bytes
  tr : Bytes
  s1 : List (List Nat)
  s2 : List (List Nat)
  t0 : List (List Nat)
  pub : Bytes

/-- The key pair of a 32-byte seed. -/
def dsaKeys (xi : Bytes) : DsaKey :=
  let h := shake256 (xi ++ le 1 dsaK ++ le 1 dsaL) 128
  let rho := h.take 32
  let s1 := (List.range dsaL).map (dsaSmall (cut 32 64 h))
  let s2 := (List.range dsaK).map fun r => dsaSmall (cut 32 64 h) (dsaL + r)
  let n := s1.map dsaNtt
  let t := List.zipWith (fun row e => (addPoly dsaQ (dsaIntt (dsaDot row n)) e).map power2Round) (dsaMatrix rho) s2
  let pub := rho ++ (t.map fun p => packBits 10 (p.map (·.1))).flatten
  { rho := rho, k := cut 96 32 h, tr := shake256 pub 64, s1 := s1, s2 := s2, t0 := t.map fun p => p.map fun x => coeff x.2, pub := pub }

/-- The challenge: 60 coefficients of 1 or -1. -/
def inBall (seed : Bytes) : List Nat :=
  let b := shake256 seed 1096
  let signs := ofLe (b.take 8)
  let step (a : List Nat × Bytes) (n : Nat) : List Nat × Bytes :=
    let i := 256 - dsaTau + n
    let rest := a.2.dropWhile fun x => decide (i < x.toNat)
    let j := (rest.headD 0).toNat
    ((a.1.set i (a.1.getD j 0)).set j (if signs.testBit n then dsaQ - 1 else 1), rest.drop 1)
  ((List.range dsaTau).foldl step (List.replicate 256 0, b.drop 8)).1

def w1Bytes (w : List (List Nat)) : Bytes := (w.map fun p => packBits 4 p).flatten

/-- Positions of the hints, one polynomial after another, with their running counts. -/
def packHint (h : List (List Bool)) : Bytes :=
  let at_ := h.map fun p => (List.range 256).filter fun i => p.getD i false
  let ends := (List.range dsaK).map fun i => ((at_.take (i + 1)).map List.length).sum
  fit dsaOmega (at_.flatten.map (BitVec.ofNat 8)) ++ ends.map (BitVec.ofNat 8)

/-- The hints, unless their encoding is not the one that `packHint` gives. -/
def unpackHint (b : Bytes) : Option (List (List Bool)) :=
  let ends := (b.drop dsaOmega).map BitVec.toNat
  let seg (i : Nat) : List Nat :=
    let a := if i = 0 then 0 else ends.getD (i - 1) 0
    ((b.take (ends.getD i 0)).drop a).map BitVec.toNat
  let h := (List.range dsaK).map fun i => (List.range 256).map fun k => (seg i).contains k
  if ends.all (fun e => decide (e ≤ dsaOmega)) ∧ packHint h = b then some h else none

/-- One attempt at a signature, from the counter `n` of its masks. -/
def dsaTry (key : DsaKey) (a : List (List (List Nat))) (mu seed : Bytes) (n : Nat) : Option Bytes :=
  let y := (List.range dsaL).map fun r =>
    (unpackBits 20 256 (shake256 (seed ++ le 2 (n + r)) 640)).map fun (v : Nat) => coeff ((dsaG1 : Int) - v)
  let w := a.map fun row => dsaIntt (dsaDot row (y.map dsaNtt))
  let ct := shake256 (mu ++ w1Bytes (w.map fun p => p.map highBits)) 64
  let c := dsaNtt (inBall ct)
  let times (v : List (List Nat)) : List (List Nat) := v.map fun p => dsaIntt (dsaMul c (dsaNtt p))
  let z := List.zipWith (addPoly dsaQ) y (times key.s1)
  let r := List.zipWith (subPoly dsaQ) w (times key.s2)
  let ct0 := times key.t0
  let low := (r.flatten.map fun x => (lowBits x).natAbs).foldl max 0
  let hint := List.zipWith (fun p q => List.zipWith (fun x e => highBits x != highBits ((x + e) % dsaQ)) p q) r ct0
  if dsaG1 - dsaBeta ≤ normOf z ∨ dsaG2 - dsaBeta ≤ low ∨ dsaG2 ≤ normOf ct0 ∨ dsaOmega < (hint.flatten.filter id).length then none
  else some (ct ++ (z.map fun p => packBits 20 (p.map fun x => ((dsaG1 : Int) - centred x).toNat)).flatten ++ packHint hint)

/-- The first attempt that succeeds; FIPS 204 Appendix C bounds them at 814. -/
def dsaLoop (key : DsaKey) (a : List (List (List Nat))) (mu seed : Bytes) : Nat → Nat → Bytes
  | 0, _ => []
  | f + 1, n => (dsaTry key a mu seed n).getD (dsaLoop key a mu seed f (n + dsaL))

/-- The message representative of the pure form with an empty context. -/
def dsaMu (tr m : Bytes) : Bytes := shake256 (tr ++ [0, 0] ++ m) 64

/-- The signature of a message under the key of a seed, with 32 random bytes. -/
def dsaSign (xi m rnd : Bytes) : Bytes :=
  let key := dsaKeys xi
  let mu := dsaMu key.tr m
  dsaLoop key (dsaMatrix key.rho) mu (shake256 (key.k ++ rnd ++ mu) 64) 814 0

/-- The high part that a hint gives. -/
def useHint (h : Bool) (x : Nat) : Nat :=
  let d := decompose x
  if !h then d.1 else if 0 < d.2 then (d.1 + 1) % 16 else (d.1 + 15) % 16

/-- Verification: public key, message, signature. -/
def dsaVerify (pub m sig : Bytes) : Bool :=
  pub.length == 2592 && sig.length == 4627 &&
  match unpackHint (sig.drop 4544) with
  | none => false
  | some h =>
    let ct := sig.take 64
    let z := (List.range dsaL).map fun i => (unpackBits 20 256 (cut (64 + 640 * i) 640 sig)).map fun (v : Nat) => coeff ((dsaG1 : Int) - v)
    let c := dsaNtt (inBall ct)
    let zn := z.map dsaNtt
    let t := (List.range dsaK).map fun i => dsaNtt ((unpackBits 10 256 (cut (32 + 320 * i) 320 pub)).map fun v => v * 2 ^ 13)
    let w := List.zipWith (fun row ti => dsaIntt (subPoly dsaQ (dsaDot row zn) (dsaMul c ti))) (dsaMatrix (pub.take 32)) t
    let w1 := List.zipWith (List.zipWith useHint) h w
    decide (normOf z < dsaG1 - dsaBeta) && shake256 (dsaMu (shake256 pub 64) m ++ w1Bytes w1) 64 == ct

end Sys2Proof.Crypto
end

