-- ==== Sys2Proof/Machine/X509.lean ====
section
/-! DEFINITION. What the block reads of a DER certificate (RFC 5280): the signed part, the subject public key and the
signature, and the checks of a chain (07 R222, R229). -/

namespace Sys2Proof.Crypto
open Sys2Proof

/-- The first element of a DER string: its tag, its contents, its whole encoding, and what follows. -/
def derTake (b : Bytes) : Option (Nat × Bytes × Bytes × Bytes) :=
  match b with
  | t :: l :: rest =>
    let n := l.toNat % 128
    let (head, len) := if l.toNat < 128 then (2, l.toNat) else (2 + n, ofBe (rest.take n))
    if l.toNat = 128 ∨ b.length < head + len then none
    else some (t.toNat, (b.drop head).take len, b.take (head + len), b.drop (head + len))
  | _ => none

/-- The elements of a DER string, at most `n`, as tags, contents and whole encodings. -/
def derItems : Nat → Bytes → List (Nat × Bytes × Bytes)
  | 0, _ => []
  | n + 1, b =>
    match derTake b with
    | none => []
    | some (t, c, e, rest) => (t, c, e) :: derItems n rest

/-- The contents of a BIT STRING of whole bytes. -/
def derBits (b : Bytes) : Bytes := if b.head? = some 0 then b.drop 1 else []

/-- The three elements of a certificate: signed part, algorithm, signature. -/
def certParts (der : Bytes) : List (Nat × Bytes × Bytes) :=
  match derTake der with
  | some (0x30, c, _, []) => derItems 3 c
  | _ => []

/-- The subject public key: the last element of the sixth after the version of the signed part. -/
def certSubject (der : Bytes) : Bytes :=
  match (certParts der)[0]? with
  | none => []
  | some tbs =>
    let v := derItems 8 tbs.2.1
    let i := if (v[0]?.map (·.1)) = some 0xA0 then 6 else 5
    match v[i]? with
    | none => []
    | some spki =>
      match derItems 2 spki.2.1 with
      | [_, (0x03, k, _)] => derBits k
      | _ => []

/-- The signed part, whole, and the signature. -/
def certSigned (der : Bytes) : Bytes := ((certParts der)[0]?.map (·.2.2)).getD []
def certSig (der : Bytes) : Bytes :=
  match (certParts der)[2]? with
  | some (0x03, s, _) => derBits s
  | _ => []

/-- An ECDSA signature's two integers, 48 bytes each. -/
def sigPair (b : Bytes) : Bytes :=
  match derTake b with
  | some (0x30, c, _, []) =>
    match derItems 2 c with
    | [(0x02, r, _), (0x02, s, _)] => be 48 (ofBe r) ++ be 48 (ofBe s)
    | _ => []
  | _ => []

/-- Whether a certificate is signed under a public key: ML-DSA-87 (`pq`) or ECDSA P-384 with SHA-384. -/
def certSignedBy (pq : Bool) (der pub : Bytes) : Bool :=
  if pq then dsaVerify pub (certSigned der) (certSig der) else p384Verify pub (certSigned der) (sigPair (certSig der))

end Sys2Proof.Crypto
end

