-- ==== Sys2Proof/Machine/Evidence.lean ====
section
/-! DEFINITION. Identity keys, the Zeler bundle, its verification, and the evidence commands (07). -/

namespace Sys2Proof.Machine
open Sys2Proof Sys2Proof.Crypto

/-! ### Identity (07 R219 to R223) -/

/-- A key pair: the ML-DSA-87 seed and the P-384 private integer (07 R220). -/
structure IdPair where
  xi : Bytes
  d : Nat
  deriving DecidableEq, Repr

def pairFrom (prk : Bytes) : IdPair :=
  { xi := hkdfExpand prk (ascii "yk3 mldsa") 32, d := ofBe (hkdfExpand prk (ascii "yk3 p384") 56) % (p384Order - 1) + 1 }
def IdPair.mPub (p : IdPair) : Bytes := (dsaKeys p.xi).pub
def IdPair.pPub (p : IdPair) : Bytes := p384Pub p.d

/-- The life-cycle code in force: the target of the highest finished progress entry, Maker without one (12 Table 12.4). -/
def lcCode (a : Aon) : Nat :=
  if a.testFrom.isSome then 2
  else ((a.progress.filter fun e => e.2.getLsbD 7).map fun e => (e.2.extractLsb' 12 4).toNat).getLast?.getD 1
/-- The debug code: open in Maker, Maker-Test and Returned, closed in Scrapped, else as reopened (12 R377, R391). -/
def dbgCode (a : Aon) : Nat :=
  let l := lcCode a
  if l = 6 then 0 else if l = 1 ∨ l = 2 ∨ l = 5 ∨ a.debugOpen then 1 else 0

def ikOf (seed : Bytes) : IdPair := pairFrom (hkdfExtract (ascii "yk3 identity") seed)
def State.ik (s : State) : IdPair := ikOf s.keep.seed
def State.ek (s : State) : IdPair :=
  let b := sha384 (s.keep.fwDigest ++ le 4 s.keep.imageSeq ++ s.keep.cfgDigest ++
    [BitVec.ofNat 8 (lcCode s.aon), BitVec.ofNat 8 (dbgCode s.aon)])
  pairFrom (hkdfExtract b s.keep.seed)

/-! ### Dual signatures (07 R225) -/

def kid (pub : Bytes) : Bytes := (sha384 pub).take 16
/-- The protected header; `alg` is the COSE algorithm -1 - alg. -/
def protHdr (alg : Nat) (pub : Bytes) : Bytes := cMap [(1, cNint alg), (4, cBytes (kid pub))]
/-- The Sig_structure of RFC 9052 with empty external data. -/
def sigStruct (prot payload : Bytes) : Bytes := cArr [cText "Signature1", cBytes prot, cBytes [], cBytes payload]
def cose (prot payload sig : Bytes) : Bytes := cTag 18 (cArr [cBytes prot, cMap [], payload, cBytes sig])
/-- A dual signature with the random bytes of its two algorithms. -/
def dualSign (p : IdPair) (payload rm rp : Bytes) : Bytes :=
  let hm := protHdr 49 p.mPub
  let hp := protHdr 34 p.pPub
  cArr [cose hm (cBytes payload) (dsaSign p.xi (sigStruct hm payload) rm), cose hp cNil (p384Sign p.d (sigStruct hp payload) rp)]

/-- Signs; both algorithms take their random bytes from instance 1 (06 R187). -/
def signDual (p : IdPair) (payload : Bytes) (s : State) : Bytes × State :=
  let (rm, s) := drawBytes 32 s
  let (rp, s) := drawBytes 56 s
  (dualSign p payload rm rp, s)

/-- The EK endorsement's map (07 Table 7.3), which IK signs. -/
def endorsement (s : State) : Bytes :=
  cMap [(1, cBytes s.ek.mPub), (2, cBytes s.ek.pPub), (3, cArr [cUint s.keep.imageSeq, cBytes s.keep.fwDigest]),
    (4, cBytes s.keep.cfgDigest), (5, cUint (lcCode s.aon)), (6, cUint (dbgCode s.aon)), (7, cBytes s.keep.startId), (8, cBytes s.aon.ueid)]

/-! ### Claims (07 Table 7.4) -/

/-- Slices of the installed map that a partition leases. -/
def slicesOf (s : State) (part : Nat) : List Slice := s.slices.filter fun x => x.lessees.contains (some part)

/-- Claims of one partition (07 Table 7.4, keys 8 to 13).  DESIGN CHOICE (log 136): the measured regions of claim 10 are those
whose measurement is Recorded (04 R110), since a Hashing or Broken region has no m_r to show. -/
def partClaims (s : State) (part : Nat) : List (Nat × Bytes) :=
  let p := s.part part
  let d := s.dom part
  let regions := (s.objs.filter fun o => o.2.part == part && o.2.meas == 3 && o.2.state != 0 && o.2.state != 4).map fun o =>
    cArr [cUint o.2.kind, cUint o.2.label, cUint o.2.tiles, cUint o.2.loadGen, cBytes o.2.mr]
  let keys := (s.keys.filter fun k => k.2.state != 0 && !k.2.keepOwn && k.2.owner == part).map fun k =>
    cArr [cUint k.2.cls, cUint k.1, cUint k.2.gen]
  let slices := (slicesOf s part).map fun x =>
    cArr [cUint x.idx, cBytes (le 8 x.chans.toNat), cBytes (le 4 x.ports.toNat), cUint x.lessees.length]
  let bound := (s.host.tdisp.filter fun x => x.2.part == some part && x.2.state != 0).take 1
  [(8, cMap [(1, cUint part), (2, cUint s.epoch.toNat), (3, cArr slices), (4, cUint p.policy), (5, cBool p.warm)]),
   (9, cBytes (fit 48 p.pmr)), (10, cArr regions), (11, cArr keys)] ++
  (if d.state = 0 then [] else [(12, cMap [(1, cUint d.domain), (2, cUint d.own), (3, cUint d.memberGen),
    (4, cUint (if d.state < 3 then 0 else (s.key d.jobSlot).gen + if (s.key d.jobSlot).first then 1 else 0)), (5, cUint d.anchor), (6, cBytes d.digest)])]) ++
  bound.map fun x => (13, cMap [(1, cUint x.1), (2, cUint x.2.state), (3, cUint x.2.stream)])

def claims (s : State) (part : Nat) (nonce : Bytes) : Bytes :=
  cMap ([(1, cBytes nonce), (2, cBytes s.keep.startId), (3, cUint s.now), (4, cUint (lcCode s.aon)), (5, cUint (dbgCode s.aon)),
    (6, cUint s.aon.cause), (7, cUint s.keep.policy)] ++ if part = 0xFF then [] else partClaims s part)

/-- The chain of the bundle, empty when the flash copy does not match the derived identity (07 R222). -/
def chainOf (s : State) : List Bytes := if s.keep.chainOk then s.flash.certs else []

/-- A Zeler bundle over the claims latched now; they are put together in secure scratch (07 R224, R227; 12 R395). -/
def zeler (part : Nat) (nonce : Bytes) (s : State) : Bytes × State :=
  let (d, t) := signDual s.ek (claims s part nonce) (scratchOut false (claims s part nonce) s)
  (cArr [cUint 1, cArr ((chainOf s).map cBytes), s.keep.endorse, d], t)

/-! ### Verification (07 Table 7.6) -/

/-- A dual signature as received. -/
structure Dual where
  protM : Bytes
  payload : Bytes
  sigM : Bytes
  protP : Bytes
  sigP : Bytes
  deriving Repr

def dualOf : Cbor → Option Dual
  | .arr [.tag 18 [.arr [.bytes hm, .map [], .bytes p, .bytes sm]], .tag 18 [.arr [.bytes hp, .map [], .simple 22, .bytes sp]]] =>
    some ⟨hm, p, sm, hp, sp⟩
  | _ => none

/-- Both signatures verify under the signer's two public keys. -/
def dualOk (mPub pPub : Bytes) (d : Dual) : Bool :=
  d.protM == protHdr 49 mPub && d.protP == protHdr 34 pPub &&
  dsaVerify mPub (sigStruct d.protM d.payload) d.sigM && p384Verify pPub (sigStruct d.protP d.payload) d.sigP

/-- A policy map (07 Table 7.9). -/
structure Policy where
  fw : List Bytes := []
  minSeq : Nat := 0
  onLoss : Nat := 0
  window : Nat := 600
  formMs : Nat := 10000
  deriving Repr

/-- Reads a policy: at most 1 KiB, every entry in its range. -/
def readPolicy (b : Bytes) : Option Policy :=
  if 1024 < b.length then none else
  match cborOf b with
  | none => none
  | some c =>
    let fw := ((c.get 1).map Cbor.asList).getD []
    let ds := fw.filterMap Cbor.asBytes
    match c.nat 2, c.nat 3, c.nat 4, c.nat 5 with
    | some m, some l, some w, some f =>
      if c.size = 5 ∧ ds.length = fw.length ∧ 1 ≤ fw.length ∧ fw.length ≤ 8 ∧ (ds.all fun d => d.length == 48) ∧ l ≤ 1 ∧
          1 ≤ w ∧ w ≤ 600 ∧ 100 ≤ f ∧ f ≤ 10000
      then some ⟨ds, m, l, w, f⟩ else none
    | _, _, _, _ => none

/-- The policy in force for a digest: the anchor's own map, or the map that has the digest. -/
def policyFor (own digest : Bytes) : Policy := (readPolicy (if own = [] then Config.policyMap digest else own)).getD {}

/-- What a bundle must show: nonce, policy, and for a domain the policy digest, domain and device. -/
structure Expect where
  nonce : Bytes
  policy : Policy
  dom : Option (Bytes × Nat × Nat) := none
  ueid : Bytes := []

/-- A product CA certificate stands if it was verified since the keep start, or is signed under the root of a fused digest. -/
def caOk (s : State) (ca root : Bytes) : Bool := s.keep.caSeen.contains (sha384 ca) || Config.rootSigned ca root

/-- The chain of a bundle reaches the fused roots: in each algorithm a product CA, and the identity certificate it signs
(07 R222, Table 7.1). -/
def chainReaches (s : State) (ders : List Bytes) : Bool :=
  let c (i : Nat) : Bytes := ders.getD i []
  ders.length == 4 && caOk s (c 0) s.aon.rootM && certSignedBy true (c 1) (certSubject (c 0)) &&
    caOk s (c 2) s.aon.rootP && certSignedBy false (c 3) (certSubject (c 2))

/-- The product CA certificates of a bundle, once verified, are kept by their digests until the next keep start (07 R229). -/
def keepCas (b : Bytes) (s : State) : State :=
  match cborOf b with
  | some (.arr (_ :: .arr certs :: _)) =>
    let ders := certs.filterMap Cbor.asBytes
    if chainReaches s ders then
      { s with keep := { s.keep with caSeen := (s.keep.caSeen ++ [sha384 (ders.getD 0 []), sha384 (ders.getD 2 [])]).eraseDups } }
    else s
  | _ => s

/-- The reason of the first failing check of Table 7.6, or 0. -/
def verifyBundle (s : State) (x : Expect) (b : Bytes) : Nat :=
  match cborOf b with
  | some (.arr [.uint 1, .arr certs, e, c]) =>
    match dualOf e, dualOf c with
    | some e, some c =>
      match cborOf e.payload, cborOf c.payload with
      | some em, some cm =>
        let ders := certs.filterMap Cbor.asBytes
        let p12 := (cm.get 12).getD (.map [])
        let fw := ((em.get 3).map Cbor.asList).getD []
        let seq := ((fw[0]?).bind Cbor.asUint).getD 0
        let dig := ((fw[1]?).bind Cbor.asBytes).getD []
        if ders.length ≠ certs.length ∨ em.size ≠ 8 ∨ cm.size < 7 then 0x01
        else if !chainReaches s ders then 0x02
        else if !dualOk (certSubject (ders.getD 1 [])) (certSubject (ders.getD 3 [])) e ∨
            !dualOk ((em.bstr 1).getD []) ((em.bstr 2).getD []) c ∨ cm.bstr 2 ≠ em.bstr 7 ∨ em.bstr 7 = none then 0x03
        else if cm.bstr 1 ≠ some x.nonce then 0x04
        else if em.nat 5 ≠ some 4 ∨ cm.nat 4 ≠ some 4 ∨ em.nat 6 ≠ some 0 ∨ cm.nat 5 ≠ some 0 then 0x05
        else if !x.policy.fw.contains dig ∨ seq < x.policy.minSeq then 0x06
        else if (x.dom.map fun d => p12.bstr 6 != some d.1).getD false then 0x07
        else if (x.dom.map fun d => p12.nat 1 != some d.2.1 || p12.nat 2 != some d.2.2).getD false then 0x08
        else if x.ueid ≠ [] ∧ em.bstr 8 ≠ some x.ueid then 0x09
        else 0
      | _, _ => 0x01
    | _, _ => 0x01
  | _ => 0x01

/-- The last reset cause that a verified bundle claims. -/
def bundleCause (b : Bytes) : Nat :=
  match cborOf b with
  | some (.arr [_, _, _, c]) => (((dualOf c).bind fun d => cborOf d.payload).bind fun m => m.nat 6).getD 0
  | _ => 0

/-! ### Commands (07 Table 7.14) -/

/-- EVIDENCE_GET (07 R226, 09 Table 9.11); it waits for random bits up to the 50 ms of 07 R228. -/
def bodyEvidenceGet : Body := fun t _ _ s =>
  let part := opnd t.e 0 1
  let n := opnd t.e 1 1
  let h := opnd t.e 4 4
  let own := s.partOf t
  if (own ≠ 0xFF ∧ part ≠ own) ∨ (part ≠ 0xFF ∧ (s.part part).state = 0) then failCmd t yeDenied s
  else if n < 32 ∨ 64 < n then failCmd t yeLength s
  else if !canDraw s 1 then waitDraw t s
  else
    let (b, s) := zeler part ((opBytes t.e 16 64).take n) s
    putObj t (accPart s t h) h (opnd t.e 8 5) b (done t (le 4 b.length)) s

def execEvidenceGet (q : Nat) (e : BitVec 1024) (rc : BitVec 16) (inp : List (BitVec 8)) (s : State) : Res :=
  .next (takeCmd 0x0701 bodyEvidenceGet q e rc inp s)

/-- IDENTITY_GET: the certificates of the chain one after another, in the order of Table 7.2. -/
def bodyIdentityGet : Body := fun t _ _ s =>
  let h := opnd t.e 0 4
  let b := (chainOf s).flatten
  putObj t (accPart s t h) h (opnd t.e 4 5) b (done t (fit 32 s.aon.ueid ++ le 4 b.length)) s

def execIdentityGet (q : Nat) (e : BitVec 1024) (rc : BitVec 16) (inp : List (BitVec 8)) (s : State) : Res :=
  .next (takeCmd 0x0702 bodyIdentityGet q e rc inp s)

end Sys2Proof.Machine
end

