-- ==== Sys2Proof/Machine/Kem.lean ====
section
/-! DEFINITION. ML-KEM-1024 (FIPS 203), the key encapsulation of the hybrid exchange (07 R232, R233). -/

namespace Sys2Proof.Crypto
open Sys2Proof

def kemQ : Nat := 3329
/-- Rank. -/
def kemK : Nat := 4

def kemNtt (f : List Nat) : List Nat := nttFrom kemQ (fun m => powMod kemQ 17 (brv 7 m)) 7 1 f
def kemIntt (f : List Nat) : List Nat :=
  (inttFrom kemQ (fun m => powMod kemQ 17 (256 - brv 7 m)) 7 1 f).map fun x => x * 3303 % kemQ

/-- Product in transformed form: 128 products of pairs. -/
def kemMul (f g : List Nat) : List Nat :=
  ((List.range 128).map fun i =>
    let z := powMod kemQ 17 (2 * brv 7 i + 1)
    let a := f.getD (2 * i) 0
    let b := f.getD (2 * i + 1) 0
    let c := g.getD (2 * i) 0
    let d := g.getD (2 * i + 1) 0
    [(a * c + b * d % kemQ * z) % kemQ, (a * d + b * c) % kemQ]).flatten

def kemDot (f g : List (List Nat)) : List Nat := sumPolys kemQ (List.zipWith kemMul f g)

/-- Coefficients below q out of a stream of bytes, twelve bits at a time. -/
def kemReject (b : Bytes) : List Nat :=
  let t := (blocks 3 b).map fun x => ofLe x
  ((t.map fun v => [v % 4096, v / 4096]).flatten.filter fun v => decide (v < kemQ)).take 256

/-- Entry (i, j) of the matrix. -/
def kemEntry (rho : Bytes) (i j : Nat) : List Nat := kemReject (shake128 (rho ++ le 1 j ++ le 1 i) 840)

/-- A polynomial of the centred binomial distribution with parameter 2. -/
def kemNoise (seed : Bytes) (n : Nat) : List Nat :=
  (unpackBits 4 256 (shake256 (seed ++ le 1 n) 128)).map fun v => (v % 2 + v / 2 % 2 + kemQ - v / 4 % 2 - v / 8 % 2) % kemQ

def kemCompress (d x : Nat) : Nat := (2 ^ (d + 1) * x + kemQ) / (2 * kemQ) % 2 ^ d
def kemDecompress (d y : Nat) : Nat := (2 * kemQ * y + 2 ^ d) / 2 ^ (d + 1)

def kemPack (d : Nat) (l : List (List Nat)) : Bytes := (l.map (packBits d)).flatten
def kemUnpack (d n : Nat) (b : Bytes) : List (List Nat) := (List.range n).map fun i => unpackBits d 256 (cut (32 * d * i) (32 * d) b)

/-- Key pair of the seeds d and z: encapsulation key and decapsulation key. -/
def kemKeys (d z : Bytes) : Bytes × Bytes :=
  let g := sha3_512 (d ++ le 1 kemK)
  let rho := g.take 32
  let sigma := g.drop 32
  let s := (List.range kemK).map fun i => kemNtt (kemNoise sigma i)
  let t := (List.range kemK).map fun i =>
    addPoly kemQ (kemDot ((List.range kemK).map (kemEntry rho i)) s) (kemNtt (kemNoise sigma (kemK + i)))
  let ek := kemPack 12 t ++ rho
  (ek, kemPack 12 s ++ ek ++ sha3_256 ek ++ z)

def kemEncrypt (ek m r : Bytes) : Bytes :=
  let t := kemUnpack 12 kemK ek
  let rho := cut 1536 32 ek
  let y := (List.range kemK).map fun i => kemNtt (kemNoise r i)
  let u := (List.range kemK).map fun i =>
    addPoly kemQ (kemIntt (kemDot ((List.range kemK).map fun j => kemEntry rho j i) y)) (kemNoise r (kemK + i))
  let v := sumPolys kemQ [kemIntt (kemDot t y), kemNoise r (2 * kemK), (unpackBits 1 256 m).map (kemDecompress 1)]
  kemPack 11 (u.map fun p => p.map (kemCompress 11)) ++ packBits 5 (v.map (kemCompress 5))

def kemDecrypt (dk c : Bytes) : Bytes :=
  let u := (kemUnpack 11 kemK c).map fun p => kemNtt (p.map (kemDecompress 11))
  let v := (unpackBits 5 256 (c.drop 1408)).map (kemDecompress 5)
  packBits 1 ((subPoly kemQ v (kemIntt (kemDot (kemUnpack 12 kemK dk) u))).map (kemCompress 1))

/-- An encapsulation key of the right length whose coefficients are below q. -/
def kemKeyOk (ek : Bytes) : Bool := ek.length == 1568 && (kemUnpack 12 kemK ek).all fun p => p.all fun x => decide (x < kemQ)

/-- Shared secret and ciphertext against an encapsulation key, with 32 random bytes. -/
def kemEncaps (ek m : Bytes) : Bytes × Bytes :=
  let g := sha3_512 (m ++ sha3_256 ek)
  (g.take 32, kemEncrypt ek m (g.drop 32))

/-- The shared secret of a ciphertext; for one that was not made so, a secret that nobody else knows. -/
def kemDecaps (dk c : Bytes) : Bytes :=
  let ek := cut 1536 1568 dk
  let m := kemDecrypt dk c
  let g := sha3_512 (m ++ cut 3104 32 dk)
  if kemEncrypt ek m (g.drop 32) = c then g.take 32 else shake256 (cut 3136 32 dk ++ c) 32

end Sys2Proof.Crypto
end

