-- ==== Sys2Proof/Machine/Exchange.lean ====
section
/-! DEFINITION. Admission and migration records, their exchange cryptography, outbound rings and domain messages (07
R230 to R234, R241; 08 R279). -/

namespace Sys2Proof.Machine
open Sys2Proof Sys2Proof.Crypto

/-! ### Outbound rings (13 R411) -/

/-- Writes a record to a ring and raises event 0x06; `none` when it does not fit. -/
def putOut (part ring type : Nat) (b : Bytes) (s : State) : Option State :=
  let off := (tget {} s.rings ring).woff
  (ringPut ring (ringItem type b) s).map (raiseEvent 0 off 0x06 0 part)

/-- A domain record goes out, or waits for room behind those that wait. -/
def outDom (part : Nat) (b : Bytes) (s : State) : State :=
  let d := s.dom part
  let wait := s.onDom part fun d => { d with outq := d.outq ++ [b] }
  if d.outq.isEmpty then (putOut part d.ring 0x20 b s).getD wait else wait

/-- A migration record likewise. -/
def outMig (part : Nat) (b : Bytes) (s : State) : State :=
  let m := tget {} s.migs part
  let wait := { s with migs := tupd {} s.migs part fun m => { m with outq := m.outq ++ [b] } }
  if m.outq.isEmpty then (putOut part m.ring 0x21 b s).getD wait else wait

/-! ### The member table -/

/-- Whether a device stands below another in the tree of R235, or is it. -/
def below (top : Nat) : Nat → Nat → Bool
  | 0, _ => false
  | f + 1, dev => dev == top || (dev != 0 && below top f ((dev - 1) / 64))
/-- A device as this member knows it.  One that it has no entry for is live at generation 1, unless formation left it out, alone
or with a device above it (07 R238). -/
def memberOf (d : Dom) (dev : Nat) : Member :=
  tget { gen := if d.outside.any (fun t => below t 5 dev) then 0 else 1, live := !(d.outside.any fun t => below t 5 dev) } d.members dev

/-- The keys that a rotation selects (07 R248). -/
def selJob (sel : Nat) : Bool := sel % 2 == 1
def selCkpt (sel : Nat) : Bool := sel / 2 % 2 == 1

/-! ### Domain messages (07 R241, Table 7.11) -/

def mailHdr (type frag len sender gen num : Nat) : Bytes :=
  le 1 type ++ le 1 frag ++ le 2 len ++ le 3 sender ++ [0] ++ le 2 gen ++ le 2 0 ++ le 4 num

/-- Sends a message to a device: Stores of the keep on the domain mailbox handle. -/
def sendMail (part dst type : Nat) (body : Bytes) (s : State) : State :=
  let d := s.dom part
  let frs := if body.isEmpty then [[]] else blocks 4080 body
  let stores := frs.zipIdx.map fun f =>
    let last := if f.2 + 1 = frs.length then 128 else 0
    (mailHdr type (last + f.2) f.1.length d.own d.memberGen d.msgNum, f.1)
  let s := s.onDom part fun d => { d with msgNum := (d.msgNum + 1) % 2 ^ 32 }
  let s := each stores (fun m s => emit (.mail part dst m.1 m.2) s) s
  keepSend part dst (stores.map fun m => {
    kind := 2, wire := 2, part := part, epoch := s.epoch, dst := dst, len := (m.1 ++ m.2).length, fence := 0xFFFF, data := m.1 ++ m.2 }) s

def mailAll (part : Nat) (dsts : List Nat) (type : Nat) (body : Bytes) (s : State) : State :=
  each dsts (fun d s => sendMail part d type body s) s

def mailType (h : BitVec 128) : Nat := rf h 0 8
def mailSender (h : BitVec 128) : Nat := rf h 32 18
def mailGen (h : BitVec 128) : Nat := rf h 64 16
def mailNum (h : BitVec 128) : Nat := rf h 96 32

/-- Writes an entry of the member table, whose live count follows it (07 R243). -/
def setMember (part dev : Nat) (m : Member) (s : State) : State :=
  s.onDom part fun d =>
    let was := (memberOf d dev).live
    { d with members := tset d.members dev m,
             count := if m.live ∧ ¬ was then d.count + 1 else if was ∧ ¬ m.live then d.count - 1 else d.count }

/-- The anchor copies a change of its table to the deputy (07 R243). -/
def syncDeputy (part dev : Nat) (s : State) : State :=
  let d := s.dom part
  let m := memberOf d dev
  if d.deputy = d.own then s else sendMail part d.deputy 0x1C (le 3 dev ++ le 2 m.gen ++ [if m.live then 1 else 0]) s

/-- The anchor learns a member's generation from the messages it sends (07 Table 7.11). -/
def noteGen (part sender gen : Nat) (s : State) : State :=
  let d := s.dom part
  if d.state = 4 ∧ d.own = d.anchor ∧ (memberOf d sender).gen < gen then
    let s := (setMember part sender { gen := gen, live := true } s).onDom part fun d => { d with rejoinBy := tdel d.rejoinBy sender }
    syncDeputy part sender s
  else s

/-- Length of a message's body and its reserved bytes, each as offset and size (07 Table 7.11, 08 Table 8.6, 11
Table 11.3); no length for a
body that carries a record or runs of entries. -/
def mailForm (type : Nat) : Option Nat × List (Nat × Nat) :=
  match type with
  | 0x11 => (some 8, [(6, 2)])
  | 0x12 => (some 16, [(6, 2), (13, 3)])
  | 0x14 | 0x15 => (some 4, [(2, 2)])
  | 0x16 => (some 88, [(5, 3)])
  | 0x17 => (some 24, [(7, 1)])
  | 0x18 | 0x19 => (some 8, [(4, 4)])
  | 0x1A | 0x1C => (none, [])
  | 0x1B => (some 8, [(6, 2)])
  | 0x20 => (some 16, [(5, 3), (12, 4)])
  | 0x21 => (some 16, [(10, 6)])
  | 0x22 => (some 8, [])
  | 0x23 | 0x27 => (some 8, [(5, 3)])
  | 0x24 | 0x26 | 0x28 => (some 8, [(4, 4)])
  | 0x25 => (some 8, [(6, 2)])
  | 0x30 | 0x31 => (some 16, [(9, 7)])
  | _ => (some 0, [])

/-- A body of its message's length with every reserved byte zero (00 R11). -/
def mailClean (type : Nat) (b : Bytes) : Bool :=
  let f := mailForm type
  (f.1.isNone || f.1 == some b.length) && f.2.all (fun r => cut r.1 r.2 b == zeros r.2) &&
    (type != 0x1C || b.length % 6 == 0) &&
    (type != 0x16 || ((selJob (ofLe (cut 4 1 b)) || cut 8 40 b == zeros 40) && (selCkpt (ofLe (cut 4 1 b)) || cut 48 40 b == zeros 40)))

/-- Reserved bytes and bits of a mailbox header are zero. -/
def mailHdrClean (h : BitVec 128) : Bool := rf h 50 6 == 0 && rf h 56 8 == 0 && rf h 80 16 == 0

/-- Runs a message's meaning on its whole body, once every fragment has arrived in order (07 R241).  A fragment or a message
with a reserved field that is not zero has no effect (00 R11). -/
def withMail (type part : Nat) (hdr : BitVec 128) (body : Bytes) (k : Nat → Bytes → State → State) (s : State) : State :=
  let src := mailSender hdr
  let frag := rf hdr 8 8
  let idx := frag % 128
  if mailType hdr ≠ type ∨ rf hdr 16 16 ≠ body.length ∨ 4080 < body.length ∨ !(mailHdrClean hdr) ∨ !(s.keepLive) then s
  else
    let key := (src, mailNum hdr)
    let old := (((s.dom part).frags.find? fun f => f.1 == key).map (·.2)).getD []
    let rest := (s.dom part).frags.filter fun f => !(f.1 == key)
    if idx ≠ old.length then s.onDom part fun d => { d with frags := rest }
    else if frag < 128 then s.onDom part fun d => { d with frags := rest ++ [(key, old ++ [body])] }
    else
      let whole := (old ++ [body]).flatten
      let s := s.onDom part fun d => { d with frags := rest }
      if mailClean type whole then k src whole (noteGen part src (mailGen hdr) s) else s

/-! ### Records (07 Tables 7.7, 7.8) -/

def recHdr (type dom snd rcv num len : Nat) : Bytes :=
  le 1 type ++ [1, 0, 0] ++ le 3 dom ++ [0] ++ le 3 snd ++ [0] ++ le 3 rcv ++ [0] ++ le 4 num ++ le 4 len ++ zeros 8
def record (type dom snd rcv num : Nat) (body : Bytes) : Bytes := recHdr type dom snd rcv num body.length ++ body

/-- A record as received. -/
structure Rec where
  type : Nat
  dom : Nat
  snd : Nat
  rcv : Nat
  num : Nat
  body : Bytes
  raw : Bytes
  deriving DecidableEq, Repr

/-- The device field that means none. -/
def noDev : Nat := 0xFFFFFF

/-- Reads a record; `none` when it is not of the length that its header gives. -/
def recOf (b : Bytes) : Option Rec :=
  let r : Rec := ⟨ofLe (b.take 1), ofLe (cut 4 3 b), ofLe (cut 8 3 b), ofLe (cut 12 3 b), ofLe (cut 16 4 b), b.drop 32, b⟩
  if b.length < 32 ∨ ofLe (cut 20 4 b) ≠ r.body.length then none else some r

/-- The bytes of a record that are reserved in its type, each as offset and size (07 Tables 7.7, 7.8). -/
def recReserved (type : Nat) : List (Nat × Nat) :=
  [(2, 2), (7, 1), (11, 1), (15, 1), (24, 8)] ++
  match type with
  | 3 => [(55, 1)]
  | 4 => [(51, 1)]
  | 5 => [(39, 1)]
  | 6 => [(33, 3)]
  | _ => []

/-- A migration record (08 R279); an ADMIT_REFUSE without device IDs ends a migration's exchange. -/
def Rec.mig (r : Rec) : Bool := 7 ≤ r.type || r.type == 6 && r.snd == noDev

/-- A record of a known type and version whose reserved fields are zero (00 R11). -/
def recClean (r : Rec) : Bool :=
  1 ≤ r.type && r.type ≤ 10 && cut 1 1 r.raw == [1] && (recReserved r.type).all (fun x => cut x.1 x.2 r.raw == zeros x.2) &&
  if r.mig then r.dom == 0 && r.snd == noDev && r.rcv == noDev else decide (r.snd < 2 ^ 18) && decide (r.rcv < 2 ^ 18)

/-! ### Exchange cryptography (07 R232, R233) -/

/-- A fresh P-384 private integer, from 448 random bits (06 R187). -/
def p384Key (s : State) : Nat × State :=
  let (a, s) := draw0 s
  let (b, s) := draw0 s
  (ofBe ((keyBytes a ++ keyBytes b).take 56) % (p384Order - 1) + 1, s)

/-- An exchange's ML-KEM-1024 key pair, out of the seeds d and z that it holds (07 R232). -/
def Exch.kemPair (seed : BitVec 512) : Bytes × Bytes :=
  kemKeys (keyBytes (seed.extractLsb' 256 256)) (keyBytes (seed.extractLsb' 0 256))

/-- The parent's first record and its exchange. -/
def makeOffer (type dom snd rcv : Nat) (ueid policy : Bytes) (inband : Bool) (s : State) : Exch × State :=
  let (a, s) := draw0 s
  let (b, s) := draw0 s
  let seed : BitVec 512 := a ++ b
  let (d, s) := p384Key s
  let (nonce, s) := drawBytes 32 s
  let (num, s) := drawBytes 4 s
  let body := nonce ++ fit 32 ueid ++ fit 48 policy ++ p384Pub d ++ (Exch.kemPair seed).1
  ({ num := ofLe num, peer := rcv, parent := true, phase := 1, a1 := record type dom snd rcv (ofLe num) body, kem := seed, ecdh := d,
     lastAt := s.now, inband := inband }, s)

/-- The ephemeral keys of an offer and of a reply are ones that their algorithms admit.  DESIGN CHOICE (log 145): others end the
exchange with reason 0x0A. -/
def offerKeysOk (r : Rec) : Bool := (ecPoint (cut 112 97 r.body)).isSome && kemKeyOk (cut 209 1568 r.body)
def replyKeysOk (r : Rec) : Bool := (ecPoint (cut 32 97 r.body)).isSome

/-- `info` of R233. -/
def exchInfo (label : String) (dom parent child num : Nat) : Bytes := ascii label ++ le 3 dom ++ le 3 parent ++ le 3 child ++ le 4 num
def exchKey (label : String) (dom parent child : Nat) (x : Exch) : BitVec 256 :=
  keyOf (hkdfExpand x.prk (exchInfo label dom parent child x.num) 32)

/-- The key schedule over th2. -/
def schedule (dom parent child : Nat) (ss xc : Bytes) (x : Exch) : Exch :=
  let x := { x with prk := hkdfExtract (sha384 (x.a1 ++ x.a2)) (fit 32 ss ++ fit 48 xc) }
  { x with kcp := exchKey "yk3 cnf p" dom parent child x, kcc := exchKey "yk3 cnf c" dom parent child x }

/-- The child's reply with its bundle, and its exchange. -/
def makeReply (type dom parent child bundlePart : Nat) (r : Rec) (inband : Bool) (s : State) : Exch × State :=
  let (nonce, s) := drawBytes 32 s
  let (d, s) := p384Key s
  let (rnd, s) := draw0 s
  let (ss, ct) := kemEncaps (cut 209 1568 r.body) (keyBytes rnd)
  let (bundle, s) := zeler bundlePart (sha384 r.raw) s
  let body := nonce ++ p384Pub d ++ ct ++ le 4 bundle.length ++ bundle
  let x : Exch := { num := r.num, peer := r.snd, phase := 1, a1 := r.raw, a2 := record type dom r.rcv r.snd r.num body, lastAt := s.now,
                    inband := inband }
  (schedule dom parent child ss ((p384Ecdh d (cut 112 97 r.body)).getD []) x, s)

/-- The bundle of a reply, when its length fits. -/
def replyBundle (r : Rec) : Option Bytes :=
  if r.body.length < 1701 ∨ r.body.length ≠ 1701 + ofLe (cut 1697 4 r.body) then none else some (r.body.drop 1701)

/-- The parent's keys once the reply is in; the private halves have done their work. -/
def parentKeys (dom parent child : Nat) (r : Rec) (x : Exch) : Exch :=
  schedule dom parent child (kemDecaps (Exch.kemPair x.kem).2 (cut 129 1568 r.body)) ((p384Ecdh x.ecdh (cut 32 97 r.body)).getD [])
    { x with a2 := r.raw, kem := 0, ecdh := 0 }

/-- A record whose last 16 bytes are a CMAC over the transcript so far and the record without them. -/
def macRecord (type dom snd rcv num : Nat) (key : BitVec 256) (pre body : Bytes) : Bytes :=
  let h := recHdr type dom snd rcv num (body.length + 16) ++ body
  h ++ cmac key (sha384 (pre ++ h))
def macOk (key : BitVec 256) (pre raw : Bytes) : Bool :=
  let n := raw.length - 16
  raw.drop n == cmac key (sha384 (pre ++ raw.take n))

/-! ### Waiting commands (07 DOMAIN_MESSAGE) -/

/-- The DOMAIN_MESSAGE command that delivered the record a partition processes. -/
def messageOf (s : State) (part : Nat) : Option Taken := (runningWith s 0x0712 (part + 1)).head?
/-- It completes with the record type produced. -/
def messageDone (part type : Nat) (s : State) : State :=
  match messageOf s part with
  | some t => done t (le 1 type) s
  | none => s
def messageFail (part : Nat) (s : State) : State :=
  match messageOf s part with
  | some t => failCmd t yeDenied s
  | none => s

/-- A refusal's event (09 Table 9.22). -/
def refusalEvent (part num reason : Nat) (s : State) : State := raiseEvent 0 num 0x05 reason part s

/-- A command that waits for random bits says so (06 R188). -/
def messageWaits (part : Nat) (s : State) : State :=
  match messageOf s part with
  | some t => if t.askedDrbg.isSome then s else
      { s with taken := s.taken.map fun x => if x.q == t.q && x.seq == t.seq then { x with askedDrbg := some s.now } else x }
  | none => s

end Sys2Proof.Machine
end

