-- ==== Sys2Proof/Machine/Handoff.lean ====
section
/-! DEFINITION. Handing a region between parts: offers, landing regions, and the messages of 08 Table 8.6 (08 R268 to
R277). -/

namespace Sys2Proof.Machine
open Sys2Proof Sys2Proof.Crypto

/-! ### References and retirement of objects (09 R321, R322) -/

/-- A command whose reference on the region it offered ended when the handoff was Released. -/
def offerEnded (s : State) (t : Taken) : Bool :=
  envOpcode t.e == 0x0820 && s.handoffs.any fun h => h.offerer && h.state == 4 && h.num + 1 == t.aux

/-- Queued references on an object. -/
def refsOf (s : State) (oi : Nat) : Nat :=
  (s.obj oi).refs + (s.taken.filter fun t => t.objs.contains oi && !offerEnded s t).length

/-- Takes a Doomed object without references to Retiring; a plain one sets its flag on every station (09 R322). -/
def retireObject (oi : Nat) (s : State) : State :=
  let o := s.obj oi
  if o.state ≠ 2 ∨ refsOf s oi ≠ 0 then s
  else if o.cls = 4 then
    issue 3 oi (s.onObj oi fun o => { o with state := 3, cutAt := some (s.now + Config.ms 2) })
  else retireSlot o.keySlot (Config.ms 2) (s.onObj oi fun o => { o with state := 3 })

/-- Dooms an object and retires it when nothing refers to it. -/
def doomObject (oi : Nat) (s : State) : State :=
  retireObject oi (s.onObj oi fun o => if o.state = 1 then { o with state := 2, owners := [] } else o)

/-! ### Records -/

def isHandoff (off : Bool) (part peer num : Nat) (h : Handoff) : Bool :=
  h.offerer == off && h.part == part && h.peer == peer && h.num == num
def findHandoff (s : State) (off : Bool) (part peer num : Nat) : Option Handoff := s.handoffs.find? (isHandoff off part peer num)
def setHandoff (h : Handoff) (s : State) : State :=
  { s with handoffs := s.handoffs.map fun x => if isHandoff h.offerer h.part h.peer h.num x then h else x }
def dropHandoff (h : Handoff) (s : State) : State :=
  { s with handoffs := s.handoffs.filter fun x => !isHandoff h.offerer h.part h.peer h.num x }

def sendHandoff (h : Handoff) (type : Nat) (rest : Bytes) (s : State) : State := sendMail h.part h.peer type (le 4 h.num ++ rest) s

/-- The command that made an offer. -/
def offerCmd (s : State) (h : Handoff) : Option Taken := (runningWith s 0x0820 (h.num + 1)).head?

/-- Lifts an object's freeze flag from every station. -/
def thawObject (oi : Nat) (s : State) : State :=
  { s.onObj oi fun o => { o with frozen := false } with
    mem := tmap (fun _ m => { m with frzObjs := without m.frzObjs oi, descs := without m.descs oi }) s.mem }

/-- The offerer takes its region back (08 R275). -/
def reclaim (h : Handoff) (cause : Nat) (s : State) : State :=
  if 4 ≤ h.state then s else
  let s := thawObject h.obj (setHandoff { h with state := 5 } s)
  let s := s.onObj h.obj fun o => { o with refs := o.refs - 1 }
  match offerCmd s h with
  | some t => complete t yeHandoff (detailHandoff cause h.num h.peer) [] s
  | none => s

/-- The receiver's region becomes ordinary (08 R274). -/
def landOwn (h : Handoff) (s : State) : State :=
  let s := s.onObj h.landing fun o => { o with landing := false, accepted := none, refs := o.refs - 1 }
  dropHandoff h (sendHandoff h 0x28 (zeros 4) s)

/-- Closes the arrival counter of a landing, if it is still open. -/
def closeLanding (h : Handoff) (s : State) : State :=
  if (tget {} s.arrivals h.counter).state = 1 ∧ (tget {} s.arrivals h.counter).ctx = 65535 then freeArrival h.counter s else s

/-- Every line of a region at version (0, 0) again, and no cached key of its slot anywhere. -/
def freshRegion (oi : Nat) (s : State) : State :=
  let o := s.obj oi
  let s := each o.places (fun p s => each (placeEntries o.cls p) (fun e s => newLine p.st e (o.cls == 3) o.part s) s) s
  { s.onObj oi fun o => { o with written := false } with
    mem := tmap (fun _ m => { m with port := { m.port with
      keys := m.port.keys.filter fun k => k.1 != o.keySlot, asked := m.port.asked.filter fun k => k.1 != o.keySlot } }) s.mem }

/-- The receiver discards its landing content: a fresh key replaces the region's, whose old half goes once it has drained, every
slot is at version (0, 0), and the registration stays (08 R276).  Until the slot can take a replacement the record waits. -/
def discard (h : Handoff) (s : State) : State :=
  let s := closeLanding h s
  let slot := (s.obj h.landing).keySlot
  let wait := setHandoff { h with state := 4 } s
  if !canDraw s 0 ∨ (s.key slot).state ≠ 1 then wait
  else if s.keep.verifyBad then if h.asked then wait else keyFails (setHandoff { h with state := 4, asked := true } s)
  else
    let (k, s) := draw0 s
    let s := freshRegion h.landing (commitSwap slot (s.onKey slot (writeNext k)))
    let s := s.onObj h.landing fun o => { o with accepted := none, refs := o.refs - 1 }
    dropHandoff h (sendHandoff h 0x28 (zeros 4) s)

/-! ### Offering (08 R271, R273) -/

/-- A freeze is confirmed on every station of a region, with no write in flight. -/
def freezeDone (s : State) (oi : Nat) : Bool :=
  (s.obj oi).places.all fun p => (s.memSt p.st).frzObjs.contains oi &&
    !((s.memSt p.st).reqs.any fun r => isWrite r.kind && handleIdx r.handle.toNat == oi)

def offerBody (s : State) (h : Handoff) : Bytes := le 1 (s.obj h.obj).cls ++ zeros 3 ++ le 4 h.tiles ++ zeros 4

/-- The keep reads the next tile of an offered region, under the partition's tag. -/
def askTile (h : Handoff) (s : State) : State :=
  match tileReq s h.part h.obj h.sent false with
  | none => s
  | some (m, r) =>
    let r := { r with origin := Config.keepId, tag := h.num % 1024 }
    setHandoff { h with asked := true, got := none } (emit (.dreq Config.keepId 0 r.tag (le 1 m ++ packReq r) []) s)

/-- The bulk tile that carries a tile read (08 R273). -/
def copyTile (h : Handoff) (data : Bytes) (s : State) : LReq :=
  bulkTile s h.obj data { part := h.part, epoch := s.epoch, dst := h.peer, handle := BitVec.ofNat 32 h.landing, off := 8192 * h.sent,
                          tag := h.counter, fence := 0xFFFF }

/-- The next move of an offer, if it has one. -/
def settleHandoff (h : Handoff) (s : State) : State :=
  if !h.offerer then if h.state = 4 then discard h s else s
  else if h.state = 0 then
    if freezeDone s h.obj then sendHandoff h 0x20 (offerBody s h) (setHandoff { h with state := 1, lastAt := s.now } s) else s
  else if h.state ≠ 2 then s
  else if h.sent < h.tiles then
    match h.got with
    | none => if h.asked then s else askTile h s
    | some (0, d) =>
      keepSend h.part h.peer [copyTile h d s] (setHandoff { h with sent := h.sent + 1, asked := false, got := none } s)
    | some (c, _) => reclaim h c s
  else if h.sent = h.tiles then
    let f : LReq := { kind := 6, wire := 6, part := h.part, epoch := s.epoch, engine := 4097, slot := 0, tag := h.num, dst := h.peer, fence := 0xFFFF }
    keepSend h.part h.peer [f] (setHandoff { h with sent := h.tiles + 1, got := none } s)
  else match h.got with
  | some (0, _) => sendHandoff h 0x22 (le 4 h.tiles) (setHandoff { h with state := 3, retries := 0, lastAt := s.now } s)
  | some (c, _) => reclaim h c s
  | none => s

/-- The class, ownership and state a region must have to be offered (08 R268), as a code. -/
def offerBad (s : State) (oi dev : Nat) : Nat :=
  let o := s.obj oi
  let d := s.dom o.part
  if (o.cls ≠ 2 ∧ o.cls ≠ 3) ∨ d.state ≠ 4 ∨ dev = d.own ∨ !(memberOf d dev).live ∨ o.landing ∨
      (s.handoffs.any fun h => h.offerer && h.obj == oi && h.state ≤ 4) then yeDenied
  else if (s.key o.keySlot).state = 6 then yeKey
  else if 256 ≤ (s.handoffs.filter fun h => h.offerer).length then yeQuota
  else 0

/-- Starts an offer, or waits while the region is re-keyed (08 R268, R271). -/
def beginOffer (t : Taken) (s : State) : State :=
  let oi := handleIdx (opnd t.e 0 4)
  let dev := opnd t.e 4 3
  if (s.obj oi).rekey.isSome then keepRunning t 0 s
  else if offerBad s oi dev ≠ 0 then failCmd t (offerBad s oi dev) s
  else
    let num := s.nextHandoff.toNat
    let h : Handoff := { offerer := true, peer := dev, num := num, part := (s.obj oi).part, obj := oi, tiles := (s.obj oi).tiles, lastAt := s.now }
    keepRunning t (num + 1) (issue 1 oi ({ s with handoffs := s.handoffs ++ [h], nextHandoff := s.nextHandoff + 1 }.onObj oi fun o =>
      { o with frozen := true, refs := o.refs + 1 }))

/-- HANDOFF_OFFER. -/
def bodyHandoffOffer : Body := fun t _ _ s =>
  let oi := handleIdx (opnd t.e 0 4)
  if offerBad s oi (opnd t.e 4 3) ≠ 0 then failCmd t (offerBad s oi (opnd t.e 4 3)) s else beginOffer t s

def execHandoffOffer (q : Nat) (e : BitVec 1024) (rc : BitVec 16) (inp : List (BitVec 8)) (s : State) : Res :=
  .next (takeCmd 0x0820 bodyHandoffOffer q e rc inp s)

/-- HANDOFF_LANDING (08 R269). -/
def bodyHandoffLanding : Body := fun t _ _ s =>
  let oi := handleIdx (opnd t.e 0 4)
  let o := s.obj oi
  if (o.cls ≠ 2 ∧ o.cls ≠ 3) ∨ (s.dom o.part).state ≠ 4 ∨ o.written then failCmd t yeDenied s
  else if !o.landing ∧ 256 ≤ (s.objs.filter fun x => x.2.landing).length then failCmd t yeQuota s
  else done t [] (s.onObj oi fun o => { o with landing := true })

def execHandoffLanding (q : Nat) (e : BitVec 1024) (rc : BitVec 16) (inp : List (BitVec 8)) (s : State) : Res :=
  .next (takeCmd 0x0821 bodyHandoffLanding q e rc inp s)

/-- Ends a handoff from either side. -/
def abandonHandoff (cause : Nat) (h : Handoff) (s : State) : State :=
  if h.offerer then (match findHandoff (reclaim h cause s) true h.part h.peer h.num with
    | some h' => dropHandoff h' (reclaim h cause s)
    | none => reclaim h cause s)
  else discard h s

/-- HANDOFF_ABANDON (08 R277): the final state, numbered as Tables 8.7 and 8.8 list them. -/
def bodyHandoffAbandon : Body := fun t _ _ s =>
  let dev := opnd t.e 0 3
  let num := opnd t.e 4 4
  match s.handoffs.find? fun h => h.num == num && (if h.offerer then (s.dom h.part).own == dev else h.peer == dev) with
  | none => failCmd t yeDenied s
  | some h => done t (le 1 (if !h.offerer then 4 else if h.state = 4 then 4 else 5)) (abandonHandoff yeHandoff h s)

def execHandoffAbandon (q : Nat) (e : BitVec 1024) (rc : BitVec 16) (inp : List (BitVec 8)) (s : State) : Res :=
  .next (takeCmd 0x0822 bodyHandoffAbandon q e rc inp s)

/-! ### Messages -/

/-- A lost member ends the offers made to it (08 R275). -/
def handoffsLost (part dev : Nat) (s : State) : State :=
  each (s.handoffs.filter fun h => h.offerer && h.part == part && h.peer == dev && h.state < 4) (fun h s => reclaim h yeLost s) s

def acceptBody (s : State) (h : Handoff) : Bytes := le 4 ((s.obj h.landing).gen * 2 ^ 20 + h.landing) ++ le 2 h.counter ++ zeros 6

/-- HANDOFF_OFFER_MESSAGE (08 R272). -/
def offerArrives (part src : Nat) (b : Bytes) (s : State) : State :=
  let num := ofLe (cut 0 4 b)
  let cls := ofLe (cut 4 1 b)
  let n := ofLe (cut 8 4 b)
  if (s.dom part).state ≠ 4 then s else
  match findHandoff s false part src num with
  | some h => if h.state = 4 then s else sendHandoff h 0x21 (acceptBody s h) (setHandoff { h with lastAt := s.now } s)
  | none =>
    let fits := (s.objs.filter fun o => o.2.landing && o.2.accepted.isNone && o.2.state == 1 && o.2.part == part && o.2.cls == cls &&
      decide (n ≤ o.2.tiles)).map fun o => o.2.gen * 2 ^ 20 + o.1
    let best := fits.foldl (fun a h => if a = 0 ∨ h < a then h else a) 0
    match lowFree s.arrivals 0 1024 with
    | some c =>
      if best = 0 then sendMail part src 0x25 (le 4 num ++ le 2 yeQuota ++ zeros 2) s
      else
        let h : Handoff := { peer := src, num := num, part := part, state := 1, landing := handleIdx best, counter := c, tiles := n, lastAt := s.now }
        let a : Arrival := { state := 1, part := part, ctx := 65535, handle := BitVec.ofNat 32 best, total := n }
        let s := { s with handoffs := s.handoffs ++ [h], arrivals := tset s.arrivals c a }
        let s := s.onObj (handleIdx best) fun o => { o with accepted := some (src, num), refs := o.refs + 2 }
        sendHandoff h 0x21 (acceptBody s h) s
    | none => sendMail part src 0x25 (le 4 num ++ le 2 yeQuota ++ zeros 2) s

def execHandoffOfferMessage (part : Nat) (hdr : BitVec 128) (body : List (BitVec 8)) (s : State) : Res :=
  .next (withMail 0x20 part hdr body (offerArrives part) s)

/-- HANDOFF_ACCEPT (08 R273): the copy begins. -/
def acceptArrives (part src : Nat) (b : Bytes) (s : State) : State :=
  match findHandoff s true part src (ofLe (cut 0 4 b)) with
  | some h =>
    if h.state ≠ 1 then s
    else
      let h := { h with state := 2, landing := ofLe (cut 4 4 b), counter := ofLe (cut 8 2 b), retries := 0, lastAt := s.now }
      settleHandoff h (setHandoff h s)
  | none => s

def execHandoffAccept (part : Nat) (hdr : BitVec 128) (body : List (BitVec 8)) (s : State) : Res :=
  .next (withMail 0x21 part hdr body (acceptArrives part) s)

/-- HANDOFF_COMMIT (08 R273). -/
def commitArrives (part src : Nat) (b : Bytes) (s : State) : State :=
  match findHandoff s false part src (ofLe (cut 0 4 b)) with
  | none => s
  | some h =>
    let a := tget {} s.arrivals h.counter
    let n := ofLe (cut 4 4 b)
    if h.state = 4 then s
    else if h.state = 2 then sendHandoff h 0x23 (le 1 2 ++ zeros 3) (setHandoff { h with lastAt := s.now } s)
    else if a.landed = n ∧ a.failed = 0 then
      sendHandoff h 0x23 (le 1 1 ++ zeros 3) (closeLanding h (setHandoff { h with state := 2, lastAt := s.now } s))
    else discard h (sendHandoff h 0x25 (le 2 a.err ++ zeros 2) s)

def execHandoffCommit (part : Nat) (hdr : BitVec 128) (body : List (BitVec 8)) (s : State) : Res :=
  .next (withMail 0x22 part hdr body (commitArrives part) s)

/-- HANDOFF_ACK (08 R274): the first acknowledgement releases the region. -/
def ackArrives (part src : Nat) (b : Bytes) (s : State) : State :=
  match findHandoff s true part src (ofLe (cut 0 4 b)) with
  | some h =>
    if h.state ≠ 3 then s
    else
      let s := (setHandoff { h with state := 4 } s).onObj h.obj fun o => { o with refs := o.refs - 1 }
      sendHandoff h 0x24 (zeros 4) (doomObject h.obj s)
  | none => s

def execHandoffAck (part : Nat) (hdr : BitVec 128) (body : List (BitVec 8)) (s : State) : Res :=
  .next (withMail 0x23 part hdr body (ackArrives part) s)

/-- HANDOFF_RELEASED (08 R274). -/
def releasedArrives (part src : Nat) (b : Bytes) (s : State) : State :=
  match findHandoff s false part src (ofLe (cut 0 4 b)) with
  | some h => if h.state = 2 then landOwn h s else s
  | none => s

def execHandoffReleased (part : Nat) (hdr : BitVec 128) (body : List (BitVec 8)) (s : State) : Res :=
  .next (withMail 0x24 part hdr body (releasedArrives part) s)

/-- HANDOFF_REFUSE (08 R275). -/
def refuseArrives (part src : Nat) (b : Bytes) (s : State) : State :=
  match findHandoff s true part src (ofLe (cut 0 4 b)) with
  | some h => reclaim h (ofLe (cut 4 2 b)) s
  | none => s

def execHandoffRefuse (part : Nat) (hdr : BitVec 128) (body : List (BitVec 8)) (s : State) : Res :=
  .next (withMail 0x25 part hdr body (refuseArrives part) s)

/-- What the offerer says of a handoff (08 R276). -/
def offererState (s : State) (part src num : Nat) : Nat :=
  match findHandoff s true part src num with
  | none => 4
  | some h => if h.state < 4 then 1 else if h.state = 4 then 2 else if (s.obj h.obj).state = 1 ∧ (s.obj h.obj).part = part then 3 else 4

/-- HANDOFF_QUERY (08 R276). -/
def queryArrives (part src : Nat) (b : Bytes) (s : State) : State :=
  let num := ofLe (cut 0 4 b)
  sendMail part src 0x27 (le 4 num ++ le 1 (offererState s part src num) ++ zeros 3) s

def execHandoffQuery (part : Nat) (hdr : BitVec 128) (body : List (BitVec 8)) (s : State) : Res :=
  .next (withMail 0x26 part hdr body (queryArrives part) s)

/-- HANDOFF_STATE (08 R276). -/
def stateArrives (part src : Nat) (b : Bytes) (s : State) : State :=
  match findHandoff s false part src (ofLe (cut 0 4 b)) with
  | none => s
  | some h =>
    match ofLe (cut 4 1 b) with
    | 1 => setHandoff { h with lastAt := s.now } s
    | 2 => if h.state = 2 then landOwn h s else s
    | 3 => discard h s
    | 4 => if h.state = 2 then landOwn h s else discard h s
    | _ => s

def execHandoffState (part : Nat) (hdr : BitVec 128) (body : List (BitVec 8)) (s : State) : Res :=
  .next (withMail 0x27 part hdr body (stateArrives part) s)

/-- HANDOFF_CLOSE (08 R277). -/
def closeArrives (part src : Nat) (b : Bytes) (s : State) : State :=
  match findHandoff s true part src (ofLe (cut 0 4 b)) with
  | some h => if 4 ≤ h.state then dropHandoff h s else s
  | none => s

def execHandoffClose (part : Nat) (hdr : BitVec 128) (body : List (BitVec 8)) (s : State) : Res :=
  .next (withMail 0x28 part hdr body (closeArrives part) s)

/-- HANDOFF_RETRANSMIT (08 R275): each 1 ms, eight times, then the region is reclaimed. -/
def retransmit (num : Nat) (s : State) : State :=
  match s.handoffs.find? fun h => h.offerer && h.num == num && (h.state == 1 || h.state == 3) with
  | none => s
  | some h =>
    if s.keepStopped ∨ s.now < h.lastAt + Config.ms 1 then s
    else if 8 ≤ h.retries then reclaim h yeTimeout s
    else
      let s := setHandoff { h with retries := h.retries + 1, lastAt := s.now } s
      if h.state = 1 then sendHandoff h 0x20 (offerBody s h) s else sendHandoff h 0x22 (le 4 h.tiles) s

def execHandoffRetransmit (num : BitVec 32) (s : State) : Res := .next (retransmit num.toNat s)

/-- HANDOFF_QUERY_TIMER (08 R276). -/
def queryTimer (dev num : Nat) (s : State) : State :=
  match s.handoffs.find? fun h => !h.offerer && h.peer == dev && h.num == num with
  | none => s
  | some h => if h.state = 4 ∨ s.now < h.lastAt + Config.ms 10 then s else sendHandoff h 0x26 (zeros 4) (setHandoff { h with lastAt := s.now } s)

def execHandoffQueryTimer (dev : Nat) (num : BitVec 32) (s : State) : Res := .next (queryTimer dev num.toNat s)

/-- Offers that waited for a re-key start, and offers whose region's key is destroyed complete. -/
def settleOffers (s : State) : State :=
  let s := each (runningWith s 0x0820 0) (fun t s => if (s.obj (handleIdx (opnd t.e 0 4))).rekey.isSome then s else beginOffer t s) s
  let s := each s.handoffs settleHandoff s
  each (s.taken.filter fun t => t.phase == 2 && envOpcode t.e == 0x0820 && t.aux != 0) (fun t s =>
    let h := opnd t.e 0 4
    if (s.obj (handleIdx h)).gen = handleGen h ∧ (s.obj (handleIdx h)).state ≠ 4 then s else done t (le 4 (t.aux - 1)) s) s

end Sys2Proof.Machine
end

