-- ==== Sys2Proof/Machine/Rotation.lean ====
section
/-! DEFINITION. The tree of a domain, what ends a membership, and job-key rotation (07 R235, R237, R248, R249). -/

namespace Sys2Proof.Machine
open Sys2Proof Sys2Proof.Crypto

/-! ### The tree (07 R235) -/

def isAnchor (d : Dom) : Bool := d.own == d.anchor
def treeParent (dev : Nat) : Nat := (dev - 1) / 64
def treeKids (n dev : Nat) : List Nat := ((List.range 64).map (64 * dev + 1 + ·)).filter fun k => decide (k < n)
/-- The live members of the domain, this one included, as counted (07 R238, R253). -/
def liveCount (d : Dom) : Nat := d.count
/-- Children, and orphans whose adoption is not complete (07 R245). -/
def downTree (d : Dom) : List Nat := d.kids ++ (d.exchs.filter fun x => x.parent && x.inband).map (·.peer)
/-- Tree neighbours that exchange beats (07 R242). -/
def neighbours (d : Dom) : List Nat := (if isAnchor d then [] else [d.parent]) ++ d.kids

/-! ### Slots -/

/-- The key of a domain slot that a parent hands on: the pending half while the first key is not committed. -/
def domKey (s : State) (slot : Nat) : BitVec 256 × Nat :=
  let k := s.key slot
  if k.first then (k.pend, k.gen + 1) else (k.cur, k.gen)
def onJobs (part : Nat) (f : Job → Job) (s : State) : State := each Config.linkIds (fun st s => onJob s st part f) s

/-- The job table entries of a Member (05 Table 5.1, 07 R237). -/
def bindJob (part : Nat) (s : State) : State :=
  let d := s.dom part
  onJobs part (fun j => { state := 1, domain := d.domain, own := d.own, keyIndex := d.keyIndex, slot := d.jobSlot,
                          gen := (s.key d.jobSlot).gen % 2 ^ 16, mark := d.mark, flush := j.flush }) s

/-- Ends an exchange and its pairwise key. -/
def endExch (part : Nat) (x : Exch) (s : State) : State :=
  let s := match x.pairSlot with
    | some i => retireSlot i (Config.ms 2) s
    | none => s
  s.onDom part fun d => { d with exchs := d.exchs.filter fun y => !(y.num == x.num && y.peer == x.peer && y.parent == x.parent) }

/-- Leaving or Detached: the job retires with every key of the domain (07 R237, 06 R206). -/
def endMembership (part state : Nat) (s : State) : State :=
  let d := s.dom part
  let s := onJobs part (fun j => if j.state = 1 then { j with state := 2, armed := none } else j) s
  let s := each ([d.jobSlot, d.ckptSlot] ++ d.pairs.map (·.2)) (fun i s => retireSlot i (Config.ms 2) s) s
  let s := each d.exchs (fun x s => endExch part x s) s
  s.onDom part fun d => { d with state := state, kids := [], pairs := [], rot := none, rotRetry := none, rotAgain := 0, rotConf := [],
                                 askRot := none, askMark := false, askCommit := false, formAt := none, owed := [], rejoinBy := [], beatRx := [] }

/-- Unjoined, once the keys are destroyed. -/
def unjoin (part : Nat) (s : State) : State :=
  let d := s.dom part
  if !(d.state == 5 || d.state == 6) || (s.key d.jobSlot).state == 6 || (s.key d.ckptSlot).state == 6 then s
  else
    let s := each Config.linkIds (fun st s => s.onLink st fun l => { l with
      jobs := tupd {} l.jobs part fun j => { flush := j.flush }, ctxs := l.ctxs.filter fun c => c.part != part,
      lost := l.lost.filter fun x => x.1 != part }) (each Config.linkIds (fun st s => dropHeld st 17 (fun h => h.part == part) s) s)
    let s := { s with backing := s.backing.filter fun c => c.part != part }
    let s := s.onDom part fun d => { attach := d.attach, portMap := d.portMap, msgNum := d.msgNum }
    each (runningWith s 0x0713 (part + 1)) (fun t s => done t [] s) s

/-- LEAVE goes to the anchor, the parent and the children (07 R253). -/
def sendLeave (part : Nat) (s : State) : State :=
  let d := s.dom part
  let dst := ((if isAnchor d then [] else [d.anchor, d.parent]) ++ d.kids).eraseDups
  mailAll part dst 0x1D [] s

/-! ### Rotation (07 R248) -/

/-- A slot takes a replacement only when Active; the checkpoint slot first lets its old half go (06 Table 6.5), once every
station has confirmed the swap that made it the old one (06 R201). -/
def slotReady (s : State) (slot : Nat) : Bool := (s.key slot).state == 1
def rotReady (s : State) (d : Dom) (sel : Nat) : Bool :=
  (!selJob sel || slotReady s d.jobSlot) && (!selCkpt sel || slotReady s d.ckptSlot) && canDraw s 0
def freeCkpt (d : Dom) (sel : Nat) (s : State) : State :=
  let k := s.key d.ckptSlot
  if selCkpt sel ∧ k.state = 5 ∧ k.purging = 0 ∧ k.waitSwap.isEmpty then startPurge d.ckptSlot 2 s else s

def armSlot (slot : Nat) (k : BitVec 256) (s : State) : State := s.onKey slot fun x => { writeNext k x with state := 3 }

/-- Both keys verified in the pending halves: the slots are Confirming and the stations hold the armed generation. -/
def armKeys (part sel : Nat) (job ckpt : BitVec 256) (s : State) : State :=
  let d := s.dom part
  let s := if selCkpt sel then armSlot d.ckptSlot ckpt s else s
  if selJob sel then onJobs part (fun j => { j with armed := some (((s.key d.jobSlot).gen + 1) % 2 ^ 16) }) (armSlot d.jobSlot job s) else s

/-- The keys of a rotation, wrapped for one child; each wrap is an invocation of the pairwise key (06 R211). -/
def sendPrepare (part dev : Nat) (s : State) : State :=
  let d := s.dom part
  match d.rot, tfind d.pairs dev with
  | some (g, sel), some i =>
    let count (on : Bool) (s : State) : State := if on then countInv i s else s
    let w (on : Bool) (slot : Nat) : Bytes := if on then kwWrap (s.key i).cur (keyBytes (s.key slot).pend) else zeros 40
    sendMail part dev 0x16 (le 4 g ++ le 1 sel ++ zeros 3 ++ w (selJob sel) d.jobSlot ++ w (selCkpt sel) d.ckptSlot)
      (count (selCkpt sel) (count (selJob sel) s))
  | _, _ => s

def prepareAll (part : Nat) (s : State) : State := each (downTree (s.dom part)) (fun d s => sendPrepare part d s) s

/-- DOMAIN_ROTATE commands that the present rotation serves. -/
def rotateCmds (s : State) (part : Nat) : List Taken :=
  (runningWith s 0x0715 (part + 1)).filter fun t => decide (t.startAt ≤ (s.dom part).rotAt)

/-- Commits the armed keys of a member (06 R201). -/
def commitRotation (part : Nat) (s : State) : State :=
  let d := s.dom part
  match d.rot with
  | none => s
  | some (g, sel) =>
    let v := rotateCmds s part
    let s := if selJob sel then commitSwap d.jobSlot s else s
    let s := if selCkpt sel then commitSwap d.ckptSlot s else s
    let s := s.onDom part fun d => { d with rot := none, rotConf := [], rotSent := false, askCommit := false, mark := if selJob sel then 0 else d.mark }
    each v (fun t s => done t (le 4 g) s) s

/-- Zeroes the pending halves (07 R248, 06 R200). -/
def abortRotation (part : Nat) (s : State) : State :=
  let d := s.dom part
  match d.rot with
  | none => s
  | some (_, sel) =>
    let clear (k : KeySlot) : KeySlot := if k.state = 3 ∧ !k.first then { k with state := 1, pend := 0, pendIs := 0 } else k
    let s := if selJob sel then s.onKey d.jobSlot clear else s
    let s := if selCkpt sel then s.onKey d.ckptSlot clear else s
    let s := onJobs part (fun j => { j with armed := none }) s
    let s := each Config.linkIds (fun st s => dropHeld st 8 (fun h => h.phase == 3 && h.part == part) s) s
    s.onDom part fun d => { d with rot := none, rotConf := [], rotSent := false, askCommit := false }

/-- The anchor's abort; a fresh rotation follows after `delay` ticks. -/
def anchorAbort (part delay : Nat) (s : State) : State :=
  let d := s.dom part
  match d.rot with
  | none => s
  | some (g, sel) =>
    let v := rotateCmds s part
    let s := mailAll part (downTree d) 0x19 (le 4 g ++ zeros 4) s
    let s := (abortRotation part s).onDom part fun d => { d with rotRetry := some (s.now + delay, sel) }
    each v (fun t s => failCmd t yeTimeout s) s

/-- Every child has confirmed: the anchor commits, a member confirms to its parent. -/
def confirmUp (part : Nat) (s : State) : State :=
  let d := s.dom part
  match d.rot with
  | none => s
  | some (g, sel) =>
    if (downTree d).any fun k => (tfind d.rotConf k).isNone then s
    else if isAnchor d then commitRotation part (mailAll part (downTree d) 0x18 (le 4 g ++ zeros 4) s)
    else if d.rotSent then s
    else
      let n := (d.rotConf.map (·.2)).sum + 1
      let v (on : Bool) (slot : Nat) : Bytes := if on then kcv (s.key slot).pend else zeros 8
      sendMail part d.parent 0x17 (le 4 g ++ le 3 n ++ [0] ++ v (selJob sel) d.jobSlot ++ v (selCkpt sel) d.ckptSlot)
        (s.onDom part fun d => { d with rotSent := true })

/-- The anchor starts a rotation of the selected keys, or queues it: `late` says that its cause arose after the PREPARE
of the rotation in progress had left.  Keys that fail their verification start none (06 R199). -/
def startRotation (part sel : Nat) (late : Bool) (s : State) : State :=
  let d := s.dom part
  let sel := if sel % 4 = 0 then 3 else sel % 4
  let queue := s.onDom part fun d => { d with rotAgain := d.rotAgain ||| sel }
  if d.state ≠ 4 ∨ !isAnchor d then s
  else match d.rot with
  | some (_, cur) => if late ∨ cur &&& sel ≠ sel then queue else s
  | none =>
    match d.rotRetry with
    | some (at_, old) => s.onDom part fun d => { d with rotRetry := some (at_, old ||| sel) }
    | none =>
      if !rotReady s d sel then freeCkpt d sel queue
      else if s.keep.verifyBad then
        each ((runningWith s 0x0715 (part + 1))) (fun t s => failCmd t yePoison s) (keyFails (s.onDom part fun d => { d with rotAgain := 0 }))
      else
        let (a, s) := if selJob sel then draw0 s else (0, s)
        let (b, s) := if selCkpt sel then draw0 s else (0, s)
        let g := (s.key (if selJob sel then d.jobSlot else d.ckptSlot)).gen + 1
        let s := armKeys part sel a b (s.onDom part fun d => { d with rot := some (g, sel), rotAt := s.now, rotConf := [], rotAgain := 0 })
        confirmUp part (prepareAll part s)

/-- A rotation that waits for its slots starts as soon as they are Active. -/
def retryRotation (part : Nat) (s : State) : State :=
  let d := s.dom part
  if d.rotAgain ≠ 0 ∧ d.rot.isNone ∧ d.rotRetry.isNone ∧ (rotReady s d d.rotAgain ∨ (s.key d.ckptSlot).state = 5)
  then startRotation part d.rotAgain false s else s

/-- ROTATION_RETRY: 10 ms after an abort the anchor starts again with fresh keys. -/
def rotationRetry (part : Nat) (s : State) : State :=
  match (s.dom part).rotRetry with
  | some (at_, sel) => if s.now < at_ then s else startRotation part sel false (s.onDom part fun d => { d with rotRetry := none })
  | none => s

def execRotationRetry (part : Nat) (s : State) : Res := .next (rotationRetry part s)

/-- Raises the domain stream mark at this part (05 R152). -/
def applyMark (part m : Nat) (s : State) : State :=
  onJobs part (raiseMark m) (s.onDom part fun d => { d with mark := max d.mark m })

/-- The anchor raises the mark and tells every member. -/
def anchorMark (part : Nat) (s : State) : State :=
  let d := s.dom part
  let m := min 0x3FFF (d.mark + 1)
  applyMark part m (mailAll part (downTree d) 0x14 (le 2 m ++ zeros 2) s)

end Sys2Proof.Machine
end

