-- ==== Sys2Proof/Machine/Admission.lean ====
section
/-! DEFINITION. Admission to a domain: offers, replies, grants, confirmations, the formation commit, and adoption by the
same exchange without key transfer (07 R230 to R240, R243, R245). -/

namespace Sys2Proof.Machine
open Sys2Proof Sys2Proof.Crypto

def findExch (d : Dom) (num peer : Nat) (parent : Bool) : Option Exch :=
  d.exchs.find? fun x => x.num == num && x.peer == peer && x.parent == parent
def putExch (part : Nat) (x : Exch) (s : State) : State :=
  s.onDom part fun d => { d with exchs := d.exchs.filter (fun y => !(y.num == x.num && y.peer == x.peer && y.parent == x.parent)) ++ [x] }

/-- A record goes out in-band as an ADOPT message, or to the outbound ring. -/
def sendRec (part peer : Nat) (inband : Bool) (rec_ : Bytes) (s : State) : State :=
  if inband then sendMail part peer 0x1A rec_ s else outDom part rec_ s

/-- Offers a device admission, or adoption; an offer waits for its random bits (06 R188).  While a domain forms, the formation
timeout counts from the last offer (07 R238). -/
def offerTo (part dev : Nat) (inband : Bool) (s : State) : State :=
  let d := s.dom part
  if d.exchs.any (fun x => x.parent && x.peer == dev) then s
  else if !canDraw s 0 || !canDraw s 1 then
    s.onDom part fun d => { d with owed := without d.owed (dev, inband) ++ [(dev, inband)] }
  else
    let (x, s) := makeOffer 1 d.domain d.own dev s.aon.ueid d.digest inband s
    let s := s.onDom part fun d => { d with owed := without d.owed (dev, inband), formAt := d.formAt.map fun _ => s.now }
    sendRec part dev inband x.a1 (putExch part x s)

/-- Offers that waited leave once both instances serve. -/
def payOwed (part : Nat) (s : State) : State :=
  if canDraw s 0 && canDraw s 1 then each (s.dom part).owed (fun x s => offerTo part x.1 x.2 s) s else s

/-- A child goes back to Prepared; its unfinished slots retire. -/
def backToPrepared (part : Nat) (s : State) : State :=
  let d := s.dom part
  let s := if d.state = 3 then retireSlot d.ckptSlot (Config.ms 2) (retireSlot d.jobSlot (Config.ms 2) s) else s
  let s := each (d.exchs.filter fun x => x.parent) (fun x s => endExch part x s) s
  s.onDom part fun d => { d with state := 1, confirmSent := false, kids := [], confirmed := [], pairs := [], owed := [] }

/-- The members of the subtree that have confirmed, this one included. -/
def subtree (d : Dom) : Nat := (d.confirmed.map (·.2)).sum + 1

/-- ADMIT_CONFIRM to the parent (07 R234). -/
def sendConfirm (part : Nat) (s : State) : State :=
  let d := s.dom part
  match d.exchs.find? fun x => !x.parent && x.phase == 2 with
  | none => s
  | some x =>
    let body := kcv (domKey s d.jobSlot).1 ++ kcv (domKey s d.ckptSlot).1 ++ le 3 (if x.inband then 1 else subtree d) ++ [0]
    let a4 := macRecord 4 d.domain d.own x.peer x.num x.kcc (x.a1 ++ x.a2 ++ x.a3) body
    let s := (putExch part { x with phase := 3, lastAt := s.now } s).onDom part fun d => { d with confirmSent := d.confirmSent || !x.inband }
    sendRec part x.peer x.inband a4 s

/-- FORM_COMMIT to each confirmed child; the confirmation keys have done their work. -/
def sendFormCommit (part gen count : Nat) (s : State) : State :=
  let d := s.dom part
  let v := d.exchs.filter fun x => x.parent && !x.inband && x.phase == 3
  each v (fun x s =>
    let m := recHdr 5 d.domain d.own x.peer x.num 24 ++ le 4 gen ++ le 3 count ++ [0]
    endExch part { x with pairSlot := none } (outDom part (m ++ cmac x.kcp m) s)) s

/-- A member's slots commit and its job is Bound (07 R237, R239). -/
def becomeMember (part : Nat) (s : State) : State :=
  let d := s.dom part
  let s := commitFirst d.ckptSlot (commitFirst d.jobSlot s)
  let s := s.onDom part fun d => { d with state := 4, kids := d.confirmed.map (·.1), rejoin := false, formAt := none }
  let s := if d.state = 4 then s else bindJob part s
  let s := s.onDom part fun d => { d with beatRx := (neighbours d).map (fun n => (n, s.now)) |>.foldl (fun t x => tset t x.1 x.2) [], beatTx := s.now }
  raiseEvent 0 d.domain 0x03 0 part s

/-- Children of the tree that formation has left out, with all that stand below them, are outside the domain; they may join later
by rejoin (07 R238, R243). -/
def offerMissing (part : Nat) (s : State) : State :=
  let d := s.dom part
  let v := (treeKids d.n d.own).filter fun k => (tfind d.confirmed k).isNone
  let s := s.onDom part fun d => { d with outside := v }
  each v (fun k s => offerTo part k false s) s

/-- An exchange ends with this side's refusal: the record and the event (07 R234). -/
def sendRefuse (part : Nat) (x : Exch) (reason : Nat) (s : State) : State :=
  let d := s.dom part
  let s := if x.inband then s else outDom part (record 6 d.domain d.own x.peer x.num [BitVec.ofNat 8 reason, 0, 0, 0]) s
  endExch part x (refusalEvent part x.num reason s)

/-- The anchor's formation ends; an exchange that has not is refused for its time (07 R234, R238). -/
def formCommit (part : Nat) (s : State) : State :=
  let d := s.dom part
  let s := each (d.exchs.filter fun x => x.parent && x.phase != 3) (fun x s => sendRefuse part x 0x0B s) s
  let s := sendFormCommit part (s.key d.jobSlot).gen (subtree d) s
  offerMissing part (becomeMember part (s.onDom part fun d => { d with owed := [], count := subtree d }))

/-- Every expected child has confirmed or been refused: the anchor commits, a Confirmed child confirms. -/
def afterKids (part : Nat) (s : State) : State :=
  let d := s.dom part
  if (d.exchs.any fun x => x.parent && !x.inband && decide (x.phase < 3)) || d.owed.any (fun x => !x.2) then s
  else if d.state = 4 ∧ d.formAt.isSome then formCommit part s
  else if d.state = 3 ∧ !d.confirmSent then sendConfirm part s
  else s

/-- This side refuses an exchange: the record, the event, and the end of every key of the exchange (07 R234). -/
def refuseExch (part : Nat) (x : Exch) (reason : Nat) (s : State) : State :=
  let s := messageFail part (sendRefuse part x reason s)
  if x.inband then s
  else if x.parent then afterKids part (s.onDom part fun d => { d with confirmed := tdel d.confirmed x.peer })
  else backToPrepared part s

/-- The first record of a partition's inbox, when it is of the row's type: from a command that still waits, or from an
ADOPT message. It stays while random bits are wanting. -/
def withRecord (type part : Nat) (k : Bool → Rec → State → State) (s : State) : State :=
  match (s.dom part).inbox with
  | (flag :: raw) :: rest =>
    if flag = 2 then s else
    match recOf raw with
    | some r =>
      let inband := flag == 1
      let pop := s.onDom part fun d => { d with inbox := rest }
      if !inband && (messageOf s part).isNone then pop
      else if r.type ≠ type then s
      else if type ≤ 3 && !(canDraw s 0 && canDraw s 1) then messageWaits part s
      else k inband r pop
    | none => s.onDom part fun d => { d with inbox := rest }
  | _ => s

/-! ### ADMIT_OFFER -/

/-- Why an offer does not fit the preparation, or 0. -/
def offerReason (d : Dom) (inband : Bool) (r : Rec) : Nat :=
  if r.body.length ≠ 1777 then 0x01
  else if r.dom ≠ d.domain ∨ r.rcv ≠ d.own then 0x08
  else if cut 64 48 r.body ≠ d.digest then 0x07
  else if !inband ∧ d.parentUeid ≠ zeros 32 ∧ cut 32 32 r.body ≠ d.parentUeid then 0x09
  else if !offerKeysOk r then 0x0A
  else 0

def takeOffer (part : Nat) (inband : Bool) (r : Rec) (s : State) : State :=
  let d := s.dom part
  let why := offerReason d inband r
  let reply (s : State) : State :=
    let (x, s) := makeReply 2 d.domain r.snd d.own part r inband s
    messageDone part 2 (sendRec part r.snd inband x.a2 (putExch part x s))
  if inband then
    if d.state = 4 ∧ r.snd = d.parent ∧ (tfind d.pairs r.snd).isNone ∧ why = 0 then reply s else s
  else if d.state ≠ 1 then messageFail part s
  else if why ≠ 0 then
    messageFail part (refusalEvent part r.num why (outDom part (record 6 d.domain d.own r.snd r.num [BitVec.ofNat 8 why, 0, 0, 0]) s))
  else reply (s.onDom part fun d => { d with state := 2, parent := r.snd })

def execAdmitOffer (part : Nat) (s : State) : Res := .next (withRecord 1 part (takeOffer part) s)

/-! ### ADMIT_REPLY -/

/-- What a peer's bundle must show in this domain. -/
def expectOf (d : Dom) (nonce : Bytes) (peer : Nat) (ueid : Bytes) : Expect :=
  { nonce := nonce, policy := policyFor d.policy d.digest, dom := some (d.digest, d.domain, peer), ueid := ueid }

/-- The member generation an admission assigns (07 R238, R243). -/
def nextMemberGen (d : Dom) (x : Exch) : Nat :=
  let m := memberOf d x.peer
  if x.inband then m.gen else if d.state = 3 ∨ d.formAt.isSome then 1 else m.gen + 1

/-- The grant: both keys wrapped, except in an adoption (07 Table 7.8); each wrap is an invocation of the pairwise key
(06 R211). -/
def grant (part : Nat) (x : Exch) (kw : BitVec 256) (s : State) : Bytes × State :=
  let d := s.dom part
  let (jk, jg) := domKey s d.jobSlot
  let (ck, cg) := domKey s d.ckptSlot
  let (b, s) := zeler part (sha384 (x.a1 ++ x.a2)) s
  let wrapped := if x.inband then zeros 80 else kwWrap kw (keyBytes jk) ++ kwWrap kw (keyBytes ck)
  let s := if x.inband then s else each (x.pairSlot.toList ++ x.pairSlot.toList) countInv s
  let body := le 2 (nextMemberGen d x) ++ le 2 d.keyIndex ++ le 4 jg ++ le 4 cg ++ le 2 d.mark ++ le 3 d.anchor ++
    le 3 (if isAnchor d then noDev else d.parent) ++ le 3 d.deputy ++ [0] ++ wrapped ++ le 4 b.length ++ b
  (macRecord 3 d.domain d.own x.peer x.num x.kcp (x.a1 ++ x.a2) body, s)

def takeReply (part : Nat) (inband : Bool) (r : Rec) (s : State) : State :=
  let d := s.dom part
  match findExch d r.num r.snd true with
  | none => messageFail part s
  | some x =>
    if x.phase ≠ 1 ∨ x.inband ≠ inband ∨ r.dom ≠ d.domain ∨ r.rcv ≠ d.own then messageFail part s
    else match replyBundle r with
    | none => refuseExch part x 0x01 s
    | some b =>
      let why := verifyBundle s (expectOf d (sha384 x.a1) x.peer []) b
      let s := keepCas b s
      if why ≠ 0 then refuseExch part x why s
      else if !replyKeysOk r then refuseExch part x 0x0A s
      else if 0xFFFF < nextMemberGen d x then refuseExch part x 0x0C s
      else match freeSlot s true with
      | none => refuseExch part x 0x0A s
      | some i =>
        if s.keep.verifyBad then refuseExch part x 0x0A (keyFails s) else
        let x := { parentKeys d.domain d.own x.peer r x with phase := 2, pairSlot := some i, lastAt := s.now }
        let kw := exchKey "yk3 wrap" d.domain d.own x.peer x
        let (a3, s) := grant part x kw (firstKey i 5 0 true kw s)
        messageDone part 3 (sendRec part x.peer inband a3 (putExch part { x with a3 := a3 } s))

def execAdmitReply (part : Nat) (s : State) : Res := .next (withRecord 2 part (takeReply part) s)

/-! ### ADMIT_GRANT -/

/-- A received domain key in the pending half of a fresh slot, verified: the slot is Confirming (07 R234, 06 R200). -/
def pendKey (i cls part gen : Nat) (k : BitVec 256) (s : State) : State :=
  s.onKey i fun x => { writePending cls part false k { x with gen := gen - 1 } with state := 3 }

/-- The fields of the grant that place the child in the tree. -/
def placeChild (part : Nat) (r : Rec) (s : State) : State :=
  s.onDom part fun d => { d with
    keyIndex := ofLe (cut 2 2 r.body) % 2 ^ 14, mark := ofLe (cut 12 2 r.body), anchor := ofLe (cut 14 3 r.body), parent := r.snd,
    grand := ofLe (cut 17 3 r.body), deputy := ofLe (cut 20 3 r.body) }

def takeGrant (part : Nat) (inband : Bool) (r : Rec) (s : State) : State :=
  let d := s.dom part
  match findExch d r.num r.snd false with
  | none => messageFail part s
  | some x =>
    let e := ofLe (cut 104 4 r.body)
    if x.phase ≠ 1 ∨ x.inband ≠ inband ∨ r.dom ≠ d.domain ∨ r.rcv ≠ d.own then messageFail part s
    else if r.body.length ≠ 124 + e then refuseExch part x 0x01 s
    else
      let ueid := if inband ∨ d.parentUeid = zeros 32 then [] else d.parentUeid
      let why := verifyBundle s (expectOf d (sha384 (x.a1 ++ x.a2)) r.snd ueid) (cut 108 e r.body)
      let kw := exchKey "yk3 wrap" d.domain r.snd d.own x
      let s := keepCas (cut 108 e r.body) s
      if why ≠ 0 then refuseExch part x why s
      else if !macOk x.kcp (x.a1 ++ x.a2) r.raw then refuseExch part x 0x0A s
      else if s.keep.verifyBad then refuseExch part x 0x0A (keyFails s)
      else match freeSlot s true with
      | none => refuseExch part x 0x0A s
      | some i =>
        let s := putExch part { x with phase := 2, a3 := r.raw, pairSlot := some i, lastAt := s.now } (firstKey i 5 0 true kw s)
        if inband then
          let s := (placeChild part r s).onDom part fun d => { d with
            pairs := tset d.pairs r.snd i, beatRx := tset d.beatRx r.snd s.now }
          let s := sendConfirm part s
          endExch part { x with pairSlot := none } s
        else
          match kwUnwrap kw (cut 24 40 r.body), kwUnwrap kw (cut 64 40 r.body), freeSlot s false with
          | some jk, some ck, some a =>
            let s := pendKey a 3 part (ofLe (cut 4 4 r.body)) (keyOf jk) s
            match freeSlot s false with
            | none => refuseExch part { x with pairSlot := some i } 0x0A (s.onKey a fun k => { gen := k.gen })
            | some b =>
              let s := pendKey b 4 part (ofLe (cut 8 4 r.body)) (keyOf ck) s
              let s := (placeChild part r s).onDom part fun d => { d with
                state := 3, memberGen := ofLe (cut 0 2 r.body), offerGen := ofLe (cut 4 4 r.body), jobSlot := a, ckptSlot := b,
                pairs := tset d.pairs r.snd i, confirmSent := false, confirmed := [] }
              let kids := if d.rejoin then [] else treeKids d.n d.own
              let s := each kids (fun k s => offerTo part k false s) s
              messageDone part (if kids.isEmpty then 4 else 1) (afterKids part s)
          | _, _, _ => refuseExch part { x with pairSlot := some i } 0x0A s

def execAdmitGrant (part : Nat) (s : State) : Res := .next (withRecord 3 part (takeGrant part) s)

/-! ### ADMIT_CONFIRM -/

/-- The keys a child confirms are this side's own (07 R234 step 5). -/
def confirmOk (s : State) (d : Dom) (r : Rec) : Bool :=
  cut 0 8 r.body == kcv (domKey s d.jobSlot).1 && cut 8 8 r.body == kcv (domKey s d.ckptSlot).1

def takeConfirm (part : Nat) (inband : Bool) (r : Rec) (s : State) : State :=
  let d := s.dom part
  match findExch d r.num r.snd true with
  | none => messageFail part s
  | some x =>
    if x.phase ≠ 2 ∨ x.inband ≠ inband ∨ r.dom ≠ d.domain ∨ r.rcv ≠ d.own then messageFail part s
    else if r.body.length ≠ 36 ∨ !macOk x.kcc (x.a1 ++ x.a2 ++ x.a3) r.raw ∨ !confirmOk s d r then refuseExch part x 0x0A s
    else
      let n := ofLe (cut 16 3 r.body)
      let s := s.onDom part fun d => { d with pairs := match x.pairSlot with
        | some i => tset d.pairs x.peer i
        | none => d.pairs }
      if d.state = 3 ∨ d.formAt.isSome then
        let s := (putExch part { x with phase := 3, lastAt := s.now } s).onDom part fun d => { d with confirmed := tset d.confirmed x.peer n }
        messageDone part 0 (afterKids part s)
      else
        let s := endExch part { x with pairSlot := none } s
        let s := s.onDom part fun d => { d with kids := without d.kids x.peer ++ [x.peer], beatRx := tset d.beatRx x.peer s.now }
        if inband then sendPrepare part x.peer s
        else
          let s := s.onDom part fun d => { d with
            rejoinBy := tdel d.rejoinBy x.peer }
          let s := setMember part x.peer { gen := nextMemberGen d x, live := true } s
          let s := if isAnchor d then syncDeputy part x.peer s else s
          let s := sendMail part x.peer 0x14 (le 2 d.mark ++ zeros 2) s
          let s := if bundleCause (cut (32 + 1701) (x.a2.length - 32 - 1701) x.a2) ≠ 4 then s
            else if isAnchor d then startRotation part 3 true s
            else sendMail part d.anchor 0x15 (le 1 0x04 ++ le 1 3 ++ zeros 2) s
          messageDone part 0 s

def execAdmitConfirm (part : Nat) (s : State) : Res := .next (withRecord 4 part (takeConfirm part) s)

/-! ### FORM_COMMIT -/

def takeFormCommit (part : Nat) (_ : Bool) (r : Rec) (s : State) : State :=
  let d := s.dom part
  match findExch d r.num r.snd false with
  | none => messageFail part s
  | some x =>
    if d.state ≠ 3 ∨ x.phase ≠ 3 ∨ r.body.length ≠ 24 ∨ ofLe (cut 0 4 r.body) ≠ d.offerGen ∨
        r.body.drop 8 ≠ cmac x.kcp (r.raw.take 40) then messageFail part s
    else
      let s := sendFormCommit part d.offerGen (ofLe (cut 4 3 r.body)) s
      let s := becomeMember part ((endExch part { x with pairSlot := none } s).onDom part fun d => { d with count := ofLe (cut 4 3 r.body) })
      let s := messageDone part (if d.confirmed.isEmpty then 0 else 5) s
      if d.rejoin then s else offerMissing part s

def execFormCommit (part : Nat) (s : State) : Res := .next (withRecord 5 part (takeFormCommit part) s)

/-! ### Refusals and timeouts -/

/-- ADMIT_REFUSE arrives: the exchange ends (07 R234). -/
def takeRefuse (part : Nat) (_ : Bool) (r : Rec) (s : State) : State :=
  let d := s.dom part
  match d.exchs.find? fun x => x.num == r.num && x.peer == r.snd && !x.inband with
  | none => messageFail part s
  | some x =>
    if r.dom ≠ d.domain ∨ r.rcv ≠ d.own ∨ r.body.length ≠ 4 then messageFail part s else
    let s := messageDone part 0 (refusalEvent part r.num (ofLe (cut 0 1 r.body)) s)
    let s := endExch part x s
    if x.parent then afterKids part (s.onDom part fun d => { d with confirmed := tdel d.confirmed x.peer }) else backToPrepared part s

/-- The formation timeout has passed for an exchange with a peer, or for the anchor's whole formation (07 R234, R238). -/
def formationTimeout (part peer : Nat) (s : State) : State :=
  let d := s.dom part
  let limit := Config.ms (policyFor d.policy d.digest).formMs
  match d.formAt with
  | some t => if t + limit ≤ s.now then formCommit part s else s
  | none =>
    match d.exchs.find? fun x => x.peer == peer && (if x.parent then decide (x.phase < 3) else x.phase == 1 || x.phase == 3) &&
        decide (x.lastAt + limit ≤ s.now) with
    | none => s
    | some x =>
      let s := refuseExch part x 0x0B s
      if x.parent ∧ d.state = 4 ∧ (x.inband ∨ d.outq.isEmpty) then offerTo part peer x.inband s else s

end Sys2Proof.Machine
end

