-- ==== Sys2Proof/Machine/Flags.lean ====
section
/-! DEFINITION. Status words: what the block's registers read (09 Table 9.2; 10 Tables 10.6 to 10.9b; 12 Table 12.8), and
the unit blocks of counters (13 Table 13.3). -/

namespace Sys2Proof.Machine
open Sys2Proof Sys2Proof.Crypto

def b2n (b : Bool) (at_ : Nat) : Nat := if b then 2 ^ at_ else 0

/-- Block register at 0x0000 (09 Table 9.2). -/
def blockId : BitVec 32 := 0x59330100

/-- Block register at 0x0008 (09 Table 9.2): the life-cycle and debug codes, and what is in force. -/
def blockStatus (s : State) : BitVec 32 :=
  BitVec.ofNat 32 (b2n s.keep.ready 0 + b2n s.keep.adminReady 1 + b2n s.keep.portsOpen 2 + b2n s.flt.blockSafe 3 +
    b2n s.aon.lockdown 4 + lcCode s.aon * 2 ^ 5 + dbgCode s.aon * 2 ^ 9)

/-- A station word (10 Table 10.6); words of unused identifiers read zero. -/
def stationWord (s : State) (u : Nat) : BitVec 32 :=
  if !isUnit u then 0 else
  let w := s.word u
  let safe := isStation u && s.isSafe u
  let held := if u = Config.keepId then s.keepHeld else isStation u && (s.port u).heldClosed
  BitVec.ofNat 32 (w.unack.toNat + w.uncleared.toNat * 2 ^ 8 + b2n held 14 + b2n safe 15 + w.last % 256 * 2 ^ 16)

/-- OR of a bit group over every unit. -/
def anyWord (s : State) (f : FaultWord → BitVec 4) : Nat := (s.flt.words.foldl (fun a w => a ||| f w.2) (0 : BitVec 4)).toNat

/-- BOOST_STATE (10 Table 10.7). -/
def boostState (c : Clk) : Nat := b2n c.boost 0 + b2n c.refused 1 + b2n c.ilimEnded 2 + b2n c.spent 3 + b2n c.stepDown 4

/-- FAULT_SUMMARY (10 Table 10.7). -/
def faultSummary (s : State) : BitVec 64 :=
  BitVec.ofNat 64 (b2n s.faultLow 0 + b2n s.flt.blockSafe 1 + b2n s.keepHeld 2 + anyWord s (·.uncleared) * 2 ^ 8 +
    anyWord s (·.unack) * 2 ^ 12 + boostState s.clk * 2 ^ 16 + s.keep.policy * 2 ^ 32)

/-- The highest reading of a die slice, in 1/16 °C (14 R430). -/
def junction (c : Clk) (d : Nat) : BitVec 16 :=
  let v (i : Nat) : BitVec 16 := tget 0 c.sensors (4 * d + i)
  [1, 2, 3].foldl (fun a i => if a.toInt < (v i).toInt then v i else a) (v 0)

/-- JUNCTION (10 Table 10.5): the highest reading of each die slice. -/
def junctionWord (s : State) : BitVec 64 :=
  BitVec.ofNat 64 ((List.range Config.dies).map fun d => (junction s.clk d).toNat * 2 ^ (16 * d)).sum

/-- A fault log record (10 Table 10.8). -/
def faultRecBytes (r : FaultRec) : Bytes :=
  le 8 r.time ++ le 4 r.seq ++ le 1 r.unit ++ le 1 r.source ++
    le 1 (r.cls + b2n r.escalated 3 + b2n r.threshold 4 + b2n r.lockdown 5) ++ le 1 r.prior ++ le 2 r.count ++ le 2 r.fence ++
    le 4 0 ++ le 8 r.detail.toNat

/-! ### Life cycle (12 Table 12.4, Table 12.8) -/

/-- Entries with a bit burnt, lowest first. -/
def usedEntries (a : Aon) : List (Nat × BitVec 64) := a.progress.filter fun e => e.2 != 0

/-- The entry in progress: STEP1 burnt and STEP4 not.  Entry 15 goes before one that failed for good; a finished
entry 15 ends them all (12 R382). -/
def inProgress (a : Aon) : Option (Nat × BitVec 64) :=
  if lcCode a = 6 then none else ((usedEntries a).filter fun e => e.2.getLsbD 4 && !e.2.getLsbD 7).getLast?

/-- LC_STATUS (12 Table 12.8). -/
def lcStatus (s : State) : BitVec 64 :=
  let a := s.aon
  let e := match inProgress a with
    | some e => e
    | none => (usedEntries a).getLast?.getD (0, 0)
  BitVec.ofNat 64 (lcCode a + dbgCode a * 2 ^ 4 + b2n (inProgress a).isSome 5 + b2n a.testSession 6 + b2n a.makerDone 7 +
    e.1 * 2 ^ 8 + (e.2.extractLsb' 4 4).toNat * 2 ^ 12 + ((usedEntries a).map fun e => 2 ^ e.1).sum * 2 ^ 16 +
    a.tokensUsed.toNat * 2 ^ 32 + min 15 a.tokenFails * 2 ^ 48)

/-- What a TAP instruction's data register reads (12 Table 12.7); none where the state does not allow the instruction. -/
def tapRead (s : State) (code : Nat) : Option Bytes :=
  let lc := lcCode s.aon
  if code = 0x01 then some (le 4 (1 + Config.makerId.toNat * 2 + 0x5933 * 2 ^ 12))
  else if code = 0x02 then some (le 8 (lcStatus s).toNat)
  else if code = 0x08 ∧ (lc = 1 ∨ lc = 5) then s.keep.chipNonce
  else if code = 0x30 ∧ lc = 1 then some (if s.aon.makerDone then [] else Config.certRequest s.ik.mPub s.ik.pPub)
  else none

/-! ### Unit blocks (13 Tables 13.3, 13.9) -/

/-- Fault sources by counter position. -/
def faultPositions (u : Nat) : List Nat :=
  if isMem u then [0x01, 0x02, 0x03, 0x08, 0x09, 0x0A, 0x0B, 0x0C, 0x28]
  else if isLink u then [0x01, 0x03, 0x04, 0x05, 0x06, 0x07, 0x0A, 0x0B, 0x0C, 0x28]
  else if u = Config.hostId then [0x01, 0x0A, 0x0B, 0x0C, 0x20, 0x28]
  else if u = Config.keepId then [0x0A, 0x0B, 0x0C, 0x18, 0x19, 0x1A, 0x1B, 0x1C, 0x1D, 0x1E, 0x1F, 0x21, 0x28]
  else if isNode u then [0x0A, 0x0B, 0x0C, 0x10, 0x11, 0x12, 0x28]
  else []

/-- A word of a unit block. The withheld entries of a memory station are a level (13 Table 13.5 word 18). -/
def unitWord (s : State) (u w : Nat) : Nat :=
  if !isUnit u then 0 else
  let c := tget {} s.ctrs u
  if w = 0 then c.clearTime
  else if w = 1 then c.sticky.toNat
  else if w = 18 ∧ isMem u then (s.memSt u).withheld.length
  else if w < 56 then tget 0 c.words w
  else if w < 60 then 0
  else ((List.range 4).map fun k => ((faultPositions u)[4 * (w - 60) + k]?.map fun src => tget 0 c.faults src).getD 0 * 2 ^ (16 * k)).sum

def unitBlock (s : State) (u : Nat) : Bytes := ((List.range 64).map fun w => le 8 (unitWord s u w)).flatten

end Sys2Proof.Machine
end

