-- ==== Sys2Proof/Machine/Clocks.lean ====
section
/-! DEFINITION. The cipher clock, the junction thresholds, the current limit and the boost budget (01 R20, R21, R31; 10
R345; 14 R430, R432, R434, R435). -/

namespace Sys2Proof.Machine
open Sys2Proof

/-! ### Selection (01 Table 1.4) -/

/-- Background work is queued and the configuration permits boost (03 R90, 14 R435): re-seals, re-keys, exports. -/
def boostWanted (s : State) : Bool :=
  s.keepLive && s.keep.boostOk &&
  (s.mem.any (fun m => !m.2.reseal.isEmpty) || s.objs.any (fun o => o.2.rekey.isSome) || s.migs.any fun m => m.2.source && !m.2.done)

/-- Boost is refused: junction, current limit or budget. -/
def boostBarred (c : Clk) : Bool := c.refused || c.ilim || c.spent

/-- The divider that the highest row whose condition holds selects. -/
def dividerFor (c : Clk) : Nat := if c.stepDown then 6 else if boostBarred c then 5 else if c.asked then 4 else 5

/-- The keep's request follows its work, a request that is refused is counted, and a change of divider is sent to every
die slice. -/
def selectClock (s : State) : State :=
  let want := boostWanted s
  let c := { s.clk with asked := want }
  let s := if want && !s.clk.asked && (boostBarred c || c.stepDown) then bump Config.keepId 10 1 s else s
  let d := dividerFor c
  { s with clk := { c with next := if d = c.divider then none else some d } }

/-- Every die slice takes the divider that was sent.  BOOST_STATE[18] clears as boost starts. -/
def switchClock (s : State) : State :=
  match s.clk.next with
  | none => s
  | some d => { s with clk := { s.clk with divider := d, next := none, boost := d == 4, ilimEnded := s.clk.ilimEnded && d != 4 } }

/-- CIPHER_CLOCK_SWITCH. -/
def execCipherClockSwitch (s : State) : Res := .next (switchClock s)

/-! ### The current limit (14 R432, 10 R345) -/

/-- CURRENT_LIMIT_ASSERT: boost ends on every die slice without waiting for the keep's message. -/
def limitAssert (s : State) : State :=
  if s.clk.ilim then s
  else
    let c := s.clk
    let s := if s.aon.phase = 0 then s else bump Config.keepId 8 1 s
    selectClock { s with clk := { c with ilim := true, ilimEnded := s.aon.phase != 0,
                                         boost := false, divider := if c.boost then 5 else c.divider } }

def execCurrentLimitAssert (s : State) : Res := .next (limitAssert s)

/-- CURRENT_LIMIT_RELEASE. -/
def limitRelease (s : State) : State := if s.clk.ilim then selectClock { s with clk := { s.clk with ilim := false } } else s

def execCurrentLimitRelease (s : State) : Res := .next (limitRelease s)

/-! ### Junction thresholds (14 Table 14.5, 10 Table 10.9a) -/

/-- Degrees in the readings' units. -/
def deg (n : Nat) : Int := 16 * n

def temps (c : Clk) : List Int := (List.range Config.dies).map fun d => (junction c d).toInt

/-- The thresholds act on the readings as they now are; `die` is the slice whose reading is new.
The Fatal of the limit comes before the Degrade of the step-down (10 Table 10.12). -/
def judge (die : Nat) (s : State) : State :=
  let c := s.clk
  let t := (junction c die).toInt
  let all (n : Nat) : Bool := (temps c).all fun x => decide (x ≤ deg n)
  let enter := !c.stepDown && decide (deg 110 < t)
  let limit := !c.hot && decide (deg 120 ≤ t)
  let s := { s with clk := { c with
    refused := if deg 100 < t then true else c.refused && !all 97,
    stepDown := c.stepDown || enter,
    coolSince := if (c.stepDown || enter) && all 106 then some (c.coolSince.getD s.now) else none,
    hot := c.hot || limit } }
  let s := if limit then faultEvent (0xE0 + die) 0x12 0xFFFF (BitVec.ofInt 64 t) s else s
  let s := if enter then faultEvent (0xE0 + die) 0x11 0xFFFF (BitVec.ofInt 64 t) s else s
  selectClock s

/-- JUNCTION_READING: four readings of a die slice; one that is not valid leaves the sensor's last. -/
def junctionReading (die : Nat) (raw : BitVec 64) (valid : BitVec 4) (s : State) : State :=
  if Config.dies ≤ die ∨ s.aon.phase = 0 then s
  else
    let v := (List.range 4).foldl (fun (t : Tab (BitVec 16)) i =>
      if valid.getLsbD i then tset t (4 * die + i) (raw.extractLsb' (16 * i) 16) else t) s.clk.sensors
    judge die { s with clk := { s.clk with sensors := v } }

def execJunctionReading (die : Nat) (raw : BitVec 64) (valid : BitVec 4) (s : State) : Res := .next (junctionReading die raw valid s)

/-- SENSOR_INVALID_TIMEOUT: the sensor is taken as reading 115 °C until it recovers. -/
def sensorInvalid (die sensor : Nat) (s : State) : State :=
  if Config.dies ≤ die ∨ 4 ≤ sensor ∨ s.aon.phase = 0 then s
  else judge die { s with clk := { s.clk with sensors := tset s.clk.sensors (4 * die + sensor) (BitVec.ofInt 16 (deg 115)) } }

def execSensorInvalidTimeout (die sensor : Nat) (s : State) : Res := .next (sensorInvalid die sensor s)

/-- STEP_DOWN_EXIT: 1 ms at or below 106 °C on every die slice. -/
def stepDownExit (s : State) : State :=
  match s.clk.coolSince with
  | some t =>
    if s.clk.stepDown ∧ t + Config.ms 1 ≤ s.now then
      let s := each (Config.nodeIds) (fun u s => endCondition u 0x11 s) s
      selectClock { s with clk := { s.clk with stepDown := false, coolSince := none } }
    else s
  | none => s

def execStepDownExit (s : State) : Res := .next (stepDownExit s)

/-! ### The boost budget (14 R435) -/

def binTicks : Nat := Config.ms 10
/-- The boost time of the current bin and the 200 before it has reached 200 ms. -/
def budgetGone (c : Clk) : Bool := decide (Config.ms 200 ≤ c.bins.sum)

/-- BOOST_BUDGET_SPENT. -/
def budgetSpent (s : State) : State :=
  if budgetGone s.clk && !s.clk.spent then selectClock { s with clk := { s.clk with spent := true } } else s

def execBoostBudgetSpent (s : State) : Res := .next (budgetSpent s)

/-- BOOST_BUDGET_BIN_END: the next bin opens, and the oldest of 201 leaves the window. -/
def binEnd (s : State) : State :=
  if s.aon.phase = 0 ∨ s.now < s.clk.binAt + binTicks then s
  else
    let c := { s.clk with bins := (0 :: s.clk.bins).take 201, binAt := s.clk.binAt + binTicks }
    selectClock { s with clk := { c with spent := budgetGone c } }

def execBoostBudgetBinEnd (s : State) : Res := .next (binEnd s)

/-- One tick at boost or at step-down is counted; then the clock follows its conditions. -/
def clockTick (s : State) : State :=
  let s := switchClock s
  let s := if s.clk.boost then
      bump Config.keepId 9 1 { s with clk := { s.clk with bins := (s.clk.bins.headD 0 + 1) :: s.clk.bins.drop 1 } }
    else s
  let s := if s.clk.stepDown then bump Config.keepId 11 1 s else s
  selectClock (budgetSpent (binEnd s))

/-- Clocking after a keep start: ÷5, empty bins; the inputs keep their levels and the thresholds judge afresh. -/
def restartClock (s : State) : State :=
  let s := { s with clk := { sensors := s.clk.sensors, ilim := s.clk.ilim, binAt := s.now / binTicks * binTicks } }
  each (List.range Config.dies) judge s

end Sys2Proof.Machine
end

