-- ==== Sys2Proof/Machine/Domain.lean ====
section
/-! DEFINITION. Members lost, taken over and rejoining, beats, the domain messages and the domain commands (07 R241 to
R247, R253). -/

namespace Sys2Proof.Machine
open Sys2Proof Sys2Proof.Crypto

/-! ### Losses (07 R243 to R247) -/

/-- The nearest live ancestor of a device. -/
def adopterOf (d : Dom) : Nat → Nat → Nat
  | 0, _ => d.anchor
  | f + 1, dev =>
    let p := treeParent dev
    if dev = 0 then d.anchor else if p = d.own ∨ (memberOf d p).live then p else adopterOf d f p

/-- What MEMBER_LOST does at a member, once it has been forwarded. -/
def applyLost (part dev mark adopter : Nat) (s : State) : State :=
  let d := s.dom part
  if dev = d.own then endMembership part 6 s
  else
    let s := match tfind d.pairs dev with
      | some i => retireSlot i (Config.ms 2) s
      | none => s
    let s := setMember part dev { memberOf d dev with live := false } s
    let s := s.onDom part fun d => { d with
      kids := without d.kids dev, pairs := tdel d.pairs dev, owed := d.owed.filter fun x => x.1 != dev,
      beatRx := tdel d.beatRx dev, rotConf := tdel d.rotConf dev, mark := max d.mark mark, confirmed := tdel d.confirmed dev,
      parent := if d.parent = dev then adopter else d.parent }
    let s := each (d.exchs.filter fun x => x.peer == dev) (fun x s => endExch part x s) s
    let s := handoffsLost part dev s
    let s := if adopter = d.own then
        offerTo part dev false (each ((treeKids d.n dev).filter fun k => (memberOf d k).live && k != d.own && !d.kids.contains k)
          (fun k s => offerTo part k true s) s)
      else s
    confirmUp part s

def lostBody (dev cause gen mark adopter : Nat) : Bytes :=
  le 3 dev ++ le 1 cause ++ le 2 gen ++ zeros 2 ++ le 2 mark ++ le 3 adopter ++ zeros 3

/-- The anchor names the lowest-numbered live child as the new deputy. -/
def newDeputy (part : Nat) (s : State) : State :=
  let d := s.dom part
  let n := d.kids.foldl (fun a k => if k < a then k else a) 0x3FFFF
  if d.kids.isEmpty then s
  else mailAll part (downTree d) 0x1B (le 3 d.own ++ le 3 n ++ zeros 2) (s.onDom part fun d => { d with deputy := n })

/-- A loss that starts a rotation, which is a threshold of the job key (06 Table 6.5), aborts one whose PREPARE has left
(07 Table 7.15). -/
def lossRotation (part : Nat) (s : State) : State :=
  let s := keyThreshold (s.dom part).jobSlot s
  if (s.dom part).rot.isSome then
    startRotation part 3 false ((anchorAbort part 0 s).onDom part fun d => { d with rotRetry := none })
  else startRotation part 3 false s

/-- The anchor takes the first valid loss of a device (07 R244, R247). -/
def anchorLoss (part dev cause : Nat) (s : State) : State :=
  let d := s.dom part
  let p := policyFor d.policy d.digest
  let m := memberOf d dev
  if d.state ≠ 4 ∨ !isAnchor d ∨ !m.live ∨ dev = d.own ∨ d.n ≤ dev then s
  else
    let mark := min 0x3FFF (d.mark + 1)
    let adopter := adopterOf d 4 dev
    let s := (setMember part dev { m with live := false } s).onDom part fun d => { d with
      rejoinBy := if cause = 5 then d.rejoinBy else tset d.rejoinBy dev (s.now + Config.ms (1000 * p.window)) }
    let s := syncDeputy part dev s
    let s := mailAll part (downTree d) 0x12 (lostBody dev cause m.gen mark adopter) s
    let s := applyLost part dev mark adopter s
    let s := if dev = d.deputy then newDeputy part s else s
    if cause ≠ 5 ∧ (p.onLoss = 1 ∨ cause = 4 ∨ cause = 7) then lossRotation part s else s

/-- The deputy becomes anchor (07 R246). -/
def takeover (part : Nat) (s : State) : State :=
  let d := s.dom part
  if d.state ≠ 4 ∨ d.own ≠ d.deputy ∨ isAnchor d then s
  else
    let old := d.anchor
    let others := (treeKids d.n old).filter fun k => k != d.own && (memberOf d k).live && !d.kids.contains k
    let dep := d.kids.foldl (fun a k => if k < a then k else a) 0x3FFFF
    let dep := if d.kids.isEmpty then d.own else dep
    let s := mailAll part (d.kids ++ others) 0x1B (le 3 d.own ++ le 3 dep ++ zeros 2) s
    let s := abortRotation part s
    let s := s.onDom part fun d => { d with anchor := d.own, deputy := dep, parent := d.own }
    let s := anchorLoss part old 7 (setMember part old { memberOf d old with live := true } s)
    if (s.dom part).rot.isSome then s else startRotation part 3 false s

/-- A member declares a neighbour lost (07 R242). -/
def declareLost (part dev cause : Nat) (s : State) : State :=
  let d := s.dom part
  if d.state ≠ 4 ∨ !(neighbours d).contains dev then s
  else
    let body := le 3 dev ++ le 1 cause ++ le 2 (memberOf d dev).gen ++ zeros 2
    let s := s.onDom part fun d => { d with beatRx := tdel d.beatRx dev }
    if isAnchor d then anchorLoss part dev cause s
    else if dev = d.anchor then
      if d.own = d.deputy then takeover part s
      else if !(memberOf d d.deputy).live then endMembership part 6 s
      else sendMail part d.deputy 0x11 body (setMember part dev { memberOf d dev with live := false } s)
    else
      let s := sendMail part d.anchor 0x11 body s
      if dev = d.deputy ∧ !(memberOf d d.anchor).live then endMembership part 6 s else s

/-! ### Beats and links (07 R242) -/

/-- BEAT_SEND: every 25 µs. -/
def beatSend (part : Nat) (s : State) : State :=
  let d := s.dom part
  if d.state = 4 ∧ d.beatTx + Config.us 25 ≤ s.now then
    mailAll part (neighbours d) 0x10 [] (s.onDom part fun d => { d with beatTx := s.now })
  else s

def execBeatSend (part : Nat) (s : State) : Res := .next (beatSend part s)

/-- BEAT. -/
def beatArrives (part src : Nat) (_ : Bytes) (s : State) : State :=
  let d := s.dom part
  if d.state = 4 ∧ (neighbours d).contains src then s.onDom part fun d => { d with beatRx := tset d.beatRx src s.now } else s

def execBeat (part : Nat) (hdr : BitVec 128) (body : List (BitVec 8)) (s : State) : Res :=
  .next (withMail 0x10 part hdr body (beatArrives part) s)

/-- BEAT_TIMEOUT: 100 µs without a beat. -/
def beatTimeout (part peer : Nat) (s : State) : State :=
  if s.keepStopped then s else
  match tfind (s.dom part).beatRx peer with
  | some t => if t + Config.us 100 ≤ s.now then declareLost part peer 2 s else s
  | none => s

def execBeatTimeout (part peer : Nat) (s : State) : Res := .next (beatTimeout part peer s)

/-- LINK_DOWN: a link-down input on a port that an attach map names (07 R242). -/
def linkDown (port : Nat) (s : State) : State :=
  each (s.doms.map (·.1)) (fun part s =>
    match tfind (s.dom part).attach port with
    | some dev => declareLost part dev 1 s
    | none => s) s

def execLinkDown (port : Nat) (s : State) : Res := .next (linkDown port s)

/-! ### Loss messages -/

/-- LOSS_REPORT: at the anchor, or at the deputy when it names the anchor. -/
def lossReport (part _src : Nat) (b : Bytes) (s : State) : State :=
  let d := s.dom part
  let dev := ofLe (cut 0 3 b)
  if d.state ≠ 4 ∨ ofLe (cut 4 2 b) ≠ (memberOf d dev).gen ∨ !(memberOf d dev).live then s
  else if isAnchor d then anchorLoss part dev (ofLe (cut 3 1 b)) s
  else if d.own = d.deputy ∧ dev = d.anchor then takeover part s
  else s

def execLossReport (part : Nat) (hdr : BitVec 128) (body : List (BitVec 8)) (s : State) : Res :=
  .next (withMail 0x11 part hdr body (lossReport part) s)

/-- MEMBER_LOST: forwarded to the children, then acted on. -/
def memberLost (part _src : Nat) (b : Bytes) (s : State) : State :=
  let d := s.dom part
  if d.state ≠ 4 then s
  else applyLost part (ofLe (cut 0 3 b)) (ofLe (cut 8 2 b)) (ofLe (cut 10 3 b)) (mailAll part (downTree d) 0x12 b s)

def execMemberLost (part : Nat) (hdr : BitVec 128) (body : List (BitVec 8)) (s : State) : Res :=
  .next (withMail 0x12 part hdr body (memberLost part) s)

/-- MARK_REQUEST at the anchor (05 R152). -/
def markRequest (part _src : Nat) (_ : Bytes) (s : State) : State :=
  let d := s.dom part
  if d.state = 4 ∧ isAnchor d then anchorMark part s else s

def execMarkRequest (part : Nat) (hdr : BitVec 128) (body : List (BitVec 8)) (s : State) : Res :=
  .next (withMail 0x13 part hdr body (markRequest part) s)

/-- MARK: a rejoining member in Confirmed commits on one from its parent, which its pending key alone can unseal. -/
def markArrives (part src : Nat) (b : Bytes) (s : State) : State :=
  let d := s.dom part
  let m := ofLe (cut 0 2 b)
  if d.state = 4 then applyMark part m (mailAll part (downTree d) 0x14 b s)
  else if d.state = 3 ∧ d.rejoin ∧ src = d.parent then
    let s := each d.exchs (fun x s => endExch part { x with pairSlot := none } s) s
    becomeMember part (s.onDom part fun d => { d with mark := max d.mark m, count := Config.rejoinCount d.domain })
  else s

def execMark (part : Nat) (hdr : BitVec 128) (body : List (BitVec 8)) (s : State) : Res :=
  .next (withMail 0x14 part hdr body (markArrives part) s)

/-! ### Rotation messages (07 R248) -/

def rotateRequest (part _src : Nat) (b : Bytes) (s : State) : State :=
  let cause := ofLe (cut 0 1 b)
  if cause = 4 ∨ cause = 7 then
    (if isAnchor (s.dom part) ∧ (s.dom part).state = 4 then lossRotation part s else s)
  else startRotation part (ofLe (cut 1 1 b)) false s

def execRotateRequest (part : Nat) (hdr : BitVec 128) (body : List (BitVec 8)) (s : State) : Res :=
  .next (withMail 0x15 part hdr body (rotateRequest part) s)

/-- A PREPARE whose slots are not yet Active waits for them (06 R198). -/
def prepareWaits (part src : Nat) (b : Bytes) (s : State) : State :=
  s.onDom part fun d => { d with inbox := d.inbox ++ [2 :: (le 3 src ++ b)] }

/-- ROTATE_PREPARE: unwrapped into the pending halves, verified, and wrapped again for the children. -/
def rotatePrepare (part src : Nat) (b : Bytes) (s : State) : State :=
  let d := s.dom part
  let g := ofLe (cut 0 4 b)
  let sel := ofLe (cut 4 1 b)
  if d.state ≠ 4 ∨ isAnchor d ∨ d.rot.isSome ∨ sel = 0 ∨ 3 < sel then s
  else match tfind d.pairs src with
  | none => s
  | some i =>
    let k := (s.key i).cur
    let job := if selJob sel then kwUnwrap k (cut 8 40 b) else some []
    let ckpt := if selCkpt sel then kwUnwrap k (cut 48 40 b) else some []
    match job, ckpt with
    | some jb, some cb =>
      if g ≠ (s.key (if selJob sel then d.jobSlot else d.ckptSlot)).gen + 1 then s
      else if (selJob sel ∧ !slotReady s d.jobSlot) ∨ (selCkpt sel ∧ !slotReady s d.ckptSlot) then prepareWaits part src b (freeCkpt d sel s)
      else if s.keep.verifyBad then keyFails s
      else
        let s := armKeys part sel (keyOf jb) (keyOf cb) (s.onDom part fun d => { d with rot := some (g, sel), rotAt := s.now, rotConf := [], rotSent := false })
        confirmUp part (prepareAll part s)
    | _, _ => s

def execRotatePrepare (part : Nat) (hdr : BitVec 128) (body : List (BitVec 8)) (s : State) : Res :=
  .next (withMail 0x16 part hdr body (rotatePrepare part) s)

/-- A PREPARE that waited goes on. -/
def resumePrepare (part : Nat) (s : State) : State :=
  match (s.dom part).inbox with
  | (2 :: b) :: rest => rotatePrepare part (ofLe (b.take 3)) (b.drop 3) (s.onDom part fun d => { d with inbox := rest })
  | _ => s

/-- ROTATE_CONFIRM: counted when its key check values are this side's own. -/
def rotateConfirm (part src : Nat) (b : Bytes) (s : State) : State :=
  let d := s.dom part
  match d.rot with
  | none => s
  | some (g, sel) =>
    let v (on : Bool) (slot : Nat) : Bytes := if on then kcv (s.key slot).pend else zeros 8
    if ofLe (cut 0 4 b) ≠ g ∨ !(downTree d).contains src ∨ cut 8 8 b ≠ v (selJob sel) d.jobSlot ∨
        cut 16 8 b ≠ v (selCkpt sel) d.ckptSlot then s
    else confirmUp part (s.onDom part fun d => { d with rotConf := tset d.rotConf src (ofLe (cut 4 3 b)) })

def execRotateConfirm (part : Nat) (hdr : BitVec 128) (body : List (BitVec 8)) (s : State) : Res :=
  .next (withMail 0x17 part hdr body (rotateConfirm part) s)

/-- ROTATE_COMMIT: forwarded, then committed unless the armed-generation report came first (07 R249). -/
def rotateCommitArrives (part _src : Nat) (b : Bytes) (s : State) : State :=
  let d := s.dom part
  let g := ofLe (cut 0 4 b)
  if d.state = 4 then
    let s := mailAll part (downTree d) 0x18 b s
    if (d.rot.map (·.1)) = some g then commitRotation part s else s
  else if d.state = 3 ∧ d.rejoin ∧ d.offerGen = g then
    becomeMember part ((each d.exchs (fun x s => endExch part { x with pairSlot := none } s) s).onDom part fun d =>
      { d with count := Config.rejoinCount d.domain })
  else s

def execRotateCommit (part : Nat) (hdr : BitVec 128) (body : List (BitVec 8)) (s : State) : Res :=
  .next (withMail 0x18 part hdr body (rotateCommitArrives part) s)

/-- ROTATE_ABORT: the pending halves are zeroed; a member that has committed leaves, to rejoin (07 R249). -/
def rotateAbort (part _src : Nat) (b : Bytes) (s : State) : State :=
  let d := s.dom part
  let g := ofLe (cut 0 4 b)
  if d.state ≠ 4 then s
  else
    let s := mailAll part (downTree d) 0x19 b s
    if (d.rot.map (·.1)) = some g then abortRotation part s
    else if (s.key d.jobSlot).gen = g then endMembership part 5 (sendLeave part s)
    else s

def execRotateAbort (part : Nat) (hdr : BitVec 128) (body : List (BitVec 8)) (s : State) : Res :=
  .next (withMail 0x19 part hdr body (rotateAbort part) s)

/-- ROTATION_DECIDE_TIMEOUT: 20 ms after its PREPARE the anchor decides (07 R248). -/
def rotationDecide (part : Nat) (s : State) : State :=
  let d := s.dom part
  match d.rot with
  | none => s
  | some (g, _) =>
    if !isAnchor d ∨ s.now < d.rotAt + Config.ms 20 then s
    else
      let live := liveCount d
      let missing := live - ((d.rotConf.map (·.2)).sum + 1)
      if live < 16 * missing then anchorAbort part (Config.ms 10) s
      else
        let tops := d.kids.filter fun k => (tfind d.rotConf k).isNone
        let gone := tops.flatMap fun t => t :: (if d.n ≤ 64 * t + 1 then [] else
          ((List.range d.n).filter fun x => x != t && below t 4 x && (memberOf d x).live))
        let s := mailAll part (d.kids.filter fun k => !tops.contains k) 0x18 (le 4 g ++ zeros 4) s
        let s := commitRotation part s
        each gone (fun x s => anchorLoss part x 6 s) s

def execRotationDecideTimeout (part : Nat) (s : State) : Res := .next (rotationDecide part s)

/-! ### Adoption, takeover and the table -/

/-- ADOPT: one admission record of types 0x01 to 0x04, which its row processes. -/
def adoptArrives (part _src : Nat) (b : Bytes) (s : State) : State :=
  if (s.dom part).state ≠ 4 ∨ !((recOf b).any fun r => recClean r && decide (r.type ≤ 4)) then s else s.onDom part fun d => { d with inbox := d.inbox ++ [1 :: b] }

def execAdopt (part : Nat) (hdr : BitVec 128) (body : List (BitVec 8)) (s : State) : Res :=
  .next (withMail 0x1A part hdr body (adoptArrives part) s)

/-- TAKEOVER: forwarded; the new anchor and deputy are in force, and a rotation in progress is aborted. -/
def takeoverArrives (part _src : Nat) (b : Bytes) (s : State) : State :=
  let d := s.dom part
  let a := ofLe (cut 0 3 b)
  if d.state ≠ 4 ∨ a = d.own then s
  else
    let s := mailAll part (downTree d) 0x1B b s
    let s := if a = d.anchor then s else abortRotation part s
    s.onDom part fun d => { d with
      anchor := a, deputy := ofLe (cut 3 3 b),
      parent := if d.parent = d.anchor ∧ a ≠ d.anchor then a else d.parent }

def execTakeover (part : Nat) (hdr : BitVec 128) (body : List (BitVec 8)) (s : State) : Res :=
  .next (withMail 0x1B part hdr body (takeoverArrives part) s)

/-- TABLE_SYNC at the deputy: runs of device, generation and state (1 live, 0 lost). -/
def tableSync (part src : Nat) (b : Bytes) (s : State) : State :=
  let d := s.dom part
  if d.state ≠ 4 ∨ src ≠ d.anchor ∨ d.own ≠ d.deputy then s
  else each (blocks 6 b) (fun r s => setMember part (ofLe (cut 0 3 r)) { gen := ofLe (cut 3 2 r), live := ofLe (cut 5 1 r) == 1 } s) s

def execTableSync (part : Nat) (hdr : BitVec 128) (body : List (BitVec 8)) (s : State) : Res :=
  .next (withMail 0x1C part hdr body (tableSync part) s)

/-- LEAVE: a loss with cause 0x05. -/
def leaveArrives (part src : Nat) (_ : Bytes) (s : State) : State :=
  let d := s.dom part
  if d.state ≠ 4 then s
  else if isAnchor d then anchorLoss part src 5 s
  else if src = d.anchor ∧ d.own = d.deputy then takeover part s
  else if d.kids.contains src then
    let s := match tfind d.pairs src with
      | some i => retireSlot i (Config.ms 2) s
      | none => s
    confirmUp part (s.onDom part fun d => { d with
      kids := without d.kids src, pairs := tdel d.pairs src, beatRx := tdel d.beatRx src, rotConf := tdel d.rotConf src })
  else s.onDom part fun d => { d with beatRx := tdel d.beatRx src }

def execLeave (part : Nat) (hdr : BitVec 128) (body : List (BitVec 8)) (s : State) : Res :=
  .next (withMail 0x1D part hdr body (leaveArrives part) s)

/-- DOMAIN_END: forwarded; the member is Detached. -/
def domainEnds (part _src : Nat) (_ : Bytes) (s : State) : State :=
  let d := s.dom part
  if d.state ≠ 4 then s else endMembership part 6 (mailAll part (downTree d) 0x1E [] s)

def execDomainEndMessage (part : Nat) (hdr : BitVec 128) (body : List (BitVec 8)) (s : State) : Res :=
  .next (withMail 0x1E part hdr body (domainEnds part) s)

/-- REJOIN_WINDOW_EXPIRY (07 R247). -/
def rejoinExpiry (part dev : Nat) (s : State) : State :=
  match tfind (s.dom part).rejoinBy dev with
  | some t =>
    if s.now < t then s
    else lossRotation part (s.onDom part fun d => { d with rejoinBy := tdel d.rejoinBy dev })
  | none => s

def execRejoinWindowExpiry (part dev : Nat) (s : State) : Res := .next (rejoinExpiry part dev s)

/-! ### What a membership does as time passes -/

/-- Requests the link stations have raised, PREPAREs and rotations that waited, and the end of a membership. -/
def settleDomain (part : Nat) (s : State) : State :=
  let d := s.dom part
  let s := payOwed part (unjoin part s)
  let s := if d.askCommit ∧ d.rot.isSome then commitRotation part s else s
  let s := match d.askRot with
    | none => s
    | some c =>
      let sel := if c = 4 then 2 else 1
      let s := s.onDom part fun d => { d with askRot := none }
      if d.state ≠ 4 then s else if isAnchor d then startRotation part sel false s
      else sendMail part d.anchor 0x15 ([0, BitVec.ofNat 8 sel, 0, 0]) s
  let s := if !d.askMark ∨ d.state ≠ 4 then s
    else
      let s := s.onDom part fun d => { d with askMark := false }
      if isAnchor d then anchorMark part s else sendMail part d.anchor 0x13 [] s
  retryRotation part (resumePrepare part s)

/-! ### Commands (07 Table 7.14) -/

/-- A ring object holds the ring the command names. -/
def ringBad (s : State) (h kib : Nat) : Nat :=
  let o := s.obj (handleIdx h)
  if h = 0 ∨ !handleLive s h then yeStale else if kib = 0 ∨ o.tiles * 8 < kib then yeDenied else 0

/-- DOMAIN_CREATE (07 R236, R238). -/
def bodyDomainCreate : Body := fun t rc inp s =>
  let dom := opnd t.e 0 3
  let part := opnd t.e 3 1
  let n := opnd t.e 4 3
  let len := opnd t.e 12 2
  let ring := opnd t.e 16 4
  let kib := opnd t.e 20 4
  let p := opnd t.e 8 4
  if dom = 0 ∨ part = 0xFF ∨ (s.part part).state ≠ 1 ∨ (s.dom part).state ≠ 0 ∨ n < 2 ∨ 262144 < n then failCmd t yeDenied s
  else if p = 0 then failCmd t yeStale s
  else if len = 0 ∨ 1024 < len then failCmd t yeLength s
  else if ringBad s ring kib ≠ 0 then failCmd t (ringBad s ring kib) s
  else readIn t p 0 len rc (fun s =>
    let pol := fit len inp
    if (readPolicy pol).isNone then failCmd t yeDenied s
    else match freeSlot s false with
    | none => failCmd t yeQuota s
    | some a =>
      match nextSlot s a with
      | none => failCmd t yeQuota s
      | some b =>
        if !canDraw s 0 then waitDraw t s
        else if s.keep.verifyBad then failCmd t yePoison (keyFails s)
        else
          let (jk, s) := draw0 s
          let (ck, s) := draw0 s
          let first (i cls : Nat) (k : BitVec 256) (s : State) : State :=
            s.onKey i fun x => firstCommits (writePending cls part false k { x with gen := 0 })
          let s := openRing (handleIdx ring) kib (first b 4 ck (first a 3 jk s))
          let s := s.onDom part fun d => {
            attach := d.attach, portMap := d.portMap, msgNum := d.msgNum,
            state := 4, domain := dom, own := 0, n := n, digest := sha384 pol, policy := pol, ring := handleIdx ring, anchor := 0, deputy := 1,
            memberGen := 1, jobSlot := a, ckptSlot := b, keyIndex := a, formAt := some s.now, beatTx := s.now, count := 1 }
          let s := bindJob part s
          let s := each (treeKids n 0) (fun k s => offerTo part k false s) s
          done t (sha384 pol) s) s

def execDomainCreate (q : Nat) (e : BitVec 1024) (rc : BitVec 16) (inp : List (BitVec 8)) (s : State) : Res :=
  .next (takeCmd 0x0710 bodyDomainCreate q e rc inp s)

/-- DOMAIN_JOIN_PREPARE. -/
def bodyDomainJoinPrepare : Body := fun t _ _ s =>
  let dom := opnd t.e 0 3
  let part := opnd t.e 3 1
  let dev := opnd t.e 4 3
  let flags := opnd t.e 7 1
  let ring := opnd t.e 88 4
  let kib := opnd t.e 92 4
  if dom = 0 ∨ part = 0xFF ∨ (s.part part).state ≠ 1 ∨ (s.dom part).state ≠ 0 ∨ 262144 ≤ dev ∨ 1 < flags ∨ (dev = 0 ∧ flags = 0) then failCmd t yeDenied s
  else if ringBad s ring kib ≠ 0 then failCmd t (ringBad s ring kib) s
  else
    let s := openRing (handleIdx ring) kib s
    done t [] (s.onDom part fun d => {
      attach := d.attach, portMap := d.portMap, msgNum := d.msgNum,
      state := 1, domain := dom, own := dev, n := Config.domainSize dom, digest := opBytes t.e 8 48, parentUeid := opBytes t.e 56 32,
      rejoin := flags == 1, ring := handleIdx ring, parent := treeParent dev })

def execDomainJoinPrepare (q : Nat) (e : BitVec 1024) (rc : BitVec 16) (inp : List (BitVec 8)) (s : State) : Res :=
  .next (takeCmd 0x0711 bodyDomainJoinPrepare q e rc inp s)

/-- The partition whose domain or migration a delivered record belongs to. -/
def recordPart (s : State) (r : Rec) : Option Nat :=
  let zero (b : Bytes) : Bool := b == zeros 32
  if r.type = 7 then
    ((s.migs.filter fun m => !m.2.source && m.2.exch.isNone && (s.part m.1).state == 2 && cut 64 48 r.body == (s.part m.1).migDigest &&
      (zero m.2.ueid || m.2.ueid == cut 32 32 r.body)).map (·.1)).head?
  else if r.mig then
    ((s.migs.filter fun m => (m.2.exch.map (·.num)) == some r.num).map (·.1)).head?
  else ((s.doms.filter fun d => d.2.state != 0 && d.2.domain == r.dom && d.2.own == r.rcv).map (·.1)).head?

/-- DOMAIN_MESSAGE: the record waits for its row; the command completes with what the row produces. -/
def bodyDomainMessage : Body := fun t rc inp s =>
  let len := opnd t.e 12 4
  readIn t (opnd t.e 0 4) (opnd t.e 4 5) len rc (fun s =>
    match recOf (fit len inp) with
    | none => failCmd t yeLength s
    | some r =>
      if !recClean r then failCmd t yeDenied s else
      match recordPart s r with
      | none => failCmd t yeDenied s
      | some p =>
        let s := if r.mig then { s with migs := tupd {} s.migs p fun m => { m with inbox := m.inbox ++ [r.raw] } }
          else s.onDom p fun d => { d with inbox := d.inbox ++ [0 :: r.raw] }
        keepRunning t (p + 1) s) s

def execDomainMessage (q : Nat) (e : BitVec 1024) (rc : BitVec 16) (inp : List (BitVec 8)) (s : State) : Res :=
  .next (takeCmd 0x0712 bodyDomainMessage q e rc inp s)

/-- DOMAIN_LEAVE: signals when the keys are destroyed. -/
def bodyDomainLeave : Body := fun t _ _ s =>
  let part := opnd t.e 0 1
  if (s.dom part).state ≠ 4 then failCmd t yeDenied s
  else keepRunning t (part + 1) (endMembership part 5 (sendLeave part s))

def execDomainLeave (q : Nat) (e : BitVec 1024) (rc : BitVec 16) (inp : List (BitVec 8)) (s : State) : Res :=
  .next (takeCmd 0x0713 bodyDomainLeave q e rc inp s)

/-- DOMAIN_END at the anchor. -/
def bodyDomainEnd : Body := fun t _ _ s =>
  let part := opnd t.e 0 1
  let d := s.dom part
  if d.state ≠ 4 ∨ !isAnchor d then failCmd t yeDenied s
  else done t [] (endMembership part 6 (mailAll part (downTree d) 0x1E [] s))

def execDomainEnd (q : Nat) (e : BitVec 1024) (rc : BitVec 16) (inp : List (BitVec 8)) (s : State) : Res :=
  .next (takeCmd 0x0714 bodyDomainEnd q e rc inp s)

/-- DOMAIN_ROTATE at the anchor: signals when the rotation it caused commits. -/
def bodyDomainRotate : Body := fun t _ _ s =>
  let part := opnd t.e 0 1
  let sel := opnd t.e 1 1
  let d := s.dom part
  if d.state ≠ 4 ∨ !isAnchor d ∨ sel = 0 ∨ 3 < sel then failCmd t yeDenied s
  else startRotation part sel (d.rot.isSome && d.rotAt != s.now) (keepRunning t (part + 1) s)

def execDomainRotate (q : Nat) (e : BitVec 1024) (rc : BitVec 16) (inp : List (BitVec 8)) (s : State) : Res :=
  .next (takeCmd 0x0715 bodyDomainRotate q e rc inp s)

/-- DOMAIN_STATUS. -/
def bodyDomainStatus : Body := fun t _ _ s =>
  let part := opnd t.e 0 1
  let d := s.dom part
  if part = 0xFF ∨ (s.part part).state = 0 then failCmd t yeDenied s
  else
    let gen := if d.state < 3 then 0 else (domKey s d.jobSlot).2
    done t (le 1 d.state ++ le 3 d.own ++ le 2 d.memberGen ++ le 4 gen ++ le 2 d.mark ++ le 3 (if d.state = 4 then liveCount d else 0)) s

def execDomainStatus (q : Nat) (e : BitVec 1024) (rc : BitVec 16) (inp : List (BitVec 8)) (s : State) : Res :=
  .next (takeCmd 0x0716 bodyDomainStatus q e rc inp s)

/-- DOMAIN_ATTACH_MAP: replaces the entries of 16 ports. -/
def bodyDomainAttachMap : Body := fun t _ _ s =>
  let part := opnd t.e 0 1
  let lo := opnd t.e 1 1
  let es := (List.range 16).map fun i => (lo + i, opnd t.e (4 + 4 * i) 4)
  let valid (v : Nat) : Bool := decide (2 ^ 31 ≤ v)
  if (lo ≠ 0 ∧ lo ≠ 16) ∨ part = 0xFF ∨ (s.part part).state = 0 ∨ es.any (fun x => valid x.2 && decide (Config.linkStations ≤ x.1)) ∨
      es.any (fun x => x.2 / 2 ^ 18 % 2 ^ 13 != 0) then failCmd t yeDenied s
  else done t [] (s.onDom part fun d => { d with
    attach := es.foldl (fun m x => if valid x.2 then tset m x.1 (x.2 % 2 ^ 18) else tdel m x.1) d.attach })

def execDomainAttachMap (q : Nat) (e : BitVec 1024) (rc : BitVec 16) (inp : List (BitVec 8)) (s : State) : Res :=
  .next (takeCmd 0x0717 bodyDomainAttachMap q e rc inp s)

end Sys2Proof.Machine
end

