-- ==== Sys2Proof/Machine/HostLink.lean ====
section
/-! DEFINITION. The host link: host transactions, the SPDM responder, IDE key management and TDISP interfaces (01 R33, 07
R250 to R252). -/

namespace Sys2Proof.Machine
open Sys2Proof Sys2Proof.Crypto

def State.ideOf (s : State) (stream : Nat) : Ide := tget {} s.host.ide stream
def State.tdispOf (s : State) (iface : Nat) : Tdisp := tget {} s.host.tdisp iface
def onIde (stream : Nat) (f : Ide → Ide) (s : State) : State := { s with host := { s.host with ide := tupd {} s.host.ide stream f } }
def onTdisp (iface : Nat) (f : Tdisp → Tdisp) (s : State) : State := { s with host := { s.host with tdisp := tupd {} s.host.tdisp iface f } }

/-! ### Host transactions -/

/-- Whether an interface may reach a partition this way (07 Table 7.13); out of service the station serves the register
window and context 0 alone (11 R365). -/
def hostMay (s : State) (iface stream : Nat) (ide tbit : Bool) (part : Nat) : Bool :=
  let x := s.tdispOf iface
  let run := s.host.tdisp.any fun i => i.2.part == some part && i.2.state == 2
  let bad := s.host.tdisp.any fun i => i.2.part == some part && i.2.state == 3
  if s.aon.outOfService || iface ≥ 64 || bad || x.state == 3 then false
  else if ide then x.state == 2 && x.part == some part && x.stream == stream && (s.ideOf stream).live && tbit
  else !run && (x.state != 2)

/-- A transaction is refused: its fence learns it, and nothing goes on (01 R26). -/
def refuseHost (r : MReq) (code : Nat) (s : State) : State :=
  let s := fenceReport r.fence r.part code (detailStation Config.hostId r.kind r.pslot) s
  emit (.rfin Config.hostId Config.hostId r.tag 16 code) (bump Config.hostId 6 1 s)

/-- IDE_INTEGRITY_FAILURE: the stream ends with its keys (07 R251). -/
def ideFailure (stream : Nat) (s : State) : State :=
  let x := s.ideOf stream
  if !x.live then s
  else
    let s := each (x.slots.map (·.2)) (fun i s => retireSlot i (Config.ms 2) s) s
    let s := { s with host := { s.host with ide := tdel s.host.ide stream } }
    faultEvent Config.hostId 0x20 0xFFFF (BitVec.ofNat 64 stream) (tdispFail (fun x => x.stream == stream) s)

/-- A transaction that has passed its checks goes to its memory station, with the request as it is and its text. -/
def forwardHost (h : HostReq) (r : MReq) (s : State) : State :=
  let s := if h.ide ∧ h.write then addMeter r.part 8 h.data.length (bump Config.hostId 4 h.data.length s) else s
  let s := { s with host := { s.host with reqs := s.host.reqs ++ [(r.tag, h.iface, if h.ide then some h.stream else none)] } }
  emit (.dreq Config.hostId 0 r.tag (le 1 (chanOf s r.pslot).1 ++ packReq r) (if h.write then r.data else [])) s

/-- A transaction taken in: its isolation check, then on an IDE stream the key, the receive key of posted or non-posted
requests, and the tag (01 R26, R27). False while it waits for its key. -/
def hostGo (h : HostReq) (s : State) : Bool × State :=
  let r := { memReq Config.hostId h.req h.data with epoch := s.host.port.cur.epoch }
  if !hostMay s h.iface h.stream h.ide h.tbit r.part || isWrite r.kind != h.write then (true, refuseHost r yeDenied s)
  else if !h.ide then (true, forwardHost h r s)
  else match ideSub s h.stream (if h.write then 0 else 1) with
  | none => (true, refuseHost r yeDenied s)
  | some (slot, gen) =>
    if (s.key slot).state = 6 then (true, refuseHost r yeKey s)
    else match askKey Config.hostId slot gen s with
    | (none, s) => (false, s)
    | (some k, s) =>
      match Config.ideOpen k h.data h.mac with
      | none => (true, refuseHost r yeTagFail (ideFailure h.stream s))
      | some text => (true, forwardHost h { r with data := text } s)

/-- A transaction waits behind those of its stream that wait. -/
def hostTry (h : HostReq) (s : State) : State :=
  let wait (s : State) : State := { s with host := { s.host with waiting := s.host.waiting ++ [h] } }
  if h.ide && s.host.waiting.any fun x => x.stream == h.stream then wait s
  else match hostGo h s with
  | (true, s) => s
  | (false, s) => wait s

/-- HOST_DMA_REQUEST: a transaction of the host is checked and goes to its memory station (01 R33). -/
def hostDma (h : HostReq) (s : State) : State :=
  if s.portState Config.hostId ≠ .opened then s
  else hostTry h (bump Config.hostId 2 1 (s.onPort Config.hostId fun p => { p with
    intake := (p.intake + 1) % 2 ^ 32, lastTag := (memReq Config.hostId h.req []).tag }))

def execHostDmaRequest (iface stream : Nat) (ide tbit write : Bool) (req : BitVec 256) (data tag : List (BitVec 8)) (s : State) : Res :=
  .next (hostDma { iface := iface, stream := stream, ide := ide, tbit := tbit, write := write, req := req, data := data, mac := tag } s)

def execIdeIntegrityFailure (stream : Nat) (s : State) : Res := .next (ideFailure stream s)

/-- Answers and transactions that waited go on. -/
def settleHost (s : State) : State :=
  let a := s.host.answers
  let s := each a (fun x s => match hostAnswer x s with
    | (true, s) => s
    | (false, s) => { s with host := { s.host with answers := s.host.answers ++ [x] } }) { s with host := { s.host with answers := [] } }
  let w := s.host.waiting
  each w hostTry { s with host := { s.host with waiting := [] } }

/-! ### SPDM (07 R250, Table 7.12) -/

/-- Request codes answered otherwise than with ERROR (DSP0274; log 31). -/
def spdmCodes : List Nat := [0x84, 0xE1, 0xE3, 0x81, 0x82, 0x83, 0xE0, 0xE4, 0xE5, 0xEC, 0xE8, 0xE9, 0x85, 0x86, 0xFE]
def spdmError (msg : Bytes) (code : Nat) : Bytes := [msg.getD 0 0x13, 0x7F, BitVec.ofNat 8 code, msg.getD 1 0]

/-- The host station takes messages in for the keep (01 Table 1.5; 11 R365). -/
def hostUp (s : State) : Bool := s.keepLive && !s.aon.outOfService && s.portState Config.hostId == .opened

def sessionUp (s : State) (session : Nat) : Bool := (tget {} s.host.spdm session).phase == 2

/-- What the responder answers from: measurements, the chain, and the part-level bundle of index 0xFD. -/
def spdmData (s : State) (bundle : Bytes) : Bytes :=
  s.keep.fwDigest ++ s.keep.cfgDigest ++ [BitVec.ofNat 8 (lcCode s.aon), BitVec.ofNat 8 (dbgCode s.aon)] ++ s.ik.pPub ++
  le 8 s.freeSig ++ (chainOf s).flatten ++ bundle

/-- Ends a session and retires its keys (06 R206). -/
def endSession (session : Nat) (s : State) : State :=
  each (tget {} s.host.spdm session).slots (fun i s => retireSlot i (Config.ms 2) s)
    { s with host := { s.host with spdm := tdel s.host.spdm session } }

/-- The two session keys, one for each direction; none when no slot is free or a key fails its verification (06 R199). -/
def sessionKeys (session : Nat) (s : State) : Bool × State :=
  if s.keep.verifyBad then (false, keyFails s)
  else match freeSlot s true with
  | none => (false, s)
  | some a =>
    match seek (fun i => (s.key i).state == 0) (16383 - a) (a + 1) with
    | none => (false, s)
    | some b =>
      let n := s.freeSig
      (true, firstKey b 8 0 true (Config.spdmKey session (4 * n + 1)) (firstKey a 8 0 true (Config.spdmKey session (4 * n))
        { s with freeSig := n + 1,
                 host := { s.host with spdm := tset s.host.spdm session { phase := 2, slots := [a, b], fresh := n } } }))

/-- New keys in a session's slots: through the pending half, the old one destroyed at once (06 R198, R201). -/
def updateKeys (session : Nat) (s : State) : Bool × State :=
  let x := tget {} s.host.spdm session
  if s.keep.verifyBad then (false, keyFails s)
  else (true, { each x.slots (fun i s =>
      startPurge i 2 (commitSwap i (s.onKey i (writeNext (Config.spdmKey session (4 * x.fresh + 2 + 2 ^ 64 * (s.key i).gen)))))) s with
    host := { s.host with spdm := tset s.host.spdm session { x with reqSeq := 0, rspSeq := 0 } } })

/-! Messages of an established session are sealed by the command cipher engine under its two keys (06 R210; log 31). -/

/-- Additional data: the session and the length of what follows. -/
def spdmAad (session n : Nat) : Bytes := le 4 session ++ le 2 n
/-- The nonce of a direction (0 requests, 1 responses) at a count of messages. -/
def spdmNonce (session dir fresh n : Nat) : Bytes :=
  be 12 ((Config.spdmIv session (2 * fresh + dir)).toNat ^^^ n)
def spdmHalf (s : State) (x : Spdm) (dir : Nat) : BitVec 256 := (s.key (x.slots.getD dir 0)).cur

/-- The request inside a sealed one, if its tag matches. -/
def spdmOpen (s : State) (session : Nat) (m : Bytes) : Option Bytes :=
  let x := tget {} s.host.spdm session
  let n := m.length - 16
  gcmOpen (spdmHalf s x 0) (spdmNonce session 0 x.fresh x.reqSeq) (spdmAad session m.length) (m.take n) (m.drop n)

/-- A message of an established session has gone each way. -/
def spdmCount (session : Nat) (s : State) : State :=
  { s with host := { s.host with spdm := tupd {} s.host.spdm session fun x => { x with reqSeq := x.reqSeq + 1, rspSeq := x.rspSeq + 1 } } }

/-- An answer as it was before the request changed anything: sealed if the session was up. -/
def spdmSeal (s : State) (session : Nat) (r : Bytes) : Bytes :=
  let x := tget {} s.host.spdm session
  if !sessionUp s session then r
  else
    let (c, t) := gcmSeal (spdmHalf s x 1) (spdmNonce session 1 x.fresh x.rspSeq) (spdmAad session (r.length + 16)) r
    c ++ t

/-- What a request asks of the responder: whether it is answered, the answer, and what it changes. -/
def spdmServe (session : Nat) (msg : Bytes) (s : State) : Bytes × State :=
  let code := ofLe (cut 1 1 msg)
  let x := tget {} s.host.spdm session
  let normal (b : Bytes) (s : State) : Bytes × State := (Config.spdmResponse session msg (spdmData s b), { s with freeSig := s.freeSig + 1 })
  if !spdmCodes.contains code || msg.length < 4 || (code == 0xFE && x.phase != 2) then (spdmError msg 0x07, s)
  else if code = 0xE0 ∧ cut 3 1 msg = [0xFD] then
    if !canDraw s 1 then (spdmError msg 0x03, s)
    else (let (b, s) := zeler 0xFF (cut 4 32 msg) s; normal b s)
  else if code = 0xE4 then
    if x.phase ≠ 0 ∨ 4 ≤ s.host.spdm.length then (spdmError msg 0x0A, s)
    else normal [] { s with host := { s.host with spdm := tset s.host.spdm session { phase := 1 } } }
  else if code = 0xE5 then
    if x.phase ≠ 1 then (spdmError msg 0x04, s)
    else match sessionKeys session s with
      | (true, s) => normal [] s
      | (false, s) => (spdmError msg 0x05, s)
  else if code = 0xEC ∨ code = 0xE8 ∨ code = 0xE9 then
    if x.phase ≠ 2 then (spdmError msg 0x04, s)
    else if code = 0xEC then normal [] (endSession session s)
    else if code = 0xE9 then
      match updateKeys session s with
      | (true, s) => normal [] s
      | (false, s) => (spdmError msg 0x05, s)
    else normal [] s
  else normal [] s

/-- SPDM_REQUEST: taken while the host station is Open.  In an established session the message is sealed, and one whose tag
fails is not answered. -/
def spdmRequest (session : Nat) (msg : Bytes) (s : State) : State :=
  let up := sessionUp s session
  if !hostUp s then s
  else match if up then spdmOpen s session msg else some msg with
  | none => s
  | some m =>
    let s' := if up then scratchIn m (spdmCount session (bump Config.hostId 7 1 s)) else bump Config.hostId 7 1 s
    let (r, t) := spdmServe session m s'
    emit (.spdm session (spdmSeal s session r)) (if up then scratchOut true r t else t)

def execSpdmRequest (session : Nat) (msg : List (BitVec 8)) (s : State) : Res := .next (spdmRequest session msg s)

/-! ### IDE key management (07 R251) -/

/-- KEY_PROG writes the key into the pending half of its slot, in Empty or Active only (06 R198); `sub` numbers the posted,
non-posted and completion keys, receive 0 to 2 and transmit 3 to 5. -/
def keyProg (session stream keySet sub : Nat) (key : BitVec 256) (s : State) : State :=
  let x := s.ideOf stream
  let known := (tfind s.host.ide stream).isSome
  if !hostUp s || !sessionUp s session then s
  else if 255 < stream ∨ 1 < keySet ∨ 5 < sub ∨ (!known ∧ 8 ≤ s.host.ide.length) then emit (.spdm session [3, 1]) s
  else
    let i := 6 * keySet + sub
    match (tfind x.slots i).orElse fun _ => freeSlot s true with
    | none => emit (.spdm session [3, 1]) s
    | some slot =>
      let k := s.key slot
      if 2 ≤ k.state then emit (.spdm session [3, 1]) s
      else if s.keep.verifyBad then emit (.spdm session [3, 1]) (keyFails s)
      else
        let s := s.onKey slot (if k.state = 0 then writePending 7 0 true key else writeNext key)
        emit (.spdm session [3, 0]) (onIde stream (fun x => { x with slots := tset x.slots i slot }) s)

def execKeyProg (session stream keySet sub : Nat) (key : BitVec 256) (s : State) : Res := .next (keyProg session stream keySet sub key s)

def setSlots (x : Ide) (keySet : Nat) : List Nat := (x.slots.filter fun e => e.1 / 6 == keySet).map (·.2)

/-- K_SET_GO commits the programmed set. -/
def kSetGo (session stream keySet : Nat) (s : State) : State :=
  let v := (setSlots (s.ideOf stream) keySet).filter fun i => (s.key i).state == 2
  if !hostUp s || !sessionUp s session then s
  else if v.isEmpty then emit (.spdm session [6, 1]) s
  else
    let s := each v (fun i s => if (s.key i).first then commitFirst i s else commitSwap i s) s
    emit (.spdm session [6, 0]) (onIde stream (fun x => { x with live := true, set := keySet }) s)

def execKSetGo (session stream keySet : Nat) (s : State) : Res := .next (kSetGo session stream keySet s)

/-- Interfaces bound to a stream enter ERROR when its keys retire (07 Table 7.13). -/
def streamEnds (stream : Nat) (s : State) : State := tdispFail (fun x => x.stream == stream) s

/-- K_SET_STOP ends a key set. -/
def kSetStop (session stream keySet : Nat) (s : State) : State :=
  let x := s.ideOf stream
  let v := setSlots x keySet
  if !hostUp s || !sessionUp s session then s
  else if v.isEmpty then emit (.spdm session [6, 1]) s
  else
    let s := each v (fun i s => retireSlot i (Config.ms 2) s) s
    let s := onIde stream (fun x => { x with slots := x.slots.filter fun e => e.1 / 6 != keySet, live := x.live && x.set != keySet }) s
    emit (.spdm session [6, 0]) (if x.live ∧ x.set = keySet then streamEnds stream s else s)

def execKSetStop (session stream keySet : Nat) (s : State) : Res := .next (kSetStop session stream keySet s)

/-! ### TDISP (07 R252) -/

def tdispAnswer (session : Nat) (ok : Bool) (s : State) : State := emit (.spdm session [if ok then 0 else 0x7F]) s

/-- LOCK_INTERFACE_REQUEST binds an interface to a partition. -/
def lockInterface (session iface part stream : Nat) (s : State) : State :=
  if !hostUp s || !sessionUp s session then s
  else if 64 ≤ iface ∨ (s.tdispOf iface).state ≠ 0 ∨ part = 0xFF ∨ (s.part part).state = 0 ∨ (s.part part).state = 5 ∨ !(s.ideOf stream).live then
    tdispAnswer session false s
  else tdispAnswer session true (onTdisp iface (fun _ => { state := 1, part := some part, stream := stream }) s)

def execLockInterfaceRequest (session iface part stream : Nat) (s : State) : Res := .next (lockInterface session iface part stream s)

/-- START_INTERFACE_REQUEST. -/
def startInterface (session iface : Nat) (s : State) : State :=
  let x := s.tdispOf iface
  if !hostUp s || !sessionUp s session then s
  else if x.state = 1 ∧ (s.ideOf x.stream).live then tdispAnswer session true (onTdisp iface (fun x => { x with state := 2 }) s)
  else tdispAnswer session false s

def execStartInterfaceRequest (session iface : Nat) (s : State) : Res := .next (startInterface session iface s)

/-- STOP_INTERFACE_REQUEST: the one way out of ERROR. -/
def stopInterface (session iface : Nat) (s : State) : State :=
  if !hostUp s || !sessionUp s session then s
  else if 64 ≤ iface then tdispAnswer session false s
  else tdispAnswer session true (stopSecure (onTdisp iface (fun _ => {}) s))

def execStopInterfaceRequest (session iface : Nat) (s : State) : Res := .next (stopInterface session iface s)

/-- GET_DEVICE_INTERFACE_REPORT: the vendor area carries the partition and its PMR. -/
def interfaceReport (session iface : Nat) (s : State) : State :=
  let x := s.tdispOf iface
  if !hostUp s || !sessionUp s session then s
  else match x.part with
  | some p => if x.state = 1 ∨ x.state = 2 then emit (.spdm session (le 1 p ++ fit 48 (s.part p).pmr)) s else tdispAnswer session false s
  | none => tdispAnswer session false s

def execGetDeviceInterfaceReport (session iface : Nat) (s : State) : Res := .next (interfaceReport session iface s)

end Sys2Proof.Machine
end

