-- ==== Sys2Proof/Machine/Meter.lean ====
section
/-! DEFINITION. Metering: what partitions are charged, the records and checkpoints, and their ring (08 R287 to R292). -/

namespace Sys2Proof.Machine
open Sys2Proof Sys2Proof.Crypto

/-! ### Time charged to the partitions (08 Table 8.12) -/

/-- Ticks of one interval (08 R288). -/
def meterTicks : Nat := 100000000

/-- Charges counters 0 to 3 for `dt` ticks of one slice. -/
def chargeSlice (dt : Nat) (x : Slice) (s : State) : State :=
  let cores := popc x.cores
  let s := match x.running.bind fun i => (x.lessees[i]?).join with
    | some p => addMeter p 0 (cores * dt) s
    | none => s
  each (x.lessees.filterMap id) (fun p s =>
    addMeter p 3 (popc x.ports * dt) (addMeter p 2 (popc x.chans * dt) (addMeter p 1 (cores * dt) s))) s

/-- Charges the installed map up to a time. -/
def chargeTo (t : Nat) (s : State) : State :=
  let s' := each s.slices (chargeSlice (t - s.meter.at_)) s
  { s' with meter := { s'.meter with at_ := max t s.meter.at_ } }

/-! ### The ring and its backlog (08 R291, 13 R411) -/

def meterBacklog : Nat := 65536

/-- A record or checkpoint goes to the ring, or waits behind those that wait. -/
def meterPut (type : Nat) (b : Bytes) (s : State) : State :=
  let wait := { s with meter := { s.meter with backlog := s.meter.backlog ++ [(type, b)] } }
  match s.meter.ring with
  | none => wait
  | some h => if s.meter.backlog.isEmpty then (ringPut h (ringItem type b) s).getD wait else wait

/-- Writes what waits, as far as it fits. -/
def drainItems (h : Nat) : List (Nat × Bytes) → State → List (Nat × Bytes) × State
  | [], s => ([], s)
  | (type, b) :: r, s =>
    match ringPut h (ringItem type b) s with
    | some s => drainItems h r s
    | none => ((type, b) :: r, s)

/-- The ring has room again: the backlog goes out, and below full its Degrade ends (10 Table 10.2). -/
def drainBacklog (s : State) : State :=
  match s.meter.ring with
  | none => s
  | some h =>
    let (r, s) := drainItems h s.meter.backlog s
    let s := { s with meter := { s.meter with backlog := r } }
    if r.length < meterBacklog ∧ s.meter.stalled then
      endCondition Config.keepId 0x1E { s with meter := { s.meter with stalled := false } }
    else s

/-! ### Records (08 R288 to R290) -/

/-- The key in force for the interval that ends, and its generation. -/
def meterKey (s : State) : Option (BitVec 256 × Nat) :=
  match s.meter.slot with
  | none => none
  | some i =>
    let k := s.key i
    if s.meter.fresh ∨ k.state = 0 then none
    else if k.state = 5 ∧ k.pendIs = 2 then some (k.pend, k.gen - 1)
    else some (k.cur, k.gen)

/-- A counter as a record reports it: ticks as whole microseconds. -/
def meterValue (m : Tab Nat) (i : Nat) : Nat := if i < 4 then tget 0 m i / 100 else tget 0 m i

/-- A metering record (08 Table 8.13). -/
def meterRecord (s : State) (x : MeterEnd) (flags : Nat) : Bytes :=
  let k := meterKey s
  let body := [1, BitVec.ofNat 8 x.part, BitVec.ofNat 8 flags, 0] ++ le 4 ((k.map (·.2)).getD 0) ++ le 8 s.meter.seq ++ le 8 x.since ++
    le 8 x.until_ ++ ((List.range 10).map fun i => le 8 (meterValue x.meter i)).flatten ++
    le 2 (((List.range 10).filter fun i => tget 0 x.meter i == two64 - 1).map (2 ^ ·)).sum ++ zeros 14
  body ++ match k with
    | some (k, _) => hmac (keyBytes k) body
    | none => zeros 48

/-- Forms one record and chains it. -/
def formRecord (x : MeterEnd) (flags : Nat) (s : State) : State :=
  let r := meterRecord s x flags
  bump Config.keepId 19 1 (meterPut 1 r { s with meter := { s.meter with
    seq := (s.meter.seq + 1) % two64, chain := sha384 (s.meter.chain ++ r) } })

/-- What a partition starts its next interval with: the remainders of the times (08 R287). -/
def carried (m : Tab Nat) : Tab Nat := (List.range 4).foldl (fun t i => tset t i (tget 0 m i % 100)) []

/-- A record of the interval that ends at `t`, or none while the backlog is full. -/
def recordPartition (t extra : Nat) (i : Nat) (s : State) : State :=
  let p := s.part i
  if meterBacklog ≤ s.meter.backlog.length then s.onPart i fun p => { p with lengthened := true }
  else
    let x : MeterEnd := { part := i, since := p.meterSince, until_ := t, meter := p.meter }
    let s := formRecord x ((if p.frozenIn then 2 else 0) + extra + (if p.lengthened then 8 else 0)) s
    s.onPart i fun p => { p with meter := carried p.meter, meterSince := t, frozenIn := p.state == 3 || p.state == 4, lengthened := false }

/-- The final record of a removed partition, which stays while the backlog is full. -/
def recordFinal (x : MeterEnd) (s : State) : State :=
  if meterBacklog ≤ s.meter.backlog.length then s
  else formRecord x (1 + (if x.frozen then 2 else 0) + (if x.lengthened then 8 else 0))
    { s with meter := { s.meter with finals := s.meter.finals.erase x } }

/-- Records in ascending partition, a removed one before its successor. -/
def recordAll (t extra : Nat) (s : State) : State :=
  each (List.range 255) (fun i s =>
    let s := each (s.meter.finals.filter fun x => x.part == i) recordFinal s
    if (s.part i).state = 0 then s else recordPartition t extra i s) s

/-- The new key is in force from here, and the old half is destroyed (06 Table 6.5). -/
def settleKey (s : State) : State :=
  let s := { s with meter := { s.meter with fresh := false } }
  match s.meter.slot with
  | some i => if (s.key i).state = 5 then startPurge i 2 s else s
  | none => s

/-- The interval ends at `t`; `extra` is flag [2] for one that a warm reset ends (08 R288, R292). -/
def endInterval (t extra : Nat) (s : State) : State :=
  let s := recordAll t extra (chargeTo t s)
  let full := decide (meterBacklog ≤ s.meter.backlog.length) && !s.meter.stalled
  let s := if full then faultEvent Config.keepId 0x1E 0xFFFF 0 { s with meter := { s.meter with stalled := true } } else s
  settleKey { s with meter := { s.meter with startAt := t } }

/-- The next boundary, when it has come. -/
def meterDue (s : State) : Option Nat :=
  let b := (s.meter.startAt / meterTicks + 1) * meterTicks
  if s.keepLive ∧ b ≤ s.now then some b else none

/-- Charges the map in force up to now, ending first an interval whose boundary has passed. -/
def chargeNow (s : State) : State :=
  let s := match meterDue s with
    | some b => endInterval b 0 s
    | none => s
  chargeTo s.now s

/-- METERING_INTERVAL_END. -/
def intervalEnd (s : State) : State :=
  match meterDue s with
  | some b => endInterval b 0 s
  | none => s

def execMeteringIntervalEnd (s : State) : Res := .next (intervalEnd s)

/-- A checkpoint over the chain so far (08 Table 8.14). -/
def checkpoint (s : State) : State :=
  let (b, s) := zeler 0xFF s.meter.chain s
  meterPut 2 ([2, 0, 0, 0] ++ le 4 b.length ++ le 8 (s.meter.seq - 1) ++ s.meter.chain ++ b) s

/-- METERING_CHECKPOINT: at a multiple of 60 s, once that boundary's records are chained (08 R290). -/
def checkpointDue (s : State) : State :=
  let b := (s.meter.ckptAt / (60 * meterTicks) + 1) * (60 * meterTicks)
  if s.keepLive ∧ b ≤ s.meter.startAt ∧ s.meter.backlog.length < meterBacklog ∧ canDraw s 1 then
    let s := checkpoint s
    { s with meter := { s.meter with ckptAt := b } }
  else s

def execMeteringCheckpoint (s : State) : Res := .next (checkpointDue s)

/-- The chain starts again from the keep start's identifier (08 R290). -/
def startChain (s : State) : State := { s with meter := { s.meter with chain := sha384 (ascii "yk3 meter" ++ s.keep.startId) } }

/-! ### Run notices (08 R261) -/

/-- The notices of the last tick take effect. -/
def settleNotices (s : State) : State :=
  if s.meter.notices.isEmpty ∨ (meterDue s).isSome then s
  else
    let s := chargeTo s.now s
    let v := s.meter.notices
    let s := { s with meter := { s.meter with notices := [] } }
    { s with slices := v.foldl (fun l n => l.map fun x => if x.idx = n.1 then { x with running := n.2 } else x) s.slices }

/-- RUN_NOTICE: one that names a position beyond the slice's lessees is ignored and counted. -/
def runNotice (v : BitVec 32) (s : State) : State :=
  let i := rf v 0 6
  let pos := rf v 6 3
  let idle := v.getLsbD 9
  match s.slices.find? fun x => x.idx == i with
  | none => bump Config.keepId 6 1 s
  | some x =>
    if rf v 10 22 ≠ 0 ∨ (!idle ∧ x.lessees.length ≤ pos) then bump Config.keepId 6 1 s
    else { s with meter := { s.meter with notices := s.meter.notices ++ [(i, if idle then none else some pos)] } }

def execRunNotice (v : BitVec 32) (_ : BitVec 32) (s : State) : Res := .next (if s.keepLive then runNotice v s else s)

/-! ### METER_CONFIG (08 R289, R291) -/

/-- Names the ring; what waited goes there. -/
def nameRing (h kib : Nat) (s : State) : State :=
  let s := openRing (handleIdx h) kib s
  drainBacklog { s with meter := { s.meter with ring := some (handleIdx h) } }

/-- Installs a metering key: a replacement commits at once and the old half is kept to the interval's end. -/
def installMeterKey (k : BitVec 256) (s : State) : Option State :=
  match s.meter.slot with
  | some i => some (commitSwap i (s.onKey i (writeNext k)))
  | none => (freeSlot s true).map fun i =>
    { firstKey i 0xD 0 true k s with meter := { s.meter with slot := some i, fresh := true } }

def meterGen (s : State) : Nat :=
  match s.meter.slot with
  | some i => (s.key i).gen
  | none => 0

/-- The configuration once its slot can take a key (06 R198). -/
def meterConfig (t : Taken) (s : State) : State :=
  let h := opnd t.e 0 4
  let kib := opnd t.e 4 4
  let sess := opnd t.e 8 4
  if sess = 0 then (let s := nameRing h kib s; done t (le 4 (meterGen s)) s)
  else match kwUnwrap (keyOf (hkdfExpand (Config.spdmExport sess (tget {} s.host.spdm sess).fresh) (ascii "yk3 meter key") 32)) (opBytes t.e 16 40) with
  | none => failCmd t yeTagFail s
  | some k => takeKey t (fun s =>
    match installMeterKey (keyOf k) s with
    | none => failCmd t yeQuota s
    | some s => let s := nameRing h kib s; done t (le 4 (meterGen s)) s) s

/-- The metering slot takes no key now. -/
def meterBusy (s : State) : Bool := s.meter.slot.any fun i => (s.key i).state != 1 || s.meter.fresh

def bodyMeterConfig : Body := fun t _ _ s =>
  let h := opnd t.e 0 4
  let kib := opnd t.e 4 4
  let sess := opnd t.e 8 4
  let o := s.obj (handleIdx h)
  if h = 0 ∨ !handleLive s h then failCmd t yeStale s
  else if o.cls ≠ 4 ∨ o.part ≠ 0xFF then failCmd t yeDenied s
  else if kib < 64 ∨ o.tiles * 8 < kib then failCmd t yeLength s
  else if sess ≠ 0 ∧ !sessionUp s sess then failCmd t yeDenied s
  else if sess ≠ 0 ∧ meterBusy s then keepRunning t 1 s
  else meterConfig t s

def execMeterConfig (q : Nat) (e : BitVec 1024) (rc : BitVec 16) (inp : List (BitVec 8)) (s : State) : Res :=
  .next (takeCmd 0x0830 bodyMeterConfig q e rc inp s)

/-- A configuration that waited for its slot goes on. -/
def settleMeter (s : State) : State :=
  each (runningWith s 0x0830 1) (fun t s => if meterBusy s then s else meterConfig t s) s

end Sys2Proof.Machine
end

