-- ==== Sys2Proof/Machine/Partition.lean ====
section
/-! DEFINITION. Partitions, the slice map and its epochs, freezes, and the removal of a tenant (08 R255 to R267, R278,
R284 to R286). -/

namespace Sys2Proof.Machine
open Sys2Proof Sys2Proof.Crypto

/-- Slots a partition owns. -/
def slotsOf (s : State) (part : Nat) : List Nat :=
  (s.keys.filter fun k => k.2.state != 0 && !k.2.keepOwn && k.2.owner == part).map (·.1)
/-- Objects of a partition. -/
def objsOf (s : State) (part : Nat) : List Nat :=
  (s.objs.filter fun o => o.2.part == part && o.2.state != 0 && o.2.state != 4).map (·.1)
/-- Contexts of a partition. -/
def ctxsOf (s : State) (part : Nat) : List Nat := (s.ctxs.filter fun c => c.2.state != 0 && c.2.part == part).map (·.1)
def isTenant (part : Nat) : Bool := decide (part < 0xFF)

/-! ### Creation (08 R255, R257) -/

/-- The record of a new partition; its metering interval is the one under way. -/
def newPart (s : State) (state policy : Nat) (warm : Bool) (dig : Bytes) (v c : Nat) : Part :=
  { state := state, policy := policy, warm := warm, migDigest := dig, verSlot := v, trcSlot := c, pmr := zeros 48, meterSince := s.meter.startAt }

/-- The lowest Free partition. -/
def freePart (s : State) : Option Nat := seek (fun i => (s.part i).state == 0) 255 0
/-- The two lowest slots for a partition's version and trace keys (06 R192). -/
def freePair (s : State) : Option (Nat × Nat) :=
  match freeSlot s false with
  | none => none
  | some a => (nextSlot s a).map fun b => (a, b)

/-- Creates a partition in a state with fresh version and trace keys, or fails the command. -/
def makePart (t : Taken) (state policy : Nat) (warm : Bool) (dig : Bytes) (k : Nat → State → State) (s : State) : State :=
  match freePart s, freePair s with
  | some p, some (a, b) =>
    if !canDraw s 0 then waitDraw t s
    else
      let (v, s) := draw0 s
      let (c, s) := draw0 s
      takeKey t (fun s => k p ((firstKey b 0xB p false c (firstKey a 2 p false v s)).onPart p fun _ => newPart s state policy warm dig a b)) s
  | _, _ => failCmd t yeQuota s

/-- PART_CREATE. -/
def bodyPartCreate : Body := fun t _ _ s =>
  let policy := opnd t.e 0 1
  let flags := opnd t.e 1 1
  if ¬ (policy = 0 ∨ policy = 1 ∨ policy = 9) ∨ 1 < flags then failCmd t yeDenied s
  else makePart t 1 policy (flags == 1) (opBytes t.e 16 48) (fun p s => done t (le 1 p) s) s

def execPartCreate (q : Nat) (e : BitVec 1024) (rc : BitVec 16) (inp : List (BitVec 8)) (s : State) : Res :=
  .next (takeCmd 0x0801 bodyPartCreate q e rc inp s)

/-! ### Freeze and thaw (08 R278, 03 R101) -/

/-- Every station has confirmed a partition's freeze. -/
def partFrozen (s : State) (part : Nat) : Bool :=
  Config.memIds.all fun st => (s.memSt st).frzParts.contains part && !((s.memSt st).reqs.any fun r => isWrite r.kind && r.part == part)

/-- PART_FREEZE commands whose freeze is confirmed complete; a removal fails them. -/
def settleFreezes (s : State) : State :=
  each (s.taken.filter fun t => t.phase == 2 && envOpcode t.e == 0x0804) (fun t s =>
    let p := t.aux - 1
    if (s.part p).state = 5 ∨ (s.part p).state = 0 then failCmd t yeKey s
    else if (s.part p).state = 1 then failCmd t yeDenied s
    else if partFrozen s p then done t [] s else s) s

/-- PART_FREEZE. -/
def bodyPartFreeze : Body := fun t _ _ s =>
  let p := opnd t.e 0 1
  if !isTenant p ∨ (s.part p).state ≠ 1 then failCmd t yeDenied s
  else keepRunning t (p + 1) (tdispError p (issue 0 p (s.onPart p fun x => { x with state := 3, frozenIn := true })))

def execPartFreeze (q : Nat) (e : BitVec 1024) (rc : BitVec 16) (inp : List (BitVec 8)) (s : State) : Res :=
  .next (takeCmd 0x0804 bodyPartFreeze q e rc inp s)

/-- Clears the Bear freeze cause on every station, whose descriptors of the partition's regions are refetched (03 R74). -/
def thawPart (p : Nat) (s : State) : State :=
  { s with mem := tmap (fun _ m => { m with
      frzParts := without m.frzParts p, descs := m.descs.filter fun oi => (s.obj oi).part != p }) s.mem }

/-- PART_THAW. -/
def bodyPartThaw : Body := fun t _ _ s =>
  let p := opnd t.e 0 1
  if (s.part p).state ≠ 3 then failCmd t yeDenied s
  else done t [] (thawPart p (s.onPart p fun x => { x with state := 1 }))

def execPartThaw (q : Nat) (e : BitVec 1024) (rc : BitVec 16) (inp : List (BitVec 8)) (s : State) : Res :=
  .next (takeCmd 0x0805 bodyPartThaw q e rc inp s)

/-! ### Slice maps (08 R258, R259) -/

/-- Reads a slice record; `none` when a field is out of range or a reserved one is not zero. -/
def sliceOf (s : State) (b : Bytes) : Option Slice :=
  let n := ofLe (cut 1 1 b)
  let ls := (List.range n).map fun i => ofLe (cut (24 + i) 1 b)
  let chans := ofLe (cut 8 8 b)
  let ports := ofLe (cut 16 4 b)
  let cores := ofLe (cut 32 32 b)
  if 63 < ofLe (cut 0 1 b) ∨ n = 0 ∨ 8 < n ∨ cut 2 6 b ≠ zeros 6 ∨ cut 20 4 b ≠ zeros 4 ∨ cut (24 + n) (8 - n) b ≠ zeros (8 - n) ∨
      2 ^ 18 ≤ ports ∨ chans = 0 ∨ cores = 0 ∨ !ls.eraseDups.length == n ∨
      !(ls.all fun p => isTenant p && [1, 2, 3, 4].contains (s.part p).state) then none
  else some { idx := ofLe (cut 0 1 b), chans := BitVec.ofNat 64 chans, ports := BitVec.ofNat 32 ports, cores := BitVec.ofNat 256 cores,
              lessees := ls.map some, running := if n = 1 then some 0 else none }

/-- No index twice, and no channel, port or core in two slices. -/
def slicesApart : List Slice → Bool
  | [] => true
  | x :: r => r.all (fun y => x.idx != y.idx && (x.chans &&& y.chans) == 0 && (x.ports &&& y.ports) == 0 && (x.cores &&& y.cores) == 0) &&
      slicesApart r

/-- Reads a map that passes R259. -/
def mapOf (s : State) (b : Bytes) : Option (List Slice) :=
  let n := ofLe (cut 0 2 b)
  let v := (List.range n).map fun i => sliceOf s (cut (16 + 64 * i) 64 b)
  if cut 2 14 b ≠ zeros 14 ∨ v.any Option.isNone then none
  else if slicesApart (v.filterMap id) then some (v.filterMap id) else none

/-- Whether a slice contains a station's channel or port. -/
def inSlice (u : Nat) (x : Slice) : Bool := (isMem u && x.chans.getLsbD u) || (isLink u && x.ports.getLsbD (u - 0x80))

/-- The lease record of a station under a map (03 R73). -/
def leaseOf (epoch : BitVec 16) (map : List Slice) (u : Nat) : Lease :=
  match map.find? (inSlice u) with
  | some x => { epoch := epoch, slice := some x.idx, parts := x.lessees.filterMap id }
  | none => { epoch := epoch }

def leases (map : List Slice) (u part : Nat) : Bool := map.any fun x => inSlice u x && x.lessees.contains (some part)

/-- The map would take a station from under a handoff (08 R267). -/
def breaksHandoff (s : State) (map : List Slice) : Bool :=
  s.handoffs.any fun h =>
    let oi := if h.offerer then h.obj else h.landing
    (if h.offerer then decide (h.state ≤ 3) else h.state == 1 || h.state == 2) &&
      (linkFor s h.part h.peer :: (s.obj oi).places.map (·.st)).any fun u => leases s.slices u h.part && !leases map u h.part

/-! ### Epochs (08 R263 to R267) -/

/-- What a partition leases, as a re-binding changes it. -/
def binding (map : List Slice) (part : Nat) : List (Nat × BitVec 64 × BitVec 32 × BitVec 256) :=
  (map.filter fun x => x.lessees.contains (some part)).map fun x => (x.idx, x.chans, x.ports, x.cores)

/-- Installs a map as the next epoch on every station in one control clock (08 R264). -/
def installMap (map : List Slice) (s : State) : State :=
  let e := s.epoch + 1
  let now := s.now
  let old := s.slices
  let changed := (List.range 255).filter fun p => binding old p != binding map p
  let s := chargeNow s
  let s := each stationIds (fun u s => s.onPort u fun p => { p with drain := some p.cur, cur := leaseOf e map u }) s
  let s := { s with epoch := e, slices := map, oldSlices := old, epochDraining := true, epochAt := now }
  let s := each changed tdispError s
  each (s.ctxs.filter fun c => c.2.state == 1) (fun c s => raiseEvent c.1 e.toNat 0x02 0 0 s) s

/-- A COMPOSE whose turn has come checks its map and installs it. -/
def composeNow (t : Taken) (b : Bytes) (s : State) : State :=
  match mapOf s b with
  | none => failCmd t yeDenied s
  | some map =>
    if opnd t.e 12 2 ≠ s.epoch.toNat then failCmd t yeDenied s
    else if breaksHandoff s map then failCmd t yeFrozen s
    else let s := installMap map s; done t (le 2 s.epoch.toNat) s

/-- COMPOSE commands wait while an epoch drains, and install in the order taken (08 R266). -/
def settleCompose (s : State) : State :=
  each (runningWith s 0x0803 1) (fun t s => if s.epochDraining then s else composeNow t t.inp s) s

/-- COMPOSE. -/
def bodyCompose : Body := fun t rc inp s =>
  let len := opnd t.e 10 2
  readIn t (opnd t.e 0 4) (opnd t.e 4 5) len rc (fun s =>
    let n := ofLe (cut 0 2 inp)
    if n = 0 ∨ 64 < n ∨ len ≠ 16 + 64 * n then failCmd t yeLength s
    else settleCompose (holdResult t 1 (fit len inp) s)) s

def execCompose (q : Nat) (e : BitVec 1024) (rc : BitVec 16) (inp : List (BitVec 8)) (s : State) : Res :=
  .next (takeCmd 0x0803 bodyCompose q e rc inp s)

/-- The draining epoch retires: every station clears its record (08 R265). -/
def retireEpoch (s : State) : State :=
  settleCompose { each stationIds (fun u s => s.onPort u fun p => { p with drain := none }) s with epochDraining := false, oldSlices := [] }

/-- Every station counts the draining epoch at zero (03 R98). -/
def epochDrained (s : State) : Bool :=
  let e := s.epoch - 1
  (s.mem.all fun m => !(m.2.reqs.any fun r => r.epoch == e)) &&
  (s.link.all fun l => !(l.2.waiting.any fun r => r.epoch == e && !r.resp && r.engine != 4096 && r.wire != 0xC1) &&
    !(l.2.trackers.any fun t => t.2.epoch == e && t.2.engine != 4096))

/-- EPOCH_DRAIN_COMPLETE. -/
def execEpochDrainComplete (s : State) : Res := .next (if s.keepLive ∧ s.epochDraining ∧ epochDrained s then retireEpoch s else s)

/-- EPOCH_DRAIN_TIMEOUT: 5 ms after the install the keep cuts the drain in every station. -/
def epochTimeout (s : State) : State :=
  if s.keepLive ∧ s.epochDraining ∧ s.epochAt + Config.ms 5 ≤ s.now then retireEpoch (each stationIds epochCut s) else s

def execEpochDrainTimeout (s : State) : Res := .next (epochTimeout s)

/-! ### Removal (08 R284, R285) -/

/-- Steps 1 to 3 of a removal. -/
def startRemoval (part : Nat) (s : State) : State :=
  let s := if (s.dom part).state = 4 then sendLeave part s else s
  let s := each (s.handoffs.filter fun h => h.part == part) (abandonHandoff yeHandoff) s
  let s := tdispError part s
  let s := if (s.dom part).state = 0 then s else endMembership part 5 s
  let plain := (objsOf s part).filter fun i => (s.obj i).cls == 4
  let s := each plain (issue 3) s
  let s := each (slotsOf s part) (fun i s => retireSlot i (Config.ms 2) s) s
  let s := s.onPart part fun p => { p with state := 5, removeAt := s.now, drainEnd := none, destroying := false }
  let mine (t : Taken) : Bool := (s.ctx (s.queue t.q).ctx).part == part
  let waits (t : Taken) : Bool := t.phase == 2 && (envOpcode t.e == 0x0401 || (envOpcode t.e == 0x0820 && t.aux == 0)) &&
    (s.obj (handleIdx (opnd t.e 0 4))).part == part
  let s := each (runningWith s 0x0811 (part + 1)) (fun t s => failCmd t yeKey s) s
  each (s.taken.filter fun t => (t.phase == 1 && mine t) || waits t) (fun t s => failCmd t yeKey s) s

/-- No station holds work under the partition's keys. -/
def partDrained (s : State) (part : Nat) : Bool := (slotsOf s part).all (slotDrained s)

/-- The cut of a removal's drain in every station (08 Table 8.11). -/
def cutPart (part : Nat) (s : State) : State :=
  let plain := (objsOf s part).filter fun i => (s.obj i).cls == 4
  let s := each (slotsOf s part) (fun i s => each (holders (s.key i).cls) (fun st s => drainCut st i s) s) s
  each Config.memIds (fun st s => cutReqs st yeKey (fun r => plain.contains (handleIdx r.handle.toNat)) s) s

/-- PARTITION_REMOVAL_DRAIN_END. -/
def removalDrainEnd (part : Nat) (s : State) : State :=
  let p := s.part part
  let stop (s : State) : State := s.onPart part fun p => { p with drainEnd := some s.now }
  if ¬ s.keepLive ∨ p.state ≠ 5 ∨ p.drainEnd.isSome then s
  else if partDrained s part then stop s
  else if p.removeAt + Config.ms 2 ≤ s.now then stop (cutPart part s)
  else s

def execPartitionRemovalDrainEnd (part : Nat) (s : State) : Res := .next (removalDrainEnd part s)

/-- Commands whose fence a removal signals: PART_REMOVE, MIGRATE_FINISH, MIGRATE_ABORT. -/
def removalCmds (s : State) (part : Nat) : List Taken :=
  s.taken.filter fun t => t.phase == 2 && [0x0802, 0x0814, 0x0815].contains (envOpcode t.e) && t.aux == part + 1

/-- The queues of a partition's contexts, with what is left of their commands. -/
def clearQueues (part : Nat) (s : State) : State :=
  let cs := ctxsOf s part
  let qs := (s.queues.filter fun q => q.2.state != 0 && cs.contains q.2.ctx).map (·.1)
  let s := each (s.taken.filter fun t => qs.contains t.q) (fun t s => failCmd t yeKey s) s
  let s := cancelOps (fun _ o => cs.contains o.ctx) s
  let s := each (s.profs.filter fun p => p.2.queue.any qs.contains) (fun p s => unbindProf p.1 s) s
  { s with queues := s.queues.filter fun q => !qs.contains q.1 }

/-- The partition loses its leases and its positions in the installed maps (08 R260). -/
def clearLeases (part : Nat) (s : State) : State :=
  let off (l : Lease) : Lease := { l with parts := without l.parts part }
  let vac (x : Slice) : Slice := { x with lessees := x.lessees.map fun y => if y = some part then none else y }
  { each stationIds (fun u s => s.onPort u fun p => { p with cur := off p.cur, drain := p.drain.map off }) s with
    slices := s.slices.map vac, oldSlices := s.oldSlices.map vac }

/-- Step 6: the fence signals, every record goes, and the partition is Free. -/
def finishRemoval (part : Nat) (s : State) : State :=
  let s := each (removalCmds s part) (fun t s => done t [] s) s
  let s := each (s.accs.filter fun a => (s.obj (handleIdx a.2.handle.toNat)).part == part || (s.ctx a.2.ctx).part == part) (fun a s =>
    freeAcc a.1 (if a.2.state = 1 then fenceFail a.2.fence yeKey 0 s else fenceComplete a.2.fence s)) s
  let s := { s with arrivals := s.arrivals.filter fun a => a.2.part != part }
  let s := clearQueues part (each (objsOf s part) freeObject s)
  let s := unjoin part s
  let s := clearLeases part (chargeNow s)
  let p := s.part part
  let m : MeterEnd := { part := part, since := p.meterSince, until_ := s.now, frozen := p.frozenIn, lengthened := p.lengthened, meter := p.meter }
  { thawPart part s with
    parts := tdel s.parts part, doms := tdel s.doms part, migs := tdel s.migs part,
    handoffs := s.handoffs.filter (fun h => h.part != part),
    meter := { s.meter with finals := s.meter.finals ++ [m] } }

/-- A removal ends once every half is destroyed (06 R204). -/
def settleRemoval (part : Nat) (s : State) : State :=
  let p := s.part part
  if p.state = 5 ∧ p.destroying ∧ (slotsOf s part).isEmpty then finishRemoval part s else s

/-- PARTITION_REMOVAL_FLIGHT_EXPIRY: 200 µs after the drain the slots are destroyed and the regions crypto-erased. -/
def flightExpiry (part : Nat) (s : State) : State :=
  let p := s.part part
  match p.drainEnd with
  | none => s
  | some t =>
    if ¬ s.keepLive ∨ p.state ≠ 5 ∨ p.destroying ∨ s.now < t + Config.us 200 then s
    else
      let s := s.onPart part fun p => { p with destroying := true }
      let s := each (objsOf s part) freeObject s
      let s := each (slotsOf s part) (fun i s => if (s.key i).purging = 0 then startPurge i 1 s else s) s
      settleRemoval part s

def execPartitionRemovalFlightExpiry (part : Nat) (s : State) : Res := .next (flightExpiry part s)

/-- A removal at keep start, without a drain (08 R257). -/
def removeAtStart (part : Nat) (s : State) : State :=
  let s := each (objsOf s part) freeObject s
  finishRemoval part (each (slotsOf s part) (fun i s => s.onKey i fun k => { gen := k.gen }) s)

/-- PART_REMOVE. -/
def bodyPartRemove : Body := fun t _ _ s =>
  let p := opnd t.e 0 1
  if !isTenant p ∨ (s.part p).state = 0 then failCmd t yeDenied s
  else if (s.part p).state = 5 then failCmd t yeKey s
  else startRemoval p (keepRunning t (p + 1) s)

def execPartRemove (q : Nat) (e : BitVec 1024) (rc : BitVec 16) (inp : List (BitVec 8)) (s : State) : Res :=
  .next (takeCmd 0x0802 bodyPartRemove q e rc inp s)

end Sys2Proof.Machine
end

