-- ==== Sys2Proof/Machine/Objects.lean ====
section
/-! DEFINITION. Memory objects: placement, allocation, ownership and retirement (09 R316 to R322). -/

namespace Sys2Proof.Machine
open Sys2Proof Sys2Proof.Crypto

/-! ### What a channel holds already, in units of 32 bytes (02 R55, 09 R318, R319) -/

/-- A run of a channel: first unit and length. -/
abbrev Run := Nat × Nat

def meets (a b : Run) : Bool := decide (a.1 < b.1 + b.2) && decide (b.1 < a.1 + a.2)

/-- Tile and header runs of a placement. -/
def placeRuns (cls : Nat) (p : Place) : List Run := [(256 * p.first, 256 * p.count), (p.hdr, hdrUnits cls * p.count)]

/-- Runs of a channel that are taken: every region's tiles and headers, and the version line area. -/
def takenRuns (s : State) (st : Nat) : List Run :=
  (65536 * s.keep.vlBase.getD st 0, 65536) ::
    (s.objs.filter fun o => o.2.state != 0 && o.2.state != 4).flatMap fun o =>
      (o.2.places.filter fun p => p.st == st).flatMap (placeRuns o.2.cls)

/-- Units of a channel: 2^20 tiles. -/
def chanUnits : Nat := 2 ^ 28

/-- A run of whole tiles that covers `r`. -/
def wholeTiles (r : Run) : Run := (r.1 / 256 * 256, (r.1 + r.2 + 255) / 256 * 256 - r.1 / 256 * 256)

/-- The lowest free run of `n` whole tiles: it starts at 0 or where a taken run ends. -/
def freeRun (used : List Run) (n : Nat) : Option Nat :=
  let u := used.map wholeTiles
  let ok (a : Nat) : Bool := decide (a + 256 * n ≤ chanUnits) && u.all fun r => !meets (a, 256 * n) r
  ((0 :: u.map fun r => r.1 + r.2).filter ok).foldl (fun (m : Option Nat) a => some (match m with
    | some b => min a b
    | none => a)) none

/-! ### Placement (04 R108, 09 R319) -/

/-- Tiles of the j-th of S stations. -/
def tilesOn (n stations j : Nat) : Nat :=
  let f := n / 16
  16 * ((f + stations - 1 - j) / stations) + (if f % stations = j then n % 16 else 0)

/-- Whether a partition holds a lease on a station in the current epoch; the operator partition passes everywhere. -/
def leasesNow (s : State) (part st : Nat) : Bool := part == 0xFF || (s.port st).cur.parts.contains part

/-- The entries an allocation takes on a station.  DESIGN CHOICE (log 135): 02 Table 2.10 gives a placement one first entry,
so its `n` entries stand in a row; the lowest such run is taken, and where free entries are many but nowhere `n` in a row
they are short in the sense of 02 R57. -/
def freeEntries (s : State) (st n : Nat) : Option Nat :=
  let m := s.memSt st
  let free (e : Nat) : Bool := decide (e < 32768) && !vrtAlloc (m.entry e) && !m.withheld.contains e
  if n = 0 then some 0
  else ((0 :: (m.vrt.map (·.1) ++ m.withheld).map (· + 1)).filter fun e => (List.range n).all fun i => free (e + i)).foldl
    (fun (m : Option Nat) a => some (match m with
      | some b => min a b
      | none => a)) none

/-- Places one station's tiles automatically. -/
def autoPlace (s : State) (cls st count : Nat) : Option Place :=
  let used := takenRuns s st
  match freeRun used count with
  | none => none
  | some a =>
    match freeRun ((a, 256 * count) :: used) ((hdrUnits cls * count + 255) / 256) with
    | none => none
    | some h => some { st := st, first := a / 256, count := count, hdr := h }

/-- Automatic placement over the candidates: a code, or the placements. -/
def autoPlaces (s : State) (part cls n : Nat) (mask : BitVec 64) : Nat ⊕ List Place :=
  let cand := Config.memIds.filter fun st => leasesNow s part st && (mask == 0 || mask.getLsbD st)
  let k := min cand.length ((n + 15) / 16)
  if k = 0 then .inl yeDenied
  else
    let v := (cand.take k).zipIdx.map fun x => autoPlace s cls x.1 (tilesOn n k x.2)
    if v.any Option.isNone then .inl yeQuota else .inr (v.filterMap id)

/-- Reads a placement record (09 Table 9.20). -/
def placeRec (b : Bytes) : Option Place :=
  let f := ofLe (cut 4 4 b)
  let c := ofLe (cut 8 4 b)
  let h := ofLe (cut 12 4 b)
  if cut 1 3 b ≠ zeros 3 ∨ 2 ^ 20 ≤ f ∨ 2 ^ 21 ≤ c ∨ 2 ^ 28 ≤ h then none
  else some { st := ofLe (cut 0 1 b), first := f, count := c, hdr := h }

/-- No two runs of one list meet. -/
def apart : List Run → Bool
  | [] => true
  | r :: t => t.all (fun x => !meets r x) && apart t

/-- Explicit placement: the checks of R319 in order. -/
def listPlaces (s : State) (part cls n : Nat) (mask : BitVec 64) (b : Bytes) : Nat ⊕ List Place :=
  let sts := Config.memIds.filter fun st => mask.getLsbD st
  let k := sts.length
  let v := (List.range k).map fun i => placeRec (cut (16 * i) 16 b)
  let ps := v.filterMap id
  let inside (r : Run) : Bool := decide (r.1 + r.2 ≤ chanUnits)
  if k = 0 ∨ v.any Option.isNone ∨ ps.map (·.st) ≠ sts ∨ (n + 15) / 16 < k ∨ mask ≠ BitVec.ofNat 64 (sts.map (2 ^ ·)).sum then .inl yeDenied
  else if !(ps.all fun p => (placeRuns cls p).all inside && apart (placeRuns cls p) &&
      (placeRuns cls p).all fun r => (takenRuns s p.st).all fun x => !meets r x) then .inl yeDenied
  else if !(ps.zipIdx.all fun x => x.1.count == tilesOn n k x.2) then .inl yeDenied
  else if !(ps.all fun p => leasesNow s part p.st) then .inl yeDenied
  else .inr ps

/-- Gives each placement its entries, or says that they are short. -/
def withEntries (s : State) (cls : Nat) (ps : List Place) : Nat ⊕ List Place :=
  let v := ps.map fun p => (freeEntries s p.st (linesOf cls p.count)).map fun e => { p with entry := if cls = 2 ∨ cls = 3 then e else 0 }
  if v.any Option.isNone then .inl yeQuota else .inr (v.filterMap id)

/-! ### Allocation -/

/-- The lowest free memory-object index (09 R316, R454). -/
def freeObj (s : State) : Option Nat := seek (fun i => (s.obj i).state == 0) 1048575 1

/-- What an allocation asks for. -/
structure Alloc where
  part : Nat
  owners : List Nat
  cls : Nat
  n : Nat
  measured : Bool := false
  kind : Nat := 0
  label : Nat := 0

/-- The fixed headers of a counted-fine placement's tiles, which the keep writes once, here (02 R40). -/
def fineHeaders (p : Place) (s : State) : State :=
  each (List.range p.count) (fun k s =>
    emit (.chanWrite p.st 0 (32 * (p.hdr + hdrUnits 3 * k)) (header [] 8192 0 0)) (bump p.st 8 32 s)) s

/-- A region at placements, under a fresh key, its lines at Normal and version (0, 0). -/
def installRegion (a : Alloc) (oi slot : Nat) (ps : List Place) (s : State) : State :=
  let s := if a.cls = 4 then s else (let (k, s) := draw0 s; firstKey slot 1 a.part (a.part == 0xFF) k s)
  let s := s.onObj oi fun o => {
    state := 1, cls := a.cls, part := a.part, measured := a.measured, gen := o.gen, owners := a.owners, tiles := a.n,
    keySlot := if a.cls = 4 then 0 else slot, kind := a.kind, label := a.label, places := ps,
    loadGen := if a.cls = 1 then 1 else 0, loading := a.cls == 1, meas := if a.measured then 2 else 0 }
  if a.cls = 2 ∨ a.cls = 3 then
    each ps (fun p s => each (placeEntries a.cls p) (fun e s => newLine p.st e (a.cls == 3) a.part s) (if a.cls = 3 then fineHeaders p s else s)) s
  else s

/-- What an allocation comes to; `poison` says that the region's key fails its verification (06 R199). -/
inductive AllocResult where
  | fail (code : Nat)
  | wait
  | poison
  | ok (oi : Nat) (s : State)

/-- Allocates at placements already checked; it waits while a station it writes lines or headers on is Safe (03 R104). -/
def allocAt (a : Alloc) (ps : List Place) (s : State) : AllocResult :=
  match withEntries s a.cls ps with
  | .inl c => .fail c
  | .inr ps =>
    match freeObj s, (if a.cls = 4 then some 0 else freeSlot s (a.part == 0xFF)) with
    | some oi, some slot =>
      if (a.cls ≠ 4 ∧ !canDraw s 0) ∨ ((a.cls = 2 ∨ a.cls = 3) ∧ ps.any fun p => s.isSafe p.st) then .wait
      else if a.cls ≠ 4 ∧ s.keep.verifyBad then .poison
      else .ok oi (installRegion a oi slot ps s)
    | _, _ => .fail yeQuota

def handleOf (s : State) (oi : Nat) : Nat := (s.obj oi).gen * 2 ^ 20 + oi

/-- OBJ_ALLOC's operand checks that come before the placement (09 R319; 08 Table 8.2). -/
def allocBad (s : State) (t : Taken) : Nat :=
  let p := s.part (s.partOf t)
  let cls := opnd t.e 0 1
  let flags := opnd t.e 1 1
  let kind := opnd t.e 2 1
  let measure := flags % 2 == 1
  if p.state = 3 ∨ p.state = 4 then yeFrozen
  else if cls = 0 ∨ 4 < cls ∨ 3 < flags ∨ (measure ∧ ¬ (1 ≤ kind ∧ kind ≤ 3)) ∨ (!measure ∧ kind ≠ 0) ∨ (measure ∧ cls ≠ 1) then yeDenied
  else if opnd t.e 16 4 = 0 then yeLength
  else 0

/-- OBJ_ALLOC. -/
def bodyObjAlloc : Body := fun t rc inp s =>
  let part := s.partOf t
  let flags := opnd t.e 1 1
  let mask := BitVec.ofNat 64 (opnd t.e 8 8)
  let a : Alloc := { part := part, owners := [(s.queue t.q).ctx], cls := opnd t.e 0 1, n := opnd t.e 16 4,
                     measured := flags % 2 == 1, kind := opnd t.e 2 1, label := opnd t.e 4 2 }
  let place (v : Nat ⊕ List Place) (s : State) : State :=
    match v with
    | .inl c => failCmd t c s
    | .inr ps =>
      match allocAt a ps s with
      | .fail c => failCmd t c s
      | .wait => if a.cls ≠ 4 ∧ !canDraw s 0 then waitDraw t s else holdResult t 2 inp s
      | .poison => failCmd t yePoison (keyFails s)
      | .ok oi s => done t (le 4 (handleOf s oi) ++ le 1 ps.length) s
  if allocBad s t ≠ 0 then failCmd t (allocBad s t) s
  else if flags / 2 % 2 = 1 then
    if mask = 0 then failCmd t yeDenied s
    else readIn t (opnd t.e 20 4) (opnd t.e 24 5) (16 * popc mask) rc (fun s => place (listPlaces s part a.cls a.n mask inp) s) s
  else place (autoPlaces s part a.cls a.n mask) s

/-- Allocations that a Safe station held back try again. -/
def settleAllocs (s : State) : State := each (runningWith s 0x0920 2) (fun t s => bodyObjAlloc t 0 t.inp s) s

def execObjAlloc (q : Nat) (e : BitVec 1024) (rc : BitVec 16) (inp : List (BitVec 8)) (s : State) : Res :=
  .next (takeCmd 0x0920 bodyObjAlloc q e rc inp s)

/-! ### Ownership (09 R320) and the record (Table 9.18) -/

/-- A context gives up an object; the last owner dooms it (09 R322). -/
def dropOwner (c oi : Nat) (s : State) : State :=
  s.onObj oi fun o =>
    if !o.owners.contains c then o
    else { o with owners := without o.owners c, state := if o.state = 1 ∧ (without o.owners c).isEmpty then 2 else o.state }

/-- OBJ_FREE: the command itself refers to the object until it completes. -/
def bodyObjFree : Body := fun t _ _ s =>
  let oi := handleIdx (opnd t.e 0 4)
  if opnd t.e 0 4 = 0 then failCmd t yeStale s
  else
    let s := dropOwner (s.queue t.q).ctx oi s
    retireObject oi (done t (le 1 (s.obj oi).state) s)

def execObjFree (q : Nat) (e : BitVec 1024) (rc : BitVec 16) (inp : List (BitVec 8)) (s : State) : Res :=
  .next (takeCmd 0x0921 bodyObjFree q e rc inp s)

/-- OBJ_SHARE. -/
def bodyObjShare : Body := fun t _ _ s =>
  let oi := handleIdx (opnd t.e 0 4)
  let c := opnd t.e 4 2
  let o := s.obj oi
  if opnd t.e 0 4 = 0 then failCmd t yeStale s
  else if (s.ctx c).state ≠ 1 ∨ (s.ctx c).part ≠ o.part ∨ o.owners.contains c then failCmd t yeDenied s
  else done t [] (s.onObj oi fun o => { o with owners := o.owners ++ [c] })

def execObjShare (q : Nat) (e : BitVec 1024) (rc : BitVec 16) (inp : List (BitVec 8)) (s : State) : Res :=
  .next (takeCmd 0x0922 bodyObjShare q e rc inp s)

/-- Bytes 0 to 63 of an object's record. -/
def objBytes (s : State) (oi : Nat) : Bytes :=
  let o := s.obj oi
  let flags := (if o.measured then 1 else 0) + (if o.landing then 2 else 0) + (if o.frozen then 4 else 0)
  le 1 o.state ++ le 1 o.cls ++ le 1 o.part ++ le 1 flags ++ le 2 o.gen ++ le 2 o.owners.length ++ le 4 (refsOf s oi) ++ le 4 o.tiles ++
    le 2 o.keySlot ++ le 1 o.places.length ++ le 1 o.kind ++ le 2 o.label ++ le 2 0 ++ le 8 (o.places.map (2 ^ ·.st)).sum ++
    le 4 (if o.places.isEmpty then 0 else oi) ++ le 4 0 ++ le 8 o.loadGen ++ zeros 16

/-- OBJ_QUERY. -/
def bodyObjQuery : Body := fun t _ _ s =>
  if opnd t.e 0 4 = 0 then failCmd t yeStale s else done t ((objBytes s (handleIdx (opnd t.e 0 4))).take 48) s

def execObjQuery (q : Nat) (e : BitVec 1024) (rc : BitVec 16) (inp : List (BitVec 8)) (s : State) : Res :=
  .next (takeCmd 0x0923 bodyObjQuery q e rc inp s)

/-! ### Retirement (09 R322) -/

/-- OBJECT_RETIRE. -/
def execObjectRetire (obj : Nat) (s : State) : Res := .next (if s.keepLive then retireObject obj s else s)

/-- PLAIN_REGION_DRAIN_CUT: at 2 ms the drain of a plain region is cut; its entries and index become free. -/
def plainCut (oi : Nat) (s : State) : State :=
  let o := s.obj oi
  let due := match o.cutAt with
    | some t => decide (t ≤ s.now)
    | none => false
  if o.cls ≠ 4 ∨ o.state ≠ 3 then s
  else if plainDrained s oi then freeObject oi s
  else if due then freeObject oi (each o.places (fun p s => cutReqs p.st yeKey (fun r => handleIdx r.handle.toNat == oi) s) s)
  else s

def execPlainRegionDrainCut (obj : Nat) (s : State) : Res := .next (if s.keepLive then plainCut obj s else s)

end Sys2Proof.Machine
end

