-- ==== Sys2Proof/Machine/Contexts.lean ====
section
/-! DEFINITION. Contexts and queues: their creation, closing and abandoning (09 R299, R300, R325, R326). -/

namespace Sys2Proof.Machine
open Sys2Proof Sys2Proof.Crypto

/-! ### Creation (09 Table 9.24) -/

/-- A ring of a context or queue: the code that refuses its address, or 0 (09 R327). -/
def ringAddrBad (s : State) (device : Bool) (part addr bytes : Nat) : Nat :=
  if !device then (if addr % 4096 ≠ 0 then yeDenied else 0)
  else
    let h := addr % 2 ^ 32
    let off := addr / 2 ^ 32
    let o := s.obj (handleIdx h)
    if !handleLive s h then yeStale
    else if o.cls ≠ 2 ∨ o.part ≠ part ∨ off % 4096 ≠ 0 ∨ o.tiles * 8192 < off + bytes then yeDenied
    else 0

def partUsable (s : State) (part : Nat) : Bool := part == 0xFF || ((s.part part).state != 0 && (s.part part).state != 5)

/-- CTX_CREATE. -/
def bodyCtxCreate : Body := fun t _ _ s =>
  let part := opnd t.e 0 1
  let kind := opnd t.e 1 1
  let size := opnd t.e 2 1
  let vec := opnd t.e 4 2
  let ring := opnd t.e 8 8
  if !partUsable s part ∨ 1 < kind ∨ 12 < size ∨ 2048 ≤ vec then failCmd t yeDenied s
  else
    let bad := ringAddrBad s (kind == 1) part ring (16 * 2 ^ (size + 4))
    if bad ≠ 0 then failCmd t bad s
    else match lowFree s.ctxs 1 4095 with
    | none => failCmd t yeQuota s
    | some c =>
      let x : Ctx := { state := 1, device := kind == 1, part := part, ring := BitVec.ofNat 64 ring, size := size, vector := vec }
      done t (le 2 c) { s with ctxs := tset s.ctxs c x }

def execCtxCreate (q : Nat) (e : BitVec 1024) (rc : BitVec 16) (inp : List (BitVec 8)) (s : State) : Res :=
  .next (takeCmd 0x0901 bodyCtxCreate q e rc inp s)

/-- QUEUE_CREATE; a secure queue needs an interface of its partition in RUN (09 R300). -/
def bodyQueueCreate : Body := fun t _ _ s =>
  let c := opnd t.e 0 2
  let size := opnd t.e 2 1
  let flags := opnd t.e 3 1
  let x := s.ctx c
  let ring := opnd t.e 8 8
  let res := opnd t.e 16 8
  let run := s.host.tdisp.any fun i => i.2.state == 2 && i.2.part == some x.part
  if x.state ≠ 1 ∨ 12 < size ∨ 1 < flags ∨ (flags = 1 ∧ (x.device ∨ !run)) then failCmd t yeDenied s
  else
    let bad := ringAddrBad s x.device x.part ring (128 * 2 ^ (size + 4))
    let bad := if bad ≠ 0 then bad else ringAddrBad s x.device x.part res (64 * 2 ^ (size + 4))
    if bad ≠ 0 then failCmd t bad s
    else match lowFree s.queues 1 1023 with
    | none => failCmd t yeQuota s
    | some q =>
      let y : Queue := { state := 1, ctx := c, secure := flags == 1, ring := BitVec.ofNat 64 ring, res := BitVec.ofNat 64 res, size := size,
                         limit := opnd t.e 4 2 }
      done t (le 2 q) { s with queues := tset s.queues q y }

def execQueueCreate (q : Nat) (e : BitVec 1024) (rc : BitVec 16) (inp : List (BitVec 8)) (s : State) : Res :=
  .next (takeCmd 0x0910 bodyQueueCreate q e rc inp s)

/-- A queue goes, and a profile set bound to it with it. -/
def dropQueue (q : Nat) (s : State) : State :=
  let s := each (s.profs.filter fun p => p.2.queue == some q) (fun p s => unbindProf p.1 s) s
  { s with queues := tdel s.queues q }

/-- QUEUE_DESTROY. -/
def bodyQueueDestroy : Body := fun t _ _ s =>
  let q := opnd t.e 0 2
  if q = 0 ∨ (s.queue q).state = 0 ∨ (s.taken.any fun x => x.q == q) then failCmd t yeDenied s
  else done t [] (dropQueue q s)

def execQueueDestroy (q : Nat) (e : BitVec 1024) (rc : BitVec 16) (inp : List (BitVec 8)) (s : State) : Res :=
  .next (takeCmd 0x0911 bodyQueueDestroy q e rc inp s)

/-! ### Closing and abandoning (09 R325, R326) -/

/-- Commands that move data: they stop at their next boundary when their context is abandoned (09 R326). -/
def dataMovers : List Nat :=
  [0x0512, 0x0520, 0x0521, 0x0522, 0x0610, 0x0611, 0x0612, 0x0613, 0x0614, 0x0615, 0x0620, 0x0812, 0x0813, 0x0940]

def takenOf (s : State) (c : Nat) : List Taken := s.taken.filter fun t => (s.queue t.q).ctx == c

/-- The code with which a fence of an abandoned context fails. -/
def abandonCode (f : Fence) : Nat := if f.importers.isEmpty then yeAbandoned else yeProdAbandoned

/-- Step 1: what has not started, and what moves data, fails; the traffic it had not sent goes with it. -/
def abandonCmds (c : Nat) (s : State) : State :=
  each ((takenOf s c).filter fun t => t.phase == 1 || dataMovers.contains (envOpcode t.e)) (fun t s =>
    let f := envFence t.e
    let part := s.partOf t
    let s := { s with link := tmap (fun _ l => { l with
      waiting := l.waiting.filter fun r => !(r.fence == f && r.part == part && r.wire != 0 && !r.resp) }) s.link }
    failCmd t (abandonCode (s.fence f)) s) s

/-- A fence whose owner has let go of it is Free once it is complete and no importer remains (09 R310). -/
def tryFreeFence (i : Nat) (s : State) : State :=
  let f := s.fence i
  if f.freed ∧ f.importers.isEmpty ∧ f.state ≠ 2 then { s with fences := tdel s.fences i } else s

/-- Step 3: Pending fences fail, imports end, and fences become Free as R310 allows. -/
def abandonFences (c : Nat) (s : State) : State :=
  let own := (s.fences.filter fun f => f.2.state != 0 && f.2.owner == c).map (·.1)
  let imp := (s.fences.filter fun f => f.2.importers.contains c).map (·.1)
  let s := each own (fun i s =>
    let s := if (s.fence i).state = 2 then fenceFail i (abandonCode (s.fence i)) 0 s else s
    s.onFence i fun f => { f with freed := true }) s
  let s := each imp (fun i s => s.onFence i fun f => { f with importers := without f.importers c }) s
  each (own ++ imp) tryFreeFence s

/-- Steps 2 to 4, once no command of the context is left. -/
def tearDown (c : Nat) (s : State) : State :=
  let s := cancelOps (fun _ o => o.ctx == c) s
  let s := each (s.arrivals.filter fun a => a.2.ctx == c) (fun a s => freeArrival a.1 s) s
  let s := each (s.accs.filter fun a => a.2.ctx == c && a.2.state == 1) (fun a s => closeAcc a.1 s) s
  let s := abandonFences c s
  let mine := (s.objs.filter fun o => o.2.owners.contains c).map (·.1)
  let alone := (mine.filter fun i => (s.obj i).owners == [c]).map (handleOf s)
  let s := each mine (fun i s => retireObject i (dropOwner c i s)) s
  s.onCtx c fun x => { x with torn := true, dropping := alone }

/-- The commands that end a context: CTX_ABANDON and CTX_CLOSE. -/
def closers (s : State) (c : Nat) : List Taken :=
  s.taken.filter fun t => t.phase == 2 && (envOpcode t.e == 0x0902 || envOpcode t.e == 0x0903) && t.aux == c

/-- Step 5. -/
def releaseCtx (c : Nat) (s : State) : State :=
  let s := each ((s.queues.filter fun q => q.2.state != 0 && q.2.ctx == c).map (·.1)) dropQueue s
  let v := closers s c
  let s := raiseEvent 0 0 0x08 0 c { s with ctxs := tdel s.ctxs c }
  each v (fun t s => done t [] s) s

/-- An object of an earlier handle is gone. -/
def handleGone (s : State) (h : Nat) : Bool := let o := s.obj (handleIdx h); o.gen != handleGen h || o.state == 0 || o.state == 4

/-- The next step of a context that is being abandoned. -/
def settleCtx (c : Nat) (s : State) : State :=
  if (s.ctx c).state ≠ 3 then s
  else
    let s := if !(s.ctx c).torn && (takenOf s c).isEmpty then tearDown c s else s
    if !(s.ctx c).torn then s
    else
      let s := each (s.accs.filter fun a => a.2.ctx == c && a.2.state == 2 && accDrained s a.1) (fun a s =>
        retireObject (handleIdx a.2.handle.toNat) (freeAcc a.1 s)) s
      let s := each (s.ctx c).dropping (fun h s => retireObject (handleIdx h) s) s
      if (s.ctx c).dropping.all (handleGone s) then releaseCtx c s else s

/-- A context becomes Abandoning. -/
def abandonCtx (c : Nat) (s : State) : State :=
  settleCtx c (abandonCmds c (s.onCtx c fun x => { x with state := 3, torn := false, dropping := [] }))

/-- The context a CTX_CLOSE or CTX_ABANDON may not name. -/
def closeBad (s : State) (t : Taken) (c : Nat) : Bool := c == 0 || (s.ctx c).state == 0 || (s.queue t.q).ctx == c

/-- CTX_ABANDON. -/
def bodyCtxAbandon : Body := fun t _ _ s =>
  let c := opnd t.e 0 2
  if closeBad s t c ∨ (s.ctx c).state = 3 then failCmd t yeDenied s
  else abandonCtx c (keepRunning t c s)

def execCtxAbandon (q : Nat) (e : BitVec 1024) (rc : BitVec 16) (inp : List (BitVec 8)) (s : State) : Res :=
  .next (takeCmd 0x0902 bodyCtxAbandon q e rc inp s)

/-- CTX_CLOSE: the fence signals when the close is done. -/
def bodyCtxClose : Body := fun t _ _ s =>
  let c := opnd t.e 0 2
  if closeBad s t c ∨ (s.ctx c).state ≠ 1 then failCmd t yeDenied s
  else keepRunning t c (s.onCtx c fun x => { x with state := 2 })

def execCtxClose (q : Nat) (e : BitVec 1024) (rc : BitVec 16) (inp : List (BitVec 8)) (s : State) : Res :=
  .next (takeCmd 0x0903 bodyCtxClose q e rc inp s)

/-- CTX_CLOSE_COMPLETE: every command of a Closing context has completed. -/
def closeComplete (c : Nat) (s : State) : State :=
  if s.keepLive ∧ (s.ctx c).state = 2 ∧ (takenOf s c).isEmpty then abandonCtx c s else s

def execCtxCloseComplete (ctx : Nat) (s : State) : Res := .next (closeComplete ctx s)

end Sys2Proof.Machine
end

