-- ==== Sys2Proof/Machine/Fences.lean ====
section
/-! DEFINITION. Fences, work on the cores, and the waits of taken commands (09 R307 to R314). -/

namespace Sys2Proof.Machine
open Sys2Proof Sys2Proof.Crypto

/-- NOP. -/
def bodyNop : Body := fun t _ _ s => done t [] s
def execNop (q : Nat) (e : BitVec 1024) (rc : BitVec 16) (inp : List (BitVec 8)) (s : State) : Res :=
  .next (takeCmd 0x0900 bodyNop q e rc inp s)

/-! ### Fence commands (09 R309, R310) -/

/-- FENCE_ALLOC: the lowest free index, or the one the command itself was taken on (log 40). -/
def bodyFenceAlloc : Body := fun t _ _ s =>
  if t.aux = 1 then done t (le 2 (envFence t.e)) s
  else match freeFence s with
  | none => failCmd t yeQuota s
  | some i => done t (le 2 i) (s.onFence i fun _ => { state := 1, owner := (s.queue t.q).ctx })

def execFenceAlloc (q : Nat) (e : BitVec 1024) (rc : BitVec 16) (inp : List (BitVec 8)) (s : State) : Res :=
  .next (takeCmd 0x0930 bodyFenceAlloc q e rc inp s)

def ownsFence (s : State) (t : Taken) (i : Nat) : Bool := (s.fence i).state != 0 && !(s.fence i).freed && (s.fence i).owner == (s.queue t.q).ctx

/-- The owner lets a fence go. -/
def letGo (i : Nat) (s : State) : State := tryFreeFence i (s.onFence i fun f => { f with freed := true })

/-- FENCE_FREE: of a Pending fence it waits until the fence completes, except for its own (09 R309). -/
def bodyFenceFree : Body := fun t _ _ s =>
  let i := opnd t.e 0 2
  if !ownsFence s t i then failCmd t yeDenied s
  else if i = envFence t.e then letGo i (done t [] s)
  else if (s.fence i).state = 2 then keepRunning t (i + 1) s
  else done t [] (letGo i s)

def execFenceFree (q : Nat) (e : BitVec 1024) (rc : BitVec 16) (inp : List (BitVec 8)) (s : State) : Res :=
  .next (takeCmd 0x0931 bodyFenceFree q e rc inp s)

/-- Frees that waited for their fence to complete. -/
def settleFences (s : State) : State :=
  each (s.taken.filter fun t => t.phase == 2 && envOpcode t.e == 0x0931 && t.aux != 0) (fun t s =>
    if (s.fence (t.aux - 1)).state = 2 then s else done t [] (letGo (t.aux - 1) s)) s

/-- FENCE_SHARE. -/
def bodyFenceShare : Body := fun t _ _ s =>
  let i := opnd t.e 0 2
  let c := opnd t.e 2 2
  let own := (s.queue t.q).ctx
  let same := (s.ctx c).part == (s.ctx own).part || isOperatorCtx (s.ctx c)
  if !ownsFence s t i ∨ (s.ctx c).state ≠ 1 ∨ c = own ∨ !same ∨ (s.fence i).importers.contains c then failCmd t yeDenied s
  else done t [] (s.onFence i fun f => { f with importers := f.importers ++ [c] })

def execFenceShare (q : Nat) (e : BitVec 1024) (rc : BitVec 16) (inp : List (BitVec 8)) (s : State) : Res :=
  .next (takeCmd 0x0932 bodyFenceShare q e rc inp s)

/-- FENCE_RELEASE. -/
def bodyFenceRelease : Body := fun t _ _ s =>
  let i := opnd t.e 0 2
  let c := (s.queue t.q).ctx
  if (s.fence i).state = 0 ∨ !(s.fence i).importers.contains c then failCmd t yeDenied s
  else done t [] (tryFreeFence i (s.onFence i fun f => { f with importers := without f.importers c }))

def execFenceRelease (q : Nat) (e : BitVec 1024) (rc : BitVec 16) (inp : List (BitVec 8)) (s : State) : Res :=
  .next (takeCmd 0x0933 bodyFenceRelease q e rc inp s)

/-- A fence as Table 9.15 lays it out. -/
def fenceBytes (f : Fence) : Bytes :=
  le 1 f.state ++ le 1 ((if f.importers.isEmpty then 0 else 1) + (if f.inherited then 2 else 0)) ++ le 2 f.gen ++ le 2 f.owner ++
    le 2 f.importers.length ++ le 2 f.code ++ le 2 f.errors ++ le 4 f.seq ++ le 16 f.detail.toNat

/-- FENCE_QUERY, for the owner and the importers. -/
def bodyFenceQuery : Body := fun t _ _ s =>
  let i := opnd t.e 0 2
  let f := s.fence i
  let c := (s.queue t.q).ctx
  if f.state = 0 ∨ !(f.owner == c || f.importers.contains c) then failCmd t yeDenied s
  else done t (fenceBytes f) s

def execFenceQuery (q : Nat) (e : BitVec 1024) (rc : BitVec 16) (inp : List (BitVec 8)) (s : State) : Res :=
  .next (takeCmd 0x0934 bodyFenceQuery q e rc inp s)

/-- FENCE_FAILURE_REPORT (09 R312). -/
def execFenceFailureReport (fence part : Nat) (code : BitVec 16) (detail : BitVec 128) (s : State) : Res :=
  .next (if s.keepLive then fenceReport fence part code.toNat detail s else s)

/-! ### Work (09 R314) -/

/-- 64 control clocks in ticks, rounded up. -/
def workDelay : Nat := 6

/-- WORK_BEGIN: its completion fence is the work fence. -/
def bodyWorkBegin : Body := fun t _ _ s => keepRunning t 0 s
def execWorkBegin (q : Nat) (e : BitVec 1024) (rc : BitVec 16) (inp : List (BitVec 8)) (s : State) : Res :=
  .next (takeCmd 0x0940 bodyWorkBegin q e rc inp s)

/-- WORK_END: the WORK_BEGIN completes 64 control clocks later. -/
def bodyWorkEnd : Body := fun t _ _ s =>
  let i := opnd t.e 0 2
  match s.taken.find? fun x => x.phase == 2 && envOpcode x.e == 0x0940 && x.aux == 0 && envFence x.e == i with
  | none => failCmd t yeDenied s
  | some x => if !ownsFence s t i then failCmd t yeDenied s else done t [] (keepRunning x (s.now + workDelay + 1) s)

def execWorkEnd (q : Nat) (e : BitVec 1024) (rc : BitVec 16) (inp : List (BitVec 8)) (s : State) : Res :=
  .next (takeCmd 0x0941 bodyWorkEnd q e rc inp s)

/-- Work that has ended completes; what its requests reported is on its fence. -/
def settleWork (s : State) : State :=
  each (s.taken.filter fun t => t.phase == 2 && envOpcode t.e == 0x0940 && t.aux != 0) (fun t s =>
    if t.aux ≤ s.now + 1 then completeReported t [] s else s) s

/-- WORK_LIMIT_TIMEOUT. -/
def workTimeout (q seq : Nat) (s : State) : State :=
  match findTaken s q seq with
  | none => s
  | some t =>
    let limit := opnd t.e 0 4
    if envOpcode t.e = 0x0940 ∧ t.phase = 2 ∧ t.aux = 0 ∧ limit ≠ 0 ∧ t.startAt + Config.us limit ≤ s.now then failCmd t yeTimeout s else s

def execWorkLimitTimeout (q : Nat) (seq : BitVec 32) (s : State) : Res := .next (if s.keepLive then workTimeout q seq.toNat s else s)

/-! ### Waits (09 R306, R307) -/

/-- The wait limit of a queue has passed since a time. -/
def overLimit (s : State) (q t0 : Nat) : Bool := (s.queue q).limit != 0 && decide (t0 + Config.ms (s.queue q).limit ≤ s.now)

/-- COMMAND_WAIT_TIMEOUT: a wait that its fence has resolved is not timed out (09 Table 9.25). -/
def waitTimeout (q seq : Nat) (s : State) : State :=
  match findTaken s q seq with
  | none => s
  | some t => if t.phase = 1 ∧ overLimit s q t.takenAt then failCmd t yeTimeout s else s

def execCommandWaitTimeout (q : Nat) (seq : BitVec 32) (s : State) : Res := .next (if s.keepLive then waitTimeout q seq.toNat s else s)

/-- TAKE_PAUSE_TIMEOUT: the paused entry completes at once, and takes go on with the next. -/
def pauseTimeout (q : Nat) (s : State) : State :=
  let x := s.queue q
  match x.pausedAt with
  | none => s
  | some t0 =>
    if overLimit s q t0 ∧ (s.fence (envFence x.pausedE)).state = 2 then
      let n := 2 ^ (x.size + 4)
      let s := s.onQueue q fun y => { y with head := (y.head + 1) % n, nextSeq := (y.nextSeq + 1) % 2 ^ 32, pausedAt := none,
                                             pubs := y.pubs.dropWhile fun p => p.1 == (y.head + 1) % n }
      refuseTake q x.ctx x.head x.nextSeq yeTimeout x.pausedE (bump Config.keepId 2 1 s)
    else s

def execTakePauseTimeout (q : Nat) (s : State) : Res := .next (if s.keepLive then pauseTimeout q s else s)

end Sys2Proof.Machine
end

