-- ==== Sys2Proof/Machine/Migration.lean ====
section
/-! DEFINITION. Moving a partition between parts: the migration exchange, export, import, and their end (08 R279 to
R283); and the refusals and timeouts that admission and migration share (07 R234). -/

namespace Sys2Proof.Machine
open Sys2Proof Sys2Proof.Crypto

def State.mig (s : State) (part : Nat) : Mig := tget {} s.migs part
def State.onMig (s : State) (part : Nat) (f : Mig → Mig) : State :=
  { s with migs := tmap (fun i m => if i = part then f m else m) s.migs }

/-! ### The exchange (08 R279) -/

/-- The MIGRATE_START command of a source. -/
def startCmd (s : State) (part : Nat) : Option Taken := (runningWith s 0x0811 (part + 1)).head?

/-- The exchange ends without a migration: the source forgets it, a destination goes on waiting for an offer. -/
def dropMig (part code : Nat) (s : State) : State :=
  let m := s.mig part
  let s := if m.slot = 0 then s else retireSlot m.slot (Config.ms 2) s
  if m.source then
    let s := { s with migs := tdel s.migs part }
    match startCmd s part with
    | some t => failCmd t code s
    | none => s
  else s.onMig part fun m => { m with exch := none, slot := 0 }

/-- This side refuses the exchange. -/
def refuseMig (part num reason : Nat) (s : State) : State :=
  let s := outMig part (record 6 0 noDev noDev num [BitVec.ofNat 8 reason, 0, 0, 0]) s
  dropMig part (if reason = 0x0B then yeTimeout else yeDenied) (messageFail part (refusalEvent part num reason s))

/-- The first record of a migration's inbox, when it is of the row's type. -/
def withMig (type part : Nat) (k : Rec → State → State) (s : State) : State :=
  match (s.mig part).inbox with
  | raw :: rest =>
    match recOf raw with
    | some r =>
      let pop := s.onMig part fun m => { m with inbox := rest }
      if (messageOf s part).isNone then pop
      else if r.type ≠ type then s
      else if type ≠ 6 && !(canDraw s 0 && canDraw s 1) then messageWaits part s
      else k r pop
    | none => s.onMig part fun m => { m with inbox := rest }
  | [] => s

/-- What the peer's bundle must show. -/
def migExpect (s : State) (part : Nat) (nonce : Bytes) : Expect :=
  let m := s.mig part
  { nonce := nonce, policy := policyFor [] (s.part part).migDigest, ueid := if m.ueid = zeros 32 then [] else m.ueid }

/-- The migration key enters a slot of the partition (06 class 0x06). -/
def migKey (part slot : Nat) (x : Exch) (s : State) : State := firstKey slot 6 part false (exchKey "yk3 mig" 0 0 0 x) s

/-- MIG_OFFER at the destination. -/
def takeMigOffer (part : Nat) (r : Rec) (s : State) : State :=
  if (s.mig part).source ∨ (s.mig part).exch.isSome then messageFail part s
  else
    let why := if r.body.length ≠ 1777 then 0x01
      else if cut 64 48 r.body ≠ (s.part part).migDigest then 0x07
      else if (s.mig part).ueid ≠ zeros 32 ∧ cut 32 32 r.body ≠ (s.mig part).ueid then 0x09
      else if !offerKeysOk r then 0x0A else 0
    if why ≠ 0 then refuseMig part r.num why s
    else
      let (x, s) := makeReply 8 0 0 0 0xFF r false s
      messageDone part 8 (outMig part x.a2 (s.onMig part fun m => { m with exch := some x }))

def execMigOffer (part : Nat) (s : State) : Res := .next (withMig 7 part (takeMigOffer part) s)

/-- MIG_REPLY at the source. -/
def takeMigReply (part : Nat) (r : Rec) (s : State) : State :=
  match (s.mig part).exch with
  | none => messageFail part s
  | some x =>
    if !(s.mig part).source ∨ x.phase ≠ 1 ∨ x.num ≠ r.num then messageFail part s
    else match replyBundle r with
    | none => refuseMig part r.num 0x01 s
    | some b =>
      let why := verifyBundle s (migExpect s part (sha384 x.a1)) b
      let s := keepCas b s
      if why ≠ 0 then refuseMig part r.num why s
      else if !replyKeysOk r then refuseMig part r.num 0x0A s
      else match freeSlot s false with
      | none => dropMig part yeQuota (messageFail part s)
      | some i =>
        if s.keep.verifyBad then refuseMig part r.num 0x0A (keyFails s) else
        let x := { parentKeys 0 0 0 r x with phase := 2, lastAt := s.now }
        let (b, s) := zeler part (sha384 (x.a1 ++ x.a2)) (migKey part i x s)
        let a3 := macRecord 9 0 noDev noDev x.num x.kcp (x.a1 ++ x.a2) (le 4 b.length ++ b)
        messageDone part 9 (outMig part a3 (s.onMig part fun m => { m with exch := some { x with a3 := a3 }, slot := i }))

def execMigReply (part : Nat) (s : State) : Res := .next (withMig 8 part (takeMigReply part) s)

/-- MIG_GRANT at the destination. -/
def takeMigGrant (part : Nat) (r : Rec) (s : State) : State :=
  match (s.mig part).exch with
  | none => messageFail part s
  | some x =>
    let e := ofLe (cut 0 4 r.body)
    if (s.mig part).source ∨ x.phase ≠ 1 ∨ x.num ≠ r.num then messageFail part s
    else if r.body.length ≠ 20 + e then refuseMig part r.num 0x01 s
    else
      let why := verifyBundle s (migExpect s part (sha384 (x.a1 ++ x.a2))) (cut 4 e r.body)
      let s := keepCas (cut 4 e r.body) s
      if why ≠ 0 then refuseMig part r.num why s
      else if s.keep.verifyBad then refuseMig part r.num 0x0A (keyFails s)
      else if !macOk x.kcp (x.a1 ++ x.a2) r.raw then refuseMig part r.num 0x0A s
      else match freeSlot s false with
      | none => refuseMig part r.num 0x0A s
      | some i =>
        let a4 := macRecord 10 0 noDev noDev x.num x.kcc (x.a1 ++ x.a2 ++ r.raw) []
        let s := migKey part i x s
        messageDone part 10 (outMig part a4 (s.onMig part fun m => { m with
          exch := some { x with a3 := r.raw, phase := 3, lastAt := s.now }, slot := i }))

def execMigGrant (part : Nat) (s : State) : Res := .next (withMig 9 part (takeMigGrant part) s)

/-- MIG_CONFIRM at the source: the partition is Exporting. -/
def takeMigConfirm (part : Nat) (r : Rec) (s : State) : State :=
  match (s.mig part).exch with
  | none => messageFail part s
  | some x =>
    if !(s.mig part).source ∨ x.phase ≠ 2 ∨ x.num ≠ r.num ∨ (s.part part).state ≠ 3 then messageFail part s
    else if r.body.length ≠ 16 ∨ !macOk x.kcc (x.a1 ++ x.a2 ++ x.a3) r.raw then refuseMig part r.num 0x0A s
    else
      let s := (s.onMig part fun m => { m with exch := none }).onPart part fun p => { p with state := 4 }
      let s := match startCmd s part with
        | some t => done t [] s
        | none => s
      messageDone part 0 s

def execMigConfirm (part : Nat) (s : State) : Res := .next (withMig 10 part (takeMigConfirm part) s)

/-! ### Refusals and timeouts -/

/-- A refusal record of a migration: its reason is in the event. -/
def takeMigRefuse (part : Nat) (r : Rec) (s : State) : State :=
  if r.body.length ≠ 4 then messageFail part s else dropMig part yeDenied (messageDone part 0 (refusalEvent part r.num (ofLe (cut 0 1 r.body)) s))

/-- ADMIT_REFUSE. -/
def execAdmitRefuse (part : Nat) (s : State) : Res :=
  .next (if (s.dom part).inbox.isEmpty then withMig 6 part (takeMigRefuse part) s else withRecord 6 part (takeRefuse part) s)

/-- A side of a migration has waited too long for the next record. -/
def migTimeout (part : Nat) (s : State) : State :=
  let m := s.mig part
  match m.exch with
  | none => s
  | some x =>
    let waits := if m.source then x.phase == 1 || x.phase == 2 else x.phase == 1
    if waits ∧ x.lastAt + Config.ms (policyFor [] (s.part part).migDigest).formMs ≤ s.now then refuseMig part x.num 0x0B s else s

/-- FORMATION_TIMEOUT; a migration's peer has no device ID. -/
def execFormationTimeout (part peer : Nat) (s : State) : Res :=
  .next (if !s.keepLive then s else if peer = noDev then migTimeout part s else formationTimeout part peer s)

/-! ### MIGRATE_PREPARE and MIGRATE_START -/

def bodyMigratePrepare : Body := fun t _ _ s =>
  let ring := opnd t.e 80 4
  let kib := opnd t.e 84 4
  let map := opnd t.e 88 4
  if ringBad s ring kib ≠ 0 then failCmd t (ringBad s ring kib) s
  else if map = 0 then failCmd t yeStale s
  else makePart t 2 0 false (opBytes t.e 32 48) (fun p s =>
    let m : Mig := { ueid := opBytes t.e 0 32, ring := handleIdx ring, mapObj := map }
    done t (le 1 p) { openRing (handleIdx ring) kib s with migs := tset s.migs p m }) s

def execMigratePrepare (q : Nat) (e : BitVec 1024) (rc : BitVec 16) (inp : List (BitVec 8)) (s : State) : Res :=
  .next (takeCmd 0x0810 bodyMigratePrepare q e rc inp s)

def bodyMigrateStart : Body := fun t _ _ s =>
  let p := opnd t.e 0 1
  let ring := opnd t.e 36 4
  let kib := opnd t.e 40 4
  let dig := (s.part p).migDigest
  if (s.part p).state ≠ 3 ∨ dig = zeros 48 ∨ (tfind s.migs p).isSome then failCmd t yeDenied s
  else if ringBad s ring kib ≠ 0 then failCmd t (ringBad s ring kib) s
  else if !canDraw s 0 || !canDraw s 1 then waitDraw t s
  else
    let (x, s) := makeOffer 7 0 noDev noDev s.aon.ueid dig false s
    let m : Mig := { source := true, ueid := opBytes t.e 4 32, ring := handleIdx ring, exch := some x }
    keepRunning t (p + 1) (outMig p x.a1 { openRing (handleIdx ring) kib s with migs := tset s.migs p m })

def execMigrateStart (q : Nat) (e : BitVec 1024) (rc : BitVec 16) (inp : List (BitVec 8)) (s : State) : Res :=
  .next (takeCmd 0x0811 bodyMigrateStart q e rc inp s)

/-! ### Export (08 R280, R281) -/

def migIv (type : Nat) (idx : Bytes) : Bytes := le 1 type ++ zeros 3 ++ idx
/-- An export record: header, sealed body, tag. -/
def exportRecord (key : BitVec 256) (type idx : Nat) (body : Bytes) : Bytes :=
  let h := le 1 type ++ zeros 3 ++ le 4 body.length ++ le 8 idx
  let (c, t) := gcmSeal key (migIv 0x4D (be 8 idx)) h body
  h ++ c ++ t
/-- The receipt over a record count (08 R282). -/
def receiptOf (key : BitVec 256) (count : Nat) : Bytes := (gcmSeal key (migIv 0x52 (le 8 count)) (ascii "yk3 mig done") []).2

/-- A tile as its station reads it for export: `what` is 0 for a tile, 1 for one whose unseal failed and 2 for a counted one whose
every slot is at version (0, 0) (08 R281). -/
structure TileAns where
  len : Nat
  fmt : Nat
  what : Nat
  data : Bytes

/-- A slot's version as its line gives it: the cached line, or what the stored one says, major times 4,096 plus minor. -/
def slotVersion (s : State) (p : Place) (line i stored : Nat) : Nat × Nat :=
  let m := s.memSt p.st
  let e := entryOf p line
  let l := (cachedLine m e).getD (setMinor { entry := e, major := stored / 4096 } i (stored % 4096))
  readVersion p line (m.entry e) l i

/-- One slot of the 8 KiB at channel tile `c`, under the key and version it stands in: the text with its length and format, nothing
where the unsealing fails. -/
def exportSlot (s : State) (o : Obj) (p : Place) (c i : Nat) (v : Nat × Nat) (hdr data : Bytes) : Option (Nat × Nat × Bytes) :=
  let k := c - p.first
  let u := tileIndex s p.st c
  let (line, j) := slotOf o.cls k i
  let e := (s.memSt p.st).entry (entryOf p line)
  let (slot, gen) := if o.cls = 1 then keyGenFor s o p k 0 1 else keyGenFor s o p line (vrtCursor e) j
  match halfOf (s.key slot) gen with
  | none => none
  | some key =>
    if o.cls = 1 then openTile key u (if gen = (s.key slot).gen + 1 then 1 else o.loadGen) (policyOf s o) hdr data
    else if vrtCond e = 3 then none
    else if o.cls = 3 then
      (openSector key u i (version v.1 v.2) (cut (512 * i) 512 data) (pairTag i (cut (32 + 32 * (i / 2)) 32 hdr))).map fun d => (512, 0, d)
    else openTile key u (version v.1 v.2) (policyOf s o) hdr data

/-- Bytes of one tile in the command's input: what the stations read from the channel.  Version words of 8 bytes, one for a coarse
tile and sixteen for a fine one; the header slot, unless the region is plain; the 8 KiB of the tile (log 52). -/
def tileBytes (cls : Nat) : Nat × Nat :=
  match cls with
  | 1 => (0, 32)
  | 2 => (8, 32)
  | 3 => (128, 288)
  | _ => (0, 0)

/-- Tile `k` of a region, unsealed in its own memory station (08 R281), and the bytes that follow it. -/
def exportTile (s : State) (o : Obj) (k : Nat) (b : Bytes) : Option (TileAns × Bytes) :=
  let (nv, nh) := tileBytes o.cls
  match placeTile o k with
  | none => none
  | some (p, c) =>
    let hdr := cut nv nh b
    let data := cut (nv + nh) 8192 b
    let ver (i : Nat) : Nat × Nat :=
      let x := slotOf o.cls (c - p.first) i
      slotVersion s p x.1 x.2 (ofLe (cut (8 * i) 8 b))
    let rest := b.drop (nv + nh + 8192)
    if b.length < nv + nh + 8192 then none
    else if o.cls = 4 then some (⟨8192, 0, 0, data⟩, rest)
    else if o.cls = 3 then
      let slots := (List.range 16).map fun i => if ver i = (0, 0) then some (zeros 512) else (exportSlot s o p c i (ver i) hdr data).map (·.2.2)
      if (List.range 16).all fun i => ver i == (0, 0) then some (⟨0, 0, 2, []⟩, rest)
      else if slots.any Option.isNone then some (⟨0, 0, 1, []⟩, rest)
      else some (⟨8192, 0, 0, (slots.filterMap id).flatten⟩, rest)
    else if o.cls = 2 ∧ ver 0 = (0, 0) then some (⟨0, 0, 2, []⟩, rest)
    else match exportSlot s o p c 0 (ver 0) hdr data with
    | some (l, f, d) => some (⟨l, f, 0, d⟩, rest)
    | none => some (⟨0, 0, 1, []⟩, rest)

/-- Body of a Tile record: the payload under the partition's policy. -/
def tileBody (policy i k : Nat) (a : TileAns) : Bytes :=
  if a.what = 1 then le 4 i ++ le 4 k ++ zeros 3 ++ [1] ++ zeros 4
  else
    let p := storedLen (classCode policy a.len) a.len
    le 4 i ++ le 4 k ++ le 2 a.len ++ le 1 a.fmt ++ [0] ++ zeros 4 ++ fit (align16 p) (fit p (a.data.take a.len))

/-- Body of a Region record. -/
def regionBody (i : Nat) (o : Obj) : Bytes :=
  le 4 i ++ le 1 o.cls ++ le 1 o.kind ++ le 2 o.label ++ le 4 o.tiles ++ zeros 4 ++ (if o.measured then fit 48 o.mr else zeros 48)

/-- Body of the Partition record. -/
def partBody (p : Part) (regions tiles : Nat) : Bytes :=
  le 1 p.policy ++ [if p.warm then 1 else 0, 0, 0] ++ le 4 regions ++ le 8 tiles ++ fit 48 p.pmr ++ fit 48 p.migDigest

/-- Writes records while they fit: the migration's progress and the bytes. -/
def exportLoop (s : State) (part : Nat) (key : BitVec 256) : Nat → Nat → Bytes → Mig → Bytes → Mig × Bytes
  | 0, _, _, m, out => (m, out)
  | f + 1, room, inp, m, out =>
    let put (type : Nat) (body : Bytes) (m' : Mig) (inp : Bytes) : Mig × Bytes :=
      let r := exportRecord key type m.nextRec body
      if room < r.length then (m, out) else exportLoop s part key f (room - r.length) inp { m' with nextRec := m.nextRec + 1 } (out ++ r)
    if m.done then (m, out)
    else if m.nextRec = 0 then
      put 1 (partBody (s.part part) m.regions.length m.wantTiles) m inp
    else match m.regions[m.at_.1]? with
    | none => put 4 (le 8 (m.nextRec + 1) ++ le 8 m.tiles ++ zeros 16) { m with done := true } inp
    | some oi =>
      let o := s.obj oi
      if m.at_.2 = 0 then put 2 (regionBody m.at_.1 o) { m with at_ := (m.at_.1, 1) } inp
      else if o.tiles < m.at_.2 then exportLoop s part key f room inp { m with at_ := (m.at_.1 + 1, 0) } out
      else match exportTile s o (m.at_.2 - 1) inp with
      | none => (m, out)
      | some (a, rest) =>
        let next : Mig := { m with at_ := (m.at_.1, m.at_.2 + 1) }
        if a.what = 2 then exportLoop s part key f room rest next out
        else put 3 (tileBody (s.part part).policy m.at_.1 (m.at_.2 - 1) a)
          { next with tiles := m.tiles + 1, lost := m.lost + (if a.what = 1 then 1 else 0) } rest

/-- The export begins: its regions, each with a queued reference, and the number of tiles that will be exported, which
the stations' version lines give as the first 8 bytes of the input. -/
def beginExport (part : Nat) (inp : Bytes) (s : State) : State × Bytes :=
  if (s.mig part).nextRec ≠ 0 then (s, inp)
  else
    let v := (objsOf s part).filter fun i => (s.obj i).state == 1
    let old := (s.mig part).regions
    let s := s.onMig part fun m => { m with regions := v, wantTiles := ofLe (inp.take 8), at_ := (0, 0), tiles := 0, lost := 0 }
    (if old.isEmpty then each v (fun i s => s.onObj i fun o => { o with refs := o.refs + 1 }) s else s, inp.drop 8)

/-- Export is background work: it pauses while the cipher clock is boosted or a station of the partition's regions is not Open
(01 R31). -/
def exportOk (s : State) (part : Nat) : Bool := (objsOf s part).all fun i => (s.obj i).places.all fun p => backgroundOk s p.st

def bodyMigrateExport : Body := fun t _ inp s =>
  let p := opnd t.e 0 1
  let h := opnd t.e 4 4
  let off := opnd t.e 8 5
  let len := opnd t.e 16 4
  let o := s.obj (handleIdx h)
  if (s.part p).state ≠ 4 ∨ o.part ≠ 0xFF then failCmd t yeDenied s
  else if h = 0 then failCmd t yeStale s
  else if o.tiles * 8192 < 8240 then failCmd t yeLength s
  else
    let a := objAccess s 0xFF h off len true
    if a ≠ 0 then failCmd t a s
    else if !exportOk s p then holdResult t 1 inp s
    else
      let (s, inp) := beginExport p inp s
      let m := s.mig p
      let (m', b) := exportLoop s p (s.key m.slot).cur (len + inp.length + m.regions.length + 2) len inp m []
      let s := s.onMig p fun _ => m'
      let s := if b.isEmpty then s else emit (.objWrite h off b) s
      done t (le 8 m'.nextRec ++ le 4 b.length ++ le 4 (m'.lost - m.lost) ++ [if m'.done then 1 else 0]) s

/-- Exports that paused go on. -/
def settleExports (s : State) : State :=
  each (runningWith s 0x0812 1) (fun t s => if exportOk s (opnd t.e 0 1) then bodyMigrateExport t 0 t.inp s else s) s

def execMigrateExport (q : Nat) (e : BitVec 1024) (rc : BitVec 16) (inp : List (BitVec 8)) (s : State) : Res :=
  .next (takeCmd 0x0812 bodyMigrateExport q e rc inp s)

/-! ### Import (08 R282) -/

/-- What one record comes to. -/
inductive Step where
  | ok (s : State)
  | fail (code : Nat) (s : State)
  | wait (s : State)

/-- A lost counted tile takes its first version with nothing written: its slots are Unreadable (02 Table 2.13). -/
def loseTile (oi k : Nat) (s : State) : State :=
  let o := s.obj oi
  match placeTile o k with
  | none => s
  | some (p, c) =>
    each ((List.range (if o.cls = 3 then 16 else 1)).map fun j => slotOf o.cls (c - p.first) j) (fun x s =>
      let e := entryOf p x.1
      match cachedLine (s.memSt p.st) e with
      | some l => s.onMem p.st fun m => putLine m { setMinor l x.2 1 with dirty := true }
      | none => askLine p.st e (s.onMem p.st fun m => { m with marks := (e, x.2) :: m.marks })) (s.onObj oi fun o => { o with written := true })

/-- The measurement of an imported region, from its leaves (04 R109, R110). -/
def importedMr (o : Obj) : Bytes :=
  let leaf (k : Nat) : Bytes := tget [] o.leaves k
  let nodes := (List.range (stripes o.tiles)).map fun i =>
    treeNode 1 i ((List.range (min 16 (o.tiles - 16 * i))).map fun j => leaf (16 * i + j))
  sha384 ([2, BitVec.ofNat 8 o.kind] ++ le 2 o.label ++ le 4 o.tiles ++ treeRoot 8 1 nodes)

/-- A Tile record: the tile is written under the fresh key and versions. -/
def importTile (part : Nat) (b : Bytes) (s : State) : Step :=
  let m := s.mig part
  let k := ofLe (cut 4 4 b)
  let l := ofLe (cut 8 2 b)
  let fmt := ofLe (cut 10 1 b)
  let flag := ofLe (cut 11 1 b)
  match m.regions[ofLe (cut 0 4 b)]? with
  | none => .fail yeDenied s
  | some oi =>
    let o := s.obj oi
    if o.tiles ≤ k ∨ 1 < flag ∨ cut 12 4 b ≠ zeros 4 then .fail yeDenied s
    else
      let s' := s.onMig part fun m => { m with tiles := m.tiles + 1 }
      if flag = 1 then (if o.cls = 1 then .fail yeTagFail s else if o.cls = 4 then .ok s' else .ok (loseTile oi k s'))
      else if l = 0 ∨ 8192 < l ∨ b.length ≠ 16 + align16 (storedLen (classCode (s.part part).policy l) l) then .fail yeLength s
      else
        let d := cut 16 l b
        let s' := emit (.tileWrite (handleOf s oi) k l fmt d) s'
        if o.measured then
          let s' := s'.onObj oi fun o => { o with leaves := tset o.leaves k (leafDigest k l fmt d) }
          let mr := importedMr (s'.obj oi)
          if k + 1 = o.tiles ∧ m.mrs.getD (ofLe (cut 0 4 b)) [] ≠ mr then .fail yeTagFail s
          else .ok (if k + 1 = o.tiles then s'.onObj oi fun o => { o with mr := mr } else s')
        else .ok s'

/-- A Region record: a region under a fresh key, owned by the importing command's context, and its handle in the map. -/
def importRegion (part ctx : Nat) (b : Bytes) (s : State) : Step :=
  let m := s.mig part
  let cls := ofLe (cut 4 1 b)
  let kind := ofLe (cut 5 1 b)
  let n := ofLe (cut 8 4 b)
  if cut 12 4 b ≠ zeros 4 ∨ ofLe (cut 0 4 b) ≠ m.regions.length ∨ cls = 0 ∨ 4 < cls ∨ n = 0 ∨ 3 < kind ∨ (kind ≠ 0 ∧ cls ≠ 1) then .fail yeDenied s
  else match autoPlaces s part cls n 0 with
  | .inl c => .fail c s
  | .inr ps =>
    let mapBad := objAccess s (s.obj (handleIdx m.mapObj)).part m.mapObj (4 * m.regions.length) 4 true
    if mapBad ≠ 0 then .fail mapBad s
    else match allocAt { part := part, owners := [ctx], cls := cls, n := n, measured := kind != 0, kind := kind, label := ofLe (cut 6 2 b) } ps s with
    | .fail c => .fail c s
    | .wait => .wait s
    | .poison => .fail yePoison (keyFails s)
    | .ok oi s =>
      let s := s.onObj oi fun o => { o with importing := cls == 1 }
      let s := emit (.objWrite m.mapObj (4 * m.regions.length) (le 4 (handleOf s oi))) s
      .ok (s.onMig part fun m => { m with regions := m.regions ++ [oi], mrs := m.mrs ++ [cut 16 48 b] })

/-- The Partition record: `lost` keeps the region count that it announces. -/
def importPart (part : Nat) (b : Bytes) (s : State) : Step :=
  let pol := ofLe (cut 0 1 b)
  let flags := ofLe (cut 1 1 b)
  if ¬ (pol = 0 ∨ pol = 1 ∨ pol = 9) ∨ 1 < flags ∨ cut 2 2 b ≠ [0, 0] then .fail yeDenied s
  else .ok ((s.onMig part fun m => { m with wantTiles := ofLe (cut 8 8 b), lost := ofLe (cut 4 4 b) }).onPart part fun p => { p with
    policy := pol, warm := flags == 1, pmr := cut 16 48 b, migDigest := cut 64 48 b })

/-- Applies the body of a record by its type; the End record checks the counts and ends the import. -/
def applyRecord (part ctx type idx : Nat) (b : Bytes) (s : State) : Step :=
  let m := s.mig part
  if (type = 1) ≠ (idx = 0) then .fail yeDenied s
  else match type with
  | 1 => if b.length = 112 then importPart part b s else .fail yeLength s
  | 2 => if b.length = 64 then importRegion part ctx b s else .fail yeLength s
  | 3 => importTile part b s
  | 4 =>
    if b.length ≠ 32 then .fail yeLength s
    else if cut 16 16 b ≠ zeros 16 ∨ ofLe (cut 0 8 b) ≠ idx + 1 ∨ ofLe (cut 8 8 b) ≠ m.tiles ∨ m.tiles ≠ m.wantTiles ∨ m.regions.length ≠ m.lost then .fail yeDenied s
    else .ok ((retireSlot m.slot (Config.ms 2) s).onMig part fun m => { m with done := true })
  | _ => .fail yeDenied s

/-- The record at the head of the bytes: its checks, its unsealing and its effect (08 R282). -/
def importOne (part ctx : Nat) (key : BitVec 256) (b : Bytes) (s : State) : Step :=
  let idx := (s.part part).nextImport
  let len := ofLe (cut 4 4 b)
  if b.length < 32 + len ∨ len % 16 ≠ 0 then .fail yeLength s
  else if ofLe (cut 8 8 b) ≠ idx then .fail yeReplay s
  else match gcmOpen key (migIv 0x4D (be 8 idx)) (b.take 16) (cut 16 len b) (cut (16 + len) 16 b) with
  | none => .fail yeTagFail s
  | some body =>
    if cut 1 3 b ≠ zeros 3 then .fail yeDenied s
    else match applyRecord part ctx (ofLe (cut 0 1 b)) idx body s with
    | .ok s => .ok (s.onPart part fun p => { p with nextImport := idx + 1 })
    | .fail c s => .fail c s
    | .wait s => .wait s

/-- Applies records in order: how many, and where it stopped. -/
def importLoop (part ctx : Nat) (key : BitVec 256) : Nat → Nat → Bytes → State → Nat × Step
  | 0, n, _, s => (n, .ok s)
  | f + 1, n, b, s =>
    if b.isEmpty ∨ (s.mig part).done then (n, .ok s)
    else match importOne part ctx key b s with
    | .ok s => importLoop part ctx key f (n + 1) (b.drop (32 + ofLe (cut 4 4 b))) s
    | .fail c s => (n, .fail c s)
    | .wait s => (n, .wait s)

def bodyMigrateImport : Body := fun t rc inp s =>
  let p := opnd t.e 0 1
  let len := opnd t.e 16 4
  let m := s.mig p
  let phase := (m.exch.map (·.phase)).getD 0
  if (s.part p).state ≠ 2 ∨ phase ≠ 3 then failCmd t yeDenied s
  else readIn t (opnd t.e 4 4) (opnd t.e 8 5) len rc (fun s =>
    let key := (s.key m.slot).cur
    match importLoop p (s.queue t.q).ctx key (len / 32 + 1) 0 (fit len inp) s with
    | (_, .fail c s) => failCmd t c s
    | (_, .wait s) => waitDraw t s
    | (n, .ok s) =>
      let next := (s.part p).nextImport
      let res := le 4 n ++ le 8 next
      if (s.mig p).done then
        done t (res ++ receiptOf key next) ({ s with migs := tdel s.migs p }.onPart p fun x => { x with state := 1 })
      else done t res s) s

def execMigrateImport (q : Nat) (e : BitVec 1024) (rc : BitVec 16) (inp : List (BitVec 8)) (s : State) : Res :=
  .next (takeCmd 0x0813 bodyMigrateImport q e rc inp s)

/-- Imported sealed regions become Sealed when every tile has been written. -/
def settleImports (s : State) : State :=
  each (s.objs.filter fun o => o.2.importing && cursorsFull o.2) (fun o s =>
    leaveLoading o.1 (s.onObj o.1 fun o => { o with importing := false, meas := if o.measured then 3 else 0 })) s

/-! ### The end (08 R283) -/

def bodyMigrateFinish : Body := fun t _ _ s =>
  let p := opnd t.e 0 1
  let m := s.mig p
  if (s.part p).state ≠ 4 ∨ !m.done then failCmd t yeDenied s
  else if opBytes t.e 16 16 ≠ receiptOf (s.key m.slot).cur m.nextRec then failCmd t yeTagFail s
  else startRemoval p (keepRunning t (p + 1) s)

def execMigrateFinish (q : Nat) (e : BitVec 1024) (rc : BitVec 16) (inp : List (BitVec 8)) (s : State) : Res :=
  .next (takeCmd 0x0814 bodyMigrateFinish q e rc inp s)

def bodyMigrateAbort : Body := fun t _ _ s =>
  let p := opnd t.e 0 1
  let m := s.mig p
  if (s.part p).state = 4 then
    let s := each m.regions (fun i s => retireObject i (s.onObj i fun o => { o with refs := o.refs - 1 })) s
    let s := retireSlot m.slot (Config.ms 2) s
    done t [] ({ s with migs := tdel s.migs p }.onPart p fun x => { x with state := 3 })
  else if (s.part p).state = 2 then startRemoval p (keepRunning t (p + 1) s)
  else failCmd t yeDenied s

def execMigrateAbort (q : Nat) (e : BitVec 1024) (rc : BitVec 16) (inp : List (BitVec 8)) (s : State) : Res :=
  .next (takeCmd 0x0815 bodyMigrateAbort q e rc inp s)

end Sys2Proof.Machine
end

