-- ==== Sys2Proof/Machine/Faults.lean ====
section
/-! DEFINITION. Fault collection and tamper response: windows, clearing, thresholds, injection, the tamper sensors, the
safe state at a station, and the keepway's frames (10; 01 R18; 03 R104; 05 R168). -/

namespace Sys2Proof.Machine
open Sys2Proof Sys2Proof.Crypto

/-! ### Windows (10 R333) -/

/-- FAULT_WINDOW_CLOSE: a window that closes without reaching its threshold clears its count; a keepway node has a window
for each of its links (01 R18). -/
def windowClose (u src : Nat) (s : State) : State :=
  let close (w : Window) : Window := match w.closeAt with
    | some t => if t ≤ s.now then { w with count := 0, closeAt := none } else w
    | none => w
  { s with flt := { s.flt with windows := s.flt.windows.map fun x => if x.1.1 = u ∧ x.1.2 % 256 = src then (x.1, close x.2) else x } }

def execFaultWindowClose (unit : Nat) (src : BitVec 8) (s : State) : Res := .next (windowClose unit src.toNat s)

/-! ### Clearing (10 R341) -/

/-- A class on a unit that may be cleared: acknowledged, and every lasting condition of it has ended. -/
def mayClear (w : FaultWord) (c : Nat) : Bool := !w.unack.getLsbD (c - 1) && w.active.all fun a => a.2 != c

/-- FAULT_CLEAR: the classes that may be cleared are, also when another fails the command. -/
def bodyFaultClear : Body := fun t _ _ s =>
  let u := opnd t.e 0 1
  let m := opnd t.e 1 1
  if !isUnit u ∨ m % 2 = 1 ∨ 8 ≤ m then failCmd t yeDenied s
  else
    let w := s.word u
    let named := [2, 3].filter fun c => m / 2 ^ (c - 1) % 2 == 1
    let clear := named.filter fun c => mayClear w c
    let off : BitVec 4 := clear.foldl (fun a c => a ||| (1#4 <<< (c - 1))) 0
    let w' : FaultWord := { w with uncleared := w.uncleared &&& ~~~off }
    let s := { s with flt := { s.flt with words := tset s.flt.words u w' } }
    if named.any fun c => w'.uncleared.getLsbD (c - 1) then failCmd t yeDenied s
    else done t (le 1 w'.uncleared.toNat) s

def execFaultClear (q : Nat) (e : BitVec 1024) (rc : BitVec 16) (inp : List (BitVec 8)) (s : State) : Res :=
  .next (takeCmd 0x1001 bodyFaultClear q e rc inp s)

/-! ### Thresholds (10 R334, Table 10.3) -/

/-- Units of the kinds a source applies to. -/
def sourceUnits (src : Nat) : List Nat :=
  if src = 0x01 then stationIds
  else if src = 0x02 ∨ src = 0x08 ∨ src = 0x09 then Config.memIds
  else if src = 0x03 then Config.memIds ++ Config.linkIds
  else if 0x04 ≤ src ∧ src ≤ 0x07 then Config.linkIds
  else []

/-- N and W (in µs) lie in the ranges of Table 10.3. -/
def thresholdOk (src n w : Nat) : Bool :=
  let w10 := decide (100 ≤ w) && decide (w ≤ 10000)
  match src with
  | 0x01 => decide (4 ≤ n) && decide (n ≤ 64) && w10
  | 0x03 => (n == 0 || decide (64 ≤ n)) && w10
  | 0x04 => decide (4 ≤ n) && decide (n ≤ 1024) && w10
  | 0x05 => decide (4 ≤ n) && decide (n ≤ 1024) && w10
  | 0x06 => decide (4 ≤ n) && decide (n ≤ 1024) && w10
  | 0x07 => (n == 0 || decide (64 ≤ n)) && w10
  | 0x08 => (n == 0 || decide (16 ≤ n)) && decide (1000 ≤ w) && decide (w ≤ 100000)
  | _ => false

/-- FAULT_THRESHOLD: in force from the next window to open. -/
def bodyFaultThreshold : Body := fun t _ _ s =>
  let src := opnd t.e 0 1
  let u := opnd t.e 1 1
  let n := opnd t.e 2 2
  let w := opnd t.e 4 4
  let us := if u = 0xFF then sourceUnits src else (sourceUnits src).filter (· == u)
  if !thresholdOk src n w ∨ us.isEmpty then failCmd t yeDenied s
  else done t [] { s with flt := { s.flt with
    windows := us.foldl (fun ws u => setWin ws (u, src) { findWin ws (u, src) with n := some n, w := some (Config.us w) }) s.flt.windows } }

def execFaultThreshold (q : Nat) (e : BitVec 1024) (rc : BitVec 16) (inp : List (BitVec 8)) (s : State) : Res :=
  .next (takeCmd 0x1002 bodyFaultThreshold q e rc inp s)

/-! ### Policy and injection (10 R348, R349) -/

/-- Hold is not allowed in a Fielded part (10 Table 10.10b). -/
def policyAllowed (lc p : Nat) : Bool := decide (p ≤ 3) && (p != 0 || [1, 2, 3, 5].contains lc)

/-- HEDGEHOG_POLICY: raised until the next cold reset, never lowered. -/
def bodyHedgehogPolicy : Body := fun t _ _ s =>
  let p := opnd t.e 0 1
  if p < s.keep.policy ∨ !policyAllowed (lcCode s.aon) p then failCmd t yeDenied s
  else done t (le 1 p) { s with keep := { s.keep with policy := p } }

def execHedgehogPolicy (q : Nat) (e : BitVec 1024) (rc : BitVec 16) (inp : List (BitVec 8)) (s : State) : Res :=
  .next (takeCmd 0x1003 bodyHedgehogPolicy q e rc inp s)

/-- FAULT_INJECT: the result and the fence are in place before the fault acts. -/
def bodyFaultInject : Body := fun t _ _ s =>
  let u := opnd t.e 0 1
  let c := opnd t.e 1 1
  let lc := lcCode s.aon
  if lc = 4 ∨ lc = 6 ∨ !isUnit u ∨ c = 0 ∨ 5 < c then failCmd t yeDenied s
  else
    let s := done t (le 4 s.flt.logSeq) s
    if c = 5 then lockdown 9 0 s else faultAs u 0x28 c 0xFFFF 0 s

def execFaultInject (q : Nat) (e : BitVec 1024) (rc : BitVec 16) (inp : List (BitVec 8)) (s : State) : Res :=
  .next (takeCmd 0x1004 bodyFaultInject q e rc inp s)

/-! ### Tamper sensors (10 R346, R347; 14 R423) -/

/-- The cause code of the sensors that tripped, the lowest first (10 Table 10.9b). -/
def tripCause (v : BitVec 20) : Nat := ((List.range 5).find? fun k => (v.extractLsb' (4 * k) 4) != 0).getD 0 + 1

/-- HEDGEHOG_TRIP: while the cold input is low the voltage and clock sensors are masked. -/
def hedgehogTrip (sensors : BitVec 20) (s : State) : State :=
  let v := if s.aon.porLow then sensors &&& 0xFFF00 else sensors
  if v = 0 then s else lockdown (tripCause v) v s

def execHedgehogTrip (sensors : BitVec 20) (s : State) : Res := .next (hedgehogTrip sensors s)

/-! ### The safe state at a station (03 R104; 05 R168, R183) -/

/-- What a station in Safe does at the 100 ns bound: late committed writes are cut, open bundles close. -/
def safeStation (u : Nat) (s : State) : State :=
  if !s.isSafe u then s
  else if isMem u then safeMem u s
  else if isLink u then closeBundles u (fun _ => true) s
  else s

/-- Egress instances of which a packet was cut in emission break (05 R183); each is named as partition, peer times 2^8 and
space times 2^26. -/
def cutEmission (u : Nat) (cut : List Nat) (s : State) : State :=
  let named (c : Ctxt) : Bool := !c.ingress && c.state == 2 && cut.contains (c.part + 2 ^ 8 * c.peer + (if c.response then 2 ^ 26 else 0))
  if !isLink u || s.portState u != .safe then s
  else s.onLink u fun l => { l with ctxs := l.ctxs.map fun c => if named c then { c with state := 4 } else c }

/-- SAFE_STATE_ENTRY, with the instances whose packet was cut in emission. -/
def execSafeStateEntry (unit : Nat × List Nat) (s : State) : Res := .next (cutEmission unit.1 unit.2 (safeStation unit.1 s))

/-! ### Keepway frames (01 R18) -/

/-- A station whose frame with the stop or resume stamp was discarded waits for its repeat. -/
def stampLost (s : State) (u : Nat) : Bool :=
  let p := s.port u
  s.stop.inForce && isStation u &&
  (match s.stop.resume with
   | none => !p.stopped && p.stopAt.isNone
   | some _ => p.stopped && p.resumeAt.isNone)

/-- The window of a keepway link of a node, by the station at its other end, or, for a station on another die, that die's
node (01 R18). -/
def crcLink (node u : Nat) : Nat × Nat :=
  (node, 0x10 + 256 * (if 0xE0 + Config.dieOf u = node then u else 0xE0 + Config.dieOf u))

/-- KEEPWAY_CRC_ERROR: the frame between a node and a station is discarded and asked for again, with the stop or resume stamp
it carried; the node counts the event.  A second failure on the same link within 1 µs is the node's Fatal (01 R18). -/
def crcError (node u : Nat) (stamp : Bool) (s : State) : State :=
  if !isNode node || s.aon.phase != 1 then s else
  let s := if stamp && isStation u then s.onPort u fun p => { p with stopAt := none, resumeAt := none } else s
  let s := countFault node 0x10 (bump node 3 1 s)
  let w := findWin s.flt.windows (crcLink node u)
  let again := match w.closeAt with
    | some t => decide (s.now ≤ t)
    | none => false
  if again then
    raise node 0x10 4 true 2 0xFFFF (BitVec.ofNat 64 u)
      { s with flt := { s.flt with windows := setWin s.flt.windows (crcLink node u) { w with count := 0, closeAt := none } } }
  else { s with flt := { s.flt with windows := setWin s.flt.windows (crcLink node u) { w with count := 1, closeAt := some (s.now + Config.us 1) } } }

def execKeepwayCrcError (node : Nat) (frame : Nat × Bool) (s : State) : Res := .next (crcError node frame.1 frame.2 s)

/-! ### Notices (10 R339, R340) -/

/-- Sett acknowledges each Notice once its record is in the event log's queue, which clears it. -/
def settleNoticesSeen (s : State) : State :=
  if s.aon.phase ≠ 1 ∨ 65536 < s.flash.queue.length then s
  else { s with flt := { s.flt with words := tmap (fun _ w => { w with
    unack := w.unack &&& 0b1110#4, uncleared := w.uncleared &&& 0b1110#4 }) s.flt.words } }

end Sys2Proof.Machine
end

