-- ==== Sys2Proof/Machine/Stops.lean ====
section
/-! DEFINITION. The stop wave: stamps, what a stop finds at each station, stop records, and stops across a domain (11
R351 to R357; 01 R18). -/

namespace Sys2Proof.Machine
open Sys2Proof Sys2Proof.Crypto

/-! ### Stamps (11 R351, R357) -/

def onEveryPort (f : Port → Port) (s : State) : State := each stationIds (fun u s => s.onPort u f) s

/-- The keep sends the stop stamp to every station; the records of the last stop begin again. -/
def stampStop (id : BitVec 64) (domain : Bool) (part tick : Nat) (s : State) : State :=
  onEveryPort (fun p => { p with stopAt := some tick, resumeAt := none, stop := {} })
    { s with stop := { inForce := true, id := id, domain := domain, part := part, tick := tick, ever := true } }

/-- The keep sends the resume stamp. -/
def stampResume (tick : Nat) (s : State) : State :=
  onEveryPort (fun p => { p with resumeAt := some tick }) { s with stop := { s.stop with resume := some tick } }

/-- One Marker on the response space of every stream whose ordered egress context is resident and Open, in ascending
peer (11 R355). -/
def sendMarkers (u : Nat) (s : State) : State :=
  let open_ := (s.linkSt u).ctxs.filter fun c => !c.ingress && !c.response && c.state == 2
  let open_ := open_.foldl (fun (t : Tab (List Ctxt)) c => tupd [] t c.peer (· ++ [c])) []
  each (open_.map (·.2)).flatten (fun c s =>
    (sendResp u c.part c.peer 0xC4 0 0 (le 8 s.stop.id.toNat) s).onPort u fun p => { p with
      stop := { p.stop with markersSent := p.stop.markersSent + 1 } }) s

/-- A station applies the stop stamp (11 Table 11.1, Table 11.2). -/
def applyStop (u tick : Nat) (late : Bool) (s : State) : State :=
  let safe := s.isSafe u
  let s := if isLink u then closeBundles u (fun _ => true) s else s
  let s := s.onPort u fun p => { p with
    stopAt := none, stopped := true,
    stop := { p.stop with late := late, safeAt := safe, lastIntake := p.intake, lastTag := p.lastTag, tick := tick } }
  if isLink u then sendMarkers u s else s

/-- Ingress packets held, or the re-seal cursor and its pause (11 Table 11.2). -/
def heldNow (s : State) (u : Nat) : Nat :=
  if isLink u then (s.linkSt u).held.length
  else if isMem u then
    match (s.memSt u).reseal.head? with
    | some x => vrtCursor ((s.memSt u).entry x.1) + 2 ^ 31
    | none => 0
  else 0

/-- A station applies the resume stamp, and goes on with what it held; one that is Safe stays Safe. -/
def applyResume (u : Nat) (s : State) : State :=
  let n := heldNow s u
  let s := s.onPort u fun p => { p with resumeAt := none, stopped := false, stop := { p.stop with held := n } }
  if isMem u then pump u s else if isLink u then linkPump u s else s

/-- Every station has applied the stop stamp: the commands that wait for it signal. -/
def stopSettled (s : State) : State :=
  if s.stop.inForce && s.stop.resume.isNone && stationIds.all (fun u => (s.port u).stopped) then
    each (s.taken.filter fun t => t.phase == 2 && envOpcode t.e == 0x1101)
      (fun t s => done t (le 8 s.stop.id.toNat ++ le 8 s.stop.tick) s) s
  else s

/-- Every station has left Stopped: the stop ends, beat timeouts restart from zero, and STOP_RESUME signals. -/
def resumeSettled (s : State) : State :=
  if s.stop.inForce && s.stop.resume.isSome && stationIds.all (fun u => !(s.port u).stopped) then
    let r := s.stop.resume.getD 0
    let s := { s with
      stop := { s.stop with inForce := false },
      doms := tmap (fun _ d => { d with beatRx := tmap (fun _ _ => s.now) d.beatRx }) s.doms }
    each (s.taken.filter fun t => t.phase == 2 && envOpcode t.e == 0x1102) (fun t s => done t (le 8 r) s) s
  else s

/-- Stop stamps whose tick has come. -/
def stopTick (s : State) : State :=
  stopSettled (each (stationIds.filter fun u => (s.port u).stopAt.any (· ≤ s.now))
    (fun u s => applyStop u ((s.port u).stopAt.getD 0) false s) s)

def execStopTick (s : State) : Res := .next (stopTick s)

/-- Resume stamps whose tick has come. -/
def resumeTick (s : State) : State :=
  resumeSettled (each (stationIds.filter fun u => (s.port u).resumeAt.any (· ≤ s.now)) (fun u s => applyResume u s) s)

def execResumeTick (s : State) : Res := .next (resumeTick s)

/-- KEEPWAY_FRAME_REPEAT: the stamp of the repeated frame is applied at its tick, or at once and recorded as late. -/
def frameRepeat (node u : Nat) (s : State) : State :=
  if !isNode node || !stampLost s u then s else
  match s.stop.resume with
  | none =>
    if s.now ≤ s.stop.tick then s.onPort u fun p => { p with stopAt := some s.stop.tick }
    else stopSettled (applyStop u s.now true (bump node 4 1 s))
  | some r =>
    if s.now ≤ r then s.onPort u fun p => { p with resumeAt := some r }
    else resumeSettled (applyResume u (bump node 4 1 s))

def execKeepwayFrameRepeat (node station : Nat) (s : State) : Res := .next (frameRepeat node station s)

/-! ### Commands (11 Table 11.14) -/

def leadOk (lead : Nat) : Bool := decide (4 ≤ lead) && decide (lead ≤ 255)
def stopBody (id : BitVec 64) (lead : Nat) : Bytes := le 8 id.toNat ++ le 1 lead ++ zeros 7

/-- The scope of a stop; a domain stop starts at its anchor. A local stop does not read the partition. -/
def stopScopeOk (s : State) (t : Taken) : Bool :=
  let scope := opnd t.e 0 1
  let p := opnd t.e 1 1
  scope == 1 || (scope == 2 && (s.dom p).state == 4 && isAnchor (s.dom p))

/-- STOP_WAVE. -/
def bodyStopWave : Body := fun t _ _ s =>
  let scope := opnd t.e 0 1
  let part := opnd t.e 1 1
  let lead := opnd t.e 2 1
  if s.stop.inForce ∨ !leadOk lead ∨ !stopScopeOk s t then failCmd t yeDenied s
  else
    let d := s.dom part
    let id := BitVec.ofNat 64 (opnd t.e 4 4 + if scope = 2 then d.domain * 2 ^ 40 else 0)
    let s := if scope = 2 then mailAll part (downTree d) 0x30 (stopBody id lead) s else s
    keepRunning t 0 (stampStop id (scope == 2) part (t.takenAt + lead) s)

def execStopWave (q : Nat) (e : BitVec 1024) (rc : BitVec 16) (inp : List (BitVec 8)) (s : State) : Res :=
  .next (takeCmd 0x1101 bodyStopWave q e rc inp s)

/-- STOP_RESUME: of the scope of the stop in force. -/
def bodyStopResume : Body := fun t _ _ s =>
  let scope := opnd t.e 0 1
  let part := opnd t.e 1 1
  let lead := opnd t.e 2 1
  if !s.stop.inForce ∨ s.stop.resume.isSome ∨ !leadOk lead ∨ (scope = 2) ≠ s.stop.domain ∨ (scope ≠ 1 ∧ scope ≠ 2) ∨
      (scope = 2 ∧ part ≠ s.stop.part) then failCmd t yeDenied s
  else
    let s := if scope = 2 then mailAll part (downTree (s.dom part)) 0x31 (stopBody s.stop.id lead) s else s
    keepRunning t 0 (stampResume (t.takenAt + lead) s)

def execStopResume (q : Nat) (e : BitVec 1024) (rc : BitVec 16) (inp : List (BitVec 8)) (s : State) : Res :=
  .next (takeCmd 0x1102 bodyStopResume q e rc inp s)

/-- STOP: forwarded to the children, then stamped at arrival plus the lead it carries (11 R354). -/
def stopArrives (part _src : Nat) (b : Bytes) (s : State) : State :=
  let d := s.dom part
  let lead := ofLe (cut 8 1 b)
  if d.state ≠ 4 then s
  else
    let s := mailAll part (downTree d) 0x30 b s
    if s.stop.inForce then s else stampStop (BitVec.ofNat 64 (ofLe (cut 0 8 b))) true part (s.now + lead) s

def execStopMessage (part : Nat) (hdr : BitVec 128) (body : List (BitVec 8)) (s : State) : Res :=
  .next (withMail 0x30 part hdr body (stopArrives part) s)

/-- RESUME, which names the stop in force. -/
def resumeArrives (part _src : Nat) (b : Bytes) (s : State) : State :=
  let d := s.dom part
  if d.state ≠ 4 then s
  else
    let s := mailAll part (downTree d) 0x31 b s
    if s.stop.inForce ∧ s.stop.resume = none ∧ s.stop.id.toNat = ofLe (cut 0 8 b) then
      stampResume (s.now + ofLe (cut 8 1 b)) s
    else s

def execResumeMessage (part : Nat) (hdr : BitVec 128) (body : List (BitVec 8)) (s : State) : Res :=
  .next (withMail 0x31 part hdr body (resumeArrives part) s)

/-! ### Stop records (11 R353, Table 11.2) -/

def stopRecBytes (s : State) (u : Nat) : Bytes :=
  let r := (s.port u).stop
  le 1 u ++ le 1 (b2n r.late 0 + b2n r.safeAt 1 + b2n r.resetIn 2) ++ le 2 0 ++ le 4 r.lastIntake ++ le 8 r.tick ++ le 4 r.completed ++
    le 2 (if isLink u then r.markersSent else 0) ++ le 2 (if isLink u then r.markersRecv else 0) ++
    le 4 (if (s.port u).stopped then heldNow s u else r.held) ++ le 4 0

/-- The records, once memory stations take writes again. -/
def writeStopRecords (t : Taken) (s : State) : State :=
  let h := opnd t.e 0 4
  putObj t (accPart s t h) h (opnd t.e 4 5) (stationIds.map (stopRecBytes s)).flatten (done t (le 2 stationIds.length)) s

/-- STOP_RECORDS: waits out a stop in force, since its writes do. -/
def bodyStopRecords : Body := fun t _ _ s =>
  if !s.stop.ever then failCmd t yeDenied s
  else if s.keepStopped then keepRunning t 0 s
  else writeStopRecords t s

def execStopRecords (q : Nat) (e : BitVec 1024) (rc : BitVec 16) (inp : List (BitVec 8)) (s : State) : Res :=
  .next (takeCmd 0x1103 bodyStopRecords q e rc inp s)

/-- Stops that are due, and STOP_RECORDS commands that waited. -/
def settleStops (s : State) : State :=
  let s := resumeTick (stopTick s)
  if s.keepStopped then s
  else each (s.taken.filter fun t => t.phase == 2 && envOpcode t.e == 0x1103) (fun t s => writeStopRecords t s) s

end Sys2Proof.Machine
end

