-- ==== Sys2Proof/Machine/Window.lean ====
section
/-! DEFINITION. The two doors of the driver interface: the keep register window and the doorbell port (09 R295 to R301,
Tables 9.1 to 9.10; 13 R401, R402, R409; 11 R364). -/

namespace Sys2Proof.Machine
open Sys2Proof Sys2Proof.Crypto

/-! ### Doorbells (09 R301) -/

/-- Moves a queue's tail. -/
def moveTail (q tail : Nat) (s : State) : State := s.onQueue q fun x => { x with tail := tail }
def ignoredDoorbell (s : State) : State := bump Config.keepId 5 1 s

/-- HOST_DOORBELL_WRITE: moves an Open host queue only. -/
def hostDoorbell (q : Nat) (v : BitVec 64) (s : State) : State :=
  let x := s.queue q
  let tail := rf v 0 16
  if !s.keepLive || decide (1024 ≤ q) then s
  else if x.state ≠ 1 ∨ (s.ctx x.ctx).device ∨ 2 ^ (x.size + 4) ≤ tail then ignoredDoorbell s
  else moveTail q tail s

def execHostDoorbellWrite (q : Nat) (v : BitVec 64) (s : State) : Res := .next (hostDoorbell q v s)

/-- The core lies in a slice that the partition leases in an epoch that is current or draining (08 R262). -/
def coreLeases (s : State) (core part : Nat) (e : BitVec 16) : Bool :=
  let on (m : List Slice) : Bool := m.any fun x => x.cores.getLsbD core && x.lessees.contains (some part)
  match classify s.epoch e s.epochDraining with
  | .current => on s.slices
  | .draining => on s.oldSlices
  | _ => false

/-- DEVICE_DOORBELL_WRITE: `src` is core [7:0], partition [15:8], epoch [31:16]; the entries published take it. -/
def deviceDoorbell (q : Nat) (v src : BitVec 32) (s : State) : State :=
  let x := s.queue q
  let c := s.ctx x.ctx
  let tail := rf v 0 16
  if !s.keepLive then s
  else if !coreLeases s (rf src 0 8) (rf src 8 8) (src.extractLsb' 16 16) || decide (1024 ≤ q) || x.state != 1 || !c.device ||
      c.part != rf src 8 8 || decide (2 ^ (x.size + 4) ≤ tail) then ignoredDoorbell s
  else if tail = x.tail then s
  else (moveTail q tail s).onQueue q fun x => { x with pubs := x.pubs ++ [(tail, src)] }

def execDeviceDoorbellWrite (q : Nat) (v src : BitVec 32) (s : State) : Res := .next (deviceDoorbell q v src s)

/-- ARRIVAL_COUNTER_READ: answered to the counter's partition only (05 R170). -/
def arrivalRead (i : Nat) (src : BitVec 32) (s : State) : State :=
  let a := tget {} s.arrivals i
  if !s.keepLive then s
  else if a.state ≠ 0 ∧ a.part = rf src 8 8 then emit (.data (arrivalBytes a)) s
  else emit (.data []) s

def execArrivalCounterRead (idx : Nat) (src : BitVec 32) (s : State) : Res := .next (arrivalRead idx src s)

/-! ### Admin registers (09 R296) -/

/-- Context 0 and queue 0 as the admin registers describe them. -/
def startAdmin (s : State) : State :=
  let v := s.keep.adminCtrl
  let ctx : Ctx := { state := 1, part := 0xFF, ring := s.keep.ev0Ring, size := rf v 8 4, vector := rf s.keep.ev0Vector 0 11 }
  let q : Queue := { state := 1, ctx := 0, ring := s.keep.aqRing, res := s.keep.aqResult, size := rf v 12 4 }
  let s := endCondition Config.keepId 0x1D { s with ctxs := tset s.ctxs 0 ctx, queues := tset s.queues 0 q }
  { s with keep := { s.keep with adminReady := true } }

/-- ADMIN_ENABLE: a write of ADMIN_CTRL.  With ENABLE, sizes above 12 start nothing and raise source 0x1D. -/
def adminWrite (v : BitVec 32) (s : State) : State :=
  if !s.keepLive || s.keep.adminCtrl.getLsbD 16 then s else
  let s := { s with keep := { s.keep with adminCtrl := v &&& 0x1FF00 } }
  if !v.getLsbD 16 then s
  else if 12 < rf v 12 4 ∨ 12 < rf v 8 4 then faultEvent Config.keepId 0x1D 0xFFFF 0 s
  else startAdmin s

def execAdminEnable (v : BitVec 32) (s : State) : Res := .next (adminWrite v s)

/-! ### Table reads (09 R297, R456, Tables 9.5, 9.26 to 9.29) -/

def partEntry (p : Part) : Bytes :=
  le 1 p.state ++ le 1 p.policy ++ le 1 (b2n p.warm 0) ++ zeros 5 ++ le 8 p.nextImport ++ fit 48 p.pmr

def ctxEntry (s : State) (c : Nat) : Bytes :=
  let x := s.ctx c
  let owned := (s.objs.filter fun o => o.2.state != 0 && o.2.state != 4 && o.2.owners.contains c).length
  let fences := (s.fences.filter fun f => f.2.state != 0 && f.2.owner == c).length
  le 1 (x.state + b2n x.device 2) ++ le 1 x.part ++ le 1 x.size ++ [0] ++ le 2 x.vector ++ le 2 x.lostEvents ++ le 8 x.ring.toNat ++
    le 2 x.head ++ le 2 x.tail ++ le 4 owned ++ le 2 fences

def queueEntry (x : Queue) : Bytes :=
  le 1 (x.state + b2n x.secure 2) ++ le 1 x.size ++ le 2 x.ctx ++ le 2 x.head ++ le 2 x.tail ++ le 2 x.limit ++ le 2 0 ++
    le 4 x.nextSeq ++ le 8 x.ring.toNat ++ le 8 x.res.toNat

def accEntry (s : State) (st d : Nat) : Bytes :=
  let c := tget {} (s.memSt st).accs d
  let a := tget {} s.accs d
  if c.state = 0 then [] else
  le 1 c.state ++ le 1 a.mode ++ [a.e] ++ le 1 a.bs ++ [a.mask, 0] ++ le 2 a.fence ++ le 4 a.handle.toNat ++ le 4 0 ++
    le 8 c.applied ++ le 8 c.refused ++ le 8 c.convSat ++ le 8 c.addSat

def meterHalf (p : Part) (half : Nat) : Bytes :=
  ((if half = 0 then List.range 8 else [8, 9]).map fun i => le 8 (meterValue p.meter i)).flatten

/-- The entry of a readable table, or none for a reserved table or an index out of range. -/
def tableEntry (s : State) (sel i : Nat) : Option Bytes :=
  match sel with
  | 0x01 => if i < 256 then some (partEntry (s.part i)) else none
  | 0x02 => if i < 4096 then some (ctxEntry s i) else none
  | 0x03 => if i < 1024 then some (queueEntry (s.queue i)) else none
  | 0x04 => if i < 2 ^ 20 then some (objBytes s i) else none
  | 0x05 => if i < 65536 then some (fenceBytes (s.fence i)) else none
  | 0x06 => if i / 2 ^ 15 < Config.memStations then some (le 8 ((s.memSt (i / 2 ^ 15)).entry (i % 2 ^ 15)).toNat) else none
  | 0x07 => if i < 16384 then some (le 8 (attrWord (s.key i)).toNat) else none
  | 0x08 => if i / 64 < Config.memStations then some (accEntry s (i / 64) (i % 64)) else none
  | 0x09 => if i < 1024 then some (arrivalBytes (tget {} s.arrivals i)) else none
  | 0x0A => if isLink (i / 2 ^ 13) then some (((s.linkSt (i / 2 ^ 13)).ctxs[i % 2 ^ 13]?.map ctxBytes).getD []) else none
  | 0x0B => if i < 256 then some (fit 48 (s.part i).migDigest) else none
  | 0x0C => if i < 512 then some (meterHalf (s.part (i / 2)) (i % 2)) else none
  | _ => none

/-- TABLE_READ: a write with GO latches the whole entry. -/
def tableRead (v : BitVec 32) (s : State) : State :=
  if !s.keepLive || !v.getLsbD 0 then s else
  match tableEntry s s.keep.tableSel.toNat s.keep.tableIdx.toNat with
  | some b => { s with keep := { s.keep with tableStat := 2, tableData := fit 64 b } }
  | none => { s with keep := { s.keep with tableStat := 4 } }

def execTableRead (v : BitVec 32) (s : State) : Res := .next (tableRead v s)

/-! ### Event heads and MSI-X (09 Table 9.4, R323) -/

/-- A write of an event head register: HEAD in [15:0] when `low`, OVF write-1-to-clear in [63] when `high`. -/
def eventHead (c : Nat) (v : BitVec 64) (low high : Bool) (s : State) : State :=
  if !s.keepLive || decide (4096 ≤ c) || (s.ctx c).state == 0 then s
  else s.onCtx c fun x => { x with
    head := if low then rf v 0 16 else x.head,
    ovf := if high && v.getLsbD 63 then false else x.ovf }

def execEventHeadWrite (ctx : Nat) (v : BitVec 64) (s : State) : Res := .next (eventHead ctx v true true s)

/-- One word of the MSI-X table; unmasking a pending vector sends its message (PCIe). -/
def msixWrite (i : Nat) (v : BitVec 32) (s : State) : State :=
  let s := { s with keep := { s.keep with msix := tset s.keep.msix i v } }
  let vec := i / 4
  if i % 4 = 3 ∧ !v.getLsbD 0 ∧ s.keep.pba.contains vec then
    emit (.msix vec) { s with keep := { s.keep with pba := without s.keep.pba vec } }
  else s

/-! ### Fault window (10 R339, R340) -/

/-- FAULT_ACKNOWLEDGE: clears unacknowledged bits; an acknowledged Notice is cleared. -/
def acknowledge (u : Nat) (v : BitVec 4) (s : State) : State :=
  if !isUnit u then s
  else { s with flt := { s.flt with words := tmap (fun i w => if i = u then
    { w with unack := w.unack &&& ~~~v, uncleared := w.uncleared &&& ~~~(v &&& 1#4) } else w) s.flt.words } }

def execFaultAcknowledge (unit : Nat) (v : BitVec 32) (s : State) : Res :=
  .next (if s.keepLive then acknowledge unit (v.setWidth 4) s else s)

/-! ### Snapshots (13 R402, R409, Table 13.4) -/

/-- A write of SNAP_CTRL: with GO, SNAP_DATA takes the unit block or the profile set's record. -/
def snapWrite (v : BitVec 32) (s : State) : State :=
  if !s.keepLive then s else
  let keepBits := v &&& 0x20FFF
  if !v.getLsbD 16 then { s with keep := { s.keep with snapCtrl := (s.keep.snapCtrl &&& 0x8000) ||| keepBits } }
  else
    let set := rf v 8 4
    let d := if v.getLsbD 17 then sampleRecord s set (tget {} s.profs set) 8 else unitBlock s (rf v 0 8)
    { s with keep := { s.keep with snapCtrl := keepBits ||| 0x8000, snapData := fit 512 d } }

def execUnitSnapshot (v : BitVec 32) (s : State) : Res := .next (snapWrite v s)
def execProfileSnapshot (v : BitVec 32) (s : State) : Res := .next (snapWrite v s)

/-! ### The watchdog's beat register (11 R364) -/

/-- HEARTBEAT_WRITE: accepted one above the last value accepted. -/
def heartbeat (v : BitVec 16) (s : State) : State :=
  if !s.keepLive then s
  else if v = s.keep.beat + 1 then { s with keep := { s.keep with beat := v, beatAt := s.now, missed := 0, beaten := true } }
  else bump Config.keepId 7 1 s

def execHeartbeatWrite (v : BitVec 16) (s : State) : Res := .next (heartbeat v s)

/-! ### Any register (09 Table 9.1) -/

/-- The half of a 64-bit register that a narrow write covers. -/
def mergeHalf (old : BitVec 64) (high wide : Bool) (v : BitVec 64) : BitVec 64 :=
  if wide then v
  else if high then (old.setWidth 32).setWidth 64 ||| ((v.setWidth 32).setWidth 64 <<< 32)
  else (old &&& 0xFFFFFFFF00000000) ||| (v.setWidth 32).setWidth 64

/-- A write of a ring address register, ignored while ENABLE is 1. -/
def ringReg (old : BitVec 64) (high wide : Bool) (v : BitVec 64) : BitVec 64 := mergeHalf old high wide v &&& ~~~0xFFF#64

/-- One naturally aligned write; an unlisted offset, or a read-only one, ignores it. -/
def regWrite (off : Nat) (wide : Bool) (v : BitVec 64) (s : State) : State :=
  let lo := v.setWidth 32
  let high := decide (off % 8 = 4)
  let base := off - off % 8
  let on := s.keep.adminCtrl.getLsbD 16
  if !s.keepLive || (if wide then off % 8 != 0 else off % 4 != 0) then s
  else if base = 0x10 then (if on then s else { s with keep := { s.keep with aqRing := ringReg s.keep.aqRing high wide v } })
  else if base = 0x18 then (if on then s else { s with keep := { s.keep with aqResult := ringReg s.keep.aqResult high wide v } })
  else if base = 0x20 then (if on then s else { s with keep := { s.keep with ev0Ring := ringReg s.keep.ev0Ring high wide v } })
  else if off = 0x28 then adminWrite lo s
  else if off = 0x30 then (if on then s else { s with keep := { s.keep with ev0Vector := lo &&& 0x7FF } })
  else if off = 0x40 then { s with keep := { s.keep with tableSel := lo &&& 0xFF } }
  else if off = 0x48 then { s with keep := { s.keep with tableIdx := lo } }
  else if off = 0x50 then tableRead lo s
  else if off = 0x2008 then { s with flt := { s.flt with vector := lo &&& 0x7FF } }
  else if 0x2400 ≤ off ∧ off < 0x2800 then
    let s := acknowledge ((off - 0x2400) / 4) (v.setWidth 4) s
    if wide then acknowledge ((off - 0x2400) / 4 + 1) (v.extractLsb' 32 4) s else s
  else if 0x10000 ≤ off ∧ off < 0x12000 then (if high then s else hostDoorbell ((off - 0x10000) / 8) v s)
  else if 0x20000 ≤ off ∧ off < 0x28000 then
    eventHead ((off - 0x20000) / 8) (if high then v <<< 32 else v) (!high) (high || wide) s
  else if 0x30000 ≤ off ∧ off < 0x38000 then
    let s := msixWrite ((off - 0x30000) / 4) lo s
    if wide then msixWrite ((off - 0x30000) / 4 + 1) (v.extractLsb' 32 32) s else s
  else if off = 0x70000 then snapWrite lo s
  else s

def execRegisterWrite (off : Nat) (wide : Bool) (v : BitVec 64) (s : State) : Res := .next (regWrite off wide v s)

end Sys2Proof.Machine
end

