-- ==== Sys2Proof/Machine/Dump.lean ====
section
/-! DEFINITION. The Badger dump (11 R367 to R374). -/

namespace Sys2Proof.Machine
open Sys2Proof Sys2Proof.Crypto

/-! ### Sections (11 R371, Tables 11.12, 11.13) -/

/-- A section before it is sealed: unit, content code, owner, and what it holds. -/
structure Section where
  unit : Nat
  code : Nat
  owner : Nat
  raw : Bytes

def flatBytes {α : Type} (l : List α) (f : α → Bytes) : Bytes := (l.map f).flatten

/-- Sections of a memory station. -/
def memSections (s : State) (u : Nat) : List Section :=
  let m := s.memSt u
  let held := m.reqs.filter fun r => r.kind == 5 && !(beatBuffer r).isEmpty
  let parts := (held.map (·.part)).eraseDups
  (if s.dump.flags.getLsbD 0 then [⟨u, 3, 0xFF, flatBytes (List.range 32768) fun e => le 8 (m.entry e).toNat⟩] else []) ++
  [⟨u, 4, 0xFF, flatBytes m.lines fun l => le 2 l.entry ++ le 1 (b2n l.dirty 0)⟩,
   ⟨u, 5, 0xFF, flatBytes m.descs (le 4) ++ flatBytes (m.reqs.filter (·.locked)) (fun r => le 4 r.pslot) ++ flatBytes m.reseal (fun x => le 2 x.1)⟩] ++
  parts.map fun p => ⟨u, 6, p, flatBytes (held.filter fun r => r.part == p) beatBuffer⟩

/-- Sections of a link station. -/
def linkSections (s : State) (u : Nat) : List Section :=
  let l := s.linkSt u
  (if s.dump.flags.getLsbD 1 then [⟨u, 7, 0xFF, flatBytes l.ctxs ctxBytes⟩] else []) ++
  [⟨u, 8, 0xFF, flatBytes l.jobs (fun j => le 1 j.1 ++ le 1 j.2.state ++ le 3 j.2.domain ++ le 3 j.2.own ++ le 2 j.2.slot ++ le 4 j.2.gen ++
      le 4 j.2.mark) ++ flatBytes l.held (fun h => le 1 h.phase ++ le 1 h.part ++ le 3 h.peer ++ le 1 h.cls ++ le 4 h.gen ++ le 2 h.sepoch ++
      le 5 h.seq) ++ flatBytes l.trackers (fun t => le 2 t.1 ++ le 1 t.2.part ++ le 3 t.2.peer ++ le 2 t.2.engine ++ le 2 t.2.slot ++
      le 2 t.2.tag ++ le 2 t.2.fence ++ le 5 t.2.seq)⟩]

/-- Undrained trace records of one attribution. -/
def traceOf (s : State) (p : Nat) : Bytes := flatBytes s.trace.bufs fun b => flatBytes (b.2.filter fun r => fld r.2 1 1 == p) (·.2)
where fld (b : Bytes) (off n : Nat) : Nat := ofLe (cut off n b)

/-- Sections of the keep. -/
def keepSections (s : State) : List Section :=
  let k := Config.keepId
  [⟨k, 2, 0xFF, flatBytes s.flt.log faultRecBytes ++ flatBytes (List.range 256) (fun u => le 4 (stationWord s u).toNat) ++
      le 8 (faultSummary s).toNat⟩,
   ⟨k, 0xA, 0xFF, flatBytes (List.range 16384) fun i => le 8 (attrWord (s.key i)).toNat⟩,
   ⟨k, 0xB, 0xFF, flatBytes s.parts (fun p => le 1 p.1 ++ partEntry p.2) ++ flatBytes s.ctxs (fun c => le 2 c.1 ++ ctxEntry s c.1) ++
      flatBytes s.queues (fun q => le 2 q.1 ++ queueEntry q.2) ++ flatBytes s.objs (fun o => le 4 o.1 ++ objBytes s o.1) ++
      flatBytes s.fences (fun f => le 2 f.1 ++ fenceBytes f.2)⟩,
   ⟨k, 0xC, 0xFF, traceOf s 0xFF⟩] ++
  (List.range 255).filterMap fun p => if (traceOf s p).isEmpty then none else some ⟨k, 0xD, p, traceOf s p⟩

def hostSection (s : State) : Section :=
  ⟨Config.hostId, 9, 0xFF, flatBytes s.host.ide (fun i => le 1 i.1 ++ le 1 (b2n i.2.live 0) ++ le 1 i.2.set) ++
    flatBytes s.host.tdisp (fun i => le 1 i.1 ++ le 1 i.2.state ++ le 1 (i.2.part.getD 0xFF) ++ le 1 i.2.stream)⟩

/-- Every section, by unit and then by content code. -/
def dumpSections (s : State) : List Section :=
  (unitIds.map fun u =>
    [⟨u, 1, 0xFF, tget [] s.dump.mirrors u⟩] ++
    (if isMem u then memSections s u else if isLink u then linkSections s u else if u = Config.hostId then [hostSection s]
     else if u = Config.keepId then keepSections s else []) ++
    (if isStation u then [⟨u, 0xE, 0xFF, stopRecBytes s u⟩] else [])).flatten

/-- The tenant dump slot a section of a partition is sealed under (11 R372). -/
def dumpSlot (s : State) (p : Nat) : Option Nat :=
  (s.keys.find? fun k => k.2.state == 1 && k.2.cls == 0xC && !k.2.keepOwn && k.2.owner == p && decide (k.2.inv < invLimit)).map (·.1)

/-- Length of a section's body; 0 when it is unreachable or withheld. -/
def bodyLen (s : State) (x : Section) : Nat :=
  if s.dump.unreachable.contains x.unit ∨ (x.owner ≠ 0xFF ∧ (dumpSlot s x.owner).isNone) then 0
  else (pad16 (Config.dumpBody x.code x.raw)).length
def sectionLen (s : State) (x : Section) : Nat := 32 + bodyLen s x + if bodyLen s x = 0 then 0 else 16

/-- The sections that fit in `room` bytes, in order. -/
def fitting (s : State) : Nat → List Section → List Section
  | _, [] => []
  | room, x :: xs => if sectionLen s x ≤ room then x :: fitting s (room - sectionLen s x) xs else []

/-- Writes one section, sealed under the dump key or the owner's. -/
def sealSection (hdr : Bytes) (k : BitVec 256) (x : Section × Nat) (b : Bytes) (s : State) : Bytes × State :=
  let sec := x.1
  let n := bodyLen s sec
  let body := pad16 (Config.dumpBody sec.code sec.raw)
  let flags := b2n (s.dump.unreachable.contains sec.unit) 0 +
    b2n (!s.dump.unreachable.contains sec.unit && sec.owner != 0xFF && (dumpSlot s sec.owner).isNone) 1 + b2n (sec.code != 1) 2
  let head (nonce : Bytes) : Bytes := le 1 sec.unit ++ le 1 sec.code ++ le 1 sec.owner ++ le 1 flags ++ le 4 n ++ nonce ++ zeros 12
  if n = 0 then (b ++ head (zeros 12), s)
  else if sec.owner = 0xFF then
    let h := head (zeros 12)
    let (c, t) := gcmSeal k ([0x44, 0, 0, 0] ++ be 8 x.2) (hdr ++ h) body
    (b ++ h ++ c ++ t, s)
  else
    let i := (dumpSlot s sec.owner).getD 0
    let nonce := cmdNonce i (s.key i).gen (s.key i).inv
    let h := head nonce
    let (c, t) := gcmSeal (s.key i).cur nonce (hdr ++ h) body
    (b ++ h ++ c ++ t, countInv i s)

/-- Takes the armed dump: its number and length, or nothing when the ring has no room for a section (11 R370, R372) or instance 0
gives no bits for its key. -/
def takeDump (s : State) : Option (Nat × Nat × State) :=
  match s.dump.ring with
  | none => none
  | some ring =>
    let all := dumpSections s
    let room := ringRoom (tget {} s.rings ring)
    let secs := fitting s (room / 16 * 16 - 1704) all
    if room < 1704 ∨ secs.isEmpty ∨ !canDraw s 0 then none else
    let len := 1696 + (secs.map (sectionLen s)).sum
    let kind := s.dump.armed.getD 1
    let hdr := ascii "YK3D" ++ le 2 1 ++ le 1 kind ++ le 1 (b2n (secs.length < all.length) 0) ++ le 4 s.dump.num ++ le 4 secs.length ++
      le 8 s.dump.armedAt ++ fit 16 s.dump.startId ++ fit 32 s.aon.ueid ++ le 8 len ++ sha384 s.dump.ek
    let (r, s) := draw0 s
    let (ss, ct) := kemEncaps s.dump.ek (keyBytes r)
    let k := keyOf (hkdfExpand (hkdfExtract (sha384 hdr) ss) (ascii "yk3 dump") 32)
    let (b, s) := secs.zipIdx.foldl (fun (a : Bytes × State) x => sealSection hdr k x a.1 a.2) (hdr ++ fit 1568 ct, s)
    let num := s.dump.num
    match ringPut ring (ringItem 0x10 b) s with
    | none => none
    | some s => some (num, len, { s with dump := { s.dump with num := num + 1, armed := none, unreachable := [] } })

/-- A dump that could not be written is given up, but one that waits for random bits stays armed (06 R188). -/
def endDump (s : State) : State :=
  match takeDump s with
  | some (_, _, s) => s
  | none => if !canDraw s 0 then s else { s with dump := { s.dump with armed := none, unreachable := [] } }

/-! ### Rows and commands (11 Table 11.14) -/

/-- Whether the cause of a trigger is present (11 R367). -/
def triggerCause (s : State) (kind : Nat) : Bool :=
  match kind with
  | 2 => s.flt.blockSafe && s.flt.words.any fun w => w.2.uncleared.getLsbD 3
  | 3 => s.aon.phase == 2 && s.aon.cutTime.isSome
  | 4 => stationIds.any fun u => (s.port u).stop.resetIn || s.taken.any fun t => t.phase == 2 && envOpcode t.e == 0x1110 && t.aux == u
  | 5 => s.aon.phase == 2 && s.aon.cutTime.isNone
  | _ => false

/-- A Fatal's dump runs at once; a reset's waits for the keep start (11 R367, R373). -/
def settleDump (s : State) : State :=
  if s.keepLive && (s.dump.armed == some 2 || s.dump.armed.isSome && decide (s.dump.armedAt < s.keep.startAt)) then endDump s else s

/-- DUMP_TRIGGER: a cause that is present and armed, and not taken up yet, latches the mirrors. -/
def triggerRow (kind : Nat) (s : State) : State :=
  if s.aon.lockdown || !triggerCause s kind then s
  else settleDump (if s.dump.armed == some kind then s else dumpTrigger kind s)

def execDumpTrigger (kind : BitVec 8) (s : State) : Res := .next (triggerRow kind.toNat s)

/-- DUMP_SOURCE_TIMEOUT: the source is unreachable in the dump that is armed. -/
def sourceTimeout (u : Nat) (s : State) : State :=
  if s.dump.ring.isSome && isUnit u && !s.dump.unreachable.contains u then
    { s with dump := { s.dump with unreachable := u :: s.dump.unreachable } }
  else s

def execDumpSourceTimeout (unit : Nat) (s : State) : Res := .next (sourceTimeout unit s)

/-- DUMP_CONFIG. -/
def bodyDumpConfig : Body := fun t rc inp s =>
  let h := opnd t.e 0 4
  let kib := opnd t.e 4 4
  let mask := opnd t.e 17 1
  let flags := opnd t.e 18 1
  let o := s.obj (handleIdx h)
  if h = 0 then failCmd t yeStale s
  else if o.cls ≠ 4 ∨ o.part ≠ 0xFF ∨ 32 ≤ mask ∨ 4 ≤ flags then failCmd t yeDenied s
  else if kib < 2048 ∨ o.tiles * 8 < kib then failCmd t yeLength s
  else readIn t (opnd t.e 8 4) (opnd t.e 12 5) 1568 rc (fun s =>
    let ek := fit 1568 inp
    let s := openRing (handleIdx h) kib s
    done t (sha384 ek) { s with dump := { s.dump with
      ring := some (handleIdx h), ek := ek, mask := BitVec.ofNat 8 mask, flags := BitVec.ofNat 8 flags } }) s

def execDumpConfig (q : Nat) (e : BitVec 1024) (rc : BitVec 16) (inp : List (BitVec 8)) (s : State) : Res :=
  .next (takeCmd 0x1120 bodyDumpConfig q e rc inp s)

/-- DUMP_START: at once, its station tables read live. A dump that waits for a keep start goes on waiting. -/
def bodyDumpStart : Body := fun t _ _ s =>
  if s.dump.ring.isNone ∨ !s.dump.mask.getLsbD 0 then failCmd t yeDenied s
  else if s.dump.armed = some 2 then failCmd t yeDenied (dumpTrigger 1 s)
  else if !canDraw s 0 then waitDraw t s
  else
    let old := s.dump
    let s' := dumpTrigger 1 { s with dump := { old with armed := none } }
    let back (d : Dump) : Dump :=
      if old.armed.isSome then { d with armed := old.armed, armedAt := old.armedAt, mirrors := old.mirrors, startId := old.startId }
      else { d with armed := none }
    match takeDump { s' with dump := { s'.dump with unreachable := old.unreachable } } with
    | some (num, len, s) => done t (le 4 num ++ le 8 len) { s with dump := back s.dump }
    | none => failCmd t yeQuota { s' with dump := back s'.dump }

def execDumpStart (q : Nat) (e : BitVec 1024) (rc : BitVec 16) (inp : List (BitVec 8)) (s : State) : Res :=
  .next (takeCmd 0x1121 bodyDumpStart q e rc inp s)

end Sys2Proof.Machine
end

