-- ==== Sys2Proof/Machine/Counters.lean ====
section
/-! DEFINITION. Counters, profile sets and trace: their rows and commands (13 R398 to R417). -/

namespace Sys2Proof.Machine
open Sys2Proof Sys2Proof.Crypto

/-! ### COUNTER_CLEAR (13 R398, R417) -/

/-- Clears the classes of a mask in one unit: [0] accounting, with their sticky bits, [1] performance, [2] fault. -/
def clearUnit (m u : Nat) (s : State) : State :=
  let keepWord (w : Nat) : Bool := !(if isAcct u w then m % 2 == 1 else m / 2 % 2 == 1)
  { s with ctrs := tupd {} s.ctrs u fun c => { c with
    clearTime := s.now,
    sticky := if m % 2 = 1 then 0 else c.sticky,
    words := c.words.filter fun w => keepWord w.1,
    faults := if m / 4 % 2 = 1 then [] else c.faults } }

/-- COUNTER_CLEAR. -/
def bodyCounterClear : Body := fun t _ _ s =>
  let u := opnd t.e 0 1
  let m := opnd t.e 1 1
  if m = 0 ∨ 8 ≤ m ∨ (u ≠ 0xFF ∧ !isUnit u) then failCmd t yeDenied s
  else done t (le 8 s.now) (each (if u = 0xFF then unitIds else [u]) (clearUnit m) s)

def execCounterClear (q : Nat) (e : BitVec 1024) (rc : BitVec 16) (inp : List (BitVec 8)) (s : State) : Res :=
  .next (takeCmd 0x1301 bodyCounterClear q e rc inp s)

/-! ### Profile sets (13 R406 to R410) -/

/-- PROFILE_BOUNDARY: the boundary message of a command that has started arrives at every station. -/
def boundaryRow (set : Nat) (s : State) : State := if (tget {} s.profs set).next.isSome then boundary set 0 s else s

def execProfileBoundary (set : Nat) (s : State) : Res := .next (boundaryRow set s)

/-- PROFILE_IDLE_BOUNDARY: 100 µs after the running command completed, with none started since. -/
def idleBoundary (set : Nat) (s : State) : State :=
  let p := tget {} s.profs set
  match p.doneAt with
  | some t => if p.next.isNone ∧ p.seq.isSome ∧ t + Config.us 100 ≤ s.now then boundary set 1 s else s
  | none => s

def execProfileIdleBoundary (set : Nat) (s : State) : Res := .next (idleBoundary set s)

/-- Boundaries that are due. -/
def settleProf (s : State) : State :=
  each s.profs (fun p s => if p.2.next.isSome && decide (p.2.dueAt ≤ s.now) then boundary p.1 0 s else idleBoundary p.1 s) s

/-- PROFILE_BIND. -/
def bodyProfileBind : Body := fun t _ _ s =>
  let set := opnd t.e 0 1
  let flags := opnd t.e 1 1
  let q := opnd t.e 2 2
  let h := opnd t.e 12 4
  let kib := opnd t.e 16 4
  let c := (s.queue t.q).ctx
  let may := isOperatorCtx (s.ctx c) || (s.queue q).ctx == c
  if 16 ≤ set ∨ 2 ≤ flags ∨ 1024 ≤ q ∨ (s.queue q).state = 0 ∨ !may then failCmd t yeDenied s
  else if flags = 1 then
    if (tget {} s.profs set).queue = some q then done t [] (unbindProf set s) else failCmd t yeDenied s
  else if (tfind s.profs set).isSome ∨ (s.profs.any fun p => p.2.queue == some q) then failCmd t yeDenied s
  else if h = 0 ∨ !handleLive s h then failCmd t yeStale s
  else if kib < 4 ∨ (s.obj (handleIdx h)).tiles * 8 < kib then failCmd t yeLength s
  else
    let p : Prof := { queue := some q, layer := BitVec.ofNat 16 (opnd t.e 4 2), layerMask := BitVec.ofNat 16 (opnd t.e 6 2),
                      oper := BitVec.ofNat 16 (opnd t.e 8 2), operMask := BitVec.ofNat 16 (opnd t.e 10 2), ring := handleIdx h }
    done t [] (openRing (handleIdx h) kib { s with profs := tset s.profs set p })

def execProfileBind (q : Nat) (e : BitVec 1024) (rc : BitVec 16) (inp : List (BitVec 8)) (s : State) : Res :=
  .next (takeCmd 0x1310 bodyProfileBind q e rc inp s)

/-! ### Trace (13 R412 to R416) -/

/-- TRACE_CONFIG: sources whose mask bit is set are enabled or disabled, under the mask and filters given. -/
def bodyTraceConfig : Body := fun t _ _ s =>
  let mask := opnd t.e 0 2
  let on := opnd t.e 2 1
  if 512 ≤ mask ∨ 2 ≤ on then failCmd t yeDenied s
  else done t [] { s with trace := { s.trace with
    mask := BitVec.ofNat 16 mask, on := on == 1, parts := BitVec.ofNat 256 (opnd t.e 4 32),
    layer := BitVec.ofNat 16 (opnd t.e 36 2), layerMask := BitVec.ofNat 16 (opnd t.e 38 2),
    oper := BitVec.ofNat 16 (opnd t.e 40 2), operMask := BitVec.ofNat 16 (opnd t.e 42 2), since := [] } }

def execTraceConfig (q : Nat) (e : BitVec 1024) (rc : BitVec 16) (inp : List (BitVec 8)) (s : State) : Res :=
  .next (takeCmd 0x1320 bodyTraceConfig q e rc inp s)

/-- TRACE_RING: a plain region for the operator, any region of the partition for a tenant. -/
def bodyTraceRing : Body := fun t _ _ s =>
  let h := opnd t.e 0 4
  let kib := opnd t.e 4 4
  let p := s.partOf t
  let o := s.obj (handleIdx h)
  if h = 0 ∨ !handleLive s h then failCmd t yeStale s
  else if o.part ≠ p ∨ (p = 0xFF ∧ o.cls ≠ 4) ∨ (p ≠ 0xFF ∧ (s.key (s.part p).trcSlot).state ≠ 1) then failCmd t yeDenied s
  else if kib < 64 ∨ o.tiles * 8 < kib then failCmd t yeLength s
  else done t [] (openRing (handleIdx h) kib (s.onPart p fun x => { x with traceRing := some (handleIdx h) }))

def execTraceRing (q : Nat) (e : BitVec 1024) (rc : BitVec 16) (inp : List (BitVec 8)) (s : State) : Res :=
  .next (takeCmd 0x1321 bodyTraceRing q e rc inp s)

/-- One owner's block of a drain (13 Table 13.14): written, or dropped and counted.  The engine seals under the current half
in every state from Active to Draining (06 Table 6.4). -/
def traceBlock (src seq p : Nat) (recs : List Bytes) (s : State) : State :=
  let x := s.part p
  let slot := x.trcSlot
  let k := s.key slot
  let head (nonce : Bytes) : Bytes :=
    ascii "YK3T" ++ le 1 src ++ le 1 p ++ le 2 recs.length ++ le 8 s.now ++ le 8 seq ++ nonce ++ zeros 12
  let dropped (s : State) : State := bump Config.keepId 18 1 s
  let full (r : Nat) (s : State) : State :=
    dropped { s with rings := tmap (fun i y => if i = r then { y with dropped := min (two64 - 1) (y.dropped + 1) } else y) s.rings }
  if p ≠ 0xFF ∧ k.state = 6 ∧ k.cls = 0xB ∧ k.owner = p then s
  else match x.traceRing with
  | none => dropped s
  | some r =>
    if p = 0xFF then (ringPut r (head (zeros 12) ++ recs.flatten) s).getD (full r s)
    else if k.state = 0 ∨ 6 ≤ k.state ∨ k.first ∨ k.cls ≠ 0xB ∨ k.keepOwn ∨ k.owner ≠ p ∨ invLimit ≤ k.inv then full r s
    else
      let nonce := cmdNonce slot k.gen k.inv
      let (c, t) := gcmSeal k.cur nonce (head nonce) recs.flatten
      (ringPut r (head nonce ++ c ++ t) (countInv slot s)).getD (full r s)

/-- TRACE_DRAIN: a buffer that holds 512 records, or whose oldest is 1 ms old; the oldest 512 leave, by owner. -/
def traceDrain (src : Nat) (s : State) : State :=
  let buf := tget [] s.trace.bufs src
  let due := match buf.head? with
    | none => false
    | some r => decide (512 ≤ buf.length) || decide (r.1 + Config.ms 1 ≤ s.now)
  if !s.keepLive || !due then s
  else
    let recs := (buf.take 512).map (·.2)
    let seq := tget 0 s.trace.drains src
    let owners := (List.range 256).filter fun p => recs.any fun r => ofLe (cut 1 1 r) == p
    let s := { s with trace := { s.trace with
      bufs := tset s.trace.bufs src (buf.drop 512), drains := tset s.trace.drains src (seq + 1) } }
    each owners (fun p s => traceBlock src seq p (recs.filter fun r => ofLe (cut 1 1 r) == p) s) s

def execTraceDrain (source : Nat) (s : State) : Res := .next (traceDrain source s)

/-! ### Rings (13 R411) -/

/-- RING_READ_OFFSET_ADVANCE: the owner has consumed items; records that waited for room go out. -/
def ringAdvance (h off : Nat) (s : State) : State :=
  let i := handleIdx h
  match tfind s.rings i with
  | none => s
  | some r =>
    if off < 64 ∨ r.size ≤ off then s
    else
      let s := { s with rings := tset s.rings i { r with roff := off } }
      let s := each s.doms (fun d s =>
        if d.2.ring = i ∧ !d.2.outq.isEmpty then
          each d.2.outq (fun b s => outDom d.1 b s) (s.onDom d.1 fun d => { d with outq := [] }) else s) s
      let s := each s.migs (fun m s =>
        if m.2.ring = i ∧ !m.2.outq.isEmpty then
          each m.2.outq (fun b s => outMig m.1 b s) { s with migs := tupd {} s.migs m.1 fun m => { m with outq := [] } } else s) s
      if s.meter.ring = some i then drainBacklog s else s

def execRingReadOffsetAdvance (ring : BitVec 32) (off : BitVec 64) (s : State) : Res := .next (ringAdvance ring.toNat off.toNat s)

end Sys2Proof.Machine
end

