-- ==== Sys2Proof/Machine/Image.lean ====
section
/-! DEFINITION. The configuration flash: image copies and their checks (14 R440 to R447), the signed event log (R448 to
R450), and their commands (R452). -/

namespace Sys2Proof.Machine
open Sys2Proof Sys2Proof.Crypto

/-! ### Signature blocks (12 R379, 14 R440) -/

/-- Two public keys and a dual signature. -/
structure SigBlock where
  mPub : Bytes
  pPub : Bytes
  dual : Dual

def sigBlock (b : Bytes) : Option SigBlock :=
  match cborOf b with
  | some (.arr [.bytes m, .bytes p, d]) => if m.length = 2592 ∧ p.length = 97 then (dualOf d).map fun x => ⟨m, p, x⟩ else none
  | _ => none

def SigBlock.digest (x : SigBlock) : Bytes := sha384 (x.mPub ++ x.pPub)
/-- Both signatures verify, over these payload bytes. -/
def SigBlock.ok (x : SigBlock) (payload : Bytes) : Bool := x.dual.payload == payload && dualOk x.mPub x.pPub x.dual

/-- The signer of images in a life-cycle state; in Maker-Test that of the state recorded at entry (14 R440). -/
def imageAuthority (a : Aon) : Bytes :=
  match a.testFrom.getD (lcCode a) with
  | 1 => a.ema
  | 3 => a.ia
  | 4 => a.ia
  | 5 => a.era
  | _ => []

/-! ### Image copies (14 Tables 14.8 to 14.10) -/

/-- Little-endian field of a byte string. -/
def fld (b : Bytes) (off n : Nat) : Nat := ofLe (cut off n b)
def pad64n (n : Nat) : Nat := (n + 63) / 64 * 64
def allZero (b : Bytes) : Bool := b.all (· == 0)

def flashSize : Nat := 2 ^ 24 + Config.flashMore

/-- What the keep takes from a copy. -/
structure Image where
  seq : Nat
  fwDigest : Bytes
  cfgDigest : Bytes
  digest : Bytes
  fw : Bytes
  cfg : Bytes

def imageOf (b : Bytes) : Image :=
  let body := (b.drop 16384).take (fld b 12 4)
  { seq := fld b 8 4, fwDigest := cut 80 48 b, cfgDigest := cut 128 48 b, digest := cut 32 48 b,
    fw := cut (fld b 16 4) (fld b 20 4) body, cfg := cut (fld b 24 4) (fld b 28 4) body }

/-- Length of the firmware section up to the end of the microprogram. -/
def fwEnd (fw : Bytes) : Nat := 32 + pad64n (fld fw 12 4) + pad64n (fld fw 16 4) + pad64n (fld fw 20 4)

/-- The header's form. -/
def headerForm (b : Bytes) : Bool :=
  let n := fld b 12 4
  decide (16384 + n ≤ b.length) && decide (n ≤ 1032192) && b.take 4 == ascii "YK3I" && fld b 4 2 == 1 && allZero (cut 6 2 b) &&
  allZero (cut 180 12 b) && decide (192 + fld b 176 4 ≤ 16384) && decide (fld b 16 4 + fld b 20 4 ≤ n) &&
  decide (fld b 24 4 + fld b 28 4 ≤ n) && fld b 28 4 == 2944

/-- The firmware section's form. -/
def fwForm (fw : Bytes) : Bool :=
  fw.take 4 == ascii "YK3F" && fld fw 4 2 == 1 && allZero (cut 6 2 fw) && allZero (cut 28 4 fw) && decide (fld fw 12 4 ≤ 65536) &&
  decide (fld fw 16 4 ≤ 32768) && decide (fld fw 20 4 ≤ 131072) && decide (fwEnd fw + fld fw 24 4 ≤ fw.length)

def cfgPerm (g : Bytes) : List Nat := (List.range Config.memStations).map fun i => fld g (16 + i) 1

/-- The configuration record's form and values. -/
def cfgForm (g : Bytes) : Bool :=
  let m := Config.memStations
  let perm := cfgPerm g
  g.take 4 == ascii "YK3G" && fld g 4 2 == 1 && fld g 6 1 == Config.dies && fld g 7 1 == m && fld g 8 1 == Config.linkStations &&
  decide (fld g 9 1 ≤ 1) && decide (fld g 10 1 ≤ 3) && decide (fld g 11 1 ≤ 8) && allZero (cut 12 4 g) &&
  ((List.range m).all fun i => perm.contains i) && allZero (cut (16 + m) (64 - m) g) &&
  ((List.range m).all fun i => decide (fld g (80 + 2 * i) 2 < 4096)) && allZero (cut (80 + 2 * m) (128 - 2 * m) g) &&
  fld g 208 4 % 65536 == 0 && decide (0x400000 ≤ fld g 208 4) && decide (16 ≤ fld g 212 4) &&
  decide (fld g 208 4 + 65536 * fld g 212 4 ≤ flashSize) && allZero (cut 216 8 g) && allZero (cut 2913 31 g)

/-- The signatures and digests of a copy. -/
def imageSigned (a : Aon) (b : Bytes) : Bool :=
  let i := imageOf b
  let head := match sigBlock ((b.drop 192).take (fld b 176 4)) with
    | some x => x.digest == imageAuthority a && x.ok (b.take 192)
    | none => false
  let echorn := match sigBlock ((i.fw.drop (fwEnd i.fw)).take (fld i.fw 24 4)) with
    | some x => x.digest == a.efw && x.ok i.fwDigest
    | none => false
  head && echorn && sha384 ((b.drop 16384).take (fld b 12 4)) == i.digest && sha384 (i.fw.take (fwEnd i.fw)) == i.fwDigest &&
    sha384 i.cfg == i.cfgDigest

/-- The checks of 14 R444 that look at a copy alone, as a code. -/
def imageCheck (a : Aon) (b : Bytes) : Nat :=
  if !headerForm b then yeDenied
  else if !imageSigned a b then yeTagFail
  else if !fwForm (imageOf b).fw || !cfgForm (imageOf b).cfg then yeDenied
  else 0

/-- A slot's copy is valid: the checks pass and it is not marked failed. -/
def slotValid (s : State) (slot : Nat) : Bool :=
  (tfind s.flash.failed slot).isNone && imageCheck s.aon (tget [] s.flash.images slot) == 0

/-- The valid copy with the higher sequence number, slot A between equals (14 R444). -/
def selectSlot (s : State) : Option Nat :=
  let q (i : Nat) : Nat := (imageOf (tget [] s.flash.images i)).seq
  match slotValid s 0, slotValid s 1 with
  | true, true => some (if q 0 < q 1 then 1 else 0)
  | true, false => some 0
  | false, true => some 1
  | false, false => none

/-- Where Sett's data memory begins in the model's one table of Sett memory: past the longest instruction image. -/
def settData : Nat := 65536

/-- Where the protocol engines' microprogram begins in that table. -/
def engineCode : Nat := 98304

/-- The keep takes a copy's firmware and configuration record into force (14 Table 14.10, 10 R348). -/
def loadImage (slot : Nat) (s : State) : State :=
  let i := imageOf (tget [] s.flash.images slot)
  let g := i.cfg
  let p := fld g 10 1
  let code := 32 + pad64n (fld i.fw 12 4)
  let bytes (base : Nat) (b : Bytes) : Tab (BitVec 8) := b.zipIdx.map fun x => (base + x.2, x.1)
  { s with
    aon := { s.aon with slot := slot },
    keep := { s.keep with
      imageSeq := i.seq, fwDigest := i.fwDigest, cfgDigest := i.cfgDigest, boostOk := fld g 9 1 == 1,
      policy := if lcCode s.aon = 4 ∧ p = 0 then 1 else p,
      shift := fld g 11 1, perm := cfgPerm g,
      vlBase := (List.range Config.memStations).map fun i => fld g (80 + 2 * i) 2,
      logSectors := fld g 212 4, opKeyM := cut 224 2592 g, opKeyP := cut 2816 97 g,
      settMem := bytes 0 (cut 32 (fld i.fw 12 4) i.fw) ++ bytes settData (cut code (fld i.fw 16 4) i.fw) ++
        bytes engineCode (cut (code + pad64n (fld i.fw 16 4)) (fld i.fw 20 4) i.fw) } }

/-! ### The event log (14 R448, R449) -/

def sectorHead (i : Nat) (x : Sector) : Bytes := ascii "YK3L" ++ zeros 4 ++ le 8 i ++ fit 48 x.prev
/-- The chain over a sector's entries. -/
def sectorHash (i : Nat) (x : Sector) : Bytes := x.entries.foldl (fun h e => sha384 (h ++ e)) (sha384 (sectorHead i x))

/-- The checkpoint of a sector: its chain value and a part-level bundle with that nonce and no chain. It waits for the random
bits of its signatures. -/
def closeSector (i : Nat) (s : State) : State :=
  if !canDraw s 1 then s
  else
    let x := tget {} s.flash.sectors i
    let h := sectorHash i x
    let (d, s) := signDual s.ek (claims s 0xFF h) s
    let b := cArr [cUint 1, cArr [], s.keep.endorse, d]
    { s with flash := { s.flash with sectors := tset s.flash.sectors i { x with closed := some (h, b) } } }

/-- A new sector after the newest; a full ring loses the sector with the lowest index. -/
def openSectorLog (s : State) : State :=
  let secs := s.flash.sectors
  let i := (secs.getLast?.map fun x => x.1 + 1).getD 0
  let prev := ((secs.getLast?.bind fun x => x.2.closed).map (·.1)).getD (zeros 48)
  let secs := if s.keep.logSectors ≤ secs.length then secs.drop 1 else secs
  { s with flash := { s.flash with sectors := tset secs i { prev := prev } } }

/-- A keep start closes the newest sector if it has no checkpoint. -/
def closeNewest (s : State) : State :=
  match s.flash.sectors.getLast? with
  | some (i, x) => if x.closed.isNone then closeSector i s else s
  | none => s

/-- Adds an entry to the newest sector, which is closed once it is full. -/
def logAdd (e : Bytes) (s : State) : State :=
  let i := (s.flash.sectors.getLast?.map (·.1)).getD 0
  let s := { s with flash := { s.flash with
    logSeq := s.flash.logSeq + 1,
    sectors := tupd {} s.flash.sectors i fun x => { x with entries := x.entries ++ [le 8 s.flash.logSeq ++ e] } } }
  if 767 ≤ (tget ({} : Sector) s.flash.sectors i).entries.length then closeSector i s else s

/-- Writes the oldest queued entry to the flash; a full sector is closed first, and a new one is opened after a closed one. -/
def logWrite (s : State) : State :=
  match s.flash.queue with
  | [] => s
  | e :: q =>
    let pop (s : State) : State := { s with flash := { s.flash with queue := q } }
    match s.flash.sectors.getLast? with
    | none => logAdd e (openSectorLog (pop s))
    | some (i, x) =>
      if x.closed.isSome then logAdd e (openSectorLog (pop s))
      else if x.entries.length < 767 then logAdd e (pop s)
      else closeSector i s

/-- EVENT_LOG_ENTRY_WRITTEN. -/
def execEventLogEntryWritten (s : State) : Res := .next (if s.keepLive then logWrite s else s)

/-- A sector as stored. -/
def sectorBytes (i : Nat) (x : Sector) : Bytes :=
  let ones (n : Nat) : Bytes := List.replicate n 0xFF
  let head := sectorHead i x ++ x.entries.flatten ++ ones (64 * (767 - x.entries.length))
  match x.closed with
  | none => head ++ ones 16384
  | some (h, b) => head ++ le 4 b.length ++ le 2 x.entries.length ++ zeros 10 ++ h ++ b ++ ones (16320 - b.length)

/-- The block left service and no operator-signed reset followed (11 R365): entries of types 0x05 and 0x06. -/
def logOutOfService (s : State) : Bool :=
  let types := (s.flash.sectors.map fun x => x.2.entries).flatten.map fun e => fld e 16 1
  (types.filter fun t => t == 5 || t == 6).getLast? == some 5

/-! ### Commands (14 Table 14.14) -/

/-- IMAGE_UPDATE.  `rc` 0x8000 says that the copy did not read back equal (14 R447 step 5). -/
def bodyImageUpdate : Body := fun t rc inp s =>
  let h := opnd t.e 0 4
  let n := opnd t.e 12 4
  if 2 ^ 20 < n ∨ n < 16384 then failCmd t yeLength s
  else readIn t h (opnd t.e 4 5) n (rc % 2 ^ 15) (fun s =>
    let b := fit n inp
    let c := imageCheck s.aon b
    let slot := 1 - s.aon.slot
    let i := imageOf b
    if c ≠ 0 then failCmd t c s
    else if i.seq ≠ s.keep.imageSeq + 1 then failCmd t yeDenied s
    else
      let s := { s with flash := { s.flash with images := tset s.flash.images slot (if rc = 0 then b else []), failed := tdel s.flash.failed slot } }
      if rc ≠ 0 then failCmd t yePoison s
      else done t (le 1 slot ++ le 4 i.seq) (logEntry 0x07 (le 1 slot ++ zeros 3 ++ le 4 i.seq ++ i.digest.take 32) s)) s

def execImageUpdate (q : Nat) (e : BitVec 1024) (rc : BitVec 16) (inp : List (BitVec 8)) (s : State) : Res :=
  .next (takeCmd 0x1401 bodyImageUpdate q e rc inp s)

/-- IMAGE_STATUS. -/
def bodyImageStatus : Body := fun t _ _ s =>
  let one (i : Nat) : Bytes :=
    le 1 (b2n (slotValid s i) 0) ++ le 1 (b2n (tfind s.flash.failed i).isSome 0) ++ le 4 (fld (tget [] s.flash.images i) 8 4)
  done t (le 1 s.aon.slot ++ one 0 ++ one 1) s

def execImageStatus (q : Nat) (e : BitVec 1024) (rc : BitVec 16) (inp : List (BitVec 8)) (s : State) : Res :=
  .next (takeCmd 0x1402 bodyImageStatus q e rc inp s)

/-- LOG_READ: whole sectors from the first one on, as far as the ring has them. -/
def bodyLogRead : Body := fun t _ _ s =>
  let first := opnd t.e 0 8
  let h := opnd t.e 12 4
  let secs := s.flash.sectors.filter fun x => decide (first ≤ x.1) && decide (x.1 < first + opnd t.e 8 4)
  if (tfind s.flash.sectors first).isNone then failCmd t yeDenied s
  else putObj t (accPart s t h) h (opnd t.e 16 5) (secs.map fun x => sectorBytes x.1 x.2).flatten
    (done t (le 4 secs.length ++ le 8 ((s.flash.sectors.getLast?.map (·.1)).getD 0))) s

def execLogRead (q : Nat) (e : BitVec 1024) (rc : BitVec 16) (inp : List (BitVec 8)) (s : State) : Res :=
  .next (takeCmd 0x1403 bodyLogRead q e rc inp s)

end Sys2Proof.Machine
end

