-- ==== Sys2Proof/Machine/ResetOps.lean ====
section
/-! DEFINITION. What the resets and the wipes do to the state: the cold reset, the request of a warm reset, the work that
a reset of one unit cuts, and the memories that a wipe clears (11 R358 to R361; 12 R386). -/

namespace Sys2Proof.Machine
open Sys2Proof Sys2Proof.Crypto

/-! ### Cold reset (11 Table 11.5, 06 R207) -/

/-- What survives in the always-on domain: the pin, the fuses, the target of a transition under way, and the trip of a
lockdown that this reset ends (10 R346; 12 R384). -/
def coldAon (cause : Nat) (a : Aon) : Aon :=
  { porLow := a.porLow, cause := if a.lockdown then 4 else cause, trip := if a.lockdown then a.trip else 0,
    target := a.target, ueid := a.ueid, ema := a.ema, era := a.era, rootM := a.rootM, rootP := a.rootP, efw := a.efw,
    ia := a.ia, makerDone := a.makerDone, seedWrap := a.seedWrap, helper := a.helper, tokens := a.tokens,
    tokensUsed := a.tokensUsed, progress := a.progress, repairs := a.repairs }

/-- Every domain is reset: what is left are fuses, the flash, and the level of the current-limit input. -/
def coldReset (cause : Nat) (s : State) : State :=
  { aon := coldAon cause s.aon, flash := { s.flash with queue := [] }, clk := { ilim := s.clk.ilim },
    cond := s.cond, freeSig := s.freeSig, out := s.out, pending := s.pending }

/-! ### Requesting a warm reset (11 R359, R365) -/

/-- A warm reset starts, with its cause; a request while one is under way, or out of reset's reach, merges into it.  The
third inside 15 min takes the block out of service. -/
def requestWarm (cause : Nat) (s : State) : State :=
  if s.aon.phase ≠ 1 then s
  else
    let times := (s.now :: s.aon.warmTimes).take 3
    let out := times.length == 3 && decide (s.now ≤ times.getLast?.getD 0 + 90000000000)
    { s with aon := { s.aon with
        phase := 2, phaseAt := s.now, warmTimes := times, cause := if out then 5 else cause, outOfService := s.aon.outOfService || out,
        cutTime := if cause = 3 then some s.now else none } }

/-! ### Wipes (12 R386, Table 12.6) -/

/-- Memory station caches and beat buffers. -/
def eraseMemCaches (s : State) : State :=
  { s with mem := tmap (fun _ m => { (freshMem m) with port := { m.port with keys := [], asked := [] } }) s.mem }

/-- Stream contexts, reorder descriptors, trackers and job tables. -/
def eraseStreams (s : State) : State :=
  { s with link := tmap (fun _ l => { port := { l.port with keys := [], asked := [] } }) s.link, backing := [], copies := [] }

/-- Keep SRAM: Sett data memory, keep tables, trace buffers, the operation table, and engine working memory. -/
def eraseKeep (s : State) : State :=
  let noLease (p : Port) : Port := { p with cur := { epoch := s.epoch }, drain := none, prof := [] }
  let s := onEveryPort noLease s
  { s with
    keep := { s.keep with adminReady := false, settMem := s.keep.settMem.filter fun b => decide (b.1 < settData) || decide (engineCode ≤ b.1), scratch := {} }, parts := [], objs := [],
    ctxs := [], queues := [],
    fences := [], taken := [], accs := [], arrivals := [], users := [], opTab := [], slices := [], oldSlices := [], epochDraining := false,
    doms := [], migs := [], handoffs := [], rings := [], profs := [], trace := {},
    meter := { startAt := s.meter.startAt, ckptAt := s.meter.ckptAt, seq := s.meter.seq, chain := s.meter.chain },
    dump := { s.dump with ring := none }, host := { s.host with tdisp := [], ide := [], spdm := [], reqs := [] } }

/-- The wipe set; a debug reopen leaves the memory stations' caches. -/
def wipe (caches : Bool) (s : State) : State :=
  let s := eraseKeep (eraseStreams (eraseVrt (eraseScratch (eraseVault (eraseKeys s)))))
  if caches then eraseMemCaches s else s

/-! ### Work that a station's reset cuts (11 Table 11.7) -/

/-- Fails a descriptor with a destination on a station that is reset (04 R132): it closes everywhere, its stream fence
fails, and it is free when the other stations have drained.  An ACC_CLOSE in progress completes with that drain. -/
def failAcc (d : Nat) (s : State) : State := settleClosed (fenceFail (tget {} s.accs d).fence yePoison 0 (closeAcc d s))

/-- ACC_OPEN commands not complete for a region with a destination on a station that is reset: each fails, and the stream
fence it armed with it (04 R132). -/
def failOpens (u : Nat) (s : State) : State :=
  each (s.taken.filter fun t => envOpcode t.e == 0x0410 && (s.obj (handleIdx (opnd t.e 0 4))).places.any fun p => p.st == u)
    (fun t s => failCmd t yePoison s) s

/-- Memory station: every request fails, descriptors with a destination here fail, and loads here are Broken. -/
def cutMem (u : Nat) (s : State) : State :=
  let s := each (s.memSt u).reqs (fun r s => failReq u r yePoison s) s
  let ds := (s.memSt u).accs.map (·.1)
  let s := s.onMem u fun m => { m with accs := [] }
  let s := failOpens u (each ds failAcc s)
  { s with objs := tmap (fun _ o => if o.meas = 2 ∧ (o.places.any fun p => p.st == u) then { o with meas := 1 } else o) s.objs }

/-- Link station: trackers and requests not yet sent fail; bundles and held packets are lost. -/
def cutLink (u : Nat) (s : State) : State :=
  let w := (s.linkSt u).waiting
  let s := s.onLink u fun l => { l with waiting := [], bundles := [] }
  each w (fun r s => refuseLink u r yePoison s) (failTrackers u yePoison (fun _ => true) s)

/-- Host station: streams end, bound interfaces enter ERROR, and their secure queues stop. -/
def cutHost (s : State) : State :=
  let slots := (s.host.ide.map fun i => i.2.slots.map (·.2)).flatten
  let s := each slots (fun i s => retireSlot i (Config.ms 2) s) s
  tdispFail (fun _ => true) { s with host := { s.host with ide := [], reqs := [] } }

def cutStation (u : Nat) (s : State) : State := if isMem u then cutMem u s else if isLink u then cutLink u s else cutHost s

/-! ### Write-backs before a reset (03 R86, 05 R151) -/

/-- Dirty lines are written back; `lost` names the entries whose write-back the channel did not accept: their root
counters have risen, so that the older line fails its MAC at the next fetch.  A line at the root limit is Exhausted (02
R58, R59). -/
def saveLines (u : Nat) (lost : List Nat) (s : State) : State :=
  each ((s.memSt u).lines.filter (·.dirty)) (fun l s =>
    if vrtRoot ((s.memSt u).entry l.entry) = rootLimit then rootExhausted u l s
    else if lost.contains l.entry then raiseRoot u l s
    else writeBack u l s) s

/-- Contexts are written to their backing regions; for one that was not accepted the keep asks for a mark, and its job is
silent at the station until it comes. -/
def saveCtxs (u : Nat) (lost : List Nat) (s : State) : State :=
  each (s.linkSt u).ctxs.zipIdx (fun x s =>
    let c := x.1
    if c.state = 1 then s
    else if lost.contains x.2 then
      (s.onLink u fun l => { l with jobs := tmap (fun i j => if i = c.part then { j with stalled := true } else j) l.jobs }).onDom c.part
        fun d => { d with askMark := true }
    else putRecord u c s) s

end Sys2Proof.Machine
end

