-- ==== Sys2Proof/Machine/LifeCycle.lean ====
section
/-! DEFINITION. Life cycle, test access and debug: transition requests and their checks, the progress row and the
sequencer, tokens, test sessions, repair records, and the commands (12). -/

namespace Sys2Proof.Machine
open Sys2Proof Sys2Proof.Crypto

/-! ### Edges and requests (12 R378, R379) -/

/-- The authorities whose digests may sign an edge (12 Table 12.2). -/
def edgeAuthority (s : State) (src dst : Nat) : List Bytes :=
  let a := s.aon
  match src, dst with
  | 1, 3 => [a.ema]
  | 3, 4 => [a.ia]
  | 4, 5 => [a.era]
  | 5, 4 => [a.era]
  | 1, 6 => [a.ema]
  | 3, 6 => [a.ia]
  | 4, 6 => [sha384 (s.keep.opKeyM ++ s.keep.opKeyP), a.era]
  | 5, 6 => [a.era]
  | _, _ => []

/-- The debug authority of a state (12 R391). -/
def debugAuthority (a : Aon) (lc : Nat) : List Bytes := if lc = 3 then [a.ia] else if lc = 4 then [a.era] else []

/-- A request as parsed: signature block and payload fields. -/
structure LcReq where
  sig : SigBlock
  ueid : Bytes
  nonce : Bytes
  action : Nat
  cur : Nat
  target : Nat
  ia : Option Bytes

/-- Parses a request (12 Table 12.3). -/
def lcParse (b : Bytes) : Option LcReq :=
  if 16384 < b.length then none else
  match sigBlock b with
  | none => none
  | some x =>
    match cborOf x.dual.payload with
    | none => none
    | some m =>
      match m.bstr 1, m.bstr 2, m.nat 3, m.nat 4, m.nat 5 with
      | some u, some n, some a, some c, some t =>
        let ia := m.bstr 6
        if u.length = 32 ∧ n.length = 32 ∧ m.size = (if ia.isSome then 6 else 5) ∧ (ia.all fun d => d.length == 48) then
          some { sig := x, ueid := u, nonce := n, action := a, cur := c, target := t, ia := ia }
        else none
      | _, _, _, _, _ => none

/-! ### Checks (12 R380) -/

/-- Check 2 of 12 R380 for an action. -/
def lcAuthorityOk (s : State) (action : Nat) (r : LcReq) : Bool :=
  let d := r.sig.digest
  r.action == action && r.sig.dual.protM == protHdr 49 r.sig.mPub && r.sig.dual.protP == protHdr 34 r.sig.pPub &&
  (if action = 2 then (edgeAuthority s r.cur r.target).contains d else r.target == r.cur && (debugAuthority s.aon (lcCode s.aon)).contains d)

/-- A held transition, which only a request to Scrapped may follow (12 R382). -/
def lcHeld (a : Aon) : Bool := a.phase == 6 && decide (4 ≤ a.retries)

/-- Check 4 of 12 R380. -/
def lcFieldsOk (s : State) (r : LcReq) : Bool :=
  r.ueid == fit 32 s.aon.ueid && s.keep.chipNonce == some r.nonce && r.cur == lcCode s.aon &&
  r.ia.isSome == (r.action == 2 && r.cur == 1 && r.target == 3) && ((inProgress s.aon).isNone || (lcHeld s.aon && r.target == 6)) &&
  !(r.action == 3 && s.aon.debugOpen)

/-- The entry an edge uses: one above the highest general entry used, or 15 for Scrapped (12 R381, R384). -/
def lcEntry (a : Aon) (target : Nat) : Option Nat :=
  if target = 6 then some 15
  else
    let e := (((usedEntries a).filter fun x => decide (x.1 < 15)).getLast?.map fun x => x.1 + 1).getD 0
    if e < 15 then some e else none

/-- A chip nonce serves one request that reaches check 4; the keep then draws another (12 R380). -/
def renewNonce (s : State) : State :=
  if canDraw s 1 then
    let (n, s) := drawBytes 32 s
    { s with keep := { s.keep with chipNonce := some n } }
  else { s with keep := { s.keep with chipNonce := none } }

/-- The checks in order: the code of the first that fails, or 0 with the request and its entry; the state after them. -/
def lcCheck (action : Nat) (b : Bytes) (s : State) : Nat × Option (LcReq × Nat) × State :=
  match lcParse b with
  | none => (yeLength, none, s)
  | some r =>
    if !lcAuthorityOk s action r then (yeDenied, none, s)
    else if !r.sig.ok r.sig.dual.payload then (yeTagFail, none, s)
    else
      let fits := lcFieldsOk s r
      let s := renewNonce s
      if !fits then (yeDenied, none, s)
      else if action = 3 then (0, some (r, 0), s)
      else match lcEntry s.aon r.target with
      | none => (yeQuota, none, s)
      | some e => (0, some (r, e), s)

/-! ### Transitions (12 R382 to R385) -/

/-- Burns bits of a progress entry. -/
def burnEntry (e : Nat) (v : BitVec 64) (s : State) : State :=
  { s with aon := { s.aon with progress := tupd 0 s.aon.progress e fun x => x ||| v } }

/-- Burns a row of bytes: bits already set stay. -/
def burnBytes (old new : Bytes) : Bytes := if old = [] then new else List.zipWith (· ||| ·) (fit new.length old) new

/-- Step 1: DIGEST, the edge data, then STEP1. -/
def lcStep1 (r : LcReq) (e : Nat) (s : State) : State :=
  let digest := BitVec.ofNat 64 (ofLe ((sha384 r.sig.dual.payload).take 6) * 2 ^ 16)
  let s := burnEntry e digest s
  let s := match r.ia with
    | some d => { s with aon := { s.aon with ia := burnBytes s.aon.ia d } }
    | none => s
  logEntry 0x04 (le 1 e ++ le 1 1 ++ le 1 r.target) (burnEntry e 0x10 s)

/-- The sequencer takes over: block safe state, keep and stations held. -/
def lcHold (target : Nat) (s : State) : State :=
  let s := holdAll { s with flt := { s.flt with blockSafe := true } }
  { s with aon := { s.aon with phase := 6, phaseAt := s.now, target := target, retries := 0 } }

/-- The fuses of an edge in step 3 (12 R383). -/
def edgeFuses (src dst : Nat) (a : Aon) : Aon :=
  let a := if src = 1 ∧ dst = 3 then { a with makerDone := true } else a
  if dst = 6 then
    { a with seedWrap := List.replicate 40 0xFF, helper := List.replicate 256 0xFF, tokens := List.replicate 16 (List.replicate 32 0xFF) }
  else a

/-- Steps 2 to 4 of the entry in progress; a comparison that fails burns no STEP4, and a fourth failure holds the block.
The cold reset that follows a success starts the new state. -/
def lcSequence (readBackOk : Bool) (s : State) : State :=
  if s.aon.phase ≠ 6 ∨ 4 ≤ s.aon.retries then s
  else match inProgress s.aon with
  | none => s
  | some (e, _) =>
    let t := s.aon.target
    let s := burnEntry e 0x20 (wipe true s)
    let s := burnEntry e (BitVec.ofNat 64 (t % 16 * 2 ^ 12)) { s with aon := edgeFuses (lcCode s.aon) t s.aon }
    let s := burnEntry e 0x40 s
    let same := ((tget 0 s.aon.progress e).extractLsb' 12 4).toNat == t
    if readBackOk && same then coldReset 1 (burnEntry e 0x80 s)
    else { s with aon := { s.aon with retries := s.aon.retries + 1 } }

/-- LC_TRANSITION_SEQUENCE. -/
def execLcTransitionSequence (readBackOk : Bool) (s : State) : Res := .next (lcSequence readBackOk s)

/-! ### The test access port (12 R387 to R390) -/

/-- The block answers the TAP: it runs, it found no image, or a transition holds it (14 R445, 12 R382). -/
def tapUp (a : Aon) : Bool := a.phase == 1 || a.phase == 7 || a.phase == 6

/-- TAP_LC_REQUEST: a word of length and the request; the code is read back. -/
def tapRequest (b : Bytes) (s : State) : State :=
  let lc := lcCode s.aon
  if !tapUp s.aon ∨ ¬ (lc = 1 ∨ lc = 5) then s
  else
    let n := ofLe (cut 0 4 b)
    let req := (b.drop 4).take n
    let (code, r, s) := if req.length < n then (yeLength, none, s) else lcCheck 2 req (scratchOut false req s)
    let s := emit (.data (le 2 code)) s
    match r with
    | some (r, e) => lcHold r.target (lcStep1 r e s)
    | none => s

def execTapLcRequest (bytes : List (BitVec 8)) (s : State) : Res := .next (tapRequest bytes s)

/-- TAP_TOKEN: a match burns the token's bit, wipes, and enters Maker-Test until the next cold reset. -/
def tapToken (idx : BitVec 4) (token : BitVec 256) (s : State) : State :=
  let a := s.aon
  let lc := lcCode a
  if ¬ (a.phase = 1 ∨ a.phase = 7) ∨ ¬ (lc = 1 ∨ lc = 5) ∨ 3 ≤ a.tokenFails then s
  else
    let d := (sha384 (ascii "yk3 token" ++ fit 32 a.ueid ++ le 32 token.toNat)).take 32
    if a.tokens[idx.toNat]? == some d && !a.tokensUsed.getLsbD idx.toNat then
      wipe true { s with aon := { a with tokensUsed := a.tokensUsed ||| (1#16 <<< idx.toNat), testFrom := some lc } }
    else { s with aon := { a with tokenFails := a.tokenFails + 1 } }

def execTapToken (idx : BitVec 4) (token : BitVec 256) (s : State) : Res := .next (tapToken idx token s)

/-- Segments of 12 Table 12.9 in row order from 0: 2 is Memory test and 3 is Scan. -/
def segmentOpens (lc seg : Nat) : Bool := (seg == 2 && [1, 2, 5].contains lc) || (seg == 3 && lc == 2)

/-- TEST_SESSION_START: the first open of such a segment. -/
def testSession (seg : Nat) (s : State) : State :=
  if ¬ (s.aon.phase = 1 ∨ s.aon.phase = 7) ∨ s.aon.testSession ∨ !segmentOpens (lcCode s.aon) seg then s
  else
    let s := wipe true { s with flt := { s.flt with blockSafe := true } }
    let s := onEveryPort (fun p => { p with opened := false }) s
    { s with aon := { s.aon with testSession := true }, keep := { s.keep with portsOpen := false } }

def execTestSessionStart (segment : BitVec 8) (s : State) : Res := .next (testSession segment.toNat s)

/-! ### Repair records (12 R393, Table 12.10) -/

def recValid (r : BitVec 32) : Bool := r.getLsbD 31
def recSpare (r : BitVec 32) : Nat := (r.extractLsb' 29 2).toNat
def recColumn (r : BitVec 32) : Nat := (r.extractLsb' 20 9).toNat
def recMacro (r : BitVec 32) : Nat := (r.extractLsb' 0 16).toNat

/-- REPAIR_RECORD_BURN: `columns` is the macro's column count. -/
def repairBurn (r : BitVec 32) (columns : Nat) (s : State) : State :=
  let taken := s.aon.repairs.any fun x => recValid x && recMacro x == recMacro r && recSpare x == recSpare r
  if !s.aon.testSession ∨ taken ∨ columns ≤ recColumn r ∨ 4096 ≤ s.aon.repairs.length then s
  else { s with aon := { s.aon with repairs := s.aon.repairs ++ [r &&& 0xFFF0FFFF] } }

def execRepairRecordBurn (rec : BitVec 32) (columns : Nat) (s : State) : Res := .next (repairBurn rec columns s)

/-! ### Commands (12 Table 12.11) -/

/-- LC_NONCE. -/
def bodyLcNonce : Body := fun t _ _ s =>
  match s.keep.chipNonce with
  | some n => done t n s
  | none =>
    if !canDraw s 1 then waitDraw t s
    else
      let s := renewNonce s
      done t (s.keep.chipNonce.getD []) s

def execLcNonce (q : Nat) (e : BitVec 1024) (rc : BitVec 16) (inp : List (BitVec 8)) (s : State) : Res :=
  .next (takeCmd 0x1201 bodyLcNonce q e rc inp s)

/-- The request bytes of a command: Sett has them in secure scratch, and the protocol engines verify them. -/
def withRequest (t : Taken) (rc : Nat) (inp : Bytes) (k : Bytes → State → State) (s : State) : State :=
  let n := opnd t.e 10 2
  readIn t (opnd t.e 0 4) (opnd t.e 4 5) n rc (fun s => k (fit n inp) (scratchOut false (fit n inp) s)) s

/-- LC_TRANSITION: the fence signals at STEP1, and the sequencer goes on. -/
def bodyLcTransition : Body := fun t rc inp s =>
  withRequest t rc inp (fun b s =>
    let (code, r, s) := lcCheck 2 b s
    match r with
    | some (r, e) => lcHold r.target (done t (le 1 e) (lcStep1 r e s))
    | none => failCmd t code s) s

def execLcTransition (q : Nat) (e : BitVec 1024) (rc : BitVec 16) (inp : List (BitVec 8)) (s : State) : Res :=
  .next (takeCmd 0x1202 bodyLcTransition q e rc inp s)

/-- LC_STATUS. -/
def bodyLcStatus : Body := fun t _ _ s => done t (le 8 (lcStatus s).toNat) s

def execLcStatus (q : Nat) (e : BitVec 1024) (rc : BitVec 16) (inp : List (BitVec 8)) (s : State) : Res :=
  .next (takeCmd 0x1203 bodyLcStatus q e rc inp s)

/-- Steps 1 to 3 of a debug reopen; the keep then starts as after a warm reset with cause 0x02 (12 R391). -/
def debugReopen (s : State) : State :=
  let s := logEntry 0x0A (le 1 (lcCode s.aon)) s
  let s := wipe false (holdAll { s with flt := { s.flt with blockSafe := true } })
  { s with aon := { s.aon with debugOpen := true, phase := 3, phaseAt := s.now, cause := 2, warmOut := true, cutTime := none } }

/-- DEBUG_OPEN: the fence signals after the checks. -/
def bodyDebugOpen : Body := fun t rc inp s =>
  withRequest t rc inp (fun b s =>
    let (code, r, s) := lcCheck 3 b s
    match r with
    | some _ => debugReopen (done t [] s)
    | none => failCmd t code s) s

def execDebugOpen (q : Nat) (e : BitVec 1024) (rc : BitVec 16) (inp : List (BitVec 8)) (s : State) : Res :=
  .next (takeCmd 0x1204 bodyDebugOpen q e rc inp s)

end Sys2Proof.Machine
end

