-- ==== Sys2Proof/Machine/Resets.lean ====
section
/-! DEFINITION. Reset inputs, the warm reset sequence and the Squirrel vault, the Woodpecker watchdog, and the reset
commands (11 R358 to R366, R374; 14 R424, R425). -/

namespace Sys2Proof.Machine
open Sys2Proof Sys2Proof.Crypto

/-! ### Inputs -/

/-- COLD_RESET_INPUT: yk_rst_por_n falls, or the supplies do. -/
def coldInput (s : State) : State := let s := coldReset 0 s; { s with aon := { s.aon with porLow := true } }

def execColdResetInput (_powerOn : Bool) (s : State) : Res := .next (coldInput s)

/-- WARM_RESET_INPUT: a fall held low for at least 4 keep clocks. -/
def warmInput (keepClocks : Nat) (s : State) : State := if 4 ≤ keepClocks then requestWarm 2 s else s

def execWarmResetInput (keepClocks : Nat) (s : State) : Res := .next (warmInput keepClocks s)

/-! ### The vault (06 R208; 11 R362) -/

/-- Slots the vault takes at all, with whether both halves are written (06 Table 6.6). -/
def vaultSlot (k : KeySlot) : Bool := vaultable k.cls && k.state != 0 && k.state != 6 && !k.first
def vaultRecord (i : Nat) (k : KeySlot) : Bytes :=
  le 2 i ++ le 1 (if k.state = 4 then 2 else 1) ++ zeros 5 ++ le 8 (attrWord k).toNat ++ keyBytes k.cur ++
    if k.state = 4 then keyBytes k.pend else []

/-- The records of one owner's slots. -/
def vaultRecords (s : State) (p : KeySlot → Bool) : List Bytes :=
  (s.keys.filter fun k => vaultSlot k.2 && p k.2).map fun k => vaultRecord k.1 k.2

/-- KEEPOWN slots, then whole partitions in ascending order until one does not fit. -/
def vaultAll (s : State) : List Bytes :=
  let keep := vaultRecords s (·.keepOwn)
  let step (a : Bool × List Bytes) (p : Nat × Part) : Bool × List Bytes :=
    if !a.1 || !p.2.warm || p.2.state == 0 then a
    else
      let r := vaultRecords s fun k => !k.keepOwn && k.owner == p.1
      if a.2.flatten.length + r.flatten.length ≤ 32704 then (true, a.2 ++ r) else (false, a.2)
  (s.parts.foldl step (true, keep)).2

/-- Writes the vault under a new key, when DRBG instance 0 gives one. -/
def writeVault (s : State) : State :=
  if !canDraw s 0 then eraseVault s
  else
    let rs := vaultAll s
    let body := rs.flatten
    let (k, s) := draw0 s
    let head := ascii "YK3V" ++ le 2 rs.length ++ le 2 body.length ++ le 8 s.now ++ fit 16 s.keep.startId
    let (c, t) := gcmSeal k (0x56 :: zeros 11) head body
    { s with aon := { s.aon with vault := head ++ t ++ zeros 16 ++ c, vaultKey := k, vaultAt := some s.now } }

/-- VAULT_EXPIRY: 30 s after the write. -/
def vaultExpiry (s : State) : State :=
  match s.aon.vaultAt with
  | some t => if t + 3000000000 ≤ s.now then eraseVault s else s
  | none => s

def execVaultExpiry (s : State) : Res := .next (vaultExpiry s)

/-! ### The warm reset sequence (11 Table 11.6) -/

/-- Step 1: the safe state, the dump mirrors, and the end of a stop. -/
def warmStep1 (s : State) : State :=
  let s := { s with flt := { s.flt with blockSafe := true }, stop := { s.stop with inForce := false, resume := none } }
  if s.aon.cutTime.isSome then s else dumpTrigger 5 s

/-- Step 2: write-backs; an id not accepted is the station's number among its kind times its table's size, plus the index. -/
def warmStep2 (lostLines lostCtxs : List Nat) (s : State) : State :=
  let s := each Config.memIds (fun u s => saveLines u ((lostLines.filter fun x => x / 32768 == u).map (· % 32768)) s) s
  each Config.linkIds (fun u s => saveCtxs u ((lostCtxs.filter fun x => x / 8192 + 0x80 == u).map (· % 8192)) s) s

/-- Step 3: the metering interval ends with flag [2], and the checkpoint is written, if there are random bits for it. -/
def warmStep3 (s : State) : State :=
  if s.aon.cutTime.isSome then s
  else
    let s := endInterval s.now 4 s
    if canDraw s 1 then checkpoint s else s

/-- Step 4: the vault; RESET_WARM signals. -/
def warmStep4 (s : State) : State :=
  let s := writeVault s
  each (s.taken.filter fun t => t.phase == 2 && envOpcode t.e == 0x1111) (fun t s => done t [] s) s

/-- Key halves are lost; the attribute words stay. -/
def dropHalves (s : State) : State := { s with keys := tmap (fun _ k => { k with cur := 0, pend := 0 }) s.keys }

/-- Step 5: keep and stations are held, and what they held is cut. -/
def warmStep5 (s : State) : State :=
  let s := each stationIds cutStation s
  let s := holdAll (dropHalves s)
  { s with aon := { s.aon with phase := 3, phaseAt := s.now, warmOut := true } }

/-- WARM_RESET_SEQUENCE. -/
def warmSequence (lostLines lostCtxs : List Nat) (s : State) : State :=
  if s.aon.phase ≠ 2 then s
  else warmStep5 (warmStep4 (warmStep3 (warmStep2 lostLines lostCtxs (warmStep1 s))))

def execWarmResetSequence (lostLines lostContexts : List Nat) (s : State) : Res := .next (warmSequence lostLines lostContexts s)

/-! ### The watchdog (11 R364) -/

/-- A hang: a Fatal, the dump trigger, and a warm reset with cause 0x03. -/
def hang (s : State) : State := requestWarm 3 (let s := faultEvent Config.keepId 0x1F 0xFFFF 0 s; if s.aon.lockdown then s else dumpTrigger 3 s)

/-- WATCHDOG_PERIOD_EXPIRY: periods run from the last accepted beat. -/
def periodExpiry (s : State) : State :=
  let k := s.keep
  if !s.keepLive || !k.beaten || decide (s.now < k.beatAt + Config.ms (k.missed + 1)) then s
  else
    let s := { s with keep := { k with missed := k.missed + 1 } }
    if 10 ≤ k.missed + 1 then hang s else s

def execWatchdogPeriodExpiry (s : State) : Res := .next (periodExpiry s)

/-- WATCHDOG_START_TIMEOUT. -/
def startTimeout (s : State) : State :=
  if s.keepLive && !s.keep.beaten && decide (s.keep.startAt + Config.ms 100 ≤ s.now) then hang s else s

def execWatchdogStartTimeout (s : State) : Res := .next (startTimeout s)

/-! ### Station reset (11 Tables 11.5, 11.7; 10 R340) -/

/-- The unit's Notice, Degrade and Severe bits clear. -/
def clearUnitFaults (u : Nat) (s : State) : State :=
  { s with flt := { s.flt with words := tmap (fun i w => if i = u then { w with
      uncleared := w.uncleared &&& 0b1000#4, unack := w.unack &&& 0b1000#4, active := w.active.filter fun a => a.2 == 4 } else w) s.flt.words } }

/-- The station's logic, port and caches are as after reset; its intake sequence and its stop go on (11 R353). -/
def freshStation (u : Nat) (s : State) : State :=
  let p := s.port u
  let s := if isMem u then s.onMem u freshMem
    else if isLink u then s.onLink u freshLink
    else { s with host := { freshHost s.host with spdm := s.host.spdm } }
  s.onPort u fun x => { x with intake := p.intake, stopped := p.stopped, stopAt := p.stopAt, resumeAt := p.resumeAt,
                               stop := { p.stop with resetIn := p.stop.resetIn || s.stop.inForce } }

/-- Resets a station; `lost` names the write-backs that were not accepted. -/
def resetStation (u : Nat) (lost : List Nat) (s : State) : State :=
  let s := dumpTrigger 4 s
  let s := if isMem u then saveLines u lost s else if isLink u then saveCtxs u lost s else s
  let s := freshStation u (cutStation u s)
  let s := restartCounters u (clearUnitFaults u s)
  { s with aon := { s.aon with cause := 6 }, profs := tmap (fun _ p => if p.seq.isSome then { p with resetIn := true } else p) s.profs }

/-- RESET_STATION: the fence signals when the station is Open again, or Stopped. -/
def bodyResetStation : Body := fun t _ inp s =>
  let u := opnd t.e 0 1
  if !isStation u then failCmd t yeDenied s
  else keepRunning t u (resetStation u ((blocks 4 inp).map ofLe) s)

def execResetStation (q : Nat) (e : BitVec 1024) (rc : BitVec 16) (inp : List (BitVec 8)) (s : State) : Res :=
  .next (takeCmd 0x1110 bodyResetStation q e rc inp s)

/-- A station may open: no fault holds it Closed, and the block has opened its ports. -/
def mayOpen (s : State) (u : Nat) : Bool :=
  !(s.port u).heldClosed && !s.aon.testSession && s.keep.ready && (s.keep.portsOpen || u == Config.hostId)

/-- Stations whose reset is over open again. -/
def settleStationResets (s : State) : State :=
  each (s.taken.filter fun t => t.phase == 2 && envOpcode t.e == 0x1110) (fun t s =>
    done t [] (s.onPort t.aux fun p => { p with opened := mayOpen s t.aux })) s

/-! ### Block resets by command (11 R360, R366) -/

/-- RESET_WARM: the fence signals at the end of step 4. -/
def bodyResetWarm : Body := fun t _ _ s => requestWarm 2 (keepRunning t 0 s)

def execResetWarm (q : Nat) (e : BitVec 1024) (rc : BitVec 16) (inp : List (BitVec 8)) (s : State) : Res :=
  .next (takeCmd 0x1111 bodyResetWarm q e rc inp s)

/-- RESET_NONCE. -/
def bodyResetNonce : Body := fun t _ _ s =>
  if !canDraw s 1 then waitDraw t s
  else
    let (n, s) := drawBytes 32 s
    done t n { s with keep := { s.keep with resetNonce := some n } }

def execResetNonce (q : Nat) (e : BitVec 1024) (rc : BitVec 16) (inp : List (BitVec 8)) (s : State) : Res :=
  .next (takeCmd 0x1112 bodyResetNonce q e rc inp s)

/-- Writes every queued entry to the flash. -/
def flushLog (s : State) : State := each s.flash.queue (fun _ s => logWrite s) s

/-- RESET_COLD_SIGNED: on success the entry is in the log, the fence signals, and the cold reset follows 1 µs later. -/
def bodyResetColdSigned : Body := fun t rc inp s =>
  withRequest t rc inp (fun b s =>
    match (cborOf b).bind dualOf with
    | none => failCmd t yeLength s
    | some d =>
      if !dualOk s.keep.opKeyM s.keep.opKeyP d then failCmd t yeTagFail s
      else
        let n := s.keep.resetNonce
        let s := { s with keep := { s.keep with resetNonce := none } }
        let m := (cborOf d.payload).getD (.map [])
        if m.size ≠ 3 ∨ m.bstr 1 ≠ some (fit 32 s.aon.ueid) ∨ n = none ∨ m.bstr 2 ≠ n ∨ m.nat 3 ≠ some 1 then failCmd t yeDenied s
        else
          let s := flushLog (logEntry 0x06 ((n.getD []).take 16) s)
          done t [] { s with aon := { s.aon with coldAt := some (s.now + Config.us 1) } }) s

def execResetColdSigned (q : Nat) (e : BitVec 1024) (rc : BitVec 16) (inp : List (BitVec 8)) (s : State) : Res :=
  .next (takeCmd 0x1113 bodyResetColdSigned q e rc inp s)

/-- The signed cold reset, when it is due. -/
def settleCold (s : State) : State :=
  match s.aon.coldAt with
  | some t => if t ≤ s.now then coldReset 1 s else s
  | none => s

end Sys2Proof.Machine
end

