-- ==== Sys2Proof/Machine/Start.lean ====
section
/-! DEFINITION. The keep start, cold and warm (14 R426, R427, R444 to R446; 11 R363, R365; 07 R219 to R223; 08 R257, R292;
09 R298). -/

namespace Sys2Proof.Machine
open Sys2Proof Sys2Proof.Crypto

/-! ### The capability table (09 Tables 9.6, 9.7) -/

def unitKind (u : Nat) : Nat := if isMem u then 1 else if isLink u then 2 else if u = Config.hostId then 3 else if u = Config.keepId then 4 else 5

def unitEntry (s : State) (u : Nat) : Bytes :=
  let p := s.port u
  let held := isStation u && p.heldClosed
  le 1 u ++ le 1 (unitKind u) ++ le 1 (Config.dieOf u) ++ le 1 (if isMem u then u else if isLink u then u - 0x80 else 0xFF) ++
    le 1 (if isMem u then 8 else if isLink u then 16 else if u = Config.hostId then 4 else 0) ++
    le 1 (b2n (!isStation u || p.selfTest) 0 + b2n held 1) ++ le 2 (if isMem u then s.keep.vlBase.getD u 0 else 0)

def capHeader : Bytes :=
  ascii "YK3C" ++ le 2 1 ++ le 2 832 ++ le 1 4 ++ le 1 64 ++ le 1 18 ++ le 1 1 ++ le 2 88 ++ le 2 0 ++ le 4 1048576 ++ le 2 4096 ++ le 2 1024 ++
    le 4 65536 ++ le 2 2048 ++ le 2 16384 ++ le 2 256 ++ le 1 64 ++ le 1 8 ++ le 4 32768 ++ le 2 8192 ++ le 2 4096 ++ le 2 1024 ++ le 2 384 ++
    le 2 64 ++ le 2 1024 ++ le 2 64 ++ le 2 1024 ++ le 8 (2 ^ 33) ++ le 4 262144 ++ le 4 1920000 ++ le 4 1600000 ++ le 4 1200000 ++
    le 4 0x20000 ++ zeros 44

/-- In ascending station identifier: memory, link and host stations, keepway nodes, keep. -/
def capTable (s : State) : Bytes := capHeader ++ (unitIds.map (unitEntry s)).flatten

/-! ### What the fuses and the flash hold (14 Tables 14.6, 14.7) -/

/-- A fuse row is taken while it is unburnt, in Maker. -/
def fuseRow (s : State) (old new : Bytes) : Bytes := if lcCode s.aon = 1 ∧ old = [] then new else old

/-- A slot that was written anew outside the block loses its failed mark (14 R446). -/
def flashSlot (i : Nat) (b : Bytes) (s : State) : State :=
  if b = [] then s else { s with flash := { s.flash with images := tset s.flash.images i b, failed := tdel s.flash.failed i } }

/-- Rows and flash contents that stand at this start: UEID, EMA, ERA, the two root digests, EFW, helper data, token
digests, image slots A and B, four certificates; an empty one is as before. -/
def takeEnv (env : List Bytes) (s : State) : State :=
  let x (i : Nat) : Bytes := env.getD i []
  let a := s.aon
  let row := fuseRow s
  let toks := if lcCode a = 1 ∧ a.tokens = [] ∧ x 7 ≠ [] then (List.range 16).map fun i => cut (32 * i) 32 (x 7) else a.tokens
  let certs := (List.range 4).map fun i => if x (10 + i) = [] then s.flash.certs.getD i [] else x (10 + i)
  let s := { s with
    aon := { a with ueid := row a.ueid (x 0), ema := row a.ema (x 1), era := row a.era (x 2), rootM := row a.rootM (x 3),
                    rootP := row a.rootP (x 4), efw := row a.efw (x 5), helper := row a.helper (x 6), tokens := toks },
    flash := { s.flash with certs := if certs.all (· == []) then s.flash.certs else certs } }
  flashSlot 1 (x 9) (flashSlot 0 (x 8) s)

/-! ### Steps of a keep start (14 Table 14.3) -/

/-- Step 5: stations that fail their known-answer tests, and those of a die slice whose keepway link is too slow, are held
Closed. -/
def selfTests (failed badDies : List Nat) (s : State) : State :=
  let s := each stationIds (fun u s =>
    let bad := failed.contains u
    let s := s.onPort u fun p => { p with selfTest := !bad, heldClosed := bad || (badDies.contains (Config.dieOf u) && Config.dieOf u != 0) }
    if bad then faultEvent u 0x0B 0xFFFF 0 s else s) s
  each ((badDies.filter fun d => decide (0 < d) && decide (d < Config.dies)).eraseDups) (fun d s => faultEvent (0xE0 + d) 0x0B 0xFFFF 0 s) s

/-- The raw bits of a source's start-up test (06 Table 6.1). -/
def startBits (raw : BitVec 4096) (i : Nat) : BitVec 1024 := raw.extractLsb' (1024 * i) 1024

/-- Step 6: noise sources whose start-up test fails are not enabled, an instance that fails its known answer does not start,
and the others are instantiated from three conditioned blocks each (06 R185, R186). -/
def startRandom (raw : BitVec 4096) (kat : BitVec 2) (s : State) : State :=
  let off := (List.range 4).filter fun i => unhealthy (startBits raw i)
  let noise : BitVec 4 := off.foldl (fun n i => n &&& ~~~(1#4 <<< i)) 15
  let (b, s) := takeCond 6 s
  let pers := fit 32 s.aon.ueid ++ le 8 s.now
  let s := { s with keep := { s.keep with
    noise := noise, drbgUp := kat, drbg0 := drbgStart (b.take 48) pers s.now, drbg1 := drbgStart (b.drop 48) pers s.now,
    condRaw := 0, condBuf := 0 } }
  let s := each off.zipIdx (fun x s => faultAs Config.keepId 0x18 (if 3 - x.2 < 2 then 3 else 2) 0xFFFF (BitVec.ofNat 64 x.1) s) s
  each ((List.range 2).filter fun i => !kat.getLsbD i) (fun i s => faultEvent Config.keepId 0x19 0xFFFF (BitVec.ofNat 64 i) s) s

/-- Steps 5 and 6 of 07 R219: the seed out of its wrap; at the first start at Maker a new seed is wrapped and burnt. -/
def takeSeed (pufOk : Bool) (pufKey : BitVec 256) (s : State) : Option State :=
  if !pufOk then none
  else if s.aon.seedWrap = [] then
    if lcCode s.aon ≠ 1 ∨ !canDraw s 0 then none
    else
      let (k, s) := draw0 s
      some { s with aon := { s.aon with seedWrap := kwWrap pufKey (keyBytes k) }, keep := { s.keep with seed := keyBytes k } }
  else (kwUnwrap pufKey s.aon.seedWrap).map fun b => { s with keep := { s.keep with seed := b } }

/-- The keep does not start: every port stays Closed. -/
def dead (s : State) : State := { s with aon := { s.aon with phase := 7, phaseAt := s.now } }

/-- The start identifier, and the endorsement under it (07 Table 7.3, R223): without the random bits for them this keep start has
neither (log 144). -/
def startEndorse (s : State) : State :=
  if !canDraw s 1 then { s with keep := { s.keep with startId := [], endorse := [] } }
  else
    let (n, s) := drawBytes 16 s
    let s := { s with keep := { s.keep with startId := n } }
    let (d, s) := signDual s.ik (endorsement s) s
    { s with keep := { s.keep with endorse := d } }

/-- Step 8: identity, certificates and the endorsement. -/
def startIdentity (s : State) : State :=
  let ok := s.flash.certs.length == 4 && certSubject (s.flash.certs.getD 1 []) == s.ik.mPub &&
    certSubject (s.flash.certs.getD 3 []) == s.ik.pPub
  let s := { s with keep := { s.keep with chainOk := ok, caSeen := [] } }
  startEndorse (if ok then s else faultEvent Config.keepId 0x1C 0xFFFF 0 s)

/-- The engine state key of this keep start (06 Table 6.3). -/
def startEngineKey (s : State) : State :=
  if !canDraw s 0 then s
  else match freeSlot s true with
  | none => s
  | some i =>
    let (k, s) := draw0 s
    if s.keep.verifyBad then keyFails s else firstKey i 0xE 0 true k s

/-- The keep's own version key, under which the operator partition's lines stand, if it has none (06 Table 6.3). -/
def startVerKey (s : State) : State :=
  if (s.keep.verSlot.any fun i => (s.key i).state != 0 && (s.key i).cls == 2) || !canDraw s 0 then s
  else match freeSlot s true with
  | none => s
  | some i =>
    let (k, s) := draw0 s
    if s.keep.verifyBad then keyFails s else { firstKey i 2 0 true k s with keep := { s.keep with verSlot := some i } }

/-- Step 9: registers of the keep as at its reset, the capability table, and KEEP_READY. -/
def keepReady (s : State) : State :=
  let k := s.keep
  let s := { s with keep := { k with
    ready := true, portsOpen := false, adminReady := false, startAt := s.now, beat := 0, beatAt := s.now, missed := 0, beaten := false,
    resetNonce := none, aqRing := 0, aqResult := 0, ev0Ring := 0, adminCtrl := 0, ev0Vector := 0, tableSel := 0, tableIdx := 0,
    tableStat := 0, tableData := [], snapCtrl := 0, snapData := [], rr := 0, capab := capTable s } }
  let s := renewNonce s
  { s with aon := { s.aon with phase := 1, phaseAt := s.now, warmOut := false, trial := false } }

/-- The keep-start entry, and the lockdown's (14 Table 14.12). -/
def logStart (s : State) : State :=
  let s := logEntry 0x01 (le 1 s.aon.cause ++ le 1 s.aon.slot ++ zeros 2 ++ le 4 s.keep.imageSeq ++ fit 16 s.keep.startId) s
  if s.aon.cause = 4 then logEntry 0x09 (le 8 s.aon.trip.toNat) s else s

/-- Step 10: stations open unless a fault or a test session holds them; out of service, the host station alone. -/
def openStations (s : State) : State :=
  let s := if s.aon.outOfService ∨ s.aon.testSession then s else { s with keep := { s.keep with portsOpen := true } }
  each stationIds (fun u s => s.onPort u fun p => { p with opened := mayOpen s u }) s

/-- A hang before KEEP_READY: what had been held stays held, and the keep start comes again (11 R364). -/
def hangAtStart (s : State) : State :=
  let s := hang { s with aon := { s.aon with phase := 1 } }
  if s.aon.phase = 2 then { s with aon := { s.aon with phase := 3, phaseAt := s.now, warmOut := true } } else s

/-! ### Cold keep start (14 R426) -/

/-- The copy has not been named by a keep start of the log (14 R446). -/
def onTrial (s : State) (slot seq : Nat) : Bool :=
  !((s.flash.sectors.map fun x => x.2.entries).flatten.any fun e => fld e 16 1 == 1 && fld e 25 1 == slot && fld e 28 4 == seq)

/-- A copy on trial that hangs is marked failed, and the block resets itself (14 R446). -/
def trialFailed (s : State) : State :=
  let s := flushLog (logEntry 0x08 (le 1 s.aon.slot ++ zeros 3 ++ le 4 s.keep.imageSeq) s)
  coldReset 0 { s with flash := { s.flash with failed := tset s.flash.failed s.aon.slot s.keep.imageSeq } }

/-- The number of the first handoff is drawn (08 R269). -/
def startHandoffs (s : State) : State :=
  if !canDraw s 1 then s
  else
    let (h, s) := drawBytes 4 s
    { s with nextHandoff := BitVec.ofNat 32 (ofLe h) }

/-- Steps 7 to 10, for a selected copy. -/
def coldRun (slot : Nat) (runs : Bool) (s : State) : State :=
  let s := loadImage slot s
  let s := { s with aon := { s.aon with trial := onTrial s slot s.keep.imageSeq } }
  if !runs then (if s.aon.trial then trialFailed s else hangAtStart s)
  else
    let s := closeNewest (startIdentity s)
    let s := startChain (startVerKey (startEngineKey (startHandoffs s)))
    let s := restartClock (keepReady s)
    let s := { s with aon := { s.aon with outOfService := logOutOfService s } }
    openStations (logStart s)

/-- Steps 5 to 10. -/
def coldUp (pufOk : Bool) (pufKey : BitVec 256) (selfFail badDies : List Nat) (raw : BitVec 4096) (kat : BitVec 2) (runs : Bool)
    (s : State) : State :=
  let s := startRandom raw kat (selfTests selfFail badDies { s with aon := { s.aon with coldOut := false } })
  match takeSeed pufOk pufKey s with
  | none => dead (faultEvent Config.keepId 0x1B 0xFFFF 0 s)
  | some s =>
    match selectSlot s with
    | none => dead s
    | some slot => coldRun slot runs s

/-- COLD_KEEP_START: by the rise of the input, or after a cold reset of the block's own.  A Scrapped part starts no keep,
and a transition in progress is resumed instead (12 R376, R384).  The repair records are loaded first (12 R392). -/
def coldStart (env : List Bytes) (byPin : Bool) (pufOk : Bool) (pufKey : BitVec 256) (selfFail badDies : List Nat) (raw : BitVec 4096)
    (kat : BitVec 2) (runs : Bool) (s : State) : State :=
  if s.aon.phase ≠ 0 ∨ byPin ≠ s.aon.porLow then s
  else
    let s := takeEnv env { s with aon := { s.aon with porLow := false, spares := s.aon.repairs.filter recValid } }
    if lcCode s.aon = 6 then dead { s with keep := { s.keep with capab := capTable s }, aon := { s.aon with coldOut := false } }
    else if (inProgress s.aon).isSome then { s with aon := { s.aon with phase := 6, phaseAt := s.now, retries := 0 } }
    else coldUp pufOk pufKey selfFail badDies raw kat runs s

def execColdKeepStart (env : List Bytes) (byPin _woken pufOk : Bool) (pufKey : BitVec 256) (selfFail badDies : List Nat)
    (raw : BitVec 4096) (kat : BitVec 2) (hang : Bool) (s : State) : Res :=
  .next (coldStart env byPin pufOk pufKey selfFail badDies raw kat (!hang) s)

/-! ### The vault's restore (11 R363, 06 Table 6.6) -/

/-- Records of a vault body: slot, halves. -/
def vaultItems : Nat → Bytes → List (Nat × BitVec 256 × Option (BitVec 256))
  | 0, _ => []
  | n + 1, b =>
    let two := fld b 2 1 == 2
    (fld b 0 2, keyOf (cut 16 32 b), if two then some (keyOf (cut 48 32 b)) else none) :: vaultItems n (b.drop (if two then 80 else 48))

/-- The records of the image, or none when its tag fails. -/
def vaultOpen (a : Aon) : Option (List (Nat × BitVec 256 × Option (BitVec 256))) :=
  let v := a.vault
  (gcmOpen a.vaultKey (0x56 :: zeros 11) (cut 0 32 v) ((v.drop 64).take (fld v 6 2)) (cut 32 16 v)).map fun b => vaultItems (fld v 4 2) b

/-- A slot after the restore: its halves, or Empty with its generation kept. -/
def restored (items : List (Nat × BitVec 256 × Option (BitVec 256))) (i : Nat) (k : KeySlot) : KeySlot :=
  match items.find? fun x => x.1 == i with
  | none => { gen := k.gen }
  | some (_, c, p) =>
    { k with state := if p.isSome then 4 else 1, cur := c, pend := p.getD 0, pendIs := if p.isSome then 1 else 0,
             waitSwap := [], waitPurge := [], purging := 0, cutAt := none }

/-- The keep unseals the image, restores its slots, and clears the vault; out of service, KEEPOWN slots alone. -/
def restoreVault (s : State) : State :=
  let found := s.aon.vault ≠ []
  let items := if found then vaultOpen s.aon else some []
  let s := if items.isNone then faultEvent Config.keepId 0x21 0xFFFF 0 s else s
  let l := (items.getD []).filter fun x => !s.aon.outOfService || (s.key x.1).keepOwn
  eraseVault { s with keys := tmap (restored l) s.keys }

/-! ### What a warm reset ends (11 Table 11.7; 08 R257) -/

/-- Every taken command that is not complete fails. -/
def failTaken (s : State) : State := each s.taken (fun t s => failCmd t yePoison s) s

/-- A partition survives when each slot that counts came back. -/
def survives (old : Tab KeySlot) (s : State) (p : Nat) : Bool :=
  !s.aon.outOfService && (s.key (s.part p).verSlot).state != 0 &&
  old.all fun k => !(vaultSlot k.2 && !k.2.keepOwn && k.2.owner == p) || (s.key k.1).state != 0

/-- Memberships, exports and imports, cipher users, descriptors and sets end.  Offers are reclaimed; the records of handoffs stay in
the keep's own region, so that a receiver's later query finds its answer (08 R276, R277; log 146). -/
def endWork (s : State) : State :=
  let s := each (s.handoffs.filter (·.offerer)) (reclaim · yePoison) s
  let s := each (s.accs.map (·.1)) failAcc s
  let s := { s with parts := tmap (fun i p => if (tget ({} : Mig) s.migs i).source ∧ p.state = 4 then { p with state := 3 } else p) s.parts }
  { s with
    doms := tmap (fun _ d => { attach := d.attach, portMap := d.portMap, msgNum := d.msgNum }) s.doms,
    link := tmap (fun _ l => { l with jobs := tmap (fun _ j => { flush := j.flush }) l.jobs, ctxs := [], lost := [] }) s.link,
    users := [], opTab := [], profs := [], trace := {}, stop := {}, host := freshHost s.host }

/-- The draining epoch retires, and stop stamps go. -/
def endEpoch (s : State) : State :=
  { onEveryPort (fun p => { p with drain := none, stopAt := none, resumeAt := none, stopped := false }) s with epochDraining := false, oldSlices := [] }

/-- Partitions that did not survive, and importing ones, are removed; regions whose key is lost are free. -/
def endLost (old : Tab KeySlot) (s : State) : State :=
  let gone := (s.parts.filter fun p => p.2.state != 0 && (!survives old s p.1 || p.2.state == 2)).map (·.1)
  let s := each gone removeAtStart { s with migs := [] }
  let s := each ((s.objs.filter fun o => o.2.cls != 4 && o.2.state != 0 && o.2.state != 4 && (s.key o.2.keySlot).state == 0).map (·.1)) freeObject s
  { s with mem := tmap (fun _ m => { m with retSlots := m.retSlots.filter fun i => (s.key i).state == 6 }) s.mem }

/-- Every unit's fault bits clear, counting windows restart, and counters restart. -/
def clearFaults (s : State) : State :=
  let s := { s with flt := { s.flt with words := [], vector := 0, blockSafe := false, windows := s.flt.windows.map fun w => (w.1, { w.2 with count := 0, closeAt := none }) } }
  each unitIds restartCounters s

/-- The interval a hang cut is recorded first in the new chain (08 R292). -/
def cutInterval (s : State) : State :=
  let s := match s.aon.cutTime with
    | some t => endInterval t 4 s
    | none => s
  { s with aon := { s.aon with cutTime := none },
           meter := { s.meter with slot := s.meter.slot.filter fun i => (s.key i).state != 0, fresh := false } }

/-- Context 0 and queue 0 wait for ADMIN_CTRL.ENABLE. -/
def dropAdmin (s : State) : State :=
  { s with ctxs := tdel s.ctxs 0, queues := tmap (fun _ q => { q with pausedAt := none }) (tdel s.queues 0) }

/-! ### Warm keep start (14 R427) -/

/-- The block times of the last three warm resets, for the out-of-service entry. -/
def logOut (s : State) : State :=
  if s.aon.cause = 5 then logEntry 0x05 ((s.aon.warmTimes.reverse.map (le 8)).flatten) s else s

/-- Steps 7 to 9 from the copy last selected, then the vault, the dump and the stations. -/
def warmRun (runs : Bool) (s : State) : State :=
  if !slotValid s s.aon.slot then dead s
  else if !runs then hangAtStart s
  else
    let p := s.keep.policy
    let s := loadImage s.aon.slot s
    let s := { s with keep := { s.keep with policy := max p s.keep.policy } }
    let s := startChain (closeNewest (startIdentity s))
    let old := s.keys
    let s := restoreVault s
    let s := endLost old (endEpoch (endWork (failTaken s)))
    let s := cutInterval (startVerKey (startEngineKey (dropAdmin s)))
    let s := restartClock (keepReady s)
    let s := logOut (logStart s)
    let s := if s.dump.armed.isSome then endDump s else s
    openStations s

/-- WARM_KEEP_START: 10 µs after the hold. -/
def warmStart (pufOk : Bool) (pufKey : BitVec 256) (selfFail badDies : List Nat) (raw : BitVec 4096) (kat : BitVec 2) (runs : Bool)
    (s : State) : State :=
  if s.aon.phase ≠ 3 ∨ s.now < s.aon.phaseAt + Config.us 10 then s
  else
    let s := startRandom raw kat (selfTests selfFail badDies (clearFaults s))
    match takeSeed pufOk pufKey s with
    | none => dead (faultEvent Config.keepId 0x1B 0xFFFF 0 s)
    | some s => warmRun runs s

def execWarmKeepStart (pufOk : Bool) (pufKey : BitVec 256) (selfFail badDies : List Nat) (raw : BitVec 4096) (kat : BitVec 2)
    (hang : Bool) (s : State) : Res :=
  .next (warmStart pufOk pufKey selfFail badDies raw kat (!hang) s)

end Sys2Proof.Machine
end

