-- ==== Sys2Proof/Machine/Begin.lean ====
section
/-! DEFINITION. Starting a taken command that waited: the bodies by opcode, and COMMAND_START (09 R307). -/

namespace Sys2Proof.Machine
open Sys2Proof

def bodies0 : List (Nat × Body) := [
  (0x0401, bodyRegionReload),
  (0x0402, bodyRegionSeal),
  (0x0410, bodyAccOpen),
  (0x0411, bodyAccClose),
  (0x0501, bodyLinkJobConfig),
  (0x0510, bodyArrivalOpen),
  (0x0511, bodyArrivalClose),
  (0x0512, bodyBulkCopy),
  (0x0520, bodyCkptSend),
  (0x0521, bodyCkptRestore),
  (0x0522, bodyParityRebuild),
  (0x0601, bodyKeyCreate),
  (0x0602, bodyKeyRotate),
  (0x0603, bodyKeyRetirePrevious),
  (0x0604, bodyKeyDestroy),
  (0x0605, bodyKeyQuery),
  (0x0606, bodyKeyImport),
  (0x0610, bodyGcmSeal),
  (0x0611, bodyGcmUnseal),
  (0x0612, bodyCtr),
  (0x0613, bodyCmac),
  (0x0614, bodyWrap),
  (0x0615, bodyUnwrap),
  (0x0618, bodyStateSave),
  (0x0619, bodyStateRestore)]

def bodies1 : List (Nat × Body) := [
  (0x061a, bodyOpCancel),
  (0x0620, bodyRandomGet),
  (0x0701, bodyEvidenceGet),
  (0x0702, bodyIdentityGet),
  (0x0710, bodyDomainCreate),
  (0x0711, bodyDomainJoinPrepare),
  (0x0712, bodyDomainMessage),
  (0x0713, bodyDomainLeave),
  (0x0714, bodyDomainEnd),
  (0x0715, bodyDomainRotate),
  (0x0716, bodyDomainStatus),
  (0x0717, bodyDomainAttachMap),
  (0x0801, bodyPartCreate),
  (0x0802, bodyPartRemove),
  (0x0803, bodyCompose),
  (0x0804, bodyPartFreeze),
  (0x0805, bodyPartThaw),
  (0x0810, bodyMigratePrepare),
  (0x0811, bodyMigrateStart),
  (0x0812, bodyMigrateExport),
  (0x0813, bodyMigrateImport),
  (0x0814, bodyMigrateFinish),
  (0x0815, bodyMigrateAbort),
  (0x0820, bodyHandoffOffer),
  (0x0821, bodyHandoffLanding)]

def bodies2 : List (Nat × Body) := [
  (0x0822, bodyHandoffAbandon),
  (0x0830, bodyMeterConfig),
  (0x0900, bodyNop),
  (0x0901, bodyCtxCreate),
  (0x0902, bodyCtxAbandon),
  (0x0903, bodyCtxClose),
  (0x0910, bodyQueueCreate),
  (0x0911, bodyQueueDestroy),
  (0x0920, bodyObjAlloc),
  (0x0921, bodyObjFree),
  (0x0922, bodyObjShare),
  (0x0923, bodyObjQuery),
  (0x0930, bodyFenceAlloc),
  (0x0931, bodyFenceFree),
  (0x0932, bodyFenceShare),
  (0x0933, bodyFenceRelease),
  (0x0934, bodyFenceQuery),
  (0x0940, bodyWorkBegin),
  (0x0941, bodyWorkEnd),
  (0x1001, bodyFaultClear),
  (0x1002, bodyFaultThreshold),
  (0x1003, bodyHedgehogPolicy),
  (0x1004, bodyFaultInject),
  (0x1101, bodyStopWave),
  (0x1102, bodyStopResume)]

def bodies3 : List (Nat × Body) := [
  (0x1103, bodyStopRecords),
  (0x1110, bodyResetStation),
  (0x1111, bodyResetWarm),
  (0x1112, bodyResetNonce),
  (0x1113, bodyResetColdSigned),
  (0x1120, bodyDumpConfig),
  (0x1121, bodyDumpStart),
  (0x1201, bodyLcNonce),
  (0x1202, bodyLcTransition),
  (0x1203, bodyLcStatus),
  (0x1204, bodyDebugOpen),
  (0x1301, bodyCounterClear),
  (0x1310, bodyProfileBind),
  (0x1320, bodyTraceConfig),
  (0x1321, bodyTraceRing),
  (0x1401, bodyImageUpdate),
  (0x1402, bodyImageStatus),
  (0x1403, bodyLogRead)]

/-- Every command's body, by opcode. -/
def bodyOf (op : Nat) : Body := ((bodies0 ++ bodies1 ++ bodies2 ++ bodies3).lookup op).getD fun _ _ _ s => s

/-- A command that waits for random bits tries again; its wait goes on from when it first asked (06 R188). -/
def resumeDraw (t : Taken) (rc : Nat) (inp : Bytes) (s : State) : State :=
  let mark (a : Option Nat) (s : State) : State :=
    { s with taken := s.taken.map fun x => if x.q == t.q && x.seq == t.seq then { x with askedDrbg := a } else x }
  let u := bodyOf (envOpcode t.e) { t with askedDrbg := none } rc inp (mark none s)
  if (findTaken u t.q t.seq).any fun x => x.askedDrbg.isSome then mark t.askedDrbg u else u

/-- A waiting command's turn, with the code and the bytes of its input reads. -/
def commandStart (q seq rc : Nat) (inp : List (BitVec 8)) (s : State) : State :=
  match findTaken s q seq with
  | some t =>
    if !s.keepLive then s
    else if t.phase = 1 then tryStart (bodyOf (envOpcode t.e)) { t with inp := inp } rc inp s
    else if t.askedDrbg.isSome then resumeDraw t rc inp s
    else s
  | none => s

/-- COMMAND_START. -/
def execCommandStart (q : Nat) (seq : BitVec 32) (rc : BitVec 16) (inp : List (BitVec 8)) (s : State) : Res :=
  .next (commandStart q seq.toNat rc.toNat inp s)

end Sys2Proof.Machine
end

