-- ==== Sys2Proof/Machine/Dispatch.lean ====
section
/-! DEFINITION. One arm for each command of the block. -/

namespace Sys2Proof.Machine
open Sys2Proof

def exec (i : Instr) (s : State) : Host.Outcome State Fault Refusal :=
  match i with
  | .coldKeepStart env byPin woken pufOk pufKey selfFail badDies noise kat hang => Sys2Proof.Machine.execColdKeepStart env byPin woken pufOk pufKey selfFail badDies noise kat hang s
  | .coldResetInput powerOn => Sys2Proof.Machine.execColdResetInput powerOn s
  | .warmResetInput keepClocks => Sys2Proof.Machine.execWarmResetInput keepClocks s
  | .warmResetSequence lostLines lostContexts => Sys2Proof.Machine.execWarmResetSequence lostLines lostContexts s
  | .warmKeepStart pufOk pufKey selfFail badDies noise kat hang => Sys2Proof.Machine.execWarmKeepStart pufOk pufKey selfFail badDies noise kat hang s
  | .vaultExpiry => Sys2Proof.Machine.execVaultExpiry s
  | .currentLimitAssert => Sys2Proof.Machine.execCurrentLimitAssert s
  | .junctionReading die raw valid => Sys2Proof.Machine.execJunctionReading die raw valid s
  | .stepDownExit => Sys2Proof.Machine.execStepDownExit s
  | .sensorInvalidTimeout die sensor => Sys2Proof.Machine.execSensorInvalidTimeout die sensor s
  | .boostBudgetSpent => Sys2Proof.Machine.execBoostBudgetSpent s
  | .cipherClockSwitch => Sys2Proof.Machine.execCipherClockSwitch s
  | .hedgehogTrip sensors => Sys2Proof.Machine.execHedgehogTrip sensors s
  | .linkDown port => Sys2Proof.Machine.execLinkDown port s
  | .keepwayCrcError node frame => Sys2Proof.Machine.execKeepwayCrcError node frame s
  | .keepwayFrameRepeat node station => Sys2Proof.Machine.execKeepwayFrameRepeat node station s
  | .readTile st origin req => Sys2Proof.Machine.execReadTile st origin req s
  | .readSectors st origin req => Sys2Proof.Machine.execReadSectors st origin req s
  | .writeTile st origin req data => Sys2Proof.Machine.execWriteTile st origin req data s
  | .writeRange st origin req data => Sys2Proof.Machine.execWriteRange st origin req data s
  | .accumulate st origin req data => Sys2Proof.Machine.execAccumulate st origin req data s
  | .headerReadReturn st acc hdr => Sys2Proof.Machine.execHeaderReadReturn st acc hdr s
  | .channelReadReturn st acc data => Sys2Proof.Machine.execChannelReadReturn st acc data s
  | .channelWriteAck st acc => Sys2Proof.Machine.execChannelWriteAck st acc s
  | .lineFetchReturn st entry line => Sys2Proof.Machine.execLineFetchReturn st entry line s
  | .keyDelivery st slot gen => Sys2Proof.Machine.execKeyDelivery st slot gen s
  | .descriptorRefill st handle => Sys2Proof.Machine.execDescriptorRefill st handle s
  | .requestTimeout st tag => Sys2Proof.Machine.execRequestTimeout st tag s
  | .resealSlot st hdr payload => Sys2Proof.Machine.execResealSlot st hdr payload s
  | .regionRekeyStart obj station cause => Sys2Proof.Machine.execRegionRekeyStart obj station cause s
  | .rekeyMove st obj hdr payload => Sys2Proof.Machine.execRekeyMove st obj hdr payload s
  | .regionRekeyCommit obj => Sys2Proof.Machine.execRegionRekeyCommit obj s
  | .keyRetiringMark st slot => Sys2Proof.Machine.execKeyRetiringMark st slot s
  | .keyDrainCut st slot => Sys2Proof.Machine.execKeyDrainCut st slot s
  | .epochRetirementCut st => Sys2Proof.Machine.execEpochRetirementCut st s
  | .freezeArrival st part obj => Sys2Proof.Machine.execFreezeArrival st part obj s
  | .safeStateEntry unit => Sys2Proof.Machine.execSafeStateEntry unit s
  | .stopTick => Sys2Proof.Machine.execStopTick s
  | .resumeTick => Sys2Proof.Machine.execResumeTick s
  | .measuredHashComplete st obj stripe => Sys2Proof.Machine.execMeasuredHashComplete st obj stripe s
  | .regionSealFold obj => Sys2Proof.Machine.execRegionSealFold obj s
  | .linkRequestIntake st req data => Sys2Proof.Machine.execLinkRequestIntake st req data s
  | .instanceOpen st part peer space => Sys2Proof.Machine.execInstanceOpen st part peer space s
  | .contextRefillDone st part peer dir space => Sys2Proof.Machine.execContextRefillDone st part peer dir space s
  | .bundleFlushTimeout st part peer => Sys2Proof.Machine.execBundleFlushTimeout st part peer s
  | .packetArrival st slot bytes => Sys2Proof.Machine.execPacketArrival st slot bytes s
  | .packetApply st part peer space => Sys2Proof.Machine.execPacketApply st part peer space s
  | .loadDataRelease st tag => Sys2Proof.Machine.execLoadDataRelease st tag s
  | .flaggedStoreRelease st part peer => Sys2Proof.Machine.execFlaggedStoreRelease st part peer s
  | .atomicResult st tag old => Sys2Proof.Machine.execAtomicResult st tag old s
  | .invalidateDone st tag => Sys2Proof.Machine.execInvalidateDone st tag s
  | .flushDone st tag => Sys2Proof.Machine.execFlushDone st tag s
  | .gapTimeout st part peer space => Sys2Proof.Machine.execGapTimeout st part peer space s
  | .trackerTimeout st idx => Sys2Proof.Machine.execTrackerTimeout st idx s
  | .rotationCommitArrival part => Sys2Proof.Machine.execRotationCommitArrival part s
  | .generationDrainTimeout st part => Sys2Proof.Machine.execGenerationDrainTimeout st part s
  | .memberLostArrival part dev mark => Sys2Proof.Machine.execMemberLostArrival part dev mark s
  | .bulkCompletionReport st tag => Sys2Proof.Machine.execBulkCompletionReport st tag s
  | .hostDmaRequest iface stream ide tbit write req data tag => Sys2Proof.Machine.execHostDmaRequest iface stream ide tbit write req data tag s
  | .ideIntegrityFailure stream => Sys2Proof.Machine.execIdeIntegrityFailure stream s
  | .spdmRequest session msg => Sys2Proof.Machine.execSpdmRequest session msg s
  | .keyProg session stream keySet sub key => Sys2Proof.Machine.execKeyProg session stream keySet sub key s
  | .kSetGo session stream keySet => Sys2Proof.Machine.execKSetGo session stream keySet s
  | .kSetStop session stream keySet => Sys2Proof.Machine.execKSetStop session stream keySet s
  | .lockInterfaceRequest session iface part stream => Sys2Proof.Machine.execLockInterfaceRequest session iface part stream s
  | .startInterfaceRequest session iface => Sys2Proof.Machine.execStartInterfaceRequest session iface s
  | .stopInterfaceRequest session iface => Sys2Proof.Machine.execStopInterfaceRequest session iface s
  | .getDeviceInterfaceReport session iface => Sys2Proof.Machine.execGetDeviceInterfaceReport session iface s
  | .hostDoorbellWrite q v => Sys2Proof.Machine.execHostDoorbellWrite q v s
  | .deviceDoorbellWrite q v src => Sys2Proof.Machine.execDeviceDoorbellWrite q v src s
  | .runNotice v src => Sys2Proof.Machine.execRunNotice v src s
  | .arrivalCounterRead idx src => Sys2Proof.Machine.execArrivalCounterRead idx src s
  | .adminEnable v => Sys2Proof.Machine.execAdminEnable v s
  | .tableRead v => Sys2Proof.Machine.execTableRead v s
  | .eventHeadWrite ctx v => Sys2Proof.Machine.execEventHeadWrite ctx v s
  | .faultAcknowledge unit v => Sys2Proof.Machine.execFaultAcknowledge unit v s
  | .unitSnapshot v => Sys2Proof.Machine.execUnitSnapshot v s
  | .profileSnapshot v => Sys2Proof.Machine.execProfileSnapshot v s
  | .heartbeatWrite v => Sys2Proof.Machine.execHeartbeatWrite v s
  | .registerWrite off wide v => Sys2Proof.Machine.execRegisterWrite off wide v s
  | .commandStart q seq rc inp => Sys2Proof.Machine.execCommandStart q seq rc inp s
  | .commandWaitTimeout q seq => Sys2Proof.Machine.execCommandWaitTimeout q seq s
  | .takePauseTimeout q => Sys2Proof.Machine.execTakePauseTimeout q s
  | .fenceFailureReport fence part code detail => Sys2Proof.Machine.execFenceFailureReport fence part code detail s
  | .objectRetire obj => Sys2Proof.Machine.execObjectRetire obj s
  | .ctxCloseComplete ctx => Sys2Proof.Machine.execCtxCloseComplete ctx s
  | .epochDrainComplete => Sys2Proof.Machine.execEpochDrainComplete s
  | .epochDrainTimeout => Sys2Proof.Machine.execEpochDrainTimeout s
  | .keyDrainComplete slot => Sys2Proof.Machine.execKeyDrainComplete slot s
  | .keyDrainTimeout slot => Sys2Proof.Machine.execKeyDrainTimeout slot s
  | .keyPurgeConfirm slot st gen => Sys2Proof.Machine.execKeyPurgeConfirm slot st gen s
  | .swapConfirm slot st => Sys2Proof.Machine.execSwapConfirm slot st s
  | .partitionRemovalDrainEnd part => Sys2Proof.Machine.execPartitionRemovalDrainEnd part s
  | .partitionRemovalFlightExpiry part => Sys2Proof.Machine.execPartitionRemovalFlightExpiry part s
  | .meteringIntervalEnd => Sys2Proof.Machine.execMeteringIntervalEnd s
  | .meteringCheckpoint => Sys2Proof.Machine.execMeteringCheckpoint s
  | .faultWindowClose unit src => Sys2Proof.Machine.execFaultWindowClose unit src s
  | .watchdogPeriodExpiry => Sys2Proof.Machine.execWatchdogPeriodExpiry s
  | .watchdogStartTimeout => Sys2Proof.Machine.execWatchdogStartTimeout s
  | .noiseSourceFailure source => Sys2Proof.Machine.execNoiseSourceFailure source s
  | .drbgReseed inst => Sys2Proof.Machine.execDrbgReseed inst s
  | .drbgWaitTimeout q seq => Sys2Proof.Machine.execDrbgWaitTimeout q seq s
  | .dumpTrigger kind => Sys2Proof.Machine.execDumpTrigger kind s
  | .dumpSourceTimeout unit => Sys2Proof.Machine.execDumpSourceTimeout unit s
  | .traceDrain source => Sys2Proof.Machine.execTraceDrain source s
  | .profileBoundary set => Sys2Proof.Machine.execProfileBoundary set s
  | .profileIdleBoundary set => Sys2Proof.Machine.execProfileIdleBoundary set s
  | .lcTransitionSequence readBackOk => Sys2Proof.Machine.execLcTransitionSequence readBackOk s
  | .testSessionStart segment => Sys2Proof.Machine.execTestSessionStart segment s
  | .tapLcRequest bytes => Sys2Proof.Machine.execTapLcRequest bytes s
  | .tapToken idx token => Sys2Proof.Machine.execTapToken idx token s
  | .repairRecordBurn rec columns => Sys2Proof.Machine.execRepairRecordBurn rec columns s
  | .beatSend part => Sys2Proof.Machine.execBeatSend part s
  | .beat part hdr body => Sys2Proof.Machine.execBeat part hdr body s
  | .beatTimeout part peer => Sys2Proof.Machine.execBeatTimeout part peer s
  | .lossReport part hdr body => Sys2Proof.Machine.execLossReport part hdr body s
  | .memberLost part hdr body => Sys2Proof.Machine.execMemberLost part hdr body s
  | .markRequest part hdr body => Sys2Proof.Machine.execMarkRequest part hdr body s
  | .mark part hdr body => Sys2Proof.Machine.execMark part hdr body s
  | .rotateRequest part hdr body => Sys2Proof.Machine.execRotateRequest part hdr body s
  | .rotatePrepare part hdr body => Sys2Proof.Machine.execRotatePrepare part hdr body s
  | .rotateConfirm part hdr body => Sys2Proof.Machine.execRotateConfirm part hdr body s
  | .rotateCommit part hdr body => Sys2Proof.Machine.execRotateCommit part hdr body s
  | .rotateAbort part hdr body => Sys2Proof.Machine.execRotateAbort part hdr body s
  | .rotationDecideTimeout part => Sys2Proof.Machine.execRotationDecideTimeout part s
  | .rotationRetry part => Sys2Proof.Machine.execRotationRetry part s
  | .adopt part hdr body => Sys2Proof.Machine.execAdopt part hdr body s
  | .takeover part hdr body => Sys2Proof.Machine.execTakeover part hdr body s
  | .tableSync part hdr body => Sys2Proof.Machine.execTableSync part hdr body s
  | .leave part hdr body => Sys2Proof.Machine.execLeave part hdr body s
  | .domainEndMessage part hdr body => Sys2Proof.Machine.execDomainEndMessage part hdr body s
  | .rejoinWindowExpiry part dev => Sys2Proof.Machine.execRejoinWindowExpiry part dev s
  | .formationTimeout part peer => Sys2Proof.Machine.execFormationTimeout part peer s
  | .admitOffer part => Sys2Proof.Machine.execAdmitOffer part s
  | .admitReply part => Sys2Proof.Machine.execAdmitReply part s
  | .admitGrant part => Sys2Proof.Machine.execAdmitGrant part s
  | .admitConfirm part => Sys2Proof.Machine.execAdmitConfirm part s
  | .formCommit part => Sys2Proof.Machine.execFormCommit part s
  | .admitRefuse part => Sys2Proof.Machine.execAdmitRefuse part s
  | .migOffer part => Sys2Proof.Machine.execMigOffer part s
  | .migReply part => Sys2Proof.Machine.execMigReply part s
  | .migGrant part => Sys2Proof.Machine.execMigGrant part s
  | .migConfirm part => Sys2Proof.Machine.execMigConfirm part s
  | .handoffOfferMessage part hdr body => Sys2Proof.Machine.execHandoffOfferMessage part hdr body s
  | .handoffAccept part hdr body => Sys2Proof.Machine.execHandoffAccept part hdr body s
  | .handoffCommit part hdr body => Sys2Proof.Machine.execHandoffCommit part hdr body s
  | .handoffAck part hdr body => Sys2Proof.Machine.execHandoffAck part hdr body s
  | .handoffReleased part hdr body => Sys2Proof.Machine.execHandoffReleased part hdr body s
  | .handoffRefuse part hdr body => Sys2Proof.Machine.execHandoffRefuse part hdr body s
  | .handoffQuery part hdr body => Sys2Proof.Machine.execHandoffQuery part hdr body s
  | .handoffState part hdr body => Sys2Proof.Machine.execHandoffState part hdr body s
  | .handoffClose part hdr body => Sys2Proof.Machine.execHandoffClose part hdr body s
  | .handoffRetransmit num => Sys2Proof.Machine.execHandoffRetransmit num s
  | .handoffQueryTimer dev num => Sys2Proof.Machine.execHandoffQueryTimer dev num s
  | .stopMessage part hdr body => Sys2Proof.Machine.execStopMessage part hdr body s
  | .resumeMessage part hdr body => Sys2Proof.Machine.execResumeMessage part hdr body s
  | .regionReload q e rc inp => Sys2Proof.Machine.execRegionReload q e rc inp s
  | .regionSeal q e rc inp => Sys2Proof.Machine.execRegionSeal q e rc inp s
  | .accOpen q e rc inp => Sys2Proof.Machine.execAccOpen q e rc inp s
  | .accClose q e rc inp => Sys2Proof.Machine.execAccClose q e rc inp s
  | .linkJobConfig q e rc inp => Sys2Proof.Machine.execLinkJobConfig q e rc inp s
  | .arrivalOpen q e rc inp => Sys2Proof.Machine.execArrivalOpen q e rc inp s
  | .arrivalClose q e rc inp => Sys2Proof.Machine.execArrivalClose q e rc inp s
  | .bulkCopy q e rc inp => Sys2Proof.Machine.execBulkCopy q e rc inp s
  | .ckptSend q e rc inp => Sys2Proof.Machine.execCkptSend q e rc inp s
  | .ckptRestore q e rc inp => Sys2Proof.Machine.execCkptRestore q e rc inp s
  | .parityRebuild q e rc inp => Sys2Proof.Machine.execParityRebuild q e rc inp s
  | .keyCreate q e rc inp => Sys2Proof.Machine.execKeyCreate q e rc inp s
  | .keyRotate q e rc inp => Sys2Proof.Machine.execKeyRotate q e rc inp s
  | .keyRetirePrevious q e rc inp => Sys2Proof.Machine.execKeyRetirePrevious q e rc inp s
  | .keyDestroy q e rc inp => Sys2Proof.Machine.execKeyDestroy q e rc inp s
  | .keyQuery q e rc inp => Sys2Proof.Machine.execKeyQuery q e rc inp s
  | .keyImport q e rc inp => Sys2Proof.Machine.execKeyImport q e rc inp s
  | .cipherGcmSeal q e rc inp => Sys2Proof.Machine.execCipherGcmSeal q e rc inp s
  | .cipherGcmUnseal q e rc inp => Sys2Proof.Machine.execCipherGcmUnseal q e rc inp s
  | .cipherCtr q e rc inp => Sys2Proof.Machine.execCipherCtr q e rc inp s
  | .cipherCmac q e rc inp => Sys2Proof.Machine.execCipherCmac q e rc inp s
  | .cipherWrap q e rc inp => Sys2Proof.Machine.execCipherWrap q e rc inp s
  | .cipherUnwrap q e rc inp => Sys2Proof.Machine.execCipherUnwrap q e rc inp s
  | .stateSave q e rc inp => Sys2Proof.Machine.execStateSave q e rc inp s
  | .stateRestore q e rc inp => Sys2Proof.Machine.execStateRestore q e rc inp s
  | .opCancel q e rc inp => Sys2Proof.Machine.execOpCancel q e rc inp s
  | .randomGet q e rc inp => Sys2Proof.Machine.execRandomGet q e rc inp s
  | .evidenceGet q e rc inp => Sys2Proof.Machine.execEvidenceGet q e rc inp s
  | .identityGet q e rc inp => Sys2Proof.Machine.execIdentityGet q e rc inp s
  | .domainCreate q e rc inp => Sys2Proof.Machine.execDomainCreate q e rc inp s
  | .domainJoinPrepare q e rc inp => Sys2Proof.Machine.execDomainJoinPrepare q e rc inp s
  | .domainMessage q e rc inp => Sys2Proof.Machine.execDomainMessage q e rc inp s
  | .domainLeave q e rc inp => Sys2Proof.Machine.execDomainLeave q e rc inp s
  | .domainEnd q e rc inp => Sys2Proof.Machine.execDomainEnd q e rc inp s
  | .domainRotate q e rc inp => Sys2Proof.Machine.execDomainRotate q e rc inp s
  | .domainStatus q e rc inp => Sys2Proof.Machine.execDomainStatus q e rc inp s
  | .domainAttachMap q e rc inp => Sys2Proof.Machine.execDomainAttachMap q e rc inp s
  | .partCreate q e rc inp => Sys2Proof.Machine.execPartCreate q e rc inp s
  | .partRemove q e rc inp => Sys2Proof.Machine.execPartRemove q e rc inp s
  | .compose q e rc inp => Sys2Proof.Machine.execCompose q e rc inp s
  | .partFreeze q e rc inp => Sys2Proof.Machine.execPartFreeze q e rc inp s
  | .partThaw q e rc inp => Sys2Proof.Machine.execPartThaw q e rc inp s
  | .migratePrepare q e rc inp => Sys2Proof.Machine.execMigratePrepare q e rc inp s
  | .migrateStart q e rc inp => Sys2Proof.Machine.execMigrateStart q e rc inp s
  | .migrateExport q e rc inp => Sys2Proof.Machine.execMigrateExport q e rc inp s
  | .migrateImport q e rc inp => Sys2Proof.Machine.execMigrateImport q e rc inp s
  | .migrateFinish q e rc inp => Sys2Proof.Machine.execMigrateFinish q e rc inp s
  | .migrateAbort q e rc inp => Sys2Proof.Machine.execMigrateAbort q e rc inp s
  | .handoffOffer q e rc inp => Sys2Proof.Machine.execHandoffOffer q e rc inp s
  | .handoffLanding q e rc inp => Sys2Proof.Machine.execHandoffLanding q e rc inp s
  | .handoffAbandon q e rc inp => Sys2Proof.Machine.execHandoffAbandon q e rc inp s
  | .meterConfig q e rc inp => Sys2Proof.Machine.execMeterConfig q e rc inp s
  | .nop q e rc inp => Sys2Proof.Machine.execNop q e rc inp s
  | .ctxCreate q e rc inp => Sys2Proof.Machine.execCtxCreate q e rc inp s
  | .ctxAbandon q e rc inp => Sys2Proof.Machine.execCtxAbandon q e rc inp s
  | .ctxClose q e rc inp => Sys2Proof.Machine.execCtxClose q e rc inp s
  | .queueCreate q e rc inp => Sys2Proof.Machine.execQueueCreate q e rc inp s
  | .queueDestroy q e rc inp => Sys2Proof.Machine.execQueueDestroy q e rc inp s
  | .objAlloc q e rc inp => Sys2Proof.Machine.execObjAlloc q e rc inp s
  | .objFree q e rc inp => Sys2Proof.Machine.execObjFree q e rc inp s
  | .objShare q e rc inp => Sys2Proof.Machine.execObjShare q e rc inp s
  | .objQuery q e rc inp => Sys2Proof.Machine.execObjQuery q e rc inp s
  | .fenceAlloc q e rc inp => Sys2Proof.Machine.execFenceAlloc q e rc inp s
  | .fenceFree q e rc inp => Sys2Proof.Machine.execFenceFree q e rc inp s
  | .fenceShare q e rc inp => Sys2Proof.Machine.execFenceShare q e rc inp s
  | .fenceRelease q e rc inp => Sys2Proof.Machine.execFenceRelease q e rc inp s
  | .fenceQuery q e rc inp => Sys2Proof.Machine.execFenceQuery q e rc inp s
  | .workBegin q e rc inp => Sys2Proof.Machine.execWorkBegin q e rc inp s
  | .workEnd q e rc inp => Sys2Proof.Machine.execWorkEnd q e rc inp s
  | .workLimitTimeout q seq => Sys2Proof.Machine.execWorkLimitTimeout q seq s
  | .faultClear q e rc inp => Sys2Proof.Machine.execFaultClear q e rc inp s
  | .faultThreshold q e rc inp => Sys2Proof.Machine.execFaultThreshold q e rc inp s
  | .hedgehogPolicy q e rc inp => Sys2Proof.Machine.execHedgehogPolicy q e rc inp s
  | .faultInject q e rc inp => Sys2Proof.Machine.execFaultInject q e rc inp s
  | .stopWave q e rc inp => Sys2Proof.Machine.execStopWave q e rc inp s
  | .stopResume q e rc inp => Sys2Proof.Machine.execStopResume q e rc inp s
  | .stopRecords q e rc inp => Sys2Proof.Machine.execStopRecords q e rc inp s
  | .resetStation q e rc inp => Sys2Proof.Machine.execResetStation q e rc inp s
  | .resetWarm q e rc inp => Sys2Proof.Machine.execResetWarm q e rc inp s
  | .resetNonce q e rc inp => Sys2Proof.Machine.execResetNonce q e rc inp s
  | .resetColdSigned q e rc inp => Sys2Proof.Machine.execResetColdSigned q e rc inp s
  | .dumpConfig q e rc inp => Sys2Proof.Machine.execDumpConfig q e rc inp s
  | .dumpStart q e rc inp => Sys2Proof.Machine.execDumpStart q e rc inp s
  | .lcNonce q e rc inp => Sys2Proof.Machine.execLcNonce q e rc inp s
  | .lcTransition q e rc inp => Sys2Proof.Machine.execLcTransition q e rc inp s
  | .lcStatus q e rc inp => Sys2Proof.Machine.execLcStatus q e rc inp s
  | .debugOpen q e rc inp => Sys2Proof.Machine.execDebugOpen q e rc inp s
  | .counterClear q e rc inp => Sys2Proof.Machine.execCounterClear q e rc inp s
  | .profileBind q e rc inp => Sys2Proof.Machine.execProfileBind q e rc inp s
  | .traceConfig q e rc inp => Sys2Proof.Machine.execTraceConfig q e rc inp s
  | .traceRing q e rc inp => Sys2Proof.Machine.execTraceRing q e rc inp s
  | .imageUpdate q e rc inp => Sys2Proof.Machine.execImageUpdate q e rc inp s
  | .imageStatus q e rc inp => Sys2Proof.Machine.execImageStatus q e rc inp s
  | .logRead q e rc inp => Sys2Proof.Machine.execLogRead q e rc inp s
  | .currentLimitRelease => Sys2Proof.Machine.execCurrentLimitRelease s
  | .boostBudgetBinEnd => Sys2Proof.Machine.execBoostBudgetBinEnd s
  | .plainRegionDrainCut obj => Sys2Proof.Machine.execPlainRegionDrainCut obj s
  | .eventLogEntryWritten => Sys2Proof.Machine.execEventLogEntryWritten s
  | .ringReadOffsetAdvance ring off => Sys2Proof.Machine.execRingReadOffsetAdvance ring off s

end Sys2Proof.Machine
end

