-- ==== Sys2Proof/Machine/Tick.lean ====
section
/-! DEFINITION. One tick of block time, 10 ns, in which what nothing more stands in the way of goes on (01 R23; log 4).
Deadlines are rows of the table: the tick only moves the time they are measured by. -/

namespace Sys2Proof.Machine
open Sys2Proof

/-! ### Stations -/

/-- Cipher clocks of this tick: the root clock's 96 over the divider, the remainders carried on (01 Table 1.4). -/
def cipherClocks (s : State) : Nat := 96 * s.now / s.clk.divider - 96 * (s.now - 1) / s.clk.divider

/-- The clocks that a tick of waiting counts for a request: at its version stage, or at the intake (13 Tables 13.5, 13.12). -/
def memStalls (u : Nat) (s : State) : State :=
  let v := (s.memSt u).reqs.filter fun r => r.stage == 0
  let n := cipherClocks s
  let s := each v (fun r s => profCount u r.part r.fence r.layer r.oper [0, 0, 0, 0, 0, n] s) (if v.isEmpty then s else bump u 22 n s)
  if s.portState u == .stopped || decide (1024 ≤ (s.memSt u).reqs.length) then bump u 23 16 s else s

/-- A tick of a sealing stall at the invocation limit is 12 control clocks, and one with ready low for want of a tracker 16
port clocks (05 R166, R174; 13 Table 13.6). -/
def stallClocks (u : Nat) (s : State) : State :=
  let l := s.linkSt u
  let s := each l.waiting (fun r s => profCount u r.part r.fence r.layer r.oper [0, 0, 0, 0, 0, 16] s) s
  let s := if l.waiting.any fun r => (tget {} l.jobs r.part).state == 1 && atLimit l r then bump u 27 12 s else s
  if l.waiting.any (trackerless l) then bump u 28 16 s else s

/-- Reports on their way reach the keep, and requests that a station held for want of a line, a key or a buffer try again. -/
def tickStations (s : State) : State :=
  let s := each stationIds safeStation s
  let s := each Config.memIds takeReports s
  let s := each Config.memIds (fun u s => if (s.memSt u).reqs.isEmpty && s.portState u != .stopped then s else memStalls u (pump u s)) s
  let s := settleCopies s
  each Config.linkIds (fun u s =>
    let s := if (s.linkSt u).waiting.isEmpty then s else stallClocks u (linkPump u s)
    settleLink u s) s

/-! ### Keys, regions and descriptors -/

/-- Re-keys and reloads that waited, and plain regions that have drained. -/
def tickObject (i : Nat) (s : State) : State :=
  let o := s.obj i
  let s := if o.wantRekey && o.rekey.isNone && (s.key o.keySlot).state == 1 then startRekey i o.wantLimit o.wantFresh s else s
  let s := if (s.obj i).wantReload && (s.obj i).rekey.isNone then reloadWaiting i s else s
  if o.cls = 4 ∧ o.state = 3 ∧ plainDrained s i then freeObject i s else s

def tickKeys (s : State) : State :=
  let s := each (s.objs.map (·.1)) tickObject s
  let s := each ((s.keys.filter fun k => k.2.state == 5).map (·.1)) tryOldHalf s
  settleClosed (each (s.taken.filter fun t => t.phase == 2 && envOpcode t.e == 0x0411) settleAcc s)

/-! ### Partitions, domains and commands -/

def tickParts (s : State) : State :=
  let s := each (s.doms.map (·.1)) settleDomain (settleOffers s)
  let s := each (s.parts.map (·.1)) settleRemoval (settleCompose (settleFreezes s))
  settleExports (settleImports (settleNotices (settleMeter s)))

def tickCommands (s : State) : State :=
  settleWork (settleFences (settleAllocs (each (s.ctxs.map (·.1)) settleCtx s)))

/-- The keep's own work while it lives. -/
def tickKeep (s : State) : State :=
  let s := scratchTick s
  let s := settleStationResets (settleNoticesSeen (settleStops (keepwayTick s)))
  tickCommands (tickParts (tickKeys (tickStations (settleHost (settleDump (settleProf (gatherNoise s)))))))

/-- One tick.  The time base starts with the cold keep start. -/
def tick (s : State) : State :=
  if s.aon.phase = 0 then s
  else
    let s := settleCold { s with aon := { s.aon with time := (s.aon.time + 1) % 2 ^ 64 } }
    if s.aon.phase = 0 then s
    else
      let s := clockTick s
      if s.keepLive then tickKeep s else s

end Sys2Proof.Machine
end

