-- ==== Sys2Proof/Machine/Step.lean ====
section
/-! DEFINITION. The step: the command at the front of the queue, or one tick of block time when none waits (log 1, log 4). -/

namespace Sys2Proof.Machine
open Sys2Proof

/-- Takes the command at the front of the queue and runs it on the state with the rest. -/
def step (s : State) : Host.Outcome State Fault Refusal :=
  match s.pending with
  | [] => .next (tick s)
  | c :: rest => exec c { s with pending := rest }

/-- The table gives its rows no bits, so a word spells no command (log 6). -/
def State.withFetchWord (s : State) (_nbits _w : Nat) : State := s

end Sys2Proof.Machine
end

