-- ==== Sys2Proof/WellFormed.lean ====
section
/-! DEFINITION. Which commands name things the block has: stations, dies and ports of the reference configuration (00
Table 0.1, 01 Table 1.2), indices inside their tables (06 Table 6.1, 09 Table 9.8, 05 Table 5.1), and byte counts that a
tile, a header slot or a mailbox Store can hold. The meanings are total and do not rest on it. -/

namespace Sys2Proof

def memId (u : Nat) : Bool := decide (u < Config.memStations)
def linkId (u : Nat) : Bool := decide (0x80 ≤ u) && decide (u < 0x80 + Config.linkStations)
def stationId (u : Nat) : Bool := memId u || linkId u || u == Config.hostId
def nodeId (u : Nat) : Bool := decide (0xE0 ≤ u) && decide (u < 0xE0 + Config.dies)
def unitId (u : Nat) : Bool := stationId u || nodeId u || u == Config.keepId
/-- An index of a table of `n`. -/
def below (n i : Nat) : Bool := decide (i < n)
/-- No more than `n` elements. -/
def atMost {α : Type} (n : Nat) (l : List α) : Bool := decide (l.length ≤ n)

def WellFormed (i : Instr) : Bool :=
  match i with
  | .coldKeepStart env _ _ _ _ selfFail badDies _ _ _ => atMost 14 env && selfFail.all unitId && badDies.all (below 4)
  | .coldResetInput _ => true
  | .warmResetInput _ => true
  | .warmResetSequence _ _ => true
  | .warmKeepStart _ _ selfFail badDies _ _ _ => selfFail.all unitId && badDies.all (below 4)
  | .vaultExpiry => true
  | .currentLimitAssert => true
  | .junctionReading die _ _ => below 4 die
  | .stepDownExit => true
  | .sensorInvalidTimeout die sensor => below 4 die && below 4 sensor
  | .boostBudgetSpent => true
  | .cipherClockSwitch => true
  | .hedgehogTrip _ => true
  | .linkDown port => below 18 port
  | .keepwayCrcError node frame => nodeId node && unitId frame.1
  | .keepwayFrameRepeat node station => nodeId node && unitId station
  | .readTile st origin _ => memId st && below 256 origin
  | .readSectors st origin _ => memId st && below 256 origin
  | .writeTile st origin _ data => memId st && below 256 origin && atMost 8192 data
  | .writeRange st origin _ data => memId st && below 256 origin && atMost 8192 data
  | .accumulate st origin _ data => memId st && below 256 origin && atMost 8192 data
  | .headerReadReturn st _ hdr => memId st && atMost 288 hdr
  | .channelReadReturn st _ data => memId st && atMost 8192 data
  | .channelWriteAck st _ => memId st
  | .lineFetchReturn st entry _ => memId st && below 32768 entry
  | .keyDelivery st slot _ => stationId st && below 16384 slot
  | .descriptorRefill st _ => memId st
  | .requestTimeout st _ => memId st
  | .resealSlot st hdr payload => memId st && atMost 288 hdr && atMost 8192 payload
  | .regionRekeyStart obj station _ => below 1048576 obj && memId station
  | .rekeyMove st obj hdr payload => memId st && below 1048576 obj && atMost 288 hdr && atMost 8192 payload
  | .regionRekeyCommit obj => below 1048576 obj
  | .keyRetiringMark st slot => stationId st && below 16384 slot
  | .keyDrainCut st slot => stationId st && below 16384 slot
  | .epochRetirementCut st => stationId st
  | .freezeArrival st part obj => memId st && below 256 part && below 1048576 obj
  | .safeStateEntry unit => unitId unit.1
  | .stopTick => true
  | .resumeTick => true
  | .measuredHashComplete st obj stripe => memId st && below 1048576 obj && below 4294967296 stripe
  | .regionSealFold obj => below 1048576 obj
  | .linkRequestIntake st _ data => linkId st && atMost 8192 data
  | .instanceOpen st part peer _ => linkId st && below 256 part && below 262144 peer
  | .contextRefillDone st part peer _ _ => linkId st && below 256 part && below 262144 peer
  | .bundleFlushTimeout st part peer => linkId st && below 256 part && below 262144 peer
  | .packetArrival st slot _ => linkId st && below 2048 slot
  | .packetApply st part peer _ => linkId st && below 256 part && below 262144 peer
  | .loadDataRelease st _ => linkId st
  | .flaggedStoreRelease st part peer => linkId st && below 256 part && below 262144 peer
  | .atomicResult st _ _ => linkId st
  | .invalidateDone st _ => linkId st
  | .flushDone st _ => linkId st
  | .gapTimeout st part peer _ => linkId st && below 256 part && below 262144 peer
  | .trackerTimeout st idx => linkId st && below 4096 idx
  | .rotationCommitArrival part => below 256 part
  | .generationDrainTimeout st part => linkId st && below 256 part
  | .memberLostArrival part _ _ => below 256 part
  | .bulkCompletionReport st _ => linkId st
  | .hostDmaRequest iface stream _ _ _ _ data tag => below 64 iface && below 256 stream && atMost 8192 data && atMost 16 tag
  | .ideIntegrityFailure stream => below 256 stream
  | .spdmRequest _ _ => true
  | .keyProg _ stream keySet sub _ => below 256 stream && below 2 keySet && below 6 sub
  | .kSetGo _ stream keySet => below 256 stream && below 2 keySet
  | .kSetStop _ stream keySet => below 256 stream && below 2 keySet
  | .lockInterfaceRequest _ iface part stream => below 64 iface && below 256 part && below 256 stream
  | .startInterfaceRequest _ iface => below 64 iface
  | .stopInterfaceRequest _ iface => below 64 iface
  | .getDeviceInterfaceReport _ iface => below 64 iface
  | .hostDoorbellWrite q _ => below 1024 q
  | .deviceDoorbellWrite q _ _ => below 1024 q
  | .runNotice _ _ => true
  | .arrivalCounterRead idx _ => below 1024 idx
  | .adminEnable _ => true
  | .tableRead _ => true
  | .eventHeadWrite ctx _ => below 4096 ctx
  | .faultAcknowledge unit _ => unitId unit
  | .unitSnapshot _ => true
  | .profileSnapshot _ => true
  | .heartbeatWrite _ => true
  | .registerWrite off wide _ => (below 0x80000 off && if wide then off % 8 == 0 else off % 4 == 0)
  | .commandStart q _ _ _ => below 1024 q
  | .commandWaitTimeout q _ => below 1024 q
  | .takePauseTimeout q => below 1024 q
  | .fenceFailureReport fence part _ _ => below 65536 fence && below 256 part
  | .objectRetire obj => below 1048576 obj
  | .ctxCloseComplete ctx => below 4096 ctx
  | .epochDrainComplete => true
  | .epochDrainTimeout => true
  | .keyDrainComplete slot => below 16384 slot
  | .keyDrainTimeout slot => below 16384 slot
  | .keyPurgeConfirm slot st _ => below 16384 slot && stationId st
  | .swapConfirm slot st => below 16384 slot && stationId st
  | .partitionRemovalDrainEnd part => below 256 part
  | .partitionRemovalFlightExpiry part => below 256 part
  | .meteringIntervalEnd => true
  | .meteringCheckpoint => true
  | .faultWindowClose unit _ => unitId unit
  | .watchdogPeriodExpiry => true
  | .watchdogStartTimeout => true
  | .noiseSourceFailure source => below 4 source.1
  | .drbgReseed inst => below 2 inst
  | .drbgWaitTimeout q _ => below 1024 q
  | .dumpTrigger _ => true
  | .dumpSourceTimeout unit => unitId unit
  | .traceDrain source => below 9 source
  | .profileBoundary set => below 16 set
  | .profileIdleBoundary set => below 16 set
  | .lcTransitionSequence _ => true
  | .testSessionStart _ => true
  | .tapLcRequest _ => true
  | .tapToken _ _ => true
  | .repairRecordBurn _ _ => true
  | .beatSend part => below 256 part
  | .beat part _ body => below 256 part && atMost 4080 body
  | .beatTimeout part peer => below 256 part && below 262144 peer
  | .lossReport part _ body => below 256 part && atMost 4080 body
  | .memberLost part _ body => below 256 part && atMost 4080 body
  | .markRequest part _ body => below 256 part && atMost 4080 body
  | .mark part _ body => below 256 part && atMost 4080 body
  | .rotateRequest part _ body => below 256 part && atMost 4080 body
  | .rotatePrepare part _ body => below 256 part && atMost 4080 body
  | .rotateConfirm part _ body => below 256 part && atMost 4080 body
  | .rotateCommit part _ body => below 256 part && atMost 4080 body
  | .rotateAbort part _ body => below 256 part && atMost 4080 body
  | .rotationDecideTimeout part => below 256 part
  | .rotationRetry part => below 256 part
  | .adopt part _ body => below 256 part && atMost 4080 body
  | .takeover part _ body => below 256 part && atMost 4080 body
  | .tableSync part _ body => below 256 part && atMost 4080 body
  | .leave part _ body => below 256 part && atMost 4080 body
  | .domainEndMessage part _ body => below 256 part && atMost 4080 body
  | .rejoinWindowExpiry part dev => below 256 part && below 262144 dev
  | .formationTimeout part peer => below 256 part && below 262144 peer
  | .admitOffer part => below 256 part
  | .admitReply part => below 256 part
  | .admitGrant part => below 256 part
  | .admitConfirm part => below 256 part
  | .formCommit part => below 256 part
  | .admitRefuse part => below 256 part
  | .migOffer part => below 256 part
  | .migReply part => below 256 part
  | .migGrant part => below 256 part
  | .migConfirm part => below 256 part
  | .handoffOfferMessage part _ body => below 256 part && atMost 4080 body
  | .handoffAccept part _ body => below 256 part && atMost 4080 body
  | .handoffCommit part _ body => below 256 part && atMost 4080 body
  | .handoffAck part _ body => below 256 part && atMost 4080 body
  | .handoffReleased part _ body => below 256 part && atMost 4080 body
  | .handoffRefuse part _ body => below 256 part && atMost 4080 body
  | .handoffQuery part _ body => below 256 part && atMost 4080 body
  | .handoffState part _ body => below 256 part && atMost 4080 body
  | .handoffClose part _ body => below 256 part && atMost 4080 body
  | .handoffRetransmit _ => true
  | .handoffQueryTimer dev _ => below 262144 dev
  | .stopMessage part _ body => below 256 part && atMost 4080 body
  | .resumeMessage part _ body => below 256 part && atMost 4080 body
  | .regionReload q _ _ _ => below 1024 q
  | .regionSeal q _ _ _ => below 1024 q
  | .accOpen q _ _ _ => below 1024 q
  | .accClose q _ _ _ => below 1024 q
  | .linkJobConfig q _ _ _ => below 1024 q
  | .arrivalOpen q _ _ _ => below 1024 q
  | .arrivalClose q _ _ _ => below 1024 q
  | .bulkCopy q _ _ _ => below 1024 q
  | .ckptSend q _ _ _ => below 1024 q
  | .ckptRestore q _ _ _ => below 1024 q
  | .parityRebuild q _ _ _ => below 1024 q
  | .keyCreate q _ _ _ => below 1024 q
  | .keyRotate q _ _ _ => below 1024 q
  | .keyRetirePrevious q _ _ _ => below 1024 q
  | .keyDestroy q _ _ _ => below 1024 q
  | .keyQuery q _ _ _ => below 1024 q
  | .keyImport q _ _ _ => below 1024 q
  | .cipherGcmSeal q _ _ _ => below 1024 q
  | .cipherGcmUnseal q _ _ _ => below 1024 q
  | .cipherCtr q _ _ _ => below 1024 q
  | .cipherCmac q _ _ _ => below 1024 q
  | .cipherWrap q _ _ _ => below 1024 q
  | .cipherUnwrap q _ _ _ => below 1024 q
  | .stateSave q _ _ _ => below 1024 q
  | .stateRestore q _ _ _ => below 1024 q
  | .opCancel q _ _ _ => below 1024 q
  | .randomGet q _ _ _ => below 1024 q
  | .evidenceGet q _ _ _ => below 1024 q
  | .identityGet q _ _ _ => below 1024 q
  | .domainCreate q _ _ _ => below 1024 q
  | .domainJoinPrepare q _ _ _ => below 1024 q
  | .domainMessage q _ _ _ => below 1024 q
  | .domainLeave q _ _ _ => below 1024 q
  | .domainEnd q _ _ _ => below 1024 q
  | .domainRotate q _ _ _ => below 1024 q
  | .domainStatus q _ _ _ => below 1024 q
  | .domainAttachMap q _ _ _ => below 1024 q
  | .partCreate q _ _ _ => below 1024 q
  | .partRemove q _ _ _ => below 1024 q
  | .compose q _ _ _ => below 1024 q
  | .partFreeze q _ _ _ => below 1024 q
  | .partThaw q _ _ _ => below 1024 q
  | .migratePrepare q _ _ _ => below 1024 q
  | .migrateStart q _ _ _ => below 1024 q
  | .migrateExport q _ _ _ => below 1024 q
  | .migrateImport q _ _ _ => below 1024 q
  | .migrateFinish q _ _ _ => below 1024 q
  | .migrateAbort q _ _ _ => below 1024 q
  | .handoffOffer q _ _ _ => below 1024 q
  | .handoffLanding q _ _ _ => below 1024 q
  | .handoffAbandon q _ _ _ => below 1024 q
  | .meterConfig q _ _ _ => below 1024 q
  | .nop q _ _ _ => below 1024 q
  | .ctxCreate q _ _ _ => below 1024 q
  | .ctxAbandon q _ _ _ => below 1024 q
  | .ctxClose q _ _ _ => below 1024 q
  | .queueCreate q _ _ _ => below 1024 q
  | .queueDestroy q _ _ _ => below 1024 q
  | .objAlloc q _ _ _ => below 1024 q
  | .objFree q _ _ _ => below 1024 q
  | .objShare q _ _ _ => below 1024 q
  | .objQuery q _ _ _ => below 1024 q
  | .fenceAlloc q _ _ _ => below 1024 q
  | .fenceFree q _ _ _ => below 1024 q
  | .fenceShare q _ _ _ => below 1024 q
  | .fenceRelease q _ _ _ => below 1024 q
  | .fenceQuery q _ _ _ => below 1024 q
  | .workBegin q _ _ _ => below 1024 q
  | .workEnd q _ _ _ => below 1024 q
  | .workLimitTimeout q _ => below 1024 q
  | .faultClear q _ _ _ => below 1024 q
  | .faultThreshold q _ _ _ => below 1024 q
  | .hedgehogPolicy q _ _ _ => below 1024 q
  | .faultInject q _ _ _ => below 1024 q
  | .stopWave q _ _ _ => below 1024 q
  | .stopResume q _ _ _ => below 1024 q
  | .stopRecords q _ _ _ => below 1024 q
  | .resetStation q _ _ _ => below 1024 q
  | .resetWarm q _ _ _ => below 1024 q
  | .resetNonce q _ _ _ => below 1024 q
  | .resetColdSigned q _ _ _ => below 1024 q
  | .dumpConfig q _ _ _ => below 1024 q
  | .dumpStart q _ _ _ => below 1024 q
  | .lcNonce q _ _ _ => below 1024 q
  | .lcTransition q _ _ _ => below 1024 q
  | .lcStatus q _ _ _ => below 1024 q
  | .debugOpen q _ _ _ => below 1024 q
  | .counterClear q _ _ _ => below 1024 q
  | .profileBind q _ _ _ => below 1024 q
  | .traceConfig q _ _ _ => below 1024 q
  | .traceRing q _ _ _ => below 1024 q
  | .imageUpdate q _ _ _ => below 1024 q
  | .imageStatus q _ _ _ => below 1024 q
  | .logRead q _ _ _ => below 1024 q
  | .currentLimitRelease => true
  | .boostBudgetBinEnd => true
  | .plainRegionDrainCut obj => below 1048576 obj
  | .eventLogEntryWritten => true
  | .ringReadOffsetAdvance _ _ => true

end Sys2Proof
end

