-- ==== Sys2Proof/Safety.lean ====
section
/-! DEFINITION. What the statements mean by a sound state, by a command that starts, and by a command that completed or
goes on running.  The statements are written with these words; the model never uses them. -/

namespace Sys2Proof.Machine
open Sys2Proof

/-! ### Sound states -/

/-- Every indexed table of the state stands in its one canonical form: indices rise strictly, one entry for an index. -/
def State.canon (s : State) : Bool :=
  sorted s.ctrs && sorted s.mem && sorted s.link && sorted s.keys && sorted s.parts && sorted s.objs && sorted s.ctxs &&
  sorted s.queues && sorted s.fences && sorted s.accs && sorted s.arrivals && sorted s.users && sorted s.opTab &&
  sorted s.doms && sorted s.migs && sorted s.rings && sorted s.profs

/-! ### Frames -/

/-- The state with the driver interface's own bookkeeping left out: contexts, queues, fences and taken commands, the
counters, the trace, the pending bits of MSI-X, the round-robin pointer, and what has been emitted.  An equation between
two bare states says that every other field is as it was: every key, object, partition, station, domain and register. -/
def State.bare (s : State) : State :=
  { s with ctrs := [], ctxs := [], queues := [], fences := [], taken := [], trace := {}, out := [],
           keep := { s.keep with rr := 0, pba := [] } }

/-- The meter's counter `i` of a partition has room for `n` more: it does not saturate (13 R398). -/
def MeterFits (s : State) (part i n : Nat) : Prop := part = 0xFF ∨ tget 0 (s.part part).meter i + n < two64

/-- The partitions with `n` more in counter `i` of one's meter; none is charged for the operator (08 R285). -/
def charged (part i n : Nat) (ps : Tab Part) : Tab Part :=
  if part = 0xFF then ps else tupd {} ps part fun p => { p with meter := tset p.meter i (tget 0 p.meter i + n) }

/-- The state with a partition so charged. -/
def State.metered (part i n : Nat) (s : State) : State := { s with parts := charged part i n s.parts }

/-- Only the counters and the trace differ. -/
def Traced (s t : State) : Prop := ∃ c x, t = { s with ctrs := c, trace := x }

/-! ### Commands -/

/-- The entry at the head of queue `q`, whose bytes are `e`, is one that the keep takes now and starts at once: the queue
may be taken from and has its turn, there is room, the entry is well formed and its opcode is the row's (09 Table 9.14),
its completion fence is the context's own and neither Free nor Pending, it waits for no fence, it passes every take
check, its partition may start commands, no earlier command of the queue is under way, and no profile set is bound to
the queue.  `rc` is what the reads of its input answered: success. -/
def Starts (op q : Nat) (e : BitVec 1024) (rc : BitVec 16) (s : State) : Prop :=
  let x := s.queue q
  let f := s.fence (envFence e)
  mayTake s q = true ∧ itsTurn s q = true ∧ s.taken.length < 16384 ∧ x.pausedAt = none ∧ rc = 0#16 ∧ step1Bad s op e = false ∧
  f.state ≠ 0 ∧ f.state ≠ 2 ∧ f.owner = x.ctx ∧ f.freed = false ∧ envBits e 3 1 = 0 ∧
  (∃ info, cmdInfo op = some info ∧ takeCheck s info x.ctx x e = none) ∧ startBar s { q := q } = 0 ∧
  (∀ y ∈ s.taken, y.q ≠ q) ∧ (∀ p ∈ s.profs, p.2.queue ≠ some q)

/-- Queue `q` once the entry at its head has been taken. -/
def dequeued (x : Queue) : Queue :=
  let h := (x.head + 1) % 2 ^ (x.size + 4)
  { x with head := h, nextSeq := (x.nextSeq + 1) % 2 ^ 32, pausedAt := none, pubs := x.pubs.dropWhile fun p => p.1 == h }

/-- A fence armed for the command with sequence number `seq` (09 R309). -/
def armed (f : Fence) (seq : Nat) : Fence :=
  { f with state := 2, gen := (f.gen + 1) % 2 ^ 16, code := 0, errors := 0, detail := 0, inherited := false, seq := seq }

/-- The result entry of the command at the head of queue `q` has been written (09 R305). -/
def Answered (q code : Nat) (res : Bytes) (s t : State) : Prop :=
  Out.result q (s.queue q).head (resultEntry code (s.queue q).nextSeq s.now res) ∈ t.out

/-- The command at the head of queue `q` was taken, ran and completed with success and the result bytes `res`: its result
entry is written, its completion fence is Signaled one generation on, the queue has moved past it, and no other queue,
fence, context or taken command has changed. -/
structure Completed (q : Nat) (e : BitVec 1024) (res : Bytes) (s t : State) : Prop where
  answer : Answered q 0 res s t
  fence : t.fence (envFence e) = { armed (s.fence (envFence e)) (s.queue q).nextSeq with state := 3 }
  queue : t.queue q = dequeued (s.queue q)
  taken : t.taken = s.taken
  fences : ∀ i, i ≠ envFence e → t.fence i = s.fence i
  queues : ∀ i, i ≠ q → t.queue i = s.queue i
  ctxs : ∀ i, i ≠ (s.queue q).ctx → t.ctx i = s.ctx i

/-- The command at the head of queue `q` was taken, started and goes on running with `aux` in hand: its fence is Pending
one generation on, the queue has moved past it, and it stands among the taken commands. -/
structure Running (q : Nat) (e : BitVec 1024) (aux : Nat) (s t : State) : Prop where
  fence : t.fence (envFence e) = armed (s.fence (envFence e)) (s.queue q).nextSeq
  queue : t.queue q = dequeued (s.queue q)
  taken : ∃ x ∈ t.taken, x.q = q ∧ x.seq = (s.queue q).nextSeq ∧ x.e = e ∧ x.phase = 2 ∧ x.aux = aux
  fences : ∀ i, i ≠ envFence e → t.fence i = s.fence i
  queues : ∀ i, i ≠ q → t.queue i = s.queue i

/-- The state `b` in which the body of a started command runs, and the command `t` as it is recorded, but for the fences:
the queue has moved past the entry, and the command stands last among the taken ones. -/
structure BeganCore (q : Nat) (e : BitVec 1024) (inp : Bytes) (s : State) (t : Taken) (b : State) : Prop where
  tq : t.q = q
  tseq : t.seq = (s.queue q).nextSeq
  tidx : t.idx = (s.queue q).head
  te : t.e = e
  tphase : t.phase = 2
  tstart : t.startAt = s.now
  ttaken : t.takenAt = s.now
  tinp : t.inp = inp
  taux : t.aux = 0
  bare : b.bare = s.bare
  queueTab : b.queues = tset s.queues q (dequeued (s.queue q))
  ctxs : b.ctxs = s.ctxs
  taken : b.taken = s.taken ++ [t]
  out : b.out = s.out
  only : ∀ y ∈ s.taken, y.q ≠ q
  free : ∀ p ∈ s.profs, p.2.queue ≠ some q
  kept : (s.fence (envFence e)).freed = false

/-- The same, for a command that arms its completion fence and no other. -/
structure Began (q : Nat) (e : BitVec 1024) (inp : Bytes) (s : State) (t : Taken) (b : State) : Prop extends
    BeganCore q e inp s t b where
  fenceTab : b.fences = tset s.fences (envFence e) (armed (s.fence (envFence e)) (s.queue q).nextSeq)

/-! ### Cipher slots -/

/-- The slot of a cipher command: a tenant slot of class `cls`, in use, that the issuing core's partition owns. -/
def TenantSlot (s : State) (q slot cls : Nat) : Prop :=
  let c := s.ctx (s.queue q).ctx
  let k := s.key slot
  c.device = true ∧ k.keepOwn = false ∧ k.owner = c.part ∧ k.cls = cls ∧ k.state ≠ 0 ∧ k.state ≠ 6

/-! ### Domain messages (07 R241) -/

/-- The fragments that a partition holds of the message a header belongs to. -/
def fragsOf (part : Nat) (hdr : BitVec 128) (s : State) : List Bytes :=
  (((s.dom part).frags.find? fun f => f.1 == (mailSender hdr, mailNum hdr)).map (·.2)).getD []

/-- The fragments of a message are let go. -/
def mailDropped (part : Nat) (hdr : BitVec 128) (s : State) : State :=
  s.onDom part fun d => { d with frags := (s.dom part).frags.filter fun f => !(f.1 == (mailSender hdr, mailNum hdr)) }

/-- The same, and the sender's generation is noted. -/
def mailTaken (part : Nat) (hdr : BitVec 128) (s : State) : State :=
  noteGen part (mailSender hdr) (mailGen hdr) (mailDropped part hdr s)

/-- A fragment that reaches a live keep under a well-formed header of a type, its reserved fields zero (00 R11). -/
def Mailed (type : Nat) (hdr : BitVec 128) (body : Bytes) (s : State) : Prop :=
  mailType hdr = type ∧ rf hdr 16 16 = body.length ∧ body.length ≤ 4080 ∧ mailHdrClean hdr = true ∧ s.keepLive = true

/-- The last fragment of a message, in its order: `whole` is the message's body, of its type's length and reserved bytes. -/
def Arrives (type part : Nat) (hdr : BitVec 128) (body : Bytes) (s : State) (whole : Bytes) : Prop :=
  Mailed type hdr body s ∧ rf hdr 8 8 = 128 + (fragsOf part hdr s).length ∧ (fragsOf part hdr s).length < 128 ∧
  whole = (fragsOf part hdr s ++ [body]).flatten ∧ mailClean type whole = true

/-- The rows that a domain message runs, under the type their header carries (07 Table 7.11). -/
def mailRows : List (Nat × (Nat → BitVec 128 → Bytes → Instr)) :=
  [(0x10, .beat), (0x11, .lossReport), (0x12, .memberLost), (0x13, .markRequest), (0x14, .mark), (0x15, .rotateRequest),
   (0x16, .rotatePrepare), (0x17, .rotateConfirm), (0x18, .rotateCommit), (0x19, .rotateAbort), (0x1A, .adopt), (0x1B, .takeover),
   (0x1C, .tableSync), (0x1D, .leave), (0x1E, .domainEndMessage), (0x20, .handoffOfferMessage), (0x21, .handoffAccept),
   (0x22, .handoffCommit), (0x23, .handoffAck), (0x24, .handoffReleased), (0x25, .handoffRefuse), (0x26, .handoffQuery),
   (0x27, .handoffState), (0x28, .handoffClose), (0x30, .stopMessage), (0x31, .resumeMessage)]

/-! ### Records -/

/-- The record at the front of a partition's inbox is `r`, its command still waits (an in-band one has none), and random
bits are at hand where its row draws them; `t` is the state without it. -/
def RecordWaits (type part : Nat) (inband : Bool) (r : Rec) (s t : State) : Prop :=
  ∃ raw rest, (s.dom part).inbox = (BitVec.ofNat 8 (if inband then 1 else 0) :: raw) :: rest ∧ recOf raw = some r ∧ r.type = type ∧
    (inband = false → (messageOf s part).isSome = true) ∧ (type ≤ 3 → canDraw s 0 = true ∧ canDraw s 1 = true) ∧
    t = s.onDom part fun d => { d with inbox := rest }

/-- The same of a migration's inbox. -/
def MigWaits (type part : Nat) (r : Rec) (s t : State) : Prop :=
  ∃ raw rest, (s.mig part).inbox = raw :: rest ∧ recOf raw = some r ∧ r.type = type ∧ (messageOf s part).isSome = true ∧
    (type ≠ 6 → canDraw s 0 = true ∧ canDraw s 1 = true) ∧ t = s.onMig part fun m => { m with inbox := rest }

/-- The record of exchange `x` that a side waits for: it is of this domain and for this device. -/
def ForExch (part : Nat) (parent inband : Bool) (phase : Nat) (x : Exch) (r : Rec) (s : State) : Prop :=
  findExch (s.dom part) r.num r.snd parent = some x ∧ x.phase = phase ∧ x.inband = inband ∧ r.dom = (s.dom part).domain ∧
    r.rcv = (s.dom part).own

/-! ### Memory requests -/

/-- The five memory requests, under the kind code that their record carries (03 Table 3.1). -/
def memRows : List (Nat × (Nat → Nat → BitVec 256 → Bytes → Instr)) :=
  [(1, fun st o r _ => .readTile st o r), (2, fun st o r _ => .readSectors st o r), (3, .writeTile), (4, .writeRange), (5, .accumulate)]

/-- The request that a row's operands spell: a read carries no data. -/
def rowOf (k origin : Nat) (req : BitVec 256) (data : Bytes) : MReq := rowReq k origin req (if k ≤ 2 then [] else data)

/-- `r` is the row's request as an idle station takes it, and it starts: the port is ready, the record is well formed, no
profile set watches its fence, its descriptor is cached and it passes the isolation check against object `o`, whose
placement at the station is `p`; a lock is free, and no minor overflow locks its slot. -/
def Accepted (k st origin : Nat) (req : BitVec 256) (data : Bytes) (s : State) (r : MReq) (o : Obj) (p : Place) : Prop :=
  r = { rowOf k origin req data with acc := (s.port st).intake + 1, born := s.now } ∧ o = s.obj (handleIdx r.handle.toNat) ∧
  intakeOpen s st r.kind = true ∧ requestBad r = false ∧ (∀ x ∈ s.profs, x.2.fence ≠ r.fence) ∧ (s.memSt st).reqs = [] ∧
  (s.memSt st).descs.contains (handleIdx r.handle.toNat) = true ∧ isolation s st r = (0, 0) ∧ placeOf o st = some p ∧
  (s.memSt st).locks.length < 64 ∧ ∀ x ∈ (s.memSt st).locks, x.2 ≠ r.pslot

end Sys2Proof.Machine
end

