-- ==== Sys2Proof/Certificates/Slice0/Obligations.lean ====
section
/-! DEFINITION. The statements for the provers. Each is about every state and all operands that meet its premises, and
each names the rules of the spec it rests on; where one rests on a choice of the model it names the log entry. -/

open Sys2Proof Sys2Proof.Machine Sys2Proof.Crypto

/-! ### The machine as a whole -/

/-- The step takes the command at the front of the queue and runs it on the state with the rest of the queue. -/
def Obligations.TheStepRunsTheCommandInFront : Prop :=
  ∀ c rest (s : State), s.pending = c :: rest → step s = exec c { s with pending := rest }

/-- The model's choice (log 4): on an empty queue the step is one tick of block time. Before the first cold keep start
nothing moves; with a keep that is not live the time base and the cipher clock alone go on. That an idle step is a
tick is the model's choice (log 4); what a tick does follows the rules of each chapter. -/
def Obligations.AnEmptyQueueIsOneTick : Prop :=
  ∀ (s : State), s.pending = [] →
    (s.aon.phase = 0 → step s = .next s) ∧
    (s.aon.phase ≠ 0 → s.aon.coldAt = none →
      let u := clockTick { s with aon := { s.aon with time := (s.aon.time + 1) % 2 ^ 64 } }
      step s = .next (if u.keepLive = true then tickKeep u else u))

/-- Every command has a next state in every state: no command of the table ends in a fault or a refusal. -/
def Obligations.EveryCommandAnswersANextState : Prop :=
  ∀ c (s : State), ∃ t, exec c s = .next t

/-- At power-on no port of any station is open, the keep is not ready, no key slot, partition, context or queue is in
use, no fault is uncleared, no command is taken, no command waits, and every table of the state is in its canonical
form. That the tables start empty where the spec states no power-on value is the model's choice (log 7). -/
def Obligations.ResetIsClosedEmptyAndCanonical : Prop :=
  State.reset.canon = true ∧ State.reset.pending = [] ∧ State.reset.keep.ready = false ∧ State.reset.keep.portsOpen = false ∧
  State.reset.keepLive = false ∧ (∀ u, (State.reset.port u).opened = false) ∧ (∀ i, (State.reset.key i).state = 0) ∧
  (∀ i, (State.reset.part i).state = 0) ∧ (∀ i, (State.reset.ctx i).state = 0) ∧ (∀ i, (State.reset.queue i).state = 0) ∧
  (∀ u, (State.reset.word u).unack = 0 ∧ (State.reset.word u).uncleared = 0) ∧ State.reset.taken = [] ∧ State.reset.aon.lockdown = false

/-- From every state whose tables are in their canonical form, whatever command is in front or when none is, a step
gives a next state whose tables are in their canonical form too, and takes the front command off the queue and nothing
else. -/
def Obligations.EveryStepKeepsTheTablesCanonical : Prop :=
  ∀ (s t : State), s.canon = true → step s = .next t → t.canon = true ∧ t.pending = s.pending.tail

/-! ### Rules of the spec -/

/-- A fault sets both bits of its class on its unit; one whose class is unacknowledged there goes to the next class,
and so on up to Fatal, and is recorded once, at its final class, with the class it started at. A Fatal while any
unit's Fatal is unacknowledged starts the lockdown with cause 0x08, and no other fault does (10 R335, R336; outside a
lockdown, R347). -/
def Obligations.FaultsEscalateAndFatalsLock : Prop :=
  ∀ u src c thr n f d (s : State), s.aon.lockdown = false → 1 ≤ c → c ≤ 4 →
    let w := s.word u
    let t := raise u src c thr n f d s
    ∃ k, c ≤ k ∧ k ≤ 4 ∧ (∀ j, c ≤ j → j < k → w.unack.getLsbD (j - 1) = true) ∧ (k = 4 ∨ w.unack.getLsbD (k - 1) = false) ∧
      (∀ i, i < 4 → (t.word u).unack.getLsbD i = (w.unack.getLsbD i || i == k - 1)) ∧
      (∀ i, i < 4 → (t.word u).uncleared.getLsbD i = (w.uncleared.getLsbD i || i == k - 1)) ∧
      (∀ v, v ≠ u → t.word v = s.word v) ∧
      t.flt.log = ({
        time := s.now, seq := s.flt.logSeq, unit := u, source := src, cls := k, escalated := k != c, threshold := thr,
        lockdown := k == 4 && (s.flt.words.any fun x => x.2.unack.getLsbD 3), prior := c, count := n, fence := f, detail := d } :: s.flt.log).take 64 ∧
      (k = 4 → (∃ x ∈ s.flt.words, x.2.unack.getLsbD 3 = true) →
        t.aon.lockdown = true ∧ t.aon.trip.toNat / 2 ^ 32 = 8 ∧ (t.word u).unack.getLsbD 3 = true ∧ (t.word u).uncleared.getLsbD 3 = true) ∧
      (¬ (k = 4 ∧ ∃ x ∈ s.flt.words, x.2.unack.getLsbD 3 = true) → t.aon.lockdown = false)

/-- A write to the beat register is accepted when it is one above the last value accepted, modulo 2^16; any other is
ignored and counted. A keep start takes 0x0000 as the last value. A period of 1 ms, counted from the last accepted
beat, that ends without one is a missed beat, and an accepted beat clears the count. At ten missed beats, or 100 ms
without a beat after a keep start, Fatal source 0x1F is raised against the keep and a warm reset with cause 0x03
starts (11 R364). Completes: heartbeatWrite, watchdogPeriodExpiry, watchdogStartTimeout. -/
def Obligations.TheWatchdogCountsBeats : Prop :=
  (∀ (s : State), s.keepLive = true →
    exec (.heartbeatWrite (s.keep.beat + 1)) s =
      .next { s with keep := { s.keep with beat := s.keep.beat + 1, beatAt := s.now, missed := 0, beaten := true } }) ∧
  (∀ v (s : State), s.keepLive = true → v ≠ s.keep.beat + 1 →
    ∃ t, exec (.heartbeatWrite v) s = .next t ∧ t = { s with ctrs := t.ctrs } ∧
      (tget 0 (tget {} t.ctrs Config.keepId).words 7) = ((tget 0 (tget {} s.ctrs Config.keepId).words 7) + 1) % 2 ^ 64) ∧
  (∀ slot (s : State), (coldRun slot true s).keep.beat = 0 ∧ (coldRun slot true s).keep.beaten = false ∧ (coldRun slot true s).keep.missed = 0) ∧
  (∀ (s : State), slotValid s s.aon.slot = true →
    (warmRun true s).keep.beat = 0 ∧ (warmRun true s).keep.beaten = false ∧ (warmRun true s).keep.missed = 0) ∧
  (∀ (s : State), s.keepLive = true → s.keep.beaten = true →
    (s.now < s.keep.beatAt + Config.ms (s.keep.missed + 1) → exec .watchdogPeriodExpiry s = .next s) ∧
    (s.keep.beatAt + Config.ms (s.keep.missed + 1) ≤ s.now → s.keep.missed + 1 < 10 →
      exec .watchdogPeriodExpiry s = .next { s with keep := { s.keep with missed := s.keep.missed + 1 } }) ∧
    (s.keep.beatAt + Config.ms (s.keep.missed + 1) ≤ s.now → 10 ≤ s.keep.missed + 1 → (∀ x ∈ s.flt.words, x.2.unack.getLsbD 3 = false) →
      ∃ t, exec .watchdogPeriodExpiry s = .next t ∧ (t.word Config.keepId).unack.getLsbD 3 = true ∧ (t.word Config.keepId).last = 0x1F ∧
        t.aon.phase = 2 ∧ (t.aon.outOfService = false → t.aon.cause = 3))) ∧
  (∀ (s : State), s.keepLive = true → s.keep.beaten = false →
    (s.now < s.keep.startAt + Config.ms 100 → exec .watchdogStartTimeout s = .next s) ∧
    (s.keep.startAt + Config.ms 100 ≤ s.now → (∀ x ∈ s.flt.words, x.2.unack.getLsbD 3 = false) →
      ∃ t, exec .watchdogStartTimeout s = .next t ∧ (t.word Config.keepId).unack.getLsbD 3 = true ∧ (t.word Config.keepId).last = 0x1F ∧
        t.aon.phase = 2 ∧ (t.aon.outOfService = false → t.aon.cause = 3)))

/-- While its stations are Stopped a member declares no peer lost by missing BEAT; at resume every beat timeout
restarts from zero; a link that goes down is still a loss (11 R356). Completes: beatTimeout, resumeTick, linkDown. -/
def Obligations.AStopHoldsBeatTimeouts : Prop :=
  (∀ part peer (s : State), s.keepStopped = true → exec (.beatTimeout part peer) s = .next s) ∧
  (∀ (s u : State), u = each (stationIds.filter fun st => (s.port st).resumeAt.any (· ≤ s.now)) applyResume s →
    u.stop.inForce = true → u.stop.resume.isSome = true → (∀ st ∈ stationIds, (u.port st).stopped = false) →
    ∃ t, exec .resumeTick s = .next t ∧ t.stop.inForce = false ∧ ∀ part, (t.dom part).beatRx = tmap (fun _ _ => u.now) (u.dom part).beatRx) ∧
  (∀ port p dev (s : State), s.keepStopped = true → s.doms.map (·.1) = [p] → tfind (s.dom p).attach port = some dev →
    exec (.linkDown port) s = .next (declareLost p dev 1 s))

/-- The wait of a command on fence i at generation g, where the fence is at generation G: signalled at G satisfies it
and the command starts, failed at G fails it, Pending at G and the arm of the next generation leave it waiting, and
anything else is refused with YE_STALE_HANDLE. A command whose wait fails does not start: its own fence fails with the
code of the fence it waited on, its inherited flag is set, and its detail names that fence (09 R311). Completes:
commandStart. -/
def Obligations.WaitsResolveByGeneration : Prop :=
  ∀ q seq rc inp (s : State) t i g, s.keepLive = true → findTaken s q seq.toNat = some t → t.phase = 1 → earlier s t = [] →
    waitsOf t.e = [(i, g)] → 1 ≤ (s.fence i).state → (s.fence i).state ≤ 4 →
    let f := s.fence i
    let go := exec (.commandStart q seq rc inp) s
    let t' : Taken := { t with inp := inp }
    let failed code := Host.Outcome.next (φ := Fault) (ρ := Refusal)
      ((complete t' code (detailInherited i g) [] s).onFence (envFence t.e) fun f => { f with inherited := true })
    (g = f.gen → f.state = 3 → startBar s t' = 0 → (∀ p ∈ s.profs, p.2.queue ≠ some t.q) →
      ∃ u, Traced { s with taken := s.taken.map fun x => if x.q == t.q && x.seq == t.seq then { t' with phase := 2, startAt := s.now } else x } u ∧
        go = .next (bodyOf (envOpcode t.e) { t' with phase := 2, startAt := s.now } rc.toNat inp u)) ∧
    (g = f.gen → f.state = 4 → go = failed f.code) ∧
    (g = f.gen → f.state = 2 → go = .next s) ∧
    (g = f.gen → f.state = 1 → go = failed yeStale) ∧
    (g ≠ f.gen → g = (f.gen + 1) % 2 ^ 16 → go = .next s) ∧
    (g ≠ f.gen → g ≠ (f.gen + 1) % 2 ^ 16 → go = failed yeStale)

/-! ### Regions and accumulation (02, 03, 04) -/

/-- REGION_RELOAD gives a sealed region a new load generation with every cursor at 0 and measurement starting again;
REGION_SEAL takes an unmeasured region whose cursors are full out of Loading; on a measured one it goes on running
until the fold. The stations let go of their copies of the region's descriptor; nothing else changes (02 R68; 03 R74;
04 R114). Completes: regionReload, regionSeal. -/
def Obligations.RegionReloadAndSealRun : Prop :=
  (∀ q e rc inp (s : State), Starts 0x0401 q e rc s →
    let i := handleIdx (opnd e 0 4)
    let o := s.obj i
    opnd e 0 4 ≠ 0 → o.cls = 1 → o.frozen = false → o.landing = false → (s.part o.part).state ≠ 3 → (s.part o.part).state ≠ 4 → o.rekey = none →
    o.loadGen + 1 < 2 ^ 63 →
    ∃ t, exec (.regionReload q e rc inp) s = .next t ∧ Completed q e [] s t ∧
      t.bare = { s.bare with
        objs := tset s.objs i { o with
          loading := true, loadGen := o.loadGen + 1, wantReload := false, leaves := [], nodes := [],
          meas := if o.measured then 2 else 0, mr := [], places := o.places.map fun p => { p with cursor := 0 } },
        mem := (dropDesc i s).mem }) ∧
  (∀ q e rc inp (s : State), Starts 0x0402 q e rc s →
    let i := handleIdx (opnd e 0 4)
    let o := s.obj i
    opnd e 0 4 ≠ 0 → o.cls = 1 → o.loading = true → o.meas ≠ 1 → (∀ p ∈ o.places, p.cursor = p.count) →
    (o.measured = false → o.wantRekey = false →
      ∃ t, exec (.regionSeal q e rc inp) s = .next t ∧ Completed q e [] s t ∧
        t.bare = { s.bare with objs := tset s.objs i { o with loading := false }, mem := (dropDesc i s).mem }) ∧
    (o.measured = true →
      ∃ t, exec (.regionSeal q e rc inp) s = .next t ∧ Running q e i s t ∧ t.bare = s.bare))

/-- ACC_OPEN takes the lowest free descriptor for the object, opens it in the keep and at every station that the
object is placed on, arms its stream fence besides the completion fence, and answers the descriptor's index (04 R120,
R133). Completes: accOpen. -/
def Obligations.AccOpenOpensTheLowestFreeDescriptor : Prop :=
  ∀ q e rc inp (s : State), Starts 0x0410 q e rc s →
    let h := opnd e 0 4
    let i := handleIdx h
    let o := s.obj i
    let sf := opnd e 8 2
    ∀ d, h ≠ 0 → (o.cls = 2 ∨ o.cls = 4) → (opnd e 4 1 = 1 ∨ opnd e 4 1 = 2 ∧ opnd e 5 1 = 0) → 1 ≤ opnd e 6 1 → opnd e 6 1 ≤ 63 → opnd e 7 1 < 64 →
    (s.fence sf).state ≠ 0 → (s.fence sf).state ≠ 2 → (s.fence sf).owner = (s.queue q).ctx → sf ≠ envFence e →
    lowFree s.accs 0 64 = some d →
    ∃ t, exec (.accOpen q e rc inp) s = .next t ∧ Answered q 0 [BitVec.ofNat 8 d] s t ∧
      t.accs = tset s.accs d {
        state := 1, mode := opnd e 4 1, e := BitVec.ofNat 8 (opnd e 5 1), bs := opnd e 6 1, mask := BitVec.ofNat 8 (opnd e 7 1),
        fence := sf, ctx := (s.queue q).ctx, handle := BitVec.ofNat 32 h } ∧
      t.objs = tset s.objs i { o with refs := o.refs + 1 } ∧
      t.fence sf = armed (s.fence sf) (s.queue q).nextSeq ∧
      (∀ p ∈ o.places, tget ({} : AccCopy) (t.memSt p.st).accs d = { state := 1 }) ∧
      t.bare = { s.bare with accs := t.accs, objs := t.objs, mem := t.mem }

/-- ACC_CLOSE of an Open descriptor of the partition marks it Closing at the keep and at every station and goes on
running; once no station holds a request under it, its result is the four counters summed over the stations, and the
descriptor and its reference are free. ARRIVAL_OPEN gives the lowest free counter over the named tiles and refers to
the object once more; ARRIVAL_CLOSE answers the counter as Closed and frees it. Completes: accClose, arrivalOpen,
arrivalClose. -/
def Obligations.DescriptorsAndCountersOpenAndClose : Prop :=
  (∀ q e rc inp (s : State), Starts 0x0411 q e rc s →
    let d := opnd e 0 1
    let a := tget ({} : Acc) s.accs d
    a.state = 1 → (s.obj (handleIdx a.handle.toNat)).part = (s.ctx (s.queue q).ctx).part →
      ∃ t, exec (.accClose q e rc inp) s = .next t ∧ Running q e d s t ∧
        t.accs = tmap (fun i a => if i = d then { a with state := 2 } else a) s.accs ∧
        t.bare = { s.bare with accs := t.accs, mem := t.mem } ∧
        ∀ st, (tget ({} : AccCopy) (t.memSt st).accs d) = tget {} (s.memSt st).accs d ∨
          (tget ({} : AccCopy) (t.memSt st).accs d).state = 2) ∧
  (∀ (t : Taken) (s : State), accDrained s t.aux = true → (∀ p ∈ s.profs, p.2.queue ≠ some t.q) →
    let u := settleAcc t s
    Out.result t.q t.idx (resultEntry 0 t.seq s.now (accResult (accSums s t.aux))) ∈ u.out ∧ u.accs = tdel s.accs t.aux ∧
      u.objs = tmap (fun i o => if i = handleIdx (tget ({} : Acc) s.accs t.aux).handle.toNat then { o with refs := o.refs - 1 } else o) s.objs) ∧
  (∀ q e rc inp (s : State), Starts 0x0510 q e rc s →
    let h := opnd e 0 4
    let base := opnd e 4 5
    let n := opnd e 12 4
    let o := s.obj (handleIdx h)
    ∀ i, handleIdx h ≠ 0 → base % 8192 = 0 → base / 8192 + n ≤ o.tiles → lowFree s.arrivals 0 1024 = some i →
    ∃ t, exec (.arrivalOpen q e rc inp) s = .next t ∧ Completed q e (le 2 i) s t ∧
      t.bare = { s.bare with
        arrivals := tset s.arrivals i {
          state := 1, part := (s.ctx (s.queue q).ctx).part, ctx := (s.queue q).ctx, handle := BitVec.ofNat 32 h, base := base, total := n },
        objs := tset s.objs (handleIdx h) { o with refs := o.refs + 1 } }) ∧
  (∀ q e rc inp (s : State), Starts 0x0511 q e rc s →
    let i := opnd e 0 2
    let a := tget ({} : Arrival) s.arrivals i
    a.state = 1 → a.part = (s.ctx (s.queue q).ctx).part →
    ∃ t, exec (.arrivalClose q e rc inp) s = .next t ∧ Completed q e (arrivalBytes { a with state := 2 }) s t ∧
      t.bare = { s.bare with
        arrivals := tdel s.arrivals i,
        objs := tmap (fun j o => if j = handleIdx a.handle.toNat then { o with refs := o.refs - 1 } else o) s.objs })

/-- A station takes nothing while its port is not ready for the request. A malformed request is answered YE_DENIED at
once; one whose descriptor is not cached waits for it. A request that passes every check at an idle station starts: a
plain tile is read at its header and payload, a sector at its place; an Unwritten coarse tile answers zeros and the
request ends; a plain write or aligned range sends its bytes to the channel; an accumulate reads its destination (03
R70 to R82; 04 R123). Completes: readTile, readSectors, writeTile, writeRange, accumulate. -/
def Obligations.MemoryRequestsEnterAndStart : Prop :=
  ∀ st (s : State), isMem st = true →
  (∀ k row, (k, row) ∈ memRows → ∀ origin req data,
    let r := rowOf k origin req data
    let n := (s.port st).intake + 1
    (intakeOpen s st r.kind = false ∨ 1024 ≤ (s.memSt st).reqs.length → exec (row st origin req data) s = .next s) ∧
    (intakeOpen s st r.kind = true → (s.memSt st).reqs.length < 1024 → (∀ p ∈ s.profs, p.2.fence ≠ r.fence) →
      (requestBad r = true → ∃ t, exec (row st origin req data) s = .next t ∧ Out.rfin st r.origin r.tag 16 0x10 ∈ t.out ∧
        ∀ x ∈ (t.memSt st).reqs, x.acc ≠ n) ∧
      (requestBad r = false → (s.memSt st).descs.contains (handleIdx r.handle.toNat) = false →
        ∃ t, exec (row st origin req data) s = .next t ∧ (t.port st).intake = n % 2 ^ 32 ∧ (t.port st).lastTag = r.tag ∧
          (t.memSt st).reqs = (s.memSt st).reqs ++ [{ r with acc := n, born := s.now, stage := 9 }] ∧
          ∀ v, v ≠ st → t.memSt v = s.memSt v))) ∧
  (∀ origin req r o p, Accepted 1 st origin req [] s r o p → o.cls = 4 →
    ∃ t, exec (.readTile st origin req) s = .next t ∧ Out.chanRead st r.acc (32 * r.hslot) 32 ∈ t.out ∧
      (r.hint ≠ 0 → Out.chanRead st r.acc (payAddr s r) (64 * r.hint) ∈ t.out) ∧ (t.memSt st).reqs = [{ r with stage := 1, old := [] }]) ∧
  (∀ origin req r o p l, Accepted 1 st origin req [] s r o p → o.cls = 2 →
    let k := (chanOf s r.pslot).2 - p.first
    let v := (s.memSt st).entry (entryOf p (k / 32))
    vrtCond v ≠ 3 → vrtReseal v = false → cachedLine (s.memSt st) (entryOf p (k / 32)) = some l → l.major = 0 → minorOf l (k % 32) = 0 →
    ∃ t, exec (.readTile st origin req) s = .next t ∧ Out.rdata st r.origin r.tag (zeroHeader ++ zeros 8192) ∈ t.out ∧
      Out.rfin st r.origin r.tag 16 0 ∈ t.out ∧ (t.memSt st).reqs = []) ∧
  (∀ origin req r o p i, Accepted 2 st origin req [] s r o p → o.cls = 4 → nextSector r.smask 0 = some i →
    ∃ t, exec (.readSectors st origin req) s = .next t ∧ Out.chanRead st r.acc (payAddr s r + 512 * i) 512 ∈ t.out ∧
      (t.memSt st).reqs = [{ r with sector := i, stage := 2 }]) ∧
  (∀ origin req data r o p, Accepted 3 st origin req data s r o p → o.cls = 4 → s.isSafe st = false →
    let d := fit r.len r.data
    ∃ t, exec (.writeTile st origin req data) s = .next t ∧
      Out.chanWrite st r.acc (payAddr s r) (d ++ zeros ((64 - d.length % 64) % 64)) ∈ t.out ∧
      (t.memSt st).reqs = [{ r with stage := 3, committed := true, hdr := header [] r.len r.fmt 0, data := [] }]) ∧
  (∀ origin req data r o p, Accepted 4 st origin req data s r o p → o.cls = 4 → s.isSafe st = false → r.off % 16 = 0 → r.len % 16 = 0 →
    ∃ t, exec (.writeRange st origin req data) s = .next t ∧ Out.chanWrite st r.acc (payAddr s r + r.off) (fit r.len r.data) ∈ t.out ∧
      (t.memSt st).reqs = [{ r with stage := 3, committed := true, hdr := [], data := [], locked := true }]) ∧
  (∀ origin req data r o p, Accepted 5 st origin req data s r o p → o.cls = 4 → s.isSafe st = false → (tget {} s.accs r.desc).state ≠ 0 →
    ∃ t, exec (.accumulate st origin req data) s = .next t ∧ Out.chanRead st r.acc (32 * r.hslot) 32 ∈ t.out ∧
      (destLen (tget {} s.accs r.desc).bs ≠ 0 → Out.chanRead st r.acc (payAddr s r) (destLen (tget {} s.accs r.desc).bs) ∈ t.out) ∧
      (t.memSt st).reqs = [{ r with stage := 1, old := [], locked := true }])

/-- What the channel, the cache and the keep return to a station that is open to them. A header that fails its check
fails the request with YE_TAG_FAIL and one that passes is kept, the rest of the payload being asked for when more is
stored than was read. A tile is unsealed before any beat counts; a write keeps the old text for its commit. A
payload's acknowledgement lets its header follow, unless the station is in Safe, which cuts the write; the last one
applies the write. A version line whose MAC does not match makes its entry Bad; one that matches is cached, once the
partition's version key is at hand. A key joins the cache; a descriptor joins its cache and the requests that missed
it are checked; a request 1 ms old that has not committed fails with YE_TIMEOUT (01 R27; 02 R46, R53, R61; 03 R74,
R75, R79, R85, R87, R88, R104; 06 R194). Completes: headerReadReturn, channelReadReturn, channelWriteAck,
lineFetchReturn, keyDelivery, descriptorRefill, requestTimeout. -/
def Obligations.StationReturnsAreActedOn : Prop :=
  (∀ st acc hdr (s : State) r, findReq s st acc = some r → r.stage = 1 → s.portState st ≠ .closed → (∀ p ∈ s.profs, p.2.fence ≠ r.fence) →
    let o := s.obj (handleIdx r.handle.toNat)
    let h := fit 32 hdr
    let had := if r.kind = 1 then (if policyOf s o = 9 then 8192 else 64 * r.hint) else if r.kind = 5 ∧ o.cls = 4 then
      destLen (tget {} s.accs r.desc).bs else 8192
    (headerOk (policyOf s o) (o.cls == 4) h = false → exec (.headerReadReturn st acc hdr) s = .next (pump st (tagFail st r s))) ∧
    (headerOk (policyOf s o) (o.cls == 4) h = true →
      (headerLen h ≤ had → exec (.headerReadReturn st acc hdr) s = .next (setReq st { r with hdr := h, stage := 2 } s)) ∧
      (had < headerLen h → ∃ t, exec (.headerReadReturn st acc hdr) s = .next t ∧
        Out.chanRead st acc (payAddr s r + had) (headerLen h - had) ∈ t.out ∧
        t.memSt st = (setReq st { r with hdr := h, stage := 2 } s).memSt st))) ∧
  (∀ st acc data (s : State) r key, findReq s st acc = some r → r.stage = 2 → r.kind = 1 → s.portState st ≠ .closed →
    let o := s.obj (handleIdx r.handle.toNat)
    o.cls = 1 ∨ o.cls = 2 → halfOf (s.key r.keySlot) r.keyGen = some key →
    let out := openTile key r.pslot (version r.major r.minor) (policyOf s o) r.hdr data
    let code := ofLe (cut 19 1 r.hdr)
    (out = none → exec (.channelReadReturn st acc data) s = .next (pump st (tagFail st r s))) ∧
    (∀ l f b, out = some (l, f, b) → exec (.channelReadReturn st acc data) s = .next (pump st
      (endRead st r l (tileBlocks code (headerLen r.hdr)) (header [] l f code ++ b) s)))) ∧
  (∀ st acc data (s : State) r, findReq s st acc = some r → r.stage = 2 → s.portState st ≠ .closed →
    (r.kind = 1 → (s.obj (handleIdx r.handle.toNat)).cls = 4 →
      exec (.channelReadReturn st acc data) s = .next (pump st (endRead st r (headerLen r.hdr) 0 (r.hdr ++ fit (headerLen r.hdr) data) s))) ∧
    (isWrite r.kind = true → exec (.channelReadReturn st acc data) s = .next (pump st (setReq st { r with old := data, stage := 5 } s)))) ∧
  (∀ st acc (s : State) r, findReq s st acc = some r → s.portState st ≠ .closed →
    let fine := (s.obj (handleIdx r.handle.toNat)).cls == 3
    (r.stage = 3 → r.hdr ≠ [] →
      (s.isSafe st = false → exec (.channelWriteAck st acc) s =
        .next (pump st (setReq st { r with stage := 4, hdr := [] } (emit (.chanWrite st acc (headAddr fine r) r.hdr) s)))) ∧
      (s.isSafe st = true → exec (.channelWriteAck st acc) s = .next (pump st (cutWrite st r s)))) ∧
    (r.stage = 4 ∨ (r.stage = 3 ∧ r.hdr = []) → exec (.channelWriteAck st acc) s = .next (pump st (accepted st fine r s)))) ∧
  (∀ st e (line : BitVec 512) (s : State) slot gen, isMem st = true → s.portState st ≠ .closed → (s.memSt st).fetching.contains e = true →
    let v := (s.memSt st).entry e
    verKey s (vrtPart v) = some (slot, gen) → (s.port st).keys.contains (slot, gen) = true → halfOf (s.key slot) gen ≠ none →
    let u := s.onMem st fun m => { m with
      fetching := without m.fetching e, port := { m.port with keys := (slot, gen) :: without m.port.keys (slot, gen) } }
    let l : Line := { entry := e, minors := line.extractLsb' 0 384, major := (line.extractLsb' 384 64).toNat }
    (lineMac u st l (vrtPart v) (vrtRoot v) ≠ le 8 (line.extractLsb' 448 64).toNat →
      exec (.lineFetchReturn st e line) s = .next (pump st (failOnLine st e 0x01 2 ((faultEvent st 0x02 0xFFFF (BitVec.ofNat 64 e) u).onMem st
        fun m => { m with vrt := tset m.vrt e (vrtSetCond v 3), reseal := m.reseal.filter (fun x => x.1 != e),
                          locks := m.locks.filter fun x => x.1 != e })))) ∧
    (lineMac u st l (vrtPart v) (vrtRoot v) = le 8 (line.extractLsb' 448 64).toNat →
      ∀ oi p i, lineOwner s st e = some (oi, p, i) →
      ((s.obj oi).part ≠ vrtPart v → exec (.lineFetchReturn st e line) s = .next (pump st (failOnLine st e 0x10 3 u))) ∧
      ((s.obj oi).part = vrtPart v → (∀ x ∈ (s.memSt st).marks, x.1 ≠ e) → (s.memSt st).reqs = [] →
        ∃ t, exec (.lineFetchReturn st e line) s = .next t ∧ cachedLine (t.memSt st) e = some l ∧ t = { s with mem := t.mem } ∧
          (t.memSt st).fetching = without (s.memSt st).fetching e ∧ ∀ w, w ≠ st → t.memSt w = s.memSt w))) ∧
  (∀ st slot (gen : BitVec 32) (s : State) ks, isMem st = true → s.portState st ≠ .closed → (s.port st).asked.contains (slot, gen.toNat) = true →
    (s.key slot).state = 1 → mayHold st (s.key slot).cls = true → gen.toNat = (s.key slot).gen → (s.key slot).first = false →
    (s.key slot).purging ≠ 1 → keyRoom st s = some ks → (s.memSt st).reqs = [] →
    ∃ t, exec (.keyDelivery st slot gen) s = .next t ∧ t = { s with mem := t.mem } ∧
      t.memSt st = { s.memSt st with port := { s.port st with keys := (slot, gen.toNat) :: ks, asked := without (s.port st).asked (slot, gen.toNat) } } ∧
      ∀ w, w ≠ st → t.memSt w = s.memSt w) ∧
  (∀ st (h : BitVec 32) (s : State),
    let oi := handleIdx h.toNat
    let w := (s.memSt st).reqs.filter fun r => r.stage == 9 && handleIdx r.handle.toNat == oi
    (w = [] ∨ s.portState st = .closed → exec (.descriptorRefill st h) s = .next s) ∧
    (w ≠ [] → s.portState st ≠ .closed → exec (.descriptorRefill st h) s = .next (each w (fun r u => checkAndGo st r u)
      (s.onMem st fun m => { m with descs := (oi :: without m.descs oi).take 128 })))) ∧
  (∀ st (tag : BitVec 10) (s : State),
    let old := (s.memSt st).reqs.find? fun r => r.tag == tag.toNat && uncommitted r && decide (r.born + Config.ms 1 ≤ s.now)
    (old = none → exec (.requestTimeout st tag) s = .next s) ∧
    (∀ r, old = some r → exec (.requestTimeout st tag) s =
      .next (pump st (failReq st r 0x0C (faultEvent st 0x08 r.fence (BitVec.ofNat 64 r.pslot) s)))))

/-- Re-sealing and re-keying carry one slot at a time, under keys at hand, only while the station is Open, the clock
is not at its limit and no committed write is on its way to the slot; a line's last slot ends its re-seal. A report
starts a region's re-key with a fresh key in its slot's pending half, adds its cause to the one under way, or asks for
a second one where its line has been moved; the last move lets the keep swap the halves. The mark of a Retiring slot,
the freeze of a partition and that of a region reach all their stations in one clock. The cuts reach the requests they
name when their time has come. A stripe whose tiles are all hashed is folded into its node, and a sealed region's
measurement into its partition's register (01 R17; 02 R62; 03 R89 to R101; 04 R109 to R114; 06 R201 to R205).
Completes: resealSlot, regionRekeyStart, rekeyMove, regionRekeyCommit, keyRetiringMark, keyDrainCut,
epochRetirementCut, freezeArrival, measuredHashComplete, regionSealFold. -/
def Obligations.RekeysMarksCutsAndMeasurements : Prop :=
  (∀ st hdr payload (s : State),
    let w := clearQueue st s
    ((∀ x ∈ (s.memSt st).reseal, staleMove s st x = false ∧ (lineOwner s st x.1).isSome = true) → w.memSt st = s.memSt st) ∧
    ((w.memSt st).reseal = [] → exec (.resealSlot st hdr payload) s = .next w) ∧
    (∀ e rest oi p line l, (w.memSt st).reseal = (e, false) :: rest → lineOwner w st e = some (oi, p, line) → cachedLine (w.memSt st) e = some l →
      let o := w.obj oi
      let v := (w.memSt st).entry e
      let i := vrtCursor v
      let k := line * lineTiles o.cls + (if o.cls = 3 then i / 16 else i)
      let u := tileIndex w st (p.first + k)
      let g := (keyGenFor w o p line 0 32).2
      (backgroundOk w st = false ∨ slotBusy w st u = true → exec (.resealSlot st hdr payload) s = .next w) ∧
      (∀ key, backgroundOk w st = true → slotBusy w st u = false → (w.port st).keys.contains (o.keySlot, g) = true →
        halfOf (w.key o.keySlot) g = some key →
        let z := w.onPort st fun p => { p with keys := (o.keySlot, g) :: without p.keys (o.keySlot, g) }
        let a := if p.count ≤ k then z else resealStored st o u (i % 16) (l.major == 1 && minorOf l i == 0) key key
          (version (l.major - 1) (minorOf l i)) (version l.major 0) (policyOf z o) (p.hdr + hdrUnits o.cls * k) ((p.first + k) * 8192) hdr payload z
        let b := a.onMem st fun m => putLine { m with
          vrt := tset m.vrt e (vrtMake (vrtFine v) true ((i + 1) % 32) (vrtPart v) (vrtRoot v)) } (setMinor l i 0)
        exec (.resealSlot st hdr payload) s = .next (pump st (if i = 31 then endReseal st e b else b))))) ∧
  (∀ oi st (cause : BitVec 8) (s : State),
    let o := s.obj oi
    let limit := cause.toNat == 2 || cause.toNat == 4
    let root := cause.toNat == 3 || cause.toNat == 4
    (o.state = 1 → o.cls ≠ 4 → o.rekey = none → (s.key o.keySlot).state = 1 → o.loading = false → canDraw s 0 = true →
      s.keep.verifyBad = false →
      ∃ t, exec (.regionRekeyStart oi st cause) s = .next t ∧ t.keep.drbg0 = (drbgGen s.keep.drbg0).2 ∧
        t.key o.keySlot = { s.key o.keySlot with state := 4, pend := (drbgGen s.keep.drbg0).1, pendIs := 1, warned := true } ∧
        t.obj oi = { o with
          rekey := some { byLimit := limit }, wantRekey := false, wantLimit := false, wantFresh := [], places := o.places.map fun p =>
          { p with moved := 0, moving := false, fresh := (if root then [st] else []).contains p.st } } ∧
        (∀ i, i ≠ o.keySlot → t.key i = s.key i) ∧ ∀ i, i ≠ oi → t.obj i = s.obj i) ∧
    (o.state = 1 → o.cls ≠ 4 → (∀ x ∈ (s.memSt st).reports, x.2 ≠ cause.toNat) → ∀ k p, o.rekey = some k → placeOf o st = some p →
      let line := reportLine s st oi cause.toNat
      ∃ t, exec (.regionRekeyStart oi st cause) s = .next t ∧ (∀ i, i ≠ oi → t.obj i = s.obj i) ∧
        (p.moved ≤ line → t.obj oi = onPlace { o with rekey := some { k with byLimit := k.byLimit || limit } } st
          (fun p => { p with fresh := p.fresh || root })) ∧
        (line < p.moved → t.obj oi = { o with
          rekey := some { k with again := true }, wantRekey := true, wantLimit := o.wantLimit || limit,
          wantFresh := o.wantFresh ++ (if root then [st] else []).filter fun u => !o.wantFresh.contains u }))) ∧
  (∀ st oi hdr payload (s : State) p k, placeOf (s.obj oi) st = some p → (s.obj oi).rekey = some k →
    let o := s.obj oi
    let slot := o.keySlot
    let g := (s.key slot).gen
    (backgroundOk s st = false ∨ (s.key slot).state ≠ 4 → exec (.rekeyMove st oi hdr payload) s = .next s) ∧
    (∀ k0 k1, backgroundOk s st = true → (s.key slot).state = 4 → o.cls = 1 → p.moved < p.count →
      (s.port st).keys.contains (slot, g) = true → (s.port st).keys.contains (slot, g + 1) = true →
      halfOf (s.key slot) g = some k0 → halfOf (s.key slot) (g + 1) = some k1 → isMem st = true →
      let tile := p.first + p.moved
      let z := s.onMem st fun m => { m with
        port := { m.port with keys := (slot, g + 1) :: without ((slot, g) :: without m.port.keys (slot, g)) (slot, g + 1) } }
      let a := resealStored st o (tileIndex s st tile) 0 false k0 k1 o.loadGen 1 (policyOf s o) (p.hdr + p.moved) (tile * 8192) hdr payload z
      exec (.rekeyMove st oi hdr payload) s = .next (pump st (a.onObj oi fun o => onPlace o st fun p => { p with moved := p.moved + 1 })))) ∧
  (∀ oi (s : State) k, (s.obj oi).rekey = some k →
    let o := s.obj oi
    (allMoved o = false → exec (.regionRekeyCommit oi) s = .next s) ∧
    (allMoved o = true → (s.key o.keySlot).state = 4 → ∃ t, exec (.regionRekeyCommit oi) s = .next t ∧
      t.key o.keySlot = (let x := s.key o.keySlot
        { x with state := 5, cur := x.pend, pend := x.cur, pendIs := 2, gen := x.gen + 1, inv := 0, warned := false,
                 waitSwap := holders x.cls }) ∧
      t.obj oi = { o with
        rekey := none, wantRekey := o.wantRekey || k.again, loadGen := if o.cls = 1 then 1 else o.loadGen,
        places := o.places.map fun p => { p with moved := 0, fresh := false } } ∧ t = { s with keys := t.keys, objs := t.objs, mem := t.mem })) ∧
  (∀ st slot t0 rest (s : State), s.keepway = (t0, 2, slot) :: rest → (s.key slot).state = 6 → (holders (s.key slot).cls).contains st = true →
    ∃ t, exec (.keyRetiringMark st slot) s = .next t ∧ t.keepway = rest ∧ ∀ u ∈ holders (s.key slot).cls,
      (isMem u = true → t.memSt u = { s.memSt u with
        retSlots := slot :: without (s.memSt u).retSlots slot,
        descs := (s.memSt u).descs.filter fun oi => (s.obj oi).keySlot != slot || (s.obj oi).cls == 4 }) ∧
      (isLink u = true → t.linkSt u = { s.linkSt u with
        jobs := tmap (fun _ j => if j.slot = slot ∧ j.state = 1 then { j with state := 2 } else j) (s.linkSt u).jobs })) ∧
  (∀ st slot (s : State),
    (drainOver s slot = false → exec (.keyDrainCut st slot) s = .next s) ∧
    (drainOver s slot = true → isMem st = true → exec (.keyDrainCut st slot) s = .next (cutReqs st 0x05 (underSlot s slot) s)) ∧
    (drainOver s slot = true → isMem st = false → isLink st = true → exec (.keyDrainCut st slot) s =
      .next (each ((s.linkSt st).jobs.filter fun j => j.2.slot == slot && j.2.state != 0) (fun j u => cutJob st j.1 0x05 u) s))) ∧
  (∀ st (s : State),
    (s.now < s.epochAt + Config.ms 5 → exec (.epochRetirementCut st) s = .next s) ∧
    (s.epochDraining = true → s.epochAt + Config.ms 5 ≤ s.now → isMem st = true →
      exec (.epochRetirementCut st) s = .next (cutReqs st 0x04 (fun r => r.epoch == s.epoch - 1) s))) ∧
  (∀ st part t0 rest (s : State), isMem st = true → s.keepway = (t0, 0, part) :: rest → ((s.part part).state = 3 ∨ (s.part part).state = 4) →
    exec (.freezeArrival st part 0) s = .next (each Config.memIds (freezePart part) { s with keepway := rest }) ∧
    ((∀ u ∈ Config.memIds, (s.memSt u).reqs = []) → ∃ t, exec (.freezeArrival st part 0) s = .next t ∧
      t = { s with mem := t.mem, keepway := rest } ∧ ∀ u ∈ Config.memIds, t.memSt u = { s.memSt u with
        frzParts := part :: without (s.memSt u).frzParts part, descs := (s.memSt u).descs.filter fun oi => (s.obj oi).part != part })) ∧
  (∀ st obj t0 rest (s : State), isMem st = true → obj ≠ 0 → s.keepway = (t0, 1, obj) :: rest → (s.obj obj).frozen = true →
    exec (.freezeArrival st 0 obj) s = .next (each Config.memIds (freezeRegion obj) { s with keepway := rest }) ∧
    ((∀ u ∈ Config.memIds, (s.memSt u).reqs = []) → ∃ t, exec (.freezeArrival st 0 obj) s = .next t ∧
      t = { s with mem := t.mem, keepway := rest } ∧ ∀ u ∈ Config.memIds, t.memSt u = { s.memSt u with
        frzObjs := obj :: without (s.memSt u).frzObjs obj, descs := without (s.memSt u).descs obj })) ∧
  (∀ st oi stripe (s : State) p,
    let o := s.obj oi
    let ks := (List.range 16).map (· + 16 * stripe) |>.filter fun k => decide (k < o.tiles)
    o.meas = 2 → o.places[stripe % o.places.length]? = some p → p.st = st → ks ≠ [] → tfind o.nodes stripe = none →
    (∀ k ∈ ks, (tfind o.leaves k).isSome = true) →
    ∃ t, exec (.measuredHashComplete st oi stripe) s = .next t ∧
      t.obj oi = { o with nodes := tset o.nodes stripe (treeNode 1 stripe (ks.map fun k => tget [] o.leaves k)),
                          leaves := o.leaves.filter fun x => x.1 / 16 != stripe } ∧ ∀ i, i ≠ oi → t.obj i = s.obj i) ∧
  (∀ oi (s : State) t rest, runningWith s 0x0402 oi = t :: rest →
    let o := s.obj oi
    let mr := sha384 ([2, BitVec.ofNat 8 o.kind] ++ le 2 o.label ++ le 4 o.tiles ++ treeRoot 8 1 (o.nodes.map (·.2)))
    (o.meas = 1 → exec (.regionSealFold oi) s = .next (failCmd t 0x02 s)) ∧
    (o.meas ≠ 1 → o.loading = false ∨ o.meas ≠ 2 → exec (.regionSealFold oi) s = .next (failCmd t 0x10 s)) ∧
    (o.meas = 2 → o.loading = true → cursorsFull o = true → o.nodes.length = stripes o.tiles → earlierSeal s t = false → o.wantRekey = false →
      ∃ u, exec (.regionSealFold oi) s = .next u ∧
        u.part o.part = { s.part o.part with pmr := sha384 (fit 48 (s.part o.part).pmr ++ mr) } ∧
        u.obj oi = { o with meas := 3, mr := mr, loading := false } ∧ (∀ i, i ≠ o.part → u.part i = s.part i) ∧ ∀ i, i ≠ oi → u.obj i = s.obj i))

/-! ### Sealed fabric traffic (05) -/

/-- LINK_JOB_CONFIG on a bound job sets its bundle flush time at every link station and its port map, and nothing
else, where no egress instance is open through a port that its destination no longer has (05 R135, R137). BULK_COPY
joins the copies in progress and asks the memory station of its first tile for it, or, of no tiles, sends the Flush
that ends it; CKPT_SEND notes the checkpoint and record number in its key slot, seals the tiles' entries, and hands
the record's chunks to the link station that carries the traffic to each of its holders, in order and with a Flush
after them. Both go on running until the Flushes are answered (05 R163, R169, R179, R180). CKPT_RESTORE of a record
whose tag passes under the checkpoint key writes its tiles whole, in order, and answers their number; PARITY_REBUILD
writes the missing shards one after another (in mode 1 a Q shard is none). The partition is charged for the bytes read
and for those written, and no other state changes (05 R180, R181; 08 R287). Completes: linkJobConfig, bulkCopy,
ckptSend, ckptRestore, parityRebuild. -/
def Obligations.LinkAndCheckpointCommandsRun : Prop :=
  (∀ q e rc inp (s : State), Starts 0x0501 q e rc s →
     let part := opnd e 0 1
     let ports := (List.range 64).map fun i => (i, opnd e 4 40 / 2 ^ (5 * i) % 32)
     let stays (c : Ctxt) : Prop := c.part = part → c.ingress = false → c.state = 2 → c.port = tget 0 ports (c.peer % 64)
     (jobOf s 0x80 part).state = 1 → opnd e 1 1 ≤ 200 → (∀ c ∈ s.backing, stays c) → (∀ l ∈ s.link, ∀ c ∈ l.2.ctxs, stays c) →
     ∃ t, exec (.linkJobConfig q e rc inp) s = .next t ∧ Completed q e [] s t ∧
       (∀ st ∈ Config.linkIds, jobOf t st part = { jobOf s st part with flush := opnd e 1 1 }) ∧
       t.bare = { s.bare with
         link := t.link,
         doms := tset s.doms part { s.dom part with portMap := ports } }) ∧
  (∀ q e rc inp (s : State), Starts 0x0512 q e rc s →
    let dst := opnd e 9 3
    let n := opnd e 24 4
    let part := (s.ctx (s.queue q).ctx).part
    let seq := (s.queue q).nextSeq
    let st := linkFor s part dst
    let c : Copy := { st := st, q := q, seq := seq, part := part, obj := handleIdx (opnd e 0 4), first := opnd e 4 5 / 8192, tiles := n,
                      dst := dst, handle := BitVec.ofNat 32 (opnd e 12 4), off := opnd e 16 5, counter := opnd e 22 2, fence := envFence e }
    keepLinkCheck s part dst = 0 → opnd e 4 5 % 8192 = 0 → opnd e 16 5 % 8192 = 0 →
    objAccess s part (opnd e 0 4) (opnd e 4 5) (8192 * n) false = 0 → (∀ x ∈ s.copies, ¬ (x.q = q ∧ x.seq = seq)) →
    (1 ≤ n → ∃ m r t, tileReq s part c.obj c.first false = some (m, r) ∧ exec (.bulkCopy q e rc inp) s = .next t ∧ Running q e 1 s t ∧
      t.bare = { s.bare with copies := s.copies ++ [{ c with asked := true }] } ∧
      Out.dreq st 0 (seq % 1024) (le 1 m ++ packReq { r with origin := st, tag := seq % 1024, fence := envFence e }) [] ∈ t.out) ∧
    (n = 0 → ∃ u, exec (.bulkCopy q e rc inp) s = .next (linkPump st u) ∧ Running q e 1 s u ∧ u.bare = { s.bare with link := u.link } ∧
      ∃ flush : LReq, flush.wire = 6 ∧ flush.dst = dst ∧ flush.fence = envFence e ∧
        (u.linkSt st).waiting = (s.linkSt st).waiting ++ [flush])) ∧
  (∀ q e rc inp (s : State), Starts 0x0520 q e rc s →
    let n := opnd e 12 4
    let num := opnd e 16 4
    let idx := opnd e 20 6
    let mode := opnd e 27 1
    let part := (s.ctx (s.queue q).ctx).part
    let d := s.dom part
    let k := s.key d.ckptSlot
    let tiles := parseTiles n inp
    let bytes := (tiles.map (·.1)).sum
    let body := (tiles.map tileEntry).flatten
    let hdr := ckptHdr num d.own idx body.length
    let sealed_ := gcmSeal k.cur (ckptIv d.own num idx) hdr body
    let rcd := hdr ++ sealed_.2 ++ sealed_.1
    let holders := [(opnd e 9 3, opnd e 28 4, 15)] ++ (if 1 ≤ mode then [(opnd e 32 3, opnd e 38 4, opnd e 26 1)] else []) ++
      (if mode = 2 then [(opnd e 35 3, opnd e 42 4, opnd e 26 1 + 16)] else [])
    mode ≤ 2 → (∀ x ∈ holders, keepLinkCheck s part x.1 = 0) → opnd e 26 1 ≤ 7 → idx < 2 ^ 46 → k.cls = 4 → opnd e 4 5 % 8192 = 0 →
    num + 1 < 2 ^ 32 → (num < 2 ^ 31 ∨ k.warned = true) → (∀ a b, k.ckpt = some (a, b) → a < num ∨ a = num ∧ b < idx) →
    objAccess s part (opnd e 0 4) (opnd e 4 5) (8192 * n) false = 0 → MeterFits s part 5 bytes →
    ∃ (t : Taken) (u : State), t.q = q ∧ t.seq = (s.queue q).nextSeq ∧ t.e = e ∧
      exec (.ckptSend q e rc inp) s = .next (each holders (fun x v => keepSend part x.1 (chunkReqs t part x.1 x.2.1 x.2.2 rcd v) v) u) ∧
      Running q e holders.length s u ∧ u.bare = { s.bare.metered part 5 bytes with keys := tset s.keys d.ckptSlot { k with ckpt := some (num, idx) } } ∧
      ∀ (x : Nat × Nat × Nat) (v : State), (((chunkReqs t part x.1 x.2.1 x.2.2 rcd v).filter fun r => r.wire == 8).map (·.data)).flatten = rcd ∧
        ∀ r ∈ chunkReqs t part x.1 x.2.1 x.2.2 rcd v, r.part = part ∧ r.dst = x.1 ∧ r.fence = envFence e) ∧
  (∀ q e rc inp (s : State), Starts 0x0521 q e rc s →
    let h := opnd e 4 4
    let off := opnd e 8 5
    let part := (s.ctx (s.queue q).ctx).part
    let k := s.key (s.dom part).ckptSlot
    let len := ofLe (cut 16 8 inp)
    let opened (key : BitVec 256) :=
      gcmOpen key (ckptIv (ofLe (cut 4 3 inp)) (ofLe (cut 0 4 inp)) (ofLe (cut 8 6 inp))) (inp.take 32) (cut 48 len inp) (cut 32 16 inp)
    ∀ b, objAccess s part (opnd e 0 4) 0 (48 + len) false = 0 → off % 8192 = 0 → len % 16 = 0 → 48 + len ≤ inp.length → k.cls = 4 →
    (opened k.cur = some b ∨ opened k.cur = none ∧ k.pendIs = 2 ∧ opened k.pend = some b) →
    let tiles := parseTiles (b.length / 16) b
    let bytes := (tiles.map (·.1)).sum
    tileAccess s part h off (8192 * tiles.length) = 0 → MeterFits s part 5 (48 + len) → MeterFits s part 4 bytes →
    ∃ t, exec (.ckptRestore q e rc inp) s = .next t ∧ Completed q e (le 4 tiles.length) s t ∧
      t.bare = (s.bare.metered part 5 (48 + len)).metered part 4 bytes ∧
      ∀ x ∈ tiles.zipIdx, Out.tileWrite h (off / 8192 + x.2) x.1.1 x.1.2.1 x.1.2.2 ∈ t.out) ∧
  (∀ q e rc inp (s : State), Starts 0x0522 q e rc s →
    let missing := (List.range 10).filter fun i => opnd e 1 2 / 2 ^ i % 2 == 1
    let shards := parseShards 10 inp
    let read := (shards.map List.length).sum
    let cols := (List.range ((shards.map List.length).foldl max 0)).map fun x => rebuildByte missing (shards.map fun b => b.getD x 0)
    let mode := opnd e 0 1
    let out := ((missing.filter fun i => !(mode == 1 && i == 9)).map fun i => cols.map fun v => v.getD i 0).flatten
    let part := (s.ctx (s.queue q).ctx).part
    (mode = 2 ∨ mode = 1 ∧ (missing.filter (· < 9)).length ≤ 1) → opnd e 1 2 < 2 ^ 10 → missing.length ≤ 2 →
    (∀ i < 10, (opnd e (4 + 4 * i) 4 = 0 ↔ i ∈ missing) ∨ mode = 1 ∧ i = 9) →
    (∀ x ∈ shards.zipIdx, opnd e (4 + 4 * x.2) 4 = 0 ∨ objAccess s part (opnd e (4 + 4 * x.2) 4) 0 x.1.length false = 0) →
    objAccess s part (opnd e 44 4) 0 out.length true = 0 → MeterFits s part 5 read → MeterFits s part 4 out.length →
    ∃ t, exec (.parityRebuild q e rc inp) s = .next t ∧ Completed q e [] s t ∧
      t.bare = (s.bare.metered part 5 read).metered part 4 out.length ∧
      Out.objWrite (opnd e 44 4) 0 out ∈ t.out)

/-- A link request is taken only while its station is Open, and one that fails a check is answered with the check's
code. A tracked request that passes, on an idle open space whose key is cached, leaves at once: it holds the lowest
free tracker and its packet goes out sealed under the job's key at the space's next sequence. A space that waits opens
its next instance; a refilled context enters from its record; a bundle whose limit is past is sent (05 R138 to R149,
R166, R168). Completes: linkRequestIntake, instanceOpen, contextRefillDone, bundleFlushTimeout. -/
def Obligations.LinkRequestsLeaveThroughTheirSpace : Prop :=
  (∀ st req data (s : State), s.portState st ≠ .opened → exec (.linkRequestIntake st req data) s = .next s) ∧
  (∀ st req data (s : State), isLink st = true → s.portState st = .opened →
    let r := linkReq req data
    (∀ p ∈ s.profs, p.2.fence ≠ r.fence) → linkCheck s st r ≠ 0 →
    exec (.linkRequestIntake st req data) s = .next (refuseLink st r (linkCheck s st r)
      (bump st 2 1 (s.onPort st fun p => { p with intake := (p.intake + 1) % 2 ^ 32, lastTag := r.tag })))) ∧
  (∀ st req data (s : State) c i key, isLink st = true → s.portState st = .opened →
    let r := linkReq req data
    let l := s.linkSt st
    let j := tget {} l.jobs r.part
    let sect := opHdr r.kind 4 r.len i r.akind r.handle.toNat r.off ++ pad16 (if r.kind = 3 then fit r.len r.data else [])
    let word := seqField r.dst false j.gen c.seq
    let hdr (n : Nat) := packetHdr 1 r.dst c.port j.own (st - 0x80) n j.keyIndex j.gen c.sepoch word
    let sealed := gcmSeal key (linkIv j.own c.sepoch word) (hdr 0) sect
    (∀ p ∈ s.profs, p.2.fence ≠ r.fence) → linkCheck s st r = 0 → tracked r.kind = true → j.state = 1 → j.stalled = false →
    atLimit l r = false → l.waiting = [] → (∀ b ∈ l.bundles, ¬ (b.part = r.part ∧ b.peer = r.dst)) → freeTracker l = some i →
    findCtx l r.part r.dst false false = some c → c.state = 2 → c.gen = j.gen →
    l.port.keys.contains (j.slot, gen32 (s.key j.slot) j.gen) = true → halfOf (s.key j.slot) (gen32 (s.key j.slot) j.gen) = some key →
    ∃ t, exec (.linkRequestIntake st req data) s = .next t ∧ Out.packet st (hdr sect.length ++ sealed.1 ++ sealed.2) ∈ t.out ∧
      (t.linkSt st).waiting = [] ∧ (t.linkSt st).trackers = tset l.trackers i {
        part := r.part, peer := r.dst, engine := r.engine, slot := r.slot, tag := r.tag, kind := r.kind, fence := r.fence,
        epoch := r.epoch, sentAt := s.now, seq := c.seq, gen := c.gen, layer := r.layer, oper := r.oper }) ∧
  (∀ st part peer resp (s : State) c,
    let l := s.linkSt st
    let j := tget {} l.jobs part
    let e := if c.gen = j.gen then max (c.sepoch + 1) j.mark else j.mark
    findCtx l part peer false resp = some c → s.portState st ≠ .closed → j.state = 1 → j.stalled = false →
    (∃ r ∈ l.waiting, r.part = part ∧ r.dst = peer ∧ r.resp = resp) →
    (c.state = 3 ∨ c.state = 4 ∨ c.state = 5 ∨ (c.state = 2 ∧ c.gen ≠ j.gen)) →
    (e ≤ 0x3FFF →
      let c' : Ctxt := { c with
        state := 2, gen := j.gen, genBit := j.gen % 2 == 1, sepoch := e, seq := 0, gather := false, final := none,
        port := tget 0 (s.dom part).portMap (peer % 64), st := st }
      let a := closeElsewhere st c' (putRecord st c' (s.onLink st (putCtx c')))
      let rot : LReq := { part := part, dst := peer, resp := resp, wire := 0xC1, data := le 8 (c.seq - 1) }
      exec (.instanceOpen st part peer resp) s = .next (linkPump st
        (if c.gen ≠ j.gen ∧ c.seq ≠ 0 then a.onLink st fun l => { l with waiting := rot :: l.waiting } else a))) ∧
    (0x3FFF < e → exec (.instanceOpen st part peer resp) s = .next (keyThreshold j.slot (s.onDom part fun d => { d with askRot := some 2 })))) ∧
  (∀ st part peer ing resp rc (s : State) c, findCtx (s.linkSt st) part peer ing resp = some c →
    (c.state ≠ 1 ∨ s.portState st = .closed → exec (.contextRefillDone st part peer ing (resp, rc)) s = .next s) ∧
    (c.state = 1 → s.portState st ≠ .closed →
      (rc ≠ 0 → exec (.contextRefillDone st part peer ing (resp, rc)) s = .next (emit (.recordRead st part (recordIdx c)) s)) ∧
      (rc = 0 → exec (.contextRefillDone st part peer ing (resp, rc)) s = .next (linkPump st
        (retryHeld st 0 (fun h => ing && h.part == part && h.peer == peer && h.response == resp)
          (s.onLink st (putCtx (refillCtx s st c)))))))) ∧
  (∀ st part peer (s : State),
    (s.portState st = .closed ∨ (∀ b ∈ (s.linkSt st).bundles, b.part = part → b.peer = peer → s.now < b.openAt + 5 * (jobOf s st part).flush) →
      exec (.bundleFlushTimeout st part peer) s = .next s) ∧
    (∀ b, s.portState st ≠ .closed → (s.linkSt st).bundles = [b] → b.part = part → b.peer = peer →
      b.openAt + 5 * (jobOf s st part).flush ≤ s.now →
      exec (.bundleFlushTimeout st part peer) s = .next (closeBundle st b s)))

/-- A malformed packet is dropped and counted, its buffer released. One in its turn whose tag verifies is held,
opened, for its space. A packet that is applied moves its space on, frees its buffer and starts its operations. A
remote operation that is done is answered with its data or its code: a Load with the bytes asked for, an Atomic with
the old value, an Invalidate and a Flush with an empty answer, the Flush once every earlier operation is done. A
flagged Store goes on when the Stores before it are done. A bulk tile's report moves its copy's arrival counter (05
R153 to R163, R169 to R171). Completes: packetArrival, packetApply, loadDataRelease, atomicResult, invalidateDone,
flushDone, flaggedStoreRelease, bulkCompletionReport. -/
def Obligations.PacketsAreCheckedAppliedAndAnswered : Prop :=
  (∀ st slot b (s : State), s.portState st = .closed → exec (.packetArrival st slot b) s = .next s) ∧
  (∀ st slot b (s : State), s.portState st ≠ .closed → packetMalformed b = true →
    ∃ t, exec (.packetArrival st slot b) s = .next t ∧ t = faultEvent st 0x05 0xFFFF (BitVec.ofNat 64 (ofLe (cut 4 4 b) % 2 ^ 18))
      (bump st 7 1 (emit (.rxFree st slot) s))) ∧
  (∀ st slot b (s : State) part j c key p, isLink st = true → s.portState st ≠ .closed → packetMalformed b = false →
    let l := s.linkSt st
    let h := packetOf s.now part slot b
    let n := b.length - 48
    let aad := b.take 8 ++ [0, 0] ++ cut 10 22 b
    (l.jobs.find? fun x => x.2.state != 0 && x.2.keyIndex == ofLe (cut 16 2 b)) = some (part, j) → tget {} l.jobs part = j →
    j.state = 1 → j.stalled = false → h.gen = j.gen → (∀ x ∈ l.lost, x.1 = part → x.2.1 = h.peer → x.2.2 ≤ h.sepoch) →
    ofLe (cut 24 8 b) / 2 ^ 36 = seqField j.own h.response h.gen 0 / 2 ^ 36 →
    findCtx l part h.peer true h.response = some c → c.state = 2 → c.gen = h.gen → c.sepoch = h.sepoch → h.seq = c.seq →
    (∀ x ∈ l.held, ¬ (x.part = part ∧ x.peer = h.peer ∧ x.response = h.response ∧ x.gen = h.gen ∧ x.sepoch = h.sepoch ∧ x.seq = h.seq)) →
    l.port.keys.contains (j.slot, gen32 (s.key j.slot) h.gen) = true → halfOf (s.key j.slot) (gen32 (s.key j.slot) h.gen) = some key →
    gcmOpen key (linkIv h.peer h.sepoch (ofLe (cut 24 8 b))) aad (cut 32 n b) (cut (32 + n) 16 b) = some p →
    ∃ t, exec (.packetArrival st slot b) s = .next t ∧ (t.linkSt st).held = l.held ++ [{ h with phase := 2, body := p }] ∧
      t = { s with link := t.link }) ∧
  (∀ st part peer resp (s : State) c h,
    let u := settleLink st s
    let l := u.linkSt st
    let ops := parseOps 289 h.body
    let asks := (ops.filter fun o => decide (ofLe (o.1.take 1) < 0x80)).length
    findCtx l part peer true resp = some c → u.portState st ≠ .closed → c.state = 2 → c.flagWait = false →
    (l.held.find? fun x => ofInstance c x && x.phase == 2 && x.seq == c.seq) = some h → sectionBad h ops = false →
    (∀ o ∈ ops, ofLe (cut 1 1 o.1) / 2 % 2 = 0 ∧ bulkWaits u o = false) → asks = 0 ∨ l.ops.length + asks ≤ 1024 →
    (∀ x ∈ l.contTx, ¬ (x.part = h.part ∧ x.peer = h.peer ∧ x.response = h.response)) → (jobOf u st h.part).state = 1 →
    let a := u.onLink st fun l => { putCtx { c with seq := c.seq + 1 } l with
      held := l.held.filter fun x => !(ofInstance c x && x.seq == h.seq && x.phase == 2),
      contTx := l.contTx.filter fun x => !(x.part == h.part && x.peer == h.peer && x.response == h.response) }
    exec (.packetApply st part peer resp) s = .next (each ops (fun o u => applyOp st h o u) (countApplied st h a))) ∧
  (∀ st (tag : Nat) (s : State) o, findOp s st tag 1 = some o →
    (o.done = false → exec (.loadDataRelease st tag) s = .next s) ∧
    (o.done = true → o.code ≠ 0 → exec (.loadDataRelease st tag) s = .next (sendError st o o.code (dropOp st tag s))) ∧
    (o.done = true → o.code = 0 → exec (.loadDataRelease st tag) s =
      .next (sendResp st o.part o.peer 0x81 0 o.tracker (loadBytes s o) (dropOp st tag s)))) ∧
  (∀ st (tag : Nat) (old : BitVec 64) (s : State) o, findOp s st tag 3 = some o →
    exec (.atomicResult st tag old) s = .next (sendResp st o.part o.peer 0x83 0 o.tracker (le 8 old.toNat) (dropOp st tag s))) ∧
  (∀ st (tag : Nat) (s : State) o, findOp s st tag 4 = some o →
    exec (.invalidateDone st tag) s = .next (sendResp st o.part o.peer 0x84 0 o.tracker [] (dropOp st tag s))) ∧
  (∀ st (tag : Nat) (s : State) o, findOp (settleLink st s) st tag 6 = some o →
    ((∀ x ∈ opsBefore ((settleLink st s).linkSt st) o, x.done = true) → exec (.flushDone st tag) s =
      .next (sendResp st o.part o.peer 0x86 0 o.tracker [] (dropOp st tag (settleLink st s)))) ∧
    ((∃ x ∈ opsBefore ((settleLink st s).linkSt st) o, x.done = false) → exec (.flushDone st tag) s = .next (settleLink st s))) ∧
  (∀ st part peer (s : State) o,
    let u := settleLink st s
    ((u.linkSt st).ops.find? fun o => o.opcode == 2 && !o.issued && o.part == part && o.peer == peer) = some o →
    (∀ x ∈ opsBefore (u.linkSt st) o, x.opcode = 2 → x.done = true) → exec (.flaggedStoreRelease st part peer) s =
      .next (issueOp st o (u.onLink st fun l => { l with
        ctxs := l.ctxs.map fun c => if sameCtx part peer true false c then { c with flagWait := false } else c }))) ∧
  (∀ st (tag : Nat) (s : State) o, findOp s st tag 7 = some o → o.done = true →
    let a := tget {} s.arrivals o.tracker
    a.state = 1 → a.part = o.part →
    ∃ t, exec (.bulkCompletionReport st tag) s = .next t ∧ (t.linkSt st).ops = (s.linkSt st).ops.filter (fun x => x.tag != tag) ∧
      (o.code = 0 → tget {} t.arrivals o.tracker = landTile ((o.off - a.base) / 8192) a) ∧
      (o.code ≠ 0 → tget {} t.arrivals o.tracker = { a with
        failed := a.failed + 1, err := if a.err = 0 then o.code else a.err, bad := (o.off - a.base) / 8192 :: a.bad }) ∧
      ∀ i, i ≠ o.tracker → tget {} t.arrivals i = tget {} s.arrivals i)

/-- GAP_TIMEOUT: a space whose next packet is 200 µs late breaks; its source is told. TRACKER_TIMEOUT: a tracker 2 ms
old is counted and answered YE_TIMEOUT. ROTATION_COMMIT_ARRIVAL: at a rotation's commit every station whose job is
armed turns to the armed generation, and the egress instances of the one before it are Closed.
GENERATION_DRAIN_TIMEOUT: that one ends 200 µs later, once no packet of it is held. MEMBER_LOST_ARRIVAL: a lost
member's streams are Lost at every station of the job, which takes the new mark (05 R157, R166, R175 to R178).
Completes: gapTimeout, trackerTimeout, rotationCommitArrival, generationDrainTimeout, memberLostArrival. -/
def Obligations.LinkTimeoutsRotationsAndLosses : Prop :=
  (∀ st part peer resp (s : State) c, findCtx (s.linkSt st) part peer true resp = some c → s.portState st ≠ .closed → c.state = 2 →
    (∀ h ∈ (s.linkSt st).held, ofInstance c h = true → h.seq ≠ c.seq) →
    (∃ h ∈ (s.linkSt st).held, ofInstance c h = true ∧ c.seq < h.seq ∧ h.at_ + Config.us 200 ≤ s.now) →
    ∃ t, exec (.gapTimeout st part peer resp) s = .next t ∧ t = breakSpace st c s) ∧
  (∀ st part peer resp (s : State), (∀ h ∈ (s.linkSt st).held, s.now < h.at_ + Config.us 200) →
    exec (.gapTimeout st part peer resp) s = .next s) ∧
  (∀ st idx (s : State) t, tfind (s.linkSt st).trackers idx = some t → s.portState st ≠ .closed → t.sentAt + Config.ms 2 ≤ s.now →
    ∃ u, exec (.trackerTimeout st idx) s = .next u ∧ u = endTracker st idx 0x0C [] (bump st 24 1 s) ∧
      (t.engine < 4096 → (∀ p ∈ s.profs, p.2.fence ≠ t.fence) →
        Out.answer st t.engine t.slot t.tag 0x0C [] ∈ u.out ∧ (u.linkSt st).trackers = tdel (s.linkSt st).trackers idx)) ∧
  (∀ st idx (s : State) t, tfind (s.linkSt st).trackers idx = some t → s.now < t.sentAt + Config.ms 2 →
    exec (.trackerTimeout st idx) s = .next s) ∧
  (∀ part (s : State), sorted s.link = true →
    (∀ l ∈ s.link, commitHere s part l.2 = true → l.2.bundles = [] ∧ l.2.held = [] ∧ l.2.waiting = []) →
    ∃ t, exec (.rotationCommitArrival part) s = .next t ∧ t = { s with link := t.link } ∧
      ∀ x ∈ s.link, (commitHere s part x.2 = true →
        jobOf t x.1 part = { jobOf s x.1 part with
          prev := some (jobOf s x.1 part).gen, gen := (jobOf s x.1 part).armed.getD (jobOf s x.1 part).gen, armed := none, mark := 0,
          startMark := 0, invocations := 0, commitAt := s.now } ∧
        ∀ c ∈ (t.linkSt x.1).ctxs, c.part = part → c.ingress = false → c.state ≠ 2) ∧
        (commitHere s part x.2 = false → t.linkSt x.1 = s.linkSt x.1)) ∧
  (∀ st part (s : State) g,
    let j := tget {} (s.linkSt st).jobs part
    j.prev = some g →
    (j.commitAt + Config.us 200 ≤ s.now → (∀ h ∈ (s.linkSt st).held, ¬ (h.part = part ∧ h.gen = g)) →
      ∃ t, exec (.generationDrainTimeout st part) s = .next t ∧ jobOf t st part = { jobOf s st part with prev := none } ∧ t = { s with link := t.link }) ∧
    (s.now < j.commitAt + Config.us 200 → exec (.generationDrainTimeout st part) s = .next s)) ∧
  (∀ part (dev : BitVec 18) (mark : BitVec 14) (s : State), sorted s.link = true →
    (∀ l ∈ s.link, (tget {} l.2.jobs part).state ≠ 0 → l.2.lost.length < 256 ∧ l.2.held = [] ∧ l.2.contTx = [] ∧ l.2.waiting = [] ∧
      ∀ x ∈ l.2.trackers, x.2.part = part → x.2.peer ≠ dev.toNat) →
    ∃ t, exec (.memberLostArrival part dev mark) s = .next t ∧ t.objs = s.objs ∧ t.doms = s.doms ∧ t.keys = s.keys ∧
      ∀ x ∈ s.link, ((tget {} x.2.jobs part).state ≠ 0 →
        (t.linkSt x.1).lost = x.2.lost ++ [(part, dev.toNat, mark.toNat)] ∧
        (∀ c ∈ (t.linkSt x.1).ctxs, c.part = part → c.peer = dev.toNat → c.state = 5 ∨ c.state = 1) ∧
        (∀ b ∈ (t.linkSt x.1).bundles, ¬ (b.part = part ∧ b.peer = dev.toNat)) ∧
        (tget {} (t.linkSt x.1).jobs part).mark = max (tget {} x.2.jobs part).mark mark.toNat) ∧
        ((tget {} x.2.jobs part).state = 0 → t.linkSt x.1 = s.linkSt x.1))

/-! ### Keys and cipher services (06) -/

/-- KEY_CREATE installs a first key, which instance 0 drew, in the lowest free slot, Active and owned by the issuing
partition; KEY_IMPORT installs the key that its wrapping key unwraps, and its partition is charged for the 40 bytes
read. KEY_ROTATE of an Active tenant slot leaves it Draining, one generation on, with the old key in its previous
half; KEY_RETIRE_PREVIOUS of a Draining one destroys the previous half, logs its destruction and leaves the slot
Active; KEY_DESTROY leaves it Retiring, to be drained within 2 ms, tells the stations over the keepway, and goes on
running (06 R201 to R205). Completes: keyCreate, keyImport, keyRotate, keyRetirePrevious, keyDestroy. -/
def Obligations.KeysAreCreatedRotatedAndDestroyed : Prop :=
  (∀ q e rc inp (s : State), Starts 0x0601 q e rc s →
    let cls := opnd e 0 1
    let drawn := drbgGen s.keep.drbg0
    ∀ i, (cls = 9 ∨ cls = 0xA ∨ cls = 0xC) → freeSlot s false = some i → canDraw s 0 = true → s.keep.verifyBad = false →
    let k : KeySlot := { state := 1, cls := cls, owner := (s.ctx (s.queue q).ctx).part, gen := (s.key i).gen + 1, cur := drawn.1 }
    ∃ t, exec (.keyCreate q e rc inp) s = .next t ∧ Completed q e (le 2 i ++ le 4 k.gen ++ kcv k.cur) s t ∧ t.key i = k ∧
      t.bare = { s.bare with keys := tset s.keys i k, keep := { s.bare.keep with drbg0 := drawn.2 } }) ∧
  (∀ q e rc inp (s : State), Starts 0x0606 q e rc s →
    let w := s.key (opnd e 0 2)
    let cls := opnd e 2 1
    let c := s.ctx (s.queue q).ctx
    ∀ i key, c.device = true → w.keepOwn = false → w.owner = c.part → w.state ≠ 0 → w.state ≠ 6 → w.cls = 0xA →
    (cls = 9 ∨ cls = 0xA ∨ cls = 0xC) → accPart s { q := q } (opnd e 4 4) = c.part →
    objAccess s c.part (opnd e 4 4) (opnd e 8 5) 40 false = 0 → kwUnwrap w.cur (fit 40 inp) = some key →
    freeSlot s false = some i → MeterFits s c.part 5 40 → s.keep.verifyBad = false →
    let k : KeySlot := { state := 1, cls := cls, owner := c.part, gen := (s.key i).gen + 1, cur := keyOf key }
    ∃ t, exec (.keyImport q e rc inp) s = .next t ∧ Completed q e (le 2 i ++ le 4 k.gen ++ kcv k.cur) s t ∧ t.key i = k ∧
      t.bare = { s.bare.metered c.part 5 40 with keys := tset s.keys i k }) ∧
  (∀ q e rc inp (s : State),
     let i := opnd e 0 2
     let k := s.key i
     let c := s.ctx (s.queue q).ctx
     c.device = true → k.keepOwn = false → k.owner = c.part → (k.cls = 9 ∨ k.cls = 0xA ∨ k.cls = 0xB ∨ k.cls = 0xC) →
     (Starts 0x0602 q e rc s → k.state = 1 → canDraw s 0 = true → s.keep.verifyBad = false →
       let drawn := drbgGen s.keep.drbg0
       ∃ t, exec (.keyRotate q e rc inp) s = .next t ∧ Completed q e (le 4 (k.gen + 1) ++ kcv drawn.1) s t ∧
         t.bare = { s.bare with
           keep := { s.bare.keep with drbg0 := drawn.2 },
           keys := tset s.keys i { k with
             state := 5, pend := k.cur, pendIs := 2, cur := drawn.1, gen := k.gen + 1, inv := 0, warned := false, waitSwap := [] } }) ∧
     (Starts 0x0603 q e rc s → k.state = 5 → (∀ x ∈ s.taken, envOpcode x.e ≠ 0x0602) →
       ∃ t, exec (.keyRetirePrevious q e rc inp) s = .next t ∧ Completed q e [] s t ∧
         t.key i = { k with state := 1, pend := 0, pendIs := 0, purging := 0, waitPurge := [], waitSwap := [] } ∧
         (∃ entry, t.flash.queue = s.flash.queue ++ [entry]) ∧
         t.bare = { s.bare with keys := t.keys, flash := { s.flash with queue := t.flash.queue } }) ∧
     (Starts 0x0604 q e rc s → k.state ≠ 0 → k.state ≠ 6 →
       ∃ t, exec (.keyDestroy q e rc inp) s = .next t ∧ Running q e i s t ∧
         (t.key i).state = 6 ∧ (t.key i).cutAt = some (s.now + Config.ms 2) ∧ (t.key i).cur = k.cur ∧
         (∀ j, j ≠ i → t.key j = s.key j) ∧ t.bare = { s.bare with keys := t.keys, keepway := s.keepway ++ [(s.now, 2, i)] }))

/-- KEY_QUERY answers a slot's attribute word: to the operator with no key check value, to a core of the owning
partition with the key check values of both halves (06 R217, Table 6.10). It changes nothing. RANDOM_GET writes as
many bytes of instance 1 as it was asked for to its object (06 R187); the instance has generated once for each 32 of
them, its partition is charged for them, and nothing else changes. Completes: keyQuery, randomGet. -/
def Obligations.KeyQueryAndRandomGetAnswer : Prop :=
  (∀ q e rc inp (s : State), Starts 0x0605 q e rc s →
     let i := opnd e 0 2
     let k := s.key i
     let c := s.ctx (s.queue q).ctx
     i < 16384 →
     (c.device = false → c.part = 0xFF →
       ∃ t, exec (.keyQuery q e rc inp) s = .next t ∧ Completed q e (le 8 (attrWord k).toNat ++ zeros 16) s t ∧ t.bare = s.bare) ∧
     (c.device = true → k.state ≠ 0 → k.keepOwn = false → k.owner = c.part → k.first = false → k.pendIs ≠ 0 →
       ∃ t, exec (.keyQuery q e rc inp) s = .next t ∧ Completed q e (le 8 (attrWord k).toNat ++ kcv k.cur ++ kcv k.pend) s t ∧ t.bare = s.bare)) ∧
  (∀ q e rc inp (s : State), Starts 0x0620 q e rc s →
     let n := opnd e 10 2
     let h := opnd e 0 4
     let part := accPart s { q := q } h
     let drawn := drbgMany ((n + 31) / 32) s.keep.drbg1
     1 ≤ n → n ≤ 4096 → canDraw s 1 = true → objAccess s part h (opnd e 4 5) n true = 0 → MeterFits s part 4 n →
     ∃ t, exec (.randomGet q e rc inp) s = .next t ∧ Completed q e [] s t ∧ (drawn.1.take n).length = n ∧
       Out.objWrite h (opnd e 4 5) (drawn.1.take n) ∈ t.out ∧
       t.bare = { s.bare.metered part 4 n with keep := { s.bare.keep with drbg1 := drawn.2 } })

/-- CIPHER_GCM_SEAL with START and FINISH is AES-256-GCM: it writes the ciphertext and answers the nonce that the
slot, the generation and the invocation count make, and the tag; the count rises by one, so that no nonce is used
twice, and the partition is charged for the bytes read and written (06 R210 to R212; 08 R287). Completes:
cipherGcmSeal. -/
def Obligations.GcmSealInOneCommandIsGcm : Prop :=
  ∀ q e rc inp (s : State), Starts 0x0610 q e rc s →
    let slot := opnd e 0 2
    let n := opnd e 16 4
    let aad := opnd e 20 4
    let k := s.key slot
    let part := (s.ctx (s.queue q).ctx).part
    let nonce := cmdNonce slot k.gen k.inv
    let g := gcmSeal k.cur nonce (fit aad inp) (cut aad n inp)
    ∀ i, TenantSlot s q slot 9 → opnd e 3 1 = 3 → 1 ≤ n → n ≤ maxText → k.inv + 1 < 2 ^ 47 → freeUser s = some i →
    accPart s { q := q } (opnd e 4 4) = part → objAccess s part (opnd e 4 4) (opnd e 8 5) (aad + n) false = 0 →
    objAccess s part (opnd e 24 4) (opnd e 28 5) n true = 0 → MeterFits s part 5 (aad + n) → MeterFits s part 4 n →
    ∃ t, exec (.cipherGcmSeal q e rc inp) s = .next t ∧
      Completed q e (le 1 i ++ zeros 3 ++ le 4 s.nextOp ++ nonce ++ g.2) s t ∧
      Out.objWrite (opnd e 24 4) (opnd e 28 5) g.1 ∈ t.out ∧
      t.key slot = { k with inv := k.inv + 1 } ∧
      t.bare = { (s.bare.metered part 5 (aad + n)).metered part 4 n with
        keys := tset s.keys slot { k with inv := k.inv + 1 }, users := t.users, opTab := t.opTab, nextOp := (s.nextOp + 1) % 2 ^ 32 }

/-- Unsealing what was sealed gives it back, and a tag that differs from the sealed one gives nothing. -/
def Obligations.GcmOpensWhatItSealed : Prop :=
  ∀ (k : BitVec 256) (iv a p tag : Bytes),
    gcmOpen k iv a (gcmSeal k iv a p).1 (gcmSeal k iv a p).2 = some p ∧
    (tag ≠ (gcmSeal k iv a p).2 → gcmOpen k iv a (gcmSeal k iv a p).1 tag = none)

/-- CIPHER_GCM_UNSEAL writes the plaintext only when the tag matches, and is refused with nothing written when it does
not; CIPHER_CTR decrypting in one command writes the text under the given nonce; CIPHER_CMAC in one command answers
the AES-CMAC of its text (06 R209, R213). The partition is charged for what is read and written (08 R287). CIPHER_WRAP
writes the wrapped key and counts an invocation; CIPHER_UNWRAP writes what unwraps under the current half and is
refused with nothing written when it does not (06 Table 6.7). Completes: cipherGcmUnseal, cipherCtr, cipherCmac,
cipherWrap, cipherUnwrap. -/
def Obligations.UnsealCtrCmacAndWrapsCompute : Prop :=
  (∀ q e rc inp (s : State), Starts 0x0611 q e rc s →
    let slot := opnd e 0 2
    let n := opnd e 16 4
    let aad := opnd e 20 4
    let part := (s.ctx (s.queue q).ctx).part
    let nonce := opBytes e 36 12
    ∀ g key p, TenantSlot s q slot 9 → 1 ≤ n → n ≤ maxText → ofBe nonce / 2 ^ 48 % 2 ^ 18 = 0 → nonceHalf (s.key slot) nonce = some (g, key) →
    accPart s { q := q } (opnd e 4 4) = part → objAccess s part (opnd e 4 4) (opnd e 8 5) (aad + n) false = 0 →
    gcmOpen key nonce (fit aad inp) (cut aad n inp) (opBytes e 48 16) = some p →
    objAccess s part (opnd e 24 4) (opnd e 28 5) p.length true = 0 → MeterFits s part 5 (aad + n) → MeterFits s part 4 p.length →
    ∃ t, exec (.cipherGcmUnseal q e rc inp) s = .next t ∧ Completed q e [] s t ∧
      t.bare = (s.bare.metered part 5 (aad + n)).metered part 4 p.length ∧
      Out.objWrite (opnd e 24 4) (opnd e 28 5) p ∈ t.out) ∧
  (∀ q e rc inp (s : State), Starts 0x0612 q e rc s →
    let slot := opnd e 0 2
    let n := opnd e 16 4
    let part := (s.ctx (s.queue q).ctx).part
    let nonce := opBytes e 36 12
    let k := s.key slot
    ∀ i, TenantSlot s q slot 9 → opnd e 3 1 = 3 → opnd e 33 1 = 1 → 1 ≤ n → n ≤ maxText → opnd e 20 4 = 0 →
    ofBe nonce / 2 ^ 66 % 2 ^ 16 = k.gen % 2 ^ 16 → freeUser s = some i →
    accPart s { q := q } (opnd e 4 4) = part → objAccess s part (opnd e 4 4) (opnd e 8 5) n false = 0 →
    objAccess s part (opnd e 24 4) (opnd e 28 5) n true = 0 → MeterFits s part 5 n → MeterFits s part 4 n →
    ∃ t, exec (.cipherCtr q e rc inp) s = .next t ∧ Completed q e (le 1 i ++ zeros 3 ++ le 4 s.nextOp ++ nonce) s t ∧
      Out.objWrite (opnd e 24 4) (opnd e 28 5) (ctrXor k.cur nonce 1 (fit n inp)) ∈ t.out ∧ t.keys = s.keys) ∧
  (∀ q e rc inp (s : State), Starts 0x0613 q e rc s →
    let slot := opnd e 0 2
    let n := opnd e 16 4
    let part := (s.ctx (s.queue q).ctx).part
    ∀ i, TenantSlot s q slot 9 → opnd e 3 1 = 3 → n ≤ maxText → freeUser s = some i →
    accPart s { q := q } (opnd e 4 4) = part → objAccess s part (opnd e 4 4) (opnd e 8 5) n false = 0 → MeterFits s part 5 n →
    ∃ t, exec (.cipherCmac q e rc inp) s = .next t ∧
      Completed q e (le 1 i ++ zeros 3 ++ le 4 s.nextOp ++ cmac (s.key slot).cur (fit n inp)) s t ∧ t.keys = s.keys) ∧
  (∀ q e rc inp (s : State), Starts 0x0614 q e rc s →
    let slot := opnd e 0 2
    let n := opnd e 14 2
    let k := s.key slot
    let part := (s.ctx (s.queue q).ctx).part
    let w := if opnd e 2 1 = 1 then kwWrap k.cur (fit n inp) else kwpWrap k.cur (fit n inp)
    TenantSlot s q slot 0xA → (opnd e 2 1 = 1 ∨ opnd e 2 1 = 2) → wrapLenBad (opnd e 2 1) n = false → k.inv + 1 < 2 ^ 47 →
    accPart s { q := q } (opnd e 4 4) = part → objAccess s part (opnd e 4 4) (opnd e 8 5) n false = 0 →
    objAccess s part (opnd e 16 4) (opnd e 20 5) w.length true = 0 → MeterFits s part 5 n → MeterFits s part 4 w.length →
    ∃ t, exec (.cipherWrap q e rc inp) s = .next t ∧ Completed q e (le 2 w.length) s t ∧
      Out.objWrite (opnd e 16 4) (opnd e 20 5) w ∈ t.out ∧
      t.bare = { (s.bare.metered part 5 n).metered part 4 w.length with keys := tset s.keys slot { k with inv := k.inv + 1 } }) ∧
  (∀ q e rc inp (s : State), Starts 0x0615 q e rc s →
    let slot := opnd e 0 2
    let n := opnd e 14 2
    let k := s.key slot
    let part := (s.ctx (s.queue q).ctx).part
    let un := if opnd e 2 1 = 1 then kwUnwrap k.cur (fit n inp) else kwpUnwrap k.cur (fit n inp)
    TenantSlot s q slot 0xA → (opnd e 2 1 = 1 ∨ opnd e 2 1 = 2) → unwrapLenBad (opnd e 2 1) n = false →
    accPart s { q := q } (opnd e 4 4) = part → objAccess s part (opnd e 4 4) (opnd e 8 5) n false = 0 → MeterFits s part 5 n →
    (∀ p, un = some p → objAccess s part (opnd e 16 4) (opnd e 20 5) p.length true = 0 → MeterFits s part 4 p.length →
      ∃ t, exec (.cipherUnwrap q e rc inp) s = .next t ∧ Completed q e (le 2 p.length) s t ∧
        t.bare = (s.bare.metered part 5 n).metered part 4 p.length ∧
        Out.objWrite (opnd e 16 4) (opnd e 20 5) p ∈ t.out) ∧
    (un = none → k.pendIs ≠ 2 →
      ∃ t, exec (.cipherUnwrap q e rc inp) s = .next t ∧ Answered q yeTagFail [] s t ∧ t.bare = s.bare.metered part 5 n ∧
        ∀ h off d, Out.objWrite h off d ∈ t.out → Out.objWrite h off d ∈ s.out))

/-- STATE_SAVE writes a user's state and frees the user, one save later; OP_CANCEL removes an operation of the issuing
context and its user (06 R214 to R216). STATE_RESTORE gives a user the state that a valid record holds; the saved
copy's save number rises, so that the same record answers YE_REPLAY afterwards (06 R216). Completes: stateSave,
opCancel, stateRestore. -/
def Obligations.OperationsAreSavedRestoredAndCancelled : Prop :=
  (∀ q e rc inp (s : State), Starts 0x0618 q e rc s →
    let i := opnd e 0 1
    let u := tget ({} : User) s.users i
    let o := tget ({} : OpRec) s.opTab u.op
    let r := saveRecord (engineKey s) u (o.save + 1)
    let part := (s.ctx (s.queue q).ctx).part
    u.live = true → u.ctx = (s.queue q).ctx → noEngineKey s = false →
    objAccess s part (opnd e 4 4) (opnd e 8 5) r.length true = 0 → MeterFits s part 4 r.length →
    ∃ t, exec (.stateSave q e rc inp) s = .next t ∧ Completed q e (le 2 r.length) s t ∧
      Out.objWrite (opnd e 4 4) (opnd e 8 5) r ∈ t.out ∧
      t.bare = { s.bare.metered part 4 r.length with users := tdel s.users i, opTab := tset s.opTab u.op { o with save := o.save + 1 } }) ∧
  (∀ q e rc inp (s : State), Starts 0x061A q e rc s →
    let op := opnd e 0 4
    ∀ o, tfind s.opTab op = some o → o.ctx = (s.queue q).ctx →
    ∃ t, exec (.opCancel q e rc inp) s = .next t ∧ Completed q e [] s t ∧
      (∀ x ∈ t.opTab, x.1 ≠ op) ∧ (∀ x ∈ t.opTab, x ∈ s.opTab) ∧ (∀ x ∈ s.opTab, x.1 ≠ op → x ∈ t.opTab) ∧
      t.bare = { s.bare with opTab := t.opTab, users := t.users }) ∧
  (∀ q e rc inp (s : State), Starts 0x0619 q e rc s →
     let slot := ofLe (cut 2 2 inp)
     let op := ofLe (cut 8 4 inp)
     let save := ofLe (cut 12 4 inp)
     let part := (s.ctx (s.queue q).ctx).part
     ∀ o, ofLe (cut 0 1 inp) = 1 → (ofLe (cut 1 1 inp) = 2 ∨ ofLe (cut 1 1 inp) = 3) → noEngineKey s = false →
     cmac (engineKey s) (fit 48 inp) = cut 48 16 inp → tfind s.opTab op = some o → o.ctx = (s.queue q).ctx →
     (s.key slot).state ≠ 6 → (userHalf (s.key slot) (ofLe (cut 4 4 inp))).isSome →
     accPart s { q := q } (opnd e 0 4) = part → objAccess s part (opnd e 0 4) (opnd e 4 5) 64 false = 0 → MeterFits s part 5 64 →
     (∀ i, o.save = save → lowFree s.users 0 64 = some i →
       ∃ t, exec (.stateRestore q e rc inp) s = .next t ∧ Completed q e (le 1 i) s t ∧
         (tget ({} : User) t.users i).live = true ∧ (tget ({} : User) t.users i).op = op ∧
         (tget ({} : User) t.users i).slot = slot ∧ (tget ({} : User) t.users i).counter = cut 16 12 inp ∧
         t.bare = { s.bare.metered part 5 64 with users := t.users, opTab := tset s.opTab op { o with save := save + 1 } }) ∧
     (o.save ≠ save → ∃ t, exec (.stateRestore q e rc inp) s = .next t ∧ Answered q yeReplay [] s t ∧ t.bare = s.bare.metered part 5 64))

/-- A Retiring slot whose drain is over is purged: its halves stand until every holding station has confirmed each
generation, after a cut in every holder when the limit passed first. The last confirmation of a purge overwrites the
slot; any other only lets its station's entries go. The last confirmation of a swap purges the old half of a Draining
slot (06 R201, R204, R205). Completes: keyDrainComplete, keyDrainTimeout, keyPurgeConfirm, swapConfirm. -/
def Obligations.SlotsDrainPurgeAndSwap : Prop :=
  (∀ slot (s : State), (s.key slot).state = 6 → (s.key slot).purging = 0 → removing s slot = false →
    let p : KeySlot := { s.key slot with
      purging := 1
      waitPurge := (purgedGens { s.key slot with purging := 1 }).flatMap fun g => (holders (s.key slot).cls).map fun st => (st, g) }
    p.waitPurge ≠ [] →
    (slotDrained s slot = true →
      ∃ t, exec (.keyDrainComplete slot) s = .next t ∧ t.key slot = p ∧ t = { s with keys := t.keys } ∧ ∀ i, i ≠ slot → t.key i = s.key i) ∧
    (slotDrained s slot = false → exec (.keyDrainComplete slot) s = .next s) ∧
    (∀ at_, (s.key slot).cutAt = some at_ → at_ ≤ s.now →
      exec (.keyDrainTimeout slot) s = .next (startPurge slot 1 (each (holders (s.key slot).cls) (fun st b => drainCut st slot b) s)))) ∧
  (∀ slot st gen (s : State),
    let k := s.key slot
    let g := gen.toNat
    k.waitPurge.contains (st, g) = true → ((s.port st).keys.contains (slot, g) = true → keyPinned s st (slot, g) = false) →
    let b := (s.onPort st fun p => { p with keys := without p.keys (slot, g) }).onKey slot fun k => { k with
      waitPurge := without k.waitPurge (st, g) }
    (without k.waitPurge (st, g) = [] → exec (.keyPurgeConfirm slot st gen) s = .next (afterDestroy slot (overwrite slot b))) ∧
    (without k.waitPurge (st, g) ≠ [] →
      ∃ t, exec (.keyPurgeConfirm slot st gen) s = .next t ∧ t = b ∧ t.key slot = { k with waitPurge := without k.waitPurge (st, g) })) ∧
  (∀ slot st (s : State), (s.key slot).state = 5 → (s.key slot).waitSwap.contains st = true →
    without (s.key slot).waitSwap st ≠ [] →
    ∃ t, exec (.swapConfirm slot st) s = .next t ∧ t.key slot = { s.key slot with waitSwap := without (s.key slot).waitSwap st } ∧
      (∀ i, i ≠ slot → t.key i = s.key i) ∧ t = { s with keys := t.keys }) ∧
  (∀ slot st (s : State),
    let b := s.onKey slot fun k => { k with waitSwap := without k.waitSwap st }
    (s.key slot).state = 5 → (s.key slot).waitSwap.contains st = true → without (s.key slot).waitSwap st = [] → (s.key slot).purging = 0 →
    oldHalfDrained b slot = true → exec (.swapConfirm slot st) s = .next (startPurge slot 2 b))

/-- A source whose bits fail the repetition or the proportion test stays off and is a fault against the keep, Severe
when fewer than two are left. A live instance reseeds from two conditioned blocks after 4,096 generates or 100 ms. A
command that has waited past its limit for bits, 1 ms or, for evidence, 50 ms from its taking, fails with YE_TIMEOUT
(06 R185, R186, R188; 07 R228). Completes: noiseSourceFailure, drbgReseed, drbgWaitTimeout. -/
def Obligations.RandomSourcesFailReseedAndTimeOut : Prop :=
  (∀ i raw (s : State), s.keep.ready = true → i < 4 → s.keep.noise.getLsbD i = true → unhealthy raw = true →
    let n := s.keep.noise &&& ~~~(1#4 <<< i)
    exec (.noiseSourceFailure (i, raw)) s = .next (faultAs Config.keepId 0x18 (if popc n < 2 then 3 else 2) 0xFFFF (BitVec.ofNat 64 i)
      { s with keep := { s.keep with noise := n, condRaw := 0 } })) ∧
  (∀ i raw (s : State), s.keep.ready = true → (s.keep.noise.getLsbD i = false ∨ unhealthy raw = false) →
    exec (.noiseSourceFailure (i, raw)) s = .next s) ∧
  (∀ i (s : State), i < 2 → drbgLive s i = true → (4096 ≤ (s.drbg i).use ∨ (s.drbg i).since + Config.ms 100 ≤ s.now) → 2 ≤ s.keep.condBuf →
    let d := drbgReseed (condBlock s.cond ++ condBlock (s.cond + 1)) s.now (s.drbg i)
    ∃ t, exec (.drbgReseed i) s = .next t ∧ t.drbg i = d ∧ t.drbg (1 - i) = s.drbg (1 - i) ∧
      t = { s with cond := s.cond + 2, keep := { s.keep with condBuf := s.keep.condBuf - 2, drbg0 := t.keep.drbg0, drbg1 := t.keep.drbg1 } }) ∧
  (∀ q seq (s : State) t at_, findTaken s q seq.toNat = some t → t.askedDrbg = some at_ →
    (drawLimit t at_ ≤ s.now → exec (.drbgWaitTimeout q seq) s = .next (failCmd t 0x0C s)) ∧
    (s.now < drawLimit t at_ → exec (.drbgWaitTimeout q seq) s = .next s))

/-! ### Identity, evidence and domains (07) -/

/-- EVIDENCE_GET writes a Zeler bundle over the claims latched now to its object and answers its length; only a core
or host of the partition itself, or the operator, may ask. IDENTITY_GET writes the certificate chain and answers the
unit's entity identifier with its length. The bundle's signatures draw from instance 1, its payload stands in secure
scratch, and the partition of the object is charged for what is written; nothing else changes (07 R225 to R228; 08
R287; 12 R395). Completes: evidenceGet, identityGet. -/
def Obligations.EvidenceAndIdentityAreWritten : Prop :=
  (∀ q e rc inp (s : State), Starts 0x0701 q e rc s →
    let part := opnd e 0 1
    let n := opnd e 1 1
    let h := opnd e 4 4
    let own := (s.ctx (s.queue q).ctx).part
    let z := zeler part ((opBytes e 16 64).take n) s
    let payer := accPart s { q := q } h
    (own = 0xFF ∨ part = own) → (part = 0xFF ∨ (s.part part).state ≠ 0) → 32 ≤ n → n ≤ 64 → canDraw s 1 = true →
    objAccess s payer h (opnd e 8 5) z.1.length true = 0 → MeterFits s payer 4 z.1.length →
    ∃ t, exec (.evidenceGet q e rc inp) s = .next t ∧ Completed q e (le 4 z.1.length) s t ∧
      Out.objWrite h (opnd e 8 5) z.1 ∈ t.out ∧ t.bare = { s.bare.metered payer 4 z.1.length with
        keep := { s.bare.keep with drbg1 := (drbgMany 2 (drbgMany 1 s.keep.drbg1).2).2, scratch := z.2.keep.scratch } }) ∧
  (∀ q e rc inp (s : State), Starts 0x0701 q e rc s →
    let part := opnd e 0 1
    let own := (s.ctx (s.queue q).ctx).part
    own ≠ 0xFF → part ≠ own →
    ∃ t, exec (.evidenceGet q e rc inp) s = .next t ∧ Answered q 0x10 [] s t ∧ t.bare = s.bare) ∧
  (∀ q e rc inp (s : State), Starts 0x0702 q e rc s →
    let h := opnd e 0 4
    let chain := if s.keep.chainOk then s.flash.certs.flatten else []
    let payer := accPart s { q := q } h
    objAccess s payer h (opnd e 4 5) chain.length true = 0 → MeterFits s payer 4 chain.length →
    ∃ t, exec (.identityGet q e rc inp) s = .next t ∧ Completed q e (fit 32 s.aon.ueid ++ le 4 chain.length) s t ∧
      Out.objWrite h (opnd e 4 5) chain ∈ t.out ∧ t.bare = s.bare.metered payer 4 chain.length)

/-- DOMAIN_CREATE makes the partition's device 0 the anchor of a domain of `n` devices: its job and checkpoint keys,
which instance 0 drew, are first keys in the two lowest free slots, its job is bound at every link station, and it
offers admission to each child of the tree (06 R187; 07 R232). Completes: domainCreate. -/
def Obligations.DomainCreateMakesTheAnchorAndOffersAdmission : Prop :=
  ∀ q e rc inp (s : State), Starts 0x0710 q e rc s →
    let dom := opnd e 0 3
    let part := opnd e 3 1
    let n := opnd e 4 3
    let p := opnd e 8 4
    let len := opnd e 12 2
    let ring := opnd e 16 4
    let kib := opnd e 20 4
    let pol := fit len inp
    let d := s.dom part
    ∀ a b, dom ≠ 0 → part ≠ 0xFF → (s.part part).state = 1 → d.state = 0 → 2 ≤ n → n ≤ 262144 → p ≠ 0 → 1 ≤ len → len ≤ 1024 →
    ring ≠ 0 → handleLive s ring = true → 1 ≤ kib → kib ≤ (s.obj (handleIdx ring)).tiles * 8 →
    let payer := accPart s { q := q } p
    let jobKey := drbgGen s.keep.drbg0
    let ckptKey := drbgGen jobKey.2
    objAccess s payer p 0 len false = 0 → MeterFits s payer 5 len → (readPolicy pol).isSome → freeSlot s false = some a → nextSlot s a = some b →
    canDraw s 0 = true → s.keep.verifyBad = false →
    let first (cls : Nat) (k : BitVec 256) : KeySlot := { state := 1, cls := cls, owner := part, gen := 1, cur := k }
    let d' : Dom := {
      attach := d.attach, portMap := d.portMap, msgNum := d.msgNum, state := 4, domain := dom, own := 0, n := n, digest := sha384 pol,
      policy := pol, ring := handleIdx ring, anchor := 0, deputy := 1, memberGen := 1, jobSlot := a, ckptSlot := b, keyIndex := a,
      formAt := some s.now, beatTx := s.now, count := 1 }
    ∃ t u, t.q = q ∧ t.seq = (s.queue q).nextSeq ∧ t.idx = (s.queue q).head ∧ t.e = e ∧
      exec (.domainCreate q e rc inp) s =
        .next (done t (sha384 pol) (each (treeKids n 0) (fun k s => offerTo part k false s) (bindJob part u))) ∧
      u.bare = { s.bare.metered payer 5 len with
        keep := { s.bare.keep with drbg0 := ckptKey.2 }, keys := tset (tset s.keys a (first 3 jobKey.1)) b (first 4 ckptKey.1),
        rings := tset s.rings (handleIdx ring) { handle := handleIdx ring, size := 1024 * kib }, doms := tset s.doms part d' }

/-- DOMAIN_JOIN_PREPARE opens the outbound ring and leaves the partition Prepared as the member the operands name;
DOMAIN_STATUS answers the membership and changes nothing; DOMAIN_ATTACH_MAP replaces the entries of its 16 ports.
DOMAIN_MESSAGE puts its record at the end of the inbox of the membership it belongs to and waits for that record's
row; DOMAIN_LEAVE tells the neighbours and retires every key of the domain, and signals when they are destroyed;
DOMAIN_END does so at the anchor for every member; DOMAIN_ROTATE waits for the rotation it starts. Completes:
domainJoinPrepare, domainStatus, domainAttachMap, domainMessage, domainLeave, domainEnd, domainRotate. -/
def Obligations.DomainCommandsRun : Prop :=
  (∀ q e rc inp (s : State), Starts 0x0711 q e rc s →
    let part := opnd e 3 1
    let dev := opnd e 4 3
    let ring := opnd e 88 4
    let d := s.dom part
    opnd e 0 3 ≠ 0 → part ≠ 0xFF → (s.part part).state = 1 → d.state = 0 → dev < 262144 → opnd e 7 1 ≤ 1 → (dev = 0 → opnd e 7 1 = 1) →
    ring ≠ 0 → handleLive s ring = true → 1 ≤ opnd e 92 4 → opnd e 92 4 ≤ (s.obj (handleIdx ring)).tiles * 8 →
    ∃ t, exec (.domainJoinPrepare q e rc inp) s = .next t ∧ Completed q e [] s t ∧
      t.bare = { s.bare with
        rings := tset s.rings (handleIdx ring) { handle := handleIdx ring, size := 1024 * opnd e 92 4 },
        doms := tset s.doms part {
          attach := d.attach, portMap := d.portMap, msgNum := d.msgNum, state := 1, domain := opnd e 0 3, own := dev,
          n := Config.domainSize (opnd e 0 3), digest := opBytes e 8 48, parentUeid := opBytes e 56 32, rejoin := opnd e 7 1 == 1,
          ring := handleIdx ring, parent := treeParent dev } }) ∧
  (∀ q e rc inp (s : State), Starts 0x0716 q e rc s →
    let part := opnd e 0 1
    let d := s.dom part
    part ≠ 0xFF → (s.part part).state ≠ 0 →
    ∃ t, exec (.domainStatus q e rc inp) s = .next t ∧ t.bare = s.bare ∧
      Completed q e (le 1 d.state ++ le 3 d.own ++ le 2 d.memberGen ++ le 4 (if d.state < 3 then 0 else (domKey s d.jobSlot).2) ++
        le 2 d.mark ++ le 3 (if d.state = 4 then liveCount d else 0)) s t) ∧
  (∀ q e rc inp (s : State), Starts 0x0717 q e rc s →
    let part := opnd e 0 1
    let lo := opnd e 1 1
    (lo = 0 ∨ lo = 16) → part ≠ 0xFF → (s.part part).state ≠ 0 → (∀ i < 16, opnd e (4 + 4 * i) 4 / 2 ^ 18 % 2 ^ 13 = 0) →
    (∀ i < 16, Config.linkStations ≤ lo + i → opnd e (4 + 4 * i) 4 < 2 ^ 31) →
    ∃ t, exec (.domainAttachMap q e rc inp) s = .next t ∧ Completed q e [] s t ∧
      t.bare = { s.bare with doms := tset s.doms part { s.dom part with attach := (t.dom part).attach } } ∧
      (∀ i < 16, let v := opnd e (4 + 4 * i) 4
        2 ^ 31 ≤ v → tfind (t.dom part).attach (lo + i) = some (v % 2 ^ 18)) ∧
      ∀ p, (p < lo ∨ lo + 16 ≤ p) → tfind (t.dom part).attach p = tfind (s.dom part).attach p) ∧
  (∀ q e rc inp (s : State), Starts 0x0712 q e rc s →
    let h := opnd e 0 4
    let len := opnd e 12 4
    let payer := accPart s { q := q } h
    ∀ r p, objAccess s payer h (opnd e 4 5) len false = 0 → MeterFits s payer 5 len → recOf (fit len inp) = some r → recClean r = true →
    recordPart s r = some p →
    ∃ t, exec (.domainMessage q e rc inp) s = .next t ∧ Running q e (p + 1) s t ∧
      if r.mig then
        t.bare = { s.bare.metered payer 5 len with migs := tset s.migs p { tget {} s.migs p with inbox := (tget {} s.migs p).inbox ++ [r.raw] } }
      else t.bare = { s.bare.metered payer 5 len with doms := tset s.doms p { s.dom p with inbox := (s.dom p).inbox ++ [0 :: r.raw] } }) ∧
  (∀ q e rc inp (s : State), Starts 0x0713 q e rc s →
    let part := opnd e 0 1
    (s.dom part).state = 4 →
    ∃ t b, Began q e inp s t b ∧
      exec (.domainLeave q e rc inp) s = .next (keepRunning t (part + 1) (endMembership part 5 (sendLeave part b)))) ∧
  (∀ q e rc inp (s : State), Starts 0x0714 q e rc s →
    let part := opnd e 0 1
    (s.dom part).state = 4 → (s.dom part).own = (s.dom part).anchor →
    ∃ t b, Began q e inp s t b ∧
      exec (.domainEnd q e rc inp) s = .next (done t [] (endMembership part 6 (mailAll part (downTree (s.dom part)) 0x1E [] b)))) ∧
  (∀ q e rc inp (s : State), Starts 0x0715 q e rc s →
    let part := opnd e 0 1
    let sel := opnd e 1 1
    (s.dom part).state = 4 → (s.dom part).own = (s.dom part).anchor → 1 ≤ sel → sel ≤ 3 → (s.dom part).rot = none →
    ∃ t b, Began q e inp s t b ∧ exec (.domainRotate q e rc inp) s = .next (startRotation part sel false (keepRunning t (part + 1) b)))

/-- Ending a membership leaves it in the state named with no child, pairwise key or rotation, its job Draining at
every link station that had it bound, and every key slot of the domain that was in use Retiring (07 R237, 06 R206). -/
def Obligations.EndingAMembershipRetiresItsKeysAndJobs : Prop :=
  ∀ part state (s : State), let t := endMembership part state s
    (t.dom part).state = state ∧ (t.dom part).kids = [] ∧ (t.dom part).pairs = [] ∧ (t.dom part).rot = none ∧
    (∀ i, i = (s.dom part).jobSlot ∨ i = (s.dom part).ckptSlot ∨ (∃ dev, (dev, i) ∈ (s.dom part).pairs) →
      (s.key i).state ≠ 0 → (t.key i).state = 6) ∧
    (∀ st ∈ Config.linkIds, (jobOf s st part).state = 1 → (jobOf t st part).state = 2) ∧
    ∀ p, p ≠ part → t.dom p = s.dom p

/-- A domain message runs once its last fragment has come in order: a fragment under a header that does not fit it is
dropped, one that is next in order and not the last is kept behind those before it, and one that is out of order drops
what its message had; a whole message with a length that its type does not have, or a reserved byte that is not zero,
is dropped (07 R241, Table 7.11; 00 R11). -/
def Obligations.DomainMailIsGatheredInOrder : Prop :=
  ∀ r ∈ mailRows, ∀ part hdr body (s : State),
    (¬ Mailed r.1 hdr body s → exec (r.2 part hdr body) s = .next s) ∧
    (Mailed r.1 hdr body s → rf hdr 8 8 = (fragsOf part hdr s).length → rf hdr 8 8 < 128 →
      exec (r.2 part hdr body) s = .next ((mailDropped part hdr s).onDom part fun d => { d with
        frags := d.frags ++ [((mailSender hdr, mailNum hdr), fragsOf part hdr s ++ [body])] })) ∧
    (Mailed r.1 hdr body s → rf hdr 8 8 % 128 ≠ (fragsOf part hdr s).length →
      exec (r.2 part hdr body) s = .next (mailDropped part hdr s)) ∧
    (Mailed r.1 hdr body s → rf hdr 8 8 = 128 + (fragsOf part hdr s).length → (fragsOf part hdr s).length < 128 →
      mailClean r.1 (fragsOf part hdr s ++ [body]).flatten = false →
      exec (r.2 part hdr body) s = .next (mailDropped part hdr s))

/-- A member sends its beats every 25 µs and notes its neighbours' ones. Once in force a stop holds beat timeouts;
otherwise a neighbour silent for 100 µs is declared lost. The anchor acts on a report of a live member, the deputy
takes over when it names the anchor. A loss, a mark, a takeover and a domain's end are forwarded to the children and
act here; an adoption record waits for its row; the deputy keeps the table it is sent; a leaving child loses its
pairwise key. A rejoin window that closes, and a formation that runs out of time, end as the policy says (05 R152; 07
R234, R238, R242 to R247). Completes: beatSend, beat, beatTimeout, lossReport, memberLost, markRequest, mark, adopt,
takeover, tableSync, leave, domainEndMessage, rejoinWindowExpiry, formationTimeout. -/
def Obligations.DomainsKeepTheirMembers : Prop :=
  (∀ part (s : State), (s.dom part).state = 4 →
    ((s.dom part).beatTx + Config.us 25 ≤ s.now → exec (.beatSend part) s =
      .next (mailAll part (neighbours (s.dom part)) 0x10 [] (s.onDom part fun d => { d with beatTx := s.now }))) ∧
    (s.now < (s.dom part).beatTx + Config.us 25 → exec (.beatSend part) s = .next s)) ∧
  (∀ part hdr body (s : State) w, Arrives 0x10 part hdr body s w → ((mailTaken part hdr s).dom part).state = 4 →
    (neighbours ((mailTaken part hdr s).dom part)).contains (mailSender hdr) = true →
    ∃ t, exec (.beat part hdr body) s = .next t ∧ t.dom part = { (mailTaken part hdr s).dom part with
      beatRx := tset ((mailTaken part hdr s).dom part).beatRx (mailSender hdr) (mailTaken part hdr s).now } ∧
      t = { mailTaken part hdr s with doms := t.doms }) ∧
  (∀ part peer (s : State), s.keepStopped = true → exec (.beatTimeout part peer) s = .next s) ∧
  (∀ part peer (s : State) t, s.keepStopped = false → tfind (s.dom part).beatRx peer = some t →
    (t + Config.us 100 ≤ s.now → exec (.beatTimeout part peer) s = .next (declareLost part peer 2 s)) ∧
    (s.now < t + Config.us 100 → exec (.beatTimeout part peer) s = .next s)) ∧
  (∀ part hdr body (s : State) w, Arrives 0x11 part hdr body s w →
    let b := mailTaken part hdr s
    let dev := ofLe (cut 0 3 w)
    (b.dom part).state = 4 → ofLe (cut 4 2 w) = (memberOf (b.dom part) dev).gen → (memberOf (b.dom part) dev).live = true →
    (isAnchor (b.dom part) = true → exec (.lossReport part hdr body) s = .next (anchorLoss part dev (ofLe (cut 3 1 w)) b)) ∧
    (isAnchor (b.dom part) = false → (b.dom part).own = (b.dom part).deputy → dev = (b.dom part).anchor →
      exec (.lossReport part hdr body) s = .next (takeover part b))) ∧
  (∀ part hdr body (s : State) w, Arrives 0x12 part hdr body s w → ((mailTaken part hdr s).dom part).state = 4 →
    exec (.memberLost part hdr body) s = .next (applyLost part (ofLe (cut 0 3 w)) (ofLe (cut 8 2 w)) (ofLe (cut 10 3 w))
      (mailAll part (downTree ((mailTaken part hdr s).dom part)) 0x12 w (mailTaken part hdr s)))) ∧
  (∀ part hdr body (s : State) w, Arrives 0x13 part hdr body s w → ((mailTaken part hdr s).dom part).state = 4 →
    isAnchor ((mailTaken part hdr s).dom part) = true →
    let b := mailTaken part hdr s
    let m := min 0x3FFF ((b.dom part).mark + 1)
    exec (.markRequest part hdr body) s = .next (applyMark part m (mailAll part (downTree (b.dom part)) 0x14 (le 2 m ++ zeros 2) b))) ∧
  (∀ part hdr body (s : State) w, Arrives 0x14 part hdr body s w → ((mailTaken part hdr s).dom part).state = 4 →
    exec (.mark part hdr body) s = .next (applyMark part (ofLe (cut 0 2 w))
      (mailAll part (downTree ((mailTaken part hdr s).dom part)) 0x14 w (mailTaken part hdr s)))) ∧
  (∀ part hdr body (s : State) w, Arrives 0x1A part hdr body s w → ((mailTaken part hdr s).dom part).state = 4 →
    (recOf w).any (fun r => recClean r && decide (r.type ≤ 4)) = true →
    ∃ t, exec (.adopt part hdr body) s = .next t ∧ t.dom part = { (mailTaken part hdr s).dom part with
      inbox := ((mailTaken part hdr s).dom part).inbox ++ [1 :: w] } ∧ t = { mailTaken part hdr s with doms := t.doms }) ∧
  (∀ part hdr body (s : State) w, Arrives 0x1B part hdr body s w →
    let b := mailTaken part hdr s
    let a := ofLe (cut 0 3 w)
    let u := mailAll part (downTree (b.dom part)) 0x1B w b
    (b.dom part).state = 4 → a ≠ (b.dom part).own →
    ∃ t, exec (.takeover part hdr body) s = .next t ∧ (t.dom part).anchor = a ∧ (t.dom part).deputy = ofLe (cut 3 3 w) ∧
      t = (if a = (b.dom part).anchor then u else abortRotation part u).onDom part fun d => { d with
        anchor := a, deputy := ofLe (cut 3 3 w), parent := if d.parent = d.anchor ∧ a ≠ d.anchor then a else d.parent }) ∧
  (∀ part hdr body (s : State) w, Arrives 0x1C part hdr body s w → ((mailTaken part hdr s).dom part).state = 4 →
    mailSender hdr = ((mailTaken part hdr s).dom part).anchor → ((mailTaken part hdr s).dom part).own = ((mailTaken part hdr s).dom part).deputy →
    ∃ t, exec (.tableSync part hdr body) s = .next t ∧ t = { mailTaken part hdr s with doms := t.doms } ∧ (t.dom part).members = (blocks 6 w).foldl (fun t r =>
      tset t (ofLe (cut 0 3 r)) { gen := ofLe (cut 3 2 r), live := ofLe (cut 5 1 r) == 1 }) ((mailTaken part hdr s).dom part).members) ∧
  (∀ part hdr body (s : State) w, Arrives 0x1D part hdr body s w →
    let b := mailTaken part hdr s
    let src := mailSender hdr
    (b.dom part).state = 4 →
    (isAnchor (b.dom part) = true → exec (.leave part hdr body) s = .next (anchorLoss part src 5 b)) ∧
    (isAnchor (b.dom part) = false → src ≠ (b.dom part).anchor → (b.dom part).kids.contains src = true → ∀ i, tfind (b.dom part).pairs src = some i →
      exec (.leave part hdr body) s = .next (confirmUp part ((retireSlot i (Config.ms 2) b).onDom part fun d => { d with
        kids := without d.kids src, pairs := tdel d.pairs src, beatRx := tdel d.beatRx src, rotConf := tdel d.rotConf src })))) ∧
  (∀ part hdr body (s : State) w, Arrives 0x1E part hdr body s w → ((mailTaken part hdr s).dom part).state = 4 →
    exec (.domainEndMessage part hdr body) s = .next (endMembership part 6
      (mailAll part (downTree ((mailTaken part hdr s).dom part)) 0x1E [] (mailTaken part hdr s)))) ∧
  (∀ part dev (s : State) t, tfind (s.dom part).rejoinBy dev = some t →
    (s.now < t → exec (.rejoinWindowExpiry part dev) s = .next s) ∧
    (t ≤ s.now → exec (.rejoinWindowExpiry part dev) s = .next (lossRotation part (s.onDom part fun d => { d with rejoinBy := tdel d.rejoinBy dev })))) ∧
  (∀ part peer (s : State) t, s.keepLive = true → peer ≠ noDev → (s.dom part).formAt = some t →
    let limit := Config.ms (policyFor (s.dom part).policy (s.dom part).digest).formMs
    (t + limit ≤ s.now → exec (.formationTimeout part peer) s = .next (formCommit part s)) ∧
    (s.now < t + limit → exec (.formationTimeout part peer) s = .next s)) ∧
  (∀ part peer (s : State) x, s.keepLive = true → peer ≠ noDev → (s.dom part).formAt = none →
    (s.dom part).exchs.find? (fun x => x.peer == peer && (if x.parent then decide (x.phase < 3) else x.phase == 1 || x.phase == 3) &&
      decide (x.lastAt + Config.ms (policyFor (s.dom part).policy (s.dom part).digest).formMs ≤ s.now)) = some x →
    let u := refuseExch part x 0x0B s
    exec (.formationTimeout part peer) s = .next
      (if x.parent ∧ (s.dom part).state = 4 ∧ (x.inband ∨ (s.dom part).outq.isEmpty) then offerTo part peer x.inband u else u))

/-- The anchor starts a rotation that is asked of it: fresh keys stand in the pending halves, the stations hold the
armed generation, and the keys go wrapped to the children. A member unwraps them into its own pending halves and
passes them on. A confirmation counts when its check values are this side's own; with every child's the anchor
commits, and so does a member on the commit it forwards. An abort zeroes the pending halves. 20 ms after its PREPARE
the anchor decides: a sixteenth or more missing aborts, and 10 ms later it starts again (06 R200, R201; 07 R248,
R249). Completes: rotateRequest, rotatePrepare, rotateConfirm, rotateCommit, rotateAbort, rotationDecideTimeout,
rotationRetry. -/
def Obligations.JobKeysRotate : Prop :=
  (∀ part hdr body (s : State) w, Arrives 0x15 part hdr body s w → ofLe (cut 0 1 w) ≠ 4 → ofLe (cut 0 1 w) ≠ 7 →
    let b := mailTaken part hdr s
    let d := b.dom part
    exec (.rotateRequest part hdr body) s = .next (startRotation part (ofLe (cut 1 1 w)) false b) ∧
    (ofLe (cut 1 1 w) = 1 → d.state = 4 → isAnchor d = true → d.rot = none → d.rotRetry = none → rotReady b d 1 = true →
      b.keep.verifyBad = false →
      ∃ u, exec (.rotateRequest part hdr body) s = .next (confirmUp part (prepareAll part u)) ∧
        u.key d.jobSlot = { b.key d.jobSlot with state := 3, pend := (drbgGen b.keep.drbg0).1, pendIs := 1 } ∧
        u.dom part = { d with rot := some ((b.key d.jobSlot).gen + 1, 1), rotAt := b.now, rotConf := [], rotAgain := 0 })) ∧
  (∀ part hdr body (s : State) w, Arrives 0x15 part hdr body s w → ofLe (cut 0 1 w) = 4 ∨ ofLe (cut 0 1 w) = 7 →
    isAnchor ((mailTaken part hdr s).dom part) = true → ((mailTaken part hdr s).dom part).state = 4 →
    exec (.rotateRequest part hdr body) s = .next (lossRotation part (mailTaken part hdr s))) ∧
  (∀ part hdr body (s : State) w i jb, Arrives 0x16 part hdr body s w →
    let b := mailTaken part hdr s
    let d := b.dom part
    ofLe (cut 4 1 w) = 1 → d.state = 4 → isAnchor d = false → d.rot = none → tfind d.pairs (mailSender hdr) = some i →
    kwUnwrap (b.key i).cur (cut 8 40 w) = some jb → ofLe (cut 0 4 w) = (b.key d.jobSlot).gen + 1 → slotReady b d.jobSlot = true → b.keep.verifyBad = false →
    exec (.rotatePrepare part hdr body) s = .next (confirmUp part (prepareAll part (armKeys part 1 (keyOf jb) (keyOf [])
      (b.onDom part fun d => { d with rot := some (ofLe (cut 0 4 w), 1), rotAt := b.now, rotConf := [], rotSent := false }))))) ∧
  (∀ part hdr body (s : State) w, Arrives 0x17 part hdr body s w →
    let b := mailTaken part hdr s
    let d := b.dom part
    ∀ g, d.rot = some (g, 1) → ofLe (cut 0 4 w) = g → (downTree d).contains (mailSender hdr) = true →
    cut 16 8 w = zeros 8 →
    (cut 8 8 w = kcv (b.key d.jobSlot).pend → exec (.rotateConfirm part hdr body) s = .next (confirmUp part (b.onDom part fun d => { d with
      rotConf := tset d.rotConf (mailSender hdr) (ofLe (cut 4 3 w)) }))) ∧
    (cut 8 8 w ≠ kcv (b.key d.jobSlot).pend → exec (.rotateConfirm part hdr body) s = .next b)) ∧
  (∀ part hdr body (s : State) w, Arrives 0x18 part hdr body s w → ((mailTaken part hdr s).dom part).state = 4 →
    let u := mailAll part (downTree ((mailTaken part hdr s).dom part)) 0x18 w (mailTaken part hdr s)
    exec (.rotateCommit part hdr body) s =
      .next (if (((mailTaken part hdr s).dom part).rot.map (·.1)) = some (ofLe (cut 0 4 w)) then commitRotation part u else u)) ∧
  (∀ part hdr body (s : State) w, Arrives 0x19 part hdr body s w → ((mailTaken part hdr s).dom part).state = 4 →
    let u := mailAll part (downTree ((mailTaken part hdr s).dom part)) 0x19 w (mailTaken part hdr s)
    (((mailTaken part hdr s).dom part).rot.map (·.1)) = some (ofLe (cut 0 4 w)) → exec (.rotateAbort part hdr body) s = .next (abortRotation part u)) ∧
  (∀ part (s : State) g sel, (s.dom part).rot = some (g, sel) →
    let d := s.dom part
    let missing := liveCount d - ((d.rotConf.map (·.2)).sum + 1)
    (s.now < d.rotAt + Config.ms 20 → exec (.rotationDecideTimeout part) s = .next s) ∧
    (isAnchor d = true → d.rotAt + Config.ms 20 ≤ s.now → liveCount d < 16 * missing →
      exec (.rotationDecideTimeout part) s = .next (anchorAbort part (Config.ms 10) s)) ∧
    (isAnchor d = true → d.rotAt + Config.ms 20 ≤ s.now → 16 * missing ≤ liveCount d → (∀ k ∈ d.kids, (tfind d.rotConf k).isSome = true) →
      exec (.rotationDecideTimeout part) s = .next (commitRotation part (mailAll part d.kids 0x18 (le 4 g ++ zeros 4) s)))) ∧
  (∀ part (s : State) at_ sel, (s.dom part).rotRetry = some (at_, sel) →
    (s.now < at_ → exec (.rotationRetry part) s = .next s) ∧
    (at_ ≤ s.now → exec (.rotationRetry part) s = .next (startRotation part sel false (s.onDom part fun d => { d with rotRetry := none })))) ∧
  (∀ part (s : State) g, (s.dom part).rot = some (g, 1) → rotateCmds s part = [] →
    (commitRotation part s).key (s.dom part).jobSlot = (let k := s.key (s.dom part).jobSlot
      { k with state := 5, cur := k.pend, pend := k.cur, pendIs := 2, gen := k.gen + 1, inv := 0, warned := false, waitSwap := holders k.cls }) ∧
    (commitRotation part s).dom part = { s.dom part with rot := none, rotConf := [], rotSent := false, askCommit := false, mark := 0 })

/-- A prepared device answers the offer that fits its preparation with its reply and is then admitting; one that does
not fit is refused with its reason. The parent answers a reply whose bundle verifies with a grant under a fresh
pairwise key, the child takes a grant whose bundle and code verify, unwraps both keys into pending halves and offers
to its own children, and the parent counts a confirmation; a failed check refuses the exchange. A commit makes the
child a member; a refusal ends the exchange (07 R230 to R240). Completes: admitOffer, admitReply, admitGrant,
admitConfirm, formCommit, admitRefuse. -/
def Obligations.AdmissionRunsItsRecords : Prop :=
  (∀ part r (s b : State), RecordWaits 1 part false r s b → (b.dom part).state = 1 →
    let d := b.dom part
    (offerReason d false r = 0 →
      let y := makeReply 2 d.domain r.snd d.own part r false (b.onDom part fun d => { d with state := 2, parent := r.snd })
      exec (.admitOffer part) s = .next (messageDone part 2 (outDom part y.1.a2 (putExch part y.1 y.2))) ∧
        y.1.num = r.num ∧ y.1.peer = r.snd ∧ y.1.a1 = r.raw ∧ y.1.phase = 1) ∧
    (offerReason d false r ≠ 0 → exec (.admitOffer part) s = .next (messageFail part (refusalEvent part r.num (offerReason d false r)
      (outDom part (record 6 d.domain d.own r.snd r.num [BitVec.ofNat 8 (offerReason d false r), 0, 0, 0]) b))))) ∧
  (∀ part inband r (s b : State) x c, RecordWaits 2 part inband r s b → ForExch part true inband 1 x r b → replyBundle r = some c →
    let d := b.dom part
    let why := verifyBundle b (expectOf d (sha384 x.a1) x.peer []) c
    let v := keepCas c b
    (why ≠ 0 → exec (.admitReply part) s = .next (refuseExch part x why v)) ∧
    (why = 0 → replyKeysOk r = false → exec (.admitReply part) s = .next (refuseExch part x 0x0A v)) ∧
    (why = 0 → replyKeysOk r = true → nextMemberGen d x ≤ 0xFFFF → v.keep.verifyBad = false → ∀ i, freeSlot v true = some i →
      let y := { parentKeys d.domain d.own x.peer r x with phase := 2, pairSlot := some i, lastAt := v.now }
      let kw := exchKey "yk3 wrap" d.domain d.own x.peer y
      let g := grant part y kw (firstKey i 5 0 true kw v)
      exec (.admitReply part) s = .next (messageDone part 3 (sendRec part x.peer inband g.1 (putExch part { y with a3 := g.1 } g.2))))) ∧
  (∀ part r (s b : State) x, RecordWaits 3 part false r s b → ForExch part false false 1 x r b →
    r.body.length = 124 + ofLe (cut 104 4 r.body) →
    let d := b.dom part
    let why := verifyBundle b (expectOf d (sha384 (x.a1 ++ x.a2)) r.snd (if d.parentUeid = zeros 32 then [] else d.parentUeid))
      (cut 108 (ofLe (cut 104 4 r.body)) r.body)
    let v := keepCas (cut 108 (ofLe (cut 104 4 r.body)) r.body) b
    let kw := exchKey "yk3 wrap" d.domain r.snd d.own x
    (why ≠ 0 → exec (.admitGrant part) s = .next (refuseExch part x why v)) ∧
    (why = 0 → macOk x.kcp (x.a1 ++ x.a2) r.raw = false → exec (.admitGrant part) s = .next (refuseExch part x 0x0A v)) ∧
    (why = 0 → macOk x.kcp (x.a1 ++ x.a2) r.raw = true → v.keep.verifyBad = false → ∀ i jk ck a c, freeSlot v true = some i →
      kwUnwrap kw (cut 24 40 r.body) = some jk → kwUnwrap kw (cut 64 40 r.body) = some ck →
      let u := putExch part { x with phase := 2, a3 := r.raw, pairSlot := some i, lastAt := v.now } (firstKey i 5 0 true kw v)
      freeSlot u false = some a → freeSlot (pendKey a 3 part (ofLe (cut 4 4 r.body)) (keyOf jk) u) false = some c →
      let kids := if d.rejoin then [] else treeKids d.n d.own
      ∃ w, exec (.admitGrant part) s =
          .next (messageDone part (if kids.isEmpty then 4 else 1) (afterKids part (each kids (fun k s => offerTo part k false s) w))) ∧
        (w.dom part).state = 3 ∧ (w.dom part).memberGen = ofLe (cut 0 2 r.body) ∧ (w.dom part).parent = r.snd ∧
        (w.dom part).jobSlot = a ∧ (w.dom part).ckptSlot = c ∧ (w.dom part).pairs = tset d.pairs r.snd i ∧
        w.key c = { state := 3, cls := 4, owner := part, gen := ofLe (cut 8 4 r.body) - 1, first := true, pend := keyOf ck, pendIs := 1 })) ∧
  (∀ part inband r (s b : State) x, RecordWaits 4 part inband r s b → ForExch part true inband 2 x r b →
    let d := b.dom part
    let ok := r.body.length = 36 ∧ macOk x.kcc (x.a1 ++ x.a2 ++ x.a3) r.raw = true ∧ confirmOk b d r = true
    (¬ ok → exec (.admitConfirm part) s = .next (refuseExch part x 0x0A b)) ∧
    (ok → d.state = 3 ∨ d.formAt.isSome = true → ∀ i, x.pairSlot = some i →
      exec (.admitConfirm part) s = .next (messageDone part 0 (afterKids part
        ((putExch part { x with phase := 3, lastAt := b.now } (b.onDom part fun d => { d with pairs := tset d.pairs x.peer i })).onDom part
          fun d => { d with confirmed := tset d.confirmed x.peer (ofLe (cut 16 3 r.body)) }))))) ∧
  (∀ part r (s b : State) x, RecordWaits 5 part false r s b → findExch (b.dom part) r.num r.snd false = some x →
    let d := b.dom part
    let ok := d.state = 3 ∧ x.phase = 3 ∧ r.body.length = 24 ∧ ofLe (cut 0 4 r.body) = d.offerGen ∧ r.body.drop 8 = cmac x.kcp (r.raw.take 40)
    (¬ ok → exec (.formCommit part) s = .next (messageFail part b)) ∧
    (ok → let u := messageDone part (if d.confirmed.isEmpty then 0 else 5) (becomeMember part ((endExch part { x with pairSlot := none }
        (sendFormCommit part d.offerGen (ofLe (cut 4 3 r.body)) b)).onDom part fun d => { d with count := ofLe (cut 4 3 r.body) }))
      exec (.formCommit part) s = .next (if d.rejoin = true then u else offerMissing part u))) ∧
  (∀ part r (s b : State) x, RecordWaits 6 part false r s b →
    ((b.dom part).exchs.find? fun x => x.num == r.num && x.peer == r.snd && !x.inband) = some x →
    r.dom = (b.dom part).domain → r.rcv = (b.dom part).own → r.body.length = 4 →
    let u := endExch part x (messageDone part 0 (refusalEvent part r.num (ofLe (cut 0 1 r.body)) b))
    (x.parent = false → exec (.admitRefuse part) s = .next (backToPrepared part u)) ∧
    (x.parent = true → exec (.admitRefuse part) s =
      .next (afterKids part (u.onDom part fun d => { d with confirmed := tdel d.confirmed x.peer }))))

/-! ### Partitions, slices and re-binding (08) -/

/-- PART_CREATE makes the lowest Free partition Active with fresh version and trace keys in the two lowest free slots;
PART_FREEZE leaves an Active tenant Frozen, takes its bound interfaces to ERROR and waits for the stations; PART_THAW
makes a Frozen partition Active, lifts its freeze from every station, and has them let go of its objects' descriptors
(03 R74). PART_REMOVE takes a partition to Removing, retires what it owns and goes on running; COMPOSE of a map that
passes the checks, named for the present epoch while none drains, installs it as the next epoch and answers that
epoch: every station's current lease is the new map's, its old one drains, and the old map is kept until it has (08
R264). Completes: partCreate, partFreeze, partThaw, partRemove, compose. -/
def Obligations.PartitionsAreCreatedFrozenAndRemoved : Prop :=
  (∀ q e rc inp (s : State), Starts 0x0801 q e rc s →
    let policy := opnd e 0 1
    let flags := opnd e 1 1
    ∀ p a b, (policy = 0 ∨ policy = 1 ∨ policy = 9) → flags ≤ 1 → freePart s = some p → freePair s = some (a, b) → canDraw s 0 = true →
    s.keep.verifyBad = false →
    let version := drbgGen s.keep.drbg0
    let trace := drbgGen version.2
    let first (i cls : Nat) (k : BitVec 256) : KeySlot := { state := 1, cls := cls, owner := p, gen := (s.key i).gen + 1, cur := k }
    ∃ t, exec (.partCreate q e rc inp) s = .next t ∧ Completed q e (le 1 p) s t ∧
      t.bare = { s.bare with
        keep := { s.bare.keep with drbg0 := trace.2 }, keys := tset (tset s.keys a (first a 2 version.1)) b (first b 0xB trace.1),
        parts := tset s.parts p {
          state := 1, policy := policy, warm := flags == 1, migDigest := opBytes e 16 48, verSlot := a, trcSlot := b, pmr := zeros 48,
          meterSince := s.meter.startAt } }) ∧
  (∀ q e rc inp (s : State), Starts 0x0804 q e rc s →
    let p := opnd e 0 1
    p < 0xFF → (s.part p).state = 1 →
    ∃ t b, Began q e inp s t b ∧
      exec (.partFreeze q e rc inp) s =
        .next (keepRunning t (p + 1) (tdispError p { b with
          parts := tset s.parts p { s.part p with state := 3, frozenIn := true }, keepway := s.keepway ++ [(s.now, 0, p)] }))) ∧
  (∀ q e rc inp (s : State), Starts 0x0805 q e rc s →
    let p := opnd e 0 1
    (s.part p).state = 3 →
    ∃ t, exec (.partThaw q e rc inp) s = .next t ∧ Completed q e [] s t ∧
      (∀ st, (t.memSt st).frzParts = without (s.memSt st).frzParts p ∧
        (t.memSt st).descs = (s.memSt st).descs.filter fun oi => (s.obj oi).part != p) ∧
      t.bare = { s.bare with mem := t.mem, parts := tset s.parts p { s.part p with state := 1 } }) ∧
  (∀ q e rc inp (s : State), Starts 0x0802 q e rc s →
    let p := opnd e 0 1
    p < 0xFF → (s.part p).state ≠ 0 → (s.part p).state ≠ 5 →
    ∃ t b, Began q e inp s t b ∧ exec (.partRemove q e rc inp) s = .next (startRemoval p (keepRunning t (p + 1) b)) ∧
      ((startRemoval p (keepRunning t (p + 1) b)).part p).state = 5) ∧
  (∀ q e rc inp (s : State), Starts 0x0803 q e rc s →
    let h := opnd e 0 4
    let len := opnd e 10 2
    let n := ofLe (cut 0 2 inp)
    let payer := accPart s { q := q } h
    ∀ map, objAccess s payer h (opnd e 4 5) len false = 0 → MeterFits s payer 5 len → 1 ≤ n → n ≤ 64 → len = 16 + 64 * n →
    s.epochDraining = false → mapOf s (fit len inp) = some map → opnd e 12 2 = s.epoch.toNat → breaksHandoff s map = false →
    (∀ x ∈ s.taken, envOpcode x.e ≠ 0x0803) →
    ∃ t u, t.q = q ∧ t.seq = (s.queue q).nextSeq ∧ t.idx = (s.queue q).head ∧ t.e = e ∧
      exec (.compose q e rc inp) s = .next (done t (le 2 (s.epoch + 1).toNat) u) ∧
      u.epoch = s.epoch + 1 ∧ u.slices = map ∧ u.oldSlices = s.slices ∧ u.epochDraining = true ∧ u.epochAt = s.now ∧
      ∀ i ∈ stationIds, (u.port i).cur = leaseOf (s.epoch + 1) map i)

/-- The migration commands: PREPARE makes a partition Arriving that waits for an offer; START of a Frozen one makes
the offer and waits; EXPORT answers what it wrote; IMPORT applies the records it is given in order, the Partition
record first; FINISH against the right receipt and ABORT of an arriving partition start its removal; ABORT of an
exporting one leaves it Frozen. Completes: migratePrepare, migrateStart, migrateExport, migrateImport, migrateFinish,
migrateAbort. -/
def Obligations.MigrationCommandsRun : Prop :=
  (∀ q e rc inp (s : State), Starts 0x0810 q e rc s →
    let ring := opnd e 80 4
    let kib := opnd e 84 4
    ∀ p a b, ring ≠ 0 → handleLive s ring = true → 1 ≤ kib → kib ≤ (s.obj (handleIdx ring)).tiles * 8 → opnd e 88 4 ≠ 0 →
    freePart s = some p → freePair s = some (a, b) → canDraw s 0 = true →
    s.keep.verifyBad = false →
    ∃ t, exec (.migratePrepare q e rc inp) s = .next t ∧ Completed q e (le 1 p) s t ∧ (t.part p).state = 2 ∧ (t.part p).migDigest = opBytes e 32 48 ∧
      tget {} t.migs p = { ueid := opBytes e 0 32, ring := handleIdx ring, mapObj := opnd e 88 4 } ∧
      t.bare = { s.bare with
        keep := { s.bare.keep with drbg0 := (drbgGen (drbgGen s.keep.drbg0).2).2 }, keys := t.keys, parts := tset s.parts p (t.part p),
        migs := tset s.migs p (tget {} t.migs p), rings := tset s.rings (handleIdx ring) { handle := handleIdx ring, size := 1024 * kib } }) ∧
  (∀ q e rc inp (s : State), Starts 0x0811 q e rc s →
    let p := opnd e 0 1
    let ring := opnd e 36 4
    let kib := opnd e 40 4
    (s.part p).state = 3 → (s.part p).migDigest ≠ zeros 48 → tfind s.migs p = none → ring ≠ 0 → handleLive s ring = true → 1 ≤ kib →
    kib ≤ (s.obj (handleIdx ring)).tiles * 8 → canDraw s 0 = true → canDraw s 1 = true →
    ∃ t b, Began q e inp s t b ∧
      let offer := makeOffer 7 0 noDev noDev s.aon.ueid (s.part p).migDigest false b
      exec (.migrateStart q e rc inp) s = .next (keepRunning t (p + 1) (outMig p offer.1.a1 { openRing (handleIdx ring) kib offer.2 with
        migs := tset s.migs p { source := true, ueid := opBytes e 4 32, ring := handleIdx ring, exch := some offer.1 } }))) ∧
  (∀ q e rc inp (s : State), Starts 0x0812 q e rc s →
    let p := opnd e 0 1
    let h := opnd e 4 4
    let off := opnd e 8 5
    let len := opnd e 16 4
    let o := s.obj (handleIdx h)
    (s.part p).state = 4 → o.part = 0xFF → h ≠ 0 → 8240 ≤ o.tiles * 8192 → objAccess s 0xFF h off len true = 0 → exportOk s p = true →
    ∃ t b, Began q e inp s t b ∧
      let u := (beginExport p inp b).1
      let m := u.mig p
      let r := exportLoop u p (u.key m.slot).cur (len + (beginExport p inp b).2.length + m.regions.length + 2) len (beginExport p inp b).2 m []
      let v := u.onMig p fun _ => r.1
      exec (.migrateExport q e rc inp) s =
        .next (done t (le 8 r.1.nextRec ++ le 4 r.2.length ++ le 4 (r.1.lost - m.lost) ++ [if r.1.done then 1 else 0])
          (if r.2.isEmpty then v else emit (.objWrite h off r.2) v))) ∧
  (∀ q e rc inp (s : State), Starts 0x0813 q e rc s →
    let p := opnd e 0 1
    let h := opnd e 4 4
    let len := opnd e 16 4
    let m := s.mig p
    let payer := accPart s { q := q } h
    let v := s.metered payer 5 len
    ∀ x body, (s.part p).state = 2 → m.exch = some x → x.phase = 3 → (∃ y, tfind s.migs p = some y) → m.done = false →
    objAccess s payer h (opnd e 8 5) len false = 0 → MeterFits s payer 5 len →
    (s.part p).nextImport = 0 → len = 144 → ofLe (cut 4 4 (fit len inp)) = 112 → ofLe (cut 8 8 (fit len inp)) = 0 →
    (fit len inp).take 4 = [1, 0, 0, 0] →
    gcmOpen (s.key m.slot).cur (migIv 0x4D (be 8 0)) ((fit len inp).take 16) (cut 16 112 (fit len inp)) (cut 128 16 (fit len inp)) = some body →
    body.length = 112 → (ofLe (cut 0 1 body) = 0 ∨ ofLe (cut 0 1 body) = 1 ∨ ofLe (cut 0 1 body) = 9) → ofLe (cut 1 1 body) ≤ 1 → cut 2 2 body = [0, 0] →
    ∃ t, exec (.migrateImport q e rc inp) s = .next t ∧ Completed q e (le 4 1 ++ le 8 1) s t ∧
      t.bare = { v.bare with
        migs := t.migs,
        parts := tset (tset v.parts p { v.part p with
          policy := ofLe (cut 0 1 body), warm := ofLe (cut 1 1 body) == 1, pmr := cut 16 48 body, migDigest := cut 64 48 body }) p (t.part p) } ∧
      t.part p = { v.part p with
        policy := ofLe (cut 0 1 body), warm := ofLe (cut 1 1 body) == 1, pmr := cut 16 48 body, migDigest := cut 64 48 body, nextImport := 1 } ∧
      tget {} t.migs p = { m with wantTiles := ofLe (cut 8 8 body), lost := ofLe (cut 4 4 body) } ∧
      (∀ j, j ≠ p → tfind t.migs j = tfind s.migs j)) ∧
  (∀ q e rc inp (s : State), Starts 0x0814 q e rc s →
    let p := opnd e 0 1
    let m := s.mig p
    (s.part p).state = 4 → m.done = true →
    (opBytes e 16 16 = receiptOf (s.key m.slot).cur m.nextRec →
      ∃ t b, Began q e inp s t b ∧ exec (.migrateFinish q e rc inp) s = .next (startRemoval p (keepRunning t (p + 1) b))) ∧
    (opBytes e 16 16 ≠ receiptOf (s.key m.slot).cur m.nextRec →
      ∃ t, exec (.migrateFinish q e rc inp) s = .next t ∧ Answered q 0x01 [] s t ∧ t.bare = s.bare)) ∧
  (∀ q e rc inp (s : State), Starts 0x0815 q e rc s →
    let p := opnd e 0 1
    ((s.part p).state = 4 →
      ∃ t, exec (.migrateAbort q e rc inp) s = .next t ∧ Answered q 0 [] s t ∧ (t.part p).state = 3 ∧ t.migs = tdel s.migs p) ∧
    ((s.part p).state = 2 →
      ∃ t b, Began q e inp s t b ∧ exec (.migrateAbort q e rc inp) s = .next (startRemoval p (keepRunning t (p + 1) b))))

/-- A destination answers the first offer that carries its policy and its peer; the source answers a reply whose
bundle verifies with a grant under a fresh migration key; the destination confirms a grant that verifies and holds the
same key; the confirmation makes the partition Exporting. A failed check, a refusal record or a wait longer than the
formation time ends the exchange (08 R279; 07 R234). Completes: migOffer, migReply, migGrant, migConfirm, admitRefuse,
formationTimeout. -/
def Obligations.MigrationRunsItsRecords : Prop :=
  (∀ part r (s b : State), MigWaits 7 part r s b → (b.mig part).source = false → (b.mig part).exch = none → r.body.length = 1777 →
    (cut 64 48 r.body ≠ (b.part part).migDigest → exec (.migOffer part) s = .next (refuseMig part r.num 0x07 b)) ∧
    (cut 64 48 r.body = (b.part part).migDigest → (b.mig part).ueid = zeros 32 ∨ cut 32 32 r.body = (b.mig part).ueid →
      (offerKeysOk r = false → exec (.migOffer part) s = .next (refuseMig part r.num 0x0A b)) ∧
      (offerKeysOk r = true →
      let y := makeReply 8 0 0 0 0xFF r false b
      exec (.migOffer part) s = .next (messageDone part 8 (outMig part y.1.a2 (y.2.onMig part fun m => { m with exch := some y.1 })))))) ∧
  (∀ part r (s b : State) x c, MigWaits 8 part r s b → (b.mig part).source = true → (b.mig part).exch = some x → x.phase = 1 → x.num = r.num →
    replyBundle r = some c →
    let why := verifyBundle b (migExpect b part (sha384 x.a1)) c
    let v := keepCas c b
    (why ≠ 0 → exec (.migReply part) s = .next (refuseMig part r.num why v)) ∧
    (why = 0 → replyKeysOk r = false → exec (.migReply part) s = .next (refuseMig part r.num 0x0A v)) ∧
    (why = 0 → replyKeysOk r = true → v.keep.verifyBad = false → ∀ i, freeSlot v false = some i →
      let y := { parentKeys 0 0 0 r x with phase := 2, lastAt := v.now }
      let z := zeler part (sha384 (y.a1 ++ y.a2)) (migKey part i y v)
      let a3 := macRecord 9 0 noDev noDev y.num y.kcp (y.a1 ++ y.a2) (le 4 z.1.length ++ z.1)
      exec (.migReply part) s =
        .next (messageDone part 9 (outMig part a3 (z.2.onMig part fun m => { m with exch := some { y with a3 := a3 }, slot := i }))))) ∧
  (∀ part r (s b : State) x, MigWaits 9 part r s b → (b.mig part).source = false → (b.mig part).exch = some x → x.phase = 1 → x.num = r.num →
    r.body.length = 20 + ofLe (cut 0 4 r.body) →
    let why := verifyBundle b (migExpect b part (sha384 (x.a1 ++ x.a2))) (cut 4 (ofLe (cut 0 4 r.body)) r.body)
    let v := keepCas (cut 4 (ofLe (cut 0 4 r.body)) r.body) b
    (why ≠ 0 → exec (.migGrant part) s = .next (refuseMig part r.num why v)) ∧
    (why = 0 → v.keep.verifyBad = false → macOk x.kcp (x.a1 ++ x.a2) r.raw = false →
      exec (.migGrant part) s = .next (refuseMig part r.num 0x0A v)) ∧
    (why = 0 → v.keep.verifyBad = false → macOk x.kcp (x.a1 ++ x.a2) r.raw = true → ∀ i, freeSlot v false = some i → exec (.migGrant part) s =
      .next (messageDone part 10 (outMig part (macRecord 10 0 noDev noDev x.num x.kcc (x.a1 ++ x.a2 ++ r.raw) [])
        ((migKey part i x v).onMig part fun m => { m with exch := some { x with a3 := r.raw, phase := 3, lastAt := v.now }, slot := i }))))) ∧
  (∀ part r (s b : State) x, MigWaits 10 part r s b → (b.mig part).source = true → (b.mig part).exch = some x → x.phase = 2 → x.num = r.num →
    (b.part part).state = 3 →
    let ok := r.body.length = 16 ∧ macOk x.kcc (x.a1 ++ x.a2 ++ x.a3) r.raw = true
    let u := (b.onMig part fun m => { m with exch := none }).onPart part fun p => { p with state := 4 }
    (¬ ok → exec (.migConfirm part) s = .next (refuseMig part r.num 0x0A b)) ∧
    (ok → ∀ t, startCmd u part = some t → exec (.migConfirm part) s = .next (messageDone part 0 (done t [] u)))) ∧
  (∀ part r (s b : State), (s.dom part).inbox = [] → MigWaits 6 part r s b → r.body.length = 4 → exec (.admitRefuse part) s =
    .next (dropMig part yeDenied (messageDone part 0 (refusalEvent part r.num (ofLe (cut 0 1 r.body)) b)))) ∧
  (∀ part (s : State) x, s.keepLive = true → (s.mig part).exch = some x → x.phase = 1 →
    let limit := Config.ms (policyFor [] (s.part part).migDigest).formMs
    (x.lastAt + limit ≤ s.now → exec (.formationTimeout part noDev) s = .next (refuseMig part x.num 0x0B s)) ∧
    (s.now < x.lastAt + limit → exec (.formationTimeout part noDev) s = .next s))

/-- HANDOFF_OFFER freezes its region and starts a handoff record under the next number, which it waits on;
HANDOFF_LANDING registers a region that nothing has written; HANDOFF_ABANDON answers the final state; METER_CONFIG
names the metering ring and installs the key that a live session wraps (08 R268 to R277, R289, R291). Completes:
handoffOffer, handoffLanding, handoffAbandon, meterConfig. -/
def Obligations.HandoffAndMeterCommandsRun : Prop :=
  (∀ q e rc inp (s : State), Starts 0x0820 q e rc s →
    let oi := handleIdx (opnd e 0 4)
    let dev := opnd e 4 3
    let o := s.obj oi
    let num := s.nextHandoff.toNat
    offerBad s oi dev = 0 → o.rekey = none →
    ∃ t, exec (.handoffOffer q e rc inp) s = .next t ∧ Running q e (num + 1) s t ∧
      t.bare = { s.bare with
        handoffs := s.handoffs ++ [{ offerer := true, peer := dev, num := num, part := o.part, obj := oi, tiles := o.tiles, lastAt := s.now }],
        nextHandoff := s.nextHandoff + 1, objs := tset s.objs oi { o with frozen := true, refs := o.refs + 1 },
        keepway := s.keepway ++ [(s.now, 1, oi)] }) ∧
  (∀ q e rc inp (s : State), Starts 0x0821 q e rc s →
    let oi := handleIdx (opnd e 0 4)
    let o := s.obj oi
    (o.cls = 2 ∨ o.cls = 3) → (s.dom o.part).state = 4 → o.written = false →
    (o.landing = true ∨ (s.objs.filter fun x => x.2.landing).length < 256) →
    ∃ t, exec (.handoffLanding q e rc inp) s = .next t ∧ Completed q e [] s t ∧
      t.bare = { s.bare with objs := tset s.objs oi { o with landing := true } }) ∧
  (∀ q e rc inp (s : State), Starts 0x0822 q e rc s →
    let num := opnd e 4 4
    let dev := opnd e 0 3
    ∀ h, (s.handoffs.find? fun h => h.num == num && (if h.offerer then (s.dom h.part).own == dev else h.peer == dev)) = some h →
    ∃ t b, Began q e inp s t b ∧
      exec (.handoffAbandon q e rc inp) s =
        .next (done t (le 1 (if h.offerer = false then 4 else if h.state = 4 then 4 else 5)) (abandonHandoff 0x11 h b))) ∧
  (∀ q e rc inp (s : State), Starts 0x0830 q e rc s →
    let h := opnd e 0 4
    let kib := opnd e 4 4
    let sess := opnd e 8 4
    let o := s.obj (handleIdx h)
    h ≠ 0 → handleLive s h = true → o.cls = 4 → o.part = 0xFF → 64 ≤ kib → kib ≤ o.tiles * 8 →
    (sess = 0 →
      ∃ t b, Began q e inp s t b ∧
        exec (.meterConfig q e rc inp) s = .next (done t (le 4 (meterGen (nameRing h kib b))) (nameRing h kib b))) ∧
    (∀ i k, sess ≠ 0 → sessionUp s sess = true → meterBusy s = false → s.meter.slot = some i → s.keep.verifyBad = false →
      kwUnwrap (keyOf (hkdfExpand (Config.spdmExport sess (tget {} s.host.spdm sess).fresh) (ascii "yk3 meter key") 32)) (opBytes e 16 40) = some k →
      ∃ t b, Began q e inp s t b ∧
        let u := nameRing h kib { b with keys := tset s.keys i { s.key i with
          state := 5, cur := keyOf k, pend := (s.key i).cur, pendIs := 2, gen := (s.key i).gen + 1, inv := 0, warned := false,
          waitSwap := holders (s.key i).cls } }
        exec (.meterConfig q e rc inp) s = .next (done t (le 4 (meterGen u)) u)))

/-- The offerer copies its region once its offer is accepted; the first acknowledgement releases the region and says
so; a refusal, or eight offers or commits unanswered at 1 ms each, gives the region back; a query is answered with
what has become of the offer; a close ends the record. A member accepts an offer into the landing region that fits,
with an arrival counter, again when the offer comes again, and refuses one when it has none; a commit that names as
many tiles as landed is acknowledged and one that does not is refused; once released the region is an ordinary one, or
the landing content is discarded; every 10 ms without news it asks (08 R272 to R277). Completes: handoffAccept,
handoffAck, handoffRefuse, handoffQuery, handoffClose, handoffRetransmit, handoffOfferMessage, handoffCommit,
handoffReleased, handoffState, handoffQueryTimer. -/
def Obligations.HandoffsMoveARegion : Prop :=
  (∀ part hdr body (s : State) w h, Arrives 0x21 part hdr body s w →
    findHandoff (mailTaken part hdr s) true part (mailSender hdr) (ofLe (cut 0 4 w)) = some h →
    let b := mailTaken part hdr s
    let g := { h with state := 2, landing := ofLe (cut 4 4 w), counter := ofLe (cut 8 2 w), retries := 0, lastAt := (mailTaken part hdr s).now }
    (h.state = 1 → exec (.handoffAccept part hdr body) s = .next (settleHandoff g (setHandoff g b))) ∧
    (h.state ≠ 1 → exec (.handoffAccept part hdr body) s = .next b)) ∧
  (∀ part hdr body (s : State) w h, Arrives 0x23 part hdr body s w →
    findHandoff (mailTaken part hdr s) true part (mailSender hdr) (ofLe (cut 0 4 w)) = some h →
    let b := mailTaken part hdr s
    let g := { h with state := 4 }
    (h.state = 3 → exec (.handoffAck part hdr body) s = .next (sendHandoff h 0x24 (zeros 4)
      (doomObject h.obj ((setHandoff g b).onObj h.obj fun o => { o with refs := o.refs - 1 })))) ∧
    (h.state ≠ 3 → exec (.handoffAck part hdr body) s = .next b)) ∧
  (∀ part hdr body (s : State) w h, Arrives 0x25 part hdr body s w →
    findHandoff (mailTaken part hdr s) true part (mailSender hdr) (ofLe (cut 0 4 w)) = some h →
    let b := mailTaken part hdr s
    (4 ≤ h.state → exec (.handoffRefuse part hdr body) s = .next b) ∧
    (h.state < 4 →
      let u := (thawObject h.obj (setHandoff { h with state := 5 } b)).onObj h.obj fun o => { o with refs := o.refs - 1 }
      (u.obj h.obj).frozen = false ∧ ∀ t, offerCmd u h = some t → exec (.handoffRefuse part hdr body) s =
        .next (complete t yeHandoff (detailHandoff (ofLe (cut 4 2 w)) h.num h.peer) [] u))) ∧
  (∀ part hdr body (s : State) w, Arrives 0x26 part hdr body s w →
    let b := mailTaken part hdr s
    exec (.handoffQuery part hdr body) s = .next (sendMail part (mailSender hdr) 0x27
      (le 4 (ofLe (cut 0 4 w)) ++ le 1 (offererState b part (mailSender hdr) (ofLe (cut 0 4 w))) ++ zeros 3) b)) ∧
  (∀ part hdr body (s : State) w h, Arrives 0x28 part hdr body s w →
    findHandoff (mailTaken part hdr s) true part (mailSender hdr) (ofLe (cut 0 4 w)) = some h →
    let b := mailTaken part hdr s
    (4 ≤ h.state → exec (.handoffClose part hdr body) s = .next (dropHandoff h b)) ∧
    (h.state < 4 → exec (.handoffClose part hdr body) s = .next b)) ∧
  (∀ (num : BitVec 32) (s : State) h, (s.handoffs.find? fun h => h.offerer && h.num == num.toNat && (h.state == 1 || h.state == 3)) = some h →
    (s.keepStopped = true ∨ s.now < h.lastAt + Config.ms 1 → exec (.handoffRetransmit num) s = .next s) ∧
    (s.keepStopped = false → h.lastAt + Config.ms 1 ≤ s.now → 8 ≤ h.retries → exec (.handoffRetransmit num) s = .next (reclaim h yeTimeout s)) ∧
    (s.keepStopped = false → h.lastAt + Config.ms 1 ≤ s.now → h.retries < 8 →
      let u := setHandoff { h with retries := h.retries + 1, lastAt := s.now } s
      exec (.handoffRetransmit num) s = .next (if h.state = 1 then sendHandoff h 0x20 (offerBody u h) u else sendHandoff h 0x22 (le 4 h.tiles) u))) ∧
  (∀ part hdr body (s : State) w, Arrives 0x20 part hdr body s w →
    let b := mailTaken part hdr s
    let num := ofLe (cut 0 4 w)
    (b.dom part).state = 4 →
    (∀ h, findHandoff b false part (mailSender hdr) num = some h → h.state ≠ 4 → exec (.handoffOfferMessage part hdr body) s =
      .next (sendHandoff h 0x21 (acceptBody (setHandoff h b) h) (setHandoff { h with lastAt := b.now } b))) ∧
    (findHandoff b false part (mailSender hdr) num = none → (∀ o ∈ b.objs, o.2.landing = false) →
      exec (.handoffOfferMessage part hdr body) s = .next (sendMail part (mailSender hdr) 0x25 (le 4 num ++ le 2 yeQuota ++ zeros 2) b)) ∧
    (∀ oi o c, findHandoff b false part (mailSender hdr) num = none → b.objs = [(oi, o)] → lowFree b.arrivals 0 1024 = some c →
      o.landing = true → o.accepted = none → o.state = 1 → o.part = part → o.cls = ofLe (cut 4 1 w) → ofLe (cut 8 4 w) ≤ o.tiles →
      o.gen * 2 ^ 20 + oi ≠ 0 → oi < 2 ^ 20 →
      let h : Handoff := { peer := mailSender hdr, num := num, part := part, state := 1, landing := oi, counter := c, tiles := ofLe (cut 8 4 w), lastAt := b.now }
      ∃ u, exec (.handoffOfferMessage part hdr body) s = .next (sendHandoff h 0x21 (acceptBody u h) u) ∧ u.handoffs = b.handoffs ++ [h] ∧
        u.obj oi = { o with accepted := some (mailSender hdr, num), refs := o.refs + 2 } ∧
        tget {} u.arrivals c = { state := 1, part := part, ctx := 65535, handle := BitVec.ofNat 32 (o.gen * 2 ^ 20 + oi), total := ofLe (cut 8 4 w) })) ∧
  (∀ part hdr body (s : State) w h, Arrives 0x22 part hdr body s w →
    findHandoff (mailTaken part hdr s) false part (mailSender hdr) (ofLe (cut 0 4 w)) = some h →
    let b := mailTaken part hdr s
    let a := tget {} b.arrivals h.counter
    (h.state = 4 → exec (.handoffCommit part hdr body) s = .next b) ∧
    (h.state = 2 → exec (.handoffCommit part hdr body) s = .next (sendHandoff h 0x23 (le 1 2 ++ zeros 3) (setHandoff { h with lastAt := b.now } b))) ∧
    (h.state ≠ 4 → h.state ≠ 2 → a.landed = ofLe (cut 4 4 w) → a.failed = 0 → exec (.handoffCommit part hdr body) s =
      .next (sendHandoff h 0x23 (le 1 1 ++ zeros 3) (closeLanding h (setHandoff { h with state := 2, lastAt := b.now } b)))) ∧
    (h.state ≠ 4 → h.state ≠ 2 → a.landed ≠ ofLe (cut 4 4 w) ∨ a.failed ≠ 0 → exec (.handoffCommit part hdr body) s =
      .next (discard h (sendHandoff h 0x25 (le 2 a.err ++ zeros 2) b)))) ∧
  (∀ part hdr body (s : State) w h, Arrives 0x24 part hdr body s w →
    findHandoff (mailTaken part hdr s) false part (mailSender hdr) (ofLe (cut 0 4 w)) = some h →
    let b := mailTaken part hdr s
    (h.state = 2 → exec (.handoffReleased part hdr body) s = .next (dropHandoff h (sendHandoff h 0x28 (zeros 4)
      (b.onObj h.landing fun o => { o with landing := false, accepted := none, refs := o.refs - 1 })))) ∧
    (h.state ≠ 2 → exec (.handoffReleased part hdr body) s = .next b)) ∧
  (∀ part hdr body (s : State) w h, Arrives 0x27 part hdr body s w →
    findHandoff (mailTaken part hdr s) false part (mailSender hdr) (ofLe (cut 0 4 w)) = some h →
    let b := mailTaken part hdr s
    (ofLe (cut 4 1 w) = 1 → exec (.handoffState part hdr body) s = .next (setHandoff { h with lastAt := b.now } b)) ∧
    (ofLe (cut 4 1 w) = 2 → h.state = 2 → exec (.handoffState part hdr body) s = .next (landOwn h b)) ∧
    (ofLe (cut 4 1 w) = 3 → exec (.handoffState part hdr body) s = .next (discard h b)) ∧
    (ofLe (cut 4 1 w) = 4 → exec (.handoffState part hdr body) s = .next (if h.state = 2 then landOwn h b else discard h b))) ∧
  (∀ dev (num : BitVec 32) (s : State) h, (s.handoffs.find? fun h => !h.offerer && h.peer == dev && h.num == num.toNat) = some h →
    (h.state = 4 ∨ s.now < h.lastAt + Config.ms 10 → exec (.handoffQueryTimer dev num) s = .next s) ∧
    (h.state ≠ 4 → h.lastAt + Config.ms 10 ≤ s.now → exec (.handoffQueryTimer dev num) s =
      .next (sendHandoff h 0x26 (zeros 4) (setHandoff { h with lastAt := s.now } s))))

/-- A draining epoch retires once every station counts it at zero, or 5 ms after the install with the drain cut: with
no COMPOSE waiting, every station clears its record. A removal's drain ends when it is empty, or after 2 ms with its
work cut, and 200 µs later its slots are destroyed. An interval ends at its boundary, and a checkpoint is taken at
each multiple of 60 s (08 R265, R284, R288, R290). Completes: epochDrainComplete, epochDrainTimeout,
partitionRemovalDrainEnd, partitionRemovalFlightExpiry, meteringIntervalEnd, meteringCheckpoint. -/
def Obligations.EpochsRemovalsAndIntervalsEnd : Prop :=
  (∀ (s : State), s.keepLive = true → s.epochDraining = true → epochDrained s = true →
    exec .epochDrainComplete s = .next (retireEpoch s) ∧
    (runningWith s 0x0803 1 = [] →
      ∃ t, exec .epochDrainComplete s = .next t ∧ t.epochDraining = false ∧ t.oldSlices = [] ∧ t.epoch = s.epoch ∧ t.slices = s.slices ∧
        ∀ u ∈ stationIds, t.port u = { s.port u with drain := none })) ∧
  (∀ (s : State), s.keepLive = true → s.epochDraining = true → s.epochAt + Config.ms 5 ≤ s.now →
    exec .epochDrainTimeout s = .next (retireEpoch (each stationIds epochCut s))) ∧
  (∀ part (s : State), s.keepLive = true → (s.part part).state = 5 → (s.part part).drainEnd = none →
    (partDrained s part = true →
      ∃ t, exec (.partitionRemovalDrainEnd part) s = .next t ∧ t.part part = { s.part part with drainEnd := some s.now } ∧
        (∀ i, i ≠ part → t.part i = s.part i) ∧ t = { s with parts := t.parts }) ∧
    (partDrained s part = false → (s.part part).removeAt + Config.ms 2 ≤ s.now →
      exec (.partitionRemovalDrainEnd part) s =
        .next ((cutPart part s).onPart part fun p => { p with drainEnd := some (cutPart part s).now })) ∧
    (partDrained s part = false → s.now < (s.part part).removeAt + Config.ms 2 → exec (.partitionRemovalDrainEnd part) s = .next s)) ∧
  (∀ part (s : State) at_, s.keepLive = true → (s.part part).state = 5 → (s.part part).destroying = false →
    (s.part part).drainEnd = some at_ → at_ + Config.us 200 ≤ s.now →
    let a := s.onPart part fun p => { p with destroying := true }
    let b := each (objsOf a part) freeObject a
    exec (.partitionRemovalFlightExpiry part) s =
      .next (settleRemoval part (each (slotsOf b part) (fun i u => if (u.key i).purging = 0 then startPurge i 1 u else u) b))) ∧
  (∀ (s : State) b, meterDue s = some b → exec .meteringIntervalEnd s = .next (endInterval b 0 s)) ∧
  (∀ (s : State), meterDue s = none → exec .meteringIntervalEnd s = .next s) ∧
  (∀ (s : State), s.keepLive = true → s.meter.backlog.length < 65536 → canDraw s 1 = true →
    let b := (s.meter.ckptAt / 6000000000 + 1) * 6000000000
    (b ≤ s.meter.startAt → ∃ t, exec .meteringCheckpoint s = .next t ∧ t.meter = { (checkpoint s).meter with ckptAt := b }) ∧
    (s.meter.startAt < b → exec .meteringCheckpoint s = .next s))

/-- While the host station is Open a transaction that its interface may make goes to its memory station; any other,
and one of an IDE stream whose tag fails, is refused and its fence learns it. An SPDM request whose code the responder
does not know is answered with an error; the other answers are the log's free values. In an established session the
messages are sealed, and one whose tag fails is not answered. A key programmed for a stream waits in its slot until
K_SET_GO commits its set; K_SET_STOP and an integrity failure end it, and the interfaces bound to it enter ERROR. An
interface is locked to a partition, started and reported under an open session, and STOP_INTERFACE_REQUEST frees it
(01 R26, R27, R33; 06 R198, R210; 07 R250 to R252). Completes: hostDmaRequest, ideIntegrityFailure, spdmRequest,
keyProg, kSetGo, kSetStop, lockInterfaceRequest, startInterfaceRequest, stopInterfaceRequest,
getDeviceInterfaceReport. -/
def Obligations.HostLinkCommandsAct : Prop :=
  (∀ iface stream ide tbit write req data mac (s : State), s.portState Config.hostId ≠ .opened →
    exec (.hostDmaRequest iface stream ide tbit write req data mac) s = .next s) ∧
  (∀ iface stream ide tbit write req data mac (s : State), s.portState Config.hostId = .opened →
    let r := { memReq Config.hostId req data with epoch := s.host.port.cur.epoch }
    let b := bump Config.hostId 2 1 (s.onPort Config.hostId fun p => { p with intake := (p.intake + 1) % 2 ^ 32, lastTag := r.tag })
    (ide = false → hostMay s iface stream false tbit r.part = true → isWrite r.kind = write →
      ∃ t, exec (.hostDmaRequest iface stream ide tbit write req data mac) s = .next t ∧
        t.host.reqs = s.host.reqs ++ [(r.tag, iface, none)] ∧
        Out.dreq Config.hostId 0 r.tag (le 1 (chanOf s r.pslot).1 ++ packReq r) (if write then r.data else []) ∈ t.out) ∧
    (s.host.waiting = [] → hostMay s iface stream ide tbit r.part = false ∨ isWrite r.kind ≠ write →
      ∃ t, exec (.hostDmaRequest iface stream ide tbit write req data mac) s = .next t ∧ t = refuseHost r 0x10 b ∧
        t.host.reqs = s.host.reqs ∧ Out.rfin Config.hostId Config.hostId r.tag 16 0x10 ∈ t.out) ∧
    (∀ slot gen k, ide = true → s.host.waiting = [] → hostMay s iface stream true tbit r.part = true → isWrite r.kind = write →
      ideSub s stream (if write then 0 else 1) = some (slot, gen) → (s.key slot).state ≠ 6 →
      s.host.port.keys.contains (slot, gen) = true → halfOf (s.key slot) gen = some k → Config.ideOpen k data mac = none →
      exec (.hostDmaRequest iface stream ide tbit write req data mac) s = .next (refuseHost r 0x01 (ideFailure stream
        (b.onPort Config.hostId fun p => { p with keys := (slot, gen) :: without p.keys (slot, gen) }))))) ∧
  (∀ stream (s : State),
    ((s.ideOf stream).live = false → exec (.ideIntegrityFailure stream) s = .next s) ∧
    ((s.ideOf stream).live = true →
      let a := each ((s.ideOf stream).slots.map (·.2)) (fun i u => retireSlot i (Config.ms 2) u) s
      exec (.ideIntegrityFailure stream) s = .next (faultEvent Config.hostId 0x20 0xFFFF (BitVec.ofNat 64 stream)
        (streamEnds stream { a with host := { a.host with ide := tdel a.host.ide stream } })))) ∧
  (∀ session msg (s : State), hostUp s = true → sessionUp s session = false →
    (spdmCodes.contains (ofLe (cut 1 1 msg)) = false →
      ∃ t, exec (.spdmRequest session msg) s = .next t ∧ Out.spdm session (spdmError msg 0x07) ∈ t.out ∧ t.host = s.host ∧ t.keys = s.keys) ∧
    (4 ≤ msg.length → ofLe (cut 1 1 msg) = 0x84 →
      ∃ t, exec (.spdmRequest session msg) s = .next t ∧ Out.spdm session (Config.spdmResponse session msg (spdmData s [])) ∈ t.out ∧
        t.freeSig = s.freeSig + 1 ∧ t.host = s.host ∧ t.keys = s.keys)) ∧
  (∀ session msg (s : State), hostUp s = true → sessionUp s session = true →
    (spdmOpen s session msg = none → exec (.spdmRequest session msg) s = .next s) ∧
    (∀ m, spdmOpen s session msg = some m → spdmCodes.contains (ofLe (cut 1 1 m)) = false →
      exec (.spdmRequest session msg) s = .next (emit (.spdm session (spdmSeal s session (spdmError m 0x07)))
        (scratchOut true (spdmError m 0x07) (scratchIn m (spdmCount session (bump Config.hostId 7 1 s))))))) ∧
  (∀ session stream keySet sub key (s : State) slot, hostUp s = true → sessionUp s session = true → stream ≤ 255 → keySet ≤ 1 → sub ≤ 5 →
    ((tfind s.host.ide stream).isSome = true ∨ s.host.ide.length < 8) →
    ((tfind (s.ideOf stream).slots (6 * keySet + sub)).orElse fun _ => freeSlot s true) = some slot → (s.key slot).state ≤ 1 →
    s.keep.verifyBad = false →
    ∃ t, exec (.keyProg session stream keySet sub key) s = .next t ∧ Out.spdm session [3, 0] ∈ t.out ∧
      ((s.key slot).state = 0 → t.key slot =
        { state := 2, cls := 7, keepOwn := true, gen := (s.key slot).gen, first := true, pend := key, pendIs := 1 }) ∧
      ((s.key slot).state = 1 → t.key slot = { s.key slot with state := 2, pend := key, pendIs := 1 }) ∧
      t.ideOf stream = { s.ideOf stream with slots := tset (s.ideOf stream).slots (6 * keySet + sub) slot } ∧
      ∀ i, i ≠ slot → t.key i = s.key i) ∧
  (∀ session stream keySet (s : State), hostUp s = true → sessionUp s session = true →
    let v := (setSlots (s.ideOf stream) keySet).filter fun i => (s.key i).state == 2
    (v = [] → exec (.kSetGo session stream keySet) s = .next (emit (.spdm session [6, 1]) s)) ∧
    (v ≠ [] → ∃ t, exec (.kSetGo session stream keySet) s = .next t ∧ Out.spdm session [6, 0] ∈ t.out ∧
      t.keys = (each v (fun i u => if (u.key i).first then commitFirst i u else commitSwap i u) s).keys ∧
      (t.ideOf stream).live = true ∧ (t.ideOf stream).set = keySet)) ∧
  (∀ session stream keySet (s : State), hostUp s = true → sessionUp s session = true → setSlots (s.ideOf stream) keySet ≠ [] →
    (s.ideOf stream).live = false →
    let a := each (setSlots (s.ideOf stream) keySet) (fun i u => retireSlot i (Config.ms 2) u) s
    exec (.kSetStop session stream keySet) s = .next (emit (.spdm session [6, 0])
      (onIde stream (fun x => { x with slots := x.slots.filter fun e => e.1 / 6 != keySet, live := x.live && x.set != keySet }) a))) ∧
  (∀ session stream keySet (s : State), hostUp s = true → sessionUp s session = true → setSlots (s.ideOf stream) keySet ≠ [] →
    (s.ideOf stream).live = true → (s.ideOf stream).set = keySet →
    let a := each (setSlots (s.ideOf stream) keySet) (fun i u => retireSlot i (Config.ms 2) u) s
    exec (.kSetStop session stream keySet) s = .next (emit (.spdm session [6, 0]) (streamEnds stream
      (onIde stream (fun x => { x with slots := x.slots.filter fun e => e.1 / 6 != keySet, live := x.live && x.set != keySet }) a)))) ∧
  (∀ session iface part stream (s : State), hostUp s = true → sessionUp s session = true → iface < 64 → (s.tdispOf iface).state = 0 →
    part ≠ 0xFF → (s.part part).state ≠ 0 → (s.part part).state ≠ 5 → (s.ideOf stream).live = true →
    ∃ t, exec (.lockInterfaceRequest session iface part stream) s = .next t ∧ Out.spdm session [0] ∈ t.out ∧
      t.tdispOf iface = { state := 1, part := some part, stream := stream } ∧ ∀ i, i ≠ iface → t.tdispOf i = s.tdispOf i) ∧
  (∀ session iface (s : State), hostUp s = true → sessionUp s session = true →
    let x := s.tdispOf iface
    (x.state = 1 → (s.ideOf x.stream).live = true → ∃ t, exec (.startInterfaceRequest session iface) s = .next t ∧
      Out.spdm session [0] ∈ t.out ∧ t.tdispOf iface = { x with state := 2 } ∧ ∀ i, i ≠ iface → t.tdispOf i = s.tdispOf i) ∧
    (x.state ≠ 1 → exec (.startInterfaceRequest session iface) s = .next (emit (.spdm session [0x7F]) s)) ∧
    (iface < 64 → exec (.stopInterfaceRequest session iface) s = .next (emit (.spdm session [0]) (stopSecure (onTdisp iface (fun _ => {}) s)))) ∧
    (∀ p, x.part = some p → (x.state = 1 ∨ x.state = 2) → exec (.getDeviceInterfaceReport session iface) s =
      .next (emit (.spdm session (le 1 p ++ fit 48 (s.part p).pmr)) s)) ∧
    (x.part = none → exec (.getDeviceInterfaceReport session iface) s = .next (emit (.spdm session [0x7F]) s)))

/-! ### The driver interface (09) -/

/-- CTX_CREATE opens the lowest free context and QUEUE_CREATE the lowest free queue with the operands' fields, both
empty; QUEUE_DESTROY removes a queue no command of which is left; CTX_CLOSE takes a context to Closing and CTX_ABANDON
to Abandoning; a Closing context without commands is abandoned (09 R299, R300, R325, R326). Completes: ctxCreate,
queueCreate, queueDestroy, ctxClose, ctxAbandon, ctxCloseComplete. -/
def Obligations.ContextsAndQueuesOpenAndEnd : Prop :=
  (∀ q e rc inp (s : State), Starts 0x0901 q e rc s →
    let part := opnd e 0 1
    let kind := opnd e 1 1
    let size := opnd e 2 1
    let ring := opnd e 8 8
    ∀ c, partUsable s part = true → kind ≤ 1 → size ≤ 12 → opnd e 4 2 < 2048 →
    ringAddrBad s (kind == 1) part ring (16 * 2 ^ (size + 4)) = 0 → lowFree s.ctxs 1 4095 = some c →
    ∃ t, exec (.ctxCreate q e rc inp) s = .next t ∧ Answered q 0 (le 2 c) s t ∧ t.bare = s.bare ∧
      t.ctx c = { state := 1, device := kind == 1, part := part, ring := BitVec.ofNat 64 ring, size := size, vector := opnd e 4 2 } ∧
      ∀ i, i ≠ c → i ≠ (s.queue q).ctx → t.ctx i = s.ctx i) ∧
  (∀ q e rc inp (s : State), Starts 0x0910 q e rc s →
    let c := opnd e 0 2
    let size := opnd e 2 1
    let flags := opnd e 3 1
    let x := s.ctx c
    ∀ n, x.state = 1 → size ≤ 12 → flags ≤ 1 →
    (flags = 1 → x.device = false ∧ (s.host.tdisp.any fun i => i.2.state == 2 && i.2.part == some x.part) = true) →
    ringAddrBad s x.device x.part (opnd e 8 8) (128 * 2 ^ (size + 4)) = 0 →
    ringAddrBad s x.device x.part (opnd e 16 8) (64 * 2 ^ (size + 4)) = 0 → lowFree s.queues 1 1023 = some n →
    ∃ t, exec (.queueCreate q e rc inp) s = .next t ∧ Answered q 0 (le 2 n) s t ∧ t.bare = s.bare ∧
      t.queue n = {
        state := 1, ctx := c, secure := flags == 1, ring := BitVec.ofNat 64 (opnd e 8 8), res := BitVec.ofNat 64 (opnd e 16 8), size := size,
        limit := opnd e 4 2 } ∧
      ∀ i, i ≠ n → i ≠ q → t.queue i = s.queue i) ∧
  (∀ q e rc inp (s : State), Starts 0x0911 q e rc s →
    let n := opnd e 0 2
    n ≠ 0 → n ≠ q → (s.queue n).state ≠ 0 → (∀ y ∈ s.taken, y.q ≠ n) → (∀ p ∈ s.profs, p.2.queue ≠ some n) →
    ∃ t, exec (.queueDestroy q e rc inp) s = .next t ∧ Answered q 0 [] s t ∧ t.bare = s.bare ∧
      t.queues = tdel (tset s.queues q (dequeued (s.queue q))) n) ∧
  (∀ q e rc inp (s : State), Starts 0x0903 q e rc s →
    let c := opnd e 0 2
    c ≠ 0 → (s.ctx c).state = 1 → c ≠ (s.queue q).ctx →
    ∃ t, exec (.ctxClose q e rc inp) s = .next t ∧ Running q e c s t ∧ t.bare = s.bare ∧
      t.ctxs = tset s.ctxs c { s.ctx c with state := 2 }) ∧
  (∀ q e rc inp (s : State), Starts 0x0902 q e rc s →
    let c := opnd e 0 2
    c ≠ 0 → (s.ctx c).state ≠ 0 → (s.ctx c).state ≠ 3 → c ≠ (s.queue q).ctx →
    ∃ t b, Began q e inp s t b ∧ exec (.ctxAbandon q e rc inp) s = .next (abandonCtx c (keepRunning t c b))) ∧
  (∀ c (s : State), s.keepLive = true → (s.ctx c).state = 2 → (∀ y ∈ s.taken, (s.queue y.q).ctx ≠ c) →
    exec (.ctxCloseComplete c) s = .next (settleCtx c { s with ctxs := tset s.ctxs c { s.ctx c with state := 3, torn := false, dropping := [] } }))

/-- OBJ_ALLOC of a region that passes its checks gives the lowest free index and slot at the placements chosen or
listed (the list's bytes charged as reads) and answers the handle with their number; OBJ_SHARE adds an owner;
OBJ_QUERY answers the record; OBJ_FREE drops the owner and retires the object once nothing refers to it. A Doomed
object without references turns Retiring; a plain one whose drain is over is freed, one generation on (09 R316 to
R322). Completes: objAlloc, objShare, objQuery, objFree, objectRetire, plainRegionDrainCut. -/
def Obligations.ObjectsAreAllocatedSharedAndRetired : Prop :=
  (∀ q e rc inp (s : State), Starts 0x0920 q e rc s →
    let part := (s.ctx (s.queue q).ctx).part
    let cls := opnd e 0 1
    let flags := opnd e 1 1
    let mask := BitVec.ofNat 64 (opnd e 8 8)
    let a : Alloc := {
      part := part, owners := [(s.queue q).ctx], cls := cls, n := opnd e 16 4, measured := flags % 2 == 1, kind := opnd e 2 1,
      label := opnd e 4 2 }
    let payer := accPart s { q := q } (opnd e 20 4)
    ∀ ps0 ps oi slot, allocBad s { q := q, e := e } = 0 →
    (flags / 2 % 2 = 0 ∧ autoPlaces s part cls (opnd e 16 4) mask = .inr ps0 ∨
      flags / 2 % 2 = 1 ∧ mask ≠ 0 ∧ objAccess s payer (opnd e 20 4) (opnd e 24 5) (16 * popc mask) false = 0 ∧
        MeterFits s payer 5 (16 * popc mask) ∧ listPlaces s part cls (opnd e 16 4) mask inp = .inr ps0) →
    withEntries s cls ps0 = .inr ps → freeObj s = some oi → (if cls = 4 then some 0 else freeSlot s (part == 0xFF)) = some slot →
    (cls ≠ 4 → canDraw s 0 = true ∧ s.keep.verifyBad = false) → (cls = 2 ∨ cls = 3 → (ps.any fun p => s.isSafe p.st) = false) →
    ∃ t b u, Began q e inp s t b ∧ u = (if flags / 2 % 2 = 1 then b.metered payer 5 (16 * popc mask) else b) ∧
      exec (.objAlloc q e rc inp) s =
        .next (done t (le 4 (handleOf (installRegion a oi slot ps u) oi) ++ le 1 ps0.length) (installRegion a oi slot ps u)) ∧
      (installRegion a oi slot ps u).obj oi = {
        state := 1, cls := cls, part := part, measured := a.measured, gen := (s.obj oi).gen, owners := a.owners, tiles := a.n,
        keySlot := if cls = 4 then 0 else slot, kind := a.kind, label := a.label, places := ps, loadGen := if cls = 1 then 1 else 0,
        loading := cls == 1, meas := if a.measured then 2 else 0 }) ∧
  (∀ q e rc inp (s : State), Starts 0x0922 q e rc s →
    let oi := handleIdx (opnd e 0 4)
    let c := opnd e 4 2
    let o := s.obj oi
    opnd e 0 4 ≠ 0 → (s.ctx c).state = 1 → (s.ctx c).part = o.part → o.owners.contains c = false →
    ∃ t, exec (.objShare q e rc inp) s = .next t ∧ Completed q e [] s t ∧
      t.bare = { s.bare with objs := tset s.objs oi { o with owners := o.owners ++ [c] } }) ∧
  (∀ q e rc inp (s : State), Starts 0x0923 q e rc s → opnd e 0 4 ≠ 0 →
    ∃ t b, Began q e inp s t b ∧
      exec (.objQuery q e rc inp) s = .next (done t ((objBytes b (handleIdx (opnd e 0 4))).take 48) b)) ∧
  (∀ q e rc inp (s : State), Starts 0x0921 q e rc s →
    let oi := handleIdx (opnd e 0 4)
    let o := s.obj oi
    let own := without o.owners (s.queue q).ctx
    opnd e 0 4 ≠ 0 → o.owners.contains (s.queue q).ctx = true →
    let o' : Obj := { o with owners := own, state := if o.state = 1 ∧ own = [] then 2 else o.state }
    ∃ t b, Began q e inp s t b ∧
      exec (.objFree q e rc inp) s = .next (retireObject oi (done t (le 1 o'.state) { b with objs := tset s.objs oi o' }))) ∧
  (∀ oi (s : State), s.keepLive = true → (s.obj oi).state = 2 → refsOf s oi = 0 →
    ∃ t, exec (.objectRetire oi) s = .next t ∧ (t.obj oi).state = 3 ∧
      ((s.obj oi).cls = 4 → (t.obj oi).cutAt = some (s.now + Config.ms 2)) ∧
      ((s.obj oi).cls ≠ 4 → t = retireSlot (s.obj oi).keySlot (Config.ms 2) { s with objs := tset s.objs oi { s.obj oi with state := 3 } })) ∧
  (∀ oi (s : State), s.keepLive = true → (s.obj oi).cls = 4 → (s.obj oi).state = 3 → plainDrained s oi = true → (s.obj oi).gen < 4095 →
    ∃ t, exec (.plainRegionDrainCut oi) s = .next t ∧ t.obj oi = { gen := (s.obj oi).gen + 1 } ∧ ∀ i, i ≠ oi → t.obj i = s.obj i)

/-- FENCE_ALLOC hands out the lowest free fence, Idle and owned by the context; FENCE_SHARE adds an importer and
FENCE_RELEASE removes one; FENCE_FREE of a Pending fence waits for it, and otherwise lets it go; FENCE_QUERY answers
the record (09 R309, R310). Completes: fenceAlloc, fenceFree, fenceShare, fenceRelease, fenceQuery. -/
def Obligations.FencesAreAllocatedSharedAndFreed : Prop :=
  (∀ q e rc inp (s : State), Starts 0x0930 q e rc s →
    ∀ i, freeFence s = some i →
    ∃ t, exec (.fenceAlloc q e rc inp) s = .next t ∧ Answered q 0 (le 2 i) s t ∧ t.bare = s.bare ∧
      t.fence i = { state := 1, owner := (s.queue q).ctx } ∧ ∀ j, j ≠ i → j ≠ envFence e → t.fence j = s.fence j) ∧
  (∀ q e rc inp (s : State), Starts 0x0931 q e rc s →
    let i := opnd e 0 2
    let f := s.fence i
    f.state ≠ 0 → f.freed = false → f.owner = (s.queue q).ctx →
    (i ≠ envFence e → f.state = 2 → ∃ t, exec (.fenceFree q e rc inp) s = .next t ∧ Running q e (i + 1) s t ∧ t.bare = s.bare) ∧
    (i ≠ envFence e → f.state ≠ 2 → ∃ t b, Began q e inp s t b ∧ exec (.fenceFree q e rc inp) s = .next (done t [] (letGo i b))) ∧
    (i = envFence e → ∃ t b, Began q e inp s t b ∧ exec (.fenceFree q e rc inp) s = .next (letGo i (done t [] b)))) ∧
  (∀ q e rc inp (s : State), Starts 0x0932 q e rc s →
    let i := opnd e 0 2
    let c := opnd e 2 2
    let f := s.fence i
    f.state ≠ 0 → f.freed = false → f.owner = (s.queue q).ctx → (s.ctx c).state = 1 → c ≠ (s.queue q).ctx →
    ((s.ctx c).part = (s.ctx (s.queue q).ctx).part ∨ isOperatorCtx (s.ctx c) = true) → f.importers.contains c = false →
    ∃ t, exec (.fenceShare q e rc inp) s = .next t ∧ Answered q 0 [] s t ∧ t.bare = s.bare ∧
      (t.fence i).importers = f.importers ++ [c] ∧ (i ≠ envFence e → t.fence i = { f with importers := f.importers ++ [c] })) ∧
  (∀ q e rc inp (s : State), Starts 0x0933 q e rc s →
    let i := opnd e 0 2
    let f := s.fence i
    let c := (s.queue q).ctx
    f.state ≠ 0 → f.importers.contains c = true → i ≠ envFence e → f.freed = false →
    ∃ t, exec (.fenceRelease q e rc inp) s = .next t ∧ Answered q 0 [] s t ∧ t.bare = s.bare ∧
      t.fence i = { f with importers := without f.importers c }) ∧
  (∀ q e rc inp (s : State), Starts 0x0934 q e rc s →
    let i := opnd e 0 2
    let f := s.fence i
    let c := (s.queue q).ctx
    f.state ≠ 0 → (f.owner = c ∨ f.importers.contains c = true) →
    ∃ t, exec (.fenceQuery q e rc inp) s = .next t ∧ t.bare = s.bare ∧
      Completed q e (fenceBytes (if i = envFence e then armed f (s.queue q).nextSeq else f)) s t)

/-- NOP completes and changes nothing else; WORK_BEGIN goes on running with its fence as the work fence; WORK_END of a
work fence of the context completes and has the work complete 64 control clocks later (09 R314). Completes: nop,
workBegin, workEnd. -/
def Obligations.NopAndWorkCommandsRun : Prop :=
  (∀ q e rc inp (s : State), Starts 0x0900 q e rc s →
    ∃ t, exec (.nop q e rc inp) s = .next t ∧ Completed q e [] s t ∧ t.bare = s.bare) ∧
  (∀ q e rc inp (s : State), Starts 0x0940 q e rc s →
    ∃ t, exec (.workBegin q e rc inp) s = .next t ∧ Running q e 0 s t ∧ t.bare = s.bare) ∧
  (∀ q e rc inp (s : State), Starts 0x0941 q e rc s →
    let i := opnd e 0 2
    ∀ x, (s.taken.find? fun x => x.phase == 2 && envOpcode x.e == 0x0940 && x.aux == 0 && envFence x.e == i) = some x →
    (s.fence i).state ≠ 0 → (s.fence i).freed = false → (s.fence i).owner = (s.queue q).ctx →
    ∃ t, exec (.workEnd q e rc inp) s = .next t ∧ Answered q 0 [] s t ∧ t.bare = s.bare ∧
      t.taken = s.taken.map fun y => if y.q == x.q && y.seq == x.seq then { y with phase := 2, aux := s.now + 7 } else y)

/-- A command whose waits are all satisfied, with nothing before it, starts: its body runs. A command that still waits
after its queue's limit, work past its own limit, and an entry paused for its Pending fence past the limit, fail with
YE_TIMEOUT (0x0C). A failure report of the owner's partition against a Pending fence is counted, and the first code
stays (09 R306, R307, R312, R314). Completes: commandStart, commandWaitTimeout, workLimitTimeout, takePauseTimeout,
fenceFailureReport. -/
def Obligations.WaitsStartOrTimeOut : Prop :=
  (∀ q seq rc inp (s : State) t, s.keepLive = true → findTaken s q seq.toNat = some t → t.phase = 1 →
    (earlier s t).any (fun x => x.phase == 1) = false → (isSerial s t = true → earlier s t = []) → badWait s t = none →
    (∀ w ∈ waitsOf t.e, waitOn (s.fence w.1) w.2 = .satisfied) → startBar s t = 0 → (∀ p ∈ s.profs, p.2.queue ≠ some t.q) →
    let t' : Taken := { t with inp := inp, phase := 2, startAt := s.now }
    ∃ u, Traced { s with taken := s.taken.map fun x => if x.q == t.q && x.seq == t.seq then t' else x } u ∧
      exec (.commandStart q seq rc inp) s = .next (bodyOf (envOpcode t.e) t' rc.toNat inp u)) ∧
  (∀ q seq (s : State) t, s.keepLive = true → findTaken s q seq.toNat = some t → t.phase = 1 → (s.queue q).limit ≠ 0 →
    t.takenAt + Config.ms (s.queue q).limit ≤ s.now → exec (.commandWaitTimeout q seq) s = .next (failCmd t 0x0C s)) ∧
  (∀ q seq (s : State) t, s.keepLive = true → findTaken s q seq.toNat = some t → envOpcode t.e = 0x0940 → t.phase = 2 → t.aux = 0 →
    opnd t.e 0 4 ≠ 0 → t.startAt + Config.us (opnd t.e 0 4) ≤ s.now → exec (.workLimitTimeout q seq) s = .next (failCmd t 0x0C s)) ∧
  (∀ q (s : State) at_, s.keepLive = true → (s.queue q).pausedAt = some at_ → (s.queue q).limit ≠ 0 →
    at_ + Config.ms (s.queue q).limit ≤ s.now → (s.fence (envFence (s.queue q).pausedE)).state = 2 →
    ∃ t, exec (.takePauseTimeout q) s = .next t ∧ t.queue q = dequeued (s.queue q) ∧ t.fences = s.fences ∧
      Out.result q (s.queue q).head (resultEntry 0x0C (s.queue q).nextSeq s.now []) ∈ t.out) ∧
  (∀ i part code detail (s : State), s.keepLive = true → i ≠ 0xFFFF → (s.fence i).state = 2 → (s.ctx (s.fence i).owner).part = part →
    let f := s.fence i
    exec (.fenceFailureReport i part code detail) s = .next { s with fences := tset s.fences i { f with
      errors := min 0xFFFF (f.errors + 1),
      code := if f.code = 0 ∨ code.toNat = 0x07 ∨ code.toNat = 0x08 then code.toNat else f.code,
      detail := if f.code = 0 then detail else f.detail } })

/-- A host doorbell moves the tail of an Open host queue to a place inside its ring, and a device doorbell, from a
core that its partition leases, that of a device queue, recording who published the new entries; any other is ignored
and counted. A run notice of a slice is kept for the meter. An arrival counter is read by its own partition only (05
R170; 08 R262, R289; 09 R301). ADMIN_CTRL.ENABLE opens context 0 and queue 0 as the admin registers describe them, or
raises source 0x1D for a size above 12; it is written once. A table read with GO latches the whole entry, or the error
of a table or index there is not. An event head write sets HEAD and clears OVF by a 1 (09 R296, R297, R323, R456).
Completes: hostDoorbellWrite, deviceDoorbellWrite, runNotice, arrivalCounterRead, adminEnable, tableRead,
eventHeadWrite. -/
def Obligations.DoorbellAdminTableAndEventRegistersAct : Prop :=
  (∀ q v (s : State), s.keepLive = true → q < 1024 →
    let x := s.queue q
    let tail := rf v 0 16
    (x.state = 1 → (s.ctx x.ctx).device = false → tail < 2 ^ (x.size + 4) →
      ∃ t, exec (.hostDoorbellWrite q v) s = .next t ∧ t.queue q = { x with tail := tail } ∧ (∀ i, i ≠ q → t.queue i = s.queue i) ∧
        t = { s with queues := t.queues }) ∧
    ((x.state ≠ 1 ∨ (s.ctx x.ctx).device = true ∨ 2 ^ (x.size + 4) ≤ tail) →
      exec (.hostDoorbellWrite q v) s = .next (bump Config.keepId 5 1 s))) ∧
  (∀ q v src (s : State), s.keepLive = true → q < 1024 →
    let x := s.queue q
    let tail := rf v 0 16
    let part := rf src 8 8
    coreLeases s (rf src 0 8) part (src.extractLsb' 16 16) = true → x.state = 1 → (s.ctx x.ctx).device = true →
    (s.ctx x.ctx).part = part → tail < 2 ^ (x.size + 4) → tail ≠ x.tail →
    ∃ t, exec (.deviceDoorbellWrite q v src) s = .next t ∧ t.queue q = { x with tail := tail, pubs := x.pubs ++ [(tail, src)] } ∧
      (∀ i, i ≠ q → t.queue i = s.queue i) ∧ t = { s with queues := t.queues }) ∧
  (∀ q v src (s : State), s.keepLive = true →
    (coreLeases s (rf src 0 8) (rf src 8 8) (src.extractLsb' 16 16) = false ∨ 1024 ≤ q ∨ (s.queue q).state ≠ 1 ∨
      (s.ctx (s.queue q).ctx).device = false ∨ (s.ctx (s.queue q).ctx).part ≠ rf src 8 8 ∨ 2 ^ ((s.queue q).size + 4) ≤ rf v 0 16) →
    exec (.deviceDoorbellWrite q v src) s = .next (bump Config.keepId 5 1 s)) ∧
  (∀ v src (s : State) x, s.keepLive = true → s.slices.find? (fun x => x.idx == rf v 0 6) = some x → rf v 10 22 = 0 →
    (v.getLsbD 9 = true ∨ rf v 6 3 < x.lessees.length) →
    exec (.runNotice v src) s = .next { s with meter := { s.meter with
      notices := s.meter.notices ++ [(rf v 0 6, if v.getLsbD 9 then none else some (rf v 6 3))] } }) ∧
  (∀ i src (s : State), s.keepLive = true →
    let a := tget {} s.arrivals i
    exec (.arrivalCounterRead i src) s =
      .next { s with out := .data (if a.state ≠ 0 ∧ a.part = rf src 8 8 then arrivalBytes a else []) :: s.out }) ∧
  (∀ v (s : State), s.keepLive = true → s.keep.adminCtrl.getLsbD 16 = false → v.getLsbD 16 = true →
    let b := { s with keep := { s.keep with adminCtrl := v &&& 0x1FF00 } }
    ((12 < rf v 12 4 ∨ 12 < rf v 8 4) → exec (.adminEnable v) s = .next (faultEvent Config.keepId 0x1D 0xFFFF 0 b)) ∧
    (rf v 12 4 ≤ 12 → rf v 8 4 ≤ 12 →
      ∃ t, exec (.adminEnable v) s = .next t ∧ t.keep = { s.keep with adminCtrl := v &&& 0x1FF00, adminReady := true } ∧
        t.ctx 0 = { state := 1, part := 0xFF, ring := s.keep.ev0Ring, size := rf (v &&& 0x1FF00) 8 4, vector := rf s.keep.ev0Vector 0 11 } ∧
        t.queue 0 = { state := 1, ctx := 0, ring := s.keep.aqRing, res := s.keep.aqResult, size := rf (v &&& 0x1FF00) 12 4 } ∧
        (∀ i, i ≠ 0 → t.ctx i = s.ctx i ∧ t.queue i = s.queue i))) ∧
  (∀ v (s : State), s.keep.adminCtrl.getLsbD 16 = true → exec (.adminEnable v) s = .next s) ∧
  (∀ v (s : State), s.keepLive = true → v.getLsbD 0 = true →
    (∀ b, tableEntry s s.keep.tableSel.toNat s.keep.tableIdx.toNat = some b →
      exec (.tableRead v) s = .next { s with keep := { s.keep with tableStat := 2, tableData := fit 64 b } }) ∧
    (tableEntry s s.keep.tableSel.toNat s.keep.tableIdx.toNat = none →
      exec (.tableRead v) s = .next { s with keep := { s.keep with tableStat := 4 } })) ∧
  (∀ c v (s : State), s.keepLive = true → c < 4096 → (s.ctx c).state ≠ 0 →
    ∃ t, exec (.eventHeadWrite c v) s = .next t ∧ t = { s with ctxs := t.ctxs } ∧ (∀ i, i ≠ c → t.ctx i = s.ctx i) ∧
      t.ctx c = { s.ctx c with head := rf v 0 16, ovf := if v.getLsbD 63 then false else (s.ctx c).ovf })

/-- A fault acknowledge clears the unacknowledged bits it names, and a Notice with them. A snapshot with GO latches a
unit's counters or a profile set's record. A heartbeat one above the last is accepted, any other is counted. A write
of a register acts on the register at its offset: ring addresses and the event vector hold their value while ENABLE is
1, the halves of a 64-bit register are written apart, the rows above are what the offsets of their registers do, and a
misaligned or unlisted write changes nothing (09 R295, R296; 10 R339, R340; 11 R364; 13 R402, R409). Completes:
faultAcknowledge, unitSnapshot, profileSnapshot, heartbeatWrite, registerWrite, adminEnable, tableRead,
hostDoorbellWrite, eventHeadWrite. -/
def Obligations.KeepRegistersAreWritten : Prop :=
  (∀ u v (s : State), s.keepLive = true → isUnit u = true →
    ∃ t, exec (.faultAcknowledge u v) s = .next t ∧ t = { s with flt := { s.flt with words := t.flt.words } } ∧
      (∀ i, i ≠ u → t.word i = s.word i) ∧
      t.word u = { s.word u with
        unack := (s.word u).unack &&& ~~~(v.setWidth 4), uncleared := (s.word u).uncleared &&& ~~~(v.setWidth 4 &&& 1#4) }) ∧
  (∀ v (s : State), s.keepLive = true → v.getLsbD 16 = true →
    (v.getLsbD 17 = false → exec (.unitSnapshot v) s = .next { s with keep := { s.keep with
      snapCtrl := (v &&& 0x20FFF) ||| 0x8000, snapData := fit 512 (unitBlock s (rf v 0 8)) } }) ∧
    (v.getLsbD 17 = true → exec (.profileSnapshot v) s = .next { s with keep := { s.keep with
      snapCtrl := (v &&& 0x20FFF) ||| 0x8000, snapData := fit 512 (sampleRecord s (rf v 8 4) (tget {} s.profs (rf v 8 4)) 8) } })) ∧
  (∀ v (s : State), s.keepLive = true →
    (v = s.keep.beat + 1 → exec (.heartbeatWrite v) s =
      .next { s with keep := { s.keep with beat := v, beatAt := s.now, missed := 0, beaten := true } }) ∧
    (v ≠ s.keep.beat + 1 → exec (.heartbeatWrite v) s = .next (bump Config.keepId 7 1 s))) ∧
  (∀ off wide v (s : State), s.keepLive = true → (if wide then off % 8 = 0 else off % 4 = 0) →
    let lo : BitVec 32 := v.setWidth 32
    let high := decide (off % 8 = 4)
    (s.keep.adminCtrl.getLsbD 16 = true → (off = 0x30 ∨ 0x10 ≤ off ∧ off < 0x28) → exec (.registerWrite off wide v) s = .next s) ∧
    (s.keep.adminCtrl.getLsbD 16 = false →
      (off - off % 8 = 0x10 →
        exec (.registerWrite off wide v) s = .next { s with keep := { s.keep with aqRing := mergeHalf s.keep.aqRing high wide v &&& ~~~0xFFF } }) ∧
      (off - off % 8 = 0x18 →
        exec (.registerWrite off wide v) s = .next { s with keep := { s.keep with aqResult := mergeHalf s.keep.aqResult high wide v &&& ~~~0xFFF } }) ∧
      (off - off % 8 = 0x20 →
        exec (.registerWrite off wide v) s = .next { s with keep := { s.keep with ev0Ring := mergeHalf s.keep.ev0Ring high wide v &&& ~~~0xFFF } }) ∧
      (off = 0x30 → exec (.registerWrite off wide v) s = .next { s with keep := { s.keep with ev0Vector := lo &&& 0x7FF } })) ∧
    (off = 0x28 → exec (.registerWrite off wide v) s = exec (.adminEnable lo) s) ∧
    (off = 0x40 → exec (.registerWrite off wide v) s = .next { s with keep := { s.keep with tableSel := lo &&& 0xFF } }) ∧
    (off = 0x48 → exec (.registerWrite off wide v) s = .next { s with keep := { s.keep with tableIdx := lo } }) ∧
    (off = 0x50 → exec (.registerWrite off wide v) s = exec (.tableRead lo) s) ∧
    (off = 0x2008 → exec (.registerWrite off wide v) s = .next { s with flt := { s.flt with vector := lo &&& 0x7FF } }) ∧
    (∀ u, u < 256 → off = 0x2400 + 4 * u → wide = false → exec (.registerWrite off wide v) s = exec (.faultAcknowledge u lo) s) ∧
    (∀ q, q < 1024 → off = 0x10000 + 8 * q → exec (.registerWrite off wide v) s = exec (.hostDoorbellWrite q v) s) ∧
    (∀ c, c < 4096 → off = 0x20000 + 8 * c → wide = true → exec (.registerWrite off wide v) s = exec (.eventHeadWrite c v) s) ∧
    (∀ i, i < 8192 → off = 0x30000 + 4 * i → wide = false → ∃ t, exec (.registerWrite off wide v) s = .next t ∧ tget 0 t.keep.msix i = lo) ∧
    (off = 0x70000 → exec (.registerWrite off wide v) s = exec (.unitSnapshot lo) s))

/-! ### Faults, stops, resets, dumps (10, 11) -/

/-- FAULT_CLEAR clears the named Degrade and Severe classes of a unit once each is acknowledged and its lasting
conditions have ended, and answers the classes still uncleared. FAULT_THRESHOLD gives every unit it applies to the
event source's N and W. HEDGEHOG_POLICY raises the policy. FAULT_INJECT answers, and then the fault of the class named
acts on the unit, class 5 being a lockdown (10 R334, R341, R348, R349). STOP_WAVE goes on running while every station
holds the stop stamp of the tick `lead` after it was taken; across a domain it also mails STOP to the anchor's
children and to those it has admitted by packet. STOP_RESUME does the same with the resume stamp of the stop in force.
STOP_RECORDS writes every station's record, or waits for the stop to end (11 R351 to R357). Completes: faultClear,
faultThreshold, hedgehogPolicy, faultInject, stopWave, stopResume, stopRecords. -/
def Obligations.FaultAndStopCommandsRun : Prop :=
  (∀ q e rc inp (s : State), Starts 0x1001 q e rc s →
    let u := opnd e 0 1
    let m := opnd e 1 1
    let w := s.word u
    let left := w.uncleared &&& ~~~BitVec.ofNat 4 m
    isUnit u = true → m % 2 = 0 → m < 8 → (m / 2 % 2 = 1 → mayClear w 2 = true) → (m / 4 % 2 = 1 → mayClear w 3 = true) →
    ∃ t, exec (.faultClear q e rc inp) s = .next t ∧ Completed q e (le 1 left.toNat) s t ∧
      t.bare = { s.bare with flt := { s.flt with words := tset s.flt.words u { w with uncleared := left } } }) ∧
  (∀ q e rc inp (s : State), Starts 0x1002 q e rc s →
    let src := opnd e 0 1
    let u := opnd e 1 1
    let n := opnd e 2 2
    let w := opnd e 4 4
    thresholdOk src n w = true → (∃ x ∈ sourceUnits src, u = 0xFF ∨ u = x) →
    ∃ t, exec (.faultThreshold q e rc inp) s = .next t ∧ Completed q e [] s t ∧
      t.bare = { s.bare with flt := { s.flt with windows := t.flt.windows } } ∧
      ∀ k, findWin t.flt.windows k =
        if k.2 = src ∧ k.1 ∈ sourceUnits src ∧ (u = 0xFF ∨ u = k.1) then
          { findWin s.flt.windows k with n := some n, w := some (Config.us w) }
        else findWin s.flt.windows k) ∧
  (∀ q e rc inp (s : State), Starts 0x1003 q e rc s →
    let p := opnd e 0 1
    s.keep.policy ≤ p → policyAllowed (lcCode s.aon) p = true →
    ∃ t, exec (.hedgehogPolicy q e rc inp) s = .next t ∧ Completed q e (le 1 p) s t ∧
      t.bare = { s.bare with keep := { s.bare.keep with policy := p } }) ∧
  (∀ q e rc inp (s : State), Starts 0x1004 q e rc s →
    let u := opnd e 0 1
    let c := opnd e 1 1
    lcCode s.aon ≠ 4 → lcCode s.aon ≠ 6 → isUnit u = true → 1 ≤ c → c ≤ 5 →
    let w := s.word u
    let k := escalate w.unack c
    ∃ t b, Began q e inp s t b ∧
      let a := done t (le 4 s.flt.logSeq) b
      (c = 5 → exec (.faultInject q e rc inp) s = .next (lockdown 9 0 a)) ∧
      (c ≠ 5 → exec (.faultInject q e rc inp) s = .next (faultAs u 0x28 c 0xFFFF 0 a) ∧
        (s.aon.lockdown = false → (faultAs u 0x28 c 0xFFFF 0 a).flt.logSeq = (s.flt.logSeq + 1) % 2 ^ 32 ∧
          (faultAs u 0x28 c 0xFFFF 0 a).word u = {
            last := 0x28, uncleared := w.uncleared ||| (1#4 <<< (k - 1)), unack := w.unack ||| (1#4 <<< (k - 1)), active := w.active }))) ∧
  (∀ q e rc inp (s : State), Starts 0x1101 q e rc s →
    let part := opnd e 1 1
    let lead := opnd e 2 1
    s.stop.inForce = false → 4 ≤ lead → lead ≤ 255 →
    (opnd e 0 1 = 1 →
      ∃ t, exec (.stopWave q e rc inp) s = .next t ∧ Running q e 0 s t ∧
        t.stop = {
          inForce := true, id := BitVec.ofNat 64 (opnd e 4 4), domain := false, part := part, tick := s.now + lead, ever := true } ∧
        ∀ u ∈ stationIds, t.port u = { s.port u with stopAt := some (s.now + lead), resumeAt := none, stop := {} }) ∧
    (opnd e 0 1 = 2 → (s.dom part).state = 4 → isAnchor (s.dom part) = true →
      let id := BitVec.ofNat 64 (opnd e 4 4 + (s.dom part).domain * 2 ^ 40)
      ∃ t b, Began q e inp s t b ∧ exec (.stopWave q e rc inp) s =
        .next (keepRunning t 0 (stampStop id true part (s.now + lead) (mailAll part (downTree (s.dom part)) 0x30 (stopBody id lead) b))))) ∧
  (∀ q e rc inp (s : State), Starts 0x1102 q e rc s →
    let part := opnd e 1 1
    let lead := opnd e 2 1
    s.stop.inForce = true → s.stop.resume = none → 4 ≤ lead → lead ≤ 255 →
    (opnd e 0 1 = 1 → s.stop.domain = false →
      ∃ t, exec (.stopResume q e rc inp) s = .next t ∧ Running q e 0 s t ∧ t.stop = { s.stop with resume := some (s.now + lead) } ∧
        ∀ u ∈ stationIds, t.port u = { s.port u with resumeAt := some (s.now + lead) }) ∧
    (opnd e 0 1 = 2 → s.stop.domain = true → part = s.stop.part →
      ∃ t b, Began q e inp s t b ∧ exec (.stopResume q e rc inp) s =
        .next (keepRunning t 0 (stampResume (s.now + lead) (mailAll part (downTree (s.dom part)) 0x31 (stopBody s.stop.id lead) b))))) ∧
  (∀ q e rc inp (s : State), Starts 0x1103 q e rc s → s.stop.ever = true →
    (s.keepStopped = true → ∃ t, exec (.stopRecords q e rc inp) s = .next t ∧ Running q e 0 s t ∧ t.bare = s.bare) ∧
    (let h := opnd e 0 4
     let recs := (stationIds.map (stopRecBytes s)).flatten
     let payer := accPart s { q := q } h
     s.keepStopped = false → objAccess s payer h (opnd e 4 5) recs.length true = 0 → MeterFits s payer 4 recs.length →
      ∃ t, exec (.stopRecords q e rc inp) s = .next t ∧ Completed q e (le 2 stationIds.length) s t ∧
        t.bare = s.bare.metered payer 4 recs.length ∧
        Out.objWrite h (opnd e 4 5) recs ∈ t.out))

/-- A tamper trip locks the block down: the keep is not ready, every station is Closed, the trip names its lowest
cause, and under a policy of Zeroise or above no key is left; with the cold input low the voltage and clock sensors
are masked. A keepway frame that fails its check is counted, its stamp is lost, and a second failure on the same link
within 1 µs raises source 0x10 against the node. A window that has closed below its threshold clears its count. A
station in Safe cuts its late writes, or closes its bundles and breaks the instances whose packet was cut. A link that
goes down is a loss in the domain that attaches its port (01 R18; 03 R104; 05 R168; 07 R242; 10 R333, R346, R347). A
stop or resume stamp acts on every station whose tick has come. A repeated keepway frame brings a lost stamp back: its
tick when that is still to come, and otherwise at once, recorded as late and counted. STOP and RESUME are forwarded to
the children of a formed domain; STOP is stamped at arrival plus its lead unless a stop is in force, and RESUME when
it names the stop in force (01 R18; 11 R351 to R357). Completes: hedgehogTrip, keepwayCrcError, faultWindowClose,
safeStateEntry, linkDown, stopTick, resumeTick, keepwayFrameRepeat, stopMessage, resumeMessage. -/
def Obligations.FaultEventsAndStopStampsAct : Prop :=
  (∀ v (s : State), (if s.aon.porLow then v &&& 0xFFF00 else v) ≠ 0 → s.aon.lockdown = false →
    let w := if s.aon.porLow then v &&& 0xFFF00 else v
    ∃ t, exec (.hedgehogTrip v) s = .next t ∧ t.aon.lockdown = true ∧ t.aon.alarm = true ∧ t.aon.phase = 5 ∧ t.aon.cause = 4 ∧
      t.aon.trip = (BitVec.ofNat 64 (tripCause w) <<< 32) ||| w.setWidth 64 ∧ t.flt.blockSafe = true ∧ t.keep.ready = false ∧
      (∀ u ∈ stationIds, (t.port u).opened = false) ∧ (1 ≤ s.keep.policy → t.keys = [] ∧ t.keep.scratch.cells = []) ∧
      (s.keep.policy = 0 → t.keys = s.keys) ∧ (2 ≤ s.keep.policy → t.aon.vault = [] ∧ t.aon.vaultAt = none)) ∧
  (∀ v (s : State), (if s.aon.porLow then v &&& 0xFFF00 else v) = 0 → exec (.hedgehogTrip v) s = .next s) ∧
  (∀ node u stamp (s : State), isNode node = true → s.aon.phase = 1 →
    let c := if stamp && isStation u then s.onPort u fun p => { p with stopAt := none, resumeAt := none } else s
    let b := countFault node 0x10 (bump node 3 1 c)
    let k := crcLink node u
    let w := findWin s.flt.windows k
    ((∀ x, w.closeAt = some x → x < s.now) → exec (.keepwayCrcError node (u, stamp)) s = .next
      { b with flt := { b.flt with windows := setWin s.flt.windows k { w with count := 1, closeAt := some (s.now + Config.us 1) } } }) ∧
    (∀ x, w.closeAt = some x → s.now ≤ x → exec (.keepwayCrcError node (u, stamp)) s = .next
      (raise node 0x10 4 true 2 0xFFFF (BitVec.ofNat 64 u)
        { b with flt := { b.flt with windows := setWin s.flt.windows k { w with count := 0, closeAt := none } } }))) ∧
  (∀ u (src : BitVec 8) (s : State),
    ∃ t, exec (.faultWindowClose u src) s = .next t ∧ t = { s with flt := { s.flt with windows := t.flt.windows } } ∧
      ∀ k, findWin t.flt.windows k =
        if k.1 = u ∧ k.2 % 256 = src.toNat ∧ (findWin s.flt.windows k).closeAt.any (· ≤ s.now) = true then
          { findWin s.flt.windows k with count := 0, closeAt := none }
        else findWin s.flt.windows k) ∧
  (∀ u cut (s : State), s.isSafe u = true →
    (isMem u = true → exec (.safeStateEntry (u, cut)) s =
      .next (each ((s.memSt u).reqs.filter fun r => r.stage == 3 && !r.hdr.isEmpty) (fun r s => cutWrite u r s) s)) ∧
    (isMem u = false → isLink u = true →
      exec (.safeStateEntry (u, cut)) s = .next (cutEmission u cut (each (s.linkSt u).bundles (fun b s => closeBundle u b s) s))) ∧
    (isMem u = false → isLink u = false → exec (.safeStateEntry (u, cut)) s = .next s)) ∧
  (∀ port p dev (s : State), s.doms.map (·.1) = [p] → tfind (s.dom p).attach port = some dev →
    exec (.linkDown port) s = .next (declareLost p dev 1 s)) ∧
  (∀ port (s : State), (∀ d ∈ s.doms, tfind (s.dom d.1).attach port = none) → exec (.linkDown port) s = .next s) ∧
  (∀ (s : State), exec .stopTick s = .next (stopSettled (each (stationIds.filter fun u => (s.port u).stopAt.any (· ≤ s.now))
    (fun u b => applyStop u ((b.port u).stopAt.getD 0) false b) s))) ∧
  (∀ (s : State), exec .resumeTick s = .next (resumeSettled (each (stationIds.filter fun u => (s.port u).resumeAt.any (· ≤ s.now))
    applyResume s))) ∧
  (∀ node u (s : State), isNode node = true → stampLost s u = true →
    (s.stop.resume = none → s.now ≤ s.stop.tick → ∃ t, exec (.keepwayFrameRepeat node u) s = .next t ∧
      t.port u = { s.port u with stopAt := some s.stop.tick } ∧ t = { s with mem := t.mem, link := t.link, host := t.host }) ∧
    (s.stop.resume = none → s.stop.tick < s.now →
      exec (.keepwayFrameRepeat node u) s = .next (stopSettled (applyStop u s.now true (bump node 4 1 s)))) ∧
    (∀ r, s.stop.resume = some r → s.now ≤ r → ∃ t, exec (.keepwayFrameRepeat node u) s = .next t ∧
      t.port u = { s.port u with resumeAt := some r } ∧ t = { s with mem := t.mem, link := t.link, host := t.host }) ∧
    (∀ r, s.stop.resume = some r → r < s.now →
      exec (.keepwayFrameRepeat node u) s = .next (resumeSettled (applyResume u (bump node 4 1 s))))) ∧
  (∀ part hdr body (s : State) whole, Arrives 0x30 part hdr body s whole → ((mailTaken part hdr s).dom part).state = 4 →
    let b := mailTaken part hdr s
    let u := mailAll part (downTree (b.dom part)) 0x30 whole b
    exec (.stopMessage part hdr body) s =
      .next (if u.stop.inForce then u else stampStop (BitVec.ofNat 64 (ofLe (cut 0 8 whole))) true part (u.now + ofLe (cut 8 1 whole)) u)) ∧
  (∀ part hdr body (s : State) whole, Arrives 0x31 part hdr body s whole → ((mailTaken part hdr s).dom part).state = 4 →
    let b := mailTaken part hdr s
    let u := mailAll part (downTree (b.dom part)) 0x31 whole b
    exec (.resumeMessage part hdr body) s =
      .next (if u.stop.inForce = true ∧ u.stop.resume = none ∧ u.stop.id.toNat = ofLe (cut 0 8 whole) then
        stampResume (u.now + ofLe (cut 8 1 whole)) u else u))

/-- RESET_STATION resets its station and goes on running until it is Open or Stopped. RESET_WARM goes on running in a
block whose warm reset has been requested. RESET_NONCE answers 32 bytes of instance 1 and keeps them as the reset
nonce. RESET_COLD_SIGNED of a request that the operator signed over this part's identifier and nonce completes, spends
the nonce, logs the reset, and has the cold reset follow 1 µs later (11 R359, R360, R363, R366). Completes:
resetStation, resetWarm, resetNonce, resetColdSigned. -/
def Obligations.ResetCommandsRun : Prop :=
  (∀ q e rc inp (s : State), Starts 0x1110 q e rc s →
    let u := opnd e 0 1
    isStation u = true →
    ∃ t b, Began q e inp s t b ∧
      exec (.resetStation q e rc inp) s = .next (keepRunning t u (resetStation u ((blocks 4 inp).map ofLe) b))) ∧
  (∀ q e rc inp (s : State), Starts 0x1111 q e rc s →
    ∃ t, exec (.resetWarm q e rc inp) s = .next t ∧ Running q e 0 s t ∧ t.aon.phase = 2 ∧ t.aon.phaseAt = s.now ∧
      t.aon.warmTimes = (s.now :: s.aon.warmTimes).take 3 ∧ t.bare = { s.bare with aon := t.aon }) ∧
  (∀ q e rc inp (s : State), Starts 0x1112 q e rc s → canDraw s 1 = true →
    let g := drbgMany 1 s.keep.drbg1
    ∃ t, exec (.resetNonce q e rc inp) s = .next t ∧ Completed q e (g.1.take 32) s t ∧
      t.bare = { s.bare with keep := { s.bare.keep with resetNonce := some (g.1.take 32), drbg1 := g.2 } }) ∧
  (∀ q e rc inp (s : State), Starts 0x1113 q e rc s →
    let n := opnd e 10 2
    let h := opnd e 0 4
    let payer := accPart s { q := q } h
    ∀ d m nonce, objAccess s payer h (opnd e 4 5) n false = 0 → MeterFits s payer 5 n → (cborOf (fit n inp)).bind dualOf = some d →
    dualOk s.keep.opKeyM s.keep.opKeyP d = true → cborOf d.payload = some m → m.size = 3 → m.bstr 1 = some (fit 32 s.aon.ueid) →
    s.keep.resetNonce = some nonce → m.bstr 2 = some nonce → m.nat 3 = some 1 →
    ∃ t b, Began q e inp s t b ∧
      let c := scratchOut false (fit n inp) (b.metered payer 5 n)
      let u := flushLog (logEntry 0x06 (nonce.take 16) { c with keep := { c.keep with resetNonce := none } })
      exec (.resetColdSigned q e rc inp) s = .next (done t [] { u with aon := { u.aon with coldAt := some (u.now + Config.us 1) } }))

/-- COLD_KEEP_START at its level of the pin: a Scrapped part starts no keep, a transition in progress goes to the
sequencer, a seed that does not come out of its wrap leaves the keep dead with a Fatal, and otherwise the selected
copy runs. WARM_KEEP_START, 10 µs after the hold, runs the copy last selected (14 R426, R427; 12 R376, R384; 07 R219).
Completes: coldKeepStart, warmKeepStart. -/
def Obligations.KeepStartsTakeTheirBranch : Prop :=
  (∀ env byPin woken pufOk pufKey selfFail badDies raw kat hang (s : State), s.aon.phase = 0 → byPin = s.aon.porLow →
    let b := takeEnv env { s with aon := { s.aon with porLow := false, spares := s.aon.repairs.filter recValid } }
    let a := startRandom raw kat (selfTests selfFail badDies { b with aon := { b.aon with coldOut := false } })
    (lcCode b.aon = 6 →
      ∃ t, exec (.coldKeepStart env byPin woken pufOk pufKey selfFail badDies raw kat hang) s = .next t ∧ t.aon.phase = 7 ∧
        t.keep.ready = s.keep.ready) ∧
    (lcCode b.aon ≠ 6 → (inProgress b.aon).isSome = true →
      exec (.coldKeepStart env byPin woken pufOk pufKey selfFail badDies raw kat hang) s =
        .next { b with aon := { b.aon with phase := 6, phaseAt := b.now, retries := 0 } }) ∧
    (lcCode b.aon ≠ 6 → inProgress b.aon = none → takeSeed pufOk pufKey a = none →
      exec (.coldKeepStart env byPin woken pufOk pufKey selfFail badDies raw kat hang) s =
        .next (dead (faultEvent Config.keepId 0x1B 0xFFFF 0 a))) ∧
    (∀ u, lcCode b.aon ≠ 6 → inProgress b.aon = none → takeSeed pufOk pufKey a = some u →
      (selectSlot u = none →
        exec (.coldKeepStart env byPin woken pufOk pufKey selfFail badDies raw kat hang) s = .next (dead u)) ∧
      (∀ slot, selectSlot u = some slot →
        exec (.coldKeepStart env byPin woken pufOk pufKey selfFail badDies raw kat hang) s = .next (coldRun slot (!hang) u)))) ∧
  (∀ pufOk pufKey selfFail badDies raw kat hang (s : State), s.aon.phase = 3 → s.aon.phaseAt + Config.us 10 ≤ s.now →
    let a := startRandom raw kat (selfTests selfFail badDies (clearFaults s))
    (takeSeed pufOk pufKey a = none →
      exec (.warmKeepStart pufOk pufKey selfFail badDies raw kat hang) s = .next (dead (faultEvent Config.keepId 0x1B 0xFFFF 0 a))) ∧
    (∀ u, takeSeed pufOk pufKey a = some u →
      (slotValid u u.aon.slot = false →
        ∃ t, exec (.warmKeepStart pufOk pufKey selfFail badDies raw kat hang) s = .next t ∧ t.aon.phase = 7) ∧
      (slotValid u u.aon.slot = true →
        exec (.warmKeepStart pufOk pufKey selfFail badDies raw kat hang) s = .next (warmRun (!hang) u))))

/-- The cold input resets everything but fuses, flash and the current-limit level. A warm input held low for at least
4 keep clocks requests a warm reset, and the third inside 15 min takes the block out of service; a shorter one does
nothing. The sequence ends with the keep and every station held and every key half lost. The vault expires 30 s after
its write. A beat period that passes is counted, the tenth is a hang, and so is a start without a beat for 100 ms (11
R358, R359, R361, R362, R364, R365). Completes: coldResetInput, warmResetInput, warmResetSequence, vaultExpiry,
watchdogPeriodExpiry, watchdogStartTimeout. -/
def Obligations.ResetInputsSequenceAndWatchdogRun : Prop :=
  (∀ p (s : State), exec (.coldResetInput p) s = .next {
    aon := { coldAon 0 s.aon with porLow := true }, flash := { s.flash with queue := [] }, clk := { ilim := s.clk.ilim },
    cond := s.cond, freeSig := s.freeSig, out := s.out, pending := s.pending }) ∧
  (∀ n (s : State), (n < 4 → exec (.warmResetInput n) s = .next s) ∧
    (4 ≤ n → s.aon.phase = 1 →
      let third := s.aon.warmTimes.length ≥ 2 ∧ s.now ≤ (s.aon.warmTimes.getD 1 0) + 90000000000
      exec (.warmResetInput n) s = .next { s with aon := { s.aon with
        phase := 2, phaseAt := s.now, warmTimes := (s.now :: s.aon.warmTimes).take 3, cause := if third then 5 else 2,
        outOfService := s.aon.outOfService || decide third, cutTime := none } })) ∧
  (∀ ll lc (s : State), s.aon.phase = 2 →
    ∃ t, exec (.warmResetSequence ll lc) s = .next t ∧ t.aon.phase = 3 ∧ t.aon.warmOut = true ∧ t.keep.ready = false ∧
      (∀ i, (t.key i).cur = 0 ∧ (t.key i).pend = 0) ∧
      (∀ u ∈ Config.memIds, (t.memSt u).lines = [] ∧ (t.memSt u).reqs = []) ∧
      ∀ u ∈ Config.linkIds, (t.linkSt u).ctxs = [] ∧ (t.linkSt u).trackers = []) ∧
  (∀ (s : State) w, s.aon.vaultAt = some w →
    (s.now < w + 3000000000 → exec .vaultExpiry s = .next s) ∧
    (w + 3000000000 ≤ s.now →
      exec .vaultExpiry s = .next { s with aon := { s.aon with vault := [], vaultKey := 0, vaultAt := none } })) ∧
  (∀ (s : State), s.keepLive = true → s.keep.beaten = true → s.keep.beatAt + Config.ms (s.keep.missed + 1) ≤ s.now →
    let b := { s with keep := { s.keep with missed := s.keep.missed + 1 } }
    exec .watchdogPeriodExpiry s = .next (if s.keep.missed < 9 then b else hang b)) ∧
  (∀ (s : State), s.keepLive = true → s.keep.beaten = false → s.keep.startAt + Config.ms 100 ≤ s.now →
    exec .watchdogStartTimeout s = .next (hang s))

/-- DUMP_CONFIG opens the dump ring and keeps the encapsulation key, the trigger mask and the flags, answering the
key's digest. DUMP_START takes a dump at once when nothing waits and the ring has room for its header and first
section, and answers its number and length (11 R367, R370, R374). IMAGE_UPDATE of a copy that passes its checks, the
next in sequence, writes it to the slot not in use and logs it; IMAGE_STATUS answers which slots are valid; LOG_READ
writes whole sectors from the first asked for (14 R444, R447, R450, R452). Completes: dumpConfig, dumpStart,
imageUpdate, imageStatus, logRead. -/
def Obligations.DumpImageAndLogCommandsRun : Prop :=
  (∀ q e rc inp (s : State), Starts 0x1120 q e rc s →
    let h := opnd e 0 4
    let kib := opnd e 4 4
    let mask := opnd e 17 1
    let flags := opnd e 18 1
    let o := s.obj (handleIdx h)
    h ≠ 0 → o.cls = 4 → o.part = 0xFF → mask < 32 → flags < 4 → 2048 ≤ kib → kib ≤ o.tiles * 8 →
    let payer := accPart s { q := q } (opnd e 8 4)
    objAccess s payer (opnd e 8 4) (opnd e 12 5) 1568 false = 0 → MeterFits s payer 5 1568 →
    ∃ t, exec (.dumpConfig q e rc inp) s = .next t ∧ Completed q e (sha384 (fit 1568 inp)) s t ∧
      t.bare = { s.bare.metered payer 5 1568 with
        rings := tset s.rings (handleIdx h) { handle := handleIdx h, size := 1024 * kib }
        dump := { s.dump with
          ring := some (handleIdx h), ek := fit 1568 inp, mask := BitVec.ofNat 8 mask, flags := BitVec.ofNat 8 flags } }) ∧
  (∀ q e rc inp (s : State), Starts 0x1121 q e rc s →
    ∀ r, s.dump.ring = some r → s.dump.mask.getLsbD 0 = true → s.dump.armed = none → canDraw s 0 = true → (tfind s.rings r).isSome = true →
    let room := ringRoom (tget {} s.rings r)
    1704 + sectionLen s ⟨0, 1, 0xFF, Config.mirrorBytes 0 s.now⟩ ≤ room / 16 * 16 →
    ∃ t b len u, Began q e inp s t b ∧
      let a := dumpTrigger 1 { b with dump := { s.dump with armed := none } }
      takeDump { a with dump := { a.dump with unreachable := s.dump.unreachable } } = some (s.dump.num, len, u) ∧
      exec (.dumpStart q e rc inp) s = .next (done t (le 4 s.dump.num ++ le 8 len) { u with dump := { u.dump with armed := none } })) ∧
  (∀ q e rc inp (s : State), Starts 0x1401 q e rc s →
    let h := opnd e 0 4
    let n := opnd e 12 4
    let copy := fit n inp
    let i := imageOf copy
    let slot := 1 - s.aon.slot
    let payer := accPart s { q := q } h
    16384 ≤ n → n ≤ 2 ^ 20 → objAccess s payer h (opnd e 4 5) n false = 0 → MeterFits s payer 5 n → imageCheck s.aon copy = 0 →
    i.seq = s.keep.imageSeq + 1 →
    ∃ t b, Began q e inp s t b ∧
      exec (.imageUpdate q e rc inp) s = .next (done t (le 1 slot ++ le 4 i.seq)
        (logEntry 0x07 (le 1 slot ++ zeros 3 ++ le 4 i.seq ++ i.digest.take 32)
          { b.metered payer 5 n with flash := { s.flash with images := tset s.flash.images slot copy, failed := tdel s.flash.failed slot } }))) ∧
  (∀ q e rc inp (s : State), Starts 0x1402 q e rc s →
    let one (i : Nat) : Bytes :=
      le 1 (b2n (slotValid s i) 0) ++ le 1 (b2n (tfind s.flash.failed i).isSome 0) ++ le 4 (fld (tget [] s.flash.images i) 8 4)
    ∃ t, exec (.imageStatus q e rc inp) s = .next t ∧ Completed q e (le 1 s.aon.slot ++ one 0 ++ one 1) s t ∧ t.bare = s.bare) ∧
  (∀ q e rc inp (s : State), Starts 0x1403 q e rc s →
    let first := opnd e 0 8
    let h := opnd e 12 4
    let secs := s.flash.sectors.filter fun x => decide (first ≤ x.1) && decide (x.1 < first + opnd e 8 4)
    let bytes := (secs.map fun x => sectorBytes x.1 x.2).flatten
    let payer := accPart s { q := q } h
    (tfind s.flash.sectors first).isSome = true → objAccess s payer h (opnd e 16 5) bytes.length true = 0 → MeterFits s payer 4 bytes.length →
    ∃ t, exec (.logRead q e rc inp) s = .next t ∧
      Completed q e (le 4 secs.length ++ le 8 ((s.flash.sectors.getLast?.map (·.1)).getD 0)) s t ∧
      t.bare = s.bare.metered payer 4 bytes.length ∧
      Out.objWrite h (opnd e 16 5) bytes ∈ t.out)

/-! ### Life cycle, counters, trace and clocks (12, 13, 14) -/

/-- LC_NONCE answers the chip nonce, drawing one first when there is none. LC_STATUS answers the status word.
LC_TRANSITION of a request that passes its checks completes at STEP1 and hands the block to the sequencer; DEBUG_OPEN
of one that passes completes and reopens the keep with debug open (12 R380 to R382, R391, R394). Completes: lcNonce,
lcStatus, lcTransition, debugOpen. -/
def Obligations.LifeCycleCommandsRun : Prop :=
  (∀ q e rc inp (s : State), Starts 0x1201 q e rc s →
    (∀ n, s.keep.chipNonce = some n → ∃ t, exec (.lcNonce q e rc inp) s = .next t ∧ Completed q e n s t ∧ t.bare = s.bare) ∧
    (s.keep.chipNonce = none → canDraw s 1 = true →
      let g := drbgMany 1 s.keep.drbg1
      ∃ t, exec (.lcNonce q e rc inp) s = .next t ∧ Completed q e (g.1.take 32) s t ∧
        t.bare = { s.bare with keep := { s.bare.keep with chipNonce := some (g.1.take 32), drbg1 := g.2 } })) ∧
  (∀ q e rc inp (s : State), Starts 0x1203 q e rc s →
    ∃ t, exec (.lcStatus q e rc inp) s = .next t ∧ Completed q e (le 8 (lcStatus s).toNat) s t ∧ t.bare = s.bare) ∧
  (∀ q e rc inp (s : State), Starts 0x1202 q e rc s →
    let n := opnd e 10 2
    let h := opnd e 0 4
    let payer := accPart s { q := q } h
    ∀ r en, objAccess s payer h (opnd e 4 5) n false = 0 → MeterFits s payer 5 n → lcParse (fit n inp) = some r →
    lcAuthorityOk s 2 r = true → r.sig.ok r.sig.dual.payload = true → lcFieldsOk s r = true → lcEntry s.aon r.target = some en →
    ∃ t b, Began q e inp s t b ∧
      let c := renewNonce (scratchOut false (fit n inp) (b.metered payer 5 n))
      exec (.lcTransition q e rc inp) s = .next (lcHold r.target (done t (le 1 en) (lcStep1 r en c))) ∧
      (lcHold r.target (done t (le 1 en) (lcStep1 r en c))).aon.phase = 6) ∧
  (∀ q e rc inp (s : State), Starts 0x1204 q e rc s →
    let n := opnd e 10 2
    let h := opnd e 0 4
    let payer := accPart s { q := q } h
    ∀ r, objAccess s payer h (opnd e 4 5) n false = 0 → MeterFits s payer 5 n → lcParse (fit n inp) = some r →
    lcAuthorityOk s 3 r = true → r.sig.ok r.sig.dual.payload = true → lcFieldsOk s r = true →
    ∃ t b, Began q e inp s t b ∧
      let c := renewNonce (scratchOut false (fit n inp) (b.metered payer 5 n))
      exec (.debugOpen q e rc inp) s = .next (debugReopen (done t [] c)) ∧ (debugReopen (done t [] c)).aon.debugOpen = true)

/-- The sequencer's wipe and burns end in a cold reset when the row reads back, and otherwise in a retry. The first
open of a memory-test segment wipes the block and closes every station. A request at the port is checked as a
command's is. A token that matches burns its bit, wipes, and enters Maker-Test; one that does not is counted, and
after three none is taken. A repair record is kept while its spare is free (12 R382 to R390, R393). Completes:
lcTransitionSequence, testSessionStart, tapToken, tapLcRequest, repairRecordBurn. -/
def Obligations.LifeCycleRowsAct : Prop :=
  (∀ ok (s : State) en v, s.aon.phase = 6 → s.aon.retries < 4 → inProgress s.aon = some (en, v) →
    let t := s.aon.target
    let a := burnEntry en 0x20 (wipe true s)
    let b := burnEntry en 0x40 (burnEntry en (BitVec.ofNat 64 (t % 16 * 2 ^ 12)) { a with aon := edgeFuses (lcCode a.aon) t a.aon })
    let same := ((tget 0 b.aon.progress en).extractLsb' 12 4).toNat == t
    (ok && same → exec (.lcTransitionSequence ok) s = .next (coldReset 1 (burnEntry en 0x80 b))) ∧
    ((ok && same) = false → exec (.lcTransitionSequence ok) s = .next { b with aon := { b.aon with retries := b.aon.retries + 1 } })) ∧
  (∀ seg (s : State), (s.aon.phase = 1 ∨ s.aon.phase = 7) → s.aon.testSession = false → segmentOpens (lcCode s.aon) seg.toNat = true →
    ∃ t, exec (.testSessionStart seg) s = .next t ∧ t.aon.testSession = true ∧ t.keep.portsOpen = false ∧ t.keys = [] ∧ t.objs = [] ∧
      ∀ u ∈ stationIds, (t.port u).opened = false) ∧
  (∀ seg (s : State), (s.aon.testSession = true ∨ segmentOpens (lcCode s.aon) seg.toNat = false) →
    exec (.testSessionStart seg) s = .next s) ∧
  (∀ idx token (s : State), (s.aon.phase = 1 ∨ s.aon.phase = 7) → (lcCode s.aon = 1 ∨ lcCode s.aon = 5) →
    let d := (sha384 (ascii "yk3 token" ++ fit 32 s.aon.ueid ++ le 32 token.toNat)).take 32
    (s.aon.tokenFails < 3 → s.aon.tokens[idx.toNat]? = some d → s.aon.tokensUsed.getLsbD idx.toNat = false →
      ∃ t, exec (.tapToken idx token) s = .next t ∧ t.aon.tokensUsed = s.aon.tokensUsed ||| (1#16 <<< idx.toNat) ∧
        t.aon.testFrom = some (lcCode s.aon) ∧ t.keys = [] ∧ t.objs = []) ∧
    (s.aon.tokenFails < 3 → (s.aon.tokens[idx.toNat]? ≠ some d ∨ s.aon.tokensUsed.getLsbD idx.toNat = true) →
      exec (.tapToken idx token) s = .next { s with aon := { s.aon with tokenFails := s.aon.tokenFails + 1 } }) ∧
    (3 ≤ s.aon.tokenFails → exec (.tapToken idx token) s = .next s)) ∧
  (∀ bytes (s : State), tapUp s.aon = true → (lcCode s.aon = 1 ∨ lcCode s.aon = 5) →
    let n := ofLe (cut 0 4 bytes)
    let req := (bytes.drop 4).take n
    (∀ r en u, req.length = n → lcCheck 2 req (scratchOut false req s) = (0, some (r, en), u) →
      exec (.tapLcRequest bytes) s = .next (lcHold r.target (lcStep1 r en { u with out := .data (le 2 0) :: u.out }))) ∧
    (∀ code u, req.length = n → lcCheck 2 req (scratchOut false req s) = (code, none, u) →
      exec (.tapLcRequest bytes) s = .next { u with out := .data (le 2 code) :: u.out }) ∧
    (req.length < n → exec (.tapLcRequest bytes) s = .next { s with out := .data (le 2 0x0B) :: s.out })) ∧
  (∀ r columns (s : State), s.aon.testSession = true → recColumn r < columns → s.aon.repairs.length < 4096 →
    (s.aon.repairs.any fun x => recValid x && recMacro x == recMacro r && recSpare x == recSpare r) = false →
    exec (.repairRecordBurn r columns) s = .next { s with aon := { s.aon with
      repairs := s.aon.repairs ++ [r &&& 0xFFF0FFFF] } })

/-- COUNTER_CLEAR clears the classes of its mask in the units it names, and stamps them. PROFILE_BIND binds a free set
to a queue, opening its ring, and releases a bound one. TRACE_CONFIG puts the sources, mask and filters it gives in
force. TRACE_RING opens the ring of the caller's partition (13 R398, R406, R412, R416, R417). Completes: counterClear,
profileBind, traceConfig, traceRing. -/
def Obligations.CountersProfilesAndTraceAreConfigured : Prop :=
  (∀ q e rc inp (s : State), Starts 0x1301 q e rc s →
    let u := opnd e 0 1
    let m := opnd e 1 1
    m ≠ 0 → m < 8 → (u = 0xFF ∨ isUnit u = true) →
    ∃ t b, Began q e inp s t b ∧
      let us := if u = 0xFF then unitIds else [u]
      exec (.counterClear q e rc inp) s = .next (done t (le 8 s.now) (each us (clearUnit m) b)) ∧
      ∀ v, v ∈ us → (tget {} (each us (clearUnit m) b).ctrs v).clearTime = s.now ∧
        (m % 2 = 1 → (tget {} (each us (clearUnit m) b).ctrs v).sticky = 0) ∧
        (m / 4 % 2 = 1 → (tget {} (each us (clearUnit m) b).ctrs v).faults = [])) ∧
  (∀ q e rc inp (s : State), Starts 0x1310 q e rc s →
    let set := opnd e 0 1
    let qq := opnd e 2 2
    let h := opnd e 12 4
    let kib := opnd e 16 4
    let c := (s.queue q).ctx
    set < 16 → qq < 1024 → (s.queue qq).state ≠ 0 → (isOperatorCtx (s.ctx c) = true ∨ (s.queue qq).ctx = c) →
    (opnd e 1 1 = 0 → tfind s.profs set = none → (∀ p ∈ s.profs, p.2.queue ≠ some qq) → h ≠ 0 → handleLive s h = true →
      4 ≤ kib → kib ≤ (s.obj (handleIdx h)).tiles * 8 →
      ∃ t b, Began q e inp s t b ∧
        let u := openRing (handleIdx h) kib { b with profs := tset s.profs set {
            queue := some qq, layer := BitVec.ofNat 16 (opnd e 4 2), layerMask := BitVec.ofNat 16 (opnd e 6 2),
            oper := BitVec.ofNat 16 (opnd e 8 2), operMask := BitVec.ofNat 16 (opnd e 10 2), ring := handleIdx h } }
        exec (.profileBind q e rc inp) s = .next (done t [] u) ∧
        u.rings = tset s.rings (handleIdx h) { handle := handleIdx h, size := 1024 * kib } ∧
        (qq ≠ q → Completed q e [] s (done t [] u))) ∧
    (opnd e 1 1 = 1 → (tget {} s.profs set).queue = some qq →
      ∃ t b, Began q e inp s t b ∧ exec (.profileBind q e rc inp) s = .next (done t [] (unbindProf set b)))) ∧
  (∀ q e rc inp (s : State), Starts 0x1320 q e rc s → opnd e 0 2 < 512 → opnd e 2 1 < 2 →
    ∃ t b, Began q e inp s t b ∧
      exec (.traceConfig q e rc inp) s = .next (done t [] { b with trace := { b.trace with
        mask := BitVec.ofNat 16 (opnd e 0 2), on := opnd e 2 1 == 1, parts := BitVec.ofNat 256 (opnd e 4 32),
        layer := BitVec.ofNat 16 (opnd e 36 2), layerMask := BitVec.ofNat 16 (opnd e 38 2),
        oper := BitVec.ofNat 16 (opnd e 40 2), operMask := BitVec.ofNat 16 (opnd e 42 2), since := [] } })) ∧
  (∀ q e rc inp (s : State), Starts 0x1321 q e rc s →
    let h := opnd e 0 4
    let kib := opnd e 4 4
    let p := (s.ctx (s.queue q).ctx).part
    let o := s.obj (handleIdx h)
    h ≠ 0 → handleLive s h = true → o.part = p → (p = 0xFF → o.cls = 4) → (p ≠ 0xFF → (s.key (s.part p).trcSlot).state = 1) →
    64 ≤ kib → kib ≤ o.tiles * 8 →
    ∃ t, exec (.traceRing q e rc inp) s = .next t ∧ Completed q e [] s t ∧
      t.bare = { s.bare with
        rings := tset s.rings (handleIdx h) { handle := handleIdx h, size := 1024 * kib }
        parts := tset s.parts p { s.part p with traceRing := some (handleIdx h) } })

/-- A dump trigger whose cause is present latches the mirrors, once; a source that does not answer is left out of the
armed dump. The oldest 512 trace records of a source that is due leave it, by owner. A profile boundary closes a
command that has started, or the last one 100 µs after it completed. A ring's owner moves its read offset. The oldest
queued entry reaches the flash log (11 R367, R368, R373; 13 R407, R411, R414; 14 R448). Completes: dumpTrigger,
dumpSourceTimeout, traceDrain, profileBoundary, profileIdleBoundary, ringReadOffsetAdvance, eventLogEntryWritten. -/
def Obligations.DumpTraceProfileAndLogRowsAct : Prop :=
  (∀ k (s : State), s.aon.lockdown = false → triggerCause s k.toNat = true →
    (s.dump.armed = some k.toNat → exec (.dumpTrigger k) s = .next (settleDump s)) ∧
    (s.dump.armed ≠ some k.toNat → exec (.dumpTrigger k) s = .next (settleDump (dumpTrigger k.toNat s)))) ∧
  (∀ k (s : State), (s.aon.lockdown = true ∨ triggerCause s k.toNat = false) → exec (.dumpTrigger k) s = .next s) ∧
  (∀ u (s : State), s.dump.ring.isSome = true → isUnit u = true → s.dump.unreachable.contains u = false →
    exec (.dumpSourceTimeout u) s = .next { s with dump := { s.dump with unreachable := u :: s.dump.unreachable } }) ∧
  (∀ src (s : State),
    let buf := tget [] s.trace.bufs src
    let recs := (buf.take 512).map (·.2)
    let seq := tget 0 s.trace.drains src
    let own (p : Nat) := recs.filter fun r => ofLe (cut 1 1 r) == p
    s.keepLive = true → (512 ≤ buf.length ∨ ∃ r ∈ buf.head?, r.1 + Config.ms 1 ≤ s.now) →
    exec (.traceDrain src) s = .next (each ((List.range 256).filter fun p => recs.any fun r => ofLe (cut 1 1 r) == p)
      (fun p b => traceBlock src seq p (own p) b) { s with trace := { s.trace with
        bufs := tset s.trace.bufs src (buf.drop 512), drains := tset s.trace.drains src (seq + 1) } })) ∧
  (∀ set (s : State), (tget {} s.profs set).next.isSome = true → exec (.profileBoundary set) s = .next (boundary set 0 s)) ∧
  (∀ set (s : State), (tget {} s.profs set).next = none → exec (.profileBoundary set) s = .next s) ∧
  (∀ set (s : State) at_, let p := tget ({} : Prof) s.profs set
    p.doneAt = some at_ → p.next = none → p.seq.isSome = true → at_ + Config.us 100 ≤ s.now →
    exec (.profileIdleBoundary set) s = .next (boundary set 1 s)) ∧
  (∀ ring off (s : State) r, tfind s.rings (handleIdx ring.toNat) = some r → 64 ≤ off.toNat → off.toNat < r.size →
    (∀ d ∈ s.doms, d.2.ring = handleIdx ring.toNat → d.2.outq = []) → (∀ m ∈ s.migs, m.2.ring = handleIdx ring.toNat → m.2.outq = []) →
    let b := { s with rings := tset s.rings (handleIdx ring.toNat) { r with roff := off.toNat } }
    exec (.ringReadOffsetAdvance ring off) s = .next (if s.meter.ring = some (handleIdx ring.toNat) then drainBacklog b else b)) ∧
  (∀ (s : State) en rest i x, s.keepLive = true → s.flash.queue = en :: rest → s.flash.sectors.getLast? = some (i, x) →
    tfind s.flash.sectors i = some x → x.closed = none →
    x.entries.length < 766 →
    exec .eventLogEntryWritten s = .next { s with flash := { s.flash with
      queue := rest, logSeq := s.flash.logSeq + 1,
      sectors := tupd {} s.flash.sectors i fun x => { x with entries := x.entries ++ [le 8 s.flash.logSeq ++ en] } } })

/-- The divider that was sent is taken on a switch. The current limit ends boost at once, and its release lets it come
back. A valid reading replaces its sensor's, an invalid one stays, and a sensor that stays invalid counts as 115 °C;
the thresholds judge either. Step-down ends after 1 ms at or below 106 °C. A spent budget bars boost until a bin
leaves the window (01 R20, R31; 10 R345; 14 R430, R432, R434, R435). Completes: cipherClockSwitch, currentLimitAssert,
currentLimitRelease, junctionReading, sensorInvalidTimeout, stepDownExit, boostBudgetSpent, boostBudgetBinEnd. -/
def Obligations.ClocksFollowLimitsReadingsAndBudget : Prop :=
  (∀ (s : State) d, s.clk.next = some d → exec .cipherClockSwitch s = .next { s with clk := { s.clk with
    divider := d, next := none, boost := d == 4, ilimEnded := s.clk.ilimEnded && d != 4 } }) ∧
  (∀ (s : State), s.clk.ilim = false →
    ∃ t, exec .currentLimitAssert s = .next t ∧ t.clk.ilim = true ∧ t.clk.boost = false ∧
      t.clk.divider = if s.clk.boost then 5 else s.clk.divider) ∧
  (∀ (s : State), s.clk.ilim = true →
    ∃ t, exec .currentLimitRelease s = .next t ∧ t.clk.ilim = false ∧ t.clk.boost = s.clk.boost ∧ t.clk.divider = s.clk.divider) ∧
  (∀ die raw valid (s : State), die < Config.dies → s.aon.phase ≠ 0 →
    ∃ v, exec (.junctionReading die raw valid) s = .next (judge die { s with clk := { s.clk with sensors := v } }) ∧
      (∀ i, i < 4 → tget 0 v (4 * die + i) = if valid.getLsbD i then raw.extractLsb' (16 * i) 16 else tget 0 s.clk.sensors (4 * die + i)) ∧
      ∀ j, (∀ i, i < 4 → j ≠ 4 * die + i) → tget 0 v j = tget 0 s.clk.sensors j) ∧
  (∀ die k (s : State), die < Config.dies → k < 4 → s.aon.phase ≠ 0 → exec (.sensorInvalidTimeout die k) s =
    .next (judge die { s with clk := { s.clk with sensors := tset s.clk.sensors (4 * die + k) (BitVec.ofInt 16 (16 * 115)) } })) ∧
  (∀ (s : State) w, s.clk.stepDown = true → s.clk.coolSince = some w → w + Config.ms 1 ≤ s.now →
    ∃ t, exec .stepDownExit s = .next t ∧ t.clk.stepDown = false ∧ t.clk.coolSince = none) ∧
  (∀ (s : State), Config.ms 200 ≤ s.clk.bins.sum → s.clk.spent = false →
    ∃ t, exec .boostBudgetSpent s = .next t ∧ t.clk.spent = true ∧ t.clk.next ≠ some 4 ∧ t.clk.bins = s.clk.bins) ∧
  (∀ (s : State), s.aon.phase ≠ 0 → s.clk.binAt + Config.ms 10 ≤ s.now →
    ∃ t, exec .boostBudgetBinEnd s = .next t ∧ t.clk.bins = (0 :: s.clk.bins).take 201 ∧ t.clk.binAt = s.clk.binAt + Config.ms 10 ∧
      t.clk.spent = decide (Config.ms 200 ≤ ((0 :: s.clk.bins).take 201).sum))
end

