-- ==== Sys2Proof/Decode.lean ====
section
/-! DEFINITION. The word decoder of the command table.  Every row of spec/opcode_table.json has an empty list of
fields: no row is spelled by bits, so no word spells a command (log 6). -/

namespace Sys2Proof

/-- The command that a word of the table spells: none, since no row of the table gives bits. -/
def decodeTableWord (_nbits _w : Nat) : Option Instr := none

end Sys2Proof
end

