-- ==== Sys2Proof/Laws/Tab.lean ====
section
/-! SUPPORT. Sparse tables: reading after writing, and every operation on a table keeps its indices strictly rising. -/

namespace Sys2Proof.Machine
open Sys2Proof

variable {α : Type}

@[simp] theorem tfind_nil (k : Nat) : tfind ([] : Tab α) k = none := rfl
@[simp] theorem tget_nil (d : α) (k : Nat) : tget d [] k = d := rfl

theorem tfind_tset_same (t : Tab α) (k : Nat) (v : α) : tfind (tset t k v) k = some v := by
  induction t with
  | nil => simp [tset, tfind]
  | cons x t ih =>
    obtain ⟨i, w⟩ := x
    unfold tset
    split
    · simp [tfind]
    · split
      · simp [tfind]
      · rename_i h; simp [tfind, Ne.symm h, ih]

theorem mem_tset {t : Tab α} {k : Nat} {v : α} {p : Nat × α} (h : p ∈ tset t k v) : p = (k, v) ∨ p ∈ t := by
  induction t with
  | nil => exact .inl (List.mem_singleton.mp h)
  | cons x t ih =>
    obtain ⟨i, w⟩ := x
    unfold tset at h
    split at h
    · exact (List.mem_cons.mp h)
    · split at h
      · exact (List.mem_cons.mp h).imp_right (List.mem_cons_of_mem _)
      · rcases List.mem_cons.mp h with h | h
        · exact .inr (h ▸ List.mem_cons_self ..)
        · exact (ih h).imp_right (List.mem_cons_of_mem _)

theorem tset_tset (t : Tab α) (k : Nat) (v w : α) : tset (tset t k v) k w = tset t k w := by
  induction t with
  | nil => simp [tset]
  | cons x t ih =>
    obtain ⟨i, y⟩ := x
    by_cases h1 : k < i
    · simp [tset, h1]
    · by_cases h2 : k = i
      · simp [tset, h2]
      · simp [tset, h1, h2, ih]

theorem tfind_tset_other (t : Tab α) (k j : Nat) (v : α) (h : j ≠ k) : tfind (tset t k v) j = tfind t j := by
  induction t with
  | nil => simp [tset, tfind, Ne.symm h]
  | cons x t ih =>
    obtain ⟨i, w⟩ := x
    unfold tset
    split
    · simp [tfind, Ne.symm h]
    · split
      · rename_i e; subst e; simp [tfind, Ne.symm h]
      · simp [tfind, ih]

@[simp] theorem tget_tset_same (d : α) (t : Tab α) (k : Nat) (v : α) : tget d (tset t k v) k = v := by
  simp [tget, tfind_tset_same]
theorem tget_tset_other (d : α) (t : Tab α) (k j : Nat) (v : α) (h : j ≠ k) : tget d (tset t k v) j = tget d t j := by
  simp [tget, tfind_tset_other t k j v h]
@[simp] theorem tget_tupd_same (d : α) (t : Tab α) (k : Nat) (f : α → α) : tget d (tupd d t k f) k = f (tget d t k) := by
  simp [tupd]
theorem tget_tupd_other (d : α) (t : Tab α) (k j : Nat) (f : α → α) (h : j ≠ k) : tget d (tupd d t k f) j = tget d t j := by
  simp [tupd, tget_tset_other d t k j _ h]

theorem tfind_tmap (f : Nat → α → α) (t : Tab α) (k : Nat) : tfind (tmap f t) k = (tfind t k).map (f k) := by
  induction t with
  | nil => rfl
  | cons x t ih =>
    obtain ⟨i, w⟩ := x
    simp only [tmap, List.map_cons, tfind] at ih ⊢
    split
    · rename_i h; subst h; rfl
    · exact ih

/-- Indices above a bound. -/
def above (b : Nat) (t : Tab α) : Prop := ∀ x ∈ t, b < x.1

theorem sorted_cons_iff (i : Nat) (w : α) (t : Tab α) : sorted ((i, w) :: t) = true ↔ above i t ∧ sorted t = true := by
  induction t generalizing i w with
  | nil => simp [sorted, above]
  | cons y t ih =>
    obtain ⟨j, v⟩ := y
    simp only [sorted, Bool.and_eq_true, decide_eq_true_eq]
    constructor
    · rintro ⟨hij, hs⟩
      refine ⟨?_, hs⟩
      intro x hx
      rcases List.mem_cons.mp hx with rfl | hx
      · exact hij
      · exact Nat.lt_trans hij ((ih j v).mp hs |>.1 x hx)
    · rintro ⟨ha, hs⟩
      exact ⟨ha (j, v) (List.mem_cons_self ..), hs⟩

theorem above_tset {b k : Nat} {v : α} {t : Tab α} (h : above b t) (hk : b < k) : above b (tset t k v) := by
  induction t with
  | nil => intro x hx; simp [tset] at hx; subst hx; exact hk
  | cons y t ih =>
    obtain ⟨i, w⟩ := y
    have hi : b < i := h (i, w) (List.mem_cons_self ..)
    have ht : above b t := fun x hx => h x (List.mem_cons_of_mem _ hx)
    unfold tset
    split
    · intro x hx
      rcases List.mem_cons.mp hx with rfl | hx
      · exact hk
      · exact h x hx
    · split
      · intro x hx
        rcases List.mem_cons.mp hx with rfl | hx
        · exact hk
        · exact ht x hx
      · intro x hx
        rcases List.mem_cons.mp hx with rfl | hx
        · exact hi
        · exact ih ht x hx

theorem sorted_tset {t : Tab α} {k : Nat} {v : α} (h : sorted t = true) : sorted (tset t k v) = true := by
  induction t with
  | nil => rfl
  | cons y t ih =>
    obtain ⟨i, w⟩ := y
    obtain ⟨ha, hs⟩ := (sorted_cons_iff i w t).mp h
    unfold tset
    split
    · rename_i hk
      refine (sorted_cons_iff ..).mpr ⟨?_, h⟩
      intro x hx
      rcases List.mem_cons.mp hx with rfl | hx
      · exact hk
      · exact Nat.lt_trans hk (ha x hx)
    · split
      · rename_i e; subst e; exact (sorted_cons_iff ..).mpr ⟨ha, hs⟩
      · exact (sorted_cons_iff ..).mpr ⟨above_tset ha (by omega), ih hs⟩

theorem sorted_tupd {d : α} {t : Tab α} {k : Nat} {f : α → α} (h : sorted t = true) : sorted (tupd d t k f) = true :=
  sorted_tset h

theorem sorted_sublist {t u : Tab α} (h : sorted t = true) (hu : u.Sublist t) : sorted u = true := by
  induction hu with
  | slnil => rfl
  | cons x _ ih => obtain ⟨i, w⟩ := x; exact ih ((sorted_cons_iff ..).mp h).2
  | cons_cons x hs ih =>
    obtain ⟨i, w⟩ := x
    obtain ⟨ha, hr⟩ := (sorted_cons_iff ..).mp h
    exact (sorted_cons_iff ..).mpr ⟨fun y hy => ha y (hs.subset hy), ih hr⟩

theorem sorted_filter {p : Nat × α → Bool} {t : Tab α} (h : sorted t = true) : sorted (t.filter p) = true :=
  sorted_sublist h List.filter_sublist

theorem tdel_sublist (t : Tab α) (k : Nat) : (tdel t k).Sublist t := by
  induction t with
  | nil => exact List.Sublist.slnil
  | cons x t ih =>
    obtain ⟨i, w⟩ := x
    unfold tdel
    split
    · exact List.sublist_cons_self ..
    · exact ih.cons_cons _

theorem sorted_tdel {t : Tab α} {k : Nat} (h : sorted t = true) : sorted (tdel t k) = true :=
  sorted_sublist h (tdel_sublist t k)

theorem sorted_tmap {f : Nat → α → α} {t : Tab α} (h : sorted t = true) : sorted (tmap f t) = true := by
  induction t with
  | nil => rfl
  | cons x t ih =>
    obtain ⟨i, w⟩ := x
    obtain ⟨ha, hs⟩ := (sorted_cons_iff ..).mp h
    refine (sorted_cons_iff ..).mpr ⟨?_, ih hs⟩
    intro y hy
    obtain ⟨z, hz, rfl⟩ := List.mem_map.mp hy
    exact ha z hz

theorem sorted_ite {c : Prop} [Decidable c] {t u : Tab α} (ht : sorted t = true) (hu : sorted u = true) :
    sorted (if c then t else u) = true := by
  split
  · exact ht
  · exact hu

end Sys2Proof.Machine
end

