-- ==== Sys2Proof/Laws/State.lean ====
section
/-! SUPPORT. What each named update leaves of each field of the state: one lemma a field, and reading a record back from the
table it was changed in. -/

namespace Sys2Proof.Machine
open Sys2Proof

variable (s : State) (i j : Nat)

/-! ### `State.onMem` -/

theorem memSt_onMem (i : Nat) (f : MemSt → MemSt) (s : State) : (s.onMem i f).memSt i = f (s.memSt i) := tget_tupd_same ..
theorem memSt_onMem_other (i j : Nat) (f : MemSt → MemSt) (s : State) (h : j ≠ i) : (s.onMem i f).memSt j = s.memSt j := tget_tupd_other _ _ _ _ _ h
@[simp] theorem onMem_mem (f : MemSt → MemSt) : (s.onMem i f).mem = tupd {} s.mem i f := rfl
@[simp] theorem onMem_aon (f : MemSt → MemSt) : (s.onMem i f).aon = s.aon := rfl
@[simp] theorem onMem_flash (f : MemSt → MemSt) : (s.onMem i f).flash = s.flash := rfl
@[simp] theorem onMem_keep (f : MemSt → MemSt) : (s.onMem i f).keep = s.keep := rfl
@[simp] theorem onMem_clk (f : MemSt → MemSt) : (s.onMem i f).clk = s.clk := rfl
@[simp] theorem onMem_flt (f : MemSt → MemSt) : (s.onMem i f).flt = s.flt := rfl
@[simp] theorem onMem_ctrs (f : MemSt → MemSt) : (s.onMem i f).ctrs = s.ctrs := rfl
@[simp] theorem onMem_link (f : MemSt → MemSt) : (s.onMem i f).link = s.link := rfl
@[simp] theorem onMem_host (f : MemSt → MemSt) : (s.onMem i f).host = s.host := rfl
@[simp] theorem onMem_keys (f : MemSt → MemSt) : (s.onMem i f).keys = s.keys := rfl
@[simp] theorem onMem_parts (f : MemSt → MemSt) : (s.onMem i f).parts = s.parts := rfl
@[simp] theorem onMem_objs (f : MemSt → MemSt) : (s.onMem i f).objs = s.objs := rfl
@[simp] theorem onMem_ctxs (f : MemSt → MemSt) : (s.onMem i f).ctxs = s.ctxs := rfl
@[simp] theorem onMem_queues (f : MemSt → MemSt) : (s.onMem i f).queues = s.queues := rfl
@[simp] theorem onMem_fences (f : MemSt → MemSt) : (s.onMem i f).fences = s.fences := rfl
@[simp] theorem onMem_taken (f : MemSt → MemSt) : (s.onMem i f).taken = s.taken := rfl
@[simp] theorem onMem_accs (f : MemSt → MemSt) : (s.onMem i f).accs = s.accs := rfl
@[simp] theorem onMem_arrivals (f : MemSt → MemSt) : (s.onMem i f).arrivals = s.arrivals := rfl
@[simp] theorem onMem_users (f : MemSt → MemSt) : (s.onMem i f).users = s.users := rfl
@[simp] theorem onMem_opTab (f : MemSt → MemSt) : (s.onMem i f).opTab = s.opTab := rfl
@[simp] theorem onMem_nextOp (f : MemSt → MemSt) : (s.onMem i f).nextOp = s.nextOp := rfl
@[simp] theorem onMem_epoch (f : MemSt → MemSt) : (s.onMem i f).epoch = s.epoch := rfl
@[simp] theorem onMem_epochDraining (f : MemSt → MemSt) : (s.onMem i f).epochDraining = s.epochDraining := rfl
@[simp] theorem onMem_epochAt (f : MemSt → MemSt) : (s.onMem i f).epochAt = s.epochAt := rfl
@[simp] theorem onMem_slices (f : MemSt → MemSt) : (s.onMem i f).slices = s.slices := rfl
@[simp] theorem onMem_oldSlices (f : MemSt → MemSt) : (s.onMem i f).oldSlices = s.oldSlices := rfl
@[simp] theorem onMem_doms (f : MemSt → MemSt) : (s.onMem i f).doms = s.doms := rfl
@[simp] theorem onMem_migs (f : MemSt → MemSt) : (s.onMem i f).migs = s.migs := rfl
@[simp] theorem onMem_handoffs (f : MemSt → MemSt) : (s.onMem i f).handoffs = s.handoffs := rfl
@[simp] theorem onMem_copies (f : MemSt → MemSt) : (s.onMem i f).copies = s.copies := rfl
@[simp] theorem onMem_backing (f : MemSt → MemSt) : (s.onMem i f).backing = s.backing := rfl
@[simp] theorem onMem_nextHandoff (f : MemSt → MemSt) : (s.onMem i f).nextHandoff = s.nextHandoff := rfl
@[simp] theorem onMem_rings (f : MemSt → MemSt) : (s.onMem i f).rings = s.rings := rfl
@[simp] theorem onMem_meter (f : MemSt → MemSt) : (s.onMem i f).meter = s.meter := rfl
@[simp] theorem onMem_dump (f : MemSt → MemSt) : (s.onMem i f).dump = s.dump := rfl
@[simp] theorem onMem_profs (f : MemSt → MemSt) : (s.onMem i f).profs = s.profs := rfl
@[simp] theorem onMem_trace (f : MemSt → MemSt) : (s.onMem i f).trace = s.trace := rfl
@[simp] theorem onMem_stop (f : MemSt → MemSt) : (s.onMem i f).stop = s.stop := rfl
@[simp] theorem onMem_cond (f : MemSt → MemSt) : (s.onMem i f).cond = s.cond := rfl
@[simp] theorem onMem_freeSig (f : MemSt → MemSt) : (s.onMem i f).freeSig = s.freeSig := rfl
@[simp] theorem onMem_keepway (f : MemSt → MemSt) : (s.onMem i f).keepway = s.keepway := rfl
@[simp] theorem onMem_out (f : MemSt → MemSt) : (s.onMem i f).out = s.out := rfl
@[simp] theorem onMem_pending (f : MemSt → MemSt) : (s.onMem i f).pending = s.pending := rfl
@[simp] theorem onMem_linkSt (f : MemSt → MemSt) : (s.onMem i f).linkSt j = s.linkSt j := rfl
@[simp] theorem onMem_key (f : MemSt → MemSt) : (s.onMem i f).key j = s.key j := rfl
@[simp] theorem onMem_obj (f : MemSt → MemSt) : (s.onMem i f).obj j = s.obj j := rfl
@[simp] theorem onMem_part (f : MemSt → MemSt) : (s.onMem i f).part j = s.part j := rfl
@[simp] theorem onMem_ctx (f : MemSt → MemSt) : (s.onMem i f).ctx j = s.ctx j := rfl
@[simp] theorem onMem_queue (f : MemSt → MemSt) : (s.onMem i f).queue j = s.queue j := rfl
@[simp] theorem onMem_fence (f : MemSt → MemSt) : (s.onMem i f).fence j = s.fence j := rfl
@[simp] theorem onMem_dom (f : MemSt → MemSt) : (s.onMem i f).dom j = s.dom j := rfl

/-! ### `State.onLink` -/

theorem linkSt_onLink (i : Nat) (f : LinkSt → LinkSt) (s : State) : (s.onLink i f).linkSt i = f (s.linkSt i) := tget_tupd_same ..
theorem linkSt_onLink_other (i j : Nat) (f : LinkSt → LinkSt) (s : State) (h : j ≠ i) : (s.onLink i f).linkSt j = s.linkSt j := tget_tupd_other _ _ _ _ _ h
@[simp] theorem onLink_link (f : LinkSt → LinkSt) : (s.onLink i f).link = tupd {} s.link i f := rfl
@[simp] theorem onLink_aon (f : LinkSt → LinkSt) : (s.onLink i f).aon = s.aon := rfl
@[simp] theorem onLink_flash (f : LinkSt → LinkSt) : (s.onLink i f).flash = s.flash := rfl
@[simp] theorem onLink_keep (f : LinkSt → LinkSt) : (s.onLink i f).keep = s.keep := rfl
@[simp] theorem onLink_clk (f : LinkSt → LinkSt) : (s.onLink i f).clk = s.clk := rfl
@[simp] theorem onLink_flt (f : LinkSt → LinkSt) : (s.onLink i f).flt = s.flt := rfl
@[simp] theorem onLink_ctrs (f : LinkSt → LinkSt) : (s.onLink i f).ctrs = s.ctrs := rfl
@[simp] theorem onLink_mem (f : LinkSt → LinkSt) : (s.onLink i f).mem = s.mem := rfl
@[simp] theorem onLink_host (f : LinkSt → LinkSt) : (s.onLink i f).host = s.host := rfl
@[simp] theorem onLink_keys (f : LinkSt → LinkSt) : (s.onLink i f).keys = s.keys := rfl
@[simp] theorem onLink_parts (f : LinkSt → LinkSt) : (s.onLink i f).parts = s.parts := rfl
@[simp] theorem onLink_objs (f : LinkSt → LinkSt) : (s.onLink i f).objs = s.objs := rfl
@[simp] theorem onLink_ctxs (f : LinkSt → LinkSt) : (s.onLink i f).ctxs = s.ctxs := rfl
@[simp] theorem onLink_queues (f : LinkSt → LinkSt) : (s.onLink i f).queues = s.queues := rfl
@[simp] theorem onLink_fences (f : LinkSt → LinkSt) : (s.onLink i f).fences = s.fences := rfl
@[simp] theorem onLink_taken (f : LinkSt → LinkSt) : (s.onLink i f).taken = s.taken := rfl
@[simp] theorem onLink_accs (f : LinkSt → LinkSt) : (s.onLink i f).accs = s.accs := rfl
@[simp] theorem onLink_arrivals (f : LinkSt → LinkSt) : (s.onLink i f).arrivals = s.arrivals := rfl
@[simp] theorem onLink_users (f : LinkSt → LinkSt) : (s.onLink i f).users = s.users := rfl
@[simp] theorem onLink_opTab (f : LinkSt → LinkSt) : (s.onLink i f).opTab = s.opTab := rfl
@[simp] theorem onLink_nextOp (f : LinkSt → LinkSt) : (s.onLink i f).nextOp = s.nextOp := rfl
@[simp] theorem onLink_epoch (f : LinkSt → LinkSt) : (s.onLink i f).epoch = s.epoch := rfl
@[simp] theorem onLink_epochDraining (f : LinkSt → LinkSt) : (s.onLink i f).epochDraining = s.epochDraining := rfl
@[simp] theorem onLink_epochAt (f : LinkSt → LinkSt) : (s.onLink i f).epochAt = s.epochAt := rfl
@[simp] theorem onLink_slices (f : LinkSt → LinkSt) : (s.onLink i f).slices = s.slices := rfl
@[simp] theorem onLink_oldSlices (f : LinkSt → LinkSt) : (s.onLink i f).oldSlices = s.oldSlices := rfl
@[simp] theorem onLink_doms (f : LinkSt → LinkSt) : (s.onLink i f).doms = s.doms := rfl
@[simp] theorem onLink_migs (f : LinkSt → LinkSt) : (s.onLink i f).migs = s.migs := rfl
@[simp] theorem onLink_handoffs (f : LinkSt → LinkSt) : (s.onLink i f).handoffs = s.handoffs := rfl
@[simp] theorem onLink_copies (f : LinkSt → LinkSt) : (s.onLink i f).copies = s.copies := rfl
@[simp] theorem onLink_backing (f : LinkSt → LinkSt) : (s.onLink i f).backing = s.backing := rfl
@[simp] theorem onLink_nextHandoff (f : LinkSt → LinkSt) : (s.onLink i f).nextHandoff = s.nextHandoff := rfl
@[simp] theorem onLink_rings (f : LinkSt → LinkSt) : (s.onLink i f).rings = s.rings := rfl
@[simp] theorem onLink_meter (f : LinkSt → LinkSt) : (s.onLink i f).meter = s.meter := rfl
@[simp] theorem onLink_dump (f : LinkSt → LinkSt) : (s.onLink i f).dump = s.dump := rfl
@[simp] theorem onLink_profs (f : LinkSt → LinkSt) : (s.onLink i f).profs = s.profs := rfl
@[simp] theorem onLink_trace (f : LinkSt → LinkSt) : (s.onLink i f).trace = s.trace := rfl
@[simp] theorem onLink_stop (f : LinkSt → LinkSt) : (s.onLink i f).stop = s.stop := rfl
@[simp] theorem onLink_cond (f : LinkSt → LinkSt) : (s.onLink i f).cond = s.cond := rfl
@[simp] theorem onLink_freeSig (f : LinkSt → LinkSt) : (s.onLink i f).freeSig = s.freeSig := rfl
@[simp] theorem onLink_keepway (f : LinkSt → LinkSt) : (s.onLink i f).keepway = s.keepway := rfl
@[simp] theorem onLink_out (f : LinkSt → LinkSt) : (s.onLink i f).out = s.out := rfl
@[simp] theorem onLink_pending (f : LinkSt → LinkSt) : (s.onLink i f).pending = s.pending := rfl
@[simp] theorem onLink_memSt (f : LinkSt → LinkSt) : (s.onLink i f).memSt j = s.memSt j := rfl
@[simp] theorem onLink_key (f : LinkSt → LinkSt) : (s.onLink i f).key j = s.key j := rfl
@[simp] theorem onLink_obj (f : LinkSt → LinkSt) : (s.onLink i f).obj j = s.obj j := rfl
@[simp] theorem onLink_part (f : LinkSt → LinkSt) : (s.onLink i f).part j = s.part j := rfl
@[simp] theorem onLink_ctx (f : LinkSt → LinkSt) : (s.onLink i f).ctx j = s.ctx j := rfl
@[simp] theorem onLink_queue (f : LinkSt → LinkSt) : (s.onLink i f).queue j = s.queue j := rfl
@[simp] theorem onLink_fence (f : LinkSt → LinkSt) : (s.onLink i f).fence j = s.fence j := rfl
@[simp] theorem onLink_dom (f : LinkSt → LinkSt) : (s.onLink i f).dom j = s.dom j := rfl

/-! ### `State.onKey` -/

theorem key_onKey (i : Nat) (f : KeySlot → KeySlot) (s : State) : (s.onKey i f).key i = f (s.key i) := tget_tupd_same ..
theorem key_onKey_other (i j : Nat) (f : KeySlot → KeySlot) (s : State) (h : j ≠ i) : (s.onKey i f).key j = s.key j := tget_tupd_other _ _ _ _ _ h
@[simp] theorem onKey_keys (f : KeySlot → KeySlot) : (s.onKey i f).keys = tupd {} s.keys i f := rfl
@[simp] theorem onKey_aon (f : KeySlot → KeySlot) : (s.onKey i f).aon = s.aon := rfl
@[simp] theorem onKey_flash (f : KeySlot → KeySlot) : (s.onKey i f).flash = s.flash := rfl
@[simp] theorem onKey_keep (f : KeySlot → KeySlot) : (s.onKey i f).keep = s.keep := rfl
@[simp] theorem onKey_clk (f : KeySlot → KeySlot) : (s.onKey i f).clk = s.clk := rfl
@[simp] theorem onKey_flt (f : KeySlot → KeySlot) : (s.onKey i f).flt = s.flt := rfl
@[simp] theorem onKey_ctrs (f : KeySlot → KeySlot) : (s.onKey i f).ctrs = s.ctrs := rfl
@[simp] theorem onKey_mem (f : KeySlot → KeySlot) : (s.onKey i f).mem = s.mem := rfl
@[simp] theorem onKey_link (f : KeySlot → KeySlot) : (s.onKey i f).link = s.link := rfl
@[simp] theorem onKey_host (f : KeySlot → KeySlot) : (s.onKey i f).host = s.host := rfl
@[simp] theorem onKey_parts (f : KeySlot → KeySlot) : (s.onKey i f).parts = s.parts := rfl
@[simp] theorem onKey_objs (f : KeySlot → KeySlot) : (s.onKey i f).objs = s.objs := rfl
@[simp] theorem onKey_ctxs (f : KeySlot → KeySlot) : (s.onKey i f).ctxs = s.ctxs := rfl
@[simp] theorem onKey_queues (f : KeySlot → KeySlot) : (s.onKey i f).queues = s.queues := rfl
@[simp] theorem onKey_fences (f : KeySlot → KeySlot) : (s.onKey i f).fences = s.fences := rfl
@[simp] theorem onKey_taken (f : KeySlot → KeySlot) : (s.onKey i f).taken = s.taken := rfl
@[simp] theorem onKey_accs (f : KeySlot → KeySlot) : (s.onKey i f).accs = s.accs := rfl
@[simp] theorem onKey_arrivals (f : KeySlot → KeySlot) : (s.onKey i f).arrivals = s.arrivals := rfl
@[simp] theorem onKey_users (f : KeySlot → KeySlot) : (s.onKey i f).users = s.users := rfl
@[simp] theorem onKey_opTab (f : KeySlot → KeySlot) : (s.onKey i f).opTab = s.opTab := rfl
@[simp] theorem onKey_nextOp (f : KeySlot → KeySlot) : (s.onKey i f).nextOp = s.nextOp := rfl
@[simp] theorem onKey_epoch (f : KeySlot → KeySlot) : (s.onKey i f).epoch = s.epoch := rfl
@[simp] theorem onKey_epochDraining (f : KeySlot → KeySlot) : (s.onKey i f).epochDraining = s.epochDraining := rfl
@[simp] theorem onKey_epochAt (f : KeySlot → KeySlot) : (s.onKey i f).epochAt = s.epochAt := rfl
@[simp] theorem onKey_slices (f : KeySlot → KeySlot) : (s.onKey i f).slices = s.slices := rfl
@[simp] theorem onKey_oldSlices (f : KeySlot → KeySlot) : (s.onKey i f).oldSlices = s.oldSlices := rfl
@[simp] theorem onKey_doms (f : KeySlot → KeySlot) : (s.onKey i f).doms = s.doms := rfl
@[simp] theorem onKey_migs (f : KeySlot → KeySlot) : (s.onKey i f).migs = s.migs := rfl
@[simp] theorem onKey_handoffs (f : KeySlot → KeySlot) : (s.onKey i f).handoffs = s.handoffs := rfl
@[simp] theorem onKey_copies (f : KeySlot → KeySlot) : (s.onKey i f).copies = s.copies := rfl
@[simp] theorem onKey_backing (f : KeySlot → KeySlot) : (s.onKey i f).backing = s.backing := rfl
@[simp] theorem onKey_nextHandoff (f : KeySlot → KeySlot) : (s.onKey i f).nextHandoff = s.nextHandoff := rfl
@[simp] theorem onKey_rings (f : KeySlot → KeySlot) : (s.onKey i f).rings = s.rings := rfl
@[simp] theorem onKey_meter (f : KeySlot → KeySlot) : (s.onKey i f).meter = s.meter := rfl
@[simp] theorem onKey_dump (f : KeySlot → KeySlot) : (s.onKey i f).dump = s.dump := rfl
@[simp] theorem onKey_profs (f : KeySlot → KeySlot) : (s.onKey i f).profs = s.profs := rfl
@[simp] theorem onKey_trace (f : KeySlot → KeySlot) : (s.onKey i f).trace = s.trace := rfl
@[simp] theorem onKey_stop (f : KeySlot → KeySlot) : (s.onKey i f).stop = s.stop := rfl
@[simp] theorem onKey_cond (f : KeySlot → KeySlot) : (s.onKey i f).cond = s.cond := rfl
@[simp] theorem onKey_freeSig (f : KeySlot → KeySlot) : (s.onKey i f).freeSig = s.freeSig := rfl
@[simp] theorem onKey_keepway (f : KeySlot → KeySlot) : (s.onKey i f).keepway = s.keepway := rfl
@[simp] theorem onKey_out (f : KeySlot → KeySlot) : (s.onKey i f).out = s.out := rfl
@[simp] theorem onKey_pending (f : KeySlot → KeySlot) : (s.onKey i f).pending = s.pending := rfl
@[simp] theorem onKey_memSt (f : KeySlot → KeySlot) : (s.onKey i f).memSt j = s.memSt j := rfl
@[simp] theorem onKey_linkSt (f : KeySlot → KeySlot) : (s.onKey i f).linkSt j = s.linkSt j := rfl
@[simp] theorem onKey_obj (f : KeySlot → KeySlot) : (s.onKey i f).obj j = s.obj j := rfl
@[simp] theorem onKey_part (f : KeySlot → KeySlot) : (s.onKey i f).part j = s.part j := rfl
@[simp] theorem onKey_ctx (f : KeySlot → KeySlot) : (s.onKey i f).ctx j = s.ctx j := rfl
@[simp] theorem onKey_queue (f : KeySlot → KeySlot) : (s.onKey i f).queue j = s.queue j := rfl
@[simp] theorem onKey_fence (f : KeySlot → KeySlot) : (s.onKey i f).fence j = s.fence j := rfl
@[simp] theorem onKey_dom (f : KeySlot → KeySlot) : (s.onKey i f).dom j = s.dom j := rfl

/-! ### `State.onObj` -/

theorem obj_onObj (i : Nat) (f : Obj → Obj) (s : State) : (s.onObj i f).obj i = f (s.obj i) := tget_tupd_same ..
theorem obj_onObj_other (i j : Nat) (f : Obj → Obj) (s : State) (h : j ≠ i) : (s.onObj i f).obj j = s.obj j := tget_tupd_other _ _ _ _ _ h
@[simp] theorem onObj_objs (f : Obj → Obj) : (s.onObj i f).objs = tupd {} s.objs i f := rfl
@[simp] theorem onObj_aon (f : Obj → Obj) : (s.onObj i f).aon = s.aon := rfl
@[simp] theorem onObj_flash (f : Obj → Obj) : (s.onObj i f).flash = s.flash := rfl
@[simp] theorem onObj_keep (f : Obj → Obj) : (s.onObj i f).keep = s.keep := rfl
@[simp] theorem onObj_clk (f : Obj → Obj) : (s.onObj i f).clk = s.clk := rfl
@[simp] theorem onObj_flt (f : Obj → Obj) : (s.onObj i f).flt = s.flt := rfl
@[simp] theorem onObj_ctrs (f : Obj → Obj) : (s.onObj i f).ctrs = s.ctrs := rfl
@[simp] theorem onObj_mem (f : Obj → Obj) : (s.onObj i f).mem = s.mem := rfl
@[simp] theorem onObj_link (f : Obj → Obj) : (s.onObj i f).link = s.link := rfl
@[simp] theorem onObj_host (f : Obj → Obj) : (s.onObj i f).host = s.host := rfl
@[simp] theorem onObj_keys (f : Obj → Obj) : (s.onObj i f).keys = s.keys := rfl
@[simp] theorem onObj_parts (f : Obj → Obj) : (s.onObj i f).parts = s.parts := rfl
@[simp] theorem onObj_ctxs (f : Obj → Obj) : (s.onObj i f).ctxs = s.ctxs := rfl
@[simp] theorem onObj_queues (f : Obj → Obj) : (s.onObj i f).queues = s.queues := rfl
@[simp] theorem onObj_fences (f : Obj → Obj) : (s.onObj i f).fences = s.fences := rfl
@[simp] theorem onObj_taken (f : Obj → Obj) : (s.onObj i f).taken = s.taken := rfl
@[simp] theorem onObj_accs (f : Obj → Obj) : (s.onObj i f).accs = s.accs := rfl
@[simp] theorem onObj_arrivals (f : Obj → Obj) : (s.onObj i f).arrivals = s.arrivals := rfl
@[simp] theorem onObj_users (f : Obj → Obj) : (s.onObj i f).users = s.users := rfl
@[simp] theorem onObj_opTab (f : Obj → Obj) : (s.onObj i f).opTab = s.opTab := rfl
@[simp] theorem onObj_nextOp (f : Obj → Obj) : (s.onObj i f).nextOp = s.nextOp := rfl
@[simp] theorem onObj_epoch (f : Obj → Obj) : (s.onObj i f).epoch = s.epoch := rfl
@[simp] theorem onObj_epochDraining (f : Obj → Obj) : (s.onObj i f).epochDraining = s.epochDraining := rfl
@[simp] theorem onObj_epochAt (f : Obj → Obj) : (s.onObj i f).epochAt = s.epochAt := rfl
@[simp] theorem onObj_slices (f : Obj → Obj) : (s.onObj i f).slices = s.slices := rfl
@[simp] theorem onObj_oldSlices (f : Obj → Obj) : (s.onObj i f).oldSlices = s.oldSlices := rfl
@[simp] theorem onObj_doms (f : Obj → Obj) : (s.onObj i f).doms = s.doms := rfl
@[simp] theorem onObj_migs (f : Obj → Obj) : (s.onObj i f).migs = s.migs := rfl
@[simp] theorem onObj_handoffs (f : Obj → Obj) : (s.onObj i f).handoffs = s.handoffs := rfl
@[simp] theorem onObj_copies (f : Obj → Obj) : (s.onObj i f).copies = s.copies := rfl
@[simp] theorem onObj_backing (f : Obj → Obj) : (s.onObj i f).backing = s.backing := rfl
@[simp] theorem onObj_nextHandoff (f : Obj → Obj) : (s.onObj i f).nextHandoff = s.nextHandoff := rfl
@[simp] theorem onObj_rings (f : Obj → Obj) : (s.onObj i f).rings = s.rings := rfl
@[simp] theorem onObj_meter (f : Obj → Obj) : (s.onObj i f).meter = s.meter := rfl
@[simp] theorem onObj_dump (f : Obj → Obj) : (s.onObj i f).dump = s.dump := rfl
@[simp] theorem onObj_profs (f : Obj → Obj) : (s.onObj i f).profs = s.profs := rfl
@[simp] theorem onObj_trace (f : Obj → Obj) : (s.onObj i f).trace = s.trace := rfl
@[simp] theorem onObj_stop (f : Obj → Obj) : (s.onObj i f).stop = s.stop := rfl
@[simp] theorem onObj_cond (f : Obj → Obj) : (s.onObj i f).cond = s.cond := rfl
@[simp] theorem onObj_freeSig (f : Obj → Obj) : (s.onObj i f).freeSig = s.freeSig := rfl
@[simp] theorem onObj_keepway (f : Obj → Obj) : (s.onObj i f).keepway = s.keepway := rfl
@[simp] theorem onObj_out (f : Obj → Obj) : (s.onObj i f).out = s.out := rfl
@[simp] theorem onObj_pending (f : Obj → Obj) : (s.onObj i f).pending = s.pending := rfl
@[simp] theorem onObj_memSt (f : Obj → Obj) : (s.onObj i f).memSt j = s.memSt j := rfl
@[simp] theorem onObj_linkSt (f : Obj → Obj) : (s.onObj i f).linkSt j = s.linkSt j := rfl
@[simp] theorem onObj_key (f : Obj → Obj) : (s.onObj i f).key j = s.key j := rfl
@[simp] theorem onObj_part (f : Obj → Obj) : (s.onObj i f).part j = s.part j := rfl
@[simp] theorem onObj_ctx (f : Obj → Obj) : (s.onObj i f).ctx j = s.ctx j := rfl
@[simp] theorem onObj_queue (f : Obj → Obj) : (s.onObj i f).queue j = s.queue j := rfl
@[simp] theorem onObj_fence (f : Obj → Obj) : (s.onObj i f).fence j = s.fence j := rfl
@[simp] theorem onObj_dom (f : Obj → Obj) : (s.onObj i f).dom j = s.dom j := rfl

/-! ### `State.onPart` -/

theorem part_onPart (i : Nat) (f : Part → Part) (s : State) : (s.onPart i f).part i = f (s.part i) := tget_tupd_same ..
theorem part_onPart_other (i j : Nat) (f : Part → Part) (s : State) (h : j ≠ i) : (s.onPart i f).part j = s.part j := tget_tupd_other _ _ _ _ _ h
@[simp] theorem onPart_parts (f : Part → Part) : (s.onPart i f).parts = tupd {} s.parts i f := rfl
@[simp] theorem onPart_aon (f : Part → Part) : (s.onPart i f).aon = s.aon := rfl
@[simp] theorem onPart_flash (f : Part → Part) : (s.onPart i f).flash = s.flash := rfl
@[simp] theorem onPart_keep (f : Part → Part) : (s.onPart i f).keep = s.keep := rfl
@[simp] theorem onPart_clk (f : Part → Part) : (s.onPart i f).clk = s.clk := rfl
@[simp] theorem onPart_flt (f : Part → Part) : (s.onPart i f).flt = s.flt := rfl
@[simp] theorem onPart_ctrs (f : Part → Part) : (s.onPart i f).ctrs = s.ctrs := rfl
@[simp] theorem onPart_mem (f : Part → Part) : (s.onPart i f).mem = s.mem := rfl
@[simp] theorem onPart_link (f : Part → Part) : (s.onPart i f).link = s.link := rfl
@[simp] theorem onPart_host (f : Part → Part) : (s.onPart i f).host = s.host := rfl
@[simp] theorem onPart_keys (f : Part → Part) : (s.onPart i f).keys = s.keys := rfl
@[simp] theorem onPart_objs (f : Part → Part) : (s.onPart i f).objs = s.objs := rfl
@[simp] theorem onPart_ctxs (f : Part → Part) : (s.onPart i f).ctxs = s.ctxs := rfl
@[simp] theorem onPart_queues (f : Part → Part) : (s.onPart i f).queues = s.queues := rfl
@[simp] theorem onPart_fences (f : Part → Part) : (s.onPart i f).fences = s.fences := rfl
@[simp] theorem onPart_taken (f : Part → Part) : (s.onPart i f).taken = s.taken := rfl
@[simp] theorem onPart_accs (f : Part → Part) : (s.onPart i f).accs = s.accs := rfl
@[simp] theorem onPart_arrivals (f : Part → Part) : (s.onPart i f).arrivals = s.arrivals := rfl
@[simp] theorem onPart_users (f : Part → Part) : (s.onPart i f).users = s.users := rfl
@[simp] theorem onPart_opTab (f : Part → Part) : (s.onPart i f).opTab = s.opTab := rfl
@[simp] theorem onPart_nextOp (f : Part → Part) : (s.onPart i f).nextOp = s.nextOp := rfl
@[simp] theorem onPart_epoch (f : Part → Part) : (s.onPart i f).epoch = s.epoch := rfl
@[simp] theorem onPart_epochDraining (f : Part → Part) : (s.onPart i f).epochDraining = s.epochDraining := rfl
@[simp] theorem onPart_epochAt (f : Part → Part) : (s.onPart i f).epochAt = s.epochAt := rfl
@[simp] theorem onPart_slices (f : Part → Part) : (s.onPart i f).slices = s.slices := rfl
@[simp] theorem onPart_oldSlices (f : Part → Part) : (s.onPart i f).oldSlices = s.oldSlices := rfl
@[simp] theorem onPart_doms (f : Part → Part) : (s.onPart i f).doms = s.doms := rfl
@[simp] theorem onPart_migs (f : Part → Part) : (s.onPart i f).migs = s.migs := rfl
@[simp] theorem onPart_handoffs (f : Part → Part) : (s.onPart i f).handoffs = s.handoffs := rfl
@[simp] theorem onPart_copies (f : Part → Part) : (s.onPart i f).copies = s.copies := rfl
@[simp] theorem onPart_backing (f : Part → Part) : (s.onPart i f).backing = s.backing := rfl
@[simp] theorem onPart_nextHandoff (f : Part → Part) : (s.onPart i f).nextHandoff = s.nextHandoff := rfl
@[simp] theorem onPart_rings (f : Part → Part) : (s.onPart i f).rings = s.rings := rfl
@[simp] theorem onPart_meter (f : Part → Part) : (s.onPart i f).meter = s.meter := rfl
@[simp] theorem onPart_dump (f : Part → Part) : (s.onPart i f).dump = s.dump := rfl
@[simp] theorem onPart_profs (f : Part → Part) : (s.onPart i f).profs = s.profs := rfl
@[simp] theorem onPart_trace (f : Part → Part) : (s.onPart i f).trace = s.trace := rfl
@[simp] theorem onPart_stop (f : Part → Part) : (s.onPart i f).stop = s.stop := rfl
@[simp] theorem onPart_cond (f : Part → Part) : (s.onPart i f).cond = s.cond := rfl
@[simp] theorem onPart_freeSig (f : Part → Part) : (s.onPart i f).freeSig = s.freeSig := rfl
@[simp] theorem onPart_keepway (f : Part → Part) : (s.onPart i f).keepway = s.keepway := rfl
@[simp] theorem onPart_out (f : Part → Part) : (s.onPart i f).out = s.out := rfl
@[simp] theorem onPart_pending (f : Part → Part) : (s.onPart i f).pending = s.pending := rfl
@[simp] theorem onPart_memSt (f : Part → Part) : (s.onPart i f).memSt j = s.memSt j := rfl
@[simp] theorem onPart_linkSt (f : Part → Part) : (s.onPart i f).linkSt j = s.linkSt j := rfl
@[simp] theorem onPart_key (f : Part → Part) : (s.onPart i f).key j = s.key j := rfl
@[simp] theorem onPart_obj (f : Part → Part) : (s.onPart i f).obj j = s.obj j := rfl
@[simp] theorem onPart_ctx (f : Part → Part) : (s.onPart i f).ctx j = s.ctx j := rfl
@[simp] theorem onPart_queue (f : Part → Part) : (s.onPart i f).queue j = s.queue j := rfl
@[simp] theorem onPart_fence (f : Part → Part) : (s.onPart i f).fence j = s.fence j := rfl
@[simp] theorem onPart_dom (f : Part → Part) : (s.onPart i f).dom j = s.dom j := rfl

/-! ### `State.onCtx` -/

theorem ctx_onCtx (i : Nat) (f : Ctx → Ctx) (s : State) : (s.onCtx i f).ctx i = f (s.ctx i) := tget_tupd_same ..
theorem ctx_onCtx_other (i j : Nat) (f : Ctx → Ctx) (s : State) (h : j ≠ i) : (s.onCtx i f).ctx j = s.ctx j := tget_tupd_other _ _ _ _ _ h
@[simp] theorem onCtx_ctxs (f : Ctx → Ctx) : (s.onCtx i f).ctxs = tupd {} s.ctxs i f := rfl
@[simp] theorem onCtx_aon (f : Ctx → Ctx) : (s.onCtx i f).aon = s.aon := rfl
@[simp] theorem onCtx_flash (f : Ctx → Ctx) : (s.onCtx i f).flash = s.flash := rfl
@[simp] theorem onCtx_keep (f : Ctx → Ctx) : (s.onCtx i f).keep = s.keep := rfl
@[simp] theorem onCtx_clk (f : Ctx → Ctx) : (s.onCtx i f).clk = s.clk := rfl
@[simp] theorem onCtx_flt (f : Ctx → Ctx) : (s.onCtx i f).flt = s.flt := rfl
@[simp] theorem onCtx_ctrs (f : Ctx → Ctx) : (s.onCtx i f).ctrs = s.ctrs := rfl
@[simp] theorem onCtx_mem (f : Ctx → Ctx) : (s.onCtx i f).mem = s.mem := rfl
@[simp] theorem onCtx_link (f : Ctx → Ctx) : (s.onCtx i f).link = s.link := rfl
@[simp] theorem onCtx_host (f : Ctx → Ctx) : (s.onCtx i f).host = s.host := rfl
@[simp] theorem onCtx_keys (f : Ctx → Ctx) : (s.onCtx i f).keys = s.keys := rfl
@[simp] theorem onCtx_parts (f : Ctx → Ctx) : (s.onCtx i f).parts = s.parts := rfl
@[simp] theorem onCtx_objs (f : Ctx → Ctx) : (s.onCtx i f).objs = s.objs := rfl
@[simp] theorem onCtx_queues (f : Ctx → Ctx) : (s.onCtx i f).queues = s.queues := rfl
@[simp] theorem onCtx_fences (f : Ctx → Ctx) : (s.onCtx i f).fences = s.fences := rfl
@[simp] theorem onCtx_taken (f : Ctx → Ctx) : (s.onCtx i f).taken = s.taken := rfl
@[simp] theorem onCtx_accs (f : Ctx → Ctx) : (s.onCtx i f).accs = s.accs := rfl
@[simp] theorem onCtx_arrivals (f : Ctx → Ctx) : (s.onCtx i f).arrivals = s.arrivals := rfl
@[simp] theorem onCtx_users (f : Ctx → Ctx) : (s.onCtx i f).users = s.users := rfl
@[simp] theorem onCtx_opTab (f : Ctx → Ctx) : (s.onCtx i f).opTab = s.opTab := rfl
@[simp] theorem onCtx_nextOp (f : Ctx → Ctx) : (s.onCtx i f).nextOp = s.nextOp := rfl
@[simp] theorem onCtx_epoch (f : Ctx → Ctx) : (s.onCtx i f).epoch = s.epoch := rfl
@[simp] theorem onCtx_epochDraining (f : Ctx → Ctx) : (s.onCtx i f).epochDraining = s.epochDraining := rfl
@[simp] theorem onCtx_epochAt (f : Ctx → Ctx) : (s.onCtx i f).epochAt = s.epochAt := rfl
@[simp] theorem onCtx_slices (f : Ctx → Ctx) : (s.onCtx i f).slices = s.slices := rfl
@[simp] theorem onCtx_oldSlices (f : Ctx → Ctx) : (s.onCtx i f).oldSlices = s.oldSlices := rfl
@[simp] theorem onCtx_doms (f : Ctx → Ctx) : (s.onCtx i f).doms = s.doms := rfl
@[simp] theorem onCtx_migs (f : Ctx → Ctx) : (s.onCtx i f).migs = s.migs := rfl
@[simp] theorem onCtx_handoffs (f : Ctx → Ctx) : (s.onCtx i f).handoffs = s.handoffs := rfl
@[simp] theorem onCtx_copies (f : Ctx → Ctx) : (s.onCtx i f).copies = s.copies := rfl
@[simp] theorem onCtx_backing (f : Ctx → Ctx) : (s.onCtx i f).backing = s.backing := rfl
@[simp] theorem onCtx_nextHandoff (f : Ctx → Ctx) : (s.onCtx i f).nextHandoff = s.nextHandoff := rfl
@[simp] theorem onCtx_rings (f : Ctx → Ctx) : (s.onCtx i f).rings = s.rings := rfl
@[simp] theorem onCtx_meter (f : Ctx → Ctx) : (s.onCtx i f).meter = s.meter := rfl
@[simp] theorem onCtx_dump (f : Ctx → Ctx) : (s.onCtx i f).dump = s.dump := rfl
@[simp] theorem onCtx_profs (f : Ctx → Ctx) : (s.onCtx i f).profs = s.profs := rfl
@[simp] theorem onCtx_trace (f : Ctx → Ctx) : (s.onCtx i f).trace = s.trace := rfl
@[simp] theorem onCtx_stop (f : Ctx → Ctx) : (s.onCtx i f).stop = s.stop := rfl
@[simp] theorem onCtx_cond (f : Ctx → Ctx) : (s.onCtx i f).cond = s.cond := rfl
@[simp] theorem onCtx_freeSig (f : Ctx → Ctx) : (s.onCtx i f).freeSig = s.freeSig := rfl
@[simp] theorem onCtx_keepway (f : Ctx → Ctx) : (s.onCtx i f).keepway = s.keepway := rfl
@[simp] theorem onCtx_out (f : Ctx → Ctx) : (s.onCtx i f).out = s.out := rfl
@[simp] theorem onCtx_pending (f : Ctx → Ctx) : (s.onCtx i f).pending = s.pending := rfl
@[simp] theorem onCtx_memSt (f : Ctx → Ctx) : (s.onCtx i f).memSt j = s.memSt j := rfl
@[simp] theorem onCtx_linkSt (f : Ctx → Ctx) : (s.onCtx i f).linkSt j = s.linkSt j := rfl
@[simp] theorem onCtx_key (f : Ctx → Ctx) : (s.onCtx i f).key j = s.key j := rfl
@[simp] theorem onCtx_obj (f : Ctx → Ctx) : (s.onCtx i f).obj j = s.obj j := rfl
@[simp] theorem onCtx_part (f : Ctx → Ctx) : (s.onCtx i f).part j = s.part j := rfl
@[simp] theorem onCtx_queue (f : Ctx → Ctx) : (s.onCtx i f).queue j = s.queue j := rfl
@[simp] theorem onCtx_fence (f : Ctx → Ctx) : (s.onCtx i f).fence j = s.fence j := rfl
@[simp] theorem onCtx_dom (f : Ctx → Ctx) : (s.onCtx i f).dom j = s.dom j := rfl

/-! ### `State.onQueue` -/

theorem queue_onQueue (i : Nat) (f : Queue → Queue) (s : State) : (s.onQueue i f).queue i = f (s.queue i) := tget_tupd_same ..
theorem queue_onQueue_other (i j : Nat) (f : Queue → Queue) (s : State) (h : j ≠ i) : (s.onQueue i f).queue j = s.queue j := tget_tupd_other _ _ _ _ _ h
@[simp] theorem onQueue_queues (f : Queue → Queue) : (s.onQueue i f).queues = tupd {} s.queues i f := rfl
@[simp] theorem onQueue_aon (f : Queue → Queue) : (s.onQueue i f).aon = s.aon := rfl
@[simp] theorem onQueue_flash (f : Queue → Queue) : (s.onQueue i f).flash = s.flash := rfl
@[simp] theorem onQueue_keep (f : Queue → Queue) : (s.onQueue i f).keep = s.keep := rfl
@[simp] theorem onQueue_clk (f : Queue → Queue) : (s.onQueue i f).clk = s.clk := rfl
@[simp] theorem onQueue_flt (f : Queue → Queue) : (s.onQueue i f).flt = s.flt := rfl
@[simp] theorem onQueue_ctrs (f : Queue → Queue) : (s.onQueue i f).ctrs = s.ctrs := rfl
@[simp] theorem onQueue_mem (f : Queue → Queue) : (s.onQueue i f).mem = s.mem := rfl
@[simp] theorem onQueue_link (f : Queue → Queue) : (s.onQueue i f).link = s.link := rfl
@[simp] theorem onQueue_host (f : Queue → Queue) : (s.onQueue i f).host = s.host := rfl
@[simp] theorem onQueue_keys (f : Queue → Queue) : (s.onQueue i f).keys = s.keys := rfl
@[simp] theorem onQueue_parts (f : Queue → Queue) : (s.onQueue i f).parts = s.parts := rfl
@[simp] theorem onQueue_objs (f : Queue → Queue) : (s.onQueue i f).objs = s.objs := rfl
@[simp] theorem onQueue_ctxs (f : Queue → Queue) : (s.onQueue i f).ctxs = s.ctxs := rfl
@[simp] theorem onQueue_fences (f : Queue → Queue) : (s.onQueue i f).fences = s.fences := rfl
@[simp] theorem onQueue_taken (f : Queue → Queue) : (s.onQueue i f).taken = s.taken := rfl
@[simp] theorem onQueue_accs (f : Queue → Queue) : (s.onQueue i f).accs = s.accs := rfl
@[simp] theorem onQueue_arrivals (f : Queue → Queue) : (s.onQueue i f).arrivals = s.arrivals := rfl
@[simp] theorem onQueue_users (f : Queue → Queue) : (s.onQueue i f).users = s.users := rfl
@[simp] theorem onQueue_opTab (f : Queue → Queue) : (s.onQueue i f).opTab = s.opTab := rfl
@[simp] theorem onQueue_nextOp (f : Queue → Queue) : (s.onQueue i f).nextOp = s.nextOp := rfl
@[simp] theorem onQueue_epoch (f : Queue → Queue) : (s.onQueue i f).epoch = s.epoch := rfl
@[simp] theorem onQueue_epochDraining (f : Queue → Queue) : (s.onQueue i f).epochDraining = s.epochDraining := rfl
@[simp] theorem onQueue_epochAt (f : Queue → Queue) : (s.onQueue i f).epochAt = s.epochAt := rfl
@[simp] theorem onQueue_slices (f : Queue → Queue) : (s.onQueue i f).slices = s.slices := rfl
@[simp] theorem onQueue_oldSlices (f : Queue → Queue) : (s.onQueue i f).oldSlices = s.oldSlices := rfl
@[simp] theorem onQueue_doms (f : Queue → Queue) : (s.onQueue i f).doms = s.doms := rfl
@[simp] theorem onQueue_migs (f : Queue → Queue) : (s.onQueue i f).migs = s.migs := rfl
@[simp] theorem onQueue_handoffs (f : Queue → Queue) : (s.onQueue i f).handoffs = s.handoffs := rfl
@[simp] theorem onQueue_copies (f : Queue → Queue) : (s.onQueue i f).copies = s.copies := rfl
@[simp] theorem onQueue_backing (f : Queue → Queue) : (s.onQueue i f).backing = s.backing := rfl
@[simp] theorem onQueue_nextHandoff (f : Queue → Queue) : (s.onQueue i f).nextHandoff = s.nextHandoff := rfl
@[simp] theorem onQueue_rings (f : Queue → Queue) : (s.onQueue i f).rings = s.rings := rfl
@[simp] theorem onQueue_meter (f : Queue → Queue) : (s.onQueue i f).meter = s.meter := rfl
@[simp] theorem onQueue_dump (f : Queue → Queue) : (s.onQueue i f).dump = s.dump := rfl
@[simp] theorem onQueue_profs (f : Queue → Queue) : (s.onQueue i f).profs = s.profs := rfl
@[simp] theorem onQueue_trace (f : Queue → Queue) : (s.onQueue i f).trace = s.trace := rfl
@[simp] theorem onQueue_stop (f : Queue → Queue) : (s.onQueue i f).stop = s.stop := rfl
@[simp] theorem onQueue_cond (f : Queue → Queue) : (s.onQueue i f).cond = s.cond := rfl
@[simp] theorem onQueue_freeSig (f : Queue → Queue) : (s.onQueue i f).freeSig = s.freeSig := rfl
@[simp] theorem onQueue_keepway (f : Queue → Queue) : (s.onQueue i f).keepway = s.keepway := rfl
@[simp] theorem onQueue_out (f : Queue → Queue) : (s.onQueue i f).out = s.out := rfl
@[simp] theorem onQueue_pending (f : Queue → Queue) : (s.onQueue i f).pending = s.pending := rfl
@[simp] theorem onQueue_memSt (f : Queue → Queue) : (s.onQueue i f).memSt j = s.memSt j := rfl
@[simp] theorem onQueue_linkSt (f : Queue → Queue) : (s.onQueue i f).linkSt j = s.linkSt j := rfl
@[simp] theorem onQueue_key (f : Queue → Queue) : (s.onQueue i f).key j = s.key j := rfl
@[simp] theorem onQueue_obj (f : Queue → Queue) : (s.onQueue i f).obj j = s.obj j := rfl
@[simp] theorem onQueue_part (f : Queue → Queue) : (s.onQueue i f).part j = s.part j := rfl
@[simp] theorem onQueue_ctx (f : Queue → Queue) : (s.onQueue i f).ctx j = s.ctx j := rfl
@[simp] theorem onQueue_fence (f : Queue → Queue) : (s.onQueue i f).fence j = s.fence j := rfl
@[simp] theorem onQueue_dom (f : Queue → Queue) : (s.onQueue i f).dom j = s.dom j := rfl

/-! ### `State.onFence` -/

theorem fence_onFence (i : Nat) (f : Fence → Fence) (s : State) : (s.onFence i f).fence i = f (s.fence i) := tget_tupd_same ..
theorem fence_onFence_other (i j : Nat) (f : Fence → Fence) (s : State) (h : j ≠ i) : (s.onFence i f).fence j = s.fence j := tget_tupd_other _ _ _ _ _ h
@[simp] theorem onFence_fences (f : Fence → Fence) : (s.onFence i f).fences = tupd {} s.fences i f := rfl
@[simp] theorem onFence_aon (f : Fence → Fence) : (s.onFence i f).aon = s.aon := rfl
@[simp] theorem onFence_flash (f : Fence → Fence) : (s.onFence i f).flash = s.flash := rfl
@[simp] theorem onFence_keep (f : Fence → Fence) : (s.onFence i f).keep = s.keep := rfl
@[simp] theorem onFence_clk (f : Fence → Fence) : (s.onFence i f).clk = s.clk := rfl
@[simp] theorem onFence_flt (f : Fence → Fence) : (s.onFence i f).flt = s.flt := rfl
@[simp] theorem onFence_ctrs (f : Fence → Fence) : (s.onFence i f).ctrs = s.ctrs := rfl
@[simp] theorem onFence_mem (f : Fence → Fence) : (s.onFence i f).mem = s.mem := rfl
@[simp] theorem onFence_link (f : Fence → Fence) : (s.onFence i f).link = s.link := rfl
@[simp] theorem onFence_host (f : Fence → Fence) : (s.onFence i f).host = s.host := rfl
@[simp] theorem onFence_keys (f : Fence → Fence) : (s.onFence i f).keys = s.keys := rfl
@[simp] theorem onFence_parts (f : Fence → Fence) : (s.onFence i f).parts = s.parts := rfl
@[simp] theorem onFence_objs (f : Fence → Fence) : (s.onFence i f).objs = s.objs := rfl
@[simp] theorem onFence_ctxs (f : Fence → Fence) : (s.onFence i f).ctxs = s.ctxs := rfl
@[simp] theorem onFence_queues (f : Fence → Fence) : (s.onFence i f).queues = s.queues := rfl
@[simp] theorem onFence_taken (f : Fence → Fence) : (s.onFence i f).taken = s.taken := rfl
@[simp] theorem onFence_accs (f : Fence → Fence) : (s.onFence i f).accs = s.accs := rfl
@[simp] theorem onFence_arrivals (f : Fence → Fence) : (s.onFence i f).arrivals = s.arrivals := rfl
@[simp] theorem onFence_users (f : Fence → Fence) : (s.onFence i f).users = s.users := rfl
@[simp] theorem onFence_opTab (f : Fence → Fence) : (s.onFence i f).opTab = s.opTab := rfl
@[simp] theorem onFence_nextOp (f : Fence → Fence) : (s.onFence i f).nextOp = s.nextOp := rfl
@[simp] theorem onFence_epoch (f : Fence → Fence) : (s.onFence i f).epoch = s.epoch := rfl
@[simp] theorem onFence_epochDraining (f : Fence → Fence) : (s.onFence i f).epochDraining = s.epochDraining := rfl
@[simp] theorem onFence_epochAt (f : Fence → Fence) : (s.onFence i f).epochAt = s.epochAt := rfl
@[simp] theorem onFence_slices (f : Fence → Fence) : (s.onFence i f).slices = s.slices := rfl
@[simp] theorem onFence_oldSlices (f : Fence → Fence) : (s.onFence i f).oldSlices = s.oldSlices := rfl
@[simp] theorem onFence_doms (f : Fence → Fence) : (s.onFence i f).doms = s.doms := rfl
@[simp] theorem onFence_migs (f : Fence → Fence) : (s.onFence i f).migs = s.migs := rfl
@[simp] theorem onFence_handoffs (f : Fence → Fence) : (s.onFence i f).handoffs = s.handoffs := rfl
@[simp] theorem onFence_copies (f : Fence → Fence) : (s.onFence i f).copies = s.copies := rfl
@[simp] theorem onFence_backing (f : Fence → Fence) : (s.onFence i f).backing = s.backing := rfl
@[simp] theorem onFence_nextHandoff (f : Fence → Fence) : (s.onFence i f).nextHandoff = s.nextHandoff := rfl
@[simp] theorem onFence_rings (f : Fence → Fence) : (s.onFence i f).rings = s.rings := rfl
@[simp] theorem onFence_meter (f : Fence → Fence) : (s.onFence i f).meter = s.meter := rfl
@[simp] theorem onFence_dump (f : Fence → Fence) : (s.onFence i f).dump = s.dump := rfl
@[simp] theorem onFence_profs (f : Fence → Fence) : (s.onFence i f).profs = s.profs := rfl
@[simp] theorem onFence_trace (f : Fence → Fence) : (s.onFence i f).trace = s.trace := rfl
@[simp] theorem onFence_stop (f : Fence → Fence) : (s.onFence i f).stop = s.stop := rfl
@[simp] theorem onFence_cond (f : Fence → Fence) : (s.onFence i f).cond = s.cond := rfl
@[simp] theorem onFence_freeSig (f : Fence → Fence) : (s.onFence i f).freeSig = s.freeSig := rfl
@[simp] theorem onFence_keepway (f : Fence → Fence) : (s.onFence i f).keepway = s.keepway := rfl
@[simp] theorem onFence_out (f : Fence → Fence) : (s.onFence i f).out = s.out := rfl
@[simp] theorem onFence_pending (f : Fence → Fence) : (s.onFence i f).pending = s.pending := rfl
@[simp] theorem onFence_memSt (f : Fence → Fence) : (s.onFence i f).memSt j = s.memSt j := rfl
@[simp] theorem onFence_linkSt (f : Fence → Fence) : (s.onFence i f).linkSt j = s.linkSt j := rfl
@[simp] theorem onFence_key (f : Fence → Fence) : (s.onFence i f).key j = s.key j := rfl
@[simp] theorem onFence_obj (f : Fence → Fence) : (s.onFence i f).obj j = s.obj j := rfl
@[simp] theorem onFence_part (f : Fence → Fence) : (s.onFence i f).part j = s.part j := rfl
@[simp] theorem onFence_ctx (f : Fence → Fence) : (s.onFence i f).ctx j = s.ctx j := rfl
@[simp] theorem onFence_queue (f : Fence → Fence) : (s.onFence i f).queue j = s.queue j := rfl
@[simp] theorem onFence_dom (f : Fence → Fence) : (s.onFence i f).dom j = s.dom j := rfl

/-! ### `State.onDom` -/

theorem dom_onDom (i : Nat) (f : Dom → Dom) (s : State) : (s.onDom i f).dom i = f (s.dom i) := tget_tupd_same ..
theorem dom_onDom_other (i j : Nat) (f : Dom → Dom) (s : State) (h : j ≠ i) : (s.onDom i f).dom j = s.dom j := tget_tupd_other _ _ _ _ _ h
@[simp] theorem onDom_doms (f : Dom → Dom) : (s.onDom i f).doms = tupd {} s.doms i f := rfl
@[simp] theorem onDom_aon (f : Dom → Dom) : (s.onDom i f).aon = s.aon := rfl
@[simp] theorem onDom_flash (f : Dom → Dom) : (s.onDom i f).flash = s.flash := rfl
@[simp] theorem onDom_keep (f : Dom → Dom) : (s.onDom i f).keep = s.keep := rfl
@[simp] theorem onDom_clk (f : Dom → Dom) : (s.onDom i f).clk = s.clk := rfl
@[simp] theorem onDom_flt (f : Dom → Dom) : (s.onDom i f).flt = s.flt := rfl
@[simp] theorem onDom_ctrs (f : Dom → Dom) : (s.onDom i f).ctrs = s.ctrs := rfl
@[simp] theorem onDom_mem (f : Dom → Dom) : (s.onDom i f).mem = s.mem := rfl
@[simp] theorem onDom_link (f : Dom → Dom) : (s.onDom i f).link = s.link := rfl
@[simp] theorem onDom_host (f : Dom → Dom) : (s.onDom i f).host = s.host := rfl
@[simp] theorem onDom_keys (f : Dom → Dom) : (s.onDom i f).keys = s.keys := rfl
@[simp] theorem onDom_parts (f : Dom → Dom) : (s.onDom i f).parts = s.parts := rfl
@[simp] theorem onDom_objs (f : Dom → Dom) : (s.onDom i f).objs = s.objs := rfl
@[simp] theorem onDom_ctxs (f : Dom → Dom) : (s.onDom i f).ctxs = s.ctxs := rfl
@[simp] theorem onDom_queues (f : Dom → Dom) : (s.onDom i f).queues = s.queues := rfl
@[simp] theorem onDom_fences (f : Dom → Dom) : (s.onDom i f).fences = s.fences := rfl
@[simp] theorem onDom_taken (f : Dom → Dom) : (s.onDom i f).taken = s.taken := rfl
@[simp] theorem onDom_accs (f : Dom → Dom) : (s.onDom i f).accs = s.accs := rfl
@[simp] theorem onDom_arrivals (f : Dom → Dom) : (s.onDom i f).arrivals = s.arrivals := rfl
@[simp] theorem onDom_users (f : Dom → Dom) : (s.onDom i f).users = s.users := rfl
@[simp] theorem onDom_opTab (f : Dom → Dom) : (s.onDom i f).opTab = s.opTab := rfl
@[simp] theorem onDom_nextOp (f : Dom → Dom) : (s.onDom i f).nextOp = s.nextOp := rfl
@[simp] theorem onDom_epoch (f : Dom → Dom) : (s.onDom i f).epoch = s.epoch := rfl
@[simp] theorem onDom_epochDraining (f : Dom → Dom) : (s.onDom i f).epochDraining = s.epochDraining := rfl
@[simp] theorem onDom_epochAt (f : Dom → Dom) : (s.onDom i f).epochAt = s.epochAt := rfl
@[simp] theorem onDom_slices (f : Dom → Dom) : (s.onDom i f).slices = s.slices := rfl
@[simp] theorem onDom_oldSlices (f : Dom → Dom) : (s.onDom i f).oldSlices = s.oldSlices := rfl
@[simp] theorem onDom_migs (f : Dom → Dom) : (s.onDom i f).migs = s.migs := rfl
@[simp] theorem onDom_handoffs (f : Dom → Dom) : (s.onDom i f).handoffs = s.handoffs := rfl
@[simp] theorem onDom_copies (f : Dom → Dom) : (s.onDom i f).copies = s.copies := rfl
@[simp] theorem onDom_backing (f : Dom → Dom) : (s.onDom i f).backing = s.backing := rfl
@[simp] theorem onDom_nextHandoff (f : Dom → Dom) : (s.onDom i f).nextHandoff = s.nextHandoff := rfl
@[simp] theorem onDom_rings (f : Dom → Dom) : (s.onDom i f).rings = s.rings := rfl
@[simp] theorem onDom_meter (f : Dom → Dom) : (s.onDom i f).meter = s.meter := rfl
@[simp] theorem onDom_dump (f : Dom → Dom) : (s.onDom i f).dump = s.dump := rfl
@[simp] theorem onDom_profs (f : Dom → Dom) : (s.onDom i f).profs = s.profs := rfl
@[simp] theorem onDom_trace (f : Dom → Dom) : (s.onDom i f).trace = s.trace := rfl
@[simp] theorem onDom_stop (f : Dom → Dom) : (s.onDom i f).stop = s.stop := rfl
@[simp] theorem onDom_cond (f : Dom → Dom) : (s.onDom i f).cond = s.cond := rfl
@[simp] theorem onDom_freeSig (f : Dom → Dom) : (s.onDom i f).freeSig = s.freeSig := rfl
@[simp] theorem onDom_keepway (f : Dom → Dom) : (s.onDom i f).keepway = s.keepway := rfl
@[simp] theorem onDom_out (f : Dom → Dom) : (s.onDom i f).out = s.out := rfl
@[simp] theorem onDom_pending (f : Dom → Dom) : (s.onDom i f).pending = s.pending := rfl
@[simp] theorem onDom_memSt (f : Dom → Dom) : (s.onDom i f).memSt j = s.memSt j := rfl
@[simp] theorem onDom_linkSt (f : Dom → Dom) : (s.onDom i f).linkSt j = s.linkSt j := rfl
@[simp] theorem onDom_key (f : Dom → Dom) : (s.onDom i f).key j = s.key j := rfl
@[simp] theorem onDom_obj (f : Dom → Dom) : (s.onDom i f).obj j = s.obj j := rfl
@[simp] theorem onDom_part (f : Dom → Dom) : (s.onDom i f).part j = s.part j := rfl
@[simp] theorem onDom_ctx (f : Dom → Dom) : (s.onDom i f).ctx j = s.ctx j := rfl
@[simp] theorem onDom_queue (f : Dom → Dom) : (s.onDom i f).queue j = s.queue j := rfl
@[simp] theorem onDom_fence (f : Dom → Dom) : (s.onDom i f).fence j = s.fence j := rfl

/-! ### `emit` -/

@[simp] theorem emit_out (o : Out) : (emit o s).out = o :: s.out := rfl
@[simp] theorem emit_aon (o : Out) : (emit o s).aon = s.aon := rfl
@[simp] theorem emit_flash (o : Out) : (emit o s).flash = s.flash := rfl
@[simp] theorem emit_keep (o : Out) : (emit o s).keep = s.keep := rfl
@[simp] theorem emit_clk (o : Out) : (emit o s).clk = s.clk := rfl
@[simp] theorem emit_flt (o : Out) : (emit o s).flt = s.flt := rfl
@[simp] theorem emit_ctrs (o : Out) : (emit o s).ctrs = s.ctrs := rfl
@[simp] theorem emit_mem (o : Out) : (emit o s).mem = s.mem := rfl
@[simp] theorem emit_link (o : Out) : (emit o s).link = s.link := rfl
@[simp] theorem emit_host (o : Out) : (emit o s).host = s.host := rfl
@[simp] theorem emit_keys (o : Out) : (emit o s).keys = s.keys := rfl
@[simp] theorem emit_parts (o : Out) : (emit o s).parts = s.parts := rfl
@[simp] theorem emit_objs (o : Out) : (emit o s).objs = s.objs := rfl
@[simp] theorem emit_ctxs (o : Out) : (emit o s).ctxs = s.ctxs := rfl
@[simp] theorem emit_queues (o : Out) : (emit o s).queues = s.queues := rfl
@[simp] theorem emit_fences (o : Out) : (emit o s).fences = s.fences := rfl
@[simp] theorem emit_taken (o : Out) : (emit o s).taken = s.taken := rfl
@[simp] theorem emit_accs (o : Out) : (emit o s).accs = s.accs := rfl
@[simp] theorem emit_arrivals (o : Out) : (emit o s).arrivals = s.arrivals := rfl
@[simp] theorem emit_users (o : Out) : (emit o s).users = s.users := rfl
@[simp] theorem emit_opTab (o : Out) : (emit o s).opTab = s.opTab := rfl
@[simp] theorem emit_nextOp (o : Out) : (emit o s).nextOp = s.nextOp := rfl
@[simp] theorem emit_epoch (o : Out) : (emit o s).epoch = s.epoch := rfl
@[simp] theorem emit_epochDraining (o : Out) : (emit o s).epochDraining = s.epochDraining := rfl
@[simp] theorem emit_epochAt (o : Out) : (emit o s).epochAt = s.epochAt := rfl
@[simp] theorem emit_slices (o : Out) : (emit o s).slices = s.slices := rfl
@[simp] theorem emit_oldSlices (o : Out) : (emit o s).oldSlices = s.oldSlices := rfl
@[simp] theorem emit_doms (o : Out) : (emit o s).doms = s.doms := rfl
@[simp] theorem emit_migs (o : Out) : (emit o s).migs = s.migs := rfl
@[simp] theorem emit_handoffs (o : Out) : (emit o s).handoffs = s.handoffs := rfl
@[simp] theorem emit_copies (o : Out) : (emit o s).copies = s.copies := rfl
@[simp] theorem emit_backing (o : Out) : (emit o s).backing = s.backing := rfl
@[simp] theorem emit_nextHandoff (o : Out) : (emit o s).nextHandoff = s.nextHandoff := rfl
@[simp] theorem emit_rings (o : Out) : (emit o s).rings = s.rings := rfl
@[simp] theorem emit_meter (o : Out) : (emit o s).meter = s.meter := rfl
@[simp] theorem emit_dump (o : Out) : (emit o s).dump = s.dump := rfl
@[simp] theorem emit_profs (o : Out) : (emit o s).profs = s.profs := rfl
@[simp] theorem emit_trace (o : Out) : (emit o s).trace = s.trace := rfl
@[simp] theorem emit_stop (o : Out) : (emit o s).stop = s.stop := rfl
@[simp] theorem emit_cond (o : Out) : (emit o s).cond = s.cond := rfl
@[simp] theorem emit_freeSig (o : Out) : (emit o s).freeSig = s.freeSig := rfl
@[simp] theorem emit_keepway (o : Out) : (emit o s).keepway = s.keepway := rfl
@[simp] theorem emit_pending (o : Out) : (emit o s).pending = s.pending := rfl
@[simp] theorem emit_memSt (o : Out) : (emit o s).memSt i = s.memSt i := rfl
@[simp] theorem emit_linkSt (o : Out) : (emit o s).linkSt i = s.linkSt i := rfl
@[simp] theorem emit_key (o : Out) : (emit o s).key i = s.key i := rfl
@[simp] theorem emit_obj (o : Out) : (emit o s).obj i = s.obj i := rfl
@[simp] theorem emit_part (o : Out) : (emit o s).part i = s.part i := rfl
@[simp] theorem emit_ctx (o : Out) : (emit o s).ctx i = s.ctx i := rfl
@[simp] theorem emit_queue (o : Out) : (emit o s).queue i = s.queue i := rfl
@[simp] theorem emit_fence (o : Out) : (emit o s).fence i = s.fence i := rfl
@[simp] theorem emit_dom (o : Out) : (emit o s).dom i = s.dom i := rfl

end Sys2Proof.Machine
end

