-- ==== Sys2Proof/Laws/Take.lean ====
section
/-! SUPPORT. Everything that taking, starting and ending a command can do to the state, once. -/

namespace Sys2Proof.Machine
open Sys2Proof Sys2Proof.Crypto

/-! ### What the shared operations leave alone -/

theorem bump_keep (w n : Nat) (hw : isAcct Config.keepId w = false) (s : State) :
    bump Config.keepId w n s = { s with ctrs := (bump Config.keepId w n s).ctrs } := by
  simp [bump, hw]

theorem tracePut_only (src part layer oper type a b : Nat) (s : State) :
    ∃ c x, tracePut src part layer oper type a b s = { s with ctrs := c, trace := x } := by
  unfold tracePut
  dsimp only
  split
  · rw [bump_keep 17 1 (by decide)]; exact ⟨_, _, rfl⟩
  · exact ⟨_, _, rfl⟩

theorem Traced.refl (s : State) : Traced s s := ⟨s.ctrs, s.trace, rfl⟩
theorem Traced.trans {s t u : State} (h : Traced s t) (k : Traced t u) : Traced s u := by
  obtain ⟨c, x, rfl⟩ := h; obtain ⟨c', x', rfl⟩ := k; exact ⟨c', x', rfl⟩
theorem Traced.trace (s : State) (x : Trace) : Traced s { s with trace := x } := ⟨s.ctrs, x, rfl⟩
theorem Traced.put (src part layer oper type a b : Nat) (s : State) : Traced s (tracePut src part layer oper type a b s) :=
  tracePut_only ..
theorem Traced.ite {c : Prop} [Decidable c] {s a b : State} (ha : Traced s a) (hb : Traced s b) : Traced s (if c then a else b) := by
  split
  · exact ha
  · exact hb
theorem Traced.each {α : Type} {l : List α} {f : α → State → State} (hf : ∀ a s, Traced s (f a s)) (s : State) :
    Traced s (each l f s) := by
  unfold Machine.each
  induction l generalizing s with
  | nil => exact .refl s
  | cons a l ih => exact (hf a s).trans (ih _)

theorem Traced.record (src part layer oper type a b : Nat) (s : State) : Traced s (traceRec src part layer oper type a b s) := by
  have first : Traced s (if tget 0 s.trace.lostRecs src ≠ 0 ∧ (tget [] s.trace.bufs src).length < 1024 then
      tracePut src part layer oper 6 (tget 0 s.trace.lostRecs src) 0
        { s with trace := { s.trace with lostRecs := tdel s.trace.lostRecs src, since := tdel s.trace.since src } } else s) :=
    Traced.ite ((Traced.trace s _).trans (Traced.put ..)) (.refl s)
  unfold traceRec
  dsimp only
  refine Traced.trans ?_ (Traced.put ..)
  refine Traced.trans ?_ (Traced.trace _ _)
  exact first.trans (Traced.ite ((Traced.put ..).trans (Traced.trace _ _)) (.refl _))

theorem Traced.pass {x : Trace} {src part layer oper : Nat} {k : State → State} (hk : ∀ s, Traced s (k s)) (s : State) :
    Traced s (tracePass x src part layer oper k s) := by
  unfold tracePass
  exact Traced.ite (hk s) (Traced.ite (Traced.trace _ _) (.refl _))

theorem Traced.work (t : Taken) (type b : Nat) (s : State) : Traced s (traceWork t type b s) := by
  unfold traceWork
  dsimp only
  refine Traced.ite (.refl s) ?_
  exact ((((Traced.trace s _).trans (Traced.pass (fun s => Traced.ite (.record ..) (.refl _)) _)).trans
    (Traced.pass (fun s => Traced.each (fun _ _ => .record ..) s) _)).trans
    (Traced.pass (fun s => Traced.each (fun _ _ => .record ..) s) _)).trans
    (Traced.pass (fun s => Traced.ite (.record ..) (.refl _)) _)

/-- An emission that only tells the host: an event entry or a message. -/
def Out.notice : Out → Bool
  | .event _ _ _ => true
  | .msix _ => true
  | _ => false

/-- What the bookkeeping of events may change: counters, one context, pending vectors, and what has been emitted. -/
def Evented (c : Nat) (s t : State) : Prop :=
  ∃ k x b o, t = { s with ctrs := k, ctxs := x, keep := { s.keep with pba := b }, out := o ++ s.out } ∧
    (∀ i, i ≠ c → tget ({} : Ctx) x i = tget {} s.ctxs i) ∧ ∀ e ∈ o, Out.notice e = true

theorem fireVector_only (v : Nat) (s : State) :
    ∃ b o, fireVector v s = { s with keep := { s.keep with pba := b }, out := o ++ s.out } ∧ ∀ e ∈ o, Out.notice e = true := by
  unfold fireVector
  split
  · exact ⟨_, [], rfl, by simp⟩
  · split
    · exact ⟨_, [], rfl, by simp⟩
    · exact ⟨s.keep.pba, [_], rfl, fun e he => by rw [List.mem_singleton.mp he]; rfl⟩

theorem Evented.fire {c : Nat} {s u : State} (v : Nat) (h : Evented c s u) : Evented c s (fireVector v u) := by
  obtain ⟨k, x, b, o, rfl, hx, ho⟩ := h
  obtain ⟨b', o', e, ho'⟩ := fireVector_only v { s with ctrs := k, ctxs := x, keep := { s.keep with pba := b }, out := o ++ s.out }
  exact ⟨k, x, b', o' ++ o, by rw [e, List.append_assoc], hx, fun e he => (List.mem_append.mp he).elim (ho' e) (ho e)⟩

theorem Evented.refl (c : Nat) (s : State) : Evented c s s := ⟨s.ctrs, s.ctxs, s.keep.pba, [], rfl, fun _ _ => rfl, by simp⟩

theorem raiseEvent_only (c cookie type code subject : Nat) (s : State) : Evented c s (raiseEvent c cookie type code subject s) := by
  have other : ∀ (f : Ctx → Ctx) i, i ≠ c → tget {} (tupd {} s.ctxs c f) i = tget {} s.ctxs i := fun f i h => tget_tupd_other _ _ _ _ _ h
  have one : ∀ (a b : Nat) (d : Bytes), ∀ e ∈ [Out.event a b d], Out.notice e = true := fun a b d e he => by
    rw [List.mem_singleton.mp he]; rfl
  unfold raiseEvent State.onCtx
  dsimp only
  split
  · exact .refl c s
  · split
    · exact ⟨_, _, s.keep.pba, [], rfl, other _, by simp⟩
    · split
      · exact ⟨s.ctrs, _, s.keep.pba, [_], rfl, other _, one _ _ _⟩
      · exact Evented.fire _ ⟨s.ctrs, _, s.keep.pba, [_], rfl, other _, one _ _ _⟩

theorem tmap_id_of {α : Type} (f : Nat → α → α) (t : Tab α) (h : ∀ p ∈ t, f p.1 p.2 = p.2) : tmap f t = t := by
  unfold tmap
  conv => rhs; rw [← List.map_id t]
  exact List.map_congr_left fun p hp => by simp [h p hp]

/-! ### A started command -/

theorem BeganCore.queue {q e inp s t b} (h : BeganCore q e inp s t b) : b.queue q = dequeued (s.queue q) := by
  unfold State.queue; rw [h.queueTab]; exact tget_tset_same ..
theorem BeganCore.queues {q e inp s t b} (h : BeganCore q e inp s t b) : ∀ i, i ≠ q → b.queue i = s.queue i := fun i hi => by
  unfold State.queue; rw [h.queueTab]; exact tget_tset_other _ _ _ _ _ hi
theorem Began.fence {q e inp s t b} (h : Began q e inp s t b) : b.fence (envFence e) = armed (s.fence (envFence e)) (s.queue q).nextSeq := by
  unfold State.fence; rw [h.fenceTab]; exact tget_tset_same ..
theorem Began.fences {q e inp s t b} (h : Began q e inp s t b) : ∀ i, i ≠ envFence e → b.fence i = s.fence i := fun i hi => by
  unfold State.fence; rw [h.fenceTab]; exact tget_tset_other _ _ _ _ _ hi

theorem seek_some {p : Nat → Bool} {n i k : Nat} (h : seek p n i = some k) : p k = true := by
  induction n generalizing i with
  | zero => simp [seek] at h
  | succ n ih =>
    unfold seek at h
    split at h
    · cases h; assumption
    · exact ih h

/-- A fence that is not Free is not the one FENCE_ALLOC hands out. -/
theorem selfFence_false {s : State} {op : Nat} {e : BitVec 1024} (h : (s.fence (envFence e)).state ≠ 0) :
    selfFence s op e = false := by
  unfold selfFence
  by_cases g : freeFence s = some (envFence e)
  · have := seek_some g
    simp only [beq_iff_eq] at this
    exact absurd this h
  · simp [g]

/-- The take checks read the contexts, the fences, the objects and the map epoch only. -/
theorem takeCheck_congr {s b : State} {info : CmdInfo} {c : Nat} {x : Queue} {e : BitVec 1024} (hw : envBits e 3 1 = 0)
    (hc : b.ctx c = s.ctx c) (ho : b.objs = s.objs) (he : b.epoch = s.epoch) (hd : b.epochDraining = s.epochDraining) :
    takeCheck b info c x e = takeCheck s info c x e := by
  have hobj : ∀ i, b.obj i = s.obj i := fun i => by unfold State.obj; rw [ho]
  have hl : handleLive b = handleLive s := by funext h; unfold handleLive; rw [hobj]
  unfold takeCheck
  simp only [hc, he, hd, hl, hobj, waitsOf, hw, List.range_zero, List.map_nil, List.any_nil]

theorem startBar_congr {s b : State} {t : Taken} (hq : (b.queue t.q).ctx = (s.queue t.q).ctx)
    (hc : b.ctxs = s.ctxs) (hp : b.parts = s.parts) (hh : b.host = s.host) : startBar b t = startBar s { q := t.q } := by
  have h1 : ∀ i, b.ctx i = s.ctx i := fun i => by unfold State.ctx; rw [hc]
  have h2 : ∀ i, b.part i = s.part i := fun i => by unfold State.part; rw [hp]
  unfold startBar
  simp only [hq, h1, h2, hh]

theorem envOpcode_of_step1 {s : State} {op : Nat} {e : BitVec 1024} (h : step1Bad s op e = false) : envOpcode e = op := by
  simp only [step1Bad, Bool.or_eq_false_iff, bne_eq_false_iff_eq] at h
  exact h.1.1.1.1.1.1

/-- The state once an entry has been taken and its fence armed. -/
def afterTake (q : Nat) (e : BitVec 1024) (s : State) : State := armFence (envFence e) (s.queue q).nextSeq (dequeue q s)

/-- The record of a command as it is taken. -/
def recordOf (info : CmdInfo) (q : Nat) (e : BitVec 1024) (inp : Bytes) (s : State) : Taken :=
  { q := q, seq := (s.queue q).nextSeq, idx := (s.queue q).head, e := e, takenAt := (afterTake q e s).now,
    fenceGen := ((afterTake q e s).fence (envFence e)).gen, inp := inp, objs := (handlesOf info e).map handleIdx, aux := 0 }

theorem dequeue_only (q : Nat) (s : State) :
    ∃ k, dequeue q s = { s with ctrs := k, queues := tset s.queues q (dequeued (s.queue q)), keep := { s.keep with rr := q } } := by
  unfold dequeue
  dsimp only
  rw [bump_keep 2 1 (by decide)]
  exact ⟨_, rfl⟩

theorem afterTake_only (q : Nat) (e : BitVec 1024) (s : State) :
    ∃ k, afterTake q e s = { s with
      ctrs := k, queues := tset s.queues q (dequeued (s.queue q)), keep := { s.keep with rr := q },
      fences := tset s.fences (envFence e) (armed (s.fence (envFence e)) (s.queue q).nextSeq) } := by
  obtain ⟨k, h⟩ := dequeue_only q s
  refine ⟨k, ?_⟩
  unfold afterTake armFence State.onFence tupd
  rw [h]
  rfl

theorem takeCmd_taken {op : Nat} {body : Body} {q : Nat} {e : BitVec 1024} {rc : BitVec 16} {inp : Bytes} {s : State}
    (h : Starts op q e rc s) :
    ∃ info, cmdInfo op = some info ∧
    takeCmd op body q e rc inp s =
      match takeHook (recordOf info q e inp s) (s.queue q).ctx (afterTake q e s) with
      | (false, s') => complete (recordOf info q e inp s) yeDenied (detailCommand 0) [] s'
      | (true, s') => tryStart body (recordOf info q e inp s) 0 inp { s' with taken := s'.taken ++ [recordOf info q e inp s] } := by
  obtain ⟨h1, h2, h3, h4, h5, h6, h7, h8, h9, h10, h11, ⟨info, hi, hk⟩, -, -, -⟩ := h
  subst h5
  have hself := selfFence_false (op := op) h7
  obtain ⟨k, ha⟩ := afterTake_only q e s
  have hk' : takeCheck (afterTake q e s) info (s.queue q).ctx (s.queue q) e = none :=
    (takeCheck_congr h11 (by rw [ha]; rfl) (by rw [ha]) (by rw [ha]) (by rw [ha])).trans hk
  refine ⟨info, hi, ?_⟩
  have e8 : ((s.fence (envFence e)).state == 2) = false := by simpa using h8
  have msb : ((0#16).msb && (s.ctx (s.queue q).ctx).device) = false := by simp
  unfold takeCmd
  simp only [h1, h2, h4, h6, hself, Bool.and_self, Bool.not_true, Bool.false_or, decide_eq_true_eq, Nat.not_le.mpr h3, if_false,
    Option.isSome_none, Bool.false_and, Bool.false_eq_true, msb, e8, Bool.or_self, Bool.not_false, Bool.and_false, h7, h9, ne_eq,
    not_true_eq_false, or_self, hi, Option.getD_some]
  change admitCmd body info (recordOf info q e inp s) (s.queue q).ctx (s.queue q) 0 inp (afterTake q e s) = _
  unfold admitCmd
  rw [show (recordOf info q e inp s).e = e from rfl, hk']
  all_goals rfl

theorem earlier_none {s : State} {t : Taken} {l : List Taken} (h : s.taken = l ++ [t]) (hl : ∀ y ∈ l, y.q ≠ t.q) :
    earlier s t = [] := by
  unfold earlier
  rw [h, List.filter_append, List.append_eq_nil_iff]
  constructor
  · rw [List.filter_eq_nil_iff]
    intro y hy
    simp [hl y hy]
  · simp [List.filter]

theorem startProf_none {s : State} {t : Taken} (h : ∀ p ∈ s.profs, p.2.queue ≠ some t.q) : startProf t s = s := by
  unfold startProf
  have : (s.profs.filter fun p => p.2.queue == some t.q) = [] := by
    rw [List.filter_eq_nil_iff]
    intro p hp
    simpa using h p hp
  rw [this]
  rfl

/-- A command that waits for nothing, with nothing before it, starts. -/
theorem tryStart_starts {body : Body} {t : Taken} {rc : Nat} {inp : Bytes} {s : State} {l : List Taken} (h : s.taken = l ++ [t])
    (hl : ∀ y ∈ l, y.q ≠ t.q) (hw : envBits t.e 3 1 = 0) (hbar : startBar s t = 0) (hp : ∀ p ∈ s.profs, p.2.queue ≠ some t.q) :
    tryStart body t rc inp s = body { t with phase := 2, startAt := s.now } rc inp
      (traceWork { t with phase := 2, startAt := s.now } 4 (envOpcode t.e) { s with taken := l ++ [{ t with phase := 2, startAt := s.now }] }) := by
  have hmap : (s.taken.map fun x => if x.q == t.q && x.seq == t.seq then { t with phase := 2, startAt := s.now } else x) =
      l ++ [{ t with phase := 2, startAt := s.now }] := by
    rw [h, List.map_append]
    congr 1
    · conv => rhs; rw [← List.map_id l]
      exact List.map_congr_left fun y hy => by simp [hl y hy]
    · simp
  unfold tryStart
  simp only [earlier_none h hl, badWait, waitsOf, hw, List.range_zero, List.map_nil, List.find?_nil, List.any_nil, List.isEmpty_nil,
    Bool.not_true, Bool.and_false, Bool.or_self, Bool.false_eq_true, if_false, List.all_nil, if_true, hbar, ne_eq, not_true_eq_false, hmap]
  rw [startProf_none (t := { t with phase := 2, startAt := s.now })]
  exact hp

/-- A command that starts runs its body at once, on a state in which only the driver interface's bookkeeping has moved;
`F` is what its hook leaves of the fences. -/
theorem takeCmd_core {op : Nat} {body : Body} {q : Nat} {e : BitVec 1024} {rc : BitVec 16} {inp : Bytes} {s : State} {F : Tab Fence}
    (h : Starts op q e rc s)
    (hook : ∀ t : Taken, t.e = e → t.seq = (s.queue q).nextSeq →
      takeHook t (s.queue q).ctx (afterTake q e s) = (true, { afterTake q e s with fences := F })) :
    ∃ t b, takeCmd op body q e rc inp s = body t 0 inp b ∧ BeganCore q e inp s t b ∧ b.fences = F := by
  obtain ⟨info, hi, hd⟩ := takeCmd_taken (body := body) (inp := inp) h
  obtain ⟨-, -, -, -, -, h6, -, -, -, h10, h11, -, hbar, honly, hfree⟩ := h
  obtain ⟨k, ha⟩ := afterTake_only q e s
  rw [hook (recordOf info q e inp s) rfl rfl] at hd
  have hqs : (afterTake q e s).queues = tset s.queues q (dequeued (s.queue q)) := by rw [ha]
  have hcs : (afterTake q e s).ctxs = s.ctxs := by rw [ha]
  have hpr : (afterTake q e s).profs = s.profs := by rw [ha]
  have hps : (afterTake q e s).parts = s.parts := by rw [ha]
  have hho : (afterTake q e s).host = s.host := by rw [ha]
  have hout : (afterTake q e s).out = s.out := by rw [ha]
  have htk : (afterTake q e s).taken = s.taken := by rw [ha]
  have hnow : (afterTake q e s).now = s.now := by rw [ha]; rfl
  have hbr : (afterTake q e s).bare = s.bare := by rw [ha]; rfl
  have hq1 : (afterTake q e s).queue q = dequeued (s.queue q) := by unfold State.queue; rw [hqs]; exact tget_tset_same ..
  have hat : (recordOf info q e inp s).takenAt = s.now := hnow
  clear ha hook
  generalize hr : recordOf info q e inp s = r at hd
  generalize afterTake q e s = a at *
  have hs : ({ a with fences := F, taken := a.taken ++ [r] } : State).taken = s.taken ++ [r] := congrArg (· ++ [r]) htk
  subst hr
  have hsb : startBar { a with fences := F, taken := a.taken ++ [recordOf info q e inp s] } (recordOf info q e inp s) = 0 :=
    (startBar_congr (s := s) (show (a.queue q).ctx = (s.queue q).ctx by rw [hq1]; rfl) hcs hps hho).trans hbar
  replace hd := hd.trans (tryStart_starts hs honly h11 hsb (by rw [hpr]; exact hfree))
  obtain ⟨c, x, hx⟩ := Traced.work { recordOf info q e inp s with phase := 2, startAt := a.now } 4
    (envOpcode (recordOf info q e inp s).e)
    { a with fences := F, taken := s.taken ++ [{ recordOf info q e inp s with phase := 2, startAt := a.now }] }
  refine ⟨_, _, hd, ?_, congrArg (fun u => u.fences) hx⟩
  constructor
  any_goals exact rfl
  any_goals assumption
  · exact (congrArg State.bare hx).trans hbr
  · exact (congrArg (fun b => b.queues) hx).trans hqs
  · exact (congrArg State.ctxs hx).trans hcs
  · exact congrArg State.taken hx
  · exact (congrArg State.out hx).trans hout

theorem afterTake_fences (q : Nat) (e : BitVec 1024) (s : State) :
    (afterTake q e s).fences = tset s.fences (envFence e) (armed (s.fence (envFence e)) (s.queue q).nextSeq) := by
  obtain ⟨k, ha⟩ := afterTake_only q e s
  rw [ha]

/-- Every command but ACC_OPEN arms its completion fence and no other. -/
theorem takeCmd_begins {op : Nat} {body : Body} {q : Nat} {e : BitVec 1024} {rc : BitVec 16} {inp : Bytes} {s : State}
    (h : Starts op q e rc s) (hop : op ≠ 0x0410) :
    ∃ t b, takeCmd op body q e rc inp s = body t 0 inp b ∧ Began q e inp s t b := by
  have h6 := h.2.2.2.2.2.1
  obtain ⟨t, b, h1, h2, h3⟩ := takeCmd_core (body := body) (inp := inp) (F := (afterTake q e s).fences) h fun t ht _ => by
    unfold takeHook
    rw [ht, envOpcode_of_step1 h6, if_pos hop]
  rw [afterTake_fences] at h3
  exact ⟨t, b, h1, h2, h3⟩

/-- ACC_OPEN arms its stream fence too. -/
theorem takeCmd_begins_stream {body : Body} {q : Nat} {e : BitVec 1024} {rc : BitVec 16} {inp : Bytes} {s : State} {sf : Nat}
    (h : Starts 0x0410 q e rc s) (hsf : opnd e 8 2 = sf) (h1 : (s.fence sf).state ≠ 0) (h2 : (s.fence sf).state ≠ 2)
    (h3 : (s.fence sf).owner = (s.queue q).ctx) (h4 : sf ≠ envFence e) :
    ∃ t b, takeCmd 0x0410 body q e rc inp s = body t 0 inp b ∧ BeganCore q e inp s t b ∧
      b.fences = tset (tset s.fences (envFence e) (armed (s.fence (envFence e)) (s.queue q).nextSeq)) sf
        (armed (s.fence sf) (s.queue q).nextSeq) := by
  have h6 := h.2.2.2.2.2.1
  have hf : (afterTake q e s).fence sf = s.fence sf := by
    unfold State.fence; rw [afterTake_fences]; exact tget_tset_other _ _ _ _ _ h4
  refine takeCmd_core h fun t ht hseq => ?_
  unfold takeHook
  rw [ht, envOpcode_of_step1 h6, if_neg (by decide), hsf]
  dsimp only
  rw [hf, if_neg (fun g => g.elim h1 fun g => g.elim (fun g => g h3) fun g => g.elim h2 h4)]
  unfold armFence State.onFence tupd
  rw [show tget {} (afterTake q e s).fences sf = s.fence sf from hf, afterTake_fences, hseq]
  rfl

/-! ### A command that ends -/

/-- What a fence becomes when it completes. -/
def completedFence (f : Fence) : Fence :=
  if f.state = 2 then
    if f.freed ∧ f.importers = [] then { gen := f.gen } else { f with state := if f.errors = 0 ∧ f.code = 0 then 3 else 4 }
  else f

theorem profEnded_none {t : Taken} {code : Nat} {s : State} (h : ∀ p ∈ s.profs, p.2.queue ≠ some t.q) : profEnded t code s = s := by
  unfold profEnded
  rw [tmap_id_of _ _ fun p hm => if_neg fun g => h p hm g.1]

/-- What has changed before the completion event of a command that ends. -/
def ended (t : Taken) (code : Nat) (k : Tab Counters) (tr : Trace) (f : Fence) (res : Bytes) (c : State) : State :=
  { c with
    ctrs := k, trace := tr,
    taken := c.taken.filter (fun y => !(y.q == t.q && y.seq == t.seq)),
    fences := tset c.fences (envFence t.e) f,
    out := Out.result t.q t.idx (resultEntry code t.seq c.now res) :: c.out }

/-- What a fence becomes when the command it belongs to fails with a code of its own. -/
def failedFence (code : Nat) (detail : BitVec 128) (f : Fence) : Fence :=
  completedFence (if f.state = 2 then { f with
    code := if f.code = 0 ∨ code = yeAbandoned ∨ code = yeProdAbandoned then code else f.code,
    detail := if f.code = 0 then detail else f.detail, errors := min 0xFFFF (f.errors + 1) } else f)

/-- A success, or the failure of another command than ACC_OPEN, fails no stream fence. -/
theorem failStream_none {t : Taken} {code : Nat} {detail : BitVec 128} {c : State} (h : code = 0 ∨ envOpcode t.e ≠ 0x0410) :
    failStream t code detail c = c := if_neg fun g => h.elim g.2.1 fun k => k g.1

/-- Everything that the end of a command changes, but for the failure of an ACC_OPEN, which fails its stream fence too. -/
theorem complete_only {t : Taken} {code : Nat} {c : State} (detail : BitVec 128) (res : Bytes) (hp : ∀ p ∈ c.profs, p.2.queue ≠ some t.q)
    (ho : code = 0 ∨ envOpcode t.e ≠ 0x0410) :
    ∃ k x tr b o fs, complete t code detail res c = { c with
      ctrs := k, ctxs := x, trace := tr, keep := { c.keep with pba := b },
      taken := c.taken.filter (fun y => !(y.q == t.q && y.seq == t.seq)), fences := fs,
      out := o ++ Out.result t.q t.idx (resultEntry code t.seq c.now res) :: c.out } ∧
      (∀ i, i ≠ (c.queue t.q).ctx → tget ({} : Ctx) x i = tget {} c.ctxs i) ∧ (∀ e ∈ o, Out.notice e = true) ∧
      tget ({} : Fence) fs (envFence t.e) = (if code = 0 then completedFence else failedFence code detail) (c.fence (envFence t.e)) ∧
      (∀ i, i ≠ envFence t.e → tget ({} : Fence) fs i = c.fence i) := by
  have ht : Traced c (if t.phase = 2 then traceWork t 5 code c else c) := Traced.ite (Traced.work t 5 code c) (.refl c)
  obtain ⟨k0, tr, ht⟩ := ht
  have hb : ∃ k, (if code = 0 then ({ c with ctrs := k0, trace := tr, taken := c.taken.filter (fun y => !(y.q == t.q && y.seq == t.seq)) } : State)
      else bump Config.keepId 3 1 { c with ctrs := k0, trace := tr, taken := c.taken.filter (fun y => !(y.q == t.q && y.seq == t.seq)) }) =
      { c with ctrs := k, trace := tr, taken := c.taken.filter (fun y => !(y.q == t.q && y.seq == t.seq)) } := by
    split
    · exact ⟨_, rfl⟩
    · rw [bump_keep 3 1 (by decide)]; exact ⟨_, rfl⟩
  obtain ⟨k, hb⟩ := hb
  have hfin : ∃ fs, (∀ u : State, u.fences = c.fences → (if code = 0 then fenceComplete (envFence t.e) u else fenceFail (envFence t.e) code detail u) = { u with fences := fs }) ∧
      tget ({} : Fence) fs (envFence t.e) = (if code = 0 then completedFence else failedFence code detail) (c.fence (envFence t.e)) ∧
      (∀ i, i ≠ envFence t.e → tget ({} : Fence) fs i = c.fence i) := by
    split
    · refine ⟨tset c.fences (envFence t.e) (completedFence (c.fence (envFence t.e))), fun u hu => ?_, tget_tset_same .., fun i hi => tget_tset_other _ _ _ _ _ hi⟩
      unfold fenceComplete State.onFence tupd
      rw [hu]
      rfl
    · refine ⟨tset (tset c.fences (envFence t.e) (if (c.fence (envFence t.e)).state = 2 then { c.fence (envFence t.e) with
          code := if (c.fence (envFence t.e)).code = 0 ∨ code = yeAbandoned ∨ code = yeProdAbandoned then code else (c.fence (envFence t.e)).code,
          detail := if (c.fence (envFence t.e)).code = 0 then detail else (c.fence (envFence t.e)).detail,
          errors := min 0xFFFF ((c.fence (envFence t.e)).errors + 1) } else c.fence (envFence t.e))) (envFence t.e)
          (failedFence code detail (c.fence (envFence t.e))), fun u hu => ?_, tget_tset_same .., fun i hi => ?_⟩
      · unfold fenceFail fenceComplete State.onFence tupd
        simp only [tget_tset_same, hu]
        rfl
      · rw [tget_tset_other _ _ _ _ _ hi, tget_tset_other _ _ _ _ _ hi]; rfl
  obtain ⟨fs, hfs, h1, h2⟩ := hfin
  let u : State := { c with
    ctrs := k, trace := tr, taken := c.taken.filter (fun y => !(y.q == t.q && y.seq == t.seq)), fences := fs,
    out := Out.result t.q t.idx (resultEntry code t.seq c.now res) :: c.out }
  have hd : complete t code detail res c =
      (if envEvent t.e then raiseEvent (c.queue t.q).ctx (envCookie t.e) 0x01 code (envFence t.e) u else u) := by
    unfold complete endCommand
    rw [failStream_none ho, ht]
    dsimp only
    rw [hb]
    have := hfs (emit (.result t.q t.idx (resultEntry code t.seq c.now res)) { c with ctrs := k, trace := tr, taken := c.taken.filter (fun y => !(y.q == t.q && y.seq == t.seq)) }) rfl
    rw [show (if code = 0 then fenceComplete (envFence t.e) (emit (.result t.q t.idx (resultEntry code t.seq ({ c with ctrs := k, trace := tr, taken := c.taken.filter (fun y => !(y.q == t.q && y.seq == t.seq)) } : State).now res)) { c with ctrs := k, trace := tr, taken := c.taken.filter (fun y => !(y.q == t.q && y.seq == t.seq)) }) else fenceFail (envFence t.e) code detail (emit (.result t.q t.idx (resultEntry code t.seq ({ c with ctrs := k, trace := tr, taken := c.taken.filter (fun y => !(y.q == t.q && y.seq == t.seq)) } : State).now res)) { c with ctrs := k, trace := tr, taken := c.taken.filter (fun y => !(y.q == t.q && y.seq == t.seq)) })) = u from this]
    rw [profEnded_none (s := u) hp]
  have hev : Evented (c.queue t.q).ctx u (complete t code detail res c) := by
    rw [hd]
    split
    · exact raiseEvent_only ..
    · exact .refl ..
  obtain ⟨k', x, b, o, h3, h4, h5⟩ := hev
  exact ⟨k', x, tr, b, o, fs, h3, h4, h5, h1, h2⟩

/-- Everything that the success of a command changes. -/
theorem done_only {t : Taken} {c : State} (res : Bytes) (hp : ∀ p ∈ c.profs, p.2.queue ≠ some t.q) :
    ∃ k x tr b o fs, done t res c = { c with
      ctrs := k, ctxs := x, trace := tr, keep := { c.keep with pba := b },
      taken := c.taken.filter (fun y => !(y.q == t.q && y.seq == t.seq)), fences := fs,
      out := o ++ Out.result t.q t.idx (resultEntry 0 t.seq c.now res) :: c.out } ∧
      (∀ i, i ≠ (c.queue t.q).ctx → tget ({} : Ctx) x i = tget {} c.ctxs i) ∧ (∀ e ∈ o, Out.notice e = true) ∧
      tget ({} : Fence) fs (envFence t.e) = completedFence (c.fence (envFence t.e)) ∧
      (∀ i, i ≠ envFence t.e → tget ({} : Fence) fs i = c.fence i) := by
  exact complete_only (code := 0) 0 res hp (.inl rfl)

/-- Everything that the failure of a command changes. -/
theorem failCmd_only {t : Taken} {code : Nat} {c : State} (hc : code ≠ 0) (hp : ∀ p ∈ c.profs, p.2.queue ≠ some t.q)
    (ho : envOpcode t.e ≠ 0x0410) :
    ∃ k x tr b o fs, failCmd t code c = { c with
      ctrs := k, ctxs := x, trace := tr, keep := { c.keep with pba := b },
      taken := c.taken.filter (fun y => !(y.q == t.q && y.seq == t.seq)), fences := fs,
      out := o ++ Out.result t.q t.idx (resultEntry code t.seq c.now []) :: c.out } ∧
      (∀ i, i ≠ (c.queue t.q).ctx → tget ({} : Ctx) x i = tget {} c.ctxs i) ∧ (∀ e ∈ o, Out.notice e = true) ∧
      tget ({} : Fence) fs (envFence t.e) = failedFence code (detailCommand 0) (c.fence (envFence t.e)) ∧
      (∀ i, i ≠ envFence t.e → tget ({} : Fence) fs i = c.fence i) := by
  have := complete_only (t := t) (code := code) (c := c) (detailCommand 0) [] hp (.inr ho)
  simp only [hc, if_false] at this
  exact this

theorem failCmd_bare {t : Taken} {code : Nat} {c : State} (hc : code ≠ 0) (hp : ∀ p ∈ c.profs, p.2.queue ≠ some t.q)
    (ho : envOpcode t.e ≠ 0x0410) :
    (failCmd t code c).bare = c.bare := by
  obtain ⟨k, x, tr, b, o, fs, h, -⟩ := failCmd_only hc hp ho
  rw [h]
  rfl

theorem done_answer {t : Taken} {c : State} (res : Bytes) (hp : ∀ p ∈ c.profs, p.2.queue ≠ some t.q) :
    Out.result t.q t.idx (resultEntry 0 t.seq c.now res) ∈ (done t res c).out := by
  obtain ⟨k, x, tr, b, o, fs, h, -⟩ := done_only res hp
  rw [h]
  exact List.mem_append_right _ (List.mem_cons_self ..)

/-- A success keeps everything emitted before it. -/
theorem done_emitted {t : Taken} {c : State} {o : Out} (res : Bytes) (hp : ∀ p ∈ c.profs, p.2.queue ≠ some t.q) (ho : o ∈ c.out) :
    o ∈ (done t res c).out := by
  obtain ⟨k, x, tr, b, o, fs, h, -⟩ := done_only res hp
  rw [h]
  exact List.mem_append_right _ (List.mem_cons_of_mem _ ho)

theorem done_bare {t : Taken} {c : State} (res : Bytes) (hp : ∀ p ∈ c.profs, p.2.queue ≠ some t.q) : (done t res c).bare = c.bare := by
  obtain ⟨k, x, tr, b, o, fs, h, -⟩ := done_only res hp
  rw [h]
  rfl

/-- A body that changes nothing of the driver interface and then succeeds completes its command. -/
theorem Began.completes {q : Nat} {e : BitVec 1024} {inp : Bytes} {s : State} {t : Taken} {b c : State} (h : Began q e inp s t b)
    (res : Bytes) (hq : c.queues = b.queues) (hf : c.fences = b.fences) (hc : c.ctxs = b.ctxs) (ht : c.taken = b.taken)
    (hfree : ∀ p ∈ c.profs, p.2.queue ≠ some t.q) (hn : c.now = s.now) :
    Completed q e res s (done t res c) ∧ (done t res c).bare = c.bare := by
  refine ⟨?_, done_bare res hfree⟩
  obtain ⟨k, x, tr, v, o, fs, hd, hx, -, hfs1, hfs2⟩ := done_only (t := t) res hfree
  have hfe : c.fence (envFence t.e) = armed (s.fence (envFence e)) (s.queue q).nextSeq := by
    rw [h.te]; exact (congrArg (fun f => tget ({} : Fence) f (envFence e)) hf).trans h.fence
  have hcf : completedFence (armed (s.fence (envFence e)) (s.queue q).nextSeq) =
      { armed (s.fence (envFence e)) (s.queue q).nextSeq with state := 3 } := by
    simp [completedFence, armed, h.kept]
  rw [hd]
  constructor
  · unfold Answered
    rw [h.tq, h.tidx, h.tseq, hn]
    exact List.mem_append_right _ (List.mem_cons_self ..)
  · refine Eq.trans ?_ hcf
    rw [← hfe, ← hfs1, h.te]
    rfl
  · exact (congrArg (fun f => tget ({} : Queue) f q) hq).trans h.queue
  · dsimp only
    rw [ht, h.taken, List.filter_append]
    have h1 : s.taken.filter (fun y => !(y.q == t.q && y.seq == t.seq)) = s.taken := by
      rw [List.filter_eq_self]
      intro y hy
      have := h.only y hy
      simp [h.tq, this]
    rw [h1]
    simp
  · intro i hi
    refine (hfs2 i (by rw [h.te]; exact hi)).trans ?_
    exact (congrArg (fun f => tget ({} : Fence) f i) hf).trans (h.fences i hi)
  · intro i hi
    exact (congrArg (fun f => tget ({} : Queue) f i) hq).trans (h.queues i hi)
  · intro i hi
    refine (hx i ?_).trans (congrArg (fun f => tget ({} : Ctx) f i) (hc.trans h.ctxs))
    rw [show (c.queue t.q).ctx = (s.queue q).ctx from ?_]
    · exact hi
    · rw [h.tq, show c.queue q = b.queue q from congrArg (fun f => tget ({} : Queue) f q) hq, h.queue]; rfl

/-- The same, where the body leaves the profile sets alone. -/
theorem Began.completed {q : Nat} {e : BitVec 1024} {inp : Bytes} {s : State} {t : Taken} {b c : State} (h : Began q e inp s t b)
    (res : Bytes) (hq : c.queues = b.queues) (hf : c.fences = b.fences) (hc : c.ctxs = b.ctxs) (ht : c.taken = b.taken)
    (hp : c.profs = b.profs) (hn : c.now = s.now) :
    Completed q e res s (done t res c) ∧ (done t res c).bare = c.bare :=
  h.completes res hq hf hc ht (by
    rw [hp, h.tq, show b.profs = s.profs from congrArg (fun u => u.profs) h.bare]
    exact h.free) hn

/-! ### What the body of a started command reads -/

section
variable {q : Nat} {e : BitVec 1024} {inp : Bytes} {s b : State} {t : Taken}

theorem BeganCore.aon (h : BeganCore q e inp s t b) : b.aon = s.aon := congrArg (fun u => u.aon) h.bare
theorem BeganCore.flash (h : BeganCore q e inp s t b) : b.flash = s.flash := congrArg (fun u => u.flash) h.bare
theorem BeganCore.clk (h : BeganCore q e inp s t b) : b.clk = s.clk := congrArg (fun u => u.clk) h.bare
theorem BeganCore.flt (h : BeganCore q e inp s t b) : b.flt = s.flt := congrArg (fun u => u.flt) h.bare
theorem BeganCore.mem (h : BeganCore q e inp s t b) : b.mem = s.mem := congrArg (fun u => u.mem) h.bare
theorem BeganCore.link (h : BeganCore q e inp s t b) : b.link = s.link := congrArg (fun u => u.link) h.bare
theorem BeganCore.host (h : BeganCore q e inp s t b) : b.host = s.host := congrArg (fun u => u.host) h.bare
theorem BeganCore.keys (h : BeganCore q e inp s t b) : b.keys = s.keys := congrArg (fun u => u.keys) h.bare
theorem BeganCore.parts (h : BeganCore q e inp s t b) : b.parts = s.parts := congrArg (fun u => u.parts) h.bare
theorem BeganCore.objs (h : BeganCore q e inp s t b) : b.objs = s.objs := congrArg (fun u => u.objs) h.bare
theorem BeganCore.accs (h : BeganCore q e inp s t b) : b.accs = s.accs := congrArg (fun u => u.accs) h.bare
theorem BeganCore.arrivals (h : BeganCore q e inp s t b) : b.arrivals = s.arrivals := congrArg (fun u => u.arrivals) h.bare
theorem BeganCore.users (h : BeganCore q e inp s t b) : b.users = s.users := congrArg (fun u => u.users) h.bare
theorem BeganCore.opTab (h : BeganCore q e inp s t b) : b.opTab = s.opTab := congrArg (fun u => u.opTab) h.bare
theorem BeganCore.nextOp (h : BeganCore q e inp s t b) : b.nextOp = s.nextOp := congrArg (fun u => u.nextOp) h.bare
theorem BeganCore.epoch (h : BeganCore q e inp s t b) : b.epoch = s.epoch := congrArg (fun u => u.epoch) h.bare
theorem BeganCore.epochDraining (h : BeganCore q e inp s t b) : b.epochDraining = s.epochDraining := congrArg (fun u => u.epochDraining) h.bare
theorem BeganCore.epochAt (h : BeganCore q e inp s t b) : b.epochAt = s.epochAt := congrArg (fun u => u.epochAt) h.bare
theorem BeganCore.slices (h : BeganCore q e inp s t b) : b.slices = s.slices := congrArg (fun u => u.slices) h.bare
theorem BeganCore.oldSlices (h : BeganCore q e inp s t b) : b.oldSlices = s.oldSlices := congrArg (fun u => u.oldSlices) h.bare
theorem BeganCore.doms (h : BeganCore q e inp s t b) : b.doms = s.doms := congrArg (fun u => u.doms) h.bare
theorem BeganCore.migs (h : BeganCore q e inp s t b) : b.migs = s.migs := congrArg (fun u => u.migs) h.bare
theorem BeganCore.handoffs (h : BeganCore q e inp s t b) : b.handoffs = s.handoffs := congrArg (fun u => u.handoffs) h.bare
theorem BeganCore.nextHandoff (h : BeganCore q e inp s t b) : b.nextHandoff = s.nextHandoff := congrArg (fun u => u.nextHandoff) h.bare
theorem BeganCore.rings (h : BeganCore q e inp s t b) : b.rings = s.rings := congrArg (fun u => u.rings) h.bare
theorem BeganCore.meter (h : BeganCore q e inp s t b) : b.meter = s.meter := congrArg (fun u => u.meter) h.bare
theorem BeganCore.dump (h : BeganCore q e inp s t b) : b.dump = s.dump := congrArg (fun u => u.dump) h.bare
theorem BeganCore.profs (h : BeganCore q e inp s t b) : b.profs = s.profs := congrArg (fun u => u.profs) h.bare
theorem BeganCore.stop (h : BeganCore q e inp s t b) : b.stop = s.stop := congrArg (fun u => u.stop) h.bare
theorem BeganCore.copies (h : BeganCore q e inp s t b) : b.copies = s.copies := congrArg (fun u => u.copies) h.bare
theorem BeganCore.backing (h : BeganCore q e inp s t b) : b.backing = s.backing := congrArg (fun u => u.backing) h.bare
theorem BeganCore.cond (h : BeganCore q e inp s t b) : b.cond = s.cond := congrArg (fun u => u.cond) h.bare
theorem BeganCore.keepway (h : BeganCore q e inp s t b) : b.keepway = s.keepway := congrArg (fun u => u.keepway) h.bare
theorem BeganCore.freeSig (h : BeganCore q e inp s t b) : b.freeSig = s.freeSig := congrArg (fun u => u.freeSig) h.bare
theorem BeganCore.pending (h : BeganCore q e inp s t b) : b.pending = s.pending := congrArg (fun u => u.pending) h.bare
theorem BeganCore.key_eq (h : BeganCore q e inp s t b) (i : Nat) : b.key i = s.key i := by unfold State.key; rw [h.keys]
theorem BeganCore.obj_eq (h : BeganCore q e inp s t b) (i : Nat) : b.obj i = s.obj i := by unfold State.obj; rw [h.objs]
theorem BeganCore.part_eq (h : BeganCore q e inp s t b) (i : Nat) : b.part i = s.part i := by unfold State.part; rw [h.parts]
theorem BeganCore.dom_eq (h : BeganCore q e inp s t b) (i : Nat) : b.dom i = s.dom i := by unfold State.dom; rw [h.doms]
theorem BeganCore.memSt_eq (h : BeganCore q e inp s t b) (i : Nat) : b.memSt i = s.memSt i := by unfold State.memSt; rw [h.mem]
theorem BeganCore.linkSt_eq (h : BeganCore q e inp s t b) (i : Nat) : b.linkSt i = s.linkSt i := by unfold State.linkSt; rw [h.link]
theorem BeganCore.ctx_eq (h : BeganCore q e inp s t b) (i : Nat) : b.ctx i = s.ctx i := by unfold State.ctx; rw [h.ctxs]
theorem BeganCore.now (h : BeganCore q e inp s t b) : b.now = s.now := congrArg Aon.time h.aon
theorem BeganCore.ctxOf (h : BeganCore q e inp s t b) : (b.queue t.q).ctx = (s.queue q).ctx := by rw [h.tq, h.queue]; rfl
theorem BeganCore.partOf (h : BeganCore q e inp s t b) : b.partOf t = (s.ctx (s.queue q).ctx).part := by
  unfold State.partOf; rw [h.ctxOf, h.ctx_eq]
theorem objAccess_bare (s : State) (part hd off len : Nat) (w : Bool) : objAccess s.bare part hd off len w = objAccess s part hd off len w := rfl
theorem BeganCore.access (h : BeganCore q e inp s t b) (part hd off len : Nat) (w : Bool) :
    objAccess b part hd off len w = objAccess s part hd off len w := by
  rw [← objAccess_bare, h.bare, objAccess_bare]
theorem BeganCore.accPart (h : BeganCore q e inp s t b) (hd : Nat) : Machine.accPart b t hd = Machine.accPart s { q := q } hd := by
  unfold Machine.accPart
  rw [h.partOf, h.obj_eq]
  rfl
theorem BeganCore.keepOf (h : BeganCore q e inp s t b) : ({ b.keep with rr := 0, pba := [] } : Keep) = { s.keep with rr := 0, pba := [] } :=
  congrArg (fun u => u.keep) h.bare
theorem BeganCore.drbg0 (h : BeganCore q e inp s t b) : b.keep.drbg0 = s.keep.drbg0 := congrArg (fun k => k.drbg0) h.keepOf
theorem BeganCore.drbg1 (h : BeganCore q e inp s t b) : b.keep.drbg1 = s.keep.drbg1 := congrArg (fun k => k.drbg1) h.keepOf
theorem BeganCore.verifyBad (h : BeganCore q e inp s t b) : b.keep.verifyBad = s.keep.verifyBad := congrArg (fun k => k.verifyBad) h.keepOf
theorem canDraw_bare (s : State) (i : Nat) : Machine.canDraw s.bare i = Machine.canDraw s i := rfl
theorem BeganCore.canDraw (h : BeganCore q e inp s t b) (i : Nat) : Machine.canDraw b i = Machine.canDraw s i := by
  rw [← canDraw_bare, h.bare, canDraw_bare]

theorem BeganCore.unbound {c : State} {t' : Taken} (h : BeganCore q e inp s t b) (hp : c.profs = b.profs) (hq : t'.q = t.q) :
    ∀ p ∈ c.profs, p.2.queue ≠ some t'.q := by
  rw [hp, hq, h.tq, h.profs]
  exact h.free

/-- The result entry of a started command that succeeds. -/
theorem BeganCore.answered {c : State} {t' : Taken} (h : BeganCore q e inp s t b) (res : Bytes) (hp : c.profs = b.profs) (hn : c.now = s.now)
    (h1 : t'.q = t.q) (h2 : t'.idx = t.idx) (h3 : t'.seq = t.seq) : Answered q 0 res s (done t' res c) := by
  have := done_answer res (h.unbound hp h1)
  unfold Answered
  rwa [h1, h2, h3, h.tq, h.tidx, h.tseq, hn] at this

/-- The result entry of a started command that fails. -/
theorem BeganCore.refused {c : State} {t' : Taken} {code : Nat} (h : BeganCore q e inp s t b) (hc : code ≠ 0) (hp : c.profs = b.profs)
    (hn : c.now = s.now) (h1 : t'.q = t.q) (h2 : t'.idx = t.idx) (h3 : t'.seq = t.seq) (ho : envOpcode t'.e ≠ 0x0410) :
    Answered q code [] s (failCmd t' code c) ∧ (failCmd t' code c).bare = c.bare := by
  refine ⟨?_, failCmd_bare hc (h.unbound hp h1) ho⟩
  obtain ⟨k, x, tr, v, o, fs, hd, -⟩ := failCmd_only hc (h.unbound hp h1) ho
  unfold Answered
  rw [hd, h1, h2, h3, h.tq, h.tidx, h.tseq, hn]
  exact List.mem_append_right _ (List.mem_cons_self ..)

/-- A started command that the keep goes on running. -/
theorem Began.running {c : State} {t' : Taken} (h : Began q e inp s t b) (aux : Nat) (hq : c.queues = b.queues) (hf : c.fences = b.fences)
    (ht : t' ∈ c.taken) (h1 : t'.q = t.q) (h2 : t'.seq = t.seq) (h3 : t'.e = t.e) (h4 : t'.phase = 2) (h5 : t'.aux = aux) :
    Running q e aux s c where
  fence := (congrArg (fun f => tget ({} : Fence) f (envFence e)) hf).trans h.fence
  queue := (congrArg (fun f => tget ({} : Queue) f q) hq).trans h.queue
  taken := ⟨t', ht, h1.trans h.tq, h2.trans h.tseq, h3.trans h.te, h4, h5⟩
  fences := fun i hi => (congrArg (fun f => tget ({} : Fence) f i) hf).trans (h.fences i hi)
  queues := fun i hi => (congrArg (fun f => tget ({} : Queue) f i) hq).trans (h.queues i hi)

end

end Sys2Proof.Machine
end

