-- ==== Sys2Proof/Laws/Ends.lean ====
section
/-! SUPPORT. What ending a command, writing an object and changing a port can do, and what a started command still sees of the state before it. -/

namespace Sys2Proof.Machine
open Sys2Proof Sys2Proof.Crypto

theorem Began.bareOf {q e inp s t b} (h : Began q e inp s t b) {α : Type} (f : State → α) (hf : ∀ s, f s = f s.bare) : f b = f s := by
  rw [hf b, h.bare, ← hf s]

/-- close a completed goal -/
theorem Began.fin {q e inp s t b} {c : State} (h : Began q e inp s t b) {r : Bytes} {B : State}
    (hq : c.queues = b.queues) (hf : c.fences = b.fences) (hc : c.ctxs = b.ctxs) (ht : c.taken = b.taken)
    (hp : c.profs = b.profs) (hn : c.now = s.now) (hb : c.bare = B) : Completed q e r s (done t r c) ∧ (done t r c).bare = B := by
  obtain ⟨h1, h2⟩ := h.completed r hq hf hc ht hp hn
  exact ⟨h1, h2.trans hb⟩

/-- A charge that fits raises no event. -/
theorem addMeter_ok {part i n s} (h : MeterFits s part i n) : addMeter part i n s = s.metered part i n := by
  unfold addMeter State.metered charged
  split
  · rfl
  · rename_i hp
    have h := h.resolve_left hp
    have hm : min (two64 - 1) (tget 0 (s.part part).meter i + n) = tget 0 (s.part part).meter i + n :=
      Nat.min_eq_right (Nat.le_sub_one_of_lt h)
    dsimp only
    rw [hm, if_neg (fun g => absurd h (Nat.not_lt.mpr g.2))]
    rfl

/-- A charge changes no partition but in its meter. -/
theorem metered_part (s : State) (p i n k : Nat) : ∃ m, (s.metered p i n).part k = { s.part k with meter := m } := by
  unfold State.metered charged State.part
  split
  · exact ⟨_, rfl⟩
  · refine ⟨if k = p then tset (s.part p).meter i (tget 0 (s.part p).meter i + n) else (s.part k).meter, ?_⟩
    unfold State.part
    by_cases h : k = p
    · subst h
      simp only [if_true, tget_tupd_same]
    · simp only [if_neg h, tget_tupd_other _ _ _ _ _ h]

/-- A started command may be looked at from a state in which its partition has been charged. -/
theorem Began.metered {q e inp s t b} (h : Began q e inp s t b) (p i n : Nat) : Began q e inp (s.metered p i n) t (b.metered p i n) where
  tq := h.tq
  tseq := h.tseq
  tidx := h.tidx
  te := h.te
  tphase := h.tphase
  tstart := h.tstart
  ttaken := h.ttaken
  tinp := h.tinp
  taux := h.taux
  bare := by
    show ({ b.bare with parts := charged p i n b.parts } : State) = { s.bare with parts := charged p i n s.parts }
    rw [h.bare, show b.parts = s.parts from congrArg (fun u => u.parts) h.bare]
  queueTab := h.queueTab
  ctxs := h.ctxs
  taken := h.taken
  out := h.out
  only := h.only
  free := h.free
  kept := h.kept
  fenceTab := h.fenceTab

/-- A command that charges its partition and emits one thing completes. -/
theorem Began.finCharged {q e inp s t b} (h : Began q e inp s t b) (o : Out) (p i n : Nat) (r : Bytes) :
    Completed q e r s (done t r (emit o (b.metered p i n))) ∧ (done t r (emit o (b.metered p i n))).bare = s.bare.metered p i n ∧
      o ∈ (done t r (emit o (b.metered p i n))).out := by
  obtain ⟨h1, h2⟩ := h.fin (c := emit o (b.metered p i n)) (r := r) rfl rfl rfl rfl rfl h.now (h.metered p i n).bare
  exact ⟨h1, h2, done_emitted _ (h.unbound rfl rfl) (List.mem_cons_self ..)⟩

/-- A charge changes no request's outcome at its station, and no access of a command. -/
theorem isolation_metered (s : State) (p i n st : Nat) (r : MReq) : isolation (s.metered p i n) st r = isolation s st r := by
  unfold isolation policyOf
  obtain ⟨m, h⟩ := metered_part s p i n r.part
  obtain ⟨m', h'⟩ := metered_part s p i n (s.obj (handleIdx r.handle.toNat)).part
  simp only [h, show ∀ k, (s.metered p i n).obj k = s.obj k from fun _ => rfl]
  simp only [h']
  rfl

theorem objAccess_metered (s : State) (p i n part h off len : Nat) (w : Bool) :
    objAccess (s.metered p i n) part h off len w = objAccess s part h off len w := by
  unfold objAccess
  simp only [isolation_metered]
  rfl

theorem tileAccess_metered (s : State) (p i n part h off len : Nat) :
    tileAccess (s.metered p i n) part h off len = tileAccess s part h off len := by
  unfold tileAccess
  have ho : (s.metered p i n).obj (handleIdx h) = s.obj (handleIdx h) := rfl
  have hn : ∀ f, (s.metered p i n).onObj (handleIdx h) f = (s.onObj (handleIdx h) f).metered p i n := fun _ => rfl
  rw [ho, hn, objAccess_metered, objAccess_metered]

theorem writeOut_ok {part h off b s} (hm : MeterFits s part 4 b.length) :
    writeOut part h off b s = emit (.objWrite h off b) (s.metered part 4 b.length) := by
  unfold writeOut; rw [addMeter_ok hm]

/-- A charge on another of the partition's counters leaves the room on this one. -/
theorem MeterFits.other {s : State} {p i n j m} (h : MeterFits s p i n) (hj : j ≠ i) : MeterFits (s.metered p j m) p i n := by
  rcases h with h | h
  · exact .inl h
  · by_cases g : p = 0xFF
    · exact .inl g
    · right
      unfold State.metered charged State.part
      simp only [if_neg g, tget_tupd_same]
      rw [tget_tset_other _ _ _ _ _ hj.symm]
      exact h

theorem putObj_ok {t part h off b k s} (ha : objAccess s part h off b.length true = 0) (hm : MeterFits s part 4 b.length) :
    putObj t part h off b k s = k (emit (.objWrite h off b) (s.metered part 4 b.length)) := by
  unfold putObj; dsimp only; rw [ha, writeOut_ok hm]; rfl

theorem readIn_ok {t h off len rc k s} (ha : objAccess s (accPart s t h) h off len false = 0) (hr : rc = 0) (hm : MeterFits s (accPart s t h) 5 len) :
    readIn t h off len rc k s = k (s.metered (accPart s t h) 5 len) := by
  unfold readIn withInput; dsimp only; rw [ha, hr, addMeter_ok hm]; rfl

theorem MeterFits.began {q e inp s t b p i n} (h : MeterFits s p i n) (hb : Began q e inp s t b) : MeterFits b p i n := by
  unfold MeterFits; rw [hb.part_eq]; exact h

/-- What a started command reads of an object of its partition. -/
theorem Began.reads {q e inp s t b} (hb : Began q e inp s t b) {part h off len k} (hp : Machine.accPart s { q := q } h = part)
    (ha : objAccess s part h off len false = 0) (hm : MeterFits s part 5 len) : readIn t h off len 0 k b = k (b.metered part 5 len) := by
  have hap : Machine.accPart b t h = part := by rw [hb.accPart, hp]
  rw [readIn_ok (by rw [hap, hb.access]; exact ha) rfl (by rw [hap]; exact hm.began hb), hap]

/-- What it writes to one. -/
theorem Began.writes {q e inp s t b} (hb : Began q e inp s t b) {part h off x k} (ha : objAccess s part h off x.length true = 0)
    (hm : MeterFits s part 4 x.length) : putObj t part h off x k b = k (emit (.objWrite h off x) (b.metered part 4 x.length)) :=
  putObj_ok (by rw [hb.access]; exact ha) (hm.began hb)

/-- What ending a command may change. -/
def Ended (s t : State) : Prop := ∃ k x tr b tk fs p o, t = { s with
  ctrs := k, ctxs := x, trace := tr, keep := { s.keep with pba := b }, taken := tk, fences := fs, profs := p, out := o }

theorem Ended.refl (s : State) : Ended s s := ⟨s.ctrs, s.ctxs, s.trace, s.keep.pba, s.taken, s.fences, s.profs, s.out, rfl⟩

theorem Ended.trans {s t u : State} (h : Ended s t) (g : Ended t u) : Ended s u := by
  obtain ⟨k, x, tr, b, tk, fs, p, o, rfl⟩ := h
  obtain ⟨k, x, tr, b, tk, fs, p, o, rfl⟩ := g
  exact ⟨_, _, _, _, _, _, _, _, rfl⟩

theorem Ended.event (c cookie type code subject : Nat) (s : State) : Ended s (raiseEvent c cookie type code subject s) := by
  obtain ⟨k, x, b, o, h, -⟩ := raiseEvent_only c cookie type code subject s
  exact ⟨k, x, s.trace, b, s.taken, s.fences, s.profs, _, h⟩

theorem Ended.traced {s t : State} (h : Traced s t) : Ended s t := by
  obtain ⟨c, x, rfl⟩ := h
  exact ⟨c, s.ctxs, x, s.keep.pba, s.taken, s.fences, s.profs, s.out, rfl⟩

theorem complete_ended (t : Taken) (code : Nat) (d : BitVec 128) (r : Bytes) (s : State) : Ended s (complete t code d r s) := by
  have h3 : ∀ u, Ended u (if code = 0 then u else bump Config.keepId 3 1 u) := fun u => by
    split
    · exact .refl u
    · rw [bump_keep 3 1 (by decide)]; exact ⟨_, u.ctxs, u.trace, u.keep.pba, u.taken, u.fences, u.profs, u.out, rfl⟩
  unfold complete endCommand
  have h0 : Ended s (failStream t code d s) := by
    unfold failStream
    split
    · exact ⟨s.ctrs, s.ctxs, s.trace, s.keep.pba, s.taken, _, s.profs, s.out, rfl⟩
    · exact .refl s
  refine h0.trans ?_
  clear h0
  generalize failStream t code d s = s
  have h1 : Ended s (if t.phase = 2 then traceWork t 5 code s else s) := by
    split
    · exact Ended.traced (Traced.work ..)
    · exact .refl s
  dsimp only
  refine h1.trans ?_
  generalize (if t.phase = 2 then traceWork t 5 code s else s) = u
  have h2 : Ended u { u with taken := u.taken.filter fun x => !(x.q == t.q && x.seq == t.seq) } :=
    ⟨u.ctrs, u.ctxs, u.trace, u.keep.pba, _, u.fences, u.profs, u.out, rfl⟩
  refine h2.trans ?_
  generalize ({ u with taken := u.taken.filter fun x => !(x.q == t.q && x.seq == t.seq) } : State) = v
  refine (h3 v).trans ?_
  generalize (if code = 0 then v else bump Config.keepId 3 1 v) = w
  have h4 : Ended w (profEnded t code (if code = 0 then fenceComplete (envFence t.e) (emit (.result t.q t.idx (resultEntry code t.seq w.now r)) w)
      else fenceFail (envFence t.e) code d (emit (.result t.q t.idx (resultEntry code t.seq w.now r)) w))) := by
    split
    · exact ⟨w.ctrs, w.ctxs, w.trace, w.keep.pba, w.taken, _, _, _, rfl⟩
    · exact ⟨w.ctrs, w.ctxs, w.trace, w.keep.pba, w.taken, _, _, _, rfl⟩
  refine h4.trans ?_
  generalize profEnded t code _ = z
  split
  · exact Ended.event ..
  · exact .refl _

theorem Ended.each {α : Type} {l : List α} {f : α → State → State} (hf : ∀ a s, Ended s (f a s)) (s : State) : Ended s (each l f s) := by
  unfold Machine.each
  induction l generalizing s with
  | nil => exact .refl s
  | cons a l ih => exact (hf a s).trans (ih _)

theorem Ended.parts {s t : State} (h : Ended s t) : t.parts = s.parts := by obtain ⟨k, x, tr, b, tk, fs, p, o, rfl⟩ := h; rfl

theorem Ended.part {s t : State} (h : Ended s t) (i : Nat) : t.part i = s.part i := by unfold State.part; rw [h.parts]

theorem port_onPort (u : Nat) (f : Port → Port) (s : State) : (s.onPort u f).port u = f (s.port u) := by
  unfold State.onPort State.port
  split
  · rw [memSt_onMem]
  · split
    · rw [linkSt_onLink]
    · rfl

theorem port_onPort_other (u v : Nat) (hu : isStation u = true) (hv : isStation v = true) (h : v ≠ u) (f : Port → Port) (s : State) :
    (s.onPort u f).port v = s.port v := by
  unfold isStation at hu hv
  unfold State.onPort State.port
  by_cases mu : isMem u = true <;> by_cases mv : isMem v = true <;> by_cases lu : isLink u = true <;> by_cases lv : isLink v = true <;>
    simp only [mu, mv, lu, lv, if_true, if_false, Bool.false_eq_true, memSt_onMem_other _ _ _ _ h, linkSt_onLink_other _ _ _ _ h] <;> try rfl
  all_goals
    simp [mu, mv, lu, lv] at hu hv
    try omega

theorem station_of_mem {u : Nat} (h : u ∈ stationIds) : isStation u = true := by
  revert u; decide

theorem stationIds_nodup : stationIds.Nodup := by decide

theorem each_port (l : List Nat) (hl : l.Nodup) (hs : ∀ u ∈ l, isStation u = true) (f : Nat → Port → Port) (s : State) (u : Nat) (hu : isStation u = true) :
    (each l (fun u s => s.onPort u (f u)) s).port u = if u ∈ l then f u (s.port u) else s.port u := by
  unfold each
  induction l generalizing s with
  | nil => simp
  | cons x l ih =>
    rw [List.foldl_cons, ih (List.nodup_cons.mp hl).2 (fun u h => hs u (List.mem_cons_of_mem _ h))]
    have hnx := (List.nodup_cons.mp hl).1
    by_cases hx : u = x
    · subst hx
      rw [if_neg hnx, if_pos (by simp), port_onPort]
    · rw [port_onPort_other x u (hs x (by simp)) hu hx]
      by_cases hs : u ∈ l
      · rw [if_pos hs, if_pos (by simp [hs])]
      · rw [if_neg hs, if_neg (by simp [hs, hx])]

theorem Ended.port {s t : State} (h : Ended s t) (u : Nat) : t.port u = s.port u := by
  obtain ⟨k, x, tr, b, tk, fs, p, o, rfl⟩ := h; rfl

theorem each_inv {α : Type} (P : State → Prop) (l : List α) (f : α → State → State) (hf : ∀ a s, P s → P (f a s)) (s : State) (h : P s) : P (each l f s) := by
  unfold each
  induction l generalizing s with
  | nil => exact h
  | cons a l ih => exact ih _ (hf a s h)

theorem refuseTake_only (q c idx seq code : Nat) (e : BitVec 1024) (s : State) : ∃ k x b o, refuseTake q c idx seq code e s =
    { s with ctrs := k, ctxs := x, keep := { s.keep with pba := b }, out := o ++ Out.result q idx (resultEntry code seq s.now []) :: s.out } := by
  unfold refuseTake
  rw [bump_keep 3 1 (by decide)]
  dsimp only
  obtain ⟨k, x, b, o, h, -, -⟩ := raiseEvent_only c (envCookie e) 0x07 code q
    (emit (.result q idx (resultEntry code seq s.now [])) { s with ctrs := (bump Config.keepId 3 1 s).ctrs })
  exact ⟨k, x, b, o, h⟩

theorem Ended.bump (u w n : Nat) (s : State) : Ended s (bump u w n s) := by
  have h : ∀ c, Ended s { s with ctrs := c } := fun c => ⟨c, s.ctxs, s.trace, s.keep.pba, s.taken, s.fences, s.profs, s.out, rfl⟩
  unfold Machine.bump
  dsimp only
  split
  · split
    · exact (h _).trans (Ended.event ..)
    · exact h _
  · exact h _

theorem Ended.emit (o : Out) (s : State) : Ended s (emit o s) := ⟨s.ctrs, s.ctxs, s.trace, s.keep.pba, s.taken, s.fences, s.profs, _, rfl⟩

theorem Ended.objs {s t : State} (h : Ended s t) : t.objs = s.objs := by obtain ⟨k, x, tr, b, tk, fs, p, o, rfl⟩ := h; rfl

end Sys2Proof.Machine
end

