-- ==== Sys2Proof/Laws/CipherLaws.lean ====
section
/-! SUPPORT. Lengths and pieces of the cipher functions: block streams, GHASH over a split text, little-endian numbers, and what a tenant slot lets through. -/

namespace Sys2Proof.Machine
open Sys2Proof Sys2Proof.Crypto

theorem tenant_owns {q e inp s t b slot cls} (hb : BeganCore q e inp s t b) (h : TenantSlot s q slot cls) (hc : isTenantCls cls = true) :
    ownsSlot b t slot = true := by
  obtain ⟨h1, h2, h3, h4, h5, h6⟩ := h
  unfold ownsSlot
  simp only [hb.key_eq, hb.partOf, hb.ctx_eq, hb.ctxOf]
  simp [h1, h2, h3, h4, h5, hc]

theorem tenant_check {q e inp s t b slot cls} (hb : BeganCore q e inp s t b) (h : TenantSlot s q slot cls) (hc : isTenantCls cls = true) :
    slotCheck b t slot cls = 0 := by
  unfold slotCheck
  rw [tenant_owns hb h hc, hb.key_eq, if_neg (by simp [h.2.2.2.1]), if_neg h.2.2.2.2.2]

theorem countBlocks_only {q e inp s t b} (hb : BeganCore q e inp s t b) (n : Nat) (c : State) (hp : c.profs = b.profs) :
    ∃ k, countBlocks t n c = { c with ctrs := k } := by
  unfold countBlocks
  dsimp only
  rw [tmap_id_of _ _ fun p hm => if_neg fun g => hb.unbound hp rfl p hm g.1, bump_keep 12 n (by decide)]
  exact ⟨_, rfl⟩

theorem countInv_only (slot : Nat) (s : State) (h : (s.key slot).inv + 1 < 2 ^ 47) :
    countInv slot s = { s with keys := tset s.keys slot { s.key slot with inv := (s.key slot).inv + 1 } } := by
  unfold countInv
  dsimp only
  rw [if_neg (fun g => by rw [key_onKey] at g; exact absurd g.2 (by dsimp only; omega))]
  rfl

theorem fit_len (n : Nat) (b : Bytes) : (fit n b).length = n := by
  unfold fit zeros; rw [List.length_append, List.length_take, List.length_replicate]; omega

theorem xorb_len (a b : Bytes) : (xorb a b).length = min a.length b.length := by unfold xorb; rw [List.length_zipWith]

theorem chunks_len4 (f : Nat) (b : Bytes) (hf : b.length ≤ f) (hm : b.length % 4 = 0) :
    (∀ w ∈ chunks 4 f b, w.length = 4) ∧ (chunks 4 f b).length = b.length / 4 := by
  induction f generalizing b with
  | zero => have : b = [] := List.length_eq_zero_iff.mp (by omega); subst this; exact ⟨by simp [chunks], rfl⟩
  | succ f ih =>
    cases b with
    | nil => exact ⟨by simp [chunks], rfl⟩
    | cons x b =>
      have hc : chunks 4 (f + 1) (x :: b) = (x :: b).take 4 :: chunks 4 f ((x :: b).drop 4) := rfl
      obtain ⟨h1, h2⟩ := ih ((x :: b).drop 4) (by rw [List.length_drop]; simp at hf ⊢; omega) (by rw [List.length_drop]; omega)
      rw [hc]
      refine ⟨fun w hw => ?_, ?_⟩
      · rcases List.mem_cons.mp hw with rfl | hw
        · rw [List.length_take]; simp at hm ⊢; omega
        · exact h1 w hw
      · rw [List.length_cons, h2, List.length_drop]; simp at hm ⊢; omega

theorem expand_len (n : Nat) : ∀ (i : Nat) (ws : List Bytes), (∀ w ∈ ws, w.length = 4) → 8 ≤ ws.length →
    (∀ w ∈ expandFrom n i ws, w.length = 4) ∧ (expandFrom n i ws).length = ws.length + n := by
  induction n with
  | zero => intro i ws h1 h2; exact ⟨h1, rfl⟩
  | succ n ih =>
    intro i ws h1 h2
    have hp : (ws.headD []).length = 4 := by
      cases ws with
      | nil => simp at h2
      | cons x ws => exact h1 x (by simp)
    have h7 : (ws.getD 7 []).length = 4 := by
      rw [List.getD_eq_getElem?_getD, List.getElem?_eq_getElem (by omega)]; exact h1 _ (List.getElem_mem _)
    have hn : ∀ w ∈ (xorb (if i % 8 = 0 then xorb (((ws.headD []).drop 1 ++ (ws.headD []).take 1).map sbox) (rcon (i / 8 - 1) :: zeros 3)
        else if i % 8 = 4 then (ws.headD []).map sbox else ws.headD []) (ws.getD 7 []) :: ws), w.length = 4 := by
      intro w hw
      rcases List.mem_cons.mp hw with rfl | hw
      · rw [xorb_len, h7]
        split
        · rw [xorb_len, List.length_map, List.length_append, List.length_drop, List.length_take, hp]; rfl
        · split
          · rw [List.length_map, hp]; rfl
          · rw [hp]; rfl
      · exact h1 w hw
    obtain ⟨g1, g2⟩ := ih (i + 1) _ hn (by simp; omega)
    exact ⟨g1, by show (expandFrom n (i+1) _).length = _; rw [g2, List.length_cons]; omega⟩

theorem flatten_len4 (l : List Bytes) (h : ∀ w ∈ l, w.length = 4) : l.flatten.length = 4 * l.length := by
  induction l with
  | nil => rfl
  | cons x l ih => rw [List.flatten_cons, List.length_append, ih (fun w hw => h w (by simp [hw])), h x (by simp), List.length_cons]; omega

theorem encBlock_len (k : BitVec 256) (x : Bytes) : (encBlock (roundKeys (keyBytes k)) x).length = 16 := by
  have hk : ((roundKeys (keyBytes k)).getD 14 []).length = 16 := by
    have hb := chunks_len4 (keyBytes k).length (keyBytes k) (Nat.le_refl _) (by unfold keyBytes; simp [le])
    have hkl : (keyBytes k).length = 32 := by unfold keyBytes; simp [le]
    obtain ⟨g1, g2⟩ := expand_len 52 8 (blocks 4 (keyBytes k)).reverse (by unfold blocks; intro w hw; exact hb.1 w (List.mem_reverse.mp hw)) (by unfold blocks; rw [List.length_reverse, hb.2, hkl]; all_goals omega)
    rw [List.length_reverse] at g2
    unfold blocks at g2
    rw [hb.2] at g2
    unfold roundKeys
    dsimp only
    rw [List.getD_eq_getElem?_getD, List.getElem?_eq_getElem (by simp), Option.getD_some, List.getElem_map, List.getElem_range, flatten_len4]
    · rw [List.length_take, List.length_drop, List.length_reverse]; unfold blocks; rw [g2, hkl]; rfl
    · intro w hw
      exact g1 w (List.mem_reverse.mp (List.mem_of_mem_drop (List.mem_of_mem_take hw)))
  unfold encBlock
  dsimp only
  rw [xorb_len, hk]
  unfold shiftRows
  rw [List.length_map, List.length_range]
  rfl

theorem ctrXor_len (k : BitVec 256) (iv : Bytes) (c : Nat) (p : Bytes) : (ctrXor k iv c p).length = p.length := by
  have : ∀ l : List Nat, (l.map fun i => encBlock (roundKeys (keyBytes k)) (iv ++ be 4 (c + i))).flatten.length = 16 * l.length := by
    intro l
    induction l with
    | nil => rfl
    | cons x l ih => rw [List.map_cons, List.flatten_cons, List.length_append, ih, encBlock_len, List.length_cons]; omega
  unfold ctrXor keystream
  rw [xorb_len, this, List.length_range]
  unfold nblocks
  omega

theorem chunks_fuel (f g : Nat) (b : Bytes) (hf : b.length ≤ f) (hg : b.length ≤ g) : chunks 16 f b = chunks 16 g b := by
  induction f generalizing g b with
  | zero => have : b = [] := List.length_eq_zero_iff.mp (by omega); subst this; cases g <;> rfl
  | succ f ih =>
    cases b with
    | nil => cases g <;> rfl
    | cons x b =>
      cases g with
      | zero => simp at hg
      | succ g =>
        show _ :: chunks 16 f _ = _ :: chunks 16 g _
        rw [ih g _ (by rw [List.length_drop]; simp at hf ⊢; omega) (by rw [List.length_drop]; simp at hg ⊢; omega)]

theorem blocks_cons (b : Bytes) (hb : b ≠ []) : blocks 16 b = b.take 16 :: blocks 16 (b.drop 16) := by
  unfold blocks
  cases b with
  | nil => exact absurd rfl hb
  | cons x b =>
    show _ :: chunks 16 b.length _ = _
    rw [chunks_fuel b.length ((x :: b).drop 16).length _ (by rw [List.length_drop]; simp) (Nat.le_refl _)]

theorem ghash_split (h acc : BitVec 128) (m : Nat) : ∀ (a b : Bytes), a.length = 16 * m → ghashFrom h (ghashFrom h acc a) b = ghashFrom h acc (a ++ b) := by
  induction m generalizing acc with
  | zero => intro a b ha; have : a = [] := List.length_eq_zero_iff.mp (by omega); subst this; rfl
  | succ m ih =>
    intro a b ha
    have hne : a ≠ [] := fun g => by subst g; simp at ha
    have h1 : (a ++ b).take 16 = a.take 16 := by rw [List.take_append_of_le_length (by omega)]
    have h2 : (a ++ b).drop 16 = a.drop 16 ++ b := by rw [List.drop_append_of_le_length (by omega)]
    unfold ghashFrom at ih ⊢
    rw [blocks_cons a hne, blocks_cons (a ++ b) (by simp [hne]), h1, h2, List.foldl_cons, List.foldl_cons]
    exact ih _ _ _ (by rw [List.length_drop]; omega)

theorem blk_pad (b : Bytes) (n : Nat) (h : b.length + n ≤ 16) : blk (b ++ zeros n) = blk b := by
  unfold blk
  congr 2
  unfold fit
  rw [List.take_of_length_le (by simp [zeros]; omega), List.take_of_length_le (by omega), List.append_assoc]
  congr 1
  unfold zeros
  rw [← List.replicate_append_replicate.symm]
  congr 1
  simp
  omega

theorem ghash_pad (h acc : BitVec 128) (m : Nat) : ∀ (a : Bytes), a.length / 16 = m → ghashFrom h acc (pad16 a) = ghashFrom h acc a := by
  induction m generalizing acc with
  | zero =>
    intro a ha
    by_cases hne : a = []
    · subst hne; rfl
    · have hl : 0 < a.length := List.length_pos_iff.mpr hne
      have hp : pad16 a = a ++ zeros (16 - a.length) := by unfold pad16; congr 2; omega
      unfold ghashFrom
      rw [hp, blocks_cons a hne, blocks_cons _ (by simp [hne])]
      have e1 : (a ++ zeros (16 - a.length)).take 16 = a ++ zeros (16 - a.length) := List.take_of_length_le (by simp [zeros]; omega)
      have e2 : (a ++ zeros (16 - a.length)).drop 16 = [] := List.drop_eq_nil_of_le (by simp [zeros]; omega)
      have e3 : a.take 16 = a := List.take_of_length_le (by omega)
      have e4 : a.drop 16 = [] := List.drop_eq_nil_of_le (by omega)
      rw [e1, e2, e3, e4]
      show gmul (acc ^^^ blk _) h = gmul (acc ^^^ blk a) h
      rw [blk_pad _ _ (by omega)]
  | succ m ih =>
    intro a ha
    have hp : pad16 a = a.take 16 ++ pad16 (a.drop 16) := by
      unfold pad16
      rw [← List.append_assoc, List.take_append_drop, List.length_drop]
      congr 3
      omega
    rw [hp, ← ghash_split h acc 1 (a.take 16) (pad16 (a.drop 16)) (by rw [List.length_take]; omega), ih _ _ (by rw [List.length_drop]; omega),
      ghash_split h acc 1 _ _ (by rw [List.length_take]; omega), List.take_append_drop]

theorem le_succ (n v : Nat) : le (n + 1) v = BitVec.ofNat 8 v :: le n (v >>> 8) := by
  unfold le
  rw [List.range_succ_eq_map, List.map_cons, List.map_map]
  congr 1
  apply List.map_congr_left
  intro i _
  simp only [Function.comp]
  rw [← Nat.shiftRight_add]
  congr 2
  omega

theorem ofLe_le (n v : Nat) : ofLe (le n v) = v % 256 ^ n := by
  induction n generalizing v with
  | zero => simp [le, ofLe, Nat.mod_one]
  | succ n ih =>
    rw [le_succ]
    show ofLe (le n (v >>> 8)) * 256 + (BitVec.ofNat 8 v).toNat = _
    have hp : 256 ^ (n + 1) = 256 * 256 ^ n := by rw [Nat.pow_succ, Nat.mul_comm]
    rw [ih, BitVec.toNat_ofNat, Nat.shiftRight_eq_div_pow, hp, Nat.mod_mul, show (2:Nat)^8 = 256 from rfl]
    omega

theorem le_len (n v : Nat) : (le n v).length = n := by simp [le]

theorem blk_unblk (v : BitVec 128) : blk (unblk v) = v := by
  unfold blk unblk
  have hl : (be 16 v.toNat).length = 16 := by unfold be; rw [List.length_reverse, le_len]
  have hf : fit 16 (be 16 v.toNat) = be 16 v.toNat := by
    unfold fit; rw [hl, List.take_of_length_le (by omega)]; simp [zeros]
  rw [hf]
  have : ofBe (be 16 v.toNat) = v.toNat := by
    unfold ofBe be
    rw [List.foldl_reverse]
    show ofLe (le 16 v.toNat) = _
    rw [ofLe_le, show (256:Nat)^16 = 2^128 from rfl]
    exact Nat.mod_eq_of_lt v.isLt
  rw [this]
  simp

theorem gcmSeal_snd (k iv a p) : (gcmSeal k iv a p).2 = gcmTag k iv a (ctrXor k iv 2 p) := by unfold gcmSeal; dsimp only

theorem gcmSeal_fst (k iv a p) : (gcmSeal k iv a p).1 = ctrXor k iv 2 p := by unfold gcmSeal; dsimp only

theorem stream0 (k iv c p) : streamXor k iv c 0 p = ctrXor k iv c p := by unfold streamXor; simp [zeros]

end Sys2Proof.Machine
end

