-- ==== Sys2Proof/Laws/Commands.lean ====
section
/-! SUPPORT. What the operations under the commands can do: link jobs, places, draws, retiring slots, leases and maps, handles and rings. -/

namespace Sys2Proof.Machine
open Sys2Proof Sys2Proof.Crypto

theorem onJob_get (s : State) (st part : Nat) (f : Job → Job) (st' : Nat) :
    jobOf (onJob s st part f) st' part = if st' = st then f (jobOf s st' part) else jobOf s st' part := by
  unfold jobOf onJob State.onLink State.linkSt
  by_cases h : st' = st
  · subst h; simp only [tget_tupd_same, if_true]
  · simp only [tget_tupd_other _ _ _ _ _ h, if_neg h]

theorem each_onJob (l : List Nat) (hl : l.Nodup) (part : Nat) (f : Job → Job) (s : State) (st : Nat) :
    jobOf (each l (fun st s => onJob s st part f) s) st part = if st ∈ l then f (jobOf s st part) else jobOf s st part := by
  induction l generalizing s with
  | nil => simp [each]
  | cons x l ih =>
    have hx := List.nodup_cons.mp hl
    show jobOf (each l _ (onJob s x part f)) st part = _
    rw [ih hx.2, onJob_get]
    by_cases h : st = x
    · subst h; simp [hx.1]
    · simp [h]

theorem each_onJob_only (l : List Nat) (part : Nat) (f : Job → Job) (s : State) :
    ∃ k, each l (fun st s => onJob s st part f) s = { s with link := k } := by
  induction l generalizing s with
  | nil => exact ⟨_, rfl⟩
  | cons x l ih =>
    obtain ⟨k, h⟩ := ih (onJob s x part f)
    exact ⟨k, h⟩

theorem each_emit {α : Type} (l : List α) (f : α → Out) (s : State) :
    ∃ o, each l (fun x s => emit (f x) s) s = { s with out := o ++ s.out } ∧ ∀ x ∈ l, f x ∈ o := by
  induction l generalizing s with
  | nil => exact ⟨[], rfl, by simp⟩
  | cons x l ih =>
    obtain ⟨o, h, hm⟩ := ih (emit (f x) s)
    refine ⟨o ++ [f x], ?_, ?_⟩
    · show each l _ (emit (f x) s) = _
      rw [h]
      simp [emit]
    · intro y hy
      rcases List.mem_cons.mp hy with rfl | hy
      · simp
      · simp [hm y hy]

theorem each_place_accs (l : List Place) (d : Nat) (a : AccCopy) (s : State) :
    ∃ m, each l (fun p s => s.onMem p.st fun m => { m with accs := tset m.accs d a }) s = { s with mem := m } ∧
      ∀ st, tget {} (tget ({} : MemSt) m st).accs d = if (∃ p ∈ l, p.st = st) then a else tget {} (s.memSt st).accs d := by
  induction l generalizing s with
  | nil => exact ⟨_, rfl, fun st => by simp; rfl⟩
  | cons x l ih =>
    obtain ⟨m, h, hm⟩ := ih (s.onMem x.st fun m => { m with accs := tset m.accs d a })
    refine ⟨m, h, fun st => ?_⟩
    rw [hm st]
    by_cases hx : x.st = st
    · subst hx
      have : (∃ p ∈ x :: l, p.st = x.st) := ⟨x, by simp, rfl⟩
      rw [if_pos this]
      split
      · rfl
      · unfold State.onMem State.memSt; simp only [tget_tupd_same, tget_tset_same]
    · by_cases hl : ∃ p ∈ l, p.st = st
      · rw [if_pos hl, if_pos (by obtain ⟨p, hp, e⟩ := hl; exact ⟨p, by simp [hp], e⟩)]
      · rw [if_neg hl, if_neg (by rintro ⟨p, hp, e⟩; rcases List.mem_cons.mp hp with rfl | hp; exact hx e; exact hl ⟨p, hp, e⟩)]
        unfold State.onMem State.memSt; simp only [tget_tupd_other _ _ _ _ _ (Ne.symm hx)]

theorem tfind_tdel_other {α : Type} (t : Tab α) (k j : Nat) (h : j ≠ k) : tfind (tdel t k) j = tfind t j := by
  induction t with
  | nil => rfl
  | cons x t ih =>
    obtain ⟨i, v⟩ := x
    unfold tdel
    split
    · rename_i hk; subst hk; simp only [tfind, if_neg (Ne.symm h)]
    · simp only [tfind]; rw [ih]

def attFold (f : Nat → Nat) (lo n : Nat) (m : Tab Nat) : Tab Nat :=
  ((List.range n).map fun i => (lo + i, f i)).foldl (fun m x => if decide (2 ^ 31 ≤ x.2) then tset m x.1 (x.2 % 2 ^ 18) else tdel m x.1) m

theorem attFold_succ (f : Nat → Nat) (lo n : Nat) (m : Tab Nat) : attFold f lo (n + 1) m =
    if decide (2 ^ 31 ≤ f n) then tset (attFold f lo n m) (lo + n) (f n % 2 ^ 18) else tdel (attFold f lo n m) (lo + n) := by
  unfold attFold
  rw [List.range_succ, List.map_append, List.foldl_append]
  rfl

theorem attFold_out (f : Nat → Nat) (lo n : Nat) (m : Tab Nat) (p : Nat) (h : p < lo ∨ lo + n ≤ p) : tfind (attFold f lo n m) p = tfind m p := by
  induction n with
  | zero => rfl
  | succ n ih =>
    rw [attFold_succ]
    have : p ≠ lo + n := by omega
    split
    · rw [tfind_tset_other _ _ _ _ this]; exact ih (by omega)
    · rw [tfind_tdel_other _ _ _ this]; exact ih (by omega)

theorem attFold_in (f : Nat → Nat) (lo n : Nat) (m : Tab Nat) (i : Nat) (h : i < n) (hv : 2 ^ 31 ≤ f i) :
    tfind (attFold f lo n m) (lo + i) = some (f i % 2 ^ 18) := by
  induction n with
  | zero => omega
  | succ n ih =>
    rw [attFold_succ]
    by_cases g : i = n
    · subst g; rw [if_pos (by simpa using hv)]; exact tfind_tset_same ..
    · have : lo + i ≠ lo + n := by omega
      split
      · rw [tfind_tset_other _ _ _ _ this]; exact ih (by omega)
      · rw [tfind_tdel_other _ _ _ this]; exact ih (by omega)

theorem draw0_eq (u : State) : ∃ k, draw0 u =
    ((drbgGen u.keep.drbg0).1, { u with keep := { u.keep with drbg0 := (drbgGen u.keep.drbg0).2 }, ctrs := k }) := by
  refine ⟨(draw0 u).2.ctrs, ?_⟩
  unfold draw0; generalize drbgGen u.keep.drbg0 = g; rw [bump_keep 14 1 (by decide)]

def firstOf (part cls : Nat) (k : BitVec 256) : KeySlot := { state := 1, cls := cls, owner := part, gen := 1, cur := k }

theorem createKeys (h kib part a b' : Nat) (b : State) : ∃ k, openRing h kib
      (((draw0 (draw0 b).2).2.onKey a fun _ => firstOf part 3 (draw0 b).1).onKey b' fun _ => firstOf part 4 (draw0 (draw0 b).2).1) =
    { b with
      keep := { b.keep with drbg0 := (drbgGen (drbgGen b.keep.drbg0).2).2 }, ctrs := k
      keys := tset (tset b.keys a (firstOf part 3 (drbgGen b.keep.drbg0).1)) b' (firstOf part 4 (drbgGen (drbgGen b.keep.drbg0).2).1)
      rings := tset b.rings h { handle := h, size := 1024 * kib }
      out := .ring h 0 (le 8 64 ++ le 8 64 ++ le 8 (1024 * kib) ++ zeros 40) :: b.out } := by
  obtain ⟨k, h1⟩ := draw0_eq b
  rw [h1]
  generalize drbgGen b.keep.drbg0 = g
  obtain ⟨k', h2⟩ := draw0_eq { b with keep := { b.keep with drbg0 := g.2 }, ctrs := k }
  dsimp only at h2 ⊢
  rw [h2]
  generalize drbgGen g.2 = g'
  exact ⟨k', rfl⟩

/-- A retirement is recorded in the Key Register and sent to the stations; nothing else changes. -/
theorem retire_only (i l : Nat) (s : State) : retireSlot i l s = { s with keys := (retireSlot i l s).keys, keepway := (retireSlot i l s).keepway } := by
  unfold retireSlot issue; split <;> rfl

theorem retire_at (i l j : Nat) (s : State) : ((retireSlot i l s).key j) =
    if j = i ∧ (s.key j).state ≠ 0 ∧ (s.key j).state ≠ 6 then { s.key j with
      state := 6, pend := if (s.key j).state = 2 ∨ (s.key j).state = 3 then 0 else (s.key j).pend,
      pendIs := if (s.key j).state = 2 ∨ (s.key j).state = 3 then 0 else (s.key j).pendIs, cutAt := some (s.now + l), waitSwap := [] }
    else s.key j := by
  have hi (u : State) : (issue 2 i u).key j = u.key j := rfl
  unfold retireSlot
  by_cases g : (s.key i).state = 0 ∨ (s.key i).state = 6
  · rw [if_pos g, if_neg]
    rintro ⟨rfl, a, b⟩
    exact g.elim a b
  · rw [if_neg g, hi]
    by_cases hj : j = i
    · subst hj
      rw [key_onKey, if_pos (show j = j ∧ (s.key j).state ≠ 0 ∧ (s.key j).state ≠ 6 from ⟨rfl, fun n => g (.inl n), fun n => g (.inr n)⟩)]
    · rw [key_onKey_other _ _ _ _ hj, if_neg (fun a => hj a.1)]

theorem retire_key (i l j : Nat) (s : State) (h : (s.key j).state = 6 ∨ (j = i ∧ (s.key j).state ≠ 0)) : ((retireSlot i l s).key j).state = 6 := by
  rw [retire_at]
  split
  · rfl
  · rename_i g
    rcases h with h | ⟨rfl, h⟩
    · exact h
    · exact Classical.byContradiction fun n => g ⟨rfl, h, n⟩

theorem retire_nz (i l j : Nat) (s : State) (h : (s.key j).state ≠ 0) : ((retireSlot i l s).key j).state ≠ 0 := by
  rw [retire_at]
  split
  · exact Nat.succ_ne_zero 5
  · exact h

theorem retire_each (l : List Nat) (lim j : Nat) (s : State) (h : (s.key j).state = 6 ∨ (j ∈ l ∧ (s.key j).state ≠ 0)) :
    ((each l (fun i s => retireSlot i lim s) s).key j).state = 6 := by
  unfold each
  induction l generalizing s with
  | nil => simpa using h
  | cons x l ih =>
    refine ih (retireSlot x lim s) ?_
    rcases h with h | ⟨h, g⟩
    · exact Or.inl (retire_key _ _ _ _ (Or.inl h))
    · rcases List.mem_cons.mp h with h | h
      · exact Or.inl (retire_key _ _ _ _ (Or.inr ⟨h, g⟩))
      · exact Or.inr ⟨h, retire_nz _ _ _ _ g⟩

theorem onJob_only (s : State) (st p : Nat) (f : Job → Job) : onJob s st p f = { s with link := (onJob s st p f).link } := rfl

theorem onJobs_only (p : Nat) (f : Job → Job) (s : State) : onJobs p f s = { s with link := (onJobs p f s).link } := by
  unfold onJobs each
  generalize Config.linkIds = l
  induction l generalizing s with
  | nil => rfl
  | cons x l ih => rw [List.foldl_cons, ih]; rfl

theorem onJobs_at (p : Nat) (f : Job → Job) (s : State) (l : List Nat) (hl : l.Nodup) (st : Nat) :
    jobOf (each l (fun st s => onJob s st p f) s) st p = if st ∈ l then f (jobOf s st p) else jobOf s st p := by
  unfold each
  induction l generalizing s with
  | nil => simp
  | cons x l ih =>
    rw [List.foldl_cons, ih _ (List.nodup_cons.mp hl).2]
    have hnx := (List.nodup_cons.mp hl).1
    by_cases hx : st = x
    · subst hx
      rw [if_neg hnx, if_pos (by simp)]
      unfold jobOf onJob State.onLink State.linkSt
      simp only [tget_tupd_same]
    · have : jobOf (onJob s x p f) st p = jobOf s st p := by
        unfold jobOf onJob State.onLink State.linkSt
        simp only [tget_tupd_other _ _ _ _ _ hx]
      rw [this]
      by_cases hs : st ∈ l
      · rw [if_pos hs, if_pos (by simp [hs])]
      · rw [if_neg hs, if_neg (by simp [hs, hx])]

theorem linkIds_nodup : Config.linkIds.Nodup := by decide

theorem each_only_keys (l : List Nat) (lim : Nat) (s : State) : each l (fun i s => retireSlot i lim s) s =
    { s with keys := (each l (fun i s => retireSlot i lim s) s).keys, keepway := (each l (fun i s => retireSlot i lim s) s).keepway } := by
  unfold each
  induction l generalizing s with
  | nil => rfl
  | cons x l ih =>
    show List.foldl _ (retireSlot x lim s) l = _
    have h := retire_only x lim s
    rw [ih]
    generalize hk : (List.foldl (fun s x => retireSlot x lim s) s (x :: l)).keys = k
    generalize hw : (List.foldl (fun s x => retireSlot x lim s) s (x :: l)).keepway = w
    rw [List.foldl_cons] at hk hw
    rw [hk, hw, h]

theorem endExch_only (part : Nat) (x : Exch) (u : State) : endExch part x u =
    { u with keys := (endExch part x u).keys, doms := (endExch part x u).doms, keepway := (endExch part x u).keepway } := by
  unfold endExch
  dsimp only
  split
  · rw [retire_only]; rfl
  · rfl

theorem endExch_six (part j : Nat) (x : Exch) (u : State) (h : (u.key j).state = 6) : ((endExch part x u).key j).state = 6 := by
  unfold endExch
  dsimp only
  split
  · exact retire_key _ _ _ _ (Or.inl h)
  · exact h

theorem endExch_dom (part p : Nat) (x : Exch) (u : State) (h : p ≠ part) : (endExch part x u).dom p = u.dom p := by
  unfold endExch
  dsimp only
  split
  · rw [dom_onDom_other _ _ _ _ h, retire_only]; rfl
  · rw [dom_onDom_other _ _ _ _ h]

theorem onePair {a b : Nat} {s : State} (h : freePair s = some (a, b)) : freeSlot s false = some a ∧ nextSlot s a = some b := by
  unfold freePair at h
  split at h
  · cases h
  · rename_i x hx
    cases hn : nextSlot s x with
    | none => rw [hn] at h; cases h
    | some y => rw [hn] at h; cases h; exact ⟨hx, hn⟩

theorem seek_lt {p : Nat → Bool} {n i k : Nat} (h : seek p n i = some k) : i ≤ k := by
  induction n generalizing i with
  | zero => simp [seek] at h
  | succ n ih =>
    unfold seek at h
    split at h
    · cases h; exact Nat.le_refl _
    · exact Nat.le_of_succ_le (ih h)

def firstAt (s : State) (p i cls : Nat) (k : BitVec 256) : KeySlot := { state := 1, cls := cls, owner := p, gen := (s.key i).gen + 1, cur := k }

theorem makePart_ok {t : Taken} {st pol : Nat} {warm : Bool} {dig : Bytes} {k : Nat → State → State} {s : State} {p a b : Nat}
    (h1 : freePart s = some p) (h2 : freePair s = some (a, b)) (h3 : canDraw s 0 = true) (h4 : s.keep.verifyBad = false) :
    ∃ c, makePart t st pol warm dig k s = k p { s with
      ctrs := c, keep := { s.keep with drbg0 := (drbgGen (drbgGen s.keep.drbg0).2).2 }
      keys := tset (tset s.keys a (firstAt s p a 2 (drbgGen s.keep.drbg0).1)) b (firstAt s p b 0xB (drbgGen (drbgGen s.keep.drbg0).2).1)
      parts := tset s.parts p {
          state := st, policy := pol, warm := warm, migDigest := dig, verSlot := a, trcSlot := b, pmr := zeros 48,
          meterSince := s.meter.startAt } } := by
  have hab : b ≠ a := by
    have := seek_lt (onePair h2).2
    omega
  unfold makePart
  rw [h1, h2]
  dsimp only
  rw [h3, if_neg (by decide)]
  obtain ⟨c, e1⟩ := draw0_eq s
  rw [e1]
  generalize drbgGen s.keep.drbg0 = g
  obtain ⟨c', e2⟩ := draw0_eq { s with keep := { s.keep with drbg0 := g.2 }, ctrs := c }
  dsimp only at e2 ⊢
  rw [e2]
  generalize drbgGen g.2 = g'
  refine ⟨c', ?_⟩
  unfold takeKey
  dsimp only
  rw [h4, if_neg (by decide)]
  unfold firstKey State.onKey State.onPart tupd newPart
  dsimp only
  rw [tget_tset_other _ _ _ _ _ hab]
  rfl

theorem Began.freePair {q e inp s t b} (hb : Began q e inp s t b) : freePair b = Machine.freePair s := by
  unfold Machine.freePair freeSlot nextSlot; simp only [hb.key_eq]

theorem Began.freePart {q e inp s t b} (hb : Began q e inp s t b) : freePart b = Machine.freePart s := by
  unfold Machine.freePart; simp only [hb.part_eq]

theorem failEach_part (l : List Taken) (code p : Nat) (s : State) : (each l (fun t s => failCmd t code s) s).part p = s.part p :=
  Ended.part (Ended.each (fun t s => complete_ended t code _ _ s) s) p

/-- What an install decides, which nothing after it changes. -/
def Installed (e : BitVec 16) (map old : List Slice) (now : Nat) (s : State) : Prop :=
  s.epoch = e ∧ s.slices = map ∧ s.oldSlices = old ∧ s.epochDraining = true ∧ s.epochAt = now ∧ ∀ u ∈ stationIds, (s.port u).cur = leaseOf e map u

theorem Installed.ended {e map old now s t} (h : Installed e map old now s) (g : Ended s t) : Installed e map old now t := by
  have hp := g.port
  obtain ⟨h1, h2, h3, h4, h5, h7⟩ := h
  refine ⟨?_, ?_, ?_, ?_, ?_, fun u hu => by rw [hp]; exact h7 u hu⟩ <;>
  · obtain ⟨k, x, tr, b, tk, fs, p, o, rfl⟩ := g
    assumption

theorem Installed.tdisp {e map old now s} (p : Nat) (h : Installed e map old now s) : Installed e map old now (tdispError p s) := by
  unfold tdispError tdispFail stopSecure failStopped
  refine Installed.ended ?_ (Ended.each (fun t s => complete_ended t yeDenied (detailCommand 0) [] s) _)
  exact h

theorem lease_ok (e : BitVec 16) (map : List Slice) (w : State) (u : Nat) (hu : u ∈ stationIds) :
    ((each stationIds (fun u s => s.onPort u fun p => { p with drain := some p.cur, cur := leaseOf e map u }) w).port u).cur = leaseOf e map u := by
  rw [each_port stationIds stationIds_nodup (fun u => station_of_mem) (fun u (p : Port) => { p with drain := some p.cur, cur := leaseOf e map u }) w u (station_of_mem hu), if_pos hu]

theorem install_base (e : BitVec 16) (map old : List Slice) (now : Nat) (w v : State) (hv : v = each stationIds (fun u s => s.onPort u fun p => { p with drain := some p.cur, cur := leaseOf e map u }) w) :
    Installed e map old now { v with epoch := e, slices := map, oldSlices := old, epochDraining := true, epochAt := now } := by
  refine ⟨rfl, rfl, rfl, rfl, rfl, fun u hu => ?_⟩
  have := lease_ok e map w u hu
  rw [← hv] at this
  exact this

theorem install_ok (map : List Slice) (s : State) : Installed (s.epoch + 1) map s.slices s.now (installMap map s) := by
  unfold installMap
  extract_lets e now old changed s1 s2 s3 s4
  have h3 : Installed e map old now s3 := install_base e map old now s1 s2 rfl
  have h4 : Installed e map old now s4 := each_inv (Installed e map old now) _ _ (fun c u h => h.tdisp c) _ h3
  exact each_inv (Installed e map old now) _ _ (fun c u h => h.ended (Ended.event ..)) _ h4

theorem Began.live {q e inp s t b} (hb : Began q e inp s t b) (h : Nat) : handleLive b h = handleLive s h := by
  unfold handleLive; rw [hb.obj_eq]

theorem Began.ring {q e inp s t b} (hb : Began q e inp s t b) {ring kib : Nat} (h1 : ring ≠ 0) (h2 : handleLive s ring = true) (h3 : 1 ≤ kib)
    (h4 : kib ≤ (s.obj (handleIdx ring)).tiles * 8) : ringBad b ring kib = 0 := by
  unfold ringBad
  simp only [hb.obj_eq, hb.live, h2]
  rw [if_neg (by simp [h1]), if_neg (by omega)]

theorem Began.mig {q e inp s t b} (hb : Began q e inp s t b) (i : Nat) : b.mig i = s.mig i := by unfold State.mig; rw [hb.migs]

theorem tfind_onMig (s : State) (p j : Nat) (f : Mig → Mig) (h : j ≠ p) : tfind (s.onMig p f).migs j = tfind s.migs j := by
  unfold State.onMig
  dsimp only
  rw [tfind_tmap]
  cases tfind s.migs j <;> simp [h]

theorem mig_onMig (s : State) (p : Nat) (f : Mig → Mig) (y : Mig) (h : tfind s.migs p = some y) : (s.onMig p f).mig p = f y := by
  unfold State.onMig State.mig tget
  dsimp only
  rw [tfind_tmap, h]
  simp

theorem drawBytes_only (n : Nat) (s : State) : ∃ k, (drawBytes n s).2 = { s with ctrs := k, keep := { s.keep with drbg1 := (drbgMany ((n + 31) / 32) s.keep.drbg1).2 } } := by
  unfold drawBytes; dsimp only; rw [bump_keep 14 _ (by decide)]; exact ⟨_, rfl⟩

/-- What instance 1 gives, and what giving it leaves. -/
theorem drawBytes_at (n : Nat) (s : State) : ∃ k, drawBytes n s =
    ((drbgMany ((n + 31) / 32) s.keep.drbg1).1.take n, { s with ctrs := k, keep := { s.keep with drbg1 := (drbgMany ((n + 31) / 32) s.keep.drbg1).2 } }) := by
  refine ⟨(drawBytes n s).2.ctrs, ?_⟩
  unfold drawBytes
  generalize drbgMany ((n + 31) / 32) s.keep.drbg1 = g
  dsimp only
  rw [bump_keep 14 _ (by decide)]

/-- A dual signature takes 88 bytes of instance 1, in two draws. -/
theorem signDual_at (p : IdPair) (m : Bytes) (s : State) : ∃ k, signDual p m s =
    (dualSign p m ((drbgMany 1 s.keep.drbg1).1.take 32) ((drbgMany 2 (drbgMany 1 s.keep.drbg1).2).1.take 56),
      { s with ctrs := k, keep := { s.keep with drbg1 := (drbgMany 2 (drbgMany 1 s.keep.drbg1).2).2 } }) := by
  unfold signDual
  obtain ⟨k, h1⟩ := drawBytes_at 32 s
  rw [h1]
  generalize drbgMany ((32 + 31) / 32) s.keep.drbg1 = g at *
  dsimp only
  obtain ⟨k', h2⟩ := drawBytes_at 56 { s with ctrs := k, keep := { s.keep with drbg1 := g.2 } }
  rw [h2]
  exact ⟨k', rfl⟩

/-- A Zeler bundle: its bytes, and that it changes secure scratch and instance 1 alone. -/
theorem zeler_at (part : Nat) (nonce : Bytes) (s : State) : ∃ k, zeler part nonce s =
    (cArr [cUint 1, cArr ((chainOf s).map cBytes), s.keep.endorse,
        dualSign s.ek (claims s part nonce) ((drbgMany 1 s.keep.drbg1).1.take 32) ((drbgMany 2 (drbgMany 1 s.keep.drbg1).2).1.take 56)],
      { s with ctrs := k, keep := { s.keep with
        scratch := (scratchOut false (claims s part nonce) s).keep.scratch, drbg1 := (drbgMany 2 (drbgMany 1 s.keep.drbg1).2).2 } }) := by
  have ho : scratchOut false (claims s part nonce) s = { s with keep := { s.keep with scratch := (scratchOut false (claims s part nonce) s).keep.scratch } } := by
    unfold scratchOut; dsimp only; split <;> rfl
  unfold zeler
  generalize scratchOut false (claims s part nonce) s = u at *
  obtain ⟨k, h⟩ := signDual_at s.ek (claims s part nonce) u
  rw [h]
  refine ⟨k, ?_⟩
  have hd : u.keep.drbg1 = s.keep.drbg1 := by rw [ho]
  rw [hd]
  generalize drbgMany 2 (drbgMany 1 s.keep.drbg1).2 = g
  dsimp only
  rw [ho]

/-- Draws change the two instances and the keep's counters, and nothing else. -/
def Drew (s t : State) : Prop := ∃ k a b, t = { s with ctrs := k, keep := { s.keep with drbg0 := a, drbg1 := b } }

theorem Drew.trans {s t u : State} (h : Drew s t) (g : Drew t u) : Drew s u := by
  obtain ⟨k, a, b, rfl⟩ := h
  obtain ⟨k, a, b, rfl⟩ := g
  exact ⟨_, _, _, rfl⟩

theorem Drew.draw0 (s : State) : Drew s (draw0 s).2 := by
  obtain ⟨k, h⟩ := draw0_eq s; rw [h]; exact ⟨k, _, s.keep.drbg1, rfl⟩

theorem Drew.bytes (n : Nat) (s : State) : Drew s (drawBytes n s).2 := by
  obtain ⟨k, h⟩ := drawBytes_only n s; rw [h]; exact ⟨k, s.keep.drbg0, _, rfl⟩

theorem Drew.p384 (s : State) : Drew s (p384Key s).2 := by
  unfold p384Key; exact (Drew.draw0 s).trans (Drew.draw0 _)

theorem Drew.offer (ty dom snd rcv : Nat) (ue po : Bytes) (ib : Bool) (s : State) : Drew s (makeOffer ty dom snd rcv ue po ib s).2 := by
  have h (u : State) : Drew u (drawBytes 4 (drawBytes 32 (p384Key (Machine.draw0 (Machine.draw0 u).2).2).2).2).2 :=
    ((((Drew.draw0 u).trans (Drew.draw0 _)).trans (Drew.p384 _)).trans (Drew.bytes 32 _)).trans (Drew.bytes 4 _)
  have e : (makeOffer ty dom snd rcv ue po ib s).2 = (drawBytes 4 (drawBytes 32 (p384Key (Machine.draw0 (Machine.draw0 s).2).2).2).2).2 := by
    unfold makeOffer; rfl
  rw [e]; exact h s

theorem cut_take (o n : Nat) (b : Bytes) (h : o + n ≤ b.length) : cut o n b = (b.take (o + n)).drop o := by
  unfold cut fit zeros
  rw [List.length_drop, show n - (b.length - o) = 0 by omega, List.take_drop]
  simp

theorem Began.ringAddr {q e inp s t b} (hb : Began q e inp s t b) (dev : Bool) (p a n : Nat) : ringAddrBad b dev p a n = ringAddrBad s dev p a n := by
  unfold ringAddrBad; simp only [hb.live, hb.obj_eq]

theorem lowFree_none {α : Type} {t : Tab α} {lo n k : Nat} (h : lowFree t lo n = some k) : tfind t k = none := by
  have := seek_some h; simpa using this

theorem own_listed {op q e rc s} (h : Starts op q e rc s) : (s.ctx (s.queue q).ctx).state = 1 ∧ (s.queue q).state = 1 := by
  have := h.1
  unfold mayTake at this
  simp only [Bool.and_eq_true, beq_iff_eq] at this
  exact ⟨this.1.1.1.2, this.1.1.1.1.2⟩

/-- The tables of a command that succeeds. -/
theorem BeganCore.after {q e inp s t b c} (hb : BeganCore q e inp s t b) (r : Bytes) (hp : c.profs = b.profs) :
    (done t r c).queues = c.queues ∧ (∀ i, i ≠ (c.queue q).ctx → (done t r c).ctx i = c.ctx i) ∧
    (∀ i, i ≠ envFence e → (done t r c).fence i = c.fence i) ∧ (done t r c).fence (envFence e) = completedFence (c.fence (envFence e)) := by
  obtain ⟨k, x, tr, v, o, fs, hd, h1, -, h2, h3⟩ := done_only (t := t) (c := c) r (hb.unbound hp rfl)
  rw [hb.te] at h2 h3
  rw [hb.tq] at h1
  rw [hd]
  exact ⟨rfl, h1, h3, h2⟩

theorem raiseRoot_objs (st : Nat) (l : Line) (s : State) : (raiseRoot st l s).objs = s.objs := by
  unfold raiseRoot
  extract_lets v r c before crossed v' s1
  split <;> rfl

theorem writeBack_objs (st : Nat) (l : Line) (s : State) : (writeBack st l s).objs = s.objs := by
  unfold writeBack
  extract_lets s1 v s2 s3
  have h1 : s1.objs = s.objs := raiseRoot_objs st l s
  have h2 : s2.objs = s1.objs := rfl
  have h3 : s3.objs = s2.objs := Ended.objs ((Ended.bump st 8 64 s2).trans (Ended.bump st 13 1 _))
  clear_value s1 s2 s3
  exact h3.trans (h2.trans h1)

theorem newLine_objs (st e : Nat) (f : Bool) (p : Nat) (s : State) : (newLine st e f p s).objs = s.objs := by
  unfold newLine; exact writeBack_objs ..

end Sys2Proof.Machine
end

