-- ==== Sys2Proof/Laws/FaultLaws.lean ====
section
/-! SUPPORT. What raising a fault, a lockdown, a dump trigger, a stop stamp, the clock selection and a delivered domain message can do. -/

namespace Sys2Proof.Machine
open Sys2Proof Sys2Proof.Crypto

theorem Began.runs {q e inp s t b} {c : State} (hb : Began q e inp s t b) (aux : Nat) (hq : c.queues = b.queues) (hf : c.fences = b.fences)
    (ht : c.taken = b.taken) : Running q e aux s (keepRunning t aux c) := by
  refine hb.running aux (t' := { t with phase := 2, aux := aux }) hq hf ?_ rfl rfl rfl rfl rfl
  unfold keepRunning
  rw [ht, hb.taken]
  exact List.mem_map.mpr ⟨t, by simp, by simp⟩

theorem findWin_set (ws : List ((Nat × Nat) × Window)) (k j : Nat × Nat) (w : Window) : findWin (setWin ws k w) j = if j = k then w else findWin ws j := by
  unfold findWin setWin
  by_cases h : j = k
  · subst h; simp
  · rw [if_neg h, List.find?_cons_of_neg (by simpa using fun g => h g.symm), List.find?_filter]
    congr 3
    funext x
    by_cases g : x.1 = j
    · simp [g, h]
    · simp [g]

theorem windows_fold (us : List Nat) (src n w : Nat) (ws : List ((Nat × Nat) × Window)) (k : Nat × Nat) :
    findWin (us.foldl (fun ws u => setWin ws (u, src) { findWin ws (u, src) with n := some n, w := some (Config.us w) }) ws) k =
      if k.2 = src ∧ k.1 ∈ us then { findWin ws k with n := some n, w := some (Config.us w) } else findWin ws k := by
  induction us generalizing ws with
  | nil => simp
  | cons u us ih =>
    rw [List.foldl_cons, ih, findWin_set]
    by_cases h1 : k = (u, src)
    · subst h1; simp
    · rw [if_neg h1]
      by_cases h2 : k.2 = src
      · have : k.1 ≠ u := fun g => h1 (Prod.ext g h2)
        simp [h2, this]
      · simp [h2]

theorem lockdown_flt (c : Nat) (v : BitVec 20) (s : State) : (lockdown c v s).flt.words = s.flt.words ∧ (lockdown c v s).flt.logSeq = s.flt.logSeq := by
  unfold lockdown
  split
  · exact ⟨rfl, rfl⟩
  · dsimp only
    split <;> split <;> split <;> exact ⟨rfl, rfl⟩

theorem dumpTrigger_flt (k : Nat) (s : State) : (dumpTrigger k s).flt = s.flt := by
  unfold dumpTrigger
  dsimp only
  split
  · rfl
  · split <;> rfl

theorem Ended.flt {s t : State} (h : Ended s t) : t.flt = s.flt := by obtain ⟨k, x, tr, b, tk, fs, p, o, rfl⟩ := h; rfl

theorem fireVector_flt (v : Nat) (s : State) : (fireVector v s).flt = s.flt := by
  unfold fireVector; split
  · rfl
  · split <;> rfl

theorem raise_flt (u src c : Nat) (thr : Bool) (n f : Nat) (d : BitVec 64) (s : State) (h : s.aon.lockdown = false) :
    let w := s.word u
    let k := escalate w.unack c
    (raise u src c thr n f d s).flt.words = tset s.flt.words u {
      last := src, uncleared := w.uncleared ||| (1#4 <<< (k - 1)), unack := w.unack ||| (1#4 <<< (k - 1)),
      active := if lasting src then (src, k) :: w.active else w.active } ∧
    (raise u src c thr n f d s).flt.logSeq = (s.flt.logSeq + 1) % 2 ^ 32 := by
  intro w k
  unfold raise
  rw [if_neg (by rw [h]; decide)]
  dsimp only
  generalize hA : logEntry 0x02 _ _ = A
  have hAf : A.flt.words = tset s.flt.words u {
      last := src, uncleared := w.uncleared ||| (1#4 <<< (k - 1)), unack := w.unack ||| (1#4 <<< (k - 1)),
      active := if lasting src then (src, k) :: w.active else w.active } ∧ A.flt.logSeq = (s.flt.logSeq + 1) % 2 ^ 32 := by
    rw [← hA]; exact ⟨rfl, rfl⟩
  generalize hB : (if 2 ≤ escalate (s.word u).unack c then fireVector (A.flt.vector.toNat % 2048) A else A) = B
  have hBf : B.flt = A.flt := by
    rw [← hB]; split
    · exact fireVector_flt ..
    · rfl
  generalize hC : (if escalate (s.word u).unack c = 4 ∨ (escalate (s.word u).unack c = 3 ∧ isNode u) then bump (0xE0 + Config.dieOf u) 5 1 B else B) = C
  have hCf : C.flt = B.flt := by
    rw [← hC]; split
    · exact Ended.flt (Ended.bump ..)
    · rfl
  generalize hD : (if escalate (s.word u).unack c = 4 ∧ src ≠ 0x1F ∧ C.aon.phase = 1 then dumpTrigger 2 C else C) = D
  have hDf : D.flt = C.flt := by
    rw [← hD]; split
    · exact dumpTrigger_flt ..
    · rfl
  have hAll : D.flt = A.flt := hDf.trans (hCf.trans hBf)
  split
  · rw [(lockdown_flt 8 0 D).1, (lockdown_flt 8 0 D).2, hAll]; exact hAf
  · rw [hAll]; exact hAf

theorem onEvery_port (f : Port → Port) (s : State) (u : Nat) (hu : u ∈ stationIds) : (onEveryPort f s).port u = f (s.port u) := by
  unfold onEveryPort
  rw [each_port stationIds stationIds_nodup (fun u => station_of_mem) (fun _ => f) s u (station_of_mem hu), if_pos hu]

theorem onPort_only (u : Nat) (f : Port → Port) (s : State) : ∃ m l h, s.onPort u f = { s with mem := m, link := l, host := h } := by
  unfold State.onPort
  split
  · exact ⟨_, s.link, s.host, rfl⟩
  · split
    · exact ⟨s.mem, _, s.host, rfl⟩
    · exact ⟨s.mem, s.link, _, rfl⟩

theorem onEvery_only (f : Port → Port) (s : State) : ∃ m l h, onEveryPort f s = { s with mem := m, link := l, host := h } := by
  unfold onEveryPort
  refine each_inv (fun u => ∃ m l h, u = { s with mem := m, link := l, host := h }) _ _ ?_ _ ⟨s.mem, s.link, s.host, rfl⟩
  rintro a u ⟨m, l, h, rfl⟩
  obtain ⟨m', l', h', g⟩ := onPort_only a f { s with mem := m, link := l, host := h }
  exact ⟨_, _, _, g⟩

theorem Began.port {q e inp s t b} (hb : Began q e inp s t b) (u : Nat) : b.port u = s.port u := hb.bareOf (fun s => s.port u) (fun _ => rfl)

theorem keepRunning_port (t : Taken) (a : Nat) (s : State) (u : Nat) : (keepRunning t a s).port u = s.port u := rfl

theorem keepRunning_stop (t : Taken) (a : Nat) (s : State) : (keepRunning t a s).stop = s.stop := rfl

theorem stampStop_only (id : BitVec 64) (d : Bool) (p k : Nat) (s : State) : ∃ m l h, stampStop id d p k s = { s with
    stop := { inForce := true, id := id, domain := d, part := p, tick := k, ever := true }, mem := m, link := l, host := h } := by
  unfold stampStop
  obtain ⟨m, l, h, g⟩ := onEvery_only (fun p => { p with stopAt := some k, resumeAt := none, stop := {} })
        { s with stop := { inForce := true, id := id, domain := d, part := p, tick := k, ever := true } }
  exact ⟨m, l, h, g⟩

theorem stampStop_port (id : BitVec 64) (d : Bool) (p k : Nat) (s : State) (u : Nat) (hu : u ∈ stationIds) :
    (stampStop id d p k s).port u = { s.port u with stopAt := some k, resumeAt := none, stop := {} } := by
  unfold stampStop
  rw [onEvery_port _ _ _ hu]; rfl

theorem stampResume_only (k : Nat) (s : State) : ∃ m l h, stampResume k s = { s with
    stop := { s.stop with resume := some k }, mem := m, link := l, host := h } := by
  unfold stampResume
  obtain ⟨m, l, h, g⟩ := onEvery_only (fun p => { p with resumeAt := some k }) { s with stop := { s.stop with resume := some k } }
  exact ⟨m, l, h, g⟩

theorem stampResume_port (k : Nat) (s : State) (u : Nat) (hu : u ∈ stationIds) :
    (stampResume k s).port u = { s.port u with resumeAt := some k } := by
  unfold stampResume
  rw [onEvery_port _ _ _ hu]; rfl

theorem drbgMany_len (n : Nat) (d : Drbg) : (drbgMany n d).1.length = 32 * n := by
  induction n generalizing d with
  | zero => rfl
  | succ n ih =>
    unfold drbgMany
    dsimp only
    rw [List.length_append, ih]
    have : (keyBytes (drbgGen d).1).length = 32 := by unfold keyBytes le; simp
    omega

theorem drawn_len (n : Nat) (s : State) : (drawBytes n s).1.length = n := by
  unfold drawBytes
  rw [List.length_take, drbgMany_len]
  omega

theorem drawBytes_eq (n : Nat) (s : State) : ∃ b k, b.length = n ∧
    drawBytes n s = (b, { s with ctrs := k, keep := { s.keep with drbg1 := (drbgMany ((n + 31) / 32) s.keep.drbg1).2 } }) := by
  refine ⟨(drawBytes n s).1, (drawBytes n s).2.ctrs, drawn_len n s, ?_⟩
  unfold drawBytes
  generalize drbgMany ((n + 31) / 32) s.keep.drbg1 = g
  dsimp only
  rw [bump_keep 14 _ (by decide)]

theorem requestWarm_fences (c : Nat) (s : State) : ∃ a, requestWarm c s = { s with aon := a } := by
  unfold requestWarm; split
  · exact ⟨s.aon, rfl⟩
  · exact ⟨_, rfl⟩

theorem Began.live' {q e inp s t b} (hb : Began q e inp s t b) (h : Nat) : handleLive b h = handleLive s h := by
  unfold handleLive; rw [hb.obj_eq]

theorem renewNonce_eq (s : State) : ∃ k c g, renewNonce s = { s with ctrs := k, keep := { s.keep with chipNonce := c, drbg1 := g } } := by
  unfold renewNonce
  split
  · obtain ⟨n, k, -, h⟩ := drawBytes_eq 32 s
    rw [h]; exact ⟨_, _, _, rfl⟩
  · exact ⟨s.ctrs, _, s.keep.drbg1, rfl⟩

theorem lcCheck_ok {a : Nat} {bs : Bytes} {s : State} {r : LcReq} {c : Option (LcReq × Nat)} (h1 : lcParse bs = some r) (h2 : lcAuthorityOk s a r = true)
    (h3 : r.sig.ok r.sig.dual.payload = true) (h4 : lcFieldsOk s r = true)
    (h5 : a = 3 ∧ c = some (r, 0) ∨ a ≠ 3 ∧ ∃ e, lcEntry s.aon r.target = some e ∧ c = some (r, e)) : lcCheck a bs s = (0, c, renewNonce s) := by
  unfold lcCheck
  obtain ⟨k, cn, gn, hr⟩ := renewNonce_eq s
  have ha : (renewNonce s).aon = s.aon := by rw [hr]
  rw [h1]
  simp only [h2, h3, h4, ha]
  rw [if_neg (by decide), if_neg (by decide), if_neg (by decide)]
  rcases h5 with ⟨h5, h6⟩ | ⟨h5, x, h6, h7⟩
  · rw [if_pos h5, h6]
  · rw [if_neg h5, h6, h7]

theorem cleared_each (m : Nat) (us : List Nat) (s : State) (P : Counters → Prop) (v : Nat)
    (h0 : ∀ c : Counters, ∀ ws, P { c with clearTime := s.now, sticky := if m % 2 = 1 then 0 else c.sticky, words := ws, faults := if m / 4 % 2 = 1 then [] else c.faults })
    (hv : v ∈ us ∨ P (tget {} s.ctrs v)) : P (tget {} (each us (clearUnit m) s).ctrs v) := by
  unfold each
  induction us generalizing s with
  | nil => exact hv.resolve_left (by simp)
  | cons u us ih =>
    rw [List.foldl_cons]
    refine ih (clearUnit m u s) h0 ?_
    by_cases g : v = u
    · subst g
      right
      unfold clearUnit
      dsimp only
      rw [tget_tupd_same]
      exact h0 _ _
    · rcases hv with hv | hv
      · left; exact (List.mem_cons.mp hv).resolve_left g
      · right
        unfold clearUnit
        dsimp only
        rw [tget_tupd_other _ _ _ _ _ g]
        exact hv

/-- What the selection may change. -/
theorem selectClock_only (s : State) : ∃ k n a, selectClock s = { s with ctrs := k, clk := { s.clk with asked := a, next := n } } := by
  unfold selectClock
  dsimp only
  split
  · rw [bump_keep 10 1 (by decide)]; exact ⟨_, _, _, rfl⟩
  · exact ⟨s.ctrs, _, _, rfl⟩

theorem sel_ilim (s : State) : (selectClock s).clk.ilim = s.clk.ilim := by obtain ⟨k, n, a, g⟩ := selectClock_only s; rw [g]

theorem sel_boost (s : State) : (selectClock s).clk.boost = s.clk.boost := by obtain ⟨k, n, a, g⟩ := selectClock_only s; rw [g]

theorem sel_divider (s : State) : (selectClock s).clk.divider = s.clk.divider := by obtain ⟨k, n, a, g⟩ := selectClock_only s; rw [g]

theorem sel_stepDown (s : State) : (selectClock s).clk.stepDown = s.clk.stepDown := by obtain ⟨k, n, a, g⟩ := selectClock_only s; rw [g]

theorem sel_coolSince (s : State) : (selectClock s).clk.coolSince = s.clk.coolSince := by obtain ⟨k, n, a, g⟩ := selectClock_only s; rw [g]

theorem sel_spent (s : State) : (selectClock s).clk.spent = s.clk.spent := by obtain ⟨k, n, a, g⟩ := selectClock_only s; rw [g]

theorem sel_bins (s : State) : (selectClock s).clk.bins = s.clk.bins := by obtain ⟨k, n, a, g⟩ := selectClock_only s; rw [g]

theorem sel_binAt (s : State) : (selectClock s).clk.binAt = s.clk.binAt := by obtain ⟨k, n, a, g⟩ := selectClock_only s; rw [g]

theorem withMail_fits {ty part hdr body k s} (h : Mailed ty hdr body s) : withMail ty part hdr body k s =
    if rf hdr 8 8 % 128 ≠ (fragsOf part hdr s).length then mailDropped part hdr s
    else if rf hdr 8 8 < 128 then
      (mailDropped part hdr s).onDom part fun d => { d with frags := d.frags ++ [((mailSender hdr, mailNum hdr), fragsOf part hdr s ++ [body])] }
    else if mailClean ty (fragsOf part hdr s ++ [body]).flatten then
      k (mailSender hdr) (fragsOf part hdr s ++ [body]).flatten (mailTaken part hdr s)
    else mailDropped part hdr s := by
  obtain ⟨h1, h2, h3, h4, h5⟩ := h
  unfold withMail
  dsimp only
  rw [if_neg (by rintro (g | g | g | g | g); exact g h1; exact g h2; omega; rw [h4] at g; exact absurd g (by decide); rw [h5] at g; exact absurd g (by decide))]
  show (if rf hdr 8 8 % 128 ≠ (fragsOf part hdr s).length then _ else _) = _
  by_cases g : rf hdr 8 8 % 128 ≠ (fragsOf part hdr s).length
  · rw [if_pos g, if_pos g]; rfl
  · rw [if_neg g, if_neg g]
    by_cases g : rf hdr 8 8 < 128
    · rw [if_pos g, if_pos g]
      unfold mailDropped State.onDom tupd
      dsimp only
      rw [tget_tset_same, tset_tset]
      rfl
    · rw [if_neg g, if_neg g]; rfl

theorem withMail_arrives {ty part hdr body k s w} (h : Arrives ty part hdr body s w) : withMail ty part hdr body k s = k (mailSender hdr) w (mailTaken part hdr s) := by
  obtain ⟨h1, h2, h3, rfl, h4⟩ := h
  rw [withMail_fits h1, if_neg (by omega), if_neg (by omega), if_pos h4]

theorem withMail_unfit {ty part hdr body k s} (h : ¬ Mailed ty hdr body s) : withMail ty part hdr body k s = s := by
  unfold withMail
  dsimp only
  rw [if_pos]
  unfold Mailed at h
  by_cases g1 : mailType hdr = ty
  · by_cases g2 : rf hdr 16 16 = body.length
    · by_cases g3 : body.length ≤ 4080
      · by_cases g4 : mailHdrClean hdr = true
        · by_cases g5 : s.keepLive = true
          · exact absurd ⟨g1, g2, g3, g4, g5⟩ h
          · right; right; right; right; simpa using g5
        · right; right; right; left; simpa using g4
      · right; right; left; omega
    · right; left; exact g2
  · left; exact g1

theorem findWin_set' (ws : List ((Nat × Nat) × Window)) (k j : Nat × Nat) (w : Window) : findWin (setWin ws k w) j = if j = k then w else findWin ws j := by
  unfold findWin setWin
  by_cases h : j = k
  · subst h; simp
  · rw [if_neg h, List.find?_cons_of_neg (by simpa using fun g => h g.symm), List.find?_filter]
    congr 3
    funext x
    by_cases g : x.1 = j
    · simp [g, h]
    · simp [g]

theorem each_inv_mem {α : Type} (P : State → Prop) (l : List α) (f : α → State → State) (hf : ∀ a s, a ∈ l → P s → P (f a s)) (s : State) (h : P s) : P (each l f s) := by
  unfold each
  induction l generalizing s with
  | nil => exact h
  | cons a l ih => exact ih (fun b s hb => hf b s (List.mem_cons_of_mem _ hb)) _ (hf a s (List.mem_cons_self ..) h)

theorem opened_hold (s : State) (u : Nat) : ((holdAll s).port u).opened = false := by
  unfold State.port holdAll
  by_cases m : isMem u = true
  · rw [if_pos m]
    unfold State.memSt tget
    dsimp only
    rw [tfind_tmap]
    cases tfind s.mem u <;> rfl
  · rw [if_neg m]
    by_cases l : isLink u = true
    · rw [if_pos l]
      unfold State.linkSt tget
      dsimp only
      rw [tfind_tmap]
      cases tfind s.link u <;> rfl
    · rw [if_neg l]; rfl

def lockB (c : Nat) (v : BitVec 20) (s : State) : State := { s with
  aon := { s.aon with lockdown := true, alarm := true, cause := 4, phase := 5, trip := (BitVec.ofNat 64 c <<< 32) ||| v.setWidth 64 }
  flt := { s.flt with blockSafe := true } }

def lock1 (p : Nat) (s : State) : State := if 1 ≤ p then eraseScratch (eraseKeys s) else s

def lock2 (p : Nat) (s : State) : State := if 2 ≤ p then eraseVault s else s

def lock3 (p : Nat) (s : State) : State := if 3 ≤ p then eraseVrt s else s

theorem lockdown_eq {c : Nat} {v : BitVec 20} {s : State} (h : s.aon.lockdown = false) :
    lockdown c v s = holdAll (lock3 s.keep.policy (lock2 s.keep.policy (lock1 s.keep.policy (lockB c v s)))) := by
  unfold lockdown
  rw [if_neg (by rw [h]; decide)]
  rfl

theorem onPort_frame (u : Nat) (f : Port → Port) (s : State) : s.onPort u f = { s with mem := (s.onPort u f).mem, link := (s.onPort u f).link, host := (s.onPort u f).host } := by
  unfold State.onPort
  split
  · rfl
  · split <;> rfl

theorem escalate_spec (un : BitVec 4) (c : Nat) (h1 : 1 ≤ c) (h2 : c ≤ 4) :
    c ≤ escalate un c ∧ escalate un c ≤ 4 ∧ (∀ j, c ≤ j → j < escalate un c → un.getLsbD (j - 1) = true) ∧
      (escalate un c = 4 ∨ un.getLsbD (escalate un c - 1) = false) := by
  have hc : c = 1 ∨ c = 2 ∨ c = 3 ∨ c = 4 := by omega
  have key : ∀ un : BitVec 4, ∀ c ∈ [1, 2, 3, 4], c ≤ escalate un c ∧ escalate un c ≤ 4 ∧ (∀ j ∈ [1, 2, 3], c ≤ j → j < escalate un c → un.getLsbD (j - 1) = true) ∧
      (escalate un c = 4 ∨ un.getLsbD (escalate un c - 1) = false) := by decide
  obtain ⟨a, b, d, e⟩ := key un c (by simpa using hc)
  refine ⟨a, b, fun j hj hk => d j ?_ hj hk, e⟩
  have : j = 1 ∨ j = 2 ∨ j = 3 := by omega
  simpa using this

theorem dumpTrigger_flt_aon (k : Nat) (s : State) : (dumpTrigger k s).flt = s.flt ∧ (dumpTrigger k s).aon = s.aon := by
  unfold dumpTrigger
  dsimp only
  split
  · exact ⟨rfl, rfl⟩
  · split <;> exact ⟨rfl, rfl⟩

theorem fireVector_flt_aon (v : Nat) (s : State) : (fireVector v s).flt = s.flt ∧ (fireVector v s).aon = s.aon := by
  unfold fireVector; split
  · exact ⟨rfl, rfl⟩
  · split <;> exact ⟨rfl, rfl⟩

theorem Ended.flt_aon {s t : State} (h : Ended s t) : t.flt = s.flt ∧ t.aon = s.aon := by obtain ⟨k, x, tr, b, tk, fs, p, o, rfl⟩ := h; exact ⟨rfl, rfl⟩

theorem lockdown_flt_aon (c : Nat) (b : BitVec 20) (s : State) (h : s.aon.lockdown = false) :
    (lockdown c b s).flt.words = s.flt.words ∧ (lockdown c b s).flt.log = s.flt.log ∧ (lockdown c b s).aon.lockdown = true ∧
    (lockdown c b s).aon.trip = (BitVec.ofNat 64 c <<< 32) ||| b.setWidth 64 := by
  unfold lockdown
  rw [if_neg (by rw [h]; decide)]
  dsimp only
  split <;> split <;> split <;> exact ⟨rfl, rfl, rfl, rfl⟩

theorem raise_all (u src c : Nat) (thr : Bool) (n f : Nat) (d : BitVec 64) (s : State) (h : s.aon.lockdown = false) :
    let w := s.word u
    let k := escalate w.unack c
    let l := k == 4 && (s.flt.words.any fun x => x.2.unack.getLsbD 3)
    let t := raise u src c thr n f d s
    t.flt.words = tset s.flt.words u {
      last := src, uncleared := w.uncleared ||| (1#4 <<< (k - 1)), unack := w.unack ||| (1#4 <<< (k - 1)),
      active := if lasting src then (src, k) :: w.active else w.active } ∧
    t.flt.log = ({
        time := s.now, seq := s.flt.logSeq, unit := u, source := src, cls := k, escalated := k != c, threshold := thr,
        lockdown := l, prior := c, count := n, fence := f, detail := d } :: s.flt.log).take 64 ∧
    t.aon.lockdown = l ∧ (l = true → t.aon.trip = 8#64 <<< 32) ∧ (l = false → t.aon = s.aon) := by
  intro w k l t
  have ht : t = raise u src c thr n f d s := rfl
  unfold raise at ht
  rw [if_neg (by rw [h]; decide)] at ht
  dsimp only at ht
  generalize hA : logEntry 0x02 _ _ = A at ht
  have hAf : A.flt.words = tset s.flt.words u {
      last := src, uncleared := w.uncleared ||| (1#4 <<< (k - 1)), unack := w.unack ||| (1#4 <<< (k - 1)),
      active := if lasting src then (src, k) :: w.active else w.active } ∧
      A.flt.log = ({
        time := s.now, seq := s.flt.logSeq, unit := u, source := src, cls := k, escalated := k != c, threshold := thr,
        lockdown := l, prior := c, count := n, fence := f, detail := d } :: s.flt.log).take 64 ∧ A.aon = s.aon := by
    rw [← hA]; exact ⟨rfl, rfl, rfl⟩
  generalize hB : (if 2 ≤ escalate (s.word u).unack c then fireVector (A.flt.vector.toNat % 2048) A else A) = B at ht
  have hBf : B.flt = A.flt ∧ B.aon = A.aon := by
    rw [← hB]; split
    · exact fireVector_flt_aon ..
    · exact ⟨rfl, rfl⟩
  generalize hC : (if escalate (s.word u).unack c = 4 ∨ (escalate (s.word u).unack c = 3 ∧ isNode u) then bump (0xE0 + Config.dieOf u) 5 1 B else B) = C at ht
  have hCf : C.flt = B.flt ∧ C.aon = B.aon := by
    rw [← hC]; split
    · exact (Ended.bump ..).flt_aon
    · exact ⟨rfl, rfl⟩
  generalize hD : (if escalate (s.word u).unack c = 4 ∧ src ≠ 0x1F ∧ C.aon.phase = 1 then dumpTrigger 2 C else C) = D at ht
  have hDf : D.flt = C.flt ∧ D.aon = C.aon := by
    rw [← hD]; split
    · exact dumpTrigger_flt_aon ..
    · exact ⟨rfl, rfl⟩
  have e1 : D.flt = A.flt := by rw [hDf.1, hCf.1, hBf.1]
  have e2 : D.aon = s.aon := by rw [hDf.2, hCf.2, hBf.2, hAf.2.2]
  change t = if l = true then lockdown 8 0 D else D at ht
  rcases Bool.eq_false_or_eq_true l with hl | hl
  · rw [if_pos hl] at ht
    obtain ⟨g1, g2, g3, g4⟩ := lockdown_flt_aon 8 0 D (by rw [e2]; exact h)
    rw [ht]
    refine ⟨by rw [g1, e1]; exact hAf.1, by rw [g2, e1]; exact hAf.2.1, by rw [g3, hl], fun _ => by rw [g4]; decide, fun x => by rw [hl] at x; cases x⟩
  · rw [if_neg (by rw [hl]; decide)] at ht
    rw [ht]
    exact ⟨by rw [e1]; exact hAf.1, by rw [e1]; exact hAf.2.1, by rw [e2, hl]; exact h, (fun x => by rw [hl] at x; cases x), fun _ => e2⟩

theorem bit_or (b : BitVec 4) (k i : Nat) (h1 : 1 ≤ k) (h2 : k ≤ 4) (hi : i < 4) :
    (b ||| (1#4 <<< (k - 1))).getLsbD i = (b.getLsbD i || i == k - 1) := by
  have key : ∀ b : BitVec 4, ∀ k ∈ [1, 2, 3, 4], ∀ i ∈ [0, 1, 2, 3], (b ||| (1#4 <<< (k - 1))).getLsbD i = (b.getLsbD i || i == k - 1) := by decide
  exact key b k (by have : k = 1 ∨ k = 2 ∨ k = 3 ∨ k = 4 := by omega
                    simpa using this) i (by have : i = 0 ∨ i = 1 ∨ i = 2 ∨ i = 3 := by omega
                                            simpa using this)

theorem dom_tmap (f : Dom → Dom) (hf : f {} = {}) (s t : State) (h : t.doms = tmap (fun _ d => f d) s.doms) (p : Nat) : t.dom p = f (s.dom p) := by
  unfold State.dom; rw [h]
  unfold tget
  have : tfind (tmap (fun _ d => f d) s.doms) p = (tfind s.doms p).map f := by
    induction s.doms with
    | nil => rfl
    | cons x l ih =>
      obtain ⟨i, v⟩ := x
      show (if i = p then some (f v) else tfind (tmap (fun _ d => f d) l) p) = (if i = p then some v else tfind l p).map f
      by_cases hi : i = p
      · rw [if_pos hi, if_pos hi]; rfl
      · rw [if_neg hi, if_neg hi]; exact ih
  rw [this]
  cases tfind s.doms p with
  | none => exact hf.symm
  | some v => rfl

theorem defaultThr_hang : defaultThr 0x1F = none ∧ eventClass 0x1F = 4 ∧ lasting 0x1F = lasting 0x1F := ⟨rfl, rfl, rfl⟩

theorem hang_does (s : State) (hl : s.aon.lockdown = false) (hp : s.aon.phase = 1) (hx : ∀ x ∈ s.flt.words, x.2.unack.getLsbD 3 = false) :
    ((hang s).word Config.keepId).unack.getLsbD 3 = true ∧ ((hang s).word Config.keepId).last = 0x1F ∧ (hang s).aon.phase = 2 ∧
      ((hang s).aon.outOfService = false → (hang s).aon.cause = 3) := by
  generalize hb : countFault Config.keepId 0x1F s = b
  have hbf : b.flt = s.flt ∧ b.aon = s.aon := by rw [← hb]; exact ⟨rfl, rfl⟩
  have hf : faultEvent Config.keepId 0x1F 0xFFFF 0 s = raise Config.keepId 0x1F 4 false 1 0xFFFF 0 b := by
    unfold faultEvent; rw [hb]; rfl
  obtain ⟨r1, r2, r3, r4, r5⟩ := raise_all Config.keepId 0x1F 4 false 1 0xFFFF 0 b (by rw [hbf.2]; exact hl)
  have hk : escalate (b.word Config.keepId).unack 4 = 4 := by
    have key : ∀ u : BitVec 4, escalate u 4 = 4 := by decide
    exact key _
  have hn : (b.flt.words.any fun x => x.2.unack.getLsbD 3) = false := by
    rw [hbf.1, List.any_eq_false]; intro x hm; rw [hx x hm]; decide
  rw [hk, hn] at r3 r5
  have ra := r5 rfl
  generalize raise Config.keepId 0x1F 4 false 1 0xFFFF 0 b = c at *
  have hh : hang s = requestWarm 3 (dumpTrigger 3 c) := by
    unfold hang; rw [hf]; dsimp only; rw [if_neg (by rw [r3]; decide)]
  have hd := dumpTrigger_flt_aon 3 c
  generalize dumpTrigger 3 c = e at *
  have hw : (hang s).flt = c.flt := by
    rw [hh]; unfold requestWarm; split
    · exact hd.1
    · exact hd.1
  have hwd : (hang s).word Config.keepId = {
      last := 0x1F, uncleared := (b.word Config.keepId).uncleared ||| (1#4 <<< (escalate (b.word Config.keepId).unack 4 - 1)),
      unack := (b.word Config.keepId).unack ||| (1#4 <<< (escalate (b.word Config.keepId).unack 4 - 1)),
      active := if lasting 0x1F then (0x1F, escalate (b.word Config.keepId).unack 4) :: (b.word Config.keepId).active else (b.word Config.keepId).active } := by
    unfold State.word; rw [hw, r1]; exact tget_tset_same ..
  have hph : e.aon.phase = 1 := by rw [hd.2, ra, hbf.2]; exact hp
  refine ⟨?_, ?_, ?_, ?_⟩
  · rw [hwd, hk]; dsimp only
    have key : ∀ u : BitVec 4, (u ||| (1#4 <<< (4 - 1))).getLsbD 3 = true := by decide
    exact key _
  · rw [hwd]
  · rw [hh]; unfold requestWarm; rw [if_neg (fun g => g hph)]
  · rw [hh]; unfold requestWarm; rw [if_neg (fun g => g hph)]; dsimp only
    intro g
    rw [Bool.or_eq_false_iff] at g
    rw [g.2]; rfl

/-- The beat fields of the keep stay. -/
def SameBeat (s t : State) : Prop := t.keep.beat = s.keep.beat ∧ t.keep.beaten = s.keep.beaten ∧ t.keep.missed = s.keep.missed

theorem SameBeat.refl (s : State) : SameBeat s s := ⟨rfl, rfl, rfl⟩

theorem SameBeat.trans {s t u : State} (h : SameBeat s t) (g : SameBeat t u) : SameBeat s u := ⟨g.1.trans h.1, g.2.1.trans h.2.1, g.2.2.trans h.2.2⟩

theorem SameBeat.ite {c : Prop} [Decidable c] {s a b : State} (ha : SameBeat s a) (hb : SameBeat s b) : SameBeat s (if c then a else b) := by
  split
  · exact ha
  · exact hb

theorem SameBeat.each {α : Type} {l : List α} {f : α → State → State} (hf : ∀ a s, SameBeat s (f a s)) (s : State) : SameBeat s (each l f s) :=
  each_inv (SameBeat s) l f (fun a t h => h.trans (hf a t)) s (.refl s)

theorem SameBeat.ended {s t : State} (h : Ended s t) : SameBeat s t := by obtain ⟨k, x, tr, b, tk, fs, p, o, rfl⟩ := h; exact ⟨rfl, rfl, rfl⟩

theorem fireVector_beat (v : Nat) (s : State) : SameBeat s (fireVector v s) := by
  unfold fireVector; split
  · exact .refl _
  · split <;> exact ⟨rfl, rfl, rfl⟩

theorem dumpTrigger_beat (k : Nat) (s : State) : SameBeat s (dumpTrigger k s) := by
  unfold dumpTrigger
  dsimp only
  split
  · exact .refl _
  · split <;> exact ⟨rfl, rfl, rfl⟩

theorem lockdown_beat (c : Nat) (b : BitVec 20) (s : State) : SameBeat s (lockdown c b s) := by
  unfold lockdown
  split
  · exact ⟨rfl, rfl, rfl⟩
  · dsimp only
    split <;> split <;> split <;> exact ⟨rfl, rfl, rfl⟩

theorem raise_beat (u src c : Nat) (thr : Bool) (n f : Nat) (d : BitVec 64) (s : State) : SameBeat s (raise u src c thr n f d s) := by
  unfold raise
  split
  · exact .refl _
  · dsimp only
    generalize hA : logEntry 0x02 _ _ = A
    have hAf : SameBeat s A := by rw [← hA]; exact ⟨rfl, rfl, rfl⟩
    generalize hB : (if 2 ≤ escalate (s.word u).unack c then fireVector (A.flt.vector.toNat % 2048) A else A) = B
    have hBf : SameBeat s B := by
      rw [← hB]; exact .ite (hAf.trans (fireVector_beat ..)) hAf
    generalize hC : (if escalate (s.word u).unack c = 4 ∨ (escalate (s.word u).unack c = 3 ∧ isNode u) then bump (0xE0 + Config.dieOf u) 5 1 B else B) = C
    have hCf : SameBeat s C := by
      rw [← hC]; exact .ite (hBf.trans (.ended (.bump ..))) hBf
    generalize hD : (if escalate (s.word u).unack c = 4 ∧ src ≠ 0x1F ∧ C.aon.phase = 1 then dumpTrigger 2 C else C) = D
    have hDf : SameBeat s D := by
      rw [← hD]; exact .ite (hCf.trans (dumpTrigger_beat ..)) hCf
    exact .ite (hDf.trans (lockdown_beat ..)) hDf

theorem raise_beat_of {u src c : Nat} {thr : Bool} {n f : Nat} {d : BitVec 64} {s b : State} (h : SameBeat s b) : SameBeat s (raise u src c thr n f d b) :=
  h.trans (raise_beat ..)

theorem bump_beat_of {u w n : Nat} {s b : State} (h : SameBeat s b) : SameBeat s (bump u w n b) := h.trans (.ended (.bump ..))

theorem faultEvent_beat (u src f : Nat) (d : BitVec 64) (s : State) : SameBeat s (faultEvent u src f d s) := by
  unfold faultEvent
  dsimp only
  split
  · refine raise_beat_of (s := s) ?_; exact ⟨rfl, rfl, rfl⟩
  · refine .ite ?_ ?_
    · refine raise_beat_of (s := s) ?_; exact ⟨rfl, rfl, rfl⟩
    · refine .ite ?_ ?_
      · exact ⟨rfl, rfl, rfl⟩
      · refine raise_beat_of (s := s) ?_; exact ⟨rfl, rfl, rfl⟩

theorem faultEvent_beat_of {u src f : Nat} {d : BitVec 64} {s b : State} (h : SameBeat s b) : SameBeat s (faultEvent u src f d b) :=
  h.trans (faultEvent_beat ..)

theorem selectClock_beat (s : State) : SameBeat s (selectClock s) := by
  unfold selectClock
  dsimp only
  split
  · exact bump_beat_of (b := s) (.refl s)
  · exact ⟨rfl, rfl, rfl⟩

theorem judge_beat (die : Nat) (s : State) : SameBeat s (judge die s) := by
  unfold judge
  dsimp only
  refine .trans ?_ (selectClock_beat _)
  split
  · split
    · exact faultEvent_beat_of (faultEvent_beat_of ⟨rfl, rfl, rfl⟩)
    · exact faultEvent_beat_of ⟨rfl, rfl, rfl⟩
  · split
    · exact faultEvent_beat_of ⟨rfl, rfl, rfl⟩
    · exact ⟨rfl, rfl, rfl⟩

theorem onPort_beat (u : Nat) (f : Port → Port) (s : State) : SameBeat s (s.onPort u f) := by
  unfold State.onPort; split
  · exact ⟨rfl, rfl, rfl⟩
  · split <;> exact ⟨rfl, rfl, rfl⟩

theorem openStations_beat (s : State) : SameBeat s (openStations s) := by
  unfold openStations
  dsimp only
  split
  · exact .each (fun u s => onPort_beat ..) _
  · exact SameBeat.trans (t := { s with keep := { s.keep with portsOpen := true } }) ⟨rfl, rfl, rfl⟩ (.each (fun u s => onPort_beat ..) _)

theorem logStart_beat (s : State) : SameBeat s (logStart s) := by
  unfold logStart
  dsimp only
  exact .ite ⟨rfl, rfl, rfl⟩ ⟨rfl, rfl, rfl⟩

theorem logOut_beat (s : State) : SameBeat s (logOut s) := by
  unfold logOut
  exact .ite ⟨rfl, rfl, rfl⟩ (.refl _)

theorem restartClock_beat (s : State) : SameBeat s (restartClock s) := by
  unfold restartClock
  dsimp only
  exact .trans ⟨rfl, rfl, rfl⟩ (.each judge_beat _)

theorem keyThreshold_beat (i : Nat) (s : State) : SameBeat s (keyThreshold i s) := by
  unfold keyThreshold
  dsimp only
  refine .ite (.refl s) (.trans (t := s.onKey i fun k => { k with warned := true }) ⟨rfl, rfl, rfl⟩ ?_)
  exact .ite (.ended (.event ..)) (.each (fun c s => .ended (.event ..)) _)

theorem countInv_beat (i : Nat) (s : State) : SameBeat s (countInv i s) := by
  unfold countInv
  dsimp only
  have h : SameBeat s (s.onKey i fun k => { k with inv := k.inv + 1 }) := ⟨rfl, rfl, rfl⟩
  exact .ite (h.trans (keyThreshold_beat ..)) h

theorem draw0_beat (s : State) : SameBeat s (draw0 s).2 := by
  obtain ⟨k, h⟩ := draw0_eq s; rw [h]; exact ⟨rfl, rfl, rfl⟩

theorem drawBytes_beat (n : Nat) (s : State) : SameBeat s (drawBytes n s).2 := by
  obtain ⟨k, h⟩ := drawBytes_only n s; rw [h]; exact ⟨rfl, rfl, rfl⟩

theorem renewNonce_beat (s : State) : SameBeat s (renewNonce s) := by
  obtain ⟨k, c, g, h⟩ := renewNonce_eq s; rw [h]; exact ⟨rfl, rfl, rfl⟩

theorem sealSection_beat (hdr : Bytes) (k : BitVec 256) (x : Section × Nat) (b : Bytes) (s : State) : SameBeat s (sealSection hdr k x b s).2 := by
  unfold sealSection
  dsimp only
  split
  · exact .refl _
  · split
    · exact .refl _
    · exact countInv_beat ..

theorem seals_beat (hdr : Bytes) (k : BitVec 256) (l : List (Section × Nat)) (a : Bytes × State) :
    SameBeat a.2 (l.foldl (fun (a : Bytes × State) x => sealSection hdr k x a.1 a.2) a).2 := by
  induction l generalizing a with
  | nil => exact .refl _
  | cons x l ih => exact .trans (sealSection_beat ..) (ih _)

theorem ringPut_beat {h : Nat} {b : Bytes} {s t : State} (g : ringPut h b s = some t) : SameBeat s t := by
  unfold ringPut at g
  dsimp only at g
  split at g
  · injection g with g; rw [← g]; exact ⟨rfl, rfl, rfl⟩
  · cases g

theorem takeDump_beat {s t : State} {n l : Nat} (h : takeDump s = some (n, l, t)) : SameBeat s t := by
  unfold takeDump at h
  split at h
  · cases h
  · dsimp only at h
    split at h
    · cases h
    · split at h
      · cases h
      · rename_i hr
        injection h with h
        injection h with _ h
        injection h with _ h
        rw [← h]
        exact ((draw0_beat s).trans (seals_beat ..)).trans ((ringPut_beat hr).trans ⟨rfl, rfl, rfl⟩)

theorem endDump_beat (s : State) : SameBeat s (endDump s) := by
  unfold endDump
  split
  · rename_i h; exact takeDump_beat h
  · exact .ite (.refl s) ⟨rfl, rfl, rfl⟩

theorem keepReady_beat (s : State) : (keepReady s).keep.beat = 0 ∧ (keepReady s).keep.beaten = false ∧ (keepReady s).keep.missed = 0 := by
  unfold keepReady
  dsimp only
  generalize hb : ({ s with keep := _ } : State) = b
  have h1 : b.keep.beat = 0 ∧ b.keep.beaten = false ∧ b.keep.missed = 0 := by rw [← hb]; exact ⟨rfl, rfl, rfl⟩
  have h2 := renewNonce_beat b
  exact ⟨h2.1.trans h1.1, h2.2.1.trans h1.2.1, h2.2.2.trans h1.2.2⟩

theorem beat_zero {s t : State} (h : SameBeat (keepReady s) t) : t.keep.beat = 0 ∧ t.keep.beaten = false ∧ t.keep.missed = 0 := by
  obtain ⟨a, b, c⟩ := keepReady_beat s
  exact ⟨h.1.trans a, h.2.1.trans b, h.2.2.trans c⟩

end Sys2Proof.Machine
end

