-- ==== Sys2Proof/Laws/DumpLaws.lean ====
section
/-! SUPPORT. The dump's lengths: what a section takes, what sections together take, and that an armed dump is taken when its ring has
room for the first. -/

namespace Sys2Proof.Machine
open Sys2Proof Sys2Proof.Crypto

theorem gcmTag_le (k : BitVec 256) (iv a c : Bytes) : (gcmTag k iv a c).length ≤ 16 := by
  unfold gcmTag
  dsimp only
  rw [xorb_len, encBlock_len]
  exact Nat.min_le_right ..

/-- What sealing sections leaves as it was: the dump, the rings, and no slot more to seal under. -/
def DumpKept (s u : State) : Prop := u.rings = s.rings ∧ u.dump = s.dump ∧ ∀ p, (dumpSlot u p).isSome = true → (dumpSlot s p).isSome = true

theorem DumpKept.refl (s : State) : DumpKept s s := ⟨rfl, rfl, fun _ h => h⟩

theorem DumpKept.trans {s t u : State} (h : DumpKept s t) (g : DumpKept t u) : DumpKept s u :=
  ⟨g.1.trans h.1, g.2.1.trans h.2.1, fun p k => h.2.2 p (g.2.2 p k)⟩

theorem mem_of_tfind {α : Type} {t : Tab α} {i : Nat} {v : α} (h : tfind t i = some v) : (i, v) ∈ t := by
  induction t with
  | nil => cases h
  | cons p t ih =>
    obtain ⟨j, w⟩ := p
    unfold tfind at h
    split at h
    · rename_i g; subst g; cases h; exact List.mem_cons_self ..
    · exact List.mem_cons_of_mem _ (ih h)

theorem dumpSlot_some (s : State) (p : Nat) : (dumpSlot s p).isSome = true ↔ ∃ k ∈ s.keys,
    (k.2.state == 1 && k.2.cls == 0xC && !k.2.keepOwn && k.2.owner == p && decide (k.2.inv < invLimit)) = true := by
  unfold dumpSlot
  rw [Option.isSome_map]
  exact List.find?_isSome ..

theorem DumpKept.key {s : State} (i : Nat) (f : KeySlot → KeySlot) (h : ∀ k, (f k).state = k.state ∧ (f k).cls = k.cls ∧
    (f k).keepOwn = k.keepOwn ∧ (f k).owner = k.owner ∧ k.inv ≤ (f k).inv) : DumpKept s (s.onKey i f) := by
  refine ⟨rfl, rfl, fun p g => ?_⟩
  rw [dumpSlot_some] at g ⊢
  obtain ⟨k, hk, g⟩ := g
  rcases mem_tset hk with rfl | hk
  · obtain ⟨h1, h2, h3, h4, h5⟩ := h (tget {} s.keys i)
    simp only [h1, h2, h3, h4, Bool.and_eq_true, decide_eq_true_eq] at g
    have hm : (i, tget {} s.keys i) ∈ s.keys := by
      unfold tget at g ⊢
      cases hf : tfind s.keys i with
      | none => rw [hf] at g; exact absurd g.1.1.1.1 (by decide)
      | some v => exact mem_of_tfind hf
    refine ⟨_, hm, ?_⟩
    simp only [Bool.and_eq_true, decide_eq_true_eq]
    exact ⟨g.1, Nat.lt_of_le_of_lt h5 g.2⟩
  · exact ⟨k, hk, g⟩

theorem DumpKept.ended {s t : State} (h : Ended s t) : DumpKept s t := by
  obtain ⟨k, x, tr, b, tk, fs, p, o, rfl⟩ := h
  exact ⟨rfl, rfl, fun _ h => h⟩

theorem DumpKept.each {α : Type} {l : List α} {f : α → State → State} (h : ∀ a s, DumpKept s (f a s)) (s : State) : DumpKept s (each l f s) :=
  each_inv (fun u => DumpKept s u) l f (fun a _ g => g.trans (h a _)) s (.refl s)

theorem countInv_dump (i : Nat) (s : State) : DumpKept s (countInv i s) := by
  have h : DumpKept s (s.onKey i fun k => { k with inv := k.inv + 1 }) := .key i _ fun k => ⟨rfl, rfl, rfl, rfl, Nat.le_succ _⟩
  unfold countInv
  dsimp only
  split
  · refine h.trans ?_
    generalize s.onKey i _ = u
    unfold keyThreshold
    dsimp only
    split
    · exact .refl _
    · have g : DumpKept u (u.onKey i fun k => { k with warned := true }) := .key i _ fun k => ⟨rfl, rfl, rfl, rfl, Nat.le_refl _⟩
      split
      · exact g.trans (.ended (.event ..))
      · exact g.trans (.each (fun c s => .ended (.event ..)) _)
  · exact h

theorem bodyLen_le {s u : State} (h : DumpKept s u) (x : Section) : bodyLen u x ≤ bodyLen s x := by
  unfold bodyLen
  rw [h.2.1]
  split
  · exact Nat.zero_le _
  · rename_i g
    have k : ¬(s.dump.unreachable.contains x.unit = true ∨ x.owner ≠ 0xFF ∧ (dumpSlot s x.owner).isNone = true) := by
      intro k
      rcases k with k | ⟨k, l⟩
      · exact g (.inl k)
      · refine g (.inr ⟨k, ?_⟩)
        cases hu : dumpSlot u x.owner with
        | none => rfl
        | some v =>
          have := h.2.2 x.owner (by rw [hu]; rfl)
          rw [Option.isNone_iff_eq_none] at l
          rw [l] at this
          exact absurd this (by decide)
    exact Nat.le_of_eq (if_neg k).symm

/-- A sealed section takes no more than its length, and leaves the dump and the rings. -/
theorem sealSection_len {s u : State} (h : DumpKept s u) (hdr : Bytes) (k : BitVec 256) (x : Section × Nat) (b : Bytes) :
    (sealSection hdr k x b u).1.length ≤ b.length + sectionLen s x.1 ∧ DumpKept s (sealSection hdr k x b u).2 := by
  have hle := bodyLen_le h x.1
  have hz : ∀ n, (zeros n).length = n := fun n => by simp [zeros]
  have hb : ¬ bodyLen u x.1 = 0 → (pad16 (Config.dumpBody x.1.code x.1.raw)).length = bodyLen u x.1 := by
    intro g; unfold bodyLen at g ⊢; split
    · rename_i k; rw [if_pos k] at g; exact absurd rfl g
    · rfl
  have hs : bodyLen u x.1 ≠ 0 → sectionLen s x.1 = 48 + bodyLen s x.1 := by
    intro g; unfold sectionLen; rw [if_neg (by omega)]; omega
  have hs0 : 32 ≤ sectionLen s x.1 := by unfold sectionLen; omega
  unfold sealSection
  dsimp only
  split
  · refine ⟨?_, h⟩
    simp only [List.length_append, le_len, hz]
    omega
  · rename_i hn
    split
    · refine ⟨?_, h⟩
      have ht := gcmTag_le k ([0x44, 0, 0, 0] ++ be 8 x.2) (hdr ++ (le 1 x.1.unit ++ le 1 x.1.code ++ le 1 x.1.owner ++
        le 1 (b2n (u.dump.unreachable.contains x.1.unit) 0 + b2n (!u.dump.unreachable.contains x.1.unit && x.1.owner != 0xFF && (dumpSlot u x.1.owner).isNone) 1 +
          b2n (x.1.code != 1) 2) ++ le 4 (bodyLen u x.1) ++ zeros 12 ++ zeros 12))
        (ctrXor k ([0x44, 0, 0, 0] ++ be 8 x.2) 2 (pad16 (Config.dumpBody x.1.code x.1.raw)))
      rw [← gcmSeal_snd] at ht
      simp only [List.length_append, le_len, hz, gcmSeal_fst, ctrXor_len, hb hn] at ht ⊢
      have := hs hn
      omega
    · refine ⟨?_, h.trans (countInv_dump ..)⟩
      have hc : ∀ i n, (cmdNonce i n (u.key i).inv).length = 12 := fun i n => by simp [cmdNonce, be, le_len]
      have ht : ∀ k iv a p, (gcmSeal k iv a p).2.length ≤ 16 := fun k iv a p => by rw [gcmSeal_snd]; exact gcmTag_le ..
      generalize (dumpSlot u x.1.owner).getD 0 = i
      have ht := ht (u.key i).cur (cmdNonce i (u.key i).gen (u.key i).inv) (hdr ++ (le 1 x.1.unit ++ le 1 x.1.code ++ le 1 x.1.owner ++
        le 1 (b2n (u.dump.unreachable.contains x.1.unit) 0 + b2n (!u.dump.unreachable.contains x.1.unit && x.1.owner != 0xFF && (dumpSlot u x.1.owner).isNone) 1 +
          b2n (x.1.code != 1) 2) ++ le 4 (bodyLen u x.1) ++ cmdNonce i (u.key i).gen (u.key i).inv ++ zeros 12)) (pad16 (Config.dumpBody x.1.code x.1.raw))
      simp only [List.length_append, le_len, hz, gcmSeal_fst, ctrXor_len, hb hn, hc] at ht ⊢
      have := hs hn
      omega

/-- Sections sealed one after another take no more than their lengths together. -/
theorem sealSections_len {s : State} (hdr : Bytes) (k : BitVec 256) : ∀ (l : List (Section × Nat)) (a : Bytes × State), DumpKept s a.2 →
    (l.foldl (fun (a : Bytes × State) x => sealSection hdr k x a.1 a.2) a).1.length ≤ a.1.length + (l.map fun x => sectionLen s x.1).sum ∧
    DumpKept s (l.foldl (fun (a : Bytes × State) x => sealSection hdr k x a.1 a.2) a).2 := by
  intro l
  induction l with
  | nil => intro a h; exact ⟨by simp, h⟩
  | cons x l ih =>
    intro a h
    obtain ⟨h1, h2⟩ := sealSection_len h hdr k x a.1
    obtain ⟨h3, h4⟩ := ih (sealSection hdr k x a.1 a.2) h2
    refine ⟨?_, h4⟩
    rw [List.foldl_cons, List.map_cons, List.sum_cons]
    omega

theorem fitting_len (s : State) : ∀ (l : List Section) (room : Nat), ((fitting s room l).map (sectionLen s)).sum ≤ room := by
  intro l
  induction l with
  | nil => intro room; simp [fitting]
  | cons x l ih =>
    intro room
    unfold fitting
    split
    · rw [List.map_cons, List.sum_cons]
      have := ih (room - sectionLen s x)
      omega
    · simp

/-- An armed dump is taken when instance 0 gives its key and the ring has room for its header and first section. -/
theorem takeDump_some {s : State} {r : Nat} {x : Section} {xs : List Section} (h1 : s.dump.ring = some r) (h2 : (tfind s.rings r).isSome = true)
    (h3 : canDraw s 0 = true) (h4 : dumpSections s = x :: xs) (h5 : 1704 + sectionLen s x ≤ ringRoom (tget {} s.rings r) / 16 * 16) :
    ∃ len u, takeDump s = some (s.dump.num, len, u) := by
  have hf := fitting_len s (dumpSections s) (ringRoom (tget {} s.rings r) / 16 * 16 - 1704)
  have he : (fitting s (ringRoom (tget {} s.rings r) / 16 * 16 - 1704) (dumpSections s)).isEmpty = false := by
    rw [h4]; unfold fitting; rw [if_pos (by omega)]; rfl
  unfold takeDump
  rw [h1]
  dsimp only
  generalize fitting s (ringRoom (tget {} s.rings r) / 16 * 16 - 1704) (dumpSections s) = secs at hf he
  rw [if_neg (by
    rw [he, h3]
    rintro (g | g | g)
    · omega
    · exact absurd g (by decide)
    · exact absurd g (by decide))]
  obtain ⟨k, hd⟩ := draw0_eq s
  rw [hd]
  generalize drbgGen s.keep.drbg0 = d
  dsimp only
  have hk : DumpKept s { s with keep := { s.keep with drbg0 := d.2 }, ctrs := k } := ⟨rfl, rfl, fun _ h => h⟩
  have hl : ∀ b : Bytes, (sha384 b).length ≤ 48 := fun b => by unfold sha384; exact List.length_take_le ..
  have ha : (ascii "YK3D").length = 4 := by decide
  generalize hF : List.foldl (fun (a : Bytes × State) x => sealSection _ _ x a.1 a.2) _ secs.zipIdx = F
  have hlen : F.1.length ≤ 1696 + (secs.map (sectionLen s)).sum ∧ DumpKept s F.2 := by
    rw [← hF]
    refine (sealSections_len _ _ secs.zipIdx _ hk).imp (fun g => Nat.le_trans g ?_) (fun g => g)
    have hm : (secs.zipIdx.map fun x => sectionLen s x.1) = secs.map (sectionLen s) := by
      conv => rhs; rw [← List.zipIdx_map_fst 0 secs, List.map_map]
      rfl
    rw [hm]
    have := hl s.dump.ek
    simp only [List.length_append, le_len, fit_len, ha]
    omega
  obtain ⟨hlen, hr, hn, -⟩ := hlen
  have hi : (ringItem 0x10 F.1).length ≤ ringRoom (tget {} s.rings r) := by
    simp only [ringItem, pad16, List.length_append, le_len, zeros, List.length_replicate]
    omega
  unfold ringPut
  rw [hr]
  dsimp only
  rw [if_pos (by rw [h2]; simpa using hi)]
  dsimp only
  rw [show F.2.dump.num = s.dump.num from by rw [hn]]
  exact ⟨_, _, rfl⟩

end Sys2Proof.Machine
end

