-- ==== Sys2Proof/Laws/Mail.lean ====
section
/-! SUPPORT. Domain messages and records: what taking one leaves, and when a row runs on the record it waits for. -/

namespace Sys2Proof.Machine
open Sys2Proof Sys2Proof.Crypto

theorem each_dom_keys {l : List Nat} {f : Nat → State → State} (hf : ∀ i s, (f i s).doms = s.doms ∧ (f i s).keys = s.keys) (s : State) :
    (each l f s).doms = s.doms ∧ (each l f s).keys = s.keys :=
  each_inv (fun t => t.doms = s.doms ∧ t.keys = s.keys) l f (fun i t h => ⟨(hf i t).1.trans h.1, (hf i t).2.trans h.2⟩) s ⟨rfl, rfl⟩

theorem onJobs_keep (part : Nat) (f : Job → Job) (s : State) : (onJobs part f s).doms = s.doms ∧ (onJobs part f s).keys = s.keys := by
  unfold onJobs
  refine each_inv (fun t => t.doms = s.doms ∧ t.keys = s.keys) Config.linkIds _ (fun i t h => ?_) s ⟨rfl, rfl⟩
  dsimp only [onJob, State.onLink]
  exact h

theorem onJobs_key (part : Nat) (f : Job → Job) (s : State) (i : Nat) : (onJobs part f s).key i = s.key i := by unfold State.key; rw [(onJobs_keep part f s).2]

theorem onJobs_dom (part : Nat) (f : Job → Job) (s : State) (i : Nat) : (onJobs part f s).dom i = s.dom i := by unfold State.dom; rw [(onJobs_keep part f s).1]

theorem rotateConfirm_one (part src : Nat) (b : Bytes) (s : State) (g : Nat) (hr : (s.dom part).rot = some (g, 1)) :
    rotateConfirm part src b s = if ofLe (cut 0 4 b) ≠ g ∨ (!(downTree (s.dom part)).contains src) = true ∨
      cut 8 8 b ≠ kcv (s.key (s.dom part).jobSlot).pend ∨ cut 16 8 b ≠ zeros 8 then s
      else confirmUp part (s.onDom part fun d => { d with rotConf := tset d.rotConf src (ofLe (cut 4 3 b)) }) := by
  unfold rotateConfirm
  simp only [hr, show selJob 1 = true by decide, show selCkpt 1 = false by decide, if_true, if_false, Bool.false_eq_true]

theorem withRecord_waits {type part inband r s t} {k : Bool → Rec → State → State} (h : RecordWaits type part inband r s t) :
    withRecord type part k s = k inband r t := by
  obtain ⟨raw, rest, h1, h2, h3, h4, h5, rfl⟩ := h
  unfold withRecord
  rw [h1]
  dsimp only
  rw [if_neg (by cases inband <;> decide), h2]
  dsimp only
  have hi : (BitVec.ofNat 8 (if inband = true then 1 else 0) == (1 : BitVec 8)) = inband := by cases inband <;> rfl
  rw [hi]
  rw [if_neg (by cases inband with
    | true => simp
    | false => have := h4 rfl; rw [Option.isSome_iff_exists] at this; obtain ⟨x, hx⟩ := this; rw [hx]; simp),
    if_neg (fun g => g h3), if_neg]
  intro g
  rw [Bool.and_eq_true, decide_eq_true_eq] at g
  obtain ⟨a, b⟩ := h5 g.1
  rw [a, b] at g; exact absurd g.2 (by decide)

theorem withMig_waits {type part r s t} {k : Rec → State → State} (h : MigWaits type part r s t) :
    withMig type part k s = k r t := by
  obtain ⟨raw, rest, h1, h2, h3, h4, h5, rfl⟩ := h
  unfold withMig
  rw [h1]
  dsimp only
  rw [h2]
  dsimp only
  rw [if_neg (by rw [Option.isSome_iff_exists] at h4; obtain ⟨x, hx⟩ := h4; rw [hx]; simp),
    if_neg (fun g => g h3), if_neg]
  intro g
  rw [Bool.and_eq_true] at g
  obtain ⟨a, b⟩ := h5 (by intro c; rw [c] at g; exact absurd g.1 (by decide))
  rw [a, b] at g; exact absurd g.2 (by decide)

end Sys2Proof.Machine
end

