-- ==== Sys2Proof/Laws/Sound.lean ====
section
/-! SUPPORT. What every operation of the model keeps: the indexed tables of the state stand in rising index order, and
the queue of waiting commands is what it was. `Sound p s` says so of a state; the other names say it of the result types
that carry a state. A lemma `f_keeps` in the Laws/Sound files says that `f` keeps it. -/

namespace Sys2Proof.Machine
open Sys2Proof Sys2Proof.Crypto

structure Sound (p : List Instr) (s : State) : Prop where
  ctrs : sorted s.ctrs = true
  mem : sorted s.mem = true
  link : sorted s.link = true
  keys : sorted s.keys = true
  parts : sorted s.parts = true
  objs : sorted s.objs = true
  ctxs : sorted s.ctxs = true
  queues : sorted s.queues = true
  fences : sorted s.fences = true
  accs : sorted s.accs = true
  arrivals : sorted s.arrivals = true
  users : sorted s.users = true
  opTab : sorted s.opTab = true
  doms : sorted s.doms = true
  migs : sorted s.migs = true
  rings : sorted s.rings = true
  profs : sorted s.profs = true
  pending : s.pending = p

def SoundR {α : Type} (p : List Instr) (x : α × State) : Prop := Sound p x.2
def SoundL {α : Type} (p : List Instr) (x : State × α) : Prop := Sound p x.1
def SoundR2 {α β : Type} (p : List Instr) (x : α × β × State) : Prop := Sound p x.2.2
def SoundO (p : List Instr) : Option State → Prop
  | none => True
  | some t => Sound p t
def SoundD {α β : Type} (p : List Instr) : Option (α × β × State) → Prop
  | none => True
  | some (_, _, t) => Sound p t
def SoundS (p : List Instr) : Step → Prop
  | .ok t => Sound p t
  | .fail _ t => Sound p t
  | .wait t => Sound p t
def SoundA (p : List Instr) : AllocResult → Prop
  | .ok _ t => Sound p t
  | _ => True

theorem Sound.of {p pending : List Instr} {aon flash keep clk flt ctrs mem link host keys parts objs ctxs queues fences taken accs arrivals users opTab nextOp epoch epochDraining epochAt slices oldSlices doms migs handoffs copies backing nextHandoff rings meter dump profs trace stop cond freeSig keepway out}
    (hctrs : sorted ctrs = true)
    (hmem : sorted mem = true)
    (hlink : sorted link = true)
    (hkeys : sorted keys = true)
    (hparts : sorted parts = true)
    (hobjs : sorted objs = true)
    (hctxs : sorted ctxs = true)
    (hqueues : sorted queues = true)
    (hfences : sorted fences = true)
    (haccs : sorted accs = true)
    (harrivals : sorted arrivals = true)
    (husers : sorted users = true)
    (hopTab : sorted opTab = true)
    (hdoms : sorted doms = true)
    (hmigs : sorted migs = true)
    (hrings : sorted rings = true)
    (hprofs : sorted profs = true)
    (hpending : pending = p) : Sound p (State.mk aon flash keep clk flt ctrs mem link host keys parts objs ctxs queues fences taken accs arrivals users opTab nextOp epoch epochDraining epochAt slices oldSlices doms migs handoffs copies backing nextHandoff rings meter dump profs trace stop cond freeSig keepway out pending) :=
  ⟨hctrs, hmem, hlink, hkeys, hparts, hobjs, hctxs, hqueues, hfences, haccs, harrivals, husers, hopTab, hdoms, hmigs, hrings, hprofs, hpending⟩

variable {p : List Instr}
theorem SoundR.mk {α : Type} {a : α} {t : State} (h : Sound p t) : SoundR p (a, t) := h
theorem SoundL.mk {α : Type} {a : α} {t : State} (h : Sound p t) : SoundL p (t, a) := h
theorem SoundR2.mk {α β : Type} {a : α} {x : β × State} (h : SoundR p x) : SoundR2 p (a, x) := h
theorem SoundR.snd {α : Type} {x : α × State} (h : SoundR p x) : Sound p x.2 := h
theorem SoundL.fst {α : Type} {x : State × α} (h : SoundL p x) : Sound p x.1 := h
theorem SoundR2.snd {α β : Type} {x : α × β × State} (h : SoundR2 p x) : SoundR p x.2 := h
theorem SoundO.mk {t : State} (h : Sound p t) : SoundO p (some t) := h
theorem SoundD.mk {α β : Type} {a : α} {b : β} {t : State} (h : Sound p t) : SoundD p (some (a, b, t)) := h
theorem SoundS.mkOk {t : State} (h : Sound p t) : SoundS p (.ok t) := h
theorem SoundS.mkFail {c : Nat} {t : State} (h : Sound p t) : SoundS p (.fail c t) := h
theorem SoundS.mkWait {t : State} (h : Sound p t) : SoundS p (.wait t) := h
theorem SoundA.mkOk {i : Nat} {t : State} (h : Sound p t) : SoundA p (.ok i t) := h

theorem SoundR.get {α : Type} {x : α × State} {a : α} {t : State} (e : x = (a, t)) (h : SoundR p x) : Sound p t := by
  subst e; exact h
theorem SoundL.get {α : Type} {x : State × α} {a : α} {t : State} (e : x = (t, a)) (h : SoundL p x) : Sound p t := by
  subst e; exact h
theorem SoundR2.get {α β : Type} {x : α × β × State} {a : α} {b : β} {t : State} (e : x = (a, b, t)) (h : SoundR2 p x) :
    Sound p t := by subst e; exact h
theorem SoundO.get {x : Option State} {t : State} (e : x = some t) (h : SoundO p x) : Sound p t := by subst e; exact h
theorem SoundD.get {α β : Type} {x : Option (α × β × State)} {a : α} {b : β} {t : State} (e : x = some (a, b, t))
    (h : SoundD p x) : Sound p t := by subst e; exact h
theorem SoundS.getOk {x : Step} {t : State} (e : x = .ok t) (h : SoundS p x) : Sound p t := by subst e; exact h
theorem SoundS.getFail {x : Step} {c : Nat} {t : State} (e : x = .fail c t) (h : SoundS p x) : Sound p t := by subst e; exact h
theorem SoundS.getWait {x : Step} {t : State} (e : x = .wait t) (h : SoundS p x) : Sound p t := by subst e; exact h
theorem SoundA.get {x : AllocResult} {i : Nat} {t : State} (e : x = .ok i t) (h : SoundA p x) : Sound p t := by subst e; exact h
def SoundN {α : Type} (p : List Instr) (x : α × Step) : Prop := SoundS p x.2
theorem SoundN.mk {α : Type} {a : α} {t : Step} (h : SoundS p t) : SoundN p (a, t) := h
theorem SoundN.getOk {α : Type} {x : α × Step} {a : α} {t : State} (e : x = (a, .ok t)) (h : SoundN p x) : Sound p t := by
  subst e; exact h
theorem SoundN.getFail {α : Type} {x : α × Step} {a : α} {c : Nat} {t : State} (e : x = (a, .fail c t)) (h : SoundN p x) :
    Sound p t := by subst e; exact h
theorem SoundN.getWait {α : Type} {x : α × Step} {a : α} {t : State} (e : x = (a, .wait t)) (h : SoundN p x) : Sound p t := by
  subst e; exact h

theorem ite_keeps {α : Type} {K : α → Prop} {c : Prop} [Decidable c] {a b : α} (ha : c → K a) (hb : ¬c → K b) :
    K (if c then a else b) := by
  split
  · exact ha ‹_›
  · exact hb ‹_›

theorem each_keeps {α : Type} {l : List α} {f : α → State → State} {s : State}
    (hf : ∀ a s, Sound p s → Sound p (f a s)) (h : Sound p s) : Sound p (each l f s) := by
  unfold each
  induction l generalizing s with
  | nil => exact h
  | cons x l ih => exact ih (hf x s h)

theorem List.foldl_keeps {α : Type} {l : List α} {f : State → α → State} {s : State}
    (hf : ∀ s a, Sound p s → Sound p (f s a)) (h : Sound p s) : Sound p (l.foldl f s) := by
  induction l generalizing s with
  | nil => exact h
  | cons x l ih => exact ih (hf s x h)

theorem Option.map_keeps {f : State → State} {o : Option State} (hf : ∀ s, Sound p s → Sound p (f s)) (h : SoundO p o) :
    SoundO p (o.map f) := by
  cases o with
  | none => trivial
  | some t => exact hf t h

theorem Option.getD_keeps {o : Option State} {d : State} (h : SoundO p o) (hd : Sound p d) : Sound p (o.getD d) := by
  cases o with
  | none => exact hd
  | some t => exact h

theorem Option.map1_keeps {α : Type} {f : α → State} {o : Option α} (hf : ∀ a, Sound p (f a)) : SoundO p (o.map f) := by
  cases o with
  | none => trivial
  | some t => exact hf t

theorem List.foldlR_keeps {α β : Type} {l : List α} {f : β × State → α → β × State} {x : β × State}
    (hf : ∀ x a, SoundR p x → SoundR p (f x a)) (h : SoundR p x) : SoundR p (l.foldl f x) := by
  induction l generalizing x with
  | nil => exact h
  | cons a l ih => exact ih (hf x a h)

end Sys2Proof.Machine
end

