-- ==== Sys2Proof/Laws/SoundOps.lean ====
section
/-! SUPPORT. Operations that keep the tables in order and the queue as it was (Laws/Sound.lean): the shared operations and the taking of commands. -/

namespace Sys2Proof.Machine
open Sys2Proof Sys2Proof.Crypto

theorem State.onMem_keeps {p} {x0} {x1} {x2} (h0' : Sound p x0) : Sound p (State.onMem x0 x1 x2) := by
  unfold State.onMem
  exact Sound.of h0'.ctrs (sorted_tupd h0'.mem) h0'.link h0'.keys h0'.parts h0'.objs h0'.ctxs h0'.queues h0'.fences h0'.accs h0'.arrivals
      h0'.users h0'.opTab h0'.doms h0'.migs h0'.rings h0'.profs h0'.pending

theorem State.onLink_keeps {p} {x0} {x1} {x2} (h0' : Sound p x0) : Sound p (State.onLink x0 x1 x2) := by
  unfold State.onLink
  exact Sound.of h0'.ctrs h0'.mem (sorted_tupd h0'.link) h0'.keys h0'.parts h0'.objs h0'.ctxs h0'.queues h0'.fences h0'.accs h0'.arrivals
      h0'.users h0'.opTab h0'.doms h0'.migs h0'.rings h0'.profs h0'.pending

theorem State.onKey_keeps {p} {x0} {x1} {x2} (h0' : Sound p x0) : Sound p (State.onKey x0 x1 x2) := by
  unfold State.onKey
  exact Sound.of h0'.ctrs h0'.mem h0'.link (sorted_tupd h0'.keys) h0'.parts h0'.objs h0'.ctxs h0'.queues h0'.fences h0'.accs h0'.arrivals
      h0'.users h0'.opTab h0'.doms h0'.migs h0'.rings h0'.profs h0'.pending

theorem State.onObj_keeps {p} {x0} {x1} {x2} (h0' : Sound p x0) : Sound p (State.onObj x0 x1 x2) := by
  unfold State.onObj
  exact Sound.of h0'.ctrs h0'.mem h0'.link h0'.keys h0'.parts (sorted_tupd h0'.objs) h0'.ctxs h0'.queues h0'.fences h0'.accs h0'.arrivals
      h0'.users h0'.opTab h0'.doms h0'.migs h0'.rings h0'.profs h0'.pending

theorem State.onPart_keeps {p} {x0} {x1} {x2} (h0' : Sound p x0) : Sound p (State.onPart x0 x1 x2) := by
  unfold State.onPart
  exact Sound.of h0'.ctrs h0'.mem h0'.link h0'.keys (sorted_tupd h0'.parts) h0'.objs h0'.ctxs h0'.queues h0'.fences h0'.accs h0'.arrivals
      h0'.users h0'.opTab h0'.doms h0'.migs h0'.rings h0'.profs h0'.pending

theorem State.onCtx_keeps {p} {x0} {x1} {x2} (h0' : Sound p x0) : Sound p (State.onCtx x0 x1 x2) := by
  unfold State.onCtx
  exact Sound.of h0'.ctrs h0'.mem h0'.link h0'.keys h0'.parts h0'.objs (sorted_tupd h0'.ctxs) h0'.queues h0'.fences h0'.accs h0'.arrivals
      h0'.users h0'.opTab h0'.doms h0'.migs h0'.rings h0'.profs h0'.pending

theorem State.onQueue_keeps {p} {x0} {x1} {x2} (h0' : Sound p x0) : Sound p (State.onQueue x0 x1 x2) := by
  unfold State.onQueue
  exact Sound.of h0'.ctrs h0'.mem h0'.link h0'.keys h0'.parts h0'.objs h0'.ctxs (sorted_tupd h0'.queues) h0'.fences h0'.accs h0'.arrivals
      h0'.users h0'.opTab h0'.doms h0'.migs h0'.rings h0'.profs h0'.pending

theorem State.onFence_keeps {p} {x0} {x1} {x2} (h0' : Sound p x0) : Sound p (State.onFence x0 x1 x2) := by
  unfold State.onFence
  exact Sound.of h0'.ctrs h0'.mem h0'.link h0'.keys h0'.parts h0'.objs h0'.ctxs h0'.queues (sorted_tupd h0'.fences) h0'.accs h0'.arrivals
      h0'.users h0'.opTab h0'.doms h0'.migs h0'.rings h0'.profs h0'.pending

theorem State.onDom_keeps {p} {x0} {x1} {x2} (h0' : Sound p x0) : Sound p (State.onDom x0 x1 x2) := by
  unfold State.onDom
  exact Sound.of h0'.ctrs h0'.mem h0'.link h0'.keys h0'.parts h0'.objs h0'.ctxs h0'.queues h0'.fences h0'.accs h0'.arrivals h0'.users
      h0'.opTab (sorted_tupd h0'.doms) h0'.migs h0'.rings h0'.profs h0'.pending

theorem emit_keeps {p} {x0} {x1} (h0' : Sound p x1) : Sound p (emit x0 x1) := by
  unfold emit
  exact Sound.of h0'.ctrs h0'.mem h0'.link h0'.keys h0'.parts h0'.objs h0'.ctxs h0'.queues h0'.fences h0'.accs h0'.arrivals h0'.users
      h0'.opTab h0'.doms h0'.migs h0'.rings h0'.profs h0'.pending

theorem State.onPort_keeps {p} {x0} {x1} {x2} (h0' : Sound p x0) : Sound p (State.onPort x0 x1 x2) := by
  unfold State.onPort
  refine ite_keeps (K := Sound p) (fun _ => ?_) (fun _ => ?_)
  · exact State.onMem_keeps h0'
  · refine ite_keeps (K := Sound p) (fun _ => ?_) (fun _ => ?_)
    · exact State.onLink_keeps h0'
    · exact Sound.of h0'.ctrs h0'.mem h0'.link h0'.keys h0'.parts h0'.objs h0'.ctxs h0'.queues h0'.fences h0'.accs h0'.arrivals h0'.users
          h0'.opTab h0'.doms h0'.migs h0'.rings h0'.profs h0'.pending

theorem fireVector_keeps {p} {x0} {x1} (h0' : Sound p x1) : Sound p (fireVector x0 x1) := by
  unfold fireVector
  refine ite_keeps (K := Sound p) (fun _ => ?_) (fun _ => ?_)
  · exact h0'
  · refine ite_keeps (K := Sound p) (fun _ => ?_) (fun _ => ?_)
    · exact Sound.of h0'.ctrs h0'.mem h0'.link h0'.keys h0'.parts h0'.objs h0'.ctxs h0'.queues h0'.fences h0'.accs h0'.arrivals h0'.users
          h0'.opTab h0'.doms h0'.migs h0'.rings h0'.profs h0'.pending
    · exact emit_keeps h0'

theorem raiseEvent_keeps {p} {x0} {x1} {x2} {x3} {x4} {x5} (h0' : Sound p x5) : Sound p (raiseEvent x0 x1 x2 x3 x4 x5) := by
  unfold raiseEvent
  extract_lets -merge -useContext -underBinder +onlyGivenNames v6
  try clear_value v6
  extract_lets -merge -useContext -underBinder +onlyGivenNames v7
  try clear_value v7
  refine ite_keeps (K := Sound p) (fun _ => ?_) (fun _ => ?_)
  · exact h0'
  · refine ite_keeps (K := Sound p) (fun _ => ?_) (fun _ => ?_)
    · extract_lets -merge -useContext -underBinder +onlyGivenNames v8
      try clear_value v8
      extract_lets -merge -useContext -underBinder +onlyGivenNames v9
      have h10 : Sound p v9 := State.onCtx_keeps h0'
      try clear_value v9
      exact Sound.of (sorted_tupd h10.ctrs) h10.mem h10.link h10.keys h10.parts h10.objs h10.ctxs h10.queues h10.fences h10.accs
          h10.arrivals h10.users h10.opTab h10.doms h10.migs h10.rings h10.profs h10.pending
    · extract_lets -merge -useContext -underBinder +onlyGivenNames v11
      try clear_value v11
      extract_lets -merge -useContext -underBinder +onlyGivenNames v12
      have h13 : Sound p v12 := emit_keeps h0'
      try clear_value v12
      extract_lets -merge -useContext -underBinder +onlyGivenNames v14
      try clear_value v14
      extract_lets -merge -useContext -underBinder +onlyGivenNames v15
      have h16 : Sound p v15 := State.onCtx_keeps h13
      try clear_value v15
      refine ite_keeps (K := Sound p) (fun _ => ?_) (fun _ => ?_)
      · exact h16
      · exact fireVector_keeps h16

theorem bump_keeps {p} {x0} {x1} {x2} {x3} (h0' : Sound p x3) : Sound p (bump x0 x1 x2 x3) := by
  unfold bump
  extract_lets -merge -useContext -underBinder +onlyGivenNames v4
  try clear_value v4
  extract_lets -merge -useContext -underBinder +onlyGivenNames v5
  try clear_value v5
  refine ite_keeps (K := Sound p) (fun _ => ?_) (fun _ => ?_)
  · extract_lets -merge -useContext -underBinder +onlyGivenNames v6
    try clear_value v6
    extract_lets -merge -useContext -underBinder +onlyGivenNames v7
    try clear_value v7
    extract_lets -merge -useContext -underBinder +onlyGivenNames v8
    have h9 : Sound p v8 := by
      exact Sound.of (sorted_tset h0'.ctrs) h0'.mem h0'.link h0'.keys h0'.parts h0'.objs h0'.ctxs h0'.queues h0'.fences h0'.accs
          h0'.arrivals h0'.users h0'.opTab h0'.doms h0'.migs h0'.rings h0'.profs h0'.pending
    try clear_value v8
    refine ite_keeps (K := Sound p) (fun _ => ?_) (fun _ => ?_)
    · exact raiseEvent_keeps h9
    · exact h9
  · exact Sound.of (sorted_tset h0'.ctrs) h0'.mem h0'.link h0'.keys h0'.parts h0'.objs h0'.ctxs h0'.queues h0'.fences h0'.accs h0'.arrivals
        h0'.users h0'.opTab h0'.doms h0'.migs h0'.rings h0'.profs h0'.pending

theorem restartCounters_keeps {p} {x0} {x1} (h0' : Sound p x1) : Sound p (restartCounters x0 x1) := by
  unfold restartCounters
  exact Sound.of (sorted_tupd h0'.ctrs) h0'.mem h0'.link h0'.keys h0'.parts h0'.objs h0'.ctxs h0'.queues h0'.fences h0'.accs h0'.arrivals
      h0'.users h0'.opTab h0'.doms h0'.migs h0'.rings h0'.profs h0'.pending

theorem openRing_keeps {p} {x0} {x1} {x2} (h0' : Sound p x2) : Sound p (openRing x0 x1 x2) := by
  unfold openRing
  extract_lets -merge -useContext -underBinder +onlyGivenNames v3
  try clear_value v3
  refine emit_keeps ?_
  exact Sound.of h0'.ctrs h0'.mem h0'.link h0'.keys h0'.parts h0'.objs h0'.ctxs h0'.queues h0'.fences h0'.accs h0'.arrivals h0'.users
      h0'.opTab h0'.doms h0'.migs (sorted_tset h0'.rings) h0'.profs h0'.pending

theorem ringPut_keeps {p} {x0} {x1} {x2} (h0' : Sound p x2) : SoundO p (ringPut x0 x1 x2) := by
  unfold ringPut
  extract_lets -merge -useContext -underBinder +onlyGivenNames v3
  try clear_value v3
  refine ite_keeps (K := SoundO p) (fun _ => ?_) (fun _ => ?_)
  · extract_lets -merge -useContext -underBinder +onlyGivenNames v4
    try clear_value v4
    refine SoundO.mk ?_
    refine emit_keeps ?_
    exact Sound.of h0'.ctrs h0'.mem h0'.link h0'.keys h0'.parts h0'.objs h0'.ctxs h0'.queues h0'.fences h0'.accs h0'.arrivals h0'.users
        h0'.opTab h0'.doms h0'.migs (sorted_tset h0'.rings) h0'.profs h0'.pending
  · trivial

theorem ringPutOrDrop_keeps {p} {x0} {x1} {x2} (h0' : Sound p x2) : Sound p (ringPutOrDrop x0 x1 x2) := by
  unfold ringPutOrDrop
  split
  · rename_i m3 heq
    have h4 : Sound p m3 := by
      refine SoundO.get heq ?_
      exact ringPut_keeps h0'
    exact h4
  · exact Sound.of h0'.ctrs h0'.mem h0'.link h0'.keys h0'.parts h0'.objs h0'.ctxs h0'.queues h0'.fences h0'.accs h0'.arrivals h0'.users
        h0'.opTab h0'.doms h0'.migs (sorted_tmap h0'.rings) h0'.profs h0'.pending

theorem logEntry_keeps {p} {x0} {x1} {x2} (h0' : Sound p x2) : Sound p (logEntry x0 x1 x2) := by
  unfold logEntry
  extract_lets -merge -useContext -underBinder +onlyGivenNames v3
  try clear_value v3
  exact Sound.of h0'.ctrs h0'.mem h0'.link h0'.keys h0'.parts h0'.objs h0'.ctxs h0'.queues h0'.fences h0'.accs h0'.arrivals h0'.users
      h0'.opTab h0'.doms h0'.migs h0'.rings h0'.profs h0'.pending

theorem eraseKeys_keeps {p} {x0} (h0' : Sound p x0) : Sound p (eraseKeys x0) := by
  unfold eraseKeys
  exact Sound.of h0'.ctrs (sorted_tmap h0'.mem) (sorted_tmap h0'.link) rfl h0'.parts h0'.objs h0'.ctxs h0'.queues h0'.fences h0'.accs
      h0'.arrivals h0'.users h0'.opTab h0'.doms h0'.migs h0'.rings h0'.profs h0'.pending

theorem eraseVault_keeps {p} {x0} (h0' : Sound p x0) : Sound p (eraseVault x0) := by
  unfold eraseVault
  exact Sound.of h0'.ctrs h0'.mem h0'.link h0'.keys h0'.parts h0'.objs h0'.ctxs h0'.queues h0'.fences h0'.accs h0'.arrivals h0'.users
      h0'.opTab h0'.doms h0'.migs h0'.rings h0'.profs h0'.pending

theorem eraseScratch_keeps {p} {x0} (h0' : Sound p x0) : Sound p (eraseScratch x0) := by
  unfold eraseScratch
  exact Sound.of h0'.ctrs h0'.mem h0'.link h0'.keys h0'.parts h0'.objs h0'.ctxs h0'.queues h0'.fences h0'.accs h0'.arrivals h0'.users
      h0'.opTab h0'.doms h0'.migs h0'.rings h0'.profs h0'.pending

theorem eraseVrt_keeps {p} {x0} (h0' : Sound p x0) : Sound p (eraseVrt x0) := by
  unfold eraseVrt
  exact Sound.of h0'.ctrs (sorted_tmap h0'.mem) h0'.link (sorted_tmap h0'.keys) h0'.parts h0'.objs h0'.ctxs h0'.queues h0'.fences h0'.accs
      h0'.arrivals h0'.users h0'.opTab h0'.doms h0'.migs h0'.rings h0'.profs h0'.pending

theorem holdAll_keeps {p} {x0} (h0' : Sound p x0) : Sound p (holdAll x0) := by
  unfold holdAll
  exact Sound.of h0'.ctrs (sorted_tmap h0'.mem) (sorted_tmap h0'.link) h0'.keys h0'.parts h0'.objs h0'.ctxs h0'.queues h0'.fences h0'.accs
      h0'.arrivals h0'.users h0'.opTab h0'.doms h0'.migs h0'.rings h0'.profs h0'.pending

theorem lockdown_keeps {p} {x0} {x1} {x2} (h0' : Sound p x2) : Sound p (lockdown x0 x1 x2) := by
  unfold lockdown
  refine ite_keeps (K := Sound p) (fun _ => ?_) (fun _ => ?_)
  · exact Sound.of h0'.ctrs h0'.mem h0'.link h0'.keys h0'.parts h0'.objs h0'.ctxs h0'.queues h0'.fences h0'.accs h0'.arrivals h0'.users
        h0'.opTab h0'.doms h0'.migs h0'.rings h0'.profs h0'.pending
  · extract_lets -merge -useContext -underBinder +onlyGivenNames w3 w4 v5
    have h6 : Sound p v5 := by
      exact Sound.of h0'.ctrs h0'.mem h0'.link h0'.keys h0'.parts h0'.objs h0'.ctxs h0'.queues h0'.fences h0'.accs h0'.arrivals h0'.users
          h0'.opTab h0'.doms h0'.migs h0'.rings h0'.profs h0'.pending
    try clear_value v5 w4 w3
    extract_lets -merge -useContext -underBinder +onlyGivenNames v7
    try clear_value v7
    extract_lets -merge -useContext -underBinder +onlyGivenNames v8
    have h9 : Sound p v8 := by
      refine ite_keeps (K := Sound p) (fun _ => ?_) (fun _ => ?_)
      · exact eraseScratch_keeps (eraseKeys_keeps h6)
      · exact h6
    try clear_value v8
    extract_lets -merge -useContext -underBinder +onlyGivenNames v10
    have h11 : Sound p v10 := by
      refine ite_keeps (K := Sound p) (fun _ => ?_) (fun _ => ?_)
      · exact eraseVault_keeps h9
      · exact h9
    try clear_value v10
    extract_lets -merge -useContext -underBinder +onlyGivenNames v12
    have h13 : Sound p v12 := by
      refine ite_keeps (K := Sound p) (fun _ => ?_) (fun _ => ?_)
      · exact eraseVrt_keeps h11
      · exact h11
    try clear_value v12
    exact holdAll_keeps h13

theorem dumpTrigger_keeps {p} {x0} {x1} (h0' : Sound p x1) : Sound p (dumpTrigger x0 x1) := by
  unfold dumpTrigger
  extract_lets -merge -useContext -underBinder +onlyGivenNames v2
  try clear_value v2
  refine ite_keeps (K := Sound p) (fun _ => ?_) (fun _ => ?_)
  · exact h0'
  · refine ite_keeps (K := Sound p) (fun _ => ?_) (fun _ => ?_)
    · exact Sound.of h0'.ctrs h0'.mem h0'.link h0'.keys h0'.parts h0'.objs h0'.ctxs h0'.queues h0'.fences h0'.accs h0'.arrivals h0'.users
          h0'.opTab h0'.doms h0'.migs h0'.rings h0'.profs h0'.pending
    · exact Sound.of h0'.ctrs h0'.mem h0'.link h0'.keys h0'.parts h0'.objs h0'.ctxs h0'.queues h0'.fences h0'.accs h0'.arrivals h0'.users
          h0'.opTab h0'.doms h0'.migs h0'.rings h0'.profs h0'.pending

theorem raise_keeps {p} {x0} {x1} {x2} {x3} {x4} {x5} {x6} {x7} (h0' : Sound p x7) : Sound p (raise x0 x1 x2 x3 x4 x5 x6 x7) := by
  unfold raise
  refine ite_keeps (K := Sound p) (fun _ => ?_) (fun _ => ?_)
  · exact h0'
  · extract_lets -merge -useContext -underBinder +onlyGivenNames v8
    try clear_value v8
    extract_lets -merge -useContext -underBinder +onlyGivenNames v9
    try clear_value v9
    extract_lets -merge -useContext -underBinder +onlyGivenNames v10
    try clear_value v10
    extract_lets -merge -useContext -underBinder +onlyGivenNames v11
    try clear_value v11
    extract_lets -merge -useContext -underBinder +onlyGivenNames v12
    try clear_value v12
    extract_lets -merge -useContext -underBinder +onlyGivenNames v13
    try clear_value v13
    extract_lets -merge -useContext -underBinder +onlyGivenNames v14
    try clear_value v14
    extract_lets -merge -useContext -underBinder +onlyGivenNames w15 v16
    have h17 : Sound p v16 := by
      exact Sound.of h0'.ctrs h0'.mem h0'.link h0'.keys h0'.parts h0'.objs h0'.ctxs h0'.queues h0'.fences h0'.accs h0'.arrivals h0'.users
          h0'.opTab h0'.doms h0'.migs h0'.rings h0'.profs h0'.pending
    try clear_value v16 w15
    extract_lets -merge -useContext -underBinder +onlyGivenNames v18
    try clear_value v18
    extract_lets -merge -useContext -underBinder +onlyGivenNames v19
    have h20 : Sound p v19 := logEntry_keeps h17
    try clear_value v19
    extract_lets -merge -useContext -underBinder +onlyGivenNames v21
    have h22 : Sound p v21 := by
      refine ite_keeps (K := Sound p) (fun _ => ?_) (fun _ => ?_)
      · exact fireVector_keeps h20
      · exact h20
    try clear_value v21
    extract_lets -merge -useContext -underBinder +onlyGivenNames v23
    have h24 : Sound p v23 := by
      refine ite_keeps (K := Sound p) (fun _ => ?_) (fun _ => ?_)
      · exact bump_keeps h22
      · exact h22
    try clear_value v23
    extract_lets -merge -useContext -underBinder +onlyGivenNames v25
    have h26 : Sound p v25 := by
      refine ite_keeps (K := Sound p) (fun _ => ?_) (fun _ => ?_)
      · exact dumpTrigger_keeps h24
      · exact h24
    try clear_value v25
    refine ite_keeps (K := Sound p) (fun _ => ?_) (fun _ => ?_)
    · exact lockdown_keeps h26
    · exact h26

theorem countFault_keeps {p} {x0} {x1} {x2} (h0' : Sound p x2) : Sound p (countFault x0 x1 x2) := by
  unfold countFault
  exact Sound.of (sorted_tupd h0'.ctrs) h0'.mem h0'.link h0'.keys h0'.parts h0'.objs h0'.ctxs h0'.queues h0'.fences h0'.accs h0'.arrivals
      h0'.users h0'.opTab h0'.doms h0'.migs h0'.rings h0'.profs h0'.pending

theorem faultEvent_keeps {p} {x0} {x1} {x2} {x3} {x4} (h0' : Sound p x4) : Sound p (faultEvent x0 x1 x2 x3 x4) := by
  unfold faultEvent
  extract_lets -merge -useContext -underBinder +onlyGivenNames v5
  have h6 : Sound p v5 := countFault_keeps h0'
  try clear_value v5
  split
  · exact raise_keeps h6
  · extract_lets -merge -useContext -underBinder +onlyGivenNames v11
    try clear_value v11
    extract_lets -merge -useContext -underBinder +onlyGivenNames v12
    try clear_value v12
    extract_lets -merge -useContext -underBinder +onlyGivenNames v13
    try clear_value v13
    extract_lets -merge -useContext -underBinder +onlyGivenNames v14
    try clear_value v14
    extract_lets -merge -useContext -underBinder +onlyGivenNames v15
    try clear_value v15
    refine ite_keeps (K := Sound p) (fun _ => ?_) (fun _ => ?_)
    · exact raise_keeps (Sound.of h6.ctrs h6.mem h6.link h6.keys h6.parts h6.objs h6.ctxs h6.queues h6.fences h6.accs h6.arrivals h6.users
          h6.opTab h6.doms h6.migs h6.rings h6.profs h6.pending)
    · extract_lets -merge -useContext -underBinder +onlyGivenNames v16
      try clear_value v16
      extract_lets -merge -useContext -underBinder +onlyGivenNames w17 v18
      have h19 : Sound p v18 := by
        exact Sound.of h6.ctrs h6.mem h6.link h6.keys h6.parts h6.objs h6.ctxs h6.queues h6.fences h6.accs h6.arrivals h6.users h6.opTab
            h6.doms h6.migs h6.rings h6.profs h6.pending
      try clear_value v18 w17
      refine ite_keeps (K := Sound p) (fun _ => ?_) (fun _ => ?_)
      · exact h19
      · exact raise_keeps h19

theorem endCondition_keeps {p} {x0} {x1} {x2} (h0' : Sound p x2) : Sound p (endCondition x0 x1 x2) := by
  unfold endCondition
  exact Sound.of h0'.ctrs h0'.mem h0'.link h0'.keys h0'.parts h0'.objs h0'.ctxs h0'.queues h0'.fences h0'.accs h0'.arrivals h0'.users
      h0'.opTab h0'.doms h0'.migs h0'.rings h0'.profs h0'.pending

theorem fenceComplete_keeps {p} {x0} {x1} (h0' : Sound p x1) : Sound p (fenceComplete x0 x1) := by
  unfold fenceComplete
  exact State.onFence_keeps h0'

theorem fenceReport_keeps {p} {x0} {x1} {x2} {x3} {x4} (h0' : Sound p x4) : Sound p (fenceReport x0 x1 x2 x3 x4) := by
  unfold fenceReport
  extract_lets -merge -useContext -underBinder +onlyGivenNames v5
  try clear_value v5
  refine ite_keeps (K := Sound p) (fun _ => ?_) (fun _ => ?_)
  · exact State.onFence_keeps h0'
  · exact bump_keeps h0'

theorem fenceFail_keeps {p} {x0} {x1} {x2} {x3} (h0' : Sound p x3) : Sound p (fenceFail x0 x1 x2 x3) := by
  unfold fenceFail
  exact fenceComplete_keeps (State.onFence_keeps h0')

theorem tracePut_keeps {p} {x0} {x1} {x2} {x3} {x4} {x5} {x6} {x7} (h0' : Sound p x7) : Sound p (tracePut x0 x1 x2 x3 x4 x5 x6 x7) := by
  unfold tracePut
  extract_lets -merge -useContext -underBinder +onlyGivenNames v8
  try clear_value v8
  extract_lets -merge -useContext -underBinder +onlyGivenNames v9
  try clear_value v9
  refine ite_keeps (K := Sound p) (fun _ => ?_) (fun _ => ?_)
  · exact bump_keeps (Sound.of h0'.ctrs h0'.mem h0'.link h0'.keys h0'.parts h0'.objs h0'.ctxs h0'.queues h0'.fences h0'.accs h0'.arrivals
        h0'.users h0'.opTab h0'.doms h0'.migs h0'.rings h0'.profs h0'.pending)
  · extract_lets -merge -useContext -underBinder +onlyGivenNames v10
    try clear_value v10
    extract_lets -merge -useContext -underBinder +onlyGivenNames v11
    try clear_value v11
    exact Sound.of h0'.ctrs h0'.mem h0'.link h0'.keys h0'.parts h0'.objs h0'.ctxs h0'.queues h0'.fences h0'.accs h0'.arrivals h0'.users
        h0'.opTab h0'.doms h0'.migs h0'.rings h0'.profs h0'.pending

theorem traceRec_keeps {p} {x0} {x1} {x2} {x3} {x4} {x5} {x6} {x7} (h0' : Sound p x7) : Sound p (traceRec x0 x1 x2 x3 x4 x5 x6 x7) := by
  unfold traceRec
  extract_lets -merge -useContext -underBinder +onlyGivenNames v8
  try clear_value v8
  extract_lets -merge -useContext -underBinder +onlyGivenNames w9 v10
  have h11 : Sound p v10 := by
    refine ite_keeps (K := Sound p) (fun _ => ?_) (fun _ => ?_)
    · exact tracePut_keeps (Sound.of h0'.ctrs h0'.mem h0'.link h0'.keys h0'.parts h0'.objs h0'.ctxs h0'.queues h0'.fences h0'.accs
          h0'.arrivals h0'.users h0'.opTab h0'.doms h0'.migs h0'.rings h0'.profs h0'.pending)
    · exact h0'
  try clear_value v10 w9
  extract_lets -merge -useContext -underBinder +onlyGivenNames v12
  try clear_value v12
  extract_lets -merge -useContext -underBinder +onlyGivenNames w13 w14 v15
  have h16 : Sound p w13 := tracePut_keeps h11
  have h17 : Sound p v15 := by
    refine ite_keeps (K := Sound p) (fun _ => ?_) (fun _ => ?_)
    · exact Sound.of h16.ctrs h16.mem h16.link h16.keys h16.parts h16.objs h16.ctxs h16.queues h16.fences h16.accs h16.arrivals h16.users
          h16.opTab h16.doms h16.migs h16.rings h16.profs h16.pending
    · exact h11
  try clear_value v15 w14 w13
  extract_lets -merge -useContext -underBinder +onlyGivenNames w18 v19
  have h20 : Sound p v19 := by
    exact Sound.of h17.ctrs h17.mem h17.link h17.keys h17.parts h17.objs h17.ctxs h17.queues h17.fences h17.accs h17.arrivals h17.users
        h17.opTab h17.doms h17.migs h17.rings h17.profs h17.pending
  try clear_value v19 w18
  exact tracePut_keeps h20

theorem tracePass_keeps {p} {x0} {x1} {x2} {x3} {x4} {x5} {x7} (h0' : (∀ x6, Sound p x6 → Sound p (x5 x6))) (h1' : Sound p x7) : Sound p
    (tracePass x0 x1 x2 x3 x4 x5 x7) := by
  unfold tracePass
  refine ite_keeps (K := Sound p) (fun _ => ?_) (fun _ => ?_)
  · exact h0' _ h1'
  · refine ite_keeps (K := Sound p) (fun _ => ?_) (fun _ => ?_)
    · exact Sound.of h1'.ctrs h1'.mem h1'.link h1'.keys h1'.parts h1'.objs h1'.ctxs h1'.queues h1'.fences h1'.accs h1'.arrivals h1'.users
          h1'.opTab h1'.doms h1'.migs h1'.rings h1'.profs h1'.pending
    · exact h1'

theorem traceWork_keeps {p} {x0} {x1} {x2} {x3} (h0' : Sound p x3) : Sound p (traceWork x0 x1 x2 x3) := by
  unfold traceWork
  extract_lets -merge -useContext -underBinder +onlyGivenNames v4
  try clear_value v4
  refine ite_keeps (K := Sound p) (fun _ => ?_) (fun _ => ?_)
  · exact h0'
  · extract_lets -merge -useContext -underBinder +onlyGivenNames v5
    try clear_value v5
    extract_lets -merge -useContext -underBinder +onlyGivenNames v6
    try clear_value v6
    extract_lets -merge -useContext -underBinder +onlyGivenNames v7
    try clear_value v7
    extract_lets -merge -useContext -underBinder +onlyGivenNames v8
    try clear_value v8
    extract_lets -merge -useContext -underBinder +onlyGivenNames v9
    try clear_value v9
    extract_lets -merge -useContext -underBinder +onlyGivenNames v10
    have h11 : Sound p v10 := by
      exact Sound.of h0'.ctrs h0'.mem h0'.link h0'.keys h0'.parts h0'.objs h0'.ctxs h0'.queues h0'.fences h0'.accs h0'.arrivals h0'.users
          h0'.opTab h0'.doms h0'.migs h0'.rings h0'.profs h0'.pending
    try clear_value v10
    extract_lets -merge -useContext -underBinder +onlyGivenNames v12
    have h13 : Sound p v12 := by
      refine tracePass_keeps ?_ h11
      intro a14 h15
      refine ite_keeps (K := Sound p) (fun _ => ?_) (fun _ => ?_)
      · exact traceRec_keeps h15
      · exact h15
    try clear_value v12
    extract_lets -merge -useContext -underBinder +onlyGivenNames v16
    have h17 : Sound p v16 := by
      refine tracePass_keeps ?_ h13
      intro a18 h19
      refine each_keeps ?_ h19
      intro a20 a21 h22
      exact traceRec_keeps h22
    try clear_value v16
    extract_lets -merge -useContext -underBinder +onlyGivenNames v23
    have h24 : Sound p v23 := by
      refine tracePass_keeps ?_ h17
      intro a25 h26
      refine each_keeps ?_ h26
      intro a27 a28 h29
      exact traceRec_keeps h29
    try clear_value v23
    refine tracePass_keeps ?_ h24
    intro a30 h31
    refine ite_keeps (K := Sound p) (fun _ => ?_) (fun _ => ?_)
    · exact traceRec_keeps h31
    · exact h31

theorem profEnded_keeps {p} {x0} {x1} {x2} (h0' : Sound p x2) : Sound p (profEnded x0 x1 x2) := by
  unfold profEnded
  exact Sound.of h0'.ctrs h0'.mem h0'.link h0'.keys h0'.parts h0'.objs h0'.ctxs h0'.queues h0'.fences h0'.accs h0'.arrivals h0'.users
      h0'.opTab h0'.doms h0'.migs h0'.rings (sorted_tmap h0'.profs) h0'.pending

theorem endCommand_keeps {p} {x0} {x1} {x2} {x3} {x5} (h0' : (∀ x4, Sound p x4 → Sound p (x3 x4))) (h1' : Sound p x5) : Sound p (endCommand
    x0 x1 x2 x3 x5) := by
  unfold endCommand
  extract_lets -merge -useContext -underBinder +onlyGivenNames v6
  try clear_value v6
  extract_lets -merge -useContext -underBinder +onlyGivenNames v7
  have h8 : Sound p v7 := by
    refine ite_keeps (K := Sound p) (fun _ => ?_) (fun _ => ?_)
    · exact traceWork_keeps h1'
    · exact h1'
  try clear_value v7
  extract_lets -merge -useContext -underBinder +onlyGivenNames v9
  have h10 : Sound p v9 := by
    exact Sound.of h8.ctrs h8.mem h8.link h8.keys h8.parts h8.objs h8.ctxs h8.queues h8.fences h8.accs h8.arrivals h8.users h8.opTab
        h8.doms h8.migs h8.rings h8.profs h8.pending
  try clear_value v9
  extract_lets -merge -useContext -underBinder +onlyGivenNames v11
  have h12 : Sound p v11 := by
    refine ite_keeps (K := Sound p) (fun _ => ?_) (fun _ => ?_)
    · exact h10
    · exact bump_keeps h10
  try clear_value v11
  extract_lets -merge -useContext -underBinder +onlyGivenNames v13
  have h14 : Sound p v13 := by
    refine profEnded_keeps ?_
    exact h0' _ (emit_keeps h12)
  try clear_value v13
  refine ite_keeps (K := Sound p) (fun _ => ?_) (fun _ => ?_)
  · exact raiseEvent_keeps h14
  · exact h14

theorem failStream_keeps {p} {x0} {x1} {x2} {x3} (h0' : Sound p x3) : Sound p (failStream x0 x1 x2 x3) := by
  unfold failStream
  refine ite_keeps (K := Sound p) (fun _ => ?_) (fun _ => ?_)
  · exact fenceFail_keeps h0'
  · exact h0'

theorem complete_keeps {p} {x0} {x1} {x2} {x3} {x4} (h0' : Sound p x4) : Sound p (complete x0 x1 x2 x3 x4) := by
  unfold complete
  refine endCommand_keeps ?_ (failStream_keeps h0')
  intro a5 h6
  refine ite_keeps (K := Sound p) (fun _ => ?_) (fun _ => ?_)
  · exact fenceComplete_keeps h6
  · exact fenceFail_keeps h6

theorem completeReported_keeps {p} {x0} {x1} {x2} (h0' : Sound p x2) : Sound p (completeReported x0 x1 x2) := by
  unfold completeReported
  extract_lets -merge -useContext -underBinder +onlyGivenNames v3
  try clear_value v3
  refine endCommand_keeps ?_ h0'
  intro a4 h5
  exact fenceComplete_keeps h5

theorem done_keeps {p} {x0} {x1} {x2} (h0' : Sound p x2) : Sound p (done x0 x1 x2) := by
  unfold done
  exact complete_keeps h0'

theorem failCmd_keeps {p} {x0} {x1} {x2} (h0' : Sound p x2) : Sound p (failCmd x0 x1 x2) := by
  unfold failCmd
  exact complete_keeps h0'

theorem keepRunning_keeps {p} {x0} {x1} {x2} (h0' : Sound p x2) : Sound p (keepRunning x0 x1 x2) := by
  unfold keepRunning
  exact Sound.of h0'.ctrs h0'.mem h0'.link h0'.keys h0'.parts h0'.objs h0'.ctxs h0'.queues h0'.fences h0'.accs h0'.arrivals h0'.users
      h0'.opTab h0'.doms h0'.migs h0'.rings h0'.profs h0'.pending

theorem holdResult_keeps {p} {x0} {x1} {x2} {x3} (h0' : Sound p x3) : Sound p (holdResult x0 x1 x2 x3) := by
  unfold holdResult
  exact Sound.of h0'.ctrs h0'.mem h0'.link h0'.keys h0'.parts h0'.objs h0'.ctxs h0'.queues h0'.fences h0'.accs h0'.arrivals h0'.users
      h0'.opTab h0'.doms h0'.migs h0'.rings h0'.profs h0'.pending

theorem draw0_keeps {p} {x0} (h0' : Sound p x0) : SoundR p (draw0 x0) := by
  unfold draw0
  refine SoundR.mk ?_
  exact bump_keeps (Sound.of h0'.ctrs h0'.mem h0'.link h0'.keys h0'.parts h0'.objs h0'.ctxs h0'.queues h0'.fences h0'.accs h0'.arrivals
      h0'.users h0'.opTab h0'.doms h0'.migs h0'.rings h0'.profs h0'.pending)

theorem drawBytes_keeps {p} {x0} {x1} (h0' : Sound p x1) : SoundR p (drawBytes x0 x1) := by
  unfold drawBytes
  extract_lets -merge -useContext -underBinder +onlyGivenNames v2
  try clear_value v2
  refine SoundR.mk ?_
  exact bump_keeps (Sound.of h0'.ctrs h0'.mem h0'.link h0'.keys h0'.parts h0'.objs h0'.ctxs h0'.queues h0'.fences h0'.accs h0'.arrivals
      h0'.users h0'.opTab h0'.doms h0'.migs h0'.rings h0'.profs h0'.pending)

theorem commitFirst_keeps {p} {x0} {x1} (h0' : Sound p x1) : Sound p (commitFirst x0 x1) := by
  unfold commitFirst
  exact State.onKey_keeps h0'

theorem firstKey_keeps {p} {x0} {x1} {x2} {x3} {x4} {x5} (h0' : Sound p x5) : Sound p (firstKey x0 x1 x2 x3 x4 x5) := by
  unfold firstKey
  exact State.onKey_keeps h0'

theorem keyFails_keeps {p} {x0} (h0' : Sound p x0) : Sound p (keyFails x0) := by
  unfold keyFails
  exact faultEvent_keeps h0'

theorem keyThreshold_keeps {p} {x0} {x1} (h0' : Sound p x1) : Sound p (keyThreshold x0 x1) := by
  unfold keyThreshold
  extract_lets -merge -useContext -underBinder +onlyGivenNames v2
  try clear_value v2
  refine ite_keeps (K := Sound p) (fun _ => ?_) (fun _ => ?_)
  · exact h0'
  · extract_lets -merge -useContext -underBinder +onlyGivenNames v3
    have h4 : ∀ x5 x6, Sound p x6 → Sound p (v3 x5 x6) := by
      intro a7 a8 h9
      try unfold v3
      exact raiseEvent_keeps h9
    try clear_value v3
    extract_lets -merge -useContext -underBinder +onlyGivenNames v10
    have h11 : Sound p v10 := State.onKey_keeps h0'
    try clear_value v10
    refine ite_keeps (K := Sound p) (fun _ => ?_) (fun _ => ?_)
    · exact h4 _ _ h11
    · refine each_keeps ?_ h11
      intro a12 a13 h14
      exact h4 _ _ h14

theorem commitSwap_keeps {p} {x0} {x1} (h0' : Sound p x1) : Sound p (commitSwap x0 x1) := by
  unfold commitSwap
  exact State.onKey_keeps h0'

theorem issue_keeps {p} {x0} {x1} {x2} (h0' : Sound p x2) : Sound p (issue x0 x1 x2) := by
  unfold issue
  exact Sound.of h0'.ctrs h0'.mem h0'.link h0'.keys h0'.parts h0'.objs h0'.ctxs h0'.queues h0'.fences h0'.accs h0'.arrivals h0'.users
      h0'.opTab h0'.doms h0'.migs h0'.rings h0'.profs h0'.pending

theorem retireSlot_keeps {p} {x0} {x1} {x2} (h0' : Sound p x2) : Sound p (retireSlot x0 x1 x2) := by
  unfold retireSlot
  refine ite_keeps (K := Sound p) (fun _ => ?_) (fun _ => ?_)
  · exact h0'
  · exact issue_keeps (State.onKey_keeps h0')

theorem overwrite_keeps {p} {x0} {x1} (h0' : Sound p x1) : Sound p (overwrite x0 x1) := by
  unfold overwrite
  extract_lets -merge -useContext -underBinder +onlyGivenNames v2
  try clear_value v2
  extract_lets -merge -useContext -underBinder +onlyGivenNames v3
  have h4 : Sound p v3 := by
    refine each_keeps ?_ h0'
    intro a5 a6 h7
    exact logEntry_keeps h7
  try clear_value v3
  exact State.onKey_keeps h4

theorem scratchTick_keeps {p} {x0} (h0' : Sound p x0) : Sound p (scratchTick x0) := by
  unfold scratchTick
  extract_lets -merge -useContext -underBinder +onlyGivenNames w1 v2
  try clear_value v2 w1
  extract_lets -merge -useContext -underBinder +onlyGivenNames w3 v4
  have h5 : Sound p v4 := by
    exact Sound.of h0'.ctrs h0'.mem h0'.link h0'.keys h0'.parts h0'.objs h0'.ctxs h0'.queues h0'.fences h0'.accs h0'.arrivals h0'.users
        h0'.opTab h0'.doms h0'.migs h0'.rings h0'.profs h0'.pending
  try clear_value v4 w3
  refine ite_keeps (K := Sound p) (fun _ => ?_) (fun _ => ?_)
  · exact h5
  · exact bump_keeps h5

theorem scratchOut_keeps {p} {x0} {x1} {x2} (h0' : Sound p x2) : Sound p (scratchOut x0 x1 x2) := by
  unfold scratchOut
  extract_lets -merge -useContext -underBinder +onlyGivenNames v3
  try clear_value v3
  refine ite_keeps (K := Sound p) (fun _ => ?_) (fun _ => ?_)
  · exact h0'
  · exact Sound.of h0'.ctrs h0'.mem h0'.link h0'.keys h0'.parts h0'.objs h0'.ctxs h0'.queues h0'.fences h0'.accs h0'.arrivals h0'.users
        h0'.opTab h0'.doms h0'.migs h0'.rings h0'.profs h0'.pending

theorem scratchIn_keeps {p} {x0} {x1} (h0' : Sound p x1) : Sound p (scratchIn x0 x1) := by
  unfold scratchIn
  extract_lets -merge -useContext -underBinder +onlyGivenNames v2
  try clear_value v2
  refine ite_keeps (K := Sound p) (fun _ => ?_) (fun _ => ?_)
  · exact h0'
  · exact Sound.of h0'.ctrs h0'.mem h0'.link h0'.keys h0'.parts h0'.objs h0'.ctxs h0'.queues h0'.fences h0'.accs h0'.arrivals h0'.users
        h0'.opTab h0'.doms h0'.migs h0'.rings h0'.profs h0'.pending

theorem armFence_keeps {p} {x0} {x1} {x2} (h0' : Sound p x2) : Sound p (armFence x0 x1 x2) := by
  unfold armFence
  exact State.onFence_keeps h0'

theorem clearProf_keeps {p} {x0} {x1} (h0' : Sound p x1) : Sound p (clearProf x0 x1) := by
  unfold clearProf
  extract_lets -merge -useContext -underBinder +onlyGivenNames v2
  try clear_value v2
  exact Sound.of h0'.ctrs (sorted_tmap h0'.mem) (sorted_tmap h0'.link) h0'.keys h0'.parts h0'.objs h0'.ctxs h0'.queues h0'.fences h0'.accs
      h0'.arrivals h0'.users h0'.opTab h0'.doms h0'.migs h0'.rings h0'.profs h0'.pending

theorem boundary_keeps {p} {x0} {x1} {x2} (h0' : Sound p x2) : Sound p (boundary x0 x1 x2) := by
  unfold boundary
  extract_lets -merge -useContext -underBinder +onlyGivenNames v3
  try clear_value v3
  extract_lets -merge -useContext -underBinder +onlyGivenNames v4
  have h5 : Sound p v4 := by
    refine ite_keeps (K := Sound p) (fun _ => ?_) (fun _ => ?_)
    · exact ringPutOrDrop_keeps h0'
    · exact h0'
  try clear_value v4
  extract_lets -merge -useContext -underBinder +onlyGivenNames v6
  try clear_value v6
  extract_lets -merge -useContext -underBinder +onlyGivenNames v7
  try clear_value v7
  refine clearProf_keeps ?_
  exact Sound.of h5.ctrs h5.mem h5.link h5.keys h5.parts h5.objs h5.ctxs h5.queues h5.fences h5.accs h5.arrivals h5.users h5.opTab h5.doms
      h5.migs h5.rings (sorted_tset h5.profs) h5.pending

theorem startProf_keeps {p} {x0} {x1} (h0' : Sound p x1) : Sound p (startProf x0 x1) := by
  unfold startProf
  refine each_keeps ?_ h0'
  intro a2 a3 h4
  extract_lets -merge -useContext -underBinder +onlyGivenNames v5
  have h6 : Sound p v5 := by
    refine ite_keeps (K := Sound p) (fun _ => ?_) (fun _ => ?_)
    · exact boundary_keeps h4
    · exact h4
  try clear_value v5
  exact Sound.of h6.ctrs h6.mem h6.link h6.keys h6.parts h6.objs h6.ctxs h6.queues h6.fences h6.accs h6.arrivals h6.users h6.opTab h6.doms
      h6.migs h6.rings (sorted_tupd h6.profs) h6.pending

theorem unbindProf_keeps {p} {x0} {x1} (h0' : Sound p x1) : Sound p (unbindProf x0 x1) := by
  unfold unbindProf
  extract_lets -merge -useContext -underBinder +onlyGivenNames v2
  have h3 : Sound p v2 := by
    refine ite_keeps (K := Sound p) (fun _ => ?_) (fun _ => ?_)
    · exact boundary_keeps h0'
    · exact h0'
  try clear_value v2
  extract_lets -merge -useContext -underBinder +onlyGivenNames v4
  have h5 : Sound p v4 := boundary_keeps h3
  try clear_value v4
  exact Sound.of h5.ctrs h5.mem h5.link h5.keys h5.parts h5.objs h5.ctxs h5.queues h5.fences h5.accs h5.arrivals h5.users h5.opTab h5.doms
      h5.migs h5.rings (sorted_tdel h5.profs) h5.pending

theorem tryStart_keeps {p} {x0} {x5} {x6} {x7} {x8} (h0' : (∀ x1 x2 x3 x4, Sound p x4 → Sound p (x0 x1 x2 x3 x4))) (h1' : Sound p x8) :
    Sound p (tryStart x0 x5 x6 x7 x8) := by
  unfold tryStart
  extract_lets -merge -useContext -underBinder +onlyGivenNames v9
  try clear_value v9
  refine ite_keeps (K := Sound p) (fun _ => ?_) (fun _ => ?_)
  · exact h1'
  · split
    · extract_lets -merge -useContext -underBinder +onlyGivenNames v11
      try clear_value v11
      extract_lets -merge -useContext -underBinder +onlyGivenNames v12
      try clear_value v12
      extract_lets -merge -useContext -underBinder +onlyGivenNames v13
      have h14 : Sound p v13 := complete_keeps h1'
      try clear_value v13
      exact State.onFence_keeps h14
    · refine ite_keeps (K := Sound p) (fun _ => ?_) (fun _ => ?_)
      · refine ite_keeps (K := Sound p) (fun _ => ?_) (fun _ => ?_)
        · exact failCmd_keeps h1'
        · extract_lets -merge -useContext -underBinder +onlyGivenNames v16
          try clear_value v16
          extract_lets -merge -useContext -underBinder +onlyGivenNames v17
          have h18 : Sound p v17 := by
            exact Sound.of h1'.ctrs h1'.mem h1'.link h1'.keys h1'.parts h1'.objs h1'.ctxs h1'.queues h1'.fences h1'.accs h1'.arrivals
                h1'.users h1'.opTab h1'.doms h1'.migs h1'.rings h1'.profs h1'.pending
          try clear_value v17
          refine h0' _ _ _ _ ?_
          exact traceWork_keeps (startProf_keeps h18)
      · exact h1'

theorem refuseTake_keeps {p} {x0} {x1} {x2} {x3} {x4} {x5} {x6} (h0' : Sound p x6) : Sound p (refuseTake x0 x1 x2 x3 x4 x5 x6) := by
  unfold refuseTake
  extract_lets -merge -useContext -underBinder +onlyGivenNames v7
  have h8 : Sound p v7 := bump_keeps h0'
  try clear_value v7
  extract_lets -merge -useContext -underBinder +onlyGivenNames v9
  have h10 : Sound p v9 := emit_keeps h8
  try clear_value v9
  exact raiseEvent_keeps h10

theorem takeHook_keeps {p} {x0} {x1} {x2} (h0' : Sound p x2) : SoundR p (takeHook x0 x1 x2) := by
  unfold takeHook
  refine ite_keeps (K := SoundR p) (fun _ => ?_) (fun _ => ?_)
  · refine SoundR.mk ?_
    exact h0'
  · extract_lets -merge -useContext -underBinder +onlyGivenNames v3
    try clear_value v3
    extract_lets -merge -useContext -underBinder +onlyGivenNames v4
    try clear_value v4
    refine ite_keeps (K := SoundR p) (fun _ => ?_) (fun _ => ?_)
    · refine SoundR.mk ?_
      exact h0'
    · refine SoundR.mk ?_
      exact armFence_keeps h0'

theorem dequeue_keeps {p} {x0} {x1} (h0' : Sound p x1) : Sound p (dequeue x0 x1) := by
  unfold dequeue
  extract_lets -merge -useContext -underBinder +onlyGivenNames v2
  have h3 : Sound p v2 := State.onQueue_keeps h0'
  try clear_value v2
  exact bump_keeps (Sound.of h3.ctrs h3.mem h3.link h3.keys h3.parts h3.objs h3.ctxs h3.queues h3.fences h3.accs h3.arrivals h3.users
      h3.opTab h3.doms h3.migs h3.rings h3.profs h3.pending)

theorem admitCmd_keeps {p} {x0} {x5} {x6} {x7} {x8} {x9} {x10} {x11} (h0' : (∀ x1 x2 x3 x4, Sound p x4 → Sound p (x0 x1 x2 x3 x4))) (h1' :
    Sound p x11) : Sound p (admitCmd x0 x5 x6 x7 x8 x9 x10 x11) := by
  unfold admitCmd
  split
  · exact complete_keeps h1'
  · split
    · rename_i m15 heq
      have h16 : Sound p m15 := by
        refine SoundR.get heq ?_
        exact takeHook_keeps h1'
      exact complete_keeps h16
    · rename_i m17 heq
      have h18 : Sound p m17 := by
        refine SoundR.get heq ?_
        exact takeHook_keeps h1'
      exact tryStart_keeps h0' (Sound.of h18.ctrs h18.mem h18.link h18.keys h18.parts h18.objs h18.ctxs h18.queues h18.fences h18.accs
          h18.arrivals h18.users h18.opTab h18.doms h18.migs h18.rings h18.profs h18.pending)

theorem takeCmd_keeps {p} {x0} {x1} {x6} {x7} {x8} {x9} {x10} (h0' : (∀ x2 x3 x4 x5, Sound p x5 → Sound p (x1 x2 x3 x4 x5))) (h1' : Sound p
    x10) : Sound p (takeCmd x0 x1 x6 x7 x8 x9 x10) := by
  unfold takeCmd
  refine ite_keeps (K := Sound p) (fun _ => ?_) (fun _ => ?_)
  · exact h1'
  · extract_lets -merge -useContext -underBinder +onlyGivenNames v11
    try clear_value v11
    extract_lets -merge -useContext -underBinder +onlyGivenNames v12
    try clear_value v12
    refine ite_keeps (K := Sound p) (fun _ => ?_) (fun _ => ?_)
    · exact h1'
    · extract_lets -merge -useContext -underBinder +onlyGivenNames v13
      try clear_value v13
      extract_lets -merge -useContext -underBinder +onlyGivenNames v14
      try clear_value v14
      extract_lets -merge -useContext -underBinder +onlyGivenNames v15
      try clear_value v15
      extract_lets -merge -useContext -underBinder +onlyGivenNames v16
      try clear_value v16
      refine ite_keeps (K := Sound p) (fun _ => ?_) (fun _ => ?_)
      · exact State.onQueue_keeps h1'
      · extract_lets -merge -useContext -underBinder +onlyGivenNames v17
        have h18 : Sound p v17 := dequeue_keeps h1'
        try clear_value v17
        refine ite_keeps (K := Sound p) (fun _ => ?_) (fun _ => ?_)
        · exact refuseTake_keeps h18
        · refine ite_keeps (K := Sound p) (fun _ => ?_) (fun _ => ?_)
          · exact refuseTake_keeps h18
          · extract_lets -merge -useContext -underBinder +onlyGivenNames v19
            have h20 : Sound p v19 := by
              refine armFence_keeps ?_
              refine ite_keeps (K := Sound p) (fun _ => ?_) (fun _ => ?_)
              · exact State.onFence_keeps h18
              · exact h18
            try clear_value v19
            extract_lets -merge -useContext -underBinder +onlyGivenNames v21
            try clear_value v21
            exact admitCmd_keeps h0' h20

theorem withInput_keeps {p} {x0} {x1} {x2} {x4} (h0' : (∀ x3, Sound p x3 → Sound p (x2 x3))) (h1' : Sound p x4) : Sound p (withInput x0 x1
    x2 x4) := by
  unfold withInput
  refine ite_keeps (K := Sound p) (fun _ => ?_) (fun _ => ?_)
  · exact failCmd_keeps h1'
  · exact h0' _ h1'

theorem failStopped_keeps {p} {x0} (h0' : Sound p x0) : Sound p (failStopped x0) := by
  unfold failStopped
  refine each_keeps ?_ h0'
  intro a1 a2 h3
  exact failCmd_keeps h3

theorem stopSecure_keeps {p} {x0} (h0' : Sound p x0) : Sound p (stopSecure x0) := by
  unfold stopSecure
  refine failStopped_keeps ?_
  exact Sound.of h0'.ctrs h0'.mem h0'.link h0'.keys h0'.parts h0'.objs h0'.ctxs (sorted_tmap h0'.queues) h0'.fences h0'.accs h0'.arrivals
      h0'.users h0'.opTab h0'.doms h0'.migs h0'.rings h0'.profs h0'.pending

theorem tdispFail_keeps {p} {x0} {x1} (h0' : Sound p x1) : Sound p (tdispFail x0 x1) := by
  unfold tdispFail
  exact stopSecure_keeps (Sound.of h0'.ctrs h0'.mem h0'.link h0'.keys h0'.parts h0'.objs h0'.ctxs h0'.queues h0'.fences h0'.accs
      h0'.arrivals h0'.users h0'.opTab h0'.doms h0'.migs h0'.rings h0'.profs h0'.pending)

theorem tdispError_keeps {p} {x0} {x1} (h0' : Sound p x1) : Sound p (tdispError x0 x1) := by
  unfold tdispError
  exact tdispFail_keeps h0'

end Sys2Proof.Machine
end

