-- ==== Sys2Proof/Laws/SoundMemory.lean ====
section
/-! SUPPORT. Operations that keep the tables in order and the queue as it was (Laws/Sound.lean): the memory stations, measurement and accumulation. -/

namespace Sys2Proof.Machine
open Sys2Proof Sys2Proof.Crypto

theorem dropDesc_keeps {p} {x0} {x1} (h0' : Sound p x1) : Sound p (dropDesc x0 x1) := by
  unfold dropDesc
  exact Sound.of h0'.ctrs (sorted_tmap h0'.mem) h0'.link h0'.keys h0'.parts h0'.objs h0'.ctxs h0'.queues h0'.fences h0'.accs h0'.arrivals
      h0'.users h0'.opTab h0'.doms h0'.migs h0'.rings h0'.profs h0'.pending

theorem startDual_keeps {p} {x0} {x1} (h0' : Sound p x1) : Sound p (startDual x0 x1) := by
  unfold startDual
  split
  · rename_i m2 m3 heq
    have h4 : Sound p m3 := by
      refine SoundR.get heq ?_
      exact draw0_keeps h0'
    exact State.onKey_keeps h4

theorem noteRekey_keeps {p} {x0} {x1} {x2} {x3} (h0' : Sound p x3) : Sound p (noteRekey x0 x1 x2 x3) := by
  unfold noteRekey
  exact State.onObj_keeps h0'

theorem startRekey_keeps {p} {x0} {x1} {x2} {x3} (h0' : Sound p x3) : Sound p (startRekey x0 x1 x2 x3) := by
  unfold startRekey
  extract_lets -merge -useContext -underBinder +onlyGivenNames v4
  try clear_value v4
  refine ite_keeps (K := Sound p) (fun _ => ?_) (fun _ => ?_)
  · exact noteRekey_keeps h0'
  · refine ite_keeps (K := Sound p) (fun _ => ?_) (fun _ => ?_)
    · extract_lets -merge -useContext -underBinder +onlyGivenNames v5
      have h6 : Sound p v5 := keyFails_keeps (State.onObj_keeps h0')
      try clear_value v5
      refine each_keeps ?_ h6
      intro a7 a8 h9
      exact failCmd_keeps h9
    · refine startDual_keeps ?_
      exact dropDesc_keeps (State.onObj_keeps h0')

theorem rekeyReport_keeps {p} {x0} {x1} {x2} {x3} {x4} {x5} (h0' : Sound p x5) : Sound p (rekeyReport x0 x1 x2 x3 x4 x5) := by
  unfold rekeyReport
  extract_lets -merge -useContext -underBinder +onlyGivenNames v6
  try clear_value v6
  refine ite_keeps (K := Sound p) (fun _ => ?_) (fun _ => ?_)
  · exact h0'
  · extract_lets -merge -useContext -underBinder +onlyGivenNames v7
    have h8 : Sound p v7 := keyThreshold_keeps h0'
    try clear_value v7
    split
    · exact startRekey_keeps h8
    · extract_lets -merge -useContext -underBinder +onlyGivenNames v11
      try clear_value v11
      refine ite_keeps (K := Sound p) (fun _ => ?_) (fun _ => ?_)
      · exact noteRekey_keeps (State.onObj_keeps h8)
      · exact dropDesc_keeps (State.onObj_keeps h8)

theorem sendReport_keeps {p} {x0} {x1} {x2} {x3} (h0' : Sound p x3) : Sound p (sendReport x0 x1 x2 x3) := by
  unfold sendReport
  exact State.onMem_keeps h0'

theorem askKey_keeps {p} {x0} {x1} {x2} {x3} (h0' : Sound p x3) : SoundR p (askKey x0 x1 x2 x3) := by
  unfold askKey
  extract_lets -merge -useContext -underBinder +onlyGivenNames v4
  try clear_value v4
  refine ite_keeps (K := SoundR p) (fun _ => ?_) (fun _ => ?_)
  · refine SoundR.mk ?_
    exact State.onPort_keeps h0'
  · refine ite_keeps (K := SoundR p) (fun _ => ?_) (fun _ => ?_)
    · refine SoundR.mk ?_
      exact h0'
    · refine SoundR.mk ?_
      exact State.onPort_keeps h0'

theorem useKey_keeps {p} {x0} {x1} {x2} {x3} (h0' : Sound p x3) : SoundR p (useKey x0 x1 x2 x3) := by
  unfold useKey
  extract_lets -merge -useContext -underBinder +onlyGivenNames v4
  try clear_value v4
  refine askKey_keeps ?_
  refine ite_keeps (K := Sound p) (fun _ => ?_) (fun _ => ?_)
  · exact h0'
  · exact bump_keeps h0'

theorem useVerKey_keeps {p} {x0} {x1} {x2} (h0' : Sound p x2) : SoundR p (useVerKey x0 x1 x2) := by
  unfold useVerKey
  split
  · refine SoundR.mk ?_
    exact h0'
  · split
    · rename_i m6 m7 heq
      have h8 : Sound p m7 := by
        refine SoundR.get heq ?_
        exact useKey_keeps h0'
      refine SoundR.mk ?_
      exact h8

theorem raiseRoot_keeps {p} {x0} {x1} {x2} (h0' : Sound p x2) : Sound p (raiseRoot x0 x1 x2) := by
  unfold raiseRoot
  extract_lets -merge -useContext -underBinder +onlyGivenNames v3
  try clear_value v3
  extract_lets -merge -useContext -underBinder +onlyGivenNames v4
  try clear_value v4
  extract_lets -merge -useContext -underBinder +onlyGivenNames v5
  try clear_value v5
  extract_lets -merge -useContext -underBinder +onlyGivenNames v6
  try clear_value v6
  extract_lets -merge -useContext -underBinder +onlyGivenNames v7
  try clear_value v7
  extract_lets -merge -useContext -underBinder +onlyGivenNames v8
  try clear_value v8
  extract_lets -merge -useContext -underBinder +onlyGivenNames v9
  have h10 : Sound p v9 := State.onMem_keeps h0'
  try clear_value v9
  refine ite_keeps (K := Sound p) (fun _ => ?_) (fun _ => ?_)
  · exact sendReport_keeps h10
  · exact h10

theorem writeBack_keeps {p} {x0} {x1} {x2} (h0' : Sound p x2) : Sound p (writeBack x0 x1 x2) := by
  unfold writeBack
  extract_lets -merge -useContext -underBinder +onlyGivenNames v3
  have h4 : Sound p v3 := raiseRoot_keeps h0'
  try clear_value v3
  extract_lets -merge -useContext -underBinder +onlyGivenNames v5
  try clear_value v5
  extract_lets -merge -useContext -underBinder +onlyGivenNames v6
  have h7 : Sound p v6 := State.onMem_keeps h4
  try clear_value v6
  extract_lets -merge -useContext -underBinder +onlyGivenNames v8
  have h9 : Sound p v8 := bump_keeps (bump_keeps h7)
  try clear_value v8
  exact emit_keeps h9

theorem rootExhausted_keeps {p} {x0} {x1} {x2} (h0' : Sound p x2) : Sound p (rootExhausted x0 x1 x2) := by
  unfold rootExhausted
  exact sendReport_keeps (State.onMem_keeps h0')

theorem newLine_keeps {p} {x0} {x1} {x2} {x3} {x4} (h0' : Sound p x4) : Sound p (newLine x0 x1 x2 x3 x4) := by
  unfold newLine
  exact writeBack_keeps (State.onMem_keeps h0')

theorem makeRoom_keeps {p} {x0} {x1} {x2} (h0' : Sound p x2) : SoundR p (makeRoom x0 x1 x2) := by
  unfold makeRoom
  extract_lets -merge -useContext -underBinder +onlyGivenNames v3
  try clear_value v3
  extract_lets -merge -useContext -underBinder +onlyGivenNames v4
  try clear_value v4
  refine ite_keeps (K := SoundR p) (fun _ => ?_) (fun _ => ?_)
  · refine SoundR.mk ?_
    exact h0'
  · split
    · refine SoundR.mk ?_
      exact h0'
    · extract_lets -merge -useContext -underBinder +onlyGivenNames v7
      have h8 : ∀ x9, Sound p x9 → Sound p (v7 x9) := by
        intro a10 h11
        try unfold v7
        exact State.onMem_keeps h11
      try clear_value v7
      refine ite_keeps (K := SoundR p) (fun _ => ?_) (fun _ => ?_)
      · refine SoundR.mk ?_
        exact h8 _ h0'
      · refine ite_keeps (K := SoundR p) (fun _ => ?_) (fun _ => ?_)
        · refine SoundR.mk ?_
          exact h0'
        · refine ite_keeps (K := SoundR p) (fun _ => ?_) (fun _ => ?_)
          · refine SoundR.mk ?_
            exact rootExhausted_keeps h0'
          · split
            · rename_i m12 heq
              have h13 : Sound p m12 := by
                refine SoundR.get heq ?_
                exact useVerKey_keeps h0'
              refine SoundR.mk ?_
              exact h13
            · rename_i m14 heq
              have h15 : Sound p m14 := by
                refine SoundR.get heq ?_
                exact useVerKey_keeps h0'
              refine SoundR.mk ?_
              exact h8 _ (writeBack_keeps h15)

theorem askLine_keeps {p} {x0} {x1} {x2} (h0' : Sound p x2) : Sound p (askLine x0 x1 x2) := by
  unfold askLine
  extract_lets -merge -useContext -underBinder +onlyGivenNames v3
  try clear_value v3
  refine ite_keeps (K := Sound p) (fun _ => ?_) (fun _ => ?_)
  · exact h0'
  · split
    · rename_i m4 m5 heq
      have h6 : Sound p m5 := by
        refine SoundR.get heq ?_
        exact makeRoom_keeps h0'
      refine ite_keeps (K := Sound p) (fun _ => ?_) (fun _ => ?_)
      · split
        · rename_i m7 m8 heq
          have h9 : Sound p m8 := by
            refine SoundR.get heq ?_
            exact useVerKey_keeps h6
          refine emit_keeps ?_
          refine bump_keeps ?_
          exact bump_keeps (State.onMem_keeps h9)
      · exact h6

theorem addMeter_keeps {p} {x0} {x1} {x2} {x3} (h0' : Sound p x3) : Sound p (addMeter x0 x1 x2 x3) := by
  unfold addMeter
  refine ite_keeps (K := Sound p) (fun _ => ?_) (fun _ => ?_)
  · exact h0'
  · extract_lets -merge -useContext -underBinder +onlyGivenNames v4
    try clear_value v4
    extract_lets -merge -useContext -underBinder +onlyGivenNames v5
    have h6 : Sound p v5 := State.onPart_keeps h0'
    try clear_value v5
    refine ite_keeps (K := Sound p) (fun _ => ?_) (fun _ => ?_)
    · exact raiseEvent_keeps h6
    · exact h6

theorem meterReq_keeps {p} {x0} {x1} {x2} {x3} (h0' : Sound p x3) : Sound p (meterReq x0 x1 x2 x3) := by
  unfold meterReq
  refine ite_keeps (K := Sound p) (fun _ => ?_) (fun _ => ?_)
  · exact h0'
  · exact addMeter_keeps h0'

theorem profCount_keeps {p} {x0} {x1} {x2} {x3} {x4} {x5} {x6} (h0' : Sound p x6) : Sound p (profCount x0 x1 x2 x3 x4 x5 x6) := by
  unfold profCount
  refine each_keeps ?_ h0'
  intro a7 a8 h9
  exact State.onPort_keeps h9

theorem dropReq_keeps {p} {x0} {x1} {x2} (h0' : Sound p x2) : Sound p (dropReq x0 x1 x2) := by
  unfold dropReq
  exact State.onMem_keeps h0'

theorem setReq_keeps {p} {x0} {x1} {x2} (h0' : Sound p x2) : Sound p (setReq x0 x1 x2) := by
  unfold setReq
  exact State.onMem_keeps h0'

theorem hostAnswer_keeps {p} {x0} {x1} (h0' : Sound p x1) : SoundR p (hostAnswer x0 x1) := by
  unfold hostAnswer
  refine ite_keeps (K := SoundR p) (fun _ => ?_) (fun _ => ?_)
  · refine SoundR.mk ?_
    exact h0'
  · split
    · refine SoundR.mk ?_
      exact emit_keeps h0'
    · split
      · refine SoundR.mk ?_
        exact h0'
      · split
        · rename_i m7 heq
          have h8 : Sound p m7 := by
            refine SoundR.get heq ?_
            exact askKey_keeps h0'
          refine SoundR.mk ?_
          exact h8
        · rename_i m9 m10 heq
          have h11 : Sound p m10 := by
            refine SoundR.get heq ?_
            exact askKey_keeps h0'
          refine SoundR.mk ?_
          refine emit_keeps ?_
          exact addMeter_keeps (bump_keeps h11)

theorem ackOrigin_keeps {p} {x0} {x1} {x2} {x3} (h0' : Sound p x3) : Sound p (ackOrigin x0 x1 x2 x3) := by
  unfold ackOrigin
  refine ite_keeps (K := Sound p) (fun _ => ?_) (fun _ => ?_)
  · exact Sound.of h0'.ctrs h0'.mem h0'.link h0'.keys h0'.parts h0'.objs h0'.ctxs h0'.queues h0'.fences h0'.accs h0'.arrivals h0'.users
        h0'.opTab h0'.doms h0'.migs h0'.rings h0'.profs h0'.pending
  · refine ite_keeps (K := Sound p) (fun _ => ?_) (fun _ => ?_)
    · exact State.onLink_keeps h0'
    · refine ite_keeps (K := Sound p) (fun _ => ?_) (fun _ => ?_)
      · exact Sound.of h0'.ctrs h0'.mem h0'.link h0'.keys h0'.parts h0'.objs h0'.ctxs h0'.queues h0'.fences h0'.accs h0'.arrivals h0'.users
            h0'.opTab h0'.doms h0'.migs h0'.rings h0'.profs h0'.pending
      · refine ite_keeps (K := Sound p) (fun _ => ?_) (fun _ => ?_)
        · split
          · exact h0'
          · extract_lets -merge -useContext -underBinder +onlyGivenNames v8
            try clear_value v8
            extract_lets -merge -useContext -underBinder +onlyGivenNames w9 w10 v11
            have h12 : Sound p v11 := by
              exact Sound.of h0'.ctrs h0'.mem h0'.link h0'.keys h0'.parts h0'.objs h0'.ctxs h0'.queues h0'.fences h0'.accs h0'.arrivals
                  h0'.users h0'.opTab h0'.doms h0'.migs h0'.rings h0'.profs h0'.pending
            try clear_value v11 w10 w9
            refine ite_keeps (K := Sound p) (fun _ => ?_) (fun _ => ?_)
            · exact h12
            · extract_lets -merge -useContext -underBinder +onlyGivenNames v13
              try clear_value v13
              split
              · rename_i m14 heq
                have h15 : Sound p m14 := by
                  refine SoundR.get heq ?_
                  exact hostAnswer_keeps h12
                exact h15
              · rename_i m16 heq
                have h17 : Sound p m16 := by
                  refine SoundR.get heq ?_
                  exact hostAnswer_keeps h12
                exact Sound.of h17.ctrs h17.mem h17.link h17.keys h17.parts h17.objs h17.ctxs h17.queues h17.fences h17.accs h17.arrivals
                    h17.users h17.opTab h17.doms h17.migs h17.rings h17.profs h17.pending
        · exact h0'

theorem accCount_keeps {p} {x0} {x1} {x2} {x3} {x4} (h0' : Sound p x4) : Sound p (accCount x0 x1 x2 x3 x4) := by
  unfold accCount
  extract_lets -merge -useContext -underBinder +onlyGivenNames v5
  try clear_value v5
  extract_lets -merge -useContext -underBinder +onlyGivenNames v6
  have h7 : Sound p v6 := State.onMem_keeps h0'
  try clear_value v6
  refine ite_keeps (K := Sound p) (fun _ => ?_) (fun _ => ?_)
  · exact raiseEvent_keeps h7
  · exact h7

theorem countRefused_keeps {p} {x0} {x1} {x2} (h0' : Sound p x2) : Sound p (countRefused x0 x1 x2) := by
  unfold countRefused
  refine ite_keeps (K := Sound p) (fun _ => ?_) (fun _ => ?_)
  · exact accCount_keeps h0'
  · exact h0'

theorem failReq_keeps {p} {x0} {x1} {x2} {x3} (h0' : Sound p x3) : Sound p (failReq x0 x1 x2 x3) := by
  unfold failReq
  extract_lets -merge -useContext -underBinder +onlyGivenNames v4
  have h5 : Sound p v4 := fenceReport_keeps h0'
  try clear_value v4
  extract_lets -merge -useContext -underBinder +onlyGivenNames v6
  have h7 : Sound p v6 := emit_keeps h5
  try clear_value v6
  extract_lets -merge -useContext -underBinder +onlyGivenNames v8
  have h9 : Sound p v8 := countRefused_keeps (bump_keeps h7)
  try clear_value v8
  refine dropReq_keeps ?_
  exact ackOrigin_keeps (profCount_keeps h9)

theorem refuseReq_keeps {p} {x0} {x1} {x2} {x3} {x4} (h0' : Sound p x4) : Sound p (refuseReq x0 x1 x2 x3 x4) := by
  unfold refuseReq
  extract_lets -merge -useContext -underBinder +onlyGivenNames v5
  have h6 : Sound p v5 := bump_keeps h0'
  try clear_value v5
  extract_lets -merge -useContext -underBinder +onlyGivenNames v7
  have h8 : Sound p v7 := by
    refine ite_keeps (K := Sound p) (fun _ => ?_) (fun _ => ?_)
    · exact faultEvent_keeps h6
    · exact h6
  try clear_value v7
  extract_lets -merge -useContext -underBinder +onlyGivenNames v9
  have h10 : Sound p v9 := fenceReport_keeps h8
  try clear_value v9
  extract_lets -merge -useContext -underBinder +onlyGivenNames v11
  have h12 : Sound p v11 := emit_keeps h10
  try clear_value v11
  refine dropReq_keeps ?_
  refine ackOrigin_keeps ?_
  exact countRefused_keeps (profCount_keeps h12)

theorem tagFail_keeps {p} {x0} {x1} {x2} (h0' : Sound p x2) : Sound p (tagFail x0 x1 x2) := by
  unfold tagFail
  exact failReq_keeps (faultEvent_keeps h0')

theorem endRead_keeps {p} {x0} {x1} {x2} {x3} {x4} {x5} (h0' : Sound p x5) : Sound p (endRead x0 x1 x2 x3 x4 x5) := by
  unfold endRead
  extract_lets -merge -useContext -underBinder +onlyGivenNames v6
  have h7 : Sound p v6 := emit_keeps (emit_keeps h0')
  try clear_value v6
  extract_lets -merge -useContext -underBinder +onlyGivenNames v8
  try clear_value v8
  extract_lets -merge -useContext -underBinder +onlyGivenNames v9
  have h10 : Sound p v9 := by
    refine meterReq_keeps ?_
    refine bump_keeps ?_
    exact bump_keeps (bump_keeps h7)
  try clear_value v9
  extract_lets -merge -useContext -underBinder +onlyGivenNames v11
  have h12 : Sound p v11 := profCount_keeps h10
  try clear_value v11
  exact dropReq_keeps (ackOrigin_keeps h12)

theorem issueWrite_keeps {p} {x0} {x1} {x2} {x3} {x4} {x5} {x6} {x7} (h0' : Sound p x7) : Sound p (issueWrite x0 x1 x2 x3 x4 x5 x6 x7) := by
  unfold issueWrite
  extract_lets -merge -useContext -underBinder +onlyGivenNames v8
  have h9 : Sound p v8 := emit_keeps h0'
  try clear_value v8
  extract_lets -merge -useContext -underBinder +onlyGivenNames v10
  try clear_value v10
  extract_lets -merge -useContext -underBinder +onlyGivenNames v11
  have h12 : Sound p v11 := by
    refine bump_keeps ?_
    refine bump_keeps ?_
    exact bump_keeps (bump_keeps h9)
  try clear_value v11
  extract_lets -merge -useContext -underBinder +onlyGivenNames v13
  have h14 : Sound p v13 := meterReq_keeps (profCount_keeps h12)
  try clear_value v13
  exact setReq_keeps h14

theorem accApplied_keeps {p} {x0} {x1} {x2} (h0' : Sound p x2) : Sound p (accApplied x0 x1 x2) := by
  unfold accApplied
  refine addMeter_keeps ?_
  refine bump_keeps ?_
  refine accCount_keeps ?_
  exact accCount_keeps (accCount_keeps h0')

theorem applied_keeps {p} {x0} {x1} {x2} (h0' : Sound p x2) : Sound p (applied x0 x1 x2) := by
  unfold applied
  refine ite_keeps (K := Sound p) (fun _ => ?_) (fun _ => ?_)
  · exact failReq_keeps h0'
  · extract_lets -merge -useContext -underBinder +onlyGivenNames v3
    have h4 : Sound p v3 := by
      refine ite_keeps (K := Sound p) (fun _ => ?_) (fun _ => ?_)
      · exact accApplied_keeps h0'
      · exact h0'
    try clear_value v3
    refine dropReq_keeps ?_
    exact ackOrigin_keeps (emit_keeps h4)

theorem queueReseal_keeps {p} {x0} {x1} {x2} (h0' : Sound p x2) : Sound p (queueReseal x0 x1 x2) := by
  unfold queueReseal
  refine ite_keeps (K := Sound p) (fun _ => ?_) (fun _ => ?_)
  · exact h0'
  · exact State.onMem_keeps h0'

theorem nextVersion_keeps {p} {x0} {x1} {x2} {x3} {x4} {x5} {x6} {x7} (h0' : Sound p x7) : SoundR p (nextVersion x0 x1 x2 x3 x4 x5 x6 x7) := by
  unfold nextVersion
  extract_lets -merge -useContext -underBinder +onlyGivenNames v8
  try clear_value v8
  extract_lets -merge -useContext -underBinder +onlyGivenNames v9
  try clear_value v9
  refine ite_keeps (K := SoundR p) (fun _ => ?_) (fun _ => ?_)
  · refine SoundR.mk ?_
    exact h0'
  · refine ite_keeps (K := SoundR p) (fun _ => ?_) (fun _ => ?_)
    · refine SoundR.mk ?_
      exact h0'
    · refine ite_keeps (K := SoundR p) (fun _ => ?_) (fun _ => ?_)
      · refine SoundR.mk ?_
        exact h0'
      · refine ite_keeps (K := SoundR p) (fun _ => ?_) (fun _ => ?_)
        · refine SoundR.mk ?_
          exact queueReseal_keeps h0'
        · refine ite_keeps (K := SoundR p) (fun _ => ?_) (fun _ => ?_)
          · refine ite_keeps (K := SoundR p) (fun _ => ?_) (fun _ => ?_)
            · refine SoundR.mk ?_
              exact sendReport_keeps (State.onMem_keeps h0')
            · refine ite_keeps (K := SoundR p) (fun _ => ?_) (fun _ => ?_)
              · refine SoundR.mk ?_
                exact h0'
              · extract_lets -merge -useContext -underBinder +onlyGivenNames v10
                try clear_value v10
                extract_lets -merge -useContext -underBinder +onlyGivenNames v11
                have h12 : Sound p v11 := State.onMem_keeps h0'
                try clear_value v11
                refine SoundR.mk ?_
                refine ite_keeps (K := Sound p) (fun _ => ?_) (fun _ => ?_)
                · exact sendReport_keeps h12
                · exact h12
          · refine SoundR.mk ?_
            exact h0'

theorem commitSlot_keeps {p} {x0} {x1} {x2} {x3} (h0' : Sound p x3) : Sound p (commitSlot x0 x1 x2 x3) := by
  unfold commitSlot
  exact State.onObj_keeps (State.onMem_keeps h0')

theorem issueRead_keeps {p} {x0} {x1} {x2} {x3} (h0' : Sound p x3) : Sound p (issueRead x0 x1 x2 x3) := by
  unfold issueRead
  extract_lets -merge -useContext -underBinder +onlyGivenNames v4
  have h5 : Sound p v4 := emit_keeps h0'
  try clear_value v4
  extract_lets -merge -useContext -underBinder +onlyGivenNames v6
  have h7 : Sound p v6 := by
    refine ite_keeps (K := Sound p) (fun _ => ?_) (fun _ => ?_)
    · exact h5
    · exact emit_keeps h5
  try clear_value v6
  extract_lets -merge -useContext -underBinder +onlyGivenNames v8
  have h9 : Sound p v8 := profCount_keeps h7
  try clear_value v8
  exact setReq_keeps (bump_keeps h9)

theorem advReadTile_keeps {p} {x0} {x1} {x2} {x3} {x4} {x5} (h0' : Sound p x5) : SoundR p (advReadTile x0 x1 x2 x3 x4 x5) := by
  unfold advReadTile
  extract_lets -merge -useContext -underBinder +onlyGivenNames v6
  try clear_value v6
  refine ite_keeps (K := SoundR p) (fun _ => ?_) (fun _ => ?_)
  · refine SoundR.mk ?_
    exact issueRead_keeps h0'
  · refine ite_keeps (K := SoundR p) (fun _ => ?_) (fun _ => ?_)
    · split
      · extract_lets -merge -useContext -underBinder +onlyGivenNames v9
        try clear_value v9
        split
        · rename_i m10 heq
          have h11 : Sound p m10 := by
            refine SoundR.get heq ?_
            exact useKey_keeps h0'
          refine SoundR.mk ?_
          exact h11
        · rename_i m12 m13 heq
          have h14 : Sound p m13 := by
            refine SoundR.get heq ?_
            exact useKey_keeps h0'
          refine SoundR.mk ?_
          exact issueRead_keeps h14
    · split
      · extract_lets -merge -useContext -underBinder +onlyGivenNames v17
        try clear_value v17
        extract_lets -merge -useContext -underBinder +onlyGivenNames v18
        try clear_value v18
        refine ite_keeps (K := SoundR p) (fun _ => ?_) (fun _ => ?_)
        · refine SoundR.mk ?_
          exact tagFail_keeps h0'
        · split
          · refine SoundR.mk ?_
            exact askLine_keeps h0'
          · extract_lets -merge -useContext -underBinder +onlyGivenNames v21
            have h22 : Sound p v21 := bump_keeps (State.onMem_keeps h0')
            try clear_value v21
            split
            · refine ite_keeps (K := SoundR p) (fun _ => ?_) (fun _ => ?_)
              · refine SoundR.mk ?_
                exact endRead_keeps h22
              · split
                · split
                  · rename_i m27 heq
                    have h28 : Sound p m27 := by
                      refine SoundR.get heq ?_
                      exact useKey_keeps h22
                    refine SoundR.mk ?_
                    exact h28
                  · rename_i m29 m30 heq
                    have h31 : Sound p m30 := by
                      refine SoundR.get heq ?_
                      exact useKey_keeps h22
                    refine SoundR.mk ?_
                    exact issueRead_keeps h31

theorem sectorOut_keeps {p} {x0} {x1} {x2} {x3} {x4} {x5} {x6} (h0' : Sound p x6) : Sound p (sectorOut x0 x1 x2 x3 x4 x5 x6) := by
  unfold sectorOut
  refine ite_keeps (K := Sound p) (fun _ => ?_) (fun _ => ?_)
  · extract_lets -merge -useContext -underBinder +onlyGivenNames v7
    have h8 : Sound p v7 := emit_keeps (emit_keeps h0')
    try clear_value v7
    extract_lets -merge -useContext -underBinder +onlyGivenNames v9
    try clear_value v9
    refine meterReq_keeps ?_
    refine bump_keeps ?_
    exact bump_keeps (profCount_keeps h8)
  · extract_lets -merge -useContext -underBinder +onlyGivenNames v10
    have h11 : Sound p v10 := fenceReport_keeps h0'
    try clear_value v10
    refine emit_keeps ?_
    exact bump_keeps (profCount_keeps h11)

theorem endSectors_keeps {p} {x0} {x1} {x2} (h0' : Sound p x2) : Sound p (endSectors x0 x1 x2) := by
  unfold endSectors
  refine dropReq_keeps ?_
  exact ackOrigin_keeps (bump_keeps h0')

theorem advSectors_keeps {p} {x0} {x1} {x2} {x3} {x4} {x5} {x6} (h0' : Sound p x6) : SoundR p (advSectors x0 x1 x2 x3 x4 x5 x6) := by
  induction x0 generalizing x1 x2 x3 x4 x5 x6 with
  | zero =>
    unfold advSectors
    refine SoundR.mk ?_
    exact h0'
  | succ n ih =>
    unfold advSectors
    split
    · refine SoundR.mk ?_
      exact endSectors_keeps h0'
    · extract_lets -merge -useContext -underBinder +onlyGivenNames v18
      have h19 : ∀ x20 x21, Sound p x21 → Sound p (v18 x20 x21) := by
        intro a22 a23 h24
        try unfold v18
        extract_lets -merge -useContext -underBinder +onlyGivenNames v25
        have h26 : Sound p v25 := emit_keeps h24
        try clear_value v25
        extract_lets -merge -useContext -underBinder +onlyGivenNames v27
        have h28 : Sound p v27 := by
          refine ite_keeps (K := Sound p) (fun _ => ?_) (fun _ => ?_)
          · exact emit_keeps h26
          · exact h26
        try clear_value v27
        extract_lets -merge -useContext -underBinder +onlyGivenNames v29
        try clear_value v29
        refine setReq_keeps ?_
        exact bump_keeps (profCount_keeps h28)
      try clear_value v18
      refine ite_keeps (K := SoundR p) (fun _ => ?_) (fun _ => ?_)
      · refine SoundR.mk ?_
        exact h19 _ _ h0'
      · split
        · extract_lets -merge -useContext -underBinder +onlyGivenNames v32
          try clear_value v32
          extract_lets -merge -useContext -underBinder +onlyGivenNames v33
          try clear_value v33
          refine ite_keeps (K := SoundR p) (fun _ => ?_) (fun _ => ?_)
          · extract_lets -merge -useContext -underBinder +onlyGivenNames v34
            try clear_value v34
            refine ih ?_
            refine setReq_keeps ?_
            exact sectorOut_keeps (faultEvent_keeps h0')
          · split
            · refine SoundR.mk ?_
              exact askLine_keeps h0'
            · extract_lets -merge -useContext -underBinder +onlyGivenNames v37
              have h38 : Sound p v37 := bump_keeps (State.onMem_keeps h0')
              try clear_value v37
              split
              · refine ite_keeps (K := SoundR p) (fun _ => ?_) (fun _ => ?_)
                · extract_lets -merge -useContext -underBinder +onlyGivenNames v41
                  try clear_value v41
                  refine ih ?_
                  exact setReq_keeps (sectorOut_keeps h38)
                · split
                  · split
                    · rename_i m44 heq
                      have h45 : Sound p m44 := by
                        refine SoundR.get heq ?_
                        exact useKey_keeps h38
                      refine SoundR.mk ?_
                      exact h45
                    · rename_i m46 m47 heq
                      have h48 : Sound p m47 := by
                        refine SoundR.get heq ?_
                        exact useKey_keeps h38
                      refine SoundR.mk ?_
                      exact h19 _ _ h48

theorem advWriteTile_keeps {p} {x0} {x1} {x2} {x3} {x4} {x5} {x6} (h0' : Sound p x6) : SoundR p (advWriteTile x0 x1 x2 x3 x4 x5 x6) := by
  unfold advWriteTile
  refine ite_keeps (K := SoundR p) (fun _ => ?_) (fun _ => ?_)
  · refine SoundR.mk ?_
    exact h0'
  · refine ite_keeps (K := SoundR p) (fun _ => ?_) (fun _ => ?_)
    · extract_lets -merge -useContext -underBinder +onlyGivenNames v7
      try clear_value v7
      refine SoundR.mk ?_
      exact issueWrite_keeps h0'
    · refine ite_keeps (K := SoundR p) (fun _ => ?_) (fun _ => ?_)
      · refine ite_keeps (K := SoundR p) (fun _ => ?_) (fun _ => ?_)
        · refine SoundR.mk ?_
          exact refuseReq_keeps h0'
        · refine ite_keeps (K := SoundR p) (fun _ => ?_) (fun _ => ?_)
          · refine SoundR.mk ?_
            exact refuseReq_keeps h0'
          · split
            · split
              · rename_i m10 heq
                have h11 : Sound p m10 := by
                  refine SoundR.get heq ?_
                  exact useKey_keeps h0'
                refine SoundR.mk ?_
                exact h11
              · rename_i m12 m13 heq
                have h14 : Sound p m13 := by
                  refine SoundR.get heq ?_
                  exact useKey_keeps h0'
                extract_lets -merge -useContext -underBinder +onlyGivenNames v15
                try clear_value v15
                split
                · extract_lets -merge -useContext -underBinder +onlyGivenNames v18
                  have h19 : Sound p v18 := State.onObj_keeps h14
                  try clear_value v18
                  extract_lets -merge -useContext -underBinder +onlyGivenNames v20
                  have h21 : Sound p v20 := by
                    refine ite_keeps (K := Sound p) (fun _ => ?_) (fun _ => ?_)
                    · exact bump_keeps h19
                    · exact h19
                  try clear_value v20
                  extract_lets -merge -useContext -underBinder +onlyGivenNames v22
                  try clear_value v22
                  refine SoundR.mk ?_
                  exact issueWrite_keeps h21
      · split
        · extract_lets -merge -useContext -underBinder +onlyGivenNames v25
          try clear_value v25
          refine ite_keeps (K := SoundR p) (fun _ => ?_) (fun _ => ?_)
          · refine SoundR.mk ?_
            exact failReq_keeps h0'
          · split
            · refine SoundR.mk ?_
              exact askLine_keeps h0'
            · extract_lets -merge -useContext -underBinder +onlyGivenNames v28
              have h29 : Sound p v28 := bump_keeps h0'
              try clear_value v28
              split
              · rename_i m30 m31 heq
                have h32 : Sound p m31 := by
                  refine SoundR.get heq ?_
                  exact nextVersion_keeps h29
                refine SoundR.mk ?_
                exact failReq_keeps h32
              · rename_i m33 heq
                have h34 : Sound p m33 := by
                  refine SoundR.get heq ?_
                  exact nextVersion_keeps h29
                refine SoundR.mk ?_
                exact h34
              · rename_i m35 m36 heq
                have h37 : Sound p m36 := by
                  refine SoundR.get heq ?_
                  exact nextVersion_keeps h29
                split
                · split
                  · rename_i m40 heq
                    have h41 : Sound p m40 := by
                      refine SoundR.get heq ?_
                      exact useKey_keeps h37
                    refine SoundR.mk ?_
                    exact h41
                  · rename_i m42 m43 heq
                    have h44 : Sound p m43 := by
                      refine SoundR.get heq ?_
                      exact useKey_keeps h37
                    extract_lets -merge -useContext -underBinder +onlyGivenNames v45
                    try clear_value v45
                    split
                    · extract_lets -merge -useContext -underBinder +onlyGivenNames v48
                      try clear_value v48
                      refine SoundR.mk ?_
                      exact issueWrite_keeps (commitSlot_keeps h44)

theorem commitSector_keeps {p} {x0} {x1} {x2} {x3} {x4} {x5} {x6} {x7} {x8} {x9} {x10} {x11} {x12} {x13} (h0' : Sound p x13) : SoundR2 p
    (commitSector x0 x1 x2 x3 x4 x5 x6 x7 x8 x9 x10 x11 x12 x13) := by
  unfold commitSector
  split
  · rename_i m14 m15 heq
    have h16 : Sound p m15 := by
      refine SoundR.get heq ?_
      exact nextVersion_keeps h0'
    refine SoundR2.mk ?_
    refine SoundR.mk ?_
    exact h16
  · rename_i m17 heq
    have h18 : Sound p m17 := by
      refine SoundR.get heq ?_
      exact nextVersion_keeps h0'
    refine SoundR2.mk ?_
    refine SoundR.mk ?_
    exact h18
  · rename_i m19 m20 heq
    have h21 : Sound p m20 := by
      refine SoundR.get heq ?_
      exact nextVersion_keeps h0'
    split
    · split
      · rename_i m24 heq
        have h25 : Sound p m24 := by
          refine SoundR.get heq ?_
          exact useKey_keeps h21
        refine SoundR2.mk ?_
        refine SoundR.mk ?_
        exact h25
      · rename_i m26 m27 heq
        have h28 : Sound p m27 := by
          refine SoundR.get heq ?_
          exact useKey_keeps h21
        split
        · extract_lets -merge -useContext -underBinder +onlyGivenNames v31
          have h32 : Sound p v31 := emit_keeps (commitSlot_keeps h28)
          try clear_value v31
          extract_lets -merge -useContext -underBinder +onlyGivenNames v33
          try clear_value v33
          extract_lets -merge -useContext -underBinder +onlyGivenNames v34
          have h35 : Sound p v34 := by
            refine profCount_keeps ?_
            refine ite_keeps (K := Sound p) (fun _ => ?_) (fun _ => ?_)
            · exact h32
            · exact bump_keeps h32
          try clear_value v34
          extract_lets -merge -useContext -underBinder +onlyGivenNames v36
          have h37 : Sound p v36 := by
            refine meterReq_keeps ?_
            refine bump_keeps ?_
            exact bump_keeps (bump_keeps h35)
          try clear_value v36
          extract_lets -merge -useContext -underBinder +onlyGivenNames v38
          have h39 : Sound p v38 := by
            refine ite_keeps (K := Sound p) (fun _ => ?_) (fun _ => ?_)
            · exact h37
            · exact bump_keeps (faultEvent_keeps h37)
          try clear_value v38
          refine SoundR2.mk ?_
          refine SoundR.mk ?_
          exact setReq_keeps h39

theorem advFine_keeps {p} {x0} {x1} {x2} {x3} {x4} {x5} {x6} {x7} (h0' : Sound p x7) : SoundR p (advFine x0 x1 x2 x3 x4 x5 x6 x7) := by
  induction x0 generalizing x1 x2 x3 x4 x5 x6 x7 with
  | zero =>
    unfold advFine
    refine SoundR.mk ?_
    exact h0'
  | succ n ih =>
    unfold advFine
    split
    · extract_lets -merge -useContext -underBinder +onlyGivenNames v20
      try clear_value v20
      refine ite_keeps (K := SoundR p) (fun _ => ?_) (fun _ => ?_)
      · refine SoundR.mk ?_
        exact applied_keeps h0'
      · refine ite_keeps (K := SoundR p) (fun _ => ?_) (fun _ => ?_)
        · refine SoundR.mk ?_
          exact h0'
        · split
          · extract_lets -merge -useContext -underBinder +onlyGivenNames v23
            try clear_value v23
            extract_lets -merge -useContext -underBinder +onlyGivenNames v24
            try clear_value v24
            extract_lets -merge -useContext -underBinder +onlyGivenNames v25
            have h26 : ∀ x27 x28, Sound p x28 → SoundR p (v25 x27 x28) := by
              intro a29 a30 h31
              try unfold v25
              extract_lets -merge -useContext -underBinder +onlyGivenNames v32
              try clear_value v32
              exact ih (setReq_keeps h31)
            try clear_value v25
            refine ite_keeps (K := SoundR p) (fun _ => ?_) (fun _ => ?_)
            · exact h26 _ _ h0'
            · split
              · refine SoundR.mk ?_
                exact askLine_keeps h0'
              · extract_lets -merge -useContext -underBinder +onlyGivenNames v35
                have h36 : Sound p v35 := bump_keeps h0'
                try clear_value v35
                split
                · extract_lets -merge -useContext -underBinder +onlyGivenNames v40
                  try clear_value v40
                  refine ite_keeps (K := SoundR p) (fun _ => ?_) (fun _ => ?_)
                  · split
                    · rename_i m41 m42 m43 heq
                      have h44 : Sound p m43 := by
                        refine SoundR2.get heq ?_
                        exact commitSector_keeps h36
                      exact h26 _ _ h44
                    · rename_i m45 m46 heq
                      have h47 : Sound p m46 := by
                        refine SoundR2.get heq ?_
                        exact commitSector_keeps h36
                      refine SoundR.mk ?_
                      exact h47
                  · refine ite_keeps (K := SoundR p) (fun _ => ?_) (fun _ => ?_)
                    · split
                      · rename_i m48 m49 heq
                        have h50 : Sound p m49 := by
                          refine SoundR.get heq ?_
                          exact nextVersion_keeps h36
                        exact h26 _ _ h50
                      · rename_i m51 m52 _ heq
                        have h53 : Sound p m52 := by
                          refine SoundR.get heq ?_
                          exact nextVersion_keeps h36
                        refine SoundR.mk ?_
                        exact h53
                    · refine ite_keeps (K := SoundR p) (fun _ => ?_) (fun _ => ?_)
                      · exact h26 _ _ h36
                      · split
                        · split
                          · rename_i m56 heq
                            have h57 : Sound p m56 := by
                              refine SoundR.get heq ?_
                              exact useKey_keeps h36
                            refine SoundR.mk ?_
                            exact h57
                          · rename_i m58 m59 heq
                            have h60 : Sound p m59 := by
                              refine SoundR.get heq ?_
                              exact useKey_keeps h36
                            extract_lets -merge -useContext -underBinder +onlyGivenNames v61
                            have h62 : Sound p v61 := emit_keeps h60
                            try clear_value v61
                            extract_lets -merge -useContext -underBinder +onlyGivenNames v63
                            have h64 : Sound p v63 := emit_keeps h62
                            try clear_value v63
                            extract_lets -merge -useContext -underBinder +onlyGivenNames v65
                            have h66 : Sound p v65 := profCount_keeps h64
                            try clear_value v65
                            refine SoundR.mk ?_
                            exact setReq_keeps (bump_keeps h66)

theorem finishFine_keeps {p} {x0} {x1} {x2} {x3} {x4} {x5} {x6} (h0' : Sound p x6) : SoundR p (finishFine x0 x1 x2 x3 x4 x5 x6) := by
  unfold finishFine
  refine ite_keeps (K := SoundR p) (fun _ => ?_) (fun _ => ?_)
  · refine SoundR.mk ?_
    exact h0'
  · split
    · refine SoundR.mk ?_
      exact failReq_keeps h0'
    · extract_lets -merge -useContext -underBinder +onlyGivenNames v9
      try clear_value v9
      split
      · extract_lets -merge -useContext -underBinder +onlyGivenNames v12
        try clear_value v12
        split
        · refine SoundR.mk ?_
          exact askLine_keeps h0'
        · split
          · split
            · extract_lets -merge -useContext -underBinder +onlyGivenNames v20
              try clear_value v20
              extract_lets -merge -useContext -underBinder +onlyGivenNames v21
              try clear_value v21
              extract_lets -merge -useContext -underBinder +onlyGivenNames v22
              try clear_value v22
              split
              · rename_i m23 m24 m25 heq
                have h26 : Sound p m25 := by
                  refine SoundR2.get heq ?_
                  exact commitSector_keeps h0'
                extract_lets -merge -useContext -underBinder +onlyGivenNames v27
                try clear_value v27
                exact advFine_keeps (setReq_keeps h26)
              · rename_i m28 m29 heq
                have h30 : Sound p m29 := by
                  refine SoundR2.get heq ?_
                  exact commitSector_keeps h0'
                refine SoundR.mk ?_
                refine ite_keeps (K := Sound p) (fun _ => ?_) (fun _ => ?_)
                · exact bump_keeps h30
                · exact h30

theorem finishPlain_keeps {p} {x0} {x1} {x2} (h0' : Sound p x2) : SoundR p (finishPlain x0 x1 x2) := by
  unfold finishPlain
  refine ite_keeps (K := SoundR p) (fun _ => ?_) (fun _ => ?_)
  · refine SoundR.mk ?_
    exact h0'
  · split
    · refine SoundR.mk ?_
      exact issueWrite_keeps h0'

theorem advPlainRange_keeps {p} {x0} {x1} {x2} (h0' : Sound p x2) : SoundR p (advPlainRange x0 x1 x2) := by
  unfold advPlainRange
  extract_lets -merge -useContext -underBinder +onlyGivenNames v3
  try clear_value v3
  refine ite_keeps (K := SoundR p) (fun _ => ?_) (fun _ => ?_)
  · exact finishPlain_keeps h0'
  · refine ite_keeps (K := SoundR p) (fun _ => ?_) (fun _ => ?_)
    · refine SoundR.mk ?_
      exact h0'
    · extract_lets -merge -useContext -underBinder +onlyGivenNames v4
      have h5 : Sound p v4 := by
        refine each_keeps ?_ h0'
        intro a6 a7 h8
        exact emit_keeps h8
      try clear_value v4
      extract_lets -merge -useContext -underBinder +onlyGivenNames v9
      try clear_value v9
      refine SoundR.mk ?_
      refine setReq_keeps ?_
      exact bump_keeps (profCount_keeps h5)

theorem commitCoarse_keeps {p} {x0} {x1} {x2} {x3} {x4} {x5} {x6} {x7} {x8} {x9} {x10} (h0' : Sound p x10) : SoundR p (commitCoarse x0 x1
    x2 x3 x4 x5 x6 x7 x8 x9 x10) := by
  unfold commitCoarse
  split
  · extract_lets -merge -useContext -underBinder +onlyGivenNames v13
    try clear_value v13
    split
    · refine SoundR.mk ?_
      exact askLine_keeps h0'
    · split
      · rename_i m16 m17 heq
        have h18 : Sound p m17 := by
          refine SoundR.get heq ?_
          exact nextVersion_keeps h0'
        refine SoundR.mk ?_
        exact failReq_keeps h18
      · rename_i m19 heq
        have h20 : Sound p m19 := by
          refine SoundR.get heq ?_
          exact nextVersion_keeps h0'
        refine SoundR.mk ?_
        exact h20
      · rename_i m21 m22 heq
        have h23 : Sound p m22 := by
          refine SoundR.get heq ?_
          exact nextVersion_keeps h0'
        split
        · split
          · rename_i m26 heq
            have h27 : Sound p m26 := by
              refine SoundR.get heq ?_
              exact useKey_keeps h23
            refine SoundR.mk ?_
            exact h27
          · rename_i m28 m29 heq
            have h30 : Sound p m29 := by
              refine SoundR.get heq ?_
              exact useKey_keeps h23
            extract_lets -merge -useContext -underBinder +onlyGivenNames v31
            try clear_value v31
            split
            · extract_lets -merge -useContext -underBinder +onlyGivenNames v34
              try clear_value v34
              extract_lets -merge -useContext -underBinder +onlyGivenNames v35
              try clear_value v35
              extract_lets -merge -useContext -underBinder +onlyGivenNames v36
              try clear_value v36
              extract_lets -merge -useContext -underBinder +onlyGivenNames v37
              have h38 : Sound p v37 := commitSlot_keeps h30
              try clear_value v37
              refine ite_keeps (K := SoundR p) (fun _ => ?_) (fun _ => ?_)
              · refine SoundR.mk ?_
                exact issueWrite_keeps h38
              · extract_lets -merge -useContext -underBinder +onlyGivenNames v39
                have h40 : Sound p v39 := faultEvent_keeps (bump_keeps h38)
                try clear_value v39
                extract_lets -merge -useContext -underBinder +onlyGivenNames v41
                have h42 : Sound p v41 := by
                  refine ite_keeps (K := Sound p) (fun _ => ?_) (fun _ => ?_)
                  · exact State.onMem_keeps h40
                  · exact h40
                try clear_value v41
                refine SoundR.mk ?_
                exact issueWrite_keeps h42

theorem finishCoarse_keeps {p} {x0} {x1} {x2} {x3} {x4} {x5} {x6} (h0' : Sound p x6) : SoundR p (finishCoarse x0 x1 x2 x3 x4 x5 x6) := by
  unfold finishCoarse
  refine ite_keeps (K := SoundR p) (fun _ => ?_) (fun _ => ?_)
  · refine SoundR.mk ?_
    exact h0'
  · extract_lets -merge -useContext -underBinder +onlyGivenNames v7
    try clear_value v7
    extract_lets -merge -useContext -underBinder +onlyGivenNames v8
    try clear_value v8
    refine ite_keeps (K := SoundR p) (fun _ => ?_) (fun _ => ?_)
    · refine SoundR.mk ?_
      exact failReq_keeps h0'
    · refine ite_keeps (K := SoundR p) (fun _ => ?_) (fun _ => ?_)
      · refine ite_keeps (K := SoundR p) (fun _ => ?_) (fun _ => ?_)
        · refine SoundR.mk ?_
          exact tagFail_keeps h0'
        · refine ite_keeps (K := SoundR p) (fun _ => ?_) (fun _ => ?_)
          · refine SoundR.mk ?_
            exact failReq_keeps h0'
          · split
            · refine SoundR.mk ?_
              exact issueWrite_keeps h0'
      · split
        · refine SoundR.mk ?_
          exact failReq_keeps h0'
        · extract_lets -merge -useContext -underBinder +onlyGivenNames v13
          try clear_value v13
          split
          · extract_lets -merge -useContext -underBinder +onlyGivenNames v17
            try clear_value v17
            extract_lets -merge -useContext -underBinder +onlyGivenNames v18
            try clear_value v18
            extract_lets -merge -useContext -underBinder +onlyGivenNames v19
            have h20 : SoundR p v19 := by
              refine ite_keeps (K := SoundR p) (fun _ => ?_) (fun _ => ?_)
              · refine SoundR.mk ?_
                refine ite_keeps (K := Sound p) (fun _ => ?_) (fun _ => ?_)
                · exact failReq_keeps h0'
                · exact tagFail_keeps h0'
              · refine ite_keeps (K := SoundR p) (fun _ => ?_) (fun _ => ?_)
                · exact commitCoarse_keeps h0'
                · split
                  · exact commitCoarse_keeps h0'
            try clear_value v19
            refine SoundR.mk ?_
            refine ite_keeps (K := Sound p) (fun _ => ?_) (fun _ => ?_)
            · refine bump_keeps ?_
              refine SoundR.snd ?_
              exact h20
            · refine SoundR.snd ?_
              exact h20

theorem advCoarse_keeps {p} {x0} {x1} {x2} {x3} {x4} {x5} {x6} (h0' : Sound p x6) : SoundR p (advCoarse x0 x1 x2 x3 x4 x5 x6) := by
  unfold advCoarse
  extract_lets -merge -useContext -underBinder +onlyGivenNames v7
  try clear_value v7
  refine ite_keeps (K := SoundR p) (fun _ => ?_) (fun _ => ?_)
  · refine SoundR.mk ?_
    exact h0'
  · refine ite_keeps (K := SoundR p) (fun _ => ?_) (fun _ => ?_)
    · refine SoundR.mk ?_
      exact failReq_keeps h0'
    · refine ite_keeps (K := SoundR p) (fun _ => ?_) (fun _ => ?_)
      · refine SoundR.mk ?_
        exact issueRead_keeps h0'
      · split
        · extract_lets -merge -useContext -underBinder +onlyGivenNames v10
          try clear_value v10
          extract_lets -merge -useContext -underBinder +onlyGivenNames v11
          try clear_value v11
          refine ite_keeps (K := SoundR p) (fun _ => ?_) (fun _ => ?_)
          · refine SoundR.mk ?_
            exact failReq_keeps h0'
          · split
            · refine SoundR.mk ?_
              exact askLine_keeps h0'
            · extract_lets -merge -useContext -underBinder +onlyGivenNames v14
              have h15 : Sound p v14 := bump_keeps h0'
              try clear_value v14
              refine ite_keeps (K := SoundR p) (fun _ => ?_) (fun _ => ?_)
              · refine SoundR.mk ?_
                exact failReq_keeps h15
              · refine ite_keeps (K := SoundR p) (fun _ => ?_) (fun _ => ?_)
                · split
                  · rename_i m16 m17 heq
                    have h18 : Sound p m17 := by
                      refine SoundR.get heq ?_
                      exact nextVersion_keeps h15
                    refine SoundR.mk ?_
                    exact failReq_keeps h18
                  · rename_i m19 m20 _ heq
                    have h21 : Sound p m20 := by
                      refine SoundR.get heq ?_
                      exact nextVersion_keeps h15
                    refine SoundR.mk ?_
                    exact h21
                · refine ite_keeps (K := SoundR p) (fun _ => ?_) (fun _ => ?_)
                  · refine ite_keeps (K := SoundR p) (fun _ => ?_) (fun _ => ?_)
                    · exact commitCoarse_keeps h15
                    · split
                      · exact commitCoarse_keeps h15
                  · split
                    · split
                      · rename_i m27 heq
                        have h28 : Sound p m27 := by
                          refine SoundR.get heq ?_
                          exact useKey_keeps h15
                        refine SoundR.mk ?_
                        exact h28
                      · rename_i m29 m30 heq
                        have h31 : Sound p m30 := by
                          refine SoundR.get heq ?_
                          exact useKey_keeps h15
                        refine SoundR.mk ?_
                        exact issueRead_keeps h31

theorem advanceLocked_keeps {p} {x0} {x1} {x2} {x3} (h0' : Sound p x3) : SoundR p (advanceLocked x0 x1 x2 x3) := by
  unfold advanceLocked
  extract_lets -merge -useContext -underBinder +onlyGivenNames v4
  try clear_value v4
  extract_lets -merge -useContext -underBinder +onlyGivenNames v5
  try clear_value v5
  extract_lets -merge -useContext -underBinder +onlyGivenNames v6
  try clear_value v6
  split
  · refine ite_keeps (K := SoundR p) (fun _ => ?_) (fun _ => ?_)
    · exact advSectors_keeps h0'
    · exact advReadTile_keeps h0'
  · exact advSectors_keeps h0'
  · refine ite_keeps (K := SoundR p) (fun _ => ?_) (fun _ => ?_)
    · refine ite_keeps (K := SoundR p) (fun _ => ?_) (fun _ => ?_)
      · exact finishFine_keeps h0'
      · exact advFine_keeps h0'
    · exact advWriteTile_keeps h0'
  · refine ite_keeps (K := SoundR p) (fun _ => ?_) (fun _ => ?_)
    · refine ite_keeps (K := SoundR p) (fun _ => ?_) (fun _ => ?_)
      · exact finishFine_keeps h0'
      · exact advFine_keeps h0'
    · refine ite_keeps (K := SoundR p) (fun _ => ?_) (fun _ => ?_)
      · refine ite_keeps (K := SoundR p) (fun _ => ?_) (fun _ => ?_)
        · exact finishPlain_keeps h0'
        · exact advPlainRange_keeps h0'
      · refine ite_keeps (K := SoundR p) (fun _ => ?_) (fun _ => ?_)
        · exact finishCoarse_keeps h0'
        · exact advCoarse_keeps h0'
  · refine ite_keeps (K := SoundR p) (fun _ => ?_) (fun _ => ?_)
    · exact finishCoarse_keeps h0'
    · exact advCoarse_keeps h0'

theorem advance_keeps {p} {x0} {x1} {x2} (h0' : Sound p x2) : SoundR p (advance x0 x1 x2) := by
  unfold advance
  split
  · refine SoundR.mk ?_
    exact refuseReq_keeps h0'
  · refine ite_keeps (K := SoundR p) (fun _ => ?_) (fun _ => ?_)
    · refine ite_keeps (K := SoundR p) (fun _ => ?_) (fun _ => ?_)
      · refine SoundR.mk ?_
        exact h0'
      · exact advanceLocked_keeps (setReq_keeps h0')
    · exact advanceLocked_keeps h0'

theorem pump_keeps {p} {x0} {x1} (h0' : Sound p x1) : Sound p (pump x0 x1) := by
  unfold pump
  refine each_keeps ?_ h0'
  intro a2 a3 h4
  split
  · exact h4
  · refine ite_keeps (K := Sound p) (fun _ => ?_) (fun _ => ?_)
    · split
      · rename_i m7 m8 heq
        have h9 : Sound p m8 := by
          refine SoundR.get heq ?_
          exact advance_keeps h4
        exact h9
    · exact h4

theorem checkAndGo_keeps {p} {x0} {x1} {x2} (h0' : Sound p x2) : Sound p (checkAndGo x0 x1 x2) := by
  unfold checkAndGo
  split
  · refine ite_keeps (K := Sound p) (fun _ => ?_) (fun _ => ?_)
    · exact refuseReq_keeps h0'
    · exact pump_keeps (setReq_keeps h0')

theorem intake_keeps {p} {x0} {x1} {x2} (h0' : Sound p x2) : Sound p (intake x0 x1 x2) := by
  unfold intake
  refine ite_keeps (K := Sound p) (fun _ => ?_) (fun _ => ?_)
  · exact h0'
  · extract_lets -merge -useContext -underBinder +onlyGivenNames v3
    try clear_value v3
    extract_lets -merge -useContext -underBinder +onlyGivenNames v4
    try clear_value v4
    extract_lets -merge -useContext -underBinder +onlyGivenNames v5
    have h6 : Sound p v5 := State.onPort_keeps h0'
    try clear_value v5
    extract_lets -merge -useContext -underBinder +onlyGivenNames v7
    have h8 : Sound p v7 := profCount_keeps (bump_keeps h6)
    try clear_value v7
    extract_lets -merge -useContext -underBinder +onlyGivenNames v9
    try clear_value v9
    refine ite_keeps (K := Sound p) (fun _ => ?_) (fun _ => ?_)
    · exact refuseReq_keeps (State.onMem_keeps h8)
    · refine ite_keeps (K := Sound p) (fun _ => ?_) (fun _ => ?_)
      · exact checkAndGo_keeps (State.onMem_keeps h8)
      · exact bump_keeps (State.onMem_keeps h8)

theorem writeOut_keeps {p} {x0} {x1} {x2} {x3} {x4} (h0' : Sound p x4) : Sound p (writeOut x0 x1 x2 x3 x4) := by
  unfold writeOut
  exact emit_keeps (addMeter_keeps h0')

theorem putObj_keeps {p} {x0} {x1} {x2} {x3} {x4} {x5} {x7} (h0' : (∀ x6, Sound p x6 → Sound p (x5 x6))) (h1' : Sound p x7) : Sound p
    (putObj x0 x1 x2 x3 x4 x5 x7) := by
  unfold putObj
  extract_lets -merge -useContext -underBinder +onlyGivenNames v8
  try clear_value v8
  refine ite_keeps (K := Sound p) (fun _ => ?_) (fun _ => ?_)
  · exact failCmd_keeps h1'
  · exact h0' _ (writeOut_keeps h1')

theorem readIn_keeps {p} {x0} {x1} {x2} {x3} {x4} {x5} {x7} (h0' : (∀ x6, Sound p x6 → Sound p (x5 x6))) (h1' : Sound p x7) : Sound p
    (readIn x0 x1 x2 x3 x4 x5 x7) := by
  unfold readIn
  extract_lets -merge -useContext -underBinder +onlyGivenNames v8
  try clear_value v8
  refine ite_keeps (K := Sound p) (fun _ => ?_) (fun _ => ?_)
  · exact failCmd_keeps h1'
  · refine withInput_keeps ?_ h1'
    intro a9 h10
    exact h0' _ (addMeter_keeps h10)

theorem headerReturn_keeps {p} {x0} {x1} {x2} {x3} (h0' : Sound p x3) : Sound p (headerReturn x0 x1 x2 x3) := by
  unfold headerReturn
  split
  · exact h0'
  · refine ite_keeps (K := Sound p) (fun _ => ?_) (fun _ => ?_)
    · exact h0'
    · extract_lets -merge -useContext -underBinder +onlyGivenNames v6
      try clear_value v6
      extract_lets -merge -useContext -underBinder +onlyGivenNames v7
      try clear_value v7
      extract_lets -merge -useContext -underBinder +onlyGivenNames v8
      try clear_value v8
      refine ite_keeps (K := Sound p) (fun _ => ?_) (fun _ => ?_)
      · exact pump_keeps (tagFail_keeps h0')
      · extract_lets -merge -useContext -underBinder +onlyGivenNames v9
        try clear_value v9
        extract_lets -merge -useContext -underBinder +onlyGivenNames v10
        try clear_value v10
        extract_lets -merge -useContext -underBinder +onlyGivenNames v11
        have h12 : Sound p v11 := by
          refine ite_keeps (K := Sound p) (fun _ => ?_) (fun _ => ?_)
          · refine emit_keeps ?_
            exact bump_keeps (profCount_keeps h0')
          · exact h0'
        try clear_value v11
        exact setReq_keeps h12

theorem tileReturn_keeps {p} {x0} {x1} {x2} {x3} {x4} (h0' : Sound p x4) : Sound p (tileReturn x0 x1 x2 x3 x4) := by
  unfold tileReturn
  split
  · exact failReq_keeps h0'
  · split
    · exact tagFail_keeps h0'
    · extract_lets -merge -useContext -underBinder +onlyGivenNames v11
      try clear_value v11
      exact endRead_keeps h0'

theorem sectorReturn_keeps {p} {x0} {x1} {x2} {x3} {x4} (h0' : Sound p x4) : Sound p (sectorReturn x0 x1 x2 x3 x4) := by
  unfold sectorReturn
  extract_lets -merge -useContext -underBinder +onlyGivenNames v5
  have h6 : ∀ x7 x8 x9 x10, Sound p x10 → Sound p (v5 x7 x8 x9 x10) := by
    intro a11 a12 a13 a14 h15
    try unfold v5
    exact setReq_keeps (sectorOut_keeps h15)
  try clear_value v5
  refine ite_keeps (K := Sound p) (fun _ => ?_) (fun _ => ?_)
  · exact h6 _ _ _ _ h0'
  · split
    · exact h6 _ _ _ _ h0'
    · split
      · exact h6 _ _ _ _ (faultEvent_keeps h0')
      · exact h6 _ _ _ _ h0'

theorem readReturn_keeps {p} {x0} {x1} {x2} {x3} (h0' : Sound p x3) : Sound p (readReturn x0 x1 x2 x3) := by
  unfold readReturn
  split
  · exact h0'
  · refine ite_keeps (K := Sound p) (fun _ => ?_) (fun _ => ?_)
    · exact h0'
    · extract_lets -merge -useContext -underBinder +onlyGivenNames v6
      try clear_value v6
      refine pump_keeps ?_
      refine ite_keeps (K := Sound p) (fun _ => ?_) (fun _ => ?_)
      · exact setReq_keeps h0'
      · refine ite_keeps (K := Sound p) (fun _ => ?_) (fun _ => ?_)
        · refine ite_keeps (K := Sound p) (fun _ => ?_) (fun _ => ?_)
          · exact endRead_keeps h0'
          · exact tileReturn_keeps h0'
        · exact sectorReturn_keeps h0'

theorem cutWrite_keeps {p} {x0} {x1} {x2} (h0' : Sound p x2) : Sound p (cutWrite x0 x1 x2) := by
  unfold cutWrite
  extract_lets -merge -useContext -underBinder +onlyGivenNames v3
  have h4 : Sound p v3 := State.onObj_keeps h0'
  try clear_value v3
  exact failReq_keeps (bump_keeps h4)

theorem accepted_keeps {p} {x0} {x1} {x2} {x3} (h0' : Sound p x3) : Sound p (accepted x0 x1 x2 x3) := by
  unfold accepted
  refine ite_keeps (K := Sound p) (fun _ => ?_) (fun _ => ?_)
  · exact applied_keeps h0'
  · split
    · refine ite_keeps (K := Sound p) (fun _ => ?_) (fun _ => ?_)
      · exact failReq_keeps h0'
      · exact setReq_keeps h0'

theorem writeAck_keeps {p} {x0} {x1} {x2} (h0' : Sound p x2) : Sound p (writeAck x0 x1 x2) := by
  unfold writeAck
  split
  · exact h0'
  · extract_lets -merge -useContext -underBinder +onlyGivenNames v5
    try clear_value v5
    refine ite_keeps (K := Sound p) (fun _ => ?_) (fun _ => ?_)
    · exact h0'
    · refine ite_keeps (K := Sound p) (fun _ => ?_) (fun _ => ?_)
      · refine ite_keeps (K := Sound p) (fun _ => ?_) (fun _ => ?_)
        · exact pump_keeps (cutWrite_keeps h0')
        · refine pump_keeps ?_
          exact setReq_keeps (emit_keeps h0')
      · refine ite_keeps (K := Sound p) (fun _ => ?_) (fun _ => ?_)
        · exact pump_keeps (accepted_keeps h0')
        · exact h0'

theorem failOnLine_keeps {p} {x0} {x1} {x2} {x3} {x4} (h0' : Sound p x4) : Sound p (failOnLine x0 x1 x2 x3 x4) := by
  unfold failOnLine
  refine each_keeps ?_ h0'
  intro a5 a6 h7
  extract_lets -merge -useContext -underBinder +onlyGivenNames v8
  try clear_value v8
  split
  · refine ite_keeps (K := Sound p) (fun _ => ?_) (fun _ => ?_)
    · refine failReq_keeps ?_
      refine ite_keeps (K := Sound p) (fun _ => ?_) (fun _ => ?_)
      · exact faultEvent_keeps h7
      · exact h7
    · exact h7
  · exact h7

theorem lineReturn_keeps {p} {x0} {x1} {x2} {x3} (h0' : Sound p x3) : Sound p (lineReturn x0 x1 x2 x3) := by
  unfold lineReturn
  refine ite_keeps (K := Sound p) (fun _ => ?_) (fun _ => ?_)
  · exact h0'
  · extract_lets -merge -useContext -underBinder +onlyGivenNames v4
    try clear_value v4
    split
    · rename_i m5 heq
      have h6 : Sound p m5 := by
        refine SoundR.get heq ?_
        exact useVerKey_keeps h0'
      exact h6
    · rename_i m7 heq
      have h8 : Sound p m7 := by
        refine SoundR.get heq ?_
        exact useVerKey_keeps h0'
      extract_lets -merge -useContext -underBinder +onlyGivenNames v9
      have h10 : Sound p v9 := State.onMem_keeps h8
      try clear_value v9
      extract_lets -merge -useContext -underBinder +onlyGivenNames v11
      try clear_value v11
      extract_lets -merge -useContext -underBinder +onlyGivenNames v12
      try clear_value v12
      refine ite_keeps (K := Sound p) (fun _ => ?_) (fun _ => ?_)
      · extract_lets -merge -useContext -underBinder +onlyGivenNames v13
        have h14 : Sound p v13 := faultEvent_keeps h10
        try clear_value v13
        extract_lets -merge -useContext -underBinder +onlyGivenNames v15
        have h16 : Sound p v15 := State.onMem_keeps h14
        try clear_value v15
        exact pump_keeps (failOnLine_keeps h16)
      · refine ite_keeps (K := Sound p) (fun _ => ?_) (fun _ => ?_)
        · exact pump_keeps (failOnLine_keeps h10)
        · extract_lets -merge -useContext -underBinder +onlyGivenNames v17
          try clear_value v17
          extract_lets -merge -useContext -underBinder +onlyGivenNames v18
          try clear_value v18
          exact pump_keeps (State.onMem_keeps h10)

theorem failOnKey_keeps {p} {x0} {x1} {x2} {x3} {x4} (h0' : Sound p x4) : Sound p (failOnKey x0 x1 x2 x3 x4) := by
  unfold failOnKey
  refine ite_keeps (K := Sound p) (fun _ => ?_) (fun _ => ?_)
  · refine each_keeps ?_ h0'
    intro a5 a6 h7
    exact failReq_keeps h7
  · exact h0'

theorem keyDelivery_keeps {p} {x0} {x1} {x2} {x3} (h0' : Sound p x3) : Sound p (keyDelivery x0 x1 x2 x3) := by
  unfold keyDelivery
  extract_lets -merge -useContext -underBinder +onlyGivenNames v4
  try clear_value v4
  extract_lets -merge -useContext -underBinder +onlyGivenNames v5
  try clear_value v5
  refine ite_keeps (K := Sound p) (fun _ => ?_) (fun _ => ?_)
  · exact h0'
  · extract_lets -merge -useContext -underBinder +onlyGivenNames v6
    try clear_value v6
    extract_lets -merge -useContext -underBinder +onlyGivenNames v7
    have h8 : ∀ x9, Sound p x9 → Sound p (v7 x9) := by
      intro a10 h11
      try unfold v7
      exact State.onPort_keeps h11
    try clear_value v7
    refine ite_keeps (K := Sound p) (fun _ => ?_) (fun _ => ?_)
    · refine failOnKey_keeps ?_
      exact faultEvent_keeps (h8 _ h0')
    · refine ite_keeps (K := Sound p) (fun _ => ?_) (fun _ => ?_)
      · exact failOnKey_keeps (h8 _ h0')
      · refine ite_keeps (K := Sound p) (fun _ => ?_) (fun _ => ?_)
        · exact h0'
        · refine ite_keeps (K := Sound p) (fun _ => ?_) (fun _ => ?_)
          · exact failOnKey_keeps (h8 _ h0')
          · split
            · exact h0'
            · extract_lets -merge -useContext -underBinder +onlyGivenNames v14
              have h15 : Sound p v14 := h8 _ (State.onPort_keeps h0')
              try clear_value v14
              refine ite_keeps (K := Sound p) (fun _ => ?_) (fun _ => ?_)
              · exact pump_keeps h15
              · exact h15

theorem descRefill_keeps {p} {x0} {x1} {x2} (h0' : Sound p x2) : Sound p (descRefill x0 x1 x2) := by
  unfold descRefill
  extract_lets -merge -useContext -underBinder +onlyGivenNames v3
  try clear_value v3
  refine ite_keeps (K := Sound p) (fun _ => ?_) (fun _ => ?_)
  · exact h0'
  · extract_lets -merge -useContext -underBinder +onlyGivenNames v4
    have h5 : Sound p v4 := State.onMem_keeps h0'
    try clear_value v4
    refine each_keeps ?_ h5
    intro a6 a7 h8
    exact checkAndGo_keeps h8

theorem requestTimeout_keeps {p} {x0} {x1} {x2} (h0' : Sound p x2) : Sound p (requestTimeout x0 x1 x2) := by
  unfold requestTimeout
  split
  · exact h0'
  · refine pump_keeps ?_
    exact failReq_keeps (faultEvent_keeps h0')

theorem resealStored_keeps {p} {x0} {x1} {x2} {x3} {x4} {x5} {x6} {x7} {x8} {x9} {x10} {x11} {x12} {x13} {x14} (h0' : Sound p x14) : Sound
    p (resealStored x0 x1 x2 x3 x4 x5 x6 x7 x8 x9 x10 x11 x12 x13 x14) := by
  unfold resealStored
  extract_lets -merge -useContext -underBinder +onlyGivenNames v15
  have h16 : ∀ x17, Sound p x17 → Sound p (v15 x17) := by
    intro a18 h19
    try unfold v15
    exact bump_keeps (faultEvent_keeps h19)
  try clear_value v15
  extract_lets -merge -useContext -underBinder +onlyGivenNames v20
  have h21 : ∀ x22 x23, Sound p x23 → Sound p (v20 x22 x23) := by
    intro a24 a25 h26
    try unfold v20
    refine ite_keeps (K := Sound p) (fun _ => ?_) (fun _ => ?_)
    · exact h26
    · exact bump_keeps h26
  try clear_value v20
  refine ite_keeps (K := Sound p) (fun _ => ?_) (fun _ => ?_)
  · extract_lets -merge -useContext -underBinder +onlyGivenNames v27
    have h28 : Sound p v27 := h21 _ _ h0'
    try clear_value v27
    split
    · exact h16 _ h28
    · split
      · refine bump_keeps ?_
        refine bump_keeps ?_
        exact emit_keeps (emit_keeps h28)
  · extract_lets -merge -useContext -underBinder +onlyGivenNames v33
    have h34 : Sound p v33 := h21 _ _ h0'
    try clear_value v33
    split
    · exact h16 _ h34
    · split
      · extract_lets -merge -useContext -underBinder +onlyGivenNames v41
        try clear_value v41
        refine bump_keeps ?_
        refine bump_keeps ?_
        exact emit_keeps (emit_keeps h34)

theorem endReseal_keeps {p} {x0} {x1} {x2} (h0' : Sound p x2) : Sound p (endReseal x0 x1 x2) := by
  unfold endReseal
  extract_lets -merge -useContext -underBinder +onlyGivenNames v3
  try clear_value v3
  extract_lets -merge -useContext -underBinder +onlyGivenNames v4
  try clear_value v4
  exact bump_keeps (State.onMem_keeps h0')

theorem clearQueue_keeps {p} {x0} {x1} (h0' : Sound p x1) : Sound p (clearQueue x0 x1) := by
  unfold clearQueue
  exact State.onMem_keeps h0'

theorem resealSlot_keeps {p} {x0} {x1} {x2} {x3} (h0' : Sound p x3) : Sound p (resealSlot x0 x1 x2 x3) := by
  unfold resealSlot
  extract_lets -merge -useContext -underBinder +onlyGivenNames v4
  have h5 : Sound p v4 := clearQueue_keeps h0'
  try clear_value v4
  split
  · split
    · extract_lets -merge -useContext -underBinder +onlyGivenNames v12
      try clear_value v12
      extract_lets -merge -useContext -underBinder +onlyGivenNames v13
      try clear_value v13
      extract_lets -merge -useContext -underBinder +onlyGivenNames v14
      try clear_value v14
      extract_lets -merge -useContext -underBinder +onlyGivenNames v15
      try clear_value v15
      extract_lets -merge -useContext -underBinder +onlyGivenNames v16
      try clear_value v16
      extract_lets -merge -useContext -underBinder +onlyGivenNames v17
      try clear_value v17
      extract_lets -merge -useContext -underBinder +onlyGivenNames v18
      try clear_value v18
      refine ite_keeps (K := Sound p) (fun _ => ?_) (fun _ => ?_)
      · exact h5
      · split
        · split
          · rename_i m21 heq
            have h22 : Sound p m21 := by
              refine SoundR.get heq ?_
              exact useKey_keeps h5
            exact h22
          · rename_i m23 m24 heq
            have h25 : Sound p m24 := by
              refine SoundR.get heq ?_
              exact useKey_keeps h5
            extract_lets -merge -useContext -underBinder +onlyGivenNames v26
            have h27 : Sound p v26 := by
              refine ite_keeps (K := Sound p) (fun _ => ?_) (fun _ => ?_)
              · exact h25
              · exact resealStored_keeps h25
            try clear_value v26
            extract_lets -merge -useContext -underBinder +onlyGivenNames v28
            have h29 : Sound p v28 := State.onMem_keeps h27
            try clear_value v28
            refine ite_keeps (K := Sound p) (fun _ => ?_) (fun _ => ?_)
            · exact pump_keeps (endReseal_keeps h29)
            · exact pump_keeps h29
    · exact askLine_keeps h5
    · exact h5
  · exact h5

theorem rekeyStart_keeps {p} {x0} {x1} {x2} {x3} (h0' : Sound p x3) : Sound p (rekeyStart x0 x1 x2 x3) := by
  unfold rekeyStart
  extract_lets -merge -useContext -underBinder +onlyGivenNames v4
  try clear_value v4
  extract_lets -merge -useContext -underBinder +onlyGivenNames v5
  try clear_value v5
  extract_lets -merge -useContext -underBinder +onlyGivenNames v6
  try clear_value v6
  extract_lets -merge -useContext -underBinder +onlyGivenNames v7
  try clear_value v7
  split
  · exact rekeyReport_keeps (State.onMem_keeps h0')
  · exact rekeyReport_keeps h0'

theorem takeReports_keeps {p} {x0} {x1} (h0' : Sound p x1) : Sound p (takeReports x0 x1) := by
  unfold takeReports
  refine each_keeps ?_ h0'
  intro a2 a3 h4
  split
  · exact State.onMem_keeps h4
  · exact rekeyStart_keeps h4

theorem toFresh_keeps {p} {x0} {x1} {x2} {x3} {x4} {x5} {x6} (h0' : Sound p x6) : Sound p (toFresh x0 x1 x2 x3 x4 x5 x6) := by
  unfold toFresh
  extract_lets -merge -useContext -underBinder +onlyGivenNames v7
  try clear_value v7
  extract_lets -merge -useContext -underBinder +onlyGivenNames v8
  try clear_value v8
  extract_lets -merge -useContext -underBinder +onlyGivenNames v9
  have h10 : Sound p v9 := State.onMem_keeps h0'
  try clear_value v9
  exact State.onObj_keeps h10

theorem freshFor_keeps {p} {x0} {x1} (h0' : Sound p x1) : SoundR p (freshFor x0 x1) := by
  unfold freshFor
  split
  · refine SoundR.mk ?_
    refine ite_keeps (K := Sound p) (fun _ => ?_) (fun _ => ?_)
    · exact h0'
    · exact faultEvent_keeps h0'
  · split
    · rename_i m4 m5 heq
      have h6 : Sound p m5 := by
        refine SoundR.get heq ?_
        exact makeRoom_keeps (endCondition_keeps h0')
      refine SoundR.mk ?_
      exact h6

theorem lineMoved_keeps {p} {x0} {x1} {x2} {x3} {x4} (h0' : Sound p x4) : Sound p (lineMoved x0 x1 x2 x3 x4) := by
  unfold lineMoved
  refine bump_keeps ?_
  exact State.onObj_keeps (State.onMem_keeps h0')

theorem moveTile_keeps {p} {x0} {x1} {x2} {x3} {x4} {x5} {x6} (h0' : Sound p x6) : Sound p (moveTile x0 x1 x2 x3 x4 x5 x6) := by
  unfold moveTile
  refine ite_keeps (K := Sound p) (fun _ => ?_) (fun _ => ?_)
  · exact h0'
  · extract_lets -merge -useContext -underBinder +onlyGivenNames v7
    try clear_value v7
    split
    · rename_i m8 heq
      have h9 : Sound p m8 := by
        refine SoundR.get heq ?_
        exact useKey_keeps h0'
      exact h9
    · rename_i m10 m11 heq
      have h12 : Sound p m11 := by
        refine SoundR.get heq ?_
        exact useKey_keeps h0'
      split
      · rename_i m13 heq
        have h14 : Sound p m13 := by
          refine SoundR.get heq ?_
          exact useKey_keeps h12
        exact h14
      · rename_i m15 m16 heq
        have h17 : Sound p m16 := by
          refine SoundR.get heq ?_
          exact useKey_keeps h12
        extract_lets -merge -useContext -underBinder +onlyGivenNames v18
        try clear_value v18
        extract_lets -merge -useContext -underBinder +onlyGivenNames v19
        have h20 : Sound p v19 := resealStored_keeps h17
        try clear_value v19
        exact pump_keeps (State.onObj_keeps h20)

theorem moveBroken_keeps {p} {x0} {x1} {x2} {x3} {x4} (h0' : Sound p x4) : Sound p (moveBroken x0 x1 x2 x3 x4) := by
  unfold moveBroken
  split
  · rename_i m5 heq
    have h6 : Sound p m5 := by
      refine SoundR.get heq ?_
      exact freshFor_keeps h0'
    exact h6
  · rename_i m7 m8 heq
    have h9 : Sound p m8 := by
      refine SoundR.get heq ?_
      exact freshFor_keeps h0'
    extract_lets -merge -useContext -underBinder +onlyGivenNames v10
    try clear_value v10
    refine pump_keeps ?_
    exact lineMoved_keeps (toFresh_keeps h9)

theorem moveSlot_keeps {p} {x0} {x1} {x2} {x3} {x4} {x5} {x6} {x7} {x8} {x9} (h0' : Sound p x9) : Sound p (moveSlot x0 x1 x2 x3 x4 x5 x6 x7
    x8 x9) := by
  unfold moveSlot
  refine ite_keeps (K := Sound p) (fun _ => ?_) (fun _ => ?_)
  · split
    · rename_i m10 heq
      have h11 : Sound p m10 := by
        refine SoundR.get heq ?_
        exact freshFor_keeps h0'
      exact h11
    · rename_i m12 m13 heq
      have h14 : Sound p m13 := by
        refine SoundR.get heq ?_
        exact freshFor_keeps h0'
      exact toFresh_keeps h14
  · extract_lets -merge -useContext -underBinder +onlyGivenNames v15
    try clear_value v15
    extract_lets -merge -useContext -underBinder +onlyGivenNames v16
    try clear_value v16
    extract_lets -merge -useContext -underBinder +onlyGivenNames v17
    try clear_value v17
    extract_lets -merge -useContext -underBinder +onlyGivenNames v18
    try clear_value v18
    extract_lets -merge -useContext -underBinder +onlyGivenNames v19
    try clear_value v19
    extract_lets -merge -useContext -underBinder +onlyGivenNames v20
    try clear_value v20
    refine ite_keeps (K := Sound p) (fun _ => ?_) (fun _ => ?_)
    · exact h0'
    · split
      · rename_i m21 heq
        have h22 : Sound p m21 := by
          refine SoundR.get heq ?_
          exact useKey_keeps h0'
        exact h22
      · rename_i m23 m24 heq
        have h25 : Sound p m24 := by
          refine SoundR.get heq ?_
          exact useKey_keeps h0'
        split
        · rename_i m26 heq
          have h27 : Sound p m26 := by
            refine SoundR.get heq ?_
            exact useKey_keeps h25
          exact h27
        · rename_i m28 m29 heq
          have h30 : Sound p m29 := by
            refine SoundR.get heq ?_
            exact useKey_keeps h25
          extract_lets -merge -useContext -underBinder +onlyGivenNames v31
          have h32 : Sound p v31 := by
            refine ite_keeps (K := Sound p) (fun _ => ?_) (fun _ => ?_)
            · exact h30
            · exact resealStored_keeps h30
          try clear_value v31
          refine ite_keeps (K := Sound p) (fun _ => ?_) (fun _ => ?_)
          · extract_lets -merge -useContext -underBinder +onlyGivenNames v33
            have h34 : Sound p v33 := State.onMem_keeps h32
            try clear_value v33
            exact pump_keeps (lineMoved_keeps h34)
          · extract_lets -merge -useContext -underBinder +onlyGivenNames v35
            have h36 : Sound p v35 := State.onMem_keeps h32
            try clear_value v35
            exact pump_keeps (State.onObj_keeps h36)

theorem rekeyMove_keeps {p} {x0} {x1} {x2} {x3} {x4} (h0' : Sound p x4) : Sound p (rekeyMove x0 x1 x2 x3 x4) := by
  unfold rekeyMove
  extract_lets -merge -useContext -underBinder +onlyGivenNames v5
  try clear_value v5
  split
  · refine ite_keeps (K := Sound p) (fun _ => ?_) (fun _ => ?_)
    · exact h0'
    · refine ite_keeps (K := Sound p) (fun _ => ?_) (fun _ => ?_)
      · exact moveTile_keeps h0'
      · refine ite_keeps (K := Sound p) (fun _ => ?_) (fun _ => ?_)
        · exact h0'
        · extract_lets -merge -useContext -underBinder +onlyGivenNames v8
          try clear_value v8
          extract_lets -merge -useContext -underBinder +onlyGivenNames v9
          try clear_value v9
          refine ite_keeps (K := Sound p) (fun _ => ?_) (fun _ => ?_)
          · exact moveBroken_keeps h0'
          · extract_lets -merge -useContext -underBinder +onlyGivenNames v10
            have h11 : Sound p v10 := clearQueue_keeps h0'
            try clear_value v10
            extract_lets -merge -useContext -underBinder +onlyGivenNames v12
            have h13 : Sound p v12 := by
              refine ite_keeps (K := Sound p) (fun _ => ?_) (fun _ => ?_)
              · exact h11
              · exact State.onMem_keeps h11
            try clear_value v12
            refine ite_keeps (K := Sound p) (fun _ => ?_) (fun _ => ?_)
            · exact h13
            · split
              · exact askLine_keeps h13
              · exact moveSlot_keeps h13
  · exact h0'

theorem rekeyCommit_keeps {p} {x0} {x1} (h0' : Sound p x1) : Sound p (rekeyCommit x0 x1) := by
  unfold rekeyCommit
  extract_lets -merge -useContext -underBinder +onlyGivenNames v2
  try clear_value v2
  split
  · exact h0'
  · refine ite_keeps (K := Sound p) (fun _ => ?_) (fun _ => ?_)
    · exact h0'
    · refine commitSwap_keeps ?_
      exact dropDesc_keeps (State.onObj_keeps h0')

theorem retiringMark_keeps {p} {x0} {x1} {x2} (h0' : Sound p x2) : Sound p (retiringMark x0 x1 x2) := by
  unfold retiringMark
  refine ite_keeps (K := Sound p) (fun _ => ?_) (fun _ => ?_)
  · exact State.onMem_keeps h0'
  · refine ite_keeps (K := Sound p) (fun _ => ?_) (fun _ => ?_)
    · exact State.onLink_keeps h0'
    · exact h0'

theorem plainMark_keeps {p} {x0} {x1} {x2} (h0' : Sound p x2) : Sound p (plainMark x0 x1 x2) := by
  unfold plainMark
  exact State.onMem_keeps h0'

theorem cutReqs_keeps {p} {x0} {x1} {x2} {x3} (h0' : Sound p x3) : Sound p (cutReqs x0 x1 x2 x3) := by
  unfold cutReqs
  extract_lets -merge -useContext -underBinder +onlyGivenNames v4
  have h5 : Sound p v4 := State.onMem_keeps h0'
  try clear_value v4
  refine pump_keeps ?_
  refine each_keeps ?_ h5
  intro a6 a7 h8
  exact failReq_keeps h8

theorem freezePart_keeps {p} {x0} {x1} {x2} (h0' : Sound p x2) : Sound p (freezePart x0 x1 x2) := by
  unfold freezePart
  exact cutReqs_keeps (State.onMem_keeps h0')

theorem freezeRegion_keeps {p} {x0} {x1} {x2} (h0' : Sound p x2) : Sound p (freezeRegion x0 x1 x2) := by
  unfold freezeRegion
  exact cutReqs_keeps (State.onMem_keeps h0')

theorem arrive_keeps {p} {x0} {x1} {x2} (h0' : Sound p x2) : Sound p (arrive x0 x1 x2) := by
  unfold arrive
  split
  · refine ite_keeps (K := Sound p) (fun _ => ?_) (fun _ => ?_)
    · refine each_keeps ?_ h0'
      intro a4 a5 h6
      exact freezePart_keeps h6
    · exact h0'
  · refine ite_keeps (K := Sound p) (fun _ => ?_) (fun _ => ?_)
    · refine each_keeps ?_ h0'
      intro a8 a9 h10
      exact freezeRegion_keeps h10
    · exact h0'
  · refine ite_keeps (K := Sound p) (fun _ => ?_) (fun _ => ?_)
    · refine each_keeps ?_ h0'
      intro a12 a13 h14
      exact retiringMark_keeps h14
    · exact h0'
  · refine ite_keeps (K := Sound p) (fun _ => ?_) (fun _ => ?_)
    · refine each_keeps ?_ h0'
      intro a16 a17 h18
      exact plainMark_keeps h18
    · exact h0'

theorem arriveFirst_keeps {p} {x0} {x1} (h0' : Sound p x1) : Sound p (arriveFirst x0 x1) := by
  unfold arriveFirst
  refine each_keeps ?_ (Sound.of h0'.ctrs h0'.mem h0'.link h0'.keys h0'.parts h0'.objs h0'.ctxs h0'.queues h0'.fences h0'.accs h0'.arrivals
      h0'.users h0'.opTab h0'.doms h0'.migs h0'.rings h0'.profs h0'.pending)
  intro a2 a3 h4
  exact arrive_keeps h4

theorem arriveUpTo_keeps {p} {x0} {x1} {x2} (h0' : Sound p x2) : Sound p (arriveUpTo x0 x1 x2) := by
  unfold arriveUpTo
  split
  · exact arriveFirst_keeps h0'
  · exact h0'

theorem retireArrives_keeps {p} {x0} {x1} {x2} (h0' : Sound p x2) : Sound p (retireArrives x0 x1 x2) := by
  unfold retireArrives
  refine ite_keeps (K := Sound p) (fun _ => ?_) (fun _ => ?_)
  · exact arriveUpTo_keeps h0'
  · exact h0'

theorem freezeArrival_keeps {p} {x0} {x1} {x2} {x3} (h0' : Sound p x3) : Sound p (freezeArrival x0 x1 x2 x3) := by
  unfold freezeArrival
  refine ite_keeps (K := Sound p) (fun _ => ?_) (fun _ => ?_)
  · exact h0'
  · refine ite_keeps (K := Sound p) (fun _ => ?_) (fun _ => ?_)
    · exact arriveUpTo_keeps h0'
    · exact arriveUpTo_keeps h0'

theorem keepwayTick_keeps {p} {x0} (h0' : Sound p x0) : Sound p (keepwayTick x0) := by
  unfold keepwayTick
  exact arriveFirst_keeps h0'

theorem safeMem_keeps {p} {x0} {x1} (h0' : Sound p x1) : Sound p (safeMem x0 x1) := by
  unfold safeMem
  refine each_keeps ?_ h0'
  intro a2 a3 h4
  exact cutWrite_keeps h4

theorem countUpper_keeps {p} {x0} {x1} (h0' : Sound p x1) : Sound p (countUpper x0 x1) := by
  unfold countUpper
  refine each_keeps ?_ h0'
  intro a2 a3 h4
  exact bump_keeps h4

theorem measuredHash_keeps {p} {x0} {x1} {x2} {x3} (h0' : Sound p x3) : Sound p (measuredHash x0 x1 x2 x3) := by
  unfold measuredHash
  extract_lets -merge -useContext -underBinder +onlyGivenNames v4
  try clear_value v4
  extract_lets -merge -useContext -underBinder +onlyGivenNames v5
  try clear_value v5
  extract_lets -merge -useContext -underBinder +onlyGivenNames v6
  try clear_value v6
  refine ite_keeps (K := Sound p) (fun _ => ?_) (fun _ => ?_)
  · exact bump_keeps (State.onObj_keeps h0')
  · exact h0'

theorem leaveLoading_keeps {p} {x0} {x1} (h0' : Sound p x1) : Sound p (leaveLoading x0 x1) := by
  unfold leaveLoading
  extract_lets -merge -useContext -underBinder +onlyGivenNames v2
  have h3 : Sound p v2 := dropDesc_keeps (State.onObj_keeps h0')
  try clear_value v2
  refine ite_keeps (K := Sound p) (fun _ => ?_) (fun _ => ?_)
  · exact startRekey_keeps h3
  · exact h3

theorem sealFold_keeps {p} {x0} {x1} (h0' : Sound p x1) : Sound p (sealFold x0 x1) := by
  unfold sealFold
  split
  · exact h0'
  · extract_lets -merge -useContext -underBinder +onlyGivenNames v4
    try clear_value v4
    refine ite_keeps (K := Sound p) (fun _ => ?_) (fun _ => ?_)
    · exact failCmd_keeps h0'
    · refine ite_keeps (K := Sound p) (fun _ => ?_) (fun _ => ?_)
      · exact failCmd_keeps h0'
      · refine ite_keeps (K := Sound p) (fun _ => ?_) (fun _ => ?_)
        · exact h0'
        · extract_lets -merge -useContext -underBinder +onlyGivenNames v5
          try clear_value v5
          extract_lets -merge -useContext -underBinder +onlyGivenNames v6
          try clear_value v6
          extract_lets -merge -useContext -underBinder +onlyGivenNames v7
          have h8 : Sound p v7 := State.onPart_keeps h0'
          try clear_value v7
          refine done_keeps ?_
          refine leaveLoading_keeps ?_
          exact countUpper_keeps (State.onObj_keeps h8)

theorem bodyRegionSeal_keeps {p} {x0} {x1} {x2} {x3} (h0' : Sound p x3) : Sound p (bodyRegionSeal x0 x1 x2 x3) := by
  unfold bodyRegionSeal
  extract_lets -merge -useContext -underBinder +onlyGivenNames v4
  try clear_value v4
  extract_lets -merge -useContext -underBinder +onlyGivenNames v5
  try clear_value v5
  refine ite_keeps (K := Sound p) (fun _ => ?_) (fun _ => ?_)
  · exact failCmd_keeps h0'
  · refine ite_keeps (K := Sound p) (fun _ => ?_) (fun _ => ?_)
    · exact failCmd_keeps h0'
    · refine ite_keeps (K := Sound p) (fun _ => ?_) (fun _ => ?_)
      · exact failCmd_keeps h0'
      · refine ite_keeps (K := Sound p) (fun _ => ?_) (fun _ => ?_)
        · exact failCmd_keeps h0'
        · refine ite_keeps (K := Sound p) (fun _ => ?_) (fun _ => ?_)
          · exact keepRunning_keeps h0'
          · exact done_keeps (leaveLoading_keeps h0')

theorem reload_keeps {p} {x0} {x1} (h0' : Sound p x1) : Sound p (reload x0 x1) := by
  unfold reload
  extract_lets -merge -useContext -underBinder +onlyGivenNames v2
  have h3 : Sound p v2 := dropDesc_keeps (State.onObj_keeps h0')
  try clear_value v2
  refine ite_keeps (K := Sound p) (fun _ => ?_) (fun _ => ?_)
  · exact noteRekey_keeps (keyThreshold_keeps h3)
  · exact h3

theorem bodyRegionReload_keeps {p} {x0} {x1} {x2} {x3} (h0' : Sound p x3) : Sound p (bodyRegionReload x0 x1 x2 x3) := by
  unfold bodyRegionReload
  extract_lets -merge -useContext -underBinder +onlyGivenNames v4
  try clear_value v4
  extract_lets -merge -useContext -underBinder +onlyGivenNames v5
  try clear_value v5
  refine ite_keeps (K := Sound p) (fun _ => ?_) (fun _ => ?_)
  · exact failCmd_keeps h0'
  · refine ite_keeps (K := Sound p) (fun _ => ?_) (fun _ => ?_)
    · exact failCmd_keeps h0'
    · refine ite_keeps (K := Sound p) (fun _ => ?_) (fun _ => ?_)
      · exact failCmd_keeps h0'
      · refine ite_keeps (K := Sound p) (fun _ => ?_) (fun _ => ?_)
        · exact keepRunning_keeps (State.onObj_keeps h0')
        · refine ite_keeps (K := Sound p) (fun _ => ?_) (fun _ => ?_)
          · exact failCmd_keeps h0'
          · exact done_keeps (reload_keeps h0')

theorem reloadWaiting_keeps {p} {x0} {x1} (h0' : Sound p x1) : Sound p (reloadWaiting x0 x1) := by
  unfold reloadWaiting
  refine each_keeps ?_ h0'
  intro a2 a3 h4
  refine ite_keeps (K := Sound p) (fun _ => ?_) (fun _ => ?_)
  · exact failCmd_keeps h4
  · exact done_keeps (reload_keeps h4)

theorem freeAcc_keeps {p} {x0} {x1} (h0' : Sound p x1) : Sound p (freeAcc x0 x1) := by
  unfold freeAcc
  extract_lets -merge -useContext -underBinder +onlyGivenNames v2
  try clear_value v2
  exact Sound.of h0'.ctrs (sorted_tmap h0'.mem) h0'.link h0'.keys h0'.parts (sorted_tmap h0'.objs) h0'.ctxs h0'.queues h0'.fences
      (sorted_tdel h0'.accs) h0'.arrivals h0'.users h0'.opTab h0'.doms h0'.migs h0'.rings h0'.profs h0'.pending

theorem bodyAccOpen_keeps {p} {x0} {x1} {x2} {x3} (h0' : Sound p x3) : Sound p (bodyAccOpen x0 x1 x2 x3) := by
  unfold bodyAccOpen
  extract_lets -merge -useContext -underBinder +onlyGivenNames v4
  try clear_value v4
  extract_lets -merge -useContext -underBinder +onlyGivenNames v5
  try clear_value v5
  extract_lets -merge -useContext -underBinder +onlyGivenNames v6
  try clear_value v6
  extract_lets -merge -useContext -underBinder +onlyGivenNames v7
  try clear_value v7
  extract_lets -merge -useContext -underBinder +onlyGivenNames v8
  try clear_value v8
  extract_lets -merge -useContext -underBinder +onlyGivenNames v9
  try clear_value v9
  extract_lets -merge -useContext -underBinder +onlyGivenNames v10
  try clear_value v10
  extract_lets -merge -useContext -underBinder +onlyGivenNames v11
  try clear_value v11
  refine ite_keeps (K := Sound p) (fun _ => ?_) (fun _ => ?_)
  · exact failCmd_keeps h0'
  · refine ite_keeps (K := Sound p) (fun _ => ?_) (fun _ => ?_)
    · exact failCmd_keeps h0'
    · split
      · exact failCmd_keeps h0'
      · extract_lets -merge -useContext -underBinder +onlyGivenNames v14
        try clear_value v14
        extract_lets -merge -useContext -underBinder +onlyGivenNames v15
        have h16 : Sound p v15 := by
          exact Sound.of h0'.ctrs h0'.mem h0'.link h0'.keys h0'.parts h0'.objs h0'.ctxs h0'.queues h0'.fences (sorted_tset h0'.accs)
              h0'.arrivals h0'.users h0'.opTab h0'.doms h0'.migs h0'.rings h0'.profs h0'.pending
        try clear_value v15
        extract_lets -merge -useContext -underBinder +onlyGivenNames v17
        have h18 : Sound p v17 := by
          refine each_keeps ?_ h16
          intro a19 a20 h21
          exact State.onMem_keeps h21
        try clear_value v17
        exact done_keeps (State.onObj_keeps h18)

theorem closeAcc_keeps {p} {x0} {x1} (h0' : Sound p x1) : Sound p (closeAcc x0 x1) := by
  unfold closeAcc
  exact Sound.of h0'.ctrs (sorted_tmap h0'.mem) h0'.link h0'.keys h0'.parts h0'.objs h0'.ctxs h0'.queues h0'.fences (sorted_tmap h0'.accs)
      h0'.arrivals h0'.users h0'.opTab h0'.doms h0'.migs h0'.rings h0'.profs h0'.pending

theorem endAcc_keeps {p} {x0} {x1} (h0' : Sound p x1) : Sound p (endAcc x0 x1) := by
  unfold endAcc
  extract_lets -merge -useContext -underBinder +onlyGivenNames v2
  try clear_value v2
  extract_lets -merge -useContext -underBinder +onlyGivenNames v3
  try clear_value v3
  extract_lets -merge -useContext -underBinder +onlyGivenNames v4
  have h5 : Sound p v4 := by
    refine ite_keeps (K := Sound p) (fun _ => ?_) (fun _ => ?_)
    · exact fenceFail_keeps h0'
    · refine ite_keeps (K := Sound p) (fun _ => ?_) (fun _ => ?_)
      · exact fenceFail_keeps h0'
      · exact fenceComplete_keeps h0'
  try clear_value v4
  exact freeAcc_keeps h5

theorem settleAcc_keeps {p} {x0} {x1} (h0' : Sound p x1) : Sound p (settleAcc x0 x1) := by
  unfold settleAcc
  refine ite_keeps (K := Sound p) (fun _ => ?_) (fun _ => ?_)
  · exact done_keeps (endAcc_keeps h0')
  · exact h0'

theorem settleClosed_keeps {p} {x0} (h0' : Sound p x0) : Sound p (settleClosed x0) := by
  unfold settleClosed
  refine each_keeps ?_ h0'
  intro a1 a2 h3
  exact freeAcc_keeps h3

theorem bodyAccClose_keeps {p} {x0} {x1} {x2} {x3} (h0' : Sound p x3) : Sound p (bodyAccClose x0 x1 x2 x3) := by
  unfold bodyAccClose
  extract_lets -merge -useContext -underBinder +onlyGivenNames v4
  try clear_value v4
  extract_lets -merge -useContext -underBinder +onlyGivenNames v5
  try clear_value v5
  refine ite_keeps (K := Sound p) (fun _ => ?_) (fun _ => ?_)
  · exact failCmd_keeps h0'
  · exact keepRunning_keeps (closeAcc_keeps h0')

end Sys2Proof.Machine
end

