-- ==== Sys2Proof/Laws/SoundLink.lean ====
section
/-! SUPPORT. Operations that keep the tables in order and the queue as it was (Laws/Sound.lean): the link stations, bulk copies and checkpoints. -/

namespace Sys2Proof.Machine
open Sys2Proof Sys2Proof.Crypto

theorem onJob_keeps {p} {x0} {x1} {x2} {x3} (h0' : Sound p x0) : Sound p (onJob x0 x1 x2 x3) := by
  unfold onJob
  exact State.onLink_keeps h0'

theorem meterPacket_keeps {p} {x0} {x1} {x2} {x3} {x4} (h0' : Sound p x4) : Sound p (meterPacket x0 x1 x2 x3 x4) := by
  unfold meterPacket
  refine ite_keeps (K := Sound p) (fun _ => ?_) (fun _ => ?_)
  · exact h0'
  · exact addMeter_keeps h0'

theorem sendPacket_keeps {p} {x0} {x1} {x2} {x3} {x4} {x5} {x6} {x7} {x8} {x9} {x10} (h0' : Sound p x10) : Sound p (sendPacket x0 x1 x2 x3
    x4 x5 x6 x7 x8 x9 x10) := by
  unfold sendPacket
  extract_lets -merge -useContext -underBinder +onlyGivenNames v11
  try clear_value v11
  extract_lets -merge -useContext -underBinder +onlyGivenNames v12
  try clear_value v12
  extract_lets -merge -useContext -underBinder +onlyGivenNames v13
  try clear_value v13
  extract_lets -merge -useContext -underBinder +onlyGivenNames v14
  try clear_value v14
  extract_lets -merge -useContext -underBinder +onlyGivenNames v15
  try clear_value v15
  split
  · extract_lets -merge -useContext -underBinder +onlyGivenNames v18
    have h19 : Sound p v18 := emit_keeps h0'
    try clear_value v18
    extract_lets -merge -useContext -underBinder +onlyGivenNames v20
    have h21 : Sound p v20 := by
      refine meterPacket_keeps ?_
      exact bump_keeps (bump_keeps h19)
    try clear_value v20
    extract_lets -merge -useContext -underBinder +onlyGivenNames v22
    have h23 : Sound p v22 := onJob_keeps h21
    try clear_value v22
    refine ite_keeps (K := Sound p) (fun _ => ?_) (fun _ => ?_)
    · exact keyThreshold_keeps (State.onDom_keeps h23)
    · exact h23

theorem putRecord_keeps {p} {x0} {x1} {x2} (h0' : Sound p x2) : Sound p (putRecord x0 x1 x2) := by
  unfold putRecord
  exact emit_keeps (Sound.of h0'.ctrs h0'.mem h0'.link h0'.keys h0'.parts h0'.objs h0'.ctxs h0'.queues h0'.fences h0'.accs h0'.arrivals
      h0'.users h0'.opTab h0'.doms h0'.migs h0'.rings h0'.profs h0'.pending)

theorem onRecord_keeps {p} {x0} {x1} {x2} {x3} {x4} {x5} {x6} (h0' : Sound p x6) : Sound p (onRecord x0 x1 x2 x3 x4 x5 x6) := by
  unfold onRecord
  split
  · exact putRecord_keeps h0'
  · exact h0'

theorem askCtx_keeps {p} {x0} {x1} {x2} {x3} {x4} {x5} (h0' : Sound p x5) : SoundR p (askCtx x0 x1 x2 x3 x4 x5) := by
  unfold askCtx
  extract_lets -merge -useContext -underBinder +onlyGivenNames v6
  try clear_value v6
  extract_lets -merge -useContext -underBinder +onlyGivenNames v7
  try clear_value v7
  extract_lets -merge -useContext -underBinder +onlyGivenNames v8
  have h9 : ∀ x10, Sound p x10 → Sound p (v8 x10) := by
    intro a11 h12
    try unfold v8
    refine emit_keeps ?_
    exact bump_keeps (State.onLink_keeps h12)
  try clear_value v8
  refine ite_keeps (K := SoundR p) (fun _ => ?_) (fun _ => ?_)
  · refine SoundR.mk ?_
    exact h9 _ h0'
  · split
    · refine SoundR.mk ?_
      exact h0'
    · extract_lets -merge -useContext -underBinder +onlyGivenNames v15
      have h16 : Sound p v15 := putRecord_keeps (State.onLink_keeps h0')
      try clear_value v15
      refine SoundR.mk ?_
      exact h9 _ (bump_keeps h16)

theorem linkKey_keeps {p} {x0} {x1} {x2} {x3} (h0' : Sound p x3) : SoundR p (linkKey x0 x1 x2 x3) := by
  unfold linkKey
  exact askKey_keeps h0'

theorem flushAnswered_keeps {p} {x0} {x1} {x2} (h0' : Sound p x2) : Sound p (flushAnswered x0 x1 x2) := by
  unfold flushAnswered
  split
  · exact h0'
  · refine ite_keeps (K := Sound p) (fun _ => ?_) (fun _ => ?_)
    · exact keepRunning_keeps h0'
    · exact completeReported_keeps h0'

theorem giveAnswer_keeps {p} {x0} {x1} {x2} {x3} {x4} {x5} {x6} {x7} {x8} {x9} {x10} (h0' : Sound p x10) : Sound p (giveAnswer x0 x1 x2 x3
    x4 x5 x6 x7 x8 x9 x10) := by
  unfold giveAnswer
  extract_lets -merge -useContext -underBinder +onlyGivenNames v11
  have h12 : Sound p v11 := by
    refine ite_keeps (K := Sound p) (fun _ => ?_) (fun _ => ?_)
    · exact h0'
    · exact fenceReport_keeps h0'
  try clear_value v11
  refine ite_keeps (K := Sound p) (fun _ => ?_) (fun _ => ?_)
  · exact flushAnswered_keeps h12
  · refine ite_keeps (K := Sound p) (fun _ => ?_) (fun _ => ?_)
    · exact Sound.of h12.ctrs h12.mem h12.link h12.keys h12.parts h12.objs h12.ctxs h12.queues h12.fences h12.accs h12.arrivals h12.users
          h12.opTab h12.doms h12.migs h12.rings h12.profs h12.pending
    · exact emit_keeps h12

theorem endTracker_keeps {p} {x0} {x1} {x2} {x3} {x4} (h0' : Sound p x4) : Sound p (endTracker x0 x1 x2 x3 x4) := by
  unfold endTracker
  split
  · exact h0'
  · extract_lets -merge -useContext -underBinder +onlyGivenNames v7
    have h8 : Sound p v7 := State.onLink_keeps h0'
    try clear_value v7
    extract_lets -merge -useContext -underBinder +onlyGivenNames v9
    try clear_value v9
    extract_lets -merge -useContext -underBinder +onlyGivenNames v10
    have h11 : Sound p v10 := profCount_keeps h8
    try clear_value v10
    exact giveAnswer_keeps h11

theorem failTrackers_keeps {p} {x0} {x1} {x2} {x3} (h0' : Sound p x3) : Sound p (failTrackers x0 x1 x2 x3) := by
  unfold failTrackers
  refine each_keeps ?_ h0'
  intro a4 a5 h6
  exact endTracker_keeps h6

theorem refuseLink_keeps {p} {x0} {x1} {x2} {x3} (h0' : Sound p x3) : Sound p (refuseLink x0 x1 x2 x3) := by
  unfold refuseLink
  refine ite_keeps (K := Sound p) (fun _ => ?_) (fun _ => ?_)
  · exact h0'
  · extract_lets -merge -useContext -underBinder +onlyGivenNames v4
    have h5 : Sound p v4 := profCount_keeps h0'
    try clear_value v4
    refine ite_keeps (K := Sound p) (fun _ => ?_) (fun _ => ?_)
    · exact giveAnswer_keeps h5
    · exact fenceReport_keeps h5

theorem closeBundle_keeps {p} {x0} {x1} {x2} (h0' : Sound p x2) : Sound p (closeBundle x0 x1 x2) := by
  unfold closeBundle
  extract_lets -merge -useContext -underBinder +onlyGivenNames v3
  try clear_value v3
  extract_lets -merge -useContext -underBinder +onlyGivenNames v4
  have h5 : Sound p v4 := State.onLink_keeps h0'
  try clear_value v4
  extract_lets -merge -useContext -underBinder +onlyGivenNames v6
  have h7 : Sound p v6 := by
    refine ite_keeps (K := Sound p) (fun _ => ?_) (fun _ => ?_)
    · exact bump_keeps (bump_keeps h5)
    · exact h5
  try clear_value v6
  exact sendPacket_keeps h7

theorem closeBundles_keeps {p} {x0} {x1} {x2} (h0' : Sound p x2) : Sound p (closeBundles x0 x1 x2) := by
  unfold closeBundles
  refine each_keeps ?_ h0'
  intro a3 a4 h5
  exact closeBundle_keeps h5

theorem takeSeq_keeps {p} {x0} {x1} {x2} (h0' : Sound p x2) : Sound p (takeSeq x0 x1 x2) := by
  unfold takeSeq
  exact State.onLink_keeps h0'

theorem sendOp_keeps {p} {x0} {x1} {x2} {x3} {x4} {x5} {x6} {x7} {x8} {x9} {x10} (h0' : Sound p x10) : Sound p (sendOp x0 x1 x2 x3 x4 x5 x6
    x7 x8 x9 x10) := by
  unfold sendOp
  extract_lets -merge -useContext -underBinder +onlyGivenNames v11
  try clear_value v11
  refine ite_keeps (K := Sound p) (fun _ => ?_) (fun _ => ?_)
  · exact sendPacket_keeps (takeSeq_keeps h0')
  · extract_lets -merge -useContext -underBinder +onlyGivenNames v12
    have h13 : Sound p v12 := sendPacket_keeps (takeSeq_keeps h0')
    try clear_value v12
    extract_lets -merge -useContext -underBinder +onlyGivenNames v14
    try clear_value v14
    exact sendPacket_keeps (takeSeq_keeps h13)

theorem bundleStore_keeps {p} {x0} {x1} {x2} {x3} (h0' : Sound p x3) : Sound p (bundleStore x0 x1 x2 x3) := by
  unfold bundleStore
  extract_lets -merge -useContext -underBinder +onlyGivenNames v4
  try clear_value v4
  extract_lets -merge -useContext -underBinder +onlyGivenNames v5
  try clear_value v5
  extract_lets -merge -useContext -underBinder +onlyGivenNames v6
  have h7 : ∀ x8, Sound p x8 → Sound p (v6 x8) := by
    intro a9 h10
    try unfold v6
    extract_lets -merge -useContext -underBinder +onlyGivenNames v11
    try clear_value v11
    extract_lets -merge -useContext -underBinder +onlyGivenNames v12
    have h13 : Sound p v12 := takeSeq_keeps h10
    try clear_value v12
    extract_lets -merge -useContext -underBinder +onlyGivenNames v14
    have h15 : Sound p v14 := State.onLink_keeps h13
    try clear_value v14
    refine ite_keeps (K := Sound p) (fun _ => ?_) (fun _ => ?_)
    · exact closeBundle_keeps h15
    · exact h15
  try clear_value v6
  split
  · exact h7 _ h0'
  · refine ite_keeps (K := Sound p) (fun _ => ?_) (fun _ => ?_)
    · exact h7 _ (closeBundle_keeps h0')
    · extract_lets -merge -useContext -underBinder +onlyGivenNames v18
      try clear_value v18
      extract_lets -merge -useContext -underBinder +onlyGivenNames v19
      have h20 : Sound p v19 := State.onLink_keeps h0'
      try clear_value v19
      refine ite_keeps (K := Sound p) (fun _ => ?_) (fun _ => ?_)
      · exact closeBundle_keeps h20
      · exact h20

theorem sendReq_keeps {p} {x0} {x1} {x2} {x3} (h0' : Sound p x3) : Sound p (sendReq x0 x1 x2 x3) := by
  unfold sendReq
  extract_lets -merge -useContext -underBinder +onlyGivenNames v4
  try clear_value v4
  extract_lets -merge -useContext -underBinder +onlyGivenNames v5
  try clear_value v5
  extract_lets -merge -useContext -underBinder +onlyGivenNames v6
  have h7 : Sound p v6 := by
    refine ite_keeps (K := Sound p) (fun _ => ?_) (fun _ => ?_)
    · exact h0'
    · exact profCount_keeps h0'
  try clear_value v6
  extract_lets -merge -useContext -underBinder +onlyGivenNames v8
  try clear_value v8
  refine ite_keeps (K := Sound p) (fun _ => ?_) (fun _ => ?_)
  · exact bundleStore_keeps h7
  · extract_lets -merge -useContext -underBinder +onlyGivenNames v9
    have h10 : Sound p v9 := closeBundles_keeps h7
    try clear_value v9
    refine ite_keeps (K := Sound p) (fun _ => ?_) (fun _ => ?_)
    · exact sendOp_keeps h10
    · refine ite_keeps (K := Sound p) (fun _ => ?_) (fun _ => ?_)
      · split
        · exact h10
        · extract_lets -merge -useContext -underBinder +onlyGivenNames v13
          try clear_value v13
          extract_lets -merge -useContext -underBinder +onlyGivenNames v14
          have h15 : Sound p v14 := State.onLink_keeps h10
          try clear_value v14
          exact sendOp_keeps h15
      · refine ite_keeps (K := Sound p) (fun _ => ?_) (fun _ => ?_)
        · exact sendOp_keeps h10
        · refine ite_keeps (K := Sound p) (fun _ => ?_) (fun _ => ?_)
          · exact sendOp_keeps h10
          · exact sendOp_keeps h10

theorem trySend_keeps {p} {x0} {x1} {x2} (h0' : Sound p x2) : SoundR p (trySend x0 x1 x2) := by
  unfold trySend
  extract_lets -merge -useContext -underBinder +onlyGivenNames v3
  try clear_value v3
  extract_lets -merge -useContext -underBinder +onlyGivenNames v4
  try clear_value v4
  refine ite_keeps (K := SoundR p) (fun _ => ?_) (fun _ => ?_)
  · refine SoundR.mk ?_
    exact h0'
  · refine ite_keeps (K := SoundR p) (fun _ => ?_) (fun _ => ?_)
    · refine SoundR.mk ?_
      exact refuseLink_keeps h0'
    · refine ite_keeps (K := SoundR p) (fun _ => ?_) (fun _ => ?_)
      · refine SoundR.mk ?_
        exact h0'
      · split
        · refine SoundR.mk ?_
          refine SoundR.snd ?_
          exact askCtx_keeps h0'
        · split
          · refine SoundR.mk ?_
            exact h0'
          · split
            · rename_i m9 heq
              have h10 : Sound p m9 := by
                refine SoundR.get heq ?_
                exact linkKey_keeps h0'
              refine SoundR.mk ?_
              exact h10
            · rename_i m11 m12 heq
              have h13 : Sound p m12 := by
                refine SoundR.get heq ?_
                exact linkKey_keeps h0'
              refine SoundR.mk ?_
              exact sendReq_keeps h13

theorem sendWaiting_keeps {p} {x0} {x1} {x2} {x3} (h0' : Sound p x3) : SoundR p (sendWaiting x0 x1 x2 x3) := by
  induction x1 generalizing x0 x2 x3 with
  | nil =>
    unfold sendWaiting
    refine SoundR.mk ?_
    exact h0'
  | cons y ys ih =>
    unfold sendWaiting
    refine ite_keeps (K := SoundR p) (fun _ => ?_) (fun _ => ?_)
    · split
      · rename_i m9 m10 heq
        have h11 : Sound p m10 := by
          refine SoundR.get heq ?_
          exact ih h0'
        refine SoundR.mk ?_
        exact h11
    · split
      · rename_i m12 heq
        have h13 : Sound p m12 := by
          refine SoundR.get heq ?_
          exact trySend_keeps h0'
        exact ih h13
      · rename_i m14 heq
        have h15 : Sound p m14 := by
          refine SoundR.get heq ?_
          exact trySend_keeps h0'
        split
        · rename_i m16 m17 heq
          have h18 : Sound p m17 := by
            refine SoundR.get heq ?_
            exact ih h15
          refine SoundR.mk ?_
          exact h18

theorem linkPump_keeps {p} {x0} {x1} (h0' : Sound p x1) : Sound p (linkPump x0 x1) := by
  unfold linkPump
  extract_lets -merge -useContext -underBinder +onlyGivenNames v2
  try clear_value v2
  split
  · rename_i m3 m4 heq
    have h5 : Sound p m4 := by
      refine SoundR.get heq ?_
      exact sendWaiting_keeps (State.onLink_keeps h0')
    exact State.onLink_keeps h5

theorem linkSend_keeps {p} {x0} {x1} {x2} (h0' : Sound p x2) : Sound p (linkSend x0 x1 x2) := by
  unfold linkSend
  exact linkPump_keeps (State.onLink_keeps h0')

theorem sendResp_keeps {p} {x0} {x1} {x2} {x3} {x4} {x5} {x6} {x7} (h0' : Sound p x7) : Sound p (sendResp x0 x1 x2 x3 x4 x5 x6 x7) := by
  unfold sendResp
  exact linkSend_keeps h0'

theorem sendError_keeps {p} {x0} {x1} {x2} {x3} (h0' : Sound p x3) : Sound p (sendError x0 x1 x2 x3) := by
  unfold sendError
  exact sendResp_keeps h0'

theorem issueOp_keeps {p} {x0} {x1} {x2} (h0' : Sound p x2) : Sound p (issueOp x0 x1 x2) := by
  unfold issueOp
  extract_lets -merge -useContext -underBinder +onlyGivenNames v3
  have h4 : ∀ x5 x6, Sound p x6 → Sound p (v3 x5 x6) := by
    intro a7 a8 h9
    try unfold v3
    exact State.onLink_keeps h9
  try clear_value v3
  refine ite_keeps (K := Sound p) (fun _ => ?_) (fun _ => ?_)
  · exact emit_keeps (h4 _ _ h0')
  · split
    · exact h4 _ _ h0'
    · exact emit_keeps (h4 _ _ h0')

theorem linkIntake_keeps {p} {x0} {x1} {x2} (h0' : Sound p x2) : Sound p (linkIntake x0 x1 x2) := by
  unfold linkIntake
  refine ite_keeps (K := Sound p) (fun _ => ?_) (fun _ => ?_)
  · exact h0'
  · extract_lets -merge -useContext -underBinder +onlyGivenNames v3
    have h4 : Sound p v3 := State.onPort_keeps h0'
    try clear_value v3
    extract_lets -merge -useContext -underBinder +onlyGivenNames v5
    have h6 : Sound p v5 := profCount_keeps (bump_keeps h4)
    try clear_value v5
    extract_lets -merge -useContext -underBinder +onlyGivenNames v7
    try clear_value v7
    refine ite_keeps (K := Sound p) (fun _ => ?_) (fun _ => ?_)
    · exact refuseLink_keeps h6
    · exact linkSend_keeps h6

theorem bundleFlush_keeps {p} {x0} {x1} {x2} {x3} (h0' : Sound p x3) : Sound p (bundleFlush x0 x1 x2 x3) := by
  unfold bundleFlush
  refine ite_keeps (K := Sound p) (fun _ => ?_) (fun _ => ?_)
  · exact h0'
  · exact closeBundles_keeps h0'

theorem dropPacket_keeps {p} {x0} {x1} {x2} {x3} {x4} {x5} (h0' : Sound p x5) : Sound p (dropPacket x0 x1 x2 x3 x4 x5) := by
  unfold dropPacket
  extract_lets -merge -useContext -underBinder +onlyGivenNames v6
  have h7 : Sound p v6 := bump_keeps (emit_keeps h0')
  try clear_value v6
  refine ite_keeps (K := Sound p) (fun _ => ?_) (fun _ => ?_)
  · exact h7
  · exact faultEvent_keeps h7

theorem holdPacket_keeps {p} {x0} {x1} {x2} (h0' : Sound p x2) : Sound p (holdPacket x0 x1 x2) := by
  unfold holdPacket
  exact State.onLink_keeps h0'

theorem holdOrDrop_keeps {p} {x0} {x1} {x2} (h0' : Sound p x2) : Sound p (holdOrDrop x0 x1 x2) := by
  unfold holdOrDrop
  refine ite_keeps (K := Sound p) (fun _ => ?_) (fun _ => ?_)
  · exact dropPacket_keeps h0'
  · exact holdPacket_keeps h0'

theorem dropHeld_keeps {p} {x0} {x1} {x2} {x3} (h0' : Sound p x3) : Sound p (dropHeld x0 x1 x2 x3) := by
  unfold dropHeld
  extract_lets -merge -useContext -underBinder +onlyGivenNames v4
  try clear_value v4
  extract_lets -merge -useContext -underBinder +onlyGivenNames v5
  have h6 : Sound p v5 := State.onLink_keeps h0'
  try clear_value v5
  refine each_keeps ?_ h6
  intro a7 a8 h9
  exact dropPacket_keeps h9

theorem dropOps_keeps {p} {x0} {x1} {x2} (h0' : Sound p x2) : Sound p (dropOps x0 x1 x2) := by
  unfold dropOps
  extract_lets -merge -useContext -underBinder +onlyGivenNames v3
  try clear_value v3
  exact bump_keeps (State.onLink_keeps h0')

theorem closeElsewhere_keeps {p} {x0} {x1} {x2} (h0' : Sound p x2) : Sound p (closeElsewhere x0 x1 x2) := by
  unfold closeElsewhere
  refine each_keeps ?_ h0'
  intro a3 a4 h5
  extract_lets -merge -useContext -underBinder +onlyGivenNames v6
  have h7 : Sound p v6 := by
    refine ite_keeps (K := Sound p) (fun _ => ?_) (fun _ => ?_)
    · exact dropHeld_keeps h5
    · exact closeBundles_keeps h5
  try clear_value v6
  exact State.onLink_keeps h7

theorem instanceOpen_keeps {p} {x0} {x1} {x2} {x3} {x4} (h0' : Sound p x4) : Sound p (instanceOpen x0 x1 x2 x3 x4) := by
  unfold instanceOpen
  extract_lets -merge -useContext -underBinder +onlyGivenNames v5
  try clear_value v5
  extract_lets -merge -useContext -underBinder +onlyGivenNames v6
  try clear_value v6
  split
  · exact h0'
  · extract_lets -merge -useContext -underBinder +onlyGivenNames v9
    try clear_value v9
    refine ite_keeps (K := Sound p) (fun _ => ?_) (fun _ => ?_)
    · exact h0'
    · extract_lets -merge -useContext -underBinder +onlyGivenNames v10
      try clear_value v10
      refine ite_keeps (K := Sound p) (fun _ => ?_) (fun _ => ?_)
      · exact keyThreshold_keeps (State.onDom_keeps h0')
      · extract_lets -merge -useContext -underBinder +onlyGivenNames v11
        try clear_value v11
        extract_lets -merge -useContext -underBinder +onlyGivenNames v12
        have h13 : Sound p v12 := by
          refine closeElsewhere_keeps ?_
          exact putRecord_keeps (State.onLink_keeps h0')
        try clear_value v12
        extract_lets -merge -useContext -underBinder +onlyGivenNames v14
        try clear_value v14
        refine linkPump_keeps ?_
        refine ite_keeps (K := Sound p) (fun _ => ?_) (fun _ => ?_)
        · exact State.onLink_keeps h13
        · exact h13

theorem startInstance_keeps {p} {x0} {x1} {x2} {x3} {x4} (h0' : Sound p x4) : Sound p (startInstance x0 x1 x2 x3 x4) := by
  unfold startInstance
  extract_lets -merge -useContext -underBinder +onlyGivenNames v5
  try clear_value v5
  exact closeElsewhere_keeps (State.onLink_keeps h0')

theorem accept_keeps {p} {x0} {x1} {x2} {x3} (h0' : Sound p x3) : Sound p (accept x0 x1 x2 x3) := by
  unfold accept
  extract_lets -merge -useContext -underBinder +onlyGivenNames v4
  try clear_value v4
  extract_lets -merge -useContext -underBinder +onlyGivenNames v5
  try clear_value v5
  refine ite_keeps (K := Sound p) (fun _ => ?_) (fun _ => ?_)
  · exact holdPacket_keeps h0'
  · extract_lets -merge -useContext -underBinder +onlyGivenNames v6
    try clear_value v6
    extract_lets -merge -useContext -underBinder +onlyGivenNames v7
    try clear_value v7
    refine ite_keeps (K := Sound p) (fun _ => ?_) (fun _ => ?_)
    · refine sendResp_keeps ?_
      exact bump_keeps (dropPacket_keeps h0')
    · refine ite_keeps (K := Sound p) (fun _ => ?_) (fun _ => ?_)
      · refine ite_keeps (K := Sound p) (fun _ => ?_) (fun _ => ?_)
        · exact holdPacket_keeps h0'
        · refine ite_keeps (K := Sound p) (fun _ => ?_) (fun _ => ?_)
          · extract_lets -merge -useContext -underBinder +onlyGivenNames v8
            try clear_value v8
            refine ite_keeps (K := Sound p) (fun _ => ?_) (fun _ => ?_)
            · exact holdPacket_keeps (State.onLink_keeps h0')
            · exact holdPacket_keeps (startInstance_keeps h0')
          · refine holdPacket_keeps ?_
            exact startInstance_keeps (dropHeld_keeps h0')
      · refine holdPacket_keeps ?_
        exact startInstance_keeps (dropHeld_keeps h0')

theorem verify_keeps {p} {x0} {x1} {x2} {x3} (h0' : Sound p x3) : Sound p (verify x0 x1 x2 x3) := by
  unfold verify
  extract_lets -merge -useContext -underBinder +onlyGivenNames v4
  try clear_value v4
  split
  · rename_i m5 heq
    have h6 : Sound p m5 := by
      refine SoundR.get heq ?_
      exact linkKey_keeps h0'
    exact holdPacket_keeps h6
  · rename_i m7 m8 heq
    have h9 : Sound p m8 := by
      refine SoundR.get heq ?_
      exact linkKey_keeps h0'
    extract_lets -merge -useContext -underBinder +onlyGivenNames v10
    try clear_value v10
    extract_lets -merge -useContext -underBinder +onlyGivenNames v11
    try clear_value v11
    extract_lets -merge -useContext -underBinder +onlyGivenNames v12
    try clear_value v12
    split
    · exact dropPacket_keeps h9
    · exact accept_keeps h9

theorem admitPacket_keeps {p} {x0} {x1} {x2} (h0' : Sound p x2) : Sound p (admitPacket x0 x1 x2) := by
  unfold admitPacket
  extract_lets -merge -useContext -underBinder +onlyGivenNames v3
  try clear_value v3
  split
  · exact dropPacket_keeps h0'
  · refine ite_keeps (K := Sound p) (fun _ => ?_) (fun _ => ?_)
    · exact holdOrDrop_keeps h0'
    · extract_lets -merge -useContext -underBinder +onlyGivenNames v6
      try clear_value v6
      extract_lets -merge -useContext -underBinder +onlyGivenNames v7
      try clear_value v7
      extract_lets -merge -useContext -underBinder +onlyGivenNames v8
      try clear_value v8
      extract_lets -merge -useContext -underBinder +onlyGivenNames v9
      try clear_value v9
      refine ite_keeps (K := Sound p) (fun _ => ?_) (fun _ => ?_)
      · exact dropPacket_keeps h0'
      · refine ite_keeps (K := Sound p) (fun _ => ?_) (fun _ => ?_)
        · exact dropPacket_keeps h0'
        · refine ite_keeps (K := Sound p) (fun _ => ?_) (fun _ => ?_)
          · exact dropPacket_keeps h0'
          · refine ite_keeps (K := Sound p) (fun _ => ?_) (fun _ => ?_)
            · exact dropPacket_keeps h0'
            · exact verify_keeps h0'

theorem enterPacket_keeps {p} {x0} {x1} {x2} (h0' : Sound p x2) : Sound p (enterPacket x0 x1 x2) := by
  unfold enterPacket
  split
  · exact admitPacket_keeps h0'
  · split
    · rename_i m5 heq
      have h6 : Sound p m5 := by
        refine SoundR.get heq ?_
        exact askCtx_keeps h0'
      exact holdOrDrop_keeps h6
    · rename_i m7 heq
      have h8 : Sound p m7 := by
        refine SoundR.get heq ?_
        exact askCtx_keeps h0'
      exact dropPacket_keeps h8

theorem packetArrival_keeps {p} {x0} {x1} {x2} {x3} (h0' : Sound p x3) : Sound p (packetArrival x0 x1 x2 x3) := by
  unfold packetArrival
  refine ite_keeps (K := Sound p) (fun _ => ?_) (fun _ => ?_)
  · exact h0'
  · extract_lets -merge -useContext -underBinder +onlyGivenNames v4
    try clear_value v4
    refine ite_keeps (K := Sound p) (fun _ => ?_) (fun _ => ?_)
    · exact dropPacket_keeps h0'
    · extract_lets -merge -useContext -underBinder +onlyGivenNames v5
      try clear_value v5
      split
      · exact dropPacket_keeps h0'
      · extract_lets -merge -useContext -underBinder +onlyGivenNames v9
        try clear_value v9
        refine ite_keeps (K := Sound p) (fun _ => ?_) (fun _ => ?_)
        · exact dropPacket_keeps h0'
        · refine ite_keeps (K := Sound p) (fun _ => ?_) (fun _ => ?_)
          · exact dropPacket_keeps (failTrackers_keeps h0')
          · refine ite_keeps (K := Sound p) (fun _ => ?_) (fun _ => ?_)
            · exact dropPacket_keeps h0'
            · refine ite_keeps (K := Sound p) (fun _ => ?_) (fun _ => ?_)
              · exact dropPacket_keeps h0'
              · refine ite_keeps (K := Sound p) (fun _ => ?_) (fun _ => ?_)
                · exact holdOrDrop_keeps (State.onDom_keeps h0')
                · exact enterPacket_keeps h0'

theorem retryHeld_keeps {p} {x0} {x1} {x2} {x3} (h0' : Sound p x3) : Sound p (retryHeld x0 x1 x2 x3) := by
  unfold retryHeld
  extract_lets -merge -useContext -underBinder +onlyGivenNames v4
  try clear_value v4
  extract_lets -merge -useContext -underBinder +onlyGivenNames v5
  have h6 : Sound p v5 := State.onLink_keeps h0'
  try clear_value v5
  refine each_keeps ?_ h6
  intro a7 a8 h9
  exact admitPacket_keeps h9

theorem refillDone_keeps {p} {x0} {x1} {x2} {x3} {x4} {x5} {x6} (h0' : Sound p x6) : Sound p (refillDone x0 x1 x2 x3 x4 x5 x6) := by
  unfold refillDone
  split
  · exact h0'
  · refine ite_keeps (K := Sound p) (fun _ => ?_) (fun _ => ?_)
    · exact h0'
    · refine ite_keeps (K := Sound p) (fun _ => ?_) (fun _ => ?_)
      · exact emit_keeps h0'
      · extract_lets -merge -useContext -underBinder +onlyGivenNames v9
        have h10 : Sound p v9 := State.onLink_keeps h0'
        try clear_value v9
        exact linkPump_keeps (retryHeld_keeps h10)

theorem settleOp_keeps {p} {x0} {x1} {x2} (h0' : Sound p x2) : Sound p (settleOp x0 x1 x2) := by
  unfold settleOp
  extract_lets -merge -useContext -underBinder +onlyGivenNames v3
  have h4 : ∀ x5, Sound p x5 → Sound p (v3 x5) := by
    intro a6 h7
    try unfold v3
    exact State.onLink_keeps h7
  try clear_value v3
  refine ite_keeps (K := Sound p) (fun _ => ?_) (fun _ => ?_)
  · exact h0'
  · refine ite_keeps (K := Sound p) (fun _ => ?_) (fun _ => ?_)
    · exact h4 _ (sendError_keeps h0')
    · refine ite_keeps (K := Sound p) (fun _ => ?_) (fun _ => ?_)
      · extract_lets -merge -useContext -underBinder +onlyGivenNames v8
        try clear_value v8
        exact issueOp_keeps (bump_keeps h0')
      · exact h4 _ h0'

theorem releaseFolds_keeps {p} {x0} (h0' : Sound p x0) : Sound p (releaseFolds x0) := by
  unfold releaseFolds
  refine each_keeps ?_ h0'
  intro a1 a2 h3
  refine each_keeps ?_ h3
  intro a4 a5 h6
  refine ite_keeps (K := Sound p) (fun _ => ?_) (fun _ => ?_)
  · exact h6
  · exact issueOp_keeps h6

theorem settleLink_keeps {p} {x0} {x1} (h0' : Sound p x1) : Sound p (settleLink x0 x1) := by
  unfold settleLink
  refine releaseFolds_keeps ?_
  refine each_keeps ?_ h0'
  intro a2 a3 h4
  exact settleOp_keeps h4

theorem spaceBroken_keeps {p} {x0} {x1} {x2} {x3} (h0' : Sound p x3) : Sound p (spaceBroken x0 x1 x2 x3) := by
  unfold spaceBroken
  extract_lets -merge -useContext -underBinder +onlyGivenNames v4
  try clear_value v4
  refine failTrackers_keeps ?_
  exact bump_keeps (bump_keeps h0')

theorem breakEvicted_keeps {p} {x0} {x1} {x2} {x3} {x4} (h0' : Sound p x4) : Sound p (breakEvicted x0 x1 x2 x3 x4) := by
  unfold breakEvicted
  split
  · refine ite_keeps (K := Sound p) (fun _ => ?_) (fun _ => ?_)
    · exact spaceBroken_keeps (putRecord_keeps h0')
    · exact h0'
  · exact h0'

theorem breakArrives_keeps {p} {x0} {x1} {x2} {x3} {x4} (h0' : Sound p x4) : Sound p (breakArrives x0 x1 x2 x3 x4) := by
  unfold breakArrives
  split
  · refine ite_keeps (K := Sound p) (fun _ => ?_) (fun _ => ?_)
    · exact spaceBroken_keeps (State.onLink_keeps h0')
    · refine ite_keeps (K := Sound p) (fun _ => ?_) (fun _ => ?_)
      · exact breakEvicted_keeps h0'
      · exact h0'
  · exact breakEvicted_keeps h0'

theorem refuseSpace_keeps {p} {x0} {x1} {x2} {x3} {x4} {x5} (h0' : Sound p x5) : Sound p (refuseSpace x0 x1 x2 x3 x4 x5) := by
  unfold refuseSpace
  extract_lets -merge -useContext -underBinder +onlyGivenNames v6
  try clear_value v6
  extract_lets -merge -useContext -underBinder +onlyGivenNames v7
  have h8 : Sound p v7 := onRecord_keeps h0'
  try clear_value v7
  split
  · refine ite_keeps (K := Sound p) (fun _ => ?_) (fun _ => ?_)
    · exact State.onLink_keeps (closeBundles_keeps h8)
    · exact h8
  · exact h8

theorem applyOp_keeps {p} {x0} {x1} {x2} {x3} (h0' : Sound p x3) : Sound p (applyOp x0 x1 x2 x3) := by
  unfold applyOp
  extract_lets -merge -useContext -underBinder +onlyGivenNames v4
  try clear_value v4
  extract_lets -merge -useContext -underBinder +onlyGivenNames v5
  try clear_value v5
  extract_lets -merge -useContext -underBinder +onlyGivenNames v6
  try clear_value v6
  extract_lets -merge -useContext -underBinder +onlyGivenNames v7
  try clear_value v7
  extract_lets -merge -useContext -underBinder +onlyGivenNames v8
  try clear_value v8
  extract_lets -merge -useContext -underBinder +onlyGivenNames v9
  try clear_value v9
  extract_lets -merge -useContext -underBinder +onlyGivenNames v10
  have h11 : ∀ x12 x13 x14, Sound p x14 → Sound p (v10 x12 x13 x14) := by
    intro a15 a16 a17 h18
    try unfold v10
    split
    · refine ite_keeps (K := Sound p) (fun _ => ?_) (fun _ => ?_)
      · exact endTracker_keeps h18
      · exact bump_keeps h18
    · exact bump_keeps h18
  try clear_value v10
  refine ite_keeps (K := Sound p) (fun _ => ?_) (fun _ => ?_)
  · exact emit_keeps h0'
  · refine ite_keeps (K := Sound p) (fun _ => ?_) (fun _ => ?_)
    · exact State.onLink_keeps h0'
    · refine ite_keeps (K := Sound p) (fun _ => ?_) (fun _ => ?_)
      · extract_lets -merge -useContext -underBinder +onlyGivenNames v21
        try clear_value v21
        refine ite_keeps (K := Sound p) (fun _ => ?_) (fun _ => ?_)
        · exact State.onLink_keeps h0'
        · exact issueOp_keeps h0'
      · refine ite_keeps (K := Sound p) (fun _ => ?_) (fun _ => ?_)
        · extract_lets -merge -useContext -underBinder +onlyGivenNames v22
          try clear_value v22
          refine ite_keeps (K := Sound p) (fun _ => ?_) (fun _ => ?_)
          · exact State.onLink_keeps h0'
          · exact issueOp_keeps h0'
        · refine ite_keeps (K := Sound p) (fun _ => ?_) (fun _ => ?_)
          · exact issueOp_keeps h0'
          · refine ite_keeps (K := Sound p) (fun _ => ?_) (fun _ => ?_)
            · extract_lets -merge -useContext -underBinder +onlyGivenNames v23
              try clear_value v23
              refine ite_keeps (K := Sound p) (fun _ => ?_) (fun _ => ?_)
              · exact fenceReport_keeps h0'
              · exact h11 _ _ _ h0'
            · refine ite_keeps (K := Sound p) (fun _ => ?_) (fun _ => ?_)
              · exact h11 _ _ _ h0'
              · refine ite_keeps (K := Sound p) (fun _ => ?_) (fun _ => ?_)
                · exact breakArrives_keeps h0'
                · refine ite_keeps (K := Sound p) (fun _ => ?_) (fun _ => ?_)
                  · extract_lets -merge -useContext -underBinder +onlyGivenNames v24
                    try clear_value v24
                    exact refuseSpace_keeps (refuseSpace_keeps h0')
                  · refine ite_keeps (K := Sound p) (fun _ => ?_) (fun _ => ?_)
                    · exact State.onPort_keeps h0'
                    · exact h0'

theorem countApplied_keeps {p} {x0} {x1} {x2} (h0' : Sound p x2) : Sound p (countApplied x0 x1 x2) := by
  unfold countApplied
  refine meterPacket_keeps ?_
  refine bump_keeps ?_
  exact bump_keeps (emit_keeps h0')

theorem applyPacket_keeps {p} {x0} {x1} {x2} {x3} (h0' : Sound p x3) : Sound p (applyPacket x0 x1 x2 x3) := by
  unfold applyPacket
  extract_lets -merge -useContext -underBinder +onlyGivenNames v4
  try clear_value v4
  extract_lets -merge -useContext -underBinder +onlyGivenNames v5
  try clear_value v5
  extract_lets -merge -useContext -underBinder +onlyGivenNames v6
  try clear_value v6
  extract_lets -merge -useContext -underBinder +onlyGivenNames v7
  try clear_value v7
  extract_lets -merge -useContext -underBinder +onlyGivenNames v8
  try clear_value v8
  extract_lets -merge -useContext -underBinder +onlyGivenNames v9
  try clear_value v9
  extract_lets -merge -useContext -underBinder +onlyGivenNames v10
  try clear_value v10
  extract_lets -merge -useContext -underBinder +onlyGivenNames v11
  have h12 : ∀ x13, Sound p x13 → Sound p (v11 x13) := by
    intro a14 h15
    try unfold v11
    exact State.onLink_keeps h15
  try clear_value v11
  extract_lets -merge -useContext -underBinder +onlyGivenNames v16
  try clear_value v16
  refine ite_keeps (K := Sound p) (fun _ => ?_) (fun _ => ?_)
  · exact dropPacket_keeps (h12 _ h0')
  · refine ite_keeps (K := Sound p) (fun _ => ?_) (fun _ => ?_)
    · exact h0'
    · extract_lets -merge -useContext -underBinder +onlyGivenNames v17
      have h18 : Sound p v17 := by
        refine each_keeps ?_ (h12 _ h0')
        intro a19 a20 h21
        exact dropPacket_keeps h21
      try clear_value v17
      refine ite_keeps (K := Sound p) (fun _ => ?_) (fun _ => ?_)
      · exact dropPacket_keeps h18
      · refine ite_keeps (K := Sound p) (fun _ => ?_) (fun _ => ?_)
        · exact State.onLink_keeps h18
        · extract_lets -merge -useContext -underBinder +onlyGivenNames v22
          have h23 : Sound p v22 := countApplied_keeps h18
          try clear_value v22
          split
          · exact applyOp_keeps (countApplied_keeps h23)
          · refine each_keeps ?_ h23
            intro a29 a30 h31
            exact applyOp_keeps h31

theorem packetApply_keeps {p} {x0} {x1} {x2} {x3} {x4} (h0' : Sound p x4) : Sound p (packetApply x0 x1 x2 x3 x4) := by
  unfold packetApply
  extract_lets -merge -useContext -underBinder +onlyGivenNames v5
  have h6 : Sound p v5 := settleLink_keeps h0'
  try clear_value v5
  extract_lets -merge -useContext -underBinder +onlyGivenNames v7
  try clear_value v7
  split
  · exact h6
  · refine ite_keeps (K := Sound p) (fun _ => ?_) (fun _ => ?_)
    · exact h6
    · refine ite_keeps (K := Sound p) (fun _ => ?_) (fun _ => ?_)
      · split
        · exact h6
        · extract_lets -merge -useContext -underBinder +onlyGivenNames v12
          have h13 : Sound p v12 := startInstance_keeps h6
          try clear_value v12
          split
          · exact applyPacket_keeps h13
          · exact h13
      · split
        · exact h6
        · exact applyPacket_keeps h6

theorem dropOp_keeps {p} {x0} {x1} {x2} (h0' : Sound p x2) : Sound p (dropOp x0 x1 x2) := by
  unfold dropOp
  exact State.onLink_keeps h0'

theorem loadRelease_keeps {p} {x0} {x1} {x2} (h0' : Sound p x2) : Sound p (loadRelease x0 x1 x2) := by
  unfold loadRelease
  split
  · refine ite_keeps (K := Sound p) (fun _ => ?_) (fun _ => ?_)
    · exact h0'
    · refine ite_keeps (K := Sound p) (fun _ => ?_) (fun _ => ?_)
      · exact sendError_keeps (dropOp_keeps h0')
      · exact sendResp_keeps (dropOp_keeps h0')
  · exact h0'

theorem flaggedRelease_keeps {p} {x0} {x1} {x2} {x3} (h0' : Sound p x3) : Sound p (flaggedRelease x0 x1 x2 x3) := by
  unfold flaggedRelease
  extract_lets -merge -useContext -underBinder +onlyGivenNames v4
  have h5 : Sound p v4 := settleLink_keeps h0'
  try clear_value v4
  extract_lets -merge -useContext -underBinder +onlyGivenNames v6
  try clear_value v6
  split
  · exact h5
  · refine ite_keeps (K := Sound p) (fun _ => ?_) (fun _ => ?_)
    · exact h5
    · exact issueOp_keeps (State.onLink_keeps h5)

theorem atomicResult_keeps {p} {x0} {x1} {x2} {x3} (h0' : Sound p x3) : Sound p (atomicResult x0 x1 x2 x3) := by
  unfold atomicResult
  split
  · exact sendResp_keeps (dropOp_keeps h0')
  · exact h0'

theorem invalidateDone_keeps {p} {x0} {x1} {x2} (h0' : Sound p x2) : Sound p (invalidateDone x0 x1 x2) := by
  unfold invalidateDone
  split
  · exact sendResp_keeps (dropOp_keeps h0')
  · exact h0'

theorem flushDone_keeps {p} {x0} {x1} {x2} (h0' : Sound p x2) : Sound p (flushDone x0 x1 x2) := by
  unfold flushDone
  extract_lets -merge -useContext -underBinder +onlyGivenNames v3
  have h4 : Sound p v3 := settleLink_keeps h0'
  try clear_value v3
  split
  · refine ite_keeps (K := Sound p) (fun _ => ?_) (fun _ => ?_)
    · exact h4
    · exact sendResp_keeps (dropOp_keeps h4)
  · exact h4

theorem breakSpace_keeps {p} {x0} {x1} {x2} (h0' : Sound p x2) : Sound p (breakSpace x0 x1 x2) := by
  unfold breakSpace
  extract_lets -merge -useContext -underBinder +onlyGivenNames v3
  try clear_value v3
  extract_lets -merge -useContext -underBinder +onlyGivenNames v4
  have h5 : Sound p v4 := dropOps_keeps (dropHeld_keeps h0')
  try clear_value v4
  extract_lets -merge -useContext -underBinder +onlyGivenNames v6
  have h7 : Sound p v6 := by
    unfold v6
    split
    · exact startInstance_keeps h5
    · exact State.onLink_keeps h5
  try clear_value v6
  refine ite_keeps (K := Sound p) (fun _ => ?_) (fun _ => ?_)
  · exact spaceBroken_keeps h7
  · exact sendResp_keeps (bump_keeps h7)

theorem gapTimeout_keeps {p} {x0} {x1} {x2} {x3} {x4} (h0' : Sound p x4) : Sound p (gapTimeout x0 x1 x2 x3 x4) := by
  unfold gapTimeout
  extract_lets -merge -useContext -underBinder +onlyGivenNames v5
  try clear_value v5
  split
  · exact h0'
  · extract_lets -merge -useContext -underBinder +onlyGivenNames v8
    try clear_value v8
    extract_lets -merge -useContext -underBinder +onlyGivenNames v9
    try clear_value v9
    extract_lets -merge -useContext -underBinder +onlyGivenNames v10
    try clear_value v10
    extract_lets -merge -useContext -underBinder +onlyGivenNames v11
    try clear_value v11
    refine ite_keeps (K := Sound p) (fun _ => ?_) (fun _ => ?_)
    · exact h0'
    · refine ite_keeps (K := Sound p) (fun _ => ?_) (fun _ => ?_)
      · exact breakSpace_keeps h0'
      · split
        · refine ite_keeps (K := Sound p) (fun _ => ?_) (fun _ => ?_)
          · exact h0'
          · exact breakSpace_keeps (dropHeld_keeps h0')
        · exact h0'

theorem trackerTimeout_keeps {p} {x0} {x1} {x2} (h0' : Sound p x2) : Sound p (trackerTimeout x0 x1 x2) := by
  unfold trackerTimeout
  split
  · refine ite_keeps (K := Sound p) (fun _ => ?_) (fun _ => ?_)
    · exact endTracker_keeps (bump_keeps h0')
    · exact h0'
  · exact h0'

theorem rotationCommit_keeps {p} {x0} {x1} (h0' : Sound p x1) : Sound p (rotationCommit x0 x1) := by
  unfold rotationCommit
  refine each_keeps ?_ h0'
  intro a2 a3 h4
  extract_lets -merge -useContext -underBinder +onlyGivenNames v5
  try clear_value v5
  extract_lets -merge -useContext -underBinder +onlyGivenNames v6
  have h7 : Sound p v6 := closeBundles_keeps h4
  try clear_value v6
  extract_lets -merge -useContext -underBinder +onlyGivenNames v8
  have h9 : Sound p v8 := onJob_keeps h7
  try clear_value v8
  extract_lets -merge -useContext -underBinder +onlyGivenNames v10
  have h11 : Sound p v10 := State.onLink_keeps h9
  try clear_value v10
  extract_lets -merge -useContext -underBinder +onlyGivenNames v12
  try clear_value v12
  extract_lets -merge -useContext -underBinder +onlyGivenNames v13
  have h14 : Sound p v13 := State.onLink_keeps h11
  try clear_value v13
  refine linkPump_keeps ?_
  refine each_keeps ?_ h14
  intro a15 a16 h17
  exact enterPacket_keeps h17

theorem generationDrain_keeps {p} {x0} {x1} {x2} (h0' : Sound p x2) : Sound p (generationDrain x0 x1 x2) := by
  unfold generationDrain
  extract_lets -merge -useContext -underBinder +onlyGivenNames v3
  try clear_value v3
  extract_lets -merge -useContext -underBinder +onlyGivenNames v4
  try clear_value v4
  split
  · exact h0'
  · refine ite_keeps (K := Sound p) (fun _ => ?_) (fun _ => ?_)
    · exact onJob_keeps h0'
    · exact h0'

theorem memberLostAt_keeps {p} {x0} {x1} {x2} {x3} {x4} (h0' : Sound p x4) : Sound p (memberLostAt x0 x1 x2 x3 x4) := by
  unfold memberLostAt
  extract_lets -merge -useContext -underBinder +onlyGivenNames v5
  try clear_value v5
  extract_lets -merge -useContext -underBinder +onlyGivenNames v6
  have h7 : Sound p v6 := by
    refine ite_keeps (K := Sound p) (fun _ => ?_) (fun _ => ?_)
    · exact keyThreshold_keeps (State.onDom_keeps h0')
    · exact h0'
  try clear_value v6
  extract_lets -merge -useContext -underBinder +onlyGivenNames v8
  have h9 : Sound p v8 := State.onLink_keeps h7
  try clear_value v8
  extract_lets -merge -useContext -underBinder +onlyGivenNames v10
  have h11 : Sound p v10 := dropOps_keeps (dropHeld_keeps h9)
  try clear_value v10
  extract_lets -merge -useContext -underBinder +onlyGivenNames v12
  try clear_value v12
  extract_lets -merge -useContext -underBinder +onlyGivenNames v13
  have h14 : Sound p v13 := State.onLink_keeps h11
  try clear_value v13
  extract_lets -merge -useContext -underBinder +onlyGivenNames v15
  have h16 : Sound p v15 := by
    refine each_keeps ?_ h14
    intro a17 a18 h19
    exact refuseLink_keeps h19
  try clear_value v15
  exact failTrackers_keeps h16

theorem bulkReport_keeps {p} {x0} {x1} {x2} (h0' : Sound p x2) : Sound p (bulkReport x0 x1 x2) := by
  unfold bulkReport
  split
  · exact h0'
  · refine ite_keeps (K := Sound p) (fun _ => ?_) (fun _ => ?_)
    · exact h0'
    · extract_lets -merge -useContext -underBinder +onlyGivenNames v5
      try clear_value v5
      extract_lets -merge -useContext -underBinder +onlyGivenNames v6
      have h7 : Sound p v6 := dropOp_keeps h0'
      try clear_value v6
      extract_lets -merge -useContext -underBinder +onlyGivenNames v8
      have h9 : Sound p v8 := by
        exact Sound.of h7.ctrs h7.mem h7.link h7.keys h7.parts h7.objs h7.ctxs h7.queues h7.fences h7.accs h7.arrivals h7.users h7.opTab
            h7.doms h7.migs h7.rings h7.profs h7.pending
      try clear_value v8
      exact Sound.of h9.ctrs h9.mem h9.link h9.keys h9.parts h9.objs h9.ctxs h9.queues h9.fences h9.accs (sorted_tmap h9.arrivals) h9.users
          h9.opTab h9.doms h9.migs h9.rings h9.profs h9.pending

theorem linkFailOnKey_keeps {p} {x0} {x1} {x2} {x3} {x4} (h0' : Sound p x4) : Sound p (linkFailOnKey x0 x1 x2 x3 x4) := by
  unfold linkFailOnKey
  extract_lets -merge -useContext -underBinder +onlyGivenNames v5
  try clear_value v5
  extract_lets -merge -useContext -underBinder +onlyGivenNames v6
  try clear_value v6
  extract_lets -merge -useContext -underBinder +onlyGivenNames v7
  try clear_value v7
  extract_lets -merge -useContext -underBinder +onlyGivenNames v8
  have h9 : Sound p v8 := State.onLink_keeps h0'
  try clear_value v8
  extract_lets -merge -useContext -underBinder +onlyGivenNames v10
  have h11 : Sound p v10 := by
    refine each_keeps ?_ h9
    intro a12 a13 h14
    exact refuseLink_keeps h14
  try clear_value v10
  exact dropHeld_keeps h11

theorem otherDelivery_keeps {p} {x0} {x1} {x2} {x3} (h0' : Sound p x3) : Sound p (otherDelivery x0 x1 x2 x3) := by
  unfold otherDelivery
  extract_lets -merge -useContext -underBinder +onlyGivenNames v4
  try clear_value v4
  extract_lets -merge -useContext -underBinder +onlyGivenNames v5
  try clear_value v5
  refine ite_keeps (K := Sound p) (fun _ => ?_) (fun _ => ?_)
  · exact h0'
  · extract_lets -merge -useContext -underBinder +onlyGivenNames v6
    try clear_value v6
    extract_lets -merge -useContext -underBinder +onlyGivenNames v7
    have h8 : ∀ x9, Sound p x9 → Sound p (v7 x9) := by
      intro a10 h11
      try unfold v7
      exact State.onPort_keeps h11
    try clear_value v7
    refine ite_keeps (K := Sound p) (fun _ => ?_) (fun _ => ?_)
    · refine linkFailOnKey_keeps ?_
      exact faultEvent_keeps (h8 _ h0')
    · refine ite_keeps (K := Sound p) (fun _ => ?_) (fun _ => ?_)
      · exact linkFailOnKey_keeps (h8 _ h0')
      · refine ite_keeps (K := Sound p) (fun _ => ?_) (fun _ => ?_)
        · exact h0'
        · refine ite_keeps (K := Sound p) (fun _ => ?_) (fun _ => ?_)
          · exact linkFailOnKey_keeps (h8 _ h0')
          · split
            · exact h0'
            · extract_lets -merge -useContext -underBinder +onlyGivenNames v14
              have h15 : Sound p v14 := h8 _ (State.onPort_keeps h0')
              try clear_value v14
              refine ite_keeps (K := Sound p) (fun _ => ?_) (fun _ => ?_)
              · exact linkPump_keeps (retryHeld_keeps h15)
              · exact h15

theorem cutJob_keeps {p} {x0} {x1} {x2} {x3} (h0' : Sound p x3) : Sound p (cutJob x0 x1 x2 x3) := by
  unfold cutJob
  extract_lets -merge -useContext -underBinder +onlyGivenNames v4
  try clear_value v4
  extract_lets -merge -useContext -underBinder +onlyGivenNames v5
  have h6 : Sound p v5 := State.onLink_keeps h0'
  try clear_value v5
  extract_lets -merge -useContext -underBinder +onlyGivenNames v7
  have h8 : Sound p v7 := by
    refine each_keeps ?_ h6
    intro a9 a10 h11
    exact refuseLink_keeps h11
  try clear_value v7
  exact failTrackers_keeps (dropHeld_keeps h8)

theorem drainCut_keeps {p} {x0} {x1} {x2} (h0' : Sound p x2) : Sound p (drainCut x0 x1 x2) := by
  unfold drainCut
  refine ite_keeps (K := Sound p) (fun _ => ?_) (fun _ => ?_)
  · exact cutReqs_keeps h0'
  · refine ite_keeps (K := Sound p) (fun _ => ?_) (fun _ => ?_)
    · refine each_keeps ?_ h0'
      intro a3 a4 h5
      exact cutJob_keeps h5
    · exact h0'

theorem epochCut_keeps {p} {x0} {x1} (h0' : Sound p x1) : Sound p (epochCut x0 x1) := by
  unfold epochCut
  refine ite_keeps (K := Sound p) (fun _ => ?_) (fun _ => ?_)
  · exact h0'
  · refine ite_keeps (K := Sound p) (fun _ => ?_) (fun _ => ?_)
    · exact cutReqs_keeps h0'
    · refine ite_keeps (K := Sound p) (fun _ => ?_) (fun _ => ?_)
      · extract_lets -merge -useContext -underBinder +onlyGivenNames v2
        try clear_value v2
        extract_lets -merge -useContext -underBinder +onlyGivenNames v3
        try clear_value v3
        extract_lets -merge -useContext -underBinder +onlyGivenNames v4
        have h5 : Sound p v4 := State.onLink_keeps h0'
        try clear_value v4
        refine failTrackers_keeps ?_
        refine each_keeps ?_ h5
        intro a6 a7 h8
        exact refuseLink_keeps h8
      · exact h0'

theorem movePorts_keeps {p} {x0} {x1} {x2} (h0' : Sound p x2) : Sound p (movePorts x0 x1 x2) := by
  unfold movePorts
  extract_lets -merge -useContext -underBinder +onlyGivenNames v3
  try clear_value v3
  extract_lets -merge -useContext -underBinder +onlyGivenNames v4
  try clear_value v4
  extract_lets -merge -useContext -underBinder +onlyGivenNames v5
  have h6 : Sound p v5 := by
    refine each_keeps ?_ h0'
    intro a7 a8 h9
    exact putRecord_keeps h9
  try clear_value v5
  refine each_keeps ?_ h6
  intro a10 a11 h12
  exact State.onLink_keeps (closeBundles_keeps h12)

theorem bodyLinkJobConfig_keeps {p} {x0} {x1} {x2} {x3} (h0' : Sound p x3) : Sound p (bodyLinkJobConfig x0 x1 x2 x3) := by
  unfold bodyLinkJobConfig
  extract_lets -merge -useContext -underBinder +onlyGivenNames v4
  try clear_value v4
  extract_lets -merge -useContext -underBinder +onlyGivenNames v5
  try clear_value v5
  extract_lets -merge -useContext -underBinder +onlyGivenNames v6
  try clear_value v6
  refine ite_keeps (K := Sound p) (fun _ => ?_) (fun _ => ?_)
  · exact failCmd_keeps h0'
  · extract_lets -merge -useContext -underBinder +onlyGivenNames v7
    try clear_value v7
    extract_lets -merge -useContext -underBinder +onlyGivenNames v8
    have h9 : Sound p v8 := by
      refine each_keeps ?_ h0'
      intro a10 a11 h12
      exact onJob_keeps h12
    try clear_value v8
    refine done_keeps ?_
    exact movePorts_keeps (State.onDom_keeps h9)

theorem bodyArrivalOpen_keeps {p} {x0} {x1} {x2} {x3} (h0' : Sound p x3) : Sound p (bodyArrivalOpen x0 x1 x2 x3) := by
  unfold bodyArrivalOpen
  extract_lets -merge -useContext -underBinder +onlyGivenNames v4
  try clear_value v4
  extract_lets -merge -useContext -underBinder +onlyGivenNames v5
  try clear_value v5
  extract_lets -merge -useContext -underBinder +onlyGivenNames v6
  try clear_value v6
  extract_lets -merge -useContext -underBinder +onlyGivenNames v7
  try clear_value v7
  refine ite_keeps (K := Sound p) (fun _ => ?_) (fun _ => ?_)
  · exact failCmd_keeps h0'
  · refine ite_keeps (K := Sound p) (fun _ => ?_) (fun _ => ?_)
    · exact failCmd_keeps h0'
    · split
      · exact failCmd_keeps h0'
      · extract_lets -merge -useContext -underBinder +onlyGivenNames v10
        try clear_value v10
        refine done_keeps ?_
        refine State.onObj_keeps ?_
        exact Sound.of h0'.ctrs h0'.mem h0'.link h0'.keys h0'.parts h0'.objs h0'.ctxs h0'.queues h0'.fences h0'.accs (sorted_tset
            h0'.arrivals) h0'.users h0'.opTab h0'.doms h0'.migs h0'.rings h0'.profs h0'.pending

theorem freeArrival_keeps {p} {x0} {x1} (h0' : Sound p x1) : Sound p (freeArrival x0 x1) := by
  unfold freeArrival
  extract_lets -merge -useContext -underBinder +onlyGivenNames v2
  try clear_value v2
  exact Sound.of h0'.ctrs h0'.mem h0'.link h0'.keys h0'.parts (sorted_tmap h0'.objs) h0'.ctxs h0'.queues h0'.fences h0'.accs (sorted_tdel
      h0'.arrivals) h0'.users h0'.opTab h0'.doms h0'.migs h0'.rings h0'.profs h0'.pending

theorem bodyArrivalClose_keeps {p} {x0} {x1} {x2} {x3} (h0' : Sound p x3) : Sound p (bodyArrivalClose x0 x1 x2 x3) := by
  unfold bodyArrivalClose
  extract_lets -merge -useContext -underBinder +onlyGivenNames v4
  try clear_value v4
  extract_lets -merge -useContext -underBinder +onlyGivenNames v5
  try clear_value v5
  refine ite_keeps (K := Sound p) (fun _ => ?_) (fun _ => ?_)
  · exact failCmd_keeps h0'
  · exact done_keeps (freeArrival_keeps h0')

theorem keepSend_keeps {p} {x0} {x1} {x2} {x3} (h0' : Sound p x3) : Sound p (keepSend x0 x1 x2 x3) := by
  unfold keepSend
  extract_lets -merge -useContext -underBinder +onlyGivenNames v4
  try clear_value v4
  exact linkPump_keeps (State.onLink_keeps h0')

theorem settleCopy_keeps {p} {x0} {x1} (h0' : Sound p x1) : Sound p (settleCopy x0 x1) := by
  unfold settleCopy
  extract_lets -merge -useContext -underBinder +onlyGivenNames v2
  have h3 : ∀ x4 x5, Sound p x5 → Sound p (v2 x4 x5) := by
    intro a6 a7 h8
    try unfold v2
    exact Sound.of h8.ctrs h8.mem h8.link h8.keys h8.parts h8.objs h8.ctxs h8.queues h8.fences h8.accs h8.arrivals h8.users h8.opTab
        h8.doms h8.migs h8.rings h8.profs h8.pending
  try clear_value v2
  extract_lets -merge -useContext -underBinder +onlyGivenNames v9
  have h10 : ∀ x11, Sound p x11 → Sound p (v9 x11) := by
    intro a12 h13
    try unfold v9
    exact Sound.of h13.ctrs h13.mem h13.link h13.keys h13.parts h13.objs h13.ctxs h13.queues h13.fences h13.accs h13.arrivals h13.users
        h13.opTab h13.doms h13.migs h13.rings h13.profs h13.pending
  try clear_value v9
  split
  · exact h10 _ h0'
  · extract_lets -merge -useContext -underBinder +onlyGivenNames v16
    have h17 : ∀ x18, Sound p x18 → Sound p (v16 x18) := by
      intro a19 h20
      try unfold v16
      exact keepSend_keeps (h10 _ h20)
    try clear_value v16
    refine ite_keeps (K := Sound p) (fun _ => ?_) (fun _ => ?_)
    · exact h17 _ h0'
    · split
      · extract_lets -merge -useContext -underBinder +onlyGivenNames v22
        try clear_value v22
        exact keepSend_keeps (h3 _ _ h0')
      · exact h17 _ h0'
      · refine ite_keeps (K := Sound p) (fun _ => ?_) (fun _ => ?_)
        · exact h0'
        · split
          · exact h17 _ h0'
          · extract_lets -merge -useContext -underBinder +onlyGivenNames v28
            try clear_value v28
            exact emit_keeps (h3 _ _ h0')

theorem settleCopies_keeps {p} {x0} (h0' : Sound p x0) : Sound p (settleCopies x0) := by
  unfold settleCopies
  refine each_keeps ?_ h0'
  intro a1 a2 h3
  exact settleCopy_keeps h3

theorem bodyBulkCopy_keeps {p} {x0} {x1} {x2} {x3} (h0' : Sound p x3) : Sound p (bodyBulkCopy x0 x1 x2 x3) := by
  unfold bodyBulkCopy
  extract_lets -merge -useContext -underBinder +onlyGivenNames v4
  try clear_value v4
  extract_lets -merge -useContext -underBinder +onlyGivenNames v5
  try clear_value v5
  extract_lets -merge -useContext -underBinder +onlyGivenNames v6
  try clear_value v6
  extract_lets -merge -useContext -underBinder +onlyGivenNames v7
  try clear_value v7
  extract_lets -merge -useContext -underBinder +onlyGivenNames v8
  try clear_value v8
  extract_lets -merge -useContext -underBinder +onlyGivenNames v9
  try clear_value v9
  extract_lets -merge -useContext -underBinder +onlyGivenNames v10
  try clear_value v10
  extract_lets -merge -useContext -underBinder +onlyGivenNames v11
  try clear_value v11
  refine ite_keeps (K := Sound p) (fun _ => ?_) (fun _ => ?_)
  · exact failCmd_keeps h0'
  · refine ite_keeps (K := Sound p) (fun _ => ?_) (fun _ => ?_)
    · exact failCmd_keeps h0'
    · refine ite_keeps (K := Sound p) (fun _ => ?_) (fun _ => ?_)
      · exact failCmd_keeps h0'
      · extract_lets -merge -useContext -underBinder +onlyGivenNames v12
        try clear_value v12
        refine settleCopy_keeps ?_
        exact holdResult_keeps (Sound.of h0'.ctrs h0'.mem h0'.link h0'.keys h0'.parts h0'.objs h0'.ctxs h0'.queues h0'.fences h0'.accs
            h0'.arrivals h0'.users h0'.opTab h0'.doms h0'.migs h0'.rings h0'.profs h0'.pending)

theorem bodyCkptSend_keeps {p} {x0} {x1} {x2} {x3} (h0' : Sound p x3) : Sound p (bodyCkptSend x0 x1 x2 x3) := by
  unfold bodyCkptSend
  extract_lets -merge -useContext -underBinder +onlyGivenNames v4
  try clear_value v4
  extract_lets -merge -useContext -underBinder +onlyGivenNames v5
  try clear_value v5
  extract_lets -merge -useContext -underBinder +onlyGivenNames v6
  try clear_value v6
  extract_lets -merge -useContext -underBinder +onlyGivenNames v7
  try clear_value v7
  extract_lets -merge -useContext -underBinder +onlyGivenNames v8
  try clear_value v8
  extract_lets -merge -useContext -underBinder +onlyGivenNames v9
  try clear_value v9
  extract_lets -merge -useContext -underBinder +onlyGivenNames v10
  try clear_value v10
  extract_lets -merge -useContext -underBinder +onlyGivenNames v11
  try clear_value v11
  extract_lets -merge -useContext -underBinder +onlyGivenNames v12
  try clear_value v12
  extract_lets -merge -useContext -underBinder +onlyGivenNames v13
  try clear_value v13
  extract_lets -merge -useContext -underBinder +onlyGivenNames v14
  try clear_value v14
  extract_lets -merge -useContext -underBinder +onlyGivenNames v15
  try clear_value v15
  extract_lets -merge -useContext -underBinder +onlyGivenNames v16
  try clear_value v16
  extract_lets -merge -useContext -underBinder +onlyGivenNames v17
  try clear_value v17
  extract_lets -merge -useContext -underBinder +onlyGivenNames v18
  try clear_value v18
  refine ite_keeps (K := Sound p) (fun _ => ?_) (fun _ => ?_)
  · exact failCmd_keeps h0'
  · refine ite_keeps (K := Sound p) (fun _ => ?_) (fun _ => ?_)
    · exact failCmd_keeps h0'
    · refine ite_keeps (K := Sound p) (fun _ => ?_) (fun _ => ?_)
      · exact failCmd_keeps h0'
      · refine ite_keeps (K := Sound p) (fun _ => ?_) (fun _ => ?_)
        · exact failCmd_keeps h0'
        · refine ite_keeps (K := Sound p) (fun _ => ?_) (fun _ => ?_)
          · exact failCmd_keeps h0'
          · refine ite_keeps (K := Sound p) (fun _ => ?_) (fun _ => ?_)
            · exact failCmd_keeps h0'
            · refine withInput_keeps ?_ h0'
              intro a19 h20
              extract_lets -merge -useContext -underBinder +onlyGivenNames v21
              try clear_value v21
              extract_lets -merge -useContext -underBinder +onlyGivenNames v22
              have h23 : Sound p v22 := addMeter_keeps h20
              try clear_value v22
              extract_lets -merge -useContext -underBinder +onlyGivenNames v24
              try clear_value v24
              extract_lets -merge -useContext -underBinder +onlyGivenNames v25
              try clear_value v25
              split
              · extract_lets -merge -useContext -underBinder +onlyGivenNames v28
                try clear_value v28
                extract_lets -merge -useContext -underBinder +onlyGivenNames v29
                have h30 : Sound p v29 := State.onKey_keeps h23
                try clear_value v29
                extract_lets -merge -useContext -underBinder +onlyGivenNames v31
                have h32 : Sound p v31 := by
                  refine ite_keeps (K := Sound p) (fun _ => ?_) (fun _ => ?_)
                  · exact keyThreshold_keeps (State.onDom_keeps h30)
                  · exact h30
                try clear_value v31
                refine each_keeps ?_ (holdResult_keeps h32)
                intro a33 a34 h35
                exact keepSend_keeps h35

theorem bodyCkptRestore_keeps {p} {x0} {x1} {x2} {x3} (h0' : Sound p x3) : Sound p (bodyCkptRestore x0 x1 x2 x3) := by
  unfold bodyCkptRestore
  extract_lets -merge -useContext -underBinder +onlyGivenNames v4
  try clear_value v4
  extract_lets -merge -useContext -underBinder +onlyGivenNames v5
  try clear_value v5
  extract_lets -merge -useContext -underBinder +onlyGivenNames v6
  try clear_value v6
  extract_lets -merge -useContext -underBinder +onlyGivenNames v7
  try clear_value v7
  refine withInput_keeps ?_ h0'
  intro a8 h9
  extract_lets -merge -useContext -underBinder +onlyGivenNames v10
  try clear_value v10
  extract_lets -merge -useContext -underBinder +onlyGivenNames v11
  try clear_value v11
  extract_lets -merge -useContext -underBinder +onlyGivenNames v12
  try clear_value v12
  extract_lets -merge -useContext -underBinder +onlyGivenNames v13
  try clear_value v13
  extract_lets -merge -useContext -underBinder +onlyGivenNames v14
  try clear_value v14
  refine ite_keeps (K := Sound p) (fun _ => ?_) (fun _ => ?_)
  · exact failCmd_keeps h9
  · refine ite_keeps (K := Sound p) (fun _ => ?_) (fun _ => ?_)
    · exact failCmd_keeps h9
    · refine ite_keeps (K := Sound p) (fun _ => ?_) (fun _ => ?_)
      · exact failCmd_keeps h9
      · extract_lets -merge -useContext -underBinder +onlyGivenNames v15
        have h16 : Sound p v15 := addMeter_keeps h9
        try clear_value v15
        split
        · exact failCmd_keeps h16
        · extract_lets -merge -useContext -underBinder +onlyGivenNames v19
          try clear_value v19
          extract_lets -merge -useContext -underBinder +onlyGivenNames v20
          try clear_value v20
          refine ite_keeps (K := Sound p) (fun _ => ?_) (fun _ => ?_)
          · exact failCmd_keeps h16
          · extract_lets -merge -useContext -underBinder +onlyGivenNames v21
            have h22 : Sound p v21 := addMeter_keeps h16
            try clear_value v21
            refine done_keeps ?_
            refine each_keeps ?_ h22
            intro a23 a24 h25
            exact emit_keeps h25

theorem bodyParityRebuild_keeps {p} {x0} {x1} {x2} {x3} (h0' : Sound p x3) : Sound p (bodyParityRebuild x0 x1 x2 x3) := by
  unfold bodyParityRebuild
  extract_lets -merge -useContext -underBinder +onlyGivenNames v4
  try clear_value v4
  extract_lets -merge -useContext -underBinder +onlyGivenNames v5
  try clear_value v5
  extract_lets -merge -useContext -underBinder +onlyGivenNames v6
  try clear_value v6
  extract_lets -merge -useContext -underBinder +onlyGivenNames v7
  try clear_value v7
  extract_lets -merge -useContext -underBinder +onlyGivenNames v8
  try clear_value v8
  extract_lets -merge -useContext -underBinder +onlyGivenNames v9
  try clear_value v9
  extract_lets -merge -useContext -underBinder +onlyGivenNames v10
  try clear_value v10
  refine ite_keeps (K := Sound p) (fun _ => ?_) (fun _ => ?_)
  · exact failCmd_keeps h0'
  · refine withInput_keeps ?_ h0'
    intro a11 h12
    extract_lets -merge -useContext -underBinder +onlyGivenNames v13
    try clear_value v13
    extract_lets -merge -useContext -underBinder +onlyGivenNames v14
    try clear_value v14
    extract_lets -merge -useContext -underBinder +onlyGivenNames v15
    try clear_value v15
    extract_lets -merge -useContext -underBinder +onlyGivenNames v16
    try clear_value v16
    extract_lets -merge -useContext -underBinder +onlyGivenNames v17
    try clear_value v17
    extract_lets -merge -useContext -underBinder +onlyGivenNames v18
    try clear_value v18
    refine ite_keeps (K := Sound p) (fun _ => ?_) (fun _ => ?_)
    · exact failCmd_keeps h12
    · refine putObj_keeps ?_ (addMeter_keeps h12)
      intro a19 h20
      exact done_keeps h20

end Sys2Proof.Machine
end

