-- ==== Sys2Proof/Laws/SoundKeys.lean ====
section
/-! SUPPORT. Operations that keep the tables in order and the queue as it was (Laws/Sound.lean): the Key Register, the cipher commands, evidence and exchanges. -/

namespace Sys2Proof.Machine
open Sys2Proof Sys2Proof.Crypto

theorem freeObject_keeps {p} {x0} {x1} (h0' : Sound p x1) : Sound p (freeObject x0 x1) := by
  unfold freeObject
  extract_lets -merge -useContext -underBinder +onlyGivenNames v2
  try clear_value v2
  extract_lets -merge -useContext -underBinder +onlyGivenNames v3
  have h4 : Sound p v3 := by
    refine each_keeps ?_ h0'
    intro a5 a6 h7
    exact State.onMem_keeps h7
  try clear_value v3
  extract_lets -merge -useContext -underBinder +onlyGivenNames v8
  have h9 : Sound p v8 := by
    exact Sound.of h4.ctrs (sorted_tmap h4.mem) h4.link h4.keys h4.parts h4.objs h4.ctxs h4.queues h4.fences h4.accs h4.arrivals h4.users
        h4.opTab h4.doms h4.migs h4.rings h4.profs h4.pending
  try clear_value v8
  refine ite_keeps (K := Sound p) (fun _ => ?_) (fun _ => ?_)
  · exact State.onObj_keeps h9
  · exact State.onObj_keeps h9

theorem afterDestroy_keeps {p} {x0} {x1} (h0' : Sound p x1) : Sound p (afterDestroy x0 x1) := by
  unfold afterDestroy
  extract_lets -merge -useContext -underBinder +onlyGivenNames v2
  try clear_value v2
  refine ite_keeps (K := Sound p) (fun _ => ?_) (fun _ => ?_)
  · extract_lets -merge -useContext -underBinder +onlyGivenNames v3
    have h4 : Sound p v3 := by
      refine each_keeps ?_ h0'
      intro a5 a6 h7
      exact freeObject_keeps h7
    try clear_value v3
    extract_lets -merge -useContext -underBinder +onlyGivenNames v8
    have h9 : Sound p v8 := by
      exact Sound.of h4.ctrs (sorted_tmap h4.mem) h4.link h4.keys h4.parts h4.objs h4.ctxs h4.queues h4.fences h4.accs h4.arrivals h4.users
          h4.opTab h4.doms h4.migs h4.rings h4.profs h4.pending
    try clear_value v8
    extract_lets -merge -useContext -underBinder +onlyGivenNames v10
    have h11 : Sound p v10 := by
      refine each_keeps ?_ h9
      intro a12 a13 h14
      exact failCmd_keeps h14
    try clear_value v10
    refine each_keeps ?_ h11
    intro a15 a16 h17
    exact done_keeps h17
  · refine each_keeps ?_ h0'
    intro a18 a19 h20
    refine ite_keeps (K := Sound p) (fun _ => ?_) (fun _ => ?_)
    · exact done_keeps h20
    · exact h20

theorem startPurge_keeps {p} {x0} {x1} {x2} (h0' : Sound p x2) : Sound p (startPurge x0 x1 x2) := by
  unfold startPurge
  extract_lets -merge -useContext -underBinder +onlyGivenNames v3
  have h4 : Sound p v3 := State.onKey_keeps h0'
  try clear_value v3
  refine ite_keeps (K := Sound p) (fun _ => ?_) (fun _ => ?_)
  · exact afterDestroy_keeps (overwrite_keeps h4)
  · exact h4

theorem purgeConfirm_keeps {p} {x0} {x1} {x2} {x3} (h0' : Sound p x3) : Sound p (purgeConfirm x0 x1 x2 x3) := by
  unfold purgeConfirm
  extract_lets -merge -useContext -underBinder +onlyGivenNames v4
  try clear_value v4
  refine ite_keeps (K := Sound p) (fun _ => ?_) (fun _ => ?_)
  · exact h0'
  · extract_lets -merge -useContext -underBinder +onlyGivenNames v5
    have h6 : Sound p v5 := State.onPort_keeps h0'
    try clear_value v5
    extract_lets -merge -useContext -underBinder +onlyGivenNames v7
    have h8 : Sound p v7 := State.onKey_keeps h6
    try clear_value v7
    refine ite_keeps (K := Sound p) (fun _ => ?_) (fun _ => ?_)
    · exact afterDestroy_keeps (overwrite_keeps h8)
    · exact h8

theorem drainComplete_keeps {p} {x0} {x1} (h0' : Sound p x1) : Sound p (drainComplete x0 x1) := by
  unfold drainComplete
  extract_lets -merge -useContext -underBinder +onlyGivenNames v2
  try clear_value v2
  refine ite_keeps (K := Sound p) (fun _ => ?_) (fun _ => ?_)
  · exact startPurge_keeps h0'
  · exact h0'

theorem drainTimeout_keeps {p} {x0} {x1} (h0' : Sound p x1) : Sound p (drainTimeout x0 x1) := by
  unfold drainTimeout
  refine ite_keeps (K := Sound p) (fun _ => ?_) (fun _ => ?_)
  · refine startPurge_keeps ?_
    refine each_keeps ?_ h0'
    intro a2 a3 h4
    exact drainCut_keeps h4
  · exact h0'

theorem tryOldHalf_keeps {p} {x0} {x1} (h0' : Sound p x1) : Sound p (tryOldHalf x0 x1) := by
  unfold tryOldHalf
  extract_lets -merge -useContext -underBinder +onlyGivenNames v2
  try clear_value v2
  refine ite_keeps (K := Sound p) (fun _ => ?_) (fun _ => ?_)
  · exact startPurge_keeps h0'
  · exact h0'

theorem swapConfirm_keeps {p} {x0} {x1} {x2} (h0' : Sound p x2) : Sound p (swapConfirm x0 x1 x2) := by
  unfold swapConfirm
  extract_lets -merge -useContext -underBinder +onlyGivenNames v3
  try clear_value v3
  refine ite_keeps (K := Sound p) (fun _ => ?_) (fun _ => ?_)
  · exact h0'
  · exact tryOldHalf_keeps (State.onKey_keeps h0')

theorem faultAs_keeps {p} {x0} {x1} {x2} {x3} {x4} {x5} (h0' : Sound p x5) : Sound p (faultAs x0 x1 x2 x3 x4 x5) := by
  unfold faultAs
  exact raise_keeps (countFault_keeps h0')

theorem noiseFail_keeps {p} {x0} {x1} {x2} (h0' : Sound p x2) : Sound p (noiseFail x0 x1 x2) := by
  unfold noiseFail
  refine ite_keeps (K := Sound p) (fun _ => ?_) (fun _ => ?_)
  · extract_lets -merge -useContext -underBinder +onlyGivenNames v3
    try clear_value v3
    exact faultAs_keeps (Sound.of h0'.ctrs h0'.mem h0'.link h0'.keys h0'.parts h0'.objs h0'.ctxs h0'.queues h0'.fences h0'.accs
        h0'.arrivals h0'.users h0'.opTab h0'.doms h0'.migs h0'.rings h0'.profs h0'.pending)
  · exact h0'

theorem takeCond_keeps {p} {x0} {x1} (h0' : Sound p x1) : SoundR p (takeCond x0 x1) := by
  unfold takeCond
  refine SoundR.mk ?_
  exact Sound.of h0'.ctrs h0'.mem h0'.link h0'.keys h0'.parts h0'.objs h0'.ctxs h0'.queues h0'.fences h0'.accs h0'.arrivals h0'.users
      h0'.opTab h0'.doms h0'.migs h0'.rings h0'.profs h0'.pending

theorem reseed_keeps {p} {x0} {x1} (h0' : Sound p x1) : Sound p (reseed x0 x1) := by
  unfold reseed
  refine ite_keeps (K := Sound p) (fun _ => ?_) (fun _ => ?_)
  · exact h0'
  · split
    · rename_i m2 m3 heq
      have h4 : Sound p m3 := by
        refine SoundR.get heq ?_
        exact takeCond_keeps h0'
      extract_lets -merge -useContext -underBinder +onlyGivenNames v5
      try clear_value v5
      exact Sound.of h4.ctrs h4.mem h4.link h4.keys h4.parts h4.objs h4.ctxs h4.queues h4.fences h4.accs h4.arrivals h4.users h4.opTab
          h4.doms h4.migs h4.rings h4.profs h4.pending

theorem gatherNoise_keeps {p} {x0} (h0' : Sound p x0) : Sound p (gatherNoise x0) := by
  unfold gatherNoise
  extract_lets -merge -useContext -underBinder +onlyGivenNames v1
  try clear_value v1
  refine ite_keeps (K := Sound p) (fun _ => ?_) (fun _ => ?_)
  · exact h0'
  · extract_lets -merge -useContext -underBinder +onlyGivenNames v2
    try clear_value v2
    exact Sound.of h0'.ctrs h0'.mem h0'.link h0'.keys h0'.parts h0'.objs h0'.ctxs h0'.queues h0'.fences h0'.accs h0'.arrivals h0'.users
        h0'.opTab h0'.doms h0'.migs h0'.rings h0'.profs h0'.pending

theorem waitDraw_keeps {p} {x0} {x1} (h0' : Sound p x1) : Sound p (waitDraw x0 x1) := by
  unfold waitDraw
  exact Sound.of h0'.ctrs h0'.mem h0'.link h0'.keys h0'.parts h0'.objs h0'.ctxs h0'.queues h0'.fences h0'.accs h0'.arrivals h0'.users
      h0'.opTab h0'.doms h0'.migs h0'.rings h0'.profs h0'.pending

theorem drbgTimeout_keeps {p} {x0} {x1} {x2} (h0' : Sound p x2) : Sound p (drbgTimeout x0 x1 x2) := by
  unfold drbgTimeout
  split
  · exact h0'
  · split
    · refine ite_keeps (K := Sound p) (fun _ => ?_) (fun _ => ?_)
      · exact failCmd_keeps h0'
      · exact h0'
    · exact h0'

theorem takeKey_keeps {p} {x0} {x1} {x3} (h0' : (∀ x2, Sound p x2 → Sound p (x1 x2))) (h1' : Sound p x3) : Sound p (takeKey x0 x1 x3) := by
  unfold takeKey
  refine ite_keeps (K := Sound p) (fun _ => ?_) (fun _ => ?_)
  · exact failCmd_keeps (keyFails_keeps h1')
  · exact h0' _ h1'

theorem bodyKeyCreate_keeps {p} {x0} {x1} {x2} {x3} (h0' : Sound p x3) : Sound p (bodyKeyCreate x0 x1 x2 x3) := by
  unfold bodyKeyCreate
  extract_lets -merge -useContext -underBinder +onlyGivenNames v4
  try clear_value v4
  refine ite_keeps (K := Sound p) (fun _ => ?_) (fun _ => ?_)
  · exact failCmd_keeps h0'
  · split
    · exact failCmd_keeps h0'
    · refine ite_keeps (K := Sound p) (fun _ => ?_) (fun _ => ?_)
      · exact waitDraw_keeps h0'
      · split
        · rename_i m7 m8 heq
          have h9 : Sound p m8 := by
            refine SoundR.get heq ?_
            exact draw0_keeps h0'
          refine takeKey_keeps ?_ h9
          intro a10 h11
          extract_lets -merge -useContext -underBinder +onlyGivenNames v12
          have h13 : Sound p v12 := firstKey_keeps h11
          try clear_value v12
          exact done_keeps h13

theorem holdRef_keeps {p} {x0} {x1} {x2} (h0' : Sound p x2) : Sound p (holdRef x0 x1 x2) := by
  unfold holdRef
  exact Sound.of h0'.ctrs h0'.mem h0'.link h0'.keys h0'.parts h0'.objs h0'.ctxs h0'.queues h0'.fences h0'.accs h0'.arrivals h0'.users
      h0'.opTab h0'.doms h0'.migs h0'.rings h0'.profs h0'.pending

theorem bodyKeyRotate_keeps {p} {x0} {x1} {x2} {x3} (h0' : Sound p x3) : Sound p (bodyKeyRotate x0 x1 x2 x3) := by
  unfold bodyKeyRotate
  extract_lets -merge -useContext -underBinder +onlyGivenNames v4
  try clear_value v4
  extract_lets -merge -useContext -underBinder +onlyGivenNames v5
  try clear_value v5
  extract_lets -merge -useContext -underBinder +onlyGivenNames v6
  try clear_value v6
  refine ite_keeps (K := Sound p) (fun _ => ?_) (fun _ => ?_)
  · refine ite_keeps (K := Sound p) (fun _ => ?_) (fun _ => ?_)
    · exact failCmd_keeps h0'
    · split
      · exact failCmd_keeps h0'
      · refine ite_keeps (K := Sound p) (fun _ => ?_) (fun _ => ?_)
        · exact waitDraw_keeps h0'
        · extract_lets -merge -useContext -underBinder +onlyGivenNames v9
          have h10 : Sound p v9 := holdRef_keeps (holdResult_keeps h0')
          try clear_value v9
          refine ite_keeps (K := Sound p) (fun _ => ?_) (fun _ => ?_)
          · exact State.onObj_keeps h10
          · exact startRekey_keeps h10
  · refine ite_keeps (K := Sound p) (fun _ => ?_) (fun _ => ?_)
    · exact failCmd_keeps h0'
    · refine ite_keeps (K := Sound p) (fun _ => ?_) (fun _ => ?_)
      · exact failCmd_keeps h0'
      · refine ite_keeps (K := Sound p) (fun _ => ?_) (fun _ => ?_)
        · exact failCmd_keeps h0'
        · refine ite_keeps (K := Sound p) (fun _ => ?_) (fun _ => ?_)
          · exact waitDraw_keeps h0'
          · split
            · rename_i m11 m12 heq
              have h13 : Sound p m12 := by
                refine SoundR.get heq ?_
                exact draw0_keeps h0'
              refine takeKey_keeps ?_ h13
              intro a14 h15
              extract_lets -merge -useContext -underBinder +onlyGivenNames v16
              have h17 : Sound p v16 := commitSwap_keeps (State.onKey_keeps h15)
              try clear_value v16
              exact done_keeps h17

theorem bodyKeyRetirePrevious_keeps {p} {x0} {x1} {x2} {x3} (h0' : Sound p x3) : Sound p (bodyKeyRetirePrevious x0 x1 x2 x3) := by
  unfold bodyKeyRetirePrevious
  extract_lets -merge -useContext -underBinder +onlyGivenNames v4
  try clear_value v4
  refine ite_keeps (K := Sound p) (fun _ => ?_) (fun _ => ?_)
  · exact failCmd_keeps h0'
  · exact done_keeps (startPurge_keeps h0')

theorem bodyKeyDestroy_keeps {p} {x0} {x1} {x2} {x3} (h0' : Sound p x3) : Sound p (bodyKeyDestroy x0 x1 x2 x3) := by
  unfold bodyKeyDestroy
  extract_lets -merge -useContext -underBinder +onlyGivenNames v4
  try clear_value v4
  refine ite_keeps (K := Sound p) (fun _ => ?_) (fun _ => ?_)
  · exact failCmd_keeps h0'
  · refine ite_keeps (K := Sound p) (fun _ => ?_) (fun _ => ?_)
    · exact failCmd_keeps h0'
    · exact keepRunning_keeps (retireSlot_keeps h0')

theorem bodyKeyQuery_keeps {p} {x0} {x1} {x2} {x3} (h0' : Sound p x3) : Sound p (bodyKeyQuery x0 x1 x2 x3) := by
  unfold bodyKeyQuery
  extract_lets -merge -useContext -underBinder +onlyGivenNames v4
  try clear_value v4
  extract_lets -merge -useContext -underBinder +onlyGivenNames v5
  try clear_value v5
  extract_lets -merge -useContext -underBinder +onlyGivenNames v6
  try clear_value v6
  extract_lets -merge -useContext -underBinder +onlyGivenNames v7
  try clear_value v7
  refine ite_keeps (K := Sound p) (fun _ => ?_) (fun _ => ?_)
  · exact failCmd_keeps h0'
  · refine ite_keeps (K := Sound p) (fun _ => ?_) (fun _ => ?_)
    · refine ite_keeps (K := Sound p) (fun _ => ?_) (fun _ => ?_)
      · exact done_keeps h0'
      · exact failCmd_keeps h0'
    · refine ite_keeps (K := Sound p) (fun _ => ?_) (fun _ => ?_)
      · exact done_keeps h0'
      · exact failCmd_keeps h0'

theorem bodyKeyImport_keeps {p} {x0} {x1} {x2} {x3} (h0' : Sound p x3) : Sound p (bodyKeyImport x0 x1 x2 x3) := by
  unfold bodyKeyImport
  extract_lets -merge -useContext -underBinder +onlyGivenNames v4
  try clear_value v4
  extract_lets -merge -useContext -underBinder +onlyGivenNames v5
  try clear_value v5
  extract_lets -merge -useContext -underBinder +onlyGivenNames v6
  try clear_value v6
  refine ite_keeps (K := Sound p) (fun _ => ?_) (fun _ => ?_)
  · exact failCmd_keeps h0'
  · refine ite_keeps (K := Sound p) (fun _ => ?_) (fun _ => ?_)
    · exact failCmd_keeps h0'
    · refine readIn_keeps ?_ h0'
      intro a7 h8
      extract_lets -merge -useContext -underBinder +onlyGivenNames v9
      try clear_value v9
      split
      · exact failCmd_keeps h8
      · split
        · exact failCmd_keeps h8
        · refine takeKey_keeps ?_ h8
          intro a14 h15
          extract_lets -merge -useContext -underBinder +onlyGivenNames v16
          have h17 : Sound p v16 := firstKey_keeps h15
          try clear_value v16
          exact done_keeps h17

theorem bodyRandomGet_keeps {p} {x0} {x1} {x2} {x3} (h0' : Sound p x3) : Sound p (bodyRandomGet x0 x1 x2 x3) := by
  unfold bodyRandomGet
  extract_lets -merge -useContext -underBinder +onlyGivenNames v4
  try clear_value v4
  extract_lets -merge -useContext -underBinder +onlyGivenNames v5
  try clear_value v5
  extract_lets -merge -useContext -underBinder +onlyGivenNames v6
  try clear_value v6
  extract_lets -merge -useContext -underBinder +onlyGivenNames v7
  try clear_value v7
  extract_lets -merge -useContext -underBinder +onlyGivenNames v8
  try clear_value v8
  refine ite_keeps (K := Sound p) (fun _ => ?_) (fun _ => ?_)
  · exact failCmd_keeps h0'
  · refine ite_keeps (K := Sound p) (fun _ => ?_) (fun _ => ?_)
    · exact failCmd_keeps h0'
    · refine ite_keeps (K := Sound p) (fun _ => ?_) (fun _ => ?_)
      · exact waitDraw_keeps h0'
      · split
        · rename_i m9 m10 heq
          have h11 : Sound p m10 := by
            refine SoundR.get heq ?_
            exact drawBytes_keeps h0'
          exact done_keeps (writeOut_keeps h11)

theorem countInv_keeps {p} {x0} {x1} (h0' : Sound p x1) : Sound p (countInv x0 x1) := by
  unfold countInv
  extract_lets -merge -useContext -underBinder +onlyGivenNames v2
  have h3 : Sound p v2 := State.onKey_keeps h0'
  try clear_value v2
  refine ite_keeps (K := Sound p) (fun _ => ?_) (fun _ => ?_)
  · exact keyThreshold_keeps h3
  · exact h3

theorem startUser_keeps {p} {x0} {x1} {x2} {x3} {x4} {x5} {x6} (h0' : Sound p x6) : Sound p (startUser x0 x1 x2 x3 x4 x5 x6) := by
  unfold startUser
  extract_lets -merge -useContext -underBinder +onlyGivenNames v7
  try clear_value v7
  exact Sound.of h0'.ctrs h0'.mem h0'.link h0'.keys h0'.parts h0'.objs h0'.ctxs h0'.queues h0'.fences h0'.accs h0'.arrivals (sorted_tset
      h0'.users) (sorted_tset h0'.opTab) h0'.doms h0'.migs h0'.rings h0'.profs h0'.pending

theorem dropUser_keeps {p} {x0} {x1} (h0' : Sound p x1) : Sound p (dropUser x0 x1) := by
  unfold dropUser
  exact Sound.of h0'.ctrs h0'.mem h0'.link h0'.keys h0'.parts h0'.objs h0'.ctxs h0'.queues h0'.fences h0'.accs h0'.arrivals (sorted_tdel
      h0'.users) (sorted_tdel h0'.opTab) h0'.doms h0'.migs h0'.rings h0'.profs h0'.pending

theorem setUser_keeps {p} {x0} {x1} {x2} (h0' : Sound p x2) : Sound p (setUser x0 x1 x2) := by
  unfold setUser
  exact Sound.of h0'.ctrs h0'.mem h0'.link h0'.keys h0'.parts h0'.objs h0'.ctxs h0'.queues h0'.fences h0'.accs h0'.arrivals (sorted_tset
      h0'.users) h0'.opTab h0'.doms h0'.migs h0'.rings h0'.profs h0'.pending

theorem countBlocks_keeps {p} {x0} {x1} {x2} (h0' : Sound p x2) : Sound p (countBlocks x0 x1 x2) := by
  unfold countBlocks
  extract_lets -merge -useContext -underBinder +onlyGivenNames v3
  try clear_value v3
  refine bump_keeps ?_
  exact Sound.of h0'.ctrs h0'.mem h0'.link h0'.keys h0'.parts h0'.objs h0'.ctxs h0'.queues h0'.fences h0'.accs h0'.arrivals h0'.users
      h0'.opTab h0'.doms h0'.migs h0'.rings (sorted_tmap h0'.profs) h0'.pending

theorem bodyGcmSeal_keeps {p} {x0} {x1} {x2} {x3} (h0' : Sound p x3) : Sound p (bodyGcmSeal x0 x1 x2 x3) := by
  unfold bodyGcmSeal
  extract_lets -merge -useContext -underBinder +onlyGivenNames v4
  try clear_value v4
  extract_lets -merge -useContext -underBinder +onlyGivenNames v5
  try clear_value v5
  extract_lets -merge -useContext -underBinder +onlyGivenNames v6
  try clear_value v6
  extract_lets -merge -useContext -underBinder +onlyGivenNames v7
  try clear_value v7
  extract_lets -merge -useContext -underBinder +onlyGivenNames v8
  try clear_value v8
  extract_lets -merge -useContext -underBinder +onlyGivenNames v9
  try clear_value v9
  extract_lets -merge -useContext -underBinder +onlyGivenNames v10
  try clear_value v10
  extract_lets -merge -useContext -underBinder +onlyGivenNames v11
  try clear_value v11
  extract_lets -merge -useContext -underBinder +onlyGivenNames v12
  try clear_value v12
  extract_lets -merge -useContext -underBinder +onlyGivenNames v13
  try clear_value v13
  extract_lets -merge -useContext -underBinder +onlyGivenNames v14
  try clear_value v14
  extract_lets -merge -useContext -underBinder +onlyGivenNames v15
  try clear_value v15
  refine ite_keeps (K := Sound p) (fun _ => ?_) (fun _ => ?_)
  · exact failCmd_keeps h0'
  · refine ite_keeps (K := Sound p) (fun _ => ?_) (fun _ => ?_)
    · exact failCmd_keeps h0'
    · refine ite_keeps (K := Sound p) (fun _ => ?_) (fun _ => ?_)
      · exact failCmd_keeps h0'
      · refine ite_keeps (K := Sound p) (fun _ => ?_) (fun _ => ?_)
        · exact failCmd_keeps h0'
        · split
          · exact failCmd_keeps h0'
          · refine readIn_keeps ?_ h0'
            intro a18 h19
            refine ite_keeps (K := Sound p) (fun _ => ?_) (fun _ => ?_)
            · exact failCmd_keeps h19
            · extract_lets -merge -useContext -underBinder +onlyGivenNames v20
              try clear_value v20
              extract_lets -merge -useContext -underBinder +onlyGivenNames v21
              have h22 : Sound p v21 := by
                refine ite_keeps (K := Sound p) (fun _ => ?_) (fun _ => ?_)
                · exact countInv_keeps (startUser_keeps h19)
                · exact h19
              try clear_value v21
              extract_lets -merge -useContext -underBinder +onlyGivenNames v23
              try clear_value v23
              extract_lets -merge -useContext -underBinder +onlyGivenNames v24
              try clear_value v24
              extract_lets -merge -useContext -underBinder +onlyGivenNames w25 v26
              try clear_value v26 w25
              extract_lets -merge -useContext -underBinder +onlyGivenNames v27
              try clear_value v27
              extract_lets -merge -useContext -underBinder +onlyGivenNames w28 v29
              try clear_value v29 w28
              extract_lets -merge -useContext -underBinder +onlyGivenNames v30
              have h31 : Sound p v30 := by
                refine countBlocks_keeps ?_
                exact writeOut_keeps (setUser_keeps h22)
              try clear_value v30
              extract_lets -merge -useContext -underBinder +onlyGivenNames v32
              try clear_value v32
              refine done_keeps ?_
              refine ite_keeps (K := Sound p) (fun _ => ?_) (fun _ => ?_)
              · exact dropUser_keeps h31
              · exact h31

theorem bodyGcmUnseal_keeps {p} {x0} {x1} {x2} {x3} (h0' : Sound p x3) : Sound p (bodyGcmUnseal x0 x1 x2 x3) := by
  unfold bodyGcmUnseal
  extract_lets -merge -useContext -underBinder +onlyGivenNames v4
  try clear_value v4
  extract_lets -merge -useContext -underBinder +onlyGivenNames v5
  try clear_value v5
  extract_lets -merge -useContext -underBinder +onlyGivenNames v6
  try clear_value v6
  extract_lets -merge -useContext -underBinder +onlyGivenNames v7
  try clear_value v7
  extract_lets -merge -useContext -underBinder +onlyGivenNames v8
  try clear_value v8
  refine ite_keeps (K := Sound p) (fun _ => ?_) (fun _ => ?_)
  · exact failCmd_keeps h0'
  · refine ite_keeps (K := Sound p) (fun _ => ?_) (fun _ => ?_)
    · exact failCmd_keeps h0'
    · refine ite_keeps (K := Sound p) (fun _ => ?_) (fun _ => ?_)
      · exact failCmd_keeps h0'
      · split
        · exact failCmd_keeps h0'
        · refine readIn_keeps ?_ h0'
          intro a12 h13
          split
          · exact failCmd_keeps h13
          · refine putObj_keeps ?_ h13
            intro a16 h17
            exact done_keeps (countBlocks_keeps h17)

theorem bodyCtr_keeps {p} {x0} {x1} {x2} {x3} (h0' : Sound p x3) : Sound p (bodyCtr x0 x1 x2 x3) := by
  unfold bodyCtr
  extract_lets -merge -useContext -underBinder +onlyGivenNames v4
  try clear_value v4
  extract_lets -merge -useContext -underBinder +onlyGivenNames v5
  try clear_value v5
  extract_lets -merge -useContext -underBinder +onlyGivenNames v6
  try clear_value v6
  extract_lets -merge -useContext -underBinder +onlyGivenNames v7
  try clear_value v7
  extract_lets -merge -useContext -underBinder +onlyGivenNames v8
  try clear_value v8
  extract_lets -merge -useContext -underBinder +onlyGivenNames v9
  try clear_value v9
  extract_lets -merge -useContext -underBinder +onlyGivenNames v10
  try clear_value v10
  extract_lets -merge -useContext -underBinder +onlyGivenNames v11
  try clear_value v11
  extract_lets -merge -useContext -underBinder +onlyGivenNames v12
  try clear_value v12
  extract_lets -merge -useContext -underBinder +onlyGivenNames v13
  try clear_value v13
  extract_lets -merge -useContext -underBinder +onlyGivenNames v14
  try clear_value v14
  extract_lets -merge -useContext -underBinder +onlyGivenNames v15
  try clear_value v15
  extract_lets -merge -useContext -underBinder +onlyGivenNames v16
  try clear_value v16
  extract_lets -merge -useContext -underBinder +onlyGivenNames v17
  try clear_value v17
  refine ite_keeps (K := Sound p) (fun _ => ?_) (fun _ => ?_)
  · exact failCmd_keeps h0'
  · refine ite_keeps (K := Sound p) (fun _ => ?_) (fun _ => ?_)
    · exact failCmd_keeps h0'
    · refine ite_keeps (K := Sound p) (fun _ => ?_) (fun _ => ?_)
      · exact failCmd_keeps h0'
      · refine ite_keeps (K := Sound p) (fun _ => ?_) (fun _ => ?_)
        · exact failCmd_keeps h0'
        · split
          · exact failCmd_keeps h0'
          · refine ite_keeps (K := Sound p) (fun _ => ?_) (fun _ => ?_)
            · exact failCmd_keeps h0'
            · refine readIn_keeps ?_ h0'
              intro a21 h22
              refine ite_keeps (K := Sound p) (fun _ => ?_) (fun _ => ?_)
              · exact failCmd_keeps h22
              · extract_lets -merge -useContext -underBinder +onlyGivenNames v23
                try clear_value v23
                extract_lets -merge -useContext -underBinder +onlyGivenNames v24
                have h25 : Sound p v24 := by
                  refine ite_keeps (K := Sound p) (fun _ => ?_) (fun _ => ?_)
                  · exact startUser_keeps h22
                  · exact h22
                try clear_value v24
                extract_lets -merge -useContext -underBinder +onlyGivenNames v26
                have h27 : Sound p v26 := by
                  refine ite_keeps (K := Sound p) (fun _ => ?_) (fun _ => ?_)
                  · exact countInv_keeps h25
                  · exact h25
                try clear_value v26
                extract_lets -merge -useContext -underBinder +onlyGivenNames v28
                try clear_value v28
                extract_lets -merge -useContext -underBinder +onlyGivenNames v29
                try clear_value v29
                extract_lets -merge -useContext -underBinder +onlyGivenNames v30
                try clear_value v30
                extract_lets -merge -useContext -underBinder +onlyGivenNames v31
                have h32 : Sound p v31 := by
                  refine countBlocks_keeps ?_
                  exact writeOut_keeps (setUser_keeps h27)
                try clear_value v31
                refine done_keeps ?_
                refine ite_keeps (K := Sound p) (fun _ => ?_) (fun _ => ?_)
                · exact dropUser_keeps h32
                · exact h32

theorem bodyCmac_keeps {p} {x0} {x1} {x2} {x3} (h0' : Sound p x3) : Sound p (bodyCmac x0 x1 x2 x3) := by
  unfold bodyCmac
  extract_lets -merge -useContext -underBinder +onlyGivenNames v4
  try clear_value v4
  extract_lets -merge -useContext -underBinder +onlyGivenNames v5
  try clear_value v5
  extract_lets -merge -useContext -underBinder +onlyGivenNames v6
  try clear_value v6
  extract_lets -merge -useContext -underBinder +onlyGivenNames v7
  try clear_value v7
  extract_lets -merge -useContext -underBinder +onlyGivenNames v8
  try clear_value v8
  extract_lets -merge -useContext -underBinder +onlyGivenNames v9
  try clear_value v9
  extract_lets -merge -useContext -underBinder +onlyGivenNames v10
  try clear_value v10
  extract_lets -merge -useContext -underBinder +onlyGivenNames v11
  try clear_value v11
  extract_lets -merge -useContext -underBinder +onlyGivenNames v12
  try clear_value v12
  refine ite_keeps (K := Sound p) (fun _ => ?_) (fun _ => ?_)
  · exact failCmd_keeps h0'
  · refine ite_keeps (K := Sound p) (fun _ => ?_) (fun _ => ?_)
    · exact failCmd_keeps h0'
    · refine ite_keeps (K := Sound p) (fun _ => ?_) (fun _ => ?_)
      · exact failCmd_keeps h0'
      · split
        · exact failCmd_keeps h0'
        · refine readIn_keeps ?_ h0'
          intro a15 h16
          extract_lets -merge -useContext -underBinder +onlyGivenNames v17
          have h18 : Sound p v17 := by
            refine ite_keeps (K := Sound p) (fun _ => ?_) (fun _ => ?_)
            · exact startUser_keeps h16
            · exact h16
          try clear_value v17
          extract_lets -merge -useContext -underBinder +onlyGivenNames v19
          try clear_value v19
          extract_lets -merge -useContext -underBinder +onlyGivenNames v20
          try clear_value v20
          extract_lets -merge -useContext -underBinder +onlyGivenNames w21 v22
          try clear_value v22 w21
          extract_lets -merge -useContext -underBinder +onlyGivenNames v23
          have h24 : Sound p v23 := countBlocks_keeps (setUser_keeps h18)
          try clear_value v23
          extract_lets -merge -useContext -underBinder +onlyGivenNames v25
          try clear_value v25
          extract_lets -merge -useContext -underBinder +onlyGivenNames v26
          try clear_value v26
          refine ite_keeps (K := Sound p) (fun _ => ?_) (fun _ => ?_)
          · extract_lets -merge -useContext -underBinder +onlyGivenNames v27
            have h28 : Sound p v27 := dropUser_keeps h24
            try clear_value v27
            refine ite_keeps (K := Sound p) (fun _ => ?_) (fun _ => ?_)
            · exact failCmd_keeps h28
            · exact done_keeps h28
          · exact done_keeps h24

theorem bodyWrap_keeps {p} {x0} {x1} {x2} {x3} (h0' : Sound p x3) : Sound p (bodyWrap x0 x1 x2 x3) := by
  unfold bodyWrap
  extract_lets -merge -useContext -underBinder +onlyGivenNames v4
  try clear_value v4
  extract_lets -merge -useContext -underBinder +onlyGivenNames v5
  try clear_value v5
  extract_lets -merge -useContext -underBinder +onlyGivenNames v6
  try clear_value v6
  extract_lets -merge -useContext -underBinder +onlyGivenNames v7
  try clear_value v7
  extract_lets -merge -useContext -underBinder +onlyGivenNames v8
  try clear_value v8
  refine ite_keeps (K := Sound p) (fun _ => ?_) (fun _ => ?_)
  · exact failCmd_keeps h0'
  · refine ite_keeps (K := Sound p) (fun _ => ?_) (fun _ => ?_)
    · exact failCmd_keeps h0'
    · refine ite_keeps (K := Sound p) (fun _ => ?_) (fun _ => ?_)
      · exact failCmd_keeps h0'
      · refine ite_keeps (K := Sound p) (fun _ => ?_) (fun _ => ?_)
        · exact failCmd_keeps h0'
        · refine readIn_keeps ?_ h0'
          intro a9 h10
          extract_lets -merge -useContext -underBinder +onlyGivenNames v11
          try clear_value v11
          refine putObj_keeps ?_ h10
          intro a12 h13
          refine done_keeps ?_
          exact countBlocks_keeps (countInv_keeps h13)

theorem bodyUnwrap_keeps {p} {x0} {x1} {x2} {x3} (h0' : Sound p x3) : Sound p (bodyUnwrap x0 x1 x2 x3) := by
  unfold bodyUnwrap
  extract_lets -merge -useContext -underBinder +onlyGivenNames v4
  try clear_value v4
  extract_lets -merge -useContext -underBinder +onlyGivenNames v5
  try clear_value v5
  extract_lets -merge -useContext -underBinder +onlyGivenNames v6
  try clear_value v6
  extract_lets -merge -useContext -underBinder +onlyGivenNames v7
  try clear_value v7
  extract_lets -merge -useContext -underBinder +onlyGivenNames v8
  try clear_value v8
  extract_lets -merge -useContext -underBinder +onlyGivenNames v9
  try clear_value v9
  refine ite_keeps (K := Sound p) (fun _ => ?_) (fun _ => ?_)
  · exact failCmd_keeps h0'
  · refine ite_keeps (K := Sound p) (fun _ => ?_) (fun _ => ?_)
    · exact failCmd_keeps h0'
    · refine ite_keeps (K := Sound p) (fun _ => ?_) (fun _ => ?_)
      · exact failCmd_keeps h0'
      · refine readIn_keeps ?_ h0'
        intro a10 h11
        split
        · exact failCmd_keeps h11
        · refine putObj_keeps ?_ h11
          intro a14 h15
          exact done_keeps (countBlocks_keeps h15)

theorem bodyStateSave_keeps {p} {x0} {x1} {x2} {x3} (h0' : Sound p x3) : Sound p (bodyStateSave x0 x1 x2 x3) := by
  unfold bodyStateSave
  extract_lets -merge -useContext -underBinder +onlyGivenNames v4
  try clear_value v4
  extract_lets -merge -useContext -underBinder +onlyGivenNames v5
  try clear_value v5
  refine ite_keeps (K := Sound p) (fun _ => ?_) (fun _ => ?_)
  · exact failCmd_keeps h0'
  · refine ite_keeps (K := Sound p) (fun _ => ?_) (fun _ => ?_)
    · exact waitDraw_keeps h0'
    · extract_lets -merge -useContext -underBinder +onlyGivenNames v6
      try clear_value v6
      extract_lets -merge -useContext -underBinder +onlyGivenNames v7
      try clear_value v7
      refine putObj_keeps ?_ h0'
      intro a8 h9
      refine done_keeps ?_
      exact Sound.of h9.ctrs h9.mem h9.link h9.keys h9.parts h9.objs h9.ctxs h9.queues h9.fences h9.accs h9.arrivals (sorted_tdel h9.users)
          (sorted_tset h9.opTab) h9.doms h9.migs h9.rings h9.profs h9.pending

theorem bodyStateRestore_keeps {p} {x0} {x1} {x2} {x3} (h0' : Sound p x3) : Sound p (bodyStateRestore x0 x1 x2 x3) := by
  unfold bodyStateRestore
  refine readIn_keeps ?_ h0'
  intro a4 h5
  extract_lets -merge -useContext -underBinder +onlyGivenNames v6
  try clear_value v6
  extract_lets -merge -useContext -underBinder +onlyGivenNames v7
  try clear_value v7
  extract_lets -merge -useContext -underBinder +onlyGivenNames v8
  try clear_value v8
  extract_lets -merge -useContext -underBinder +onlyGivenNames v9
  try clear_value v9
  extract_lets -merge -useContext -underBinder +onlyGivenNames v10
  try clear_value v10
  extract_lets -merge -useContext -underBinder +onlyGivenNames v11
  try clear_value v11
  extract_lets -merge -useContext -underBinder +onlyGivenNames v12
  try clear_value v12
  extract_lets -merge -useContext -underBinder +onlyGivenNames v13
  try clear_value v13
  extract_lets -merge -useContext -underBinder +onlyGivenNames v14
  try clear_value v14
  extract_lets -merge -useContext -underBinder +onlyGivenNames v15
  try clear_value v15
  refine ite_keeps (K := Sound p) (fun _ => ?_) (fun _ => ?_)
  · exact failCmd_keeps h5
  · refine ite_keeps (K := Sound p) (fun _ => ?_) (fun _ => ?_)
    · exact failCmd_keeps h5
    · refine ite_keeps (K := Sound p) (fun _ => ?_) (fun _ => ?_)
      · exact failCmd_keeps h5
      · split
        · exact failCmd_keeps h5
        · refine ite_keeps (K := Sound p) (fun _ => ?_) (fun _ => ?_)
          · exact failCmd_keeps h5
          · refine ite_keeps (K := Sound p) (fun _ => ?_) (fun _ => ?_)
            · exact failCmd_keeps h5
            · refine ite_keeps (K := Sound p) (fun _ => ?_) (fun _ => ?_)
              · exact failCmd_keeps h5
              · split
                · exact failCmd_keeps h5
                · extract_lets -merge -useContext -underBinder +onlyGivenNames v20
                  try clear_value v20
                  extract_lets -merge -useContext -underBinder +onlyGivenNames v21
                  try clear_value v21
                  extract_lets -merge -useContext -underBinder +onlyGivenNames v22
                  try clear_value v22
                  refine done_keeps ?_
                  exact Sound.of h5.ctrs h5.mem h5.link h5.keys h5.parts h5.objs h5.ctxs h5.queues h5.fences h5.accs h5.arrivals
                      (sorted_tset h5.users) (sorted_tset h5.opTab) h5.doms h5.migs h5.rings h5.profs h5.pending

theorem cancelOps_keeps {p} {x0} {x1} (h0' : Sound p x1) : Sound p (cancelOps x0 x1) := by
  unfold cancelOps
  extract_lets -merge -useContext -underBinder +onlyGivenNames v2
  try clear_value v2
  exact Sound.of h0'.ctrs h0'.mem h0'.link h0'.keys h0'.parts h0'.objs h0'.ctxs h0'.queues h0'.fences h0'.accs h0'.arrivals (sorted_filter
      h0'.users) (sorted_filter h0'.opTab) h0'.doms h0'.migs h0'.rings h0'.profs h0'.pending

theorem bodyOpCancel_keeps {p} {x0} {x1} {x2} {x3} (h0' : Sound p x3) : Sound p (bodyOpCancel x0 x1 x2 x3) := by
  unfold bodyOpCancel
  extract_lets -merge -useContext -underBinder +onlyGivenNames v4
  try clear_value v4
  split
  · exact failCmd_keeps h0'
  · refine ite_keeps (K := Sound p) (fun _ => ?_) (fun _ => ?_)
    · exact failCmd_keeps h0'
    · exact done_keeps (cancelOps_keeps h0')

theorem signDual_keeps {p} {x0} {x1} {x2} (h0' : Sound p x2) : SoundR p (signDual x0 x1 x2) := by
  unfold signDual
  split
  · rename_i m3 m4 heq
    have h5 : Sound p m4 := by
      refine SoundR.get heq ?_
      exact drawBytes_keeps h0'
    split
    · rename_i m6 m7 heq
      have h8 : Sound p m7 := by
        refine SoundR.get heq ?_
        exact drawBytes_keeps h5
      refine SoundR.mk ?_
      exact h8

theorem zeler_keeps {p} {x0} {x1} {x2} (h0' : Sound p x2) : SoundR p (zeler x0 x1 x2) := by
  unfold zeler
  split
  · rename_i m3 m4 heq
    have h5 : Sound p m4 := by
      refine SoundR.get heq ?_
      exact signDual_keeps (scratchOut_keeps h0')
    refine SoundR.mk ?_
    exact h5

theorem keepCas_keeps {p} {x0} {x1} (h0' : Sound p x1) : Sound p (keepCas x0 x1) := by
  unfold keepCas
  split
  · extract_lets -merge -useContext -underBinder +onlyGivenNames v5
    try clear_value v5
    refine ite_keeps (K := Sound p) (fun _ => ?_) (fun _ => ?_)
    · exact Sound.of h0'.ctrs h0'.mem h0'.link h0'.keys h0'.parts h0'.objs h0'.ctxs h0'.queues h0'.fences h0'.accs h0'.arrivals h0'.users
          h0'.opTab h0'.doms h0'.migs h0'.rings h0'.profs h0'.pending
    · exact h0'
  · exact h0'

theorem bodyEvidenceGet_keeps {p} {x0} {x1} {x2} {x3} (h0' : Sound p x3) : Sound p (bodyEvidenceGet x0 x1 x2 x3) := by
  unfold bodyEvidenceGet
  extract_lets -merge -useContext -underBinder +onlyGivenNames v4
  try clear_value v4
  extract_lets -merge -useContext -underBinder +onlyGivenNames v5
  try clear_value v5
  extract_lets -merge -useContext -underBinder +onlyGivenNames v6
  try clear_value v6
  extract_lets -merge -useContext -underBinder +onlyGivenNames v7
  try clear_value v7
  refine ite_keeps (K := Sound p) (fun _ => ?_) (fun _ => ?_)
  · exact failCmd_keeps h0'
  · refine ite_keeps (K := Sound p) (fun _ => ?_) (fun _ => ?_)
    · exact failCmd_keeps h0'
    · refine ite_keeps (K := Sound p) (fun _ => ?_) (fun _ => ?_)
      · exact waitDraw_keeps h0'
      · split
        · rename_i m8 m9 heq
          have h10 : Sound p m9 := by
            refine SoundR.get heq ?_
            exact zeler_keeps h0'
          refine putObj_keeps ?_ h10
          intro a11 h12
          exact done_keeps h12

theorem bodyIdentityGet_keeps {p} {x0} {x1} {x2} {x3} (h0' : Sound p x3) : Sound p (bodyIdentityGet x0 x1 x2 x3) := by
  unfold bodyIdentityGet
  extract_lets -merge -useContext -underBinder +onlyGivenNames v4
  try clear_value v4
  extract_lets -merge -useContext -underBinder +onlyGivenNames v5
  try clear_value v5
  refine putObj_keeps ?_ h0'
  intro a6 h7
  exact done_keeps h7

theorem putOut_keeps {p} {x0} {x1} {x2} {x3} {x4} (h0' : Sound p x4) : SoundO p (putOut x0 x1 x2 x3 x4) := by
  unfold putOut
  extract_lets -merge -useContext -underBinder +onlyGivenNames v5
  try clear_value v5
  refine Option.map_keeps ?_ (ringPut_keeps h0')
  intro a6 h7
  exact raiseEvent_keeps h7

theorem outDom_keeps {p} {x0} {x1} {x2} (h0' : Sound p x2) : Sound p (outDom x0 x1 x2) := by
  unfold outDom
  extract_lets -merge -useContext -underBinder +onlyGivenNames v3
  try clear_value v3
  extract_lets -merge -useContext -underBinder +onlyGivenNames v4
  have h5 : Sound p v4 := State.onDom_keeps h0'
  try clear_value v4
  refine ite_keeps (K := Sound p) (fun _ => ?_) (fun _ => ?_)
  · exact Option.getD_keeps (putOut_keeps h0') h5
  · exact h5

theorem outMig_keeps {p} {x0} {x1} {x2} (h0' : Sound p x2) : Sound p (outMig x0 x1 x2) := by
  unfold outMig
  extract_lets -merge -useContext -underBinder +onlyGivenNames v3
  try clear_value v3
  extract_lets -merge -useContext -underBinder +onlyGivenNames v4
  have h5 : Sound p v4 := by
    exact Sound.of h0'.ctrs h0'.mem h0'.link h0'.keys h0'.parts h0'.objs h0'.ctxs h0'.queues h0'.fences h0'.accs h0'.arrivals h0'.users
        h0'.opTab h0'.doms (sorted_tupd h0'.migs) h0'.rings h0'.profs h0'.pending
  try clear_value v4
  refine ite_keeps (K := Sound p) (fun _ => ?_) (fun _ => ?_)
  · exact Option.getD_keeps (putOut_keeps h0') h5
  · exact h5

theorem sendMail_keeps {p} {x0} {x1} {x2} {x3} {x4} (h0' : Sound p x4) : Sound p (sendMail x0 x1 x2 x3 x4) := by
  unfold sendMail
  extract_lets -merge -useContext -underBinder +onlyGivenNames v5
  try clear_value v5
  extract_lets -merge -useContext -underBinder +onlyGivenNames v6
  try clear_value v6
  extract_lets -merge -useContext -underBinder +onlyGivenNames v7
  try clear_value v7
  extract_lets -merge -useContext -underBinder +onlyGivenNames v8
  have h9 : Sound p v8 := State.onDom_keeps h0'
  try clear_value v8
  extract_lets -merge -useContext -underBinder +onlyGivenNames v10
  have h11 : Sound p v10 := by
    refine each_keeps ?_ h9
    intro a12 a13 h14
    exact emit_keeps h14
  try clear_value v10
  exact keepSend_keeps h11

theorem mailAll_keeps {p} {x0} {x1} {x2} {x3} {x4} (h0' : Sound p x4) : Sound p (mailAll x0 x1 x2 x3 x4) := by
  unfold mailAll
  refine each_keeps ?_ h0'
  intro a5 a6 h7
  exact sendMail_keeps h7

theorem setMember_keeps {p} {x0} {x1} {x2} {x3} (h0' : Sound p x3) : Sound p (setMember x0 x1 x2 x3) := by
  unfold setMember
  exact State.onDom_keeps h0'

theorem syncDeputy_keeps {p} {x0} {x1} {x2} (h0' : Sound p x2) : Sound p (syncDeputy x0 x1 x2) := by
  unfold syncDeputy
  extract_lets -merge -useContext -underBinder +onlyGivenNames v3
  try clear_value v3
  extract_lets -merge -useContext -underBinder +onlyGivenNames v4
  try clear_value v4
  refine ite_keeps (K := Sound p) (fun _ => ?_) (fun _ => ?_)
  · exact h0'
  · exact sendMail_keeps h0'

theorem noteGen_keeps {p} {x0} {x1} {x2} {x3} (h0' : Sound p x3) : Sound p (noteGen x0 x1 x2 x3) := by
  unfold noteGen
  extract_lets -merge -useContext -underBinder +onlyGivenNames v4
  try clear_value v4
  refine ite_keeps (K := Sound p) (fun _ => ?_) (fun _ => ?_)
  · extract_lets -merge -useContext -underBinder +onlyGivenNames v5
    have h6 : Sound p v5 := State.onDom_keeps (setMember_keeps h0')
    try clear_value v5
    exact syncDeputy_keeps h6
  · exact h0'

theorem withMail_keeps {p} {x0} {x1} {x2} {x3} {x4} {x8} (h0' : (∀ x5 x6 x7, Sound p x7 → Sound p (x4 x5 x6 x7))) (h1' : Sound p x8) :
    Sound p (withMail x0 x1 x2 x3 x4 x8) := by
  unfold withMail
  extract_lets -merge -useContext -underBinder +onlyGivenNames v9
  try clear_value v9
  extract_lets -merge -useContext -underBinder +onlyGivenNames v10
  try clear_value v10
  extract_lets -merge -useContext -underBinder +onlyGivenNames v11
  try clear_value v11
  refine ite_keeps (K := Sound p) (fun _ => ?_) (fun _ => ?_)
  · exact h1'
  · extract_lets -merge -useContext -underBinder +onlyGivenNames v12
    try clear_value v12
    extract_lets -merge -useContext -underBinder +onlyGivenNames v13
    try clear_value v13
    extract_lets -merge -useContext -underBinder +onlyGivenNames v14
    try clear_value v14
    refine ite_keeps (K := Sound p) (fun _ => ?_) (fun _ => ?_)
    · exact State.onDom_keeps h1'
    · refine ite_keeps (K := Sound p) (fun _ => ?_) (fun _ => ?_)
      · exact State.onDom_keeps h1'
      · extract_lets -merge -useContext -underBinder +onlyGivenNames v15
        try clear_value v15
        extract_lets -merge -useContext -underBinder +onlyGivenNames v16
        have h17 : Sound p v16 := State.onDom_keeps h1'
        try clear_value v16
        refine ite_keeps (K := Sound p) (fun _ => ?_) (fun _ => ?_)
        · exact h0' _ _ _ (noteGen_keeps h17)
        · exact h17

theorem p384Key_keeps {p} {x0} (h0' : Sound p x0) : SoundR p (p384Key x0) := by
  unfold p384Key
  split
  · rename_i m1 m2 heq
    have h3 : Sound p m2 := by
      refine SoundR.get heq ?_
      exact draw0_keeps h0'
    split
    · rename_i m4 m5 heq
      have h6 : Sound p m5 := by
        refine SoundR.get heq ?_
        exact draw0_keeps h3
      refine SoundR.mk ?_
      exact h6

theorem makeOffer_keeps {p} {x0} {x1} {x2} {x3} {x4} {x5} {x6} {x7} (h0' : Sound p x7) : SoundR p (makeOffer x0 x1 x2 x3 x4 x5 x6 x7) := by
  unfold makeOffer
  split
  · rename_i m8 m9 heq
    have h10 : Sound p m9 := by
      refine SoundR.get heq ?_
      exact draw0_keeps h0'
    split
    · rename_i m11 m12 heq
      have h13 : Sound p m12 := by
        refine SoundR.get heq ?_
        exact draw0_keeps h10
      extract_lets -merge -useContext -underBinder +onlyGivenNames v14
      try clear_value v14
      split
      · rename_i m15 m16 heq
        have h17 : Sound p m16 := by
          refine SoundR.get heq ?_
          exact p384Key_keeps h13
        split
        · rename_i m18 m19 heq
          have h20 : Sound p m19 := by
            refine SoundR.get heq ?_
            exact drawBytes_keeps h17
          split
          · rename_i m21 m22 heq
            have h23 : Sound p m22 := by
              refine SoundR.get heq ?_
              exact drawBytes_keeps h20
            extract_lets -merge -useContext -underBinder +onlyGivenNames v24
            try clear_value v24
            refine SoundR.mk ?_
            exact h23

theorem makeReply_keeps {p} {x0} {x1} {x2} {x3} {x4} {x5} {x6} {x7} (h0' : Sound p x7) : SoundR p (makeReply x0 x1 x2 x3 x4 x5 x6 x7) := by
  unfold makeReply
  split
  · rename_i m8 m9 heq
    have h10 : Sound p m9 := by
      refine SoundR.get heq ?_
      exact drawBytes_keeps h0'
    split
    · rename_i m11 m12 heq
      have h13 : Sound p m12 := by
        refine SoundR.get heq ?_
        exact p384Key_keeps h10
      split
      · rename_i m14 m15 heq
        have h16 : Sound p m15 := by
          refine SoundR.get heq ?_
          exact draw0_keeps h13
        split
        · split
          · rename_i m19 m20 heq
            have h21 : Sound p m20 := by
              refine SoundR.get heq ?_
              exact zeler_keeps h16
            extract_lets -merge -useContext -underBinder +onlyGivenNames v22
            try clear_value v22
            extract_lets -merge -useContext -underBinder +onlyGivenNames v23
            try clear_value v23
            refine SoundR.mk ?_
            exact h21

theorem messageDone_keeps {p} {x0} {x1} {x2} (h0' : Sound p x2) : Sound p (messageDone x0 x1 x2) := by
  unfold messageDone
  split
  · exact done_keeps h0'
  · exact h0'

theorem messageFail_keeps {p} {x0} {x1} (h0' : Sound p x1) : Sound p (messageFail x0 x1) := by
  unfold messageFail
  split
  · exact failCmd_keeps h0'
  · exact h0'

theorem refusalEvent_keeps {p} {x0} {x1} {x2} {x3} (h0' : Sound p x3) : Sound p (refusalEvent x0 x1 x2 x3) := by
  unfold refusalEvent
  exact raiseEvent_keeps h0'

theorem messageWaits_keeps {p} {x0} {x1} (h0' : Sound p x1) : Sound p (messageWaits x0 x1) := by
  unfold messageWaits
  split
  · refine ite_keeps (K := Sound p) (fun _ => ?_) (fun _ => ?_)
    · exact h0'
    · exact Sound.of h0'.ctrs h0'.mem h0'.link h0'.keys h0'.parts h0'.objs h0'.ctxs h0'.queues h0'.fences h0'.accs h0'.arrivals h0'.users
          h0'.opTab h0'.doms h0'.migs h0'.rings h0'.profs h0'.pending
  · exact h0'

end Sys2Proof.Machine
end

