-- ==== Sys2Proof/Laws/SoundDomain.lean ====
section
/-! SUPPORT. Operations that keep the tables in order and the queue as it was (Laws/Sound.lean): handoffs, rotations, admission and domains. -/

namespace Sys2Proof.Machine
open Sys2Proof Sys2Proof.Crypto

theorem retireObject_keeps {p} {x0} {x1} (h0' : Sound p x1) : Sound p (retireObject x0 x1) := by
  unfold retireObject
  extract_lets -merge -useContext -underBinder +onlyGivenNames v2
  try clear_value v2
  refine ite_keeps (K := Sound p) (fun _ => ?_) (fun _ => ?_)
  · exact h0'
  · refine ite_keeps (K := Sound p) (fun _ => ?_) (fun _ => ?_)
    · exact issue_keeps (State.onObj_keeps h0')
    · exact retireSlot_keeps (State.onObj_keeps h0')

theorem doomObject_keeps {p} {x0} {x1} (h0' : Sound p x1) : Sound p (doomObject x0 x1) := by
  unfold doomObject
  exact retireObject_keeps (State.onObj_keeps h0')

theorem setHandoff_keeps {p} {x0} {x1} (h0' : Sound p x1) : Sound p (setHandoff x0 x1) := by
  unfold setHandoff
  exact Sound.of h0'.ctrs h0'.mem h0'.link h0'.keys h0'.parts h0'.objs h0'.ctxs h0'.queues h0'.fences h0'.accs h0'.arrivals h0'.users
      h0'.opTab h0'.doms h0'.migs h0'.rings h0'.profs h0'.pending

theorem dropHandoff_keeps {p} {x0} {x1} (h0' : Sound p x1) : Sound p (dropHandoff x0 x1) := by
  unfold dropHandoff
  exact Sound.of h0'.ctrs h0'.mem h0'.link h0'.keys h0'.parts h0'.objs h0'.ctxs h0'.queues h0'.fences h0'.accs h0'.arrivals h0'.users
      h0'.opTab h0'.doms h0'.migs h0'.rings h0'.profs h0'.pending

theorem sendHandoff_keeps {p} {x0} {x1} {x2} {x3} (h0' : Sound p x3) : Sound p (sendHandoff x0 x1 x2 x3) := by
  unfold sendHandoff
  exact sendMail_keeps h0'

theorem thawObject_keeps {p} {x0} {x1} (h0' : Sound p x1) : Sound p (thawObject x0 x1) := by
  unfold thawObject
  extract_lets -merge -useContext -underBinder +onlyGivenNames v2
  have h3 : Sound p v2 := State.onObj_keeps h0'
  try clear_value v2
  exact Sound.of h3.ctrs (sorted_tmap h0'.mem) h3.link h3.keys h3.parts h3.objs h3.ctxs h3.queues h3.fences h3.accs h3.arrivals h3.users
      h3.opTab h3.doms h3.migs h3.rings h3.profs h3.pending

theorem reclaim_keeps {p} {x0} {x1} {x2} (h0' : Sound p x2) : Sound p (reclaim x0 x1 x2) := by
  unfold reclaim
  refine ite_keeps (K := Sound p) (fun _ => ?_) (fun _ => ?_)
  · exact h0'
  · extract_lets -merge -useContext -underBinder +onlyGivenNames v3
    have h4 : Sound p v3 := thawObject_keeps (setHandoff_keeps h0')
    try clear_value v3
    extract_lets -merge -useContext -underBinder +onlyGivenNames v5
    have h6 : Sound p v5 := State.onObj_keeps h4
    try clear_value v5
    split
    · exact complete_keeps h6
    · exact h6

theorem landOwn_keeps {p} {x0} {x1} (h0' : Sound p x1) : Sound p (landOwn x0 x1) := by
  unfold landOwn
  extract_lets -merge -useContext -underBinder +onlyGivenNames v2
  have h3 : Sound p v2 := State.onObj_keeps h0'
  try clear_value v2
  exact dropHandoff_keeps (sendHandoff_keeps h3)

theorem closeLanding_keeps {p} {x0} {x1} (h0' : Sound p x1) : Sound p (closeLanding x0 x1) := by
  unfold closeLanding
  refine ite_keeps (K := Sound p) (fun _ => ?_) (fun _ => ?_)
  · exact freeArrival_keeps h0'
  · exact h0'

theorem freshRegion_keeps {p} {x0} {x1} (h0' : Sound p x1) : Sound p (freshRegion x0 x1) := by
  unfold freshRegion
  extract_lets -merge -useContext -underBinder +onlyGivenNames v2
  try clear_value v2
  extract_lets -merge -useContext -underBinder +onlyGivenNames v3
  have h4 : Sound p v3 := by
    refine each_keeps ?_ h0'
    intro a5 a6 h7
    refine each_keeps ?_ h7
    intro a8 a9 h10
    exact newLine_keeps h10
  try clear_value v3
  extract_lets -merge -useContext -underBinder +onlyGivenNames v11
  have h12 : Sound p v11 := State.onObj_keeps h4
  try clear_value v11
  exact Sound.of h12.ctrs (sorted_tmap h4.mem) h12.link h12.keys h12.parts h12.objs h12.ctxs h12.queues h12.fences h12.accs h12.arrivals
      h12.users h12.opTab h12.doms h12.migs h12.rings h12.profs h12.pending

theorem discard_keeps {p} {x0} {x1} (h0' : Sound p x1) : Sound p (discard x0 x1) := by
  unfold discard
  extract_lets -merge -useContext -underBinder +onlyGivenNames v2
  have h3 : Sound p v2 := closeLanding_keeps h0'
  try clear_value v2
  extract_lets -merge -useContext -underBinder +onlyGivenNames v4
  try clear_value v4
  extract_lets -merge -useContext -underBinder +onlyGivenNames v5
  have h6 : Sound p v5 := setHandoff_keeps h3
  try clear_value v5
  refine ite_keeps (K := Sound p) (fun _ => ?_) (fun _ => ?_)
  · exact h6
  · refine ite_keeps (K := Sound p) (fun _ => ?_) (fun _ => ?_)
    · refine ite_keeps (K := Sound p) (fun _ => ?_) (fun _ => ?_)
      · exact h6
      · exact keyFails_keeps (setHandoff_keeps h3)
    · split
      · rename_i m7 m8 heq
        have h9 : Sound p m8 := by
          refine SoundR.get heq ?_
          exact draw0_keeps h3
        extract_lets -merge -useContext -underBinder +onlyGivenNames v10
        have h11 : Sound p v10 := by
          refine freshRegion_keeps ?_
          exact commitSwap_keeps (State.onKey_keeps h9)
        try clear_value v10
        extract_lets -merge -useContext -underBinder +onlyGivenNames v12
        have h13 : Sound p v12 := State.onObj_keeps h11
        try clear_value v12
        exact dropHandoff_keeps (sendHandoff_keeps h13)

theorem askTile_keeps {p} {x0} {x1} (h0' : Sound p x1) : Sound p (askTile x0 x1) := by
  unfold askTile
  split
  · exact h0'
  · extract_lets -merge -useContext -underBinder +onlyGivenNames v5
    try clear_value v5
    exact setHandoff_keeps (emit_keeps h0')

theorem settleHandoff_keeps {p} {x0} {x1} (h0' : Sound p x1) : Sound p (settleHandoff x0 x1) := by
  unfold settleHandoff
  refine ite_keeps (K := Sound p) (fun _ => ?_) (fun _ => ?_)
  · refine ite_keeps (K := Sound p) (fun _ => ?_) (fun _ => ?_)
    · exact discard_keeps h0'
    · exact h0'
  · refine ite_keeps (K := Sound p) (fun _ => ?_) (fun _ => ?_)
    · refine ite_keeps (K := Sound p) (fun _ => ?_) (fun _ => ?_)
      · exact sendHandoff_keeps (setHandoff_keeps h0')
      · exact h0'
    · refine ite_keeps (K := Sound p) (fun _ => ?_) (fun _ => ?_)
      · exact h0'
      · refine ite_keeps (K := Sound p) (fun _ => ?_) (fun _ => ?_)
        · split
          · refine ite_keeps (K := Sound p) (fun _ => ?_) (fun _ => ?_)
            · exact h0'
            · exact askTile_keeps h0'
          · exact keepSend_keeps (setHandoff_keeps h0')
          · exact reclaim_keeps h0'
        · refine ite_keeps (K := Sound p) (fun _ => ?_) (fun _ => ?_)
          · extract_lets -merge -useContext -underBinder +onlyGivenNames v6
            try clear_value v6
            exact keepSend_keeps (setHandoff_keeps h0')
          · split
            · exact sendHandoff_keeps (setHandoff_keeps h0')
            · exact reclaim_keeps h0'
            · exact h0'

theorem beginOffer_keeps {p} {x0} {x1} (h0' : Sound p x1) : Sound p (beginOffer x0 x1) := by
  unfold beginOffer
  extract_lets -merge -useContext -underBinder +onlyGivenNames v2
  try clear_value v2
  extract_lets -merge -useContext -underBinder +onlyGivenNames v3
  try clear_value v3
  refine ite_keeps (K := Sound p) (fun _ => ?_) (fun _ => ?_)
  · exact keepRunning_keeps h0'
  · refine ite_keeps (K := Sound p) (fun _ => ?_) (fun _ => ?_)
    · exact failCmd_keeps h0'
    · extract_lets -merge -useContext -underBinder +onlyGivenNames v4
      try clear_value v4
      extract_lets -merge -useContext -underBinder +onlyGivenNames v5
      try clear_value v5
      refine keepRunning_keeps ?_
      refine issue_keeps ?_
      exact State.onObj_keeps (Sound.of h0'.ctrs h0'.mem h0'.link h0'.keys h0'.parts h0'.objs h0'.ctxs h0'.queues h0'.fences h0'.accs
          h0'.arrivals h0'.users h0'.opTab h0'.doms h0'.migs h0'.rings h0'.profs h0'.pending)

theorem bodyHandoffOffer_keeps {p} {x0} {x1} {x2} {x3} (h0' : Sound p x3) : Sound p (bodyHandoffOffer x0 x1 x2 x3) := by
  unfold bodyHandoffOffer
  extract_lets -merge -useContext -underBinder +onlyGivenNames v4
  try clear_value v4
  refine ite_keeps (K := Sound p) (fun _ => ?_) (fun _ => ?_)
  · exact failCmd_keeps h0'
  · exact beginOffer_keeps h0'

theorem bodyHandoffLanding_keeps {p} {x0} {x1} {x2} {x3} (h0' : Sound p x3) : Sound p (bodyHandoffLanding x0 x1 x2 x3) := by
  unfold bodyHandoffLanding
  extract_lets -merge -useContext -underBinder +onlyGivenNames v4
  try clear_value v4
  extract_lets -merge -useContext -underBinder +onlyGivenNames v5
  try clear_value v5
  refine ite_keeps (K := Sound p) (fun _ => ?_) (fun _ => ?_)
  · exact failCmd_keeps h0'
  · refine ite_keeps (K := Sound p) (fun _ => ?_) (fun _ => ?_)
    · exact failCmd_keeps h0'
    · exact done_keeps (State.onObj_keeps h0')

theorem abandonHandoff_keeps {p} {x0} {x1} {x2} (h0' : Sound p x2) : Sound p (abandonHandoff x0 x1 x2) := by
  unfold abandonHandoff
  refine ite_keeps (K := Sound p) (fun _ => ?_) (fun _ => ?_)
  · split
    · exact dropHandoff_keeps (reclaim_keeps h0')
    · exact reclaim_keeps h0'
  · exact discard_keeps h0'

theorem bodyHandoffAbandon_keeps {p} {x0} {x1} {x2} {x3} (h0' : Sound p x3) : Sound p (bodyHandoffAbandon x0 x1 x2 x3) := by
  unfold bodyHandoffAbandon
  extract_lets -merge -useContext -underBinder +onlyGivenNames v4
  try clear_value v4
  extract_lets -merge -useContext -underBinder +onlyGivenNames v5
  try clear_value v5
  split
  · exact failCmd_keeps h0'
  · exact done_keeps (abandonHandoff_keeps h0')

theorem handoffsLost_keeps {p} {x0} {x1} {x2} (h0' : Sound p x2) : Sound p (handoffsLost x0 x1 x2) := by
  unfold handoffsLost
  refine each_keeps ?_ h0'
  intro a3 a4 h5
  exact reclaim_keeps h5

theorem offerArrives_keeps {p} {x0} {x1} {x2} {x3} (h0' : Sound p x3) : Sound p (offerArrives x0 x1 x2 x3) := by
  unfold offerArrives
  extract_lets -merge -useContext -underBinder +onlyGivenNames v4
  try clear_value v4
  extract_lets -merge -useContext -underBinder +onlyGivenNames v5
  try clear_value v5
  extract_lets -merge -useContext -underBinder +onlyGivenNames v6
  try clear_value v6
  refine ite_keeps (K := Sound p) (fun _ => ?_) (fun _ => ?_)
  · exact h0'
  · split
    · refine ite_keeps (K := Sound p) (fun _ => ?_) (fun _ => ?_)
      · exact h0'
      · exact sendHandoff_keeps (setHandoff_keeps h0')
    · extract_lets -merge -useContext -underBinder +onlyGivenNames v9
      try clear_value v9
      extract_lets -merge -useContext -underBinder +onlyGivenNames v10
      try clear_value v10
      split
      · refine ite_keeps (K := Sound p) (fun _ => ?_) (fun _ => ?_)
        · exact sendMail_keeps h0'
        · extract_lets -merge -useContext -underBinder +onlyGivenNames v12
          try clear_value v12
          extract_lets -merge -useContext -underBinder +onlyGivenNames v13
          try clear_value v13
          extract_lets -merge -useContext -underBinder +onlyGivenNames v14
          have h15 : Sound p v14 := by
            exact Sound.of h0'.ctrs h0'.mem h0'.link h0'.keys h0'.parts h0'.objs h0'.ctxs h0'.queues h0'.fences h0'.accs (sorted_tset
                h0'.arrivals) h0'.users h0'.opTab h0'.doms h0'.migs h0'.rings h0'.profs h0'.pending
          try clear_value v14
          extract_lets -merge -useContext -underBinder +onlyGivenNames v16
          have h17 : Sound p v16 := State.onObj_keeps h15
          try clear_value v16
          exact sendHandoff_keeps h17
      · exact sendMail_keeps h0'

theorem acceptArrives_keeps {p} {x0} {x1} {x2} {x3} (h0' : Sound p x3) : Sound p (acceptArrives x0 x1 x2 x3) := by
  unfold acceptArrives
  split
  · refine ite_keeps (K := Sound p) (fun _ => ?_) (fun _ => ?_)
    · exact h0'
    · extract_lets -merge -useContext -underBinder +onlyGivenNames v5
      try clear_value v5
      exact settleHandoff_keeps (setHandoff_keeps h0')
  · exact h0'

theorem commitArrives_keeps {p} {x0} {x1} {x2} {x3} (h0' : Sound p x3) : Sound p (commitArrives x0 x1 x2 x3) := by
  unfold commitArrives
  split
  · exact h0'
  · extract_lets -merge -useContext -underBinder +onlyGivenNames v6
    try clear_value v6
    extract_lets -merge -useContext -underBinder +onlyGivenNames v7
    try clear_value v7
    refine ite_keeps (K := Sound p) (fun _ => ?_) (fun _ => ?_)
    · exact h0'
    · refine ite_keeps (K := Sound p) (fun _ => ?_) (fun _ => ?_)
      · exact sendHandoff_keeps (setHandoff_keeps h0')
      · refine ite_keeps (K := Sound p) (fun _ => ?_) (fun _ => ?_)
        · refine sendHandoff_keeps ?_
          exact closeLanding_keeps (setHandoff_keeps h0')
        · exact discard_keeps (sendHandoff_keeps h0')

theorem ackArrives_keeps {p} {x0} {x1} {x2} {x3} (h0' : Sound p x3) : Sound p (ackArrives x0 x1 x2 x3) := by
  unfold ackArrives
  split
  · refine ite_keeps (K := Sound p) (fun _ => ?_) (fun _ => ?_)
    · exact h0'
    · extract_lets -merge -useContext -underBinder +onlyGivenNames v5
      have h6 : Sound p v5 := State.onObj_keeps (setHandoff_keeps h0')
      try clear_value v5
      exact sendHandoff_keeps (doomObject_keeps h6)
  · exact h0'

theorem releasedArrives_keeps {p} {x0} {x1} {x2} {x3} (h0' : Sound p x3) : Sound p (releasedArrives x0 x1 x2 x3) := by
  unfold releasedArrives
  split
  · refine ite_keeps (K := Sound p) (fun _ => ?_) (fun _ => ?_)
    · exact landOwn_keeps h0'
    · exact h0'
  · exact h0'

theorem refuseArrives_keeps {p} {x0} {x1} {x2} {x3} (h0' : Sound p x3) : Sound p (refuseArrives x0 x1 x2 x3) := by
  unfold refuseArrives
  split
  · exact reclaim_keeps h0'
  · exact h0'

theorem queryArrives_keeps {p} {x0} {x1} {x2} {x3} (h0' : Sound p x3) : Sound p (queryArrives x0 x1 x2 x3) := by
  unfold queryArrives
  extract_lets -merge -useContext -underBinder +onlyGivenNames v4
  try clear_value v4
  exact sendMail_keeps h0'

theorem stateArrives_keeps {p} {x0} {x1} {x2} {x3} (h0' : Sound p x3) : Sound p (stateArrives x0 x1 x2 x3) := by
  unfold stateArrives
  split
  · exact h0'
  · split
    · exact setHandoff_keeps h0'
    · refine ite_keeps (K := Sound p) (fun _ => ?_) (fun _ => ?_)
      · exact landOwn_keeps h0'
      · exact h0'
    · exact discard_keeps h0'
    · refine ite_keeps (K := Sound p) (fun _ => ?_) (fun _ => ?_)
      · exact landOwn_keeps h0'
      · exact discard_keeps h0'
    · exact h0'

theorem closeArrives_keeps {p} {x0} {x1} {x2} {x3} (h0' : Sound p x3) : Sound p (closeArrives x0 x1 x2 x3) := by
  unfold closeArrives
  split
  · refine ite_keeps (K := Sound p) (fun _ => ?_) (fun _ => ?_)
    · exact dropHandoff_keeps h0'
    · exact h0'
  · exact h0'

theorem retransmit_keeps {p} {x0} {x1} (h0' : Sound p x1) : Sound p (retransmit x0 x1) := by
  unfold retransmit
  split
  · exact h0'
  · refine ite_keeps (K := Sound p) (fun _ => ?_) (fun _ => ?_)
    · exact h0'
    · refine ite_keeps (K := Sound p) (fun _ => ?_) (fun _ => ?_)
      · exact reclaim_keeps h0'
      · extract_lets -merge -useContext -underBinder +onlyGivenNames v4
        have h5 : Sound p v4 := setHandoff_keeps h0'
        try clear_value v4
        refine ite_keeps (K := Sound p) (fun _ => ?_) (fun _ => ?_)
        · exact sendHandoff_keeps h5
        · exact sendHandoff_keeps h5

theorem queryTimer_keeps {p} {x0} {x1} {x2} (h0' : Sound p x2) : Sound p (queryTimer x0 x1 x2) := by
  unfold queryTimer
  split
  · exact h0'
  · refine ite_keeps (K := Sound p) (fun _ => ?_) (fun _ => ?_)
    · exact h0'
    · exact sendHandoff_keeps (setHandoff_keeps h0')

theorem settleOffers_keeps {p} {x0} (h0' : Sound p x0) : Sound p (settleOffers x0) := by
  unfold settleOffers
  extract_lets -merge -useContext -underBinder +onlyGivenNames v1
  have h2 : Sound p v1 := by
    refine each_keeps ?_ h0'
    intro a3 a4 h5
    refine ite_keeps (K := Sound p) (fun _ => ?_) (fun _ => ?_)
    · exact h5
    · exact beginOffer_keeps h5
  try clear_value v1
  extract_lets -merge -useContext -underBinder +onlyGivenNames v6
  have h7 : Sound p v6 := by
    refine each_keeps ?_ h2
    intro a8 a9 h10
    exact settleHandoff_keeps h10
  try clear_value v6
  refine each_keeps ?_ h7
  intro a11 a12 h13
  extract_lets -merge -useContext -underBinder +onlyGivenNames v14
  try clear_value v14
  refine ite_keeps (K := Sound p) (fun _ => ?_) (fun _ => ?_)
  · exact h13
  · exact done_keeps h13

theorem onJobs_keeps {p} {x0} {x1} {x2} (h0' : Sound p x2) : Sound p (onJobs x0 x1 x2) := by
  unfold onJobs
  refine each_keeps ?_ h0'
  intro a3 a4 h5
  exact onJob_keeps h5

theorem bindJob_keeps {p} {x0} {x1} (h0' : Sound p x1) : Sound p (bindJob x0 x1) := by
  unfold bindJob
  extract_lets -merge -useContext -underBinder +onlyGivenNames v2
  try clear_value v2
  exact onJobs_keeps h0'

theorem endExch_keeps {p} {x0} {x1} {x2} (h0' : Sound p x2) : Sound p (endExch x0 x1 x2) := by
  unfold endExch
  extract_lets -merge -useContext -underBinder +onlyGivenNames v3
  have h4 : Sound p v3 := by
    unfold v3
    split
    · exact retireSlot_keeps h0'
    · exact h0'
  try clear_value v3
  exact State.onDom_keeps h4

theorem endMembership_keeps {p} {x0} {x1} {x2} (h0' : Sound p x2) : Sound p (endMembership x0 x1 x2) := by
  unfold endMembership
  extract_lets -merge -useContext -underBinder +onlyGivenNames v3
  try clear_value v3
  extract_lets -merge -useContext -underBinder +onlyGivenNames v4
  have h5 : Sound p v4 := onJobs_keeps h0'
  try clear_value v4
  extract_lets -merge -useContext -underBinder +onlyGivenNames v6
  have h7 : Sound p v6 := by
    refine each_keeps ?_ h5
    intro a8 a9 h10
    exact retireSlot_keeps h10
  try clear_value v6
  extract_lets -merge -useContext -underBinder +onlyGivenNames v11
  have h12 : Sound p v11 := by
    refine each_keeps ?_ h7
    intro a13 a14 h15
    exact endExch_keeps h15
  try clear_value v11
  exact State.onDom_keeps h12

theorem unjoin_keeps {p} {x0} {x1} (h0' : Sound p x1) : Sound p (unjoin x0 x1) := by
  unfold unjoin
  extract_lets -merge -useContext -underBinder +onlyGivenNames v2
  try clear_value v2
  refine ite_keeps (K := Sound p) (fun _ => ?_) (fun _ => ?_)
  · exact h0'
  · extract_lets -merge -useContext -underBinder +onlyGivenNames v3
    have h4 : Sound p v3 := by
      refine each_keeps ?_ ?_
      · intro a5 a6 h7
        exact State.onLink_keeps h7
      · refine each_keeps ?_ h0'
        intro a8 a9 h10
        exact dropHeld_keeps h10
    try clear_value v3
    extract_lets -merge -useContext -underBinder +onlyGivenNames v11
    have h12 : Sound p v11 := by
      exact Sound.of h4.ctrs h4.mem h4.link h4.keys h4.parts h4.objs h4.ctxs h4.queues h4.fences h4.accs h4.arrivals h4.users h4.opTab
          h4.doms h4.migs h4.rings h4.profs h4.pending
    try clear_value v11
    extract_lets -merge -useContext -underBinder +onlyGivenNames v13
    have h14 : Sound p v13 := State.onDom_keeps h12
    try clear_value v13
    refine each_keeps ?_ h14
    intro a15 a16 h17
    exact done_keeps h17

theorem sendLeave_keeps {p} {x0} {x1} (h0' : Sound p x1) : Sound p (sendLeave x0 x1) := by
  unfold sendLeave
  extract_lets -merge -useContext -underBinder +onlyGivenNames v2
  try clear_value v2
  extract_lets -merge -useContext -underBinder +onlyGivenNames v3
  try clear_value v3
  exact mailAll_keeps h0'

theorem freeCkpt_keeps {p} {x0} {x1} {x2} (h0' : Sound p x2) : Sound p (freeCkpt x0 x1 x2) := by
  unfold freeCkpt
  extract_lets -merge -useContext -underBinder +onlyGivenNames v3
  try clear_value v3
  refine ite_keeps (K := Sound p) (fun _ => ?_) (fun _ => ?_)
  · exact startPurge_keeps h0'
  · exact h0'

theorem armSlot_keeps {p} {x0} {x1} {x2} (h0' : Sound p x2) : Sound p (armSlot x0 x1 x2) := by
  unfold armSlot
  exact State.onKey_keeps h0'

theorem armKeys_keeps {p} {x0} {x1} {x2} {x3} {x4} (h0' : Sound p x4) : Sound p (armKeys x0 x1 x2 x3 x4) := by
  unfold armKeys
  extract_lets -merge -useContext -underBinder +onlyGivenNames v5
  try clear_value v5
  extract_lets -merge -useContext -underBinder +onlyGivenNames v6
  have h7 : Sound p v6 := by
    refine ite_keeps (K := Sound p) (fun _ => ?_) (fun _ => ?_)
    · exact armSlot_keeps h0'
    · exact h0'
  try clear_value v6
  refine ite_keeps (K := Sound p) (fun _ => ?_) (fun _ => ?_)
  · exact onJobs_keeps (armSlot_keeps h7)
  · exact h7

theorem sendPrepare_keeps {p} {x0} {x1} {x2} (h0' : Sound p x2) : Sound p (sendPrepare x0 x1 x2) := by
  unfold sendPrepare
  extract_lets -merge -useContext -underBinder +onlyGivenNames v3
  try clear_value v3
  split
  · extract_lets -merge -useContext -underBinder +onlyGivenNames v7
    have h8 : ∀ x9 x10, Sound p x10 → Sound p (v7 x9 x10) := by
      intro a11 a12 h13
      try unfold v7
      refine ite_keeps (K := Sound p) (fun _ => ?_) (fun _ => ?_)
      · exact countInv_keeps h13
      · exact h13
    try clear_value v7
    extract_lets -merge -useContext -underBinder +onlyGivenNames v14
    try clear_value v14
    refine sendMail_keeps ?_
    exact h8 _ _ (h8 _ _ h0')
  · exact h0'

theorem prepareAll_keeps {p} {x0} {x1} (h0' : Sound p x1) : Sound p (prepareAll x0 x1) := by
  unfold prepareAll
  refine each_keeps ?_ h0'
  intro a2 a3 h4
  exact sendPrepare_keeps h4

theorem commitRotation_keeps {p} {x0} {x1} (h0' : Sound p x1) : Sound p (commitRotation x0 x1) := by
  unfold commitRotation
  extract_lets -merge -useContext -underBinder +onlyGivenNames v2
  try clear_value v2
  split
  · exact h0'
  · extract_lets -merge -useContext -underBinder +onlyGivenNames v6
    try clear_value v6
    extract_lets -merge -useContext -underBinder +onlyGivenNames v7
    have h8 : Sound p v7 := by
      refine ite_keeps (K := Sound p) (fun _ => ?_) (fun _ => ?_)
      · exact commitSwap_keeps h0'
      · exact h0'
    try clear_value v7
    extract_lets -merge -useContext -underBinder +onlyGivenNames v9
    have h10 : Sound p v9 := by
      refine ite_keeps (K := Sound p) (fun _ => ?_) (fun _ => ?_)
      · exact commitSwap_keeps h8
      · exact h8
    try clear_value v9
    extract_lets -merge -useContext -underBinder +onlyGivenNames v11
    have h12 : Sound p v11 := State.onDom_keeps h10
    try clear_value v11
    refine each_keeps ?_ h12
    intro a13 a14 h15
    exact done_keeps h15

theorem abortRotation_keeps {p} {x0} {x1} (h0' : Sound p x1) : Sound p (abortRotation x0 x1) := by
  unfold abortRotation
  extract_lets -merge -useContext -underBinder +onlyGivenNames v2
  try clear_value v2
  split
  · exact h0'
  · extract_lets -merge -useContext -underBinder +onlyGivenNames v6
    try clear_value v6
    extract_lets -merge -useContext -underBinder +onlyGivenNames v7
    have h8 : Sound p v7 := by
      refine ite_keeps (K := Sound p) (fun _ => ?_) (fun _ => ?_)
      · exact State.onKey_keeps h0'
      · exact h0'
    try clear_value v7
    extract_lets -merge -useContext -underBinder +onlyGivenNames v9
    have h10 : Sound p v9 := by
      refine ite_keeps (K := Sound p) (fun _ => ?_) (fun _ => ?_)
      · exact State.onKey_keeps h8
      · exact h8
    try clear_value v9
    extract_lets -merge -useContext -underBinder +onlyGivenNames v11
    have h12 : Sound p v11 := onJobs_keeps h10
    try clear_value v11
    extract_lets -merge -useContext -underBinder +onlyGivenNames v13
    have h14 : Sound p v13 := by
      refine each_keeps ?_ h12
      intro a15 a16 h17
      exact dropHeld_keeps h17
    try clear_value v13
    exact State.onDom_keeps h14

theorem anchorAbort_keeps {p} {x0} {x1} {x2} (h0' : Sound p x2) : Sound p (anchorAbort x0 x1 x2) := by
  unfold anchorAbort
  extract_lets -merge -useContext -underBinder +onlyGivenNames v3
  try clear_value v3
  split
  · exact h0'
  · extract_lets -merge -useContext -underBinder +onlyGivenNames v7
    try clear_value v7
    extract_lets -merge -useContext -underBinder +onlyGivenNames v8
    have h9 : Sound p v8 := mailAll_keeps h0'
    try clear_value v8
    extract_lets -merge -useContext -underBinder +onlyGivenNames v10
    have h11 : Sound p v10 := State.onDom_keeps (abortRotation_keeps h9)
    try clear_value v10
    refine each_keeps ?_ h11
    intro a12 a13 h14
    exact failCmd_keeps h14

theorem confirmUp_keeps {p} {x0} {x1} (h0' : Sound p x1) : Sound p (confirmUp x0 x1) := by
  unfold confirmUp
  extract_lets -merge -useContext -underBinder +onlyGivenNames v2
  try clear_value v2
  split
  · exact h0'
  · refine ite_keeps (K := Sound p) (fun _ => ?_) (fun _ => ?_)
    · exact h0'
    · refine ite_keeps (K := Sound p) (fun _ => ?_) (fun _ => ?_)
      · exact commitRotation_keeps (mailAll_keeps h0')
      · refine ite_keeps (K := Sound p) (fun _ => ?_) (fun _ => ?_)
        · exact h0'
        · extract_lets -merge -useContext -underBinder +onlyGivenNames v6
          try clear_value v6
          extract_lets -merge -useContext -underBinder +onlyGivenNames v7
          try clear_value v7
          exact sendMail_keeps (State.onDom_keeps h0')

theorem startRotation_keeps {p} {x0} {x1} {x2} {x3} (h0' : Sound p x3) : Sound p (startRotation x0 x1 x2 x3) := by
  unfold startRotation
  extract_lets -merge -useContext -underBinder +onlyGivenNames v4
  try clear_value v4
  extract_lets -merge -useContext -underBinder +onlyGivenNames v5
  try clear_value v5
  extract_lets -merge -useContext -underBinder +onlyGivenNames v6
  have h7 : Sound p v6 := State.onDom_keeps h0'
  try clear_value v6
  refine ite_keeps (K := Sound p) (fun _ => ?_) (fun _ => ?_)
  · exact h0'
  · split
    · refine ite_keeps (K := Sound p) (fun _ => ?_) (fun _ => ?_)
      · exact h7
      · exact h0'
    · split
      · exact State.onDom_keeps h0'
      · refine ite_keeps (K := Sound p) (fun _ => ?_) (fun _ => ?_)
        · exact freeCkpt_keeps h7
        · refine ite_keeps (K := Sound p) (fun _ => ?_) (fun _ => ?_)
          · refine each_keeps ?_ ?_
            · intro a14 a15 h16
              exact failCmd_keeps h16
            · exact keyFails_keeps (State.onDom_keeps h0')
          · split
            · rename_i m17 m18 heq
              have h19 : Sound p m18 := by
                refine SoundR.get heq ?_
                refine ite_keeps (K := SoundR p) (fun _ => ?_) (fun _ => ?_)
                · exact draw0_keeps h0'
                · refine SoundR.mk ?_
                  exact h0'
              split
              · rename_i m20 m21 heq
                have h22 : Sound p m21 := by
                  refine SoundR.get heq ?_
                  refine ite_keeps (K := SoundR p) (fun _ => ?_) (fun _ => ?_)
                  · exact draw0_keeps h19
                  · refine SoundR.mk ?_
                    exact h19
                extract_lets -merge -useContext -underBinder +onlyGivenNames v23
                try clear_value v23
                extract_lets -merge -useContext -underBinder +onlyGivenNames v24
                have h25 : Sound p v24 := armKeys_keeps (State.onDom_keeps h22)
                try clear_value v24
                exact confirmUp_keeps (prepareAll_keeps h25)

theorem retryRotation_keeps {p} {x0} {x1} (h0' : Sound p x1) : Sound p (retryRotation x0 x1) := by
  unfold retryRotation
  extract_lets -merge -useContext -underBinder +onlyGivenNames v2
  try clear_value v2
  refine ite_keeps (K := Sound p) (fun _ => ?_) (fun _ => ?_)
  · exact startRotation_keeps h0'
  · exact h0'

theorem rotationRetry_keeps {p} {x0} {x1} (h0' : Sound p x1) : Sound p (rotationRetry x0 x1) := by
  unfold rotationRetry
  split
  · refine ite_keeps (K := Sound p) (fun _ => ?_) (fun _ => ?_)
    · exact h0'
    · exact startRotation_keeps (State.onDom_keeps h0')
  · exact h0'

theorem applyMark_keeps {p} {x0} {x1} {x2} (h0' : Sound p x2) : Sound p (applyMark x0 x1 x2) := by
  unfold applyMark
  exact onJobs_keeps (State.onDom_keeps h0')

theorem anchorMark_keeps {p} {x0} {x1} (h0' : Sound p x1) : Sound p (anchorMark x0 x1) := by
  unfold anchorMark
  extract_lets -merge -useContext -underBinder +onlyGivenNames v2
  try clear_value v2
  extract_lets -merge -useContext -underBinder +onlyGivenNames v3
  try clear_value v3
  exact applyMark_keeps (mailAll_keeps h0')

theorem putExch_keeps {p} {x0} {x1} {x2} (h0' : Sound p x2) : Sound p (putExch x0 x1 x2) := by
  unfold putExch
  exact State.onDom_keeps h0'

theorem sendRec_keeps {p} {x0} {x1} {x2} {x3} {x4} (h0' : Sound p x4) : Sound p (sendRec x0 x1 x2 x3 x4) := by
  unfold sendRec
  refine ite_keeps (K := Sound p) (fun _ => ?_) (fun _ => ?_)
  · exact sendMail_keeps h0'
  · exact outDom_keeps h0'

theorem offerTo_keeps {p} {x0} {x1} {x2} {x3} (h0' : Sound p x3) : Sound p (offerTo x0 x1 x2 x3) := by
  unfold offerTo
  extract_lets -merge -useContext -underBinder +onlyGivenNames v4
  try clear_value v4
  refine ite_keeps (K := Sound p) (fun _ => ?_) (fun _ => ?_)
  · exact h0'
  · refine ite_keeps (K := Sound p) (fun _ => ?_) (fun _ => ?_)
    · exact State.onDom_keeps h0'
    · split
      · rename_i m5 m6 heq
        have h7 : Sound p m6 := by
          refine SoundR.get heq ?_
          exact makeOffer_keeps h0'
        extract_lets -merge -useContext -underBinder +onlyGivenNames v8
        have h9 : Sound p v8 := State.onDom_keeps h7
        try clear_value v8
        exact sendRec_keeps (putExch_keeps h9)

theorem payOwed_keeps {p} {x0} {x1} (h0' : Sound p x1) : Sound p (payOwed x0 x1) := by
  unfold payOwed
  refine ite_keeps (K := Sound p) (fun _ => ?_) (fun _ => ?_)
  · refine each_keeps ?_ h0'
    intro a2 a3 h4
    exact offerTo_keeps h4
  · exact h0'

theorem backToPrepared_keeps {p} {x0} {x1} (h0' : Sound p x1) : Sound p (backToPrepared x0 x1) := by
  unfold backToPrepared
  extract_lets -merge -useContext -underBinder +onlyGivenNames v2
  try clear_value v2
  extract_lets -merge -useContext -underBinder +onlyGivenNames v3
  have h4 : Sound p v3 := by
    refine ite_keeps (K := Sound p) (fun _ => ?_) (fun _ => ?_)
    · exact retireSlot_keeps (retireSlot_keeps h0')
    · exact h0'
  try clear_value v3
  extract_lets -merge -useContext -underBinder +onlyGivenNames v5
  have h6 : Sound p v5 := by
    refine each_keeps ?_ h4
    intro a7 a8 h9
    exact endExch_keeps h9
  try clear_value v5
  exact State.onDom_keeps h6

theorem sendConfirm_keeps {p} {x0} {x1} (h0' : Sound p x1) : Sound p (sendConfirm x0 x1) := by
  unfold sendConfirm
  extract_lets -merge -useContext -underBinder +onlyGivenNames v2
  try clear_value v2
  split
  · exact h0'
  · extract_lets -merge -useContext -underBinder +onlyGivenNames v5
    try clear_value v5
    extract_lets -merge -useContext -underBinder +onlyGivenNames v6
    try clear_value v6
    extract_lets -merge -useContext -underBinder +onlyGivenNames v7
    have h8 : Sound p v7 := State.onDom_keeps (putExch_keeps h0')
    try clear_value v7
    exact sendRec_keeps h8

theorem sendFormCommit_keeps {p} {x0} {x1} {x2} {x3} (h0' : Sound p x3) : Sound p (sendFormCommit x0 x1 x2 x3) := by
  unfold sendFormCommit
  extract_lets -merge -useContext -underBinder +onlyGivenNames v4
  try clear_value v4
  extract_lets -merge -useContext -underBinder +onlyGivenNames v5
  try clear_value v5
  refine each_keeps ?_ h0'
  intro a6 a7 h8
  extract_lets -merge -useContext -underBinder +onlyGivenNames v9
  try clear_value v9
  exact endExch_keeps (outDom_keeps h8)

theorem becomeMember_keeps {p} {x0} {x1} (h0' : Sound p x1) : Sound p (becomeMember x0 x1) := by
  unfold becomeMember
  extract_lets -merge -useContext -underBinder +onlyGivenNames v2
  try clear_value v2
  extract_lets -merge -useContext -underBinder +onlyGivenNames v3
  have h4 : Sound p v3 := commitFirst_keeps (commitFirst_keeps h0')
  try clear_value v3
  extract_lets -merge -useContext -underBinder +onlyGivenNames v5
  have h6 : Sound p v5 := State.onDom_keeps h4
  try clear_value v5
  extract_lets -merge -useContext -underBinder +onlyGivenNames v7
  have h8 : Sound p v7 := by
    refine ite_keeps (K := Sound p) (fun _ => ?_) (fun _ => ?_)
    · exact h6
    · exact bindJob_keeps h6
  try clear_value v7
  extract_lets -merge -useContext -underBinder +onlyGivenNames v9
  have h10 : Sound p v9 := State.onDom_keeps h8
  try clear_value v9
  exact raiseEvent_keeps h10

theorem offerMissing_keeps {p} {x0} {x1} (h0' : Sound p x1) : Sound p (offerMissing x0 x1) := by
  unfold offerMissing
  extract_lets -merge -useContext -underBinder +onlyGivenNames v2
  try clear_value v2
  extract_lets -merge -useContext -underBinder +onlyGivenNames v3
  try clear_value v3
  extract_lets -merge -useContext -underBinder +onlyGivenNames v4
  have h5 : Sound p v4 := State.onDom_keeps h0'
  try clear_value v4
  refine each_keeps ?_ h5
  intro a6 a7 h8
  exact offerTo_keeps h8

theorem sendRefuse_keeps {p} {x0} {x1} {x2} {x3} (h0' : Sound p x3) : Sound p (sendRefuse x0 x1 x2 x3) := by
  unfold sendRefuse
  extract_lets -merge -useContext -underBinder +onlyGivenNames v4
  try clear_value v4
  extract_lets -merge -useContext -underBinder +onlyGivenNames v5
  have h6 : Sound p v5 := by
    refine ite_keeps (K := Sound p) (fun _ => ?_) (fun _ => ?_)
    · exact h0'
    · exact outDom_keeps h0'
  try clear_value v5
  exact endExch_keeps (refusalEvent_keeps h6)

theorem formCommit_keeps {p} {x0} {x1} (h0' : Sound p x1) : Sound p (formCommit x0 x1) := by
  unfold formCommit
  extract_lets -merge -useContext -underBinder +onlyGivenNames v2
  try clear_value v2
  extract_lets -merge -useContext -underBinder +onlyGivenNames v3
  have h4 : Sound p v3 := by
    refine each_keeps ?_ h0'
    intro a5 a6 h7
    exact sendRefuse_keeps h7
  try clear_value v3
  extract_lets -merge -useContext -underBinder +onlyGivenNames v8
  have h9 : Sound p v8 := sendFormCommit_keeps h4
  try clear_value v8
  refine offerMissing_keeps ?_
  exact becomeMember_keeps (State.onDom_keeps h9)

theorem afterKids_keeps {p} {x0} {x1} (h0' : Sound p x1) : Sound p (afterKids x0 x1) := by
  unfold afterKids
  extract_lets -merge -useContext -underBinder +onlyGivenNames v2
  try clear_value v2
  refine ite_keeps (K := Sound p) (fun _ => ?_) (fun _ => ?_)
  · exact h0'
  · refine ite_keeps (K := Sound p) (fun _ => ?_) (fun _ => ?_)
    · exact formCommit_keeps h0'
    · refine ite_keeps (K := Sound p) (fun _ => ?_) (fun _ => ?_)
      · exact sendConfirm_keeps h0'
      · exact h0'

theorem refuseExch_keeps {p} {x0} {x1} {x2} {x3} (h0' : Sound p x3) : Sound p (refuseExch x0 x1 x2 x3) := by
  unfold refuseExch
  extract_lets -merge -useContext -underBinder +onlyGivenNames v4
  have h5 : Sound p v4 := messageFail_keeps (sendRefuse_keeps h0')
  try clear_value v4
  refine ite_keeps (K := Sound p) (fun _ => ?_) (fun _ => ?_)
  · exact h5
  · refine ite_keeps (K := Sound p) (fun _ => ?_) (fun _ => ?_)
    · exact afterKids_keeps (State.onDom_keeps h5)
    · exact backToPrepared_keeps h5

theorem withRecord_keeps {p} {x0} {x1} {x2} {x6} (h0' : (∀ x3 x4 x5, Sound p x5 → Sound p (x2 x3 x4 x5))) (h1' : Sound p x6) : Sound p
    (withRecord x0 x1 x2 x6) := by
  unfold withRecord
  split
  · refine ite_keeps (K := Sound p) (fun _ => ?_) (fun _ => ?_)
    · exact h1'
    · split
      · extract_lets -merge -useContext -underBinder +onlyGivenNames v11
        try clear_value v11
        extract_lets -merge -useContext -underBinder +onlyGivenNames v12
        have h13 : Sound p v12 := State.onDom_keeps h1'
        try clear_value v12
        refine ite_keeps (K := Sound p) (fun _ => ?_) (fun _ => ?_)
        · exact h13
        · refine ite_keeps (K := Sound p) (fun _ => ?_) (fun _ => ?_)
          · exact h1'
          · refine ite_keeps (K := Sound p) (fun _ => ?_) (fun _ => ?_)
            · exact messageWaits_keeps h1'
            · exact h0' _ _ _ h13
      · exact State.onDom_keeps h1'
  · exact h1'

theorem takeOffer_keeps {p} {x0} {x1} {x2} {x3} (h0' : Sound p x3) : Sound p (takeOffer x0 x1 x2 x3) := by
  unfold takeOffer
  extract_lets -merge -useContext -underBinder +onlyGivenNames v4
  try clear_value v4
  extract_lets -merge -useContext -underBinder +onlyGivenNames v5
  try clear_value v5
  extract_lets -merge -useContext -underBinder +onlyGivenNames v6
  have h7 : ∀ x8, Sound p x8 → Sound p (v6 x8) := by
    intro a9 h10
    try unfold v6
    split
    · rename_i m11 m12 heq
      have h13 : Sound p m12 := by
        refine SoundR.get heq ?_
        exact makeReply_keeps h10
      refine messageDone_keeps ?_
      exact sendRec_keeps (putExch_keeps h13)
  try clear_value v6
  refine ite_keeps (K := Sound p) (fun _ => ?_) (fun _ => ?_)
  · refine ite_keeps (K := Sound p) (fun _ => ?_) (fun _ => ?_)
    · exact h7 _ h0'
    · exact h0'
  · refine ite_keeps (K := Sound p) (fun _ => ?_) (fun _ => ?_)
    · exact messageFail_keeps h0'
    · refine ite_keeps (K := Sound p) (fun _ => ?_) (fun _ => ?_)
      · refine messageFail_keeps ?_
        exact refusalEvent_keeps (outDom_keeps h0')
      · exact h7 _ (State.onDom_keeps h0')

theorem grant_keeps {p} {x0} {x1} {x2} {x3} (h0' : Sound p x3) : SoundR p (grant x0 x1 x2 x3) := by
  unfold grant
  extract_lets -merge -useContext -underBinder +onlyGivenNames v4
  try clear_value v4
  split
  · split
    · split
      · rename_i m9 m10 heq
        have h11 : Sound p m10 := by
          refine SoundR.get heq ?_
          exact zeler_keeps h0'
        extract_lets -merge -useContext -underBinder +onlyGivenNames v12
        try clear_value v12
        extract_lets -merge -useContext -underBinder +onlyGivenNames v13
        have h14 : Sound p v13 := by
          refine ite_keeps (K := Sound p) (fun _ => ?_) (fun _ => ?_)
          · exact h11
          · refine each_keeps ?_ h11
            intro a15 a16 h17
            exact countInv_keeps h17
        try clear_value v13
        extract_lets -merge -useContext -underBinder +onlyGivenNames v18
        try clear_value v18
        refine SoundR.mk ?_
        exact h14

theorem takeReply_keeps {p} {x0} {x1} {x2} {x3} (h0' : Sound p x3) : Sound p (takeReply x0 x1 x2 x3) := by
  unfold takeReply
  extract_lets -merge -useContext -underBinder +onlyGivenNames v4
  try clear_value v4
  split
  · exact messageFail_keeps h0'
  · refine ite_keeps (K := Sound p) (fun _ => ?_) (fun _ => ?_)
    · exact messageFail_keeps h0'
    · split
      · exact refuseExch_keeps h0'
      · extract_lets -merge -useContext -underBinder +onlyGivenNames v9
        try clear_value v9
        extract_lets -merge -useContext -underBinder +onlyGivenNames v10
        have h11 : Sound p v10 := keepCas_keeps h0'
        try clear_value v10
        refine ite_keeps (K := Sound p) (fun _ => ?_) (fun _ => ?_)
        · exact refuseExch_keeps h11
        · refine ite_keeps (K := Sound p) (fun _ => ?_) (fun _ => ?_)
          · exact refuseExch_keeps h11
          · refine ite_keeps (K := Sound p) (fun _ => ?_) (fun _ => ?_)
            · exact refuseExch_keeps h11
            · split
              · exact refuseExch_keeps h11
              · refine ite_keeps (K := Sound p) (fun _ => ?_) (fun _ => ?_)
                · exact refuseExch_keeps (keyFails_keeps h11)
                · extract_lets -merge -useContext -underBinder +onlyGivenNames w14 v15
                  try clear_value v15 w14
                  extract_lets -merge -useContext -underBinder +onlyGivenNames v16
                  try clear_value v16
                  split
                  · rename_i m17 m18 heq
                    have h19 : Sound p m18 := by
                      refine SoundR.get heq ?_
                      exact grant_keeps (firstKey_keeps h11)
                    refine messageDone_keeps ?_
                    exact sendRec_keeps (putExch_keeps h19)

theorem pendKey_keeps {p} {x0} {x1} {x2} {x3} {x4} {x5} (h0' : Sound p x5) : Sound p (pendKey x0 x1 x2 x3 x4 x5) := by
  unfold pendKey
  exact State.onKey_keeps h0'

theorem placeChild_keeps {p} {x0} {x1} {x2} (h0' : Sound p x2) : Sound p (placeChild x0 x1 x2) := by
  unfold placeChild
  exact State.onDom_keeps h0'

theorem takeGrant_keeps {p} {x0} {x1} {x2} {x3} (h0' : Sound p x3) : Sound p (takeGrant x0 x1 x2 x3) := by
  unfold takeGrant
  extract_lets -merge -useContext -underBinder +onlyGivenNames v4
  try clear_value v4
  split
  · exact messageFail_keeps h0'
  · extract_lets -merge -useContext -underBinder +onlyGivenNames v7
    try clear_value v7
    refine ite_keeps (K := Sound p) (fun _ => ?_) (fun _ => ?_)
    · exact messageFail_keeps h0'
    · refine ite_keeps (K := Sound p) (fun _ => ?_) (fun _ => ?_)
      · exact refuseExch_keeps h0'
      · extract_lets -merge -useContext -underBinder +onlyGivenNames v8
        try clear_value v8
        extract_lets -merge -useContext -underBinder +onlyGivenNames v9
        try clear_value v9
        extract_lets -merge -useContext -underBinder +onlyGivenNames v10
        try clear_value v10
        extract_lets -merge -useContext -underBinder +onlyGivenNames v11
        have h12 : Sound p v11 := keepCas_keeps h0'
        try clear_value v11
        refine ite_keeps (K := Sound p) (fun _ => ?_) (fun _ => ?_)
        · exact refuseExch_keeps h12
        · refine ite_keeps (K := Sound p) (fun _ => ?_) (fun _ => ?_)
          · exact refuseExch_keeps h12
          · refine ite_keeps (K := Sound p) (fun _ => ?_) (fun _ => ?_)
            · exact refuseExch_keeps (keyFails_keeps h12)
            · split
              · exact refuseExch_keeps h12
              · extract_lets -merge -useContext -underBinder +onlyGivenNames v15
                have h16 : Sound p v15 := putExch_keeps (firstKey_keeps h12)
                try clear_value v15
                refine ite_keeps (K := Sound p) (fun _ => ?_) (fun _ => ?_)
                · extract_lets -merge -useContext -underBinder +onlyGivenNames v17
                  have h18 : Sound p v17 := State.onDom_keeps (placeChild_keeps h16)
                  try clear_value v17
                  extract_lets -merge -useContext -underBinder +onlyGivenNames v19
                  have h20 : Sound p v19 := sendConfirm_keeps h18
                  try clear_value v19
                  exact endExch_keeps h20
                · split
                  · extract_lets -merge -useContext -underBinder +onlyGivenNames v24
                    have h25 : Sound p v24 := pendKey_keeps h16
                    try clear_value v24
                    split
                    · exact refuseExch_keeps (State.onKey_keeps h25)
                    · extract_lets -merge -useContext -underBinder +onlyGivenNames v28
                      have h29 : Sound p v28 := pendKey_keeps h25
                      try clear_value v28
                      extract_lets -merge -useContext -underBinder +onlyGivenNames v30
                      have h31 : Sound p v30 := State.onDom_keeps (placeChild_keeps h29)
                      try clear_value v30
                      extract_lets -merge -useContext -underBinder +onlyGivenNames v32
                      try clear_value v32
                      extract_lets -merge -useContext -underBinder +onlyGivenNames v33
                      have h34 : Sound p v33 := by
                        refine each_keeps ?_ h31
                        intro a35 a36 h37
                        exact offerTo_keeps h37
                      try clear_value v33
                      exact messageDone_keeps (afterKids_keeps h34)
                  · exact refuseExch_keeps h16

theorem takeConfirm_keeps {p} {x0} {x1} {x2} {x3} (h0' : Sound p x3) : Sound p (takeConfirm x0 x1 x2 x3) := by
  unfold takeConfirm
  extract_lets -merge -useContext -underBinder +onlyGivenNames v4
  try clear_value v4
  split
  · exact messageFail_keeps h0'
  · refine ite_keeps (K := Sound p) (fun _ => ?_) (fun _ => ?_)
    · exact messageFail_keeps h0'
    · refine ite_keeps (K := Sound p) (fun _ => ?_) (fun _ => ?_)
      · exact refuseExch_keeps h0'
      · extract_lets -merge -useContext -underBinder +onlyGivenNames v7
        try clear_value v7
        extract_lets -merge -useContext -underBinder +onlyGivenNames v8
        have h9 : Sound p v8 := State.onDom_keeps h0'
        try clear_value v8
        refine ite_keeps (K := Sound p) (fun _ => ?_) (fun _ => ?_)
        · extract_lets -merge -useContext -underBinder +onlyGivenNames v10
          have h11 : Sound p v10 := State.onDom_keeps (putExch_keeps h9)
          try clear_value v10
          exact messageDone_keeps (afterKids_keeps h11)
        · extract_lets -merge -useContext -underBinder +onlyGivenNames v12
          have h13 : Sound p v12 := endExch_keeps h9
          try clear_value v12
          extract_lets -merge -useContext -underBinder +onlyGivenNames v14
          have h15 : Sound p v14 := State.onDom_keeps h13
          try clear_value v14
          refine ite_keeps (K := Sound p) (fun _ => ?_) (fun _ => ?_)
          · exact sendPrepare_keeps h15
          · extract_lets -merge -useContext -underBinder +onlyGivenNames v16
            have h17 : Sound p v16 := State.onDom_keeps h15
            try clear_value v16
            extract_lets -merge -useContext -underBinder +onlyGivenNames v18
            have h19 : Sound p v18 := setMember_keeps h17
            try clear_value v18
            extract_lets -merge -useContext -underBinder +onlyGivenNames v20
            have h21 : Sound p v20 := by
              refine ite_keeps (K := Sound p) (fun _ => ?_) (fun _ => ?_)
              · exact syncDeputy_keeps h19
              · exact h19
            try clear_value v20
            extract_lets -merge -useContext -underBinder +onlyGivenNames v22
            have h23 : Sound p v22 := sendMail_keeps h21
            try clear_value v22
            extract_lets -merge -useContext -underBinder +onlyGivenNames v24
            have h25 : Sound p v24 := by
              refine ite_keeps (K := Sound p) (fun _ => ?_) (fun _ => ?_)
              · exact h23
              · refine ite_keeps (K := Sound p) (fun _ => ?_) (fun _ => ?_)
                · exact startRotation_keeps h23
                · exact sendMail_keeps h23
            try clear_value v24
            exact messageDone_keeps h25

theorem takeFormCommit_keeps {p} {x0} {x1} {x2} {x3} (h0' : Sound p x3) : Sound p (takeFormCommit x0 x1 x2 x3) := by
  unfold takeFormCommit
  extract_lets -merge -useContext -underBinder +onlyGivenNames v4
  try clear_value v4
  split
  · exact messageFail_keeps h0'
  · refine ite_keeps (K := Sound p) (fun _ => ?_) (fun _ => ?_)
    · exact messageFail_keeps h0'
    · extract_lets -merge -useContext -underBinder +onlyGivenNames v7
      have h8 : Sound p v7 := sendFormCommit_keeps h0'
      try clear_value v7
      extract_lets -merge -useContext -underBinder +onlyGivenNames v9
      have h10 : Sound p v9 := by
        refine becomeMember_keeps ?_
        exact State.onDom_keeps (endExch_keeps h8)
      try clear_value v9
      extract_lets -merge -useContext -underBinder +onlyGivenNames v11
      have h12 : Sound p v11 := messageDone_keeps h10
      try clear_value v11
      refine ite_keeps (K := Sound p) (fun _ => ?_) (fun _ => ?_)
      · exact h12
      · exact offerMissing_keeps h12

theorem takeRefuse_keeps {p} {x0} {x1} {x2} {x3} (h0' : Sound p x3) : Sound p (takeRefuse x0 x1 x2 x3) := by
  unfold takeRefuse
  extract_lets -merge -useContext -underBinder +onlyGivenNames v4
  try clear_value v4
  split
  · exact messageFail_keeps h0'
  · refine ite_keeps (K := Sound p) (fun _ => ?_) (fun _ => ?_)
    · exact messageFail_keeps h0'
    · extract_lets -merge -useContext -underBinder +onlyGivenNames v7
      have h8 : Sound p v7 := messageDone_keeps (refusalEvent_keeps h0')
      try clear_value v7
      extract_lets -merge -useContext -underBinder +onlyGivenNames v9
      have h10 : Sound p v9 := endExch_keeps h8
      try clear_value v9
      refine ite_keeps (K := Sound p) (fun _ => ?_) (fun _ => ?_)
      · exact afterKids_keeps (State.onDom_keeps h10)
      · exact backToPrepared_keeps h10

theorem formationTimeout_keeps {p} {x0} {x1} {x2} (h0' : Sound p x2) : Sound p (formationTimeout x0 x1 x2) := by
  unfold formationTimeout
  extract_lets -merge -useContext -underBinder +onlyGivenNames v3
  try clear_value v3
  extract_lets -merge -useContext -underBinder +onlyGivenNames v4
  try clear_value v4
  split
  · refine ite_keeps (K := Sound p) (fun _ => ?_) (fun _ => ?_)
    · exact formCommit_keeps h0'
    · exact h0'
  · split
    · exact h0'
    · extract_lets -merge -useContext -underBinder +onlyGivenNames v9
      have h10 : Sound p v9 := refuseExch_keeps h0'
      try clear_value v9
      refine ite_keeps (K := Sound p) (fun _ => ?_) (fun _ => ?_)
      · exact offerTo_keeps h10
      · exact h10

theorem applyLost_keeps {p} {x0} {x1} {x2} {x3} {x4} (h0' : Sound p x4) : Sound p (applyLost x0 x1 x2 x3 x4) := by
  unfold applyLost
  extract_lets -merge -useContext -underBinder +onlyGivenNames v5
  try clear_value v5
  refine ite_keeps (K := Sound p) (fun _ => ?_) (fun _ => ?_)
  · exact endMembership_keeps h0'
  · extract_lets -merge -useContext -underBinder +onlyGivenNames v6
    have h7 : Sound p v6 := by
      unfold v6
      split
      · exact retireSlot_keeps h0'
      · exact h0'
    try clear_value v6
    extract_lets -merge -useContext -underBinder +onlyGivenNames w10 v11
    have h12 : Sound p v11 := setMember_keeps h7
    try clear_value v11 w10
    extract_lets -merge -useContext -underBinder +onlyGivenNames v13
    have h14 : Sound p v13 := State.onDom_keeps h12
    try clear_value v13
    extract_lets -merge -useContext -underBinder +onlyGivenNames v15
    have h16 : Sound p v15 := by
      refine each_keeps ?_ h14
      intro a17 a18 h19
      exact endExch_keeps h19
    try clear_value v15
    extract_lets -merge -useContext -underBinder +onlyGivenNames v20
    have h21 : Sound p v20 := handoffsLost_keeps h16
    try clear_value v20
    extract_lets -merge -useContext -underBinder +onlyGivenNames v22
    have h23 : Sound p v22 := by
      refine ite_keeps (K := Sound p) (fun _ => ?_) (fun _ => ?_)
      · refine offerTo_keeps ?_
        refine each_keeps ?_ h21
        intro a24 a25 h26
        exact offerTo_keeps h26
      · exact h21
    try clear_value v22
    exact confirmUp_keeps h23

theorem newDeputy_keeps {p} {x0} {x1} (h0' : Sound p x1) : Sound p (newDeputy x0 x1) := by
  unfold newDeputy
  extract_lets -merge -useContext -underBinder +onlyGivenNames v2
  try clear_value v2
  extract_lets -merge -useContext -underBinder +onlyGivenNames v3
  try clear_value v3
  refine ite_keeps (K := Sound p) (fun _ => ?_) (fun _ => ?_)
  · exact h0'
  · exact mailAll_keeps (State.onDom_keeps h0')

theorem lossRotation_keeps {p} {x0} {x1} (h0' : Sound p x1) : Sound p (lossRotation x0 x1) := by
  unfold lossRotation
  extract_lets -merge -useContext -underBinder +onlyGivenNames v2
  have h3 : Sound p v2 := keyThreshold_keeps h0'
  try clear_value v2
  refine ite_keeps (K := Sound p) (fun _ => ?_) (fun _ => ?_)
  · refine startRotation_keeps ?_
    exact State.onDom_keeps (anchorAbort_keeps h3)
  · exact startRotation_keeps h3

theorem anchorLoss_keeps {p} {x0} {x1} {x2} {x3} (h0' : Sound p x3) : Sound p (anchorLoss x0 x1 x2 x3) := by
  unfold anchorLoss
  extract_lets -merge -useContext -underBinder +onlyGivenNames v4
  try clear_value v4
  extract_lets -merge -useContext -underBinder +onlyGivenNames v5
  try clear_value v5
  extract_lets -merge -useContext -underBinder +onlyGivenNames v6
  try clear_value v6
  refine ite_keeps (K := Sound p) (fun _ => ?_) (fun _ => ?_)
  · exact h0'
  · extract_lets -merge -useContext -underBinder +onlyGivenNames v7
    try clear_value v7
    extract_lets -merge -useContext -underBinder +onlyGivenNames v8
    try clear_value v8
    extract_lets -merge -useContext -underBinder +onlyGivenNames v9
    have h10 : Sound p v9 := State.onDom_keeps (setMember_keeps h0')
    try clear_value v9
    extract_lets -merge -useContext -underBinder +onlyGivenNames v11
    have h12 : Sound p v11 := syncDeputy_keeps h10
    try clear_value v11
    extract_lets -merge -useContext -underBinder +onlyGivenNames v13
    have h14 : Sound p v13 := mailAll_keeps h12
    try clear_value v13
    extract_lets -merge -useContext -underBinder +onlyGivenNames v15
    have h16 : Sound p v15 := applyLost_keeps h14
    try clear_value v15
    extract_lets -merge -useContext -underBinder +onlyGivenNames v17
    have h18 : Sound p v17 := by
      refine ite_keeps (K := Sound p) (fun _ => ?_) (fun _ => ?_)
      · exact newDeputy_keeps h16
      · exact h16
    try clear_value v17
    refine ite_keeps (K := Sound p) (fun _ => ?_) (fun _ => ?_)
    · exact lossRotation_keeps h18
    · exact h18

theorem takeover_keeps {p} {x0} {x1} (h0' : Sound p x1) : Sound p (takeover x0 x1) := by
  unfold takeover
  extract_lets -merge -useContext -underBinder +onlyGivenNames v2
  try clear_value v2
  refine ite_keeps (K := Sound p) (fun _ => ?_) (fun _ => ?_)
  · exact h0'
  · extract_lets -merge -useContext -underBinder +onlyGivenNames v3
    try clear_value v3
    extract_lets -merge -useContext -underBinder +onlyGivenNames v4
    try clear_value v4
    extract_lets -merge -useContext -underBinder +onlyGivenNames v5
    try clear_value v5
    extract_lets -merge -useContext -underBinder +onlyGivenNames v6
    try clear_value v6
    extract_lets -merge -useContext -underBinder +onlyGivenNames v7
    have h8 : Sound p v7 := mailAll_keeps h0'
    try clear_value v7
    extract_lets -merge -useContext -underBinder +onlyGivenNames v9
    have h10 : Sound p v9 := abortRotation_keeps h8
    try clear_value v9
    extract_lets -merge -useContext -underBinder +onlyGivenNames v11
    have h12 : Sound p v11 := State.onDom_keeps h10
    try clear_value v11
    extract_lets -merge -useContext -underBinder +onlyGivenNames w13 v14
    have h15 : Sound p v14 := anchorLoss_keeps (setMember_keeps h12)
    try clear_value v14 w13
    refine ite_keeps (K := Sound p) (fun _ => ?_) (fun _ => ?_)
    · exact h15
    · exact startRotation_keeps h15

theorem declareLost_keeps {p} {x0} {x1} {x2} {x3} (h0' : Sound p x3) : Sound p (declareLost x0 x1 x2 x3) := by
  unfold declareLost
  extract_lets -merge -useContext -underBinder +onlyGivenNames v4
  try clear_value v4
  refine ite_keeps (K := Sound p) (fun _ => ?_) (fun _ => ?_)
  · exact h0'
  · extract_lets -merge -useContext -underBinder +onlyGivenNames v5
    try clear_value v5
    extract_lets -merge -useContext -underBinder +onlyGivenNames v6
    have h7 : Sound p v6 := State.onDom_keeps h0'
    try clear_value v6
    refine ite_keeps (K := Sound p) (fun _ => ?_) (fun _ => ?_)
    · exact anchorLoss_keeps h7
    · refine ite_keeps (K := Sound p) (fun _ => ?_) (fun _ => ?_)
      · refine ite_keeps (K := Sound p) (fun _ => ?_) (fun _ => ?_)
        · exact takeover_keeps h7
        · refine ite_keeps (K := Sound p) (fun _ => ?_) (fun _ => ?_)
          · exact endMembership_keeps h7
          · exact sendMail_keeps (setMember_keeps h7)
      · extract_lets -merge -useContext -underBinder +onlyGivenNames v8
        have h9 : Sound p v8 := sendMail_keeps h7
        try clear_value v8
        refine ite_keeps (K := Sound p) (fun _ => ?_) (fun _ => ?_)
        · exact endMembership_keeps h9
        · exact h9

theorem beatSend_keeps {p} {x0} {x1} (h0' : Sound p x1) : Sound p (beatSend x0 x1) := by
  unfold beatSend
  extract_lets -merge -useContext -underBinder +onlyGivenNames v2
  try clear_value v2
  refine ite_keeps (K := Sound p) (fun _ => ?_) (fun _ => ?_)
  · exact mailAll_keeps (State.onDom_keeps h0')
  · exact h0'

theorem beatArrives_keeps {p} {x0} {x1} {x2} {x3} (h0' : Sound p x3) : Sound p (beatArrives x0 x1 x2 x3) := by
  unfold beatArrives
  extract_lets -merge -useContext -underBinder +onlyGivenNames v4
  try clear_value v4
  refine ite_keeps (K := Sound p) (fun _ => ?_) (fun _ => ?_)
  · exact State.onDom_keeps h0'
  · exact h0'

theorem beatTimeout_keeps {p} {x0} {x1} {x2} (h0' : Sound p x2) : Sound p (beatTimeout x0 x1 x2) := by
  unfold beatTimeout
  refine ite_keeps (K := Sound p) (fun _ => ?_) (fun _ => ?_)
  · exact h0'
  · split
    · refine ite_keeps (K := Sound p) (fun _ => ?_) (fun _ => ?_)
      · exact declareLost_keeps h0'
      · exact h0'
    · exact h0'

theorem linkDown_keeps {p} {x0} {x1} (h0' : Sound p x1) : Sound p (linkDown x0 x1) := by
  unfold linkDown
  refine each_keeps ?_ h0'
  intro a2 a3 h4
  split
  · exact declareLost_keeps h4
  · exact h4

theorem lossReport_keeps {p} {x0} {x1} {x2} {x3} (h0' : Sound p x3) : Sound p (lossReport x0 x1 x2 x3) := by
  unfold lossReport
  extract_lets -merge -useContext -underBinder +onlyGivenNames v4
  try clear_value v4
  extract_lets -merge -useContext -underBinder +onlyGivenNames v5
  try clear_value v5
  refine ite_keeps (K := Sound p) (fun _ => ?_) (fun _ => ?_)
  · exact h0'
  · refine ite_keeps (K := Sound p) (fun _ => ?_) (fun _ => ?_)
    · exact anchorLoss_keeps h0'
    · refine ite_keeps (K := Sound p) (fun _ => ?_) (fun _ => ?_)
      · exact takeover_keeps h0'
      · exact h0'

theorem memberLost_keeps {p} {x0} {x1} {x2} {x3} (h0' : Sound p x3) : Sound p (memberLost x0 x1 x2 x3) := by
  unfold memberLost
  extract_lets -merge -useContext -underBinder +onlyGivenNames v4
  try clear_value v4
  refine ite_keeps (K := Sound p) (fun _ => ?_) (fun _ => ?_)
  · exact h0'
  · exact applyLost_keeps (mailAll_keeps h0')

theorem markRequest_keeps {p} {x0} {x1} {x2} {x3} (h0' : Sound p x3) : Sound p (markRequest x0 x1 x2 x3) := by
  unfold markRequest
  extract_lets -merge -useContext -underBinder +onlyGivenNames v4
  try clear_value v4
  refine ite_keeps (K := Sound p) (fun _ => ?_) (fun _ => ?_)
  · exact anchorMark_keeps h0'
  · exact h0'

theorem markArrives_keeps {p} {x0} {x1} {x2} {x3} (h0' : Sound p x3) : Sound p (markArrives x0 x1 x2 x3) := by
  unfold markArrives
  extract_lets -merge -useContext -underBinder +onlyGivenNames v4
  try clear_value v4
  extract_lets -merge -useContext -underBinder +onlyGivenNames v5
  try clear_value v5
  refine ite_keeps (K := Sound p) (fun _ => ?_) (fun _ => ?_)
  · exact applyMark_keeps (mailAll_keeps h0')
  · refine ite_keeps (K := Sound p) (fun _ => ?_) (fun _ => ?_)
    · extract_lets -merge -useContext -underBinder +onlyGivenNames v6
      have h7 : Sound p v6 := by
        refine each_keeps ?_ h0'
        intro a8 a9 h10
        exact endExch_keeps h10
      try clear_value v6
      exact becomeMember_keeps (State.onDom_keeps h7)
    · exact h0'

theorem rotateRequest_keeps {p} {x0} {x1} {x2} {x3} (h0' : Sound p x3) : Sound p (rotateRequest x0 x1 x2 x3) := by
  unfold rotateRequest
  extract_lets -merge -useContext -underBinder +onlyGivenNames v4
  try clear_value v4
  refine ite_keeps (K := Sound p) (fun _ => ?_) (fun _ => ?_)
  · refine ite_keeps (K := Sound p) (fun _ => ?_) (fun _ => ?_)
    · exact lossRotation_keeps h0'
    · exact h0'
  · exact startRotation_keeps h0'

theorem prepareWaits_keeps {p} {x0} {x1} {x2} {x3} (h0' : Sound p x3) : Sound p (prepareWaits x0 x1 x2 x3) := by
  unfold prepareWaits
  exact State.onDom_keeps h0'

theorem rotatePrepare_keeps {p} {x0} {x1} {x2} {x3} (h0' : Sound p x3) : Sound p (rotatePrepare x0 x1 x2 x3) := by
  unfold rotatePrepare
  extract_lets -merge -useContext -underBinder +onlyGivenNames v4
  try clear_value v4
  extract_lets -merge -useContext -underBinder +onlyGivenNames v5
  try clear_value v5
  extract_lets -merge -useContext -underBinder +onlyGivenNames v6
  try clear_value v6
  refine ite_keeps (K := Sound p) (fun _ => ?_) (fun _ => ?_)
  · exact h0'
  · split
    · exact h0'
    · extract_lets -merge -useContext -underBinder +onlyGivenNames v9
      try clear_value v9
      extract_lets -merge -useContext -underBinder +onlyGivenNames v10
      try clear_value v10
      extract_lets -merge -useContext -underBinder +onlyGivenNames v11
      try clear_value v11
      split
      · refine ite_keeps (K := Sound p) (fun _ => ?_) (fun _ => ?_)
        · exact h0'
        · refine ite_keeps (K := Sound p) (fun _ => ?_) (fun _ => ?_)
          · exact prepareWaits_keeps (freeCkpt_keeps h0')
          · refine ite_keeps (K := Sound p) (fun _ => ?_) (fun _ => ?_)
            · exact keyFails_keeps h0'
            · extract_lets -merge -useContext -underBinder +onlyGivenNames v14
              have h15 : Sound p v14 := armKeys_keeps (State.onDom_keeps h0')
              try clear_value v14
              exact confirmUp_keeps (prepareAll_keeps h15)
      · exact h0'

theorem resumePrepare_keeps {p} {x0} {x1} (h0' : Sound p x1) : Sound p (resumePrepare x0 x1) := by
  unfold resumePrepare
  split
  · exact rotatePrepare_keeps (State.onDom_keeps h0')
  · exact h0'

theorem rotateConfirm_keeps {p} {x0} {x1} {x2} {x3} (h0' : Sound p x3) : Sound p (rotateConfirm x0 x1 x2 x3) := by
  unfold rotateConfirm
  extract_lets -merge -useContext -underBinder +onlyGivenNames v4
  try clear_value v4
  split
  · exact h0'
  · extract_lets -merge -useContext -underBinder +onlyGivenNames v8
    try clear_value v8
    refine ite_keeps (K := Sound p) (fun _ => ?_) (fun _ => ?_)
    · exact h0'
    · exact confirmUp_keeps (State.onDom_keeps h0')

theorem rotateCommitArrives_keeps {p} {x0} {x1} {x2} {x3} (h0' : Sound p x3) : Sound p (rotateCommitArrives x0 x1 x2 x3) := by
  unfold rotateCommitArrives
  extract_lets -merge -useContext -underBinder +onlyGivenNames v4
  try clear_value v4
  extract_lets -merge -useContext -underBinder +onlyGivenNames v5
  try clear_value v5
  refine ite_keeps (K := Sound p) (fun _ => ?_) (fun _ => ?_)
  · extract_lets -merge -useContext -underBinder +onlyGivenNames v6
    have h7 : Sound p v6 := mailAll_keeps h0'
    try clear_value v6
    refine ite_keeps (K := Sound p) (fun _ => ?_) (fun _ => ?_)
    · exact commitRotation_keeps h7
    · exact h7
  · refine ite_keeps (K := Sound p) (fun _ => ?_) (fun _ => ?_)
    · refine becomeMember_keeps ?_
      refine State.onDom_keeps ?_
      refine each_keeps ?_ h0'
      intro a8 a9 h10
      exact endExch_keeps h10
    · exact h0'

theorem rotateAbort_keeps {p} {x0} {x1} {x2} {x3} (h0' : Sound p x3) : Sound p (rotateAbort x0 x1 x2 x3) := by
  unfold rotateAbort
  extract_lets -merge -useContext -underBinder +onlyGivenNames v4
  try clear_value v4
  extract_lets -merge -useContext -underBinder +onlyGivenNames v5
  try clear_value v5
  refine ite_keeps (K := Sound p) (fun _ => ?_) (fun _ => ?_)
  · exact h0'
  · extract_lets -merge -useContext -underBinder +onlyGivenNames v6
    have h7 : Sound p v6 := mailAll_keeps h0'
    try clear_value v6
    refine ite_keeps (K := Sound p) (fun _ => ?_) (fun _ => ?_)
    · exact abortRotation_keeps h7
    · refine ite_keeps (K := Sound p) (fun _ => ?_) (fun _ => ?_)
      · exact endMembership_keeps (sendLeave_keeps h7)
      · exact h7

theorem rotationDecide_keeps {p} {x0} {x1} (h0' : Sound p x1) : Sound p (rotationDecide x0 x1) := by
  unfold rotationDecide
  extract_lets -merge -useContext -underBinder +onlyGivenNames v2
  try clear_value v2
  split
  · exact h0'
  · refine ite_keeps (K := Sound p) (fun _ => ?_) (fun _ => ?_)
    · exact h0'
    · extract_lets -merge -useContext -underBinder +onlyGivenNames v6
      try clear_value v6
      extract_lets -merge -useContext -underBinder +onlyGivenNames v7
      try clear_value v7
      refine ite_keeps (K := Sound p) (fun _ => ?_) (fun _ => ?_)
      · exact anchorAbort_keeps h0'
      · extract_lets -merge -useContext -underBinder +onlyGivenNames v8
        try clear_value v8
        extract_lets -merge -useContext -underBinder +onlyGivenNames v9
        try clear_value v9
        extract_lets -merge -useContext -underBinder +onlyGivenNames v10
        have h11 : Sound p v10 := mailAll_keeps h0'
        try clear_value v10
        extract_lets -merge -useContext -underBinder +onlyGivenNames v12
        have h13 : Sound p v12 := commitRotation_keeps h11
        try clear_value v12
        refine each_keeps ?_ h13
        intro a14 a15 h16
        exact anchorLoss_keeps h16

theorem adoptArrives_keeps {p} {x0} {x1} {x2} {x3} (h0' : Sound p x3) : Sound p (adoptArrives x0 x1 x2 x3) := by
  unfold adoptArrives
  refine ite_keeps (K := Sound p) (fun _ => ?_) (fun _ => ?_)
  · exact h0'
  · exact State.onDom_keeps h0'

theorem takeoverArrives_keeps {p} {x0} {x1} {x2} {x3} (h0' : Sound p x3) : Sound p (takeoverArrives x0 x1 x2 x3) := by
  unfold takeoverArrives
  extract_lets -merge -useContext -underBinder +onlyGivenNames v4
  try clear_value v4
  extract_lets -merge -useContext -underBinder +onlyGivenNames v5
  try clear_value v5
  refine ite_keeps (K := Sound p) (fun _ => ?_) (fun _ => ?_)
  · exact h0'
  · extract_lets -merge -useContext -underBinder +onlyGivenNames v6
    have h7 : Sound p v6 := mailAll_keeps h0'
    try clear_value v6
    extract_lets -merge -useContext -underBinder +onlyGivenNames v8
    have h9 : Sound p v8 := by
      refine ite_keeps (K := Sound p) (fun _ => ?_) (fun _ => ?_)
      · exact h7
      · exact abortRotation_keeps h7
    try clear_value v8
    exact State.onDom_keeps h9

theorem tableSync_keeps {p} {x0} {x1} {x2} {x3} (h0' : Sound p x3) : Sound p (tableSync x0 x1 x2 x3) := by
  unfold tableSync
  extract_lets -merge -useContext -underBinder +onlyGivenNames v4
  try clear_value v4
  refine ite_keeps (K := Sound p) (fun _ => ?_) (fun _ => ?_)
  · exact h0'
  · refine each_keeps ?_ h0'
    intro a5 a6 h7
    exact setMember_keeps h7

theorem leaveArrives_keeps {p} {x0} {x1} {x2} {x3} (h0' : Sound p x3) : Sound p (leaveArrives x0 x1 x2 x3) := by
  unfold leaveArrives
  extract_lets -merge -useContext -underBinder +onlyGivenNames v4
  try clear_value v4
  refine ite_keeps (K := Sound p) (fun _ => ?_) (fun _ => ?_)
  · exact h0'
  · refine ite_keeps (K := Sound p) (fun _ => ?_) (fun _ => ?_)
    · exact anchorLoss_keeps h0'
    · refine ite_keeps (K := Sound p) (fun _ => ?_) (fun _ => ?_)
      · exact takeover_keeps h0'
      · refine ite_keeps (K := Sound p) (fun _ => ?_) (fun _ => ?_)
        · extract_lets -merge -useContext -underBinder +onlyGivenNames v5
          have h6 : Sound p v5 := by
            unfold v5
            split
            · exact retireSlot_keeps h0'
            · exact h0'
          try clear_value v5
          exact confirmUp_keeps (State.onDom_keeps h6)
        · exact State.onDom_keeps h0'

theorem domainEnds_keeps {p} {x0} {x1} {x2} {x3} (h0' : Sound p x3) : Sound p (domainEnds x0 x1 x2 x3) := by
  unfold domainEnds
  extract_lets -merge -useContext -underBinder +onlyGivenNames v4
  try clear_value v4
  refine ite_keeps (K := Sound p) (fun _ => ?_) (fun _ => ?_)
  · exact h0'
  · exact endMembership_keeps (mailAll_keeps h0')

theorem rejoinExpiry_keeps {p} {x0} {x1} {x2} (h0' : Sound p x2) : Sound p (rejoinExpiry x0 x1 x2) := by
  unfold rejoinExpiry
  split
  · refine ite_keeps (K := Sound p) (fun _ => ?_) (fun _ => ?_)
    · exact h0'
    · exact lossRotation_keeps (State.onDom_keeps h0')
  · exact h0'

theorem settleDomain_keeps {p} {x0} {x1} (h0' : Sound p x1) : Sound p (settleDomain x0 x1) := by
  unfold settleDomain
  extract_lets -merge -useContext -underBinder +onlyGivenNames v2
  try clear_value v2
  extract_lets -merge -useContext -underBinder +onlyGivenNames v3
  have h4 : Sound p v3 := payOwed_keeps (unjoin_keeps h0')
  try clear_value v3
  extract_lets -merge -useContext -underBinder +onlyGivenNames v5
  have h6 : Sound p v5 := by
    refine ite_keeps (K := Sound p) (fun _ => ?_) (fun _ => ?_)
    · exact commitRotation_keeps h4
    · exact h4
  try clear_value v5
  extract_lets -merge -useContext -underBinder +onlyGivenNames v7
  have h8 : Sound p v7 := by
    unfold v7
    split
    · exact h6
    · extract_lets -merge -useContext -underBinder +onlyGivenNames v11
      try clear_value v11
      extract_lets -merge -useContext -underBinder +onlyGivenNames v12
      have h13 : Sound p v12 := State.onDom_keeps h6
      try clear_value v12
      refine ite_keeps (K := Sound p) (fun _ => ?_) (fun _ => ?_)
      · exact h13
      · refine ite_keeps (K := Sound p) (fun _ => ?_) (fun _ => ?_)
        · exact startRotation_keeps h13
        · exact sendMail_keeps h13
  try clear_value v7
  extract_lets -merge -useContext -underBinder +onlyGivenNames w14 v15
  have h16 : Sound p w14 := State.onDom_keeps h8
  have h17 : Sound p v15 := by
    refine ite_keeps (K := Sound p) (fun _ => ?_) (fun _ => ?_)
    · exact h8
    · refine ite_keeps (K := Sound p) (fun _ => ?_) (fun _ => ?_)
      · exact anchorMark_keeps h16
      · exact sendMail_keeps h16
  try clear_value v15 w14
  exact retryRotation_keeps (resumePrepare_keeps h17)

theorem bodyDomainCreate_keeps {p} {x0} {x1} {x2} {x3} (h0' : Sound p x3) : Sound p (bodyDomainCreate x0 x1 x2 x3) := by
  unfold bodyDomainCreate
  extract_lets -merge -useContext -underBinder +onlyGivenNames v4
  try clear_value v4
  extract_lets -merge -useContext -underBinder +onlyGivenNames v5
  try clear_value v5
  extract_lets -merge -useContext -underBinder +onlyGivenNames v6
  try clear_value v6
  extract_lets -merge -useContext -underBinder +onlyGivenNames v7
  try clear_value v7
  extract_lets -merge -useContext -underBinder +onlyGivenNames v8
  try clear_value v8
  extract_lets -merge -useContext -underBinder +onlyGivenNames v9
  try clear_value v9
  extract_lets -merge -useContext -underBinder +onlyGivenNames v10
  try clear_value v10
  refine ite_keeps (K := Sound p) (fun _ => ?_) (fun _ => ?_)
  · exact failCmd_keeps h0'
  · refine ite_keeps (K := Sound p) (fun _ => ?_) (fun _ => ?_)
    · exact failCmd_keeps h0'
    · refine ite_keeps (K := Sound p) (fun _ => ?_) (fun _ => ?_)
      · exact failCmd_keeps h0'
      · refine ite_keeps (K := Sound p) (fun _ => ?_) (fun _ => ?_)
        · exact failCmd_keeps h0'
        · refine readIn_keeps ?_ h0'
          intro a11 h12
          extract_lets -merge -useContext -underBinder +onlyGivenNames v13
          try clear_value v13
          refine ite_keeps (K := Sound p) (fun _ => ?_) (fun _ => ?_)
          · exact failCmd_keeps h12
          · split
            · exact failCmd_keeps h12
            · split
              · exact failCmd_keeps h12
              · refine ite_keeps (K := Sound p) (fun _ => ?_) (fun _ => ?_)
                · exact waitDraw_keeps h12
                · refine ite_keeps (K := Sound p) (fun _ => ?_) (fun _ => ?_)
                  · exact failCmd_keeps (keyFails_keeps h12)
                  · split
                    · rename_i m18 m19 heq
                      have h20 : Sound p m19 := by
                        refine SoundR.get heq ?_
                        exact draw0_keeps h12
                      split
                      · rename_i m21 m22 heq
                        have h23 : Sound p m22 := by
                          refine SoundR.get heq ?_
                          exact draw0_keeps h20
                        extract_lets -merge -useContext -underBinder +onlyGivenNames v24
                        have h25 : ∀ x26 x27 x28 x29, Sound p x29 → Sound p (v24 x26 x27 x28 x29) := by
                          intro a30 a31 a32 a33 h34
                          try unfold v24
                          exact State.onKey_keeps h34
                        try clear_value v24
                        extract_lets -merge -useContext -underBinder +onlyGivenNames v35
                        have h36 : Sound p v35 := by
                          refine openRing_keeps ?_
                          exact h25 _ _ _ _ (h25 _ _ _ _ h23)
                        try clear_value v35
                        extract_lets -merge -useContext -underBinder +onlyGivenNames v37
                        have h38 : Sound p v37 := State.onDom_keeps h36
                        try clear_value v37
                        extract_lets -merge -useContext -underBinder +onlyGivenNames v39
                        have h40 : Sound p v39 := bindJob_keeps h38
                        try clear_value v39
                        extract_lets -merge -useContext -underBinder +onlyGivenNames v41
                        have h42 : Sound p v41 := by
                          refine each_keeps ?_ h40
                          intro a43 a44 h45
                          exact offerTo_keeps h45
                        try clear_value v41
                        exact done_keeps h42

theorem bodyDomainJoinPrepare_keeps {p} {x0} {x1} {x2} {x3} (h0' : Sound p x3) : Sound p (bodyDomainJoinPrepare x0 x1 x2 x3) := by
  unfold bodyDomainJoinPrepare
  extract_lets -merge -useContext -underBinder +onlyGivenNames v4
  try clear_value v4
  extract_lets -merge -useContext -underBinder +onlyGivenNames v5
  try clear_value v5
  extract_lets -merge -useContext -underBinder +onlyGivenNames v6
  try clear_value v6
  extract_lets -merge -useContext -underBinder +onlyGivenNames v7
  try clear_value v7
  extract_lets -merge -useContext -underBinder +onlyGivenNames v8
  try clear_value v8
  extract_lets -merge -useContext -underBinder +onlyGivenNames v9
  try clear_value v9
  refine ite_keeps (K := Sound p) (fun _ => ?_) (fun _ => ?_)
  · exact failCmd_keeps h0'
  · refine ite_keeps (K := Sound p) (fun _ => ?_) (fun _ => ?_)
    · exact failCmd_keeps h0'
    · extract_lets -merge -useContext -underBinder +onlyGivenNames v10
      have h11 : Sound p v10 := openRing_keeps h0'
      try clear_value v10
      exact done_keeps (State.onDom_keeps h11)

theorem bodyDomainMessage_keeps {p} {x0} {x1} {x2} {x3} (h0' : Sound p x3) : Sound p (bodyDomainMessage x0 x1 x2 x3) := by
  unfold bodyDomainMessage
  extract_lets -merge -useContext -underBinder +onlyGivenNames v4
  try clear_value v4
  refine readIn_keeps ?_ h0'
  intro a5 h6
  split
  · exact failCmd_keeps h6
  · refine ite_keeps (K := Sound p) (fun _ => ?_) (fun _ => ?_)
    · exact failCmd_keeps h6
    · split
      · exact failCmd_keeps h6
      · extract_lets -merge -useContext -underBinder +onlyGivenNames v11
        have h12 : Sound p v11 := by
          refine ite_keeps (K := Sound p) (fun _ => ?_) (fun _ => ?_)
          · exact Sound.of h6.ctrs h6.mem h6.link h6.keys h6.parts h6.objs h6.ctxs h6.queues h6.fences h6.accs h6.arrivals h6.users
                h6.opTab h6.doms (sorted_tupd h6.migs) h6.rings h6.profs h6.pending
          · exact State.onDom_keeps h6
        try clear_value v11
        exact keepRunning_keeps h12

theorem bodyDomainLeave_keeps {p} {x0} {x1} {x2} {x3} (h0' : Sound p x3) : Sound p (bodyDomainLeave x0 x1 x2 x3) := by
  unfold bodyDomainLeave
  extract_lets -merge -useContext -underBinder +onlyGivenNames v4
  try clear_value v4
  refine ite_keeps (K := Sound p) (fun _ => ?_) (fun _ => ?_)
  · exact failCmd_keeps h0'
  · refine keepRunning_keeps ?_
    exact endMembership_keeps (sendLeave_keeps h0')

theorem bodyDomainEnd_keeps {p} {x0} {x1} {x2} {x3} (h0' : Sound p x3) : Sound p (bodyDomainEnd x0 x1 x2 x3) := by
  unfold bodyDomainEnd
  extract_lets -merge -useContext -underBinder +onlyGivenNames v4
  try clear_value v4
  extract_lets -merge -useContext -underBinder +onlyGivenNames v5
  try clear_value v5
  refine ite_keeps (K := Sound p) (fun _ => ?_) (fun _ => ?_)
  · exact failCmd_keeps h0'
  · refine done_keeps ?_
    exact endMembership_keeps (mailAll_keeps h0')

theorem bodyDomainRotate_keeps {p} {x0} {x1} {x2} {x3} (h0' : Sound p x3) : Sound p (bodyDomainRotate x0 x1 x2 x3) := by
  unfold bodyDomainRotate
  extract_lets -merge -useContext -underBinder +onlyGivenNames v4
  try clear_value v4
  extract_lets -merge -useContext -underBinder +onlyGivenNames v5
  try clear_value v5
  extract_lets -merge -useContext -underBinder +onlyGivenNames v6
  try clear_value v6
  refine ite_keeps (K := Sound p) (fun _ => ?_) (fun _ => ?_)
  · exact failCmd_keeps h0'
  · exact startRotation_keeps (keepRunning_keeps h0')

theorem bodyDomainStatus_keeps {p} {x0} {x1} {x2} {x3} (h0' : Sound p x3) : Sound p (bodyDomainStatus x0 x1 x2 x3) := by
  unfold bodyDomainStatus
  extract_lets -merge -useContext -underBinder +onlyGivenNames v4
  try clear_value v4
  extract_lets -merge -useContext -underBinder +onlyGivenNames v5
  try clear_value v5
  refine ite_keeps (K := Sound p) (fun _ => ?_) (fun _ => ?_)
  · exact failCmd_keeps h0'
  · extract_lets -merge -useContext -underBinder +onlyGivenNames v6
    try clear_value v6
    exact done_keeps h0'

theorem bodyDomainAttachMap_keeps {p} {x0} {x1} {x2} {x3} (h0' : Sound p x3) : Sound p (bodyDomainAttachMap x0 x1 x2 x3) := by
  unfold bodyDomainAttachMap
  extract_lets -merge -useContext -underBinder +onlyGivenNames v4
  try clear_value v4
  extract_lets -merge -useContext -underBinder +onlyGivenNames v5
  try clear_value v5
  extract_lets -merge -useContext -underBinder +onlyGivenNames v6
  try clear_value v6
  extract_lets -merge -useContext -underBinder +onlyGivenNames v7
  try clear_value v7
  refine ite_keeps (K := Sound p) (fun _ => ?_) (fun _ => ?_)
  · exact failCmd_keeps h0'
  · exact done_keeps (State.onDom_keeps h0')

end Sys2Proof.Machine
end

