-- ==== Sys2Proof/Laws/SoundParts.lean ====
section
/-! SUPPORT. Operations that keep the tables in order and the queue as it was (Laws/Sound.lean): the host link, metering, partitions, objects and migration. -/

namespace Sys2Proof.Machine
open Sys2Proof Sys2Proof.Crypto

theorem onIde_keeps {p} {x0} {x1} {x2} (h0' : Sound p x2) : Sound p (onIde x0 x1 x2) := by
  unfold onIde
  exact Sound.of h0'.ctrs h0'.mem h0'.link h0'.keys h0'.parts h0'.objs h0'.ctxs h0'.queues h0'.fences h0'.accs h0'.arrivals h0'.users
      h0'.opTab h0'.doms h0'.migs h0'.rings h0'.profs h0'.pending

theorem onTdisp_keeps {p} {x0} {x1} {x2} (h0' : Sound p x2) : Sound p (onTdisp x0 x1 x2) := by
  unfold onTdisp
  exact Sound.of h0'.ctrs h0'.mem h0'.link h0'.keys h0'.parts h0'.objs h0'.ctxs h0'.queues h0'.fences h0'.accs h0'.arrivals h0'.users
      h0'.opTab h0'.doms h0'.migs h0'.rings h0'.profs h0'.pending

theorem refuseHost_keeps {p} {x0} {x1} {x2} (h0' : Sound p x2) : Sound p (refuseHost x0 x1 x2) := by
  unfold refuseHost
  extract_lets -merge -useContext -underBinder +onlyGivenNames v3
  have h4 : Sound p v3 := fenceReport_keeps h0'
  try clear_value v3
  exact emit_keeps (bump_keeps h4)

theorem ideFailure_keeps {p} {x0} {x1} (h0' : Sound p x1) : Sound p (ideFailure x0 x1) := by
  unfold ideFailure
  extract_lets -merge -useContext -underBinder +onlyGivenNames v2
  try clear_value v2
  refine ite_keeps (K := Sound p) (fun _ => ?_) (fun _ => ?_)
  · exact h0'
  · extract_lets -merge -useContext -underBinder +onlyGivenNames v3
    have h4 : Sound p v3 := by
      refine each_keeps ?_ h0'
      intro a5 a6 h7
      exact retireSlot_keeps h7
    try clear_value v3
    extract_lets -merge -useContext -underBinder +onlyGivenNames w8 v9
    have h10 : Sound p v9 := by
      exact Sound.of h4.ctrs h4.mem h4.link h4.keys h4.parts h4.objs h4.ctxs h4.queues h4.fences h4.accs h4.arrivals h4.users h4.opTab
          h4.doms h4.migs h4.rings h4.profs h4.pending
    try clear_value v9 w8
    exact faultEvent_keeps (tdispFail_keeps h10)

theorem forwardHost_keeps {p} {x0} {x1} {x2} (h0' : Sound p x2) : Sound p (forwardHost x0 x1 x2) := by
  unfold forwardHost
  extract_lets -merge -useContext -underBinder +onlyGivenNames v3
  have h4 : Sound p v3 := by
    refine ite_keeps (K := Sound p) (fun _ => ?_) (fun _ => ?_)
    · exact addMeter_keeps (bump_keeps h0')
    · exact h0'
  try clear_value v3
  extract_lets -merge -useContext -underBinder +onlyGivenNames w5 v6
  have h7 : Sound p v6 := by
    exact Sound.of h4.ctrs h4.mem h4.link h4.keys h4.parts h4.objs h4.ctxs h4.queues h4.fences h4.accs h4.arrivals h4.users h4.opTab
        h4.doms h4.migs h4.rings h4.profs h4.pending
  try clear_value v6 w5
  exact emit_keeps h7

theorem hostGo_keeps {p} {x0} {x1} (h0' : Sound p x1) : SoundR p (hostGo x0 x1) := by
  unfold hostGo
  extract_lets -merge -useContext -underBinder +onlyGivenNames w2 v3
  try clear_value v3 w2
  refine ite_keeps (K := SoundR p) (fun _ => ?_) (fun _ => ?_)
  · refine SoundR.mk ?_
    exact refuseHost_keeps h0'
  · refine ite_keeps (K := SoundR p) (fun _ => ?_) (fun _ => ?_)
    · refine SoundR.mk ?_
      exact forwardHost_keeps h0'
    · split
      · refine SoundR.mk ?_
        exact refuseHost_keeps h0'
      · refine ite_keeps (K := SoundR p) (fun _ => ?_) (fun _ => ?_)
        · refine SoundR.mk ?_
          exact refuseHost_keeps h0'
        · split
          · rename_i m7 heq
            have h8 : Sound p m7 := by
              refine SoundR.get heq ?_
              exact askKey_keeps h0'
            refine SoundR.mk ?_
            exact h8
          · rename_i m9 m10 heq
            have h11 : Sound p m10 := by
              refine SoundR.get heq ?_
              exact askKey_keeps h0'
            split
            · refine SoundR.mk ?_
              exact refuseHost_keeps (ideFailure_keeps h11)
            · refine SoundR.mk ?_
              exact forwardHost_keeps h11

theorem hostTry_keeps {p} {x0} {x1} (h0' : Sound p x1) : Sound p (hostTry x0 x1) := by
  unfold hostTry
  extract_lets -merge -useContext -underBinder +onlyGivenNames v2
  have h3 : ∀ x4, Sound p x4 → Sound p (v2 x4) := by
    intro a5 h6
    try unfold v2
    exact Sound.of h6.ctrs h6.mem h6.link h6.keys h6.parts h6.objs h6.ctxs h6.queues h6.fences h6.accs h6.arrivals h6.users h6.opTab
        h6.doms h6.migs h6.rings h6.profs h6.pending
  try clear_value v2
  refine ite_keeps (K := Sound p) (fun _ => ?_) (fun _ => ?_)
  · exact h3 _ h0'
  · split
    · rename_i m7 heq
      have h8 : Sound p m7 := by
        refine SoundR.get heq ?_
        exact hostGo_keeps h0'
      exact h8
    · rename_i m9 heq
      have h10 : Sound p m9 := by
        refine SoundR.get heq ?_
        exact hostGo_keeps h0'
      exact h3 _ h10

theorem hostDma_keeps {p} {x0} {x1} (h0' : Sound p x1) : Sound p (hostDma x0 x1) := by
  unfold hostDma
  refine ite_keeps (K := Sound p) (fun _ => ?_) (fun _ => ?_)
  · exact h0'
  · refine hostTry_keeps ?_
    exact bump_keeps (State.onPort_keeps h0')

theorem settleHost_keeps {p} {x0} (h0' : Sound p x0) : Sound p (settleHost x0) := by
  unfold settleHost
  extract_lets -merge -useContext -underBinder +onlyGivenNames v1
  try clear_value v1
  extract_lets -merge -useContext -underBinder +onlyGivenNames w2 v3
  have h4 : Sound p v3 := by
    refine each_keeps ?_ (Sound.of h0'.ctrs h0'.mem h0'.link h0'.keys h0'.parts h0'.objs h0'.ctxs h0'.queues h0'.fences h0'.accs
        h0'.arrivals h0'.users h0'.opTab h0'.doms h0'.migs h0'.rings h0'.profs h0'.pending)
    intro a5 a6 h7
    split
    · rename_i m8 heq
      have h9 : Sound p m8 := by
        refine SoundR.get heq ?_
        exact hostAnswer_keeps h7
      exact h9
    · rename_i m10 heq
      have h11 : Sound p m10 := by
        refine SoundR.get heq ?_
        exact hostAnswer_keeps h7
      exact Sound.of h11.ctrs h11.mem h11.link h11.keys h11.parts h11.objs h11.ctxs h11.queues h11.fences h11.accs h11.arrivals h11.users
          h11.opTab h11.doms h11.migs h11.rings h11.profs h11.pending
  try clear_value v3 w2
  extract_lets -merge -useContext -underBinder +onlyGivenNames v12
  try clear_value v12
  refine each_keeps ?_ (Sound.of h4.ctrs h4.mem h4.link h4.keys h4.parts h4.objs h4.ctxs h4.queues h4.fences h4.accs h4.arrivals h4.users
      h4.opTab h4.doms h4.migs h4.rings h4.profs h4.pending)
  intro a13 a14 h15
  exact hostTry_keeps h15

theorem endSession_keeps {p} {x0} {x1} (h0' : Sound p x1) : Sound p (endSession x0 x1) := by
  unfold endSession
  refine each_keeps ?_ (Sound.of h0'.ctrs h0'.mem h0'.link h0'.keys h0'.parts h0'.objs h0'.ctxs h0'.queues h0'.fences h0'.accs h0'.arrivals
      h0'.users h0'.opTab h0'.doms h0'.migs h0'.rings h0'.profs h0'.pending)
  intro a2 a3 h4
  exact retireSlot_keeps h4

theorem sessionKeys_keeps {p} {x0} {x1} (h0' : Sound p x1) : SoundR p (sessionKeys x0 x1) := by
  unfold sessionKeys
  refine ite_keeps (K := SoundR p) (fun _ => ?_) (fun _ => ?_)
  · refine SoundR.mk ?_
    exact keyFails_keeps h0'
  · split
    · refine SoundR.mk ?_
      exact h0'
    · split
      · refine SoundR.mk ?_
        exact h0'
      · extract_lets -merge -useContext -underBinder +onlyGivenNames v6
        try clear_value v6
        refine SoundR.mk ?_
        refine firstKey_keeps ?_
        exact firstKey_keeps (Sound.of h0'.ctrs h0'.mem h0'.link h0'.keys h0'.parts h0'.objs h0'.ctxs h0'.queues h0'.fences h0'.accs
            h0'.arrivals h0'.users h0'.opTab h0'.doms h0'.migs h0'.rings h0'.profs h0'.pending)

theorem updateKeys_keeps {p} {x0} {x1} (h0' : Sound p x1) : SoundR p (updateKeys x0 x1) := by
  unfold updateKeys
  extract_lets -merge -useContext -underBinder +onlyGivenNames v2
  try clear_value v2
  refine ite_keeps (K := SoundR p) (fun _ => ?_) (fun _ => ?_)
  · refine SoundR.mk ?_
    exact keyFails_keeps h0'
  · refine SoundR.mk ?_
    extract_lets -merge -useContext -underBinder +onlyGivenNames v3
    have h4 : Sound p v3 := by
      refine each_keeps ?_ h0'
      intro a5 a6 h7
      refine startPurge_keeps ?_
      exact commitSwap_keeps (State.onKey_keeps h7)
    try clear_value v3
    exact Sound.of h4.ctrs h4.mem h4.link h4.keys h4.parts h4.objs h4.ctxs h4.queues h4.fences h4.accs h4.arrivals h4.users h4.opTab
        h4.doms h4.migs h4.rings h4.profs h4.pending

theorem spdmCount_keeps {p} {x0} {x1} (h0' : Sound p x1) : Sound p (spdmCount x0 x1) := by
  unfold spdmCount
  exact Sound.of h0'.ctrs h0'.mem h0'.link h0'.keys h0'.parts h0'.objs h0'.ctxs h0'.queues h0'.fences h0'.accs h0'.arrivals h0'.users
      h0'.opTab h0'.doms h0'.migs h0'.rings h0'.profs h0'.pending

theorem spdmServe_keeps {p} {x0} {x1} {x2} (h0' : Sound p x2) : SoundR p (spdmServe x0 x1 x2) := by
  unfold spdmServe
  extract_lets -merge -useContext -underBinder +onlyGivenNames v3
  try clear_value v3
  extract_lets -merge -useContext -underBinder +onlyGivenNames v4
  try clear_value v4
  extract_lets -merge -useContext -underBinder +onlyGivenNames v5
  have h6 : ∀ x7 x8, Sound p x8 → SoundR p (v5 x7 x8) := by
    intro a9 a10 h11
    try unfold v5
    refine SoundR.mk ?_
    exact Sound.of h11.ctrs h11.mem h11.link h11.keys h11.parts h11.objs h11.ctxs h11.queues h11.fences h11.accs h11.arrivals h11.users
        h11.opTab h11.doms h11.migs h11.rings h11.profs h11.pending
  try clear_value v5
  refine ite_keeps (K := SoundR p) (fun _ => ?_) (fun _ => ?_)
  · refine SoundR.mk ?_
    exact h0'
  · refine ite_keeps (K := SoundR p) (fun _ => ?_) (fun _ => ?_)
    · refine ite_keeps (K := SoundR p) (fun _ => ?_) (fun _ => ?_)
      · refine SoundR.mk ?_
        exact h0'
      · split
        · rename_i m12 m13 heq
          have h14 : Sound p m13 := by
            refine SoundR.get heq ?_
            exact zeler_keeps h0'
          exact h6 _ _ h14
    · refine ite_keeps (K := SoundR p) (fun _ => ?_) (fun _ => ?_)
      · refine ite_keeps (K := SoundR p) (fun _ => ?_) (fun _ => ?_)
        · refine SoundR.mk ?_
          exact h0'
        · exact h6 _ _ (Sound.of h0'.ctrs h0'.mem h0'.link h0'.keys h0'.parts h0'.objs h0'.ctxs h0'.queues h0'.fences h0'.accs h0'.arrivals
              h0'.users h0'.opTab h0'.doms h0'.migs h0'.rings h0'.profs h0'.pending)
      · refine ite_keeps (K := SoundR p) (fun _ => ?_) (fun _ => ?_)
        · refine ite_keeps (K := SoundR p) (fun _ => ?_) (fun _ => ?_)
          · refine SoundR.mk ?_
            exact h0'
          · split
            · rename_i m15 heq
              have h16 : Sound p m15 := by
                refine SoundR.get heq ?_
                exact sessionKeys_keeps h0'
              exact h6 _ _ h16
            · rename_i m17 heq
              have h18 : Sound p m17 := by
                refine SoundR.get heq ?_
                exact sessionKeys_keeps h0'
              refine SoundR.mk ?_
              exact h18
        · refine ite_keeps (K := SoundR p) (fun _ => ?_) (fun _ => ?_)
          · refine ite_keeps (K := SoundR p) (fun _ => ?_) (fun _ => ?_)
            · refine SoundR.mk ?_
              exact h0'
            · refine ite_keeps (K := SoundR p) (fun _ => ?_) (fun _ => ?_)
              · exact h6 _ _ (endSession_keeps h0')
              · refine ite_keeps (K := SoundR p) (fun _ => ?_) (fun _ => ?_)
                · split
                  · rename_i m19 heq
                    have h20 : Sound p m19 := by
                      refine SoundR.get heq ?_
                      exact updateKeys_keeps h0'
                    exact h6 _ _ h20
                  · rename_i m21 heq
                    have h22 : Sound p m21 := by
                      refine SoundR.get heq ?_
                      exact updateKeys_keeps h0'
                    refine SoundR.mk ?_
                    exact h22
                · exact h6 _ _ h0'
          · exact h6 _ _ h0'

theorem spdmRequest_keeps {p} {x0} {x1} {x2} (h0' : Sound p x2) : Sound p (spdmRequest x0 x1 x2) := by
  unfold spdmRequest
  extract_lets -merge -useContext -underBinder +onlyGivenNames v3
  try clear_value v3
  refine ite_keeps (K := Sound p) (fun _ => ?_) (fun _ => ?_)
  · exact h0'
  · split
    · exact h0'
    · extract_lets -merge -useContext -underBinder +onlyGivenNames v6
      have h7 : Sound p v6 := by
        refine ite_keeps (K := Sound p) (fun _ => ?_) (fun _ => ?_)
        · refine scratchIn_keeps ?_
          exact spdmCount_keeps (bump_keeps h0')
        · exact bump_keeps h0'
      try clear_value v6
      split
      · rename_i m8 m9 heq
        have h10 : Sound p m9 := by
          refine SoundR.get heq ?_
          exact spdmServe_keeps h7
        refine emit_keeps ?_
        refine ite_keeps (K := Sound p) (fun _ => ?_) (fun _ => ?_)
        · exact scratchOut_keeps h10
        · exact h10

theorem keyProg_keeps {p} {x0} {x1} {x2} {x3} {x4} {x5} (h0' : Sound p x5) : Sound p (keyProg x0 x1 x2 x3 x4 x5) := by
  unfold keyProg
  extract_lets -merge -useContext -underBinder +onlyGivenNames v6
  try clear_value v6
  extract_lets -merge -useContext -underBinder +onlyGivenNames v7
  try clear_value v7
  refine ite_keeps (K := Sound p) (fun _ => ?_) (fun _ => ?_)
  · exact h0'
  · refine ite_keeps (K := Sound p) (fun _ => ?_) (fun _ => ?_)
    · exact emit_keeps h0'
    · extract_lets -merge -useContext -underBinder +onlyGivenNames v8
      try clear_value v8
      split
      · exact emit_keeps h0'
      · extract_lets -merge -useContext -underBinder +onlyGivenNames v11
        try clear_value v11
        refine ite_keeps (K := Sound p) (fun _ => ?_) (fun _ => ?_)
        · exact emit_keeps h0'
        · refine ite_keeps (K := Sound p) (fun _ => ?_) (fun _ => ?_)
          · exact emit_keeps (keyFails_keeps h0')
          · extract_lets -merge -useContext -underBinder +onlyGivenNames v12
            have h13 : Sound p v12 := State.onKey_keeps h0'
            try clear_value v12
            exact emit_keeps (onIde_keeps h13)

theorem kSetGo_keeps {p} {x0} {x1} {x2} {x3} (h0' : Sound p x3) : Sound p (kSetGo x0 x1 x2 x3) := by
  unfold kSetGo
  extract_lets -merge -useContext -underBinder +onlyGivenNames v4
  try clear_value v4
  refine ite_keeps (K := Sound p) (fun _ => ?_) (fun _ => ?_)
  · exact h0'
  · refine ite_keeps (K := Sound p) (fun _ => ?_) (fun _ => ?_)
    · exact emit_keeps h0'
    · extract_lets -merge -useContext -underBinder +onlyGivenNames v5
      have h6 : Sound p v5 := by
        refine each_keeps ?_ h0'
        intro a7 a8 h9
        refine ite_keeps (K := Sound p) (fun _ => ?_) (fun _ => ?_)
        · exact commitFirst_keeps h9
        · exact commitSwap_keeps h9
      try clear_value v5
      exact emit_keeps (onIde_keeps h6)

theorem streamEnds_keeps {p} {x0} {x1} (h0' : Sound p x1) : Sound p (streamEnds x0 x1) := by
  unfold streamEnds
  exact tdispFail_keeps h0'

theorem kSetStop_keeps {p} {x0} {x1} {x2} {x3} (h0' : Sound p x3) : Sound p (kSetStop x0 x1 x2 x3) := by
  unfold kSetStop
  extract_lets -merge -useContext -underBinder +onlyGivenNames v4
  try clear_value v4
  extract_lets -merge -useContext -underBinder +onlyGivenNames v5
  try clear_value v5
  refine ite_keeps (K := Sound p) (fun _ => ?_) (fun _ => ?_)
  · exact h0'
  · refine ite_keeps (K := Sound p) (fun _ => ?_) (fun _ => ?_)
    · exact emit_keeps h0'
    · extract_lets -merge -useContext -underBinder +onlyGivenNames v6
      have h7 : Sound p v6 := by
        refine each_keeps ?_ h0'
        intro a8 a9 h10
        exact retireSlot_keeps h10
      try clear_value v6
      extract_lets -merge -useContext -underBinder +onlyGivenNames v11
      have h12 : Sound p v11 := onIde_keeps h7
      try clear_value v11
      refine emit_keeps ?_
      refine ite_keeps (K := Sound p) (fun _ => ?_) (fun _ => ?_)
      · exact streamEnds_keeps h12
      · exact h12

theorem tdispAnswer_keeps {p} {x0} {x1} {x2} (h0' : Sound p x2) : Sound p (tdispAnswer x0 x1 x2) := by
  unfold tdispAnswer
  exact emit_keeps h0'

theorem lockInterface_keeps {p} {x0} {x1} {x2} {x3} {x4} (h0' : Sound p x4) : Sound p (lockInterface x0 x1 x2 x3 x4) := by
  unfold lockInterface
  refine ite_keeps (K := Sound p) (fun _ => ?_) (fun _ => ?_)
  · exact h0'
  · refine ite_keeps (K := Sound p) (fun _ => ?_) (fun _ => ?_)
    · exact tdispAnswer_keeps h0'
    · exact tdispAnswer_keeps (onTdisp_keeps h0')

theorem startInterface_keeps {p} {x0} {x1} {x2} (h0' : Sound p x2) : Sound p (startInterface x0 x1 x2) := by
  unfold startInterface
  extract_lets -merge -useContext -underBinder +onlyGivenNames v3
  try clear_value v3
  refine ite_keeps (K := Sound p) (fun _ => ?_) (fun _ => ?_)
  · exact h0'
  · refine ite_keeps (K := Sound p) (fun _ => ?_) (fun _ => ?_)
    · exact tdispAnswer_keeps (onTdisp_keeps h0')
    · exact tdispAnswer_keeps h0'

theorem stopInterface_keeps {p} {x0} {x1} {x2} (h0' : Sound p x2) : Sound p (stopInterface x0 x1 x2) := by
  unfold stopInterface
  refine ite_keeps (K := Sound p) (fun _ => ?_) (fun _ => ?_)
  · exact h0'
  · refine ite_keeps (K := Sound p) (fun _ => ?_) (fun _ => ?_)
    · exact tdispAnswer_keeps h0'
    · refine tdispAnswer_keeps ?_
      exact stopSecure_keeps (onTdisp_keeps h0')

theorem interfaceReport_keeps {p} {x0} {x1} {x2} (h0' : Sound p x2) : Sound p (interfaceReport x0 x1 x2) := by
  unfold interfaceReport
  extract_lets -merge -useContext -underBinder +onlyGivenNames v3
  try clear_value v3
  refine ite_keeps (K := Sound p) (fun _ => ?_) (fun _ => ?_)
  · exact h0'
  · split
    · refine ite_keeps (K := Sound p) (fun _ => ?_) (fun _ => ?_)
      · exact emit_keeps h0'
      · exact tdispAnswer_keeps h0'
    · exact tdispAnswer_keeps h0'

theorem chargeSlice_keeps {p} {x0} {x1} {x2} (h0' : Sound p x2) : Sound p (chargeSlice x0 x1 x2) := by
  unfold chargeSlice
  extract_lets -merge -useContext -underBinder +onlyGivenNames v3
  try clear_value v3
  extract_lets -merge -useContext -underBinder +onlyGivenNames v4
  have h5 : Sound p v4 := by
    unfold v4
    split
    · exact addMeter_keeps h0'
    · exact h0'
  try clear_value v4
  refine each_keeps ?_ h5
  intro a8 a9 h10
  refine addMeter_keeps ?_
  exact addMeter_keeps (addMeter_keeps h10)

theorem chargeTo_keeps {p} {x0} {x1} (h0' : Sound p x1) : Sound p (chargeTo x0 x1) := by
  unfold chargeTo
  extract_lets -merge -useContext -underBinder +onlyGivenNames v2
  have h3 : Sound p v2 := by
    refine each_keeps ?_ h0'
    intro a4 a5 h6
    exact chargeSlice_keeps h6
  try clear_value v2
  exact Sound.of h3.ctrs h3.mem h3.link h3.keys h3.parts h3.objs h3.ctxs h3.queues h3.fences h3.accs h3.arrivals h3.users h3.opTab h3.doms
      h3.migs h3.rings h3.profs h3.pending

theorem meterPut_keeps {p} {x0} {x1} {x2} (h0' : Sound p x2) : Sound p (meterPut x0 x1 x2) := by
  unfold meterPut
  extract_lets -merge -useContext -underBinder +onlyGivenNames w3 v4
  have h5 : Sound p v4 := by
    exact Sound.of h0'.ctrs h0'.mem h0'.link h0'.keys h0'.parts h0'.objs h0'.ctxs h0'.queues h0'.fences h0'.accs h0'.arrivals h0'.users
        h0'.opTab h0'.doms h0'.migs h0'.rings h0'.profs h0'.pending
  try clear_value v4 w3
  split
  · exact h5
  · refine ite_keeps (K := Sound p) (fun _ => ?_) (fun _ => ?_)
    · exact Option.getD_keeps (ringPut_keeps h0') h5
    · exact h5

theorem drainItems_keeps {p} {x0} {x1} {x2} (h0' : Sound p x2) : SoundR p (drainItems x0 x1 x2) := by
  induction x1 generalizing x0 x2 with
  | nil =>
    unfold drainItems
    refine SoundR.mk ?_
    exact h0'
  | cons y ys ih =>
    unfold drainItems
    split
    · rename_i m7 heq
      have h8 : Sound p m7 := by
        refine SoundO.get heq ?_
        exact ringPut_keeps h0'
      exact ih h8
    · refine SoundR.mk ?_
      exact h0'

theorem drainBacklog_keeps {p} {x0} (h0' : Sound p x0) : Sound p (drainBacklog x0) := by
  unfold drainBacklog
  split
  · exact h0'
  · split
    · rename_i m3 m4 heq
      have h5 : Sound p m4 := by
        refine SoundR.get heq ?_
        exact drainItems_keeps h0'
      extract_lets -merge -useContext -underBinder +onlyGivenNames w6 v7
      have h8 : Sound p v7 := by
        exact Sound.of h5.ctrs h5.mem h5.link h5.keys h5.parts h5.objs h5.ctxs h5.queues h5.fences h5.accs h5.arrivals h5.users h5.opTab
            h5.doms h5.migs h5.rings h5.profs h5.pending
      try clear_value v7 w6
      refine ite_keeps (K := Sound p) (fun _ => ?_) (fun _ => ?_)
      · exact endCondition_keeps (Sound.of h8.ctrs h8.mem h8.link h8.keys h8.parts h8.objs h8.ctxs h8.queues h8.fences h8.accs h8.arrivals
            h8.users h8.opTab h8.doms h8.migs h8.rings h8.profs h8.pending)
      · exact h8

theorem formRecord_keeps {p} {x0} {x1} {x2} (h0' : Sound p x2) : Sound p (formRecord x0 x1 x2) := by
  unfold formRecord
  extract_lets -merge -useContext -underBinder +onlyGivenNames v3
  try clear_value v3
  refine bump_keeps ?_
  exact meterPut_keeps (Sound.of h0'.ctrs h0'.mem h0'.link h0'.keys h0'.parts h0'.objs h0'.ctxs h0'.queues h0'.fences h0'.accs h0'.arrivals
      h0'.users h0'.opTab h0'.doms h0'.migs h0'.rings h0'.profs h0'.pending)

theorem recordPartition_keeps {p} {x0} {x1} {x2} {x3} (h0' : Sound p x3) : Sound p (recordPartition x0 x1 x2 x3) := by
  unfold recordPartition
  extract_lets -merge -useContext -underBinder +onlyGivenNames v4
  try clear_value v4
  refine ite_keeps (K := Sound p) (fun _ => ?_) (fun _ => ?_)
  · exact State.onPart_keeps h0'
  · extract_lets -merge -useContext -underBinder +onlyGivenNames v5
    try clear_value v5
    extract_lets -merge -useContext -underBinder +onlyGivenNames v6
    have h7 : Sound p v6 := formRecord_keeps h0'
    try clear_value v6
    exact State.onPart_keeps h7

theorem recordFinal_keeps {p} {x0} {x1} (h0' : Sound p x1) : Sound p (recordFinal x0 x1) := by
  unfold recordFinal
  refine ite_keeps (K := Sound p) (fun _ => ?_) (fun _ => ?_)
  · exact h0'
  · exact formRecord_keeps (Sound.of h0'.ctrs h0'.mem h0'.link h0'.keys h0'.parts h0'.objs h0'.ctxs h0'.queues h0'.fences h0'.accs
        h0'.arrivals h0'.users h0'.opTab h0'.doms h0'.migs h0'.rings h0'.profs h0'.pending)

theorem recordAll_keeps {p} {x0} {x1} {x2} (h0' : Sound p x2) : Sound p (recordAll x0 x1 x2) := by
  unfold recordAll
  refine each_keeps ?_ h0'
  intro a3 a4 h5
  extract_lets -merge -useContext -underBinder +onlyGivenNames v6
  have h7 : Sound p v6 := by
    refine each_keeps ?_ h5
    intro a8 a9 h10
    exact recordFinal_keeps h10
  try clear_value v6
  refine ite_keeps (K := Sound p) (fun _ => ?_) (fun _ => ?_)
  · exact h7
  · exact recordPartition_keeps h7

theorem settleKey_keeps {p} {x0} (h0' : Sound p x0) : Sound p (settleKey x0) := by
  unfold settleKey
  extract_lets -merge -useContext -underBinder +onlyGivenNames w1 v2
  have h3 : Sound p v2 := by
    exact Sound.of h0'.ctrs h0'.mem h0'.link h0'.keys h0'.parts h0'.objs h0'.ctxs h0'.queues h0'.fences h0'.accs h0'.arrivals h0'.users
        h0'.opTab h0'.doms h0'.migs h0'.rings h0'.profs h0'.pending
  try clear_value v2 w1
  split
  · refine ite_keeps (K := Sound p) (fun _ => ?_) (fun _ => ?_)
    · exact startPurge_keeps h3
    · exact h3
  · exact h3

theorem endInterval_keeps {p} {x0} {x1} {x2} (h0' : Sound p x2) : Sound p (endInterval x0 x1 x2) := by
  unfold endInterval
  extract_lets -merge -useContext -underBinder +onlyGivenNames v3
  have h4 : Sound p v3 := recordAll_keeps (chargeTo_keeps h0')
  try clear_value v3
  extract_lets -merge -useContext -underBinder +onlyGivenNames v5
  try clear_value v5
  extract_lets -merge -useContext -underBinder +onlyGivenNames w6 v7
  have h8 : Sound p v7 := by
    refine ite_keeps (K := Sound p) (fun _ => ?_) (fun _ => ?_)
    · exact faultEvent_keeps (Sound.of h4.ctrs h4.mem h4.link h4.keys h4.parts h4.objs h4.ctxs h4.queues h4.fences h4.accs h4.arrivals
          h4.users h4.opTab h4.doms h4.migs h4.rings h4.profs h4.pending)
    · exact h4
  try clear_value v7 w6
  exact settleKey_keeps (Sound.of h8.ctrs h8.mem h8.link h8.keys h8.parts h8.objs h8.ctxs h8.queues h8.fences h8.accs h8.arrivals h8.users
      h8.opTab h8.doms h8.migs h8.rings h8.profs h8.pending)

theorem chargeNow_keeps {p} {x0} (h0' : Sound p x0) : Sound p (chargeNow x0) := by
  unfold chargeNow
  extract_lets -merge -useContext -underBinder +onlyGivenNames v1
  have h2 : Sound p v1 := by
    unfold v1
    split
    · exact endInterval_keeps h0'
    · exact h0'
  try clear_value v1
  exact chargeTo_keeps h2

theorem intervalEnd_keeps {p} {x0} (h0' : Sound p x0) : Sound p (intervalEnd x0) := by
  unfold intervalEnd
  split
  · exact endInterval_keeps h0'
  · exact h0'

theorem checkpoint_keeps {p} {x0} (h0' : Sound p x0) : Sound p (checkpoint x0) := by
  unfold checkpoint
  split
  · rename_i m1 m2 heq
    have h3 : Sound p m2 := by
      refine SoundR.get heq ?_
      exact zeler_keeps h0'
    exact meterPut_keeps h3

theorem checkpointDue_keeps {p} {x0} (h0' : Sound p x0) : Sound p (checkpointDue x0) := by
  unfold checkpointDue
  extract_lets -merge -useContext -underBinder +onlyGivenNames v1
  try clear_value v1
  refine ite_keeps (K := Sound p) (fun _ => ?_) (fun _ => ?_)
  · extract_lets -merge -useContext -underBinder +onlyGivenNames v2
    have h3 : Sound p v2 := checkpoint_keeps h0'
    try clear_value v2
    exact Sound.of h3.ctrs h3.mem h3.link h3.keys h3.parts h3.objs h3.ctxs h3.queues h3.fences h3.accs h3.arrivals h3.users h3.opTab
        h3.doms h3.migs h3.rings h3.profs h3.pending
  · exact h0'

theorem startChain_keeps {p} {x0} (h0' : Sound p x0) : Sound p (startChain x0) := by
  unfold startChain
  exact Sound.of h0'.ctrs h0'.mem h0'.link h0'.keys h0'.parts h0'.objs h0'.ctxs h0'.queues h0'.fences h0'.accs h0'.arrivals h0'.users
      h0'.opTab h0'.doms h0'.migs h0'.rings h0'.profs h0'.pending

theorem settleNotices_keeps {p} {x0} (h0' : Sound p x0) : Sound p (settleNotices x0) := by
  unfold settleNotices
  refine ite_keeps (K := Sound p) (fun _ => ?_) (fun _ => ?_)
  · exact h0'
  · extract_lets -merge -useContext -underBinder +onlyGivenNames v1
    have h2 : Sound p v1 := chargeTo_keeps h0'
    try clear_value v1
    extract_lets -merge -useContext -underBinder +onlyGivenNames v3
    try clear_value v3
    extract_lets -merge -useContext -underBinder +onlyGivenNames w4 v5
    have h6 : Sound p v5 := by
      exact Sound.of h2.ctrs h2.mem h2.link h2.keys h2.parts h2.objs h2.ctxs h2.queues h2.fences h2.accs h2.arrivals h2.users h2.opTab
          h2.doms h2.migs h2.rings h2.profs h2.pending
    try clear_value v5 w4
    exact Sound.of h6.ctrs h6.mem h6.link h6.keys h6.parts h6.objs h6.ctxs h6.queues h6.fences h6.accs h6.arrivals h6.users h6.opTab
        h6.doms h6.migs h6.rings h6.profs h6.pending

theorem runNotice_keeps {p} {x0} {x1} (h0' : Sound p x1) : Sound p (runNotice x0 x1) := by
  unfold runNotice
  extract_lets -merge -useContext -underBinder +onlyGivenNames v2
  try clear_value v2
  extract_lets -merge -useContext -underBinder +onlyGivenNames v3
  try clear_value v3
  extract_lets -merge -useContext -underBinder +onlyGivenNames v4
  try clear_value v4
  split
  · exact bump_keeps h0'
  · refine ite_keeps (K := Sound p) (fun _ => ?_) (fun _ => ?_)
    · exact bump_keeps h0'
    · exact Sound.of h0'.ctrs h0'.mem h0'.link h0'.keys h0'.parts h0'.objs h0'.ctxs h0'.queues h0'.fences h0'.accs h0'.arrivals h0'.users
          h0'.opTab h0'.doms h0'.migs h0'.rings h0'.profs h0'.pending

theorem nameRing_keeps {p} {x0} {x1} {x2} (h0' : Sound p x2) : Sound p (nameRing x0 x1 x2) := by
  unfold nameRing
  extract_lets -merge -useContext -underBinder +onlyGivenNames v3
  have h4 : Sound p v3 := openRing_keeps h0'
  try clear_value v3
  exact drainBacklog_keeps (Sound.of h4.ctrs h4.mem h4.link h4.keys h4.parts h4.objs h4.ctxs h4.queues h4.fences h4.accs h4.arrivals
      h4.users h4.opTab h4.doms h4.migs h4.rings h4.profs h4.pending)

theorem installMeterKey_keeps {p} {x0} {x1} (h0' : Sound p x1) : SoundO p (installMeterKey x0 x1) := by
  unfold installMeterKey
  split
  · refine SoundO.mk ?_
    exact commitSwap_keeps (State.onKey_keeps h0')
  · refine Option.map1_keeps ?_
    intro a4
    extract_lets -merge -useContext -underBinder +onlyGivenNames v5
    have h6 : Sound p v5 := firstKey_keeps h0'
    try clear_value v5
    exact Sound.of h6.ctrs h6.mem h6.link h6.keys h6.parts h6.objs h6.ctxs h6.queues h6.fences h6.accs h6.arrivals h6.users h6.opTab
        h6.doms h6.migs h6.rings h6.profs h6.pending

theorem meterConfig_keeps {p} {x0} {x1} (h0' : Sound p x1) : Sound p (meterConfig x0 x1) := by
  unfold meterConfig
  extract_lets -merge -useContext -underBinder +onlyGivenNames v2
  try clear_value v2
  extract_lets -merge -useContext -underBinder +onlyGivenNames v3
  try clear_value v3
  extract_lets -merge -useContext -underBinder +onlyGivenNames v4
  try clear_value v4
  refine ite_keeps (K := Sound p) (fun _ => ?_) (fun _ => ?_)
  · extract_lets -merge -useContext -underBinder +onlyGivenNames v5
    have h6 : Sound p v5 := nameRing_keeps h0'
    try clear_value v5
    exact done_keeps h6
  · split
    · exact failCmd_keeps h0'
    · refine takeKey_keeps ?_ h0'
      intro a9 h10
      split
      · exact failCmd_keeps h10
      · rename_i m12 heq
        have h13 : Sound p m12 := by
          refine SoundO.get heq ?_
          exact installMeterKey_keeps h10
        extract_lets -merge -useContext -underBinder +onlyGivenNames v14
        have h15 : Sound p v14 := nameRing_keeps h13
        try clear_value v14
        exact done_keeps h15

theorem bodyMeterConfig_keeps {p} {x0} {x1} {x2} {x3} (h0' : Sound p x3) : Sound p (bodyMeterConfig x0 x1 x2 x3) := by
  unfold bodyMeterConfig
  extract_lets -merge -useContext -underBinder +onlyGivenNames v4
  try clear_value v4
  extract_lets -merge -useContext -underBinder +onlyGivenNames v5
  try clear_value v5
  extract_lets -merge -useContext -underBinder +onlyGivenNames v6
  try clear_value v6
  extract_lets -merge -useContext -underBinder +onlyGivenNames v7
  try clear_value v7
  refine ite_keeps (K := Sound p) (fun _ => ?_) (fun _ => ?_)
  · exact failCmd_keeps h0'
  · refine ite_keeps (K := Sound p) (fun _ => ?_) (fun _ => ?_)
    · exact failCmd_keeps h0'
    · refine ite_keeps (K := Sound p) (fun _ => ?_) (fun _ => ?_)
      · exact failCmd_keeps h0'
      · refine ite_keeps (K := Sound p) (fun _ => ?_) (fun _ => ?_)
        · exact failCmd_keeps h0'
        · refine ite_keeps (K := Sound p) (fun _ => ?_) (fun _ => ?_)
          · exact keepRunning_keeps h0'
          · exact meterConfig_keeps h0'

theorem settleMeter_keeps {p} {x0} (h0' : Sound p x0) : Sound p (settleMeter x0) := by
  unfold settleMeter
  refine each_keeps ?_ h0'
  intro a1 a2 h3
  refine ite_keeps (K := Sound p) (fun _ => ?_) (fun _ => ?_)
  · exact h3
  · exact meterConfig_keeps h3

theorem makePart_keeps {p} {x0} {x1} {x2} {x3} {x4} {x5} {x8} (h0' : (∀ x6 x7, Sound p x7 → Sound p (x5 x6 x7))) (h1' : Sound p x8) : Sound
    p (makePart x0 x1 x2 x3 x4 x5 x8) := by
  unfold makePart
  split
  · refine ite_keeps (K := Sound p) (fun _ => ?_) (fun _ => ?_)
    · exact waitDraw_keeps h1'
    · split
      · rename_i m12 m13 heq
        have h14 : Sound p m13 := by
          refine SoundR.get heq ?_
          exact draw0_keeps h1'
        split
        · rename_i m15 m16 heq
          have h17 : Sound p m16 := by
            refine SoundR.get heq ?_
            exact draw0_keeps h14
          refine takeKey_keeps ?_ h17
          intro a18 h19
          refine h0' _ _ ?_
          refine State.onPart_keeps ?_
          exact firstKey_keeps (firstKey_keeps h19)
  · exact failCmd_keeps h1'

theorem bodyPartCreate_keeps {p} {x0} {x1} {x2} {x3} (h0' : Sound p x3) : Sound p (bodyPartCreate x0 x1 x2 x3) := by
  unfold bodyPartCreate
  extract_lets -merge -useContext -underBinder +onlyGivenNames v4
  try clear_value v4
  extract_lets -merge -useContext -underBinder +onlyGivenNames v5
  try clear_value v5
  refine ite_keeps (K := Sound p) (fun _ => ?_) (fun _ => ?_)
  · exact failCmd_keeps h0'
  · refine makePart_keeps ?_ h0'
    intro a6 a7 h8
    exact done_keeps h8

theorem settleFreezes_keeps {p} {x0} (h0' : Sound p x0) : Sound p (settleFreezes x0) := by
  unfold settleFreezes
  refine each_keeps ?_ h0'
  intro a1 a2 h3
  extract_lets -merge -useContext -underBinder +onlyGivenNames v4
  try clear_value v4
  refine ite_keeps (K := Sound p) (fun _ => ?_) (fun _ => ?_)
  · exact failCmd_keeps h3
  · refine ite_keeps (K := Sound p) (fun _ => ?_) (fun _ => ?_)
    · exact failCmd_keeps h3
    · refine ite_keeps (K := Sound p) (fun _ => ?_) (fun _ => ?_)
      · exact done_keeps h3
      · exact h3

theorem bodyPartFreeze_keeps {p} {x0} {x1} {x2} {x3} (h0' : Sound p x3) : Sound p (bodyPartFreeze x0 x1 x2 x3) := by
  unfold bodyPartFreeze
  extract_lets -merge -useContext -underBinder +onlyGivenNames v4
  try clear_value v4
  refine ite_keeps (K := Sound p) (fun _ => ?_) (fun _ => ?_)
  · exact failCmd_keeps h0'
  · refine keepRunning_keeps ?_
    refine tdispError_keeps ?_
    exact issue_keeps (State.onPart_keeps h0')

theorem thawPart_keeps {p} {x0} {x1} (h0' : Sound p x1) : Sound p (thawPart x0 x1) := by
  unfold thawPart
  exact Sound.of h0'.ctrs (sorted_tmap h0'.mem) h0'.link h0'.keys h0'.parts h0'.objs h0'.ctxs h0'.queues h0'.fences h0'.accs h0'.arrivals
      h0'.users h0'.opTab h0'.doms h0'.migs h0'.rings h0'.profs h0'.pending

theorem bodyPartThaw_keeps {p} {x0} {x1} {x2} {x3} (h0' : Sound p x3) : Sound p (bodyPartThaw x0 x1 x2 x3) := by
  unfold bodyPartThaw
  extract_lets -merge -useContext -underBinder +onlyGivenNames v4
  try clear_value v4
  refine ite_keeps (K := Sound p) (fun _ => ?_) (fun _ => ?_)
  · exact failCmd_keeps h0'
  · refine done_keeps ?_
    exact thawPart_keeps (State.onPart_keeps h0')

theorem installMap_keeps {p} {x0} {x1} (h0' : Sound p x1) : Sound p (installMap x0 x1) := by
  unfold installMap
  extract_lets -merge -useContext -underBinder +onlyGivenNames v2
  try clear_value v2
  extract_lets -merge -useContext -underBinder +onlyGivenNames v3
  try clear_value v3
  extract_lets -merge -useContext -underBinder +onlyGivenNames v4
  try clear_value v4
  extract_lets -merge -useContext -underBinder +onlyGivenNames v5
  try clear_value v5
  extract_lets -merge -useContext -underBinder +onlyGivenNames v6
  have h7 : Sound p v6 := chargeNow_keeps h0'
  try clear_value v6
  extract_lets -merge -useContext -underBinder +onlyGivenNames v8
  have h9 : Sound p v8 := by
    refine each_keeps ?_ h7
    intro a10 a11 h12
    exact State.onPort_keeps h12
  try clear_value v8
  extract_lets -merge -useContext -underBinder +onlyGivenNames v13
  have h14 : Sound p v13 := by
    exact Sound.of h9.ctrs h9.mem h9.link h9.keys h9.parts h9.objs h9.ctxs h9.queues h9.fences h9.accs h9.arrivals h9.users h9.opTab
        h9.doms h9.migs h9.rings h9.profs h9.pending
  try clear_value v13
  extract_lets -merge -useContext -underBinder +onlyGivenNames v15
  have h16 : Sound p v15 := by
    refine each_keeps ?_ h14
    intro a17 a18 h19
    exact tdispError_keeps h19
  try clear_value v15
  refine each_keeps ?_ h16
  intro a20 a21 h22
  exact raiseEvent_keeps h22

theorem composeNow_keeps {p} {x0} {x1} {x2} (h0' : Sound p x2) : Sound p (composeNow x0 x1 x2) := by
  unfold composeNow
  split
  · exact failCmd_keeps h0'
  · refine ite_keeps (K := Sound p) (fun _ => ?_) (fun _ => ?_)
    · exact failCmd_keeps h0'
    · refine ite_keeps (K := Sound p) (fun _ => ?_) (fun _ => ?_)
      · exact failCmd_keeps h0'
      · extract_lets -merge -useContext -underBinder +onlyGivenNames v5
        have h6 : Sound p v5 := installMap_keeps h0'
        try clear_value v5
        exact done_keeps h6

theorem settleCompose_keeps {p} {x0} (h0' : Sound p x0) : Sound p (settleCompose x0) := by
  unfold settleCompose
  refine each_keeps ?_ h0'
  intro a1 a2 h3
  refine ite_keeps (K := Sound p) (fun _ => ?_) (fun _ => ?_)
  · exact h3
  · exact composeNow_keeps h3

theorem bodyCompose_keeps {p} {x0} {x1} {x2} {x3} (h0' : Sound p x3) : Sound p (bodyCompose x0 x1 x2 x3) := by
  unfold bodyCompose
  extract_lets -merge -useContext -underBinder +onlyGivenNames v4
  try clear_value v4
  refine readIn_keeps ?_ h0'
  intro a5 h6
  extract_lets -merge -useContext -underBinder +onlyGivenNames v7
  try clear_value v7
  refine ite_keeps (K := Sound p) (fun _ => ?_) (fun _ => ?_)
  · exact failCmd_keeps h6
  · exact settleCompose_keeps (holdResult_keeps h6)

theorem retireEpoch_keeps {p} {x0} (h0' : Sound p x0) : Sound p (retireEpoch x0) := by
  unfold retireEpoch
  refine settleCompose_keeps ?_
  extract_lets -merge -useContext -underBinder +onlyGivenNames v1
  have h2 : Sound p v1 := by
    refine each_keeps ?_ h0'
    intro a3 a4 h5
    exact State.onPort_keeps h5
  try clear_value v1
  exact Sound.of h2.ctrs h2.mem h2.link h2.keys h2.parts h2.objs h2.ctxs h2.queues h2.fences h2.accs h2.arrivals h2.users h2.opTab h2.doms
      h2.migs h2.rings h2.profs h2.pending

theorem epochTimeout_keeps {p} {x0} (h0' : Sound p x0) : Sound p (epochTimeout x0) := by
  unfold epochTimeout
  refine ite_keeps (K := Sound p) (fun _ => ?_) (fun _ => ?_)
  · refine retireEpoch_keeps ?_
    refine each_keeps ?_ h0'
    intro a1 a2 h3
    exact epochCut_keeps h3
  · exact h0'

theorem startRemoval_keeps {p} {x0} {x1} (h0' : Sound p x1) : Sound p (startRemoval x0 x1) := by
  unfold startRemoval
  extract_lets -merge -useContext -underBinder +onlyGivenNames v2
  have h3 : Sound p v2 := by
    refine ite_keeps (K := Sound p) (fun _ => ?_) (fun _ => ?_)
    · exact sendLeave_keeps h0'
    · exact h0'
  try clear_value v2
  extract_lets -merge -useContext -underBinder +onlyGivenNames v4
  have h5 : Sound p v4 := by
    refine each_keeps ?_ h3
    intro a6 a7 h8
    exact abandonHandoff_keeps h8
  try clear_value v4
  extract_lets -merge -useContext -underBinder +onlyGivenNames v9
  have h10 : Sound p v9 := tdispError_keeps h5
  try clear_value v9
  extract_lets -merge -useContext -underBinder +onlyGivenNames v11
  have h12 : Sound p v11 := by
    refine ite_keeps (K := Sound p) (fun _ => ?_) (fun _ => ?_)
    · exact h10
    · exact endMembership_keeps h10
  try clear_value v11
  extract_lets -merge -useContext -underBinder +onlyGivenNames v13
  try clear_value v13
  extract_lets -merge -useContext -underBinder +onlyGivenNames v14
  have h15 : Sound p v14 := by
    refine each_keeps ?_ h12
    intro a16 a17 h18
    exact issue_keeps h18
  try clear_value v14
  extract_lets -merge -useContext -underBinder +onlyGivenNames v19
  have h20 : Sound p v19 := by
    refine each_keeps ?_ h15
    intro a21 a22 h23
    exact retireSlot_keeps h23
  try clear_value v19
  extract_lets -merge -useContext -underBinder +onlyGivenNames v24
  have h25 : Sound p v24 := State.onPart_keeps h20
  try clear_value v24
  extract_lets -merge -useContext -underBinder +onlyGivenNames v26
  try clear_value v26
  extract_lets -merge -useContext -underBinder +onlyGivenNames v27
  try clear_value v27
  extract_lets -merge -useContext -underBinder +onlyGivenNames v28
  have h29 : Sound p v28 := by
    refine each_keeps ?_ h25
    intro a30 a31 h32
    exact failCmd_keeps h32
  try clear_value v28
  refine each_keeps ?_ h29
  intro a33 a34 h35
  exact failCmd_keeps h35

theorem cutPart_keeps {p} {x0} {x1} (h0' : Sound p x1) : Sound p (cutPart x0 x1) := by
  unfold cutPart
  extract_lets -merge -useContext -underBinder +onlyGivenNames v2
  try clear_value v2
  extract_lets -merge -useContext -underBinder +onlyGivenNames v3
  have h4 : Sound p v3 := by
    refine each_keeps ?_ h0'
    intro a5 a6 h7
    refine each_keeps ?_ h7
    intro a8 a9 h10
    exact drainCut_keeps h10
  try clear_value v3
  refine each_keeps ?_ h4
  intro a11 a12 h13
  exact cutReqs_keeps h13

theorem removalDrainEnd_keeps {p} {x0} {x1} (h0' : Sound p x1) : Sound p (removalDrainEnd x0 x1) := by
  unfold removalDrainEnd
  extract_lets -merge -useContext -underBinder +onlyGivenNames v2
  try clear_value v2
  extract_lets -merge -useContext -underBinder +onlyGivenNames v3
  have h4 : ∀ x5, Sound p x5 → Sound p (v3 x5) := by
    intro a6 h7
    try unfold v3
    exact State.onPart_keeps h7
  try clear_value v3
  refine ite_keeps (K := Sound p) (fun _ => ?_) (fun _ => ?_)
  · exact h0'
  · refine ite_keeps (K := Sound p) (fun _ => ?_) (fun _ => ?_)
    · exact h4 _ h0'
    · refine ite_keeps (K := Sound p) (fun _ => ?_) (fun _ => ?_)
      · exact h4 _ (cutPart_keeps h0')
      · exact h0'

theorem clearQueues_keeps {p} {x0} {x1} (h0' : Sound p x1) : Sound p (clearQueues x0 x1) := by
  unfold clearQueues
  extract_lets -merge -useContext -underBinder +onlyGivenNames v2
  try clear_value v2
  extract_lets -merge -useContext -underBinder +onlyGivenNames v3
  try clear_value v3
  extract_lets -merge -useContext -underBinder +onlyGivenNames v4
  have h5 : Sound p v4 := by
    refine each_keeps ?_ h0'
    intro a6 a7 h8
    exact failCmd_keeps h8
  try clear_value v4
  extract_lets -merge -useContext -underBinder +onlyGivenNames v9
  have h10 : Sound p v9 := cancelOps_keeps h5
  try clear_value v9
  extract_lets -merge -useContext -underBinder +onlyGivenNames v11
  have h12 : Sound p v11 := by
    refine each_keeps ?_ h10
    intro a13 a14 h15
    exact unbindProf_keeps h15
  try clear_value v11
  exact Sound.of h12.ctrs h12.mem h12.link h12.keys h12.parts h12.objs h12.ctxs (sorted_filter h12.queues) h12.fences h12.accs h12.arrivals
      h12.users h12.opTab h12.doms h12.migs h12.rings h12.profs h12.pending

theorem clearLeases_keeps {p} {x0} {x1} (h0' : Sound p x1) : Sound p (clearLeases x0 x1) := by
  unfold clearLeases
  extract_lets -merge -useContext -underBinder +onlyGivenNames v2
  try clear_value v2
  extract_lets -merge -useContext -underBinder +onlyGivenNames v3
  try clear_value v3
  extract_lets -merge -useContext -underBinder +onlyGivenNames v4
  have h5 : Sound p v4 := by
    refine each_keeps ?_ h0'
    intro a6 a7 h8
    exact State.onPort_keeps h8
  try clear_value v4
  exact Sound.of h5.ctrs h5.mem h5.link h5.keys h5.parts h5.objs h5.ctxs h5.queues h5.fences h5.accs h5.arrivals h5.users h5.opTab h5.doms
      h5.migs h5.rings h5.profs h5.pending

theorem finishRemoval_keeps {p} {x0} {x1} (h0' : Sound p x1) : Sound p (finishRemoval x0 x1) := by
  unfold finishRemoval
  extract_lets -merge -useContext -underBinder +onlyGivenNames v2
  have h3 : Sound p v2 := by
    refine each_keeps ?_ h0'
    intro a4 a5 h6
    exact done_keeps h6
  try clear_value v2
  extract_lets -merge -useContext -underBinder +onlyGivenNames v7
  have h8 : Sound p v7 := by
    refine each_keeps ?_ h3
    intro a9 a10 h11
    refine freeAcc_keeps ?_
    refine ite_keeps (K := Sound p) (fun _ => ?_) (fun _ => ?_)
    · exact fenceFail_keeps h11
    · exact fenceComplete_keeps h11
  try clear_value v7
  extract_lets -merge -useContext -underBinder +onlyGivenNames v12
  have h13 : Sound p v12 := by
    exact Sound.of h8.ctrs h8.mem h8.link h8.keys h8.parts h8.objs h8.ctxs h8.queues h8.fences h8.accs (sorted_filter h8.arrivals) h8.users
        h8.opTab h8.doms h8.migs h8.rings h8.profs h8.pending
  try clear_value v12
  extract_lets -merge -useContext -underBinder +onlyGivenNames v14
  have h15 : Sound p v14 := by
    refine clearQueues_keeps ?_
    refine each_keeps ?_ h13
    intro a16 a17 h18
    exact freeObject_keeps h18
  try clear_value v14
  extract_lets -merge -useContext -underBinder +onlyGivenNames v19
  have h20 : Sound p v19 := unjoin_keeps h15
  try clear_value v19
  extract_lets -merge -useContext -underBinder +onlyGivenNames v21
  have h22 : Sound p v21 := clearLeases_keeps (chargeNow_keeps h20)
  try clear_value v21
  extract_lets -merge -useContext -underBinder +onlyGivenNames v23
  try clear_value v23
  extract_lets -merge -useContext -underBinder +onlyGivenNames v24
  try clear_value v24
  extract_lets -merge -useContext -underBinder +onlyGivenNames v25
  have h26 : Sound p v25 := thawPart_keeps h22
  try clear_value v25
  exact Sound.of h26.ctrs h26.mem h26.link h26.keys (sorted_tdel h22.parts) h26.objs h26.ctxs h26.queues h26.fences h26.accs h26.arrivals
      h26.users h26.opTab (sorted_tdel h22.doms) (sorted_tdel h22.migs) h26.rings h26.profs h26.pending

theorem settleRemoval_keeps {p} {x0} {x1} (h0' : Sound p x1) : Sound p (settleRemoval x0 x1) := by
  unfold settleRemoval
  extract_lets -merge -useContext -underBinder +onlyGivenNames v2
  try clear_value v2
  refine ite_keeps (K := Sound p) (fun _ => ?_) (fun _ => ?_)
  · exact finishRemoval_keeps h0'
  · exact h0'

theorem flightExpiry_keeps {p} {x0} {x1} (h0' : Sound p x1) : Sound p (flightExpiry x0 x1) := by
  unfold flightExpiry
  extract_lets -merge -useContext -underBinder +onlyGivenNames v2
  try clear_value v2
  split
  · exact h0'
  · refine ite_keeps (K := Sound p) (fun _ => ?_) (fun _ => ?_)
    · exact h0'
    · extract_lets -merge -useContext -underBinder +onlyGivenNames v5
      have h6 : Sound p v5 := State.onPart_keeps h0'
      try clear_value v5
      extract_lets -merge -useContext -underBinder +onlyGivenNames v7
      have h8 : Sound p v7 := by
        refine each_keeps ?_ h6
        intro a9 a10 h11
        exact freeObject_keeps h11
      try clear_value v7
      extract_lets -merge -useContext -underBinder +onlyGivenNames v12
      have h13 : Sound p v12 := by
        refine each_keeps ?_ h8
        intro a14 a15 h16
        refine ite_keeps (K := Sound p) (fun _ => ?_) (fun _ => ?_)
        · exact startPurge_keeps h16
        · exact h16
      try clear_value v12
      exact settleRemoval_keeps h13

theorem removeAtStart_keeps {p} {x0} {x1} (h0' : Sound p x1) : Sound p (removeAtStart x0 x1) := by
  unfold removeAtStart
  extract_lets -merge -useContext -underBinder +onlyGivenNames v2
  have h3 : Sound p v2 := by
    refine each_keeps ?_ h0'
    intro a4 a5 h6
    exact freeObject_keeps h6
  try clear_value v2
  refine finishRemoval_keeps ?_
  refine each_keeps ?_ h3
  intro a7 a8 h9
  exact State.onKey_keeps h9

theorem bodyPartRemove_keeps {p} {x0} {x1} {x2} {x3} (h0' : Sound p x3) : Sound p (bodyPartRemove x0 x1 x2 x3) := by
  unfold bodyPartRemove
  extract_lets -merge -useContext -underBinder +onlyGivenNames v4
  try clear_value v4
  refine ite_keeps (K := Sound p) (fun _ => ?_) (fun _ => ?_)
  · exact failCmd_keeps h0'
  · refine ite_keeps (K := Sound p) (fun _ => ?_) (fun _ => ?_)
    · exact failCmd_keeps h0'
    · exact startRemoval_keeps (keepRunning_keeps h0')

theorem fineHeaders_keeps {p} {x0} {x1} (h0' : Sound p x1) : Sound p (fineHeaders x0 x1) := by
  unfold fineHeaders
  refine each_keeps ?_ h0'
  intro a2 a3 h4
  exact emit_keeps (bump_keeps h4)

theorem installRegion_keeps {p} {x0} {x1} {x2} {x3} {x4} (h0' : Sound p x4) : Sound p (installRegion x0 x1 x2 x3 x4) := by
  unfold installRegion
  extract_lets -merge -useContext -underBinder +onlyGivenNames v5
  have h6 : Sound p v5 := by
    refine ite_keeps (K := Sound p) (fun _ => ?_) (fun _ => ?_)
    · exact h0'
    · split
      · rename_i m7 m8 heq
        have h9 : Sound p m8 := by
          refine SoundR.get heq ?_
          exact draw0_keeps h0'
        exact firstKey_keeps h9
  try clear_value v5
  extract_lets -merge -useContext -underBinder +onlyGivenNames v10
  have h11 : Sound p v10 := State.onObj_keeps h6
  try clear_value v10
  refine ite_keeps (K := Sound p) (fun _ => ?_) (fun _ => ?_)
  · refine each_keeps ?_ h11
    intro a12 a13 h14
    refine each_keeps ?_ ?_
    · intro a15 a16 h17
      exact newLine_keeps h17
    · refine ite_keeps (K := Sound p) (fun _ => ?_) (fun _ => ?_)
      · exact fineHeaders_keeps h14
      · exact h14
  · exact h11

theorem allocAt_keeps {p} {x0} {x1} {x2} (h0' : Sound p x2) : SoundA p (allocAt x0 x1 x2) := by
  unfold allocAt
  split
  · trivial
  · split
    · refine ite_keeps (K := SoundA p) (fun _ => ?_) (fun _ => ?_)
      · trivial
      · refine ite_keeps (K := SoundA p) (fun _ => ?_) (fun _ => ?_)
        · trivial
        · refine SoundA.mkOk ?_
          exact installRegion_keeps h0'
    · trivial

theorem bodyObjAlloc_keeps {p} {x0} {x1} {x2} {x3} (h0' : Sound p x3) : Sound p (bodyObjAlloc x0 x1 x2 x3) := by
  unfold bodyObjAlloc
  extract_lets -merge -useContext -underBinder +onlyGivenNames v4
  try clear_value v4
  extract_lets -merge -useContext -underBinder +onlyGivenNames v5
  try clear_value v5
  extract_lets -merge -useContext -underBinder +onlyGivenNames v6
  try clear_value v6
  extract_lets -merge -useContext -underBinder +onlyGivenNames v7
  try clear_value v7
  extract_lets -merge -useContext -underBinder +onlyGivenNames v8
  have h9 : ∀ x10 x11, Sound p x11 → Sound p (v8 x10 x11) := by
    intro a12 a13 h14
    try unfold v8
    split
    · exact failCmd_keeps h14
    · split
      · exact failCmd_keeps h14
      · refine ite_keeps (K := Sound p) (fun _ => ?_) (fun _ => ?_)
        · exact waitDraw_keeps h14
        · exact holdResult_keeps h14
      · exact failCmd_keeps (keyFails_keeps h14)
      · rename_i m20 m21 heq
        have h22 : Sound p m21 := by
          refine SoundA.get heq ?_
          exact allocAt_keeps h14
        exact done_keeps h22
  try clear_value v8
  refine ite_keeps (K := Sound p) (fun _ => ?_) (fun _ => ?_)
  · exact failCmd_keeps h0'
  · refine ite_keeps (K := Sound p) (fun _ => ?_) (fun _ => ?_)
    · refine ite_keeps (K := Sound p) (fun _ => ?_) (fun _ => ?_)
      · exact failCmd_keeps h0'
      · refine readIn_keeps ?_ h0'
        intro a23 h24
        exact h9 _ _ h24
    · exact h9 _ _ h0'

theorem settleAllocs_keeps {p} {x0} (h0' : Sound p x0) : Sound p (settleAllocs x0) := by
  unfold settleAllocs
  refine each_keeps ?_ h0'
  intro a1 a2 h3
  exact bodyObjAlloc_keeps h3

theorem dropOwner_keeps {p} {x0} {x1} {x2} (h0' : Sound p x2) : Sound p (dropOwner x0 x1 x2) := by
  unfold dropOwner
  exact State.onObj_keeps h0'

theorem bodyObjFree_keeps {p} {x0} {x1} {x2} {x3} (h0' : Sound p x3) : Sound p (bodyObjFree x0 x1 x2 x3) := by
  unfold bodyObjFree
  extract_lets -merge -useContext -underBinder +onlyGivenNames v4
  try clear_value v4
  refine ite_keeps (K := Sound p) (fun _ => ?_) (fun _ => ?_)
  · exact failCmd_keeps h0'
  · extract_lets -merge -useContext -underBinder +onlyGivenNames v5
    have h6 : Sound p v5 := dropOwner_keeps h0'
    try clear_value v5
    exact retireObject_keeps (done_keeps h6)

theorem bodyObjShare_keeps {p} {x0} {x1} {x2} {x3} (h0' : Sound p x3) : Sound p (bodyObjShare x0 x1 x2 x3) := by
  unfold bodyObjShare
  extract_lets -merge -useContext -underBinder +onlyGivenNames v4
  try clear_value v4
  extract_lets -merge -useContext -underBinder +onlyGivenNames v5
  try clear_value v5
  extract_lets -merge -useContext -underBinder +onlyGivenNames v6
  try clear_value v6
  refine ite_keeps (K := Sound p) (fun _ => ?_) (fun _ => ?_)
  · exact failCmd_keeps h0'
  · refine ite_keeps (K := Sound p) (fun _ => ?_) (fun _ => ?_)
    · exact failCmd_keeps h0'
    · exact done_keeps (State.onObj_keeps h0')

theorem bodyObjQuery_keeps {p} {x0} {x1} {x2} {x3} (h0' : Sound p x3) : Sound p (bodyObjQuery x0 x1 x2 x3) := by
  unfold bodyObjQuery
  refine ite_keeps (K := Sound p) (fun _ => ?_) (fun _ => ?_)
  · exact failCmd_keeps h0'
  · exact done_keeps h0'

theorem plainCut_keeps {p} {x0} {x1} (h0' : Sound p x1) : Sound p (plainCut x0 x1) := by
  unfold plainCut
  extract_lets -merge -useContext -underBinder +onlyGivenNames v2
  try clear_value v2
  extract_lets -merge -useContext -underBinder +onlyGivenNames v3
  try clear_value v3
  refine ite_keeps (K := Sound p) (fun _ => ?_) (fun _ => ?_)
  · exact h0'
  · refine ite_keeps (K := Sound p) (fun _ => ?_) (fun _ => ?_)
    · exact freeObject_keeps h0'
    · refine ite_keeps (K := Sound p) (fun _ => ?_) (fun _ => ?_)
      · refine freeObject_keeps ?_
        refine each_keeps ?_ h0'
        intro a4 a5 h6
        exact cutReqs_keeps h6
      · exact h0'

theorem State.onMig_keeps {p} {x0} {x1} {x2} (h0' : Sound p x0) : Sound p (State.onMig x0 x1 x2) := by
  unfold State.onMig
  exact Sound.of h0'.ctrs h0'.mem h0'.link h0'.keys h0'.parts h0'.objs h0'.ctxs h0'.queues h0'.fences h0'.accs h0'.arrivals h0'.users
      h0'.opTab h0'.doms (sorted_tmap h0'.migs) h0'.rings h0'.profs h0'.pending

theorem dropMig_keeps {p} {x0} {x1} {x2} (h0' : Sound p x2) : Sound p (dropMig x0 x1 x2) := by
  unfold dropMig
  extract_lets -merge -useContext -underBinder +onlyGivenNames v3
  try clear_value v3
  extract_lets -merge -useContext -underBinder +onlyGivenNames v4
  have h5 : Sound p v4 := by
    refine ite_keeps (K := Sound p) (fun _ => ?_) (fun _ => ?_)
    · exact h0'
    · exact retireSlot_keeps h0'
  try clear_value v4
  refine ite_keeps (K := Sound p) (fun _ => ?_) (fun _ => ?_)
  · extract_lets -merge -useContext -underBinder +onlyGivenNames v6
    have h7 : Sound p v6 := by
      exact Sound.of h5.ctrs h5.mem h5.link h5.keys h5.parts h5.objs h5.ctxs h5.queues h5.fences h5.accs h5.arrivals h5.users h5.opTab
          h5.doms (sorted_tdel h5.migs) h5.rings h5.profs h5.pending
    try clear_value v6
    split
    · exact failCmd_keeps h7
    · exact h7
  · exact State.onMig_keeps h5

theorem refuseMig_keeps {p} {x0} {x1} {x2} {x3} (h0' : Sound p x3) : Sound p (refuseMig x0 x1 x2 x3) := by
  unfold refuseMig
  extract_lets -merge -useContext -underBinder +onlyGivenNames v4
  have h5 : Sound p v4 := outMig_keeps h0'
  try clear_value v4
  refine dropMig_keeps ?_
  exact messageFail_keeps (refusalEvent_keeps h5)

theorem withMig_keeps {p} {x0} {x1} {x2} {x5} (h0' : (∀ x3 x4, Sound p x4 → Sound p (x2 x3 x4))) (h1' : Sound p x5) : Sound p (withMig x0
    x1 x2 x5) := by
  unfold withMig
  split
  · split
    · extract_lets -merge -useContext -underBinder +onlyGivenNames v9
      have h10 : Sound p v9 := State.onMig_keeps h1'
      try clear_value v9
      refine ite_keeps (K := Sound p) (fun _ => ?_) (fun _ => ?_)
      · exact h10
      · refine ite_keeps (K := Sound p) (fun _ => ?_) (fun _ => ?_)
        · exact h1'
        · refine ite_keeps (K := Sound p) (fun _ => ?_) (fun _ => ?_)
          · exact messageWaits_keeps h1'
          · exact h0' _ _ h10
    · exact State.onMig_keeps h1'
  · exact h1'

theorem migKey_keeps {p} {x0} {x1} {x2} {x3} (h0' : Sound p x3) : Sound p (migKey x0 x1 x2 x3) := by
  unfold migKey
  exact firstKey_keeps h0'

theorem takeMigOffer_keeps {p} {x0} {x1} {x2} (h0' : Sound p x2) : Sound p (takeMigOffer x0 x1 x2) := by
  unfold takeMigOffer
  refine ite_keeps (K := Sound p) (fun _ => ?_) (fun _ => ?_)
  · exact messageFail_keeps h0'
  · extract_lets -merge -useContext -underBinder +onlyGivenNames v3
    try clear_value v3
    refine ite_keeps (K := Sound p) (fun _ => ?_) (fun _ => ?_)
    · exact refuseMig_keeps h0'
    · split
      · rename_i m4 m5 heq
        have h6 : Sound p m5 := by
          refine SoundR.get heq ?_
          exact makeReply_keeps h0'
        refine messageDone_keeps ?_
        exact outMig_keeps (State.onMig_keeps h6)

theorem takeMigReply_keeps {p} {x0} {x1} {x2} (h0' : Sound p x2) : Sound p (takeMigReply x0 x1 x2) := by
  unfold takeMigReply
  split
  · exact messageFail_keeps h0'
  · refine ite_keeps (K := Sound p) (fun _ => ?_) (fun _ => ?_)
    · exact messageFail_keeps h0'
    · split
      · exact refuseMig_keeps h0'
      · extract_lets -merge -useContext -underBinder +onlyGivenNames v7
        try clear_value v7
        extract_lets -merge -useContext -underBinder +onlyGivenNames v8
        have h9 : Sound p v8 := keepCas_keeps h0'
        try clear_value v8
        refine ite_keeps (K := Sound p) (fun _ => ?_) (fun _ => ?_)
        · exact refuseMig_keeps h9
        · refine ite_keeps (K := Sound p) (fun _ => ?_) (fun _ => ?_)
          · exact refuseMig_keeps h9
          · split
            · exact dropMig_keeps (messageFail_keeps h9)
            · refine ite_keeps (K := Sound p) (fun _ => ?_) (fun _ => ?_)
              · exact refuseMig_keeps (keyFails_keeps h9)
              · extract_lets -merge -useContext -underBinder +onlyGivenNames w12 v13
                try clear_value v13 w12
                split
                · rename_i m14 m15 heq
                  have h16 : Sound p m15 := by
                    refine SoundR.get heq ?_
                    exact zeler_keeps (migKey_keeps h9)
                  extract_lets -merge -useContext -underBinder +onlyGivenNames v17
                  try clear_value v17
                  refine messageDone_keeps ?_
                  exact outMig_keeps (State.onMig_keeps h16)

theorem takeMigGrant_keeps {p} {x0} {x1} {x2} (h0' : Sound p x2) : Sound p (takeMigGrant x0 x1 x2) := by
  unfold takeMigGrant
  split
  · exact messageFail_keeps h0'
  · extract_lets -merge -useContext -underBinder +onlyGivenNames v5
    try clear_value v5
    refine ite_keeps (K := Sound p) (fun _ => ?_) (fun _ => ?_)
    · exact messageFail_keeps h0'
    · refine ite_keeps (K := Sound p) (fun _ => ?_) (fun _ => ?_)
      · exact refuseMig_keeps h0'
      · extract_lets -merge -useContext -underBinder +onlyGivenNames v6
        try clear_value v6
        extract_lets -merge -useContext -underBinder +onlyGivenNames v7
        have h8 : Sound p v7 := keepCas_keeps h0'
        try clear_value v7
        refine ite_keeps (K := Sound p) (fun _ => ?_) (fun _ => ?_)
        · exact refuseMig_keeps h8
        · refine ite_keeps (K := Sound p) (fun _ => ?_) (fun _ => ?_)
          · exact refuseMig_keeps (keyFails_keeps h8)
          · refine ite_keeps (K := Sound p) (fun _ => ?_) (fun _ => ?_)
            · exact refuseMig_keeps h8
            · split
              · exact refuseMig_keeps h8
              · extract_lets -merge -useContext -underBinder +onlyGivenNames v11
                try clear_value v11
                extract_lets -merge -useContext -underBinder +onlyGivenNames v12
                have h13 : Sound p v12 := migKey_keeps h8
                try clear_value v12
                refine messageDone_keeps ?_
                exact outMig_keeps (State.onMig_keeps h13)

theorem takeMigConfirm_keeps {p} {x0} {x1} {x2} (h0' : Sound p x2) : Sound p (takeMigConfirm x0 x1 x2) := by
  unfold takeMigConfirm
  split
  · exact messageFail_keeps h0'
  · refine ite_keeps (K := Sound p) (fun _ => ?_) (fun _ => ?_)
    · exact messageFail_keeps h0'
    · refine ite_keeps (K := Sound p) (fun _ => ?_) (fun _ => ?_)
      · exact refuseMig_keeps h0'
      · extract_lets -merge -useContext -underBinder +onlyGivenNames v5
        have h6 : Sound p v5 := State.onPart_keeps (State.onMig_keeps h0')
        try clear_value v5
        extract_lets -merge -useContext -underBinder +onlyGivenNames v7
        have h8 : Sound p v7 := by
          unfold v7
          split
          · exact done_keeps h6
          · exact h6
        try clear_value v7
        exact messageDone_keeps h8

theorem takeMigRefuse_keeps {p} {x0} {x1} {x2} (h0' : Sound p x2) : Sound p (takeMigRefuse x0 x1 x2) := by
  unfold takeMigRefuse
  refine ite_keeps (K := Sound p) (fun _ => ?_) (fun _ => ?_)
  · exact messageFail_keeps h0'
  · refine dropMig_keeps ?_
    exact messageDone_keeps (refusalEvent_keeps h0')

theorem migTimeout_keeps {p} {x0} {x1} (h0' : Sound p x1) : Sound p (migTimeout x0 x1) := by
  unfold migTimeout
  extract_lets -merge -useContext -underBinder +onlyGivenNames v2
  try clear_value v2
  split
  · exact h0'
  · extract_lets -merge -useContext -underBinder +onlyGivenNames v5
    try clear_value v5
    refine ite_keeps (K := Sound p) (fun _ => ?_) (fun _ => ?_)
    · exact refuseMig_keeps h0'
    · exact h0'

theorem bodyMigratePrepare_keeps {p} {x0} {x1} {x2} {x3} (h0' : Sound p x3) : Sound p (bodyMigratePrepare x0 x1 x2 x3) := by
  unfold bodyMigratePrepare
  extract_lets -merge -useContext -underBinder +onlyGivenNames v4
  try clear_value v4
  extract_lets -merge -useContext -underBinder +onlyGivenNames v5
  try clear_value v5
  extract_lets -merge -useContext -underBinder +onlyGivenNames v6
  try clear_value v6
  refine ite_keeps (K := Sound p) (fun _ => ?_) (fun _ => ?_)
  · exact failCmd_keeps h0'
  · refine ite_keeps (K := Sound p) (fun _ => ?_) (fun _ => ?_)
    · exact failCmd_keeps h0'
    · refine makePart_keeps ?_ h0'
      intro a7 a8 h9
      extract_lets -merge -useContext -underBinder +onlyGivenNames v10
      try clear_value v10
      refine done_keeps ?_
      extract_lets -merge -useContext -underBinder +onlyGivenNames v11
      have h12 : Sound p v11 := openRing_keeps h9
      try clear_value v11
      exact Sound.of h12.ctrs h12.mem h12.link h12.keys h12.parts h12.objs h12.ctxs h12.queues h12.fences h12.accs h12.arrivals h12.users
          h12.opTab h12.doms (sorted_tset h9.migs) h12.rings h12.profs h12.pending

theorem bodyMigrateStart_keeps {p} {x0} {x1} {x2} {x3} (h0' : Sound p x3) : Sound p (bodyMigrateStart x0 x1 x2 x3) := by
  unfold bodyMigrateStart
  extract_lets -merge -useContext -underBinder +onlyGivenNames v4
  try clear_value v4
  extract_lets -merge -useContext -underBinder +onlyGivenNames v5
  try clear_value v5
  extract_lets -merge -useContext -underBinder +onlyGivenNames v6
  try clear_value v6
  extract_lets -merge -useContext -underBinder +onlyGivenNames v7
  try clear_value v7
  refine ite_keeps (K := Sound p) (fun _ => ?_) (fun _ => ?_)
  · exact failCmd_keeps h0'
  · refine ite_keeps (K := Sound p) (fun _ => ?_) (fun _ => ?_)
    · exact failCmd_keeps h0'
    · refine ite_keeps (K := Sound p) (fun _ => ?_) (fun _ => ?_)
      · exact waitDraw_keeps h0'
      · split
        · rename_i m8 m9 heq
          have h10 : Sound p m9 := by
            refine SoundR.get heq ?_
            exact makeOffer_keeps h0'
          extract_lets -merge -useContext -underBinder +onlyGivenNames v11
          try clear_value v11
          refine keepRunning_keeps ?_
          refine outMig_keeps ?_
          extract_lets -merge -useContext -underBinder +onlyGivenNames v12
          have h13 : Sound p v12 := openRing_keeps h10
          try clear_value v12
          exact Sound.of h13.ctrs h13.mem h13.link h13.keys h13.parts h13.objs h13.ctxs h13.queues h13.fences h13.accs h13.arrivals
              h13.users h13.opTab h13.doms (sorted_tset h10.migs) h13.rings h13.profs h13.pending

theorem beginExport_keeps {p} {x0} {x1} {x2} (h0' : Sound p x2) : SoundL p (beginExport x0 x1 x2) := by
  unfold beginExport
  refine ite_keeps (K := SoundL p) (fun _ => ?_) (fun _ => ?_)
  · refine SoundL.mk ?_
    exact h0'
  · extract_lets -merge -useContext -underBinder +onlyGivenNames v3
    try clear_value v3
    extract_lets -merge -useContext -underBinder +onlyGivenNames v4
    try clear_value v4
    extract_lets -merge -useContext -underBinder +onlyGivenNames v5
    have h6 : Sound p v5 := State.onMig_keeps h0'
    try clear_value v5
    refine SoundL.mk ?_
    refine ite_keeps (K := Sound p) (fun _ => ?_) (fun _ => ?_)
    · refine each_keeps ?_ h6
      intro a7 a8 h9
      exact State.onObj_keeps h9
    · exact h6

theorem bodyMigrateExport_keeps {p} {x0} {x1} {x2} {x3} (h0' : Sound p x3) : Sound p (bodyMigrateExport x0 x1 x2 x3) := by
  unfold bodyMigrateExport
  extract_lets -merge -useContext -underBinder +onlyGivenNames v4
  try clear_value v4
  extract_lets -merge -useContext -underBinder +onlyGivenNames v5
  try clear_value v5
  extract_lets -merge -useContext -underBinder +onlyGivenNames v6
  try clear_value v6
  extract_lets -merge -useContext -underBinder +onlyGivenNames v7
  try clear_value v7
  extract_lets -merge -useContext -underBinder +onlyGivenNames v8
  try clear_value v8
  refine ite_keeps (K := Sound p) (fun _ => ?_) (fun _ => ?_)
  · exact failCmd_keeps h0'
  · refine ite_keeps (K := Sound p) (fun _ => ?_) (fun _ => ?_)
    · exact failCmd_keeps h0'
    · refine ite_keeps (K := Sound p) (fun _ => ?_) (fun _ => ?_)
      · exact failCmd_keeps h0'
      · extract_lets -merge -useContext -underBinder +onlyGivenNames v9
        try clear_value v9
        refine ite_keeps (K := Sound p) (fun _ => ?_) (fun _ => ?_)
        · exact failCmd_keeps h0'
        · refine ite_keeps (K := Sound p) (fun _ => ?_) (fun _ => ?_)
          · exact holdResult_keeps h0'
          · split
            · rename_i m10 m12 heq
              have h11 : Sound p m10 := by
                refine SoundL.get heq ?_
                exact beginExport_keeps h0'
              extract_lets -merge -useContext -underBinder +onlyGivenNames v13
              try clear_value v13
              split
              · extract_lets -merge -useContext -underBinder +onlyGivenNames v16
                have h17 : Sound p v16 := State.onMig_keeps h11
                try clear_value v16
                extract_lets -merge -useContext -underBinder +onlyGivenNames v18
                have h19 : Sound p v18 := by
                  refine ite_keeps (K := Sound p) (fun _ => ?_) (fun _ => ?_)
                  · exact h17
                  · exact emit_keeps h17
                try clear_value v18
                exact done_keeps h19

theorem settleExports_keeps {p} {x0} (h0' : Sound p x0) : Sound p (settleExports x0) := by
  unfold settleExports
  refine each_keeps ?_ h0'
  intro a1 a2 h3
  refine ite_keeps (K := Sound p) (fun _ => ?_) (fun _ => ?_)
  · exact bodyMigrateExport_keeps h3
  · exact h3

theorem loseTile_keeps {p} {x0} {x1} {x2} (h0' : Sound p x2) : Sound p (loseTile x0 x1 x2) := by
  unfold loseTile
  extract_lets -merge -useContext -underBinder +onlyGivenNames v3
  try clear_value v3
  split
  · exact h0'
  · refine each_keeps ?_ (State.onObj_keeps h0')
    intro a7 a8 h9
    extract_lets -merge -useContext -underBinder +onlyGivenNames v10
    try clear_value v10
    split
    · exact State.onMem_keeps h9
    · exact askLine_keeps (State.onMem_keeps h9)

theorem importTile_keeps {p} {x0} {x1} {x2} (h0' : Sound p x2) : SoundS p (importTile x0 x1 x2) := by
  unfold importTile
  extract_lets -merge -useContext -underBinder +onlyGivenNames v3
  try clear_value v3
  extract_lets -merge -useContext -underBinder +onlyGivenNames v4
  try clear_value v4
  extract_lets -merge -useContext -underBinder +onlyGivenNames v5
  try clear_value v5
  extract_lets -merge -useContext -underBinder +onlyGivenNames v6
  try clear_value v6
  extract_lets -merge -useContext -underBinder +onlyGivenNames v7
  try clear_value v7
  split
  · refine SoundS.mkFail ?_
    exact h0'
  · extract_lets -merge -useContext -underBinder +onlyGivenNames v10
    try clear_value v10
    refine ite_keeps (K := SoundS p) (fun _ => ?_) (fun _ => ?_)
    · refine SoundS.mkFail ?_
      exact h0'
    · extract_lets -merge -useContext -underBinder +onlyGivenNames v11
      have h12 : Sound p v11 := State.onMig_keeps h0'
      try clear_value v11
      refine ite_keeps (K := SoundS p) (fun _ => ?_) (fun _ => ?_)
      · refine ite_keeps (K := SoundS p) (fun _ => ?_) (fun _ => ?_)
        · refine SoundS.mkFail ?_
          exact h0'
        · refine ite_keeps (K := SoundS p) (fun _ => ?_) (fun _ => ?_)
          · refine SoundS.mkOk ?_
            exact h12
          · refine SoundS.mkOk ?_
            exact loseTile_keeps h12
      · refine ite_keeps (K := SoundS p) (fun _ => ?_) (fun _ => ?_)
        · refine SoundS.mkFail ?_
          exact h0'
        · extract_lets -merge -useContext -underBinder +onlyGivenNames v13
          try clear_value v13
          extract_lets -merge -useContext -underBinder +onlyGivenNames v14
          have h15 : Sound p v14 := emit_keeps h12
          try clear_value v14
          refine ite_keeps (K := SoundS p) (fun _ => ?_) (fun _ => ?_)
          · extract_lets -merge -useContext -underBinder +onlyGivenNames v16
            have h17 : Sound p v16 := State.onObj_keeps h15
            try clear_value v16
            extract_lets -merge -useContext -underBinder +onlyGivenNames v18
            try clear_value v18
            refine ite_keeps (K := SoundS p) (fun _ => ?_) (fun _ => ?_)
            · refine SoundS.mkFail ?_
              exact h0'
            · refine SoundS.mkOk ?_
              refine ite_keeps (K := Sound p) (fun _ => ?_) (fun _ => ?_)
              · exact State.onObj_keeps h17
              · exact h17
          · refine SoundS.mkOk ?_
            exact h15

theorem importRegion_keeps {p} {x0} {x1} {x2} {x3} (h0' : Sound p x3) : SoundS p (importRegion x0 x1 x2 x3) := by
  unfold importRegion
  extract_lets -merge -useContext -underBinder +onlyGivenNames v4
  try clear_value v4
  extract_lets -merge -useContext -underBinder +onlyGivenNames v5
  try clear_value v5
  extract_lets -merge -useContext -underBinder +onlyGivenNames v6
  try clear_value v6
  extract_lets -merge -useContext -underBinder +onlyGivenNames v7
  try clear_value v7
  refine ite_keeps (K := SoundS p) (fun _ => ?_) (fun _ => ?_)
  · refine SoundS.mkFail ?_
    exact h0'
  · split
    · refine SoundS.mkFail ?_
      exact h0'
    · extract_lets -merge -useContext -underBinder +onlyGivenNames v10
      try clear_value v10
      refine ite_keeps (K := SoundS p) (fun _ => ?_) (fun _ => ?_)
      · refine SoundS.mkFail ?_
        exact h0'
      · split
        · refine SoundS.mkFail ?_
          exact h0'
        · refine SoundS.mkWait ?_
          exact h0'
        · refine SoundS.mkFail ?_
          exact keyFails_keeps h0'
        · rename_i m14 m15 heq
          have h16 : Sound p m15 := by
            refine SoundA.get heq ?_
            exact allocAt_keeps h0'
          extract_lets -merge -useContext -underBinder +onlyGivenNames v17
          have h18 : Sound p v17 := State.onObj_keeps h16
          try clear_value v17
          extract_lets -merge -useContext -underBinder +onlyGivenNames v19
          have h20 : Sound p v19 := emit_keeps h18
          try clear_value v19
          refine SoundS.mkOk ?_
          exact State.onMig_keeps h20

theorem importPart_keeps {p} {x0} {x1} {x2} (h0' : Sound p x2) : SoundS p (importPart x0 x1 x2) := by
  unfold importPart
  extract_lets -merge -useContext -underBinder +onlyGivenNames v3
  try clear_value v3
  extract_lets -merge -useContext -underBinder +onlyGivenNames v4
  try clear_value v4
  refine ite_keeps (K := SoundS p) (fun _ => ?_) (fun _ => ?_)
  · refine SoundS.mkFail ?_
    exact h0'
  · refine SoundS.mkOk ?_
    exact State.onPart_keeps (State.onMig_keeps h0')

theorem applyRecord_keeps {p} {x0} {x1} {x2} {x3} {x4} {x5} (h0' : Sound p x5) : SoundS p (applyRecord x0 x1 x2 x3 x4 x5) := by
  unfold applyRecord
  extract_lets -merge -useContext -underBinder +onlyGivenNames v6
  try clear_value v6
  refine ite_keeps (K := SoundS p) (fun _ => ?_) (fun _ => ?_)
  · refine SoundS.mkFail ?_
    exact h0'
  · split
    · refine ite_keeps (K := SoundS p) (fun _ => ?_) (fun _ => ?_)
      · exact importPart_keeps h0'
      · refine SoundS.mkFail ?_
        exact h0'
    · refine ite_keeps (K := SoundS p) (fun _ => ?_) (fun _ => ?_)
      · exact importRegion_keeps h0'
      · refine SoundS.mkFail ?_
        exact h0'
    · exact importTile_keeps h0'
    · refine ite_keeps (K := SoundS p) (fun _ => ?_) (fun _ => ?_)
      · refine SoundS.mkFail ?_
        exact h0'
      · refine ite_keeps (K := SoundS p) (fun _ => ?_) (fun _ => ?_)
        · refine SoundS.mkFail ?_
          exact h0'
        · refine SoundS.mkOk ?_
          exact State.onMig_keeps (retireSlot_keeps h0')
    · refine SoundS.mkFail ?_
      exact h0'

theorem importOne_keeps {p} {x0} {x1} {x2} {x3} {x4} (h0' : Sound p x4) : SoundS p (importOne x0 x1 x2 x3 x4) := by
  unfold importOne
  extract_lets -merge -useContext -underBinder +onlyGivenNames v5
  try clear_value v5
  extract_lets -merge -useContext -underBinder +onlyGivenNames v6
  try clear_value v6
  refine ite_keeps (K := SoundS p) (fun _ => ?_) (fun _ => ?_)
  · refine SoundS.mkFail ?_
    exact h0'
  · refine ite_keeps (K := SoundS p) (fun _ => ?_) (fun _ => ?_)
    · refine SoundS.mkFail ?_
      exact h0'
    · split
      · refine SoundS.mkFail ?_
        exact h0'
      · refine ite_keeps (K := SoundS p) (fun _ => ?_) (fun _ => ?_)
        · refine SoundS.mkFail ?_
          exact h0'
        · split
          · rename_i m9 heq
            have h10 : Sound p m9 := by
              first | refine SoundS.getOk heq ?_ | refine SoundS.getFail heq ?_ | refine SoundS.getWait heq ?_
              exact applyRecord_keeps h0'
            refine SoundS.mkOk ?_
            exact State.onPart_keeps h10
          · rename_i m11 m12 heq
            have h13 : Sound p m12 := by
              first | refine SoundS.getOk heq ?_ | refine SoundS.getFail heq ?_ | refine SoundS.getWait heq ?_
              exact applyRecord_keeps h0'
            refine SoundS.mkFail ?_
            exact h13
          · rename_i m14 heq
            have h15 : Sound p m14 := by
              first | refine SoundS.getOk heq ?_ | refine SoundS.getFail heq ?_ | refine SoundS.getWait heq ?_
              exact applyRecord_keeps h0'
            refine SoundS.mkWait ?_
            exact h15

theorem importLoop_keeps {p} {x0} {x1} {x2} {x3} {x4} {x5} {x6} (h0' : Sound p x6) : SoundN p (importLoop x0 x1 x2 x3 x4 x5 x6) := by
  induction x3 generalizing x0 x1 x2 x4 x5 x6 with
  | zero =>
    unfold importLoop
    refine SoundN.mk ?_
    refine SoundS.mkOk ?_
    exact h0'
  | succ n ih =>
    unfold importLoop
    refine ite_keeps (K := SoundN p) (fun _ => ?_) (fun _ => ?_)
    · refine SoundN.mk ?_
      refine SoundS.mkOk ?_
      exact h0'
    · split
      · rename_i m13 heq
        have h14 : Sound p m13 := by
          first | refine SoundS.getOk heq ?_ | refine SoundS.getFail heq ?_ | refine SoundS.getWait heq ?_
          exact importOne_keeps h0'
        exact ih h14
      · rename_i m15 m16 heq
        have h17 : Sound p m16 := by
          first | refine SoundS.getOk heq ?_ | refine SoundS.getFail heq ?_ | refine SoundS.getWait heq ?_
          exact importOne_keeps h0'
        refine SoundN.mk ?_
        refine SoundS.mkFail ?_
        exact h17
      · rename_i m18 heq
        have h19 : Sound p m18 := by
          first | refine SoundS.getOk heq ?_ | refine SoundS.getFail heq ?_ | refine SoundS.getWait heq ?_
          exact importOne_keeps h0'
        refine SoundN.mk ?_
        refine SoundS.mkWait ?_
        exact h19

theorem bodyMigrateImport_keeps {p} {x0} {x1} {x2} {x3} (h0' : Sound p x3) : Sound p (bodyMigrateImport x0 x1 x2 x3) := by
  unfold bodyMigrateImport
  extract_lets -merge -useContext -underBinder +onlyGivenNames v4
  try clear_value v4
  extract_lets -merge -useContext -underBinder +onlyGivenNames v5
  try clear_value v5
  extract_lets -merge -useContext -underBinder +onlyGivenNames v6
  try clear_value v6
  extract_lets -merge -useContext -underBinder +onlyGivenNames v7
  try clear_value v7
  refine ite_keeps (K := Sound p) (fun _ => ?_) (fun _ => ?_)
  · exact failCmd_keeps h0'
  · refine readIn_keeps ?_ h0'
    intro a8 h9
    extract_lets -merge -useContext -underBinder +onlyGivenNames v10
    try clear_value v10
    split
    · rename_i m11 m12 m13 heq
      have h14 : Sound p m13 := by
        first | refine SoundN.getOk heq ?_ | refine SoundN.getFail heq ?_ | refine SoundN.getWait heq ?_
        exact importLoop_keeps h9
      exact failCmd_keeps h14
    · rename_i m15 m16 heq
      have h17 : Sound p m16 := by
        first | refine SoundN.getOk heq ?_ | refine SoundN.getFail heq ?_ | refine SoundN.getWait heq ?_
        exact importLoop_keeps h9
      exact waitDraw_keeps h17
    · rename_i m18 m19 heq
      have h20 : Sound p m19 := by
        first | refine SoundN.getOk heq ?_ | refine SoundN.getFail heq ?_ | refine SoundN.getWait heq ?_
        exact importLoop_keeps h9
      extract_lets -merge -useContext -underBinder +onlyGivenNames v21
      try clear_value v21
      extract_lets -merge -useContext -underBinder +onlyGivenNames v22
      try clear_value v22
      refine ite_keeps (K := Sound p) (fun _ => ?_) (fun _ => ?_)
      · refine done_keeps ?_
        refine State.onPart_keeps ?_
        exact Sound.of h20.ctrs h20.mem h20.link h20.keys h20.parts h20.objs h20.ctxs h20.queues h20.fences h20.accs h20.arrivals h20.users
            h20.opTab h20.doms (sorted_tdel h20.migs) h20.rings h20.profs h20.pending
      · exact done_keeps h20

theorem settleImports_keeps {p} {x0} (h0' : Sound p x0) : Sound p (settleImports x0) := by
  unfold settleImports
  refine each_keeps ?_ h0'
  intro a1 a2 h3
  exact leaveLoading_keeps (State.onObj_keeps h3)

theorem bodyMigrateFinish_keeps {p} {x0} {x1} {x2} {x3} (h0' : Sound p x3) : Sound p (bodyMigrateFinish x0 x1 x2 x3) := by
  unfold bodyMigrateFinish
  extract_lets -merge -useContext -underBinder +onlyGivenNames v4
  try clear_value v4
  extract_lets -merge -useContext -underBinder +onlyGivenNames v5
  try clear_value v5
  refine ite_keeps (K := Sound p) (fun _ => ?_) (fun _ => ?_)
  · exact failCmd_keeps h0'
  · refine ite_keeps (K := Sound p) (fun _ => ?_) (fun _ => ?_)
    · exact failCmd_keeps h0'
    · exact startRemoval_keeps (keepRunning_keeps h0')

theorem bodyMigrateAbort_keeps {p} {x0} {x1} {x2} {x3} (h0' : Sound p x3) : Sound p (bodyMigrateAbort x0 x1 x2 x3) := by
  unfold bodyMigrateAbort
  extract_lets -merge -useContext -underBinder +onlyGivenNames v4
  try clear_value v4
  extract_lets -merge -useContext -underBinder +onlyGivenNames v5
  try clear_value v5
  refine ite_keeps (K := Sound p) (fun _ => ?_) (fun _ => ?_)
  · extract_lets -merge -useContext -underBinder +onlyGivenNames v6
    have h7 : Sound p v6 := by
      refine each_keeps ?_ h0'
      intro a8 a9 h10
      exact retireObject_keeps (State.onObj_keeps h10)
    try clear_value v6
    extract_lets -merge -useContext -underBinder +onlyGivenNames v11
    have h12 : Sound p v11 := retireSlot_keeps h7
    try clear_value v11
    refine done_keeps ?_
    refine State.onPart_keeps ?_
    exact Sound.of h12.ctrs h12.mem h12.link h12.keys h12.parts h12.objs h12.ctxs h12.queues h12.fences h12.accs h12.arrivals h12.users
        h12.opTab h12.doms (sorted_tdel h12.migs) h12.rings h12.profs h12.pending
  · refine ite_keeps (K := Sound p) (fun _ => ?_) (fun _ => ?_)
    · exact startRemoval_keeps (keepRunning_keeps h0')
    · exact failCmd_keeps h0'

end Sys2Proof.Machine
end

