-- ==== Sys2Proof/Laws/SoundDriver.lean ====
section
/-! SUPPORT. Operations that keep the tables in order and the queue as it was (Laws/Sound.lean): contexts, fences, the register window, faults and stops. -/

namespace Sys2Proof.Machine
open Sys2Proof Sys2Proof.Crypto

theorem bodyCtxCreate_keeps {p} {x0} {x1} {x2} {x3} (h0' : Sound p x3) : Sound p (bodyCtxCreate x0 x1 x2 x3) := by
  unfold bodyCtxCreate
  extract_lets -merge -useContext -underBinder +onlyGivenNames v4
  try clear_value v4
  extract_lets -merge -useContext -underBinder +onlyGivenNames v5
  try clear_value v5
  extract_lets -merge -useContext -underBinder +onlyGivenNames v6
  try clear_value v6
  extract_lets -merge -useContext -underBinder +onlyGivenNames v7
  try clear_value v7
  extract_lets -merge -useContext -underBinder +onlyGivenNames v8
  try clear_value v8
  refine ite_keeps (K := Sound p) (fun _ => ?_) (fun _ => ?_)
  · exact failCmd_keeps h0'
  · extract_lets -merge -useContext -underBinder +onlyGivenNames v9
    try clear_value v9
    refine ite_keeps (K := Sound p) (fun _ => ?_) (fun _ => ?_)
    · exact failCmd_keeps h0'
    · split
      · exact failCmd_keeps h0'
      · extract_lets -merge -useContext -underBinder +onlyGivenNames v12
        try clear_value v12
        refine done_keeps ?_
        exact Sound.of h0'.ctrs h0'.mem h0'.link h0'.keys h0'.parts h0'.objs (sorted_tset h0'.ctxs) h0'.queues h0'.fences h0'.accs
            h0'.arrivals h0'.users h0'.opTab h0'.doms h0'.migs h0'.rings h0'.profs h0'.pending

theorem bodyQueueCreate_keeps {p} {x0} {x1} {x2} {x3} (h0' : Sound p x3) : Sound p (bodyQueueCreate x0 x1 x2 x3) := by
  unfold bodyQueueCreate
  extract_lets -merge -useContext -underBinder +onlyGivenNames v4
  try clear_value v4
  extract_lets -merge -useContext -underBinder +onlyGivenNames v5
  try clear_value v5
  extract_lets -merge -useContext -underBinder +onlyGivenNames v6
  try clear_value v6
  extract_lets -merge -useContext -underBinder +onlyGivenNames v7
  try clear_value v7
  extract_lets -merge -useContext -underBinder +onlyGivenNames v8
  try clear_value v8
  extract_lets -merge -useContext -underBinder +onlyGivenNames v9
  try clear_value v9
  extract_lets -merge -useContext -underBinder +onlyGivenNames v10
  try clear_value v10
  refine ite_keeps (K := Sound p) (fun _ => ?_) (fun _ => ?_)
  · exact failCmd_keeps h0'
  · extract_lets -merge -useContext -underBinder +onlyGivenNames v11
    try clear_value v11
    extract_lets -merge -useContext -underBinder +onlyGivenNames v12
    try clear_value v12
    refine ite_keeps (K := Sound p) (fun _ => ?_) (fun _ => ?_)
    · exact failCmd_keeps h0'
    · split
      · exact failCmd_keeps h0'
      · extract_lets -merge -useContext -underBinder +onlyGivenNames v15
        try clear_value v15
        refine done_keeps ?_
        exact Sound.of h0'.ctrs h0'.mem h0'.link h0'.keys h0'.parts h0'.objs h0'.ctxs (sorted_tset h0'.queues) h0'.fences h0'.accs
            h0'.arrivals h0'.users h0'.opTab h0'.doms h0'.migs h0'.rings h0'.profs h0'.pending

theorem dropQueue_keeps {p} {x0} {x1} (h0' : Sound p x1) : Sound p (dropQueue x0 x1) := by
  unfold dropQueue
  extract_lets -merge -useContext -underBinder +onlyGivenNames v2
  have h3 : Sound p v2 := by
    refine each_keeps ?_ h0'
    intro a4 a5 h6
    exact unbindProf_keeps h6
  try clear_value v2
  exact Sound.of h3.ctrs h3.mem h3.link h3.keys h3.parts h3.objs h3.ctxs (sorted_tdel h3.queues) h3.fences h3.accs h3.arrivals h3.users
      h3.opTab h3.doms h3.migs h3.rings h3.profs h3.pending

theorem bodyQueueDestroy_keeps {p} {x0} {x1} {x2} {x3} (h0' : Sound p x3) : Sound p (bodyQueueDestroy x0 x1 x2 x3) := by
  unfold bodyQueueDestroy
  extract_lets -merge -useContext -underBinder +onlyGivenNames v4
  try clear_value v4
  refine ite_keeps (K := Sound p) (fun _ => ?_) (fun _ => ?_)
  · exact failCmd_keeps h0'
  · exact done_keeps (dropQueue_keeps h0')

theorem abandonCmds_keeps {p} {x0} {x1} (h0' : Sound p x1) : Sound p (abandonCmds x0 x1) := by
  unfold abandonCmds
  refine each_keeps ?_ h0'
  intro a2 a3 h4
  extract_lets -merge -useContext -underBinder +onlyGivenNames v5
  try clear_value v5
  extract_lets -merge -useContext -underBinder +onlyGivenNames v6
  try clear_value v6
  extract_lets -merge -useContext -underBinder +onlyGivenNames v7
  have h8 : Sound p v7 := by
    exact Sound.of h4.ctrs h4.mem (sorted_tmap h4.link) h4.keys h4.parts h4.objs h4.ctxs h4.queues h4.fences h4.accs h4.arrivals h4.users
        h4.opTab h4.doms h4.migs h4.rings h4.profs h4.pending
  try clear_value v7
  exact failCmd_keeps h8

theorem tryFreeFence_keeps {p} {x0} {x1} (h0' : Sound p x1) : Sound p (tryFreeFence x0 x1) := by
  unfold tryFreeFence
  extract_lets -merge -useContext -underBinder +onlyGivenNames v2
  try clear_value v2
  refine ite_keeps (K := Sound p) (fun _ => ?_) (fun _ => ?_)
  · exact Sound.of h0'.ctrs h0'.mem h0'.link h0'.keys h0'.parts h0'.objs h0'.ctxs h0'.queues (sorted_tdel h0'.fences) h0'.accs h0'.arrivals
        h0'.users h0'.opTab h0'.doms h0'.migs h0'.rings h0'.profs h0'.pending
  · exact h0'

theorem abandonFences_keeps {p} {x0} {x1} (h0' : Sound p x1) : Sound p (abandonFences x0 x1) := by
  unfold abandonFences
  extract_lets -merge -useContext -underBinder +onlyGivenNames v2
  try clear_value v2
  extract_lets -merge -useContext -underBinder +onlyGivenNames v3
  try clear_value v3
  extract_lets -merge -useContext -underBinder +onlyGivenNames v4
  have h5 : Sound p v4 := by
    refine each_keeps ?_ h0'
    intro a6 a7 h8
    extract_lets -merge -useContext -underBinder +onlyGivenNames v9
    have h10 : Sound p v9 := by
      refine ite_keeps (K := Sound p) (fun _ => ?_) (fun _ => ?_)
      · exact fenceFail_keeps h8
      · exact h8
    try clear_value v9
    exact State.onFence_keeps h10
  try clear_value v4
  extract_lets -merge -useContext -underBinder +onlyGivenNames v11
  have h12 : Sound p v11 := by
    refine each_keeps ?_ h5
    intro a13 a14 h15
    exact State.onFence_keeps h15
  try clear_value v11
  refine each_keeps ?_ h12
  intro a16 a17 h18
  exact tryFreeFence_keeps h18

theorem tearDown_keeps {p} {x0} {x1} (h0' : Sound p x1) : Sound p (tearDown x0 x1) := by
  unfold tearDown
  extract_lets -merge -useContext -underBinder +onlyGivenNames v2
  have h3 : Sound p v2 := cancelOps_keeps h0'
  try clear_value v2
  extract_lets -merge -useContext -underBinder +onlyGivenNames v4
  have h5 : Sound p v4 := by
    refine each_keeps ?_ h3
    intro a6 a7 h8
    exact freeArrival_keeps h8
  try clear_value v4
  extract_lets -merge -useContext -underBinder +onlyGivenNames v9
  have h10 : Sound p v9 := by
    refine each_keeps ?_ h5
    intro a11 a12 h13
    exact closeAcc_keeps h13
  try clear_value v9
  extract_lets -merge -useContext -underBinder +onlyGivenNames v14
  have h15 : Sound p v14 := abandonFences_keeps h10
  try clear_value v14
  extract_lets -merge -useContext -underBinder +onlyGivenNames v16
  try clear_value v16
  extract_lets -merge -useContext -underBinder +onlyGivenNames v17
  try clear_value v17
  extract_lets -merge -useContext -underBinder +onlyGivenNames v18
  have h19 : Sound p v18 := by
    refine each_keeps ?_ h15
    intro a20 a21 h22
    exact retireObject_keeps (dropOwner_keeps h22)
  try clear_value v18
  exact State.onCtx_keeps h19

theorem releaseCtx_keeps {p} {x0} {x1} (h0' : Sound p x1) : Sound p (releaseCtx x0 x1) := by
  unfold releaseCtx
  extract_lets -merge -useContext -underBinder +onlyGivenNames v2
  have h3 : Sound p v2 := by
    refine each_keeps ?_ h0'
    intro a4 a5 h6
    exact dropQueue_keeps h6
  try clear_value v2
  extract_lets -merge -useContext -underBinder +onlyGivenNames v7
  try clear_value v7
  extract_lets -merge -useContext -underBinder +onlyGivenNames v8
  have h9 : Sound p v8 := by
    refine raiseEvent_keeps ?_
    exact Sound.of h3.ctrs h3.mem h3.link h3.keys h3.parts h3.objs (sorted_tdel h3.ctxs) h3.queues h3.fences h3.accs h3.arrivals h3.users
        h3.opTab h3.doms h3.migs h3.rings h3.profs h3.pending
  try clear_value v8
  refine each_keeps ?_ h9
  intro a10 a11 h12
  exact done_keeps h12

theorem settleCtx_keeps {p} {x0} {x1} (h0' : Sound p x1) : Sound p (settleCtx x0 x1) := by
  unfold settleCtx
  refine ite_keeps (K := Sound p) (fun _ => ?_) (fun _ => ?_)
  · exact h0'
  · extract_lets -merge -useContext -underBinder +onlyGivenNames v2
    have h3 : Sound p v2 := by
      refine ite_keeps (K := Sound p) (fun _ => ?_) (fun _ => ?_)
      · exact tearDown_keeps h0'
      · exact h0'
    try clear_value v2
    refine ite_keeps (K := Sound p) (fun _ => ?_) (fun _ => ?_)
    · exact h3
    · extract_lets -merge -useContext -underBinder +onlyGivenNames v4
      have h5 : Sound p v4 := by
        refine each_keeps ?_ h3
        intro a6 a7 h8
        exact retireObject_keeps (freeAcc_keeps h8)
      try clear_value v4
      extract_lets -merge -useContext -underBinder +onlyGivenNames v9
      have h10 : Sound p v9 := by
        refine each_keeps ?_ h5
        intro a11 a12 h13
        exact retireObject_keeps h13
      try clear_value v9
      refine ite_keeps (K := Sound p) (fun _ => ?_) (fun _ => ?_)
      · exact releaseCtx_keeps h10
      · exact h10

theorem abandonCtx_keeps {p} {x0} {x1} (h0' : Sound p x1) : Sound p (abandonCtx x0 x1) := by
  unfold abandonCtx
  refine settleCtx_keeps ?_
  exact abandonCmds_keeps (State.onCtx_keeps h0')

theorem bodyCtxAbandon_keeps {p} {x0} {x1} {x2} {x3} (h0' : Sound p x3) : Sound p (bodyCtxAbandon x0 x1 x2 x3) := by
  unfold bodyCtxAbandon
  extract_lets -merge -useContext -underBinder +onlyGivenNames v4
  try clear_value v4
  refine ite_keeps (K := Sound p) (fun _ => ?_) (fun _ => ?_)
  · exact failCmd_keeps h0'
  · exact abandonCtx_keeps (keepRunning_keeps h0')

theorem bodyCtxClose_keeps {p} {x0} {x1} {x2} {x3} (h0' : Sound p x3) : Sound p (bodyCtxClose x0 x1 x2 x3) := by
  unfold bodyCtxClose
  extract_lets -merge -useContext -underBinder +onlyGivenNames v4
  try clear_value v4
  refine ite_keeps (K := Sound p) (fun _ => ?_) (fun _ => ?_)
  · exact failCmd_keeps h0'
  · exact keepRunning_keeps (State.onCtx_keeps h0')

theorem closeComplete_keeps {p} {x0} {x1} (h0' : Sound p x1) : Sound p (closeComplete x0 x1) := by
  unfold closeComplete
  refine ite_keeps (K := Sound p) (fun _ => ?_) (fun _ => ?_)
  · exact abandonCtx_keeps h0'
  · exact h0'

theorem bodyNop_keeps {p} {x0} {x1} {x2} {x3} (h0' : Sound p x3) : Sound p (bodyNop x0 x1 x2 x3) := by
  unfold bodyNop
  exact done_keeps h0'

theorem bodyFenceAlloc_keeps {p} {x0} {x1} {x2} {x3} (h0' : Sound p x3) : Sound p (bodyFenceAlloc x0 x1 x2 x3) := by
  unfold bodyFenceAlloc
  refine ite_keeps (K := Sound p) (fun _ => ?_) (fun _ => ?_)
  · exact done_keeps h0'
  · split
    · exact failCmd_keeps h0'
    · exact done_keeps (State.onFence_keeps h0')

theorem letGo_keeps {p} {x0} {x1} (h0' : Sound p x1) : Sound p (letGo x0 x1) := by
  unfold letGo
  exact tryFreeFence_keeps (State.onFence_keeps h0')

theorem bodyFenceFree_keeps {p} {x0} {x1} {x2} {x3} (h0' : Sound p x3) : Sound p (bodyFenceFree x0 x1 x2 x3) := by
  unfold bodyFenceFree
  extract_lets -merge -useContext -underBinder +onlyGivenNames v4
  try clear_value v4
  refine ite_keeps (K := Sound p) (fun _ => ?_) (fun _ => ?_)
  · exact failCmd_keeps h0'
  · refine ite_keeps (K := Sound p) (fun _ => ?_) (fun _ => ?_)
    · exact letGo_keeps (done_keeps h0')
    · refine ite_keeps (K := Sound p) (fun _ => ?_) (fun _ => ?_)
      · exact keepRunning_keeps h0'
      · exact done_keeps (letGo_keeps h0')

theorem settleFences_keeps {p} {x0} (h0' : Sound p x0) : Sound p (settleFences x0) := by
  unfold settleFences
  refine each_keeps ?_ h0'
  intro a1 a2 h3
  refine ite_keeps (K := Sound p) (fun _ => ?_) (fun _ => ?_)
  · exact h3
  · exact done_keeps (letGo_keeps h3)

theorem bodyFenceShare_keeps {p} {x0} {x1} {x2} {x3} (h0' : Sound p x3) : Sound p (bodyFenceShare x0 x1 x2 x3) := by
  unfold bodyFenceShare
  extract_lets -merge -useContext -underBinder +onlyGivenNames v4
  try clear_value v4
  extract_lets -merge -useContext -underBinder +onlyGivenNames v5
  try clear_value v5
  extract_lets -merge -useContext -underBinder +onlyGivenNames v6
  try clear_value v6
  extract_lets -merge -useContext -underBinder +onlyGivenNames v7
  try clear_value v7
  refine ite_keeps (K := Sound p) (fun _ => ?_) (fun _ => ?_)
  · exact failCmd_keeps h0'
  · exact done_keeps (State.onFence_keeps h0')

theorem bodyFenceRelease_keeps {p} {x0} {x1} {x2} {x3} (h0' : Sound p x3) : Sound p (bodyFenceRelease x0 x1 x2 x3) := by
  unfold bodyFenceRelease
  extract_lets -merge -useContext -underBinder +onlyGivenNames v4
  try clear_value v4
  extract_lets -merge -useContext -underBinder +onlyGivenNames v5
  try clear_value v5
  refine ite_keeps (K := Sound p) (fun _ => ?_) (fun _ => ?_)
  · exact failCmd_keeps h0'
  · refine done_keeps ?_
    exact tryFreeFence_keeps (State.onFence_keeps h0')

theorem bodyFenceQuery_keeps {p} {x0} {x1} {x2} {x3} (h0' : Sound p x3) : Sound p (bodyFenceQuery x0 x1 x2 x3) := by
  unfold bodyFenceQuery
  extract_lets -merge -useContext -underBinder +onlyGivenNames v4
  try clear_value v4
  extract_lets -merge -useContext -underBinder +onlyGivenNames v5
  try clear_value v5
  extract_lets -merge -useContext -underBinder +onlyGivenNames v6
  try clear_value v6
  refine ite_keeps (K := Sound p) (fun _ => ?_) (fun _ => ?_)
  · exact failCmd_keeps h0'
  · exact done_keeps h0'

theorem bodyWorkBegin_keeps {p} {x0} {x1} {x2} {x3} (h0' : Sound p x3) : Sound p (bodyWorkBegin x0 x1 x2 x3) := by
  unfold bodyWorkBegin
  exact keepRunning_keeps h0'

theorem bodyWorkEnd_keeps {p} {x0} {x1} {x2} {x3} (h0' : Sound p x3) : Sound p (bodyWorkEnd x0 x1 x2 x3) := by
  unfold bodyWorkEnd
  extract_lets -merge -useContext -underBinder +onlyGivenNames v4
  try clear_value v4
  split
  · exact failCmd_keeps h0'
  · refine ite_keeps (K := Sound p) (fun _ => ?_) (fun _ => ?_)
    · exact failCmd_keeps h0'
    · exact done_keeps (keepRunning_keeps h0')

theorem settleWork_keeps {p} {x0} (h0' : Sound p x0) : Sound p (settleWork x0) := by
  unfold settleWork
  refine each_keeps ?_ h0'
  intro a1 a2 h3
  refine ite_keeps (K := Sound p) (fun _ => ?_) (fun _ => ?_)
  · exact completeReported_keeps h3
  · exact h3

theorem workTimeout_keeps {p} {x0} {x1} {x2} (h0' : Sound p x2) : Sound p (workTimeout x0 x1 x2) := by
  unfold workTimeout
  split
  · exact h0'
  · extract_lets -merge -useContext -underBinder +onlyGivenNames v5
    try clear_value v5
    refine ite_keeps (K := Sound p) (fun _ => ?_) (fun _ => ?_)
    · exact failCmd_keeps h0'
    · exact h0'

theorem waitTimeout_keeps {p} {x0} {x1} {x2} (h0' : Sound p x2) : Sound p (waitTimeout x0 x1 x2) := by
  unfold waitTimeout
  split
  · exact h0'
  · refine ite_keeps (K := Sound p) (fun _ => ?_) (fun _ => ?_)
    · exact failCmd_keeps h0'
    · exact h0'

theorem pauseTimeout_keeps {p} {x0} {x1} (h0' : Sound p x1) : Sound p (pauseTimeout x0 x1) := by
  unfold pauseTimeout
  extract_lets -merge -useContext -underBinder +onlyGivenNames v2
  try clear_value v2
  split
  · exact h0'
  · refine ite_keeps (K := Sound p) (fun _ => ?_) (fun _ => ?_)
    · extract_lets -merge -useContext -underBinder +onlyGivenNames v5
      try clear_value v5
      extract_lets -merge -useContext -underBinder +onlyGivenNames v6
      have h7 : Sound p v6 := State.onQueue_keeps h0'
      try clear_value v6
      exact refuseTake_keeps (bump_keeps h7)
    · exact h0'

theorem moveTail_keeps {p} {x0} {x1} {x2} (h0' : Sound p x2) : Sound p (moveTail x0 x1 x2) := by
  unfold moveTail
  exact State.onQueue_keeps h0'

theorem ignoredDoorbell_keeps {p} {x0} (h0' : Sound p x0) : Sound p (ignoredDoorbell x0) := by
  unfold ignoredDoorbell
  exact bump_keeps h0'

theorem hostDoorbell_keeps {p} {x0} {x1} {x2} (h0' : Sound p x2) : Sound p (hostDoorbell x0 x1 x2) := by
  unfold hostDoorbell
  extract_lets -merge -useContext -underBinder +onlyGivenNames v3
  try clear_value v3
  extract_lets -merge -useContext -underBinder +onlyGivenNames v4
  try clear_value v4
  refine ite_keeps (K := Sound p) (fun _ => ?_) (fun _ => ?_)
  · exact h0'
  · refine ite_keeps (K := Sound p) (fun _ => ?_) (fun _ => ?_)
    · exact ignoredDoorbell_keeps h0'
    · exact moveTail_keeps h0'

theorem deviceDoorbell_keeps {p} {x0} {x1} {x2} {x3} (h0' : Sound p x3) : Sound p (deviceDoorbell x0 x1 x2 x3) := by
  unfold deviceDoorbell
  extract_lets -merge -useContext -underBinder +onlyGivenNames v4
  try clear_value v4
  extract_lets -merge -useContext -underBinder +onlyGivenNames v5
  try clear_value v5
  extract_lets -merge -useContext -underBinder +onlyGivenNames v6
  try clear_value v6
  refine ite_keeps (K := Sound p) (fun _ => ?_) (fun _ => ?_)
  · exact h0'
  · refine ite_keeps (K := Sound p) (fun _ => ?_) (fun _ => ?_)
    · exact ignoredDoorbell_keeps h0'
    · refine ite_keeps (K := Sound p) (fun _ => ?_) (fun _ => ?_)
      · exact h0'
      · exact State.onQueue_keeps (moveTail_keeps h0')

theorem arrivalRead_keeps {p} {x0} {x1} {x2} (h0' : Sound p x2) : Sound p (arrivalRead x0 x1 x2) := by
  unfold arrivalRead
  extract_lets -merge -useContext -underBinder +onlyGivenNames v3
  try clear_value v3
  refine ite_keeps (K := Sound p) (fun _ => ?_) (fun _ => ?_)
  · exact h0'
  · refine ite_keeps (K := Sound p) (fun _ => ?_) (fun _ => ?_)
    · exact emit_keeps h0'
    · exact emit_keeps h0'

theorem startAdmin_keeps {p} {x0} (h0' : Sound p x0) : Sound p (startAdmin x0) := by
  unfold startAdmin
  extract_lets -merge -useContext -underBinder +onlyGivenNames v1
  try clear_value v1
  extract_lets -merge -useContext -underBinder +onlyGivenNames v2
  try clear_value v2
  extract_lets -merge -useContext -underBinder +onlyGivenNames v3
  try clear_value v3
  extract_lets -merge -useContext -underBinder +onlyGivenNames v4
  have h5 : Sound p v4 := by
    refine endCondition_keeps ?_
    exact Sound.of h0'.ctrs h0'.mem h0'.link h0'.keys h0'.parts h0'.objs (sorted_tset h0'.ctxs) (sorted_tset h0'.queues) h0'.fences
        h0'.accs h0'.arrivals h0'.users h0'.opTab h0'.doms h0'.migs h0'.rings h0'.profs h0'.pending
  try clear_value v4
  exact Sound.of h5.ctrs h5.mem h5.link h5.keys h5.parts h5.objs h5.ctxs h5.queues h5.fences h5.accs h5.arrivals h5.users h5.opTab h5.doms
      h5.migs h5.rings h5.profs h5.pending

theorem adminWrite_keeps {p} {x0} {x1} (h0' : Sound p x1) : Sound p (adminWrite x0 x1) := by
  unfold adminWrite
  refine ite_keeps (K := Sound p) (fun _ => ?_) (fun _ => ?_)
  · exact h0'
  · extract_lets -merge -useContext -underBinder +onlyGivenNames w2 v3
    have h4 : Sound p v3 := by
      exact Sound.of h0'.ctrs h0'.mem h0'.link h0'.keys h0'.parts h0'.objs h0'.ctxs h0'.queues h0'.fences h0'.accs h0'.arrivals h0'.users
          h0'.opTab h0'.doms h0'.migs h0'.rings h0'.profs h0'.pending
    try clear_value v3 w2
    refine ite_keeps (K := Sound p) (fun _ => ?_) (fun _ => ?_)
    · exact h4
    · refine ite_keeps (K := Sound p) (fun _ => ?_) (fun _ => ?_)
      · exact faultEvent_keeps h4
      · exact startAdmin_keeps h4

theorem tableRead_keeps {p} {x0} {x1} (h0' : Sound p x1) : Sound p (tableRead x0 x1) := by
  unfold tableRead
  refine ite_keeps (K := Sound p) (fun _ => ?_) (fun _ => ?_)
  · exact h0'
  · split
    · exact Sound.of h0'.ctrs h0'.mem h0'.link h0'.keys h0'.parts h0'.objs h0'.ctxs h0'.queues h0'.fences h0'.accs h0'.arrivals h0'.users
          h0'.opTab h0'.doms h0'.migs h0'.rings h0'.profs h0'.pending
    · exact Sound.of h0'.ctrs h0'.mem h0'.link h0'.keys h0'.parts h0'.objs h0'.ctxs h0'.queues h0'.fences h0'.accs h0'.arrivals h0'.users
          h0'.opTab h0'.doms h0'.migs h0'.rings h0'.profs h0'.pending

theorem eventHead_keeps {p} {x0} {x1} {x2} {x3} {x4} (h0' : Sound p x4) : Sound p (eventHead x0 x1 x2 x3 x4) := by
  unfold eventHead
  refine ite_keeps (K := Sound p) (fun _ => ?_) (fun _ => ?_)
  · exact h0'
  · exact State.onCtx_keeps h0'

theorem msixWrite_keeps {p} {x0} {x1} {x2} (h0' : Sound p x2) : Sound p (msixWrite x0 x1 x2) := by
  unfold msixWrite
  extract_lets -merge -useContext -underBinder +onlyGivenNames w3 v4
  have h5 : Sound p v4 := by
    exact Sound.of h0'.ctrs h0'.mem h0'.link h0'.keys h0'.parts h0'.objs h0'.ctxs h0'.queues h0'.fences h0'.accs h0'.arrivals h0'.users
        h0'.opTab h0'.doms h0'.migs h0'.rings h0'.profs h0'.pending
  try clear_value v4 w3
  extract_lets -merge -useContext -underBinder +onlyGivenNames v6
  try clear_value v6
  refine ite_keeps (K := Sound p) (fun _ => ?_) (fun _ => ?_)
  · exact emit_keeps (Sound.of h5.ctrs h5.mem h5.link h5.keys h5.parts h5.objs h5.ctxs h5.queues h5.fences h5.accs h5.arrivals h5.users
        h5.opTab h5.doms h5.migs h5.rings h5.profs h5.pending)
  · exact h5

theorem acknowledge_keeps {p} {x0} {x1} {x2} (h0' : Sound p x2) : Sound p (acknowledge x0 x1 x2) := by
  unfold acknowledge
  refine ite_keeps (K := Sound p) (fun _ => ?_) (fun _ => ?_)
  · exact h0'
  · exact Sound.of h0'.ctrs h0'.mem h0'.link h0'.keys h0'.parts h0'.objs h0'.ctxs h0'.queues h0'.fences h0'.accs h0'.arrivals h0'.users
        h0'.opTab h0'.doms h0'.migs h0'.rings h0'.profs h0'.pending

theorem snapWrite_keeps {p} {x0} {x1} (h0' : Sound p x1) : Sound p (snapWrite x0 x1) := by
  unfold snapWrite
  refine ite_keeps (K := Sound p) (fun _ => ?_) (fun _ => ?_)
  · exact h0'
  · extract_lets -merge -useContext -underBinder +onlyGivenNames v2
    try clear_value v2
    refine ite_keeps (K := Sound p) (fun _ => ?_) (fun _ => ?_)
    · exact Sound.of h0'.ctrs h0'.mem h0'.link h0'.keys h0'.parts h0'.objs h0'.ctxs h0'.queues h0'.fences h0'.accs h0'.arrivals h0'.users
          h0'.opTab h0'.doms h0'.migs h0'.rings h0'.profs h0'.pending
    · extract_lets -merge -useContext -underBinder +onlyGivenNames v3
      try clear_value v3
      extract_lets -merge -useContext -underBinder +onlyGivenNames v4
      try clear_value v4
      exact Sound.of h0'.ctrs h0'.mem h0'.link h0'.keys h0'.parts h0'.objs h0'.ctxs h0'.queues h0'.fences h0'.accs h0'.arrivals h0'.users
          h0'.opTab h0'.doms h0'.migs h0'.rings h0'.profs h0'.pending

theorem heartbeat_keeps {p} {x0} {x1} (h0' : Sound p x1) : Sound p (heartbeat x0 x1) := by
  unfold heartbeat
  refine ite_keeps (K := Sound p) (fun _ => ?_) (fun _ => ?_)
  · exact h0'
  · refine ite_keeps (K := Sound p) (fun _ => ?_) (fun _ => ?_)
    · exact Sound.of h0'.ctrs h0'.mem h0'.link h0'.keys h0'.parts h0'.objs h0'.ctxs h0'.queues h0'.fences h0'.accs h0'.arrivals h0'.users
          h0'.opTab h0'.doms h0'.migs h0'.rings h0'.profs h0'.pending
    · exact bump_keeps h0'

theorem regWrite_keeps {p} {x0} {x1} {x2} {x3} (h0' : Sound p x3) : Sound p (regWrite x0 x1 x2 x3) := by
  unfold regWrite
  extract_lets -merge -useContext -underBinder +onlyGivenNames v4
  try clear_value v4
  extract_lets -merge -useContext -underBinder +onlyGivenNames v5
  try clear_value v5
  extract_lets -merge -useContext -underBinder +onlyGivenNames v6
  try clear_value v6
  extract_lets -merge -useContext -underBinder +onlyGivenNames v7
  try clear_value v7
  refine ite_keeps (K := Sound p) (fun _ => ?_) (fun _ => ?_)
  · exact h0'
  · refine ite_keeps (K := Sound p) (fun _ => ?_) (fun _ => ?_)
    · refine ite_keeps (K := Sound p) (fun _ => ?_) (fun _ => ?_)
      · exact h0'
      · exact Sound.of h0'.ctrs h0'.mem h0'.link h0'.keys h0'.parts h0'.objs h0'.ctxs h0'.queues h0'.fences h0'.accs h0'.arrivals h0'.users
            h0'.opTab h0'.doms h0'.migs h0'.rings h0'.profs h0'.pending
    · refine ite_keeps (K := Sound p) (fun _ => ?_) (fun _ => ?_)
      · refine ite_keeps (K := Sound p) (fun _ => ?_) (fun _ => ?_)
        · exact h0'
        · exact Sound.of h0'.ctrs h0'.mem h0'.link h0'.keys h0'.parts h0'.objs h0'.ctxs h0'.queues h0'.fences h0'.accs h0'.arrivals
              h0'.users h0'.opTab h0'.doms h0'.migs h0'.rings h0'.profs h0'.pending
      · refine ite_keeps (K := Sound p) (fun _ => ?_) (fun _ => ?_)
        · refine ite_keeps (K := Sound p) (fun _ => ?_) (fun _ => ?_)
          · exact h0'
          · exact Sound.of h0'.ctrs h0'.mem h0'.link h0'.keys h0'.parts h0'.objs h0'.ctxs h0'.queues h0'.fences h0'.accs h0'.arrivals
                h0'.users h0'.opTab h0'.doms h0'.migs h0'.rings h0'.profs h0'.pending
        · refine ite_keeps (K := Sound p) (fun _ => ?_) (fun _ => ?_)
          · exact adminWrite_keeps h0'
          · refine ite_keeps (K := Sound p) (fun _ => ?_) (fun _ => ?_)
            · refine ite_keeps (K := Sound p) (fun _ => ?_) (fun _ => ?_)
              · exact h0'
              · exact Sound.of h0'.ctrs h0'.mem h0'.link h0'.keys h0'.parts h0'.objs h0'.ctxs h0'.queues h0'.fences h0'.accs h0'.arrivals
                    h0'.users h0'.opTab h0'.doms h0'.migs h0'.rings h0'.profs h0'.pending
            · refine ite_keeps (K := Sound p) (fun _ => ?_) (fun _ => ?_)
              · exact Sound.of h0'.ctrs h0'.mem h0'.link h0'.keys h0'.parts h0'.objs h0'.ctxs h0'.queues h0'.fences h0'.accs h0'.arrivals
                    h0'.users h0'.opTab h0'.doms h0'.migs h0'.rings h0'.profs h0'.pending
              · refine ite_keeps (K := Sound p) (fun _ => ?_) (fun _ => ?_)
                · exact Sound.of h0'.ctrs h0'.mem h0'.link h0'.keys h0'.parts h0'.objs h0'.ctxs h0'.queues h0'.fences h0'.accs h0'.arrivals
                      h0'.users h0'.opTab h0'.doms h0'.migs h0'.rings h0'.profs h0'.pending
                · refine ite_keeps (K := Sound p) (fun _ => ?_) (fun _ => ?_)
                  · exact tableRead_keeps h0'
                  · refine ite_keeps (K := Sound p) (fun _ => ?_) (fun _ => ?_)
                    · exact Sound.of h0'.ctrs h0'.mem h0'.link h0'.keys h0'.parts h0'.objs h0'.ctxs h0'.queues h0'.fences h0'.accs
                          h0'.arrivals h0'.users h0'.opTab h0'.doms h0'.migs h0'.rings h0'.profs h0'.pending
                    · refine ite_keeps (K := Sound p) (fun _ => ?_) (fun _ => ?_)
                      · extract_lets -merge -useContext -underBinder +onlyGivenNames v8
                        have h9 : Sound p v8 := acknowledge_keeps h0'
                        try clear_value v8
                        refine ite_keeps (K := Sound p) (fun _ => ?_) (fun _ => ?_)
                        · exact acknowledge_keeps h9
                        · exact h9
                      · refine ite_keeps (K := Sound p) (fun _ => ?_) (fun _ => ?_)
                        · refine ite_keeps (K := Sound p) (fun _ => ?_) (fun _ => ?_)
                          · exact h0'
                          · exact hostDoorbell_keeps h0'
                        · refine ite_keeps (K := Sound p) (fun _ => ?_) (fun _ => ?_)
                          · exact eventHead_keeps h0'
                          · refine ite_keeps (K := Sound p) (fun _ => ?_) (fun _ => ?_)
                            · extract_lets -merge -useContext -underBinder +onlyGivenNames v10
                              have h11 : Sound p v10 := msixWrite_keeps h0'
                              try clear_value v10
                              refine ite_keeps (K := Sound p) (fun _ => ?_) (fun _ => ?_)
                              · exact msixWrite_keeps h11
                              · exact h11
                            · refine ite_keeps (K := Sound p) (fun _ => ?_) (fun _ => ?_)
                              · exact snapWrite_keeps h0'
                              · exact h0'

theorem windowClose_keeps {p} {x0} {x1} {x2} (h0' : Sound p x2) : Sound p (windowClose x0 x1 x2) := by
  unfold windowClose
  extract_lets -merge -useContext -underBinder +onlyGivenNames v3
  try clear_value v3
  exact Sound.of h0'.ctrs h0'.mem h0'.link h0'.keys h0'.parts h0'.objs h0'.ctxs h0'.queues h0'.fences h0'.accs h0'.arrivals h0'.users
      h0'.opTab h0'.doms h0'.migs h0'.rings h0'.profs h0'.pending

theorem bodyFaultClear_keeps {p} {x0} {x1} {x2} {x3} (h0' : Sound p x3) : Sound p (bodyFaultClear x0 x1 x2 x3) := by
  unfold bodyFaultClear
  extract_lets -merge -useContext -underBinder +onlyGivenNames v4
  try clear_value v4
  extract_lets -merge -useContext -underBinder +onlyGivenNames v5
  try clear_value v5
  refine ite_keeps (K := Sound p) (fun _ => ?_) (fun _ => ?_)
  · exact failCmd_keeps h0'
  · extract_lets -merge -useContext -underBinder +onlyGivenNames v6
    try clear_value v6
    extract_lets -merge -useContext -underBinder +onlyGivenNames v7
    try clear_value v7
    extract_lets -merge -useContext -underBinder +onlyGivenNames v8
    try clear_value v8
    extract_lets -merge -useContext -underBinder +onlyGivenNames v9
    try clear_value v9
    extract_lets -merge -useContext -underBinder +onlyGivenNames v10
    try clear_value v10
    extract_lets -merge -useContext -underBinder +onlyGivenNames w11 v12
    have h13 : Sound p v12 := by
      exact Sound.of h0'.ctrs h0'.mem h0'.link h0'.keys h0'.parts h0'.objs h0'.ctxs h0'.queues h0'.fences h0'.accs h0'.arrivals h0'.users
          h0'.opTab h0'.doms h0'.migs h0'.rings h0'.profs h0'.pending
    try clear_value v12 w11
    refine ite_keeps (K := Sound p) (fun _ => ?_) (fun _ => ?_)
    · exact failCmd_keeps h13
    · exact done_keeps h13

theorem bodyFaultThreshold_keeps {p} {x0} {x1} {x2} {x3} (h0' : Sound p x3) : Sound p (bodyFaultThreshold x0 x1 x2 x3) := by
  unfold bodyFaultThreshold
  extract_lets -merge -useContext -underBinder +onlyGivenNames v4
  try clear_value v4
  extract_lets -merge -useContext -underBinder +onlyGivenNames v5
  try clear_value v5
  extract_lets -merge -useContext -underBinder +onlyGivenNames v6
  try clear_value v6
  extract_lets -merge -useContext -underBinder +onlyGivenNames v7
  try clear_value v7
  extract_lets -merge -useContext -underBinder +onlyGivenNames v8
  try clear_value v8
  refine ite_keeps (K := Sound p) (fun _ => ?_) (fun _ => ?_)
  · exact failCmd_keeps h0'
  · exact done_keeps (Sound.of h0'.ctrs h0'.mem h0'.link h0'.keys h0'.parts h0'.objs h0'.ctxs h0'.queues h0'.fences h0'.accs h0'.arrivals
        h0'.users h0'.opTab h0'.doms h0'.migs h0'.rings h0'.profs h0'.pending)

theorem bodyHedgehogPolicy_keeps {p} {x0} {x1} {x2} {x3} (h0' : Sound p x3) : Sound p (bodyHedgehogPolicy x0 x1 x2 x3) := by
  unfold bodyHedgehogPolicy
  extract_lets -merge -useContext -underBinder +onlyGivenNames v4
  try clear_value v4
  refine ite_keeps (K := Sound p) (fun _ => ?_) (fun _ => ?_)
  · exact failCmd_keeps h0'
  · exact done_keeps (Sound.of h0'.ctrs h0'.mem h0'.link h0'.keys h0'.parts h0'.objs h0'.ctxs h0'.queues h0'.fences h0'.accs h0'.arrivals
        h0'.users h0'.opTab h0'.doms h0'.migs h0'.rings h0'.profs h0'.pending)

theorem bodyFaultInject_keeps {p} {x0} {x1} {x2} {x3} (h0' : Sound p x3) : Sound p (bodyFaultInject x0 x1 x2 x3) := by
  unfold bodyFaultInject
  extract_lets -merge -useContext -underBinder +onlyGivenNames v4
  try clear_value v4
  extract_lets -merge -useContext -underBinder +onlyGivenNames v5
  try clear_value v5
  extract_lets -merge -useContext -underBinder +onlyGivenNames v6
  try clear_value v6
  refine ite_keeps (K := Sound p) (fun _ => ?_) (fun _ => ?_)
  · exact failCmd_keeps h0'
  · extract_lets -merge -useContext -underBinder +onlyGivenNames v7
    have h8 : Sound p v7 := done_keeps h0'
    try clear_value v7
    refine ite_keeps (K := Sound p) (fun _ => ?_) (fun _ => ?_)
    · exact lockdown_keeps h8
    · exact faultAs_keeps h8

theorem hedgehogTrip_keeps {p} {x0} {x1} (h0' : Sound p x1) : Sound p (hedgehogTrip x0 x1) := by
  unfold hedgehogTrip
  extract_lets -merge -useContext -underBinder +onlyGivenNames v2
  try clear_value v2
  refine ite_keeps (K := Sound p) (fun _ => ?_) (fun _ => ?_)
  · exact h0'
  · exact lockdown_keeps h0'

theorem safeStation_keeps {p} {x0} {x1} (h0' : Sound p x1) : Sound p (safeStation x0 x1) := by
  unfold safeStation
  refine ite_keeps (K := Sound p) (fun _ => ?_) (fun _ => ?_)
  · exact h0'
  · refine ite_keeps (K := Sound p) (fun _ => ?_) (fun _ => ?_)
    · exact safeMem_keeps h0'
    · refine ite_keeps (K := Sound p) (fun _ => ?_) (fun _ => ?_)
      · exact closeBundles_keeps h0'
      · exact h0'

theorem cutEmission_keeps {p} {x0} {x1} {x2} (h0' : Sound p x2) : Sound p (cutEmission x0 x1 x2) := by
  unfold cutEmission
  extract_lets -merge -useContext -underBinder +onlyGivenNames v3
  try clear_value v3
  refine ite_keeps (K := Sound p) (fun _ => ?_) (fun _ => ?_)
  · exact h0'
  · exact State.onLink_keeps h0'

theorem crcError_keeps {p} {x0} {x1} {x2} {x3} (h0' : Sound p x3) : Sound p (crcError x0 x1 x2 x3) := by
  unfold crcError
  refine ite_keeps (K := Sound p) (fun _ => ?_) (fun _ => ?_)
  · exact h0'
  · extract_lets -merge -useContext -underBinder +onlyGivenNames v4
    have h5 : Sound p v4 := by
      refine ite_keeps (K := Sound p) (fun _ => ?_) (fun _ => ?_)
      · exact State.onPort_keeps h0'
      · exact h0'
    try clear_value v4
    extract_lets -merge -useContext -underBinder +onlyGivenNames v6
    have h7 : Sound p v6 := countFault_keeps (bump_keeps h5)
    try clear_value v6
    extract_lets -merge -useContext -underBinder +onlyGivenNames v8
    try clear_value v8
    extract_lets -merge -useContext -underBinder +onlyGivenNames v9
    try clear_value v9
    refine ite_keeps (K := Sound p) (fun _ => ?_) (fun _ => ?_)
    · exact raise_keeps (Sound.of h7.ctrs h7.mem h7.link h7.keys h7.parts h7.objs h7.ctxs h7.queues h7.fences h7.accs h7.arrivals h7.users
          h7.opTab h7.doms h7.migs h7.rings h7.profs h7.pending)
    · exact Sound.of h7.ctrs h7.mem h7.link h7.keys h7.parts h7.objs h7.ctxs h7.queues h7.fences h7.accs h7.arrivals h7.users h7.opTab
          h7.doms h7.migs h7.rings h7.profs h7.pending

theorem settleNoticesSeen_keeps {p} {x0} (h0' : Sound p x0) : Sound p (settleNoticesSeen x0) := by
  unfold settleNoticesSeen
  refine ite_keeps (K := Sound p) (fun _ => ?_) (fun _ => ?_)
  · exact h0'
  · exact Sound.of h0'.ctrs h0'.mem h0'.link h0'.keys h0'.parts h0'.objs h0'.ctxs h0'.queues h0'.fences h0'.accs h0'.arrivals h0'.users
        h0'.opTab h0'.doms h0'.migs h0'.rings h0'.profs h0'.pending

theorem onEveryPort_keeps {p} {x0} {x1} (h0' : Sound p x1) : Sound p (onEveryPort x0 x1) := by
  unfold onEveryPort
  refine each_keeps ?_ h0'
  intro a2 a3 h4
  exact State.onPort_keeps h4

theorem stampStop_keeps {p} {x0} {x1} {x2} {x3} {x4} (h0' : Sound p x4) : Sound p (stampStop x0 x1 x2 x3 x4) := by
  unfold stampStop
  exact onEveryPort_keeps (Sound.of h0'.ctrs h0'.mem h0'.link h0'.keys h0'.parts h0'.objs h0'.ctxs h0'.queues h0'.fences h0'.accs
      h0'.arrivals h0'.users h0'.opTab h0'.doms h0'.migs h0'.rings h0'.profs h0'.pending)

theorem stampResume_keeps {p} {x0} {x1} (h0' : Sound p x1) : Sound p (stampResume x0 x1) := by
  unfold stampResume
  exact onEveryPort_keeps (Sound.of h0'.ctrs h0'.mem h0'.link h0'.keys h0'.parts h0'.objs h0'.ctxs h0'.queues h0'.fences h0'.accs
      h0'.arrivals h0'.users h0'.opTab h0'.doms h0'.migs h0'.rings h0'.profs h0'.pending)

theorem sendMarkers_keeps {p} {x0} {x1} (h0' : Sound p x1) : Sound p (sendMarkers x0 x1) := by
  unfold sendMarkers
  extract_lets -merge -useContext -underBinder +onlyGivenNames v2
  try clear_value v2
  extract_lets -merge -useContext -underBinder +onlyGivenNames v3
  try clear_value v3
  refine each_keeps ?_ h0'
  intro a4 a5 h6
  exact State.onPort_keeps (sendResp_keeps h6)

theorem applyStop_keeps {p} {x0} {x1} {x2} {x3} (h0' : Sound p x3) : Sound p (applyStop x0 x1 x2 x3) := by
  unfold applyStop
  extract_lets -merge -useContext -underBinder +onlyGivenNames v4
  try clear_value v4
  extract_lets -merge -useContext -underBinder +onlyGivenNames v5
  have h6 : Sound p v5 := by
    refine ite_keeps (K := Sound p) (fun _ => ?_) (fun _ => ?_)
    · exact closeBundles_keeps h0'
    · exact h0'
  try clear_value v5
  extract_lets -merge -useContext -underBinder +onlyGivenNames v7
  have h8 : Sound p v7 := State.onPort_keeps h6
  try clear_value v7
  refine ite_keeps (K := Sound p) (fun _ => ?_) (fun _ => ?_)
  · exact sendMarkers_keeps h8
  · exact h8

theorem applyResume_keeps {p} {x0} {x1} (h0' : Sound p x1) : Sound p (applyResume x0 x1) := by
  unfold applyResume
  extract_lets -merge -useContext -underBinder +onlyGivenNames v2
  try clear_value v2
  extract_lets -merge -useContext -underBinder +onlyGivenNames v3
  have h4 : Sound p v3 := State.onPort_keeps h0'
  try clear_value v3
  refine ite_keeps (K := Sound p) (fun _ => ?_) (fun _ => ?_)
  · exact pump_keeps h4
  · refine ite_keeps (K := Sound p) (fun _ => ?_) (fun _ => ?_)
    · exact linkPump_keeps h4
    · exact h4

theorem stopSettled_keeps {p} {x0} (h0' : Sound p x0) : Sound p (stopSettled x0) := by
  unfold stopSettled
  refine ite_keeps (K := Sound p) (fun _ => ?_) (fun _ => ?_)
  · refine each_keeps ?_ h0'
    intro a1 a2 h3
    exact done_keeps h3
  · exact h0'

theorem resumeSettled_keeps {p} {x0} (h0' : Sound p x0) : Sound p (resumeSettled x0) := by
  unfold resumeSettled
  refine ite_keeps (K := Sound p) (fun _ => ?_) (fun _ => ?_)
  · extract_lets -merge -useContext -underBinder +onlyGivenNames v1
    try clear_value v1
    extract_lets -merge -useContext -underBinder +onlyGivenNames w2 v3
    have h4 : Sound p v3 := by
      exact Sound.of h0'.ctrs h0'.mem h0'.link h0'.keys h0'.parts h0'.objs h0'.ctxs h0'.queues h0'.fences h0'.accs h0'.arrivals h0'.users
          h0'.opTab (sorted_tmap h0'.doms) h0'.migs h0'.rings h0'.profs h0'.pending
    try clear_value v3 w2
    refine each_keeps ?_ h4
    intro a5 a6 h7
    exact done_keeps h7
  · exact h0'

theorem stopTick_keeps {p} {x0} (h0' : Sound p x0) : Sound p (stopTick x0) := by
  unfold stopTick
  refine stopSettled_keeps ?_
  refine each_keeps ?_ h0'
  intro a1 a2 h3
  exact applyStop_keeps h3

theorem resumeTick_keeps {p} {x0} (h0' : Sound p x0) : Sound p (resumeTick x0) := by
  unfold resumeTick
  refine resumeSettled_keeps ?_
  refine each_keeps ?_ h0'
  intro a1 a2 h3
  exact applyResume_keeps h3

theorem frameRepeat_keeps {p} {x0} {x1} {x2} (h0' : Sound p x2) : Sound p (frameRepeat x0 x1 x2) := by
  unfold frameRepeat
  refine ite_keeps (K := Sound p) (fun _ => ?_) (fun _ => ?_)
  · exact h0'
  · split
    · refine ite_keeps (K := Sound p) (fun _ => ?_) (fun _ => ?_)
      · exact State.onPort_keeps h0'
      · refine stopSettled_keeps ?_
        exact applyStop_keeps (bump_keeps h0')
    · refine ite_keeps (K := Sound p) (fun _ => ?_) (fun _ => ?_)
      · exact State.onPort_keeps h0'
      · refine resumeSettled_keeps ?_
        exact applyResume_keeps (bump_keeps h0')

theorem bodyStopWave_keeps {p} {x0} {x1} {x2} {x3} (h0' : Sound p x3) : Sound p (bodyStopWave x0 x1 x2 x3) := by
  unfold bodyStopWave
  extract_lets -merge -useContext -underBinder +onlyGivenNames v4
  try clear_value v4
  extract_lets -merge -useContext -underBinder +onlyGivenNames v5
  try clear_value v5
  extract_lets -merge -useContext -underBinder +onlyGivenNames v6
  try clear_value v6
  refine ite_keeps (K := Sound p) (fun _ => ?_) (fun _ => ?_)
  · exact failCmd_keeps h0'
  · extract_lets -merge -useContext -underBinder +onlyGivenNames v7
    try clear_value v7
    extract_lets -merge -useContext -underBinder +onlyGivenNames v8
    try clear_value v8
    extract_lets -merge -useContext -underBinder +onlyGivenNames v9
    have h10 : Sound p v9 := by
      refine ite_keeps (K := Sound p) (fun _ => ?_) (fun _ => ?_)
      · exact mailAll_keeps h0'
      · exact h0'
    try clear_value v9
    exact keepRunning_keeps (stampStop_keeps h10)

theorem bodyStopResume_keeps {p} {x0} {x1} {x2} {x3} (h0' : Sound p x3) : Sound p (bodyStopResume x0 x1 x2 x3) := by
  unfold bodyStopResume
  extract_lets -merge -useContext -underBinder +onlyGivenNames v4
  try clear_value v4
  extract_lets -merge -useContext -underBinder +onlyGivenNames v5
  try clear_value v5
  extract_lets -merge -useContext -underBinder +onlyGivenNames v6
  try clear_value v6
  refine ite_keeps (K := Sound p) (fun _ => ?_) (fun _ => ?_)
  · exact failCmd_keeps h0'
  · extract_lets -merge -useContext -underBinder +onlyGivenNames v7
    have h8 : Sound p v7 := by
      refine ite_keeps (K := Sound p) (fun _ => ?_) (fun _ => ?_)
      · exact mailAll_keeps h0'
      · exact h0'
    try clear_value v7
    exact keepRunning_keeps (stampResume_keeps h8)

theorem stopArrives_keeps {p} {x0} {x1} {x2} {x3} (h0' : Sound p x3) : Sound p (stopArrives x0 x1 x2 x3) := by
  unfold stopArrives
  extract_lets -merge -useContext -underBinder +onlyGivenNames v4
  try clear_value v4
  extract_lets -merge -useContext -underBinder +onlyGivenNames v5
  try clear_value v5
  refine ite_keeps (K := Sound p) (fun _ => ?_) (fun _ => ?_)
  · exact h0'
  · extract_lets -merge -useContext -underBinder +onlyGivenNames v6
    have h7 : Sound p v6 := mailAll_keeps h0'
    try clear_value v6
    refine ite_keeps (K := Sound p) (fun _ => ?_) (fun _ => ?_)
    · exact h7
    · exact stampStop_keeps h7

theorem resumeArrives_keeps {p} {x0} {x1} {x2} {x3} (h0' : Sound p x3) : Sound p (resumeArrives x0 x1 x2 x3) := by
  unfold resumeArrives
  extract_lets -merge -useContext -underBinder +onlyGivenNames v4
  try clear_value v4
  refine ite_keeps (K := Sound p) (fun _ => ?_) (fun _ => ?_)
  · exact h0'
  · extract_lets -merge -useContext -underBinder +onlyGivenNames v5
    have h6 : Sound p v5 := mailAll_keeps h0'
    try clear_value v5
    refine ite_keeps (K := Sound p) (fun _ => ?_) (fun _ => ?_)
    · exact stampResume_keeps h6
    · exact h6

theorem writeStopRecords_keeps {p} {x0} {x1} (h0' : Sound p x1) : Sound p (writeStopRecords x0 x1) := by
  unfold writeStopRecords
  extract_lets -merge -useContext -underBinder +onlyGivenNames v2
  try clear_value v2
  refine putObj_keeps ?_ h0'
  intro a3 h4
  exact done_keeps h4

theorem bodyStopRecords_keeps {p} {x0} {x1} {x2} {x3} (h0' : Sound p x3) : Sound p (bodyStopRecords x0 x1 x2 x3) := by
  unfold bodyStopRecords
  refine ite_keeps (K := Sound p) (fun _ => ?_) (fun _ => ?_)
  · exact failCmd_keeps h0'
  · refine ite_keeps (K := Sound p) (fun _ => ?_) (fun _ => ?_)
    · exact keepRunning_keeps h0'
    · exact writeStopRecords_keeps h0'

theorem settleStops_keeps {p} {x0} (h0' : Sound p x0) : Sound p (settleStops x0) := by
  unfold settleStops
  extract_lets -merge -useContext -underBinder +onlyGivenNames v1
  have h2 : Sound p v1 := resumeTick_keeps (stopTick_keeps h0')
  try clear_value v1
  refine ite_keeps (K := Sound p) (fun _ => ?_) (fun _ => ?_)
  · exact h2
  · refine each_keeps ?_ h2
    intro a3 a4 h5
    exact writeStopRecords_keeps h5

end Sys2Proof.Machine
end

