-- ==== Sys2Proof/Laws/SoundSystem.lean ====
section
/-! SUPPORT. Operations that keep the tables in order and the queue as it was (Laws/Sound.lean): image and log, dumps, counters, clocks, resets, life cycle, keep starts, and one tick. -/

namespace Sys2Proof.Machine
open Sys2Proof Sys2Proof.Crypto

theorem loadImage_keeps {p} {x0} {x1} (h0' : Sound p x1) : Sound p (loadImage x0 x1) := by
  unfold loadImage
  extract_lets -merge -useContext -underBinder +onlyGivenNames v2
  try clear_value v2
  extract_lets -merge -useContext -underBinder +onlyGivenNames v3
  try clear_value v3
  extract_lets -merge -useContext -underBinder +onlyGivenNames v4
  try clear_value v4
  extract_lets -merge -useContext -underBinder +onlyGivenNames v5
  try clear_value v5
  extract_lets -merge -useContext -underBinder +onlyGivenNames v6
  try clear_value v6
  exact Sound.of h0'.ctrs h0'.mem h0'.link h0'.keys h0'.parts h0'.objs h0'.ctxs h0'.queues h0'.fences h0'.accs h0'.arrivals h0'.users
      h0'.opTab h0'.doms h0'.migs h0'.rings h0'.profs h0'.pending

theorem closeSector_keeps {p} {x0} {x1} (h0' : Sound p x1) : Sound p (closeSector x0 x1) := by
  unfold closeSector
  refine ite_keeps (K := Sound p) (fun _ => ?_) (fun _ => ?_)
  · exact h0'
  · extract_lets -merge -useContext -underBinder +onlyGivenNames v2
    try clear_value v2
    extract_lets -merge -useContext -underBinder +onlyGivenNames v3
    try clear_value v3
    split
    · rename_i m4 m5 heq
      have h6 : Sound p m5 := by
        refine SoundR.get heq ?_
        exact signDual_keeps h0'
      extract_lets -merge -useContext -underBinder +onlyGivenNames v7
      try clear_value v7
      exact Sound.of h6.ctrs h6.mem h6.link h6.keys h6.parts h6.objs h6.ctxs h6.queues h6.fences h6.accs h6.arrivals h6.users h6.opTab
          h6.doms h6.migs h6.rings h6.profs h6.pending

theorem openSectorLog_keeps {p} {x0} (h0' : Sound p x0) : Sound p (openSectorLog x0) := by
  unfold openSectorLog
  extract_lets -merge -useContext -underBinder +onlyGivenNames v1
  try clear_value v1
  extract_lets -merge -useContext -underBinder +onlyGivenNames v2
  try clear_value v2
  extract_lets -merge -useContext -underBinder +onlyGivenNames v3
  try clear_value v3
  extract_lets -merge -useContext -underBinder +onlyGivenNames v4
  try clear_value v4
  exact Sound.of h0'.ctrs h0'.mem h0'.link h0'.keys h0'.parts h0'.objs h0'.ctxs h0'.queues h0'.fences h0'.accs h0'.arrivals h0'.users
      h0'.opTab h0'.doms h0'.migs h0'.rings h0'.profs h0'.pending

theorem closeNewest_keeps {p} {x0} (h0' : Sound p x0) : Sound p (closeNewest x0) := by
  unfold closeNewest
  split
  · refine ite_keeps (K := Sound p) (fun _ => ?_) (fun _ => ?_)
    · exact closeSector_keeps h0'
    · exact h0'
  · exact h0'

theorem logAdd_keeps {p} {x0} {x1} (h0' : Sound p x1) : Sound p (logAdd x0 x1) := by
  unfold logAdd
  extract_lets -merge -useContext -underBinder +onlyGivenNames v2
  try clear_value v2
  extract_lets -merge -useContext -underBinder +onlyGivenNames w3 v4
  have h5 : Sound p v4 := by
    exact Sound.of h0'.ctrs h0'.mem h0'.link h0'.keys h0'.parts h0'.objs h0'.ctxs h0'.queues h0'.fences h0'.accs h0'.arrivals h0'.users
        h0'.opTab h0'.doms h0'.migs h0'.rings h0'.profs h0'.pending
  try clear_value v4 w3
  refine ite_keeps (K := Sound p) (fun _ => ?_) (fun _ => ?_)
  · exact closeSector_keeps h5
  · exact h5

theorem logWrite_keeps {p} {x0} (h0' : Sound p x0) : Sound p (logWrite x0) := by
  unfold logWrite
  split
  · exact h0'
  · extract_lets -merge -useContext -underBinder +onlyGivenNames v4
    have h5 : ∀ x6, Sound p x6 → Sound p (v4 x6) := by
      intro a7 h8
      try unfold v4
      exact Sound.of h8.ctrs h8.mem h8.link h8.keys h8.parts h8.objs h8.ctxs h8.queues h8.fences h8.accs h8.arrivals h8.users h8.opTab
          h8.doms h8.migs h8.rings h8.profs h8.pending
    try clear_value v4
    split
    · refine logAdd_keeps ?_
      exact openSectorLog_keeps (h5 _ h0')
    · refine ite_keeps (K := Sound p) (fun _ => ?_) (fun _ => ?_)
      · refine logAdd_keeps ?_
        exact openSectorLog_keeps (h5 _ h0')
      · refine ite_keeps (K := Sound p) (fun _ => ?_) (fun _ => ?_)
        · exact logAdd_keeps (h5 _ h0')
        · exact closeSector_keeps h0'

theorem bodyImageUpdate_keeps {p} {x0} {x1} {x2} {x3} (h0' : Sound p x3) : Sound p (bodyImageUpdate x0 x1 x2 x3) := by
  unfold bodyImageUpdate
  extract_lets -merge -useContext -underBinder +onlyGivenNames v4
  try clear_value v4
  extract_lets -merge -useContext -underBinder +onlyGivenNames v5
  try clear_value v5
  refine ite_keeps (K := Sound p) (fun _ => ?_) (fun _ => ?_)
  · exact failCmd_keeps h0'
  · refine readIn_keeps ?_ h0'
    intro a6 h7
    extract_lets -merge -useContext -underBinder +onlyGivenNames v8
    try clear_value v8
    extract_lets -merge -useContext -underBinder +onlyGivenNames v9
    try clear_value v9
    extract_lets -merge -useContext -underBinder +onlyGivenNames v10
    try clear_value v10
    extract_lets -merge -useContext -underBinder +onlyGivenNames v11
    try clear_value v11
    refine ite_keeps (K := Sound p) (fun _ => ?_) (fun _ => ?_)
    · exact failCmd_keeps h7
    · refine ite_keeps (K := Sound p) (fun _ => ?_) (fun _ => ?_)
      · exact failCmd_keeps h7
      · extract_lets -merge -useContext -underBinder +onlyGivenNames w12 v13
        have h14 : Sound p v13 := by
          exact Sound.of h7.ctrs h7.mem h7.link h7.keys h7.parts h7.objs h7.ctxs h7.queues h7.fences h7.accs h7.arrivals h7.users h7.opTab
              h7.doms h7.migs h7.rings h7.profs h7.pending
        try clear_value v13 w12
        refine ite_keeps (K := Sound p) (fun _ => ?_) (fun _ => ?_)
        · exact failCmd_keeps h14
        · exact done_keeps (logEntry_keeps h14)

theorem bodyImageStatus_keeps {p} {x0} {x1} {x2} {x3} (h0' : Sound p x3) : Sound p (bodyImageStatus x0 x1 x2 x3) := by
  unfold bodyImageStatus
  extract_lets -merge -useContext -underBinder +onlyGivenNames v4
  try clear_value v4
  exact done_keeps h0'

theorem bodyLogRead_keeps {p} {x0} {x1} {x2} {x3} (h0' : Sound p x3) : Sound p (bodyLogRead x0 x1 x2 x3) := by
  unfold bodyLogRead
  extract_lets -merge -useContext -underBinder +onlyGivenNames v4
  try clear_value v4
  extract_lets -merge -useContext -underBinder +onlyGivenNames v5
  try clear_value v5
  extract_lets -merge -useContext -underBinder +onlyGivenNames v6
  try clear_value v6
  refine ite_keeps (K := Sound p) (fun _ => ?_) (fun _ => ?_)
  · exact failCmd_keeps h0'
  · refine putObj_keeps ?_ h0'
    intro a7 h8
    exact done_keeps h8

theorem sealSection_keeps {p} {x0} {x1} {x2} {x3} {x4} (h0' : Sound p x4) : SoundR p (sealSection x0 x1 x2 x3 x4) := by
  unfold sealSection
  extract_lets -merge -useContext -underBinder +onlyGivenNames v5
  try clear_value v5
  extract_lets -merge -useContext -underBinder +onlyGivenNames v6
  try clear_value v6
  extract_lets -merge -useContext -underBinder +onlyGivenNames v7
  try clear_value v7
  extract_lets -merge -useContext -underBinder +onlyGivenNames v8
  try clear_value v8
  extract_lets -merge -useContext -underBinder +onlyGivenNames v9
  try clear_value v9
  refine ite_keeps (K := SoundR p) (fun _ => ?_) (fun _ => ?_)
  · refine SoundR.mk ?_
    exact h0'
  · refine ite_keeps (K := SoundR p) (fun _ => ?_) (fun _ => ?_)
    · extract_lets -merge -useContext -underBinder +onlyGivenNames v10
      try clear_value v10
      split
      · refine SoundR.mk ?_
        exact h0'
    · extract_lets -merge -useContext -underBinder +onlyGivenNames v13
      try clear_value v13
      extract_lets -merge -useContext -underBinder +onlyGivenNames v14
      try clear_value v14
      extract_lets -merge -useContext -underBinder +onlyGivenNames v15
      try clear_value v15
      split
      · refine SoundR.mk ?_
        exact countInv_keeps h0'

theorem takeDump_keeps {p} {x0} (h0' : Sound p x0) : SoundD p (takeDump x0) := by
  unfold takeDump
  split
  · trivial
  · extract_lets -merge -useContext -underBinder +onlyGivenNames v3
    try clear_value v3
    extract_lets -merge -useContext -underBinder +onlyGivenNames v4
    try clear_value v4
    extract_lets -merge -useContext -underBinder +onlyGivenNames v5
    try clear_value v5
    refine ite_keeps (K := SoundD p) (fun _ => ?_) (fun _ => ?_)
    · trivial
    · extract_lets -merge -useContext -underBinder +onlyGivenNames v6
      try clear_value v6
      extract_lets -merge -useContext -underBinder +onlyGivenNames v7
      try clear_value v7
      extract_lets -merge -useContext -underBinder +onlyGivenNames v8
      try clear_value v8
      split
      · rename_i m9 m10 heq
        have h11 : Sound p m10 := by
          refine SoundR.get heq ?_
          exact draw0_keeps h0'
        split
        · extract_lets -merge -useContext -underBinder +onlyGivenNames v14
          try clear_value v14
          split
          · rename_i m15 m16 heq
            have h17 : Sound p m16 := by
              refine SoundR.get heq ?_
              refine List.foldlR_keeps ?_ ?_
              · intro a18 a20 h19
                refine sealSection_keeps ?_
                refine SoundR.snd ?_
                exact h19
              · refine SoundR.mk ?_
                exact h11
            extract_lets -merge -useContext -underBinder +onlyGivenNames v21
            try clear_value v21
            split
            · trivial
            · rename_i m23 heq
              have h24 : Sound p m23 := by
                refine SoundO.get heq ?_
                exact ringPut_keeps h17
              refine SoundD.mk ?_
              exact Sound.of h24.ctrs h24.mem h24.link h24.keys h24.parts h24.objs h24.ctxs h24.queues h24.fences h24.accs h24.arrivals
                  h24.users h24.opTab h24.doms h24.migs h24.rings h24.profs h24.pending

theorem endDump_keeps {p} {x0} (h0' : Sound p x0) : Sound p (endDump x0) := by
  unfold endDump
  split
  · rename_i m1 m2 m3 heq
    have h4 : Sound p m3 := by
      refine SoundD.get heq ?_
      exact takeDump_keeps h0'
    exact h4
  · refine ite_keeps (K := Sound p) (fun _ => ?_) (fun _ => ?_)
    · exact h0'
    · exact Sound.of h0'.ctrs h0'.mem h0'.link h0'.keys h0'.parts h0'.objs h0'.ctxs h0'.queues h0'.fences h0'.accs h0'.arrivals h0'.users
          h0'.opTab h0'.doms h0'.migs h0'.rings h0'.profs h0'.pending

theorem settleDump_keeps {p} {x0} (h0' : Sound p x0) : Sound p (settleDump x0) := by
  unfold settleDump
  refine ite_keeps (K := Sound p) (fun _ => ?_) (fun _ => ?_)
  · exact endDump_keeps h0'
  · exact h0'

theorem triggerRow_keeps {p} {x0} {x1} (h0' : Sound p x1) : Sound p (triggerRow x0 x1) := by
  unfold triggerRow
  refine ite_keeps (K := Sound p) (fun _ => ?_) (fun _ => ?_)
  · exact h0'
  · refine settleDump_keeps ?_
    refine ite_keeps (K := Sound p) (fun _ => ?_) (fun _ => ?_)
    · exact h0'
    · exact dumpTrigger_keeps h0'

theorem sourceTimeout_keeps {p} {x0} {x1} (h0' : Sound p x1) : Sound p (sourceTimeout x0 x1) := by
  unfold sourceTimeout
  refine ite_keeps (K := Sound p) (fun _ => ?_) (fun _ => ?_)
  · exact Sound.of h0'.ctrs h0'.mem h0'.link h0'.keys h0'.parts h0'.objs h0'.ctxs h0'.queues h0'.fences h0'.accs h0'.arrivals h0'.users
        h0'.opTab h0'.doms h0'.migs h0'.rings h0'.profs h0'.pending
  · exact h0'

theorem bodyDumpConfig_keeps {p} {x0} {x1} {x2} {x3} (h0' : Sound p x3) : Sound p (bodyDumpConfig x0 x1 x2 x3) := by
  unfold bodyDumpConfig
  extract_lets -merge -useContext -underBinder +onlyGivenNames v4
  try clear_value v4
  extract_lets -merge -useContext -underBinder +onlyGivenNames v5
  try clear_value v5
  extract_lets -merge -useContext -underBinder +onlyGivenNames v6
  try clear_value v6
  extract_lets -merge -useContext -underBinder +onlyGivenNames v7
  try clear_value v7
  extract_lets -merge -useContext -underBinder +onlyGivenNames v8
  try clear_value v8
  refine ite_keeps (K := Sound p) (fun _ => ?_) (fun _ => ?_)
  · exact failCmd_keeps h0'
  · refine ite_keeps (K := Sound p) (fun _ => ?_) (fun _ => ?_)
    · exact failCmd_keeps h0'
    · refine ite_keeps (K := Sound p) (fun _ => ?_) (fun _ => ?_)
      · exact failCmd_keeps h0'
      · refine readIn_keeps ?_ h0'
        intro a9 h10
        extract_lets -merge -useContext -underBinder +onlyGivenNames v11
        try clear_value v11
        extract_lets -merge -useContext -underBinder +onlyGivenNames v12
        have h13 : Sound p v12 := openRing_keeps h10
        try clear_value v12
        exact done_keeps (Sound.of h13.ctrs h13.mem h13.link h13.keys h13.parts h13.objs h13.ctxs h13.queues h13.fences h13.accs
            h13.arrivals h13.users h13.opTab h13.doms h13.migs h13.rings h13.profs h13.pending)

theorem bodyDumpStart_keeps {p} {x0} {x1} {x2} {x3} (h0' : Sound p x3) : Sound p (bodyDumpStart x0 x1 x2 x3) := by
  unfold bodyDumpStart
  refine ite_keeps (K := Sound p) (fun _ => ?_) (fun _ => ?_)
  · exact failCmd_keeps h0'
  · refine ite_keeps (K := Sound p) (fun _ => ?_) (fun _ => ?_)
    · exact failCmd_keeps (dumpTrigger_keeps h0')
    · refine ite_keeps (K := Sound p) (fun _ => ?_) (fun _ => ?_)
      · exact waitDraw_keeps h0'
      · extract_lets -merge -useContext -underBinder +onlyGivenNames v4
        try clear_value v4
        extract_lets -merge -useContext -underBinder +onlyGivenNames v5
        have h6 : Sound p v5 := by
          exact dumpTrigger_keeps (Sound.of h0'.ctrs h0'.mem h0'.link h0'.keys h0'.parts h0'.objs h0'.ctxs h0'.queues h0'.fences h0'.accs
              h0'.arrivals h0'.users h0'.opTab h0'.doms h0'.migs h0'.rings h0'.profs h0'.pending)
        try clear_value v5
        extract_lets -merge -useContext -underBinder +onlyGivenNames v7
        try clear_value v7
        split
        · rename_i m8 m9 m10 heq
          have h11 : Sound p m10 := by
            refine SoundD.get heq ?_
            exact takeDump_keeps (Sound.of h6.ctrs h6.mem h6.link h6.keys h6.parts h6.objs h6.ctxs h6.queues h6.fences h6.accs h6.arrivals
                h6.users h6.opTab h6.doms h6.migs h6.rings h6.profs h6.pending)
          exact done_keeps (Sound.of h11.ctrs h11.mem h11.link h11.keys h11.parts h11.objs h11.ctxs h11.queues h11.fences h11.accs
              h11.arrivals h11.users h11.opTab h11.doms h11.migs h11.rings h11.profs h11.pending)
        · exact failCmd_keeps (Sound.of h6.ctrs h6.mem h6.link h6.keys h6.parts h6.objs h6.ctxs h6.queues h6.fences h6.accs h6.arrivals
              h6.users h6.opTab h6.doms h6.migs h6.rings h6.profs h6.pending)

theorem clearUnit_keeps {p} {x0} {x1} {x2} (h0' : Sound p x2) : Sound p (clearUnit x0 x1 x2) := by
  unfold clearUnit
  extract_lets -merge -useContext -underBinder +onlyGivenNames v3
  try clear_value v3
  exact Sound.of (sorted_tupd h0'.ctrs) h0'.mem h0'.link h0'.keys h0'.parts h0'.objs h0'.ctxs h0'.queues h0'.fences h0'.accs h0'.arrivals
      h0'.users h0'.opTab h0'.doms h0'.migs h0'.rings h0'.profs h0'.pending

theorem bodyCounterClear_keeps {p} {x0} {x1} {x2} {x3} (h0' : Sound p x3) : Sound p (bodyCounterClear x0 x1 x2 x3) := by
  unfold bodyCounterClear
  extract_lets -merge -useContext -underBinder +onlyGivenNames v4
  try clear_value v4
  extract_lets -merge -useContext -underBinder +onlyGivenNames v5
  try clear_value v5
  refine ite_keeps (K := Sound p) (fun _ => ?_) (fun _ => ?_)
  · exact failCmd_keeps h0'
  · refine done_keeps ?_
    refine each_keeps ?_ h0'
    intro a6 a7 h8
    exact clearUnit_keeps h8

theorem boundaryRow_keeps {p} {x0} {x1} (h0' : Sound p x1) : Sound p (boundaryRow x0 x1) := by
  unfold boundaryRow
  refine ite_keeps (K := Sound p) (fun _ => ?_) (fun _ => ?_)
  · exact boundary_keeps h0'
  · exact h0'

theorem idleBoundary_keeps {p} {x0} {x1} (h0' : Sound p x1) : Sound p (idleBoundary x0 x1) := by
  unfold idleBoundary
  extract_lets -merge -useContext -underBinder +onlyGivenNames v2
  try clear_value v2
  split
  · refine ite_keeps (K := Sound p) (fun _ => ?_) (fun _ => ?_)
    · exact boundary_keeps h0'
    · exact h0'
  · exact h0'

theorem settleProf_keeps {p} {x0} (h0' : Sound p x0) : Sound p (settleProf x0) := by
  unfold settleProf
  refine each_keeps ?_ h0'
  intro a1 a2 h3
  refine ite_keeps (K := Sound p) (fun _ => ?_) (fun _ => ?_)
  · exact boundary_keeps h3
  · exact idleBoundary_keeps h3

theorem bodyProfileBind_keeps {p} {x0} {x1} {x2} {x3} (h0' : Sound p x3) : Sound p (bodyProfileBind x0 x1 x2 x3) := by
  unfold bodyProfileBind
  extract_lets -merge -useContext -underBinder +onlyGivenNames v4
  try clear_value v4
  extract_lets -merge -useContext -underBinder +onlyGivenNames v5
  try clear_value v5
  extract_lets -merge -useContext -underBinder +onlyGivenNames v6
  try clear_value v6
  extract_lets -merge -useContext -underBinder +onlyGivenNames v7
  try clear_value v7
  extract_lets -merge -useContext -underBinder +onlyGivenNames v8
  try clear_value v8
  extract_lets -merge -useContext -underBinder +onlyGivenNames v9
  try clear_value v9
  extract_lets -merge -useContext -underBinder +onlyGivenNames v10
  try clear_value v10
  refine ite_keeps (K := Sound p) (fun _ => ?_) (fun _ => ?_)
  · exact failCmd_keeps h0'
  · refine ite_keeps (K := Sound p) (fun _ => ?_) (fun _ => ?_)
    · refine ite_keeps (K := Sound p) (fun _ => ?_) (fun _ => ?_)
      · exact done_keeps (unbindProf_keeps h0')
      · exact failCmd_keeps h0'
    · refine ite_keeps (K := Sound p) (fun _ => ?_) (fun _ => ?_)
      · exact failCmd_keeps h0'
      · refine ite_keeps (K := Sound p) (fun _ => ?_) (fun _ => ?_)
        · exact failCmd_keeps h0'
        · refine ite_keeps (K := Sound p) (fun _ => ?_) (fun _ => ?_)
          · exact failCmd_keeps h0'
          · extract_lets -merge -useContext -underBinder +onlyGivenNames v11
            try clear_value v11
            refine done_keeps ?_
            refine openRing_keeps ?_
            exact Sound.of h0'.ctrs h0'.mem h0'.link h0'.keys h0'.parts h0'.objs h0'.ctxs h0'.queues h0'.fences h0'.accs h0'.arrivals
                h0'.users h0'.opTab h0'.doms h0'.migs h0'.rings (sorted_tset h0'.profs) h0'.pending

theorem bodyTraceConfig_keeps {p} {x0} {x1} {x2} {x3} (h0' : Sound p x3) : Sound p (bodyTraceConfig x0 x1 x2 x3) := by
  unfold bodyTraceConfig
  extract_lets -merge -useContext -underBinder +onlyGivenNames v4
  try clear_value v4
  extract_lets -merge -useContext -underBinder +onlyGivenNames v5
  try clear_value v5
  refine ite_keeps (K := Sound p) (fun _ => ?_) (fun _ => ?_)
  · exact failCmd_keeps h0'
  · exact done_keeps (Sound.of h0'.ctrs h0'.mem h0'.link h0'.keys h0'.parts h0'.objs h0'.ctxs h0'.queues h0'.fences h0'.accs h0'.arrivals
        h0'.users h0'.opTab h0'.doms h0'.migs h0'.rings h0'.profs h0'.pending)

theorem bodyTraceRing_keeps {p} {x0} {x1} {x2} {x3} (h0' : Sound p x3) : Sound p (bodyTraceRing x0 x1 x2 x3) := by
  unfold bodyTraceRing
  extract_lets -merge -useContext -underBinder +onlyGivenNames v4
  try clear_value v4
  extract_lets -merge -useContext -underBinder +onlyGivenNames v5
  try clear_value v5
  extract_lets -merge -useContext -underBinder +onlyGivenNames v6
  try clear_value v6
  extract_lets -merge -useContext -underBinder +onlyGivenNames v7
  try clear_value v7
  refine ite_keeps (K := Sound p) (fun _ => ?_) (fun _ => ?_)
  · exact failCmd_keeps h0'
  · refine ite_keeps (K := Sound p) (fun _ => ?_) (fun _ => ?_)
    · exact failCmd_keeps h0'
    · refine ite_keeps (K := Sound p) (fun _ => ?_) (fun _ => ?_)
      · exact failCmd_keeps h0'
      · refine done_keeps ?_
        exact openRing_keeps (State.onPart_keeps h0')

theorem traceBlock_keeps {p} {x0} {x1} {x2} {x3} {x4} (h0' : Sound p x4) : Sound p (traceBlock x0 x1 x2 x3 x4) := by
  unfold traceBlock
  extract_lets -merge -useContext -underBinder +onlyGivenNames v5
  try clear_value v5
  extract_lets -merge -useContext -underBinder +onlyGivenNames v6
  try clear_value v6
  extract_lets -merge -useContext -underBinder +onlyGivenNames v7
  try clear_value v7
  extract_lets -merge -useContext -underBinder +onlyGivenNames v8
  try clear_value v8
  extract_lets -merge -useContext -underBinder +onlyGivenNames v9
  have h10 : ∀ x11, Sound p x11 → Sound p (v9 x11) := by
    intro a12 h13
    try unfold v9
    exact bump_keeps h13
  try clear_value v9
  extract_lets -merge -useContext -underBinder +onlyGivenNames v14
  have h15 : ∀ x16 x17, Sound p x17 → Sound p (v14 x16 x17) := by
    intro a18 a19 h20
    try unfold v14
    refine h10 _ ?_
    exact Sound.of h20.ctrs h20.mem h20.link h20.keys h20.parts h20.objs h20.ctxs h20.queues h20.fences h20.accs h20.arrivals h20.users
        h20.opTab h20.doms h20.migs (sorted_tmap h20.rings) h20.profs h20.pending
  try clear_value v14
  refine ite_keeps (K := Sound p) (fun _ => ?_) (fun _ => ?_)
  · exact h0'
  · split
    · exact h10 _ h0'
    · refine ite_keeps (K := Sound p) (fun _ => ?_) (fun _ => ?_)
      · exact Option.getD_keeps (ringPut_keeps h0') (h15 _ _ h0')
      · refine ite_keeps (K := Sound p) (fun _ => ?_) (fun _ => ?_)
        · exact h15 _ _ h0'
        · extract_lets -merge -useContext -underBinder +onlyGivenNames v23
          try clear_value v23
          split
          · refine Option.getD_keeps ?_ (h15 _ _ h0')
            exact ringPut_keeps (countInv_keeps h0')

theorem traceDrain_keeps {p} {x0} {x1} (h0' : Sound p x1) : Sound p (traceDrain x0 x1) := by
  unfold traceDrain
  extract_lets -merge -useContext -underBinder +onlyGivenNames v2
  try clear_value v2
  extract_lets -merge -useContext -underBinder +onlyGivenNames v3
  try clear_value v3
  refine ite_keeps (K := Sound p) (fun _ => ?_) (fun _ => ?_)
  · exact h0'
  · extract_lets -merge -useContext -underBinder +onlyGivenNames v4
    try clear_value v4
    extract_lets -merge -useContext -underBinder +onlyGivenNames v5
    try clear_value v5
    extract_lets -merge -useContext -underBinder +onlyGivenNames v6
    try clear_value v6
    extract_lets -merge -useContext -underBinder +onlyGivenNames w7 v8
    have h9 : Sound p v8 := by
      exact Sound.of h0'.ctrs h0'.mem h0'.link h0'.keys h0'.parts h0'.objs h0'.ctxs h0'.queues h0'.fences h0'.accs h0'.arrivals h0'.users
          h0'.opTab h0'.doms h0'.migs h0'.rings h0'.profs h0'.pending
    try clear_value v8 w7
    refine each_keeps ?_ h9
    intro a10 a11 h12
    exact traceBlock_keeps h12

theorem ringAdvance_keeps {p} {x0} {x1} {x2} (h0' : Sound p x2) : Sound p (ringAdvance x0 x1 x2) := by
  unfold ringAdvance
  extract_lets -merge -useContext -underBinder +onlyGivenNames v3
  try clear_value v3
  split
  · exact h0'
  · refine ite_keeps (K := Sound p) (fun _ => ?_) (fun _ => ?_)
    · exact h0'
    · extract_lets -merge -useContext -underBinder +onlyGivenNames v6
      have h7 : Sound p v6 := by
        exact Sound.of h0'.ctrs h0'.mem h0'.link h0'.keys h0'.parts h0'.objs h0'.ctxs h0'.queues h0'.fences h0'.accs h0'.arrivals h0'.users
            h0'.opTab h0'.doms h0'.migs (sorted_tset h0'.rings) h0'.profs h0'.pending
      try clear_value v6
      extract_lets -merge -useContext -underBinder +onlyGivenNames v8
      have h9 : Sound p v8 := by
        refine each_keeps ?_ h7
        intro a10 a11 h12
        refine ite_keeps (K := Sound p) (fun _ => ?_) (fun _ => ?_)
        · refine each_keeps ?_ (State.onDom_keeps h12)
          intro a13 a14 h15
          exact outDom_keeps h15
        · exact h12
      try clear_value v8
      extract_lets -merge -useContext -underBinder +onlyGivenNames v16
      have h17 : Sound p v16 := by
        refine each_keeps ?_ h9
        intro a18 a19 h20
        refine ite_keeps (K := Sound p) (fun _ => ?_) (fun _ => ?_)
        · refine each_keeps ?_ ?_
          · intro a21 a22 h23
            exact outMig_keeps h23
          · exact Sound.of h20.ctrs h20.mem h20.link h20.keys h20.parts h20.objs h20.ctxs h20.queues h20.fences h20.accs h20.arrivals
                h20.users h20.opTab h20.doms (sorted_tupd h20.migs) h20.rings h20.profs h20.pending
        · exact h20
      try clear_value v16
      refine ite_keeps (K := Sound p) (fun _ => ?_) (fun _ => ?_)
      · exact drainBacklog_keeps h17
      · exact h17

theorem selectClock_keeps {p} {x0} (h0' : Sound p x0) : Sound p (selectClock x0) := by
  unfold selectClock
  extract_lets -merge -useContext -underBinder +onlyGivenNames v1
  try clear_value v1
  extract_lets -merge -useContext -underBinder +onlyGivenNames w2 v3
  try clear_value v3 w2
  extract_lets -merge -useContext -underBinder +onlyGivenNames v4
  have h5 : Sound p v4 := by
    refine ite_keeps (K := Sound p) (fun _ => ?_) (fun _ => ?_)
    · exact bump_keeps h0'
    · exact h0'
  try clear_value v4
  extract_lets -merge -useContext -underBinder +onlyGivenNames v6
  try clear_value v6
  exact Sound.of h5.ctrs h5.mem h5.link h5.keys h5.parts h5.objs h5.ctxs h5.queues h5.fences h5.accs h5.arrivals h5.users h5.opTab h5.doms
      h5.migs h5.rings h5.profs h5.pending

theorem switchClock_keeps {p} {x0} (h0' : Sound p x0) : Sound p (switchClock x0) := by
  unfold switchClock
  split
  · exact h0'
  · exact Sound.of h0'.ctrs h0'.mem h0'.link h0'.keys h0'.parts h0'.objs h0'.ctxs h0'.queues h0'.fences h0'.accs h0'.arrivals h0'.users
        h0'.opTab h0'.doms h0'.migs h0'.rings h0'.profs h0'.pending

theorem limitAssert_keeps {p} {x0} (h0' : Sound p x0) : Sound p (limitAssert x0) := by
  unfold limitAssert
  refine ite_keeps (K := Sound p) (fun _ => ?_) (fun _ => ?_)
  · exact h0'
  · extract_lets -merge -useContext -underBinder +onlyGivenNames v1
    try clear_value v1
    extract_lets -merge -useContext -underBinder +onlyGivenNames v2
    have h3 : Sound p v2 := by
      refine ite_keeps (K := Sound p) (fun _ => ?_) (fun _ => ?_)
      · exact h0'
      · exact bump_keeps h0'
    try clear_value v2
    exact selectClock_keeps (Sound.of h3.ctrs h3.mem h3.link h3.keys h3.parts h3.objs h3.ctxs h3.queues h3.fences h3.accs h3.arrivals
        h3.users h3.opTab h3.doms h3.migs h3.rings h3.profs h3.pending)

theorem limitRelease_keeps {p} {x0} (h0' : Sound p x0) : Sound p (limitRelease x0) := by
  unfold limitRelease
  refine ite_keeps (K := Sound p) (fun _ => ?_) (fun _ => ?_)
  · exact selectClock_keeps (Sound.of h0'.ctrs h0'.mem h0'.link h0'.keys h0'.parts h0'.objs h0'.ctxs h0'.queues h0'.fences h0'.accs
        h0'.arrivals h0'.users h0'.opTab h0'.doms h0'.migs h0'.rings h0'.profs h0'.pending)
  · exact h0'

theorem judge_keeps {p} {x0} {x1} (h0' : Sound p x1) : Sound p (judge x0 x1) := by
  unfold judge
  extract_lets -merge -useContext -underBinder +onlyGivenNames v2
  try clear_value v2
  extract_lets -merge -useContext -underBinder +onlyGivenNames v3
  try clear_value v3
  extract_lets -merge -useContext -underBinder +onlyGivenNames v4
  try clear_value v4
  extract_lets -merge -useContext -underBinder +onlyGivenNames v5
  try clear_value v5
  extract_lets -merge -useContext -underBinder +onlyGivenNames v6
  try clear_value v6
  extract_lets -merge -useContext -underBinder +onlyGivenNames v7
  have h8 : Sound p v7 := by
    exact Sound.of h0'.ctrs h0'.mem h0'.link h0'.keys h0'.parts h0'.objs h0'.ctxs h0'.queues h0'.fences h0'.accs h0'.arrivals h0'.users
        h0'.opTab h0'.doms h0'.migs h0'.rings h0'.profs h0'.pending
  try clear_value v7
  extract_lets -merge -useContext -underBinder +onlyGivenNames v9
  have h10 : Sound p v9 := by
    refine ite_keeps (K := Sound p) (fun _ => ?_) (fun _ => ?_)
    · exact faultEvent_keeps h8
    · exact h8
  try clear_value v9
  extract_lets -merge -useContext -underBinder +onlyGivenNames v11
  have h12 : Sound p v11 := by
    refine ite_keeps (K := Sound p) (fun _ => ?_) (fun _ => ?_)
    · exact faultEvent_keeps h10
    · exact h10
  try clear_value v11
  exact selectClock_keeps h12

theorem junctionReading_keeps {p} {x0} {x1} {x2} {x3} (h0' : Sound p x3) : Sound p (junctionReading x0 x1 x2 x3) := by
  unfold junctionReading
  refine ite_keeps (K := Sound p) (fun _ => ?_) (fun _ => ?_)
  · exact h0'
  · extract_lets -merge -useContext -underBinder +onlyGivenNames v4
    try clear_value v4
    exact judge_keeps (Sound.of h0'.ctrs h0'.mem h0'.link h0'.keys h0'.parts h0'.objs h0'.ctxs h0'.queues h0'.fences h0'.accs h0'.arrivals
        h0'.users h0'.opTab h0'.doms h0'.migs h0'.rings h0'.profs h0'.pending)

theorem sensorInvalid_keeps {p} {x0} {x1} {x2} (h0' : Sound p x2) : Sound p (sensorInvalid x0 x1 x2) := by
  unfold sensorInvalid
  refine ite_keeps (K := Sound p) (fun _ => ?_) (fun _ => ?_)
  · exact h0'
  · exact judge_keeps (Sound.of h0'.ctrs h0'.mem h0'.link h0'.keys h0'.parts h0'.objs h0'.ctxs h0'.queues h0'.fences h0'.accs h0'.arrivals
        h0'.users h0'.opTab h0'.doms h0'.migs h0'.rings h0'.profs h0'.pending)

theorem stepDownExit_keeps {p} {x0} (h0' : Sound p x0) : Sound p (stepDownExit x0) := by
  unfold stepDownExit
  split
  · refine ite_keeps (K := Sound p) (fun _ => ?_) (fun _ => ?_)
    · extract_lets -merge -useContext -underBinder +onlyGivenNames v2
      have h3 : Sound p v2 := by
        refine each_keeps ?_ h0'
        intro a4 a5 h6
        exact endCondition_keeps h6
      try clear_value v2
      exact selectClock_keeps (Sound.of h3.ctrs h3.mem h3.link h3.keys h3.parts h3.objs h3.ctxs h3.queues h3.fences h3.accs h3.arrivals
          h3.users h3.opTab h3.doms h3.migs h3.rings h3.profs h3.pending)
    · exact h0'
  · exact h0'

theorem budgetSpent_keeps {p} {x0} (h0' : Sound p x0) : Sound p (budgetSpent x0) := by
  unfold budgetSpent
  refine ite_keeps (K := Sound p) (fun _ => ?_) (fun _ => ?_)
  · exact selectClock_keeps (Sound.of h0'.ctrs h0'.mem h0'.link h0'.keys h0'.parts h0'.objs h0'.ctxs h0'.queues h0'.fences h0'.accs
        h0'.arrivals h0'.users h0'.opTab h0'.doms h0'.migs h0'.rings h0'.profs h0'.pending)
  · exact h0'

theorem binEnd_keeps {p} {x0} (h0' : Sound p x0) : Sound p (binEnd x0) := by
  unfold binEnd
  refine ite_keeps (K := Sound p) (fun _ => ?_) (fun _ => ?_)
  · exact h0'
  · extract_lets -merge -useContext -underBinder +onlyGivenNames w1 v2
    try clear_value v2 w1
    exact selectClock_keeps (Sound.of h0'.ctrs h0'.mem h0'.link h0'.keys h0'.parts h0'.objs h0'.ctxs h0'.queues h0'.fences h0'.accs
        h0'.arrivals h0'.users h0'.opTab h0'.doms h0'.migs h0'.rings h0'.profs h0'.pending)

theorem clockTick_keeps {p} {x0} (h0' : Sound p x0) : Sound p (clockTick x0) := by
  unfold clockTick
  extract_lets -merge -useContext -underBinder +onlyGivenNames v1
  have h2 : Sound p v1 := switchClock_keeps h0'
  try clear_value v1
  extract_lets -merge -useContext -underBinder +onlyGivenNames w3 v4
  have h5 : Sound p v4 := by
    refine ite_keeps (K := Sound p) (fun _ => ?_) (fun _ => ?_)
    · exact bump_keeps (Sound.of h2.ctrs h2.mem h2.link h2.keys h2.parts h2.objs h2.ctxs h2.queues h2.fences h2.accs h2.arrivals h2.users
          h2.opTab h2.doms h2.migs h2.rings h2.profs h2.pending)
    · exact h2
  try clear_value v4 w3
  extract_lets -merge -useContext -underBinder +onlyGivenNames v6
  have h7 : Sound p v6 := by
    refine ite_keeps (K := Sound p) (fun _ => ?_) (fun _ => ?_)
    · exact bump_keeps h5
    · exact h5
  try clear_value v6
  refine selectClock_keeps ?_
  exact budgetSpent_keeps (binEnd_keeps h7)

theorem restartClock_keeps {p} {x0} (h0' : Sound p x0) : Sound p (restartClock x0) := by
  unfold restartClock
  extract_lets -merge -useContext -underBinder +onlyGivenNames v1
  have h2 : Sound p v1 := by
    exact Sound.of h0'.ctrs h0'.mem h0'.link h0'.keys h0'.parts h0'.objs h0'.ctxs h0'.queues h0'.fences h0'.accs h0'.arrivals h0'.users
        h0'.opTab h0'.doms h0'.migs h0'.rings h0'.profs h0'.pending
  try clear_value v1
  refine each_keeps ?_ h2
  intro a3 a4 h5
  exact judge_keeps h5

theorem coldReset_keeps {p} {x0} {x1} (h0' : Sound p x1) : Sound p (coldReset x0 x1) := by
  unfold coldReset
  exact Sound.of rfl rfl rfl rfl rfl rfl rfl rfl rfl rfl rfl rfl rfl rfl rfl rfl rfl h0'.pending

theorem requestWarm_keeps {p} {x0} {x1} (h0' : Sound p x1) : Sound p (requestWarm x0 x1) := by
  unfold requestWarm
  refine ite_keeps (K := Sound p) (fun _ => ?_) (fun _ => ?_)
  · exact h0'
  · extract_lets -merge -useContext -underBinder +onlyGivenNames v2
    try clear_value v2
    extract_lets -merge -useContext -underBinder +onlyGivenNames v3
    try clear_value v3
    exact Sound.of h0'.ctrs h0'.mem h0'.link h0'.keys h0'.parts h0'.objs h0'.ctxs h0'.queues h0'.fences h0'.accs h0'.arrivals h0'.users
        h0'.opTab h0'.doms h0'.migs h0'.rings h0'.profs h0'.pending

theorem eraseMemCaches_keeps {p} {x0} (h0' : Sound p x0) : Sound p (eraseMemCaches x0) := by
  unfold eraseMemCaches
  exact Sound.of h0'.ctrs (sorted_tmap h0'.mem) h0'.link h0'.keys h0'.parts h0'.objs h0'.ctxs h0'.queues h0'.fences h0'.accs h0'.arrivals
      h0'.users h0'.opTab h0'.doms h0'.migs h0'.rings h0'.profs h0'.pending

theorem eraseStreams_keeps {p} {x0} (h0' : Sound p x0) : Sound p (eraseStreams x0) := by
  unfold eraseStreams
  exact Sound.of h0'.ctrs h0'.mem (sorted_tmap h0'.link) h0'.keys h0'.parts h0'.objs h0'.ctxs h0'.queues h0'.fences h0'.accs h0'.arrivals
      h0'.users h0'.opTab h0'.doms h0'.migs h0'.rings h0'.profs h0'.pending

theorem eraseKeep_keeps {p} {x0} (h0' : Sound p x0) : Sound p (eraseKeep x0) := by
  unfold eraseKeep
  extract_lets -merge -useContext -underBinder +onlyGivenNames v1
  try clear_value v1
  extract_lets -merge -useContext -underBinder +onlyGivenNames v2
  have h3 : Sound p v2 := onEveryPort_keeps h0'
  try clear_value v2
  exact Sound.of h3.ctrs h3.mem h3.link h3.keys rfl rfl rfl rfl rfl rfl rfl rfl rfl rfl rfl rfl rfl h3.pending

theorem wipe_keeps {p} {x0} {x1} (h0' : Sound p x1) : Sound p (wipe x0 x1) := by
  unfold wipe
  extract_lets -merge -useContext -underBinder +onlyGivenNames v2
  have h3 : Sound p v2 := by
    refine eraseKeep_keeps ?_
    refine eraseStreams_keeps ?_
    refine eraseVrt_keeps ?_
    refine eraseScratch_keeps ?_
    exact eraseVault_keeps (eraseKeys_keeps h0')
  try clear_value v2
  refine ite_keeps (K := Sound p) (fun _ => ?_) (fun _ => ?_)
  · exact eraseMemCaches_keeps h3
  · exact h3

theorem failAcc_keeps {p} {x0} {x1} (h0' : Sound p x1) : Sound p (failAcc x0 x1) := by
  unfold failAcc
  refine settleClosed_keeps ?_
  exact fenceFail_keeps (closeAcc_keeps h0')

theorem failOpens_keeps {p} {x0} {x1} (h0' : Sound p x1) : Sound p (failOpens x0 x1) := by
  unfold failOpens
  refine each_keeps ?_ h0'
  intro a2 a3 h4
  exact failCmd_keeps h4

theorem cutMem_keeps {p} {x0} {x1} (h0' : Sound p x1) : Sound p (cutMem x0 x1) := by
  unfold cutMem
  extract_lets -merge -useContext -underBinder +onlyGivenNames v2
  have h3 : Sound p v2 := by
    refine each_keeps ?_ h0'
    intro a4 a5 h6
    exact failReq_keeps h6
  try clear_value v2
  extract_lets -merge -useContext -underBinder +onlyGivenNames v7
  try clear_value v7
  extract_lets -merge -useContext -underBinder +onlyGivenNames v8
  have h9 : Sound p v8 := State.onMem_keeps h3
  try clear_value v8
  extract_lets -merge -useContext -underBinder +onlyGivenNames v10
  have h11 : Sound p v10 := by
    refine failOpens_keeps ?_
    refine each_keeps ?_ h9
    intro a12 a13 h14
    exact failAcc_keeps h14
  try clear_value v10
  exact Sound.of h11.ctrs h11.mem h11.link h11.keys h11.parts (sorted_tmap h11.objs) h11.ctxs h11.queues h11.fences h11.accs h11.arrivals
      h11.users h11.opTab h11.doms h11.migs h11.rings h11.profs h11.pending

theorem cutLink_keeps {p} {x0} {x1} (h0' : Sound p x1) : Sound p (cutLink x0 x1) := by
  unfold cutLink
  extract_lets -merge -useContext -underBinder +onlyGivenNames v2
  try clear_value v2
  extract_lets -merge -useContext -underBinder +onlyGivenNames v3
  have h4 : Sound p v3 := State.onLink_keeps h0'
  try clear_value v3
  refine each_keeps ?_ (failTrackers_keeps h4)
  intro a5 a6 h7
  exact refuseLink_keeps h7

theorem cutHost_keeps {p} {x0} (h0' : Sound p x0) : Sound p (cutHost x0) := by
  unfold cutHost
  extract_lets -merge -useContext -underBinder +onlyGivenNames v1
  try clear_value v1
  extract_lets -merge -useContext -underBinder +onlyGivenNames v2
  have h3 : Sound p v2 := by
    refine each_keeps ?_ h0'
    intro a4 a5 h6
    exact retireSlot_keeps h6
  try clear_value v2
  exact tdispFail_keeps (Sound.of h3.ctrs h3.mem h3.link h3.keys h3.parts h3.objs h3.ctxs h3.queues h3.fences h3.accs h3.arrivals h3.users
      h3.opTab h3.doms h3.migs h3.rings h3.profs h3.pending)

theorem cutStation_keeps {p} {x0} {x1} (h0' : Sound p x1) : Sound p (cutStation x0 x1) := by
  unfold cutStation
  refine ite_keeps (K := Sound p) (fun _ => ?_) (fun _ => ?_)
  · exact cutMem_keeps h0'
  · refine ite_keeps (K := Sound p) (fun _ => ?_) (fun _ => ?_)
    · exact cutLink_keeps h0'
    · exact cutHost_keeps h0'

theorem saveLines_keeps {p} {x0} {x1} {x2} (h0' : Sound p x2) : Sound p (saveLines x0 x1 x2) := by
  unfold saveLines
  refine each_keeps ?_ h0'
  intro a3 a4 h5
  refine ite_keeps (K := Sound p) (fun _ => ?_) (fun _ => ?_)
  · exact rootExhausted_keeps h5
  · refine ite_keeps (K := Sound p) (fun _ => ?_) (fun _ => ?_)
    · exact raiseRoot_keeps h5
    · exact writeBack_keeps h5

theorem saveCtxs_keeps {p} {x0} {x1} {x2} (h0' : Sound p x2) : Sound p (saveCtxs x0 x1 x2) := by
  unfold saveCtxs
  refine each_keeps ?_ h0'
  intro a3 a4 h5
  extract_lets -merge -useContext -underBinder +onlyGivenNames v6
  try clear_value v6
  refine ite_keeps (K := Sound p) (fun _ => ?_) (fun _ => ?_)
  · exact h5
  · refine ite_keeps (K := Sound p) (fun _ => ?_) (fun _ => ?_)
    · exact State.onDom_keeps (State.onLink_keeps h5)
    · exact putRecord_keeps h5

theorem renewNonce_keeps {p} {x0} (h0' : Sound p x0) : Sound p (renewNonce x0) := by
  unfold renewNonce
  refine ite_keeps (K := Sound p) (fun _ => ?_) (fun _ => ?_)
  · split
    · rename_i m1 m2 heq
      have h3 : Sound p m2 := by
        refine SoundR.get heq ?_
        exact drawBytes_keeps h0'
      exact Sound.of h3.ctrs h3.mem h3.link h3.keys h3.parts h3.objs h3.ctxs h3.queues h3.fences h3.accs h3.arrivals h3.users h3.opTab
          h3.doms h3.migs h3.rings h3.profs h3.pending
  · exact Sound.of h0'.ctrs h0'.mem h0'.link h0'.keys h0'.parts h0'.objs h0'.ctxs h0'.queues h0'.fences h0'.accs h0'.arrivals h0'.users
        h0'.opTab h0'.doms h0'.migs h0'.rings h0'.profs h0'.pending

theorem lcCheck_keeps {p} {x0} {x1} {x2} (h0' : Sound p x2) : SoundR2 p (lcCheck x0 x1 x2) := by
  unfold lcCheck
  split
  · refine SoundR2.mk ?_
    refine SoundR.mk ?_
    exact h0'
  · refine ite_keeps (K := SoundR2 p) (fun _ => ?_) (fun _ => ?_)
    · refine SoundR2.mk ?_
      refine SoundR.mk ?_
      exact h0'
    · refine ite_keeps (K := SoundR2 p) (fun _ => ?_) (fun _ => ?_)
      · refine SoundR2.mk ?_
        refine SoundR.mk ?_
        exact h0'
      · extract_lets -merge -useContext -underBinder +onlyGivenNames v5
        try clear_value v5
        extract_lets -merge -useContext -underBinder +onlyGivenNames v6
        have h7 : Sound p v6 := renewNonce_keeps h0'
        try clear_value v6
        refine ite_keeps (K := SoundR2 p) (fun _ => ?_) (fun _ => ?_)
        · refine SoundR2.mk ?_
          refine SoundR.mk ?_
          exact h7
        · refine ite_keeps (K := SoundR2 p) (fun _ => ?_) (fun _ => ?_)
          · refine SoundR2.mk ?_
            refine SoundR.mk ?_
            exact h7
          · split
            · refine SoundR2.mk ?_
              refine SoundR.mk ?_
              exact h7
            · refine SoundR2.mk ?_
              refine SoundR.mk ?_
              exact h7

theorem burnEntry_keeps {p} {x0} {x1} {x2} (h0' : Sound p x2) : Sound p (burnEntry x0 x1 x2) := by
  unfold burnEntry
  exact Sound.of h0'.ctrs h0'.mem h0'.link h0'.keys h0'.parts h0'.objs h0'.ctxs h0'.queues h0'.fences h0'.accs h0'.arrivals h0'.users
      h0'.opTab h0'.doms h0'.migs h0'.rings h0'.profs h0'.pending

theorem lcStep1_keeps {p} {x0} {x1} {x2} (h0' : Sound p x2) : Sound p (lcStep1 x0 x1 x2) := by
  unfold lcStep1
  extract_lets -merge -useContext -underBinder +onlyGivenNames v3
  try clear_value v3
  extract_lets -merge -useContext -underBinder +onlyGivenNames v4
  have h5 : Sound p v4 := burnEntry_keeps h0'
  try clear_value v4
  extract_lets -merge -useContext -underBinder +onlyGivenNames v6
  have h7 : Sound p v6 := by
    unfold v6
    split
    · exact Sound.of h5.ctrs h5.mem h5.link h5.keys h5.parts h5.objs h5.ctxs h5.queues h5.fences h5.accs h5.arrivals h5.users h5.opTab
          h5.doms h5.migs h5.rings h5.profs h5.pending
    · exact h5
  try clear_value v6
  exact logEntry_keeps (burnEntry_keeps h7)

theorem lcHold_keeps {p} {x0} {x1} (h0' : Sound p x1) : Sound p (lcHold x0 x1) := by
  unfold lcHold
  extract_lets -merge -useContext -underBinder +onlyGivenNames w2 v3
  have h4 : Sound p v3 := by
    exact holdAll_keeps (Sound.of h0'.ctrs h0'.mem h0'.link h0'.keys h0'.parts h0'.objs h0'.ctxs h0'.queues h0'.fences h0'.accs
        h0'.arrivals h0'.users h0'.opTab h0'.doms h0'.migs h0'.rings h0'.profs h0'.pending)
  try clear_value v3 w2
  exact Sound.of h4.ctrs h4.mem h4.link h4.keys h4.parts h4.objs h4.ctxs h4.queues h4.fences h4.accs h4.arrivals h4.users h4.opTab h4.doms
      h4.migs h4.rings h4.profs h4.pending

theorem lcSequence_keeps {p} {x0} {x1} (h0' : Sound p x1) : Sound p (lcSequence x0 x1) := by
  unfold lcSequence
  refine ite_keeps (K := Sound p) (fun _ => ?_) (fun _ => ?_)
  · exact h0'
  · split
    · exact h0'
    · extract_lets -merge -useContext -underBinder +onlyGivenNames v5
      try clear_value v5
      extract_lets -merge -useContext -underBinder +onlyGivenNames v6
      have h7 : Sound p v6 := burnEntry_keeps (wipe_keeps h0')
      try clear_value v6
      extract_lets -merge -useContext -underBinder +onlyGivenNames v8
      have h9 : Sound p v8 := by
        exact burnEntry_keeps (Sound.of h7.ctrs h7.mem h7.link h7.keys h7.parts h7.objs h7.ctxs h7.queues h7.fences h7.accs h7.arrivals
            h7.users h7.opTab h7.doms h7.migs h7.rings h7.profs h7.pending)
      try clear_value v8
      extract_lets -merge -useContext -underBinder +onlyGivenNames v10
      have h11 : Sound p v10 := burnEntry_keeps h9
      try clear_value v10
      extract_lets -merge -useContext -underBinder +onlyGivenNames v12
      try clear_value v12
      refine ite_keeps (K := Sound p) (fun _ => ?_) (fun _ => ?_)
      · exact coldReset_keeps (burnEntry_keeps h11)
      · exact Sound.of h11.ctrs h11.mem h11.link h11.keys h11.parts h11.objs h11.ctxs h11.queues h11.fences h11.accs h11.arrivals h11.users
            h11.opTab h11.doms h11.migs h11.rings h11.profs h11.pending

theorem tapRequest_keeps {p} {x0} {x1} (h0' : Sound p x1) : Sound p (tapRequest x0 x1) := by
  unfold tapRequest
  extract_lets -merge -useContext -underBinder +onlyGivenNames v2
  try clear_value v2
  refine ite_keeps (K := Sound p) (fun _ => ?_) (fun _ => ?_)
  · exact h0'
  · extract_lets -merge -useContext -underBinder +onlyGivenNames v3
    try clear_value v3
    extract_lets -merge -useContext -underBinder +onlyGivenNames v4
    try clear_value v4
    split
    · rename_i m5 m6 m7 heq
      have h8 : Sound p m7 := by
        refine SoundR2.get heq ?_
        refine ite_keeps (K := SoundR2 p) (fun _ => ?_) (fun _ => ?_)
        · refine SoundR2.mk ?_
          refine SoundR.mk ?_
          exact h0'
        · exact lcCheck_keeps (scratchOut_keeps h0')
      extract_lets -merge -useContext -underBinder +onlyGivenNames v9
      have h10 : Sound p v9 := emit_keeps h8
      try clear_value v9
      split
      · exact lcHold_keeps (lcStep1_keeps h10)
      · exact h10

theorem tapToken_keeps {p} {x0} {x1} {x2} (h0' : Sound p x2) : Sound p (tapToken x0 x1 x2) := by
  unfold tapToken
  extract_lets -merge -useContext -underBinder +onlyGivenNames v3
  try clear_value v3
  extract_lets -merge -useContext -underBinder +onlyGivenNames v4
  try clear_value v4
  refine ite_keeps (K := Sound p) (fun _ => ?_) (fun _ => ?_)
  · exact h0'
  · extract_lets -merge -useContext -underBinder +onlyGivenNames v5
    try clear_value v5
    refine ite_keeps (K := Sound p) (fun _ => ?_) (fun _ => ?_)
    · exact wipe_keeps (Sound.of h0'.ctrs h0'.mem h0'.link h0'.keys h0'.parts h0'.objs h0'.ctxs h0'.queues h0'.fences h0'.accs h0'.arrivals
          h0'.users h0'.opTab h0'.doms h0'.migs h0'.rings h0'.profs h0'.pending)
    · exact Sound.of h0'.ctrs h0'.mem h0'.link h0'.keys h0'.parts h0'.objs h0'.ctxs h0'.queues h0'.fences h0'.accs h0'.arrivals h0'.users
          h0'.opTab h0'.doms h0'.migs h0'.rings h0'.profs h0'.pending

theorem testSession_keeps {p} {x0} {x1} (h0' : Sound p x1) : Sound p (testSession x0 x1) := by
  unfold testSession
  refine ite_keeps (K := Sound p) (fun _ => ?_) (fun _ => ?_)
  · exact h0'
  · extract_lets -merge -useContext -underBinder +onlyGivenNames w2 v3
    have h4 : Sound p v3 := by
      exact wipe_keeps (Sound.of h0'.ctrs h0'.mem h0'.link h0'.keys h0'.parts h0'.objs h0'.ctxs h0'.queues h0'.fences h0'.accs h0'.arrivals
          h0'.users h0'.opTab h0'.doms h0'.migs h0'.rings h0'.profs h0'.pending)
    try clear_value v3 w2
    extract_lets -merge -useContext -underBinder +onlyGivenNames v5
    have h6 : Sound p v5 := onEveryPort_keeps h4
    try clear_value v5
    exact Sound.of h6.ctrs h6.mem h6.link h6.keys h6.parts h6.objs h6.ctxs h6.queues h6.fences h6.accs h6.arrivals h6.users h6.opTab
        h6.doms h6.migs h6.rings h6.profs h6.pending

theorem repairBurn_keeps {p} {x0} {x1} {x2} (h0' : Sound p x2) : Sound p (repairBurn x0 x1 x2) := by
  unfold repairBurn
  extract_lets -merge -useContext -underBinder +onlyGivenNames v3
  try clear_value v3
  refine ite_keeps (K := Sound p) (fun _ => ?_) (fun _ => ?_)
  · exact h0'
  · exact Sound.of h0'.ctrs h0'.mem h0'.link h0'.keys h0'.parts h0'.objs h0'.ctxs h0'.queues h0'.fences h0'.accs h0'.arrivals h0'.users
        h0'.opTab h0'.doms h0'.migs h0'.rings h0'.profs h0'.pending

theorem bodyLcNonce_keeps {p} {x0} {x1} {x2} {x3} (h0' : Sound p x3) : Sound p (bodyLcNonce x0 x1 x2 x3) := by
  unfold bodyLcNonce
  split
  · exact done_keeps h0'
  · refine ite_keeps (K := Sound p) (fun _ => ?_) (fun _ => ?_)
    · exact waitDraw_keeps h0'
    · extract_lets -merge -useContext -underBinder +onlyGivenNames v6
      have h7 : Sound p v6 := renewNonce_keeps h0'
      try clear_value v6
      exact done_keeps h7

theorem withRequest_keeps {p} {x0} {x1} {x2} {x3} {x6} (h0' : (∀ x4 x5, Sound p x5 → Sound p (x3 x4 x5))) (h1' : Sound p x6) : Sound p
    (withRequest x0 x1 x2 x3 x6) := by
  unfold withRequest
  extract_lets -merge -useContext -underBinder +onlyGivenNames v7
  try clear_value v7
  refine readIn_keeps ?_ h1'
  intro a8 h9
  exact h0' _ _ (scratchOut_keeps h9)

theorem bodyLcTransition_keeps {p} {x0} {x1} {x2} {x3} (h0' : Sound p x3) : Sound p (bodyLcTransition x0 x1 x2 x3) := by
  unfold bodyLcTransition
  refine withRequest_keeps ?_ h0'
  intro a4 a5 h6
  split
  · rename_i m7 m8 m9 heq
    have h10 : Sound p m9 := by
      refine SoundR2.get heq ?_
      exact lcCheck_keeps h6
    split
    · refine lcHold_keeps ?_
      exact done_keeps (lcStep1_keeps h10)
    · exact failCmd_keeps h10

theorem bodyLcStatus_keeps {p} {x0} {x1} {x2} {x3} (h0' : Sound p x3) : Sound p (bodyLcStatus x0 x1 x2 x3) := by
  unfold bodyLcStatus
  exact done_keeps h0'

theorem debugReopen_keeps {p} {x0} (h0' : Sound p x0) : Sound p (debugReopen x0) := by
  unfold debugReopen
  extract_lets -merge -useContext -underBinder +onlyGivenNames v1
  have h2 : Sound p v1 := logEntry_keeps h0'
  try clear_value v1
  extract_lets -merge -useContext -underBinder +onlyGivenNames w3 v4
  have h5 : Sound p v4 := by
    refine wipe_keeps ?_
    exact holdAll_keeps (Sound.of h2.ctrs h2.mem h2.link h2.keys h2.parts h2.objs h2.ctxs h2.queues h2.fences h2.accs h2.arrivals h2.users
        h2.opTab h2.doms h2.migs h2.rings h2.profs h2.pending)
  try clear_value v4 w3
  exact Sound.of h5.ctrs h5.mem h5.link h5.keys h5.parts h5.objs h5.ctxs h5.queues h5.fences h5.accs h5.arrivals h5.users h5.opTab h5.doms
      h5.migs h5.rings h5.profs h5.pending

theorem bodyDebugOpen_keeps {p} {x0} {x1} {x2} {x3} (h0' : Sound p x3) : Sound p (bodyDebugOpen x0 x1 x2 x3) := by
  unfold bodyDebugOpen
  refine withRequest_keeps ?_ h0'
  intro a4 a5 h6
  split
  · rename_i m7 m8 m9 heq
    have h10 : Sound p m9 := by
      refine SoundR2.get heq ?_
      exact lcCheck_keeps h6
    split
    · exact debugReopen_keeps (done_keeps h10)
    · exact failCmd_keeps h10

theorem coldInput_keeps {p} {x0} (h0' : Sound p x0) : Sound p (coldInput x0) := by
  unfold coldInput
  extract_lets -merge -useContext -underBinder +onlyGivenNames v1
  have h2 : Sound p v1 := coldReset_keeps h0'
  try clear_value v1
  exact Sound.of h2.ctrs h2.mem h2.link h2.keys h2.parts h2.objs h2.ctxs h2.queues h2.fences h2.accs h2.arrivals h2.users h2.opTab h2.doms
      h2.migs h2.rings h2.profs h2.pending

theorem warmInput_keeps {p} {x0} {x1} (h0' : Sound p x1) : Sound p (warmInput x0 x1) := by
  unfold warmInput
  refine ite_keeps (K := Sound p) (fun _ => ?_) (fun _ => ?_)
  · exact requestWarm_keeps h0'
  · exact h0'

theorem writeVault_keeps {p} {x0} (h0' : Sound p x0) : Sound p (writeVault x0) := by
  unfold writeVault
  refine ite_keeps (K := Sound p) (fun _ => ?_) (fun _ => ?_)
  · exact eraseVault_keeps h0'
  · extract_lets -merge -useContext -underBinder +onlyGivenNames v1
    try clear_value v1
    extract_lets -merge -useContext -underBinder +onlyGivenNames v2
    try clear_value v2
    split
    · rename_i m3 m4 heq
      have h5 : Sound p m4 := by
        refine SoundR.get heq ?_
        exact draw0_keeps h0'
      extract_lets -merge -useContext -underBinder +onlyGivenNames v6
      try clear_value v6
      split
      · exact Sound.of h5.ctrs h5.mem h5.link h5.keys h5.parts h5.objs h5.ctxs h5.queues h5.fences h5.accs h5.arrivals h5.users h5.opTab
            h5.doms h5.migs h5.rings h5.profs h5.pending

theorem vaultExpiry_keeps {p} {x0} (h0' : Sound p x0) : Sound p (vaultExpiry x0) := by
  unfold vaultExpiry
  split
  · refine ite_keeps (K := Sound p) (fun _ => ?_) (fun _ => ?_)
    · exact eraseVault_keeps h0'
    · exact h0'
  · exact h0'

theorem warmStep1_keeps {p} {x0} (h0' : Sound p x0) : Sound p (warmStep1 x0) := by
  unfold warmStep1
  extract_lets -merge -useContext -underBinder +onlyGivenNames w1 w2 v3
  have h4 : Sound p v3 := by
    exact Sound.of h0'.ctrs h0'.mem h0'.link h0'.keys h0'.parts h0'.objs h0'.ctxs h0'.queues h0'.fences h0'.accs h0'.arrivals h0'.users
        h0'.opTab h0'.doms h0'.migs h0'.rings h0'.profs h0'.pending
  try clear_value v3 w2 w1
  refine ite_keeps (K := Sound p) (fun _ => ?_) (fun _ => ?_)
  · exact h4
  · exact dumpTrigger_keeps h4

theorem warmStep2_keeps {p} {x0} {x1} {x2} (h0' : Sound p x2) : Sound p (warmStep2 x0 x1 x2) := by
  unfold warmStep2
  extract_lets -merge -useContext -underBinder +onlyGivenNames v3
  have h4 : Sound p v3 := by
    refine each_keeps ?_ h0'
    intro a5 a6 h7
    exact saveLines_keeps h7
  try clear_value v3
  refine each_keeps ?_ h4
  intro a8 a9 h10
  exact saveCtxs_keeps h10

theorem warmStep3_keeps {p} {x0} (h0' : Sound p x0) : Sound p (warmStep3 x0) := by
  unfold warmStep3
  refine ite_keeps (K := Sound p) (fun _ => ?_) (fun _ => ?_)
  · exact h0'
  · extract_lets -merge -useContext -underBinder +onlyGivenNames v1
    have h2 : Sound p v1 := endInterval_keeps h0'
    try clear_value v1
    refine ite_keeps (K := Sound p) (fun _ => ?_) (fun _ => ?_)
    · exact checkpoint_keeps h2
    · exact h2

theorem warmStep4_keeps {p} {x0} (h0' : Sound p x0) : Sound p (warmStep4 x0) := by
  unfold warmStep4
  extract_lets -merge -useContext -underBinder +onlyGivenNames v1
  have h2 : Sound p v1 := writeVault_keeps h0'
  try clear_value v1
  refine each_keeps ?_ h2
  intro a3 a4 h5
  exact done_keeps h5

theorem dropHalves_keeps {p} {x0} (h0' : Sound p x0) : Sound p (dropHalves x0) := by
  unfold dropHalves
  exact Sound.of h0'.ctrs h0'.mem h0'.link (sorted_tmap h0'.keys) h0'.parts h0'.objs h0'.ctxs h0'.queues h0'.fences h0'.accs h0'.arrivals
      h0'.users h0'.opTab h0'.doms h0'.migs h0'.rings h0'.profs h0'.pending

theorem warmStep5_keeps {p} {x0} (h0' : Sound p x0) : Sound p (warmStep5 x0) := by
  unfold warmStep5
  extract_lets -merge -useContext -underBinder +onlyGivenNames v1
  have h2 : Sound p v1 := by
    refine each_keeps ?_ h0'
    intro a3 a4 h5
    exact cutStation_keeps h5
  try clear_value v1
  extract_lets -merge -useContext -underBinder +onlyGivenNames v6
  have h7 : Sound p v6 := holdAll_keeps (dropHalves_keeps h2)
  try clear_value v6
  exact Sound.of h7.ctrs h7.mem h7.link h7.keys h7.parts h7.objs h7.ctxs h7.queues h7.fences h7.accs h7.arrivals h7.users h7.opTab h7.doms
      h7.migs h7.rings h7.profs h7.pending

theorem warmSequence_keeps {p} {x0} {x1} {x2} (h0' : Sound p x2) : Sound p (warmSequence x0 x1 x2) := by
  unfold warmSequence
  refine ite_keeps (K := Sound p) (fun _ => ?_) (fun _ => ?_)
  · exact h0'
  · refine warmStep5_keeps ?_
    refine warmStep4_keeps ?_
    refine warmStep3_keeps ?_
    exact warmStep2_keeps (warmStep1_keeps h0')

theorem hang_keeps {p} {x0} (h0' : Sound p x0) : Sound p (hang x0) := by
  unfold hang
  refine requestWarm_keeps ?_
  extract_lets -merge -useContext -underBinder +onlyGivenNames v1
  have h2 : Sound p v1 := faultEvent_keeps h0'
  try clear_value v1
  refine ite_keeps (K := Sound p) (fun _ => ?_) (fun _ => ?_)
  · exact h2
  · exact dumpTrigger_keeps h2

theorem periodExpiry_keeps {p} {x0} (h0' : Sound p x0) : Sound p (periodExpiry x0) := by
  unfold periodExpiry
  extract_lets -merge -useContext -underBinder +onlyGivenNames v1
  try clear_value v1
  refine ite_keeps (K := Sound p) (fun _ => ?_) (fun _ => ?_)
  · exact h0'
  · extract_lets -merge -useContext -underBinder +onlyGivenNames v2
    have h3 : Sound p v2 := by
      exact Sound.of h0'.ctrs h0'.mem h0'.link h0'.keys h0'.parts h0'.objs h0'.ctxs h0'.queues h0'.fences h0'.accs h0'.arrivals h0'.users
          h0'.opTab h0'.doms h0'.migs h0'.rings h0'.profs h0'.pending
    try clear_value v2
    refine ite_keeps (K := Sound p) (fun _ => ?_) (fun _ => ?_)
    · exact hang_keeps h3
    · exact h3

theorem startTimeout_keeps {p} {x0} (h0' : Sound p x0) : Sound p (startTimeout x0) := by
  unfold startTimeout
  refine ite_keeps (K := Sound p) (fun _ => ?_) (fun _ => ?_)
  · exact hang_keeps h0'
  · exact h0'

theorem clearUnitFaults_keeps {p} {x0} {x1} (h0' : Sound p x1) : Sound p (clearUnitFaults x0 x1) := by
  unfold clearUnitFaults
  exact Sound.of h0'.ctrs h0'.mem h0'.link h0'.keys h0'.parts h0'.objs h0'.ctxs h0'.queues h0'.fences h0'.accs h0'.arrivals h0'.users
      h0'.opTab h0'.doms h0'.migs h0'.rings h0'.profs h0'.pending

theorem freshStation_keeps {p} {x0} {x1} (h0' : Sound p x1) : Sound p (freshStation x0 x1) := by
  unfold freshStation
  extract_lets -merge -useContext -underBinder +onlyGivenNames v2
  try clear_value v2
  extract_lets -merge -useContext -underBinder +onlyGivenNames w3 v4
  have h5 : Sound p v4 := by
    refine ite_keeps (K := Sound p) (fun _ => ?_) (fun _ => ?_)
    · exact State.onMem_keeps h0'
    · refine ite_keeps (K := Sound p) (fun _ => ?_) (fun _ => ?_)
      · exact State.onLink_keeps h0'
      · exact Sound.of h0'.ctrs h0'.mem h0'.link h0'.keys h0'.parts h0'.objs h0'.ctxs h0'.queues h0'.fences h0'.accs h0'.arrivals h0'.users
            h0'.opTab h0'.doms h0'.migs h0'.rings h0'.profs h0'.pending
  try clear_value v4 w3
  exact State.onPort_keeps h5

theorem resetStation_keeps {p} {x0} {x1} {x2} (h0' : Sound p x2) : Sound p (resetStation x0 x1 x2) := by
  unfold resetStation
  extract_lets -merge -useContext -underBinder +onlyGivenNames v3
  have h4 : Sound p v3 := dumpTrigger_keeps h0'
  try clear_value v3
  extract_lets -merge -useContext -underBinder +onlyGivenNames v5
  have h6 : Sound p v5 := by
    refine ite_keeps (K := Sound p) (fun _ => ?_) (fun _ => ?_)
    · exact saveLines_keeps h4
    · refine ite_keeps (K := Sound p) (fun _ => ?_) (fun _ => ?_)
      · exact saveCtxs_keeps h4
      · exact h4
  try clear_value v5
  extract_lets -merge -useContext -underBinder +onlyGivenNames v7
  have h8 : Sound p v7 := freshStation_keeps (cutStation_keeps h6)
  try clear_value v7
  extract_lets -merge -useContext -underBinder +onlyGivenNames v9
  have h10 : Sound p v9 := restartCounters_keeps (clearUnitFaults_keeps h8)
  try clear_value v9
  exact Sound.of h10.ctrs h10.mem h10.link h10.keys h10.parts h10.objs h10.ctxs h10.queues h10.fences h10.accs h10.arrivals h10.users
      h10.opTab h10.doms h10.migs h10.rings (sorted_tmap h10.profs) h10.pending

theorem bodyResetStation_keeps {p} {x0} {x1} {x2} {x3} (h0' : Sound p x3) : Sound p (bodyResetStation x0 x1 x2 x3) := by
  unfold bodyResetStation
  extract_lets -merge -useContext -underBinder +onlyGivenNames v4
  try clear_value v4
  refine ite_keeps (K := Sound p) (fun _ => ?_) (fun _ => ?_)
  · exact failCmd_keeps h0'
  · exact keepRunning_keeps (resetStation_keeps h0')

theorem settleStationResets_keeps {p} {x0} (h0' : Sound p x0) : Sound p (settleStationResets x0) := by
  unfold settleStationResets
  refine each_keeps ?_ h0'
  intro a1 a2 h3
  exact done_keeps (State.onPort_keeps h3)

theorem bodyResetWarm_keeps {p} {x0} {x1} {x2} {x3} (h0' : Sound p x3) : Sound p (bodyResetWarm x0 x1 x2 x3) := by
  unfold bodyResetWarm
  exact requestWarm_keeps (keepRunning_keeps h0')

theorem bodyResetNonce_keeps {p} {x0} {x1} {x2} {x3} (h0' : Sound p x3) : Sound p (bodyResetNonce x0 x1 x2 x3) := by
  unfold bodyResetNonce
  refine ite_keeps (K := Sound p) (fun _ => ?_) (fun _ => ?_)
  · exact waitDraw_keeps h0'
  · split
    · rename_i m4 m5 heq
      have h6 : Sound p m5 := by
        refine SoundR.get heq ?_
        exact drawBytes_keeps h0'
      exact done_keeps (Sound.of h6.ctrs h6.mem h6.link h6.keys h6.parts h6.objs h6.ctxs h6.queues h6.fences h6.accs h6.arrivals h6.users
          h6.opTab h6.doms h6.migs h6.rings h6.profs h6.pending)

theorem flushLog_keeps {p} {x0} (h0' : Sound p x0) : Sound p (flushLog x0) := by
  unfold flushLog
  refine each_keeps ?_ h0'
  intro a1 a2 h3
  exact logWrite_keeps h3

theorem bodyResetColdSigned_keeps {p} {x0} {x1} {x2} {x3} (h0' : Sound p x3) : Sound p (bodyResetColdSigned x0 x1 x2 x3) := by
  unfold bodyResetColdSigned
  refine withRequest_keeps ?_ h0'
  intro a4 a5 h6
  split
  · exact failCmd_keeps h6
  · refine ite_keeps (K := Sound p) (fun _ => ?_) (fun _ => ?_)
    · exact failCmd_keeps h6
    · extract_lets -merge -useContext -underBinder +onlyGivenNames v9
      try clear_value v9
      extract_lets -merge -useContext -underBinder +onlyGivenNames w10 v11
      have h12 : Sound p v11 := by
        exact Sound.of h6.ctrs h6.mem h6.link h6.keys h6.parts h6.objs h6.ctxs h6.queues h6.fences h6.accs h6.arrivals h6.users h6.opTab
            h6.doms h6.migs h6.rings h6.profs h6.pending
      try clear_value v11 w10
      extract_lets -merge -useContext -underBinder +onlyGivenNames v13
      try clear_value v13
      refine ite_keeps (K := Sound p) (fun _ => ?_) (fun _ => ?_)
      · exact failCmd_keeps h12
      · extract_lets -merge -useContext -underBinder +onlyGivenNames v14
        have h15 : Sound p v14 := flushLog_keeps (logEntry_keeps h12)
        try clear_value v14
        exact done_keeps (Sound.of h15.ctrs h15.mem h15.link h15.keys h15.parts h15.objs h15.ctxs h15.queues h15.fences h15.accs
            h15.arrivals h15.users h15.opTab h15.doms h15.migs h15.rings h15.profs h15.pending)

theorem settleCold_keeps {p} {x0} (h0' : Sound p x0) : Sound p (settleCold x0) := by
  unfold settleCold
  split
  · refine ite_keeps (K := Sound p) (fun _ => ?_) (fun _ => ?_)
    · exact coldReset_keeps h0'
    · exact h0'
  · exact h0'

theorem flashSlot_keeps {p} {x0} {x1} {x2} (h0' : Sound p x2) : Sound p (flashSlot x0 x1 x2) := by
  unfold flashSlot
  refine ite_keeps (K := Sound p) (fun _ => ?_) (fun _ => ?_)
  · exact h0'
  · exact Sound.of h0'.ctrs h0'.mem h0'.link h0'.keys h0'.parts h0'.objs h0'.ctxs h0'.queues h0'.fences h0'.accs h0'.arrivals h0'.users
        h0'.opTab h0'.doms h0'.migs h0'.rings h0'.profs h0'.pending

theorem takeEnv_keeps {p} {x0} {x1} (h0' : Sound p x1) : Sound p (takeEnv x0 x1) := by
  unfold takeEnv
  extract_lets -merge -useContext -underBinder +onlyGivenNames v2
  try clear_value v2
  extract_lets -merge -useContext -underBinder +onlyGivenNames v3
  try clear_value v3
  extract_lets -merge -useContext -underBinder +onlyGivenNames v4
  try clear_value v4
  extract_lets -merge -useContext -underBinder +onlyGivenNames v5
  try clear_value v5
  extract_lets -merge -useContext -underBinder +onlyGivenNames v6
  try clear_value v6
  extract_lets -merge -useContext -underBinder +onlyGivenNames w7 v8
  have h9 : Sound p v8 := by
    exact Sound.of h0'.ctrs h0'.mem h0'.link h0'.keys h0'.parts h0'.objs h0'.ctxs h0'.queues h0'.fences h0'.accs h0'.arrivals h0'.users
        h0'.opTab h0'.doms h0'.migs h0'.rings h0'.profs h0'.pending
  try clear_value v8 w7
  exact flashSlot_keeps (flashSlot_keeps h9)

theorem selfTests_keeps {p} {x0} {x1} {x2} (h0' : Sound p x2) : Sound p (selfTests x0 x1 x2) := by
  unfold selfTests
  extract_lets -merge -useContext -underBinder +onlyGivenNames v3
  have h4 : Sound p v3 := by
    refine each_keeps ?_ h0'
    intro a5 a6 h7
    extract_lets -merge -useContext -underBinder +onlyGivenNames v8
    try clear_value v8
    extract_lets -merge -useContext -underBinder +onlyGivenNames v9
    have h10 : Sound p v9 := State.onPort_keeps h7
    try clear_value v9
    refine ite_keeps (K := Sound p) (fun _ => ?_) (fun _ => ?_)
    · exact faultEvent_keeps h10
    · exact h10
  try clear_value v3
  refine each_keeps ?_ h4
  intro a11 a12 h13
  exact faultEvent_keeps h13

theorem startRandom_keeps {p} {x0} {x1} {x2} (h0' : Sound p x2) : Sound p (startRandom x0 x1 x2) := by
  unfold startRandom
  extract_lets -merge -useContext -underBinder +onlyGivenNames v3
  try clear_value v3
  extract_lets -merge -useContext -underBinder +onlyGivenNames v4
  try clear_value v4
  split
  · rename_i m5 m6 heq
    have h7 : Sound p m6 := by
      refine SoundR.get heq ?_
      exact takeCond_keeps h0'
    extract_lets -merge -useContext -underBinder +onlyGivenNames v8
    try clear_value v8
    extract_lets -merge -useContext -underBinder +onlyGivenNames w9 v10
    have h11 : Sound p v10 := by
      exact Sound.of h7.ctrs h7.mem h7.link h7.keys h7.parts h7.objs h7.ctxs h7.queues h7.fences h7.accs h7.arrivals h7.users h7.opTab
          h7.doms h7.migs h7.rings h7.profs h7.pending
    try clear_value v10 w9
    extract_lets -merge -useContext -underBinder +onlyGivenNames v12
    have h13 : Sound p v12 := by
      refine each_keeps ?_ h11
      intro a14 a15 h16
      exact faultAs_keeps h16
    try clear_value v12
    refine each_keeps ?_ h13
    intro a17 a18 h19
    exact faultEvent_keeps h19

theorem takeSeed_keeps {p} {x0} {x1} {x2} (h0' : Sound p x2) : SoundO p (takeSeed x0 x1 x2) := by
  unfold takeSeed
  refine ite_keeps (K := SoundO p) (fun _ => ?_) (fun _ => ?_)
  · trivial
  · refine ite_keeps (K := SoundO p) (fun _ => ?_) (fun _ => ?_)
    · refine ite_keeps (K := SoundO p) (fun _ => ?_) (fun _ => ?_)
      · trivial
      · split
        · rename_i m3 m4 heq
          have h5 : Sound p m4 := by
            refine SoundR.get heq ?_
            exact draw0_keeps h0'
          refine SoundO.mk ?_
          exact Sound.of h5.ctrs h5.mem h5.link h5.keys h5.parts h5.objs h5.ctxs h5.queues h5.fences h5.accs h5.arrivals h5.users h5.opTab
              h5.doms h5.migs h5.rings h5.profs h5.pending
    · refine Option.map1_keeps ?_
      intro a6
      exact Sound.of h0'.ctrs h0'.mem h0'.link h0'.keys h0'.parts h0'.objs h0'.ctxs h0'.queues h0'.fences h0'.accs h0'.arrivals h0'.users
          h0'.opTab h0'.doms h0'.migs h0'.rings h0'.profs h0'.pending

theorem dead_keeps {p} {x0} (h0' : Sound p x0) : Sound p (dead x0) := by
  unfold dead
  exact Sound.of h0'.ctrs h0'.mem h0'.link h0'.keys h0'.parts h0'.objs h0'.ctxs h0'.queues h0'.fences h0'.accs h0'.arrivals h0'.users
      h0'.opTab h0'.doms h0'.migs h0'.rings h0'.profs h0'.pending

theorem startEndorse_keeps {p} {x0} (h0' : Sound p x0) : Sound p (startEndorse x0) := by
  unfold startEndorse
  refine ite_keeps (K := Sound p) (fun _ => ?_) (fun _ => ?_)
  · exact Sound.of h0'.ctrs h0'.mem h0'.link h0'.keys h0'.parts h0'.objs h0'.ctxs h0'.queues h0'.fences h0'.accs h0'.arrivals h0'.users
        h0'.opTab h0'.doms h0'.migs h0'.rings h0'.profs h0'.pending
  · split
    · rename_i m1 m2 heq
      have h3 : Sound p m2 := by
        refine SoundR.get heq ?_
        exact drawBytes_keeps h0'
      extract_lets -merge -useContext -underBinder +onlyGivenNames w4 v5
      have h6 : Sound p v5 := by
        exact Sound.of h3.ctrs h3.mem h3.link h3.keys h3.parts h3.objs h3.ctxs h3.queues h3.fences h3.accs h3.arrivals h3.users h3.opTab
            h3.doms h3.migs h3.rings h3.profs h3.pending
      try clear_value v5 w4
      split
      · rename_i m7 m8 heq
        have h9 : Sound p m8 := by
          refine SoundR.get heq ?_
          exact signDual_keeps h6
        exact Sound.of h9.ctrs h9.mem h9.link h9.keys h9.parts h9.objs h9.ctxs h9.queues h9.fences h9.accs h9.arrivals h9.users h9.opTab
            h9.doms h9.migs h9.rings h9.profs h9.pending

theorem startIdentity_keeps {p} {x0} (h0' : Sound p x0) : Sound p (startIdentity x0) := by
  unfold startIdentity
  extract_lets -merge -useContext -underBinder +onlyGivenNames v1
  try clear_value v1
  extract_lets -merge -useContext -underBinder +onlyGivenNames w2 v3
  have h4 : Sound p v3 := by
    exact Sound.of h0'.ctrs h0'.mem h0'.link h0'.keys h0'.parts h0'.objs h0'.ctxs h0'.queues h0'.fences h0'.accs h0'.arrivals h0'.users
        h0'.opTab h0'.doms h0'.migs h0'.rings h0'.profs h0'.pending
  try clear_value v3 w2
  refine startEndorse_keeps ?_
  refine ite_keeps (K := Sound p) (fun _ => ?_) (fun _ => ?_)
  · exact h4
  · exact faultEvent_keeps h4

theorem startEngineKey_keeps {p} {x0} (h0' : Sound p x0) : Sound p (startEngineKey x0) := by
  unfold startEngineKey
  refine ite_keeps (K := Sound p) (fun _ => ?_) (fun _ => ?_)
  · exact h0'
  · split
    · exact h0'
    · split
      · rename_i m3 m4 heq
        have h5 : Sound p m4 := by
          refine SoundR.get heq ?_
          exact draw0_keeps h0'
        refine ite_keeps (K := Sound p) (fun _ => ?_) (fun _ => ?_)
        · exact keyFails_keeps h5
        · exact firstKey_keeps h5

theorem startVerKey_keeps {p} {x0} (h0' : Sound p x0) : Sound p (startVerKey x0) := by
  unfold startVerKey
  refine ite_keeps (K := Sound p) (fun _ => ?_) (fun _ => ?_)
  · exact h0'
  · split
    · exact h0'
    · split
      · rename_i m3 m4 heq
        have h5 : Sound p m4 := by
          refine SoundR.get heq ?_
          exact draw0_keeps h0'
        refine ite_keeps (K := Sound p) (fun _ => ?_) (fun _ => ?_)
        · exact keyFails_keeps h5
        · extract_lets -merge -useContext -underBinder +onlyGivenNames v6
          have h7 : Sound p v6 := firstKey_keeps h5
          try clear_value v6
          exact Sound.of h7.ctrs h7.mem h7.link h7.keys h7.parts h7.objs h7.ctxs h7.queues h7.fences h7.accs h7.arrivals h7.users h7.opTab
              h7.doms h7.migs h7.rings h7.profs h7.pending

theorem keepReady_keeps {p} {x0} (h0' : Sound p x0) : Sound p (keepReady x0) := by
  unfold keepReady
  extract_lets -merge -useContext -underBinder +onlyGivenNames v1
  try clear_value v1
  extract_lets -merge -useContext -underBinder +onlyGivenNames v2
  have h3 : Sound p v2 := by
    exact Sound.of h0'.ctrs h0'.mem h0'.link h0'.keys h0'.parts h0'.objs h0'.ctxs h0'.queues h0'.fences h0'.accs h0'.arrivals h0'.users
        h0'.opTab h0'.doms h0'.migs h0'.rings h0'.profs h0'.pending
  try clear_value v2
  extract_lets -merge -useContext -underBinder +onlyGivenNames v4
  have h5 : Sound p v4 := renewNonce_keeps h3
  try clear_value v4
  exact Sound.of h5.ctrs h5.mem h5.link h5.keys h5.parts h5.objs h5.ctxs h5.queues h5.fences h5.accs h5.arrivals h5.users h5.opTab h5.doms
      h5.migs h5.rings h5.profs h5.pending

theorem logStart_keeps {p} {x0} (h0' : Sound p x0) : Sound p (logStart x0) := by
  unfold logStart
  extract_lets -merge -useContext -underBinder +onlyGivenNames v1
  have h2 : Sound p v1 := logEntry_keeps h0'
  try clear_value v1
  refine ite_keeps (K := Sound p) (fun _ => ?_) (fun _ => ?_)
  · exact logEntry_keeps h2
  · exact h2

theorem openStations_keeps {p} {x0} (h0' : Sound p x0) : Sound p (openStations x0) := by
  unfold openStations
  extract_lets -merge -useContext -underBinder +onlyGivenNames w1 v2
  have h3 : Sound p v2 := by
    refine ite_keeps (K := Sound p) (fun _ => ?_) (fun _ => ?_)
    · exact h0'
    · exact Sound.of h0'.ctrs h0'.mem h0'.link h0'.keys h0'.parts h0'.objs h0'.ctxs h0'.queues h0'.fences h0'.accs h0'.arrivals h0'.users
          h0'.opTab h0'.doms h0'.migs h0'.rings h0'.profs h0'.pending
  try clear_value v2 w1
  refine each_keeps ?_ h3
  intro a4 a5 h6
  exact State.onPort_keeps h6

theorem hangAtStart_keeps {p} {x0} (h0' : Sound p x0) : Sound p (hangAtStart x0) := by
  unfold hangAtStart
  extract_lets -merge -useContext -underBinder +onlyGivenNames w1 v2
  have h3 : Sound p v2 := by
    exact hang_keeps (Sound.of h0'.ctrs h0'.mem h0'.link h0'.keys h0'.parts h0'.objs h0'.ctxs h0'.queues h0'.fences h0'.accs h0'.arrivals
        h0'.users h0'.opTab h0'.doms h0'.migs h0'.rings h0'.profs h0'.pending)
  try clear_value v2 w1
  refine ite_keeps (K := Sound p) (fun _ => ?_) (fun _ => ?_)
  · exact Sound.of h3.ctrs h3.mem h3.link h3.keys h3.parts h3.objs h3.ctxs h3.queues h3.fences h3.accs h3.arrivals h3.users h3.opTab
        h3.doms h3.migs h3.rings h3.profs h3.pending
  · exact h3

theorem trialFailed_keeps {p} {x0} (h0' : Sound p x0) : Sound p (trialFailed x0) := by
  unfold trialFailed
  extract_lets -merge -useContext -underBinder +onlyGivenNames v1
  have h2 : Sound p v1 := flushLog_keeps (logEntry_keeps h0')
  try clear_value v1
  exact coldReset_keeps (Sound.of h2.ctrs h2.mem h2.link h2.keys h2.parts h2.objs h2.ctxs h2.queues h2.fences h2.accs h2.arrivals h2.users
      h2.opTab h2.doms h2.migs h2.rings h2.profs h2.pending)

theorem startHandoffs_keeps {p} {x0} (h0' : Sound p x0) : Sound p (startHandoffs x0) := by
  unfold startHandoffs
  refine ite_keeps (K := Sound p) (fun _ => ?_) (fun _ => ?_)
  · exact h0'
  · split
    · rename_i m1 m2 heq
      have h3 : Sound p m2 := by
        refine SoundR.get heq ?_
        exact drawBytes_keeps h0'
      exact Sound.of h3.ctrs h3.mem h3.link h3.keys h3.parts h3.objs h3.ctxs h3.queues h3.fences h3.accs h3.arrivals h3.users h3.opTab
          h3.doms h3.migs h3.rings h3.profs h3.pending

theorem coldRun_keeps {p} {x0} {x1} {x2} (h0' : Sound p x2) : Sound p (coldRun x0 x1 x2) := by
  unfold coldRun
  extract_lets -merge -useContext -underBinder +onlyGivenNames v3
  have h4 : Sound p v3 := loadImage_keeps h0'
  try clear_value v3
  extract_lets -merge -useContext -underBinder +onlyGivenNames w5 v6
  have h7 : Sound p v6 := by
    exact Sound.of h4.ctrs h4.mem h4.link h4.keys h4.parts h4.objs h4.ctxs h4.queues h4.fences h4.accs h4.arrivals h4.users h4.opTab
        h4.doms h4.migs h4.rings h4.profs h4.pending
  try clear_value v6 w5
  refine ite_keeps (K := Sound p) (fun _ => ?_) (fun _ => ?_)
  · refine ite_keeps (K := Sound p) (fun _ => ?_) (fun _ => ?_)
    · exact trialFailed_keeps h7
    · exact hangAtStart_keeps h7
  · extract_lets -merge -useContext -underBinder +onlyGivenNames v8
    have h9 : Sound p v8 := closeNewest_keeps (startIdentity_keeps h7)
    try clear_value v8
    extract_lets -merge -useContext -underBinder +onlyGivenNames v10
    have h11 : Sound p v10 := by
      refine startChain_keeps ?_
      refine startVerKey_keeps ?_
      exact startEngineKey_keeps (startHandoffs_keeps h9)
    try clear_value v10
    extract_lets -merge -useContext -underBinder +onlyGivenNames v12
    have h13 : Sound p v12 := restartClock_keeps (keepReady_keeps h11)
    try clear_value v12
    extract_lets -merge -useContext -underBinder +onlyGivenNames w14 v15
    have h16 : Sound p v15 := by
      exact Sound.of h13.ctrs h13.mem h13.link h13.keys h13.parts h13.objs h13.ctxs h13.queues h13.fences h13.accs h13.arrivals h13.users
          h13.opTab h13.doms h13.migs h13.rings h13.profs h13.pending
    try clear_value v15 w14
    exact openStations_keeps (logStart_keeps h16)

theorem coldUp_keeps {p} {x0} {x1} {x2} {x3} {x4} {x5} {x6} {x7} (h0' : Sound p x7) : Sound p (coldUp x0 x1 x2 x3 x4 x5 x6 x7) := by
  unfold coldUp
  extract_lets -merge -useContext -underBinder +onlyGivenNames w8 v9
  have h10 : Sound p v9 := by
    refine startRandom_keeps ?_
    exact selfTests_keeps (Sound.of h0'.ctrs h0'.mem h0'.link h0'.keys h0'.parts h0'.objs h0'.ctxs h0'.queues h0'.fences h0'.accs
        h0'.arrivals h0'.users h0'.opTab h0'.doms h0'.migs h0'.rings h0'.profs h0'.pending)
  try clear_value v9 w8
  split
  · exact dead_keeps (faultEvent_keeps h10)
  · rename_i m12 heq
    have h13 : Sound p m12 := by
      refine SoundO.get heq ?_
      exact takeSeed_keeps h10
    split
    · exact dead_keeps h13
    · exact coldRun_keeps h13

theorem coldStart_keeps {p} {x0} {x1} {x2} {x3} {x4} {x5} {x6} {x7} {x8} {x9} (h0' : Sound p x9) : Sound p (coldStart x0 x1 x2 x3 x4 x5 x6
    x7 x8 x9) := by
  unfold coldStart
  refine ite_keeps (K := Sound p) (fun _ => ?_) (fun _ => ?_)
  · exact h0'
  · extract_lets -merge -useContext -underBinder +onlyGivenNames w10 v11
    have h12 : Sound p v11 := by
      exact takeEnv_keeps (Sound.of h0'.ctrs h0'.mem h0'.link h0'.keys h0'.parts h0'.objs h0'.ctxs h0'.queues h0'.fences h0'.accs
          h0'.arrivals h0'.users h0'.opTab h0'.doms h0'.migs h0'.rings h0'.profs h0'.pending)
    try clear_value v11 w10
    refine ite_keeps (K := Sound p) (fun _ => ?_) (fun _ => ?_)
    · exact dead_keeps (Sound.of h12.ctrs h12.mem h12.link h12.keys h12.parts h12.objs h12.ctxs h12.queues h12.fences h12.accs h12.arrivals
          h12.users h12.opTab h12.doms h12.migs h12.rings h12.profs h12.pending)
    · refine ite_keeps (K := Sound p) (fun _ => ?_) (fun _ => ?_)
      · exact Sound.of h12.ctrs h12.mem h12.link h12.keys h12.parts h12.objs h12.ctxs h12.queues h12.fences h12.accs h12.arrivals h12.users
            h12.opTab h12.doms h12.migs h12.rings h12.profs h12.pending
      · exact coldUp_keeps h12

theorem restoreVault_keeps {p} {x0} (h0' : Sound p x0) : Sound p (restoreVault x0) := by
  unfold restoreVault
  extract_lets -merge -useContext -underBinder +onlyGivenNames v1
  try clear_value v1
  extract_lets -merge -useContext -underBinder +onlyGivenNames v2
  try clear_value v2
  extract_lets -merge -useContext -underBinder +onlyGivenNames v3
  have h4 : Sound p v3 := by
    refine ite_keeps (K := Sound p) (fun _ => ?_) (fun _ => ?_)
    · exact faultEvent_keeps h0'
    · exact h0'
  try clear_value v3
  extract_lets -merge -useContext -underBinder +onlyGivenNames v5
  try clear_value v5
  refine eraseVault_keeps ?_
  exact Sound.of h4.ctrs h4.mem h4.link (sorted_tmap h4.keys) h4.parts h4.objs h4.ctxs h4.queues h4.fences h4.accs h4.arrivals h4.users
      h4.opTab h4.doms h4.migs h4.rings h4.profs h4.pending

theorem failTaken_keeps {p} {x0} (h0' : Sound p x0) : Sound p (failTaken x0) := by
  unfold failTaken
  refine each_keeps ?_ h0'
  intro a1 a2 h3
  exact failCmd_keeps h3

theorem endWork_keeps {p} {x0} (h0' : Sound p x0) : Sound p (endWork x0) := by
  unfold endWork
  extract_lets -merge -useContext -underBinder +onlyGivenNames v1
  have h2 : Sound p v1 := by
    refine each_keeps ?_ h0'
    intro a3 a4 h5
    exact reclaim_keeps h5
  try clear_value v1
  extract_lets -merge -useContext -underBinder +onlyGivenNames v6
  have h7 : Sound p v6 := by
    refine each_keeps ?_ h2
    intro a8 a9 h10
    exact failAcc_keeps h10
  try clear_value v6
  extract_lets -merge -useContext -underBinder +onlyGivenNames v11
  have h12 : Sound p v11 := by
    exact Sound.of h7.ctrs h7.mem h7.link h7.keys (sorted_tmap h7.parts) h7.objs h7.ctxs h7.queues h7.fences h7.accs h7.arrivals h7.users
        h7.opTab h7.doms h7.migs h7.rings h7.profs h7.pending
  try clear_value v11
  exact Sound.of h12.ctrs h12.mem (sorted_tmap h12.link) h12.keys h12.parts h12.objs h12.ctxs h12.queues h12.fences h12.accs h12.arrivals
      rfl rfl (sorted_tmap h12.doms) h12.migs h12.rings rfl h12.pending

theorem endEpoch_keeps {p} {x0} (h0' : Sound p x0) : Sound p (endEpoch x0) := by
  unfold endEpoch
  extract_lets -merge -useContext -underBinder +onlyGivenNames v1
  have h2 : Sound p v1 := onEveryPort_keeps h0'
  try clear_value v1
  exact Sound.of h2.ctrs h2.mem h2.link h2.keys h2.parts h2.objs h2.ctxs h2.queues h2.fences h2.accs h2.arrivals h2.users h2.opTab h2.doms
      h2.migs h2.rings h2.profs h2.pending

theorem endLost_keeps {p} {x0} {x1} (h0' : Sound p x1) : Sound p (endLost x0 x1) := by
  unfold endLost
  extract_lets -merge -useContext -underBinder +onlyGivenNames v2
  try clear_value v2
  extract_lets -merge -useContext -underBinder +onlyGivenNames v3
  have h4 : Sound p v3 := by
    refine each_keeps ?_ (Sound.of h0'.ctrs h0'.mem h0'.link h0'.keys h0'.parts h0'.objs h0'.ctxs h0'.queues h0'.fences h0'.accs
        h0'.arrivals h0'.users h0'.opTab h0'.doms rfl h0'.rings h0'.profs h0'.pending)
    intro a5 a6 h7
    exact removeAtStart_keeps h7
  try clear_value v3
  extract_lets -merge -useContext -underBinder +onlyGivenNames v8
  have h9 : Sound p v8 := by
    refine each_keeps ?_ h4
    intro a10 a11 h12
    exact freeObject_keeps h12
  try clear_value v8
  exact Sound.of h9.ctrs (sorted_tmap h9.mem) h9.link h9.keys h9.parts h9.objs h9.ctxs h9.queues h9.fences h9.accs h9.arrivals h9.users
      h9.opTab h9.doms h9.migs h9.rings h9.profs h9.pending

theorem clearFaults_keeps {p} {x0} (h0' : Sound p x0) : Sound p (clearFaults x0) := by
  unfold clearFaults
  extract_lets -merge -useContext -underBinder +onlyGivenNames w1 v2
  have h3 : Sound p v2 := by
    exact Sound.of h0'.ctrs h0'.mem h0'.link h0'.keys h0'.parts h0'.objs h0'.ctxs h0'.queues h0'.fences h0'.accs h0'.arrivals h0'.users
        h0'.opTab h0'.doms h0'.migs h0'.rings h0'.profs h0'.pending
  try clear_value v2 w1
  refine each_keeps ?_ h3
  intro a4 a5 h6
  exact restartCounters_keeps h6

theorem cutInterval_keeps {p} {x0} (h0' : Sound p x0) : Sound p (cutInterval x0) := by
  unfold cutInterval
  extract_lets -merge -useContext -underBinder +onlyGivenNames v1
  have h2 : Sound p v1 := by
    unfold v1
    split
    · exact endInterval_keeps h0'
    · exact h0'
  try clear_value v1
  exact Sound.of h2.ctrs h2.mem h2.link h2.keys h2.parts h2.objs h2.ctxs h2.queues h2.fences h2.accs h2.arrivals h2.users h2.opTab h2.doms
      h2.migs h2.rings h2.profs h2.pending

theorem dropAdmin_keeps {p} {x0} (h0' : Sound p x0) : Sound p (dropAdmin x0) := by
  unfold dropAdmin
  exact Sound.of h0'.ctrs h0'.mem h0'.link h0'.keys h0'.parts h0'.objs (sorted_tdel h0'.ctxs) (sorted_tmap (sorted_tdel h0'.queues))
      h0'.fences h0'.accs h0'.arrivals h0'.users h0'.opTab h0'.doms h0'.migs h0'.rings h0'.profs h0'.pending

theorem logOut_keeps {p} {x0} (h0' : Sound p x0) : Sound p (logOut x0) := by
  unfold logOut
  refine ite_keeps (K := Sound p) (fun _ => ?_) (fun _ => ?_)
  · exact logEntry_keeps h0'
  · exact h0'

theorem warmRun_keeps {p} {x0} {x1} (h0' : Sound p x1) : Sound p (warmRun x0 x1) := by
  unfold warmRun
  refine ite_keeps (K := Sound p) (fun _ => ?_) (fun _ => ?_)
  · exact dead_keeps h0'
  · refine ite_keeps (K := Sound p) (fun _ => ?_) (fun _ => ?_)
    · exact hangAtStart_keeps h0'
    · extract_lets -merge -useContext -underBinder +onlyGivenNames v2
      try clear_value v2
      extract_lets -merge -useContext -underBinder +onlyGivenNames v3
      have h4 : Sound p v3 := loadImage_keeps h0'
      try clear_value v3
      extract_lets -merge -useContext -underBinder +onlyGivenNames w5 v6
      have h7 : Sound p v6 := by
        exact Sound.of h4.ctrs h4.mem h4.link h4.keys h4.parts h4.objs h4.ctxs h4.queues h4.fences h4.accs h4.arrivals h4.users h4.opTab
            h4.doms h4.migs h4.rings h4.profs h4.pending
      try clear_value v6 w5
      extract_lets -merge -useContext -underBinder +onlyGivenNames v8
      have h9 : Sound p v8 := by
        refine startChain_keeps ?_
        exact closeNewest_keeps (startIdentity_keeps h7)
      try clear_value v8
      extract_lets -merge -useContext -underBinder +onlyGivenNames v10
      try clear_value v10
      extract_lets -merge -useContext -underBinder +onlyGivenNames v11
      have h12 : Sound p v11 := restoreVault_keeps h9
      try clear_value v11
      extract_lets -merge -useContext -underBinder +onlyGivenNames v13
      have h14 : Sound p v13 := by
        refine endLost_keeps ?_
        refine endEpoch_keeps ?_
        exact endWork_keeps (failTaken_keeps h12)
      try clear_value v13
      extract_lets -merge -useContext -underBinder +onlyGivenNames v15
      have h16 : Sound p v15 := by
        refine cutInterval_keeps ?_
        refine startVerKey_keeps ?_
        exact startEngineKey_keeps (dropAdmin_keeps h14)
      try clear_value v15
      extract_lets -merge -useContext -underBinder +onlyGivenNames v17
      have h18 : Sound p v17 := restartClock_keeps (keepReady_keeps h16)
      try clear_value v17
      extract_lets -merge -useContext -underBinder +onlyGivenNames v19
      have h20 : Sound p v19 := logOut_keeps (logStart_keeps h18)
      try clear_value v19
      extract_lets -merge -useContext -underBinder +onlyGivenNames v21
      have h22 : Sound p v21 := by
        refine ite_keeps (K := Sound p) (fun _ => ?_) (fun _ => ?_)
        · exact endDump_keeps h20
        · exact h20
      try clear_value v21
      exact openStations_keeps h22

theorem warmStart_keeps {p} {x0} {x1} {x2} {x3} {x4} {x5} {x6} {x7} (h0' : Sound p x7) : Sound p (warmStart x0 x1 x2 x3 x4 x5 x6 x7) := by
  unfold warmStart
  refine ite_keeps (K := Sound p) (fun _ => ?_) (fun _ => ?_)
  · exact h0'
  · extract_lets -merge -useContext -underBinder +onlyGivenNames v8
    have h9 : Sound p v8 := by
      refine startRandom_keeps ?_
      exact selfTests_keeps (clearFaults_keeps h0')
    try clear_value v8
    split
    · exact dead_keeps (faultEvent_keeps h9)
    · rename_i m11 heq
      have h12 : Sound p m11 := by
        refine SoundO.get heq ?_
        exact takeSeed_keeps h9
      exact warmRun_keeps h12

/-- A body keeps the state sound. -/
def BodyKeeps (p : List Instr) (b : Nat × Body) : Prop := ∀ t rc inp s, Sound p s → Sound p (b.2 t rc inp s)

theorem bodies0_keep {p} : ∀ b ∈ bodies0, BodyKeeps p b := by
  unfold bodies0
  refine List.forall_mem_cons.2 ⟨fun t rc inp s h => @bodyRegionReload_keeps p t rc inp s h, ?_⟩
  refine List.forall_mem_cons.2 ⟨fun t rc inp s h => @bodyRegionSeal_keeps p t rc inp s h, ?_⟩
  refine List.forall_mem_cons.2 ⟨fun t rc inp s h => @bodyAccOpen_keeps p t rc inp s h, ?_⟩
  refine List.forall_mem_cons.2 ⟨fun t rc inp s h => @bodyAccClose_keeps p t rc inp s h, ?_⟩
  refine List.forall_mem_cons.2 ⟨fun t rc inp s h => @bodyLinkJobConfig_keeps p t rc inp s h, ?_⟩
  refine List.forall_mem_cons.2 ⟨fun t rc inp s h => @bodyArrivalOpen_keeps p t rc inp s h, ?_⟩
  refine List.forall_mem_cons.2 ⟨fun t rc inp s h => @bodyArrivalClose_keeps p t rc inp s h, ?_⟩
  refine List.forall_mem_cons.2 ⟨fun t rc inp s h => @bodyBulkCopy_keeps p t rc inp s h, ?_⟩
  refine List.forall_mem_cons.2 ⟨fun t rc inp s h => @bodyCkptSend_keeps p t rc inp s h, ?_⟩
  refine List.forall_mem_cons.2 ⟨fun t rc inp s h => @bodyCkptRestore_keeps p t rc inp s h, ?_⟩
  refine List.forall_mem_cons.2 ⟨fun t rc inp s h => @bodyParityRebuild_keeps p t rc inp s h, ?_⟩
  refine List.forall_mem_cons.2 ⟨fun t rc inp s h => @bodyKeyCreate_keeps p t rc inp s h, ?_⟩
  refine List.forall_mem_cons.2 ⟨fun t rc inp s h => @bodyKeyRotate_keeps p t rc inp s h, ?_⟩
  refine List.forall_mem_cons.2 ⟨fun t rc inp s h => @bodyKeyRetirePrevious_keeps p t rc inp s h, ?_⟩
  refine List.forall_mem_cons.2 ⟨fun t rc inp s h => @bodyKeyDestroy_keeps p t rc inp s h, ?_⟩
  refine List.forall_mem_cons.2 ⟨fun t rc inp s h => @bodyKeyQuery_keeps p t rc inp s h, ?_⟩
  refine List.forall_mem_cons.2 ⟨fun t rc inp s h => @bodyKeyImport_keeps p t rc inp s h, ?_⟩
  refine List.forall_mem_cons.2 ⟨fun t rc inp s h => @bodyGcmSeal_keeps p t rc inp s h, ?_⟩
  refine List.forall_mem_cons.2 ⟨fun t rc inp s h => @bodyGcmUnseal_keeps p t rc inp s h, ?_⟩
  refine List.forall_mem_cons.2 ⟨fun t rc inp s h => @bodyCtr_keeps p t rc inp s h, ?_⟩
  refine List.forall_mem_cons.2 ⟨fun t rc inp s h => @bodyCmac_keeps p t rc inp s h, ?_⟩
  refine List.forall_mem_cons.2 ⟨fun t rc inp s h => @bodyWrap_keeps p t rc inp s h, ?_⟩
  refine List.forall_mem_cons.2 ⟨fun t rc inp s h => @bodyUnwrap_keeps p t rc inp s h, ?_⟩
  refine List.forall_mem_cons.2 ⟨fun t rc inp s h => @bodyStateSave_keeps p t rc inp s h, ?_⟩
  refine List.forall_mem_cons.2 ⟨fun t rc inp s h => @bodyStateRestore_keeps p t rc inp s h, ?_⟩
  exact List.forall_mem_nil _

theorem bodies1_keep {p} : ∀ b ∈ bodies1, BodyKeeps p b := by
  unfold bodies1
  refine List.forall_mem_cons.2 ⟨fun t rc inp s h => @bodyOpCancel_keeps p t rc inp s h, ?_⟩
  refine List.forall_mem_cons.2 ⟨fun t rc inp s h => @bodyRandomGet_keeps p t rc inp s h, ?_⟩
  refine List.forall_mem_cons.2 ⟨fun t rc inp s h => @bodyEvidenceGet_keeps p t rc inp s h, ?_⟩
  refine List.forall_mem_cons.2 ⟨fun t rc inp s h => @bodyIdentityGet_keeps p t rc inp s h, ?_⟩
  refine List.forall_mem_cons.2 ⟨fun t rc inp s h => @bodyDomainCreate_keeps p t rc inp s h, ?_⟩
  refine List.forall_mem_cons.2 ⟨fun t rc inp s h => @bodyDomainJoinPrepare_keeps p t rc inp s h, ?_⟩
  refine List.forall_mem_cons.2 ⟨fun t rc inp s h => @bodyDomainMessage_keeps p t rc inp s h, ?_⟩
  refine List.forall_mem_cons.2 ⟨fun t rc inp s h => @bodyDomainLeave_keeps p t rc inp s h, ?_⟩
  refine List.forall_mem_cons.2 ⟨fun t rc inp s h => @bodyDomainEnd_keeps p t rc inp s h, ?_⟩
  refine List.forall_mem_cons.2 ⟨fun t rc inp s h => @bodyDomainRotate_keeps p t rc inp s h, ?_⟩
  refine List.forall_mem_cons.2 ⟨fun t rc inp s h => @bodyDomainStatus_keeps p t rc inp s h, ?_⟩
  refine List.forall_mem_cons.2 ⟨fun t rc inp s h => @bodyDomainAttachMap_keeps p t rc inp s h, ?_⟩
  refine List.forall_mem_cons.2 ⟨fun t rc inp s h => @bodyPartCreate_keeps p t rc inp s h, ?_⟩
  refine List.forall_mem_cons.2 ⟨fun t rc inp s h => @bodyPartRemove_keeps p t rc inp s h, ?_⟩
  refine List.forall_mem_cons.2 ⟨fun t rc inp s h => @bodyCompose_keeps p t rc inp s h, ?_⟩
  refine List.forall_mem_cons.2 ⟨fun t rc inp s h => @bodyPartFreeze_keeps p t rc inp s h, ?_⟩
  refine List.forall_mem_cons.2 ⟨fun t rc inp s h => @bodyPartThaw_keeps p t rc inp s h, ?_⟩
  refine List.forall_mem_cons.2 ⟨fun t rc inp s h => @bodyMigratePrepare_keeps p t rc inp s h, ?_⟩
  refine List.forall_mem_cons.2 ⟨fun t rc inp s h => @bodyMigrateStart_keeps p t rc inp s h, ?_⟩
  refine List.forall_mem_cons.2 ⟨fun t rc inp s h => @bodyMigrateExport_keeps p t rc inp s h, ?_⟩
  refine List.forall_mem_cons.2 ⟨fun t rc inp s h => @bodyMigrateImport_keeps p t rc inp s h, ?_⟩
  refine List.forall_mem_cons.2 ⟨fun t rc inp s h => @bodyMigrateFinish_keeps p t rc inp s h, ?_⟩
  refine List.forall_mem_cons.2 ⟨fun t rc inp s h => @bodyMigrateAbort_keeps p t rc inp s h, ?_⟩
  refine List.forall_mem_cons.2 ⟨fun t rc inp s h => @bodyHandoffOffer_keeps p t rc inp s h, ?_⟩
  refine List.forall_mem_cons.2 ⟨fun t rc inp s h => @bodyHandoffLanding_keeps p t rc inp s h, ?_⟩
  exact List.forall_mem_nil _

theorem bodies2_keep {p} : ∀ b ∈ bodies2, BodyKeeps p b := by
  unfold bodies2
  refine List.forall_mem_cons.2 ⟨fun t rc inp s h => @bodyHandoffAbandon_keeps p t rc inp s h, ?_⟩
  refine List.forall_mem_cons.2 ⟨fun t rc inp s h => @bodyMeterConfig_keeps p t rc inp s h, ?_⟩
  refine List.forall_mem_cons.2 ⟨fun t rc inp s h => @bodyNop_keeps p t rc inp s h, ?_⟩
  refine List.forall_mem_cons.2 ⟨fun t rc inp s h => @bodyCtxCreate_keeps p t rc inp s h, ?_⟩
  refine List.forall_mem_cons.2 ⟨fun t rc inp s h => @bodyCtxAbandon_keeps p t rc inp s h, ?_⟩
  refine List.forall_mem_cons.2 ⟨fun t rc inp s h => @bodyCtxClose_keeps p t rc inp s h, ?_⟩
  refine List.forall_mem_cons.2 ⟨fun t rc inp s h => @bodyQueueCreate_keeps p t rc inp s h, ?_⟩
  refine List.forall_mem_cons.2 ⟨fun t rc inp s h => @bodyQueueDestroy_keeps p t rc inp s h, ?_⟩
  refine List.forall_mem_cons.2 ⟨fun t rc inp s h => @bodyObjAlloc_keeps p t rc inp s h, ?_⟩
  refine List.forall_mem_cons.2 ⟨fun t rc inp s h => @bodyObjFree_keeps p t rc inp s h, ?_⟩
  refine List.forall_mem_cons.2 ⟨fun t rc inp s h => @bodyObjShare_keeps p t rc inp s h, ?_⟩
  refine List.forall_mem_cons.2 ⟨fun t rc inp s h => @bodyObjQuery_keeps p t rc inp s h, ?_⟩
  refine List.forall_mem_cons.2 ⟨fun t rc inp s h => @bodyFenceAlloc_keeps p t rc inp s h, ?_⟩
  refine List.forall_mem_cons.2 ⟨fun t rc inp s h => @bodyFenceFree_keeps p t rc inp s h, ?_⟩
  refine List.forall_mem_cons.2 ⟨fun t rc inp s h => @bodyFenceShare_keeps p t rc inp s h, ?_⟩
  refine List.forall_mem_cons.2 ⟨fun t rc inp s h => @bodyFenceRelease_keeps p t rc inp s h, ?_⟩
  refine List.forall_mem_cons.2 ⟨fun t rc inp s h => @bodyFenceQuery_keeps p t rc inp s h, ?_⟩
  refine List.forall_mem_cons.2 ⟨fun t rc inp s h => @bodyWorkBegin_keeps p t rc inp s h, ?_⟩
  refine List.forall_mem_cons.2 ⟨fun t rc inp s h => @bodyWorkEnd_keeps p t rc inp s h, ?_⟩
  refine List.forall_mem_cons.2 ⟨fun t rc inp s h => @bodyFaultClear_keeps p t rc inp s h, ?_⟩
  refine List.forall_mem_cons.2 ⟨fun t rc inp s h => @bodyFaultThreshold_keeps p t rc inp s h, ?_⟩
  refine List.forall_mem_cons.2 ⟨fun t rc inp s h => @bodyHedgehogPolicy_keeps p t rc inp s h, ?_⟩
  refine List.forall_mem_cons.2 ⟨fun t rc inp s h => @bodyFaultInject_keeps p t rc inp s h, ?_⟩
  refine List.forall_mem_cons.2 ⟨fun t rc inp s h => @bodyStopWave_keeps p t rc inp s h, ?_⟩
  refine List.forall_mem_cons.2 ⟨fun t rc inp s h => @bodyStopResume_keeps p t rc inp s h, ?_⟩
  exact List.forall_mem_nil _

theorem bodies3_keep {p} : ∀ b ∈ bodies3, BodyKeeps p b := by
  unfold bodies3
  refine List.forall_mem_cons.2 ⟨fun t rc inp s h => @bodyStopRecords_keeps p t rc inp s h, ?_⟩
  refine List.forall_mem_cons.2 ⟨fun t rc inp s h => @bodyResetStation_keeps p t rc inp s h, ?_⟩
  refine List.forall_mem_cons.2 ⟨fun t rc inp s h => @bodyResetWarm_keeps p t rc inp s h, ?_⟩
  refine List.forall_mem_cons.2 ⟨fun t rc inp s h => @bodyResetNonce_keeps p t rc inp s h, ?_⟩
  refine List.forall_mem_cons.2 ⟨fun t rc inp s h => @bodyResetColdSigned_keeps p t rc inp s h, ?_⟩
  refine List.forall_mem_cons.2 ⟨fun t rc inp s h => @bodyDumpConfig_keeps p t rc inp s h, ?_⟩
  refine List.forall_mem_cons.2 ⟨fun t rc inp s h => @bodyDumpStart_keeps p t rc inp s h, ?_⟩
  refine List.forall_mem_cons.2 ⟨fun t rc inp s h => @bodyLcNonce_keeps p t rc inp s h, ?_⟩
  refine List.forall_mem_cons.2 ⟨fun t rc inp s h => @bodyLcTransition_keeps p t rc inp s h, ?_⟩
  refine List.forall_mem_cons.2 ⟨fun t rc inp s h => @bodyLcStatus_keeps p t rc inp s h, ?_⟩
  refine List.forall_mem_cons.2 ⟨fun t rc inp s h => @bodyDebugOpen_keeps p t rc inp s h, ?_⟩
  refine List.forall_mem_cons.2 ⟨fun t rc inp s h => @bodyCounterClear_keeps p t rc inp s h, ?_⟩
  refine List.forall_mem_cons.2 ⟨fun t rc inp s h => @bodyProfileBind_keeps p t rc inp s h, ?_⟩
  refine List.forall_mem_cons.2 ⟨fun t rc inp s h => @bodyTraceConfig_keeps p t rc inp s h, ?_⟩
  refine List.forall_mem_cons.2 ⟨fun t rc inp s h => @bodyTraceRing_keeps p t rc inp s h, ?_⟩
  refine List.forall_mem_cons.2 ⟨fun t rc inp s h => @bodyImageUpdate_keeps p t rc inp s h, ?_⟩
  refine List.forall_mem_cons.2 ⟨fun t rc inp s h => @bodyImageStatus_keeps p t rc inp s h, ?_⟩
  refine List.forall_mem_cons.2 ⟨fun t rc inp s h => @bodyLogRead_keeps p t rc inp s h, ?_⟩
  exact List.forall_mem_nil _

theorem lookup_mem {α : Type} {k : Nat} {v : α} {l : List (Nat × α)} (h : l.lookup k = some v) : ∃ i, (i, v) ∈ l := by
  induction l with
  | nil => simp at h
  | cons x l ih =>
    obtain ⟨i, w⟩ := x
    rw [List.lookup_cons] at h
    split at h
    · cases h; exact ⟨i, List.mem_cons_self ..⟩
    · obtain ⟨j, hj⟩ := ih h; exact ⟨j, List.mem_cons_of_mem _ hj⟩

theorem bodyOf_keeps {x0} {t : Taken} {rc : Nat} {inp : Bytes} {s : State} (h : Sound p s) : Sound p (bodyOf x0 t rc inp s) := by
  unfold bodyOf
  cases hl : (bodies0 ++ bodies1 ++ bodies2 ++ bodies3).lookup x0 with
  | none => exact h
  | some b =>
    obtain ⟨i, hi⟩ := lookup_mem hl
    simp only [List.mem_append] at hi
    rcases hi with ((hi | hi) | hi) | hi
    · exact bodies0_keep _ hi _ _ _ _ h
    · exact bodies1_keep _ hi _ _ _ _ h
    · exact bodies2_keep _ hi _ _ _ _ h
    · exact bodies3_keep _ hi _ _ _ _ h


theorem resumeDraw_keeps {p} {x0} {x1} {x2} {x3} (h0' : Sound p x3) : Sound p (resumeDraw x0 x1 x2 x3) := by
  unfold resumeDraw
  extract_lets -merge -useContext -underBinder +onlyGivenNames v4
  have h5 : ∀ x6 x7, Sound p x7 → Sound p (v4 x6 x7) := by
    intro a8 a9 h10
    try unfold v4
    exact Sound.of h10.ctrs h10.mem h10.link h10.keys h10.parts h10.objs h10.ctxs h10.queues h10.fences h10.accs h10.arrivals h10.users
        h10.opTab h10.doms h10.migs h10.rings h10.profs h10.pending
  try clear_value v4
  extract_lets -merge -useContext -underBinder +onlyGivenNames v11
  have h12 : Sound p v11 := bodyOf_keeps (h5 _ _ h0')
  try clear_value v11
  refine ite_keeps (K := Sound p) (fun _ => ?_) (fun _ => ?_)
  · exact h5 _ _ h12
  · exact h12

theorem commandStart_keeps {p} {x0} {x1} {x2} {x3} {x4} (h0' : Sound p x4) : Sound p (commandStart x0 x1 x2 x3 x4) := by
  unfold commandStart
  split
  · refine ite_keeps (K := Sound p) (fun _ => ?_) (fun _ => ?_)
    · exact h0'
    · refine ite_keeps (K := Sound p) (fun _ => ?_) (fun _ => ?_)
      · refine tryStart_keeps ?_ h0'
        intro a6 a7 a8 a9 h10
        exact bodyOf_keeps h10
      · refine ite_keeps (K := Sound p) (fun _ => ?_) (fun _ => ?_)
        · exact resumeDraw_keeps h0'
        · exact h0'
  · exact h0'

theorem memStalls_keeps {p} {x0} {x1} (h0' : Sound p x1) : Sound p (memStalls x0 x1) := by
  unfold memStalls
  extract_lets -merge -useContext -underBinder +onlyGivenNames v2
  try clear_value v2
  extract_lets -merge -useContext -underBinder +onlyGivenNames v3
  try clear_value v3
  extract_lets -merge -useContext -underBinder +onlyGivenNames v4
  have h5 : Sound p v4 := by
    refine each_keeps ?_ ?_
    · intro a6 a7 h8
      exact profCount_keeps h8
    · refine ite_keeps (K := Sound p) (fun _ => ?_) (fun _ => ?_)
      · exact h0'
      · exact bump_keeps h0'
  try clear_value v4
  refine ite_keeps (K := Sound p) (fun _ => ?_) (fun _ => ?_)
  · exact bump_keeps h5
  · exact h5

theorem stallClocks_keeps {p} {x0} {x1} (h0' : Sound p x1) : Sound p (stallClocks x0 x1) := by
  unfold stallClocks
  extract_lets -merge -useContext -underBinder +onlyGivenNames v2
  try clear_value v2
  extract_lets -merge -useContext -underBinder +onlyGivenNames v3
  have h4 : Sound p v3 := by
    refine each_keeps ?_ h0'
    intro a5 a6 h7
    exact profCount_keeps h7
  try clear_value v3
  extract_lets -merge -useContext -underBinder +onlyGivenNames v8
  have h9 : Sound p v8 := by
    refine ite_keeps (K := Sound p) (fun _ => ?_) (fun _ => ?_)
    · exact bump_keeps h4
    · exact h4
  try clear_value v8
  refine ite_keeps (K := Sound p) (fun _ => ?_) (fun _ => ?_)
  · exact bump_keeps h9
  · exact h9

theorem tickStations_keeps {p} {x0} (h0' : Sound p x0) : Sound p (tickStations x0) := by
  unfold tickStations
  extract_lets -merge -useContext -underBinder +onlyGivenNames v1
  have h2 : Sound p v1 := by
    refine each_keeps ?_ h0'
    intro a3 a4 h5
    exact safeStation_keeps h5
  try clear_value v1
  extract_lets -merge -useContext -underBinder +onlyGivenNames v6
  have h7 : Sound p v6 := by
    refine each_keeps ?_ h2
    intro a8 a9 h10
    exact takeReports_keeps h10
  try clear_value v6
  extract_lets -merge -useContext -underBinder +onlyGivenNames v11
  have h12 : Sound p v11 := by
    refine each_keeps ?_ h7
    intro a13 a14 h15
    refine ite_keeps (K := Sound p) (fun _ => ?_) (fun _ => ?_)
    · exact h15
    · exact memStalls_keeps (pump_keeps h15)
  try clear_value v11
  extract_lets -merge -useContext -underBinder +onlyGivenNames v16
  have h17 : Sound p v16 := settleCopies_keeps h12
  try clear_value v16
  refine each_keeps ?_ h17
  intro a18 a19 h20
  extract_lets -merge -useContext -underBinder +onlyGivenNames v21
  have h22 : Sound p v21 := by
    refine ite_keeps (K := Sound p) (fun _ => ?_) (fun _ => ?_)
    · exact h20
    · exact stallClocks_keeps (linkPump_keeps h20)
  try clear_value v21
  exact settleLink_keeps h22

theorem tickObject_keeps {p} {x0} {x1} (h0' : Sound p x1) : Sound p (tickObject x0 x1) := by
  unfold tickObject
  extract_lets -merge -useContext -underBinder +onlyGivenNames v2
  try clear_value v2
  extract_lets -merge -useContext -underBinder +onlyGivenNames v3
  have h4 : Sound p v3 := by
    refine ite_keeps (K := Sound p) (fun _ => ?_) (fun _ => ?_)
    · exact startRekey_keeps h0'
    · exact h0'
  try clear_value v3
  extract_lets -merge -useContext -underBinder +onlyGivenNames v5
  have h6 : Sound p v5 := by
    refine ite_keeps (K := Sound p) (fun _ => ?_) (fun _ => ?_)
    · exact reloadWaiting_keeps h4
    · exact h4
  try clear_value v5
  refine ite_keeps (K := Sound p) (fun _ => ?_) (fun _ => ?_)
  · exact freeObject_keeps h6
  · exact h6

theorem tickKeys_keeps {p} {x0} (h0' : Sound p x0) : Sound p (tickKeys x0) := by
  unfold tickKeys
  extract_lets -merge -useContext -underBinder +onlyGivenNames v1
  have h2 : Sound p v1 := by
    refine each_keeps ?_ h0'
    intro a3 a4 h5
    exact tickObject_keeps h5
  try clear_value v1
  extract_lets -merge -useContext -underBinder +onlyGivenNames v6
  have h7 : Sound p v6 := by
    refine each_keeps ?_ h2
    intro a8 a9 h10
    exact tryOldHalf_keeps h10
  try clear_value v6
  refine settleClosed_keeps ?_
  refine each_keeps ?_ h7
  intro a11 a12 h13
  exact settleAcc_keeps h13

theorem tickParts_keeps {p} {x0} (h0' : Sound p x0) : Sound p (tickParts x0) := by
  unfold tickParts
  extract_lets -merge -useContext -underBinder +onlyGivenNames v1
  have h2 : Sound p v1 := by
    refine each_keeps ?_ (settleOffers_keeps h0')
    intro a3 a4 h5
    exact settleDomain_keeps h5
  try clear_value v1
  extract_lets -merge -useContext -underBinder +onlyGivenNames v6
  have h7 : Sound p v6 := by
    refine each_keeps ?_ ?_
    · intro a8 a9 h10
      exact settleRemoval_keeps h10
    · exact settleCompose_keeps (settleFreezes_keeps h2)
  try clear_value v6
  refine settleExports_keeps ?_
  refine settleImports_keeps ?_
  exact settleNotices_keeps (settleMeter_keeps h7)

theorem tickCommands_keeps {p} {x0} (h0' : Sound p x0) : Sound p (tickCommands x0) := by
  unfold tickCommands
  refine settleWork_keeps ?_
  refine settleFences_keeps ?_
  refine settleAllocs_keeps ?_
  refine each_keeps ?_ h0'
  intro a1 a2 h3
  exact settleCtx_keeps h3

theorem tickKeep_keeps {p} {x0} (h0' : Sound p x0) : Sound p (tickKeep x0) := by
  unfold tickKeep
  extract_lets -merge -useContext -underBinder +onlyGivenNames v1
  have h2 : Sound p v1 := scratchTick_keeps h0'
  try clear_value v1
  extract_lets -merge -useContext -underBinder +onlyGivenNames v3
  have h4 : Sound p v3 := by
    refine settleStationResets_keeps ?_
    refine settleNoticesSeen_keeps ?_
    exact settleStops_keeps (keepwayTick_keeps h2)
  try clear_value v3
  refine tickCommands_keeps ?_
  refine tickParts_keeps ?_
  refine tickKeys_keeps ?_
  refine tickStations_keeps ?_
  refine settleHost_keeps ?_
  refine settleDump_keeps ?_
  exact settleProf_keeps (gatherNoise_keeps h4)

theorem tick_keeps {p} {x0} (h0' : Sound p x0) : Sound p (tick x0) := by
  unfold tick
  refine ite_keeps (K := Sound p) (fun _ => ?_) (fun _ => ?_)
  · exact h0'
  · extract_lets -merge -useContext -underBinder +onlyGivenNames w1 v2
    have h3 : Sound p v2 := by
      exact settleCold_keeps (Sound.of h0'.ctrs h0'.mem h0'.link h0'.keys h0'.parts h0'.objs h0'.ctxs h0'.queues h0'.fences h0'.accs
          h0'.arrivals h0'.users h0'.opTab h0'.doms h0'.migs h0'.rings h0'.profs h0'.pending)
    try clear_value v2 w1
    refine ite_keeps (K := Sound p) (fun _ => ?_) (fun _ => ?_)
    · exact h3
    · extract_lets -merge -useContext -underBinder +onlyGivenNames v4
      have h5 : Sound p v4 := clockTick_keeps h3
      try clear_value v4
      refine ite_keeps (K := Sound p) (fun _ => ?_) (fun _ => ?_)
      · exact tickKeep_keeps h5
      · exact h5

end Sys2Proof.Machine
end

