-- ==== Sys2Proof/Laws/SoundRows.lean ====
section
/-! SUPPORT. Every row of the command table has a next state that keeps the tables in order and the queue as it was: one
lemma a row (Laws/Sound.lean). -/

namespace Sys2Proof.Machine
open Sys2Proof Sys2Proof.Crypto

theorem execColdKeepStart_keeps {p} {x0} {x1} {x2} {x3} {x4} {x5} {x6} {x7} {x8} {x9} {x10} (h0' : Sound p x10) :
    ∃ t, execColdKeepStart x0 x1 x2 x3 x4 x5 x6 x7 x8 x9 x10 = .next t ∧ Sound p t := by
  refine ⟨_, rfl, ?_⟩
  exact coldStart_keeps h0'

theorem execColdResetInput_keeps {p} {x0} {x1} (h0' : Sound p x1) :
    ∃ t, execColdResetInput x0 x1 = .next t ∧ Sound p t := by
  refine ⟨_, rfl, ?_⟩
  exact coldInput_keeps h0'

theorem execWarmResetInput_keeps {p} {x0} {x1} (h0' : Sound p x1) :
    ∃ t, execWarmResetInput x0 x1 = .next t ∧ Sound p t := by
  refine ⟨_, rfl, ?_⟩
  exact warmInput_keeps h0'

theorem execWarmResetSequence_keeps {p} {x0} {x1} {x2} (h0' : Sound p x2) :
    ∃ t, execWarmResetSequence x0 x1 x2 = .next t ∧ Sound p t := by
  refine ⟨_, rfl, ?_⟩
  exact warmSequence_keeps h0'

theorem execWarmKeepStart_keeps {p} {x0} {x1} {x2} {x3} {x4} {x5} {x6} {x7} (h0' : Sound p x7) :
    ∃ t, execWarmKeepStart x0 x1 x2 x3 x4 x5 x6 x7 = .next t ∧ Sound p t := by
  refine ⟨_, rfl, ?_⟩
  exact warmStart_keeps h0'

theorem execVaultExpiry_keeps {p} {x0} (h0' : Sound p x0) :
    ∃ t, execVaultExpiry x0 = .next t ∧ Sound p t := by
  refine ⟨_, rfl, ?_⟩
  exact vaultExpiry_keeps h0'

theorem execCurrentLimitAssert_keeps {p} {x0} (h0' : Sound p x0) :
    ∃ t, execCurrentLimitAssert x0 = .next t ∧ Sound p t := by
  refine ⟨_, rfl, ?_⟩
  exact limitAssert_keeps h0'

theorem execJunctionReading_keeps {p} {x0} {x1} {x2} {x3} (h0' : Sound p x3) :
    ∃ t, execJunctionReading x0 x1 x2 x3 = .next t ∧ Sound p t := by
  refine ⟨_, rfl, ?_⟩
  exact junctionReading_keeps h0'

theorem execStepDownExit_keeps {p} {x0} (h0' : Sound p x0) :
    ∃ t, execStepDownExit x0 = .next t ∧ Sound p t := by
  refine ⟨_, rfl, ?_⟩
  exact stepDownExit_keeps h0'

theorem execSensorInvalidTimeout_keeps {p} {x0} {x1} {x2} (h0' : Sound p x2) :
    ∃ t, execSensorInvalidTimeout x0 x1 x2 = .next t ∧ Sound p t := by
  refine ⟨_, rfl, ?_⟩
  exact sensorInvalid_keeps h0'

theorem execBoostBudgetSpent_keeps {p} {x0} (h0' : Sound p x0) :
    ∃ t, execBoostBudgetSpent x0 = .next t ∧ Sound p t := by
  refine ⟨_, rfl, ?_⟩
  exact budgetSpent_keeps h0'

theorem execCipherClockSwitch_keeps {p} {x0} (h0' : Sound p x0) :
    ∃ t, execCipherClockSwitch x0 = .next t ∧ Sound p t := by
  refine ⟨_, rfl, ?_⟩
  exact switchClock_keeps h0'

theorem execHedgehogTrip_keeps {p} {x0} {x1} (h0' : Sound p x1) :
    ∃ t, execHedgehogTrip x0 x1 = .next t ∧ Sound p t := by
  refine ⟨_, rfl, ?_⟩
  exact hedgehogTrip_keeps h0'

theorem execLinkDown_keeps {p} {x0} {x1} (h0' : Sound p x1) :
    ∃ t, execLinkDown x0 x1 = .next t ∧ Sound p t := by
  refine ⟨_, rfl, ?_⟩
  exact linkDown_keeps h0'

theorem execKeepwayCrcError_keeps {p} {x0} {x1} {x2} (h0' : Sound p x2) :
    ∃ t, execKeepwayCrcError x0 x1 x2 = .next t ∧ Sound p t := by
  refine ⟨_, rfl, ?_⟩
  exact crcError_keeps h0'

theorem execKeepwayFrameRepeat_keeps {p} {x0} {x1} {x2} (h0' : Sound p x2) :
    ∃ t, execKeepwayFrameRepeat x0 x1 x2 = .next t ∧ Sound p t := by
  refine ⟨_, rfl, ?_⟩
  exact frameRepeat_keeps h0'

theorem execReadTile_keeps {p} {x0} {x1} {x2} {x3} (h0' : Sound p x3) :
    ∃ t, execReadTile x0 x1 x2 x3 = .next t ∧ Sound p t := by
  refine ⟨_, rfl, ?_⟩
  exact intake_keeps h0'

theorem execReadSectors_keeps {p} {x0} {x1} {x2} {x3} (h0' : Sound p x3) :
    ∃ t, execReadSectors x0 x1 x2 x3 = .next t ∧ Sound p t := by
  refine ⟨_, rfl, ?_⟩
  exact intake_keeps h0'

theorem execWriteTile_keeps {p} {x0} {x1} {x2} {x3} {x4} (h0' : Sound p x4) :
    ∃ t, execWriteTile x0 x1 x2 x3 x4 = .next t ∧ Sound p t := by
  refine ⟨_, rfl, ?_⟩
  exact intake_keeps h0'

theorem execWriteRange_keeps {p} {x0} {x1} {x2} {x3} {x4} (h0' : Sound p x4) :
    ∃ t, execWriteRange x0 x1 x2 x3 x4 = .next t ∧ Sound p t := by
  refine ⟨_, rfl, ?_⟩
  exact intake_keeps h0'

theorem execAccumulate_keeps {p} {x0} {x1} {x2} {x3} {x4} (h0' : Sound p x4) :
    ∃ t, execAccumulate x0 x1 x2 x3 x4 = .next t ∧ Sound p t := by
  refine ⟨_, rfl, ?_⟩
  exact intake_keeps h0'

theorem execHeaderReadReturn_keeps {p} {x0} {x1} {x2} {x3} (h0' : Sound p x3) :
    ∃ t, execHeaderReadReturn x0 x1 x2 x3 = .next t ∧ Sound p t := by
  refine ⟨_, rfl, ?_⟩
  exact headerReturn_keeps h0'

theorem execChannelReadReturn_keeps {p} {x0} {x1} {x2} {x3} (h0' : Sound p x3) :
    ∃ t, execChannelReadReturn x0 x1 x2 x3 = .next t ∧ Sound p t := by
  refine ⟨_, rfl, ?_⟩
  exact readReturn_keeps h0'

theorem execChannelWriteAck_keeps {p} {x0} {x1} {x2} (h0' : Sound p x2) :
    ∃ t, execChannelWriteAck x0 x1 x2 = .next t ∧ Sound p t := by
  refine ⟨_, rfl, ?_⟩
  exact writeAck_keeps h0'

theorem execLineFetchReturn_keeps {p} {x0} {x1} {x2} {x3} (h0' : Sound p x3) :
    ∃ t, execLineFetchReturn x0 x1 x2 x3 = .next t ∧ Sound p t := by
  refine ⟨_, rfl, ?_⟩
  exact lineReturn_keeps h0'

theorem execKeyDelivery_keeps {p} {x0} {x1} {x2} {x3} (h0' : Sound p x3) :
    ∃ t, execKeyDelivery x0 x1 x2 x3 = .next t ∧ Sound p t := by
  refine ⟨_, rfl, ?_⟩
  refine ite_keeps (K := Sound p) (fun _ => ?_) (fun _ => ?_)
  · exact keyDelivery_keeps h0'
  · exact otherDelivery_keeps h0'

theorem execDescriptorRefill_keeps {p} {x0} {x1} {x2} (h0' : Sound p x2) :
    ∃ t, execDescriptorRefill x0 x1 x2 = .next t ∧ Sound p t := by
  refine ⟨_, rfl, ?_⟩
  exact descRefill_keeps h0'

theorem execRequestTimeout_keeps {p} {x0} {x1} {x2} (h0' : Sound p x2) :
    ∃ t, execRequestTimeout x0 x1 x2 = .next t ∧ Sound p t := by
  refine ⟨_, rfl, ?_⟩
  exact requestTimeout_keeps h0'

theorem execResealSlot_keeps {p} {x0} {x1} {x2} {x3} (h0' : Sound p x3) :
    ∃ t, execResealSlot x0 x1 x2 x3 = .next t ∧ Sound p t := by
  refine ⟨_, rfl, ?_⟩
  exact resealSlot_keeps h0'

theorem execRegionRekeyStart_keeps {p} {x0} {x1} {x2} {x3} (h0' : Sound p x3) :
    ∃ t, execRegionRekeyStart x0 x1 x2 x3 = .next t ∧ Sound p t := by
  refine ⟨_, rfl, ?_⟩
  exact rekeyStart_keeps h0'

theorem execRekeyMove_keeps {p} {x0} {x1} {x2} {x3} {x4} (h0' : Sound p x4) :
    ∃ t, execRekeyMove x0 x1 x2 x3 x4 = .next t ∧ Sound p t := by
  refine ⟨_, rfl, ?_⟩
  exact rekeyMove_keeps h0'

theorem execRegionRekeyCommit_keeps {p} {x0} {x1} (h0' : Sound p x1) :
    ∃ t, execRegionRekeyCommit x0 x1 = .next t ∧ Sound p t := by
  refine ⟨_, rfl, ?_⟩
  exact rekeyCommit_keeps h0'

theorem execKeyRetiringMark_keeps {p} {x0} {x1} {x2} (h0' : Sound p x2) :
    ∃ t, execKeyRetiringMark x0 x1 x2 = .next t ∧ Sound p t := by
  refine ⟨_, rfl, ?_⟩
  exact retireArrives_keeps h0'

theorem execKeyDrainCut_keeps {p} {x0} {x1} {x2} (h0' : Sound p x2) :
    ∃ t, execKeyDrainCut x0 x1 x2 = .next t ∧ Sound p t := by
  refine ⟨_, rfl, ?_⟩
  refine ite_keeps (K := Sound p) (fun _ => ?_) (fun _ => ?_)
  · exact drainCut_keeps h0'
  · exact h0'

theorem execEpochRetirementCut_keeps {p} {x0} {x1} (h0' : Sound p x1) :
    ∃ t, execEpochRetirementCut x0 x1 = .next t ∧ Sound p t := by
  refine ⟨_, rfl, ?_⟩
  exact epochCut_keeps h0'

theorem execFreezeArrival_keeps {p} {x0} {x1} {x2} {x3} (h0' : Sound p x3) :
    ∃ t, execFreezeArrival x0 x1 x2 x3 = .next t ∧ Sound p t := by
  refine ⟨_, rfl, ?_⟩
  exact freezeArrival_keeps h0'

theorem execSafeStateEntry_keeps {p} {x0} {x1} (h0' : Sound p x1) :
    ∃ t, execSafeStateEntry x0 x1 = .next t ∧ Sound p t := by
  refine ⟨_, rfl, ?_⟩
  exact cutEmission_keeps (safeStation_keeps h0')

theorem execStopTick_keeps {p} {x0} (h0' : Sound p x0) :
    ∃ t, execStopTick x0 = .next t ∧ Sound p t := by
  refine ⟨_, rfl, ?_⟩
  exact stopTick_keeps h0'

theorem execResumeTick_keeps {p} {x0} (h0' : Sound p x0) :
    ∃ t, execResumeTick x0 = .next t ∧ Sound p t := by
  refine ⟨_, rfl, ?_⟩
  exact resumeTick_keeps h0'

theorem execMeasuredHashComplete_keeps {p} {x0} {x1} {x2} {x3} (h0' : Sound p x3) :
    ∃ t, execMeasuredHashComplete x0 x1 x2 x3 = .next t ∧ Sound p t := by
  refine ⟨_, rfl, ?_⟩
  exact measuredHash_keeps h0'

theorem execRegionSealFold_keeps {p} {x0} {x1} (h0' : Sound p x1) :
    ∃ t, execRegionSealFold x0 x1 = .next t ∧ Sound p t := by
  refine ⟨_, rfl, ?_⟩
  exact sealFold_keeps h0'

theorem execLinkRequestIntake_keeps {p} {x0} {x1} {x2} {x3} (h0' : Sound p x3) :
    ∃ t, execLinkRequestIntake x0 x1 x2 x3 = .next t ∧ Sound p t := by
  refine ⟨_, rfl, ?_⟩
  exact linkIntake_keeps h0'

theorem execInstanceOpen_keeps {p} {x0} {x1} {x2} {x3} {x4} (h0' : Sound p x4) :
    ∃ t, execInstanceOpen x0 x1 x2 x3 x4 = .next t ∧ Sound p t := by
  refine ⟨_, rfl, ?_⟩
  exact instanceOpen_keeps h0'

theorem execContextRefillDone_keeps {p} {x0} {x1} {x2} {x3} {x4} {x5} (h0' : Sound p x5) :
    ∃ t, execContextRefillDone x0 x1 x2 x3 x4 x5 = .next t ∧ Sound p t := by
  refine ⟨_, rfl, ?_⟩
  exact refillDone_keeps h0'

theorem execBundleFlushTimeout_keeps {p} {x0} {x1} {x2} {x3} (h0' : Sound p x3) :
    ∃ t, execBundleFlushTimeout x0 x1 x2 x3 = .next t ∧ Sound p t := by
  refine ⟨_, rfl, ?_⟩
  exact bundleFlush_keeps h0'

theorem execPacketArrival_keeps {p} {x0} {x1} {x2} {x3} (h0' : Sound p x3) :
    ∃ t, execPacketArrival x0 x1 x2 x3 = .next t ∧ Sound p t := by
  refine ⟨_, rfl, ?_⟩
  exact packetArrival_keeps h0'

theorem execPacketApply_keeps {p} {x0} {x1} {x2} {x3} {x4} (h0' : Sound p x4) :
    ∃ t, execPacketApply x0 x1 x2 x3 x4 = .next t ∧ Sound p t := by
  refine ⟨_, rfl, ?_⟩
  exact packetApply_keeps h0'

theorem execLoadDataRelease_keeps {p} {x0} {x1} {x2} (h0' : Sound p x2) :
    ∃ t, execLoadDataRelease x0 x1 x2 = .next t ∧ Sound p t := by
  refine ⟨_, rfl, ?_⟩
  exact loadRelease_keeps h0'

theorem execFlaggedStoreRelease_keeps {p} {x0} {x1} {x2} {x3} (h0' : Sound p x3) :
    ∃ t, execFlaggedStoreRelease x0 x1 x2 x3 = .next t ∧ Sound p t := by
  refine ⟨_, rfl, ?_⟩
  exact flaggedRelease_keeps h0'

theorem execAtomicResult_keeps {p} {x0} {x1} {x2} {x3} (h0' : Sound p x3) :
    ∃ t, execAtomicResult x0 x1 x2 x3 = .next t ∧ Sound p t := by
  refine ⟨_, rfl, ?_⟩
  exact atomicResult_keeps h0'

theorem execInvalidateDone_keeps {p} {x0} {x1} {x2} (h0' : Sound p x2) :
    ∃ t, execInvalidateDone x0 x1 x2 = .next t ∧ Sound p t := by
  refine ⟨_, rfl, ?_⟩
  exact invalidateDone_keeps h0'

theorem execFlushDone_keeps {p} {x0} {x1} {x2} (h0' : Sound p x2) :
    ∃ t, execFlushDone x0 x1 x2 = .next t ∧ Sound p t := by
  refine ⟨_, rfl, ?_⟩
  exact flushDone_keeps h0'

theorem execGapTimeout_keeps {p} {x0} {x1} {x2} {x3} {x4} (h0' : Sound p x4) :
    ∃ t, execGapTimeout x0 x1 x2 x3 x4 = .next t ∧ Sound p t := by
  refine ⟨_, rfl, ?_⟩
  exact gapTimeout_keeps h0'

theorem execTrackerTimeout_keeps {p} {x0} {x1} {x2} (h0' : Sound p x2) :
    ∃ t, execTrackerTimeout x0 x1 x2 = .next t ∧ Sound p t := by
  refine ⟨_, rfl, ?_⟩
  exact trackerTimeout_keeps h0'

theorem execRotationCommitArrival_keeps {p} {x0} {x1} (h0' : Sound p x1) :
    ∃ t, execRotationCommitArrival x0 x1 = .next t ∧ Sound p t := by
  refine ⟨_, rfl, ?_⟩
  exact rotationCommit_keeps h0'

theorem execGenerationDrainTimeout_keeps {p} {x0} {x1} {x2} (h0' : Sound p x2) :
    ∃ t, execGenerationDrainTimeout x0 x1 x2 = .next t ∧ Sound p t := by
  refine ⟨_, rfl, ?_⟩
  exact generationDrain_keeps h0'

theorem execMemberLostArrival_keeps {p} {x0} {x1} {x2} {x3} (h0' : Sound p x3) :
    ∃ t, execMemberLostArrival x0 x1 x2 x3 = .next t ∧ Sound p t := by
  refine ⟨_, rfl, ?_⟩
  refine each_keeps ?_ h0'
  intro a4 a5 h6
  exact memberLostAt_keeps h6

theorem execBulkCompletionReport_keeps {p} {x0} {x1} {x2} (h0' : Sound p x2) :
    ∃ t, execBulkCompletionReport x0 x1 x2 = .next t ∧ Sound p t := by
  refine ⟨_, rfl, ?_⟩
  exact bulkReport_keeps h0'

theorem execHostDmaRequest_keeps {p} {x0} {x1} {x2} {x3} {x4} {x5} {x6} {x7} {x8} (h0' : Sound p x8) :
    ∃ t, execHostDmaRequest x0 x1 x2 x3 x4 x5 x6 x7 x8 = .next t ∧ Sound p t := by
  refine ⟨_, rfl, ?_⟩
  exact hostDma_keeps h0'

theorem execIdeIntegrityFailure_keeps {p} {x0} {x1} (h0' : Sound p x1) :
    ∃ t, execIdeIntegrityFailure x0 x1 = .next t ∧ Sound p t := by
  refine ⟨_, rfl, ?_⟩
  exact ideFailure_keeps h0'

theorem execSpdmRequest_keeps {p} {x0} {x1} {x2} (h0' : Sound p x2) :
    ∃ t, execSpdmRequest x0 x1 x2 = .next t ∧ Sound p t := by
  refine ⟨_, rfl, ?_⟩
  exact spdmRequest_keeps h0'

theorem execKeyProg_keeps {p} {x0} {x1} {x2} {x3} {x4} {x5} (h0' : Sound p x5) :
    ∃ t, execKeyProg x0 x1 x2 x3 x4 x5 = .next t ∧ Sound p t := by
  refine ⟨_, rfl, ?_⟩
  exact keyProg_keeps h0'

theorem execKSetGo_keeps {p} {x0} {x1} {x2} {x3} (h0' : Sound p x3) :
    ∃ t, execKSetGo x0 x1 x2 x3 = .next t ∧ Sound p t := by
  refine ⟨_, rfl, ?_⟩
  exact kSetGo_keeps h0'

theorem execKSetStop_keeps {p} {x0} {x1} {x2} {x3} (h0' : Sound p x3) :
    ∃ t, execKSetStop x0 x1 x2 x3 = .next t ∧ Sound p t := by
  refine ⟨_, rfl, ?_⟩
  exact kSetStop_keeps h0'

theorem execLockInterfaceRequest_keeps {p} {x0} {x1} {x2} {x3} {x4} (h0' : Sound p x4) :
    ∃ t, execLockInterfaceRequest x0 x1 x2 x3 x4 = .next t ∧ Sound p t := by
  refine ⟨_, rfl, ?_⟩
  exact lockInterface_keeps h0'

theorem execStartInterfaceRequest_keeps {p} {x0} {x1} {x2} (h0' : Sound p x2) :
    ∃ t, execStartInterfaceRequest x0 x1 x2 = .next t ∧ Sound p t := by
  refine ⟨_, rfl, ?_⟩
  exact startInterface_keeps h0'

theorem execStopInterfaceRequest_keeps {p} {x0} {x1} {x2} (h0' : Sound p x2) :
    ∃ t, execStopInterfaceRequest x0 x1 x2 = .next t ∧ Sound p t := by
  refine ⟨_, rfl, ?_⟩
  exact stopInterface_keeps h0'

theorem execGetDeviceInterfaceReport_keeps {p} {x0} {x1} {x2} (h0' : Sound p x2) :
    ∃ t, execGetDeviceInterfaceReport x0 x1 x2 = .next t ∧ Sound p t := by
  refine ⟨_, rfl, ?_⟩
  exact interfaceReport_keeps h0'

theorem execHostDoorbellWrite_keeps {p} {x0} {x1} {x2} (h0' : Sound p x2) :
    ∃ t, execHostDoorbellWrite x0 x1 x2 = .next t ∧ Sound p t := by
  refine ⟨_, rfl, ?_⟩
  exact hostDoorbell_keeps h0'

theorem execDeviceDoorbellWrite_keeps {p} {x0} {x1} {x2} {x3} (h0' : Sound p x3) :
    ∃ t, execDeviceDoorbellWrite x0 x1 x2 x3 = .next t ∧ Sound p t := by
  refine ⟨_, rfl, ?_⟩
  exact deviceDoorbell_keeps h0'

theorem execRunNotice_keeps {p} {x0} {x1} {x2} (h0' : Sound p x2) :
    ∃ t, execRunNotice x0 x1 x2 = .next t ∧ Sound p t := by
  refine ⟨_, rfl, ?_⟩
  refine ite_keeps (K := Sound p) (fun _ => ?_) (fun _ => ?_)
  · exact runNotice_keeps h0'
  · exact h0'

theorem execArrivalCounterRead_keeps {p} {x0} {x1} {x2} (h0' : Sound p x2) :
    ∃ t, execArrivalCounterRead x0 x1 x2 = .next t ∧ Sound p t := by
  refine ⟨_, rfl, ?_⟩
  exact arrivalRead_keeps h0'

theorem execAdminEnable_keeps {p} {x0} {x1} (h0' : Sound p x1) :
    ∃ t, execAdminEnable x0 x1 = .next t ∧ Sound p t := by
  refine ⟨_, rfl, ?_⟩
  exact adminWrite_keeps h0'

theorem execTableRead_keeps {p} {x0} {x1} (h0' : Sound p x1) :
    ∃ t, execTableRead x0 x1 = .next t ∧ Sound p t := by
  refine ⟨_, rfl, ?_⟩
  exact tableRead_keeps h0'

theorem execEventHeadWrite_keeps {p} {x0} {x1} {x2} (h0' : Sound p x2) :
    ∃ t, execEventHeadWrite x0 x1 x2 = .next t ∧ Sound p t := by
  refine ⟨_, rfl, ?_⟩
  exact eventHead_keeps h0'

theorem execFaultAcknowledge_keeps {p} {x0} {x1} {x2} (h0' : Sound p x2) :
    ∃ t, execFaultAcknowledge x0 x1 x2 = .next t ∧ Sound p t := by
  refine ⟨_, rfl, ?_⟩
  refine ite_keeps (K := Sound p) (fun _ => ?_) (fun _ => ?_)
  · exact acknowledge_keeps h0'
  · exact h0'

theorem execUnitSnapshot_keeps {p} {x0} {x1} (h0' : Sound p x1) :
    ∃ t, execUnitSnapshot x0 x1 = .next t ∧ Sound p t := by
  refine ⟨_, rfl, ?_⟩
  exact snapWrite_keeps h0'

theorem execProfileSnapshot_keeps {p} {x0} {x1} (h0' : Sound p x1) :
    ∃ t, execProfileSnapshot x0 x1 = .next t ∧ Sound p t := by
  refine ⟨_, rfl, ?_⟩
  exact snapWrite_keeps h0'

theorem execHeartbeatWrite_keeps {p} {x0} {x1} (h0' : Sound p x1) :
    ∃ t, execHeartbeatWrite x0 x1 = .next t ∧ Sound p t := by
  refine ⟨_, rfl, ?_⟩
  exact heartbeat_keeps h0'

theorem execRegisterWrite_keeps {p} {x0} {x1} {x2} {x3} (h0' : Sound p x3) :
    ∃ t, execRegisterWrite x0 x1 x2 x3 = .next t ∧ Sound p t := by
  refine ⟨_, rfl, ?_⟩
  exact regWrite_keeps h0'

theorem execCommandStart_keeps {p} {x0} {x1} {x2} {x3} {x4} (h0' : Sound p x4) :
    ∃ t, execCommandStart x0 x1 x2 x3 x4 = .next t ∧ Sound p t := by
  refine ⟨_, rfl, ?_⟩
  exact commandStart_keeps h0'

theorem execCommandWaitTimeout_keeps {p} {x0} {x1} {x2} (h0' : Sound p x2) :
    ∃ t, execCommandWaitTimeout x0 x1 x2 = .next t ∧ Sound p t := by
  refine ⟨_, rfl, ?_⟩
  refine ite_keeps (K := Sound p) (fun _ => ?_) (fun _ => ?_)
  · exact waitTimeout_keeps h0'
  · exact h0'

theorem execTakePauseTimeout_keeps {p} {x0} {x1} (h0' : Sound p x1) :
    ∃ t, execTakePauseTimeout x0 x1 = .next t ∧ Sound p t := by
  refine ⟨_, rfl, ?_⟩
  refine ite_keeps (K := Sound p) (fun _ => ?_) (fun _ => ?_)
  · exact pauseTimeout_keeps h0'
  · exact h0'

theorem execFenceFailureReport_keeps {p} {x0} {x1} {x2} {x3} {x4} (h0' : Sound p x4) :
    ∃ t, execFenceFailureReport x0 x1 x2 x3 x4 = .next t ∧ Sound p t := by
  refine ⟨_, rfl, ?_⟩
  refine ite_keeps (K := Sound p) (fun _ => ?_) (fun _ => ?_)
  · exact fenceReport_keeps h0'
  · exact h0'

theorem execObjectRetire_keeps {p} {x0} {x1} (h0' : Sound p x1) :
    ∃ t, execObjectRetire x0 x1 = .next t ∧ Sound p t := by
  refine ⟨_, rfl, ?_⟩
  refine ite_keeps (K := Sound p) (fun _ => ?_) (fun _ => ?_)
  · exact retireObject_keeps h0'
  · exact h0'

theorem execCtxCloseComplete_keeps {p} {x0} {x1} (h0' : Sound p x1) :
    ∃ t, execCtxCloseComplete x0 x1 = .next t ∧ Sound p t := by
  refine ⟨_, rfl, ?_⟩
  exact closeComplete_keeps h0'

theorem execEpochDrainComplete_keeps {p} {x0} (h0' : Sound p x0) :
    ∃ t, execEpochDrainComplete x0 = .next t ∧ Sound p t := by
  refine ⟨_, rfl, ?_⟩
  refine ite_keeps (K := Sound p) (fun _ => ?_) (fun _ => ?_)
  · exact retireEpoch_keeps h0'
  · exact h0'

theorem execEpochDrainTimeout_keeps {p} {x0} (h0' : Sound p x0) :
    ∃ t, execEpochDrainTimeout x0 = .next t ∧ Sound p t := by
  refine ⟨_, rfl, ?_⟩
  exact epochTimeout_keeps h0'

theorem execKeyDrainComplete_keeps {p} {x0} {x1} (h0' : Sound p x1) :
    ∃ t, execKeyDrainComplete x0 x1 = .next t ∧ Sound p t := by
  refine ⟨_, rfl, ?_⟩
  exact drainComplete_keeps h0'

theorem execKeyDrainTimeout_keeps {p} {x0} {x1} (h0' : Sound p x1) :
    ∃ t, execKeyDrainTimeout x0 x1 = .next t ∧ Sound p t := by
  refine ⟨_, rfl, ?_⟩
  exact drainTimeout_keeps h0'

theorem execKeyPurgeConfirm_keeps {p} {x0} {x1} {x2} {x3} (h0' : Sound p x3) :
    ∃ t, execKeyPurgeConfirm x0 x1 x2 x3 = .next t ∧ Sound p t := by
  refine ⟨_, rfl, ?_⟩
  exact purgeConfirm_keeps h0'

theorem execSwapConfirm_keeps {p} {x0} {x1} {x2} (h0' : Sound p x2) :
    ∃ t, execSwapConfirm x0 x1 x2 = .next t ∧ Sound p t := by
  refine ⟨_, rfl, ?_⟩
  exact swapConfirm_keeps h0'

theorem execPartitionRemovalDrainEnd_keeps {p} {x0} {x1} (h0' : Sound p x1) :
    ∃ t, execPartitionRemovalDrainEnd x0 x1 = .next t ∧ Sound p t := by
  refine ⟨_, rfl, ?_⟩
  exact removalDrainEnd_keeps h0'

theorem execPartitionRemovalFlightExpiry_keeps {p} {x0} {x1} (h0' : Sound p x1) :
    ∃ t, execPartitionRemovalFlightExpiry x0 x1 = .next t ∧ Sound p t := by
  refine ⟨_, rfl, ?_⟩
  exact flightExpiry_keeps h0'

theorem execMeteringIntervalEnd_keeps {p} {x0} (h0' : Sound p x0) :
    ∃ t, execMeteringIntervalEnd x0 = .next t ∧ Sound p t := by
  refine ⟨_, rfl, ?_⟩
  exact intervalEnd_keeps h0'

theorem execMeteringCheckpoint_keeps {p} {x0} (h0' : Sound p x0) :
    ∃ t, execMeteringCheckpoint x0 = .next t ∧ Sound p t := by
  refine ⟨_, rfl, ?_⟩
  exact checkpointDue_keeps h0'

theorem execFaultWindowClose_keeps {p} {x0} {x1} {x2} (h0' : Sound p x2) :
    ∃ t, execFaultWindowClose x0 x1 x2 = .next t ∧ Sound p t := by
  refine ⟨_, rfl, ?_⟩
  exact windowClose_keeps h0'

theorem execWatchdogPeriodExpiry_keeps {p} {x0} (h0' : Sound p x0) :
    ∃ t, execWatchdogPeriodExpiry x0 = .next t ∧ Sound p t := by
  refine ⟨_, rfl, ?_⟩
  exact periodExpiry_keeps h0'

theorem execWatchdogStartTimeout_keeps {p} {x0} (h0' : Sound p x0) :
    ∃ t, execWatchdogStartTimeout x0 = .next t ∧ Sound p t := by
  refine ⟨_, rfl, ?_⟩
  exact startTimeout_keeps h0'

theorem execNoiseSourceFailure_keeps {p} {x0} {x1} (h0' : Sound p x1) :
    ∃ t, execNoiseSourceFailure x0 x1 = .next t ∧ Sound p t := by
  refine ⟨_, rfl, ?_⟩
  exact noiseFail_keeps h0'

theorem execDrbgReseed_keeps {p} {x0} {x1} (h0' : Sound p x1) :
    ∃ t, execDrbgReseed x0 x1 = .next t ∧ Sound p t := by
  refine ⟨_, rfl, ?_⟩
  exact reseed_keeps h0'

theorem execDrbgWaitTimeout_keeps {p} {x0} {x1} {x2} (h0' : Sound p x2) :
    ∃ t, execDrbgWaitTimeout x0 x1 x2 = .next t ∧ Sound p t := by
  refine ⟨_, rfl, ?_⟩
  exact drbgTimeout_keeps h0'

theorem execDumpTrigger_keeps {p} {x0} {x1} (h0' : Sound p x1) :
    ∃ t, execDumpTrigger x0 x1 = .next t ∧ Sound p t := by
  refine ⟨_, rfl, ?_⟩
  exact triggerRow_keeps h0'

theorem execDumpSourceTimeout_keeps {p} {x0} {x1} (h0' : Sound p x1) :
    ∃ t, execDumpSourceTimeout x0 x1 = .next t ∧ Sound p t := by
  refine ⟨_, rfl, ?_⟩
  exact sourceTimeout_keeps h0'

theorem execTraceDrain_keeps {p} {x0} {x1} (h0' : Sound p x1) :
    ∃ t, execTraceDrain x0 x1 = .next t ∧ Sound p t := by
  refine ⟨_, rfl, ?_⟩
  exact traceDrain_keeps h0'

theorem execProfileBoundary_keeps {p} {x0} {x1} (h0' : Sound p x1) :
    ∃ t, execProfileBoundary x0 x1 = .next t ∧ Sound p t := by
  refine ⟨_, rfl, ?_⟩
  exact boundaryRow_keeps h0'

theorem execProfileIdleBoundary_keeps {p} {x0} {x1} (h0' : Sound p x1) :
    ∃ t, execProfileIdleBoundary x0 x1 = .next t ∧ Sound p t := by
  refine ⟨_, rfl, ?_⟩
  exact idleBoundary_keeps h0'

theorem execLcTransitionSequence_keeps {p} {x0} {x1} (h0' : Sound p x1) :
    ∃ t, execLcTransitionSequence x0 x1 = .next t ∧ Sound p t := by
  refine ⟨_, rfl, ?_⟩
  exact lcSequence_keeps h0'

theorem execTestSessionStart_keeps {p} {x0} {x1} (h0' : Sound p x1) :
    ∃ t, execTestSessionStart x0 x1 = .next t ∧ Sound p t := by
  refine ⟨_, rfl, ?_⟩
  exact testSession_keeps h0'

theorem execTapLcRequest_keeps {p} {x0} {x1} (h0' : Sound p x1) :
    ∃ t, execTapLcRequest x0 x1 = .next t ∧ Sound p t := by
  refine ⟨_, rfl, ?_⟩
  exact tapRequest_keeps h0'

theorem execTapToken_keeps {p} {x0} {x1} {x2} (h0' : Sound p x2) :
    ∃ t, execTapToken x0 x1 x2 = .next t ∧ Sound p t := by
  refine ⟨_, rfl, ?_⟩
  exact tapToken_keeps h0'

theorem execRepairRecordBurn_keeps {p} {x0} {x1} {x2} (h0' : Sound p x2) :
    ∃ t, execRepairRecordBurn x0 x1 x2 = .next t ∧ Sound p t := by
  refine ⟨_, rfl, ?_⟩
  exact repairBurn_keeps h0'

theorem execBeatSend_keeps {p} {x0} {x1} (h0' : Sound p x1) :
    ∃ t, execBeatSend x0 x1 = .next t ∧ Sound p t := by
  refine ⟨_, rfl, ?_⟩
  exact beatSend_keeps h0'

theorem execBeat_keeps {p} {x0} {x1} {x2} {x3} (h0' : Sound p x3) :
    ∃ t, execBeat x0 x1 x2 x3 = .next t ∧ Sound p t := by
  refine ⟨_, rfl, ?_⟩
  refine withMail_keeps ?_ h0'
  intro a4 a5 a6 h7
  exact beatArrives_keeps h7

theorem execBeatTimeout_keeps {p} {x0} {x1} {x2} (h0' : Sound p x2) :
    ∃ t, execBeatTimeout x0 x1 x2 = .next t ∧ Sound p t := by
  refine ⟨_, rfl, ?_⟩
  exact beatTimeout_keeps h0'

theorem execLossReport_keeps {p} {x0} {x1} {x2} {x3} (h0' : Sound p x3) :
    ∃ t, execLossReport x0 x1 x2 x3 = .next t ∧ Sound p t := by
  refine ⟨_, rfl, ?_⟩
  refine withMail_keeps ?_ h0'
  intro a4 a5 a6 h7
  exact lossReport_keeps h7

theorem execMemberLost_keeps {p} {x0} {x1} {x2} {x3} (h0' : Sound p x3) :
    ∃ t, execMemberLost x0 x1 x2 x3 = .next t ∧ Sound p t := by
  refine ⟨_, rfl, ?_⟩
  refine withMail_keeps ?_ h0'
  intro a4 a5 a6 h7
  exact memberLost_keeps h7

theorem execMarkRequest_keeps {p} {x0} {x1} {x2} {x3} (h0' : Sound p x3) :
    ∃ t, execMarkRequest x0 x1 x2 x3 = .next t ∧ Sound p t := by
  refine ⟨_, rfl, ?_⟩
  refine withMail_keeps ?_ h0'
  intro a4 a5 a6 h7
  exact markRequest_keeps h7

theorem execMark_keeps {p} {x0} {x1} {x2} {x3} (h0' : Sound p x3) :
    ∃ t, execMark x0 x1 x2 x3 = .next t ∧ Sound p t := by
  refine ⟨_, rfl, ?_⟩
  refine withMail_keeps ?_ h0'
  intro a4 a5 a6 h7
  exact markArrives_keeps h7

theorem execRotateRequest_keeps {p} {x0} {x1} {x2} {x3} (h0' : Sound p x3) :
    ∃ t, execRotateRequest x0 x1 x2 x3 = .next t ∧ Sound p t := by
  refine ⟨_, rfl, ?_⟩
  refine withMail_keeps ?_ h0'
  intro a4 a5 a6 h7
  exact rotateRequest_keeps h7

theorem execRotatePrepare_keeps {p} {x0} {x1} {x2} {x3} (h0' : Sound p x3) :
    ∃ t, execRotatePrepare x0 x1 x2 x3 = .next t ∧ Sound p t := by
  refine ⟨_, rfl, ?_⟩
  refine withMail_keeps ?_ h0'
  intro a4 a5 a6 h7
  exact rotatePrepare_keeps h7

theorem execRotateConfirm_keeps {p} {x0} {x1} {x2} {x3} (h0' : Sound p x3) :
    ∃ t, execRotateConfirm x0 x1 x2 x3 = .next t ∧ Sound p t := by
  refine ⟨_, rfl, ?_⟩
  refine withMail_keeps ?_ h0'
  intro a4 a5 a6 h7
  exact rotateConfirm_keeps h7

theorem execRotateCommit_keeps {p} {x0} {x1} {x2} {x3} (h0' : Sound p x3) :
    ∃ t, execRotateCommit x0 x1 x2 x3 = .next t ∧ Sound p t := by
  refine ⟨_, rfl, ?_⟩
  refine withMail_keeps ?_ h0'
  intro a4 a5 a6 h7
  exact rotateCommitArrives_keeps h7

theorem execRotateAbort_keeps {p} {x0} {x1} {x2} {x3} (h0' : Sound p x3) :
    ∃ t, execRotateAbort x0 x1 x2 x3 = .next t ∧ Sound p t := by
  refine ⟨_, rfl, ?_⟩
  refine withMail_keeps ?_ h0'
  intro a4 a5 a6 h7
  exact rotateAbort_keeps h7

theorem execRotationDecideTimeout_keeps {p} {x0} {x1} (h0' : Sound p x1) :
    ∃ t, execRotationDecideTimeout x0 x1 = .next t ∧ Sound p t := by
  refine ⟨_, rfl, ?_⟩
  exact rotationDecide_keeps h0'

theorem execRotationRetry_keeps {p} {x0} {x1} (h0' : Sound p x1) :
    ∃ t, execRotationRetry x0 x1 = .next t ∧ Sound p t := by
  refine ⟨_, rfl, ?_⟩
  exact rotationRetry_keeps h0'

theorem execAdopt_keeps {p} {x0} {x1} {x2} {x3} (h0' : Sound p x3) :
    ∃ t, execAdopt x0 x1 x2 x3 = .next t ∧ Sound p t := by
  refine ⟨_, rfl, ?_⟩
  refine withMail_keeps ?_ h0'
  intro a4 a5 a6 h7
  exact adoptArrives_keeps h7

theorem execTakeover_keeps {p} {x0} {x1} {x2} {x3} (h0' : Sound p x3) :
    ∃ t, execTakeover x0 x1 x2 x3 = .next t ∧ Sound p t := by
  refine ⟨_, rfl, ?_⟩
  refine withMail_keeps ?_ h0'
  intro a4 a5 a6 h7
  exact takeoverArrives_keeps h7

theorem execTableSync_keeps {p} {x0} {x1} {x2} {x3} (h0' : Sound p x3) :
    ∃ t, execTableSync x0 x1 x2 x3 = .next t ∧ Sound p t := by
  refine ⟨_, rfl, ?_⟩
  refine withMail_keeps ?_ h0'
  intro a4 a5 a6 h7
  exact tableSync_keeps h7

theorem execLeave_keeps {p} {x0} {x1} {x2} {x3} (h0' : Sound p x3) :
    ∃ t, execLeave x0 x1 x2 x3 = .next t ∧ Sound p t := by
  refine ⟨_, rfl, ?_⟩
  refine withMail_keeps ?_ h0'
  intro a4 a5 a6 h7
  exact leaveArrives_keeps h7

theorem execDomainEndMessage_keeps {p} {x0} {x1} {x2} {x3} (h0' : Sound p x3) :
    ∃ t, execDomainEndMessage x0 x1 x2 x3 = .next t ∧ Sound p t := by
  refine ⟨_, rfl, ?_⟩
  refine withMail_keeps ?_ h0'
  intro a4 a5 a6 h7
  exact domainEnds_keeps h7

theorem execRejoinWindowExpiry_keeps {p} {x0} {x1} {x2} (h0' : Sound p x2) :
    ∃ t, execRejoinWindowExpiry x0 x1 x2 = .next t ∧ Sound p t := by
  refine ⟨_, rfl, ?_⟩
  exact rejoinExpiry_keeps h0'

theorem execFormationTimeout_keeps {p} {x0} {x1} {x2} (h0' : Sound p x2) :
    ∃ t, execFormationTimeout x0 x1 x2 = .next t ∧ Sound p t := by
  refine ⟨_, rfl, ?_⟩
  refine ite_keeps (K := Sound p) (fun _ => ?_) (fun _ => ?_)
  · exact h0'
  · refine ite_keeps (K := Sound p) (fun _ => ?_) (fun _ => ?_)
    · exact migTimeout_keeps h0'
    · exact formationTimeout_keeps h0'

theorem execAdmitOffer_keeps {p} {x0} {x1} (h0' : Sound p x1) :
    ∃ t, execAdmitOffer x0 x1 = .next t ∧ Sound p t := by
  refine ⟨_, rfl, ?_⟩
  refine withRecord_keeps ?_ h0'
  intro a2 a3 a4 h5
  exact takeOffer_keeps h5

theorem execAdmitReply_keeps {p} {x0} {x1} (h0' : Sound p x1) :
    ∃ t, execAdmitReply x0 x1 = .next t ∧ Sound p t := by
  refine ⟨_, rfl, ?_⟩
  refine withRecord_keeps ?_ h0'
  intro a2 a3 a4 h5
  exact takeReply_keeps h5

theorem execAdmitGrant_keeps {p} {x0} {x1} (h0' : Sound p x1) :
    ∃ t, execAdmitGrant x0 x1 = .next t ∧ Sound p t := by
  refine ⟨_, rfl, ?_⟩
  refine withRecord_keeps ?_ h0'
  intro a2 a3 a4 h5
  exact takeGrant_keeps h5

theorem execAdmitConfirm_keeps {p} {x0} {x1} (h0' : Sound p x1) :
    ∃ t, execAdmitConfirm x0 x1 = .next t ∧ Sound p t := by
  refine ⟨_, rfl, ?_⟩
  refine withRecord_keeps ?_ h0'
  intro a2 a3 a4 h5
  exact takeConfirm_keeps h5

theorem execFormCommit_keeps {p} {x0} {x1} (h0' : Sound p x1) :
    ∃ t, execFormCommit x0 x1 = .next t ∧ Sound p t := by
  refine ⟨_, rfl, ?_⟩
  refine withRecord_keeps ?_ h0'
  intro a2 a3 a4 h5
  exact takeFormCommit_keeps h5

theorem execAdmitRefuse_keeps {p} {x0} {x1} (h0' : Sound p x1) :
    ∃ t, execAdmitRefuse x0 x1 = .next t ∧ Sound p t := by
  refine ⟨_, rfl, ?_⟩
  refine ite_keeps (K := Sound p) (fun _ => ?_) (fun _ => ?_)
  · refine withMig_keeps ?_ h0'
    intro a2 a3 h4
    exact takeMigRefuse_keeps h4
  · refine withRecord_keeps ?_ h0'
    intro a5 a6 a7 h8
    exact takeRefuse_keeps h8

theorem execMigOffer_keeps {p} {x0} {x1} (h0' : Sound p x1) :
    ∃ t, execMigOffer x0 x1 = .next t ∧ Sound p t := by
  refine ⟨_, rfl, ?_⟩
  refine withMig_keeps ?_ h0'
  intro a2 a3 h4
  exact takeMigOffer_keeps h4

theorem execMigReply_keeps {p} {x0} {x1} (h0' : Sound p x1) :
    ∃ t, execMigReply x0 x1 = .next t ∧ Sound p t := by
  refine ⟨_, rfl, ?_⟩
  refine withMig_keeps ?_ h0'
  intro a2 a3 h4
  exact takeMigReply_keeps h4

theorem execMigGrant_keeps {p} {x0} {x1} (h0' : Sound p x1) :
    ∃ t, execMigGrant x0 x1 = .next t ∧ Sound p t := by
  refine ⟨_, rfl, ?_⟩
  refine withMig_keeps ?_ h0'
  intro a2 a3 h4
  exact takeMigGrant_keeps h4

theorem execMigConfirm_keeps {p} {x0} {x1} (h0' : Sound p x1) :
    ∃ t, execMigConfirm x0 x1 = .next t ∧ Sound p t := by
  refine ⟨_, rfl, ?_⟩
  refine withMig_keeps ?_ h0'
  intro a2 a3 h4
  exact takeMigConfirm_keeps h4

theorem execHandoffOfferMessage_keeps {p} {x0} {x1} {x2} {x3} (h0' : Sound p x3) :
    ∃ t, execHandoffOfferMessage x0 x1 x2 x3 = .next t ∧ Sound p t := by
  refine ⟨_, rfl, ?_⟩
  refine withMail_keeps ?_ h0'
  intro a4 a5 a6 h7
  exact offerArrives_keeps h7

theorem execHandoffAccept_keeps {p} {x0} {x1} {x2} {x3} (h0' : Sound p x3) :
    ∃ t, execHandoffAccept x0 x1 x2 x3 = .next t ∧ Sound p t := by
  refine ⟨_, rfl, ?_⟩
  refine withMail_keeps ?_ h0'
  intro a4 a5 a6 h7
  exact acceptArrives_keeps h7

theorem execHandoffCommit_keeps {p} {x0} {x1} {x2} {x3} (h0' : Sound p x3) :
    ∃ t, execHandoffCommit x0 x1 x2 x3 = .next t ∧ Sound p t := by
  refine ⟨_, rfl, ?_⟩
  refine withMail_keeps ?_ h0'
  intro a4 a5 a6 h7
  exact commitArrives_keeps h7

theorem execHandoffAck_keeps {p} {x0} {x1} {x2} {x3} (h0' : Sound p x3) :
    ∃ t, execHandoffAck x0 x1 x2 x3 = .next t ∧ Sound p t := by
  refine ⟨_, rfl, ?_⟩
  refine withMail_keeps ?_ h0'
  intro a4 a5 a6 h7
  exact ackArrives_keeps h7

theorem execHandoffReleased_keeps {p} {x0} {x1} {x2} {x3} (h0' : Sound p x3) :
    ∃ t, execHandoffReleased x0 x1 x2 x3 = .next t ∧ Sound p t := by
  refine ⟨_, rfl, ?_⟩
  refine withMail_keeps ?_ h0'
  intro a4 a5 a6 h7
  exact releasedArrives_keeps h7

theorem execHandoffRefuse_keeps {p} {x0} {x1} {x2} {x3} (h0' : Sound p x3) :
    ∃ t, execHandoffRefuse x0 x1 x2 x3 = .next t ∧ Sound p t := by
  refine ⟨_, rfl, ?_⟩
  refine withMail_keeps ?_ h0'
  intro a4 a5 a6 h7
  exact refuseArrives_keeps h7

theorem execHandoffQuery_keeps {p} {x0} {x1} {x2} {x3} (h0' : Sound p x3) :
    ∃ t, execHandoffQuery x0 x1 x2 x3 = .next t ∧ Sound p t := by
  refine ⟨_, rfl, ?_⟩
  refine withMail_keeps ?_ h0'
  intro a4 a5 a6 h7
  exact queryArrives_keeps h7

theorem execHandoffState_keeps {p} {x0} {x1} {x2} {x3} (h0' : Sound p x3) :
    ∃ t, execHandoffState x0 x1 x2 x3 = .next t ∧ Sound p t := by
  refine ⟨_, rfl, ?_⟩
  refine withMail_keeps ?_ h0'
  intro a4 a5 a6 h7
  exact stateArrives_keeps h7

theorem execHandoffClose_keeps {p} {x0} {x1} {x2} {x3} (h0' : Sound p x3) :
    ∃ t, execHandoffClose x0 x1 x2 x3 = .next t ∧ Sound p t := by
  refine ⟨_, rfl, ?_⟩
  refine withMail_keeps ?_ h0'
  intro a4 a5 a6 h7
  exact closeArrives_keeps h7

theorem execHandoffRetransmit_keeps {p} {x0} {x1} (h0' : Sound p x1) :
    ∃ t, execHandoffRetransmit x0 x1 = .next t ∧ Sound p t := by
  refine ⟨_, rfl, ?_⟩
  exact retransmit_keeps h0'

theorem execHandoffQueryTimer_keeps {p} {x0} {x1} {x2} (h0' : Sound p x2) :
    ∃ t, execHandoffQueryTimer x0 x1 x2 = .next t ∧ Sound p t := by
  refine ⟨_, rfl, ?_⟩
  exact queryTimer_keeps h0'

theorem execStopMessage_keeps {p} {x0} {x1} {x2} {x3} (h0' : Sound p x3) :
    ∃ t, execStopMessage x0 x1 x2 x3 = .next t ∧ Sound p t := by
  refine ⟨_, rfl, ?_⟩
  refine withMail_keeps ?_ h0'
  intro a4 a5 a6 h7
  exact stopArrives_keeps h7

theorem execResumeMessage_keeps {p} {x0} {x1} {x2} {x3} (h0' : Sound p x3) :
    ∃ t, execResumeMessage x0 x1 x2 x3 = .next t ∧ Sound p t := by
  refine ⟨_, rfl, ?_⟩
  refine withMail_keeps ?_ h0'
  intro a4 a5 a6 h7
  exact resumeArrives_keeps h7

theorem execRegionReload_keeps {p} {x0} {x1} {x2} {x3} {x4} (h0' : Sound p x4) :
    ∃ t, execRegionReload x0 x1 x2 x3 x4 = .next t ∧ Sound p t := by
  refine ⟨_, rfl, ?_⟩
  refine takeCmd_keeps ?_ h0'
  intro a5 a6 a7 a8 h9
  exact bodyRegionReload_keeps h9

theorem execRegionSeal_keeps {p} {x0} {x1} {x2} {x3} {x4} (h0' : Sound p x4) :
    ∃ t, execRegionSeal x0 x1 x2 x3 x4 = .next t ∧ Sound p t := by
  refine ⟨_, rfl, ?_⟩
  refine takeCmd_keeps ?_ h0'
  intro a5 a6 a7 a8 h9
  exact bodyRegionSeal_keeps h9

theorem execAccOpen_keeps {p} {x0} {x1} {x2} {x3} {x4} (h0' : Sound p x4) :
    ∃ t, execAccOpen x0 x1 x2 x3 x4 = .next t ∧ Sound p t := by
  refine ⟨_, rfl, ?_⟩
  refine takeCmd_keeps ?_ h0'
  intro a5 a6 a7 a8 h9
  exact bodyAccOpen_keeps h9

theorem execAccClose_keeps {p} {x0} {x1} {x2} {x3} {x4} (h0' : Sound p x4) :
    ∃ t, execAccClose x0 x1 x2 x3 x4 = .next t ∧ Sound p t := by
  refine ⟨_, rfl, ?_⟩
  refine takeCmd_keeps ?_ h0'
  intro a5 a6 a7 a8 h9
  exact bodyAccClose_keeps h9

theorem execLinkJobConfig_keeps {p} {x0} {x1} {x2} {x3} {x4} (h0' : Sound p x4) :
    ∃ t, execLinkJobConfig x0 x1 x2 x3 x4 = .next t ∧ Sound p t := by
  refine ⟨_, rfl, ?_⟩
  refine takeCmd_keeps ?_ h0'
  intro a5 a6 a7 a8 h9
  exact bodyLinkJobConfig_keeps h9

theorem execArrivalOpen_keeps {p} {x0} {x1} {x2} {x3} {x4} (h0' : Sound p x4) :
    ∃ t, execArrivalOpen x0 x1 x2 x3 x4 = .next t ∧ Sound p t := by
  refine ⟨_, rfl, ?_⟩
  refine takeCmd_keeps ?_ h0'
  intro a5 a6 a7 a8 h9
  exact bodyArrivalOpen_keeps h9

theorem execArrivalClose_keeps {p} {x0} {x1} {x2} {x3} {x4} (h0' : Sound p x4) :
    ∃ t, execArrivalClose x0 x1 x2 x3 x4 = .next t ∧ Sound p t := by
  refine ⟨_, rfl, ?_⟩
  refine takeCmd_keeps ?_ h0'
  intro a5 a6 a7 a8 h9
  exact bodyArrivalClose_keeps h9

theorem execBulkCopy_keeps {p} {x0} {x1} {x2} {x3} {x4} (h0' : Sound p x4) :
    ∃ t, execBulkCopy x0 x1 x2 x3 x4 = .next t ∧ Sound p t := by
  refine ⟨_, rfl, ?_⟩
  refine takeCmd_keeps ?_ h0'
  intro a5 a6 a7 a8 h9
  exact bodyBulkCopy_keeps h9

theorem execCkptSend_keeps {p} {x0} {x1} {x2} {x3} {x4} (h0' : Sound p x4) :
    ∃ t, execCkptSend x0 x1 x2 x3 x4 = .next t ∧ Sound p t := by
  refine ⟨_, rfl, ?_⟩
  refine takeCmd_keeps ?_ h0'
  intro a5 a6 a7 a8 h9
  exact bodyCkptSend_keeps h9

theorem execCkptRestore_keeps {p} {x0} {x1} {x2} {x3} {x4} (h0' : Sound p x4) :
    ∃ t, execCkptRestore x0 x1 x2 x3 x4 = .next t ∧ Sound p t := by
  refine ⟨_, rfl, ?_⟩
  refine takeCmd_keeps ?_ h0'
  intro a5 a6 a7 a8 h9
  exact bodyCkptRestore_keeps h9

theorem execParityRebuild_keeps {p} {x0} {x1} {x2} {x3} {x4} (h0' : Sound p x4) :
    ∃ t, execParityRebuild x0 x1 x2 x3 x4 = .next t ∧ Sound p t := by
  refine ⟨_, rfl, ?_⟩
  refine takeCmd_keeps ?_ h0'
  intro a5 a6 a7 a8 h9
  exact bodyParityRebuild_keeps h9

theorem execKeyCreate_keeps {p} {x0} {x1} {x2} {x3} {x4} (h0' : Sound p x4) :
    ∃ t, execKeyCreate x0 x1 x2 x3 x4 = .next t ∧ Sound p t := by
  refine ⟨_, rfl, ?_⟩
  refine takeCmd_keeps ?_ h0'
  intro a5 a6 a7 a8 h9
  exact bodyKeyCreate_keeps h9

theorem execKeyRotate_keeps {p} {x0} {x1} {x2} {x3} {x4} (h0' : Sound p x4) :
    ∃ t, execKeyRotate x0 x1 x2 x3 x4 = .next t ∧ Sound p t := by
  refine ⟨_, rfl, ?_⟩
  refine takeCmd_keeps ?_ h0'
  intro a5 a6 a7 a8 h9
  exact bodyKeyRotate_keeps h9

theorem execKeyRetirePrevious_keeps {p} {x0} {x1} {x2} {x3} {x4} (h0' : Sound p x4) :
    ∃ t, execKeyRetirePrevious x0 x1 x2 x3 x4 = .next t ∧ Sound p t := by
  refine ⟨_, rfl, ?_⟩
  refine takeCmd_keeps ?_ h0'
  intro a5 a6 a7 a8 h9
  exact bodyKeyRetirePrevious_keeps h9

theorem execKeyDestroy_keeps {p} {x0} {x1} {x2} {x3} {x4} (h0' : Sound p x4) :
    ∃ t, execKeyDestroy x0 x1 x2 x3 x4 = .next t ∧ Sound p t := by
  refine ⟨_, rfl, ?_⟩
  refine takeCmd_keeps ?_ h0'
  intro a5 a6 a7 a8 h9
  exact bodyKeyDestroy_keeps h9

theorem execKeyQuery_keeps {p} {x0} {x1} {x2} {x3} {x4} (h0' : Sound p x4) :
    ∃ t, execKeyQuery x0 x1 x2 x3 x4 = .next t ∧ Sound p t := by
  refine ⟨_, rfl, ?_⟩
  refine takeCmd_keeps ?_ h0'
  intro a5 a6 a7 a8 h9
  exact bodyKeyQuery_keeps h9

theorem execKeyImport_keeps {p} {x0} {x1} {x2} {x3} {x4} (h0' : Sound p x4) :
    ∃ t, execKeyImport x0 x1 x2 x3 x4 = .next t ∧ Sound p t := by
  refine ⟨_, rfl, ?_⟩
  refine takeCmd_keeps ?_ h0'
  intro a5 a6 a7 a8 h9
  exact bodyKeyImport_keeps h9

theorem execCipherGcmSeal_keeps {p} {x0} {x1} {x2} {x3} {x4} (h0' : Sound p x4) :
    ∃ t, execCipherGcmSeal x0 x1 x2 x3 x4 = .next t ∧ Sound p t := by
  refine ⟨_, rfl, ?_⟩
  refine takeCmd_keeps ?_ h0'
  intro a5 a6 a7 a8 h9
  exact bodyGcmSeal_keeps h9

theorem execCipherGcmUnseal_keeps {p} {x0} {x1} {x2} {x3} {x4} (h0' : Sound p x4) :
    ∃ t, execCipherGcmUnseal x0 x1 x2 x3 x4 = .next t ∧ Sound p t := by
  refine ⟨_, rfl, ?_⟩
  refine takeCmd_keeps ?_ h0'
  intro a5 a6 a7 a8 h9
  exact bodyGcmUnseal_keeps h9

theorem execCipherCtr_keeps {p} {x0} {x1} {x2} {x3} {x4} (h0' : Sound p x4) :
    ∃ t, execCipherCtr x0 x1 x2 x3 x4 = .next t ∧ Sound p t := by
  refine ⟨_, rfl, ?_⟩
  refine takeCmd_keeps ?_ h0'
  intro a5 a6 a7 a8 h9
  exact bodyCtr_keeps h9

theorem execCipherCmac_keeps {p} {x0} {x1} {x2} {x3} {x4} (h0' : Sound p x4) :
    ∃ t, execCipherCmac x0 x1 x2 x3 x4 = .next t ∧ Sound p t := by
  refine ⟨_, rfl, ?_⟩
  refine takeCmd_keeps ?_ h0'
  intro a5 a6 a7 a8 h9
  exact bodyCmac_keeps h9

theorem execCipherWrap_keeps {p} {x0} {x1} {x2} {x3} {x4} (h0' : Sound p x4) :
    ∃ t, execCipherWrap x0 x1 x2 x3 x4 = .next t ∧ Sound p t := by
  refine ⟨_, rfl, ?_⟩
  refine takeCmd_keeps ?_ h0'
  intro a5 a6 a7 a8 h9
  exact bodyWrap_keeps h9

theorem execCipherUnwrap_keeps {p} {x0} {x1} {x2} {x3} {x4} (h0' : Sound p x4) :
    ∃ t, execCipherUnwrap x0 x1 x2 x3 x4 = .next t ∧ Sound p t := by
  refine ⟨_, rfl, ?_⟩
  refine takeCmd_keeps ?_ h0'
  intro a5 a6 a7 a8 h9
  exact bodyUnwrap_keeps h9

theorem execStateSave_keeps {p} {x0} {x1} {x2} {x3} {x4} (h0' : Sound p x4) :
    ∃ t, execStateSave x0 x1 x2 x3 x4 = .next t ∧ Sound p t := by
  refine ⟨_, rfl, ?_⟩
  refine takeCmd_keeps ?_ h0'
  intro a5 a6 a7 a8 h9
  exact bodyStateSave_keeps h9

theorem execStateRestore_keeps {p} {x0} {x1} {x2} {x3} {x4} (h0' : Sound p x4) :
    ∃ t, execStateRestore x0 x1 x2 x3 x4 = .next t ∧ Sound p t := by
  refine ⟨_, rfl, ?_⟩
  refine takeCmd_keeps ?_ h0'
  intro a5 a6 a7 a8 h9
  exact bodyStateRestore_keeps h9

theorem execOpCancel_keeps {p} {x0} {x1} {x2} {x3} {x4} (h0' : Sound p x4) :
    ∃ t, execOpCancel x0 x1 x2 x3 x4 = .next t ∧ Sound p t := by
  refine ⟨_, rfl, ?_⟩
  refine takeCmd_keeps ?_ h0'
  intro a5 a6 a7 a8 h9
  exact bodyOpCancel_keeps h9

theorem execRandomGet_keeps {p} {x0} {x1} {x2} {x3} {x4} (h0' : Sound p x4) :
    ∃ t, execRandomGet x0 x1 x2 x3 x4 = .next t ∧ Sound p t := by
  refine ⟨_, rfl, ?_⟩
  refine takeCmd_keeps ?_ h0'
  intro a5 a6 a7 a8 h9
  exact bodyRandomGet_keeps h9

theorem execEvidenceGet_keeps {p} {x0} {x1} {x2} {x3} {x4} (h0' : Sound p x4) :
    ∃ t, execEvidenceGet x0 x1 x2 x3 x4 = .next t ∧ Sound p t := by
  refine ⟨_, rfl, ?_⟩
  refine takeCmd_keeps ?_ h0'
  intro a5 a6 a7 a8 h9
  exact bodyEvidenceGet_keeps h9

theorem execIdentityGet_keeps {p} {x0} {x1} {x2} {x3} {x4} (h0' : Sound p x4) :
    ∃ t, execIdentityGet x0 x1 x2 x3 x4 = .next t ∧ Sound p t := by
  refine ⟨_, rfl, ?_⟩
  refine takeCmd_keeps ?_ h0'
  intro a5 a6 a7 a8 h9
  exact bodyIdentityGet_keeps h9

theorem execDomainCreate_keeps {p} {x0} {x1} {x2} {x3} {x4} (h0' : Sound p x4) :
    ∃ t, execDomainCreate x0 x1 x2 x3 x4 = .next t ∧ Sound p t := by
  refine ⟨_, rfl, ?_⟩
  refine takeCmd_keeps ?_ h0'
  intro a5 a6 a7 a8 h9
  exact bodyDomainCreate_keeps h9

theorem execDomainJoinPrepare_keeps {p} {x0} {x1} {x2} {x3} {x4} (h0' : Sound p x4) :
    ∃ t, execDomainJoinPrepare x0 x1 x2 x3 x4 = .next t ∧ Sound p t := by
  refine ⟨_, rfl, ?_⟩
  refine takeCmd_keeps ?_ h0'
  intro a5 a6 a7 a8 h9
  exact bodyDomainJoinPrepare_keeps h9

theorem execDomainMessage_keeps {p} {x0} {x1} {x2} {x3} {x4} (h0' : Sound p x4) :
    ∃ t, execDomainMessage x0 x1 x2 x3 x4 = .next t ∧ Sound p t := by
  refine ⟨_, rfl, ?_⟩
  refine takeCmd_keeps ?_ h0'
  intro a5 a6 a7 a8 h9
  exact bodyDomainMessage_keeps h9

theorem execDomainLeave_keeps {p} {x0} {x1} {x2} {x3} {x4} (h0' : Sound p x4) :
    ∃ t, execDomainLeave x0 x1 x2 x3 x4 = .next t ∧ Sound p t := by
  refine ⟨_, rfl, ?_⟩
  refine takeCmd_keeps ?_ h0'
  intro a5 a6 a7 a8 h9
  exact bodyDomainLeave_keeps h9

theorem execDomainEnd_keeps {p} {x0} {x1} {x2} {x3} {x4} (h0' : Sound p x4) :
    ∃ t, execDomainEnd x0 x1 x2 x3 x4 = .next t ∧ Sound p t := by
  refine ⟨_, rfl, ?_⟩
  refine takeCmd_keeps ?_ h0'
  intro a5 a6 a7 a8 h9
  exact bodyDomainEnd_keeps h9

theorem execDomainRotate_keeps {p} {x0} {x1} {x2} {x3} {x4} (h0' : Sound p x4) :
    ∃ t, execDomainRotate x0 x1 x2 x3 x4 = .next t ∧ Sound p t := by
  refine ⟨_, rfl, ?_⟩
  refine takeCmd_keeps ?_ h0'
  intro a5 a6 a7 a8 h9
  exact bodyDomainRotate_keeps h9

theorem execDomainStatus_keeps {p} {x0} {x1} {x2} {x3} {x4} (h0' : Sound p x4) :
    ∃ t, execDomainStatus x0 x1 x2 x3 x4 = .next t ∧ Sound p t := by
  refine ⟨_, rfl, ?_⟩
  refine takeCmd_keeps ?_ h0'
  intro a5 a6 a7 a8 h9
  exact bodyDomainStatus_keeps h9

theorem execDomainAttachMap_keeps {p} {x0} {x1} {x2} {x3} {x4} (h0' : Sound p x4) :
    ∃ t, execDomainAttachMap x0 x1 x2 x3 x4 = .next t ∧ Sound p t := by
  refine ⟨_, rfl, ?_⟩
  refine takeCmd_keeps ?_ h0'
  intro a5 a6 a7 a8 h9
  exact bodyDomainAttachMap_keeps h9

theorem execPartCreate_keeps {p} {x0} {x1} {x2} {x3} {x4} (h0' : Sound p x4) :
    ∃ t, execPartCreate x0 x1 x2 x3 x4 = .next t ∧ Sound p t := by
  refine ⟨_, rfl, ?_⟩
  refine takeCmd_keeps ?_ h0'
  intro a5 a6 a7 a8 h9
  exact bodyPartCreate_keeps h9

theorem execPartRemove_keeps {p} {x0} {x1} {x2} {x3} {x4} (h0' : Sound p x4) :
    ∃ t, execPartRemove x0 x1 x2 x3 x4 = .next t ∧ Sound p t := by
  refine ⟨_, rfl, ?_⟩
  refine takeCmd_keeps ?_ h0'
  intro a5 a6 a7 a8 h9
  exact bodyPartRemove_keeps h9

theorem execCompose_keeps {p} {x0} {x1} {x2} {x3} {x4} (h0' : Sound p x4) :
    ∃ t, execCompose x0 x1 x2 x3 x4 = .next t ∧ Sound p t := by
  refine ⟨_, rfl, ?_⟩
  refine takeCmd_keeps ?_ h0'
  intro a5 a6 a7 a8 h9
  exact bodyCompose_keeps h9

theorem execPartFreeze_keeps {p} {x0} {x1} {x2} {x3} {x4} (h0' : Sound p x4) :
    ∃ t, execPartFreeze x0 x1 x2 x3 x4 = .next t ∧ Sound p t := by
  refine ⟨_, rfl, ?_⟩
  refine takeCmd_keeps ?_ h0'
  intro a5 a6 a7 a8 h9
  exact bodyPartFreeze_keeps h9

theorem execPartThaw_keeps {p} {x0} {x1} {x2} {x3} {x4} (h0' : Sound p x4) :
    ∃ t, execPartThaw x0 x1 x2 x3 x4 = .next t ∧ Sound p t := by
  refine ⟨_, rfl, ?_⟩
  refine takeCmd_keeps ?_ h0'
  intro a5 a6 a7 a8 h9
  exact bodyPartThaw_keeps h9

theorem execMigratePrepare_keeps {p} {x0} {x1} {x2} {x3} {x4} (h0' : Sound p x4) :
    ∃ t, execMigratePrepare x0 x1 x2 x3 x4 = .next t ∧ Sound p t := by
  refine ⟨_, rfl, ?_⟩
  refine takeCmd_keeps ?_ h0'
  intro a5 a6 a7 a8 h9
  exact bodyMigratePrepare_keeps h9

theorem execMigrateStart_keeps {p} {x0} {x1} {x2} {x3} {x4} (h0' : Sound p x4) :
    ∃ t, execMigrateStart x0 x1 x2 x3 x4 = .next t ∧ Sound p t := by
  refine ⟨_, rfl, ?_⟩
  refine takeCmd_keeps ?_ h0'
  intro a5 a6 a7 a8 h9
  exact bodyMigrateStart_keeps h9

theorem execMigrateExport_keeps {p} {x0} {x1} {x2} {x3} {x4} (h0' : Sound p x4) :
    ∃ t, execMigrateExport x0 x1 x2 x3 x4 = .next t ∧ Sound p t := by
  refine ⟨_, rfl, ?_⟩
  refine takeCmd_keeps ?_ h0'
  intro a5 a6 a7 a8 h9
  exact bodyMigrateExport_keeps h9

theorem execMigrateImport_keeps {p} {x0} {x1} {x2} {x3} {x4} (h0' : Sound p x4) :
    ∃ t, execMigrateImport x0 x1 x2 x3 x4 = .next t ∧ Sound p t := by
  refine ⟨_, rfl, ?_⟩
  refine takeCmd_keeps ?_ h0'
  intro a5 a6 a7 a8 h9
  exact bodyMigrateImport_keeps h9

theorem execMigrateFinish_keeps {p} {x0} {x1} {x2} {x3} {x4} (h0' : Sound p x4) :
    ∃ t, execMigrateFinish x0 x1 x2 x3 x4 = .next t ∧ Sound p t := by
  refine ⟨_, rfl, ?_⟩
  refine takeCmd_keeps ?_ h0'
  intro a5 a6 a7 a8 h9
  exact bodyMigrateFinish_keeps h9

theorem execMigrateAbort_keeps {p} {x0} {x1} {x2} {x3} {x4} (h0' : Sound p x4) :
    ∃ t, execMigrateAbort x0 x1 x2 x3 x4 = .next t ∧ Sound p t := by
  refine ⟨_, rfl, ?_⟩
  refine takeCmd_keeps ?_ h0'
  intro a5 a6 a7 a8 h9
  exact bodyMigrateAbort_keeps h9

theorem execHandoffOffer_keeps {p} {x0} {x1} {x2} {x3} {x4} (h0' : Sound p x4) :
    ∃ t, execHandoffOffer x0 x1 x2 x3 x4 = .next t ∧ Sound p t := by
  refine ⟨_, rfl, ?_⟩
  refine takeCmd_keeps ?_ h0'
  intro a5 a6 a7 a8 h9
  exact bodyHandoffOffer_keeps h9

theorem execHandoffLanding_keeps {p} {x0} {x1} {x2} {x3} {x4} (h0' : Sound p x4) :
    ∃ t, execHandoffLanding x0 x1 x2 x3 x4 = .next t ∧ Sound p t := by
  refine ⟨_, rfl, ?_⟩
  refine takeCmd_keeps ?_ h0'
  intro a5 a6 a7 a8 h9
  exact bodyHandoffLanding_keeps h9

theorem execHandoffAbandon_keeps {p} {x0} {x1} {x2} {x3} {x4} (h0' : Sound p x4) :
    ∃ t, execHandoffAbandon x0 x1 x2 x3 x4 = .next t ∧ Sound p t := by
  refine ⟨_, rfl, ?_⟩
  refine takeCmd_keeps ?_ h0'
  intro a5 a6 a7 a8 h9
  exact bodyHandoffAbandon_keeps h9

theorem execMeterConfig_keeps {p} {x0} {x1} {x2} {x3} {x4} (h0' : Sound p x4) :
    ∃ t, execMeterConfig x0 x1 x2 x3 x4 = .next t ∧ Sound p t := by
  refine ⟨_, rfl, ?_⟩
  refine takeCmd_keeps ?_ h0'
  intro a5 a6 a7 a8 h9
  exact bodyMeterConfig_keeps h9

theorem execNop_keeps {p} {x0} {x1} {x2} {x3} {x4} (h0' : Sound p x4) :
    ∃ t, execNop x0 x1 x2 x3 x4 = .next t ∧ Sound p t := by
  refine ⟨_, rfl, ?_⟩
  refine takeCmd_keeps ?_ h0'
  intro a5 a6 a7 a8 h9
  exact bodyNop_keeps h9

theorem execCtxCreate_keeps {p} {x0} {x1} {x2} {x3} {x4} (h0' : Sound p x4) :
    ∃ t, execCtxCreate x0 x1 x2 x3 x4 = .next t ∧ Sound p t := by
  refine ⟨_, rfl, ?_⟩
  refine takeCmd_keeps ?_ h0'
  intro a5 a6 a7 a8 h9
  exact bodyCtxCreate_keeps h9

theorem execCtxAbandon_keeps {p} {x0} {x1} {x2} {x3} {x4} (h0' : Sound p x4) :
    ∃ t, execCtxAbandon x0 x1 x2 x3 x4 = .next t ∧ Sound p t := by
  refine ⟨_, rfl, ?_⟩
  refine takeCmd_keeps ?_ h0'
  intro a5 a6 a7 a8 h9
  exact bodyCtxAbandon_keeps h9

theorem execCtxClose_keeps {p} {x0} {x1} {x2} {x3} {x4} (h0' : Sound p x4) :
    ∃ t, execCtxClose x0 x1 x2 x3 x4 = .next t ∧ Sound p t := by
  refine ⟨_, rfl, ?_⟩
  refine takeCmd_keeps ?_ h0'
  intro a5 a6 a7 a8 h9
  exact bodyCtxClose_keeps h9

theorem execQueueCreate_keeps {p} {x0} {x1} {x2} {x3} {x4} (h0' : Sound p x4) :
    ∃ t, execQueueCreate x0 x1 x2 x3 x4 = .next t ∧ Sound p t := by
  refine ⟨_, rfl, ?_⟩
  refine takeCmd_keeps ?_ h0'
  intro a5 a6 a7 a8 h9
  exact bodyQueueCreate_keeps h9

theorem execQueueDestroy_keeps {p} {x0} {x1} {x2} {x3} {x4} (h0' : Sound p x4) :
    ∃ t, execQueueDestroy x0 x1 x2 x3 x4 = .next t ∧ Sound p t := by
  refine ⟨_, rfl, ?_⟩
  refine takeCmd_keeps ?_ h0'
  intro a5 a6 a7 a8 h9
  exact bodyQueueDestroy_keeps h9

theorem execObjAlloc_keeps {p} {x0} {x1} {x2} {x3} {x4} (h0' : Sound p x4) :
    ∃ t, execObjAlloc x0 x1 x2 x3 x4 = .next t ∧ Sound p t := by
  refine ⟨_, rfl, ?_⟩
  refine takeCmd_keeps ?_ h0'
  intro a5 a6 a7 a8 h9
  exact bodyObjAlloc_keeps h9

theorem execObjFree_keeps {p} {x0} {x1} {x2} {x3} {x4} (h0' : Sound p x4) :
    ∃ t, execObjFree x0 x1 x2 x3 x4 = .next t ∧ Sound p t := by
  refine ⟨_, rfl, ?_⟩
  refine takeCmd_keeps ?_ h0'
  intro a5 a6 a7 a8 h9
  exact bodyObjFree_keeps h9

theorem execObjShare_keeps {p} {x0} {x1} {x2} {x3} {x4} (h0' : Sound p x4) :
    ∃ t, execObjShare x0 x1 x2 x3 x4 = .next t ∧ Sound p t := by
  refine ⟨_, rfl, ?_⟩
  refine takeCmd_keeps ?_ h0'
  intro a5 a6 a7 a8 h9
  exact bodyObjShare_keeps h9

theorem execObjQuery_keeps {p} {x0} {x1} {x2} {x3} {x4} (h0' : Sound p x4) :
    ∃ t, execObjQuery x0 x1 x2 x3 x4 = .next t ∧ Sound p t := by
  refine ⟨_, rfl, ?_⟩
  refine takeCmd_keeps ?_ h0'
  intro a5 a6 a7 a8 h9
  exact bodyObjQuery_keeps h9

theorem execFenceAlloc_keeps {p} {x0} {x1} {x2} {x3} {x4} (h0' : Sound p x4) :
    ∃ t, execFenceAlloc x0 x1 x2 x3 x4 = .next t ∧ Sound p t := by
  refine ⟨_, rfl, ?_⟩
  refine takeCmd_keeps ?_ h0'
  intro a5 a6 a7 a8 h9
  exact bodyFenceAlloc_keeps h9

theorem execFenceFree_keeps {p} {x0} {x1} {x2} {x3} {x4} (h0' : Sound p x4) :
    ∃ t, execFenceFree x0 x1 x2 x3 x4 = .next t ∧ Sound p t := by
  refine ⟨_, rfl, ?_⟩
  refine takeCmd_keeps ?_ h0'
  intro a5 a6 a7 a8 h9
  exact bodyFenceFree_keeps h9

theorem execFenceShare_keeps {p} {x0} {x1} {x2} {x3} {x4} (h0' : Sound p x4) :
    ∃ t, execFenceShare x0 x1 x2 x3 x4 = .next t ∧ Sound p t := by
  refine ⟨_, rfl, ?_⟩
  refine takeCmd_keeps ?_ h0'
  intro a5 a6 a7 a8 h9
  exact bodyFenceShare_keeps h9

theorem execFenceRelease_keeps {p} {x0} {x1} {x2} {x3} {x4} (h0' : Sound p x4) :
    ∃ t, execFenceRelease x0 x1 x2 x3 x4 = .next t ∧ Sound p t := by
  refine ⟨_, rfl, ?_⟩
  refine takeCmd_keeps ?_ h0'
  intro a5 a6 a7 a8 h9
  exact bodyFenceRelease_keeps h9

theorem execFenceQuery_keeps {p} {x0} {x1} {x2} {x3} {x4} (h0' : Sound p x4) :
    ∃ t, execFenceQuery x0 x1 x2 x3 x4 = .next t ∧ Sound p t := by
  refine ⟨_, rfl, ?_⟩
  refine takeCmd_keeps ?_ h0'
  intro a5 a6 a7 a8 h9
  exact bodyFenceQuery_keeps h9

theorem execWorkBegin_keeps {p} {x0} {x1} {x2} {x3} {x4} (h0' : Sound p x4) :
    ∃ t, execWorkBegin x0 x1 x2 x3 x4 = .next t ∧ Sound p t := by
  refine ⟨_, rfl, ?_⟩
  refine takeCmd_keeps ?_ h0'
  intro a5 a6 a7 a8 h9
  exact bodyWorkBegin_keeps h9

theorem execWorkEnd_keeps {p} {x0} {x1} {x2} {x3} {x4} (h0' : Sound p x4) :
    ∃ t, execWorkEnd x0 x1 x2 x3 x4 = .next t ∧ Sound p t := by
  refine ⟨_, rfl, ?_⟩
  refine takeCmd_keeps ?_ h0'
  intro a5 a6 a7 a8 h9
  exact bodyWorkEnd_keeps h9

theorem execWorkLimitTimeout_keeps {p} {x0} {x1} {x2} (h0' : Sound p x2) :
    ∃ t, execWorkLimitTimeout x0 x1 x2 = .next t ∧ Sound p t := by
  refine ⟨_, rfl, ?_⟩
  refine ite_keeps (K := Sound p) (fun _ => ?_) (fun _ => ?_)
  · exact workTimeout_keeps h0'
  · exact h0'

theorem execFaultClear_keeps {p} {x0} {x1} {x2} {x3} {x4} (h0' : Sound p x4) :
    ∃ t, execFaultClear x0 x1 x2 x3 x4 = .next t ∧ Sound p t := by
  refine ⟨_, rfl, ?_⟩
  refine takeCmd_keeps ?_ h0'
  intro a5 a6 a7 a8 h9
  exact bodyFaultClear_keeps h9

theorem execFaultThreshold_keeps {p} {x0} {x1} {x2} {x3} {x4} (h0' : Sound p x4) :
    ∃ t, execFaultThreshold x0 x1 x2 x3 x4 = .next t ∧ Sound p t := by
  refine ⟨_, rfl, ?_⟩
  refine takeCmd_keeps ?_ h0'
  intro a5 a6 a7 a8 h9
  exact bodyFaultThreshold_keeps h9

theorem execHedgehogPolicy_keeps {p} {x0} {x1} {x2} {x3} {x4} (h0' : Sound p x4) :
    ∃ t, execHedgehogPolicy x0 x1 x2 x3 x4 = .next t ∧ Sound p t := by
  refine ⟨_, rfl, ?_⟩
  refine takeCmd_keeps ?_ h0'
  intro a5 a6 a7 a8 h9
  exact bodyHedgehogPolicy_keeps h9

theorem execFaultInject_keeps {p} {x0} {x1} {x2} {x3} {x4} (h0' : Sound p x4) :
    ∃ t, execFaultInject x0 x1 x2 x3 x4 = .next t ∧ Sound p t := by
  refine ⟨_, rfl, ?_⟩
  refine takeCmd_keeps ?_ h0'
  intro a5 a6 a7 a8 h9
  exact bodyFaultInject_keeps h9

theorem execStopWave_keeps {p} {x0} {x1} {x2} {x3} {x4} (h0' : Sound p x4) :
    ∃ t, execStopWave x0 x1 x2 x3 x4 = .next t ∧ Sound p t := by
  refine ⟨_, rfl, ?_⟩
  refine takeCmd_keeps ?_ h0'
  intro a5 a6 a7 a8 h9
  exact bodyStopWave_keeps h9

theorem execStopResume_keeps {p} {x0} {x1} {x2} {x3} {x4} (h0' : Sound p x4) :
    ∃ t, execStopResume x0 x1 x2 x3 x4 = .next t ∧ Sound p t := by
  refine ⟨_, rfl, ?_⟩
  refine takeCmd_keeps ?_ h0'
  intro a5 a6 a7 a8 h9
  exact bodyStopResume_keeps h9

theorem execStopRecords_keeps {p} {x0} {x1} {x2} {x3} {x4} (h0' : Sound p x4) :
    ∃ t, execStopRecords x0 x1 x2 x3 x4 = .next t ∧ Sound p t := by
  refine ⟨_, rfl, ?_⟩
  refine takeCmd_keeps ?_ h0'
  intro a5 a6 a7 a8 h9
  exact bodyStopRecords_keeps h9

theorem execResetStation_keeps {p} {x0} {x1} {x2} {x3} {x4} (h0' : Sound p x4) :
    ∃ t, execResetStation x0 x1 x2 x3 x4 = .next t ∧ Sound p t := by
  refine ⟨_, rfl, ?_⟩
  refine takeCmd_keeps ?_ h0'
  intro a5 a6 a7 a8 h9
  exact bodyResetStation_keeps h9

theorem execResetWarm_keeps {p} {x0} {x1} {x2} {x3} {x4} (h0' : Sound p x4) :
    ∃ t, execResetWarm x0 x1 x2 x3 x4 = .next t ∧ Sound p t := by
  refine ⟨_, rfl, ?_⟩
  refine takeCmd_keeps ?_ h0'
  intro a5 a6 a7 a8 h9
  exact bodyResetWarm_keeps h9

theorem execResetNonce_keeps {p} {x0} {x1} {x2} {x3} {x4} (h0' : Sound p x4) :
    ∃ t, execResetNonce x0 x1 x2 x3 x4 = .next t ∧ Sound p t := by
  refine ⟨_, rfl, ?_⟩
  refine takeCmd_keeps ?_ h0'
  intro a5 a6 a7 a8 h9
  exact bodyResetNonce_keeps h9

theorem execResetColdSigned_keeps {p} {x0} {x1} {x2} {x3} {x4} (h0' : Sound p x4) :
    ∃ t, execResetColdSigned x0 x1 x2 x3 x4 = .next t ∧ Sound p t := by
  refine ⟨_, rfl, ?_⟩
  refine takeCmd_keeps ?_ h0'
  intro a5 a6 a7 a8 h9
  exact bodyResetColdSigned_keeps h9

theorem execDumpConfig_keeps {p} {x0} {x1} {x2} {x3} {x4} (h0' : Sound p x4) :
    ∃ t, execDumpConfig x0 x1 x2 x3 x4 = .next t ∧ Sound p t := by
  refine ⟨_, rfl, ?_⟩
  refine takeCmd_keeps ?_ h0'
  intro a5 a6 a7 a8 h9
  exact bodyDumpConfig_keeps h9

theorem execDumpStart_keeps {p} {x0} {x1} {x2} {x3} {x4} (h0' : Sound p x4) :
    ∃ t, execDumpStart x0 x1 x2 x3 x4 = .next t ∧ Sound p t := by
  refine ⟨_, rfl, ?_⟩
  refine takeCmd_keeps ?_ h0'
  intro a5 a6 a7 a8 h9
  exact bodyDumpStart_keeps h9

theorem execLcNonce_keeps {p} {x0} {x1} {x2} {x3} {x4} (h0' : Sound p x4) :
    ∃ t, execLcNonce x0 x1 x2 x3 x4 = .next t ∧ Sound p t := by
  refine ⟨_, rfl, ?_⟩
  refine takeCmd_keeps ?_ h0'
  intro a5 a6 a7 a8 h9
  exact bodyLcNonce_keeps h9

theorem execLcTransition_keeps {p} {x0} {x1} {x2} {x3} {x4} (h0' : Sound p x4) :
    ∃ t, execLcTransition x0 x1 x2 x3 x4 = .next t ∧ Sound p t := by
  refine ⟨_, rfl, ?_⟩
  refine takeCmd_keeps ?_ h0'
  intro a5 a6 a7 a8 h9
  exact bodyLcTransition_keeps h9

theorem execLcStatus_keeps {p} {x0} {x1} {x2} {x3} {x4} (h0' : Sound p x4) :
    ∃ t, execLcStatus x0 x1 x2 x3 x4 = .next t ∧ Sound p t := by
  refine ⟨_, rfl, ?_⟩
  refine takeCmd_keeps ?_ h0'
  intro a5 a6 a7 a8 h9
  exact bodyLcStatus_keeps h9

theorem execDebugOpen_keeps {p} {x0} {x1} {x2} {x3} {x4} (h0' : Sound p x4) :
    ∃ t, execDebugOpen x0 x1 x2 x3 x4 = .next t ∧ Sound p t := by
  refine ⟨_, rfl, ?_⟩
  refine takeCmd_keeps ?_ h0'
  intro a5 a6 a7 a8 h9
  exact bodyDebugOpen_keeps h9

theorem execCounterClear_keeps {p} {x0} {x1} {x2} {x3} {x4} (h0' : Sound p x4) :
    ∃ t, execCounterClear x0 x1 x2 x3 x4 = .next t ∧ Sound p t := by
  refine ⟨_, rfl, ?_⟩
  refine takeCmd_keeps ?_ h0'
  intro a5 a6 a7 a8 h9
  exact bodyCounterClear_keeps h9

theorem execProfileBind_keeps {p} {x0} {x1} {x2} {x3} {x4} (h0' : Sound p x4) :
    ∃ t, execProfileBind x0 x1 x2 x3 x4 = .next t ∧ Sound p t := by
  refine ⟨_, rfl, ?_⟩
  refine takeCmd_keeps ?_ h0'
  intro a5 a6 a7 a8 h9
  exact bodyProfileBind_keeps h9

theorem execTraceConfig_keeps {p} {x0} {x1} {x2} {x3} {x4} (h0' : Sound p x4) :
    ∃ t, execTraceConfig x0 x1 x2 x3 x4 = .next t ∧ Sound p t := by
  refine ⟨_, rfl, ?_⟩
  refine takeCmd_keeps ?_ h0'
  intro a5 a6 a7 a8 h9
  exact bodyTraceConfig_keeps h9

theorem execTraceRing_keeps {p} {x0} {x1} {x2} {x3} {x4} (h0' : Sound p x4) :
    ∃ t, execTraceRing x0 x1 x2 x3 x4 = .next t ∧ Sound p t := by
  refine ⟨_, rfl, ?_⟩
  refine takeCmd_keeps ?_ h0'
  intro a5 a6 a7 a8 h9
  exact bodyTraceRing_keeps h9

theorem execImageUpdate_keeps {p} {x0} {x1} {x2} {x3} {x4} (h0' : Sound p x4) :
    ∃ t, execImageUpdate x0 x1 x2 x3 x4 = .next t ∧ Sound p t := by
  refine ⟨_, rfl, ?_⟩
  refine takeCmd_keeps ?_ h0'
  intro a5 a6 a7 a8 h9
  exact bodyImageUpdate_keeps h9

theorem execImageStatus_keeps {p} {x0} {x1} {x2} {x3} {x4} (h0' : Sound p x4) :
    ∃ t, execImageStatus x0 x1 x2 x3 x4 = .next t ∧ Sound p t := by
  refine ⟨_, rfl, ?_⟩
  refine takeCmd_keeps ?_ h0'
  intro a5 a6 a7 a8 h9
  exact bodyImageStatus_keeps h9

theorem execLogRead_keeps {p} {x0} {x1} {x2} {x3} {x4} (h0' : Sound p x4) :
    ∃ t, execLogRead x0 x1 x2 x3 x4 = .next t ∧ Sound p t := by
  refine ⟨_, rfl, ?_⟩
  refine takeCmd_keeps ?_ h0'
  intro a5 a6 a7 a8 h9
  exact bodyLogRead_keeps h9

theorem execCurrentLimitRelease_keeps {p} {x0} (h0' : Sound p x0) :
    ∃ t, execCurrentLimitRelease x0 = .next t ∧ Sound p t := by
  refine ⟨_, rfl, ?_⟩
  exact limitRelease_keeps h0'

theorem execBoostBudgetBinEnd_keeps {p} {x0} (h0' : Sound p x0) :
    ∃ t, execBoostBudgetBinEnd x0 = .next t ∧ Sound p t := by
  refine ⟨_, rfl, ?_⟩
  exact binEnd_keeps h0'

theorem execPlainRegionDrainCut_keeps {p} {x0} {x1} (h0' : Sound p x1) :
    ∃ t, execPlainRegionDrainCut x0 x1 = .next t ∧ Sound p t := by
  refine ⟨_, rfl, ?_⟩
  refine ite_keeps (K := Sound p) (fun _ => ?_) (fun _ => ?_)
  · exact plainCut_keeps h0'
  · exact h0'

theorem execEventLogEntryWritten_keeps {p} {x0} (h0' : Sound p x0) :
    ∃ t, execEventLogEntryWritten x0 = .next t ∧ Sound p t := by
  refine ⟨_, rfl, ?_⟩
  refine ite_keeps (K := Sound p) (fun _ => ?_) (fun _ => ?_)
  · exact logWrite_keeps h0'
  · exact h0'

theorem execRingReadOffsetAdvance_keeps {p} {x0} {x1} {x2} (h0' : Sound p x2) :
    ∃ t, execRingReadOffsetAdvance x0 x1 x2 = .next t ∧ Sound p t := by
  refine ⟨_, rfl, ?_⟩
  exact ringAdvance_keeps h0'

/-! ### The invariant as the statements name it -/

theorem sound_of_canon {s : State} {p : List Instr} (h : s.canon = true) (hp : s.pending = p) : Sound p s := by
  unfold State.canon at h
  simp only [Bool.and_eq_true_iff] at h
  constructor <;> first | exact hp | simp only [h]

theorem canon_of_sound {s : State} {p : List Instr} (h : Sound p s) : s.canon = true ∧ s.pending = p := by
  refine ⟨?_, h.pending⟩
  unfold State.canon
  simp only [h.ctrs, h.mem, h.link, h.keys, h.parts, h.objs, h.ctxs, h.queues, h.fences, h.accs, h.arrivals, h.users, h.opTab,
    h.doms, h.migs, h.rings, h.profs, Bool.and_self]

end Sys2Proof.Machine
end

