-- ==== Sys2Proof/Laws/Stations.lean ====
section
/-! SUPPORT. What the stations' shared operations can do: reports, meters, counters, sending a packet, links, interfaces and streams. -/

namespace Sys2Proof.Machine
open Sys2Proof Sys2Proof.Crypto

theorem word_ack (u : Nat) (v : BitVec 4) (s : State) (i : Nat) (hu : isUnit u = true) : (acknowledge u v s).word i =
    if i = u then { s.word u with unack := (s.word u).unack &&& ~~~v, uncleared := (s.word u).uncleared &&& ~~~(v &&& 1#4) } else s.word i := by
  unfold acknowledge State.word
  rw [if_neg (by simp [hu])]
  unfold tget
  rw [tfind_tmap]
  by_cases h : i = u
  · subst h
    cases tfind s.flt.words i <;> simp
  · rw [if_neg h]
    cases tfind s.flt.words i <;> simp [h]

theorem onPort_keep (u : Nat) (f : Port → Port) (s : State) : (s.onPort u f).taken = s.taken ∧ (s.onPort u f).epoch = s.epoch ∧ (s.onPort u f).slices = s.slices := by
  unfold State.onPort
  split
  · exact ⟨rfl, rfl, rfl⟩
  · split <;> exact ⟨rfl, rfl, rfl⟩

theorem onEvery_only' (f : Port → Port) (s : State) : ∃ m l h, onEveryPort f s = { s with mem := m, link := l, host := h } := by
  unfold onEveryPort
  refine each_inv (fun u => ∃ m l h, u = { s with mem := m, link := l, host := h }) _ _ ?_ _ ⟨s.mem, s.link, s.host, rfl⟩
  rintro a u ⟨m, l, h, rfl⟩
  obtain ⟨m', l', h', g⟩ := onPort_only a f { s with mem := m, link := l, host := h }
  exact ⟨_, _, _, g⟩

theorem onEvery_port' (f : Port → Port) (s : State) (u : Nat) (hu : u ∈ stationIds) : (onEveryPort f s).port u = f (s.port u) := by
  unfold onEveryPort
  rw [each_port stationIds stationIds_nodup (fun u => station_of_mem) (fun _ => f) s u (station_of_mem hu), if_pos hu]

/-- only counters, events and emissions have moved -/
def Quiet (s t : State) : Prop := ∃ k x b l, t = { s with ctrs := k, ctxs := x, keep := { s.keep with pba := b }, out := l ++ s.out }

theorem Quiet.refl (s : State) : Quiet s s := ⟨s.ctrs, s.ctxs, s.keep.pba, [], rfl⟩

theorem Quiet.trans {s t u : State} (h : Quiet s t) (g : Quiet t u) : Quiet s u := by
  obtain ⟨k, x, b, l, rfl⟩ := h
  obtain ⟨k', x', b', m, rfl⟩ := g
  exact ⟨k', x', b', m ++ l, by dsimp only; rw [List.append_assoc]⟩

theorem Quiet.emit (o : Out) (s : State) : Quiet s (emit o s) := ⟨s.ctrs, s.ctxs, s.keep.pba, [o], rfl⟩

theorem Quiet.ctrs (k : Tab Counters) (s : State) : Quiet s { s with ctrs := k } := ⟨k, s.ctxs, s.keep.pba, [], rfl⟩

theorem Quiet.event (c cookie type code subject : Nat) (s : State) : Quiet s (raiseEvent c cookie type code subject s) := by
  obtain ⟨k, x, b, l, h, -, -⟩ := raiseEvent_only c cookie type code subject s
  exact ⟨k, x, b, l, h⟩

theorem Quiet.bump (u w n : Nat) (s : State) : Quiet s (bump u w n s) := by
  unfold Machine.bump
  dsimp only
  split
  · split
    · exact (Quiet.ctrs _ _).trans (Quiet.event ..)
    · exact Quiet.ctrs _ _
  · exact Quiet.ctrs _ _

/-- memory stands and what was emitted still stands emitted -/
def Kept (s t : State) : Prop := t.mem = s.mem ∧ t.objs = s.objs ∧ t.profs = s.profs ∧ ∃ l, t.out = l ++ s.out

theorem Kept.refl (s : State) : Kept s s := ⟨rfl, rfl, rfl, [], rfl⟩

theorem Kept.trans {s t u : State} (h : Kept s t) (g : Kept t u) : Kept s u := by
  obtain ⟨h1, h2, h4, l, h3⟩ := h
  obtain ⟨g1, g2, g4, m, g3⟩ := g
  exact ⟨g1.trans h1, g2.trans h2, g4.trans h4, m ++ l, by rw [g3, h3]; simp⟩

theorem Quiet.kept {s t : State} (h : Quiet s t) : Kept s t := by
  obtain ⟨k, x, b, l, rfl⟩ := h
  exact ⟨rfl, rfl, rfl, l, rfl⟩

theorem Kept.meter (part i n : Nat) (s : State) : Kept s (addMeter part i n s) := by
  unfold addMeter
  dsimp only
  split
  · exact .refl s
  · split
    · refine Kept.trans ?_ (Quiet.event ..).kept
      exact ⟨rfl, rfl, rfl, [], rfl⟩
    · exact ⟨rfl, rfl, rfl, [], rfl⟩

theorem Kept.out {s t : State} (h : Kept s t) {o : Out} (ho : o ∈ s.out) : o ∈ t.out := by
  obtain ⟨-, -, -, l, h⟩ := h
  rw [h]; exact List.mem_append_right _ ho

theorem Kept.memSt {s t : State} (h : Kept s t) (st : Nat) : t.memSt st = s.memSt st := by unfold State.memSt; rw [h.1]

theorem Kept.obj {s t : State} (h : Kept s t) (i : Nat) : t.obj i = s.obj i := by unfold State.obj; rw [h.2.1]

theorem profCount_none {u part fence layer oper : Nat} {adds : List Nat} {s : State} (h : ∀ p ∈ s.profs, p.2.fence ≠ fence) :
    profCount u part fence layer oper adds s = s := by
  unfold profCount
  rw [List.filter_eq_nil_iff.mpr (fun p hp => ?_)]
  · rfl
  · simp [h p hp]

theorem Kept.host (H : HostSt) (s : State) : Kept s { s with host := H } := ⟨rfl, rfl, rfl, [], rfl⟩

theorem onPort_host (f : Port → Port) (s : State) : s.onPort Config.hostId f = { s with host := { s.host with port := f s.host.port } } := by
  unfold State.onPort; rw [if_neg (by decide), if_neg (by decide)]

theorem Kept.askHost (slot gen : Nat) (s : State) : Kept s (askKey Config.hostId slot gen s).2 := by
  unfold askKey
  dsimp only
  simp only [onPort_host]
  split
  · exact Kept.host ..
  · split
    · exact .refl s
    · exact Kept.host ..

theorem Kept.answer (a : HostAns) (s : State) : Kept s (hostAnswer a s).2 := by
  unfold hostAnswer
  split
  · exact .refl s
  · split
    · exact (Quiet.emit _ _).kept
    · split
      · exact .refl s
      · rename_i slot gen _
        have h := Kept.askHost slot gen s
        split
        · rename_i g; rw [g] at h; exact h
        · rename_i g; rw [g] at h; exact h.trans (((Quiet.bump ..).kept.trans (Kept.meter ..)).trans (Quiet.emit _ _).kept)

theorem Kept.ackOrigin (r : MReq) (code : Nat) (data : Bytes) (s : State) : Kept s (ackOrigin r code data s) := by
  unfold Machine.ackOrigin
  split
  · exact ⟨rfl, rfl, rfl, [], rfl⟩
  · split
    · exact ⟨rfl, rfl, rfl, [], rfl⟩
    · split
      · exact ⟨rfl, rfl, rfl, [], rfl⟩
      · split
        · split
          · exact .refl s
          · rename_i iface stream _
            dsimp only
            generalize hz : ({ s with host := _ } : State) = z
            have hz : Kept s z := by rw [← hz]; exact Kept.host ..
            split
            · exact hz
            · have h := Kept.answer { iface := iface, tag := r.tag, part := r.part, stream := stream, data := data } z
              split
              · rename_i g; rw [g] at h; exact hz.trans h
              · rename_i g; rw [g] at h; exact (hz.trans h).trans (Kept.host ..)
        · exact .refl s

/-- the profile sets stand and what was emitted still stands emitted -/
def Grows (s t : State) : Prop := t.profs = s.profs ∧ ∃ l, t.out = l ++ s.out

theorem Grows.trans {s t u : State} (h : Grows s t) (g : Grows t u) : Grows s u := by
  obtain ⟨h1, l, h2⟩ := h
  obtain ⟨g1, m, g2⟩ := g
  exact ⟨g1.trans h1, m ++ l, by rw [g2, h2]; simp⟩

theorem Grows.out {s t : State} (h : Grows s t) {o : Out} (ho : o ∈ s.out) : o ∈ t.out := by
  obtain ⟨-, l, h⟩ := h
  rw [h]; exact List.mem_append_right _ ho

theorem Kept.grows {s t : State} (h : Kept s t) : Grows s t := ⟨h.2.2.1, h.2.2.2⟩

theorem Grows.onMem (st : Nat) (f : MemSt → MemSt) (s : State) : Grows s (s.onMem st f) := ⟨rfl, [], rfl⟩

theorem Grows.dropReq (st acc : Nat) (s : State) : Grows s (dropReq st acc s) := Grows.onMem ..

theorem Grows.count (st d i n : Nat) (s : State) : Grows s (accCount st d i n s) := by
  unfold accCount
  dsimp only
  split
  · exact (Grows.onMem ..).trans (Quiet.event ..).kept.grows
  · exact Grows.onMem ..

theorem Grows.refused (st : Nat) (r : MReq) (s : State) : Grows s (countRefused st r s) := by
  unfold countRefused
  split
  · exact Grows.count ..
  · exact ⟨rfl, [], rfl⟩

theorem kept_fence (i part code : Nat) (d : BitVec 128) (s : State) : Kept s (fenceReport i part code d s) := by
  have : ∀ s : State, ∀ F, Kept s { s with fences := F } := fun s F => ⟨rfl, rfl, rfl, [], rfl⟩
  unfold fenceReport
  dsimp only
  repeat' (first | exact Kept.refl _ | split | exact this _ _)

theorem onPort_out (u : Nat) (f : Port → Port) (s : State) : (s.onPort u f).out = s.out ∧ (s.onPort u f).profs = s.profs ∧ (s.onPort u f).fences = s.fences ∧ (s.onPort u f).objs = s.objs := by
  unfold State.onPort
  split
  · exact ⟨rfl, rfl, rfl, rfl⟩
  · split <;> exact ⟨rfl, rfl, rfl, rfl⟩

theorem Grows.prof {u part fence layer oper : Nat} {adds : List Nat} (s : State) : Grows s (profCount u part fence layer oper adds s) := by
  unfold profCount
  refine each_inv (fun t => Grows s t) _ _ ?_ _ ⟨rfl, [], rfl⟩
  intro a t ht
  refine ht.trans ?_
  exact ⟨(onPort_out ..).2.1, [], (onPort_out ..).1⟩

theorem onPort_mem {st : Nat} (hm : isMem st = true) (f : Port → Port) (s : State) : s.onPort st f = s.onMem st fun m => { m with port := f m.port } := by
  unfold State.onPort; rw [if_pos hm]

theorem port_mem {st : Nat} (hm : isMem st = true) (s : State) : s.port st = (s.memSt st).port := by
  unfold State.port; rw [if_pos hm]

theorem refuseReq_answers {st : Nat} {r : MReq} {step code : Nat} {s : State} (h : step = 1) :
    Out.rfin st r.origin r.tag 16 code ∈ (refuseReq st r step code s).out ∧ ∀ x ∈ ((refuseReq st r step code s).memSt st).reqs, x.acc ≠ r.acc := by
  subst h
  unfold refuseReq
  dsimp only
  rw [if_neg (by omega)]
  constructor
  · refine (Grows.dropReq ..).out ((Kept.ackOrigin ..).out ((Grows.refused ..).out ((Grows.prof _).out ?_)))
    exact List.mem_cons_self ..
  · intro x hx
    unfold dropReq at hx
    rw [memSt_onMem] at hx
    simp at hx
    exact hx.2

theorem kindOf_good {k origin req data} (h : requestBad (rowOf k origin req data) = false) : (rowOf k origin req data).kind = k := by
  unfold rowOf rowReq at h ⊢
  generalize (if k ≤ 2 then ([] : Bytes) else data) = d at *
  dsimp only at h ⊢
  by_cases g : (memReq origin req d).kind = k
  · rw [if_pos g]; exact g
  · rw [if_neg g] at h
    exact absurd (show requestBad { memReq origin req d with kind := 0 } = true from rfl) (by rw [h]; decide)

theorem row_intake {k row} (h : (k, row) ∈ memRows) (st origin req data) (s : State) :
    exec (row st origin req data) s = .next (intake st (rowOf k origin req data) s) := by
  simp only [memRows, List.mem_cons, List.not_mem_nil, or_false, Prod.mk.injEq] at h
  rcases h with ⟨rfl, rfl⟩ | ⟨rfl, rfl⟩ | ⟨rfl, rfl⟩ | ⟨rfl, rfl⟩ | ⟨rfl, rfl⟩ <;> rfl

def stamp (n now : Nat) (r : MReq) : MReq := { r with acc := n, born := now }

def waitDesc (r : MReq) : MReq := { r with stage := 9 }

/-- the state in which a request taken in is checked -/
def counted (st : Nat) (r : MReq) (s : State) : State :=
  profCount st r.part r.fence r.layer r.oper [1] (bump st 2 1 (s.onPort st fun p => { p with intake := ((s.port st).intake + 1) % 2 ^ 32, lastTag := r.tag }))

def joins (st : Nat) (r : MReq) (s : State) : State := s.onMem st fun m => { m with reqs := m.reqs ++ [r] }

def joinsHit (st : Nat) (r : MReq) (s : State) : State :=
  s.onMem st fun m => { m with reqs := m.reqs ++ [r], descs := handleIdx r.handle.toNat :: without m.descs (handleIdx r.handle.toNat) }

/-- Everything that the intake of a request can do. -/
theorem intake_eq (st : Nat) (r : MReq) (s : State) : intake st r s =
    if !intakeOpen s st r.kind || decide (1024 ≤ (s.memSt st).reqs.length) then s
    else if requestBad (stamp ((s.port st).intake + 1) s.now r) then
      refuseReq st (stamp ((s.port st).intake + 1) s.now r) 1 yeDenied (joins st (stamp ((s.port st).intake + 1) s.now r) (counted st r s))
    else if ((counted st r s).memSt st).descs.contains (handleIdx r.handle.toNat) then
      checkAndGo st (stamp ((s.port st).intake + 1) s.now r) (joinsHit st (stamp ((s.port st).intake + 1) s.now r) (counted st r s))
    else bump st 15 1 (joins st (waitDesc (stamp ((s.port st).intake + 1) s.now r)) (counted st r s)) := rfl

def acct (s : State) (c : Tab Counters) (x : Tab Ctx) (b : List Nat) (l : List Out) (M : Tab MemSt) : State :=
  { s with ctrs := c, ctxs := x, keep := { s.keep with pba := b }, out := l, mem := M }

def took (s : State) (st i tag : Nat) (ds : List Nat) (q : List MReq) : MemSt :=
  { s.memSt st with port := { (s.memSt st).port with intake := i, lastTag := tag }, descs := ds, reqs := q }

theorem acct_mem (s : State) (c x b l) (st i tag : Nat) (ds q) : (acct s c x b l (tset s.mem st (took s st i tag ds q))).memSt st = took s st i tag ds q :=
  tget_tset_same ..

theorem isolation_congr {s : State} {st : Nat} {r : MReq} (a c' : Nat) (c x b l i tag ds q) :
    isolation (acct s c x b l (tset s.mem st (took s st i tag ds q))) st { r with acc := a, born := c' } = isolation s st r := by
  unfold isolation accCheck
  rw [acct_mem]
  rfl

/-- An accepted request at its version stage. -/
theorem accepted_advances {k row} (hk : (k, row) ∈ memRows) {st : Nat} (hm : isMem st = true) {s : State} {origin req data r o p}
    (h : Accepted k st origin req data s r o p) :
    ∃ t, exec (row st origin req data) s = .next (advance st r t).2 ∧ r.kind = k ∧ (t.memSt st).reqs = [r] ∧ r.stage = 0 ∧ r.locked = false ∧
      lockCount (t.memSt st) < 64 ∧
      ∃ c x b l i tag ds, t = acct s c x b (l ++ s.out) (tset s.mem st (took s st i tag ds [r])) := by
  obtain ⟨hrr, rfl, ho, hb, hp, hq, hd, hi, hpl, hlk, hls⟩ := h
  rw [show ({ rowOf k origin req data with acc := (s.port st).intake + 1, born := s.now } : MReq) = stamp ((s.port st).intake + 1) s.now (rowOf k origin req data) from rfl] at hrr
  subst hrr
  have hkind := kindOf_good (k := k) (origin := origin) (req := req) (data := data) hb
  rw [row_intake hk]
  generalize hr0 : rowOf k origin req data = r0 at *
  have hst : r0.stage = 0 ∧ r0.locked = false := by
    rw [← hr0]; unfold rowOf rowReq memReq; dsimp only; split <;> exact ⟨rfl, rfl⟩
  generalize hn : (s.port st).intake + 1 = n at *
  generalize hr : stamp n s.now r0 = r at *
  have hrf : r.fence = r0.fence := by rw [← hr]; rfl
  have hrh : r.handle = r0.handle := by rw [← hr]; rfl
  have hrk : r.kind = r0.kind := by rw [← hr]; rfl
  have hs0 : r.stage = 0 := by rw [← hr]; exact hst.1
  have hl0 : r.locked = false := by rw [← hr]; exact hst.2
  have hi0 : isolation s st r0 = (0, 0) := by rw [← hi, ← hr]; rfl
  have e1 : ∃ c x b l, bump st 2 1 (s.onPort st fun p => { p with intake := n % 2 ^ 32, lastTag := r0.tag }) =
      acct s c x b (l ++ s.out) (tset s.mem st (took s st (n % 2 ^ 32) r0.tag (s.memSt st).descs (s.memSt st).reqs)) := by
    rw [onPort_mem hm]
    obtain ⟨c, x, b, l, h⟩ := Quiet.bump st 2 1 (s.onMem st fun m => { m with port := { m.port with intake := n % 2 ^ 32, lastTag := r0.tag } })
    exact ⟨c, x, b, l, h⟩
  obtain ⟨c, x, b, l, e1⟩ := e1
  generalize hds : handleIdx r0.handle.toNat :: without (s.memSt st).descs (handleIdx r0.handle.toNat) = ds
  generalize hw : acct s c x b (l ++ s.out) (tset s.mem st (took s st (n % 2 ^ 32) r0.tag (s.memSt st).descs (s.memSt st).reqs)) = w at *
  have hM : w.memSt st = took s st (n % 2 ^ 32) r0.tag (s.memSt st).descs (s.memSt st).reqs := by rw [← hw]; exact acct_mem ..
  have hwp : w.profs = s.profs := by rw [← hw]; rfl
  generalize hu : acct s c x b (l ++ s.out) (tset s.mem st (took s st (n % 2 ^ 32) r0.tag ds [r])) = u
  have hru : u.memSt st = took s st (n % 2 ^ 32) r0.tag ds [r] := by rw [← hu]; exact acct_mem ..
  have e2 : joinsHit st r w = u := by
    unfold joinsHit State.onMem tupd
    have : tget {} w.mem st = w.memSt st := rfl
    rw [this, hM]
    have hwm : w.mem = tset s.mem st (took s st (n % 2 ^ 32) r0.tag (s.memSt st).descs (s.memSt st).reqs) := by rw [← hw]; rfl
    rw [hwm, tset_tset, ← hu, ← hw]
    unfold took
    dsimp only
    rw [hq, hrh, hds]
    rfl
  have hreq : (u.memSt st).reqs = [r] := by rw [hru]; rfl
  have hloc : (u.memSt st).locks = (s.memSt st).locks := by rw [hru]; rfl
  have hcount : lockCount (u.memSt st) < 64 := by unfold lockCount; rw [hreq, hloc]; simpa [hl0] using hlk
  have hint : intake st r0 s = checkAndGo st r u := by
    have hcw : counted st r0 s = w := by
      unfold counted
      rw [hn, e1, profCount_none (by rw [hwp, ← hrf]; exact hp)]
    rw [intake_eq, hn, hr, hcw, hb, hM, if_neg (by rw [← hrk, ho, hq]; decide), if_neg (by decide), ← hrh,
      if_pos (show (took s st (n % 2 ^ 32) r0.tag (s.memSt st).descs (s.memSt st).reqs).descs.contains (handleIdx r.handle.toNat) = true from hd), e2]
  rw [hint]
  refine ⟨u, congrArg Host.Outcome.next ?_, by rw [hrk]; exact hkind, hreq, hs0, hl0, hcount, c, x, b, l, _, _, ds, hu.symm⟩
  unfold checkAndGo
  have hiu : isolation u st r = (0, 0) := by
    rw [← hi0, ← hu, ← hr]
    exact isolation_congr (r := r0) n s.now ..
  rw [hiu]
  dsimp only
  rw [if_neg (by decide)]
  have hset : setReq st { r with stage := 0 } u = u := by
    have h0 : ({ r with stage := 0 } : MReq) = r := by rw [← hs0]
    rw [h0]
    unfold setReq State.onMem tupd
    have : tget {} u.mem st = u.memSt st := rfl
    rw [this]
    dsimp only
    rw [hreq]
    have hmem : u.mem = tset s.mem st (u.memSt st) := by rw [hru, ← hu]; rfl
    rw [hmem, tset_tset]
    simp only [List.map_cons, List.map_nil, if_true]
    have : ({ u.memSt st with reqs := [r] } : MemSt) = u.memSt st := by rw [← hreq]
    rw [this, ← hmem]
  have hheld : heldBack (u.memSt st) r = false := by
    unfold heldBack
    rw [hreq, hloc]
    have : ((s.memSt st).locks.any fun x => x.2 == r.pslot) = false := by
      rw [List.any_eq_false]; intro x hx; simpa using hls x hx
    rw [this]
    simp
  rw [hset]
  unfold pump each
  rw [hreq]
  simp only [List.foldl_cons, List.foldl_nil]
  rw [hreq, List.find?_cons_of_pos (by simp)]
  dsimp only
  rw [if_pos ⟨Or.inl hs0, by rw [hheld]; decide⟩]

/-- A request that needs no lock, or holds it, moves on. -/
theorem advance_free {st : Nat} {r : MReq} {s : State} {p : Place} (hp : placeOf (s.obj (handleIdx r.handle.toNat)) st = some p)
    (hk : r.kind ≠ 4 ∧ r.kind ≠ 5) : advance st r s = advanceLocked st r p s := by
  unfold advance
  rw [hp]
  dsimp only
  rw [if_neg (by rintro ⟨h | h, -⟩; exact hk.1 h; exact hk.2 h)]

/-- A write range and an accumulate take their lock. -/
theorem advance_locks {st : Nat} {r : MReq} {s : State} {p : Place} (hp : placeOf (s.obj (handleIdx r.handle.toNat)) st = some p)
    (hk : r.kind = 4 ∨ r.kind = 5) (hl : r.locked = false) (hn : lockCount (s.memSt st) < 64) :
    advance st r s = advanceLocked st { r with locked := true } p (setReq st { r with locked := true } s) := by
  unfold advance
  rw [hp]
  dsimp only
  rw [if_pos ⟨hk, hl⟩, if_neg (by omega)]

theorem adv1 {st : Nat} {r : MReq} {s : State} {p : Place} (hp : placeOf (s.obj (handleIdx r.handle.toNat)) st = some p) (hk : r.kind = 1)
    (hc : (s.obj (handleIdx r.handle.toNat)).cls ≠ 3) :
    advance st r s = advReadTile st r (s.obj (handleIdx r.handle.toNat)) p ((chanOf s r.pslot).2 - p.first) s := by
  rw [advance_free hp (by omega)]; unfold advanceLocked; rw [hk]; exact if_neg hc

theorem adv2 {st : Nat} {r : MReq} {s : State} {p : Place} (hp : placeOf (s.obj (handleIdx r.handle.toNat)) st = some p) (hk : r.kind = 2) :
    advance st r s = advSectors 17 st r (s.obj (handleIdx r.handle.toNat)) p ((chanOf s r.pslot).2 - p.first) s := by
  rw [advance_free hp (by omega)]; unfold advanceLocked; rw [hk]; rfl

theorem adv3 {st : Nat} {r : MReq} {s : State} {p : Place} (hp : placeOf (s.obj (handleIdx r.handle.toNat)) st = some p) (hk : r.kind = 3)
    (hc : (s.obj (handleIdx r.handle.toNat)).cls ≠ 3) :
    advance st r s = advWriteTile st r (handleIdx r.handle.toNat) (s.obj (handleIdx r.handle.toNat)) p ((chanOf s r.pslot).2 - p.first) s := by
  rw [advance_free hp (by omega)]; unfold advanceLocked; rw [hk]; exact if_neg hc

theorem adv4 {st : Nat} {r : MReq} {s : State} {p : Place} (hp : placeOf (s.obj (handleIdx r.handle.toNat)) st = some p) (hk : r.kind = 4)
    (h0 : r.stage = 0) (hl : r.locked = false) (hn : lockCount (s.memSt st) < 64) (hc : (s.obj (handleIdx r.handle.toNat)).cls = 4) :
    advance st r s = advPlainRange st { r with locked := true } (setReq st { r with locked := true } s) := by
  rw [advance_locks hp (.inl hk) hl hn]; unfold advanceLocked; dsimp only; rw [hk]
  have e : ((setReq st { r with locked := true } s).obj (handleIdx r.handle.toNat)).cls = 4 := hc
  exact ((if_neg (fun g => absurd (e.symm.trans g) (by decide))).trans (if_pos e)).trans (if_neg (fun g => absurd (h0.symm.trans g) (by decide)))

theorem adv5 {st : Nat} {r : MReq} {s : State} {p : Place} (hp : placeOf (s.obj (handleIdx r.handle.toNat)) st = some p) (hk : r.kind = 5)
    (h0 : r.stage = 0) (hl : r.locked = false) (hn : lockCount (s.memSt st) < 64) :
    advance st r s = advCoarse st { r with locked := true } (handleIdx r.handle.toNat) (s.obj (handleIdx r.handle.toNat)) p
      ((chanOf s r.pslot).2 - p.first) (setReq st { r with locked := true } s) := by
  rw [advance_locks hp (.inr hk) hl hn]; unfold advanceLocked; dsimp only; rw [hk]
  exact if_neg (fun g => absurd (h0.symm.trans g) (by decide))

theorem setReq_one {st : Nat} {r x : MReq} {s : State} (h : (s.memSt st).reqs = [r]) (hx : x.acc = r.acc) : ((setReq st x s).memSt st).reqs = [x] := by
  unfold setReq
  rw [memSt_onMem]
  dsimp only
  rw [h]
  simp [hx]

theorem issueRead_does {st n : Nat} {r : MReq} {s : State} {x : MReq} (h : (s.memSt st).reqs = [x]) (hx : r.acc = x.acc)
    (hp : ∀ p ∈ s.profs, p.2.fence ≠ r.fence) :
    Out.chanRead st r.acc (32 * r.hslot) 32 ∈ (issueRead st r n s).out ∧ (n ≠ 0 → Out.chanRead st r.acc (payAddr s r) n ∈ (issueRead st r n s).out) ∧
    ((issueRead st r n s).memSt st).reqs = [{ r with stage := 1, old := [] }] := by
  unfold issueRead
  extract_lets s1 s2 s3
  have h2 : s2.profs = s.profs ∧ s2.mem = s.mem := by
    show (if n = 0 then s1 else emit (.chanRead st r.acc (payAddr s1 r) n) s1).profs = s.profs ∧ (if n = 0 then s1 else emit (.chanRead st r.acc (payAddr s1 r) n) s1).mem = s.mem
    split <;> exact ⟨rfl, rfl⟩
  have h3 : s3 = s2 := profCount_none (by rw [h2.1]; exact hp)
  rw [h3]
  refine ⟨(Grows.onMem ..).out ((Quiet.bump ..).kept.out ?_), fun hn => (Grows.onMem ..).out ((Quiet.bump ..).kept.out ?_), ?_⟩
  · show _ ∈ (if n = 0 then s1 else emit (.chanRead st r.acc (payAddr s1 r) n) s1).out
    split
    · exact List.mem_cons_self ..
    · exact List.mem_cons_of_mem _ (List.mem_cons_self ..)
  · show _ ∈ (if n = 0 then s1 else emit (.chanRead st r.acc (payAddr s1 r) n) s1).out
    rw [if_neg hn]; exact List.mem_cons_self ..
  · refine setReq_one (r := x) ?_ hx
    rw [(Quiet.bump ..).kept.memSt]
    unfold State.memSt
    rw [h2.2]
    exact h

theorem Kept.meterReq (r : MReq) (i n : Nat) (s : State) : Kept s (meterReq r i n s) := by
  unfold Machine.meterReq
  split
  · exact .refl s
  · exact Kept.meter ..

theorem issueWrite_does {st a n k : Nat} {r : MReq} {pl hd : Bytes} {s : State} {x : MReq} (h : (s.memSt st).reqs = [x]) (hx : r.acc = x.acc)
    (hp : ∀ p ∈ s.profs, p.2.fence ≠ r.fence) :
    Out.chanWrite st r.acc a pl ∈ (issueWrite st r a n k pl hd s).out ∧
    ((issueWrite st r a n k pl hd s).memSt st).reqs = [{ r with stage := 3, committed := true, hdr := hd, data := [] }] := by
  unfold issueWrite
  extract_lets s1 u s2 s3
  have hk : Kept s1 s3 := by
    have q : Quiet s1 s2 := (((Quiet.bump st 4 1 s1).trans (Quiet.bump st 5 u _)).trans (Quiet.bump st 8 (pl.length + hd.length) _)).trans
      (Quiet.bump st 9 k _)
    have e : profCount st r.part r.fence r.layer r.oper [0, u, 0, k, pl.length + hd.length] s2 = s2 := profCount_none (by rw [q.kept.2.2.1]; exact hp)
    show Kept s1 (Machine.meterReq r 4 n (profCount st r.part r.fence r.layer r.oper [0, u, 0, k, pl.length + hd.length] s2))
    rw [e]
    exact q.kept.trans (Kept.meterReq ..)
  refine ⟨(Grows.onMem ..).out (hk.out (List.mem_cons_self ..)), setReq_one (r := x) ?_ hx⟩
  rw [hk.memSt]
  exact h

theorem pump_idle {st : Nat} {s : State} (h : (s.memSt st).reqs = []) : pump st s = s := by
  unfold pump each; rw [h]; rfl

theorem setReq_memSt_congr {st : Nat} {x : MReq} {u s : State} (h : u.memSt st = s.memSt st) :
    (setReq st x u).memSt st = (setReq st x s).memSt st := by
  unfold setReq; rw [memSt_onMem, memSt_onMem, h]

theorem obj_onKey (i j : Nat) (f : KeySlot → KeySlot) (s : State) : (s.onKey i f).obj j = s.obj j := rfl

theorem linkSt_mem (st : Nat) (f : LinkSt → LinkSt) (s : State) : (s.onLink st f).linkSt st = f (s.linkSt st) := linkSt_onLink ..

theorem onPort_link {st : Nat} (hl : isLink st = true) (f : Port → Port) (s : State) : s.onPort st f = s.onLink st fun l => { l with port := f l.port } := by
  have hm : isMem st = false := by
    unfold isLink at hl; unfold isMem
    simp only [Bool.and_eq_true, decide_eq_true_eq] at hl
    have : Config.memStations ≤ 128 := by decide
    simp; omega
  unfold State.onPort; rw [if_neg (by rw [hm]; decide), if_pos hl]

theorem port_link {st : Nat} (hl : isLink st = true) (s : State) : s.port st = (s.linkSt st).port := by
  have hm : isMem st = false := by
    unfold isLink at hl; unfold isMem
    simp only [Bool.and_eq_true, decide_eq_true_eq] at hl
    have : Config.memStations ≤ 128 := by decide
    simp; omega
  unfold State.port; rw [if_neg (by rw [hm]; decide), if_pos hl]

def onL (s : State) (st : Nat) (c : Tab Counters) (x : Tab Ctx) (b : List Nat) (l : List Out) (L : LinkSt) : State :=
  { s with ctrs := c, ctxs := x, keep := { s.keep with pba := b }, out := l, link := tset s.link st L }

theorem onL_linkSt (s : State) (st c x b l L) : (onL s st c x b l L).linkSt st = L := tget_tset_same ..

theorem onL_onLink (s : State) (st c x b l L) (f : LinkSt → LinkSt) : (onL s st c x b l L).onLink st f = onL s st c x b l (f L) := by
  unfold State.onLink tupd
  rw [show tget {} (onL s st c x b l L).link st = L from tget_tset_same ..]
  unfold onL
  dsimp only
  rw [tset_tset]

theorem onL_bump (s : State) (st c x b l L) (u w n : Nat) : ∃ c' x' b' l', bump u w n (onL s st c x b l L) = onL s st c' x' b' (l' ++ l) L := by
  obtain ⟨c', x', b', l', h⟩ := Quiet.bump u w n (onL s st c x b l L)
  exact ⟨c', x', b', l', h⟩

theorem onL_self (s : State) (st : Nat) : onL s st s.ctrs s.ctxs s.keep.pba s.out (s.linkSt st) = s.onLink st id := rfl

theorem linkCheck_congr (s : State) (st c x b l) (i tag : Nat) (w : List LReq) (r : LReq) (hw : w = (s.linkSt st).waiting) :
    linkCheck (onL s st c x b l { s.linkSt st with port := { (s.linkSt st).port with intake := i, lastTag := tag }, waiting := w }) st r =
      linkCheck s st r := by
  subst hw
  unfold linkCheck
  rw [onL_linkSt]
  rfl

def LK (st : Nat) (s t : State) : Prop :=
  (t.linkSt st).trackers = (s.linkSt st).trackers ∧ (t.linkSt st).waiting = (s.linkSt st).waiting ∧ ∃ l, t.out = l ++ s.out

theorem LK.trans {st : Nat} {s t u : State} (h : LK st s t) (g : LK st t u) : LK st s u := by
  obtain ⟨h1, h2, l, h3⟩ := h
  obtain ⟨g1, g2, m, g3⟩ := g
  exact ⟨g1.trans h1, g2.trans h2, m ++ l, by rw [g3, h3, List.append_assoc]⟩

theorem LK.quiet {st : Nat} {s t : State} (h : Quiet s t) : LK st s t := by
  obtain ⟨c, x, b, l, rfl⟩ := h; exact ⟨rfl, rfl, l, rfl⟩

theorem LK.same {st : Nat} {s t : State} (h : t.link = s.link) (g : t.out = s.out) : LK st s t := by
  refine ⟨?_, ?_, [], g⟩ <;> (unfold State.linkSt; rw [h])

theorem LK.meter (st part i n : Nat) (s : State) : LK st s (addMeter part i n s) := by
  unfold addMeter
  dsimp only
  split
  · exact LK.same rfl rfl
  · split
    · refine LK.trans ?_ (LK.quiet (Quiet.event ..))
      exact LK.same rfl rfl
    · exact LK.same rfl rfl

theorem LK.job (st part : Nat) (f : Job → Job) (s : State) : LK st s (onJob s st part f) := by
  unfold onJob
  refine ⟨?_, ?_, [], rfl⟩ <;> rw [linkSt_onLink]

theorem LK.packet (st part i : Nat) (copy : Bool) (n : Nat) (s : State) : LK st s (meterPacket part i copy n s) := by
  unfold meterPacket
  split
  · exact LK.same rfl rfl
  · exact LK.meter ..

theorem LK.each {α : Type} {st : Nat} {l : List α} {f : α → State → State} (hf : ∀ a s, LK st s (f a s)) (s : State) : LK st s (each l f s) :=
  each_inv (fun t => LK st s t) l f (fun a _ h => h.trans (hf a _)) s ⟨rfl, rfl, [], rfl⟩

theorem LK.threshold (st i : Nat) (s : State) : LK st s (keyThreshold i s) := by
  unfold keyThreshold
  extract_lets k tell s1
  have h1 : LK st s s1 := LK.same rfl rfl
  have ht : ∀ c u, LK st u (tell c u) := fun c u => LK.quiet (Quiet.event ..)
  clear_value s1 tell
  split
  · exact LK.same rfl rfl
  · split
    · exact h1.trans (ht ..)
    · exact h1.trans (.each (fun _ _ => ht ..) _)

/-- What the sending of a packet can do: one packet leaves, sealed under the job's key, and no request or tracker of the
station changes. -/
theorem sendPacket_does (st part peer dport cls : Nat) (resp : Bool) (gen sepoch seq : Nat) (sect : Bytes) (s : State) :
    let j := jobOf s st part
    let k := s.key j.slot
    let key := (halfOf k (gen32 k gen)).getD 0
    let word := seqField peer resp gen seq
    let hdr (n : Nat) := packetHdr cls peer dport j.own (st - 0x80) n j.keyIndex gen sepoch word
    let sealed := gcmSeal key (linkIv j.own sepoch word) (hdr 0) sect
    LK st s (sendPacket st part peer dport cls resp gen sepoch seq sect s) ∧
    Out.packet st (hdr sect.length ++ sealed.1 ++ sealed.2) ∈ (sendPacket st part peer dport cls resp gen sepoch seq sect s).out := by
  intro j k key word hdr sealed
  have h : LK st (emit (.packet st (hdr sect.length ++ sealed.1 ++ sealed.2)) s) (sendPacket st part peer dport cls resp gen sepoch seq sect s) := by
    unfold sendPacket
    extract_lets
    split
    rename_i c t hg
    have hs : sealed = (c, t) := hg
    rw [hs]
    extract_lets s1 s2 s3
    have h1 : LK st s1 s2 := ((LK.quiet (Quiet.bump st 3 1 s1)).trans (LK.quiet (Quiet.bump st 5 sect.length _))).trans (LK.packet st part 6 _ sect.length _)
    have h3 : LK st s1 s3 := h1.trans (LK.job st part (fun j' => { j' with invocations := if gen = j'.gen then j'.invocations + 1 else j'.invocations }) s2)
    clear_value s3
    split
    · exact (h3.trans (LK.same rfl rfl)).trans (LK.threshold ..)
    · exact h3
  refine ⟨(LK.quiet (Quiet.emit _ _)).trans h, ?_⟩
  obtain ⟨-, -, l, h⟩ := h
  rw [h]
  exact List.mem_append_right _ (List.mem_cons_self ..)

theorem portState_link (s : State) {st : Nat} (hl : isLink st = true) (c x b l L) (ho : L.port.opened = (s.linkSt st).port.opened)
    (hs : L.port.stopped = (s.linkSt st).port.stopped) : (onL s st c x b l L).portState st = s.portState st := by
  unfold State.portState
  rw [port_link hl, port_link hl, onL_linkSt, ho, hs]
  rfl

theorem findCtx_same {l : LinkSt} {part peer ing resp c} (h : findCtx l part peer ing resp = some c) :
    c.part = part ∧ c.peer = peer ∧ c.ingress = ing ∧ c.response = resp := by
  unfold findCtx at h
  have := List.find?_some h
  simpa [sameCtx, and_assoc] using this

theorem LK_linkSt {s t : State} (h : Quiet s t) (st : Nat) : t.linkSt st = s.linkSt st := by
  obtain ⟨c, x, b, l, rfl⟩ := h; rfl

theorem fence_linkSt (i part code : Nat) (d : BitVec 128) (s : State) (st : Nat) : (fenceReport i part code d s).linkSt st = s.linkSt st := by
  have : ∀ s : State, ∀ F, ({ s with fences := F } : State).linkSt st = s.linkSt st := fun s F => rfl
  unfold fenceReport
  dsimp only
  repeat' (first | rfl | split)

theorem onL_eta (s : State) (st : Nat) (L : LinkSt) : { s with link := tset s.link st L } = onL s st s.ctrs s.ctxs s.keep.pba s.out L := rfl

theorem onLink_comp (st : Nat) (f g : LinkSt → LinkSt) (s : State) : (s.onLink st f).onLink st g = s.onLink st fun l => g (f l) := by
  unfold State.onLink tupd
  dsimp only
  rw [tset_tset]
  have : tget {} (tset s.link st (f (tget {} s.link st))) st = f (tget {} s.link st) := tget_tset_same ..
  rw [this]

theorem linkPump_idle {st : Nat} {s : State} (h : (s.linkSt st).waiting = []) : linkPump st s = (s.onLink st fun l => { l with waiting := [] }).onLink st fun x => { x with waiting := [] ++ x.waiting } := by
  unfold linkPump
  dsimp only
  rw [h]
  rfl

def lossF (part dev mark : Nat) (l : LinkSt) : LinkSt := { l with
    jobs := tmap (fun i j => if i = part then raiseMark mark j else j) l.jobs,
    lost := l.lost ++ [(part, dev, mark)],
    ctxs := l.ctxs.map fun c => if c.part = part ∧ c.peer = dev ∧ c.state ≠ 1 then { c with state := 5, flagWait := false, gather := false, final := none } else c,
    bundles := l.bundles.filter fun b => !(b.part == part && b.peer == dev) }

/-- A member's loss at a station whose list of losses has room. -/
theorem memberLostAt_eq (part dev mark st : Nat) (s : State) (h : (s.linkSt st).lost.length < 256) : memberLostAt part dev mark st s =
    (let s := s.onLink st (lossF part dev mark)
     let s := dropOps st (fun o => o.part == part && o.peer == dev) (dropHeld st 16 (fun h => h.part == part && h.peer == dev) s)
     let w := (s.linkSt st).waiting.filter fun r => r.part == part && r.dst == dev
     let s := s.onLink st fun l => { l with waiting := l.waiting.filter fun r => !(r.part == part && r.dst == dev) }
     let s := each w (fun r s => refuseLink st r yeLost s) s
     failTrackers st yeLost (fun t => t.part == part && t.peer == dev) s) := by
  unfold memberLostAt
  have hf : decide (256 ≤ (s.linkSt st).lost.length) = false := by simpa using h
  simp only [hf, Bool.false_eq_true, if_false]
  rfl

theorem each_host {l : List Nat} {f : Nat → State → State} (hf : ∀ i s, (f i s).host = s.host) (s : State) : (each l f s).host = s.host :=
  each_inv (fun t => t.host = s.host) l f (fun i t h => (hf i t).trans h) s rfl

theorem commitFirst_host (i : Nat) (s : State) : (commitFirst i s).host = s.host := rfl

theorem commitSwap_host (i : Nat) (s : State) : (commitSwap i s).host = s.host := rfl

theorem tdisp_on (iface : Nat) (f : Tdisp → Tdisp) (s : State) : (onTdisp iface f s).tdispOf iface = f (s.tdispOf iface) := tget_tupd_same ..

theorem tdisp_on_other (iface i : Nat) (h : i ≠ iface) (f : Tdisp → Tdisp) (s : State) : (onTdisp iface f s).tdispOf i = s.tdispOf i := tget_tupd_other _ _ _ _ _ h

theorem ide_on (i : Nat) (f : Ide → Ide) (s : State) : (onIde i f s).ideOf i = f (s.ideOf i) := tget_tupd_same ..

theorem host_quiet {s t : State} (h : Quiet s t) : t.host = s.host ∧ t.keys = s.keys ∧ t.keep.perm = s.keep.perm ∧ t.keep.shift = s.keep.shift ∧ t.freeSig = s.freeSig := by
  obtain ⟨c, x, b, l, rfl⟩ := h; exact ⟨rfl, rfl, rfl, rfl, rfl⟩

theorem key_emit_ide (o : Out) (st : Nat) (f : Ide → Ide) (s : State) (i : Nat) : (emit o (onIde st f s)).key i = s.key i := rfl

end Sys2Proof.Machine
end

