-- ==== Sys2Proof/Laws/WrapLaws.lean ====
section
/-! SUPPORT. AES-256 decryption undoes encryption, and the key unwrap of SP 800-38F undoes the wrap: what is wrapped under a key comes back. -/

namespace Sys2Proof.Machine
open Sys2Proof Sys2Proof.Crypto

theorem byte_all (P : Byte → Bool) (h : (List.range 256).all (fun n => P (BitVec.ofNat 8 n)) = true) (b : Byte) : P b = true := by
  rw [List.all_eq_true] at h
  have := h b.toNat (List.mem_range.mpr b.isLt)
  rwa [BitVec.ofNat_toNat, BitVec.setWidth_eq] at this

theorem isbox_sbox (b : Byte) : isbox (sbox b) = b := by
  have := byte_all (fun b => isbox (sbox b) == b) (by decide +kernel) b
  simpa using this

theorem xorb_undo : ∀ (a k : Bytes), a.length ≤ k.length → xorb (xorb a k) k = a := by
  intro a
  induction a with
  | nil => intro k _; rfl
  | cons x a ih =>
    intro k h
    cases k with
    | nil => simp at h
    | cons y k =>
      show ((x ^^^ y) ^^^ y) :: xorb (xorb a k) k = x :: a
      rw [ih k (by simpa using h), BitVec.xor_assoc, BitVec.xor_self, BitVec.xor_zero]

/-- A product in the field is linear in its second factor. -/
theorem fmul_xor (a x y : Byte) : fmul a (x ^^^ y) = fmul a x ^^^ fmul a y := by
  have h : ∀ (l : List Nat) (p q d : Byte),
      ((l.foldl (fun (acc : Byte × Byte) i => (if (x ^^^ y).getLsbD i then acc.1 ^^^ acc.2 else acc.1, xtime acc.2)) (p ^^^ q, d)).1) =
      ((l.foldl (fun (acc : Byte × Byte) i => (if x.getLsbD i then acc.1 ^^^ acc.2 else acc.1, xtime acc.2)) (p, d)).1) ^^^
      ((l.foldl (fun (acc : Byte × Byte) i => (if y.getLsbD i then acc.1 ^^^ acc.2 else acc.1, xtime acc.2)) (q, d)).1) := by
    intro l
    induction l with
    | nil => intro p q d; rfl
    | cons i l ih =>
      intro p q d
      simp only [List.foldl_cons]
      rw [← ih]
      congr 2
      rw [BitVec.getLsbD_xor]
      cases x.getLsbD i <;> cases y.getLsbD i <;> simp only [Bool.xor_self, Bool.xor_false, Bool.false_xor, if_true, if_false, Bool.false_eq_true] <;> congr 1
      · ac_rfl
      · ac_rfl
      · rw [show p ^^^ d ^^^ (q ^^^ d) = p ^^^ q ^^^ (d ^^^ d) by ac_rfl, BitVec.xor_self, BitVec.xor_zero]
  exact h (List.range 8) 0 0 a

/-- The columns of the two MixColumns matrices, multiplied out on one byte. -/
theorem mix_byte (c : Byte) :
    fmul 14 (fmul 2 c) ^^^ fmul 11 (fmul 1 c) ^^^ fmul 13 (fmul 1 c) ^^^ fmul 9 (fmul 3 c) = c ∧
    fmul 14 (fmul 3 c) ^^^ fmul 11 (fmul 2 c) ^^^ fmul 13 (fmul 1 c) ^^^ fmul 9 (fmul 1 c) = 0 ∧
    fmul 14 (fmul 1 c) ^^^ fmul 11 (fmul 3 c) ^^^ fmul 13 (fmul 2 c) ^^^ fmul 9 (fmul 1 c) = 0 ∧
    fmul 14 (fmul 1 c) ^^^ fmul 11 (fmul 1 c) ^^^ fmul 13 (fmul 3 c) ^^^ fmul 9 (fmul 2 c) = 0 := by
  have := byte_all (fun c =>
    fmul 14 (fmul 2 c) ^^^ fmul 11 (fmul 1 c) ^^^ fmul 13 (fmul 1 c) ^^^ fmul 9 (fmul 3 c) == c &&
    fmul 14 (fmul 3 c) ^^^ fmul 11 (fmul 2 c) ^^^ fmul 13 (fmul 1 c) ^^^ fmul 9 (fmul 1 c) == 0 &&
    fmul 14 (fmul 1 c) ^^^ fmul 11 (fmul 3 c) ^^^ fmul 13 (fmul 2 c) ^^^ fmul 9 (fmul 1 c) == 0 &&
    fmul 14 (fmul 1 c) ^^^ fmul 11 (fmul 1 c) ^^^ fmul 13 (fmul 3 c) ^^^ fmul 9 (fmul 2 c) == 0) (by decide +kernel) c
  simpa [and_assoc] using this

theorem mix_line (a b c d : Byte) :
    fmul 14 (fmul 2 a ^^^ fmul 3 b ^^^ fmul 1 c ^^^ fmul 1 d) ^^^ fmul 11 (fmul 1 a ^^^ fmul 2 b ^^^ fmul 3 c ^^^ fmul 1 d) ^^^
    fmul 13 (fmul 1 a ^^^ fmul 1 b ^^^ fmul 2 c ^^^ fmul 3 d) ^^^ fmul 9 (fmul 3 a ^^^ fmul 1 b ^^^ fmul 1 c ^^^ fmul 2 d) = a := by
  obtain ⟨ha, -, -, -⟩ := mix_byte a
  obtain ⟨-, hb, -, -⟩ := mix_byte b
  obtain ⟨-, -, hc, -⟩ := mix_byte c
  obtain ⟨-, -, -, hd⟩ := mix_byte d
  simp only [fmul_xor]
  calc _ = (fmul 14 (fmul 2 a) ^^^ fmul 11 (fmul 1 a) ^^^ fmul 13 (fmul 1 a) ^^^ fmul 9 (fmul 3 a)) ^^^
      (fmul 14 (fmul 3 b) ^^^ fmul 11 (fmul 2 b) ^^^ fmul 13 (fmul 1 b) ^^^ fmul 9 (fmul 1 b)) ^^^
      (fmul 14 (fmul 1 c) ^^^ fmul 11 (fmul 3 c) ^^^ fmul 13 (fmul 2 c) ^^^ fmul 9 (fmul 1 c)) ^^^
      (fmul 14 (fmul 1 d) ^^^ fmul 11 (fmul 1 d) ^^^ fmul 13 (fmul 3 d) ^^^ fmul 9 (fmul 2 d)) := by ac_rfl
    _ = a := by rw [ha, hb, hc, hd]; simp

theorem mixCol_four (m0 m1 m2 m3 a b c d : Byte) : mixCol [m0, m1, m2, m3] [a, b, c, d] =
    [fmul m0 a ^^^ fmul m1 b ^^^ fmul m2 c ^^^ fmul m3 d, fmul m3 a ^^^ fmul m0 b ^^^ fmul m1 c ^^^ fmul m2 d,
     fmul m2 a ^^^ fmul m3 b ^^^ fmul m0 c ^^^ fmul m1 d, fmul m1 a ^^^ fmul m2 b ^^^ fmul m3 c ^^^ fmul m0 d] := by
  simp [mixCol, List.range, List.range.loop, List.getD]

theorem mixCol_undo (a b c d : Byte) : mixCol [14, 11, 13, 9] (mixCol [2, 3, 1, 1] [a, b, c, d]) = [a, b, c, d] := by
  have h1 := mix_line a b c d
  have h2 := mix_line b c d a
  have h3 := mix_line c d a b
  have h4 := mix_line d a b c
  simp only [mixCol_four, List.cons.injEq, and_true]
  refine ⟨h1, ?_, ?_, ?_⟩
  · refine Eq.trans ?_ h2; simp only [fmul_xor]; ac_rfl
  · refine Eq.trans ?_ h3; simp only [fmul_xor]; ac_rfl
  · refine Eq.trans ?_ h4; simp only [fmul_xor]; ac_rfl

theorem sixteen (s : Bytes) (h : s.length = 16) : ∃ a b c d e f g i j k l m n o p q, s = [a, b, c, d, e, f, g, i, j, k, l, m, n, o, p, q] := by
  obtain _ | ⟨a, s⟩ := s; · simp at h
  obtain _ | ⟨b, s⟩ := s; · simp at h
  obtain _ | ⟨c, s⟩ := s; · simp at h
  obtain _ | ⟨d, s⟩ := s; · simp at h
  obtain _ | ⟨e, s⟩ := s; · simp at h
  obtain _ | ⟨f, s⟩ := s; · simp at h
  obtain _ | ⟨g, s⟩ := s; · simp at h
  obtain _ | ⟨i, s⟩ := s; · simp at h
  obtain _ | ⟨j, s⟩ := s; · simp at h
  obtain _ | ⟨k, s⟩ := s; · simp at h
  obtain _ | ⟨l, s⟩ := s; · simp at h
  obtain _ | ⟨m, s⟩ := s; · simp at h
  obtain _ | ⟨n, s⟩ := s; · simp at h
  obtain _ | ⟨o, s⟩ := s; · simp at h
  obtain _ | ⟨p, s⟩ := s; · simp at h
  obtain _ | ⟨q, s⟩ := s; · simp at h
  obtain _ | ⟨r, s⟩ := s
  · exact ⟨a, b, c, d, e, f, g, i, j, k, l, m, n, o, p, q, rfl⟩
  · simp at h

theorem shiftRows_undo (s : Bytes) (h : s.length = 16) : ishiftRows (shiftRows s) = s ∧ (shiftRows s).length = 16 := by
  obtain ⟨a, b, c, d, e, f, g, i, j, k, l, m, n, o, p, q, rfl⟩ := sixteen s h
  exact ⟨rfl, rfl⟩

theorem mixColumns_undo (s : Bytes) (h : s.length = 16) :
    mixColumns [14, 11, 13, 9] (mixColumns [2, 3, 1, 1] s) = s ∧ (mixColumns [2, 3, 1, 1] s).length = 16 := by
  obtain ⟨a, b, c, d, e, f, g, i, j, k, l, m, n, o, p, q, rfl⟩ := sixteen s h
  have four (M : List Byte) (x : Bytes) : (mixCol M x).length = 4 := by simp [mixCol]
  have split (x y z w : Bytes) (hx : x.length = 4) (hy : y.length = 4) (hz : z.length = 4) (hw : w.length = 4) :
      blocks 4 (x ++ (y ++ (z ++ w))) = [x, y, z, w] := by
    have (x : Bytes) (hx : x.length = 4) : ∃ a b c d, x = [a, b, c, d] := by
      obtain _ | ⟨a, x⟩ := x; · simp at hx
      obtain _ | ⟨b, x⟩ := x; · simp at hx
      obtain _ | ⟨c, x⟩ := x; · simp at hx
      obtain _ | ⟨d, x⟩ := x; · simp at hx
      obtain _ | ⟨e, x⟩ := x
      · exact ⟨a, b, c, d, rfl⟩
      · simp at hx
    obtain ⟨_, _, _, _, rfl⟩ := this x hx
    obtain ⟨_, _, _, _, rfl⟩ := this y hy
    obtain ⟨_, _, _, _, rfl⟩ := this z hz
    obtain ⟨_, _, _, _, rfl⟩ := this w hw
    rfl
  have hm (M : List Byte) (x y z w : Bytes) (hx : x.length = 4) (hy : y.length = 4) (hz : z.length = 4) (hw : w.length = 4) :
      mixColumns M (x ++ (y ++ (z ++ w))) = mixCol M x ++ (mixCol M y ++ (mixCol M z ++ mixCol M w)) := by
    unfold mixColumns
    rw [split x y z w hx hy hz hw]
    simp
  have hE := hm [2, 3, 1, 1] [a, b, c, d] [e, f, g, i] [j, k, l, m] [n, o, p, q] rfl rfl rfl rfl
  rw [show [a, b, c, d, e, f, g, i, j, k, l, m, n, o, p, q] = [a, b, c, d] ++ ([e, f, g, i] ++ ([j, k, l, m] ++ [n, o, p, q])) from rfl, hE,
    hm _ _ _ _ _ (four _ _) (four _ _) (four _ _) (four _ _)]
  simp only [mixCol_undo, List.length_append, four]
  exact ⟨trivial, trivial⟩

/-- One round of the cipher, and what undoes it. -/
theorem round_undo (s k : Bytes) (h : s.length = 16) (hk : k.length = 16) :
    (ishiftRows (mixColumns [14, 11, 13, 9] (xorb (xorb (mixColumns [2, 3, 1, 1] (shiftRows (s.map sbox))) k) k))).map isbox = s ∧
    (xorb (mixColumns [2, 3, 1, 1] (shiftRows (s.map sbox))) k).length = 16 := by
  have h1 : (s.map sbox).length = 16 := by rw [List.length_map, h]
  obtain ⟨h2, h3⟩ := shiftRows_undo _ h1
  obtain ⟨h4, h5⟩ := mixColumns_undo _ h3
  refine ⟨?_, by rw [xorb_len, h5, hk]; rfl⟩
  rw [xorb_undo _ _ (by omega), h4, h2, List.map_map, show isbox ∘ sbox = id from funext isbox_sbox, List.map_id]

/-- Rounds run up from one state come back when they are run down. -/
theorem rounds_undo (key : Nat → Bytes) (hk : ∀ i, (key i).length = 16 ∨ 15 ≤ i) : ∀ n ≤ 13, ∀ s : Bytes, s.length = 16 →
    let u := (List.range n).foldl (fun s r => xorb (mixColumns [2, 3, 1, 1] (shiftRows (s.map sbox))) (key (r + 1))) s
    u.length = 16 ∧ ((List.range n).map (n - ·)).foldl
      (fun s r => (ishiftRows (mixColumns [14, 11, 13, 9] (xorb s (key r)))).map isbox) u = s := by
  intro n
  induction n with
  | zero => intro _ s h; exact ⟨h, rfl⟩
  | succ n ih =>
    intro hn s h
    obtain ⟨h1, h2⟩ := ih (by omega) s h
    have hkn : (key (n + 1)).length = 16 := (hk (n + 1)).resolve_right (by omega)
    obtain ⟨h3, h4⟩ := round_undo _ (key (n + 1)) h1 hkn
    rw [List.range_succ, List.foldl_append]
    refine ⟨h4, ?_⟩
    rw [← List.range_succ, List.range_succ_eq_map, List.map_cons, List.map_map, List.foldl_cons]
    simp only [List.foldl_cons, List.foldl_nil, Nat.sub_zero]
    rw [h3]
    have : ((fun x => n + 1 - x) ∘ Nat.succ) = (fun x => n - x) := by funext x; simp only [Function.comp]; omega
    rw [this]
    exact h2

theorem roundKey_len (k : BitVec 256) (i : Nat) : ((roundKeys (keyBytes k)).getD i []).length = 16 ∨ 15 ≤ i := by
  by_cases hi : 15 ≤ i
  · exact .inr hi
  refine .inl ?_
  have hb : (∀ w ∈ (blocks 4 (keyBytes k)).reverse, w.length = 4) ∧ (blocks 4 (keyBytes k)).reverse.length = 8 := by
    have hl : (keyBytes k).length = 32 := by unfold keyBytes; exact le_len 32 _
    obtain ⟨h1, h2⟩ := chunks_len4 32 (keyBytes k) (by omega) (by omega)
    have e : blocks 4 (keyBytes k) = chunks 4 32 (keyBytes k) := by unfold blocks; rw [hl]
    rw [e, List.length_reverse, h2, hl]
    exact ⟨fun w hw => h1 w (List.mem_reverse.mp hw), rfl⟩
  obtain ⟨g1, g2⟩ := expand_len 52 8 _ hb.1 (by omega)
  have hg : (roundKeys (keyBytes k)).getD i [] = (((expandFrom 52 8 (blocks 4 (keyBytes k)).reverse).reverse.drop (4 * i)).take 4).flatten := by
    unfold roundKeys
    rw [List.getD_eq_getElem?_getD, List.getElem?_map, List.getElem?_range (by omega)]
    rfl
  rw [hg, flatten_len4 _ (fun w hw => g1 w (List.mem_reverse.mp (List.mem_of_mem_drop (List.mem_of_mem_take hw)))), List.length_take,
    List.length_drop, List.length_reverse, g2, hb.2]
  omega

/-- Decryption of a block undoes its encryption. -/
theorem dec_enc (k : BitVec 256) (x : Bytes) (h : x.length = 16) : decBlock (roundKeys (keyBytes k)) (encBlock (roundKeys (keyBytes k)) x) = x := by
  have hk (i : Nat) (hi : i < 15) : ((roundKeys (keyBytes k)).getD i []).length = 16 := (roundKey_len k i).resolve_right (by omega)
  obtain ⟨h1, h2⟩ := rounds_undo (fun i => (roundKeys (keyBytes k)).getD i []) (roundKey_len k) 13 (by omega)
    (xorb x ((roundKeys (keyBytes k)).getD 0 [])) (by rw [xorb_len, h, hk 0 (by omega)]; rfl)
  have g1 : ∀ u : Bytes, u.length = 16 → (ishiftRows (shiftRows (u.map sbox))).map isbox = u := by
    intro u hu
    rw [(shiftRows_undo _ (by rw [List.length_map, hu])).1, List.map_map,
      show isbox ∘ sbox = id from funext isbox_sbox, List.map_id]
  have g2 : ∀ u : Bytes, u.length = 16 → (shiftRows (u.map sbox)).length = 16 := fun u hu => (shiftRows_undo _ (by rw [List.length_map, hu])).2
  unfold decBlock encBlock
  dsimp only
  rw [xorb_undo _ _ (by have := g2 _ h1; have := hk 14 (by omega); omega), g1 _ h1]
  rw [List.foldl_map] at h2
  rw [h2, xorb_undo _ _ (by have := hk 0 (by omega); omega)]

/-! ### Key wrap -/

theorem unwrapPass_append (rk : List Bytes) : ∀ (xs ys : List Bytes) (t : Nat) (a : Bytes), unwrapPass rk t a (xs ++ ys) =
    ((unwrapPass rk (t - xs.length) (unwrapPass rk t a xs).1 ys).1, (unwrapPass rk t a xs).2 ++ (unwrapPass rk (t - xs.length) (unwrapPass rk t a xs).1 ys).2) := by
  intro xs
  induction xs with
  | nil => intro ys t a; rfl
  | cons x xs ih =>
    intro ys t a
    simp only [List.cons_append, unwrapPass]
    rw [ih, List.length_cons, show t - 1 - xs.length = t - (xs.length + 1) by omega]

theorem wrapPass_cons (rk : List Bytes) (t : Nat) (a r : Bytes) (rs : List Bytes) : wrapPass rk t a (r :: rs) =
    ((wrapPass rk (t + 1) (xorb ((encBlock rk (a ++ r)).take 8) (be 8 (t + 1))) rs).1,
     (encBlock rk (a ++ r)).drop 8 :: (wrapPass rk (t + 1) (xorb ((encBlock rk (a ++ r)).take 8) (be 8 (t + 1))) rs).2) := rfl

/-- One pass of the wrap comes back, run from its last step. -/
theorem pass_undo (k : BitVec 256) : ∀ (rs : List Bytes) (t : Nat) (a : Bytes), a.length = 8 → (∀ r ∈ rs, r.length = 8) →
    let w := wrapPass (roundKeys (keyBytes k)) t a rs
    w.1.length = 8 ∧ w.2.length = rs.length ∧ (∀ r ∈ w.2, r.length = 8) ∧
    unwrapPass (roundKeys (keyBytes k)) (t + rs.length) w.1 w.2.reverse = (a, rs.reverse) := by
  intro rs
  induction rs with
  | nil => intro t a h _; exact ⟨h, rfl, by simp [wrapPass], rfl⟩
  | cons r rs ih =>
    intro t a h hr
    have hl : (encBlock (roundKeys (keyBytes k)) (a ++ r)).length = 16 := encBlock_len k _
    have h8 : (be 8 (t + 1)).length = 8 := by unfold be; rw [List.length_reverse, le_len]
    have ht : ((encBlock (roundKeys (keyBytes k)) (a ++ r)).take 8).length = 8 := by rw [List.length_take]; omega
    have hx : (xorb ((encBlock (roundKeys (keyBytes k)) (a ++ r)).take 8) (be 8 (t + 1))).length = 8 := by rw [xorb_len]; omega
    obtain ⟨g1, g2, g3, g4⟩ := ih (t + 1) _ hx fun r hm => hr r (List.mem_cons_of_mem _ hm)
    rw [wrapPass_cons]
    dsimp only
    refine ⟨g1, by simp [g2], List.forall_mem_cons.mpr ⟨by rw [List.length_drop]; omega, g3⟩, ?_⟩
    · rw [List.reverse_cons, unwrapPass_append, List.length_cons, show t + (rs.length + 1) = t + 1 + rs.length by omega, g4,
        List.length_reverse, g2, show t + 1 + rs.length - rs.length = t + 1 by omega]
      simp only [unwrapPass]
      rw [xorb_undo _ _ (by omega), List.take_append_drop, dec_enc k _ (by rw [List.length_append, h, hr r (by simp)]),
        List.take_left' h, List.drop_left' h, List.reverse_cons]

theorem chunks8 (f : Nat) (b : Bytes) (hf : b.length ≤ f) (hm : b.length % 8 = 0) :
    (∀ w ∈ chunks 8 f b, w.length = 8) ∧ (chunks 8 f b).length = b.length / 8 ∧ (chunks 8 f b).flatten = b := by
  induction f generalizing b with
  | zero => have : b = [] := List.length_eq_zero_iff.mp (by omega); subst this; exact ⟨by simp [chunks], rfl, rfl⟩
  | succ f ih =>
    cases b with
    | nil => exact ⟨by simp [chunks], rfl, rfl⟩
    | cons x b =>
      have hc : chunks 8 (f + 1) (x :: b) = (x :: b).take 8 :: chunks 8 f ((x :: b).drop 8) := rfl
      obtain ⟨h1, h2, h3⟩ := ih ((x :: b).drop 8) (by rw [List.length_drop]; simp at hf ⊢; omega) (by rw [List.length_drop]; omega)
      rw [hc]
      refine ⟨fun w hw => ?_, ?_, ?_⟩
      · rcases List.mem_cons.mp hw with rfl | hw
        · rw [List.length_take]; simp at hm ⊢; omega
        · exact h1 w hw
      · rw [List.length_cons, h2, List.length_drop]; simp at hm ⊢; omega
      · rw [List.flatten_cons, h3, List.take_append_drop]

theorem chunks8_flatten : ∀ (l : List Bytes) (f : Nat), (∀ w ∈ l, w.length = 8) → l.flatten.length ≤ f → chunks 8 f l.flatten = l := by
  intro l
  induction l with
  | nil => intro f _ _; cases f <;> rfl
  | cons x l ih =>
    intro f h hf
    have hx : x.length = 8 := h x (by simp)
    cases x with
    | nil => simp at hx
    | cons y x =>
      obtain _ | f := f
      · simp at hf
      show ((y :: x) ++ l.flatten).take 8 :: chunks 8 f (((y :: x) ++ l.flatten).drop 8) = _
      rw [List.take_left' hx, List.drop_left' hx, ih f (fun w hw => h w (by simp [hw]))
        (by simp only [List.flatten_cons, List.length_append, hx] at hf; omega)]

theorem flatten8 (l : List Bytes) (h : ∀ w ∈ l, w.length = 8) : l.flatten.length = 8 * l.length := by
  induction l with
  | nil => rfl
  | cons x l ih =>
    rw [List.flatten_cons, List.length_append, h x (by simp), ih fun w hw => h w (by simp [hw]), List.length_cons]; omega

/-- The passes of a wrap come back in the reverse order. -/
theorem passes_undo (k : BitVec 256) (n : Nat) (a : Bytes) (rs : List Bytes) (ha : a.length = 8) (hr : ∀ r ∈ rs, r.length = 8) (hn : rs.length = n) : ∀ m ≤ 6,
    let w := (List.range m).foldl (fun (s : Bytes × List Bytes) j => wrapPass (roundKeys (keyBytes k)) (n * j) s.1 s.2) (a, rs)
    w.1.length = 8 ∧ w.2.length = n ∧ (∀ r ∈ w.2, r.length = 8) ∧
    ((List.range m).map (m - ·)).foldl (fun (s : Bytes × List Bytes) j => unwrapPass (roundKeys (keyBytes k)) (n * j) s.1 s.2) (w.1, w.2.reverse) =
      (a, rs.reverse) := by
  intro m
  induction m with
  | zero => intro _; exact ⟨ha, hn, hr, rfl⟩
  | succ m ih =>
    intro hm
    obtain ⟨h1, h2, h3, h4⟩ := ih (by omega)
    obtain ⟨g1, g2, g3, g4⟩ := pass_undo k _ (n * m) _ h1 h3
    rw [List.range_succ, List.foldl_append]
    refine ⟨g1, g2.trans h2, g3, ?_⟩
    rw [← List.range_succ, List.range_succ_eq_map, List.map_cons, List.map_map, List.foldl_cons]
    simp only [List.foldl_cons, List.foldl_nil, Nat.sub_zero]
    rw [h2] at g4
    rw [Nat.mul_succ, g4]
    have : ((fun x => m + 1 - x) ∘ Nat.succ) = (fun x => m - x) := by funext x; simp only [Function.comp]; omega
    rw [this]
    exact h4

/-- What KW wraps, it unwraps again. -/
theorem unwrap_wrap (k : BitVec 256) (p : Bytes) (h8 : p.length % 8 = 0) (h16 : 16 ≤ p.length) :
    kwUnwrap k (kwWrap k p) = some p ∧ (kwWrap k p).length = p.length + 8 := by
  obtain ⟨c1, c2, c3⟩ := chunks8 p.length p (by omega) h8
  obtain ⟨h1, h2, h3, h4⟩ := passes_undo k (p.length / 8) kwIv (blocks 8 p) rfl c1 c2 6 (by omega)
  have hl : (kwWrap k p).length = p.length + 8 := by
    unfold kwWrap wrapW
    dsimp only
    rw [List.length_append, h1, flatten8 _ h3, h2]
    omega
  have ht : (kwWrap k p).take 8 = _ := List.take_left' h1
  have hd : (kwWrap k p).drop 8 = _ := List.drop_left' h1
  refine ⟨?_, hl⟩
  unfold kwUnwrap
  rw [if_neg (by omega)]
  unfold unwrapW
  dsimp only
  rw [ht, hd, hl, show (p.length + 8) / 8 - 1 = p.length / 8 by omega]
  rw [show ∀ l : List Bytes, blocks 8 l.flatten = chunks 8 l.flatten.length l.flatten from fun _ => rfl, chunks8_flatten _ _ h3 (by omega)]
  rw [List.foldl_map] at h4
  rw [h4, if_pos rfl, List.reverse_reverse, show (blocks 8 p).flatten = p from c3]

end Sys2Proof.Machine
end

