-- ==== Sys2Proof/Tests/Slice0.lean ====
section
/-! SUPPORT. The model's own tests: the well-formedness checks refuse an ill-formed command each, and for every premise of
the statements (Certificates/Slice0/Obligations.lean) a small state and operands that meet all of them together. -/

namespace Sys2Proof.Tests
open Sys2Proof Sys2Proof.Machine Sys2Proof.Crypto
set_option Elab.async false

/-! ### A small live block -/

/-- `Starts`, as a computation. -/
def startsB (op q : Nat) (e : BitVec 1024) (s : State) : Bool :=
  let x := s.queue q
  let f := s.fence (envFence e)
  let info := (cmdInfo op).getD ⟨op, [], false, false, false, [], false⟩
  (mayTake s q && itsTurn s q && decide (s.taken.length < 16384) && x.pausedAt.isNone && !step1Bad s op e) &&
  (f.state != 0 && f.state != 2 && f.owner == x.ctx && !f.freed && envBits e 3 1 == 0) &&
  ((cmdInfo op).isSome && (takeCheck s info x.ctx x e).isNone && startBar s { q := q } == 0) &&
  (s.taken.all fun y => y.q != q) && (s.profs.all fun p => p.2.queue != some q)

theorem starts_of {op q e s} (h : startsB op q e s = true) : Starts op q e 0 s := by
  unfold startsB at h
  simp only [Bool.and_eq_true, decide_eq_true_eq, List.all_eq_true, bne_iff_ne, ne_eq, beq_iff_eq, Bool.not_eq_true',
    Option.isNone_iff_eq_none] at h
  obtain ⟨⟨⟨⟨⟨⟨⟨⟨h1, h2⟩, h3⟩, h4⟩, h5⟩, ⟨⟨⟨h6, h7⟩, h8⟩, h9⟩, h10⟩, ⟨h11, h12⟩, h13⟩, h14⟩, h15⟩ := h
  rw [Option.isSome_iff_exists] at h11
  obtain ⟨i, hi⟩ := h11
  rw [hi, Option.getD_some] at h12
  exact ⟨h1, h2, h3, h4, rfl, h5, h6, h7, h8, h9, h10, ⟨i, hi, h12⟩, h13, h14, h15⟩

theorem fits_of {s : State} {part i n : Nat} (h : (part == 0xFF || decide (tget 0 (s.part part).meter i + n < two64)) = true) : MeterFits s part i n := by
  unfold MeterFits; simpa using h

/-- An envelope (09 Table 9.12): opcode, completion fence, and operands as (offset, bytes' value). -/
def env (op fence : Nat) (ops : List (Nat × Nat)) : BitVec 1024 :=
  BitVec.ofNat 1024 (op + fence * 2 ^ 32 + (ops.map fun x => x.2 * 2 ^ (8 * (32 + x.1))).sum)

/-- A handle of generation 1. -/
def hd (i : Nat) : Nat := 2 ^ 20 + i

/-- A keep that runs, with an operator context 0 and a device context 1 of the active partition 1. Queue 0 is the operator's
and queue 1 the device's; each context owns two fences, and no queue has an entry yet. -/
def base : State := {
  aon := { phase := 1, porLow := false, coldOut := false, time := 5000000 },
  keep := { ready := true, portsOpen := true, adminReady := true, noise := 15, drbgUp := 3 },
  ctxs := [(0, { state := 1, part := 0xFF }), (1, { state := 1, device := true, part := 1 })],
  queues := [(0, { state := 1, ctx := 0, head := 3, tail := 3, nextSeq := 7 }), (1, { state := 1, ctx := 1, head := 15, tail := 15, nextSeq := 9 })],
  fences := [(1, { state := 1, owner := 0 }), (2, { state := 3, owner := 1 }), (3, { state := 1, owner := 0 }), (4, { state := 1, owner := 1 })],
  parts := [(1, { state := 1 })] }

/-- An entry stands at the head of queue 0, or of queue 1. -/
def op (s : State) : State := s.onQueue 0 fun x => { x with tail := (x.head + 1) % 16 }
def dev (s : State) : State := s.onQueue 1 fun x => { x with tail := (x.head + 1) % 16 }

/-- Object 1 of partition 1, in use and owned by both contexts, placed on station 2 and changed by `f`; the station's port is
open and leases the partition. -/
def withObj (f : Obj → Obj) (s : State) : State :=
  { s with objs := [(1, f {
      state := 1, cls := 4, part := 1, owners := [0, 1], tiles := 64, places := [{ st := 2, first := 4, count := 64, hdr := 8, entry := 6 }] })],
           mem := [(2, { port := { opened := true, cur := { parts := [1] } } })] }
/-- A mapped or sealed region: its key is in slot 3. -/
def withKey (i : Nat) (k : KeySlot) (s : State) : State := { s with keys := tset s.keys i k }

/-! ### The machine as a whole, and the rules of the spec (O1 to O9) -/

theorem test_step_takes_the_front : step { base with pending := [.heartbeatWrite 5, .currentLimitRelease] } =
    exec (.heartbeatWrite 5) { base with pending := [.currentLimitRelease] } := rfl
theorem test_reset_idles : State.reset.pending = [] ∧ State.reset.aon.phase = 0 ∧ step State.reset = .next State.reset := ⟨rfl, rfl, rfl⟩
theorem test_live_idles : base.pending = [] ∧ base.aon.phase ≠ 0 ∧ base.aon.coldAt = none := by decide +kernel
theorem test_a_step_from_a_canonical_state : ({ base with pending := [.heartbeatWrite 1] } : State).canon = true ∧
    step { base with pending := [.heartbeatWrite 1] } =
      .next { base with keep := { base.keep with beat := 1, beatAt := 5000000, missed := 0, beaten := true } } := ⟨by decide +kernel, rfl⟩

/-- A fault word of a unit with one class unacknowledged. -/
def faulty (u : Nat) (w : FaultWord) (s : State) : State := { s with flt := { s.flt with words := [(u, w)] } }

theorem test_fault_escalates : (faulty 7 { unack := 2, uncleared := 2 } base).aon.lockdown = false ∧
    ((raise 7 9 2 false 1 0 0 (faulty 7 { unack := 2, uncleared := 2 } base)).word 7).unack = 6 := by decide +kernel
theorem test_second_fatal_locks : ∃ x ∈ (faulty 7 { unack := 8, uncleared := 8 } base).flt.words, x.2.unack.getLsbD 3 = true :=
  ⟨(7, { unack := 8, uncleared := 8 }), by decide +kernel, by decide +kernel⟩

theorem test_heartbeat_accepted : base.keepLive = true := by decide +kernel
theorem test_heartbeat_ignored : base.keepLive = true ∧ (2#16) ≠ base.keep.beat + 1 := by decide +kernel

/-- The keep beat last at 50 ms less `n` ticks, and `m` beats are missing. -/
def beating (n m : Nat) (s : State) : State := { s with keep := { s.keep with beaten := true, beatAt := s.aon.time - n, missed := m } }

theorem test_beat_period_runs : let s := beating 99999 0 base
    s.keepLive = true ∧ s.keep.beaten = true ∧ s.now < s.keep.beatAt + Config.ms (s.keep.missed + 1) := by decide +kernel
theorem test_beat_missed : let s := beating 900000 8 base
    s.keepLive = true ∧ s.keep.beaten = true ∧ s.keep.beatAt + Config.ms (s.keep.missed + 1) ≤ s.now ∧ s.keep.missed + 1 < 10 := by decide +kernel
theorem test_tenth_beat_missed : let s := beating 1000000 9 base
    s.keepLive = true ∧ s.keep.beaten = true ∧ s.keep.beatAt + Config.ms (s.keep.missed + 1) ≤ s.now ∧ 10 ≤ s.keep.missed + 1 ∧
    ∀ x ∈ s.flt.words, x.2.unack.getLsbD 3 = false := by decide +kernel
theorem test_start_timeout_waits : base.keep.beaten = false ∧ base.now < base.keep.startAt + Config.ms 100 := by decide +kernel
theorem test_start_timeout : let s : State := { base with aon := { base.aon with time := 10000000 } }
    s.keepLive = true ∧ s.keep.beaten = false ∧ s.keep.startAt + Config.ms 100 ≤ s.now ∧
    ∀ x ∈ s.flt.words, x.2.unack.getLsbD 3 = false := by decide +kernel

/-- A stop is in force from the present tick on. -/
def stopping (f : Stop → Stop) (s : State) : State := { s with stop := f { inForce := true, tick := s.aon.time } }

theorem test_stopped : (stopping id base).keepStopped = true := by decide +kernel
theorem test_resume_tick : let s := stopping (fun x => { x with resume := some 4999000 }) base
    s = each (stationIds.filter fun st => (s.port st).resumeAt.any (· ≤ s.now)) applyResume s ∧
    s.stop.inForce = true ∧ s.stop.resume.isSome = true ∧ ∀ st ∈ stationIds, (s.port st).stopped = false := by decide +kernel
theorem test_link_down_in_a_stop : let s := { stopping id base with doms := [(1, { state := 4, attach := [(4, 9)] })] }
    s.keepStopped = true ∧ s.doms.map (·.1) = [1] ∧ tfind (s.dom 1).attach 4 = some 9 := by decide +kernel

/-- A command of queue 1 that waits on fence 4 at generation `g`, the fence being in state `st` at generation `n`. -/
def waiter (g : Nat) : Taken := { q := 1, seq := 8, e := BitVec.ofNat 1024 (0x0900 + 2 ^ 24 + 2 * 2 ^ 32 + 4 * 2 ^ 96 + g * 2 ^ 112) }
def waitFor (st n g : Nat) : State := { base with
  taken := [waiter g], fences := tset base.fences 4 { state := st, gen := n, owner := 1, code := if st = 4 then 7 else 0 } }

/-- The premises of R311's statement. -/
def waits (st n g : Nat) : Bool :=
  let s := waitFor st n g
  s.keepLive && findTaken s 1 8 == some (waiter g) && (waiter g).phase == 1 && (earlier s (waiter g)).isEmpty &&
  waitsOf (waiter g).e == [(4, g)] && decide (1 ≤ (s.fence 4).state) && decide ((s.fence 4).state ≤ 4) && (s.fence 4).gen == n

theorem test_wait_signaled : waits 3 5 5 = true ∧ startBar (waitFor 3 5 5) (waiter 5) = 0 ∧
    ∀ p ∈ (waitFor 3 5 5).profs, p.2.queue ≠ some 1 := by decide +kernel
theorem test_wait_failed : waits 4 5 5 = true := by decide +kernel
theorem test_wait_pending : waits 2 5 5 = true := by decide +kernel
theorem test_wait_unarmed : waits 1 5 5 = true := by decide +kernel
theorem test_wait_for_the_next : waits 3 0xFFFF 0 = true ∧ (0xFFFF + 1) % 2 ^ 16 = 0 := by decide +kernel
theorem test_wait_stale : waits 3 5 4 = true ∧ waits 3 5 7 = true := by decide +kernel

/-! ### Regions and accumulation (O10 to O15) -/

def sealedObj (f : Obj → Obj) : Obj → Obj := fun o => f { o with cls := 1, keySlot := 64, places := [{ st := 2, count := 3, cursor := 3 }] }

theorem test_region_reload : let s := op (withObj (sealedObj fun o => { o with loadGen := 4 }) base)
    Starts 0x0401 0 (env 0x0401 1 [(0, hd 1)]) 0 s ∧ (s.obj 1).cls = 1 ∧ (s.obj 1).frozen = false ∧ (s.obj 1).landing = false ∧
    (s.part 1).state = 1 ∧ (s.obj 1).rekey = none ∧ (s.obj 1).loadGen + 1 < 2 ^ 63 := ⟨starts_of (by decide +kernel), by decide +kernel⟩
theorem test_region_seal : let s := op (withObj (sealedObj fun o => { o with loading := true }) base)
    Starts 0x0402 0 (env 0x0402 1 [(0, hd 1)]) 0 s ∧ (s.obj 1).cls = 1 ∧ (s.obj 1).loading = true ∧ (s.obj 1).meas ≠ 1 ∧
    (∀ p ∈ (s.obj 1).places, p.cursor = p.count) ∧ (s.obj 1).measured = false ∧ (s.obj 1).wantRekey = false :=
  ⟨starts_of (by decide +kernel), by decide +kernel⟩
theorem test_region_seal_measured : let s := op (withObj (sealedObj fun o => { o with loading := true, measured := true, meas := 2 }) base)
    Starts 0x0402 0 (env 0x0402 1 [(0, hd 1)]) 0 s ∧ (s.obj 1).measured = true ∧ (s.obj 1).meas ≠ 1 ∧
    ∀ p ∈ (s.obj 1).places, p.cursor = p.count := ⟨starts_of (by decide +kernel), by decide +kernel⟩
theorem test_acc_open : let s := dev (withObj (fun o => { o with cls := 2, places := [{ st := 2, count := 3 }] }) base)
    Starts 0x0410 1 (env 0x0410 2 [(0, hd 1), (4, 1), (5, 3), (6, 63), (7, 63), (8, 4)]) 0 s ∧ (s.obj 1).cls = 2 ∧
    (s.fence 4).state ≠ 0 ∧ (s.fence 4).state ≠ 2 ∧ (s.fence 4).owner = (s.queue 1).ctx ∧ lowFree s.accs 0 64 = some 0 :=
  ⟨starts_of (by decide +kernel), by decide +kernel⟩
theorem test_acc_open_plain : let s := dev (withObj id base)
    Starts 0x0410 1 (env 0x0410 2 [(0, hd 1), (4, 2), (6, 1), (8, 4)]) 0 s ∧ (s.obj 1).cls = 4 := ⟨starts_of (by decide +kernel), by decide +kernel⟩

/-- Descriptor 5 is open for object 1, and station 2 holds `r` of its requests. -/
def withAcc (r : List MReq) (s : State) : State := { s with
  accs := [(5, { state := 1, mode := 1, bs := 3, fence := 4, ctx := 1, handle := 0x100001 })],
  mem := [(2, { reqs := r, accs := [(5, { state := 1, applied := 6 })] })] }

theorem test_acc_close_waits : let s := dev (withAcc [{ kind := 5, desc := 5 }] (withObj id base))
    Starts 0x0411 1 (env 0x0411 2 [(0, 5)]) 0 s ∧ (tget {} s.accs 5).state = 1 ∧ (s.obj 1).part = (s.ctx 1).part ∧ accDrained s 5 = false :=
  ⟨starts_of (by decide +kernel), by decide +kernel⟩
theorem test_acc_close_ends : let s := dev (withAcc [] (withObj id base))
    Starts 0x0411 1 (env 0x0411 2 [(0, 5)]) 0 s ∧ (tget {} s.accs 5).state = 1 ∧ accDrained s 5 = true ∧
    ∀ p ∈ s.profs, p.2.queue ≠ some 1 :=
  ⟨starts_of (by decide +kernel), by decide +kernel⟩
theorem test_arrival_open : let s := dev (withObj id base)
    Starts 0x0510 1 (env 0x0510 2 [(0, hd 1), (4, 8192), (12, 63)]) 0 s ∧ 8192 % 8192 = 0 ∧ 8192 / 8192 + 63 ≤ (s.obj 1).tiles ∧
    lowFree s.arrivals 0 1024 = some 0 := ⟨starts_of (by decide +kernel), by decide +kernel⟩
theorem test_arrival_close : let s := dev { withObj id base with arrivals := [(1023, { state := 1, part := 1, ctx := 1, handle := 0x100001 })] }
    Starts 0x0511 1 (env 0x0511 2 [(0, 1023)]) 0 s ∧ (tget {} s.arrivals 1023).state = 1 ∧
    (tget {} s.arrivals 1023).part = (s.ctx 1).part := ⟨starts_of (by decide +kernel), by decide +kernel⟩

/-- The packed request of a memory request's fields. -/
def mreq (r : MReq) : BitVec 256 := BitVec.ofNat 256 (ofLe (packReq r))

/-- Station 2 with an open port that leases partition 1 in epoch 0. -/
def withSt (f : MemSt → MemSt) (s : State) : State := { s with
  mem := [(2, f { port := { opened := true, cur := { parts := [1] } }, descs := [1] })] }

theorem accepted_of {k st origin : Nat} {req : BitVec 256} {data : Bytes} {s : State} {p : Place}
    (h : (intakeOpen s st (rowOf k origin req data).kind && (s.memSt st).reqs.isEmpty && s.profs.isEmpty &&
      !requestBad { rowOf k origin req data with acc := (s.port st).intake + 1, born := s.now } &&
      (s.memSt st).descs.contains (handleIdx (rowOf k origin req data).handle.toNat) &&
      isolation s st { rowOf k origin req data with acc := (s.port st).intake + 1, born := s.now } == (0, 0) &&
      placeOf (s.obj (handleIdx (rowOf k origin req data).handle.toNat)) st == some p && (s.memSt st).locks.isEmpty) = true) :
    Accepted k st origin req data s { rowOf k origin req data with acc := (s.port st).intake + 1, born := s.now }
      (s.obj (handleIdx (rowOf k origin req data).handle.toNat)) p := by
  simp only [Bool.and_eq_true, List.isEmpty_iff, beq_iff_eq, Bool.not_eq_true'] at h
  obtain ⟨⟨⟨⟨⟨⟨⟨h1, h2⟩, h3⟩, h4⟩, h5⟩, h6⟩, h7⟩, h8⟩ := h
  exact ⟨rfl, rfl, h1, h4, by simp [h3], h2, h5, h6, h7, by simp [h8], by simp [h8]⟩

/-- Object 1 placed on station 2, its first tile at local tile 4. -/
def placed (f : Obj → Obj) : Obj → Obj := fun o => f { o with places := [{ st := 2, first := 4, count := 64, hdr := 8, entry := 6 }] }
def rtile (kind : Nat) (f : MReq → MReq) : BitVec 256 := mreq (f { kind := kind, tag := 1023, part := 1, handle := 0x100001, pslot := 2 + 64 * 67, hslot := 71 })

theorem test_closed_station_takes_nothing : isMem 2 = true ∧ (1, fun st o r (_ : Bytes) => Instr.readTile st o r) ∈ memRows ∧
    intakeOpen base 2 1 = false := ⟨by decide, by simp [memRows], by decide +kernel⟩
theorem test_full_station_takes_nothing : 1024 ≤ ((withSt (fun m => { m with reqs := List.replicate 1024 {} }) base).memSt 2).reqs.length := by decide +kernel
theorem test_malformed_request : let s := withSt id base
    intakeOpen s 2 1 = true ∧ (∀ p ∈ s.profs, p.2.fence ≠ 0) ∧ requestBad (rowOf 1 0xF0 (rtile 1 fun r => { r with hint := 129 }) []) = true :=
  by decide +kernel
theorem test_descriptor_missing : let s := withSt (fun m => { m with descs := [] }) base
    let r := rowOf 1 0xF0 (rtile 1 fun r => { r with hint := 128 }) []
    intakeOpen s 2 1 = true ∧ (∀ p ∈ s.profs, p.2.fence ≠ r.fence) ∧ requestBad r = false ∧
    (s.memSt 2).descs.contains (handleIdx r.handle.toNat) = false := by decide +kernel
theorem test_read_plain_tile : ∃ r o p, Accepted 1 2 0xF0 (rtile 1 id) [] (withSt id (withObj (placed id) base)) r o p ∧ o.cls = 4 :=
  ⟨_, _, { st := 2, first := 4, count := 64, hdr := 8, entry := 6 }, accepted_of (by decide +kernel), by decide +kernel⟩
theorem test_read_unwritten_tile :
    let s := withKey 64 { state := 1, cls := 1, gen := 1 } (withSt (fun m => { m with lines := [{ entry := 7 }] }) (withObj (placed fun o => { o with cls := 2, keySlot := 64 }) base))
    ∃ r o p l, Accepted 1 2 0xF0 (rtile 1 id) [] s r o p ∧ o.cls = 2 ∧ vrtCond ((s.memSt 2).entry (entryOf p 1)) ≠ 3 ∧
      vrtReseal ((s.memSt 2).entry (entryOf p 1)) = false ∧ (chanOf s r.pslot).2 - p.first = 63 ∧
      cachedLine (s.memSt 2) (entryOf p (63 / 32)) = some l ∧ l.major = 0 ∧ minorOf l (63 % 32) = 0 :=
  ⟨_, _, { st := 2, first := 4, count := 64, hdr := 8, entry := 6 }, { entry := 7 }, accepted_of (by decide +kernel), by decide +kernel⟩
theorem test_read_plain_sectors : ∃ r o p, Accepted 2 2 0xF0 (rtile 2 fun r => { r with smask := 0x8000 }) [] (withSt id (withObj (placed id) base)) r o p ∧
    o.cls = 4 ∧ nextSector r.smask 0 = some 15 :=
  ⟨_, _, { st := 2, first := 4, count := 64, hdr := 8, entry := 6 }, accepted_of (by decide +kernel), by decide +kernel⟩
theorem test_write_plain_tile : let s := withSt id (withObj (placed id) base)
    ∃ r o p, Accepted 3 2 0xF0 (rtile 3 fun r => { r with len := 8192 }) [1] s r o p ∧ o.cls = 4 ∧ s.isSafe 2 = false :=
  ⟨_, _, { st := 2, first := 4, count := 64, hdr := 8, entry := 6 }, accepted_of (by decide +kernel), by decide +kernel⟩
theorem test_write_plain_range : let s := withSt id (withObj (placed id) base)
    ∃ r o p, Accepted 4 2 0xF0 (rtile 4 fun r => { r with off := 8176, len := 16 }) [1] s r o p ∧ o.cls = 4 ∧ s.isSafe 2 = false ∧
      r.off % 16 = 0 ∧ r.len % 16 = 0 :=
  ⟨_, _, { st := 2, first := 4, count := 64, hdr := 8, entry := 6 }, accepted_of (by decide +kernel), by decide +kernel⟩
theorem test_accumulate :
    let s := { withSt (fun m => { m with accs := [(5, { state := 1 })] }) (withObj (placed id) base) with
      accs := [(5, { state := 1, mode := 1, bs := 1, mask := 1, fence := 4, ctx := 1, handle := 0x100001 })] }
    ∃ r o p, Accepted 5 2 0xF0 (rtile 5 fun r => { r with desc := 5, fmt := 0x40, len := 64 }) (1 :: zeros 63) s r o p ∧ o.cls = 4 ∧ s.isSafe 2 = false ∧ (tget {} s.accs r.desc).state ≠ 0 :=
  ⟨_, _, { st := 2, first := 4, count := 64, hdr := 8, entry := 6 }, accepted_of (by decide +kernel), by decide +kernel⟩

/-- Station 2 holds one request. -/
def holding (r : MReq) (s : State) : State := withSt (fun m => { m with reqs := [r] }) s
def one (f : MReq → MReq) : MReq := f { acc := 9, origin := 0x80, kind := 1, tag := 3, part := 1, handle := 0x100001, pslot := 2 + 64 * 4, hslot := 8, stage := 1 }

theorem test_header_fails : let s := holding (one id) (withObj (placed id) base)
    findReq s 2 9 = some (one id) ∧ (one id).stage = 1 ∧ s.portState 2 ≠ .closed ∧ (∀ p ∈ s.profs, p.2.fence ≠ (one id).fence) ∧ headerOk (policyOf s (s.obj 1)) true (fit 32 (header [] 0 0 0)) = false := by decide +kernel
theorem test_header_passes : let s := holding (one fun r => { r with hint := 128 }) (withObj (placed id) base)
    findReq s 2 9 = some (one fun r => { r with hint := 128 }) ∧ headerOk (policyOf s (s.obj 1)) true (fit 32 (header [] 8192 0 0)) = true ∧
    headerLen (fit 32 (header [] 8192 0 0)) ≤ 64 * 128 := by decide +kernel
theorem test_header_asks_for_more : let s := holding (one fun r => { r with hint := 127 }) (withObj (placed id) base)
    headerOk (policyOf s (s.obj 1)) true (fit 32 (header [] 8192 0 0)) = true ∧ 64 * 127 < headerLen (fit 32 (header [] 8192 0 0)) := by decide +kernel

theorem opens (k : BitVec 256) (iv a c : Bytes) : gcmOpen k iv a c (gcmTag k iv a c) = some (ctrXor k iv 2 c) := if_pos rfl
theorem tag_length (k : BitVec 256) (iv a c : Bytes) : (gcmTag k iv a c).length = 16 := by simp [gcmTag, unblk, xorb, be, le, encBlock_len]
theorem cut_append (t a : Bytes) (h : t.length = 16) (i n : Nat) : cut (16 + i) n (t ++ a) = cut i n a := by
  simp [cut, ← List.drop_drop, ← h]

/-- A sealed tile of 16 bytes under `k`: its header. -/
def tileHdr (k : BitVec 256) (u ver : Nat) (c : Bytes) : Bytes :=
  let a := le 2 16 ++ le 1 0x40 ++ le 1 0 ++ zeros 12
  gcmTag k (tileIv u ver) a (fit 16 c) ++ a

theorem tile_opens_of {k : BitVec 256} {u ver : Nat} {c t p a : Bytes} (h : t.length = 16) (ha : a = le 2 16 ++ le 1 0x40 ++ le 1 0 ++ zeros 12)
    (g : gcmOpen k (tileIv u ver) a (fit 16 c) t = some p) : openTile k u ver 0 (t ++ a) c = some (16, 0x40, p) := by
  have e0 := cut_append t a h 0 16
  have e1 := cut_append t a h 0 2
  have e2 := cut_append t a h 2 1
  have e3 := cut_append t a h 3 1
  have e4 := cut_append t a h 4 12
  have et : (t ++ a).take 16 = t := by rw [← h]; exact List.take_left' rfl
  generalize t ++ a = hdr at e0 e1 e2 e3 e4 et
  subst ha
  simp only [Nat.add_zero, Nat.reduceAdd] at e0 e1 e2 e3 e4
  have f0 : cut 0 16 (le 2 16 ++ le 1 0x40 ++ le 1 0 ++ zeros 12) = le 2 16 ++ le 1 0x40 ++ le 1 0 ++ zeros 12 := by decide +kernel
  have f1 : ofLe (cut 0 2 (le 2 16 ++ le 1 0x40 ++ le 1 0 ++ zeros 12)) = 16 := by decide +kernel
  have f2 : ofLe (cut 2 1 (le 2 16 ++ le 1 0x40 ++ le 1 0 ++ zeros 12)) = 0x40 := by decide +kernel
  have f3 : ofLe (cut 3 1 (le 2 16 ++ le 1 0x40 ++ le 1 0 ++ zeros 12)) = 0 := by decide +kernel
  have f4 : cut 4 12 (le 2 16 ++ le 1 0x40 ++ le 1 0 ++ zeros 12) = zeros 12 := by decide +kernel
  rw [f0] at e0
  have k : headerOk 0 false hdr = true := by unfold headerOk; rw [e1, e2, e3, e4, f1, f2, f3, f4]; decide +kernel
  have l : headerLen hdr = 16 := by unfold headerLen; rw [e1, e3, f1, f3]; rfl
  unfold openTile
  simp only [k, e3, f3, l, et, e0, e2, f2, g, Bool.not_true, Bool.false_eq_true, if_false, if_true, Option.map_some]

theorem test_tile_opens (k : BitVec 256) (u ver : Nat) (c : Bytes) :
    ∃ b, openTile k u ver 0 (tileHdr k u ver c) c = some (16, 0x40, b) :=
  ⟨_, tile_opens_of (tag_length ..) rfl (opens ..)⟩

def sealedSt (k : KeySlot) (r : MReq) : State := withKey 64 k (holding r (withObj (placed fun o => { o with cls := 2, keySlot := 64 }) base))
def reading (h : Bytes) : MReq := one fun r => { r with stage := 2, hdr := h, keySlot := 64, keyGen := 1, minor := 1 }

theorem not_closed {s : State} {u : Nat} (h : (s.port u).opened = true) : s.portState u ≠ .closed := by
  unfold State.portState
  rw [h]
  by_cases g : s.isSafe u = true
  · simp [g]
  · cases e : (s.port u).stopped <;> simp [g]
/-- Whatever header the request holds: with a header of `tileHdr` the tile opens (test_tile_opens). -/
theorem test_sealed_tile_read (h : Bytes) :
    let r := reading h
    let s := sealedSt { state := 1, cls := 1, gen := 1, cur := 7 } r
    findReq s 2 9 = some r ∧ r.stage = 2 ∧ r.kind = 1 ∧ (s.obj 1).cls = 2 ∧ halfOf (s.key r.keySlot) r.keyGen = some 7 ∧
    policyOf s (s.obj 1) = 0 ∧ s.portState 2 ≠ .closed := ⟨rfl, rfl, rfl, rfl, rfl, rfl, not_closed rfl⟩
theorem test_sealed_tile_fails : let s := sealedSt { state := 1, cls := 1, gen := 1 } (reading [])
    findReq s 2 9 = some (reading []) ∧ halfOf (s.key 64) 1 = some 0 ∧ openTile 0 (reading []).pslot 1 (policyOf s (s.obj 1)) [] [] = none := by decide +kernel
theorem test_plain_tile_read : let r := one fun r => { r with stage := 2 }
    let s := holding r (withObj (placed id) base)
    findReq s 2 9 = some r ∧ r.stage = 2 ∧ r.kind = 1 ∧ (s.obj 1).cls = 4 ∧ s.portState 2 ≠ .closed := by decide +kernel
theorem test_write_reads_what_stands : let r := one fun r => { r with stage := 2, kind := 4 }
    findReq (holding r base) 2 9 = some r ∧ r.stage = 2 ∧ isWrite r.kind = true ∧ (holding r base).portState 2 ≠ .closed := by decide +kernel
theorem test_payload_accepted : let r := one fun r => { r with stage := 3, kind := 3, hdr := [1] }
    let s := holding r base
    findReq s 2 9 = some r ∧ r.stage = 3 ∧ r.hdr ≠ [] ∧ s.isSafe 2 = false ∧ s.portState 2 ≠ .closed := by decide +kernel
theorem test_payload_cut : let r := one fun r => { r with stage := 3, kind := 3, hdr := [1] }
    let s := faulty 2 { unack := 4, uncleared := 4 } (holding r base)
    findReq s 2 9 = some r ∧ r.stage = 3 ∧ r.hdr ≠ [] ∧ s.isSafe 2 = true ∧ s.portState 2 ≠ .closed := by decide +kernel
theorem test_write_applied : let r := one fun r => { r with stage := 4, kind := 3 }
    findReq (holding r base) 2 9 = some r ∧ r.stage = 4 := by decide +kernel

/-- Station 2 fetches entry 7, which belongs to object 1. -/
def fetching : State := withKey 5 { state := 1, cls := 2, owner := 1, gen := 1, cur := 9 } (withSt (fun m => { m with
  port := { m.port with keys := [(5, 1)] }, fetching := [7], vrt := [(7, BitVec.ofNat 64 (2 ^ 63 + 2 ^ 48))] })
  { withObj (placed fun o => { o with cls := 2, keySlot := 64 }) base with parts := [(1, { state := 1, verSlot := 5 })] })
/-- The line whose minors and major are zero, with a MAC. -/
def lineWith (x : BitVec 64) : BitVec 512 := x ++ (0 : BitVec 448)
theorem lineWith_bit (x : BitVec 64) (i : Nat) : (lineWith x).getLsbD i = if i < 448 then false else x.getLsbD (i - 448) :=
  (BitVec.getLsbD_append (x := x) (y := 0#448) (i := i)).trans (by simp)
theorem lineWith_mac (x : BitVec 64) : (lineWith x).extractLsb' 448 64 = x := by
  apply BitVec.eq_of_getLsbD_eq
  intro i h
  rw [BitVec.getLsbD_extractLsb', lineWith_bit, if_neg (by omega), Nat.add_sub_cancel_left]
  simp [h]
theorem lineWith_major (x : BitVec 64) : (lineWith x).extractLsb' 384 64 = 0 := by
  apply BitVec.eq_of_getLsbD_eq
  intro i h
  rw [BitVec.getLsbD_extractLsb', lineWith_bit, if_pos (by omega)]
  simp
theorem lineWith_minors (x : BitVec 64) : (lineWith x).extractLsb' 0 384 = 0 := by
  apply BitVec.eq_of_getLsbD_eq
  intro i h
  rw [BitVec.getLsbD_extractLsb', lineWith_bit, if_pos (by omega)]
  simp
theorem le_ofLe (b : Bytes) : le b.length (ofLe b) = b := by
  induction b with
  | nil => rfl
  | cons x b ih =>
    rw [List.length_cons, le_succ]
    have h : ofLe (x :: b) = ofLe b * 256 + x.toNat := rfl
    have hx := x.isLt
    rw [h, show (ofLe b * 256 + x.toNat) >>> 8 = ofLe b by rw [Nat.shiftRight_eq_div_pow]; omega, ih]
    congr 1
    apply BitVec.eq_of_toNat_eq
    rw [BitVec.toNat_ofNat]; omega
theorem ofLe_lt (b : Bytes) : ofLe b < 256 ^ b.length := by
  induction b with
  | nil => decide
  | cons x b ih =>
    have h : ofLe (x :: b) = ofLe b * 256 + x.toNat := rfl
    have hx := x.isLt
    rw [h, List.length_cons, Nat.pow_succ]; omega

/-- The state in which the arriving line is checked, and the line as it arrives. -/
def fetched : State := fetching.onMem 2 fun m => { m with
  fetching := without m.fetching 7, port := { m.port with keys := (5, 1) :: without m.port.keys (5, 1) } }
theorem test_line_waits_are_over : let s := fetching
    isMem 2 = true ∧ s.portState 2 ≠ .closed ∧ (s.memSt 2).fetching.contains 7 = true ∧ vrtPart ((s.memSt 2).entry 7) = 1 ∧
    vrtRoot ((s.memSt 2).entry 7) = 0 ∧ verKey s 1 = some (5, 1) ∧ (s.port 2).keys.contains (5, 1) = true ∧ halfOf (s.key 5) 1 ≠ none := by decide +kernel
theorem test_line_fails : ∃ x : BitVec 64, lineMac fetched 2 { entry := 7 } 1 0 ≠ le 8 ((lineWith x).extractLsb' 448 64).toNat := by
  by_cases h : lineMac fetched 2 { entry := 7 } 1 0 = le 8 0
  · refine ⟨1, ?_⟩
    rw [h, lineWith_mac]; decide
  · refine ⟨0, ?_⟩
    rw [lineWith_mac]; exact h
theorem test_line_passes : let s := fetching
    (∃ x : BitVec 64, lineMac fetched 2 { entry := 7 } 1 0 = le 8 ((lineWith x).extractLsb' 448 64).toNat) ∧
    lineOwner s 2 7 = some (1, { st := 2, first := 4, count := 64, hdr := 8, entry := 6 }, 1) ∧ (s.obj 1).part = 1 ∧
    (∀ x ∈ (s.memSt 2).marks, x.1 ≠ 7) ∧ (s.memSt 2).reqs = [] := by
  refine ⟨⟨BitVec.ofNat 64 (ofLe (lineMac fetched 2 { entry := 7 } 1 0)), ?_⟩, by decide +kernel, by decide +kernel, by decide +kernel, by decide +kernel⟩
  rw [lineWith_mac]
  have hl : (lineMac fetched 2 { entry := 7 } 1 0).length = 8 := by unfold lineMac; dsimp only; rw [List.length_take, tag_length]; rfl
  generalize lineMac fetched 2 { entry := 7 } 1 0 = m at hl ⊢
  rw [BitVec.toNat_ofNat, Nat.mod_eq_of_lt (by have := ofLe_lt m; rw [hl] at this; exact this), ← hl, le_ofLe]
theorem test_line_of_another_partition : let s := { fetching with objs := [(1, { fetching.obj 1 with part := 2 })] }
    lineOwner s 2 7 = some (1, { st := 2, first := 4, count := 64, hdr := 8, entry := 6 }, 1) ∧ (s.obj 1).part ≠ vrtPart ((s.memSt 2).entry 7) ∧
    verKey s 1 = some (5, 1) := by decide +kernel
theorem test_key_delivered : let s := withKey 64 { state := 1, cls := 1, gen := 0xFFFFFFFF } (withSt (fun m => { m with port := { m.port with asked := [(64, 0xFFFFFFFF)], keys := List.replicate 255 (1, 1) } }) base)
    isMem 2 = true ∧ (s.port 2).asked.contains (64, (0xFFFFFFFF#32).toNat) = true ∧ (s.key 64).state = 1 ∧ mayHold 2 (s.key 64).cls = true ∧
    (0xFFFFFFFF#32).toNat = (s.key 64).gen ∧ (s.key 64).first = false ∧ (s.key 64).purging ≠ 1 ∧ s.portState 2 ≠ .closed ∧ (keyRoom 2 s).isSome = true ∧ (s.memSt 2).reqs = [] := by decide +kernel
theorem test_descriptor_refill : let s := holding (one fun r => { r with stage := 9 }) base
    (base.memSt 2).reqs.filter (fun r => r.stage == 9 && handleIdx r.handle.toNat == 1) = [] ∧
    (s.memSt 2).reqs.filter (fun r => r.stage == 9 && handleIdx r.handle.toNat == 1) ≠ [] ∧ s.portState 2 ≠ .closed := by decide +kernel
theorem test_request_timeout : let r := one fun r => { r with stage := 0, born := 4900000 }
    (base.memSt 2).reqs.find? (fun r => r.tag == 3 && uncommitted r && decide (r.born + Config.ms 1 ≤ base.now)) = none ∧
    ((holding r base).memSt 2).reqs.find? (fun r => r.tag == 3 && uncommitted r && decide (r.born + Config.ms 1 ≤ base.now)) = some r := by decide +kernel
def counted (f : Obj → Obj) : Obj → Obj := placed fun o => f { o with cls := 2, keySlot := 64 }
/-- Station 2 re-seals entry 7 of object 1; `i` is the slot in hand. -/
def resealing (i : Nat) (opened : Bool) : State := withKey 64 { state := 1, cls := 1, gen := 1, cur := 3 } (withSt (fun m => { m with
  port := { m.port with opened := opened, keys := [(64, 1)] }, reseal := [(7, false)], lines := [{ entry := 7, major := 1 }],
  vrt := [(7, BitVec.ofNat 64 (2 ^ 63 + 2 ^ 61 + i * 2 ^ 56 + 2 ^ 48))] }) (withObj (counted id) base))
theorem test_nothing_to_reseal : (base.memSt 2).reseal = [] := by decide +kernel
theorem test_reseal_waits : let s := resealing 0 false
    (clearQueue 2 s).memSt 2 = s.memSt 2 ∧ (s.memSt 2).reseal = (7, false) :: [] ∧ (lineOwner s 2 7).isSome = true ∧
    (cachedLine (s.memSt 2) 7).isSome = true ∧ backgroundOk s 2 = false := by decide +kernel
theorem test_reseal_last_slot : let s := resealing 31 true
    let w := clearQueue 2 s
    (∀ x ∈ (s.memSt 2).reseal, staleMove s 2 x = false ∧ (lineOwner s 2 x.1).isSome = true) ∧
    (w.memSt 2).reseal = (7, false) :: [] ∧ lineOwner w 2 7 = some (1, { st := 2, first := 4, count := 64, hdr := 8, entry := 6 }, 1) ∧
    cachedLine (w.memSt 2) 7 = some { entry := 7, major := 1 } ∧ backgroundOk w 2 = true ∧ vrtCursor ((w.memSt 2).entry 7) = 31 ∧
    slotBusy w 2 (tileIndex w 2 (4 + 63)) = false ∧ (keyGenFor w (w.obj 1) { st := 2, first := 4, count := 64, hdr := 8, entry := 6 } 1 0 32).2 = 1 ∧
    (w.port 2).keys.contains (64, 1) = true ∧ halfOf (w.key 64) 1 = some 3 := by decide +kernel
theorem test_rekey_start : let s := withKey 64 { state := 1, cls := 1, gen := 1 } (withObj (counted id) base)
    (s.obj 1).state = 1 ∧ (s.obj 1).cls ≠ 4 ∧ (s.obj 1).rekey = none ∧ (s.key 64).state = 1 ∧ (s.obj 1).loading = false ∧ canDraw s 0 = true ∧ s.keep.verifyBad = false := by decide +kernel
theorem test_rekey_again : let s := withObj (counted fun o => { o with rekey := some {} }) base
    (s.obj 1).state = 1 ∧ (s.obj 1).cls ≠ 4 ∧ (s.obj 1).rekey = some {} ∧ (∀ x ∈ (s.memSt 2).reports, x.2 ≠ 3) ∧
    placeOf (s.obj 1) 2 = some { st := 2, first := 4, count := 64, hdr := 8, entry := 6 } ∧ 0 ≤ reportLine s 2 1 3 := by decide +kernel
theorem test_rekey_once_more : let s := { withObj (counted fun o => { o with rekey := some {}, places := o.places.map fun p => { p with moved := 2 } }) base with
      mem := [(2, { vrt := [(6, vrtSetCond 0 1)] })] }
    (s.obj 1).rekey = some {} ∧ (placeOf (s.obj 1) 2).map (·.moved) = some 2 ∧ reportLine s 2 1 3 < 2 := by decide +kernel
/-- A sealed region of three tiles on station 2 is re-keyed, `n` of them moved. -/
def moving (n : Nat) (opened : Bool) : State := withKey 64 { state := 4, cls := 1, gen := 1, pend := 5, pendIs := 1 }
  (withSt (fun m => { m with port := { m.port with opened := opened, keys := [(64, 1), (64, 2)] } })
    (withObj (sealedObj fun o => { o with places := [{ st := 2, count := 3, cursor := 3, moved := n }], rekey := some {} }) base))
theorem test_rekey_move_waits : let s := moving 2 false
    (placeOf (s.obj 1) 2).isSome = true ∧ (s.obj 1).rekey = some {} ∧ backgroundOk s 2 = false := by decide +kernel
theorem test_rekey_move : let s := moving 2 true
    placeOf (s.obj 1) 2 = some { st := 2, count := 3, cursor := 3, moved := 2 } ∧ (s.obj 1).rekey = some {} ∧ backgroundOk s 2 = true ∧
    (s.key (s.obj 1).keySlot).state = 4 ∧ (s.obj 1).cls = 1 ∧ 2 < 3 ∧ isMem 2 = true ∧ (s.port 2).keys.contains (64, 1) = true ∧
    (s.port 2).keys.contains (64, 2) = true ∧ halfOf (s.key 64) 1 = some 0 ∧ halfOf (s.key 64) 2 = some 5 := by decide +kernel
theorem test_rekey_commit_waits : let s := moving 2 true
    (s.obj 1).rekey = some {} ∧ allMoved (s.obj 1) = false := by decide +kernel
theorem test_rekey_commit : let s := moving 3 true
    (s.obj 1).rekey = some {} ∧ allMoved (s.obj 1) = true ∧ (s.key (s.obj 1).keySlot).state = 4 := by decide +kernel
theorem test_retiring_mark : let s : State := { withKey 64 { state := 6, cls := 1 } base with keepway := [(4999990, 2, 64)] }
    s.keepway = (4999990, 2, 64) :: [] ∧ (s.key 64).state = 6 ∧ (holders (s.key 64).cls).contains 2 = true ∧ isMem 2 = true ∧ isLink 0x80 = true := by decide +kernel
theorem test_drain_cut : let s := withKey 64 { state := 6, cutAt := some 5000000 } base
    drainOver s 64 = true ∧ drainOver (withKey 64 { state := 6, cutAt := some 5000001 } base) 64 = false := by decide +kernel
theorem test_epoch_cut : let s : State := { base with epochDraining := true, epochAt := 4500000 }
    s.epochDraining = true ∧ s.epochAt + Config.ms 5 ≤ s.now ∧ base.now < ({ base with epochAt := 4500001 } : State).epochAt + Config.ms 5 := by decide +kernel
theorem test_freeze_partition : let s : State := { base with parts := [(1, { state := 3 })], keepway := [(4999990, 0, 1)] }
    isMem 2 = true ∧ s.keepway = (4999990, 0, 1) :: [] ∧ (s.part 1).state = 3 ∧ ∀ u ∈ Config.memIds, (s.memSt u).reqs = [] := by decide +kernel
theorem test_freeze_object : let s : State := { withObj (fun o => { o with frozen := true }) base with keepway := [(4999990, 1, 1)] }
    isMem 2 = true ∧ 1 ≠ 0 ∧ s.keepway = (4999990, 1, 1) :: [] ∧ (s.obj 1).frozen = true ∧ ∀ u ∈ Config.memIds, (s.memSt u).reqs = [] := by decide +kernel
theorem test_stripe_hashed : let s := withObj (sealedObj fun o => { o with meas := 2, tiles := 1, leaves := [(0, [1])] }) base
    let o := s.obj 1
    let ks := (List.range 16).map (· + 16 * 0) |>.filter fun k => decide (k < o.tiles)
    o.meas = 2 ∧ o.places[0 % o.places.length]? = some { st := 2, count := 3, cursor := 3 } ∧ ks ≠ [] ∧ tfind o.nodes 0 = none ∧
    ∀ k ∈ ks, (tfind o.leaves k).isSome = true := by decide +kernel
/-- REGION_SEAL of object 1 runs. -/
def sealing (f : Obj → Obj) : State := { withObj (sealedObj fun o => f { o with measured := true, tiles := 3, loading := true }) base with
  taken := [{ q := 1, seq := 8, e := env 0x0402 2 [(0, hd 1)], phase := 2, aux := 1 }] }
theorem test_fold_of_a_broken_region : let s := sealing fun o => { o with meas := 1 }
    (runningWith s 0x0402 1).length = 1 ∧ (s.obj 1).meas = 1 := by decide +kernel
theorem test_fold_of_a_sealed_region : let s := sealing fun o => { o with meas := 3 }
    (runningWith s 0x0402 1).length = 1 ∧ (s.obj 1).meas ≠ 1 ∧ (s.obj 1).meas ≠ 2 := by decide +kernel
theorem test_fold : let s := sealing fun o => { o with meas := 2, nodes := [(0, [5])] }
    runningWith s 0x0402 1 = { q := 1, seq := 8, e := env 0x0402 2 [(0, hd 1)], phase := 2, aux := 1 } :: [] ∧ (s.obj 1).meas = 2 ∧ (s.obj 1).loading = true ∧
    cursorsFull (s.obj 1) = true ∧ (s.obj 1).nodes.length = stripes (s.obj 1).tiles ∧
    earlierSeal s { q := 1, seq := 8, e := env 0x0402 2 [(0, hd 1)], phase := 2, aux := 1 } = false ∧ (s.obj 1).wantRekey = false := by decide +kernel

/-! ### Sealed fabric traffic (O16 to O19) -/

/-- A job of partition 1 at link station 0x80, bound and under key slot 65; device 5 here, and an open port. -/
def job (f : Job → Job) : Job := f { state := 1, domain := 3, own := 5, keyIndex := 2, slot := 65, gen := 1 }
def withLink (f : LinkSt → LinkSt) (s : State) : State := { s with
  link := [(0x80, f { port := { opened := true, cur := { parts := [1] }, keys := [(65, 1)] }, jobs := [(1, job id)] })],
  keys := [(65, { state := 1, cls := 3, gen := 1, cur := 9 }), (66, { state := 1, cls := 4, gen := 1, cur := 11 })],
  doms := [(1, { state := 4, domain := 3, own := 5, jobSlot := 65, ckptSlot := 66, members := [] })] }

theorem test_link_job_config : let s := op (withLink (fun l => { l with ctxs := [{ part := 1, peer := 18, state := 2, port := 31 }] }) base)
    Starts 0x0501 0 (env 0x0501 1 [(0, 1), (1, 200), (4, 2 ^ 95 - 2 ^ 90 + 2 ^ 319)]) 0 s ∧ (jobOf s 0x80 1).state = 1 ∧ 200 ≤ 200 ∧
    (∀ c ∈ s.backing, c.part = 1) ∧ ∀ l ∈ s.link, ∀ c ∈ l.2.ctxs, c.part = 1 ∧ c.ingress = false ∧ c.state = 2 ∧
      c.port = tget 0 ((List.range 64).map fun i => (i, opnd (env 0x0501 1 [(0, 1), (1, 200), (4, 2 ^ 95 - 2 ^ 90 + 2 ^ 319)]) 4 40 / 2 ^ (5 * i) % 32)) (c.peer % 64) :=
  ⟨starts_of (by decide +kernel), by decide +kernel⟩
theorem test_bulk_copy : let s := dev (withLink id (withObj id base))
    Starts 0x0512 1 (env 0x0512 2 [(0, hd 1), (4, 8192), (9, 18), (12, hd 7), (16, 16384), (22, 1023), (24, 63)]) 0 s ∧
    keepLinkCheck s 1 18 = 0 ∧ objAccess s 1 (hd 1) 8192 (8192 * 63) false = 0 ∧ s.copies = [] := ⟨starts_of (by decide +kernel), by decide +kernel⟩
theorem test_bulk_copy_of_nothing : let s := dev (withLink id (withObj id base))
    Starts 0x0512 1 (env 0x0512 2 [(0, hd 1), (9, 18), (12, hd 7)]) 0 s ∧ objAccess s 1 (hd 1) 0 0 false = 0 := ⟨starts_of (by decide +kernel), by decide +kernel⟩
theorem test_ckpt_send : let s := dev (withLink id (withObj id base))
    let e := env 0x0520 2 [(0, hd 1), (4, 8192), (9, 18), (12, 1), (16, 2 ^ 31 - 1), (20, 2 ^ 46 - 1), (26, 7), (27, 2), (32, 19), (35, 20)]
    Starts 0x0520 1 e 0 s ∧ MeterFits s 1 5 ((parseTiles 1 []).map (·.1)).sum ∧ (∀ x ∈ [18, 19, 20], keepLinkCheck s 1 x = 0) ∧ opnd e 27 1 = 2 ∧ (s.key (s.dom 1).ckptSlot).cls = 4 ∧
    (s.key (s.dom 1).ckptSlot).ckpt = none ∧ objAccess s 1 (hd 1) 8192 8192 false = 0 :=
  ⟨starts_of (by decide +kernel), fits_of (by decide +kernel), by decide +kernel⟩
theorem cut_left (i n : Nat) (a b : Bytes) (h : i + n ≤ a.length) : cut i n (a ++ b) = cut i n a := by
  unfold cut fit
  rw [List.drop_append_of_le_length (by omega), List.take_append_of_le_length (by rw [List.length_drop]; all_goals omega)]
  congr 2
  simp only [List.length_append, List.length_drop]; omega
theorem cut_all (n : Nat) (a : Bytes) (h : a.length = n) : cut 0 n a = a := by
  unfold cut fit
  rw [List.drop_zero, ← h, List.take_length, Nat.sub_self]; exact List.append_nil a
theorem cut_right (i n : Nat) (a b : Bytes) (h : a.length = i) : cut i n (a ++ b) = cut 0 n b := by
  unfold cut
  rw [← h, List.drop_left, List.drop_zero]

/-- A checkpoint record of one entry that names 16 bytes, with the tag that opens it. -/
def ckptRec (k : BitVec 256) : Bytes :=
  let h := ckptHdr 4 5 6 16
  h ++ gcmTag k (ckptIv 5 4 6) h (zeros 16) ++ zeros 16

theorem ckpt_opens (k : BitVec 256) : ∃ b, b.length = 16 ∧
    gcmOpen k (ckptIv (ofLe (cut 4 3 (ckptRec k))) (ofLe (cut 0 4 (ckptRec k))) (ofLe (cut 8 6 (ckptRec k)))) ((ckptRec k).take 32)
      (cut 48 16 (ckptRec k)) (cut 32 16 (ckptRec k)) = some b ∧ ofLe (cut 16 8 (ckptRec k)) = 16 ∧ (ckptRec k).length = 64 := by
  refine ⟨ctrXor k (ckptIv 5 4 6) 2 (zeros 16), by rw [ctrXor_len]; rfl, ?_⟩
  have hl := tag_length k (ckptIv 5 4 6) (ckptHdr 4 5 6 16) (zeros 16)
  have ho := opens k (ckptIv 5 4 6) (ckptHdr 4 5 6 16) (zeros 16)
  unfold ckptRec
  dsimp only
  generalize gcmTag k (ckptIv 5 4 6) (ckptHdr 4 5 6 16) (zeros 16) = t at hl ho ⊢
  generalize ctrXor k (ckptIv 5 4 6) 2 (zeros 16) = p at ho ⊢
  have h32 : (ckptHdr 4 5 6 16).length = 32 := by decide +kernel
  have e (i n : Nat) (h : i + n ≤ 32) : cut i n (ckptHdr 4 5 6 16 ++ t ++ zeros 16) = cut i n (ckptHdr 4 5 6 16) := by
    rw [List.append_assoc]; exact cut_left i n _ _ (by rw [h32]; exact h)
  rw [e 4 3 (by decide), e 0 4 (by decide), e 8 6 (by decide), e 16 8 (by decide),
    show cut 32 16 (ckptHdr 4 5 6 16 ++ t ++ zeros 16) = t by
      rw [List.append_assoc, cut_right _ _ _ _ h32, cut_left _ _ _ _ (by omega), cut_all _ _ hl],
    show cut 48 16 (ckptHdr 4 5 6 16 ++ t ++ zeros 16) = zeros 16 by
      rw [cut_right _ _ _ _ (by rw [List.length_append, h32, hl]), cut_all _ _ (by decide)],
    show (ckptHdr 4 5 6 16 ++ t ++ zeros 16).take 32 = ckptHdr 4 5 6 16 by
      rw [List.append_assoc, ← h32]; exact List.take_left' rfl,
    show ofLe (cut 4 3 (ckptHdr 4 5 6 16)) = 5 by decide +kernel, show ofLe (cut 0 4 (ckptHdr 4 5 6 16)) = 4 by decide +kernel,
    show ofLe (cut 8 6 (ckptHdr 4 5 6 16)) = 6 by decide +kernel]
  exact ⟨ho, by decide +kernel, by simp [h32, hl, zeros]⟩
theorem test_ckpt_restore : let s := dev (withLink id (withObj id base))
    Starts 0x0521 1 (env 0x0521 2 [(0, hd 1), (4, hd 1), (8, 8192)]) 0 s ∧ (s.key (s.dom 1).ckptSlot).cls = 4 ∧
    (s.key (s.dom 1).ckptSlot).cur = 11 ∧ (∀ b : Bytes, b.length = 16 → (parseTiles (b.length / 16) b).length = 1) ∧
    tileAccess s 1 (hd 1) 8192 8192 = 0 ∧ objAccess s 1 (hd 1) 0 (48 + 16) false = 0 ∧ MeterFits s 1 5 (48 + 16) ∧
    ∀ n, n < 2 ^ 32 → MeterFits s 1 4 n := by
  refine ⟨starts_of (by decide +kernel), by decide +kernel, by decide +kernel, fun b h => ?_, by decide +kernel, by decide +kernel,
    fits_of (by decide +kernel), fun n h => Or.inr ?_⟩
  rotate_left 1
  · show 0 + n < 2 ^ 64; omega
  rw [h]
  cases b with
  | nil => exact absurd h (by decide)
  | cons x b => rfl
/-- Shards 8 and 9 are missing of ten of one byte. -/
theorem test_parity_rebuild : let s := dev (withObj id base)
    let e := env 0x0522 2 ([(0, 2), (1, 0x300), (44, hd 1)] ++ (List.range 8).map fun i => (4 + 4 * i, hd 1))
    let inp : Bytes := ((List.range 8).map fun i => le 4 1 ++ [BitVec.ofNat 8 i]).flatten
    Starts 0x0522 1 e 0 s ∧ opnd e 0 1 = 2 ∧ opnd e 1 2 < 2 ^ 10 ∧ ((List.range 10).filter fun i => opnd e 1 2 / 2 ^ i % 2 == 1) = [8, 9] ∧
    (∀ i < 10, opnd e (4 + 4 * i) 4 = 0 ↔ i ∈ [8, 9]) ∧ ((parseShards 10 inp).map List.length) = [1, 1, 1, 1, 1, 1, 1, 1, 0, 0] ∧
    objAccess s 1 (opnd e 44 4) 0 2 true = 0 ∧
    (∀ x ∈ (parseShards 10 inp).zipIdx, opnd e (4 + 4 * x.2) 4 = 0 ∨ objAccess s 1 (opnd e (4 + 4 * x.2) 4) 0 x.1.length false = 0) :=
  ⟨starts_of (by decide +kernel), by decide +kernel⟩
theorem test_parity_is_charged : let s := dev (withObj id base)
    MeterFits s 1 5 8 ∧ MeterFits s 1 4 2 := ⟨fits_of (by decide +kernel), fits_of (by decide +kernel)⟩

/-- A packed link request. -/
def lpack (r : LReq) : BitVec 224 := BitVec.ofNat 224 (r.kind + r.tag * 2 ^ 4 + r.part * 2 ^ 16 + r.epoch.toNat * 2 ^ 24 + r.engine * 2 ^ 40 +
  r.slot * 2 ^ 52 + r.dst * 2 ^ 61 + r.handle.toNat * 2 ^ 79 + r.off * 2 ^ 111 + r.len * 2 ^ 151 + r.akind * 2 ^ 166 + r.fence * 2 ^ 176)
def load (f : LReq → LReq) : BitVec 224 := lpack (f { kind := 1, tag := 4095, part := 1, engine := 6, slot := 383, dst := 18, handle := 0x100001, off := 4096, len := 4096, fence := 2 })
/-- The egress space of device 18, open at sequence 8. -/
def space (f : Ctxt → Ctxt) : Ctxt := f { part := 1, peer := 18, state := 2, gen := 1, sepoch := 3, seq := 8 }

theorem test_link_closed : base.portState 0x80 ≠ .opened := by decide +kernel
theorem test_link_request_refused : let s := withLink (fun l => { l with jobs := [] }) base
    isLink 0x80 = true ∧ s.portState 0x80 = .opened ∧ (∀ p ∈ s.profs, p.2.fence ≠ 2) ∧ linkCheck s 0x80 (linkReq (load id) []) ≠ 0 := by decide +kernel
theorem test_link_request_leaves : let s := withLink (fun l => { l with ctxs := [space id] }) base
    let r := linkReq (load id) []
    let l := s.linkSt 0x80
    let j := tget {} l.jobs r.part
    isLink 0x80 = true ∧ s.portState 0x80 = .opened ∧ (∀ p ∈ s.profs, p.2.fence ≠ r.fence) ∧ linkCheck s 0x80 r = 0 ∧ tracked r.kind = true ∧
    j.state = 1 ∧ j.stalled = false ∧ atLimit l r = false ∧ l.waiting = [] ∧ (∀ b ∈ l.bundles, ¬ (b.part = r.part ∧ b.peer = r.dst)) ∧
    freeTracker l = some 0 ∧ findCtx l r.part r.dst false false = some (space id) ∧ (space id).state = 2 ∧ (space id).gen = j.gen ∧
    l.port.keys.contains (j.slot, gen32 (s.key j.slot) j.gen) = true ∧ halfOf (s.key j.slot) (gen32 (s.key j.slot) j.gen) = some 9 := by decide +kernel
theorem test_instance_opens : let c (e g : Nat) := space fun c => { c with state := if g = 1 then 5 else 2, sepoch := e, gen := g }
    let s (e g : Nat) := withLink (fun l => { l with ctxs := [c e g], waiting := [linkReq (load id) []] }) base
    (∀ x ∈ [(0x3FFE, 1), (0x3FFF, 1), (3, 0)], findCtx ((s x.1 x.2).linkSt 0x80) 1 18 false false = some (c x.1 x.2) ∧
      (s x.1 x.2).portState 0x80 ≠ .closed ∧ (jobOf (s x.1 x.2) 0x80 1).state = 1 ∧ (jobOf (s x.1 x.2) 0x80 1).stalled = false ∧
      ∃ r ∈ ((s x.1 x.2).linkSt 0x80).waiting, r.part = 1 ∧ r.dst = 18 ∧ r.resp = false) ∧
    max (0x3FFE + 1) (jobOf (s 0x3FFE 1) 0x80 1).mark = 0x3FFF ∧ max (0x3FFF + 1) (jobOf (s 0x3FFF 1) 0x80 1).mark > 0x3FFF ∧
    (c 3 0).gen ≠ (jobOf (s 3 0) 0x80 1).gen ∧ (c 3 0).seq ≠ 0 := by decide +kernel
theorem test_context_refilled : let s (n : Nat) := withLink (fun l => { l with ctxs := [space fun c => { c with state := n }] }) base
    findCtx ((s 1).linkSt 0x80) 1 18 false false = some (space fun c => { c with state := 1 }) ∧ (s 1).portState 0x80 ≠ .closed ∧
    (findCtx ((s 2).linkSt 0x80) 1 18 false false).map (·.state) = some 2 := by decide +kernel
theorem test_bundle_flush : let b : Bundle := { part := 1, peer := 18, openAt := 4999000 }
    let s := withLink (fun l => { l with bundles := [b], jobs := [(1, job fun j => { j with flush := 200 })] }) base
    s.portState 0x80 ≠ .closed ∧ (s.linkSt 0x80).bundles = [b] ∧ b.openAt + 5 * (jobOf s 0x80 1).flush ≤ s.now ∧ s.now < 4999001 + 5 * (jobOf s 0x80 1).flush := by decide +kernel

theorem test_malformed_packet : base.portState 0x80 = .closed ∧ (withLink id base).portState 0x80 ≠ .closed ∧ packetMalformed [] = true := by decide +kernel
/-- A packet of 16 ciphertext bytes from device 18, the next of its space, with a tag of 16 bytes. -/
def packet (t : Bytes) : Bytes := packetHdr 1 5 0 18 0 16 2 1 3 (seqField 5 false 1 8) ++ (zeros 16 ++ t)
def inspace (f : Ctxt → Ctxt) : Ctxt := space fun c => f { c with ingress := true }
theorem packet_opens (k : BitVec 256) : ∃ t : Bytes, t.length = 16 ∧
    (gcmOpen k (linkIv 18 3 (seqField 5 false 1 8)) ((packet t).take 8 ++ [0, 0] ++ cut 10 22 (packet t)) (zeros 16) t).isSome = true := by
  let h := packetHdr 1 5 0 18 0 16 2 1 3 (seqField 5 false 1 8)
  have h32 : h.length = 32 := by decide +kernel
  refine ⟨gcmTag k (linkIv 18 3 (seqField 5 false 1 8)) (h.take 8 ++ [0, 0] ++ cut 10 22 h) (zeros 16), tag_length .., ?_⟩
  unfold packet
  rw [cut_left 10 22 _ _ (by rw [h32]; all_goals decide), List.take_append_of_le_length (by rw [h32]; all_goals decide), opens]
  rfl
/-- Whatever the 16 bytes of its tag are, the packet meets the checks before the tag's. -/
theorem test_packet_arrives (t : Bytes) (ht : t.length = 16) :
    let s := withLink (fun l => { l with ctxs := [inspace id] }) base
    let q := packetOf s.now 1 6 (packet t)
    isLink 0x80 = true ∧ s.portState 0x80 ≠ .closed ∧ packetMalformed (packet t) = false ∧ (packet t).length = 48 + 16 ∧
    ((s.linkSt 0x80).jobs.find? fun x => x.2.state != 0 && x.2.keyIndex == ofLe (cut 16 2 (packet t))) = some (1, job id) ∧
    (job id).state = 1 ∧ (job id).stalled = false ∧ q.gen = 1 ∧ q.response = false ∧ q.peer = 18 ∧ q.sepoch = 3 ∧ q.seq = 8 ∧
    ofLe (cut 24 8 (packet t)) = seqField 5 false 1 8 ∧ seqField 5 false 1 8 / 2 ^ 36 = seqField (job id).own false 1 0 / 2 ^ 36 ∧
    tget {} (s.linkSt 0x80).jobs 1 = job id ∧ (inspace id).state = 2 ∧ (inspace id).gen = 1 ∧
    findCtx (s.linkSt 0x80) 1 18 true false = some (inspace id) ∧ (inspace id).sepoch = 3 ∧ (inspace id).seq = 8 ∧
    (s.linkSt 0x80).held = [] ∧ (s.linkSt 0x80).lost = [] ∧ (s.linkSt 0x80).port.keys.contains (65, gen32 (s.key 65) 1) = true ∧
    halfOf (s.key 65) (gen32 (s.key 65) 1) = some 9 ∧ cut 32 16 (packet t) = zeros 16 ∧ cut 48 16 (packet t) = t := by
  have h32 : (packetHdr 1 5 0 18 0 16 2 1 3 (seqField 5 false 1 8)).length = 32 := by decide +kernel
  have e (i n : Nat) (h : i + n ≤ 32) : cut i n (packet t) = cut i n (packetHdr 1 5 0 18 0 16 2 1 3 (seqField 5 false 1 8)) :=
    cut_left i n _ _ (by omega)
  have hl : (packet t).length = 48 + 16 := by unfold packet; rw [List.length_append, List.length_append, h32, ht]; rfl
  have hm : packetMalformed (packet t) = false := by
    unfold packetMalformed
    rw [e 0 4 (by decide), e 8 2 (by decide), e 4 4 (by decide), e 10 6 (by decide), e 16 2 (by decide), e 20 2 (by decide), e 22 2 (by decide), hl]
    decide +kernel
  have h32' : cut 32 16 (packet t) = zeros 16 := by
    unfold packet; rw [cut_right _ _ _ _ h32, cut_left _ _ _ _ (by decide), cut_all _ _ (by decide)]
  have h48 : cut 48 16 (packet t) = t := by
    unfold packet; rw [← List.append_assoc, cut_right _ _ _ _ (by rw [List.length_append, h32]; rfl), cut_all _ _ ht]
  dsimp only [packetOf]
  rw [e 0 4 (by decide), e 4 4 (by decide), e 16 2 (by decide), e 18 2 (by decide), e 20 2 (by decide), e 24 8 (by decide)]
  refine ⟨by decide, by decide +kernel, hm, hl, ?_⟩
  repeat' apply And.intro
  any_goals with_reducible first | exact h32' | exact h48
  all_goals decide +kernel
/-- A held packet whose section is one Store of 16 bytes. -/
def store (f : Held → Held) : Held :=
  f { phase := 2, part := 1, peer := 18, cls := 1, gen := 1, sepoch := 3, seq := 8, slot := 6, body := opHdr 2 4 16 0 0 0x100001 64 ++ zeros 16 }
theorem test_packet_applied : let c := inspace id
    let s := withLink (fun l => { l with ctxs := [c], held := [store id] }) base
    let ops := parseOps 289 (store id).body
    let u := settleLink 0x80 s
    let l := u.linkSt 0x80
    u.portState 0x80 ≠ .closed ∧ (ops.filter fun o => decide (ofLe (o.1.take 1) < 0x80)).length = 1 ∧ l.ops.length + 1 ≤ 1024 ∧ findCtx l 1 18 true false = some c ∧ c.state = 2 ∧ c.flagWait = false ∧
    (l.held.find? fun x => ofInstance c x && x.phase == 2 && x.seq == c.seq) = some (store id) ∧ sectionBad (store id) ops = false ∧
    (∀ o ∈ ops, ofLe (cut 1 1 o.1) / 2 % 2 = 0 ∧ bulkWaits u o = false) ∧ l.contTx = [] ∧ (jobOf u 0x80 1).state = 1 := by decide +kernel
/-- A remote operation that station 0x80 has issued. -/
def rop (f : RemOp → RemOp) : RemOp := f { tag := 1023, part := 1, peer := 18, opcode := 1, tracker := 5, gen := 1, sepoch := 3, seq := 8 }
def withOps (o : List RemOp) : State := withLink (fun l => { l with ops := o }) base
theorem test_load_waits : findOp (withOps [rop id]) 0x80 1023 1 = some (rop id) ∧ (rop id).done = false := by decide +kernel
theorem test_load_failed : let o := rop fun o => { o with done := true, code := 1 }
    findOp (withOps [o]) 0x80 1023 1 = some o ∧ o.done = true ∧ o.code ≠ 0 := by decide +kernel
theorem test_load_done : let o := rop fun o => { o with done := true }
    findOp (withOps [o]) 0x80 1023 1 = some o ∧ o.done = true ∧ o.code = 0 := by decide +kernel
theorem test_atomic_and_invalidate : let o (n : Nat) := rop fun o => { o with opcode := n }
    findOp (withOps [o 3]) 0x80 1023 3 = some (o 3) ∧ findOp (withOps [o 4]) 0x80 1023 4 = some (o 4) := by decide +kernel
theorem test_flush_done : let o := rop fun o => { o with opcode := 6 }
    let b (d : Bool) := rop fun o => { o with tag := 7, opcode := 4, done := d }
    findOp (settleLink 0x80 (withOps [b true, o])) 0x80 1023 6 = some o ∧
    (∀ x ∈ opsBefore ((settleLink 0x80 (withOps [b true, o])).linkSt 0x80) o, x.done = true) ∧
    findOp (settleLink 0x80 (withOps [b false, o])) 0x80 1023 6 = some o ∧
    ∃ x ∈ opsBefore ((settleLink 0x80 (withOps [b false, o])).linkSt 0x80) o, x.done = false := by decide +kernel
theorem test_flagged_store_goes : let o := rop fun o => { o with opcode := 2, issued := false, flagged := true }
    let u := settleLink 0x80 (withOps [o])
    ((u.linkSt 0x80).ops.find? fun o => o.opcode == 2 && !o.issued && o.part == 1 && o.peer == 18) = some o ∧
    ∀ x ∈ opsBefore (u.linkSt 0x80) o, x.opcode = 2 → x.done = true := by decide +kernel
theorem test_bulk_report : let o (c : Nat) := rop fun o => { o with opcode := 7, done := true, code := c, off := 8192 }
    let s (c : Nat) : State := { withOps [o c] with arrivals := [(5, { state := 1, part := 1, total := 4 })] }
    findOp (s 0) 0x80 1023 7 = some (o 0) ∧ findOp (s 1) 0x80 1023 7 = some (o 1) ∧ (tget {} (s 0).arrivals 5).state = 1 ∧
    (tget {} (s 0).arrivals 5).part = 1 ∧ (o 0).done = true ∧ (o 0).code = 0 ∧ (o 1).code ≠ 0 := by decide +kernel
theorem test_gap_timeout : let c := inspace id
    let s (at_ : Nat) := withLink (fun l => { l with ctxs := [c], held := [store fun h => { h with seq := 9, at_ := at_ }] }) base
    findCtx ((s 4980000).linkSt 0x80) 1 18 true false = some c ∧ c.state = 2 ∧ (s 4980000).portState 0x80 ≠ .closed ∧
    (∀ h ∈ ((s 4980000).linkSt 0x80).held, ofInstance c h = true → h.seq ≠ c.seq) ∧
    (∃ h ∈ ((s 4980000).linkSt 0x80).held, ofInstance c h = true ∧ c.seq < h.seq ∧ h.at_ + Config.us 200 ≤ (s 4980000).now) ∧
    ∀ h ∈ ((s 4980001).linkSt 0x80).held, (s 4980001).now < h.at_ + Config.us 200 := by decide +kernel
theorem test_tracker_timeout : let t (n : Nat) : Tracker := { part := 1, peer := 18, engine := 4095, sentAt := n, fence := 2 }
    let s (n : Nat) := withLink (fun l => { l with trackers := [(4095, t n)] }) base
    tfind ((s 4800000).linkSt 0x80).trackers 4095 = some (t 4800000) ∧ (s 4800000).portState 0x80 ≠ .closed ∧ (t 4800000).sentAt + Config.ms 2 ≤ (s 4800000).now ∧
    (t 4800000).engine < 4096 ∧ (∀ p ∈ (s 4800000).profs, p.2.fence ≠ 2) ∧ (s 4800001).now < (t 4800001).sentAt + Config.ms 2 := by decide +kernel
theorem test_rotation_commit : let s := withLink (fun l => { l with jobs := [(1, job fun j => { j with armed := some 1, gen := 0 })] }) base
    sorted s.link = true ∧ commitHere s 1 (s.linkSt 0x80) = true ∧ (s.linkSt 0x80).bundles = [] ∧ (s.linkSt 0x80).held = [] ∧
    (s.linkSt 0x80).waiting = [] ∧ ∀ l ∈ (withLink id base).link, commitHere (withLink id base) 1 l.2 = false := by decide +kernel
theorem test_generation_drains : let s (n : Nat) := withLink (fun l => { l with jobs := [(1, job fun j => { j with prev := some 0, commitAt := n })] }) base
    (tget {} ((s 4980000).linkSt 0x80).jobs 1).prev = some 0 ∧ 4980000 + Config.us 200 ≤ (s 4980000).now ∧
    (∀ h ∈ ((s 4980000).linkSt 0x80).held, ¬ (h.part = 1 ∧ h.gen = 0)) ∧ (s 4980001).now < 4980001 + Config.us 200 := by decide +kernel
theorem test_member_lost : let s := withLink (fun l => { l with lost := List.replicate 255 (2, 3, 4), trackers := [(0, { part := 1, peer := 19 })] }) base
    sorted s.link = true ∧ (tget {} (s.linkSt 0x80).jobs 1).state ≠ 0 ∧ (s.linkSt 0x80).lost.length < 256 ∧ (s.linkSt 0x80).held = [] ∧
    (s.linkSt 0x80).contTx = [] ∧
    (s.linkSt 0x80).waiting = [] ∧ ∀ x ∈ (s.linkSt 0x80).trackers, x.2.part = 1 → x.2.peer ≠ (18#18).toNat := by decide +kernel

/-! ### Keys and cipher services (O20 to O27) -/

/-- The tenant's own slot 200. -/
def tenant (f : KeySlot → KeySlot) (s : State) : State := withKey 200 (f { state := 1, cls := 9, owner := 1, gen := 0xFFFF, cur := 7 }) s
theorem test_key_create : let s := dev base
    Starts 0x0601 1 (env 0x0601 2 [(0, 0xC)]) 0 s ∧ freeSlot s false = some 64 ∧ canDraw s 0 = true ∧ s.keep.verifyBad = false := ⟨starts_of (by decide +kernel), by decide +kernel⟩
theorem fit_wrapped (k : BitVec 256) (b : Bytes) (h : b.length = 32) : (kwWrap k b).length = 40 ∧ fit 40 (kwWrap k b) = kwWrap k b ∧
    kwUnwrap k (kwWrap k b) = some b := by
  obtain ⟨h1, h2⟩ := unwrap_wrap k b (by omega) (by omega)
  exact ⟨by omega, cut_all 40 (kwWrap k b) (by omega), h1⟩
theorem test_key_import : let s := dev (tenant (fun k => { k with cls := 0xA }) (withObj id base))
    Starts 0x0606 1 (env 0x0606 2 [(0, 200), (2, 9), (4, hd 1), (8, 8192)]) 0 s ∧ (s.key 200).keepOwn = false ∧ (s.key 200).owner = (s.ctx 1).part ∧
    (s.key 200).state ≠ 0 ∧ (s.key 200).state ≠ 6 ∧ (s.key 200).cls = 0xA ∧ accPart s { q := 1 } (hd 1) = (s.ctx 1).part ∧
    objAccess s 1 (hd 1) 8192 40 false = 0 ∧ freeSlot s false = some 64 ∧ s.keep.verifyBad = false ∧ MeterFits s (s.ctx 1).part 5 40 ∧
    kwUnwrap (s.key 200).cur (fit 40 (kwWrap 7 (zeros 32))) = some (zeros 32) := by
  refine ⟨starts_of (by decide +kernel), ?_, ?_, ?_, ?_, ?_, ?_, ?_, ?_, ?_, fits_of (by decide +kernel), ?_⟩
  case refine_10 => rw [(fit_wrapped 7 (zeros 32) rfl).2.1]; exact (fit_wrapped 7 (zeros 32) rfl).2.2
  all_goals decide +kernel
theorem test_key_rotate : let s := dev (tenant id base)
    Starts 0x0602 1 (env 0x0602 2 [(0, 200)]) 0 s ∧ (s.ctx 1).device = true ∧ (s.key 200).keepOwn = false ∧ (s.key 200).owner = (s.ctx 1).part ∧
    (s.key 200).state = 1 ∧ canDraw s 0 = true ∧ s.keep.verifyBad = false := ⟨starts_of (by decide +kernel), by decide +kernel⟩
theorem test_key_retire_previous : let s := dev (tenant (fun k => { k with state := 5, pendIs := 2 }) base)
    Starts 0x0603 1 (env 0x0603 2 [(0, 200)]) 0 s ∧ (s.key 200).state = 5 ∧ ∀ x ∈ s.taken, envOpcode x.e ≠ 0x0602 :=
  ⟨starts_of (by decide +kernel), by decide +kernel⟩
theorem test_key_destroy : let s := dev (tenant (fun k => { k with cls := 0xB }) base)
    Starts 0x0604 1 (env 0x0604 2 [(0, 200)]) 0 s ∧ (s.key 200).state ≠ 0 ∧ (s.key 200).state ≠ 6 := ⟨starts_of (by decide +kernel), by decide +kernel⟩
theorem test_key_query_operator : let s := op (tenant id base)
    Starts 0x0605 0 (env 0x0605 1 [(0, 16383)]) 0 s ∧ (s.ctx 0).device = false ∧ (s.ctx 0).part = 0xFF := ⟨starts_of (by decide +kernel), by decide +kernel⟩
theorem test_key_query_owner : let s := dev (tenant (fun k => { k with state := 5, pendIs := 2 }) base)
    Starts 0x0605 1 (env 0x0605 2 [(0, 200)]) 0 s ∧ (s.ctx 1).device = true ∧ (s.key 200).state ≠ 0 ∧ (s.key 200).keepOwn = false ∧
    (s.key 200).owner = (s.ctx 1).part ∧ (s.key 200).first = false ∧ (s.key 200).pendIs ≠ 0 := ⟨starts_of (by decide +kernel), by decide +kernel⟩
theorem test_random_get : let s := dev (withObj id base)
    Starts 0x0620 1 (env 0x0620 2 [(0, hd 1), (4, 8192), (10, 4096)]) 0 s ∧ MeterFits s (accPart s { q := 1 } (hd 1)) 4 4096 ∧
    canDraw s 1 = true ∧ objAccess s (accPart s { q := 1 } (hd 1)) (hd 1) 8192 4096 true = 0 :=
  ⟨starts_of (by decide +kernel), fits_of (by decide +kernel), by decide +kernel⟩

/-- What the cipher commands share: the tenant's slot, and object 1 read at 0 and written at 8192. -/
def cipherOk (cls n m : Nat) (s : State) : Bool :=
  (s.ctx 1).device && !(s.key 200).keepOwn && (s.key 200).owner == (s.ctx 1).part && (s.key 200).cls == cls && (s.key 200).state != 0 &&
  (s.key 200).state != 6 && accPart s { q := 1 } (hd 1) == 1 && objAccess s 1 (hd 1) 0 n false == 0 && objAccess s 1 (hd 1) 8192 m true == 0
theorem tenantSlot_of {cls n m s} (hq : (s.queue 1).ctx = 1) (h : cipherOk cls n m s = true) : TenantSlot s 1 200 cls := by
  unfold cipherOk at h
  simp only [Bool.and_eq_true, Bool.not_eq_true', beq_iff_eq, bne_iff_ne, ne_eq] at h
  obtain ⟨⟨⟨⟨⟨⟨⟨⟨h1, h2⟩, h3⟩, h4⟩, h5⟩, h6⟩, h7⟩, h8⟩, h9⟩ := h
  unfold TenantSlot
  rw [hq]
  exact ⟨h1, h2, h3, h4, h5, h6⟩
def cipherSt : State := dev (tenant id (withObj id base))
theorem fits_unmetered {s : State} {part n : Nat} (i : Nat) (h : (s.part part).meter = []) (hn : n < two64) : MeterFits s part i n :=
  .inr (by rw [h]; simpa [tget, tfind] using hn)
theorem test_cipher_slot : TenantSlot cipherSt 1 200 9 := tenantSlot_of (n := 8192) (m := 8192) (by decide +kernel) (by decide +kernel)

theorem test_gcm_seal : Starts 0x0610 1 (env 0x0610 2 [(0, 200), (3, 3), (4, hd 1), (16, 8000), (20, 192), (24, hd 1), (28, 8192)]) 0 cipherSt ∧
    1 ≤ 8000 ∧ 8000 ≤ maxText ∧ (cipherSt.key 200).inv + 1 < 2 ^ 47 ∧ freeUser cipherSt = some 0 ∧ cipherOk 9 8192 8000 cipherSt = true :=
  ⟨starts_of (by decide +kernel), by decide +kernel⟩
/-- AES-256-GCM, test case 14 of its authors' vectors: key, IV and 16 bytes of plaintext zero. -/
theorem test_gcm_published : gcmOpen 0 (zeros 12) [] (be 16 0xcea7403d4d606b6e074ec5d3baf39d18) (be 16 0xd0d1c8a799996bf0265b98b5d48ab919) =
    some (zeros 16) := by decide +kernel
def unsealSt : State := dev (tenant (fun k => { k with gen := 0x10000, cur := 0 }) (withObj id base))
theorem test_gcm_unseal :
    let e := env 0x0611 2 [(0, 200), (4, hd 1), (16, 16), (24, hd 1), (28, 8192), (48, ofLe (be 16 0xd0d1c8a799996bf0265b98b5d48ab919))]
    let inp : Bytes := be 16 0xcea7403d4d606b6e074ec5d3baf39d18
    Starts 0x0611 1 e 0 unsealSt ∧ 1 ≤ opnd e 16 4 ∧ opnd e 16 4 ≤ maxText ∧ cipherOk 9 16 16 unsealSt = true ∧ opBytes e 36 12 = zeros 12 ∧
    ofBe (zeros 12) / 2 ^ 48 % 2 ^ 18 = 0 ∧ nonceHalf (unsealSt.key 200) (zeros 12) = some (0x10000, 0) ∧ fit (opnd e 20 4) inp = [] ∧
    cut (opnd e 20 4) 16 inp = inp ∧ opBytes e 48 16 = be 16 0xd0d1c8a799996bf0265b98b5d48ab919 := ⟨starts_of (by decide +kernel), by decide +kernel⟩
theorem test_ctr : Starts 0x0612 1 (env 0x0612 2 [(0, 200), (3, 3), (4, hd 1), (16, 8192), (24, hd 1), (28, 8192), (33, 1), (36, ofLe (be 12 (0xFFFF * 2 ^ 66 + 4)))]) 0 cipherSt ∧
    ofBe (le 12 (ofLe (be 12 (0xFFFF * 2 ^ 66 + 4)))) / 2 ^ 66 % 2 ^ 16 = (cipherSt.key 200).gen % 2 ^ 16 ∧ freeUser cipherSt = some 0 ∧
    cipherOk 9 8192 8192 cipherSt = true := ⟨starts_of (by decide +kernel), by decide +kernel⟩
theorem test_cmac : Starts 0x0613 1 (env 0x0613 2 [(0, 200), (3, 3), (4, hd 1), (16, 8192)]) 0 cipherSt ∧ 8192 ≤ maxText ∧ freeUser cipherSt = some 0 ∧
    cipherOk 9 8192 0 cipherSt = true := ⟨starts_of (by decide +kernel), by decide +kernel⟩
/-- The tenant's wrapping key. -/
def wrapSt : State := dev (tenant (fun k => { k with cls := 0xA }) (withObj id base))
theorem test_wrap (inp : Bytes) : Starts 0x0614 1 (env 0x0614 2 [(0, 200), (2, 2), (4, hd 1), (14, 8), (16, hd 1), (20, 8192)]) 0 wrapSt ∧
    wrapLenBad 2 8 = false ∧ (wrapSt.key 200).inv + 1 < 2 ^ 47 ∧ cipherOk 0xA 8 16 wrapSt = true ∧ (kwpWrap 7 (fit 8 inp)).length = 16 := by
  refine ⟨starts_of (by decide +kernel), by decide +kernel, by decide +kernel, by decide +kernel, ?_⟩
  have h : (fit 8 inp).length = 8 := fit_len 8 inp
  unfold kwpWrap
  rw [h]
  dsimp only
  rw [if_pos (by rw [fit_len]; all_goals decide)]
  exact encBlock_len 7 _
/-- The engine's state key in slot 2, and operation 9 of context 1 with user 63. -/
def engineSt (s : State) : State := { withKey 2 { state := 1, cls := 0xE, keepOwn := true, cur := 5 } s with
  opTab := [(9, { ctx := 1, save := 4 })], users := [(63, { live := true, ctx := 1, op := 9, mode := 3, slot := 200, gen := 0xFFFF })] }
/-- Partition 1 has been charged nothing: every length the cipher commands take fits its counters. -/
theorem test_cipher_charge (n : Nat) (h : n < two64) (i : Nat) : MeterFits cipherSt 1 i n ∧ MeterFits unsealSt 1 i n ∧ MeterFits wrapSt 1 i n ∧
    MeterFits (dev (engineSt (tenant id (withObj id base)))) 1 i n := by
  refine ⟨fits_unmetered i ?_ h, fits_unmetered i ?_ h, fits_unmetered i ?_ h, fits_unmetered i ?_ h⟩ <;> decide +kernel
theorem test_unwrap : kwpUnwrap 7 (be 16 26081417510368718834199061649577098169) = some [1, 2, 3, 4, 5, 6, 7, 8] ∧
    cipherOk 0xA 16 8 wrapSt = true ∧ unwrapLenBad 2 16 = false ∧ (wrapSt.key 200).cur = 7 := by decide +kernel
theorem test_unwrap_starts : Starts 0x0615 1 (env 0x0615 2 [(0, 200), (2, 2), (4, hd 1), (14, 16), (16, hd 1), (20, 8192)]) 0 wrapSt :=
  starts_of (by decide +kernel)
theorem test_unwrap_fails : kwpUnwrap 7 (zeros 16) = none ∧ (wrapSt.key 200).pendIs ≠ 2 := by decide +kernel

theorem test_state_save : let s := dev (engineSt (tenant id (withObj id base)))
    Starts 0x0618 1 (env 0x0618 2 [(0, 63), (4, hd 1), (8, 8192)]) 0 s ∧ (tget {} s.users 63).live = true ∧ (tget {} s.users 63).ctx = (s.queue 1).ctx ∧
    noEngineKey s = false ∧ objAccess s 1 (hd 1) 8192 64 true = 0 := ⟨starts_of (by decide +kernel), by decide +kernel⟩
theorem test_op_cancel : let s := dev (engineSt base)
    Starts 0x061A 1 (env 0x061A 2 [(0, 9)]) 0 s ∧ tfind s.opTab 9 = some { ctx := 1, save := 4 } ∧ 1 = (s.queue 1).ctx :=
  ⟨starts_of (by decide +kernel), by decide +kernel⟩
theorem cmac_len (k : BitVec 256) (m : Bytes) : (cmac k m).length = 16 := by unfold cmac cmacEnd; exact encBlock_len k _
/-- A saved state of operation 9 at save `n`, with the check value that the engine's key gives it. -/
def savedHead (n : Nat) : Bytes := [1, 3] ++ le 2 200 ++ le 4 0xFFFF ++ le 4 9 ++ le 4 n ++ zeros 32
def saved (k : BitVec 256) (n : Nat) : Bytes := savedHead n ++ cmac k (savedHead n)
theorem saved_checks (k : BitVec 256) (n : Nat) : cmac k (fit 48 (saved k n)) = cut 48 16 (saved k n) ∧
    ∀ i m, i + m ≤ 48 → cut i m (saved k n) = cut i m (savedHead n) := by
  have hl : (savedHead n).length = 48 := by simp [savedHead, le, zeros]
  unfold saved
  refine ⟨?_, fun i m h => cut_left i m _ _ (by omega)⟩
  rw [cut_right _ _ _ _ hl, cut_all _ _ (cmac_len k _)]
  have : fit 48 (savedHead n ++ cmac k (savedHead n)) = savedHead n := by
    have := cut_left 0 48 (savedHead n) (cmac k (savedHead n)) (by omega)
    rw [cut_all _ _ hl] at this
    exact this
  rw [this]
theorem test_state_restore (n : Nat) (hn : n = 4 ∨ n = 3) : let s := dev (engineSt (tenant id (withObj id base)))
    let inp := saved (engineKey s) n
    Starts 0x0619 1 (env 0x0619 2 [(0, hd 1)]) 0 s ∧ ofLe (cut 0 1 inp) = 1 ∧ ofLe (cut 1 1 inp) = 3 ∧ ofLe (cut 2 2 inp) = 200 ∧
    ofLe (cut 8 4 inp) = 9 ∧ ofLe (cut 12 4 inp) = n ∧ noEngineKey s = false ∧ cmac (engineKey s) (fit 48 inp) = cut 48 16 inp ∧
    tfind s.opTab 9 = some { ctx := 1, save := 4 } ∧ (s.key 200).state ≠ 6 ∧ ofLe (cut 4 4 inp) = 0xFFFF ∧
    (userHalf (s.key 200) 0xFFFF).isSome = true ∧ accPart s { q := 1 } (hd 1) = 1 ∧ objAccess s 1 (hd 1) 0 64 false = 0 ∧
    lowFree s.users 0 64 = some 0 := by
  intro s inp
  obtain ⟨h, e⟩ := saved_checks (engineKey s) n
  refine ⟨starts_of (by decide +kernel), ?_⟩
  dsimp only [inp]
  rw [e 0 1 (by decide), e 1 1 (by decide), e 2 2 (by decide), e 8 4 (by decide), e 12 4 (by decide), e 4 4 (by decide)]
  obtain rfl | rfl := hn <;>
    exact ⟨by decide +kernel, by decide +kernel, by decide +kernel, by decide +kernel, by decide +kernel, by decide +kernel, h, by decide +kernel⟩

/-- A Retiring job key in slot 65; with a bound job it has not drained. -/
def retiring (s : State) : State := { s with keys := [(65, { state := 6, cls := 3, gen := 1, cutAt := some 5000000 })] }
theorem test_slot_drained : let s := retiring base
    (s.key 65).state = 6 ∧ (s.key 65).purging = 0 ∧ removing s 65 = false ∧ holders (s.key 65).cls ≠ [] ∧ slotDrained s 65 = true ∧
    slotDrained (retiring (withLink id base)) 65 = false ∧ (s.key 65).cutAt = some 5000000 ∧ 5000000 ≤ s.now := by decide +kernel
theorem test_slot_purged : purgedGens { (retiring base).key 65 with purging := 1 } = [1] ∧ holders ((retiring base).key 65).cls = Config.linkIds := by decide +kernel
theorem test_purge_confirmed : let s (w : List (Nat × Nat)) := withKey 65 { state := 6, cls := 3, gen := 7, purging := 1, waitPurge := w } base
    ((s [(0x80, 7)]).key 65).waitPurge.contains (0x80, (7#32).toNat) = true ∧ ((s [(0x80, 7)]).port 0x80).keys.contains (65, 7) = false ∧
    without ((s [(0x80, 7)]).key 65).waitPurge (0x80, 7) = [] ∧ without ((s [(0x80, 7), (0x80, 6)]).key 65).waitPurge (0x80, 7) ≠ [] := by decide +kernel
theorem test_swap_confirmed : let s (w : List Nat) := withKey 65 { state := 5, cls := 3, gen := 7, pendIs := 2, waitSwap := w } base
    ((s [0x80]).key 65).state = 5 ∧ ((s [0x80]).key 65).waitSwap.contains 0x80 = true ∧ without ((s [0x80, 0x81]).key 65).waitSwap 0x80 ≠ [] ∧
    without ((s [0x80]).key 65).waitSwap 0x80 = [] ∧ ((s [0x80]).key 65).purging = 0 ∧
    oldHalfDrained ((s [0x80]).onKey 65 fun k => { k with waitSwap := without k.waitSwap 0x80 }) 65 = true := by decide +kernel
theorem test_noise_source_fails : base.keep.ready = true ∧ base.keep.noise.getLsbD 3 = true ∧ base.keep.noise.getLsbD 4 = false ∧
    unhealthy 0 = true ∧ unhealthy (BitVec.ofNat 1024 ((4 ^ 512 - 1) / 3)) = false := by decide +kernel
theorem test_reseed : let s : State := { base with keep := { base.keep with condBuf := 8, drbg0 := { use := 4096 }, drbg1 := { use := 4096 } } }
    drbgLive s 0 = true ∧ 4096 ≤ (s.drbg 0).use ∧ drbgLive s 1 = true ∧ 4096 ≤ (s.drbg 1).use ∧ 2 ≤ s.keep.condBuf := by decide +kernel
theorem test_draw_wait : let t (n : Nat) : Taken := { q := 1, seq := 8, e := env 0x0620 2 [], phase := 2, askedDrbg := some n }
    findTaken { base with taken := [t 4900000] } 1 (8#32).toNat = some (t 4900000) ∧ drawLimit (t 4900000) 4900000 ≤ base.now ∧
    base.now < drawLimit (t 4900001) 4900001 := by decide +kernel
/-! ### Identity, evidence and domains (O28 to O35) -/

theorem head_len (a n : Nat) : (cHead a n).length ≤ 9 := by
  unfold cHead; dsimp only
  repeat' split
  all_goals simp [be, le_len]
theorem arr_len (l : List Bytes) : (cArr l).length ≤ 9 + l.flatten.length := by
  have := head_len 4 l.length; simp only [cArr, List.length_append]; omega
theorem map_len (l : List (Nat × Bytes)) : (cMap l).length ≤ 9 + (l.map fun p => 9 + p.2.length).sum := by
  have := head_len 5 l.length
  have h : ((l.map fun p => cUint p.1 ++ p.2).flatten).length ≤ (l.map fun p => 9 + p.2.length).sum := by
    induction l with
    | nil => simp
    | cons x l ih =>
      have := head_len 0 x.1
      have := ih (head_len 5 l.length)
      simp only [List.map_cons, List.flatten_cons, List.length_append, List.sum_cons, cUint] at *; omega
  simp only [cMap, List.length_append]; omega
theorem bytes_len (b : Bytes) : (cBytes b).length ≤ 9 + b.length := by
  have := head_len 2 b.length; simp only [cBytes, List.length_append]; omega
theorem flatten_len (m : Nat) : ∀ l : List Bytes, (∀ x ∈ l, x.length ≤ m) → l.flatten.length ≤ l.length * m
  | [], _ => by simp
  | x :: l, h => by
    have := flatten_len m l fun y hy => h y (by simp [hy])
    have := h x (by simp)
    simp only [List.flatten_cons, List.length_append, List.length_cons, Nat.add_mul]; omega
/-- A signature under ML-DSA-87 has no more than its 4,627 bytes. -/
theorem dsaTry_len {key a mu seed n b} (h : dsaTry key a mu seed n = some b) : b.length ≤ 4627 := by
  unfold dsaTry at h
  extract_lets y w ct c times z r ct0 low hint at h
  split at h
  · cases h
  · cases h
    have h1 : ct.length ≤ 64 := by simp only [ct, shake256, sponge, List.length_take]; omega
    have h2 : z.length ≤ 7 := by simp only [z, y, List.length_zipWith, List.length_map, List.length_range, dsaL]; omega
    have h3 : ((z.map fun p => packBits 20 (p.map fun x => ((dsaG1 : Int) - centred x).toNat)).flatten).length ≤ 7 * 640 := by
      refine Nat.le_trans (flatten_len 640 _ fun x hx => ?_) (Nat.mul_le_mul_right _ (by rw [List.length_map]; exact h2))
      obtain ⟨p, hp, rfl⟩ := List.mem_map.1 hx
      obtain ⟨i, hi, rfl⟩ := List.getElem_of_mem hp
      have h4 : (z[i]).length ≤ 256 := by
        simp only [z, List.getElem_zipWith, addPoly, List.length_zipWith, y, List.getElem_map, List.length_map, unpackBits, List.length_range]
        omega
      simp only [packBits, le_len, List.length_map]
      omega
    have h5 : (packHint hint).length = 83 := by
      simp only [packHint, List.length_append, List.length_map, List.length_range, fit_len]; rfl
    simp only [List.length_append, h5]; omega
theorem dsaLoop_len (key a mu seed) : ∀ f n, (dsaLoop key a mu seed f n).length ≤ 4627
  | 0, _ => by simp [dsaLoop]
  | f + 1, n => by
    unfold dsaLoop
    cases h : dsaTry key a mu seed n with
    | none => exact dsaLoop_len key a mu seed f _
    | some b => exact dsaTry_len h
theorem dual_len (p : IdPair) (c rm rp : Bytes) : (dualSign p c rm rp).length ≤ c.length + 5300 := by
  have k (b : Bytes) : (kid b).length ≤ 16 := by simp only [kid, List.length_take]; omega
  have s (x m r : Bytes) : (dsaSign x m r).length ≤ 4627 := dsaLoop_len ..
  have t (d : Nat) (m r : Bytes) : (p384Sign d m r).length = 96 := by simp [p384Sign, be, le_len]
  have hp (n : Nat) (b : Bytes) : (protHdr n b).length ≤ 61 := by
    have := map_len [(1, cNint n), (4, cBytes (kid b))]
    have := head_len 1 n
    have := bytes_len (kid b)
    have := k b
    simp only [protHdr, List.map_cons, List.map_nil, List.sum_cons, List.sum_nil, cNint] at *; omega
  have ho (b c g : Bytes) : (cose b c g).length ≤ b.length + c.length + g.length + 45 := by
    have := head_len 6 18
    have := arr_len [cBytes b, cMap [], c, cBytes g]
    have := map_len []
    have := bytes_len b
    have := bytes_len g
    simp only [cose, cTag, List.length_append, List.map_nil, List.sum_nil, List.flatten_cons, List.flatten_nil, List.length_nil] at *; omega
  unfold dualSign
  dsimp only
  generalize sigStruct (protHdr 49 p.mPub) c = x
  generalize sigStruct (protHdr 34 p.pPub) c = y
  have := arr_len [cose (protHdr 49 p.mPub) (cBytes c) (dsaSign p.xi x rm), cose (protHdr 34 p.pPub) cNil (p384Sign p.d y rp)]
  have := hp 49 p.mPub
  have := hp 34 p.pPub
  have := ho (protHdr 49 p.mPub) (cBytes c) (dsaSign p.xi x rm)
  have := ho (protHdr 34 p.pPub) cNil (p384Sign p.d y rp)
  have := s p.xi x rm
  have := t p.d y rp
  have := bytes_len c
  have : cNil.length = 1 := rfl
  simp only [List.length_append, List.flatten_cons, List.flatten_nil, List.length_nil] at *
  omega
theorem zeler_len {s : State} {part : Nat} {b : Bytes} (hc : chainOf s = []) (he : s.keep.endorse = []) (h : (claims s part b).length ≤ 2800) :
    (zeler part b s).1.length ≤ 8192 := by
  obtain ⟨k, e⟩ := zeler_at part b s
  rw [e, hc, he]
  dsimp only
  have := dual_len s.ek (claims s part b) ((drbgMany 1 s.keep.drbg1).1.take 32) ((drbgMany 2 (drbgMany 1 s.keep.drbg1).2).1.take 56)
  generalize dualSign s.ek (claims s part b) ((drbgMany 1 s.keep.drbg1).1.take 32) ((drbgMany 2 (drbgMany 1 s.keep.drbg1).2).1.take 56) = d at this ⊢
  have := arr_len [cUint 1, cArr (([] : List Bytes).map cBytes), [], d]
  have := arr_len (([] : List Bytes).map cBytes)
  have := head_len 0 1
  simp only [cUint, List.map_nil, List.flatten_cons, List.flatten_nil, List.length_append, List.length_nil] at *
  omega
/-- An access of a tile at most asks no more than one of the whole tile. -/
theorem access_tile {s : State} {part h n : Nat} {w : Bool} (hn : n ≤ 8192) (ht : 1 ≤ (s.obj (handleIdx h)).tiles) (g : objAccess s part h 0 8192 w = 0)
    (z : objAccess s part h 0 0 w = 0) : objAccess s part h 0 n w = 0 := by
  rcases Nat.eq_zero_or_pos n with rfl | hp
  · exact z
  · refine Eq.trans ?_ g
    unfold objAccess
    dsimp only
    have h1 : ¬ (s.obj (handleIdx h)).tiles * 8192 < n := by omega
    have h2 : ¬ (s.obj (handleIdx h)).tiles * 8192 < 8192 := by omega
    simp only [Nat.zero_add, h1, h2, if_false, show (n + 8191) / 8192 = 1 by omega, show (8192 + 8191) / 8192 = 1 by omega]
def evSt : State := dev (withObj id base)
theorem test_evidence : let z := (zeler 1 (zeros 64) evSt).1
    Starts 0x0701 1 (env 0x0701 2 [(0, 1), (1, 64), (4, hd 1)]) 0 evSt ∧ (evSt.ctx (evSt.queue 1).ctx).part = 1 ∧
    (evSt.part 1).state ≠ 0 ∧ canDraw evSt 1 = true ∧ accPart evSt { q := 1 } (hd 1) = 1 ∧ objAccess evSt 1 (hd 1) 0 z.length true = 0 ∧
    MeterFits evSt 1 4 z.length := by
  have h : (zeler 1 (zeros 64) evSt).1.length ≤ 8192 := zeler_len (by decide +kernel) (by decide +kernel) (by decide +kernel)
  exact ⟨starts_of (by decide +kernel), by decide +kernel, by decide +kernel, by decide +kernel, by decide +kernel,
    access_tile h (by decide +kernel) (by decide +kernel) (by decide +kernel), fits_unmetered 4 (by decide +kernel) (Nat.lt_of_le_of_lt h (by decide))⟩
theorem test_evidence_of_another : let s := dev (withObj id base)
    Starts 0x0701 1 (env 0x0701 2 [(0, 2), (1, 64), (4, hd 1)]) 0 s ∧ (s.ctx (s.queue 1).ctx).part ≠ 0xFF ∧ 2 ≠ (s.ctx (s.queue 1).ctx).part :=
  ⟨starts_of (by decide +kernel), by decide +kernel⟩
theorem test_identity : let s := op (withObj id { base with flash := { base.flash with certs := [[1], [2, 3]] }, keep := { base.keep with chainOk := true } })
    Starts 0x0702 0 (env 0x0702 1 [(0, hd 1), (4, 8192 * 64 - 3)]) 0 s ∧ objAccess s (accPart s { q := 0 } (hd 1)) (hd 1) (8192 * 64 - 3) 3 true = 0 ∧
    MeterFits s (accPart s { q := 0 } (hd 1)) 4 3 := ⟨starts_of (by decide +kernel), by decide +kernel, fits_of (by decide +kernel)⟩

/-- A policy: one firmware digest, sequence 0, freeze on loss, windows at their limits. -/
def policy : Bytes := [0xA5, 1, 0x81, 0x58, 0x30] ++ zeros 48 ++ [2, 0, 3, 0, 4, 0x19, 2, 0x58, 5, 0x19, 0x27, 0x10]
theorem test_domain_create : let s := op (withObj id base)
    Starts 0x0710 0 (env 0x0710 1 [(0, 3), (3, 1), (4, 262144), (8, hd 1), (12, 65), (16, hd 1), (20, 512)]) 0 s ∧ (s.part 1).state = 1 ∧
    (s.dom 1).state = 0 ∧ handleLive s (hd 1) = true ∧ 512 ≤ (s.obj 1).tiles * 8 ∧ objAccess s (accPart s { q := 0 } (hd 1)) (hd 1) 0 65 false = 0 ∧
    MeterFits s (accPart s { q := 0 } (hd 1)) 5 65 ∧
    (readPolicy (fit 65 policy)).isSome = true ∧ freeSlot s false = some 64 ∧ nextSlot s 64 = some 65 ∧ canDraw s 0 = true ∧ s.keep.verifyBad = false :=
  ⟨starts_of (by decide +kernel), by decide +kernel, by decide +kernel, by decide +kernel, by decide +kernel, by decide +kernel, fits_of (by decide +kernel),
    by decide +kernel⟩
theorem test_domain_join_prepare : let s := op (withObj id base)
    Starts 0x0711 0 (env 0x0711 1 [(0, 3), (3, 1), (4, 262143), (88, hd 1), (92, 1)]) 0 s ∧ (s.part 1).state = 1 ∧ (s.dom 1).state = 0 ∧
    handleLive s (hd 1) = true := ⟨starts_of (by decide +kernel), by decide +kernel⟩

/-- Partition 1 is a member of domain 3. -/
def inDom (f : Dom → Dom) (s : State) : State := { s with
  doms := [(1, f { state := 4, domain := 3, own := 5, n := 100, anchor := 0, deputy := 1, parent := 0, memberGen := 1, jobSlot := 65, ckptSlot := 66, keyIndex := 2 })] }
/-- As its anchor, with children 6 and 7. -/
def anchorDom (f : Dom → Dom) (s : State) : State := inDom (fun d => f { d with own := 0, kids := [6, 7], pairs := [(6, 70), (7, 71)] }) s

theorem test_domain_status : let s := op (inDom id base)
    Starts 0x0716 0 (env 0x0716 1 [(0, 1)]) 0 s ∧ (s.part 1).state ≠ 0 := ⟨starts_of (by decide +kernel), by decide +kernel⟩
theorem test_attach_map : let s := op base
    let e := env 0x0717 1 [(0, 1), (1, 16), (4, 2 ^ 31 + 9), (8, 2 ^ 31 + 2 ^ 18 - 1)]
    Starts 0x0717 0 e 0 s ∧ opnd e 1 1 = 16 ∧ (s.part 1).state ≠ 0 ∧ (∀ i < 16, opnd e (4 + 4 * i) 4 / 2 ^ 18 % 2 ^ 13 = 0) ∧
    ∀ i < 16, Config.linkStations ≤ 16 + i → opnd e (4 + 4 * i) 4 < 2 ^ 31 := ⟨starts_of (by decide +kernel), by decide +kernel⟩
/-- A record's header for device 5 of domain 3, and its body. -/
def record (type snd rcv num : Nat) (body : Bytes) : Bytes :=
  le 1 type ++ le 1 1 ++ zeros 2 ++ le 4 3 ++ le 4 snd ++ le 4 rcv ++ le 4 num ++ le 4 body.length ++ zeros 8 ++ body
theorem test_domain_message : let s := op (withObj id (inDom id base))
    Starts 0x0712 0 (env 0x0712 1 [(0, hd 1), (12, 32)]) 0 s ∧ objAccess s (accPart s { q := 0 } (hd 1)) (hd 1) 0 32 false = 0 ∧
    MeterFits s (accPart s { q := 0 } (hd 1)) 5 32 ∧
    (let r : Rec := ⟨2, 3, 0, 5, 1, [], record 2 0 5 1 []⟩
     recOf (fit 32 (record 2 0 5 1 [])) = some r ∧ recClean r = true ∧ recordPart s r = some 1 ∧ r.mig = false) ∧
    let r : Rec := ⟨8, 0, noDev, noDev, 1, [], recHdr 8 0 noDev noDev 1 0⟩
    recOf (fit 32 (recHdr 8 0 noDev noDev 1 0)) = some r ∧ recClean r = true ∧ r.mig = true ∧
      recordPart { s with migs := [(1, { exch := some { num := 1 } })] } r = some 1 :=
  ⟨starts_of (by decide +kernel), by decide +kernel, fits_of (by decide +kernel), by decide +kernel, by decide +kernel⟩
theorem test_domain_leave : let s := op (inDom id base)
    Starts 0x0713 0 (env 0x0713 1 [(0, 1)]) 0 s ∧ (s.dom 1).state = 4 := ⟨starts_of (by decide +kernel), by decide +kernel⟩
theorem test_domain_end : let s := op (anchorDom id base)
    Starts 0x0714 0 (env 0x0714 1 [(0, 1)]) 0 s ∧ (s.dom 1).state = 4 ∧ (s.dom 1).own = (s.dom 1).anchor := ⟨starts_of (by decide +kernel), by decide +kernel⟩
theorem test_domain_rotate : let s := op (anchorDom id base)
    Starts 0x0715 0 (env 0x0715 1 [(0, 1), (1, 3)]) 0 s ∧ (s.dom 1).own = (s.dom 1).anchor ∧ (s.dom 1).rot = none := ⟨starts_of (by decide +kernel), by decide +kernel⟩

/-- A message header: type, fragment byte, length, sender, generation, number. -/
def mail (type frag len sender : Nat) : BitVec 128 := BitVec.ofNat 128 (type + frag * 2 ^ 8 + len * 2 ^ 16 + sender * 2 ^ 32 + 2 ^ 64 + 9 * 2 ^ 96)

/-- Fragment 2 of a message of which two are held, and the one that is out of order. -/
theorem test_mail_in_order : let s := inDom (fun d => { d with frags := [((6, 9), [[1], [2]])] }) base
    (0x12, Instr.memberLost) ∈ mailRows ∧ Mailed 0x12 (mail 0x12 2 4080 6) (zeros 4080) s ∧ rf (mail 0x12 2 4080 6) 8 8 = (fragsOf 1 (mail 0x12 2 4080 6) s).length ∧
    Mailed 0x12 (mail 0x12 129 1 6) [5] s ∧ rf (mail 0x12 129 1 6) 8 8 % 128 ≠ (fragsOf 1 (mail 0x12 129 1 6) s).length := by
  refine ⟨by simp [mailRows], ?_, by decide +kernel, ?_, by decide +kernel⟩ <;> unfold Mailed <;> decide +kernel
theorem test_mail_unfit : ¬ Mailed 0x12 (mail 0x12 128 2 6) [5] base := by unfold Mailed; decide +kernel
theorem arrives_of {type part hdr body s} (h : (mailType hdr == type && rf hdr 16 16 == body.length && decide (body.length ≤ 4080) && mailHdrClean hdr &&
    s.keepLive && rf hdr 8 8 == 128 && (fragsOf part hdr s).isEmpty && mailClean type body) = true) : Arrives type part hdr body s body := by
  simp only [Bool.and_eq_true, beq_iff_eq, decide_eq_true_eq, List.isEmpty_iff] at h
  obtain ⟨⟨⟨⟨⟨⟨⟨h1, h2⟩, h3⟩, h4⟩, h5⟩, h6⟩, h7⟩, h8⟩ := h
  refine ⟨⟨h1, h2, h3, h4, h5⟩, ?_, ?_, ?_, h8⟩
  · rw [h7]; exact h6
  · rw [h7]; decide
  · rw [h7]; simp

theorem test_beat_send : let s (n : Nat) := inDom (fun d => { d with beatTx := n }) base
    ((s 4997500).dom 1).state = 4 ∧ 4997500 + Config.us 25 ≤ (s 4997500).now ∧ (s 4997501).now < 4997501 + Config.us 25 := by decide +kernel
theorem test_beat : let s := anchorDom id base
    let h := mail 0x10 128 0 6
    Arrives 0x10 1 h [] s [] ∧ ((mailTaken 1 h s).dom 1).state = 4 ∧ (neighbours ((mailTaken 1 h s).dom 1)).contains (mailSender h) = true :=
  ⟨arrives_of (by decide +kernel), by decide +kernel⟩
theorem test_beat_timeout : let s (n : Nat) := inDom (fun d => { d with beatRx := [(0, n)] }) base
    (s 4990000).keepStopped = false ∧ tfind ((s 4990000).dom 1).beatRx 0 = some 4990000 ∧ 4990000 + Config.us 100 ≤ (s 4990000).now ∧
    (s 4990001).now < 4990001 + Config.us 100 := by decide +kernel
theorem test_loss_report : let w := le 3 6 ++ [2] ++ le 2 1 ++ zeros 2
    let h := mail 0x11 128 8 7
    let s := anchorDom id base
    let b := mailTaken 1 h s
    Arrives 0x11 1 h w s w ∧ (b.dom 1).state = 4 ∧ ofLe (cut 4 2 w) = (memberOf (b.dom 1) (ofLe (cut 0 3 w))).gen ∧
    (memberOf (b.dom 1) (ofLe (cut 0 3 w))).live = true ∧ isAnchor (b.dom 1) = true := ⟨arrives_of (by decide +kernel), by decide +kernel⟩
theorem test_anchor_loss_report : let w := le 3 0 ++ [2] ++ le 2 1 ++ zeros 2
    let h := mail 0x11 128 8 7
    let b := mailTaken 1 h (inDom (fun d => { d with deputy := 5 }) base)
    Arrives 0x11 1 h w (inDom (fun d => { d with deputy := 5 }) base) w ∧ (b.dom 1).state = 4 ∧
    ofLe (cut 4 2 w) = (memberOf (b.dom 1) 0).gen ∧ (memberOf (b.dom 1) 0).live = true ∧
    isAnchor (b.dom 1) = false ∧ (b.dom 1).own = (b.dom 1).deputy ∧ 0 = (b.dom 1).anchor := ⟨arrives_of (by decide +kernel), by decide +kernel⟩
theorem test_member_lost_message : let w := le 8 9 ++ le 8 0
    let h := mail 0x12 128 16 0
    Arrives 0x12 1 h w (inDom id base) w ∧ w.length = 16 ∧ ((mailTaken 1 h (inDom id base)).dom 1).state = 4 := ⟨arrives_of (by decide +kernel), by decide +kernel⟩
theorem test_mark_request : let h := mail 0x13 128 0 6
    let b := mailTaken 1 h (anchorDom (fun d => { d with mark := 0x3FFF }) base)
    Arrives 0x13 1 h [] (anchorDom (fun d => { d with mark := 0x3FFF }) base) [] ∧ (b.dom 1).state = 4 ∧ isAnchor (b.dom 1) = true :=
  ⟨arrives_of (by decide +kernel), by decide +kernel⟩
theorem test_mark : let h := mail 0x14 128 4 0
    Arrives 0x14 1 h [1, 0, 0, 0] (inDom id base) [1, 0, 0, 0] ∧ ((mailTaken 1 h (inDom id base)).dom 1).state = 4 :=
  ⟨arrives_of (by decide +kernel), by decide +kernel⟩
theorem test_adopt : let h := mail 0x1A 128 32 6
    let w := record 3 0 5 1 []
    Arrives 0x1A 1 h w (inDom id base) w ∧ ((mailTaken 1 h (inDom id base)).dom 1).state = 4 ∧
    (recOf w).any (fun r => recClean r && decide (r.type ≤ 4)) = true := ⟨arrives_of (by decide +kernel), by decide +kernel⟩
theorem test_takeover : let w := le 3 1 ++ le 3 2 ++ zeros 2
    let h := mail 0x1B 128 8 1
    Arrives 0x1B 1 h w (inDom id base) w ∧ w.length = 8 ∧ ((mailTaken 1 h (inDom id base)).dom 1).state = 4 ∧
    ofLe (cut 0 3 w) ≠ ((mailTaken 1 h (inDom id base)).dom 1).own := ⟨arrives_of (by decide +kernel), by decide +kernel⟩
theorem test_table_sync : let w := le 3 9 ++ le 2 4 ++ [1]
    let h := mail 0x1C 128 6 0
    let s := inDom (fun d => { d with deputy := 5 }) base
    Arrives 0x1C 1 h w s w ∧ ((mailTaken 1 h s).dom 1).state = 4 ∧ mailSender h = ((mailTaken 1 h s).dom 1).anchor ∧
    ((mailTaken 1 h s).dom 1).own = ((mailTaken 1 h s).dom 1).deputy := ⟨arrives_of (by decide +kernel), by decide +kernel⟩
theorem test_leave_at_the_anchor : let h := mail 0x1D 128 0 6
    let s := anchorDom id base
    Arrives 0x1D 1 h [] s [] ∧ ((mailTaken 1 h s).dom 1).state = 4 ∧ isAnchor ((mailTaken 1 h s).dom 1) = true :=
  ⟨arrives_of (by decide +kernel), by decide +kernel⟩
theorem test_leave_at_a_parent : let h := mail 0x1D 128 0 6
    let s := anchorDom (fun d => { d with own := 5 }) base
    let d := (mailTaken 1 h s).dom 1
    Arrives 0x1D 1 h [] s [] ∧ d.state = 4 ∧ isAnchor d = false ∧ 6 ≠ d.anchor ∧ d.kids.contains 6 = true ∧ tfind d.pairs 6 = some 70 :=
  ⟨arrives_of (by decide +kernel), by decide +kernel⟩
theorem test_domain_end_message : let h := mail 0x1E 128 0 0
    Arrives 0x1E 1 h [] (inDom id base) [] ∧ ((mailTaken 1 h (inDom id base)).dom 1).state = 4 := ⟨arrives_of (by decide +kernel), by decide +kernel⟩
theorem test_rejoin_window : let s (n : Nat) := anchorDom (fun d => { d with rejoinBy := [(6, n)] }) base
    tfind ((s 5000000).dom 1).rejoinBy 6 = some 5000000 ∧ 5000000 ≤ (s 5000000).now ∧ (s 5000001).now < 5000001 := by decide +kernel
theorem test_formation_timeout : let s (t : Nat) : State := { anchorDom (fun d => { d with formAt := some 0, policy := policy }) base with aon := { base.aon with time := t } }
    (s 1000000000).keepLive = true ∧ 6 ≠ noDev ∧ ((s 1000000000).dom 1).formAt = some 0 ∧ (policyFor policy []).formMs = 10000 ∧
    0 + Config.ms 10000 ≤ (s 1000000000).now ∧ (s 999999999).now < 0 + Config.ms 10000 := by decide +kernel
/-- The sibling 6 has answered nothing for the formation time. -/
theorem test_exchange_timeout : let x : Exch := { peer := 6, parent := true, phase := 1 }
    let s : State := { anchorDom (fun d => { d with policy := policy, exchs := [x] }) base with aon := { base.aon with time := 1000000000 } }
    s.keepLive = true ∧ 6 ≠ noDev ∧ (s.dom 1).formAt = none ∧ (s.dom 1).exchs.find? (fun x => x.peer == 6 && (if x.parent then decide (x.phase < 3) else x.phase == 1 || x.phase == 3) &&
      decide (x.lastAt + Config.ms (policyFor (s.dom 1).policy (s.dom 1).digest).formMs ≤ s.now)) = some x := by decide +kernel

/-- The job key of the domain in slot 65 and the pairwise keys with 0, 6 and 7. -/
def rotating (f : Dom → Dom) (k : KeySlot → KeySlot) (s : State) : State := { anchorDom f s with
  keys := [(65, k { state := 1, cls := 3, owner := 1, gen := 2, cur := 9 }), (66, { state := 1, cls := 4, owner := 1, gen := 2, cur := 8 }),
    (69, { state := 1, cls := 5, keepOwn := true, cur := 4 }), (70, { state := 1, cls := 5, keepOwn := true, cur := 5 })] }
/-- A message whose body is only known by its length. -/
theorem arrives_len {type part hdr body s} (n : Nat) (hb : body.length = n) (h : (mailType hdr == type && rf hdr 16 16 == n && decide (n ≤ 4080) &&
    mailHdrClean hdr && s.keepLive && rf hdr 8 8 == 128 && (fragsOf part hdr s).isEmpty) = true) (hc : mailClean type body = true) :
    Arrives type part hdr body s body :=
  arrives_of (by rw [hb, hc, h]; rfl)

theorem test_rotate_request : let w : Bytes := [0, 1, 0, 0]
    let h := mail 0x15 128 4 6
    let b := mailTaken 1 h (rotating id id base)
    Arrives 0x15 1 h w (rotating id id base) w ∧ ofLe (cut 0 1 w) ≠ 4 ∧ ofLe (cut 0 1 w) ≠ 7 ∧ ofLe (cut 1 1 w) = 1 ∧ (b.dom 1).state = 4 ∧
    isAnchor (b.dom 1) = true ∧ (b.dom 1).rot = none ∧ (b.dom 1).rotRetry = none ∧ rotReady b (b.dom 1) 1 = true ∧ b.keep.verifyBad = false :=
  ⟨arrives_of (by decide +kernel), by decide +kernel⟩
theorem test_rotate_for_a_loss : let w : Bytes := [7, 0, 0, 0]
    let h := mail 0x15 128 4 6
    Arrives 0x15 1 h w (rotating id id base) w ∧ (ofLe (cut 0 1 w) = 4 ∨ ofLe (cut 0 1 w) = 7) ∧
    isAnchor ((mailTaken 1 h (rotating id id base)).dom 1) = true ∧ ((mailTaken 1 h (rotating id id base)).dom 1).state = 4 :=
  ⟨arrives_of (by decide +kernel), by decide +kernel⟩
/-- A child's side: its parent 0 sends generation 3, wrapped under the pairwise key in slot 69. -/
def prepared : Bytes := le 4 3 ++ [1, 0, 0, 0] ++ kwWrap 4 (zeros 32) ++ zeros 40
theorem test_rotate_prepare : let f (d : Dom) : Dom := { d with own := 5, pairs := [(0, 69)] }
    let h := mail 0x16 128 88 0
    let s := rotating f id base
    let b := mailTaken 1 h s
    Arrives 0x16 1 h prepared s prepared ∧ prepared.length = 88 ∧ ofLe (cut 4 1 prepared) = 1 ∧ (b.dom 1).state = 4 ∧ isAnchor (b.dom 1) = false ∧
    (b.dom 1).rot = none ∧ tfind (b.dom 1).pairs (mailSender h) = some 69 ∧ kwUnwrap (b.key 69).cur (cut 8 40 prepared) = some (zeros 32) ∧
    ofLe (cut 0 4 prepared) = (b.key (b.dom 1).jobSlot).gen + 1 ∧ slotReady b (b.dom 1).jobSlot = true ∧ b.keep.verifyBad = false := by
  obtain ⟨h1, -, h3⟩ := fit_wrapped 4 (zeros 32) rfl
  have hl : prepared.length = 88 := by simp only [prepared, List.length_append, h1]; rfl
  have hp (i n : Nat) (hi : i + n ≤ 8) : cut i n prepared = cut i n (le 4 3 ++ [1, 0, 0, 0]) := by
    unfold prepared
    rw [cut_left i n _ _ (by simp only [List.length_append, h1, le_len, List.length_cons, List.length_nil]; all_goals omega),
      cut_left i n _ _ (by simp only [List.length_append, le_len, List.length_cons, List.length_nil]; all_goals omega)]
  have hk : cut 8 40 prepared = kwWrap 4 (zeros 32) := by
    unfold prepared
    rw [cut_left 8 40 _ _ (by simp only [List.length_append, h1, le_len, List.length_cons, List.length_nil]; all_goals omega),
      cut_right 8 40 _ _ (by simp only [List.length_append, le_len, List.length_cons, List.length_nil])]
    exact cut_all 40 (kwWrap 4 (zeros 32)) h1
  have hc : mailClean 0x16 prepared = true := by
    have hz : cut 48 40 prepared = zeros 40 := by
      unfold prepared
      rw [cut_right 48 40 _ _ (by simp only [List.length_append, h1, le_len, List.length_cons, List.length_nil])]
      exact cut_all 40 (zeros 40) rfl
    unfold mailClean
    simp only [mailForm, hl, hp 4 1 (by decide), hp 5 3 (by decide), hz, List.all_cons, List.all_nil]
    decide +kernel
  refine ⟨arrives_len 88 hl (by decide +kernel) hc, hl, ?_, by decide +kernel, by decide +kernel, by decide +kernel, by decide +kernel, ?_, ?_,
    by decide +kernel, by decide +kernel⟩
  · rw [hp 4 1 (by decide)]; decide +kernel
  · rw [hk]; exact h3
  · rw [hp 0 4 (by decide)]; decide +kernel
/-- A confirmation of generation 3 under the pending job key 11, for two devices; `v` are its check values. -/
def confirmed (v : Bytes) : Bytes := le 4 3 ++ le 3 2 ++ [0] ++ v ++ zeros 8
theorem test_rotate_confirm (v : Bytes) (hv : v.length = 8) : let h := mail 0x17 128 24 6
    let s := rotating (fun d => { d with rot := some (3, 1) }) (fun k => { k with state := 3, pend := 11, pendIs := 1 }) base
    let b := mailTaken 1 h s
    Arrives 0x17 1 h (confirmed v) s (confirmed v) ∧ (confirmed v).length = 24 ∧ (b.dom 1).rot = some (3, 1) ∧ ofLe (cut 0 4 (confirmed v)) = 3 ∧
    (downTree (b.dom 1)).contains (mailSender h) = true ∧ cut 16 8 (confirmed v) = zeros 8 ∧ cut 8 8 (confirmed v) = v := by
  have hl : (confirmed v).length = 24 := by simp only [confirmed, List.length_append, hv]; rfl
  have l8 : (le 4 3 ++ le 3 2 ++ [0] : Bytes).length = 8 := rfl
  have hc : mailClean 0x17 (confirmed v) = true := by
    have h7 : cut 7 1 (confirmed v) = [0] := by
      unfold confirmed
      rw [cut_left 7 1 _ _ (by simp only [List.length_append, hv, le_len, List.length_cons, List.length_nil]; all_goals omega), cut_left 7 1 _ _ (by rw [l8]; all_goals omega)]
      decide +kernel
    unfold mailClean
    simp only [mailForm, hl, h7, List.all_cons, List.all_nil]
    rfl
  refine ⟨arrives_len 24 hl (by decide +kernel) hc, hl, by decide +kernel, ?_, by decide +kernel, ?_, ?_⟩ <;> unfold confirmed
  · rw [cut_left 0 4 _ _ (by simp only [List.length_append, hv, le_len, List.length_cons, List.length_nil]; all_goals omega), cut_left 0 4 _ _ (by rw [l8]; all_goals omega)]
    decide +kernel
  · rw [cut_right 16 8 _ _ (by simp only [List.length_append, hv, le_len, List.length_cons, List.length_nil])]; decide +kernel
  · rw [cut_left 8 8 _ _ (by simp only [List.length_append, hv, le_len, List.length_cons, List.length_nil]; all_goals omega), cut_right 8 8 _ _ l8]
    exact cut_all 8 v hv
/-- The pending key's own check value is such a string, and so is one that differs from it. -/
theorem test_check_values : (kcv 11).length = 8 ∧ ∃ v : Bytes, v.length = 8 ∧ v ≠ kcv 11 := by
  have h : (kcv 11).length = 8 := by unfold kcv aes256; rw [List.length_take, encBlock_len]; rfl
  by_cases g : zeros 8 = kcv 11
  · exact ⟨h, List.replicate 8 1, rfl, by rw [← g]; decide⟩
  · exact ⟨h, zeros 8, rfl, g⟩
theorem test_rotate_commit : let w := le 4 3 ++ zeros 4
    let s := rotating (fun d => { d with own := 5, rot := some (3, 1) }) (fun k => { k with state := 3, pend := 11, pendIs := 1 }) base
    Arrives 0x18 1 (mail 0x18 128 8 0) w s w ∧ w.length = 8 ∧ ((mailTaken 1 (mail 0x18 128 8 0) s).dom 1).state = 4 ∧
    Arrives 0x19 1 (mail 0x19 128 8 0) w s w ∧ ((mailTaken 1 (mail 0x19 128 8 0) s).dom 1).state = 4 ∧
    (((mailTaken 1 (mail 0x19 128 8 0) s).dom 1).rot.map (·.1)) = some (ofLe (cut 0 4 w)) ∧
    (s.dom 1).rot = some (3, 1) ∧ rotateCmds s 1 = [] :=
  ⟨arrives_of (by decide +kernel), by decide +kernel, by decide +kernel, arrives_of (by decide +kernel), by decide +kernel⟩
theorem test_rotation_decides : let s (t : Nat) (c : Tab Nat) := rotating (fun d => { d with rot := some (3, 1), rotAt := t, rotConf := c, count := 100 }) id base
    let missing (s : State) := liveCount (s.dom 1) - (((s.dom 1).rotConf.map (·.2)).sum + 1)
    ((s 3000001 []).dom 1).rot = some (3, 1) ∧ (s 3000001 []).now < ((s 3000001 []).dom 1).rotAt + Config.ms 20 ∧
    isAnchor ((s 3000000 []).dom 1) = true ∧ ((s 3000000 []).dom 1).rotAt + Config.ms 20 ≤ (s 3000000 []).now ∧
    liveCount ((s 3000000 []).dom 1) < 16 * missing (s 3000000 []) ∧ isAnchor ((s 3000000 [(6, 49), (7, 44)]).dom 1) = true ∧
    16 * missing (s 3000000 [(6, 49), (7, 44)]) ≤ liveCount ((s 3000000 [(6, 49), (7, 44)]).dom 1) ∧
    ∀ k ∈ ((s 3000000 [(6, 49), (7, 44)]).dom 1).kids, (tfind ((s 3000000 [(6, 49), (7, 44)]).dom 1).rotConf k).isSome = true := by decide +kernel
theorem test_rotation_retry : let s (n : Nat) := rotating (fun d => { d with rotRetry := some (n, 1) }) id base
    ((s 5000000).dom 1).rotRetry = some (5000000, 1) ∧ 5000000 ≤ (s 5000000).now ∧ (s 5000001).now < 5000001 := by decide +kernel

/-! ### Records -/

def headOk (hd : Bytes) (type dom snd rcv num n : Nat) : Bool :=
  hd.length == 32 && ofLe (hd.take 1) == type && ofLe (cut 4 3 hd) == dom && ofLe (cut 8 3 hd) == snd && ofLe (cut 12 3 hd) == rcv &&
  ofLe (cut 16 4 hd) == num && ofLe (cut 20 4 hd) == n
/-- A record whose body is only known by its length. -/
theorem rec_of {type dom snd rcv num : Nat} {body : Bytes} (n : Nat) (hb : body.length = n)
    (h : headOk (recHdr type dom snd rcv num n) type dom snd rcv num n = true) :
    recOf (recHdr type dom snd rcv num n ++ body) = some ⟨type, dom, snd, rcv, num, body, recHdr type dom snd rcv num n ++ body⟩ := by
  generalize recHdr type dom snd rcv num n = hd at h
  unfold headOk at h
  simp only [Bool.and_eq_true, beq_iff_eq] at h
  obtain ⟨⟨⟨⟨⟨⟨h0, h1⟩, h2⟩, h3⟩, h4⟩, h5⟩, h6⟩ := h
  have c (i m : Nat) (g : i + m ≤ 32) : cut i m (hd ++ body) = cut i m hd := cut_left i m hd body (by omega)
  have t : (hd ++ body).take 1 = hd.take 1 := List.take_append_of_le_length (by omega)
  have d : (hd ++ body).drop 32 = body := List.drop_left' h0
  unfold recOf
  simp only [c 4 3 (by decide), c 8 3 (by decide), c 12 3 (by decide), c 16 4 (by decide), c 20 4 (by decide), t, d, h1, h2, h3, h4, h5, h6]
  rw [if_neg]
  simp only [List.length_append, h0, hb, ne_eq, not_true_eq_false, or_false, Nat.not_lt]
  omega
/-- The record as it stands in an inbox, and a state in which partition 1 is to process it. -/
def rawRec (type dom snd rcv num n : Nat) (body : Bytes) : Bytes := recHdr type dom snd rcv num n ++ body
def aRec (type dom snd rcv num n : Nat) (body : Bytes) : Rec := ⟨type, dom, snd, rcv, num, body, rawRec type dom snd rcv num n body⟩
def message : Taken := { q := 0, seq := 6, e := env 0x0712 3 [], phase := 2, aux := 2 }
def waiting (d : Dom) : State := { base with doms := [(1, d)], taken := [message] }
def member : Dom := { state := 4, domain := 3, own := 5, n := 100, anchor := 0, deputy := 1, parent := 0, memberGen := 1, jobSlot := 65, ckptSlot := 66, keyIndex := 2 }
theorem waiting_msg (d : Dom) : messageOf (waiting d) 1 = some message := by
  have h : (message.phase == 2 && envOpcode message.e == 0x0712 && message.aux == 2) = true := by decide +kernel
  show ([message].filter fun t => t.phase == 2 && envOpcode t.e == 0x0712 && t.aux == 2).head? = _
  rw [List.filter_cons, if_pos h]
  rfl
theorem record_waits {type snd rcv num : Nat} {body : Bytes} (n : Nat) (d : Dom) (hb : body.length = n)
    (h : headOk (recHdr type 3 snd rcv num n) type 3 snd rcv num n = true) :
    RecordWaits type 1 false (aRec type 3 snd rcv num n body) (waiting { d with inbox := [0 :: rawRec type 3 snd rcv num n body] })
      (waiting { d with inbox := [] }) :=
  ⟨_, [], rfl, rec_of n hb h, rfl, fun _ => by rw [waiting_msg]; rfl, fun _ => ⟨show canDraw base 0 = true by decide +kernel, show canDraw base 1 = true by decide +kernel⟩, rfl⟩

/-- A point of P-384 as keys carry it, and an offer's body with it and a key of ML-KEM-1024. -/
def point : Bytes := ecBytes (some p384G)
def admitBody : Bytes := zeros 112 ++ point ++ zeros 1568
theorem test_admit_offer : let d : Dom := { member with state := 1, digest := zeros 48, parentUeid := zeros 32 }
    (RecordWaits 1 1 false (aRec 1 3 0 5 1 1777 admitBody) (waiting { d with inbox := [0 :: rawRec 1 3 0 5 1 1777 admitBody] }) (waiting d) ∧
      ((waiting d).dom 1).state = 1 ∧ offerReason d false (aRec 1 3 0 5 1 1777 admitBody) = 0) ∧
    RecordWaits 1 1 false (aRec 1 3 0 5 1 0 []) (waiting { d with inbox := [0 :: rawRec 1 3 0 5 1 0 []] }) (waiting d) ∧
      offerReason d false (aRec 1 3 0 5 1 0 []) ≠ 0 :=
  ⟨⟨record_waits 1777 _ (by decide +kernel) (by decide +kernel), rfl, by decide +kernel⟩, record_waits 0 _ rfl (by decide +kernel), by decide +kernel⟩

theorem empty_bundle (s : State) (x : Expect) : verifyBundle s x [] = 1 := rfl
theorem free64 {s : State} (h : ((s.key 64).state == 0) = true) : freeSlot s false = some 64 := by
  unfold freeSlot
  rw [if_neg (by decide)]
  show seek _ (16319 + 1) 64 = _
  rw [seek, h, if_pos rfl]
theorem free65 {s : State} (h : ((s.key 64).state == 0) = false) (h' : ((s.key 65).state == 0) = true) : freeSlot s false = some 65 := by
  unfold freeSlot
  rw [if_neg (by decide)]
  show seek _ (16318 + 1 + 1) 64 = _
  rw [seek, h, if_neg (by decide), seek, h', if_pos rfl]
/-- A parent's exchange 1 with device 6, and the reply to it with the bundle `c`. -/
def parentX : Exch := { num := 1, peer := 6, parent := true, phase := 1 }
def replyKeys (p : Bytes) : Bytes := zeros 32 ++ p ++ zeros 1568
def replyBody (p : Bytes) (n : Nat) (c : Bytes) : Bytes := replyKeys p ++ (le 4 n ++ c)
theorem zeros_len (n : Nat) : (zeros n).length = n := List.length_replicate
theorem replyBody_bundle (type dom snd rcv n : Nat) (p c : Bytes) (hp : p.length = 97) (h : c.length = n) (hn : n < 2 ^ 32) :
    (replyBody p n c).length = 1701 + n ∧ replyBundle (aRec type dom snd rcv 1 (1701 + n) (replyBody p n c)) = some c := by
  have hz : (replyKeys p).length = 1697 := by simp only [replyKeys, List.length_append, zeros_len, hp]
  have hl : (replyBody p n c).length = 1701 + n := by
    unfold replyBody; rw [List.length_append, List.length_append, le_len, hz, h]; omega
  have hc : ofLe (cut 1697 4 (replyBody p n c)) = n := by
    unfold replyBody
    rw [cut_right 1697 4 _ _ hz, cut_left 0 4 _ _ (by rw [le_len]; all_goals omega), cut_all 4 _ (le_len 4 n), ofLe_le, Nat.mod_eq_of_lt (by simpa using hn)]
  have hd : (replyBody p n c).drop 1701 = c := by
    unfold replyBody
    rw [← List.append_assoc]
    exact List.drop_left' (by rw [List.length_append, hz, le_len])
  refine ⟨hl, ?_⟩
  unfold replyBundle aRec
  dsimp only
  rw [hl, hc, hd, if_neg (by omega)]
/-- The reply's keys are good ones with the point; with zeros in its place they are not. -/
theorem replyBody_keys (type dom snd rcv n : Nat) (p c : Bytes) (hp : p.length = 97) :
    replyKeysOk (aRec type dom snd rcv 1 (1701 + n) (replyBody p n c)) = (ecPoint p).isSome := by
  unfold replyKeysOk aRec replyBody replyKeys
  dsimp only
  rw [cut_left 32 97 _ _ (by simp only [List.length_append, hp, zeros_len]; omega), cut_left 32 97 _ _ (by simp only [List.length_append, hp, zeros_len]; omega),
    cut_right 32 97 _ _ (zeros_len 32), cut_all 97 p hp]
theorem test_points : point.length = 97 ∧ (ecPoint point).isSome = true ∧ (ecPoint (zeros 97)).isSome = false := by decide +kernel
/-- A bundle's certificate authorities are kept; nothing else changes. -/
theorem keepCas_at (c : Bytes) (s : State) : ∃ l, keepCas c s = { s with keep := { s.keep with caSeen := l } } := by
  unfold keepCas
  split
  · dsimp only
    split
    · exact ⟨_, rfl⟩
    · exact ⟨s.keep.caSeen, rfl⟩
  · exact ⟨s.keep.caSeen, rfl⟩
theorem keepCas_ready (c : Bytes) {s : State} {b : Bool} {i : Nat} (h : s.keep.verifyBad = false) (g : freeSlot s b = some i) :
    (keepCas c s).keep.verifyBad = false ∧ freeSlot (keepCas c s) b = some i := by
  obtain ⟨l, e⟩ := keepCas_at c s
  rw [e]; exact ⟨h, g⟩
theorem test_admit_reply (p c : Bytes) (hp : p.length = 97) (h : c.length = 20000 ∨ c = []) : let d : Dom := { member with exchs := [parentX], members := [(6, { gen := 1 })] }
    let r := aRec 2 3 6 5 1 (1701 + c.length) (replyBody p c.length c)
    let v := keepCas c (waiting d)
    RecordWaits 2 1 false r (waiting { d with inbox := [0 :: r.raw] }) (waiting d) ∧ ForExch 1 true false 1 parentX r (waiting d) ∧
    replyBundle r = some c ∧ replyKeysOk r = (ecPoint p).isSome ∧ nextMemberGen d parentX ≤ 0xFFFF ∧ v.keep.verifyBad = false ∧ freeSlot v true = some 0 := by
  have hn : c.length < 2 ^ 32 := by rcases h with h | h <;> simp [h]
  obtain ⟨h1, h2⟩ := replyBody_bundle 2 3 6 5 c.length p c hp rfl hn
  refine ⟨record_waits (1701 + c.length) _ h1 ?_, ⟨?_, rfl, rfl, rfl, rfl⟩, h2, replyBody_keys _ _ _ _ _ _ _ hp, by decide +kernel,
    keepCas_ready c (by decide +kernel) (by decide +kernel)⟩
  · rcases h with h | rfl
    · rw [h]; decide +kernel
    · decide +kernel
  · rfl

/-- A record ends in its check value. -/
theorem mac_ok (k : BitVec 256) (pre x : Bytes) : macOk k pre (x ++ cmac k (sha384 (pre ++ x))) = true := by
  unfold macOk
  have h : (x ++ cmac k (sha384 (pre ++ x))).length - 16 = x.length := by rw [List.length_append, cmac_len]; omega
  simp only [h, List.drop_left, List.take_left, beq_self_eq_true]
/-- The child's exchange 1 with its parent 0, and the grant: generation 1, slots of generation 7, the wrapped keys, a bundle `c` and the check `m`. -/
def childX : Exch := { num := 1, peer := 0, phase := 1, kcp := 3 }
def childKw : BitVec 256 := exchKey "yk3 wrap" 3 0 5 childX
def grantHead : Bytes := le 2 1 ++ le 2 2 ++ le 4 7 ++ le 4 7 ++ le 2 0 ++ le 3 0 ++ le 3 noDev ++ le 3 1 ++ [0]
def grantBody (n : Nat) (c m : Bytes) : Bytes := grantHead ++ (kwWrap childKw (zeros 32) ++ (kwWrap childKw (zeros 32) ++ (le 4 n ++ (c ++ m))))
theorem grantBody_is (n : Nat) (c m : Bytes) (h : c.length = n) (hm : m.length = 16) (hn : n < 2 ^ 32) :
    (grantBody n c m).length = 124 + n ∧ ofLe (cut 104 4 (grantBody n c m)) = n ∧ cut 108 n (grantBody n c m) = c ∧
    cut 24 40 (grantBody n c m) = kwWrap childKw (zeros 32) ∧ cut 64 40 (grantBody n c m) = kwWrap childKw (zeros 32) ∧
    ∀ i k, i + k ≤ 24 → cut i k (grantBody n c m) = cut i k grantHead := by
  obtain ⟨h1, h2, -⟩ := fit_wrapped childKw (zeros 32) rfl
  have hh : grantHead.length = 24 := rfl
  unfold grantBody
  generalize grantHead = g at hh ⊢
  generalize kwWrap childKw (zeros 32) = w at h1 h2 ⊢
  have c1 (i k : Nat) (b : Bytes) : cut (24 + i) k (g ++ b) = cut i k b := by
    simp only [cut, ← List.drop_drop]; rw [List.drop_left' hh]
  have c2 (i k : Nat) (b : Bytes) : cut (40 + i) k (w ++ b) = cut i k b := by
    simp only [cut, ← List.drop_drop]; rw [List.drop_left' h1]
  have c3 (i k : Nat) (b : Bytes) : cut (4 + i) k (le 4 n ++ b) = cut i k b := by
    simp only [cut, ← List.drop_drop]; rw [List.drop_left' (le_len 4 n)]
  refine ⟨by simp only [List.length_append, hh, h1, le_len, h, hm]; omega, ?_, ?_, ?_, ?_, fun i k hk => cut_left i k _ _ (by omega)⟩
  · rw [show 104 = 24 + (40 + (40 + 0)) from rfl, c1, c2, c2, cut_left 0 4 _ _ (by rw [le_len]; all_goals omega), cut_all 4 _ (le_len 4 n), ofLe_le,
      Nat.mod_eq_of_lt (by simpa using hn)]
  · rw [show 108 = 24 + (40 + (40 + (4 + 0))) from rfl, c1, c2, c2, c3, cut_left 0 n _ _ (by omega), cut_all n _ h]
  · rw [show 24 = 24 + 0 from rfl, c1, cut_left 0 40 _ _ (by omega)]; exact h2
  · rw [show 64 = 24 + (40 + 0) from rfl, c1, c2, cut_left 0 40 _ _ (by omega)]; exact h2
def childDom : Dom := { member with state := 2, parentUeid := zeros 32, exchs := [childX] }
/-- The check value that the grant must end in; any other string of that length fails it. -/
def grantMac (n : Nat) (c : Bytes) : Bytes := cmac 3 (sha384 ([] ++ (recHdr 3 3 0 5 1 (124 + n) ++ grantBody n c [])))
theorem grantBody_end (n : Nat) (c m : Bytes) : grantBody n c m = grantBody n c [] ++ m := by simp [grantBody]
/-- With the pairwise key in slot 0 of an empty table, the job and checkpoint keys go to slots 64 and 65. -/
theorem second_slots {v : State} (h : v.keys = []) (k j : BitVec 256) (x : Exch) (g : Nat) :
    let u := putExch 1 x (firstKey 0 5 0 true k v)
    freeSlot u false = some 64 ∧ freeSlot (pendKey 64 3 1 g j u) false = some 65 := by
  have e : (putExch 1 x (firstKey 0 5 0 true k v)).keys = tset [] 0 (firstCommits (writePending 5 0 true k {})) := by
    show tset v.keys 0 (firstCommits (writePending 5 0 true k (tget {} v.keys 0))) = _
    rw [h]; rfl
  refine ⟨free64 ?_, free65 ?_ ?_⟩
  · unfold State.key; rw [e]; rfl
  · unfold pendKey State.onKey State.key; rw [e]; rfl
  · unfold pendKey State.onKey State.key; rw [e]; rfl
theorem test_admit_grant (c m : Bytes) (hc : c.length = 20000 ∨ c = []) (hm : m.length = 16) :
    let r := aRec 3 3 0 5 1 (124 + c.length) (grantBody c.length c m)
    RecordWaits 3 1 false r (waiting { childDom with inbox := [0 :: r.raw] }) (waiting childDom) ∧ ForExch 1 false false 1 childX r (waiting childDom) ∧
    r.body.length = 124 + ofLe (cut 104 4 r.body) ∧ cut 108 (ofLe (cut 104 4 r.body)) r.body = c ∧
    kwUnwrap (exchKey "yk3 wrap" 3 0 5 childX) (cut 24 40 r.body) = some (zeros 32) ∧ kwUnwrap (exchKey "yk3 wrap" 3 0 5 childX) (cut 64 40 r.body) = some (zeros 32) ∧
    (m = grantMac c.length c → macOk childX.kcp (childX.a1 ++ childX.a2) r.raw = true) ∧
    let v := keepCas (cut 108 (ofLe (cut 104 4 r.body)) r.body) (waiting childDom)
    v.keep.verifyBad = false ∧ freeSlot v true = some 0 ∧
    ∀ k : BitVec 256, let u := putExch 1 { childX with phase := 2, a3 := r.raw, pairSlot := some 0, lastAt := v.now } (firstKey 0 5 0 true k v)
      freeSlot u false = some 64 ∧ freeSlot (pendKey 64 3 1 (ofLe (cut 4 4 r.body)) (keyOf (zeros 32)) u) false = some 65 := by
  have hn : c.length < 2 ^ 32 := by rcases hc with h | h <;> simp [h]
  obtain ⟨h1, h2, h3, h4, h5, h6⟩ := grantBody_is c.length c m rfl hm hn
  obtain ⟨-, -, h9⟩ := fit_wrapped childKw (zeros 32) rfl
  refine ⟨record_waits (124 + c.length) childDom h1 ?_, ⟨rfl, rfl, rfl, rfl, rfl⟩, ?_, ?_, ?_, ?_, ?_, ?_⟩
  · rcases hc with h | rfl
    · rw [h]; decide +kernel
    · decide +kernel
  · show (grantBody c.length c m).length = _; rw [h1]; show _ = 124 + ofLe (cut 104 4 (grantBody c.length c m)); rw [h2]
  · show cut 108 (ofLe (cut 104 4 (grantBody c.length c m))) (grantBody c.length c m) = c; rw [h2, h3]
  · show kwUnwrap childKw (cut 24 40 (grantBody c.length c m)) = _; rw [h4]; exact h9
  · show kwUnwrap childKw (cut 64 40 (grantBody c.length c m)) = _; rw [h5]; exact h9
  · rintro rfl
    show macOk 3 ([] ++ []) (recHdr 3 3 0 5 1 (124 + c.length) ++ grantBody c.length c _) = true
    rw [grantBody_end, ← List.append_assoc]
    exact mac_ok 3 [] _
  · obtain ⟨g1, g2⟩ := keepCas_ready (cut 108 (ofLe (cut 104 4 (grantBody c.length c m))) (grantBody c.length c m)) (s := waiting childDom) (b := true) (i := 0)
      (by decide +kernel) (by decide +kernel)
    refine ⟨g1, g2, fun k => ?_⟩
    obtain ⟨l, e⟩ := keepCas_at (cut 108 (ofLe (cut 104 4 (grantBody c.length c m))) (grantBody c.length c m)) (waiting childDom)
    have hk : (keepCas (cut 108 (ofLe (cut 104 4 (grantBody c.length c m))) (grantBody c.length c m)) (waiting childDom)).keys = (waiting childDom).keys := by rw [e]
    have h0 : (keepCas (cut 108 (ofLe (cut 104 4 (grantBody c.length c m))) (grantBody c.length c m)) (waiting childDom)).keys = [] := hk
    exact second_slots h0 k _ _ _

def confirmX : Exch := { num := 1, peer := 6, parent := true, phase := 2, kcc := 3, pairSlot := some 70 }
def confirmingDom : Dom := { member with state := 3, exchs := [confirmX] }
def confirmBody (m : Bytes) : Bytes := kcv 0 ++ (kcv 0 ++ (le 4 2 ++ m))
theorem kcv_len (k : BitVec 256) : (kcv k).length = 8 := by unfold kcv aes256; rw [List.length_take, encBlock_len]; rfl
theorem test_admit_confirm (m : Bytes) (hm : m.length = 16) : let r := aRec 4 3 6 5 1 36 (confirmBody m)
    RecordWaits 4 1 false r (waiting { confirmingDom with inbox := [0 :: r.raw] }) (waiting confirmingDom) ∧
    ForExch 1 true false 2 confirmX r (waiting confirmingDom) ∧ r.body.length = 36 ∧ confirmOk (waiting confirmingDom) confirmingDom r = true ∧
    (m = cmac 3 (sha384 ([] ++ (recHdr 4 3 6 5 1 36 ++ confirmBody []))) → macOk confirmX.kcc (confirmX.a1 ++ confirmX.a2 ++ confirmX.a3) r.raw = true) := by
  have hl : (confirmBody m).length = 36 := by simp only [confirmBody, List.length_append, kcv_len, le_len, hm]
  refine ⟨record_waits 36 confirmingDom hl (by decide +kernel), ⟨rfl, rfl, rfl, rfl, rfl⟩, hl, ?_, ?_⟩
  · have h0 : cut 0 8 (confirmBody m) = kcv 0 := by
      unfold confirmBody; rw [cut_left 0 8 _ _ (by rw [kcv_len]; all_goals omega)]; exact cut_all 8 _ (kcv_len 0)
    have h1 : cut 8 8 (confirmBody m) = kcv 0 := by
      unfold confirmBody
      rw [cut_right 8 8 _ _ (kcv_len 0), cut_left 0 8 _ _ (by rw [kcv_len]; all_goals omega)]; exact cut_all 8 _ (kcv_len 0)
    show (cut 0 8 (confirmBody m) == kcv (0 : BitVec 256) && cut 8 8 (confirmBody m) == kcv (0 : BitVec 256)) = true
    rw [h0, h1, beq_self_eq_true]; rfl
  · rintro rfl
    show macOk 3 ([] ++ [] ++ []) (recHdr 4 3 6 5 1 36 ++ confirmBody _) = true
    rw [show ∀ b : Bytes, confirmBody b = confirmBody [] ++ b by intro b; simp [confirmBody], ← List.append_assoc]
    exact mac_ok 3 [] _
theorem test_confirm_fails : let r := aRec 4 3 6 5 1 0 []
    RecordWaits 4 1 false r (waiting { confirmingDom with inbox := [0 :: r.raw] }) (waiting confirmingDom) ∧
    ForExch 1 true false 2 confirmX r (waiting confirmingDom) ∧ r.body.length ≠ 36 :=
  ⟨record_waits 0 confirmingDom rfl (by decide +kernel), ⟨rfl, rfl, rfl, rfl, rfl⟩, by decide +kernel⟩

def commitX : Exch := { num := 1, peer := 0, phase := 3, kcp := 3, pairSlot := some 69 }
def committingDom : Dom := { member with state := 3, offerGen := 7, exchs := [commitX] }
theorem test_form_commit (m : Bytes) (hm : m.length = 16) : let r := aRec 5 3 0 5 1 24 (le 4 7 ++ (le 4 2 ++ m))
    RecordWaits 5 1 false r (waiting { committingDom with inbox := [0 :: r.raw] }) (waiting committingDom) ∧
    findExch ((waiting committingDom).dom 1) r.num r.snd false = some commitX ∧ committingDom.state = 3 ∧ commitX.phase = 3 ∧ r.body.length = 24 ∧
    ofLe (cut 0 4 r.body) = committingDom.offerGen ∧ r.body.drop 8 = m ∧ r.raw.take 40 = recHdr 5 3 0 5 1 24 ++ (le 4 7 ++ le 4 2) := by
  have hl : (le 4 7 ++ (le 4 2 ++ m)).length = 24 := by simp only [List.length_append, le_len, hm]
  refine ⟨record_waits 24 committingDom hl (by decide +kernel), rfl, rfl, rfl, hl, ?_, ?_, ?_⟩
  · show ofLe (cut 0 4 (le 4 7 ++ (le 4 2 ++ m))) = 7
    rw [cut_left 0 4 _ _ (by rw [le_len]; all_goals omega)]; decide +kernel
  · show (le 4 7 ++ (le 4 2 ++ m)).drop 8 = m
    rw [← List.append_assoc]
    exact List.drop_left' rfl
  · show (recHdr 5 3 0 5 1 24 ++ (le 4 7 ++ (le 4 2 ++ m))).take 40 = _
    rw [show recHdr 5 3 0 5 1 24 ++ (le 4 7 ++ (le 4 2 ++ m)) = (recHdr 5 3 0 5 1 24 ++ (le 4 7 ++ le 4 2)) ++ m by simp only [List.append_assoc]]
    exact List.take_left' (by simp only [List.length_append, le_len]; rfl)
/-- A check value that is the one the exchange gives, and one that is not, are such strings. -/
theorem test_check_strings (k : BitVec 256) (x : Bytes) : (cmac k x).length = 16 ∧ ∃ m : Bytes, m.length = 16 ∧ m ≠ cmac k x := by
  by_cases g : zeros 16 = cmac k x
  · exact ⟨cmac_len k x, List.replicate 16 1, rfl, by rw [← g]; decide⟩
  · exact ⟨cmac_len k x, zeros 16, rfl, g⟩
theorem test_admit_refuse (x : Exch) (hx : x = childX ∨ x = confirmX) : let d : Dom := { member with exchs := [x] }
    let r := aRec 6 3 x.peer 5 1 4 [9, 0, 0, 0]
    RecordWaits 6 1 false r (waiting { d with inbox := [0 :: r.raw] }) (waiting d) ∧
    (((waiting d).dom 1).exchs.find? fun x => x.num == r.num && x.peer == r.snd && !x.inband) = some x ∧
    r.dom = ((waiting d).dom 1).domain ∧ r.rcv = ((waiting d).dom 1).own ∧ r.body.length = 4 := by
  obtain rfl | rfl := hx
  · exact ⟨record_waits 4 _ rfl (by decide +kernel), rfl, rfl, rfl, rfl⟩
  · exact ⟨record_waits 4 _ rfl (by decide +kernel), rfl, rfl, rfl, rfl⟩

/-! ### Partitions, slices and re-binding (O36) -/

theorem test_part_create : let s := op base
    Starts 0x0801 0 (env 0x0801 1 [(0, 9), (1, 1), (16, 5)]) 0 s ∧ opnd (env 0x0801 1 [(0, 9), (1, 1), (16, 5)]) 0 1 = 9 ∧
    opnd (env 0x0801 1 [(0, 9), (1, 1), (16, 5)]) 1 1 ≤ 1 ∧ freePart s = some 0 ∧ freePair s = some (64, 65) ∧ canDraw s 0 = true ∧ s.keep.verifyBad = false :=
  ⟨starts_of (by decide +kernel), by decide +kernel⟩
theorem test_part_freeze : Starts 0x0804 0 (env 0x0804 1 [(0, 1)]) 0 (op base) ∧ ((op base).part 1).state = 1 := ⟨starts_of (by decide +kernel), by decide +kernel⟩
theorem test_part_thaw : let s := op { base with parts := [(1, { state := 3 })], mem := [(0, { frzParts := [1, 2] })] }
    Starts 0x0805 0 (env 0x0805 1 [(0, 1)]) 0 s ∧ (s.part 1).state = 3 := ⟨starts_of (by decide +kernel), by decide +kernel⟩
theorem test_part_remove : Starts 0x0802 0 (env 0x0802 1 [(0, 1)]) 0 (op base) ∧ ((op base).part 1).state ≠ 0 ∧ ((op base).part 1).state ≠ 5 :=
  ⟨starts_of (by decide +kernel), by decide +kernel⟩

/-- A map of one slice: index 2, channels 0 and 1, port 0, cores 0 to 3, leased to partition 1. -/
def sliceMap : Bytes := le 2 1 ++ zeros 14 ++ ([2, 1] ++ zeros 6 ++ le 8 3 ++ le 4 1 ++ zeros 4 ++ [1] ++ zeros 7 ++ le 32 15)
theorem test_compose : let s := op (withObj id base)
    let e := env 0x0803 1 [(0, hd 1), (4, 8192 * 64 - 80), (10, 80), (12, 0)]
    Starts 0x0803 0 e 0 s ∧ objAccess s (accPart s { q := 0 } (hd 1)) (hd 1) (8192 * 64 - 80) 80 false = 0 ∧
    (1 ≤ ofLe (cut 0 2 sliceMap) ∧ ofLe (cut 0 2 sliceMap) ≤ 64 ∧ 80 = 16 + 64 * ofLe (cut 0 2 sliceMap)) ∧ s.epochDraining = false ∧
    mapOf s (fit 80 sliceMap) = some [{ idx := 2, chans := 3, ports := 1, cores := 15, lessees := [some 1], running := some 0 }] ∧
    opnd e 12 2 = s.epoch.toNat ∧ breaksHandoff s [{ idx := 2, chans := 3, ports := 1, cores := 15, lessees := [some 1], running := some 0 }] = false ∧
    (∀ x ∈ s.taken, envOpcode x.e ≠ 0x0803) ∧
    MeterFits s (accPart s { q := 0 } (hd 1)) 5 80 :=
  ⟨starts_of (by decide +kernel), by decide +kernel, by decide +kernel, by decide +kernel, by decide +kernel, by decide +kernel, by decide +kernel,
    by decide +kernel, fits_of (by decide +kernel)⟩

/-! ### Migration (O37, O38) -/

theorem test_migrate_prepare : let s := op (withObj id base)
    let e := env 0x0810 1 [(32, 5), (80, hd 1), (84, 512), (88, hd 1)]
    Starts 0x0810 0 e 0 s ∧ handleLive s (hd 1) = true ∧ opnd e 80 4 = hd 1 ∧ opnd e 84 4 ≤ (s.obj (handleIdx (hd 1))).tiles * 8 ∧ opnd e 88 4 ≠ 0 ∧
    freePart s = some 0 ∧ freePair s = some (64, 65) ∧ canDraw s 0 = true ∧ s.keep.verifyBad = false := ⟨starts_of (by decide +kernel), by decide +kernel⟩
theorem test_migrate_start : let s := op (withObj id { base with parts := [(1, { state := 3, migDigest := 1 :: zeros 47 })] })
    let e := env 0x0811 1 [(0, 1), (36, hd 1), (40, 512)]
    Starts 0x0811 0 e 0 s ∧ (s.part 1).state = 3 ∧ (s.part 1).migDigest ≠ zeros 48 ∧ tfind s.migs 1 = none ∧ opnd e 36 4 = hd 1 ∧
    handleLive s (hd 1) = true ∧ opnd e 40 4 ≤ (s.obj (handleIdx (hd 1))).tiles * 8 ∧ canDraw s 0 = true ∧ canDraw s 1 = true :=
  ⟨starts_of (by decide +kernel), by decide +kernel⟩
theorem test_migrate_export : let s := op (withObj (fun o => { o with part := 0xFF }) { base with parts := [(1, { state := 4 })] })
    Starts 0x0812 0 (env 0x0812 1 [(0, 1), (4, hd 1), (16, 8192 * 64)]) 0 s ∧ (s.part 1).state = 4 ∧ (s.obj 1).part = 0xFF ∧
    8240 ≤ (s.obj 1).tiles * 8192 ∧ objAccess s 0xFF (hd 1) 0 (8192 * 64) true = 0 ∧ exportOk s 1 = true := ⟨starts_of (by decide +kernel), by decide +kernel⟩

theorem cut0_take (n : Nat) (b : Bytes) (h : n ≤ b.length) : cut 0 n b = b.take n := by
  unfold cut fit zeros; rw [List.drop_zero, Nat.sub_eq_zero_of_le h, List.replicate_zero, List.append_nil]
theorem ctrXor_twice (k : BitVec 256) (iv : Bytes) (n : Nat) (p : Bytes) : ctrXor k iv n (ctrXor k iv n p) = p := by
  have h : p.length ≤ (keystream (roundKeys (keyBytes k)) iv n (nblocks p.length)).length := by
    have := ctrXor_len k iv n p
    unfold ctrXor at this
    rw [xorb_len] at this
    omega
  unfold ctrXor
  rw [show (xorb p (keystream (roundKeys (keyBytes k)) iv n (nblocks p.length))).length = p.length from ctrXor_len k iv n p]
  exact xorb_undo p _ h
/-- An export record 0 of a partition: its body sealed under the migration key, here in slot 64. -/
def partRec (k : BitVec 256) (b : Bytes) : Bytes :=
  let h := [1, 0, 0, 0] ++ le 4 112 ++ le 8 0
  h ++ (ctrXor k (migIv 0x4D (be 8 0)) 2 b ++ gcmTag k (migIv 0x4D (be 8 0)) h (ctrXor k (migIv 0x4D (be 8 0)) 2 b))
theorem partRec_opens (k : BitVec 256) (b : Bytes) (hb : b.length = 112) : (partRec k b).length = 144 ∧
    (∀ i n, i + n ≤ 16 → cut i n (partRec k b) = cut i n ([1, 0, 0, 0] ++ le 4 112 ++ le 8 0)) ∧
    gcmOpen k (migIv 0x4D (be 8 0)) ((partRec k b).take 16) (cut 16 112 (partRec k b)) (cut 128 16 (partRec k b)) = some b := by
  have hh : ([1, 0, 0, 0] ++ le 4 112 ++ le 8 0 : Bytes).length = 16 := rfl
  have hc : (ctrXor k (migIv 0x4D (be 8 0)) 2 b).length = 112 := by rw [ctrXor_len, hb]
  have ht := tag_length k (migIv 0x4D (be 8 0)) ([1, 0, 0, 0] ++ le 4 112 ++ le 8 0) (ctrXor k (migIv 0x4D (be 8 0)) 2 b)
  have ho := opens k (migIv 0x4D (be 8 0)) ([1, 0, 0, 0] ++ le 4 112 ++ le 8 0) (ctrXor k (migIv 0x4D (be 8 0)) 2 b)
  rw [ctrXor_twice] at ho
  unfold partRec
  dsimp only
  generalize ([1, 0, 0, 0] ++ le 4 112 ++ le 8 0 : Bytes) = h at hh ht ho ⊢
  generalize ctrXor k (migIv 0x4D (be 8 0)) 2 b = c at hc ht ho ⊢
  generalize gcmTag k (migIv 0x4D (be 8 0)) h c = t at ht ho ⊢
  refine ⟨by simp only [List.length_append, hh, hc, ht], fun i n g => cut_left i n _ _ (by omega), ?_⟩
  rw [List.take_left' hh, cut_right 16 112 _ _ hh, cut_left 0 112 _ _ (by omega), cut_all 112 c hc, ← List.append_assoc,
    cut_right 128 16 _ _ (by rw [List.length_append, hh, hc]), cut_all 16 t ht]
  exact ho
def partBody : Bytes := [9, 1, 0, 0] ++ le 4 0 ++ le 8 64 ++ zeros 96
theorem test_migrate_import : let s := op (withObj id { base with parts := [(1, { state := 2 })], migs := [(1, { slot := 64, exch := some { num := 1, phase := 3 } })], keys := [(64, { state := 1, cls := 6, owner := 1, cur := 7 })] })
    let inp := partRec 7 partBody
    Starts 0x0813 0 (env 0x0813 1 [(0, 1), (4, hd 1), (16, 144)]) 0 s ∧ (s.part 1).state = 2 ∧ (s.mig 1).exch = some { num := 1, phase := 3 } ∧
    tfind s.migs 1 = some (s.mig 1) ∧ (s.mig 1).done = false ∧ objAccess s (accPart s { q := 0 } (hd 1)) (hd 1) 0 144 false = 0 ∧
    MeterFits s (accPart s { q := 0 } (hd 1)) 5 144 ∧ (s.part 1).nextImport = 0 ∧ ofLe (cut 4 4 (fit 144 inp)) = 112 ∧ ofLe (cut 8 8 (fit 144 inp)) = 0 ∧ (fit 144 inp).take 4 = [1, 0, 0, 0] ∧
    gcmOpen (s.key (s.mig 1).slot).cur (migIv 0x4D (be 8 0)) ((fit 144 inp).take 16) (cut 16 112 (fit 144 inp)) (cut 128 16 (fit 144 inp)) = some partBody ∧
    partBody.length = 112 ∧ ofLe (cut 0 1 partBody) = 9 ∧ ofLe (cut 1 1 partBody) ≤ 1 ∧ cut 2 2 partBody = [0, 0] := by
  obtain ⟨h1, h2, h3⟩ := partRec_opens 7 partBody (by decide +kernel)
  have hf : fit 144 (partRec 7 partBody) = partRec 7 partBody := cut_all 144 _ h1
  refine ⟨starts_of (by decide +kernel), by decide +kernel, by decide +kernel, by decide +kernel, by decide +kernel, by decide +kernel,
    fits_of (by decide +kernel), by decide +kernel, ?_, ?_, ?_, ?_, by decide +kernel⟩
  · rw [hf, h2 4 4 (by decide)]; decide +kernel
  · rw [hf, h2 8 8 (by decide)]; decide +kernel
  · rw [hf]
    have := h2 0 4 (by decide)
    rwa [show cut 0 4 (partRec 7 partBody) = (partRec 7 partBody).take 4 from cut0_take 4 _ (by omega)] at this
  · rw [hf]; exact h3
/-- The receipt for two records under the zero key, by the algorithms of the spec's standards. -/
theorem test_receipt : receiptOf 0 2 = le 16 154223038895786530349402138401968435059 := by decide +kernel
theorem test_migrate_finish : let s := op { base with parts := [(1, { state := 4 })], migs := [(1, { source := true, slot := 64, nextRec := 2, done := true })] }
    let e (v : Nat) := env 0x0814 1 [(0, 1), (16, v)]
    (Starts 0x0814 0 (e 154223038895786530349402138401968435059) 0 s ∧ (s.part 1).state = 4 ∧ (s.mig 1).done = true ∧
      opBytes (e 154223038895786530349402138401968435059) 16 16 = receiptOf (s.key (s.mig 1).slot).cur (s.mig 1).nextRec) ∧
    Starts 0x0814 0 (e 5) 0 s ∧ opBytes (e 5) 16 16 ≠ receiptOf (s.key (s.mig 1).slot).cur (s.mig 1).nextRec := by
  have h : receiptOf 0 2 = le 16 154223038895786530349402138401968435059 := test_receipt
  refine ⟨⟨starts_of (by decide +kernel), by decide +kernel, by decide +kernel, ?_⟩, starts_of (by decide +kernel), ?_⟩
  · show _ = receiptOf 0 2; rw [h]; decide +kernel
  · show _ ≠ receiptOf 0 2; rw [h]; decide +kernel
theorem test_migrate_abort : let s (n : Nat) := op { base with parts := [(1, { state := n })] }
    Starts 0x0815 0 (env 0x0815 1 [(0, 1)]) 0 (s 4) ∧ ((s 4).part 1).state = 4 ∧ Starts 0x0815 0 (env 0x0815 1 [(0, 1)]) 0 (s 2) ∧ ((s 2).part 1).state = 2 :=
  ⟨starts_of (by decide +kernel), by decide +kernel, starts_of (by decide +kernel), by decide +kernel⟩

def starter : Taken := { q := 0, seq := 5, e := env 0x0811 1 [], phase := 2, aux := 2 }
def migrating (p : Part) (m : Mig) : State := { base with parts := [(1, p)], migs := [(1, m)], taken := [message, starter] }
theorem migrating_msg (p : Part) (m : Mig) : messageOf (migrating p m) 1 = some message := by
  have h : (message.phase == 2 && envOpcode message.e == 0x0712 && message.aux == 2) = true := by decide +kernel
  show ([message, starter].filter fun t => t.phase == 2 && envOpcode t.e == 0x0712 && t.aux == 2).head? = _
  rw [List.filter_cons, if_pos h]
  rfl
theorem mig_waits {type num : Nat} {body : Bytes} (n : Nat) (p : Part) (m : Mig) (hb : body.length = n)
    (h : headOk (recHdr type 0 noDev noDev num n) type 0 noDev noDev num n = true) :
    MigWaits type 1 (aRec type 0 noDev noDev num n body) (migrating p { m with inbox := [rawRec type 0 noDev noDev num n body] })
      (migrating p { m with inbox := [] }) :=
  ⟨_, [], rfl, rec_of n hb h, rfl, by rw [migrating_msg]; rfl, fun _ => ⟨show canDraw base 0 = true by decide +kernel, show canDraw base 1 = true by decide +kernel⟩, rfl⟩

theorem test_mig_offer : let r := aRec 7 0 noDev noDev 1 1777 admitBody
    let z := aRec 7 0 noDev noDev 1 1777 (zeros 1777)
    let m : Mig := { ueid := zeros 32 }
    let p (d : Bytes) : Part := { state := 2, migDigest := d }
    (MigWaits 7 1 r (migrating (p (zeros 48)) { m with inbox := [r.raw] }) (migrating (p (zeros 48)) m) ∧ r.body.length = 1777 ∧
      cut 64 48 r.body = (p (zeros 48)).migDigest ∧ offerKeysOk r = true) ∧
    (MigWaits 7 1 z (migrating (p (zeros 48)) { m with inbox := [z.raw] }) (migrating (p (zeros 48)) m) ∧ z.body.length = 1777 ∧
      cut 64 48 z.body = (p (zeros 48)).migDigest ∧ offerKeysOk z = false) ∧
    MigWaits 7 1 z (migrating (p []) { m with inbox := [z.raw] }) (migrating (p []) m) ∧ cut 64 48 z.body ≠ (p []).migDigest :=
  ⟨⟨mig_waits 1777 _ _ (by decide +kernel) (by decide +kernel), by decide +kernel⟩, ⟨mig_waits 1777 _ _ (by decide +kernel) (by decide +kernel), by decide +kernel⟩,
    mig_waits 1777 _ _ (by decide +kernel) (by decide +kernel), by decide +kernel⟩
theorem test_mig_reply (p c : Bytes) (hp : p.length = 97) (h : c.length = 20000 ∨ c = []) : let m : Mig := { source := true, exch := some { num := 1, phase := 1 } }
    let r := aRec 8 0 noDev noDev 1 (1701 + c.length) (replyBody p c.length c)
    MigWaits 8 1 r (migrating {} { m with inbox := [r.raw] }) (migrating {} m) ∧ replyBundle r = some c ∧ replyKeysOk r = (ecPoint p).isSome ∧
    (keepCas c (migrating {} m)).keep.verifyBad = false ∧ freeSlot (keepCas c (migrating {} m)) false = some 64 := by
  have hn : c.length < 2 ^ 32 := by rcases h with h | h <;> simp [h]
  obtain ⟨h1, h2⟩ := replyBody_bundle 8 0 noDev noDev c.length p c hp rfl hn
  refine ⟨mig_waits (1701 + c.length) _ _ h1 ?_, h2, replyBody_keys _ _ _ _ _ _ _ hp, keepCas_ready c (by decide +kernel) (by decide +kernel)⟩
  rcases h with h | rfl
  · rw [h]; decide +kernel
  · decide +kernel
theorem test_mig_grant (c m : Bytes) (hc : c.length = 20000 ∨ c = []) (hm : m.length = 16) :
    let d : Mig := { exch := some { num := 1, phase := 1, kcp := 3 } }
    let r := aRec 9 0 noDev noDev 1 (20 + c.length) (le 4 c.length ++ (c ++ m))
    MigWaits 9 1 r (migrating {} { d with inbox := [r.raw] }) (migrating {} d) ∧ r.body.length = 20 + ofLe (cut 0 4 r.body) ∧
    cut 4 (ofLe (cut 0 4 r.body)) r.body = c ∧ (keepCas c (migrating {} d)).keep.verifyBad = false ∧ freeSlot (keepCas c (migrating {} d)) false = some 64 ∧
    (m = cmac 3 (sha384 ([] ++ [] ++ (recHdr 9 0 noDev noDev 1 (20 + c.length) ++ (le 4 c.length ++ c)))) → macOk 3 ([] ++ []) r.raw = true) := by
  have hn : c.length < 2 ^ 32 := by rcases hc with h | h <;> simp [h]
  have hl : (le 4 c.length ++ (c ++ m)).length = 20 + c.length := by simp only [List.length_append, le_len, hm]; omega
  have h0 : ofLe (cut 0 4 (le 4 c.length ++ (c ++ m))) = c.length := by
    rw [cut_left 0 4 _ _ (by rw [le_len]; all_goals omega), cut_all 4 _ (le_len 4 _), ofLe_le, Nat.mod_eq_of_lt (by simpa using hn)]
  refine ⟨mig_waits (20 + c.length) _ _ hl ?_, ?_, ?_, (keepCas_ready c (b := false) (i := 64) (by decide +kernel) (by decide +kernel)).1,
    (keepCas_ready c (by decide +kernel) (by decide +kernel)).2, ?_⟩
  · rcases hc with h | rfl
    · rw [h]; decide +kernel
    · decide +kernel
  · show (le 4 c.length ++ (c ++ m)).length = 20 + ofLe (cut 0 4 (le 4 c.length ++ (c ++ m))); rw [hl, h0]
  · show cut 4 (ofLe (cut 0 4 (le 4 c.length ++ (c ++ m)))) (le 4 c.length ++ (c ++ m)) = c
    rw [h0, cut_right 4 c.length _ _ (le_len 4 _), cut_left 0 _ _ _ (by omega)]; exact cut_all _ c rfl
  · intro g
    show macOk 3 ([] ++ []) (recHdr 9 0 noDev noDev 1 (20 + c.length) ++ (le 4 c.length ++ (c ++ m))) = true
    have e (a b c d : Bytes) : a ++ (b ++ (c ++ d)) = (a ++ (b ++ c)) ++ d := by simp only [List.append_assoc]
    rw [e, g]
    exact mac_ok 3 [] _
theorem test_mig_confirm (m : Bytes) (hm : m.length = 16 ∨ m = []) :
    let d : Mig := { source := true, exch := some { num := 1, phase := 2, kcc := 3 } }
    let r := aRec 10 0 noDev noDev 1 m.length m
    let b := migrating { state := 3 } d
    MigWaits 10 1 r (migrating { state := 3 } { d with inbox := [r.raw] }) b ∧ (b.part 1).state = 3 ∧
    (m = cmac 3 (sha384 ([] ++ [] ++ [] ++ recHdr 10 0 noDev noDev 1 16)) → r.body.length = 16 ∧ macOk 3 ([] ++ [] ++ []) r.raw = true) ∧
    (m = [] → r.body.length ≠ 16) ∧ startCmd ((b.onMig 1 fun m => { m with exch := none }).onPart 1 fun p => { p with state := 4 }) 1 = some starter := by
  refine ⟨mig_waits m.length _ _ rfl ?_, by decide +kernel, ?_, ?_, by decide +kernel⟩
  · rcases hm with h | rfl
    · rw [h]; decide +kernel
    · decide +kernel
  · intro g
    have hl : m.length = 16 := by rw [g]; exact cmac_len ..
    refine ⟨hl, ?_⟩
    show macOk 3 ([] ++ [] ++ []) (recHdr 10 0 noDev noDev 1 m.length ++ m) = true
    rw [hl, g]
    exact mac_ok 3 [] _
  · intro g; rw [g]; decide
theorem test_mig_refuse : let r := aRec 6 0 noDev noDev 1 4 [9, 0, 0, 0]
    MigWaits 6 1 r (migrating {} { inbox := [r.raw] }) (migrating {} {}) ∧ ((migrating {} { inbox := [r.raw] }).dom 1).inbox = [] ∧ r.body.length = 4 :=
  ⟨mig_waits (type := 6) (num := 1) (body := [9, 0, 0, 0]) 4 {} {} rfl (by decide +kernel), rfl, rfl⟩
theorem policy_form (own digest : Bytes) : 100 ≤ (policyFor own digest).formMs ∧ (policyFor own digest).formMs ≤ 10000 := by
  have h (b : Bytes) (p : Policy) (hp : readPolicy b = some p) : 100 ≤ p.formMs ∧ p.formMs ≤ 10000 := by
    unfold readPolicy at hp
    split at hp
    · cases hp
    split at hp
    · cases hp
    dsimp only at hp
    split at hp
    · split at hp
      · cases hp; dsimp only; omega
      · cases hp
    · cases hp
  unfold policyFor
  cases g : readPolicy (if own = [] then Config.policyMap digest else own) with
  | none => decide
  | some p => exact h _ p g
theorem test_mig_timeout : let s (t n : Nat) : State := { migrating {} { exch := some { num := 1, phase := 1, lastAt := n } } with aon := { base.aon with time := t } }
    let limit := Config.ms (policyFor [] ((s 0 0).part 1).migDigest).formMs
    (s 1000000000 0).keepLive = true ∧ ((s 1000000000 0).mig 1).exch = some { num := 1, phase := 1, lastAt := 0 } ∧ 0 + limit ≤ (s 1000000000 0).now ∧
    (s 1000000000 1000000000).now < 1000000000 + limit := by
  have h := policy_form [] ((migrating {} { exch := some { num := 1, phase := 1, lastAt := 0 } }).part 1).migDigest
  refine ⟨by decide +kernel, rfl, ?_, ?_⟩
  · show 0 + Config.ms (policyFor [] ((migrating {} { exch := some { num := 1, phase := 1, lastAt := 0 } }).part 1).migDigest).formMs ≤ 1000000000
    unfold Config.ms; omega
  · show 1000000000 < 1000000000 + Config.ms (policyFor [] ((migrating {} { exch := some { num := 1, phase := 1, lastAt := 0 } }).part 1).migDigest).formMs
    unfold Config.ms; omega

/-! ### Handoffs and metering (O39, O40) -/

def handing (f : Obj → Obj) (g : Dom → Dom) (hs : List Handoff) (s : State) : State := { inDom g (withObj (fun o => f { o with cls := 2, keySlot := 64 }) s) with
  handoffs := hs, keys := [(64, { state := 1, cls := 1, owner := 1 })] }
theorem test_handoff_offer : let s := dev (handing id id [] base)
    Starts 0x0820 1 (env 0x0820 2 [(0, hd 1), (4, 6)]) 0 s ∧ offerBad s 1 6 = 0 ∧ (s.obj 1).rekey = none := ⟨starts_of (by decide +kernel), by decide +kernel⟩
theorem test_handoff_landing : let s := dev (handing id id [] base)
    Starts 0x0821 1 (env 0x0821 2 [(0, hd 1)]) 0 s ∧ (s.obj 1).cls = 2 ∧ (s.dom (s.obj 1).part).state = 4 ∧ (s.obj 1).written = false ∧
    (s.obj 1).landing = false ∧ (s.obj 1).frozen = false ∧ (s.objs.filter fun x => x.2.landing).length < 256 := ⟨starts_of (by decide +kernel), by decide +kernel⟩
theorem test_handoff_abandon : let h : Handoff := { offerer := true, peer := 6, num := 3, part := 1, state := 4, obj := 1 }
    let s := op (handing id id [h] base)
    Starts 0x0822 0 (env 0x0822 1 [(0, 5), (4, 3)]) 0 s ∧
    (s.handoffs.find? fun h => h.num == 3 && (if h.offerer then (s.dom h.part).own == 5 else h.peer == 5)) = some h :=
  ⟨starts_of (by decide +kernel), by decide +kernel⟩
def metering (s : State) : State := { withObj (fun o => { o with part := 0xFF }) s with
  keys := [(7, { state := 1, cls := 0xD, keepOwn := true, gen := 1 })], meter := { slot := some 7 }, host := { base.host with spdm := [(9, { phase := 2 })] } }
/-- The session's export key is a free value: `h` says that the operand is wrapped under it. -/
theorem test_meter_config (v : Nat) (k : Bytes) : let s := op (metering base)
    let e := env 0x0830 1 [(0, hd 1), (4, 512)]
    (Starts 0x0830 0 e 0 s ∧ opnd e 8 4 = 0 ∧ handleLive s (hd 1) = true ∧ (s.obj 1).cls = 4 ∧ (s.obj 1).part = 0xFF ∧ 64 ≤ opnd e 4 4 ∧
      opnd e 4 4 ≤ (s.obj 1).tiles * 8) ∧
    (v = 5 → let e := env 0x0830 1 [(0, hd 1), (4, 64), (8, 9), (16, v)]
      kwUnwrap (keyOf (hkdfExpand (Config.spdmExport 9 (tget {} s.host.spdm 9).fresh) (ascii "yk3 meter key") 32)) (opBytes e 16 40) = some k →
      Starts 0x0830 0 e 0 s ∧ opnd e 8 4 ≠ 0 ∧ sessionUp s (opnd e 8 4) = true ∧ meterBusy s = false ∧ s.meter.slot = some 7 ∧ s.keep.verifyBad = false ∧
      kwUnwrap (keyOf (hkdfExpand (Config.spdmExport (opnd e 8 4) (tget {} s.host.spdm (opnd e 8 4)).fresh) (ascii "yk3 meter key") 32)) (opBytes e 16 40) = some k) := by
  refine ⟨⟨starts_of (by decide +kernel), by decide +kernel⟩, ?_⟩
  rintro rfl e h
  refine ⟨starts_of (by decide +kernel), by decide +kernel, by decide +kernel, by decide +kernel, rfl, rfl, ?_⟩
  rw [show opnd e 8 4 = 9 by decide +kernel]
  exact h

/-- A message of a handoff 3 with device 6: type and body. -/
def about (f : Handoff → Handoff) : Handoff := f { offerer := true, peer := 6, num := 3, part := 1, state := 1, obj := 1, lastAt := 4000000 }
theorem test_handoff_accept : let w := le 4 3 ++ le 4 1 ++ le 2 0 ++ zeros 6
    let m := mail 0x21 128 16 6
    let s (n : Nat) := handing id id [about fun h => { h with state := n }] base
    (Arrives 0x21 1 m w (s 1) w ∧ findHandoff (mailTaken 1 m (s 1)) true 1 (mailSender m) (ofLe (cut 0 4 w)) = some (about id)) ∧
    Arrives 0x21 1 m w (s 2) w ∧ findHandoff (mailTaken 1 m (s 2)) true 1 (mailSender m) (ofLe (cut 0 4 w)) = some (about fun h => { h with state := 2 }) :=
  ⟨⟨arrives_of (by decide +kernel), by decide +kernel⟩, arrives_of (by decide +kernel), by decide +kernel⟩
theorem test_handoff_ack : let w := le 4 3 ++ le 1 1 ++ zeros 3
    let m := mail 0x23 128 8 6
    let s (n : Nat) := handing id id [about fun h => { h with state := n }] base
    (Arrives 0x23 1 m w (s 3) w ∧ findHandoff (mailTaken 1 m (s 3)) true 1 (mailSender m) (ofLe (cut 0 4 w)) = some (about fun h => { h with state := 3 })) ∧
    Arrives 0x23 1 m w (s 4) w ∧ findHandoff (mailTaken 1 m (s 4)) true 1 (mailSender m) (ofLe (cut 0 4 w)) = some (about fun h => { h with state := 4 }) :=
  ⟨⟨arrives_of (by decide +kernel), by decide +kernel⟩, arrives_of (by decide +kernel), by decide +kernel⟩
theorem test_handoff_refuse : let w := le 4 3 ++ le 2 5 ++ zeros 2
    let m := mail 0x25 128 8 6
    let t : Taken := { q := 1, seq := 8, e := env 0x0820 2 [], phase := 2, aux := 4 }
    let s (n : Nat) : State := { handing id id [about fun h => { h with state := n }] base with taken := [t] }
    let b (n : Nat) := mailTaken 1 m (s n)
    (Arrives 0x25 1 m w (s 4) w ∧ findHandoff (b 4) true 1 (mailSender m) (ofLe (cut 0 4 w)) = some (about fun h => { h with state := 4 })) ∧
    Arrives 0x25 1 m w (s 1) w ∧ findHandoff (b 1) true 1 (mailSender m) (ofLe (cut 0 4 w)) = some (about id) ∧
    offerCmd ((thawObject 1 (setHandoff (about fun h => { h with state := 5 }) (b 1))).onObj 1 fun o => { o with refs := o.refs - 1 }) (about id) = some t :=
  ⟨⟨arrives_of (by decide +kernel), by decide +kernel⟩, arrives_of (by decide +kernel), by decide +kernel⟩
theorem test_handoff_query : Arrives 0x26 1 (mail 0x26 128 8 6) (le 4 3 ++ zeros 4) (handing id id [] base) (le 4 3 ++ zeros 4) :=
  arrives_of (by decide +kernel)
theorem test_handoff_close : let w := le 4 3 ++ zeros 4
    let m := mail 0x28 128 8 6
    let s (n : Nat) := handing id id [about fun h => { h with state := n }] base
    (Arrives 0x28 1 m w (s 4) w ∧ findHandoff (mailTaken 1 m (s 4)) true 1 (mailSender m) (ofLe (cut 0 4 w)) = some (about fun h => { h with state := 4 })) ∧
    Arrives 0x28 1 m w (s 3) w ∧ findHandoff (mailTaken 1 m (s 3)) true 1 (mailSender m) (ofLe (cut 0 4 w)) = some (about fun h => { h with state := 3 }) :=
  ⟨⟨arrives_of (by decide +kernel), by decide +kernel⟩, arrives_of (by decide +kernel), by decide +kernel⟩
theorem test_handoff_retransmit : let s (n r : Nat) := handing id id [about fun h => { h with lastAt := n, retries := r }] base
    let find (s : State) := s.handoffs.find? fun h => h.offerer && h.num == (3#32).toNat && (h.state == 1 || h.state == 3)
    find (s 4900001 0) = some (about fun h => { h with lastAt := 4900001 }) ∧ (s 4900001 0).now < 4900001 + Config.ms 1 ∧
    find (s 4900000 8) = some (about fun h => { h with lastAt := 4900000, retries := 8 }) ∧ (s 4900000 8).keepStopped = false ∧
    4900000 + Config.ms 1 ≤ (s 4900000 8).now ∧ find (s 4900000 7) = some (about fun h => { h with lastAt := 4900000, retries := 7 }) := by decide +kernel
/-- The receiver's side. -/
def landed (f : Handoff → Handoff) : Handoff := f { peer := 6, num := 3, part := 1, state := 1, landing := 1, counter := 2, tiles := 64, lastAt := 4000000 }
theorem test_handoff_offer_message : let w := le 4 3 ++ le 4 2 ++ le 4 64 ++ zeros 4
    let m := mail 0x20 128 16 6
    let s := handing (fun o => { o with landing := true }) id [] base
    let b (s : State) := mailTaken 1 m s
    (Arrives 0x20 1 m w s w ∧ ((b s).dom 1).state = 4 ∧ findHandoff (b s) false 1 (mailSender m) (ofLe (cut 0 4 w)) = none ∧
      (∃ o, (b s).objs = [(1, o)] ∧ o.landing = true ∧ o.accepted = none ∧ o.state = 1 ∧ o.part = 1 ∧ o.cls = ofLe (cut 4 1 w) ∧ ofLe (cut 8 4 w) ≤ o.tiles ∧
        o.gen * 2 ^ 20 + 1 ≠ 0) ∧ lowFree (b s).arrivals 0 1024 = some 0) ∧
    (Arrives 0x20 1 m w (handing id id [] base) w ∧ findHandoff (b (handing id id [] base)) false 1 (mailSender m) (ofLe (cut 0 4 w)) = none ∧
      ∀ o ∈ (b (handing id id [] base)).objs, o.2.landing = false) ∧
    Arrives 0x20 1 m w (handing id id [landed id] base) w ∧ findHandoff (b (handing id id [landed id] base)) false 1 (mailSender m) (ofLe (cut 0 4 w)) = some (landed id) :=
  ⟨⟨arrives_of (by decide +kernel), by decide +kernel, by decide +kernel, ⟨_, rfl, by decide +kernel⟩, by decide +kernel⟩,
    ⟨arrives_of (by decide +kernel), by decide +kernel⟩, arrives_of (by decide +kernel), by decide +kernel⟩
theorem test_handoff_commit : let w := le 4 3 ++ le 4 64
    let m := mail 0x22 128 8 6
    let s (n k f : Nat) : State := { handing id id [landed fun h => { h with state := n }] base with arrivals := [(2, { state := 1, part := 1, landed := k, total := 64, failed := f })] }
    let b (n k f : Nat) := mailTaken 1 m (s n k f)
    (Arrives 0x22 1 m w (s 2 64 0) w ∧ findHandoff (b 2 64 0) false 1 (mailSender m) (ofLe (cut 0 4 w)) = some (landed fun h => { h with state := 2 })) ∧
    (Arrives 0x22 1 m w (s 4 64 0) w ∧ findHandoff (b 4 64 0) false 1 (mailSender m) (ofLe (cut 0 4 w)) = some (landed fun h => { h with state := 4 })) ∧
    (Arrives 0x22 1 m w (s 1 64 0) w ∧ findHandoff (b 1 64 0) false 1 (mailSender m) (ofLe (cut 0 4 w)) = some (landed id) ∧
      (tget {} (b 1 64 0).arrivals 2).landed = ofLe (cut 4 4 w) ∧ (tget {} (b 1 64 0).arrivals 2).failed = 0) ∧
    (Arrives 0x22 1 m w (s 1 63 0) w ∧ findHandoff (b 1 63 0) false 1 (mailSender m) (ofLe (cut 0 4 w)) = some (landed id) ∧
      (tget {} (b 1 63 0).arrivals 2).landed ≠ ofLe (cut 4 4 w)) ∧
    Arrives 0x22 1 m w (s 1 64 1) w ∧ findHandoff (b 1 64 1) false 1 (mailSender m) (ofLe (cut 0 4 w)) = some (landed id) ∧
      (tget {} (b 1 64 1).arrivals 2).failed ≠ 0 :=
  ⟨⟨arrives_of (by decide +kernel), by decide +kernel⟩, ⟨arrives_of (by decide +kernel), by decide +kernel⟩, ⟨arrives_of (by decide +kernel), by decide +kernel⟩,
    ⟨arrives_of (by decide +kernel), by decide +kernel⟩, arrives_of (by decide +kernel), by decide +kernel⟩
theorem test_handoff_released : let w := le 4 3 ++ zeros 4
    let m := mail 0x24 128 8 6
    let s (n : Nat) := handing id id [landed fun h => { h with state := n }] base
    (Arrives 0x24 1 m w (s 2) w ∧ findHandoff (mailTaken 1 m (s 2)) false 1 (mailSender m) (ofLe (cut 0 4 w)) = some (landed fun h => { h with state := 2 })) ∧
    Arrives 0x24 1 m w (s 1) w ∧ findHandoff (mailTaken 1 m (s 1)) false 1 (mailSender m) (ofLe (cut 0 4 w)) = some (landed id) :=
  ⟨⟨arrives_of (by decide +kernel), by decide +kernel⟩, arrives_of (by decide +kernel), by decide +kernel⟩
theorem test_handoff_state (n : Nat) (h : n = 1 ∨ n = 2 ∨ n = 3 ∨ n = 4) : let w := le 4 3 ++ le 1 n ++ zeros 3
    let m := mail 0x27 128 8 6
    let s := handing id id [landed fun h => { h with state := 2 }] base
    Arrives 0x27 1 m w s w ∧ findHandoff (mailTaken 1 m s) false 1 (mailSender m) (ofLe (cut 0 4 w)) = some (landed fun h => { h with state := 2 }) ∧
    ofLe (cut 4 1 w) = n := by
  rcases h with rfl | rfl | rfl | rfl <;> exact ⟨arrives_of (by decide +kernel), by decide +kernel⟩
theorem test_handoff_query_timer : let s (n : Nat) := handing id id [landed fun h => { h with lastAt := n }] base
    let find (s : State) := s.handoffs.find? fun h => !h.offerer && h.peer == 6 && h.num == (3#32).toNat
    find (s 4000001) = some (landed fun h => { h with lastAt := 4000001 }) ∧ (s 4000001).now < 4000001 + Config.ms 10 ∧
    find (s 4000000) = some (landed id) ∧ (landed id).state ≠ 4 ∧ 4000000 + Config.ms 10 ≤ (s 4000000).now ∧
    find (handing id id [landed fun h => { h with state := 4 }] base) = some (landed fun h => { h with state := 4 }) := by decide +kernel

/-! ### Epochs, removals, intervals and the host link (O41, O42) -/

def draining (n : Nat) : State := { base with epochDraining := true, epoch := 1, epochAt := n }
theorem test_epoch_drains : let s := draining 4900000
    s.keepLive = true ∧ s.epochDraining = true ∧ epochDrained s = true ∧ runningWith s 0x0803 1 = [] ∧
    epochDrained { s with mem := [(0, { reqs := [one fun r => { r with epoch := 0 }] })] } = false ∧
    (draining 4500000).keepLive = true ∧ (draining 4500000).epochDraining = true ∧ 4500000 + Config.ms 5 ≤ (draining 4500000).now := by decide +kernel
theorem test_removal_drains : let s (at_ : Nat) (d : Option Nat) (j : State → State) : State := j { base with
      parts := [(1, { state := 5, removeAt := at_, drainEnd := d })], keys := [(65, { state := 6, cls := 3, owner := 1 })] }
    let bound (s : State) : State := { s with link := [(0x80, { jobs := [(1, { state := 1, slot := 65 })] })] }
    (s 4900000 none id).keepLive = true ∧ ((s 4900000 none id).part 1).state = 5 ∧ ((s 4900000 none id).part 1).drainEnd = none ∧
    partDrained (s 4900000 none id) 1 = true ∧
    (partDrained (s 4800000 none bound) 1 = false ∧ 4800000 + Config.ms 2 ≤ (s 4800000 none bound).now) ∧
    (partDrained (s 4800001 none bound) 1 = false ∧ (s 4800001 none bound).now < 4800001 + Config.ms 2) ∧
    ((s 0 (some 4980000) id).part 1).destroying = false ∧ ((s 0 (some 4980000) id).part 1).drainEnd = some 4980000 ∧
    4980000 + Config.us 200 ≤ (s 0 (some 4980000) id).now := by decide +kernel
theorem test_meter_boundaries : let s (t a c : Nat) : State := { base with aon := { base.aon with time := t }, keep := { base.keep with drbg1 := { since := t } }, meter := { startAt := a, ckptAt := c } }
    meterDue (s meterTicks 0 0) = some meterTicks ∧ meterDue (s (meterTicks - 1) 0 0) = none ∧
    (s 6000000000 6000000000 0).keepLive = true ∧ (s 6000000000 6000000000 0).meter.backlog.length < 65536 ∧ canDraw (s 6000000000 6000000000 0) 1 = true ∧
    (0 / 6000000000 + 1) * 6000000000 ≤ (s 6000000000 6000000000 0).meter.startAt ∧ (s 6000000000 5999999999 0).meter.startAt < (0 / 6000000000 + 1) * 6000000000 := by
  decide +kernel

def hosting (f : HostSt → HostSt) : State := { base with host := f { base.host with port := { opened := true } } }
theorem test_host_port : base.portState Config.hostId ≠ .opened ∧ (hosting id).portState Config.hostId = .opened := by decide +kernel
/-- A write of 64 bytes under tag 5 for partition 1. -/
def hostReq : BitVec 256 := BitVec.ofNat 256 (4 + 5 * 2 ^ 4 + 2 ^ 14 + 64 * 2 ^ 137)
theorem test_host_dma : let s := hosting id
    let r := { memReq Config.hostId hostReq (zeros 64) with epoch := s.host.port.cur.epoch }
    s.portState Config.hostId = .opened ∧ hostMay s 3 0 false false r.part = true ∧ isWrite r.kind = true ∧ s.host.waiting = [] ∧
    hostMay s 64 0 false false r.part = false := by decide +kernel
/-- Stream 4, live, whose key in slot 3 opens what it receives; interface 2 runs on it for partition 1.  Its tag fails when
`Config.ideOpen`, a free value, says so. -/
def onStream : State := { hosting fun h => { h with port := { opened := true, keys := [(3, 1)] }, ide := [(4, { live := true, slots := [(0, 3)] })], tdisp := [(2, { state := 2, part := some 1, stream := 4 })] } with
  keys := [(3, { state := 1, cls := 7, keepOwn := true, gen := 1, cur := 6 })] }
theorem test_ide_tag_fails (mac : Bytes) (h : Config.ideOpen 6 (zeros 64) mac = none) : let s := onStream
    let r := { memReq Config.hostId hostReq (zeros 64) with epoch := s.host.port.cur.epoch }
    s.portState Config.hostId = .opened ∧ s.host.waiting = [] ∧ hostMay s 2 4 true true r.part = true ∧ isWrite r.kind = true ∧ ideSub s 4 0 = some (3, 1) ∧
    (s.key 3).state ≠ 6 ∧ s.host.port.keys.contains (3, 1) = true ∧ ∃ k, halfOf (s.key 3) 1 = some k ∧ Config.ideOpen k (zeros 64) mac = none :=
  ⟨by decide +kernel, by decide +kernel, by decide +kernel, by decide +kernel, by decide +kernel, by decide +kernel, by decide +kernel, 6, by decide +kernel, h⟩
theorem test_ide_failure : let s := hosting fun h => { h with ide := [(4, { live := true, slots := [(0, 3)] })] }
    (s.ideOf 4).live = true ∧ (s.ideOf 5).live = false := by decide +kernel
theorem test_spdm : hostUp (hosting id) = true ∧ sessionUp (hosting id) 9 = false ∧
    spdmCodes.contains (ofLe (cut 1 1 ([0x13, 0x55, 0, 0] : Bytes))) = false ∧ 4 ≤ ([0x13, 0x84, 0, 0] : Bytes).length ∧
    ofLe (cut 1 1 ([0x13, 0x84, 0, 0] : Bytes)) = 0x84 := by decide +kernel
def session (i : Ide) (k : KeySlot) (t : Tdisp) : State := { hosting fun h => { h with spdm := [(9, { phase := 2 })], ide := [(255, i)], tdisp := [(63, t)] } with
  keys := [(3, k)] }
theorem secured (k : BitVec 256) (iv : Bytes) (aad : Nat → Bytes) (m : Bytes) : let w := gcmSeal k iv (aad (m.length + 16)) m
    let b := w.1 ++ w.2
    gcmOpen k iv (aad b.length) (b.take (b.length - 16)) (b.drop (b.length - 16)) = some m := by
  have hc : (ctrXor k iv 2 m).length = m.length := ctrXor_len ..
  have ht := tag_length k iv (aad (m.length + 16)) (ctrXor k iv 2 m)
  have ho := opens k iv (aad (m.length + 16)) (ctrXor k iv 2 m)
  rw [ctrXor_twice] at ho
  unfold gcmSeal
  dsimp only
  generalize gcmTag k iv (aad (m.length + 16)) (ctrXor k iv 2 m) = t at ht ho ⊢
  generalize ctrXor k iv 2 m = c at hc ho ⊢
  have hb : (c ++ t).length = m.length + 16 := by rw [List.length_append, ht, hc]
  rw [hb, Nat.add_sub_cancel, List.take_left' hc, List.drop_left' hc]
  exact ho
theorem unsecured (k : BitVec 256) (iv a c : Bytes) : gcmOpen k iv a c [] = none := by
  unfold gcmOpen
  rw [if_neg]
  intro h
  have := congrArg List.length h
  rw [tag_length] at this
  cases this
theorem spdm_secured (s : State) (i : Nat) (m : Bytes) : let x := tget ({} : Spdm) s.host.spdm i
    let w := gcmSeal (spdmHalf s x 0) (spdmNonce i 0 x.fresh x.reqSeq) (spdmAad i (m.length + 16)) m
    spdmOpen s i (w.1 ++ w.2) = some m ∧ spdmOpen s i [] = none :=
  ⟨secured _ _ (spdmAad i) m, unsecured ..⟩
/-- A message sealed under a session's request key opens; one without its tag does not. -/
theorem test_spdm_secured (m : Bytes) : let s := session {} {} {}
    let x := tget {} s.host.spdm 9
    let w := gcmSeal (spdmHalf s x 0) (spdmNonce 9 0 x.fresh x.reqSeq) (spdmAad 9 (m.length + 16)) m
    hostUp s = true ∧ sessionUp s 9 = true ∧ spdmOpen s 9 (w.1 ++ w.2) = some m ∧ spdmOpen s 9 [] = none :=
  ⟨by decide +kernel, by decide +kernel, spdm_secured _ 9 m⟩
theorem test_key_prog : let s := session {} {} {}
    let a := session { slots := [(11, 3)] } { state := 1, cls := 7, keepOwn := true } {}
    (hostUp s = true ∧ sessionUp s 9 = true ∧ (tfind s.host.ide 255).isSome = true ∧
      ((tfind (s.ideOf 255).slots (6 * 1 + 5)).orElse fun _ => freeSlot s true) = some 0 ∧ (s.key 0).state = 0 ∧ s.keep.verifyBad = false) ∧
    ((tfind (a.ideOf 255).slots (6 * 1 + 5)).orElse fun _ => freeSlot a true) = some 3 ∧ (a.key 3).state = 1 ∧ s.host.ide.length < 8 := by decide +kernel
theorem test_key_set : let a (l : Bool) := session { live := l, set := 1, slots := [(11, 3)] } { state := 2, cls := 7, keepOwn := true, first := true, pendIs := 1 } {}
    let v (s : State) (ks : Nat) := (setSlots (s.ideOf 255) ks).filter fun i => (s.key i).state == 2
    v (a false) 1 = [3] ∧ v (a false) 0 = [] ∧ sessionUp (a false) 9 = true ∧ hostUp (a false) = true ∧ setSlots ((a false).ideOf 255) 1 ≠ [] ∧ ((a false).ideOf 255).live = false ∧
    setSlots ((a true).ideOf 255) 1 ≠ [] ∧ ((a true).ideOf 255).live = true ∧ ((a true).ideOf 255).set = 1 := by decide +kernel
theorem test_tdisp : let s (n : Nat) (p : Option Nat) := session { live := true } {} { state := n, part := p, stream := 255 }
    (hostUp (s 0 none) = true ∧ sessionUp (s 0 none) 9 = true ∧ ((s 0 none).tdispOf 63).state = 0 ∧ ((s 0 none).part 1).state = 1 ∧
      ((s 0 none).ideOf 255).live = true ∧ ((s 0 none).tdispOf 63).part = none) ∧
    (((s 1 (some 1)).tdispOf 63).state = 1 ∧ ((s 1 (some 1)).ideOf ((s 1 (some 1)).tdispOf 63).stream).live = true ∧ ((s 1 (some 1)).tdispOf 63).part = some 1) := by
  decide +kernel

/-! ### The driver interface (O43 to O49) -/

theorem test_ctx_create : let s := op (withObj (fun o => { o with cls := 2 }) base)
    let e (k : Nat) (ring : Nat) := env 0x0901 1 [(0, 1), (1, k), (2, 1), (4, 2047), (8, ring)]
    (Starts 0x0901 0 (e 0 0x7000) 0 s ∧ partUsable s 1 = true ∧ ringAddrBad s false 1 0x7000 (16 * 2 ^ 5) = 0 ∧ lowFree s.ctxs 1 4095 = some 2) ∧
    Starts 0x0901 0 (e 1 (hd 1 + 4096 * 2 ^ 32)) 0 s ∧ ringAddrBad s true 1 (hd 1 + 4096 * 2 ^ 32) (16 * 2 ^ 5) = 0 :=
  ⟨⟨starts_of (by decide +kernel), by decide +kernel⟩, starts_of (by decide +kernel), by decide +kernel⟩
theorem test_queue_create : let s := op { base with ctxs := base.ctxs ++ [(2, { state := 1, part := 1 })], host := { base.host with tdisp := [(5, { state := 2, part := some 1 })] } }
    let e := env 0x0910 1 [(0, 2), (2, 12), (3, 1), (4, 9), (8, 0x1000), (16, 0x2000)]
    Starts 0x0910 0 e 0 s ∧ (s.ctx 2).state = 1 ∧ (s.ctx 2).device = false ∧
    (s.host.tdisp.any fun i => i.2.state == 2 && i.2.part == some (s.ctx 2).part) = true ∧
    ringAddrBad s (s.ctx 2).device (s.ctx 2).part (opnd e 8 8) (128 * 2 ^ 16) = 0 ∧ ringAddrBad s (s.ctx 2).device (s.ctx 2).part (opnd e 16 8) (64 * 2 ^ 16) = 0 ∧
    lowFree s.queues 1 1023 = some 2 := ⟨starts_of (by decide +kernel), by decide +kernel⟩
theorem test_queue_destroy : let s := op base
    Starts 0x0911 0 (env 0x0911 1 [(0, 1)]) 0 s ∧ (s.queue 1).state ≠ 0 ∧ (∀ y ∈ s.taken, y.q ≠ 1) ∧ ∀ p ∈ s.profs, p.2.queue ≠ some 1 :=
  ⟨starts_of (by decide +kernel), by decide +kernel⟩
theorem test_ctx_close : let s := op base
    Starts 0x0903 0 (env 0x0903 1 [(0, 1)]) 0 s ∧ (s.ctx 1).state = 1 ∧ 1 ≠ (s.queue 0).ctx ∧ Starts 0x0902 0 (env 0x0902 1 [(0, 1)]) 0 s ∧ (s.ctx 1).state ≠ 3 :=
  ⟨starts_of (by decide +kernel), by decide +kernel, by decide +kernel, starts_of (by decide +kernel), by decide +kernel⟩
theorem test_close_completes : let s : State := { base with ctxs := [(0, { state := 1 }), (1, { state := 2, part := 1 })], taken := [{ q := 0, seq := 4 }] }
    s.keepLive = true ∧ (s.ctx 1).state = 2 ∧ ∀ y ∈ s.taken, (s.queue y.q).ctx ≠ 1 := by decide +kernel

/-- A plain region of 16 tiles for the operator, placed automatically and by a list. -/
def allocOps (cls flags n : Nat) : List (Nat × Nat) := [(0, cls), (1, flags), (8, 1), (16, n), (20, hd 1)]
theorem test_obj_alloc : let s := op (withObj id base)
    let e (f : Nat) := env 0x0920 1 (allocOps 4 f 16)
    let inp := [0, 0, 0, 0] ++ le 4 300 ++ le 4 16 ++ le 4 70000
    Starts 0x0920 0 (e 0) 0 s ∧ allocBad s { q := 0, e := e 0 } = 0 ∧
    (∃ ps0, autoPlaces s 0xFF 4 16 1 = .inr ps0 ∧ withEntries s 4 ps0 = .inr ps0) ∧ freeObj s = some 2 ∧
    Starts 0x0920 0 (e 2) 0 s ∧ allocBad s { q := 0, e := e 2 } = 0 ∧ objAccess s (accPart s { q := 0 } (hd 1)) (hd 1) 0 (16 * popc 1#64) false = 0 ∧
    MeterFits s (accPart s { q := 0 } (hd 1)) 5 (16 * popc 1#64) ∧ listPlaces s 0xFF 4 16 1 inp = .inr [{ st := 0, first := 300, count := 16, hdr := 70000 }] ∧
    withEntries s 4 [{ st := 0, first := 300, count := 16, hdr := 70000 }] = .inr [{ st := 0, first := 300, count := 16, hdr := 70000 }] := by
  refine ⟨starts_of (by decide +kernel), by decide +kernel, ⟨_, rfl, by decide +kernel⟩, by decide +kernel, starts_of (by decide +kernel), by decide +kernel,
    by decide +kernel, fits_of (by decide +kernel), rfl, rfl⟩
/-- A sealed one takes a key slot and a draw. -/
theorem test_obj_alloc_sealed : let s := op base
    Starts 0x0920 0 (env 0x0920 1 [(0, 2), (8, 1), (16, 33)]) 0 s ∧ allocBad s { q := 0, e := env 0x0920 1 [(0, 2), (8, 1), (16, 33)] } = 0 ∧
    (∃ ps0 ps, autoPlaces s 0xFF 2 33 1 = .inr ps0 ∧ withEntries s 2 ps0 = .inr ps) ∧ freeObj s = some 1 ∧ freeSlot s true = some 0 ∧ canDraw s 0 = true ∧ s.keep.verifyBad = false ∧
    ∀ ps0 ps, autoPlaces s 0xFF 2 33 1 = .inr ps0 → withEntries s 2 ps0 = .inr ps → (ps.any fun p => s.isSafe p.st) = false := by
  refine ⟨starts_of (by decide +kernel), by decide +kernel, ⟨_, _, rfl, rfl⟩, by decide +kernel, by decide +kernel, by decide +kernel, by decide +kernel, ?_⟩
  rintro ps0 ps h g
  cases h; cases g
  decide +kernel
theorem test_obj_share : let s := dev (withObj id { base with ctxs := base.ctxs ++ [(2, { state := 1, part := 1 })] })
    Starts 0x0922 1 (env 0x0922 2 [(0, hd 1), (4, 2)]) 0 s ∧ (s.ctx 2).state = 1 ∧ (s.ctx 2).part = (s.obj 1).part ∧ (s.obj 1).owners.contains 2 = false ∧
    Starts 0x0923 1 (env 0x0923 2 [(0, hd 1)]) 0 s := ⟨starts_of (by decide +kernel), by decide +kernel, by decide +kernel, by decide +kernel, starts_of (by decide +kernel)⟩
theorem test_obj_free : let s := dev (withObj (fun o => { o with owners := [1] }) base)
    Starts 0x0921 1 (env 0x0921 2 [(0, hd 1)]) 0 s ∧ (s.obj 1).owners.contains (s.queue 1).ctx = true ∧ (s.obj 1).state = 1 ∧ without (s.obj 1).owners 1 = [] :=
  ⟨starts_of (by decide +kernel), by decide +kernel⟩
theorem test_object_retires : let s (c n : Nat) : State := withObj (placed fun o => { o with state := n, cls := c, keySlot := 64 }) base
    let p : State := { s 4 3 with mem := [(2, { retObjs := [1] })] }
    (s 4 2).keepLive = true ∧ ((s 4 2).obj 1).state = 2 ∧ refsOf (s 4 2) 1 = 0 ∧ ((s 4 2).obj 1).cls = 4 ∧ ((s 2 2).obj 1).cls ≠ 4 ∧ refsOf (s 2 2) 1 = 0 ∧
    ((p.obj 1).cls = 4 ∧ (p.obj 1).state = 3 ∧ plainDrained p 1 = true ∧ (p.obj 1).gen < 4095) := by decide +kernel

theorem test_fence_alloc : let s := dev base
    Starts 0x0930 1 (env 0x0930 2 []) 0 s ∧ freeFence s = some 0 := ⟨starts_of (by decide +kernel), by decide +kernel⟩
def fenced (f : Fence → Fence) : State := { base with fences := [(2, { state := 3, owner := 1 }), (4, f { state := 1, owner := 1 })], ctxs := base.ctxs ++ [(2, { state := 1, part := 1 })] }
theorem test_fence_free : let s (n : Nat) := dev (fenced fun f => { f with state := n })
    let own (s : State) (i : Nat) := (s.fence i).state ≠ 0 ∧ (s.fence i).freed = false ∧ (s.fence i).owner = (s.queue 1).ctx
    (Starts 0x0931 1 (env 0x0931 2 [(0, 4)]) 0 (s 2) ∧ own (s 2) 4 ∧ 4 ≠ envFence (env 0x0931 2 [(0, 4)]) ∧ ((s 2).fence 4).state = 2) ∧
    (Starts 0x0931 1 (env 0x0931 2 [(0, 4)]) 0 (s 3) ∧ own (s 3) 4 ∧ ((s 3).fence 4).state ≠ 2) ∧
    Starts 0x0931 1 (env 0x0931 2 [(0, 2)]) 0 (s 3) ∧ own (s 3) 2 ∧ 2 = envFence (env 0x0931 2 [(0, 2)]) :=
  ⟨⟨starts_of (by decide +kernel), by decide +kernel⟩, ⟨starts_of (by decide +kernel), by decide +kernel⟩, starts_of (by decide +kernel), by decide +kernel⟩
theorem test_fence_share : let s := dev (fenced id)
    Starts 0x0932 1 (env 0x0932 2 [(0, 4), (2, 2)]) 0 s ∧ (s.fence 4).state ≠ 0 ∧ (s.fence 4).freed = false ∧ (s.fence 4).owner = (s.queue 1).ctx ∧
    (s.ctx 2).state = 1 ∧ 2 ≠ (s.queue 1).ctx ∧ (s.ctx 2).part = (s.ctx (s.queue 1).ctx).part ∧ (s.fence 4).importers.contains 2 = false ∧
    isOperatorCtx (s.ctx 0) = true := ⟨starts_of (by decide +kernel), by decide +kernel⟩
theorem test_fence_release : let s := dev (fenced fun f => { f with owner := 0, importers := [2, 1] })
    Starts 0x0933 1 (env 0x0933 2 [(0, 4)]) 0 s ∧ (s.fence 4).importers.contains 1 = true ∧ 4 ≠ envFence (env 0x0933 2 [(0, 4)]) ∧ (s.fence 4).freed = false ∧
    Starts 0x0934 1 (env 0x0934 2 [(0, 4)]) 0 s ∧ (s.fence 4).state ≠ 0 := ⟨starts_of (by decide +kernel), by decide +kernel, by decide +kernel, by decide +kernel, starts_of (by decide +kernel), by decide +kernel⟩

theorem test_nop : Starts 0x0900 1 (env 0x0900 2 []) 0 (dev base) ∧ Starts 0x0940 1 (env 0x0940 2 [(0, 5)]) 0 (dev base) :=
  ⟨starts_of (by decide +kernel), starts_of (by decide +kernel)⟩
theorem test_work_end : let x : Taken := { q := 5, seq := 3, e := env 0x0940 4 [], phase := 2 }
    let s := dev { fenced id with taken := [x] }
    Starts 0x0941 1 (env 0x0941 2 [(0, 4)]) 0 s ∧
    (s.taken.find? fun x => x.phase == 2 && envOpcode x.e == 0x0940 && x.aux == 0 && envFence x.e == 4) = some x ∧ (s.fence 4).state ≠ 0 ∧
    (s.fence 4).freed = false ∧ (s.fence 4).owner = (s.queue 1).ctx := ⟨starts_of (by decide +kernel), by decide +kernel⟩

/-- A command that waits on fence 4 for its first count. -/
def waitsFor : Taken := { q := 1, seq := 8, e := env 0x0900 2 [], phase := 1, takenAt := 4000000 }
theorem test_command_starts : let t : Taken := { waitsFor with e := env 0x0930 2 [] }
    let s := { fenced id with taken := [t] }
    s.keepLive = true ∧ findTaken s 1 (8#32).toNat = some t ∧ (earlier s t).any (fun x => x.phase == 1) = false ∧ earlier s t = [] ∧ badWait s t = none ∧
    (∀ w ∈ waitsOf t.e, waitOn (s.fence w.1) w.2 = .satisfied) ∧ startBar s t = 0 ∧ ∀ p ∈ s.profs, p.2.queue ≠ some t.q := by decide +kernel
theorem test_wait_times_out : let s (n : Nat) : State := { base with taken := [waitsFor], queues := [(1, { state := 1, ctx := 1, limit := n })] }
    findTaken (s 10) 1 (8#32).toNat = some waitsFor ∧ ((s 10).queue 1).limit ≠ 0 ∧ waitsFor.takenAt + Config.ms ((s 10).queue 1).limit ≤ (s 10).now := by decide +kernel
theorem test_work_times_out : let t : Taken := { q := 1, seq := 8, e := env 0x0940 2 [(0, 10000)], phase := 2, startAt := 4000000 }
    let s : State := { base with taken := [t] }
    findTaken s 1 (8#32).toNat = some t ∧ envOpcode t.e = 0x0940 ∧ opnd t.e 0 4 ≠ 0 ∧ t.startAt + Config.us (opnd t.e 0 4) ≤ s.now := by decide +kernel
theorem test_pause_times_out : let s := { fenced fun f => { f with state := 2 } with queues := [(1, { state := 1, ctx := 1, limit := 10, pausedAt := some 4000000, pausedE := env 0x0900 4 [] })] }
    s.keepLive = true ∧ (s.queue 1).pausedAt = some 4000000 ∧ (s.queue 1).limit ≠ 0 ∧ 4000000 + Config.ms (s.queue 1).limit ≤ s.now ∧
    (s.fence (envFence (s.queue 1).pausedE)).state = 2 := by decide +kernel
theorem test_fence_failure : let s := fenced fun f => { f with state := 2 }
    s.keepLive = true ∧ (s.fence 4).state = 2 ∧ (s.ctx (s.fence 4).owner).part = 1 := by decide +kernel

theorem test_host_doorbell : (base.queue 0).state = 1 ∧ (base.ctx (base.queue 0).ctx).device = false ∧ rf (15#64) 0 16 < 2 ^ ((base.queue 0).size + 4) ∧
    2 ^ ((base.queue 0).size + 4) ≤ rf (16#64) 0 16 ∧ base.keepLive = true := by decide +kernel
def running : State := { base with slices := [{ idx := 2, cores := 4, lessees := [some 1], running := some 0 }] }
theorem test_device_doorbell : let src : BitVec 32 := 2 + 256
    coreLeases running (rf src 0 8) (rf src 8 8) (src.extractLsb' 16 16) = true ∧ rf src 8 8 = 1 ∧ (running.queue 1).state = 1 ∧
    (running.ctx (running.queue 1).ctx).device = true ∧ (running.ctx (running.queue 1).ctx).part = 1 ∧ rf (0#64) 0 16 ≠ (running.queue 1).tail ∧
    coreLeases base (rf src 0 8) (rf src 8 8) (src.extractLsb' 16 16) = false := by decide +kernel
theorem test_run_notice : (running.slices.find? fun x => x.idx == rf (2#32) 0 6) = some { idx := 2, cores := 4, lessees := [some 1], running := some 0 } ∧
    rf (2#32) 10 22 = 0 ∧ rf (2#32) 6 3 < 1 ∧ (0x202#32).getLsbD 9 = true ∧ rf (0x202#32) 0 6 = 2 ∧ rf (0x202#32) 10 22 = 0 := by decide +kernel
theorem test_admin_enable : let v (q e : Nat) : BitVec 32 := BitVec.ofNat 32 (2 ^ 16 + q * 2 ^ 12 + e * 2 ^ 8)
    base.keep.adminCtrl.getLsbD 16 = false ∧ (v 13 12).getLsbD 16 = true ∧ 12 < rf (v 13 12) 12 4 ∧ rf (v 12 12) 12 4 ≤ 12 ∧ rf (v 12 12) 8 4 ≤ 12 ∧
    { base with keep := { base.keep with adminCtrl := 0x10000 } }.keep.adminCtrl.getLsbD 16 = true := by decide +kernel
theorem test_table_read : let s (i : BitVec 32) : State := { base with keep := { base.keep with tableSel := 9, tableIdx := i } }
    let r (n : Nat) : State := { base with keep := { base.keep with tableSel := BitVec.ofNat 32 n } }
    (1#32).getLsbD 0 = true ∧ (∃ n i b, tableEntry { base with keep := { base.keep with tableSel := n, tableIdx := i } } n.toNat i.toNat = some b) ∧
    tableEntry (r 255) 255 0 = none ∧ (s 0).keepLive = true := ⟨by decide +kernel, ⟨1, 1, _, rfl⟩, by decide +kernel, by decide +kernel⟩
theorem test_event_head : base.keepLive = true ∧ (base.ctx 1).state ≠ 0 := by decide +kernel

theorem test_fault_acknowledge : base.keepLive = true ∧ isUnit 0 = true := by decide +kernel
theorem test_snapshots : (0x10000#32).getLsbD 16 = true ∧ (0x10000#32).getLsbD 17 = false ∧ (0x30000#32).getLsbD 16 = true ∧ (0x30000#32).getLsbD 17 = true := by decide +kernel
theorem test_register_writes : let off (n : Nat) (wide : Bool) := if wide then n % 8 = 0 else n % 4 = 0
    let on : State := { base with keep := { base.keep with adminCtrl := 0x10000 } }
    on.keepLive = true ∧ on.keep.adminCtrl.getLsbD 16 = true ∧ base.keep.adminCtrl.getLsbD 16 = false ∧
    (∀ n ∈ [0x10, 0x18, 0x20, 0x28, 0x30, 0x40, 0x48, 0x50, 0x2008, 0x70000, 0x20000 + 8 * 4095], off n true) ∧
    ∀ n ∈ [0x14, 0x1C, 0x24, 0x2400 + 4 * 255, 0x10000 + 8 * 1023, 0x30000 + 4 * 8191], off n false := by decide +kernel

/-! ### Faults, stops and resets (O50 to O54) -/

def word (u : Nat) (w : FaultWord) (s : State) : State := { s with flt := { s.flt with words := [(u, w)] } }
theorem test_fault_clear : let s := op (word 0x81 { uncleared := 0xF, unack := 8 } base)
    Starts 0x1001 0 (env 0x1001 1 [(0, 0x81), (1, 6)]) 0 s ∧ isUnit 0x81 = true ∧ mayClear (s.word 0x81) 2 = true ∧ mayClear (s.word 0x81) 3 = true :=
  ⟨starts_of (by decide +kernel), by decide +kernel⟩
theorem test_fault_threshold : Starts 0x1002 0 (env 0x1002 1 [(0, 3), (1, 0x81), (2, 64), (4, 100)]) 0 (op base) ∧ thresholdOk 3 64 100 = true ∧
    (∃ x ∈ sourceUnits 3, 0x81 = 0xFF ∨ 0x81 = x) ∧ ∃ x ∈ sourceUnits 3, 0xFF = 0xFF ∨ 0xFF = x := ⟨starts_of (by decide +kernel), by decide +kernel⟩
theorem test_hedgehog_policy : Starts 0x1003 0 (env 0x1003 1 [(0, 3)]) 0 (op base) ∧ (op base).keep.policy ≤ 3 ∧ policyAllowed (lcCode (op base).aon) 3 = true :=
  ⟨starts_of (by decide +kernel), by decide +kernel⟩
theorem test_fault_inject : Starts 0x1004 0 (env 0x1004 1 [(0, 0x81), (1, 5)]) 0 (op base) ∧ Starts 0x1004 0 (env 0x1004 1 [(0, 0x81), (1, 1)]) 0 (op base) ∧
    lcCode (op base).aon ≠ 4 ∧ lcCode (op base).aon ≠ 6 ∧ isUnit 0x81 = true ∧ (op base).aon.lockdown = false :=
  ⟨starts_of (by decide +kernel), starts_of (by decide +kernel), by decide +kernel⟩
theorem test_stop_wave : let s := op (anchorDom id base)
    Starts 0x1101 0 (env 0x1101 1 [(0, 1), (1, 1), (2, 4), (4, 7)]) 0 s ∧ s.stop.inForce = false ∧
    Starts 0x1101 0 (env 0x1101 1 [(0, 2), (1, 1), (2, 255), (4, 7)]) 0 s ∧ (s.dom 1).state = 4 ∧ isAnchor (s.dom 1) = true :=
  ⟨starts_of (by decide +kernel), by decide +kernel, starts_of (by decide +kernel), by decide +kernel⟩
def stoppedBy (d : Bool) (r : Option Nat) : State := { base with stop := { inForce := true, id := 7, domain := d, part := 1, tick := 4000000, resume := r, ever := true } }
theorem test_stop_resume : Starts 0x1102 0 (env 0x1102 1 [(0, 1), (1, 1), (2, 4)]) 0 (op (stoppedBy false none)) ∧
    (op (stoppedBy false none)).stop.inForce = true ∧ (op (stoppedBy false none)).stop.resume = none ∧
    Starts 0x1102 0 (env 0x1102 1 [(0, 2), (1, 1), (2, 255)]) 0 (op (stoppedBy true none)) ∧ (op (stoppedBy true none)).stop.domain = true ∧
    1 = (op (stoppedBy true none)).stop.part := ⟨starts_of (by decide +kernel), by decide +kernel, by decide +kernel, starts_of (by decide +kernel), by decide +kernel⟩
theorem test_stop_records : let s := op (withObj id { base with stop := { ever := true } })
    Starts 0x1103 0 (env 0x1103 1 [(0, hd 1)]) 0 s ∧ s.stop.ever = true ∧
    objAccess s (accPart s { q := 0 } (hd 1)) (hd 1) 0 (stationIds.map (stopRecBytes s)).flatten.length true = 0 ∧ s.keepStopped = false ∧
    MeterFits s (accPart s { q := 0 } (hd 1)) 4 (stationIds.map (stopRecBytes s)).flatten.length :=
  ⟨starts_of (by decide +kernel), by decide +kernel, by decide +kernel, by decide +kernel, fits_of (by decide +kernel)⟩
theorem test_keep_stopped : (stoppedBy false none).keepStopped = true := by decide +kernel

theorem test_trip : (if base.aon.porLow then (0x10001#20) &&& 0xFFF00 else 0x10001#20) ≠ 0 ∧ base.aon.lockdown = false ∧
    (if { base with aon := { base.aon with porLow := true } }.aon.porLow then (1#20) &&& 0xFFF00 else 1#20) = 0 := by decide +kernel
theorem test_keepway : isNode 0xE1 = true ∧ base.aon.phase = 1 ∧ (findWin base.flt.windows (crcLink 0xE1 5)).closeAt = none ∧
    let s : State := { base with flt := { base.flt with windows := setWin [] (crcLink 0xE1 5) { count := 1, closeAt := some 5000000 } } }
    (findWin s.flt.windows (crcLink 0xE1 5)).closeAt = some 5000000 ∧ s.now ≤ 5000000 := by decide +kernel
theorem test_window_close : let s : State := { base with flt := { base.flt with windows := setWin [] (0x81, 3) { count := 2, closeAt := some 5000000 } } }
    (findWin s.flt.windows (0x81, (3#8).toNat)).closeAt = some 5000000 ∧ 5000000 ≤ s.now := by decide +kernel
theorem test_safe_units : let s (u : Nat) := word u { uncleared := 4 } base
    (s 0).isSafe 0 = true ∧ isMem 0 = true ∧ (s 0x81).isSafe 0x81 = true ∧ isMem 0x81 = false ∧ isLink 0x81 = true ∧
    (s Config.hostId).isSafe Config.hostId = true ∧ isMem Config.hostId = false ∧ isLink Config.hostId = false := by decide +kernel
theorem test_link_down : let s := inDom (fun d => { d with attach := [(4, 6)] }) base
    s.doms.map (·.1) = [1] ∧ tfind (s.dom 1).attach 4 = some 6 ∧ ∀ d ∈ s.doms, tfind (s.dom d.1).attach 5 = none := by decide +kernel
theorem test_frame_repeats : let s (n : Nat) (r : Option Nat) : State := { base with stop := { inForce := true, id := 7, tick := n, resume := r, ever := true } }
    (isNode 0xE1 = true ∧ stampLost (s 5000000 none) 0 = true ∧ (s 5000000 none).now ≤ 5000000) ∧ (stampLost (s 4999999 none) 0 = true ∧ 4999999 < (s 4999999 none).now) ∧
    let t (r : Nat) : State := { s 4000000 (some r) with mem := [(0, { port := { stopped := true } })] }
    (stampLost (t 5000000) 0 = true ∧ (t 5000000).now ≤ 5000000) ∧ stampLost (t 4999999) 0 = true ∧ 4999999 < (t 4999999).now := by decide +kernel

theorem test_stop_message : let w := le 8 7 ++ [4] ++ zeros 7
    let s := anchorDom id base
    Arrives 0x30 1 (mail 0x30 128 16 6) w s w ∧ ((mailTaken 1 (mail 0x30 128 16 6) s).dom 1).state = 4 ∧
    Arrives 0x31 1 (mail 0x31 128 16 6) w s w ∧ ((mailTaken 1 (mail 0x31 128 16 6) s).dom 1).state = 4 :=
  ⟨arrives_of (by decide +kernel), by decide +kernel, arrives_of (by decide +kernel), by decide +kernel⟩

theorem test_reset_station : Starts 0x1110 0 (env 0x1110 1 [(0, 0x81)]) 0 (op base) ∧ isStation 0x81 = true := ⟨starts_of (by decide +kernel), by decide +kernel⟩
theorem test_reset_warm : Starts 0x1111 0 (env 0x1111 1 []) 0 (op base) := starts_of (by decide +kernel)
theorem test_reset_nonce : Starts 0x1112 0 (env 0x1112 1 []) 0 (op base) ∧ canDraw (op base) 1 = true := ⟨starts_of (by decide +kernel), by decide +kernel⟩

/-! Signed requests, under keys that are all zeros: the identifiers of the keys are digests (FIPS 180-4).  That the two
signatures verify is left out: one verification of ML-DSA-87 takes the kernel some twenty minutes. -/

theorem kid_none : kid [] = be 16 75352572378759439417769917883436098410 := by decide +kernel
theorem kid_m : kid (zeros 2592) = be 16 13020303209844691758499435273110559814 := by decide +kernel
theorem kid_p : kid (zeros 97) = be 16 56993351374407201826655471752970681588 := by decide +kernel
theorem signer_digest : sha384 (zeros 2592 ++ zeros 97) =
    be 48 34571624418448145142038133899882237595954756481489422259664359465687775517981152571532659341599547027006770063882397 := by decide +kernel
/-- The two signatures of a payload under protected headers that name the keys by `m` and `p`. -/
def headerOf (alg k : Nat) : Bytes := cMap [(1, cNint alg), (4, cBytes (be 16 k))]
def signedBy (m p : Nat) (payload : Bytes) : Bytes :=
  cArr [cose (headerOf 49 m) (cBytes payload) [0x41, 1], cose (headerOf 34 p) cNil [0x41, 2]]
def coldOrder : Bytes := cMap [(1, cBytes (zeros 32)), (2, cBytes (be 32 5)), (3, cUint 1)]
def coldReq : Bytes := signedBy 75352572378759439417769917883436098410 75352572378759439417769917883436098410 coldOrder
theorem cold_parses : ((cborOf coldReq).bind dualOf).any (fun d => d.protM == headerOf 49 75352572378759439417769917883436098410 &&
    d.protP == headerOf 34 75352572378759439417769917883436098410 && d.payload == coldOrder) = true := by decide +kernel
theorem order_parses : (cborOf coldOrder).any (fun m => m.size == 3 && m.bstr 1 == some (zeros 32) && m.bstr 2 == some (be 32 5) && m.nat 3 == some 1) = true := by
  decide +kernel
theorem any_some {α : Type} {o : Option α} {p : α → Bool} (h : o.any p = true) : ∃ x, o = some x ∧ p x = true := by
  cases o with
  | none => simp at h
  | some x => exact ⟨x, rfl, by simpa using h⟩
theorem protHdr_none (a : Nat) : protHdr a [] = headerOf a 75352572378759439417769917883436098410 := by unfold protHdr headerOf; rw [kid_none]
theorem test_reset_cold_signed : let s := op (withObj id { base with keep := { base.keep with resetNonce := some (be 32 5) } })
    let e := env 0x1113 1 [(0, hd 1), (10, coldReq.length)]
    Starts 0x1113 0 e 0 s ∧ opnd e 10 2 = coldReq.length ∧ objAccess s (accPart s { q := 0 } (hd 1)) (hd 1) 0 coldReq.length false = 0 ∧
    MeterFits s (accPart s { q := 0 } (hd 1)) 5 coldReq.length ∧ ∃ d m, (cborOf (fit coldReq.length coldReq)).bind dualOf = some d ∧ cborOf d.payload = some m ∧ m.size = 3 ∧ m.bstr 1 = some (fit 32 s.aon.ueid) ∧
      m.bstr 2 = s.keep.resetNonce ∧ m.nat 3 = some 1 ∧ d.protM = protHdr 49 s.keep.opKeyM ∧ d.protP = protHdr 34 s.keep.opKeyP := by
  obtain ⟨d, hd1, hd2⟩ := any_some cold_parses
  obtain ⟨m, hm1, hm2⟩ := any_some order_parses
  simp only [Bool.and_eq_true, beq_iff_eq] at hd2 hm2
  obtain ⟨⟨d1, d2⟩, d3⟩ := hd2
  obtain ⟨⟨⟨m1, m2⟩, m3⟩, m4⟩ := hm2
  refine ⟨starts_of (by decide +kernel), by decide +kernel, by decide +kernel, fits_of (by decide +kernel), d, m, ?_, ?_, m1, ?_, m3, m4, ?_, ?_⟩
  · rw [show fit coldReq.length coldReq = coldReq from cut_all _ _ rfl]; exact hd1
  · rw [d3]; exact hm1
  · rw [m2]; rfl
  · rw [d1]; exact (protHdr_none 49).symm
  · rw [d2]; exact (protHdr_none 34).symm

/-- A request of an action from state `cur` to `target`, with the nonce 6. -/
def lcPayload (action cur target : Nat) : Bytes :=
  cMap ([(1, cBytes (zeros 32)), (2, cBytes (be 32 6)), (3, cUint action), (4, cUint cur), (5, cUint target)] ++ if action = 2 then [(6, cBytes (zeros 48))] else [])
def lcBytes (action cur target : Nat) : Bytes :=
  cArr [cBytes (zeros 2592), cBytes (zeros 97), signedBy 13020303209844691758499435273110559814 56993351374407201826655471752970681588 (lcPayload action cur target)]
def lcReads (action cur target : Nat) (r : LcReq) : Bool :=
  r.sig.mPub == zeros 2592 && r.sig.pPub == zeros 97 && r.sig.dual.protM == headerOf 49 13020303209844691758499435273110559814 &&
  r.sig.dual.protP == headerOf 34 56993351374407201826655471752970681588 && r.ueid == zeros 32 && r.nonce == be 32 6 && r.action == action &&
  r.cur == cur && r.target == target && r.ia.isSome == (action == 2)
theorem lc_parses_transition : (lcParse (lcBytes 2 1 3)).any (lcReads 2 1 3) = true := by decide +kernel
theorem lc_parses_debug : (lcParse (lcBytes 3 3 3)).any (lcReads 3 3 3) = true := by decide +kernel
@[irreducible] def signer : Bytes := sha384 (zeros 2592 ++ zeros 97)
def lifeSt (p : Tab (BitVec 64)) (s : State) : State := { s with
  aon := { s.aon with ema := signer, ia := signer, progress := p }, keep := { s.keep with chipNonce := some (be 32 6) } }
theorem lc_reads {action cur target r} (h : lcReads action cur target r = true) : r.sig.digest = signer ∧
    (r.sig.dual.protM == protHdr 49 r.sig.mPub && r.sig.dual.protP == protHdr 34 r.sig.pPub) = true ∧ r.ueid = zeros 32 ∧ r.nonce = be 32 6 ∧
    r.action = action ∧ r.cur = cur ∧ r.target = target ∧ r.ia.isSome = (action == 2) := by
  unfold lcReads at h
  simp only [Bool.and_eq_true, beq_iff_eq] at h
  obtain ⟨⟨⟨⟨⟨⟨⟨⟨⟨h1, h2⟩, h3⟩, h4⟩, h5⟩, h6⟩, h7⟩, h8⟩, h9⟩, h10⟩ := h
  refine ⟨by unfold SigBlock.digest signer; rw [h1, h2], ?_, h5, h6, h7, h8, h9, h10⟩
  rw [h1, h2, h3, h4, show protHdr 49 (zeros 2592) = headerOf 49 13020303209844691758499435273110559814 by unfold protHdr headerOf; rw [kid_m],
    show protHdr 34 (zeros 97) = headerOf 34 56993351374407201826655471752970681588 by unfold protHdr headerOf; rw [kid_p]]
  simp
theorem lc_transition_ok : ∃ r, lcParse (lcBytes 2 1 3) = some r ∧ r.target = 3 ∧ ∀ s : State, s.aon.progress = [] → s.aon.testFrom = none → s.aon.ema = signer →
    fit 32 s.aon.ueid = zeros 32 → s.keep.chipNonce = some (be 32 6) → lcAuthorityOk s 2 r = true ∧ lcFieldsOk s r = true ∧ lcEntry s.aon r.target = some 0 := by
  obtain ⟨r, h1, h2⟩ := any_some lc_parses_transition
  obtain ⟨g1, g2, g3, g4, g5, g6, g7, g8⟩ := lc_reads h2
  refine ⟨r, h1, g7, fun s e0 e1 e2 e3 e4 => ?_⟩
  have hc : lcCode s.aon = 1 := by unfold lcCode; rw [e0, e1]; rfl
  have hu : usedEntries s.aon = [] := by unfold usedEntries; rw [e0]; rfl
  have hp : inProgress s.aon = none := by unfold inProgress; rw [hu]; simp
  refine ⟨?_, ?_, ?_⟩
  · unfold lcAuthorityOk
    dsimp only
    rw [g1, g5, g6, g7, Bool.and_assoc (2 == 2), g2]
    show (true && true && (edgeAuthority s 1 3).contains signer) = true
    unfold edgeAuthority
    simp [e2]
  · unfold lcFieldsOk
    rw [g3, g4, g5, g6, g7, g8, e3, e4, hc, hp]
    simp
  · unfold lcEntry
    rw [g7, hu]
    rfl
theorem lc_debug_ok : ∃ r, lcParse (lcBytes 3 3 3) = some r ∧ ∀ s : State, s.aon.progress = [(0, 0x3090)] → s.aon.testFrom = none → s.aon.debugOpen = false → s.aon.ia = signer →
    fit 32 s.aon.ueid = zeros 32 → s.keep.chipNonce = some (be 32 6) → lcAuthorityOk s 3 r = true ∧ lcFieldsOk s r = true := by
  obtain ⟨r, h1, h2⟩ := any_some lc_parses_debug
  obtain ⟨g1, g2, g3, g4, g5, g6, g7, g8⟩ := lc_reads h2
  refine ⟨r, h1, fun s e0 e1 e5 e2 e3 e4 => ?_⟩
  have hc : lcCode s.aon = 3 := by unfold lcCode; rw [e0, e1]; rfl
  have hp : inProgress s.aon = none := by unfold inProgress usedEntries; rw [e0, hc]; rfl
  refine ⟨?_, ?_⟩
  · unfold lcAuthorityOk
    dsimp only
    rw [g1, g5, g6, g7, Bool.and_assoc (3 == 3), g2]
    rw [hc]
    unfold debugAuthority
    simp [e2]
  · unfold lcFieldsOk
    rw [g3, g4, g5, g6, g7, g8, e3, e4, hc, hp, e5]
    simp
/-- With the requests' signatures good, every other premise of the two commands and of the port's request is met.  The signatures are not
evaluated here: one verification of ML-DSA-87 takes the kernel some twenty minutes. -/
theorem test_lc_transition : let s := op (withObj id (lifeSt [] base))
    let e := env 0x1202 1 [(0, hd 1), (10, (lcBytes 2 1 3).length)]
    Starts 0x1202 0 e 0 s ∧ opnd e 10 2 = (lcBytes 2 1 3).length ∧ objAccess s (accPart s { q := 0 } (hd 1)) (hd 1) 0 (lcBytes 2 1 3).length false = 0 ∧
    MeterFits s (accPart s { q := 0 } (hd 1)) 5 (lcBytes 2 1 3).length ∧ ∃ r, lcParse (fit (lcBytes 2 1 3).length (lcBytes 2 1 3)) = some r ∧ lcAuthorityOk s 2 r = true ∧ lcFieldsOk s r = true ∧ lcEntry s.aon r.target = some 0 := by
  obtain ⟨r, h1, -, h2⟩ := lc_transition_ok
  refine ⟨starts_of (by decide +kernel), by decide +kernel, by decide +kernel, fits_of (by decide +kernel), r, ?_, h2 _ rfl rfl rfl (by decide +kernel) rfl⟩
  rw [show fit (lcBytes 2 1 3).length (lcBytes 2 1 3) = lcBytes 2 1 3 from cut_all _ _ rfl]
  exact h1
theorem test_debug_open : let s := op (withObj id (lifeSt [(0, 0x3090)] base))
    let e := env 0x1204 1 [(0, hd 1), (10, (lcBytes 3 3 3).length)]
    Starts 0x1204 0 e 0 s ∧ opnd e 10 2 = (lcBytes 3 3 3).length ∧ objAccess s (accPart s { q := 0 } (hd 1)) (hd 1) 0 (lcBytes 3 3 3).length false = 0 ∧
    MeterFits s (accPart s { q := 0 } (hd 1)) 5 (lcBytes 3 3 3).length ∧ ∃ r, lcParse (fit (lcBytes 3 3 3).length (lcBytes 3 3 3)) = some r ∧ lcAuthorityOk s 3 r = true ∧ lcFieldsOk s r = true := by
  obtain ⟨r, h1, h2⟩ := lc_debug_ok
  refine ⟨starts_of (by decide +kernel), by decide +kernel, by decide +kernel, fits_of (by decide +kernel), r, ?_, h2 _ rfl rfl rfl rfl (by decide +kernel) rfl⟩
  rw [show fit (lcBytes 3 3 3).length (lcBytes 3 3 3) = lcBytes 3 3 3 from cut_all _ _ rfl]
  exact h1
theorem test_tap_request : let s := lifeSt [] base
    (tapUp s.aon = true ∧ lcCode s.aon = 1) ∧ (∃ u, lcCheck 2 [] (scratchOut false [] s) = (yeLength, none, u)) ∧
    (∃ r, lcParse (lcBytes 2 1 3) = some r ∧
      (r.sig.ok r.sig.dual.payload = true → ∃ u, lcCheck 2 (lcBytes 2 1 3) (scratchOut false (lcBytes 2 1 3) s) = (0, some (r, 0), u))) ∧
    (((le 4 1).drop 4).take (ofLe (cut 0 4 (le 4 1)))).length < ofLe (cut 0 4 (le 4 1)) ∧
    ∀ b : Bytes, let w := le 4 b.length ++ b
      b.length < 2 ^ 32 → (w.drop 4).take (ofLe (cut 0 4 w)) = b := by
  obtain ⟨r, h1, h3, h2⟩ := lc_transition_ok
  obtain ⟨x, hx⟩ : ∃ x, scratchOut false (lcBytes 2 1 3) (lifeSt [] base) = { lifeSt [] base with keep := { (lifeSt [] base).keep with scratch := x } } := by
    unfold scratchOut
    dsimp only
    split <;> exact ⟨_, rfl⟩
  obtain ⟨g1, g2, g3⟩ := h2 { lifeSt [] base with keep := { (lifeSt [] base).keep with scratch := x } } rfl rfl rfl
    (show fit 32 (lifeSt [] base).aon.ueid = zeros 32 by decide +kernel) rfl
  refine ⟨by decide +kernel, ⟨_, rfl⟩, ⟨r, h1, fun hs => ?_⟩, by decide +kernel, ?_⟩
  · unfold lcCheck
    rw [h1, hx]
    dsimp only
    rw [g1, hs, g2]
    have e : lcEntry (renewNonce { lifeSt [] base with keep := { (lifeSt [] base).keep with scratch := x } }).aon r.target = some 0 := by
      obtain ⟨k, c, g, hr⟩ := renewNonce_eq { lifeSt [] base with keep := { (lifeSt [] base).keep with scratch := x } }
      rw [h3, hr]; exact (show lcEntry (lifeSt [] base).aon 3 = some 0 by decide +kernel)
    simp only [Bool.not_true, Bool.false_eq_true, if_false, e]
    exact ⟨_, rfl⟩
  · intro b w hb
    have : ofLe (cut 0 4 w) = b.length := by
      show ofLe (cut 0 4 (le 4 b.length ++ b)) = _
      rw [cut_left 0 4 _ _ (by rw [le_len]; all_goals omega), cut_all 4 _ (le_len 4 _), ofLe_le, Nat.mod_eq_of_lt (by simpa using hb)]
    rw [this]
    show ((le 4 b.length ++ b).drop 4).take b.length = b
    rw [List.drop_left' (le_len 4 _), List.take_length]

/-! ### Starts, reset inputs and dumps (O53 to O55) -/

/-- Start-up bits of four healthy noise sources. -/
def goodBits : BitVec 4096 := BitVec.ofNat 4096 ((4 ^ 2048 - 1) / 3)
def coldSt (f : Aon → Aon) : State := { aon := f { phase := 0, porLow := true } }
theorem test_cold_start :
    let b (f : Aon → Aon) := takeEnv [] { coldSt f with aon := { (coldSt f).aon with porLow := false } }
    let a (f : Aon → Aon) := startRandom goodBits 3 (selfTests [] [] { b f with aon := { (b f).aon with coldOut := false } })
    ((coldSt id).aon.phase = 0 ∧ (coldSt id).aon.porLow = true) ∧ lcCode (b fun a => { a with progress := [(15, 0x60F0)] }).aon = 6 ∧
    (lcCode (b fun a => { a with progress := [(0, 0x3010)] }).aon ≠ 6 ∧ (inProgress (b fun a => { a with progress := [(0, 0x3010)] }).aon).isSome = true) ∧
    lcCode (b id).aon ≠ 6 ∧ inProgress (b id).aon = none ∧ takeSeed false 5 (a id) = none ∧ ∃ u, takeSeed true 5 (a id) = some u := by
  refine ⟨by decide +kernel, by decide +kernel, by decide +kernel, by decide +kernel, by decide +kernel, by decide +kernel, ?_⟩
  exact Option.isSome_iff_exists.mp (by decide +kernel)
/-- With no image in flash the warm start finds none; with a valid one (whose signatures are not evaluated here) it runs it. -/
theorem test_warm_start : let s : State := { aon := { phase := 3, phaseAt := 0, time := 1000 } }
    let a := startRandom goodBits 3 (selfTests [] [] (clearFaults s))
    s.aon.phase = 3 ∧ s.aon.phaseAt + Config.us 10 ≤ s.now ∧ takeSeed false 5 a = none ∧ ∃ u, takeSeed true 5 a = some u ∧ slotValid u u.aon.slot = false := by
  refine ⟨by decide +kernel, by decide +kernel, by decide +kernel, ?_⟩
  have h : (takeSeed true 5 (startRandom goodBits 3 (selfTests [] [] (clearFaults { aon := { phase := 3, phaseAt := 0, time := 1000 } })))).any
      (fun u => slotValid u u.aon.slot == false) = true := by decide +kernel
  obtain ⟨u, h1, h2⟩ := any_some h
  exact ⟨u, h1, by simpa using h2⟩
theorem test_warm_input : base.aon.phase = 1 ∧ ({ aon := { phase := 2 } } : State).aon.phase = 2 := by decide +kernel
theorem test_vault : let s (w : Nat) : State := { base with aon := { base.aon with vaultAt := some w, time := 3000000000 } }
    (s 0).aon.vaultAt = some 0 ∧ 0 + 3000000000 ≤ (s 0).now ∧ (s 1).aon.vaultAt = some 1 ∧ (s 1).now < 1 + 3000000000 := by decide +kernel
theorem test_watchdog : let s (b : Bool) : State := { base with aon := { base.aon with time := 20000000 }, keep := { base.keep with beaten := b, beatAt := 4000000, missed := 3 } }
    (s true).keepLive = true ∧ (s true).keep.beaten = true ∧ (s true).keep.beatAt + Config.ms ((s true).keep.missed + 1) ≤ (s true).now ∧
    (s false).keepLive = true ∧ (s false).keep.beaten = false ∧ (s false).keep.startAt + Config.ms 100 ≤ (s false).now := by decide +kernel

def dumpObj (s : State) : State := withObj (fun o => { o with part := 0xFF, tiles := 256 }) s
theorem test_dump_config : let s := op (dumpObj base)
    Starts 0x1120 0 (env 0x1120 1 [(0, hd 1), (4, 2048), (8, hd 1), (17, 31), (18, 3)]) 0 s ∧ (s.obj 1).cls = 4 ∧ (s.obj 1).part = 0xFF ∧
    2048 ≤ (s.obj 1).tiles * 8 ∧ objAccess s (accPart s { q := 0 } (hd 1)) (hd 1) 0 1568 false = 0 ∧
    MeterFits s (accPart s { q := 0 } (hd 1)) 5 1568 :=
  ⟨starts_of (by decide +kernel), by decide +kernel, by decide +kernel, by decide +kernel, by decide +kernel, fits_of (by decide +kernel)⟩
/-- A block whose dump ring is empty and whose units are all unreachable: a dump of their section heads. -/
def dumping : State := { base with rings := [(1, { handle := 1, size := 2097152 })], dump := { base.dump with ring := some 1, mask := 1, unreachable := unitIds } }
theorem test_dump_start : let s := op dumping
    Starts 0x1121 0 (env 0x1121 1 []) 0 s ∧ s.dump.ring = some 1 ∧ s.dump.mask.getLsbD 0 = true ∧ s.dump.armed = none ∧ canDraw s 0 = true ∧
    (tfind s.rings 1).isSome = true ∧ 1704 + sectionLen s ⟨0, 1, 0xFF, Config.mirrorBytes 0 s.now⟩ ≤ ringRoom (tget {} s.rings 1) / 16 * 16 := by
  refine ⟨starts_of (by decide +kernel), by decide +kernel, by decide +kernel, by decide +kernel, by decide +kernel, by decide +kernel, ?_⟩
  have h (x : Section) (hx : x.unit = 0) : sectionLen (op dumping) x = 32 := by
    have : bodyLen (op dumping) x = 0 := by
      unfold bodyLen; rw [if_pos (.inl (by rw [hx]; decide +kernel))]
    unfold sectionLen; rw [this]; rfl
  rw [h _ rfl]
  decide +kernel

/-- A copy that passes its checks (its signatures are not evaluated here), the next in sequence. -/
theorem test_image_update (inp : Bytes) (h : imageCheck base.aon (fit (8192 * 8) inp) = 0) (hq : (imageOf (fit (8192 * 8) inp)).seq = 1) :
    let s := op (withObj id base)
    Starts 0x1401 0 (env 0x1401 1 [(0, hd 1), (12, 8192 * 8)]) 0 s ∧ 16384 ≤ 8192 * 8 ∧ 8192 * 8 ≤ 2 ^ 20 ∧
    objAccess s (accPart s { q := 0 } (hd 1)) (hd 1) 0 (8192 * 8) false = 0 ∧ MeterFits s (accPart s { q := 0 } (hd 1)) 5 (8192 * 8) ∧ imageCheck s.aon (fit (8192 * 8) inp) = 0 ∧
    (imageOf (fit (8192 * 8) inp)).seq = s.keep.imageSeq + 1 :=
  ⟨starts_of (by decide +kernel), by decide, by decide, by decide +kernel, fits_of (by decide +kernel), h, hq⟩
theorem test_image_status : Starts 0x1402 0 (env 0x1402 1 []) 0 (op base) := starts_of (by decide +kernel)
theorem sectorBytes_len (i : Nat) (x : Sector) (h : x.closed = none) (he : x.entries = []) : (sectorBytes i x).length = 64 + 64 * 767 + 16384 := by
  unfold sectorBytes
  rw [h, he]
  simp only [List.length_append, List.length_replicate, List.flatten_nil, List.length_nil]
  have : (sectorHead i x).length = 64 := by
    simp only [sectorHead, List.length_append, fit_len, le_len, zeros, List.length_replicate]
    rfl
  omega
theorem test_log_read : let s := op (withObj id { base with flash := { base.flash with sectors := [(5, {}), (8, {})] } })
    let secs := s.flash.sectors.filter fun x => decide (5 ≤ x.1) && decide (x.1 < 5 + 2)
    Starts 0x1403 0 (env 0x1403 1 [(0, 5), (8, 2), (12, hd 1)]) 0 s ∧ (tfind s.flash.sectors 5).isSome = true ∧
    objAccess s (accPart s { q := 0 } (hd 1)) (hd 1) 0 (secs.map fun x => sectorBytes x.1 x.2).flatten.length true = 0 ∧
    MeterFits s (accPart s { q := 0 } (hd 1)) 4 (secs.map fun x => sectorBytes x.1 x.2).flatten.length := by
  refine ⟨starts_of (by decide +kernel), by decide +kernel, ?_⟩
  have h : (([(5, {})] : Tab Sector).map fun x => sectorBytes x.1 x.2).flatten.length = 65600 - 64 := by
    simp [sectorBytes_len]
  have hs : ∀ n, n = 65600 - 64 → objAccess (op (withObj id { base with flash := { base.flash with sectors := [(5, {}), (8, {})] } }))
      (accPart (op (withObj id { base with flash := { base.flash with sectors := [(5, {}), (8, {})] } })) { q := 0 } (hd 1)) (hd 1) 0 n true = 0 ∧
      MeterFits (op (withObj id { base with flash := { base.flash with sectors := [(5, {}), (8, {})] } }))
        (accPart (op (withObj id { base with flash := { base.flash with sectors := [(5, {}), (8, {})] } })) { q := 0 } (hd 1)) 4 n := by
    rintro _ rfl
    exact ⟨by decide +kernel, fits_of (by decide +kernel)⟩
  exact hs _ h

/-! ### Life cycle, counters, trace and clocks (O56 to O60) -/

theorem test_lc_nonce : let s (n : Option Bytes) := op { base with keep := { base.keep with chipNonce := n } }
    Starts 0x1201 0 (env 0x1201 1 []) 0 (s (some (zeros 32))) ∧ Starts 0x1201 0 (env 0x1201 1 []) 0 (s none) ∧ canDraw (s none) 1 = true ∧
    Starts 0x1203 0 (env 0x1203 1 []) 0 (s none) := ⟨starts_of (by decide +kernel), starts_of (by decide +kernel), by decide +kernel, starts_of (by decide +kernel)⟩
def sequencing (t : Nat) : State := { base with aon := { base.aon with phase := 6, target := t, progress := [(0, 0x3010)] } }
theorem test_sequence : let a (s : State) := burnEntry 0 0x20 (wipe true s)
    let b (s : State) := burnEntry 0 0x40 (burnEntry 0 (BitVec.ofNat 64 (s.aon.target % 16 * 2 ^ 12)) { a s with aon := edgeFuses (lcCode (a s).aon) s.aon.target (a s).aon })
    let same (s : State) := ((tget 0 (b s).aon.progress 0).extractLsb' 12 4).toNat == s.aon.target
    (sequencing 3).aon.phase = 6 ∧ (sequencing 3).aon.retries < 4 ∧ inProgress (sequencing 3).aon = some (0, 0x3010) ∧ (true && same (sequencing 3)) = true ∧
    (false && same (sequencing 3)) = false ∧ (true && same (sequencing 4)) = false := by decide +kernel
theorem test_session_start : base.aon.phase = 1 ∧ base.aon.testSession = false ∧ segmentOpens (lcCode base.aon) (2#8).toNat = true ∧
    segmentOpens (lcCode base.aon) (3#8).toNat = false := by decide +kernel
theorem test_token (idx : BitVec 4) (token : BitVec 256) : let d := (sha384 (ascii "yk3 token" ++ fit 32 base.aon.ueid ++ le 32 token.toNat)).take 32
    let s (n : Nat) (t : List Bytes) : State := { base with aon := { base.aon with tokens := t, tokenFails := n } }
    ((s 2 (List.replicate 16 d)).aon.phase = 1 ∧ lcCode (s 2 (List.replicate 16 d)).aon = 1 ∧ (s 2 (List.replicate 16 d)).aon.tokenFails < 3 ∧
      (s 2 (List.replicate 16 d)).aon.tokens[idx.toNat]? = some d ∧ (s 2 (List.replicate 16 d)).aon.tokensUsed.getLsbD idx.toNat = false) ∧
    (s 2 []).aon.tokens[idx.toNat]? ≠ some d ∧ 3 ≤ (s 3 []).aon.tokenFails := by
  have h : lcCode base.aon = 1 := by decide +kernel
  have hi : idx.toNat < 16 := idx.isLt
  refine ⟨⟨rfl, h, show 2 < 3 by decide, ?_, ?_⟩, by simp, show 3 ≤ 3 by decide⟩
  · show (List.replicate 16 _)[idx.toNat]? = _
    rw [List.getElem?_replicate, if_pos hi]
  · show (0#16).getLsbD idx.toNat = false
    simp
theorem test_repair : let s : State := { base with aon := { base.aon with testSession := true } }
    s.aon.testSession = true ∧ recColumn 0x80500003#32 < 6 ∧ s.aon.repairs.length < 4096 ∧
    (s.aon.repairs.any fun x => recValid x && recMacro x == recMacro 0x80500003#32 && recSpare x == recSpare 0x80500003#32) = false := by decide +kernel

theorem test_counter_clear : Starts 0x1301 0 (env 0x1301 1 [(0, 0xFF), (1, 7)]) 0 (op base) ∧ Starts 0x1301 0 (env 0x1301 1 [(0, 0x81), (1, 1)]) 0 (op base) ∧
    isUnit 0x81 = true := ⟨starts_of (by decide +kernel), starts_of (by decide +kernel), by decide +kernel⟩
theorem test_profile_bind : let s := op (withObj id base)
    let r := op (withObj id { base with profs := [(15, { queue := some 1 })] })
    (Starts 0x1310 0 (env 0x1310 1 [(0, 15), (2, 1), (12, hd 1), (16, 512)]) 0 s ∧ (s.queue 1).state ≠ 0 ∧ isOperatorCtx (s.ctx (s.queue 0).ctx) = true ∧
      tfind s.profs 15 = none ∧ (∀ p ∈ s.profs, p.2.queue ≠ some 1) ∧ handleLive s (hd 1) = true ∧ 512 ≤ (s.obj 1).tiles * 8) ∧
    Starts 0x1310 0 (env 0x1310 1 [(0, 15), (1, 1), (2, 1), (12, hd 1)]) 0 r ∧ (r.queue 1).state ≠ 0 ∧ (tget {} r.profs 15).queue = some 1 :=
  ⟨⟨starts_of (by decide +kernel), by decide +kernel⟩, starts_of (by decide +kernel), by decide +kernel⟩
theorem test_trace_config : Starts 0x1320 0 (env 0x1320 1 [(0, 511), (2, 1), (4, 9)]) 0 (op base) := starts_of (by decide +kernel)
theorem test_trace_ring : let s := op (dumpObj base)
    let t := dev { withObj id base with parts := [(1, { state := 1, trcSlot := 77 })], keys := [(77, { state := 1, cls := 0xB, owner := 1 })] }
    (Starts 0x1321 0 (env 0x1321 1 [(0, hd 1), (4, 64)]) 0 s ∧ handleLive s (hd 1) = true ∧ (s.obj 1).part = (s.ctx (s.queue 0).ctx).part ∧ (s.obj 1).cls = 4 ∧
      64 ≤ (s.obj 1).tiles * 8) ∧
    Starts 0x1321 1 (env 0x1321 2 [(0, hd 1), (4, 512)]) 0 t ∧ (t.obj 1).part = (t.ctx (t.queue 1).ctx).part ∧ (t.ctx (t.queue 1).ctx).part ≠ 0xFF ∧
    (t.key (t.part 1).trcSlot).state = 1 ∧ 512 ≤ (t.obj 1).tiles * 8 :=
  ⟨⟨starts_of (by decide +kernel), by decide +kernel⟩, starts_of (by decide +kernel), by decide +kernel⟩

theorem test_dump_trigger : let s (k : Option Nat) : State := { base with aon := { base.aon with phase := 2, cutTime := some 7 }, dump := { base.dump with armed := k } }
    (s none).aon.lockdown = false ∧ triggerCause (s none) (3#8).toNat = true ∧ (s (some 3)).dump.armed = some (3#8).toNat ∧
    (s none).dump.armed ≠ some (3#8).toNat ∧ triggerCause (s none) (5#8).toNat = false := by decide +kernel
theorem test_source_timeout : let s : State := { base with dump := { base.dump with ring := some 1 } }
    s.dump.ring.isSome = true ∧ isUnit 0x81 = true ∧ s.dump.unreachable.contains 0x81 = false := by decide +kernel
theorem test_trace_drain : let s : State := { base with trace := { base.trace with bufs := [(4, [(4900000, zeros 64)])] } }
    s.keepLive = true ∧ ∃ r ∈ (tget [] s.trace.bufs 4).head?, r.1 + Config.ms 1 ≤ s.now := by
  refine ⟨by decide +kernel, (4900000, zeros 64), rfl, by decide +kernel⟩
theorem test_profile_boundaries : let s (p : Prof) : State := { base with profs := [(3, p)] }
    (tget {} (s { next := some (1, 2, 3, 4) }).profs 3).next.isSome = true ∧ (tget {} (s {}).profs 3).next = none ∧
    (let p := tget ({} : Prof) (s { doneAt := some 4990000, seq := some 1 }).profs 3
     p.doneAt = some 4990000 ∧ p.next = none ∧ p.seq.isSome = true ∧ 4990000 + Config.us 100 ≤ base.now) := by decide +kernel
theorem test_ring_offset : let s : State := { base with rings := [(1, { handle := 1, size := 1048576 })], meter := { base.meter with ring := some 1 } }
    tfind s.rings (handleIdx (0x100001#32).toNat) = some { handle := 1, size := 1048576 } ∧ 64 ≤ (64#64).toNat ∧ (1048575#64).toNat < 1048576 ∧
    (∀ d ∈ s.doms, d.2.ring = 1 → d.2.outq = []) ∧ (∀ m ∈ s.migs, m.2.ring = 1 → m.2.outq = []) ∧ s.meter.ring = some (handleIdx (0x100001#32).toNat) := by decide +kernel
theorem test_log_written : let x : Sector := { entries := [zeros 64] }
    let s : State := { base with flash := { base.flash with queue := [zeros 56], sectors := [(5, x)] } }
    s.keepLive = true ∧ s.flash.queue = zeros 56 :: [] ∧ s.flash.sectors.getLast? = some (5, x) ∧ tfind s.flash.sectors 5 = some x ∧ x.closed = none ∧
    x.entries.length < 766 := by decide +kernel

theorem test_clock_inputs : let s (f : Clk → Clk) : State := { base with clk := f base.clk }
    (s fun c => { c with next := some 4 }).clk.next = some 4 ∧ (s id).clk.ilim = false ∧ (s fun c => { c with ilim := true }).clk.ilim = true ∧
    3 < Config.dies ∧ base.aon.phase ≠ 0 := by decide +kernel
theorem test_cooling : let s : State := { base with clk := { base.clk with stepDown := true, coolSince := some 4900000 } }
    s.clk.stepDown = true ∧ s.clk.coolSince = some 4900000 ∧ 4900000 + Config.ms 1 ≤ s.now := by decide +kernel
theorem test_budget : let s : State := { base with clk := { base.clk with bins := [Config.ms 150, Config.ms 50], binAt := 4000000 } }
    Config.ms 200 ≤ s.clk.bins.sum ∧ s.clk.spent = false ∧ s.clk.binAt + Config.ms 10 ≤ s.now := by decide +kernel

/-! ### Ill-formed commands -/

/-- One command for each check of WellFormed, out of the block by one. -/
def illFormed : List Instr :=
  [.coldKeepStart (List.replicate 15 []) true false true 0 [] [] 0 0 false, .coldKeepStart [] true false true 0 [255] [] 0 0 false,
   .warmKeepStart true 0 [] [4] 0 0 false, .junctionReading 4 0 0, .sensorInvalidTimeout 0 4, .linkDown 18, .keepwayCrcError 0 (0, false),
   .keepwayCrcError 0xE0 (255, true), .readTile 0x80 0 0, .readTile 0 256 0, .writeTile 0 0 0 (zeros 8193)] ++
  [.headerReadReturn 0 0 (zeros 289), .lineFetchReturn 0 32768 0, .keyDelivery 0xE0 0 0, .keyDelivery 0 16384 0, .freezeArrival 0 256 0, .freezeArrival 0 0 1048576,
   .measuredHashComplete 0 0 4294967296, .regionRekeyCommit 1048576, .safeStateEntry (255, []), .linkRequestIntake 0 0 []] ++
  [.instanceOpen 0x80 0 262144 false, .packetArrival 0x80 2048 [], .trackerTimeout 0x80 4096, .hostDmaRequest 64 0 false false false 0 [] [],
   .hostDmaRequest 0 256 false false false 0 [] [], .hostDmaRequest 0 0 false false false 0 [] (zeros 17), .keyProg 0 0 2 0 0, .keyProg 0 0 0 6 0,
   .hostDoorbellWrite 1024 0, .eventHeadWrite 4096 0] ++
  [.registerWrite 0x80000 false 0, .registerWrite 4 true 0, .registerWrite 2 false 0, .fenceFailureReport 65536 0 0 0, .noiseSourceFailure (4, 0), .drbgReseed 2,
   .traceDrain 9, .profileBoundary 16, .beat 0 0 (zeros 4081), .rejoinWindowExpiry 0 262144, .nop 1024 0 0 []]
theorem test_ill_formed : illFormed.all (fun i => WellFormed i == false) = true := by decide +kernel
theorem test_well_formed : WellFormed (.registerWrite 0x7FFFC false 0) = true ∧ WellFormed (.nop 1023 0 0 []) = true ∧
    WellFormed (.keepwayCrcError (0xE0 + Config.dies - 1) (Config.hostId, true)) = true ∧ WellFormed (.writeTile 63 255 0 []) = true := by decide +kernel
end Sys2Proof.Tests
end

section
/-! Proofs about a waiting command's turn: what a wait on a fence answers, and what each answer does to the command (09
R307, R311). -/

namespace Sys2Proof.Machine
open Sys2Proof Sys2Proof.Crypto

/-! ### What a wait answers -/

section
variable {f : Fence} {g : Nat}

theorem waitOn_satisfied_of_signalled (hg : g = f.gen) (hs : f.state = 3) : waitOn f g = .satisfied := by
  simp [waitOn, hg, hs]
theorem waitOn_failed_of_failed (hg : g = f.gen) (hs : f.state = 4) : waitOn f g = .failed := by
  simp [waitOn, hg, hs]
theorem waitOn_waits_of_pending (hg : g = f.gen) (hs : f.state = 2) : waitOn f g = .waits := by
  simp [waitOn, hg, hs]
theorem waitOn_refused_of_idle (hg : g = f.gen) (hs : f.state = 1) : waitOn f g = .refused := by
  simp [waitOn, hg, hs]
theorem waitOn_waits_of_next_arm (hg : g ≠ f.gen) (hn : g = (f.gen + 1) % 2 ^ 16) : waitOn f g = .waits := by
  rw [waitOn, if_neg hg, if_pos hn]
theorem waitOn_refused_of_other (hg : g ≠ f.gen) (hn : g ≠ (f.gen + 1) % 2 ^ 16) : waitOn f g = .refused := by
  rw [waitOn, if_neg hg, if_neg hn]

end

/-! ### A command with one wait -/

section
variable {s : State} {t : Taken} {i g : Nat}

theorem badWait_of_one_bad (hw : waitsOf t.e = [(i, g)]) (hb : waitOn (s.fence i) g = .failed ∨ waitOn (s.fence i) g = .refused) :
    badWait s t = some (i, g) := by
  have bad : (waitOn (s.fence i) g == .failed || waitOn (s.fence i) g == .refused) = true :=
    Bool.or_eq_true_iff.mpr (hb.imp beq_iff_eq.mpr beq_iff_eq.mpr)
  rw [badWait, hw]
  exact List.find?_cons_of_pos bad

theorem badWait_of_one_good (hw : waitsOf t.e = [(i, g)]) (hf : waitOn (s.fence i) g ≠ .failed) (hr : waitOn (s.fence i) g ≠ .refused) :
    badWait s t = none := by
  have fine : ¬(waitOn (s.fence i) g == .failed || waitOn (s.fence i) g == .refused) = true := fun h =>
    (Bool.or_eq_true_iff.mp h).elim (fun h => hf (beq_iff_eq.mp h)) fun h => hr (beq_iff_eq.mp h)
  rw [badWait, hw]
  exact List.find?_cons_of_neg fine

end

/-! ### A waiting command's turn -/

/-- The command may not start yet for those before it in its queue: one has not started, or it is serial and one has not
completed (09 R307). -/
def outOfTurn (s : State) (t : Taken) : Bool :=
  (earlier s t).any (fun x => x.phase == 1) || (isSerial s t && !(earlier s t).isEmpty)

theorem outOfTurn_of_none_earlier {s : State} {t : Taken} (h : earlier s t = []) : outOfTurn s t = false := by
  simp [outOfTurn, h]

/-- The command does not start: it ends with a code, and its fence is marked as failed by the wait `w` (09 R311, R313). -/
def failOnWait (t : Taken) (w : Nat × Nat) (code : Nat) (s : State) : State :=
  (complete t code (detailInherited w.1 w.2) [] s).onFence (envFence t.e) fun f => { f with inherited := true }

section
variable {body : Body} {t : Taken} {rc : Nat} {inp : Bytes} {s : State} (turn : outOfTurn s t = false)
include turn

theorem tryStart_of_badWait {w : Nat × Nat} (hb : badWait s t = some w) :
    tryStart body t rc inp s =
      failOnWait t w (if waitOn (s.fence w.1) w.2 = .failed then (s.fence w.1).code else yeStale) s := by
  unfold outOfTurn at turn
  simp only [tryStart, turn, hb, Bool.false_eq_true, if_false]
  rfl

theorem tryStart_of_waits (hb : badWait s t = none) {w : Nat × Nat} (hm : w ∈ waitsOf t.e) (hw : waitOn (s.fence w.1) w.2 = .waits) :
    tryStart body t rc inp s = s := by
  have notAll : ((waitsOf t.e).all fun w => waitOn (s.fence w.1) w.2 == .satisfied) = false :=
    List.all_eq_false.mpr ⟨w, hm, by simp [hw]⟩
  unfold outOfTurn at turn
  simp [tryStart, turn, hb, notAll]

/-- The body of a command that starts runs on the state in which the command is Running, and its start traced. -/
theorem tryStart_of_satisfied (hb : badWait s t = none) (hw : ∀ w ∈ waitsOf t.e, waitOn (s.fence w.1) w.2 = .satisfied)
    (bar : startBar s t = 0) (hp : ∀ p ∈ s.profs, p.2.queue ≠ some t.q) :
    ∃ u, Traced { s with taken := s.taken.map fun x => if x.q == t.q && x.seq == t.seq then { t with phase := 2, startAt := s.now } else x } u ∧
      tryStart body t rc inp s = body { t with phase := 2, startAt := s.now } rc inp u := by
  have sat : ((waitsOf t.e).all fun w => waitOn (s.fence w.1) w.2 == .satisfied) = true :=
    List.all_eq_true.mpr fun w hm => by simp [hw w hm]
  refine ⟨_, Traced.work { t with phase := 2, startAt := s.now } 4 (envOpcode t.e) _, ?_⟩
  unfold outOfTurn at turn
  simp only [tryStart, turn, hb, sat, bar, ne_eq, not_true_eq_false, if_false, if_true, Bool.false_eq_true]
  rw [startProf_none]
  exact hp

end

/-- COMMAND_START of a command that has not started is its turn, with the bytes of its input reads. -/
theorem exec_commandStart_of_waiting {q : Nat} {seq : BitVec 32} {rc : BitVec 16} {inp : Bytes} {s : State} {t : Taken}
    (live : s.keepLive = true) (ht : findTaken s q seq.toNat = some t) (hph : t.phase = 1) :
    exec (.commandStart q seq rc inp) s = .next (tryStart (bodyOf (envOpcode t.e)) { t with inp := inp } rc.toNat inp s) := by
  change execCommandStart q seq rc inp s = _
  simp only [execCommandStart, commandStart, ht, live, hph, Bool.not_true, Bool.false_eq_true, if_false, if_true]

/-! ### The obligation -/

/-- Settles O9, by what the command's one wait answers in each case of R311 and what its turn then does. -/
theorem waitsResolveByGeneration : Obligations.WaitsResolveByGeneration := by
  intro q seq rc inp s t i g live ht hph first hw _ _ f go t' failed
  have hgo : go = .next (tryStart (bodyOf (envOpcode t.e)) t' rc.toNat inp s) := exec_commandStart_of_waiting live ht hph
  have turn : outOfTurn s t' = false := outOfTurn_of_none_earlier (t := t') first
  have good (hf : waitOn f g ≠ .failed) (hr : waitOn f g ≠ .refused) : badWait s t' = none := badWait_of_one_good hw hf hr
  have waits (h : waitOn f g = .waits) : go = .next s := by
    rw [hgo, tryStart_of_waits turn (good (by simp [h]) (by simp [h])) (w := (i, g)) (by simp [t', hw]) h]
  have fails (h : waitOn f g = .failed) : go = failed f.code := by
    have hb : badWait s t' = some (i, g) := badWait_of_one_bad hw (.inl h)
    rw [hgo, tryStart_of_badWait turn hb, if_pos h]
    rfl
  have refused (h : waitOn f g = .refused) : go = failed yeStale := by
    have hb : badWait s t' = some (i, g) := badWait_of_one_bad hw (.inr h)
    rw [hgo, tryStart_of_badWait turn hb, if_neg (by simp [f, h])]
    rfl
  refine ⟨fun hg hs bar hp => ?_, fun hg hs => fails (waitOn_failed_of_failed hg hs), fun hg hs => waits (waitOn_waits_of_pending hg hs),
    fun hg hs => refused (waitOn_refused_of_idle hg hs), fun hg hn => waits (waitOn_waits_of_next_arm hg hn),
    fun hg hn => refused (waitOn_refused_of_other hg hn)⟩
  have h := waitOn_satisfied_of_signalled hg hs
  have sat : ∀ w ∈ waitsOf t'.e, waitOn (s.fence w.1) w.2 = .satisfied := by simpa [t', hw] using h
  obtain ⟨u, hu, run⟩ := tryStart_of_satisfied turn (good (by simp [h]) (by simp [h])) sat bar hp
  exact ⟨u, hu, by rw [hgo, run]⟩

end Sys2Proof.Machine
end

section
/-! PROOF of O6. The word that one fault leaves on its unit, and the lockdown that it may start. -/

namespace Sys2Proof.Machine
open Sys2Proof

/-! ### A unit's word -/

/-- The word of a unit after a fault of a source that ended at class `k` (10 R335, Table 10.6). -/
def FaultWord.marked (w : FaultWord) (src k : Nat) : FaultWord :=
  { last := src, uncleared := w.uncleared ||| (1#4 <<< (k - 1)), unack := w.unack ||| (1#4 <<< (k - 1)),
    active := if lasting src then (src, k) :: w.active else w.active }

section
variable {k : Nat} (one : 1 ≤ k) (four : k ≤ 4)
include one four

theorem marked_unack (w : FaultWord) (src i : Nat) (hi : i < 4) :
    (w.marked src k).unack.getLsbD i = (w.unack.getLsbD i || i == k - 1) := bit_or _ k i one four hi

theorem marked_uncleared (w : FaultWord) (src i : Nat) (hi : i < 4) :
    (w.marked src k).uncleared.getLsbD i = (w.uncleared.getLsbD i || i == k - 1) := bit_or _ k i one four hi

end

/-! ### A fault outside a lockdown -/

section
variable {u src c n f : Nat} {thr : Bool} {d : BitVec 64} {s : State} (unlocked : s.aon.lockdown = false)
include unlocked

theorem raise_word_same : (raise u src c thr n f d s).word u = (s.word u).marked src (escalate (s.word u).unack c) := by
  obtain ⟨words, -⟩ := raise_all u src c thr n f d s unlocked
  unfold State.word
  rw [words]
  exact tget_tset_same ..

theorem raise_word_other {v : Nat} (hv : v ≠ u) : (raise u src c thr n f d s).word v = s.word v := by
  obtain ⟨words, -⟩ := raise_all u src c thr n f d s unlocked
  unfold State.word
  rw [words]
  exact tget_tset_other _ _ _ _ _ hv

theorem raise_locks_iff : (raise u src c thr n f d s).aon.lockdown = true ↔
    escalate (s.word u).unack c = 4 ∧ ∃ x ∈ s.flt.words, x.2.unack.getLsbD 3 = true := by
  obtain ⟨-, -, locks, -⟩ := raise_all u src c thr n f d s unlocked
  rw [locks, Bool.and_eq_true, beq_iff_eq, List.any_eq_true]

/-- CAUSE stands from bit 32 of the trip word up (10 Table 10.9b). -/
theorem raise_trip_of_locks (locked : (raise u src c thr n f d s).aon.lockdown = true) :
    (raise u src c thr n f d s).aon.trip.toNat / 2 ^ 32 = 8 := by
  obtain ⟨-, -, locks, trip, -⟩ := raise_all u src c thr n f d s unlocked
  rw [trip (locks.symm.trans locked)]
  decide

end

/-! ### The obligation -/

/-- Settles O6: the final class is the one `escalate` gives, the unit's word is marked with it, and it locks exactly when
it is Fatal while a Fatal is unacknowledged. -/
theorem faultsEscalateAndFatalsLock : Obligations.FaultsEscalateAndFatalsLock := by
  intro u src c thr n f d s unlocked hc hc4 w t
  obtain ⟨above, four, busy, free⟩ := escalate_spec w.unack c hc hc4
  have one : 1 ≤ escalate w.unack c := Nat.le_trans hc above
  obtain ⟨-, recorded, -⟩ := raise_all u src c thr n f d s unlocked
  have word : t.word u = w.marked src (escalate w.unack c) := raise_word_same unlocked
  have locks : t.aon.lockdown = true ↔ escalate w.unack c = 4 ∧ ∃ x ∈ s.flt.words, x.2.unack.getLsbD 3 = true :=
    raise_locks_iff unlocked
  have unack := marked_unack one four w src
  have uncleared := marked_uncleared one four w src
  rw [← word] at unack uncleared
  refine ⟨escalate w.unack c, above, four, busy, free, unack, uncleared, fun v hv => raise_word_other unlocked hv, recorded,
    fun fatal level => ?_, fun h => Bool.eq_false_iff.mpr fun l => h (locks.mp l)⟩
  have locked : t.aon.lockdown = true := locks.mpr ⟨fatal, level⟩
  refine ⟨locked, raise_trip_of_locks unlocked locked, ?_, ?_⟩
  · rw [unack 3 (by decide), fatal, beq_self_eq_true, Bool.or_true]
  · rw [uncleared 3 (by decide), fatal, beq_self_eq_true, Bool.or_true]

end Sys2Proof.Machine
end

section
/-! PROOF of O7. The beat register's write, the beat of a started keep, and the hang of the watchdog (11 R364). -/

namespace Sys2Proof.Machine
open Sys2Proof

/-! ### A write to the beat register -/

section
variable {s : State} (live : s.keepLive = true)
include live

theorem heartbeat_of_next_beat : heartbeat (s.keep.beat + 1) s =
    { s with keep := { s.keep with beat := s.keep.beat + 1, beatAt := s.now, missed := 0, beaten := true } } := by
  rw [heartbeat, live, Bool.not_true, if_neg Bool.false_ne_true, if_pos rfl]

theorem heartbeat_of_other_beat {v : BitVec 16} (other : v ≠ s.keep.beat + 1) : heartbeat v s = bump Config.keepId 7 1 s := by
  rw [heartbeat, live, Bool.not_true, if_neg Bool.false_ne_true, if_neg other]

end

/-- A performance counter of the keep goes up modulo 2^64 (13 R398, Table 13.1). -/
theorem keep_counter_bump {w : Nat} (perf : isAcct Config.keepId w = false) (n : Nat) (s : State) :
    tget 0 (tget {} (bump Config.keepId w n s).ctrs Config.keepId).words w =
      (tget 0 (tget {} s.ctrs Config.keepId).words w + n) % 2 ^ 64 := by
  have written : (bump Config.keepId w n s).ctrs = tset s.ctrs Config.keepId { tget {} s.ctrs Config.keepId with
      words := tset (tget {} s.ctrs Config.keepId).words w ((tget 0 (tget {} s.ctrs Config.keepId).words w + n) % two64) } := by
    rw [bump, if_neg (Bool.eq_false_iff.mp perf)]
  rw [written, tget_tset_same, tget_tset_same, two64]

/-! ### A keep start -/

/-- The keep's beat fields are as KEEP_READY leaves them. -/
def BeatReset (s : State) : Prop := s.keep.beat = 0 ∧ s.keep.beaten = false ∧ s.keep.missed = 0

theorem BeatReset.of_same {s t : State} (same : SameBeat s t) (reset : BeatReset s) : BeatReset t := by
  obtain ⟨beat, beaten, missed⟩ := same
  rw [BeatReset, beat, beaten, missed]
  exact reset

theorem ready_beatReset (s : State) : BeatReset (restartClock (keepReady s)) := beat_zero (restartClock_beat _)

theorem opened_beatReset {s : State} (reset : BeatReset s) : BeatReset (openStations s) := reset.of_same (openStations_beat s)

theorem coldRun_beatReset (slot : Nat) (s : State) : BeatReset (coldRun slot true s) := by
  unfold coldRun
  extract_lets loaded _ tried identified chained ready _ marked
  rw [Bool.not_true, if_neg Bool.false_ne_true]
  have reset : BeatReset ready := ready_beatReset chained
  have kept : SameBeat ready marked := ⟨rfl, rfl, rfl⟩
  exact opened_beatReset (reset.of_same (kept.trans (logStart_beat marked)))

theorem warmRun_beatReset {s : State} (valid : slotValid s s.aon.slot = true) : BeatReset (warmRun true s) := by
  unfold warmRun
  rw [valid, Bool.not_true, if_neg Bool.false_ne_true, if_neg Bool.false_ne_true]
  extract_lets _ _ _ _ _ _ _ _ keyed ready logged dumped
  have reset : BeatReset ready := ready_beatReset keyed
  have dump : SameBeat logged dumped := .ite (endDump_beat logged) (.refl logged)
  exact opened_beatReset ((reset.of_same ((logStart_beat ready).trans (logOut_beat _))).of_same dump)

/-! ### The watchdog -/

/-- A running keep is in phase 1, outside a lockdown: what a hang needs to take effect. -/
theorem keepLive_iff (s : State) : s.keepLive = true ↔ s.keep.ready = true ∧ s.aon.lockdown = false ∧ s.aon.phase = 1 := by
  simp [State.keepLive, and_assoc]

/-- One more period has passed without a beat. -/
def missBeat (s : State) : State := { s with keep := { s.keep with missed := s.keep.missed + 1 } }

section
variable {s : State}

theorem periodExpiry_early (early : s.now < s.keep.beatAt + Config.ms (s.keep.missed + 1)) : periodExpiry s = s := by
  rw [periodExpiry, decide_eq_true early, Bool.or_true, if_pos rfl]

theorem startTimeout_early (early : s.now < s.keep.startAt + Config.ms 100) : startTimeout s = s := by
  rw [startTimeout, decide_eq_false (Nat.not_le.mpr early), Bool.and_false, if_neg Bool.false_ne_true]

variable (live : s.keepLive = true)
include live

theorem periodExpiry_due (beaten : s.keep.beaten = true) (due : s.keep.beatAt + Config.ms (s.keep.missed + 1) ≤ s.now) :
    periodExpiry s = if 10 ≤ s.keep.missed + 1 then hang (missBeat s) else missBeat s := by
  have acts : (!s.keepLive || !s.keep.beaten || decide (s.now < s.keep.beatAt + Config.ms (s.keep.missed + 1))) = false := by
    rw [live, beaten, decide_eq_false (Nat.not_lt.mpr due)]
    rfl
  rw [periodExpiry, acts, if_neg Bool.false_ne_true]
  rfl

theorem startTimeout_due (unbeaten : s.keep.beaten = false) (due : s.keep.startAt + Config.ms 100 ≤ s.now) :
    startTimeout s = hang s := by
  rw [startTimeout, live, unbeaten, decide_eq_true due]
  rfl

end

/-! ### The obligation -/

/-- Settles O7: the beat register's two writes, the beat fields that KEEP_READY sets and the rest of a start keeps, and the
watchdog's two expiries, each early, counting or a hang. -/
theorem theWatchdogCountsBeats : Obligations.TheWatchdogCountsBeats := by
  refine ⟨fun s live => ?_, fun v s live other => ?_, fun slot s => ?_, fun s valid => ?_, fun s live beaten => ⟨fun early => ?_,
    fun due few => ?_, fun due ten quiet => ?_⟩, fun s live unbeaten => ⟨fun early => ?_, fun due quiet => ?_⟩⟩
  · exact congrArg Host.Outcome.next (heartbeat_of_next_beat live)
  · have perf : isAcct Config.keepId 7 = false := by decide
    exact ⟨_, congrArg Host.Outcome.next (heartbeat_of_other_beat live other), bump_keep 7 1 perf s, keep_counter_bump perf 1 s⟩
  · exact coldRun_beatReset slot s
  · exact warmRun_beatReset valid
  · exact congrArg Host.Outcome.next (periodExpiry_early early)
  · have counts : periodExpiry s = missBeat s := (periodExpiry_due live beaten due).trans (if_neg (Nat.not_le.mpr few))
    exact congrArg Host.Outcome.next counts
  · have hangs : periodExpiry s = hang (missBeat s) := (periodExpiry_due live beaten due).trans (if_pos ten)
    obtain ⟨-, unlocked, running⟩ := (keepLive_iff s).mp live
    exact ⟨_, congrArg Host.Outcome.next hangs, hang_does (missBeat s) unlocked running quiet⟩
  · exact congrArg Host.Outcome.next (startTimeout_early early)
  · obtain ⟨-, unlocked, running⟩ := (keepLive_iff s).mp live
    exact ⟨_, congrArg Host.Outcome.next (startTimeout_due live unbeaten due), hang_does s unlocked running quiet⟩

end Sys2Proof.Machine
end

section
/-! PROOF of O8. What a stop in force does to the beat timeout, to the peers heard at its end, and to a link that goes down (11
R356). -/

namespace Sys2Proof.Machine
open Sys2Proof

/-! ### A beat timeout and a link-down input -/

theorem beatTimeout_of_stopped {s : State} (stopped : s.keepStopped = true) (part peer : Nat) : beatTimeout part peer s = s := by
  rw [beatTimeout, if_pos stopped]

theorem linkDown_of_one_domain {s : State} {port p dev : Nat} (one : s.doms.map (·.1) = [p])
    (named : tfind (s.dom p).attach port = some dev) : linkDown port s = declareLost p dev 1 s := by
  simp only [linkDown, each, one, List.foldl_cons, List.foldl_nil, named]

/-! ### The end of a stop -/

theorem Ended.doms {s t : State} (h : Ended s t) : t.doms = s.doms := by
  obtain ⟨k, x, tr, b, tk, fs, p, o, rfl⟩ := h; rfl

theorem Ended.stop {s t : State} (h : Ended s t) : t.stop = s.stop := by
  obtain ⟨k, x, tr, b, tk, fs, p, o, rfl⟩ := h; rfl

/-- A domain record in which every peer counts as heard at `now` (07 R242). -/
def Dom.beatsRestarted (now : Nat) (d : Dom) : Dom := { d with beatRx := tmap (fun _ _ => now) d.beatRx }

/-- The stop is over and every beat timeout starts anew; the resume commands that wait for it still run. -/
def stopOver (s : State) : State :=
  { s with stop := { s.stop with inForce := false }, doms := tmap (fun _ d => d.beatsRestarted s.now) s.doms }

theorem stopOver_dom (s : State) (part : Nat) : (stopOver s).dom part = (s.dom part).beatsRestarted s.now :=
  dom_tmap (Dom.beatsRestarted s.now) rfl s (stopOver s) rfl part

/-- Once every station has left Stopped the stop is over, and only the completion of STOP_RESUME follows. -/
theorem resumeSettled_of_all_left {s : State} (inForce : s.stop.inForce = true) (resumed : s.stop.resume.isSome = true)
    (left : ∀ st ∈ stationIds, (s.port st).stopped = false) : Ended (stopOver s) (resumeSettled s) := by
  have all : (stationIds.all fun st => !(s.port st).stopped) = true := List.all_eq_true.mpr fun st hst => by
    rw [left st hst, Bool.not_false]
  simp only [resumeSettled, inForce, resumed, all, Bool.and_true, if_true]
  exact Ended.each (fun t b => complete_ended ..) _

/-! ### The obligation -/

/-- Settles O8: a stop in force holds the beat timeout, its end restarts every peer's, and link-down does not ask for it. -/
theorem aStopHoldsBeatTimeouts : Obligations.AStopHoldsBeatTimeouts := by
  refine ⟨fun part peer s stopped => ?_, fun s u applied inForce resumed left => ?_, fun port p dev s _ one named => ?_⟩
  · exact congrArg Host.Outcome.next (beatTimeout_of_stopped stopped part peer)
  · have ended : Ended (stopOver u) (resumeSettled u) := resumeSettled_of_all_left inForce resumed left
    refine ⟨resumeSettled u, by rw [applied]; rfl, by rw [ended.stop]; rfl, fun part => ?_⟩
    have dom : (resumeSettled u).dom part = (stopOver u).dom part := by rw [State.dom, ended.doms]; rfl
    rw [dom, stopOver_dom]
    rfl
  · exact congrArg Host.Outcome.next (linkDown_of_one_domain one named)

end Sys2Proof.Machine
end

section
/-! Rules that the proofs below share: a taken command that completes, that goes on running, and what both leave. -/

namespace Sys2Proof.Machine
open Sys2Proof Sys2Proof.Crypto

variable {q : Nat} {e : BitVec 1024} {inp : Bytes} {s b c : State} {t : Taken}

/-- A command whose body ends in success on a state `c` in which the driver interface stands as the body found it. -/
theorem Began.finishes {x : Host.Outcome State Fault Refusal} {r : Bytes} (hb : Began q e inp s t b) (run : x = .next (done t r c))
    (hq : c.queues = b.queues) (hf : c.fences = b.fences) (hc : c.ctxs = b.ctxs) (ht : c.taken = b.taken) (hp : c.profs = b.profs)
    (hn : c.now = s.now) : ∃ u, x = .next u ∧ Completed q e r s u ∧ u.bare = c.bare ∧ ∀ o ∈ c.out, o ∈ u.out := by
  obtain ⟨completed, bare⟩ := hb.completed r hq hf hc ht hp hn
  exact ⟨_, run, completed, bare, fun _ ho => done_emitted r (hb.unbound hp rfl) ho⟩

end Sys2Proof.Machine
end

section
/-! PROOF of O1 to O5. The step and its queue, the reset state, and the invariant that every step keeps. -/

namespace Sys2Proof.Machine
open Sys2Proof

/-! ### One step -/

theorem step_of_cons {c : Instr} {rest : List Instr} {s : State} (h : s.pending = c :: rest) : step s = exec c { s with pending := rest } := by
  unfold step
  rw [h]

theorem step_of_nil {s : State} (h : s.pending = []) : step s = .next (tick s) := by
  unfold step
  rw [h]

/-- Settles O1, by the step's own match on the queue. -/
theorem theStepRunsTheCommandInFront : Obligations.TheStepRunsTheCommandInFront := fun _ _ _ h => step_of_cons h

/-! ### One tick -/

theorem tick_of_off {s : State} (off : s.aon.phase = 0) : tick s = s := if_pos off

/-- With no cold reset scheduled, a tick moves the time base, then the clocks, then a live keep's own work. -/
theorem tick_of_on {s : State} (on : s.aon.phase ≠ 0) (none : s.aon.coldAt = none) :
    tick s = (let u := clockTick { s with aon := { s.aon with time := (s.aon.time + 1) % 2 ^ 64 } }
      if u.keepLive = true then tickKeep u else u) := by
  have cold : settleCold { s with aon := { s.aon with time := (s.aon.time + 1) % 2 ^ 64 } } =
      { s with aon := { s.aon with time := (s.aon.time + 1) % 2 ^ 64 } } := by
    simp only [settleCold, none]
  simp only [tick, cold, if_neg on]

/-- Settles O2, by the step on an empty queue and the two kinds of tick. -/
theorem anEmptyQueueIsOneTick : Obligations.AnEmptyQueueIsOneTick := by
  refine fun s empty => ⟨fun off => ?_, fun on none => ?_⟩
  · rw [step_of_nil empty, tick_of_off off]
  · exact (step_of_nil empty).trans (congrArg Host.Outcome.next (tick_of_on on none))

/-! ### Every command -/

/-- Settles O3, by the arm of each command, which is a next state. -/
theorem everyCommandAnswersANextState : Obligations.EveryCommandAnswersANextState := by
  intro c s
  cases c <;> exact ⟨_, rfl⟩

/-- Every command keeps the tables in order and the queue as it was. -/
theorem exec_keeps {p : List Instr} {s : State} (h : Sound p s) : ∀ c, ∃ t, exec c s = .next t ∧ Sound p t
  | .coldKeepStart _ _ woken .. => execColdKeepStart_keeps (x2 := woken) h
  | .coldResetInput powerOn => execColdResetInput_keeps (x0 := powerOn) h
  | .warmResetInput .. => execWarmResetInput_keeps h
  | .warmResetSequence .. => execWarmResetSequence_keeps h
  | .warmKeepStart .. => execWarmKeepStart_keeps h
  | .vaultExpiry => execVaultExpiry_keeps h
  | .currentLimitAssert => execCurrentLimitAssert_keeps h
  | .junctionReading .. => execJunctionReading_keeps h
  | .stepDownExit => execStepDownExit_keeps h
  | .sensorInvalidTimeout .. => execSensorInvalidTimeout_keeps h
  | .boostBudgetSpent => execBoostBudgetSpent_keeps h
  | .cipherClockSwitch => execCipherClockSwitch_keeps h
  | .hedgehogTrip .. => execHedgehogTrip_keeps h
  | .linkDown .. => execLinkDown_keeps h
  | .keepwayCrcError .. => execKeepwayCrcError_keeps h
  | .keepwayFrameRepeat .. => execKeepwayFrameRepeat_keeps h
  | .readTile .. => execReadTile_keeps h
  | .readSectors .. => execReadSectors_keeps h
  | .writeTile .. => execWriteTile_keeps h
  | .writeRange .. => execWriteRange_keeps h
  | .accumulate .. => execAccumulate_keeps h
  | .headerReadReturn .. => execHeaderReadReturn_keeps h
  | .channelReadReturn .. => execChannelReadReturn_keeps h
  | .channelWriteAck .. => execChannelWriteAck_keeps h
  | .lineFetchReturn .. => execLineFetchReturn_keeps h
  | .keyDelivery .. => execKeyDelivery_keeps h
  | .descriptorRefill .. => execDescriptorRefill_keeps h
  | .requestTimeout .. => execRequestTimeout_keeps h
  | .resealSlot .. => execResealSlot_keeps h
  | .regionRekeyStart .. => execRegionRekeyStart_keeps h
  | .rekeyMove .. => execRekeyMove_keeps h
  | .regionRekeyCommit .. => execRegionRekeyCommit_keeps h
  | .keyRetiringMark .. => execKeyRetiringMark_keeps h
  | .keyDrainCut .. => execKeyDrainCut_keeps h
  | .epochRetirementCut .. => execEpochRetirementCut_keeps h
  | .freezeArrival .. => execFreezeArrival_keeps h
  | .safeStateEntry .. => execSafeStateEntry_keeps h
  | .stopTick => execStopTick_keeps h
  | .resumeTick => execResumeTick_keeps h
  | .measuredHashComplete .. => execMeasuredHashComplete_keeps h
  | .regionSealFold .. => execRegionSealFold_keeps h
  | .linkRequestIntake .. => execLinkRequestIntake_keeps h
  | .instanceOpen .. => execInstanceOpen_keeps h
  | .contextRefillDone .. => execContextRefillDone_keeps h
  | .bundleFlushTimeout .. => execBundleFlushTimeout_keeps h
  | .packetArrival .. => execPacketArrival_keeps h
  | .packetApply .. => execPacketApply_keeps h
  | .loadDataRelease .. => execLoadDataRelease_keeps h
  | .flaggedStoreRelease .. => execFlaggedStoreRelease_keeps h
  | .atomicResult .. => execAtomicResult_keeps h
  | .invalidateDone .. => execInvalidateDone_keeps h
  | .flushDone .. => execFlushDone_keeps h
  | .gapTimeout .. => execGapTimeout_keeps h
  | .trackerTimeout .. => execTrackerTimeout_keeps h
  | .rotationCommitArrival .. => execRotationCommitArrival_keeps h
  | .generationDrainTimeout .. => execGenerationDrainTimeout_keeps h
  | .memberLostArrival .. => execMemberLostArrival_keeps h
  | .bulkCompletionReport .. => execBulkCompletionReport_keeps h
  | .hostDmaRequest .. => execHostDmaRequest_keeps h
  | .ideIntegrityFailure .. => execIdeIntegrityFailure_keeps h
  | .spdmRequest .. => execSpdmRequest_keeps h
  | .keyProg .. => execKeyProg_keeps h
  | .kSetGo .. => execKSetGo_keeps h
  | .kSetStop .. => execKSetStop_keeps h
  | .lockInterfaceRequest .. => execLockInterfaceRequest_keeps h
  | .startInterfaceRequest .. => execStartInterfaceRequest_keeps h
  | .stopInterfaceRequest .. => execStopInterfaceRequest_keeps h
  | .getDeviceInterfaceReport .. => execGetDeviceInterfaceReport_keeps h
  | .hostDoorbellWrite .. => execHostDoorbellWrite_keeps h
  | .deviceDoorbellWrite .. => execDeviceDoorbellWrite_keeps h
  | .runNotice _ src => execRunNotice_keeps (x1 := src) h
  | .arrivalCounterRead .. => execArrivalCounterRead_keeps h
  | .adminEnable .. => execAdminEnable_keeps h
  | .tableRead .. => execTableRead_keeps h
  | .eventHeadWrite .. => execEventHeadWrite_keeps h
  | .faultAcknowledge .. => execFaultAcknowledge_keeps h
  | .unitSnapshot .. => execUnitSnapshot_keeps h
  | .profileSnapshot .. => execProfileSnapshot_keeps h
  | .heartbeatWrite .. => execHeartbeatWrite_keeps h
  | .registerWrite .. => execRegisterWrite_keeps h
  | .commandStart .. => execCommandStart_keeps h
  | .commandWaitTimeout .. => execCommandWaitTimeout_keeps h
  | .takePauseTimeout .. => execTakePauseTimeout_keeps h
  | .fenceFailureReport .. => execFenceFailureReport_keeps h
  | .objectRetire .. => execObjectRetire_keeps h
  | .ctxCloseComplete .. => execCtxCloseComplete_keeps h
  | .epochDrainComplete => execEpochDrainComplete_keeps h
  | .epochDrainTimeout => execEpochDrainTimeout_keeps h
  | .keyDrainComplete .. => execKeyDrainComplete_keeps h
  | .keyDrainTimeout .. => execKeyDrainTimeout_keeps h
  | .keyPurgeConfirm .. => execKeyPurgeConfirm_keeps h
  | .swapConfirm .. => execSwapConfirm_keeps h
  | .partitionRemovalDrainEnd .. => execPartitionRemovalDrainEnd_keeps h
  | .partitionRemovalFlightExpiry .. => execPartitionRemovalFlightExpiry_keeps h
  | .meteringIntervalEnd => execMeteringIntervalEnd_keeps h
  | .meteringCheckpoint => execMeteringCheckpoint_keeps h
  | .faultWindowClose .. => execFaultWindowClose_keeps h
  | .watchdogPeriodExpiry => execWatchdogPeriodExpiry_keeps h
  | .watchdogStartTimeout => execWatchdogStartTimeout_keeps h
  | .noiseSourceFailure .. => execNoiseSourceFailure_keeps h
  | .drbgReseed .. => execDrbgReseed_keeps h
  | .drbgWaitTimeout .. => execDrbgWaitTimeout_keeps h
  | .dumpTrigger .. => execDumpTrigger_keeps h
  | .dumpSourceTimeout .. => execDumpSourceTimeout_keeps h
  | .traceDrain .. => execTraceDrain_keeps h
  | .profileBoundary .. => execProfileBoundary_keeps h
  | .profileIdleBoundary .. => execProfileIdleBoundary_keeps h
  | .lcTransitionSequence .. => execLcTransitionSequence_keeps h
  | .testSessionStart .. => execTestSessionStart_keeps h
  | .tapLcRequest .. => execTapLcRequest_keeps h
  | .tapToken .. => execTapToken_keeps h
  | .repairRecordBurn .. => execRepairRecordBurn_keeps h
  | .beatSend .. => execBeatSend_keeps h
  | .beat .. => execBeat_keeps h
  | .beatTimeout .. => execBeatTimeout_keeps h
  | .lossReport .. => execLossReport_keeps h
  | .memberLost .. => execMemberLost_keeps h
  | .markRequest .. => execMarkRequest_keeps h
  | .mark .. => execMark_keeps h
  | .rotateRequest .. => execRotateRequest_keeps h
  | .rotatePrepare .. => execRotatePrepare_keeps h
  | .rotateConfirm .. => execRotateConfirm_keeps h
  | .rotateCommit .. => execRotateCommit_keeps h
  | .rotateAbort .. => execRotateAbort_keeps h
  | .rotationDecideTimeout .. => execRotationDecideTimeout_keeps h
  | .rotationRetry .. => execRotationRetry_keeps h
  | .adopt .. => execAdopt_keeps h
  | .takeover .. => execTakeover_keeps h
  | .tableSync .. => execTableSync_keeps h
  | .leave .. => execLeave_keeps h
  | .domainEndMessage .. => execDomainEndMessage_keeps h
  | .rejoinWindowExpiry .. => execRejoinWindowExpiry_keeps h
  | .formationTimeout .. => execFormationTimeout_keeps h
  | .admitOffer .. => execAdmitOffer_keeps h
  | .admitReply .. => execAdmitReply_keeps h
  | .admitGrant .. => execAdmitGrant_keeps h
  | .admitConfirm .. => execAdmitConfirm_keeps h
  | .formCommit .. => execFormCommit_keeps h
  | .admitRefuse .. => execAdmitRefuse_keeps h
  | .migOffer .. => execMigOffer_keeps h
  | .migReply .. => execMigReply_keeps h
  | .migGrant .. => execMigGrant_keeps h
  | .migConfirm .. => execMigConfirm_keeps h
  | .handoffOfferMessage .. => execHandoffOfferMessage_keeps h
  | .handoffAccept .. => execHandoffAccept_keeps h
  | .handoffCommit .. => execHandoffCommit_keeps h
  | .handoffAck .. => execHandoffAck_keeps h
  | .handoffReleased .. => execHandoffReleased_keeps h
  | .handoffRefuse .. => execHandoffRefuse_keeps h
  | .handoffQuery .. => execHandoffQuery_keeps h
  | .handoffState .. => execHandoffState_keeps h
  | .handoffClose .. => execHandoffClose_keeps h
  | .handoffRetransmit .. => execHandoffRetransmit_keeps h
  | .handoffQueryTimer .. => execHandoffQueryTimer_keeps h
  | .stopMessage .. => execStopMessage_keeps h
  | .resumeMessage .. => execResumeMessage_keeps h
  | .regionReload .. => execRegionReload_keeps h
  | .regionSeal .. => execRegionSeal_keeps h
  | .accOpen .. => execAccOpen_keeps h
  | .accClose .. => execAccClose_keeps h
  | .linkJobConfig .. => execLinkJobConfig_keeps h
  | .arrivalOpen .. => execArrivalOpen_keeps h
  | .arrivalClose .. => execArrivalClose_keeps h
  | .bulkCopy .. => execBulkCopy_keeps h
  | .ckptSend .. => execCkptSend_keeps h
  | .ckptRestore .. => execCkptRestore_keeps h
  | .parityRebuild .. => execParityRebuild_keeps h
  | .keyCreate .. => execKeyCreate_keeps h
  | .keyRotate .. => execKeyRotate_keeps h
  | .keyRetirePrevious .. => execKeyRetirePrevious_keeps h
  | .keyDestroy .. => execKeyDestroy_keeps h
  | .keyQuery .. => execKeyQuery_keeps h
  | .keyImport .. => execKeyImport_keeps h
  | .cipherGcmSeal .. => execCipherGcmSeal_keeps h
  | .cipherGcmUnseal .. => execCipherGcmUnseal_keeps h
  | .cipherCtr .. => execCipherCtr_keeps h
  | .cipherCmac .. => execCipherCmac_keeps h
  | .cipherWrap .. => execCipherWrap_keeps h
  | .cipherUnwrap .. => execCipherUnwrap_keeps h
  | .stateSave .. => execStateSave_keeps h
  | .stateRestore .. => execStateRestore_keeps h
  | .opCancel .. => execOpCancel_keeps h
  | .randomGet .. => execRandomGet_keeps h
  | .evidenceGet .. => execEvidenceGet_keeps h
  | .identityGet .. => execIdentityGet_keeps h
  | .domainCreate .. => execDomainCreate_keeps h
  | .domainJoinPrepare .. => execDomainJoinPrepare_keeps h
  | .domainMessage .. => execDomainMessage_keeps h
  | .domainLeave .. => execDomainLeave_keeps h
  | .domainEnd .. => execDomainEnd_keeps h
  | .domainRotate .. => execDomainRotate_keeps h
  | .domainStatus .. => execDomainStatus_keeps h
  | .domainAttachMap .. => execDomainAttachMap_keeps h
  | .partCreate .. => execPartCreate_keeps h
  | .partRemove .. => execPartRemove_keeps h
  | .compose .. => execCompose_keeps h
  | .partFreeze .. => execPartFreeze_keeps h
  | .partThaw .. => execPartThaw_keeps h
  | .migratePrepare .. => execMigratePrepare_keeps h
  | .migrateStart .. => execMigrateStart_keeps h
  | .migrateExport .. => execMigrateExport_keeps h
  | .migrateImport .. => execMigrateImport_keeps h
  | .migrateFinish .. => execMigrateFinish_keeps h
  | .migrateAbort .. => execMigrateAbort_keeps h
  | .handoffOffer .. => execHandoffOffer_keeps h
  | .handoffLanding .. => execHandoffLanding_keeps h
  | .handoffAbandon .. => execHandoffAbandon_keeps h
  | .meterConfig .. => execMeterConfig_keeps h
  | .nop .. => execNop_keeps h
  | .ctxCreate .. => execCtxCreate_keeps h
  | .ctxAbandon .. => execCtxAbandon_keeps h
  | .ctxClose .. => execCtxClose_keeps h
  | .queueCreate .. => execQueueCreate_keeps h
  | .queueDestroy .. => execQueueDestroy_keeps h
  | .objAlloc .. => execObjAlloc_keeps h
  | .objFree .. => execObjFree_keeps h
  | .objShare .. => execObjShare_keeps h
  | .objQuery .. => execObjQuery_keeps h
  | .fenceAlloc .. => execFenceAlloc_keeps h
  | .fenceFree .. => execFenceFree_keeps h
  | .fenceShare .. => execFenceShare_keeps h
  | .fenceRelease .. => execFenceRelease_keeps h
  | .fenceQuery .. => execFenceQuery_keeps h
  | .workBegin .. => execWorkBegin_keeps h
  | .workEnd .. => execWorkEnd_keeps h
  | .workLimitTimeout .. => execWorkLimitTimeout_keeps h
  | .faultClear .. => execFaultClear_keeps h
  | .faultThreshold .. => execFaultThreshold_keeps h
  | .hedgehogPolicy .. => execHedgehogPolicy_keeps h
  | .faultInject .. => execFaultInject_keeps h
  | .stopWave .. => execStopWave_keeps h
  | .stopResume .. => execStopResume_keeps h
  | .stopRecords .. => execStopRecords_keeps h
  | .resetStation .. => execResetStation_keeps h
  | .resetWarm .. => execResetWarm_keeps h
  | .resetNonce .. => execResetNonce_keeps h
  | .resetColdSigned .. => execResetColdSigned_keeps h
  | .dumpConfig .. => execDumpConfig_keeps h
  | .dumpStart .. => execDumpStart_keeps h
  | .lcNonce .. => execLcNonce_keeps h
  | .lcTransition .. => execLcTransition_keeps h
  | .lcStatus .. => execLcStatus_keeps h
  | .debugOpen .. => execDebugOpen_keeps h
  | .counterClear .. => execCounterClear_keeps h
  | .profileBind .. => execProfileBind_keeps h
  | .traceConfig .. => execTraceConfig_keeps h
  | .traceRing .. => execTraceRing_keeps h
  | .imageUpdate .. => execImageUpdate_keeps h
  | .imageStatus .. => execImageStatus_keeps h
  | .logRead .. => execLogRead_keeps h
  | .currentLimitRelease => execCurrentLimitRelease_keeps h
  | .boostBudgetBinEnd => execBoostBudgetBinEnd_keeps h
  | .plainRegionDrainCut .. => execPlainRegionDrainCut_keeps h
  | .eventLogEntryWritten => execEventLogEntryWritten_keeps h
  | .ringReadOffsetAdvance .. => execRingReadOffsetAdvance_keeps h

/-- Settles O4, by evaluation of the power-on state. -/
theorem resetIsClosedEmptyAndCanonical : Obligations.ResetIsClosedEmptyAndCanonical := by
  refine ⟨by decide, rfl, rfl, rfl, rfl, fun u => ?_, fun _ => rfl, fun _ => rfl, fun _ => rfl, fun _ => rfl, fun _ => ⟨rfl, rfl⟩, rfl, rfl⟩
  unfold State.port
  split
  · rfl
  · split <;> rfl

/-- Settles O5: the front command, or the tick when none waits, runs on a sound state and keeps it sound. -/
theorem everyStepKeepsTheTablesCanonical : Obligations.EveryStepKeepsTheTablesCanonical := by
  intro s t canon run
  cases hp : s.pending with
  | nil =>
    obtain rfl : tick s = t := Host.Outcome.next.inj ((step_of_nil hp).symm.trans run)
    exact canon_of_sound (tick_keeps (sound_of_canon canon hp))
  | cons c rest =>
    have sound : Sound rest { s with pending := rest } := sound_of_canon (s := { s with pending := rest }) canon rfl
    obtain ⟨u, hu, keeps⟩ := exec_keeps sound c
    obtain rfl : u = t := Host.Outcome.next.inj (hu.symm.trans ((step_of_cons hp).symm.trans run))
    exact canon_of_sound keeps

end Sys2Proof.Machine
end

section
/-! PROOF of O22 and O23. AES-256-GCM opens what it sealed, and CIPHER_GCM_SEAL in one command is that seal. -/

namespace Sys2Proof.Machine
open Sys2Proof Sys2Proof.Crypto

/-! ### Seal and open -/

theorem keystream_len (k : BitVec 256) (nonce : Bytes) (c n : Nat) : (keystream (roundKeys (keyBytes k)) nonce c n).length = 16 * n := by
  have each : (List.length ∘ fun i => encBlock (roundKeys (keyBytes k)) (nonce ++ be 4 (c + i))) = fun _ => 16 :=
    funext fun i => by rw [Function.comp_apply, encBlock_len]
  rw [keystream, List.length_flatten, List.map_map, each, List.map_const', List.sum_replicate_nat, List.length_range, Nat.mul_comm]

/-- The keystream, applied twice, gives the text back. -/
theorem ctrXor_undo (k : BitVec 256) (iv : Bytes) (c : Nat) (p : Bytes) : ctrXor k iv c (ctrXor k iv c p) = p := by
  have long : p.length ≤ (keystream (roundKeys (keyBytes k)) iv c (nblocks p.length)).length := by
    rw [keystream_len, nblocks]
    omega
  have len : (ctrXor k iv c p).length = p.length := ctrXor_len ..
  rw [ctrXor, len]
  exact xorb_undo p _ long

/-- Settles O23: the tag is recomputed over the same ciphertext, and the keystream applied twice cancels. -/
theorem gcmOpensWhatItSealed : Obligations.GcmOpensWhatItSealed := by
  intro k iv a p tag
  rw [gcmSeal_fst, gcmSeal_snd]
  refine ⟨?_, fun other => if_neg (Ne.symm other)⟩
  rw [gcmOpen, if_pos rfl, ctrXor_undo]

/-! ### A GCM operation of one command -/

theorem pad16_whole (a : Bytes) : (pad16 a).length % 16 = 0 := by
  simp only [pad16, zeros, List.length_append, List.length_replicate]
  omega

/-- Whole blocks enter the accumulator at once; the padding of the last one changes nothing. -/
theorem absorb_pad16 (key : BitVec 256) (u : User) (a : Bytes) (empty : u.part = []) :
    absorb key u (pad16 a) = { u with acc := unblk (ghashFrom (hashKey key) (blk u.acc) a) } := by
  have whole : (pad16 a).length / 16 * 16 = (pad16 a).length := Nat.div_mul_cancel (Nat.dvd_of_mod_eq_zero (pad16_whole a))
  simp only [absorb, empty, List.nil_append, whole, List.take_length, List.drop_length, ghash_pad _ _ _ a rfl]

/-- The tag of an operation whose whole text came in one piece. -/
theorem finishTag_absorb (key : BitVec 256) (u : User) (c : Bytes) (n : Nat) (empty : u.part = []) :
    finishTag key { absorb key u c with textLen := n } =
      xorb (unblk (ghashFrom (hashKey key) (ghashFrom (hashKey key) (blk u.acc) c) (be 8 (8 * u.aadLen) ++ be 8 (8 * n))))
        (aes256 key (u.counter ++ [0, 0, 0, 1])) := by
  have cutAt : (c.take (c.length / 16 * 16)).length = 16 * (c.length / 16) := by
    rw [List.length_take, Nat.mul_comm]
    exact Nat.min_eq_left (Nat.mul_div_le ..)
  simp only [finishTag, absorb, empty, List.nil_append, blk_unblk]
  rw [ghash_split _ _ _ _ _ cutAt, List.take_append_drop]

theorem blk_zeros : blk (zeros 16) = 0 := by decide

/-- A START's additional data, and the text: the ciphertext, and the user once it has been absorbed. -/
def sealText (key : BitVec 256) (u : User) (aad n : Nat) (inp : Bytes) : Bytes × User :=
  let u := { absorb key { u with part := [] } (pad16 (fit aad inp)) with aadLen := aad }
  let ct := streamXor key u.counter 2 u.textLen (cut aad n inp)
  (ct, { absorb key u ct with textLen := u.textLen + n })

section
variable (key : BitVec 256) (u : User) (aad n : Nat) (inp : Bytes) (none : u.textLen = 0)
include none

theorem sealText_text : (sealText key u aad n inp).1 = (gcmSeal key u.counter (fit aad inp) (cut aad n inp)).1 := by
  rw [gcmSeal_fst, ← stream0, sealText, absorb_pad16 _ _ _ rfl]
  simp only [none]

theorem sealText_tag (fresh : u.acc = zeros 16) : finishTag key (sealText key u aad n inp).2 = (gcmSeal key u.counter (fit aad inp) (cut aad n inp)).2 := by
  have len : (ctrXor key u.counter 2 (cut aad n inp)).length = n := (ctrXor_len ..).trans (fit_len ..)
  rw [gcmSeal_snd, sealText, absorb_pad16 _ _ _ rfl]
  refine (finishTag_absorb key _ _ _ rfl).trans ?_
  simp only [blk_unblk, fresh, blk_zeros, none, stream0, Nat.zero_add]
  rw [gcmTag, ghash, len, fit_len]
  rfl

end

theorem sealText_user (key : BitVec 256) (u : User) (aad n : Nat) (inp : Bytes) :
    (sealText key u aad n inp).2.counter = u.counter ∧ (sealText key u aad n inp).2.op = u.op := ⟨rfl, rfl⟩

/-- What CIPHER_GCM_SEAL does with START and FINISH, once its input is read: `k` is the slot's key as the command found it. -/
def sealWhole (t : Taken) (i : Nat) (inp : Bytes) (k : KeySlot) (s : State) : State :=
  let slot := opnd t.e 0 2
  let n := opnd t.e 16 4
  let s := countInv slot (startUser t i 1 slot k.gen (cmdNonce slot k.gen k.inv) s)
  let u := tget {} s.users i
  let key := (userHalf (s.key slot) u.gen).getD 0
  let x := sealText key u (opnd t.e 20 4) n inp
  let s := countBlocks t (nblocks n + 1 + 1) (writeOut (s.partOf t) (opnd t.e 24 4) (opnd t.e 28 5) x.1 (setUser i x.2 s))
  done t (userResult s i ++ x.2.counter ++ finishTag key x.2) (dropUser i s)

theorem bodyGcmSeal_whole {t : Taken} {e : BitVec 1024} {rc i : Nat} {inp : Bytes} {s : State} (te : t.e = e) (own : slotCheck s t (opnd e 0 2) 9 = 0)
    (flags : opnd e 3 1 = 3) (some_ : 1 ≤ opnd e 16 4) (fits : opnd e 16 4 ≤ maxText) (left : (s.key (opnd e 0 2)).inv < invLimit)
    (user : freeUser s = some i) (dest : objAccess s (s.partOf t) (opnd e 24 4) (opnd e 28 5) (opnd e 16 4) true = 0) :
    bodyGcmSeal t rc inp s =
      readIn t (opnd e 4 4) (opnd e 8 5) (opnd e 20 4 + opnd e 16 4) rc (sealWhole t i inp (s.key (opnd e 0 2))) s := by
  subst te
  have short : ¬ 2 ^ 36 - 32 < 0 + opnd t.e 16 4 := by
    unfold maxText at fits
    omega
  unfold bodyGcmSeal
  simp only [own, flags, user, dest, if_true, if_false, true_or, not_true_eq_false, ne_eq, false_and, true_and, or_false, short,
    Nat.not_lt.mpr fits, Nat.not_le.mpr left, Nat.ne_of_gt some_, show ¬ 4 ≤ 3 by decide, show 3 % 2 = 1 by decide]
  rfl

/-- On the text that was read, the command seals under the slot's current half, counts the invocation and lets its user go. -/
theorem sealWhole_does {q i : Nat} {e : BitVec 1024} {inp : Bytes} {s b c : State} {t : Taken} (hb : Began q e inp s t b) (profs : c.profs = b.profs)
    (fits : MeterFits c (c.partOf t) 4 (opnd e 16 4)) (used : (c.key (opnd e 0 2)).state ≠ 0) (room : (c.key (opnd e 0 2)).inv + 1 < 2 ^ 47) :
    let slot := opnd e 0 2
    let n := opnd e 16 4
    let k := c.key slot
    let nonce := cmdNonce slot k.gen k.inv
    let g := gcmSeal k.cur nonce (fit (opnd e 20 4) inp) (cut (opnd e 20 4) n inp)
    ∃ ctrs users ops, sealWhole t i inp k c = done t (le 1 i ++ zeros 3 ++ le 4 c.nextOp ++ nonce ++ g.2)
      { emit (.objWrite (opnd e 24 4) (opnd e 28 5) g.1) (c.metered (c.partOf t) 4 n) with
        ctrs := ctrs, keys := tset c.keys slot { k with inv := k.inv + 1 }, users := users, opTab := ops, nextOp := (c.nextOp + 1) % 2 ^ 32 } := by
  intro slot n k nonce g
  let u0 : User := { live := true, ctx := (c.queue t.q).ctx, op := c.nextOp, mode := 1, slot := slot, gen := k.gen, counter := nonce, acc := zeros 16 }
  let s1 : State := { c with
    keys := tset c.keys slot { k with inv := k.inv + 1 }, users := tset c.users i u0,
    opTab := tset c.opTab c.nextOp { ctx := (c.queue t.q).ctx }, nextOp := (c.nextOp + 1) % 2 ^ 32 }
  have counted : countInv slot (startUser t i 1 slot k.gen nonce c) = s1 := countInv_only slot (startUser t i 1 slot k.gen nonce c) room
  have user : tget {} s1.users i = u0 := tget_tset_same ..
  have half : userHalf (s1.key slot) u0.gen = some k.cur := by
    have raised : s1.key slot = { k with inv := k.inv + 1 } := tget_tset_same ..
    rw [raised, userHalf, if_neg used, if_pos rfl]
  have text : (sealText k.cur u0 (opnd e 20 4) n inp).1 = g.1 := sealText_text _ _ _ _ _ rfl
  have tag : finishTag k.cur (sealText k.cur u0 (opnd e 20 4) n inp).2 = g.2 := sealText_tag _ _ _ _ _ rfl rfl
  obtain ⟨iv, op⟩ := sealText_user k.cur u0 (opnd e 20 4) n inp
  generalize hx : sealText k.cur u0 (opnd e 20 4) n inp = x at text tag iv op
  let w : State := emit (.objWrite (opnd e 24 4) (opnd e 28 5) g.1) ((setUser i x.2 s1).metered (c.partOf t) 4 n)
  have wrote : writeOut (s1.partOf t) (opnd e 24 4) (opnd e 28 5) x.1 (setUser i x.2 s1) = w := by
    have len : x.1.length = n := by rw [text, gcmSeal_fst, ctrXor_len, cut, fit_len]
    rw [writeOut_ok (by rw [len]; exact fits), len, text]
    rfl
  obtain ⟨ctrs, blocks⟩ := countBlocks_only hb.toBeganCore (nblocks n + 1 + 1) w profs
  have run : sealWhole t i inp k c = done t (userResult { w with ctrs := ctrs } i ++ x.2.counter ++ finishTag k.cur x.2)
      (dropUser i { w with ctrs := ctrs }) := by
    unfold sealWhole
    simp only [hb.te]
    rw [counted, user, half, Option.getD_some, hx, wrote, blocks]
  have result : userResult { w with ctrs := ctrs } i = le 1 i ++ zeros 3 ++ le 4 c.nextOp := by
    have own : tget {} (setUser i x.2 s1).users i = x.2 := tget_tset_same ..
    exact congrArg (fun u : User => le 1 i ++ zeros 3 ++ le 4 u.op) own |>.trans (by rw [op])
  rw [iv, tag, result] at run
  exact ⟨ctrs, _, _, run⟩

/-! ### The obligation -/

theorem Began.freeUser {q e inp s t b} (hb : Began q e inp s t b) : freeUser b = Machine.freeUser s := by
  unfold Machine.freeUser
  rw [hb.opTab, hb.users]

/-- Settles O22: the body's checks pass, the input is read, and what then runs is the seal of one piece. -/
theorem gcmSealInOneCommandIsGcm : Obligations.GcmSealInOneCommandIsGcm := by
  intro q e rc inp s start
  dsimp only
  intro i own flags some_ most room user pays source dest reads writes
  obtain ⟨t, b, run, hb⟩ := takeCmd_begins (body := bodyGcmSeal) (inp := inp) start (by decide)
  have used : (s.key (opnd e 0 2)).state ≠ 0 := by
    obtain ⟨-, -, -, -, used, -⟩ := own
    exact used
  have left : (b.key (opnd e 0 2)).inv < invLimit := by
    rw [hb.key_eq]
    unfold invLimit
    omega
  have whole := bodyGcmSeal_whole (i := i) (rc := 0) (inp := inp) hb.te (tenant_check hb.toBeganCore own rfl) flags some_ most left
    (hb.freeUser.trans user) (by rw [hb.partOf, hb.access]; exact dest)
  rw [hb.reads pays source reads, hb.key_eq] at whole
  have read := hb.metered (s.ctx (s.queue q).ctx).part 5 (opnd e 20 4 + opnd e 16 4)
  generalize hc : b.metered (s.ctx (s.queue q).ctx).part 5 (opnd e 20 4 + opnd e 16 4) = c at whole read
  have key : c.key (opnd e 0 2) = s.key (opnd e 0 2) := read.key_eq _
  have payer : c.partOf t = (s.ctx (s.queue q).ctx).part := read.partOf
  have fits : MeterFits c (c.partOf t) 4 (opnd e 16 4) := by
    rw [payer]
    exact ((writes.other (by decide)).began read)
  obtain ⟨ctrs, users, ops, sealed⟩ := sealWhole_does (i := i) (inp := inp) read (c := c) rfl fits (by rw [key]; exact used) (by rw [key]; exact room)
  rw [key, payer, show c.nextOp = s.nextOp from read.nextOp, show c.keys = s.keys from read.keys] at sealed
  have charged := (read.metered (s.ctx (s.queue q).ctx).part 4 (opnd e 16 4)).bare
  subst hc
  obtain ⟨u, hu, completed, bare, emitted⟩ := hb.finishes (congrArg Host.Outcome.next (run.trans (whole.trans sealed))) rfl rfl rfl rfl rfl hb.now
  have keys : u.keys = _ := (congrArg State.keys bare :)
  have users_eq : u.users = users := (congrArg State.users bare :)
  have ops_eq : u.opTab = ops := (congrArg State.opTab bare :)
  refine ⟨u, hu, completed, emitted _ (List.mem_cons_self ..), ?_, ?_⟩
  · rw [State.key, keys]
    exact tget_tset_same ..
  · rw [bare, users_eq, ops_eq]
    exact congrArg (fun v : State => { v with
      keys := tset s.keys (opnd e 0 2) { s.key (opnd e 0 2) with inv := (s.key (opnd e 0 2)).inv + 1 },
      users := users, opTab := ops, nextOp := (s.nextOp + 1) % 2 ^ 32 }) charged

end Sys2Proof.Machine
end

section
/-! PROOF of O31. The end of a membership: its job, its keys, its exchanges and its record, one after another. -/

namespace Sys2Proof.Machine
open Sys2Proof Sys2Proof.Crypto

/-! ### The end of every exchange -/

/-- Ending exchanges leaves the link stations alone. -/
theorem each_endExch_link (part : Nat) (l : List Exch) (s : State) : (each l (fun x s => endExch part x s) s).link = s.link :=
  each_inv (fun u => u.link = s.link) l _ (fun x u h => by rw [endExch_only]; exact h) s rfl

/-- It retires keys and revives none. -/
theorem each_endExch_retired {part i : Nat} (l : List Exch) {s : State} (h : (s.key i).state = 6) :
    ((each l (fun x s => endExch part x s) s).key i).state = 6 :=
  each_inv (fun u => (u.key i).state = 6) l _ (fun x u h => endExch_six part i x u h) s h

theorem each_endExch_dom_other {part p : Nat} (l : List Exch) (s : State) (h : p ≠ part) :
    (each l (fun x s => endExch part x s) s).dom p = s.dom p :=
  each_inv (fun u => u.dom p = s.dom p) l _ (fun x u g => (endExch_dom part p x u h).trans g) s rfl

/-! ### The retirement of a domain's slots -/

theorem each_retire_link (l : List Nat) (limit : Nat) (s : State) : (each l (fun i s => retireSlot i limit s) s).link = s.link := by
  rw [each_only_keys]

theorem each_retire_dom (l : List Nat) (limit : Nat) (s : State) (p : Nat) : (each l (fun i s => retireSlot i limit s) s).dom p = s.dom p := by
  rw [each_only_keys]
  rfl

/-! ### The obligation -/

/-- A job that was bound becomes Draining (05 Table 5.1). -/
def drainJob (j : Job) : Job := if j.state = 1 then { j with state := 2, armed := none } else j

/-- The slots that a membership holds: the job key's, the checkpoint key's and the pairwise keys'. -/
def domSlots (d : Dom) : List Nat := [d.jobSlot, d.ckptSlot] ++ d.pairs.map (·.2)

theorem mem_domSlots {d : Dom} {i : Nat} (h : i = d.jobSlot ∨ i = d.ckptSlot ∨ ∃ dev, (dev, i) ∈ d.pairs) : i ∈ domSlots d := by
  obtain rfl | rfl | ⟨dev, pair⟩ := h
  · simp [domSlots]
  · simp [domSlots]
  · exact List.mem_append_right _ (List.mem_map.mpr ⟨(dev, i), pair, rfl⟩)

/-- The state before the membership's own record is closed. -/
def membershipCleared (part : Nat) (s : State) : State :=
  each (s.dom part).exchs (fun x s => endExch part x s)
    (each (domSlots (s.dom part)) (fun i s => retireSlot i (Config.ms 2) s) (onJobs part drainJob s))

theorem membershipCleared_link (part : Nat) (s : State) : (membershipCleared part s).link = (onJobs part drainJob s).link :=
  (each_endExch_link ..).trans (each_retire_link ..)

/-- Settles O31, by what each of its four stages does and leaves alone. -/
theorem endingAMembershipRetiresItsKeysAndJobs : Obligations.EndingAMembershipRetiresItsKeysAndJobs := by
  intro part state s t
  have own : t.dom part = _ := dom_onDom part _ (membershipCleared part s)
  refine ⟨by rw [own], by rw [own], by rw [own], by rw [own], fun i held used => ?_, fun st link bound => ?_, fun p other => ?_⟩
  · refine each_endExch_retired _ (retire_each _ _ i _ (.inr ⟨mem_domSlots held, ?_⟩))
    rw [onJobs_key]
    exact used
  · have at_ : jobOf t st part = drainJob (jobOf s st part) := by
      have kept : jobOf t st part = jobOf (onJobs part drainJob s) st part :=
        congrArg (fun l => tget ({} : Job) (tget ({} : LinkSt) l st).jobs part) (membershipCleared_link part s)
      rw [kept, onJobs, onJobs_at _ _ _ _ linkIds_nodup, if_pos link]
    rw [at_, drainJob, if_pos bound]
  · calc t.dom p = (membershipCleared part s).dom p := dom_onDom_other _ _ _ _ other
      _ = (onJobs part drainJob s).dom p := (each_endExch_dom_other _ _ other).trans (each_retire_dom ..)
      _ = s.dom p := onJobs_dom ..

end Sys2Proof.Machine
end

section
/-! PROOF of O32. The rows of the domain messages gather their fragments as `withMail` does. -/

namespace Sys2Proof.Machine
open Sys2Proof Sys2Proof.Crypto

/-- Every row of a domain message gathers its fragments under its own type, and hands a whole message to what it does. -/
theorem mailRow_gathers : ∀ r ∈ mailRows, ∃ k : Nat → BitVec 128 → Bytes → Nat → Bytes → State → State,
    ∀ part hdr body s, exec (r.2 part hdr body) s = .next (withMail r.1 part hdr body (k part hdr body) s) := by
  intro r hr
  simp only [mailRows, List.mem_cons, List.not_mem_nil, or_false] at hr
  rcases hr with rfl | rfl | rfl | rfl | rfl | rfl | rfl | rfl | rfl | rfl | rfl | rfl | rfl | rfl | rfl | rfl | rfl | rfl | rfl | rfl | rfl | rfl |
    rfl | rfl | rfl | rfl <;> exact ⟨_, fun _ _ _ _ => rfl⟩

/-- Settles O32: a row is `withMail`, whose outcome a header decides by its fit, its place in the message and its length. -/
theorem domainMailIsGatheredInOrder : Obligations.DomainMailIsGatheredInOrder := by
  intro r hr part hdr body s
  obtain ⟨k, gathers⟩ := mailRow_gathers r hr
  rw [gathers]
  refine ⟨fun unfit => ?_, fun fits next more => ?_, fun fits misplaced => ?_, fun fits last room unclean => ?_⟩
  · rw [withMail_unfit unfit]
  · rw [withMail_fits fits, if_neg (by omega), if_pos more]
  · rw [withMail_fits fits, if_pos misplaced]
  · rw [withMail_fits fits, if_neg (by omega), if_neg (by omega), unclean, if_neg Bool.false_ne_true]

end Sys2Proof.Machine
end

section
/-! PROOF of O26. The start of a purge, its confirmations, and the confirmations of a swap. -/

namespace Sys2Proof.Machine
open Sys2Proof Sys2Proof.Crypto

/-! ### A purge -/

/-- A slot whose halves are to go, each to be confirmed by every station that may hold it (06 R204). -/
def KeySlot.purged (k : KeySlot) (which : Nat) : KeySlot :=
  { k with
    purging := which
    waitPurge := (purgedGens { k with purging := which }).flatMap fun g => (holders k.cls).map fun st => (st, g) }

theorem startPurge_waits {slot which : Nat} {s : State} (wait : ((s.key slot).purged which).waitPurge ≠ []) :
    startPurge slot which s = s.onKey slot (·.purged which) := by
  have kept : ((s.onKey slot (·.purged which)).key slot).waitPurge.isEmpty = false := by
    rw [key_onKey]
    exact List.isEmpty_eq_false_iff.mpr wait
  exact if_neg (Bool.eq_false_iff.mp kept)

section
variable {slot : Nat} {s : State} (retiring : (s.key slot).state = 6) (idle : (s.key slot).purging = 0) (stays : removing s slot = false)
include idle stays

theorem drainComplete_of_drained (retiring : (s.key slot).state = 6) (drained : slotDrained s slot = true) :
    drainComplete slot s = startPurge slot 1 s := by
  simp [drainComplete, retiring, idle, stays, drained]

theorem drainTimeout_of_over (passed : drainOver s slot = true) :
    drainTimeout slot s = startPurge slot 1 (each (holders (s.key slot).cls) (fun st b => drainCut st slot b) s) := by
  simp [drainTimeout, passed, idle, stays]

end

theorem drainComplete_of_busy {slot : Nat} {s : State} (busy : slotDrained s slot = false) : drainComplete slot s = s := by
  simp [drainComplete, busy]

/-! ### Confirmations -/

/-- What a station's confirmation takes away: its cache entry, and its name among those that are waited for. -/
def purgeAcked (slot st gen : Nat) (s : State) : State :=
  (s.onPort st fun p => { p with keys := without p.keys (slot, gen) }).onKey slot fun k => { k with waitPurge := without k.waitPurge (st, gen) }

theorem key_onPort (u i : Nat) (f : Port → Port) (s : State) : (s.onPort u f).key i = s.key i := by
  rw [onPort_frame]
  rfl

theorem purgeAcked_key (slot st gen : Nat) (s : State) :
    (purgeAcked slot st gen s).key slot = { s.key slot with waitPurge := without (s.key slot).waitPurge (st, gen) } := by
  rw [purgeAcked, key_onKey, key_onPort]

theorem purgeConfirm_of_waited {slot st : Nat} {gen : BitVec 32} {s : State} (waited : (s.key slot).waitPurge.contains (st, gen.toNat) = true)
    (free : (s.port st).keys.contains (slot, gen.toNat) = true → keyPinned s st (slot, gen.toNat) = false) :
    purgeConfirm slot st gen s = if without (s.key slot).waitPurge (st, gen.toNat) = []
      then afterDestroy slot (overwrite slot (purgeAcked slot st gen.toNat s)) else purgeAcked slot st gen.toNat s := by
  have acts : (!(s.key slot).waitPurge.contains (st, gen.toNat) ||
      ((s.port st).keys.contains (slot, gen.toNat) && keyPinned s st (slot, gen.toNat))) = false := by
    rw [waited, Bool.not_true, Bool.false_or, Bool.and_eq_false_imp]
    exact free
  have left : ((purgeAcked slot st gen.toNat s).key slot).waitPurge = without (s.key slot).waitPurge (st, gen.toNat) := by rw [purgeAcked_key]
  simp only [← left, ← List.isEmpty_iff]
  rw [purgeConfirm, acts, if_neg Bool.false_ne_true]
  rfl

/-- A station has confirmed the swap of a Draining slot. -/
def swapAcked (slot st : Nat) (s : State) : State := s.onKey slot fun k => { k with waitSwap := without k.waitSwap st }

theorem swapAcked_key (slot st : Nat) (s : State) :
    (swapAcked slot st s).key slot = { s.key slot with waitSwap := without (s.key slot).waitSwap st } := key_onKey ..

theorem swapConfirm_of_waited {slot st : Nat} {s : State} (draining : (s.key slot).state = 5) (waited : (s.key slot).waitSwap.contains st = true) :
    swapConfirm slot st s = tryOldHalf slot (swapAcked slot st s) := by
  have acts : ¬((s.key slot).state ≠ 5 ∨ (!(s.key slot).waitSwap.contains st) = true) := by
    rw [draining, waited]
    decide
  exact if_neg acts

theorem tryOldHalf_of_waiting {slot : Nat} {s : State} (waits : (s.key slot).waitSwap ≠ []) : tryOldHalf slot s = s := by
  simp [tryOldHalf, waits]

theorem tryOldHalf_of_drained {slot : Nat} {s : State} (draining : (s.key slot).state = 5) (idle : (s.key slot).purging = 0)
    (all : (s.key slot).waitSwap = []) (drained : oldHalfDrained s slot = true) : tryOldHalf slot s = startPurge slot 2 s := by
  simp [tryOldHalf, draining, idle, all, drained]

/-! ### The obligation -/

/-- Settles O26, by what the start of a purge leaves and what each confirmation takes away. -/
theorem slotsDrainPurgeAndSwap : Obligations.SlotsDrainPurgeAndSwap := by
  refine ⟨fun slot s retiring idle stays wait => ⟨fun drained => ?_, fun busy => ?_, fun at_ due passed => ?_⟩,
    fun slot st gen s waited free => ⟨fun last => ?_, fun more => ?_⟩, fun slot st s draining waited more => ?_,
    fun slot st s draining waited last idle drained => ?_⟩
  · refine ⟨_, congrArg Host.Outcome.next ((drainComplete_of_drained idle stays retiring drained).trans (startPurge_waits wait)), key_onKey .., rfl,
      fun i other => key_onKey_other _ _ _ _ other⟩
  · exact congrArg Host.Outcome.next (drainComplete_of_busy busy)
  · refine congrArg Host.Outcome.next (drainTimeout_of_over idle stays ?_)
    simp [drainOver, retiring, due, passed]
  · exact congrArg Host.Outcome.next ((purgeConfirm_of_waited waited free).trans (if_pos last))
  · exact ⟨_, congrArg Host.Outcome.next ((purgeConfirm_of_waited waited free).trans (if_neg more)), rfl, purgeAcked_key ..⟩
  · have waits : ((swapAcked slot st s).key slot).waitSwap ≠ [] := by
      rw [swapAcked_key]
      exact more
    exact ⟨_, congrArg Host.Outcome.next ((swapConfirm_of_waited draining waited).trans (tryOldHalf_of_waiting waits)), swapAcked_key ..,
      fun i other => key_onKey_other _ _ _ _ other, rfl⟩
  · have own : (swapAcked slot st s).key slot = _ := swapAcked_key slot st s
    exact congrArg Host.Outcome.next ((swapConfirm_of_waited draining waited).trans
      (tryOldHalf_of_drained (by rw [← draining, own]) (by rw [← idle, own]) (by rw [← last, own]) drained))

end Sys2Proof.Machine
end

section
/-! PROOF of O33. What each message, beat and timeout of a domain does at a member in force. -/

namespace Sys2Proof.Machine
open Sys2Proof Sys2Proof.Crypto

/-! ### Beats (07 R242) -/

section
variable {part peer : Nat} {s : State}

theorem beatSend_due (member : (s.dom part).state = 4) (due : (s.dom part).beatTx + Config.us 25 ≤ s.now) :
    beatSend part s = mailAll part (neighbours (s.dom part)) 0x10 [] (s.onDom part fun d => { d with beatTx := s.now }) := if_pos ⟨member, due⟩

theorem beatSend_early (early : s.now < (s.dom part).beatTx + Config.us 25) : beatSend part s = s :=
  if_neg fun h => Nat.not_le.mpr early h.2

theorem beatArrives_neighbour {src : Nat} {body : Bytes} (member : (s.dom part).state = 4) (near : (neighbours (s.dom part)).contains src = true) :
    beatArrives part src body s = s.onDom part fun d => { d with beatRx := tset d.beatRx src s.now } := if_pos ⟨member, near⟩

section
variable {t : Nat} (running : s.keepStopped = false) (heard : tfind (s.dom part).beatRx peer = some t)
include running heard

theorem beatTimeout_heard : beatTimeout part peer s = if t + Config.us 100 ≤ s.now then declareLost part peer 2 s else s := by
  rw [beatTimeout, running, if_neg Bool.false_ne_true, heard]

end

end

/-! ### Messages of the tree (07 R243 to R247) -/

section
variable {part src : Nat} {w : Bytes} {s : State} (member : (s.dom part).state = 4)
include member

section
variable (gen : ofLe (cut 4 2 w) = (memberOf (s.dom part) (ofLe (cut 0 3 w))).gen) (live : (memberOf (s.dom part) (ofLe (cut 0 3 w))).live = true)
include gen live

/-- A report of a live member at its present generation. -/
theorem lossReport_of_live : lossReport part src w s =
    if isAnchor (s.dom part) then anchorLoss part (ofLe (cut 0 3 w)) (ofLe (cut 3 1 w)) s
    else if (s.dom part).own = (s.dom part).deputy ∧ ofLe (cut 0 3 w) = (s.dom part).anchor then takeover part s else s := by
  refine if_neg ?_
  rintro (other | stale | dead)
  · exact other member
  · exact stale gen
  · rw [live] at dead
    cases dead

end

theorem memberLost_of_member : memberLost part src w s = applyLost part (ofLe (cut 0 3 w)) (ofLe (cut 8 2 w)) (ofLe (cut 10 3 w))
    (mailAll part (downTree (s.dom part)) 0x12 w s) := if_neg fun h => h member

theorem markRequest_of_anchor (anchor : isAnchor (s.dom part) = true) : markRequest part src w s = anchorMark part s := if_pos ⟨member, anchor⟩

theorem markArrives_of_member : markArrives part src w s = applyMark part (ofLe (cut 0 2 w)) (mailAll part (downTree (s.dom part)) 0x14 w s) :=
  if_pos member

theorem adoptArrives_of_record (record : (recOf w).any (fun r => recClean r && decide (r.type ≤ 4)) = true) :
    adoptArrives part src w s = s.onDom part fun d => { d with inbox := d.inbox ++ [1 :: w] } := by
  refine if_neg ?_
  rintro (other | bad)
  · exact other member
  · rw [record] at bad
    cases bad

/-- The new anchor and deputy that a TAKEOVER names. -/
def Dom.taken (d : Dom) (anchor deputy : Nat) : Dom :=
  { d with anchor := anchor, deputy := deputy, parent := if d.parent = d.anchor ∧ anchor ≠ d.anchor then anchor else d.parent }

theorem takeoverArrives_of_other (other : ofLe (cut 0 3 w) ≠ (s.dom part).own) : takeoverArrives part src w s =
    (if ofLe (cut 0 3 w) = (s.dom part).anchor then mailAll part (downTree (s.dom part)) 0x1B w s
      else abortRotation part (mailAll part (downTree (s.dom part)) 0x1B w s)).onDom part
      (·.taken (ofLe (cut 0 3 w)) (ofLe (cut 3 3 w))) := if_neg fun h => h.elim (· member) other

theorem leaveArrives_of_anchor (anchor : isAnchor (s.dom part) = true) : leaveArrives part src w s = anchorLoss part src 5 s :=
  (if_neg fun h => h member).trans (if_pos anchor)

/-- A child that leaves takes its pairwise key, its beats and its part in a rotation with it. -/
theorem leaveArrives_of_child (below : isAnchor (s.dom part) = false) (other : src ≠ (s.dom part).anchor)
    (child : (s.dom part).kids.contains src = true) {i : Nat} (pair : tfind (s.dom part).pairs src = some i) :
    leaveArrives part src w s = confirmUp part ((retireSlot i (Config.ms 2) s).onDom part fun d => { d with
      kids := without d.kids src, pairs := tdel d.pairs src, beatRx := tdel d.beatRx src, rotConf := tdel d.rotConf src }) := by
  rw [leaveArrives, if_neg fun h => h member, below, if_neg Bool.false_ne_true, if_neg fun h => other h.1, if_pos child, pair]

theorem domainEnds_of_member : domainEnds part src w s = endMembership part 6 (mailAll part (downTree (s.dom part)) 0x1E [] s) :=
  if_neg fun h => h member

/-- The member that six bytes of a TABLE_SYNC describe. -/
def syncedMember (r : Bytes) : Member := { gen := ofLe (cut 3 2 r), live := ofLe (cut 5 1 r) == 1 }

theorem tableSync_of_deputy (anchor : src = (s.dom part).anchor) (deputy : (s.dom part).own = (s.dom part).deputy) :
    tableSync part src w s = each (blocks 6 w) (fun r s => setMember part (ofLe (cut 0 3 r)) (syncedMember r) s) s :=
  if_neg fun h => h.elim (· member) fun h => h.elim (· anchor) (· deputy)

end

/-- Members noted one after another change the domain's record alone, and stand in its table in that order. -/
theorem each_setMember (part : Nat) (l : List Bytes) (s : State) :
    let t := each l (fun r s => setMember part (ofLe (cut 0 3 r)) (syncedMember r) s) s
    t = { s with doms := t.doms } ∧ (t.dom part).members = l.foldl (fun t r => tset t (ofLe (cut 0 3 r)) (syncedMember r)) (s.dom part).members := by
  induction l generalizing s with
  | nil => exact ⟨rfl, rfl⟩
  | cons r l ih =>
    obtain ⟨only, members⟩ := ih (setMember part (ofLe (cut 0 3 r)) (syncedMember r) s)
    refine ⟨only, members.trans ?_⟩
    rw [setMember, dom_onDom]
    rfl

/-! ### Windows and formation (07 R234, R247) -/

theorem rejoinExpiry_of_window {part dev t : Nat} {s : State} (window : tfind (s.dom part).rejoinBy dev = some t) : rejoinExpiry part dev s =
    if s.now < t then s else lossRotation part (s.onDom part fun d => { d with rejoinBy := tdel d.rejoinBy dev }) := by
  rw [rejoinExpiry, window]

theorem exec_formationTimeout {part peer : Nat} {s : State} (live : s.keepLive = true) (domain : peer ≠ noDev) :
    exec (.formationTimeout part peer) s = .next (formationTimeout part peer s) := by
  change Host.Outcome.next _ = _
  rw [live, Bool.not_true, if_neg Bool.false_ne_true, if_neg domain]

theorem formationTimeout_of_forming {part peer t : Nat} {s : State} (forming : (s.dom part).formAt = some t) : formationTimeout part peer s =
    if t + Config.ms (policyFor (s.dom part).policy (s.dom part).digest).formMs ≤ s.now then formCommit part s else s := by
  simp only [formationTimeout, forming]

/-- An exchange whose next record is late. -/
def lateExch (d : Dom) (peer now : Nat) (x : Exch) : Bool :=
  x.peer == peer && (if x.parent then decide (x.phase < 3) else x.phase == 1 || x.phase == 3) &&
    decide (x.lastAt + Config.ms (policyFor d.policy d.digest).formMs ≤ now)

theorem formationTimeout_of_late {part peer : Nat} {s : State} {x : Exch} (formed : (s.dom part).formAt = none)
    (late : (s.dom part).exchs.find? (lateExch (s.dom part) peer s.now) = some x) :
    formationTimeout part peer s = if x.parent ∧ (s.dom part).state = 4 ∧ (x.inband ∨ (s.dom part).outq.isEmpty)
      then offerTo part peer x.inband (refuseExch part x 0x0B s) else refuseExch part x 0x0B s := by
  unfold lateExch at late
  simp only [formationTimeout, formed, late]

/-! ### The obligation -/

/-- The row of a domain message acts on the whole message, on the state that has noted it. -/
theorem next_mail {type part : Nat} {hdr : BitVec 128} {body w : Bytes} {s : State} {k : Nat → Bytes → State → State} {t : State}
    (h : Arrives type part hdr body s w) (does : k (mailSender hdr) w (mailTaken part hdr s) = t) :
    (Host.Outcome.next (withMail type part hdr body k s) : Res) = .next t := by
  rw [withMail_arrives h, does]

/-- Settles O33, row by row: a message by what it does once it has come whole, a timeout by its limit. -/
theorem domainsKeepTheirMembers : Obligations.DomainsKeepTheirMembers := by
  refine ⟨fun part s member => ⟨fun due => ?_, fun early => ?_⟩, fun part hdr body s w h member near => ?_, fun part peer s stopped => ?_,
    fun part peer s t running heard => ⟨fun due => ?_, fun early => ?_⟩, fun part hdr body s w h member gen live => ⟨fun anchor => ?_, fun below deputy is => ?_⟩,
    fun part hdr body s w h member => ?_, fun part hdr body s w h member anchor => ?_, fun part hdr body s w h member => ?_,
    fun part hdr body s w h member record => ?_, fun part hdr body s w h member other => ?_, fun part hdr body s w h member anchor deputy => ?_,
    fun part hdr body s w h member => ⟨fun anchor => ?_, fun below other child i pair => ?_⟩, fun part hdr body s w h member => ?_,
    fun part dev s t window => ⟨fun early => ?_, fun due => ?_⟩, fun part peer s t live domain forming => ⟨fun due => ?_, fun early => ?_⟩,
    fun part peer s x live domain formed late => ?_⟩
  · exact congrArg Host.Outcome.next (beatSend_due member due)
  · exact congrArg Host.Outcome.next (beatSend_early early)
  · exact ⟨_, next_mail h (beatArrives_neighbour member near), dom_onDom .., rfl⟩
  · exact congrArg Host.Outcome.next (beatTimeout_of_stopped stopped part peer)
  · exact congrArg Host.Outcome.next ((beatTimeout_heard running heard).trans (if_pos due))
  · exact congrArg Host.Outcome.next ((beatTimeout_heard running heard).trans (if_neg (Nat.not_le.mpr early)))
  · exact next_mail h ((lossReport_of_live member gen live).trans (if_pos anchor))
  · exact next_mail h ((lossReport_of_live member gen live).trans ((if_neg (Bool.eq_false_iff.mp below)).trans (if_pos ⟨deputy, is⟩)))
  · exact next_mail h (memberLost_of_member member)
  · exact next_mail h (markRequest_of_anchor member anchor)
  · exact next_mail h (markArrives_of_member member)
  · exact ⟨_, next_mail h (adoptArrives_of_record member record), dom_onDom .., rfl⟩
  · refine ⟨_, next_mail h (takeoverArrives_of_other member other), ?_, ?_, rfl⟩
    · rw [dom_onDom]
      rfl
    · rw [dom_onDom]
      rfl
  · exact ⟨_, next_mail h (tableSync_of_deputy member anchor deputy), each_setMember ..⟩
  · exact next_mail h (leaveArrives_of_anchor member anchor)
  · exact next_mail h (leaveArrives_of_child member below other child pair)
  · exact next_mail h (domainEnds_of_member member)
  · exact congrArg Host.Outcome.next ((rejoinExpiry_of_window window).trans (if_pos early))
  · exact congrArg Host.Outcome.next ((rejoinExpiry_of_window window).trans (if_neg (Nat.not_lt.mpr due)))
  · exact (exec_formationTimeout live domain).trans (congrArg Host.Outcome.next ((formationTimeout_of_forming forming).trans (if_pos due)))
  · exact (exec_formationTimeout live domain).trans
      (congrArg Host.Outcome.next ((formationTimeout_of_forming forming).trans (if_neg (Nat.not_le.mpr early))))
  · exact (exec_formationTimeout live domain).trans (congrArg Host.Outcome.next (formationTimeout_of_late formed late))

end Sys2Proof.Machine
end

section
/-! PROOF of O34. The rotation of a job key: its start, its messages, its decision and its commit. -/

namespace Sys2Proof.Machine
open Sys2Proof Sys2Proof.Crypto

theorem selJob_one : selJob 1 = true := by decide
theorem selCkpt_one : selCkpt 1 = false := by decide

/-- A test that all pass takes nothing out of a list. -/
theorem filter_all {α : Type} (l : List α) : (l.filter fun _ => true) = l := List.filter_eq_self.mpr fun _ _ => rfl

/-! ### The start (06 R201, 07 R248) -/

section
variable (part : Nat) (job ckpt : BitVec 256) (s : State)

theorem armKeys_job_key : (armKeys part 1 job ckpt s).key (s.dom part).jobSlot =
    { s.key (s.dom part).jobSlot with state := 3, pend := job, pendIs := 1 } := by
  simp only [armKeys, selJob_one, selCkpt_one, if_true, Bool.false_eq_true, if_false]
  rw [onJobs_key, armSlot, key_onKey, writeNext]

theorem armKeys_job_dom (p : Nat) : (armKeys part 1 job ckpt s).dom p = s.dom p := by
  simp only [armKeys, selJob_one, selCkpt_one, if_true, Bool.false_eq_true, if_false]
  rw [onJobs_dom]
  rfl

end

/-- A rotation of generation `g` and selection `sel` is under way from `now` on. -/
def Dom.rotating (d : Dom) (g sel now : Nat) : Dom := { d with rot := some (g, sel), rotAt := now, rotConf := [], rotAgain := 0 }

/-- The anchor of a member in force, with nothing under way and its slots ready, draws a key, arms it and tells its children. -/
theorem draw0_fst (s : State) : (draw0 s).1 = (drbgGen s.keep.drbg0).1 := by
  obtain ⟨k, drawn⟩ := draw0_eq s
  rw [drawn]

theorem draw0_key (i : Nat) (s : State) : (draw0 s).2.key i = s.key i := by
  obtain ⟨k, drawn⟩ := draw0_eq s
  generalize drbgGen s.keep.drbg0 = g at drawn
  rw [drawn]
  rfl

theorem draw0_dom (i : Nat) (s : State) : (draw0 s).2.dom i = s.dom i := by
  obtain ⟨k, drawn⟩ := draw0_eq s
  generalize drbgGen s.keep.drbg0 = g at drawn
  rw [drawn]
  rfl

theorem draw0_now (s : State) : (draw0 s).2.now = s.now := by
  obtain ⟨k, drawn⟩ := draw0_eq s
  generalize drbgGen s.keep.drbg0 = g at drawn
  exact congrArg (·.2.now) drawn

/-- The anchor's start of a rotation of the job key, over the draw of the new key. -/
theorem startRotation_draws {part : Nat} {s : State} {x : BitVec 256 × State} (late : Bool) (member : (s.dom part).state = 4)
    (anchor : isAnchor (s.dom part) = true) (idle : (s.dom part).rot = none) (fresh : (s.dom part).rotRetry = none)
    (ready : rotReady s (s.dom part) 1 = true) (verified : s.keep.verifyBad = false) (drawn : draw0 s = x) :
    startRotation part 1 late s = confirmUp part (prepareAll part (armKeys part 1 x.1 0
      (x.2.onDom part (·.rotating ((x.2.key (s.dom part).jobSlot).gen + 1) 1 x.2.now)))) := by
  have mine : ¬((s.dom part).state ≠ 4 ∨ (!isAnchor (s.dom part)) = true) := by
    rw [member, anchor]
    decide
  rw [startRotation, if_neg (show ¬ 1 % 4 = 0 by decide)]
  simp only [show 1 % 4 = 1 by decide, if_neg mine, idle, fresh, ready, verified, selJob_one, selCkpt_one, Bool.not_true, if_true,
    Bool.false_eq_true, if_false, drawn, Dom.rotating]

theorem startRotation_job {part : Nat} {s : State} (late : Bool) (member : (s.dom part).state = 4) (anchor : isAnchor (s.dom part) = true)
    (idle : (s.dom part).rot = none) (fresh : (s.dom part).rotRetry = none) (ready : rotReady s (s.dom part) 1 = true)
    (verified : s.keep.verifyBad = false) :
    ∃ u, startRotation part 1 late s = confirmUp part (prepareAll part u) ∧
      u.key (s.dom part).jobSlot = { s.key (s.dom part).jobSlot with state := 3, pend := (drbgGen s.keep.drbg0).1, pendIs := 1 } ∧
      u.dom part = (s.dom part).rotating ((s.key (s.dom part).jobSlot).gen + 1) 1 s.now := by
  have bits := draw0_fst s
  have key := fun i => draw0_key i s
  have dom := draw0_dom part s
  have now := draw0_now s
  generalize drawn : draw0 s = x at bits key dom now
  rw [← bits]
  have own : (x.2.onDom part (·.rotating ((x.2.key (s.dom part).jobSlot).gen + 1) 1 x.2.now)).dom part =
      (s.dom part).rotating ((s.key (s.dom part).jobSlot).gen + 1) 1 s.now := (dom_onDom ..).trans (by rw [dom, key, now])
  refine ⟨_, startRotation_draws late member anchor idle fresh ready verified drawn, ?_, (armKeys_job_dom ..).trans own⟩
  have armed := armKeys_job_key part x.1 0 (x.2.onDom part (·.rotating ((x.2.key (s.dom part).jobSlot).gen + 1) 1 x.2.now))
  rw [own, Dom.rotating] at armed
  rw [armed, onDom_key, key]

theorem rotateRequest_of_other {part src : Nat} {w : Bytes} {s : State} (four : ofLe (cut 0 1 w) ≠ 4) (seven : ofLe (cut 0 1 w) ≠ 7) :
    rotateRequest part src w s = startRotation part (ofLe (cut 1 1 w)) false s := if_neg fun h => h.elim four seven

theorem rotateRequest_of_loss {part src : Nat} {w : Bytes} {s : State} (loss : ofLe (cut 0 1 w) = 4 ∨ ofLe (cut 0 1 w) = 7)
    (anchor : isAnchor (s.dom part) = true) (member : (s.dom part).state = 4) : rotateRequest part src w s = lossRotation part s :=
  (if_pos loss).trans (if_pos ⟨anchor, member⟩)

/-! ### At a member -/

/-- A member that is no anchor takes a job key that unwraps, is of the next generation, and finds its slot Active. -/
theorem rotatePrepare_job {part src i : Nat} {w jb : Bytes} {s : State} (one : ofLe (cut 4 1 w) = 1) (member : (s.dom part).state = 4)
    (below : isAnchor (s.dom part) = false) (none : (s.dom part).rot = none) (pair : tfind (s.dom part).pairs src = some i)
    (unwraps : kwUnwrap (s.key i).cur (cut 8 40 w) = some jb) (next : ofLe (cut 0 4 w) = (s.key (s.dom part).jobSlot).gen + 1)
    (ready : slotReady s (s.dom part).jobSlot = true) (verified : s.keep.verifyBad = false) :
    rotatePrepare part src w s = confirmUp part (prepareAll part (armKeys part 1 (keyOf jb) (keyOf [])
      (s.onDom part fun d => { d with rot := some (ofLe (cut 0 4 w), 1), rotAt := s.now, rotConf := [], rotSent := false }))) := by
  have mine : ¬((s.dom part).state ≠ 4 ∨ isAnchor (s.dom part) = true ∨ (s.dom part).rot.isSome = true ∨ 1 = 0 ∨ 3 < 1) := by
    rw [member, below, none]
    decide
  simp only [rotatePrepare, one, if_neg mine, pair, selJob_one, selCkpt_one, if_true, Bool.false_eq_true, if_false, unwraps, next, ready,
    verified, ne_eq, not_true_eq_false, Bool.not_true, and_false, false_and, or_self]

/-- A confirmation of a job key is counted when its check value is this side's own. -/
theorem rotateConfirm_job {part src g : Nat} {w : Bytes} {s : State} (rot : (s.dom part).rot = some (g, 1)) (same : ofLe (cut 0 4 w) = g)
    (child : (downTree (s.dom part)).contains src = true) (noCkpt : cut 16 8 w = zeros 8) :
    rotateConfirm part src w s = if cut 8 8 w = kcv (s.key (s.dom part).jobSlot).pend
      then confirmUp part (s.onDom part fun d => { d with rotConf := tset d.rotConf src (ofLe (cut 4 3 w)) }) else s := by
  rw [rotateConfirm_one part src w s g rot]
  simp only [same, child, noCkpt, ne_eq, not_true_eq_false, Bool.not_true, Bool.false_eq_true, false_or, or_false, ite_not]

theorem rotateCommitArrives_of_member {part src : Nat} {w : Bytes} {s : State} (member : (s.dom part).state = 4) :
    rotateCommitArrives part src w s = (let u := mailAll part (downTree (s.dom part)) 0x18 w s
      if (s.dom part).rot.map (·.1) = some (ofLe (cut 0 4 w)) then commitRotation part u else u) := if_pos member

theorem rotateAbort_of_same {part src : Nat} {w : Bytes} {s : State} (member : (s.dom part).state = 4)
    (same : (s.dom part).rot.map (·.1) = some (ofLe (cut 0 4 w))) :
    rotateAbort part src w s = abortRotation part (mailAll part (downTree (s.dom part)) 0x19 w s) :=
  (if_neg fun h => h member).trans (if_pos same)

/-! ### The anchor's decision (07 R248) -/

section
variable {part g sel : Nat} {s : State} (rot : (s.dom part).rot = some (g, sel))
include rot

theorem rotationDecide_early (early : s.now < (s.dom part).rotAt + Config.ms 20) : rotationDecide part s = s := by
  simp only [rotationDecide, rot, if_pos (Or.inr early)]

variable (anchor : isAnchor (s.dom part) = true) (due : (s.dom part).rotAt + Config.ms 20 ≤ s.now)
include anchor due

theorem rotationDecide_missing (missing : liveCount (s.dom part) < 16 * (liveCount (s.dom part) - (((s.dom part).rotConf.map (·.2)).sum + 1))) :
    rotationDecide part s = anchorAbort part (Config.ms 10) s := by
  have decides : ¬((!isAnchor (s.dom part)) = true ∨ s.now < (s.dom part).rotAt + Config.ms 20) := by
    rw [anchor]
    exact fun h => h.elim (by decide) (Nat.not_lt.mpr due)
  simp only [rotationDecide, rot, if_neg decides, if_pos missing]

/-- No child is missing: every child is told, and no member is lost. -/
theorem rotationDecide_all (few : 16 * (liveCount (s.dom part) - (((s.dom part).rotConf.map (·.2)).sum + 1)) ≤ liveCount (s.dom part))
    (all : ∀ k ∈ (s.dom part).kids, (tfind (s.dom part).rotConf k).isSome = true) :
    rotationDecide part s = commitRotation part (mailAll part (s.dom part).kids 0x18 (le 4 g ++ zeros 4) s) := by
  have decides : ¬((!isAnchor (s.dom part)) = true ∨ s.now < (s.dom part).rotAt + Config.ms 20) := by
    rw [anchor]
    exact fun h => h.elim (by decide) (Nat.not_lt.mpr due)
  have tops : ((s.dom part).kids.filter fun k => (tfind (s.dom part).rotConf k).isNone) = [] :=
    List.filter_eq_nil_iff.mpr fun k hk => by
      rw [Option.isNone_iff_eq_none, ← Option.not_isSome_iff_eq_none, Classical.not_not]
      exact all k hk
  simp only [rotationDecide, rot, if_neg decides, if_neg (Nat.not_lt.mpr few), tops, List.contains_nil, Bool.not_false, filter_all,
    List.flatMap_nil]
  rfl

end

theorem rotationRetry_of_set {part at_ sel : Nat} {s : State} (set_ : (s.dom part).rotRetry = some (at_, sel)) : rotationRetry part s =
    if s.now < at_ then s else startRotation part sel false (s.onDom part fun d => { d with rotRetry := none }) := by
  rw [rotationRetry, set_]

/-! ### The commit -/

section
variable {part g : Nat} {s : State} (rot : (s.dom part).rot = some (g, 1)) (alone : rotateCmds s part = [])
include rot alone

theorem commitRotation_job : commitRotation part s = (commitSwap (s.dom part).jobSlot s).onDom part fun d =>
    { d with rot := none, rotConf := [], rotSent := false, askCommit := false, mark := 0 } := by
  simp only [commitRotation, rot, alone, selJob_one, selCkpt_one, if_true, Bool.false_eq_true, if_false]
  rfl

end

/-! ### The obligation -/

/-- Settles O34, row by row: what a rotation's start arms, what each message moves, what the decision and the commit leave. -/
theorem jobKeysRotate : Obligations.JobKeysRotate := by
  refine ⟨fun part hdr body s w h four seven => ⟨?_, fun one member anchor idle fresh ready verified => ?_⟩,
    fun part hdr body s w h loss anchor member => ?_, fun part hdr body s w i jb h one member below none pair unwraps next ready verified => ?_,
    fun part hdr body s w h g rot same child noCkpt => ⟨fun own => ?_, fun other => ?_⟩, fun part hdr body s w h member => ?_,
    fun part hdr body s w h member same => ?_,
    fun part s g sel rot => ⟨fun early => ?_, fun anchor due missing => ?_, fun anchor due few all => ?_⟩,
    fun part s at_ sel retry => ⟨fun early => ?_, fun due => ?_⟩, fun part s g rot alone => ⟨?_, ?_⟩⟩
  · exact next_mail h (rotateRequest_of_other four seven)
  · obtain ⟨u, started, key, dom⟩ := startRotation_job false member anchor idle fresh ready verified
    refine ⟨u, next_mail h ((rotateRequest_of_other four seven).trans ?_), key, dom⟩
    rw [one]
    exact started
  · exact next_mail h (rotateRequest_of_loss loss anchor member)
  · exact next_mail h (rotatePrepare_job one member below none pair unwraps next ready verified)
  · exact next_mail h ((rotateConfirm_job rot same child noCkpt).trans (if_pos own))
  · exact next_mail h ((rotateConfirm_job rot same child noCkpt).trans (if_neg other))
  · exact next_mail h (rotateCommitArrives_of_member member)
  · exact next_mail h (rotateAbort_of_same member same)
  · exact congrArg Host.Outcome.next (rotationDecide_early rot early)
  · exact congrArg Host.Outcome.next (rotationDecide_missing rot anchor due missing)
  · exact congrArg Host.Outcome.next (rotationDecide_all rot anchor due few all)
  · exact congrArg Host.Outcome.next ((rotationRetry_of_set retry).trans (if_pos early))
  · exact congrArg Host.Outcome.next ((rotationRetry_of_set retry).trans (if_neg (Nat.not_lt.mpr due)))
  · rw [commitRotation_job rot alone, onDom_key]
    exact key_onKey ..
  · rw [commitRotation_job rot alone, dom_onDom]
    rfl

end Sys2Proof.Machine
end

section
/-! PROOF of O35. The admission records: what each does when it fits its exchange, and what each check refuses. -/

namespace Sys2Proof.Machine
open Sys2Proof Sys2Proof.Crypto

/-- The row of an admission record runs on the record that waits for it. -/
theorem next_record {type part inband r s b u} {k : Bool → Rec → State → State} (h : RecordWaits type part inband r s b) (run : k inband r b = u) :
    (.next (withRecord type part k s) : Res) = .next u := congrArg Host.Outcome.next ((withRecord_waits h).trans run)

/-- Keeping a bundle's certificate authorities changes nothing else. -/
theorem keepCas_rest (c : Bytes) (s : State) : ∃ seen, keepCas c s = { s with keep := { s.keep with caSeen := seen } } := by
  unfold keepCas
  split
  · dsimp only
    split
    · exact ⟨_, rfl⟩
    · exact ⟨s.keep.caSeen, rfl⟩
  · exact ⟨s.keep.caSeen, rfl⟩

theorem keepCas_dom (c : Bytes) (s : State) (part : Nat) : (keepCas c s).dom part = s.dom part := by
  obtain ⟨seen, kept⟩ := keepCas_rest c s
  rw [kept]
  rfl

/-! ### The offer and the reply's exchange (07 R230, R232) -/

theorem makeReply_fields (type dom parent child bundlePart : Nat) (r : Rec) (inband : Bool) (s : State) :
    (makeReply type dom parent child bundlePart r inband s).1.num = r.num ∧ (makeReply type dom parent child bundlePart r inband s).1.peer = r.snd ∧
      (makeReply type dom parent child bundlePart r inband s).1.a1 = r.raw ∧
      (makeReply type dom parent child bundlePart r inband s).1.phase = 1 := by
  unfold makeReply
  generalize drawBytes 32 s = nonce
  dsimp only
  generalize p384Key nonce.2 = key
  generalize draw0 key.2 = seed
  generalize kemEncaps (cut 209 1568 r.body) (keyBytes seed.1) = kem
  generalize zeler bundlePart (sha384 r.raw) seed.2 = bundle
  exact ⟨rfl, rfl, rfl, rfl⟩

section
variable {part : Nat} {r : Rec} {s : State} (prepared : (s.dom part).state = 1)
include prepared

theorem takeOffer_fits (fits : offerReason (s.dom part) false r = 0) :
    let y := makeReply 2 (s.dom part).domain r.snd (s.dom part).own part r false (s.onDom part fun d => { d with state := 2, parent := r.snd })
    takeOffer part false r s = messageDone part 2 (outDom part y.1.a2 (putExch part y.1 y.2)) := by
  simp only [takeOffer, prepared, fits, sendRec, Bool.false_eq_true, if_false, ne_eq, not_true_eq_false]

theorem takeOffer_unfit (unfit : offerReason (s.dom part) false r ≠ 0) : takeOffer part false r s =
    messageFail part (refusalEvent part r.num (offerReason (s.dom part) false r) (outDom part (record 6 (s.dom part).domain (s.dom part).own r.snd
      r.num [BitVec.ofNat 8 (offerReason (s.dom part) false r), 0, 0, 0]) s)) := by
  simp only [takeOffer, prepared, if_pos unfit, Bool.false_eq_true, if_false, ne_eq, not_true_eq_false]

end

theorem parentKeys_peer (dom parent child : Nat) (r : Rec) (x : Exch) : (parentKeys dom parent child r x).peer = x.peer := rfl

/-! ### The parent, at a reply (07 R232, R233) -/

/-- The four reasons for which a record is not of the exchange it was found under do not hold. -/
theorem ForExch.fits {part : Nat} {parent inband : Bool} {phase : Nat} {x : Exch} {r : Rec} {s : State} (h : ForExch part parent inband phase x r s) :
    ¬(x.phase ≠ phase ∨ x.inband ≠ inband ∨ r.dom ≠ (s.dom part).domain ∨ r.rcv ≠ (s.dom part).own) := by
  obtain ⟨-, hphase, hband, hdom, hown⟩ := h
  rintro (other | other | other | other)
  · exact other hphase
  · exact other hband
  · exact other hdom
  · exact other hown

section
variable {part : Nat} {inband : Bool} {r : Rec} {s : State} {x : Exch} {c : Bytes}
  (mine : ForExch part true inband 1 x r s) (bundle : replyBundle r = some c)
include mine bundle

theorem takeReply_unverified (why : verifyBundle s (expectOf (s.dom part) (sha384 x.a1) x.peer []) c ≠ 0) : takeReply part inband r s =
    refuseExch part x (verifyBundle s (expectOf (s.dom part) (sha384 x.a1) x.peer []) c) (keepCas c s) := by
  simp only [takeReply, mine.1, if_neg mine.fits, bundle, if_pos why]

variable (why : verifyBundle s (expectOf (s.dom part) (sha384 x.a1) x.peer []) c = 0)
include why

theorem takeReply_badKeys (bad : replyKeysOk r = false) : takeReply part inband r s = refuseExch part x 0x0A (keepCas c s) := by
  simp only [takeReply, mine.1, if_neg mine.fits, bundle, why, bad, ne_eq, not_true_eq_false, if_false, Bool.not_false, if_true]

theorem takeReply_granted {i : Nat} (good : replyKeysOk r = true) (gen : nextMemberGen (s.dom part) x ≤ 0xFFFF)
    (verified : (keepCas c s).keep.verifyBad = false) (free : freeSlot (keepCas c s) true = some i) :
    let v := keepCas c s
    let y := { parentKeys (s.dom part).domain (s.dom part).own x.peer r x with phase := 2, pairSlot := some i, lastAt := v.now }
    let kw := exchKey "yk3 wrap" (s.dom part).domain (s.dom part).own x.peer y
    let g := grant part y kw (firstKey i 5 0 true kw v)
    takeReply part inband r s = messageDone part 3 (sendRec part x.peer inband g.1 (putExch part { y with a3 := g.1 } g.2)) := by
  simp only [takeReply, mine.1, if_neg mine.fits, bundle, why, good, ne_eq, not_true_eq_false, if_false, Bool.not_true, Bool.false_eq_true,
    if_neg (Nat.not_lt.mpr gen), free, verified, parentKeys_peer]

end

/-! ### The child, at a grant (07 R233, R234) -/

/-- What the child expects of its parent's bundle. -/
def grantExpect (d : Dom) (x : Exch) (peer : Nat) : Expect :=
  expectOf d (sha384 (x.a1 ++ x.a2)) peer (if d.parentUeid = zeros 32 then [] else d.parentUeid)

/-- The child once it holds both keys of the domain and has its place in the tree. -/
def childPlaced (part : Nat) (r : Rec) (i a c : Nat) (s : State) : State :=
  (placeChild part r s).onDom part fun d => { d with
    state := 3, memberGen := ofLe (cut 0 2 r.body), offerGen := ofLe (cut 4 4 r.body), jobSlot := a, ckptSlot := c,
    pairs := tset d.pairs r.snd i, confirmSent := false, confirmed := [] }

section
variable {part : Nat} {r : Rec} {s v : State} {x : Exch}
  (mine : ForExch part false false 1 x r s) (length : r.body.length = 124 + ofLe (cut 104 4 r.body))
  (cas : keepCas (cut 108 (ofLe (cut 104 4 r.body)) r.body) s = v)
include mine length cas

theorem takeGrant_unverified
    (why : verifyBundle s (grantExpect (s.dom part) x r.snd) (cut 108 (ofLe (cut 104 4 r.body)) r.body) ≠ 0) :
    takeGrant part false r s =
      refuseExch part x (verifyBundle s (grantExpect (s.dom part) x r.snd) (cut 108 (ofLe (cut 104 4 r.body)) r.body)) v := by
  unfold grantExpect at why
  simp only [takeGrant, mine.1, if_neg mine.fits, ne_eq, length, not_true_eq_false, if_false, Bool.false_eq_true, false_or, cas, grantExpect]
  exact if_pos why

variable (why : verifyBundle s (grantExpect (s.dom part) x r.snd) (cut 108 (ofLe (cut 104 4 r.body)) r.body) = 0)
include why

theorem takeGrant_badCode (code : macOk x.kcp (x.a1 ++ x.a2) r.raw = false) : takeGrant part false r s = refuseExch part x 0x0A v := by
  unfold grantExpect at why
  simp only [takeGrant, mine.1, if_neg mine.fits, ne_eq, length, not_true_eq_false, if_false, Bool.false_eq_true, false_or, cas, why, code,
    Bool.not_false, if_true]

theorem takeGrant_placed {i a c : Nat} {jk ck : Bytes} {u : State} (code : macOk x.kcp (x.a1 ++ x.a2) r.raw = true)
    (verified : v.keep.verifyBad = false) (free : freeSlot v true = some i)
    (job : kwUnwrap (exchKey "yk3 wrap" (s.dom part).domain r.snd (s.dom part).own x) (cut 24 40 r.body) = some jk)
    (ckpt : kwUnwrap (exchKey "yk3 wrap" (s.dom part).domain r.snd (s.dom part).own x) (cut 64 40 r.body) = some ck)
    (hu : putExch part { x with phase := 2, a3 := r.raw, pairSlot := some i, lastAt := v.now }
      (firstKey i 5 0 true (exchKey "yk3 wrap" (s.dom part).domain r.snd (s.dom part).own x) v) = u)
    (freeJob : freeSlot u false = some a) (freeCkpt : freeSlot (pendKey a 3 part (ofLe (cut 4 4 r.body)) (keyOf jk) u) false = some c) :
    let w := childPlaced part r i a c
      (pendKey c 4 part (ofLe (cut 8 4 r.body)) (keyOf ck) (pendKey a 3 part (ofLe (cut 4 4 r.body)) (keyOf jk) u))
    let kids := if (s.dom part).rejoin then [] else treeKids (s.dom part).n (s.dom part).own
    takeGrant part false r s = messageDone part (if kids.isEmpty then 4 else 1) (afterKids part (each kids (fun k s => offerTo part k false s) w)) := by
  unfold grantExpect at why
  simp only [takeGrant, mine.1, if_neg mine.fits, ne_eq, length, not_true_eq_false, if_false, Bool.false_eq_true, false_or, cas, why, code,
    Bool.not_true, verified, free, hu, job, ckpt, freeJob, freeCkpt, childPlaced]

end

theorem childPlaced_ckpt_key (part : Nat) (r : Rec) (i a c g : Nat) (k : BitVec 256) (s : State) :
    (childPlaced part r i a c (pendKey c 4 part g k s)).key c =
      { state := 3, cls := 4, owner := part, gen := g - 1, first := true, pend := k, pendIs := 1 } := by
  rw [childPlaced, onDom_key, placeChild, onDom_key, pendKey, key_onKey]
  rfl

theorem pendKey_dom (i cls part g p : Nat) (k : BitVec 256) (s : State) : (pendKey i cls part g k s).dom p = s.dom p := rfl

theorem firstKey_dom (i cls owner p : Nat) (own : Bool) (k : BitVec 256) (s : State) : (firstKey i cls owner own k s).dom p = s.dom p := rfl

theorem childPlaced_dom (part : Nat) (r : Rec) (i a c : Nat) (s : State) :
    let d := (childPlaced part r i a c s).dom part
    d.state = 3 ∧ d.memberGen = ofLe (cut 0 2 r.body) ∧ d.parent = r.snd ∧ d.jobSlot = a ∧ d.ckptSlot = c ∧
      d.pairs = tset (s.dom part).pairs r.snd i := by
  intro d
  have placed : d = _ := (dom_onDom ..).trans (by rw [placeChild, dom_onDom])
  rw [placed]
  exact ⟨rfl, rfl, rfl, rfl, rfl, rfl⟩

theorem putExch_pairs (part : Nat) (x : Exch) (s : State) : ((putExch part x s).dom part).pairs = (s.dom part).pairs := by
  rw [putExch, dom_onDom]

/-! ### The parent, at a confirmation (07 R234) -/

section
variable {part : Nat} {inband : Bool} {r : Rec} {s : State} {x : Exch} (mine : ForExch part true inband 2 x r s)
include mine

theorem takeConfirm_bad (bad : ¬(r.body.length = 36 ∧ macOk x.kcc (x.a1 ++ x.a2 ++ x.a3) r.raw = true ∧ confirmOk s (s.dom part) r = true)) :
    takeConfirm part inband r s = refuseExch part x 0x0A s := by
  have wrong : r.body.length ≠ 36 ∨ (!macOk x.kcc (x.a1 ++ x.a2 ++ x.a3) r.raw) = true ∨ (!confirmOk s (s.dom part) r) = true := by
    simpa only [Bool.not_eq_true', ← Bool.not_eq_true, Classical.not_and_iff_not_or_not] using bad
  simp only [takeConfirm, mine.1, if_neg mine.fits, if_pos wrong]

theorem takeConfirm_forming {i : Nat} (good : r.body.length = 36 ∧ macOk x.kcc (x.a1 ++ x.a2 ++ x.a3) r.raw = true ∧ confirmOk s (s.dom part) r = true)
    (forming : (s.dom part).state = 3 ∨ (s.dom part).formAt.isSome = true) (slot : x.pairSlot = some i) :
    takeConfirm part inband r s = messageDone part 0 (afterKids part
      ((putExch part { x with phase := 3, lastAt := s.now } (s.onDom part fun d => { d with pairs := tset d.pairs x.peer i })).onDom part
        fun d => { d with confirmed := tset d.confirmed x.peer (ofLe (cut 16 3 r.body)) })) := by
  obtain ⟨length, code, keys⟩ := good
  have right : ¬(r.body.length ≠ 36 ∨ (!macOk x.kcc (x.a1 ++ x.a2 ++ x.a3) r.raw) = true ∨ (!confirmOk s (s.dom part) r) = true) := by
    simp only [length, code, keys, ne_eq, not_true_eq_false, Bool.not_true, Bool.false_eq_true, or_self, not_false_eq_true]
  simp only [takeConfirm, mine.1, if_neg mine.fits, if_neg right, if_pos forming, slot]
  rfl

end

/-! ### The formation commit and a refusal (07 R234, R235) -/

/-- A formation commit that the child can act on. -/
def CommitFits (d : Dom) (x : Exch) (r : Rec) : Prop :=
  d.state = 3 ∧ x.phase = 3 ∧ r.body.length = 24 ∧ ofLe (cut 0 4 r.body) = d.offerGen ∧ r.body.drop 8 = cmac x.kcp (r.raw.take 40)

section
variable {part : Nat} {r : Rec} {s : State} {x : Exch} (found : findExch (s.dom part) r.num r.snd false = some x)
include found

theorem takeFormCommit_bad (bad : ¬CommitFits (s.dom part) x r) : takeFormCommit part false r s = messageFail part s := by
  have wrong : (s.dom part).state ≠ 3 ∨ x.phase ≠ 3 ∨ r.body.length ≠ 24 ∨ ofLe (cut 0 4 r.body) ≠ (s.dom part).offerGen ∨
      r.body.drop 8 ≠ cmac x.kcp (r.raw.take 40) := by
    simpa only [CommitFits, Classical.not_and_iff_not_or_not] using bad
  simp only [takeFormCommit, found, if_pos wrong]

theorem takeFormCommit_fits (good : CommitFits (s.dom part) x r) : takeFormCommit part false r s =
    let u := messageDone part (if (s.dom part).confirmed.isEmpty then 0 else 5) (becomeMember part ((endExch part { x with pairSlot := none }
      (sendFormCommit part (s.dom part).offerGen (ofLe (cut 4 3 r.body)) s)).onDom part fun d => { d with count := ofLe (cut 4 3 r.body) }))
    if (s.dom part).rejoin = true then u else offerMissing part u := by
  obtain ⟨state, phase, length, gen, code⟩ := good
  simp only [takeFormCommit, found, state, phase, length, gen, code, ne_eq, not_true_eq_false, or_self, if_false]

end

section
variable {part : Nat} {r : Rec} {s : State} {x : Exch}
  (found : ((s.dom part).exchs.find? fun x => x.num == r.num && x.peer == r.snd && !x.inband) = some x)
  (dom : r.dom = (s.dom part).domain) (own : r.rcv = (s.dom part).own) (length : r.body.length = 4)
include found dom own length

theorem takeRefuse_ends : takeRefuse part false r s =
    let u := endExch part x (messageDone part 0 (refusalEvent part r.num (ofLe (cut 0 1 r.body)) s))
    if x.parent then afterKids part (u.onDom part fun d => { d with confirmed := tdel d.confirmed x.peer }) else backToPrepared part u := by
  simp only [takeRefuse, found, dom, own, length, ne_eq, not_true_eq_false, or_self, if_false]

end

/-- A refusal record runs while a domain record is in front of the inbox. -/
theorem next_refusal {part r s b u} (h : RecordWaits 6 part false r s b) (run : takeRefuse part false r b = u) :
    exec (.admitRefuse part) s = .next u := by
  obtain ⟨raw, rest, inbox, -⟩ := id h
  change Host.Outcome.next (if (s.dom part).inbox.isEmpty then _ else _) = _
  rw [inbox, List.isEmpty_cons, if_neg Bool.false_ne_true]
  exact next_record h run

/-- Settles O35: a row runs on the record that waits for it, and each record has a lemma for each outcome of its checks. -/
theorem admissionRunsItsRecords : Obligations.AdmissionRunsItsRecords := by
  refine ⟨fun part r s b waits prepared => ⟨fun fits => ?_, fun unfit => ?_⟩,
    fun part inband r s b x c waits mine bundle => ⟨fun why => ?_, fun why bad => ?_, fun why good gen verified i free => ?_⟩,
    fun part r s b x waits mine length => ⟨fun why => ?_, fun why code => ?_, fun why code verified i jk ck a c free job ckpt freeJob freeCkpt => ?_⟩,
    fun part inband r s b x waits mine => ⟨fun bad => ?_, fun good forming i slot => ?_⟩,
    fun part r s b x waits found => ⟨fun bad => ?_, fun good => ?_⟩,
    fun part r s b x waits found dom own length => ⟨fun child => ?_, fun parent => ?_⟩⟩
  · exact ⟨next_record waits (takeOffer_fits prepared fits), makeReply_fields ..⟩
  · exact next_record waits (takeOffer_unfit prepared unfit)
  · exact next_record waits (takeReply_unverified mine bundle why)
  · exact next_record waits (takeReply_badKeys mine bundle why bad)
  · exact next_record waits (takeReply_granted mine bundle why good gen verified free)
  · exact next_record waits (takeGrant_unverified mine length rfl why)
  · exact next_record waits (takeGrant_badCode mine length rfl why code)
  · refine ⟨_, next_record waits (takeGrant_placed mine length rfl why code verified free job ckpt rfl freeJob freeCkpt), ?_⟩
    obtain ⟨state, gen, parent, jobSlot, ckptSlot, pairs⟩ := childPlaced_dom part r i a c
      (pendKey c 4 part (ofLe (cut 8 4 r.body)) (keyOf ck) (pendKey a 3 part (ofLe (cut 4 4 r.body)) (keyOf jk) _))
    refine ⟨state, gen, parent, jobSlot, ckptSlot, pairs.trans ?_, childPlaced_ckpt_key ..⟩
    rw [pendKey_dom, pendKey_dom, putExch_pairs, firstKey_dom, keepCas_dom]
  · exact next_record waits (takeConfirm_bad mine bad)
  · exact next_record waits (takeConfirm_forming mine good forming slot)
  · exact next_record waits (takeFormCommit_bad found bad)
  · exact next_record waits (takeFormCommit_fits found good)
  · exact next_refusal waits ((takeRefuse_ends found dom own length).trans (if_neg (by rw [child]; decide)))
  · exact next_refusal waits ((takeRefuse_ends found dom own length).trans (if_pos parent))

end Sys2Proof.Machine
end

section
/-! PROOF of O38. The migration records and the wait for the next one. -/

namespace Sys2Proof.Machine
open Sys2Proof Sys2Proof.Crypto

/-- The row of a migration record runs on the record that waits for it. -/
theorem next_mig {type part r s b u} {k : Rec → State → State} (h : MigWaits type part r s b) (run : k r b = u) :
    (.next (withMig type part k s) : Res) = .next u := congrArg Host.Outcome.next ((withMig_waits h).trans run)

/-! ### The destination, at an offer -/

section
variable {part : Nat} {r : Rec} {s : State} (dest : (s.mig part).source = false) (idle : (s.mig part).exch = none) (length : r.body.length = 1777)
include dest idle length

theorem takeMigOffer_otherPolicy (other : cut 64 48 r.body ≠ (s.part part).migDigest) : takeMigOffer part r s = refuseMig part r.num 0x07 s := by
  simp only [takeMigOffer, dest, idle, length, other, ne_eq, not_true_eq_false, Option.isSome_none, Bool.false_eq_true, or_self, if_false,
    not_false_eq_true, if_true, show ¬(0x07 = 0) by decide]

variable (policy : cut 64 48 r.body = (s.part part).migDigest) (peer : (s.mig part).ueid = zeros 32 ∨ cut 32 32 r.body = (s.mig part).ueid)
include policy peer

/-- An offer under the destination's policy, from the peer it names or from any when it names none, turns on its keys. -/
theorem takeMigOffer_keys : takeMigOffer part r s = if offerKeysOk r then
      let y := makeReply 8 0 0 0 0xFF r false s
      messageDone part 8 (outMig part y.1.a2 (y.2.onMig part fun m => { m with exch := some y.1 }))
    else refuseMig part r.num 0x0A s := by
  have known : ¬((s.mig part).ueid ≠ zeros 32 ∧ cut 32 32 r.body ≠ (s.mig part).ueid) := fun h => peer.elim h.1 h.2
  cases keys : offerKeysOk r <;>
  simp only [takeMigOffer, dest, idle, length, policy, if_neg known, keys, ne_eq, not_true_eq_false, Option.isSome_none, Bool.false_eq_true,
    or_self, if_false, Bool.not_false, Bool.not_true, if_true, show ¬(0x0A = 0) by decide, not_false_eq_true]

end

/-! ### The source, at a reply and at a confirmation -/

section
variable {part : Nat} {r : Rec} {s : State} {x : Exch} (source : (s.mig part).source = true) (exch : (s.mig part).exch = some x)
  (num : x.num = r.num)
include source exch num

section
variable {c : Bytes} (phase : x.phase = 1) (bundle : replyBundle r = some c)
include phase bundle

theorem takeMigReply_unverified (why : verifyBundle s (migExpect s part (sha384 x.a1)) c ≠ 0) :
    takeMigReply part r s = refuseMig part r.num (verifyBundle s (migExpect s part (sha384 x.a1)) c) (keepCas c s) := by
  simp only [takeMigReply, source, exch, num, phase, bundle, if_pos why, Bool.not_true, Bool.false_eq_true, ne_eq, not_true_eq_false, or_self,
    if_false]

variable (why : verifyBundle s (migExpect s part (sha384 x.a1)) c = 0)
include why

theorem takeMigReply_badKeys (bad : replyKeysOk r = false) : takeMigReply part r s = refuseMig part r.num 0x0A (keepCas c s) := by
  simp only [takeMigReply, source, exch, num, phase, bundle, why, bad, Bool.not_true, Bool.false_eq_true, ne_eq, not_true_eq_false, or_self,
    if_false, Bool.not_false, if_true]

theorem takeMigReply_granted {i : Nat} (good : replyKeysOk r = true) (verified : (keepCas c s).keep.verifyBad = false)
    (free : freeSlot (keepCas c s) false = some i) :
    let y := { parentKeys 0 0 0 r x with phase := 2, lastAt := (keepCas c s).now }
    let z := zeler part (sha384 (y.a1 ++ y.a2)) (migKey part i y (keepCas c s))
    let a3 := macRecord 9 0 noDev noDev y.num y.kcp (y.a1 ++ y.a2) (le 4 z.1.length ++ z.1)
    takeMigReply part r s =
      messageDone part 9 (outMig part a3 (z.2.onMig part fun m => { m with exch := some { y with a3 := a3 }, slot := i })) := by
  simp only [takeMigReply, source, exch, num, phase, bundle, why, good, free, verified, Bool.not_true, Bool.false_eq_true, ne_eq,
    not_true_eq_false, or_self, if_false]

end

section
variable (phase : x.phase = 2) (state : (s.part part).state = 3)
include phase state

theorem takeMigConfirm_bad (bad : ¬(r.body.length = 16 ∧ macOk x.kcc (x.a1 ++ x.a2 ++ x.a3) r.raw = true)) :
    takeMigConfirm part r s = refuseMig part r.num 0x0A s := by
  have wrong : r.body.length ≠ 16 ∨ (!macOk x.kcc (x.a1 ++ x.a2 ++ x.a3) r.raw) = true := by
    simpa only [Bool.not_eq_true', ← Bool.not_eq_true, Classical.not_and_iff_not_or_not] using bad
  simp only [takeMigConfirm, source, exch, num, phase, state, if_pos wrong, Bool.not_true, Bool.false_eq_true, ne_eq, not_true_eq_false,
    or_self, if_false]

theorem takeMigConfirm_exports {t : Taken} (good : r.body.length = 16 ∧ macOk x.kcc (x.a1 ++ x.a2 ++ x.a3) r.raw = true)
    (start : startCmd ((s.onMig part fun m => { m with exch := none }).onPart part fun p => { p with state := 4 }) part = some t) :
    takeMigConfirm part r s =
      messageDone part 0 (done t [] ((s.onMig part fun m => { m with exch := none }).onPart part fun p => { p with state := 4 })) := by
  simp only [takeMigConfirm, source, exch, num, phase, state, good, start, Bool.not_true, Bool.false_eq_true, ne_eq, not_true_eq_false,
    or_self, if_false]

end

end

/-! ### The destination, at a grant -/

section
variable {part : Nat} {r : Rec} {s v : State} {x : Exch} (dest : (s.mig part).source = false) (exch : (s.mig part).exch = some x)
  (phase : x.phase = 1) (num : x.num = r.num) (length : r.body.length = 20 + ofLe (cut 0 4 r.body))
  (cas : keepCas (cut 4 (ofLe (cut 0 4 r.body)) r.body) s = v)
include dest exch phase num length cas

theorem takeMigGrant_unverified
    (why : verifyBundle s (migExpect s part (sha384 (x.a1 ++ x.a2))) (cut 4 (ofLe (cut 0 4 r.body)) r.body) ≠ 0) :
    takeMigGrant part r s =
      refuseMig part r.num (verifyBundle s (migExpect s part (sha384 (x.a1 ++ x.a2))) (cut 4 (ofLe (cut 0 4 r.body)) r.body)) v := by
  simp only [takeMigGrant, dest, exch, phase, num, cas, if_pos why, Bool.false_eq_true, ne_eq, not_true_eq_false, or_self, if_false]
  exact if_neg fun h => h length

variable (why : verifyBundle s (migExpect s part (sha384 (x.a1 ++ x.a2))) (cut 4 (ofLe (cut 0 4 r.body)) r.body) = 0)
  (verified : v.keep.verifyBad = false)
include why verified

theorem takeMigGrant_badCode (code : macOk x.kcp (x.a1 ++ x.a2) r.raw = false) : takeMigGrant part r s = refuseMig part r.num 0x0A v := by
  simp only [takeMigGrant, dest, exch, phase, num, cas, why, verified, code, Bool.false_eq_true, ne_eq, not_true_eq_false, or_self, if_false,
    Bool.not_false, if_true]
  exact if_neg fun h => h length

theorem takeMigGrant_confirms {i : Nat} (code : macOk x.kcp (x.a1 ++ x.a2) r.raw = true) (free : freeSlot v false = some i) :
    takeMigGrant part r s = messageDone part 10 (outMig part (macRecord 10 0 noDev noDev x.num x.kcc (x.a1 ++ x.a2 ++ r.raw) [])
      ((migKey part i x v).onMig part fun m => { m with exch := some { x with a3 := r.raw, phase := 3, lastAt := v.now }, slot := i })) := by
  simp only [takeMigGrant, dest, exch, phase, num, cas, why, verified, code, free, Bool.false_eq_true, ne_eq, not_true_eq_false, or_self,
    if_false, Bool.not_true]
  exact if_neg fun h => h length

end

/-! ### A refusal and a wait that is too long (07 R234) -/

theorem takeMigRefuse_drops {part : Nat} {r : Rec} {s : State} (length : r.body.length = 4) : takeMigRefuse part r s =
    dropMig part yeDenied (messageDone part 0 (refusalEvent part r.num (ofLe (cut 0 1 r.body)) s)) := if_neg fun h => h length

theorem exec_admitRefuse_mig {part : Nat} {s : State} (empty : (s.dom part).inbox = []) :
    exec (.admitRefuse part) s = .next (withMig 6 part (takeMigRefuse part) s) := by
  change Host.Outcome.next (if (s.dom part).inbox.isEmpty then _ else _) = _
  rw [empty, List.isEmpty_nil, if_pos rfl]

section
variable {part : Nat} {s : State} {x : Exch}

theorem exec_formationTimeout_mig (live : s.keepLive = true) : exec (.formationTimeout part noDev) s = .next (migTimeout part s) := by
  change Host.Outcome.next _ = _
  rw [live, Bool.not_true, if_neg Bool.false_ne_true, if_pos rfl]

theorem migTimeout_of_waiting (exch : (s.mig part).exch = some x) (phase : x.phase = 1) : migTimeout part s =
    if x.lastAt + Config.ms (policyFor [] (s.part part).migDigest).formMs ≤ s.now then refuseMig part x.num 0x0B s else s := by
  cases source : (s.mig part).source <;>
  simp only [migTimeout, exch, phase, source, beq_self_eq_true, Bool.true_or, if_true, Bool.false_eq_true, if_false, true_and]

end

/-- Settles O38: a row runs on the record that waits for it, and each record has a lemma for each outcome of its checks. -/
theorem migrationRunsItsRecords : Obligations.MigrationRunsItsRecords := by
  refine ⟨fun part r s b waits dest idle length => ⟨fun other => ?_, fun policy peer => ⟨fun bad => ?_, fun good => ?_⟩⟩,
    fun part r s b x c waits source exch phase num bundle => ⟨fun why => ?_, fun why bad => ?_, fun why good verified i free => ?_⟩,
    fun part r s b x waits dest exch phase num length =>
      ⟨fun why => ?_, fun why verified code => ?_, fun why verified code i free => ?_⟩,
    fun part r s b x waits source exch phase num state => ⟨fun bad => ?_, fun good t start => ?_⟩,
    fun part r s b empty waits length => ?_,
    fun part s x live exch phase => ⟨fun late => ?_, fun early => ?_⟩⟩
  · exact next_mig waits (takeMigOffer_otherPolicy dest idle length other)
  · exact next_mig waits ((takeMigOffer_keys dest idle length policy peer).trans (if_neg (by rw [bad]; decide)))
  · exact next_mig waits ((takeMigOffer_keys dest idle length policy peer).trans (if_pos good))
  · exact next_mig waits (takeMigReply_unverified source exch num phase bundle why)
  · exact next_mig waits (takeMigReply_badKeys source exch num phase bundle why bad)
  · exact next_mig waits (takeMigReply_granted source exch num phase bundle why good verified free)
  · exact next_mig waits (takeMigGrant_unverified dest exch phase num length rfl why)
  · exact next_mig waits (takeMigGrant_badCode dest exch phase num length rfl why verified code)
  · exact next_mig waits (takeMigGrant_confirms dest exch phase num length rfl why verified code free)
  · exact next_mig waits (takeMigConfirm_bad source exch num phase state bad)
  · exact next_mig waits (takeMigConfirm_exports source exch num phase state good start)
  · exact (exec_admitRefuse_mig empty).trans (next_mig waits (takeMigRefuse_drops length))
  · rw [exec_formationTimeout_mig live, migTimeout_of_waiting exch phase, if_pos late]
  · rw [exec_formationTimeout_mig live, migTimeout_of_waiting exch phase, if_neg (Nat.not_le.mpr early)]

end Sys2Proof.Machine
end

section
/-! PROOF of O40. The handoff messages and timers, at the offerer and at the receiver. -/

namespace Sys2Proof.Machine
open Sys2Proof Sys2Proof.Crypto

/-! ### At the offerer (08 R273 to R277) -/

section
variable {part src num : Nat} {w : Bytes} {s : State} {h : Handoff}

section
variable (found : findHandoff s true part src (ofLe (cut 0 4 w)) = some h)
include found

theorem acceptArrives_offered (offered : h.state = 1) :
    let g := { h with state := 2, landing := ofLe (cut 4 4 w), counter := ofLe (cut 8 2 w), retries := 0, lastAt := s.now }
    acceptArrives part src w s = settleHandoff g (setHandoff g s) := by
  simp only [acceptArrives, found, offered, ne_eq, not_true_eq_false, if_false]

theorem acceptArrives_other (other : h.state ≠ 1) : acceptArrives part src w s = s := by
  simp only [acceptArrives, found, if_pos other]

theorem ackArrives_committing (committing : h.state = 3) : ackArrives part src w s = sendHandoff h 0x24 (zeros 4)
    (doomObject h.obj ((setHandoff { h with state := 4 } s).onObj h.obj fun o => { o with refs := o.refs - 1 })) := by
  simp only [ackArrives, found, committing, ne_eq, not_true_eq_false, if_false]

theorem ackArrives_other (other : h.state ≠ 3) : ackArrives part src w s = s := by
  simp only [ackArrives, found, if_pos other]

theorem refuseArrives_reclaims : refuseArrives part src w s = reclaim h (ofLe (cut 4 2 w)) s := by
  simp only [refuseArrives, found]

theorem closeArrives_found : closeArrives part src w s = if 4 ≤ h.state then dropHandoff h s else s := by
  simp only [closeArrives, found]

end

/-- The region is the offerer's again: the record says so, no station holds it frozen, and the offer's reference is gone. -/
def takenBack (h : Handoff) (s : State) : State :=
  (thawObject h.obj (setHandoff { h with state := 5 } s)).onObj h.obj fun o => { o with refs := o.refs - 1 }

theorem reclaim_over {cause : Nat} (ended : 4 ≤ h.state) : reclaim h cause s = s := if_pos ended

theorem reclaim_open {cause : Nat} {t : Taken} (open_ : h.state < 4) (cmd : offerCmd (takenBack h s) h = some t) :
    reclaim h cause s = complete t yeHandoff (detailHandoff cause h.num h.peer) [] (takenBack h s) := by
  unfold takenBack at cmd ⊢
  simp only [reclaim, if_neg (Nat.not_le.mpr open_), cmd]

theorem thawObject_obj (oi i : Nat) (s : State) : (thawObject oi s).obj i = (s.onObj oi fun o => { o with frozen := false }).obj i := rfl

theorem takenBack_thawed : ((takenBack h s).obj h.obj).frozen = false := by
  rw [takenBack, obj_onObj, thawObject_obj, obj_onObj]

section
variable (found : (s.handoffs.find? fun h => h.offerer && h.num == num && (h.state == 1 || h.state == 3)) = some h)
include found

theorem retransmit_early (early : s.keepStopped = true ∨ s.now < h.lastAt + Config.ms 1) : retransmit num s = s := by
  simp only [retransmit, found, if_pos early]

variable (running : s.keepStopped = false) (due : h.lastAt + Config.ms 1 ≤ s.now)
include running due

theorem retransmit_due : retransmit num s = if 8 ≤ h.retries then reclaim h yeTimeout s else
    let u := setHandoff { h with retries := h.retries + 1, lastAt := s.now } s
    if h.state = 1 then sendHandoff h 0x20 (offerBody u h) u else sendHandoff h 0x22 (le 4 h.tiles) u := by
  have late : ¬(s.keepStopped = true ∨ s.now < h.lastAt + Config.ms 1) := by
    rw [running]
    exact fun h => h.elim Bool.false_ne_true (Nat.not_lt.mpr due)
  simp only [retransmit, found, if_neg late]

end

end

/-! ### At the receiver (08 R272, R274, R276) -/

section
variable {part src dev num : Nat} {w : Bytes} {s : State} {h : Handoff}

section
variable (found : findHandoff s false part src (ofLe (cut 0 4 w)) = some h)
include found

theorem commitArrives_over (ended : h.state = 4) : commitArrives part src w s = s := by
  simp only [commitArrives, found, if_pos ended]

theorem commitArrives_again (committed : h.state = 2) :
    commitArrives part src w s = sendHandoff h 0x23 (le 1 2 ++ zeros 3) (setHandoff { h with lastAt := s.now } s) := by
  simp only [commitArrives, found, committed, show ¬(2 = 4) by decide, if_false, if_true]

/-- A commit of a landing under way, which turns on what has landed. -/
theorem commitArrives_landing (fresh : h.state ≠ 4) (uncommitted : h.state ≠ 2) : commitArrives part src w s =
    if (tget {} s.arrivals h.counter).landed = ofLe (cut 4 4 w) ∧ (tget {} s.arrivals h.counter).failed = 0 then
      sendHandoff h 0x23 (le 1 1 ++ zeros 3) (closeLanding h (setHandoff { h with state := 2, lastAt := s.now } s))
    else discard h (sendHandoff h 0x25 (le 2 (tget {} s.arrivals h.counter).err ++ zeros 2) s) := by
  simp only [commitArrives, found, if_neg fresh, if_neg uncommitted]

theorem releasedArrives_found : releasedArrives part src w s = if h.state = 2 then landOwn h s else s := by
  simp only [releasedArrives, found]

section
variable {n : Nat} (code : ofLe (cut 4 1 w) = n)
include code

theorem stateArrives_copying (one : n = 1) : stateArrives part src w s = setHandoff { h with lastAt := s.now } s := by
  subst one
  simp only [stateArrives, found, code]

theorem stateArrives_released (two : n = 2) : stateArrives part src w s = if h.state = 2 then landOwn h s else s := by
  subst two
  simp only [stateArrives, found, code]

theorem stateArrives_reclaimed (three : n = 3) : stateArrives part src w s = discard h s := by
  subst three
  simp only [stateArrives, found, code]

theorem stateArrives_unknown (four : n = 4) : stateArrives part src w s = if h.state = 2 then landOwn h s else discard h s := by
  subst four
  simp only [stateArrives, found, code]

end

end

theorem queryTimer_found (found : (s.handoffs.find? fun h => !h.offerer && h.peer == dev && h.num == num) = some h) : queryTimer dev num s =
    if h.state = 4 ∨ s.now < h.lastAt + Config.ms 10 then s else sendHandoff h 0x26 (zeros 4) (setHandoff { h with lastAt := s.now } s) := by
  simp only [queryTimer, found]

end

/-! ### An offer arrives (08 R272) -/

/-- An object can take an offer of `n` tiles of the class. -/
def offerFits (part cls n : Nat) (o : Nat × Obj) : Bool :=
  o.2.landing && o.2.accepted.isNone && o.2.state == 1 && o.2.part == part && o.2.cls == cls && decide (n ≤ o.2.tiles)

/-- The state once the record `h` of a landing is made: its counter is open and its region, of this handle, refers to the offer. -/
def landingTaken (h : Handoff) (handle : Nat) (s : State) : State :=
  let a : Arrival := { state := 1, part := h.part, ctx := 65535, handle := BitVec.ofNat 32 handle, total := h.tiles }
  { s with handoffs := s.handoffs ++ [h], arrivals := tset s.arrivals h.counter a }.onObj h.landing fun o =>
    { o with accepted := some (h.peer, h.num), refs := o.refs + 2 }

theorem landingTaken_obj (h : Handoff) (handle : Nat) (s : State) :
    (landingTaken h handle s).obj h.landing =
      { tget {} s.objs h.landing with accepted := some (h.peer, h.num), refs := (tget {} s.objs h.landing).refs + 2 } := obj_onObj ..

section
variable {part src : Nat} {w : Bytes} {s : State} (member : (s.dom part).state = 4)
include member

theorem offerArrives_again {h : Handoff} (found : findHandoff s false part src (ofLe (cut 0 4 w)) = some h) (fresh : h.state ≠ 4) :
    offerArrives part src w s = sendHandoff h 0x21 (acceptBody s h) (setHandoff { h with lastAt := s.now } s) := by
  simp only [offerArrives, member, found, if_neg fresh, ne_eq, not_true_eq_false, if_false]

variable (fresh : findHandoff s false part src (ofLe (cut 0 4 w)) = none)
include fresh

theorem offerArrives_noLanding (noLanding : ∀ o ∈ s.objs, o.2.landing = false) :
    offerArrives part src w s = sendMail part src 0x25 (le 4 (ofLe (cut 0 4 w)) ++ le 2 yeQuota ++ zeros 2) s := by
  have unfit : (s.objs.filter (offerFits part (ofLe (cut 4 1 w)) (ofLe (cut 8 4 w)))) = [] :=
    List.filter_eq_nil_iff.mpr fun o mem => by simp [offerFits, noLanding o mem]
  unfold offerFits at unfit
  simp only [offerArrives, member, fresh, unfit, ne_eq, not_true_eq_false, if_false, List.map_nil, List.foldl_nil, if_true]
  cases lowFree s.arrivals 0 1024 <;> rfl

/-- The receiver with the landing region `oi` taken for the offer, under the arrival counter `c`. -/
theorem offerArrives_one {oi c : Nat} {o : Obj} (objs : s.objs = [(oi, o)]) (free : lowFree s.arrivals 0 1024 = some c)
    (fits : offerFits part (ofLe (cut 4 1 w)) (ofLe (cut 8 4 w)) (oi, o) = true) (handle : o.gen * 2 ^ 20 + oi ≠ 0) (index : oi < 2 ^ 20) :
    let h : Handoff := { peer := src, num := ofLe (cut 0 4 w), part := part, state := 1, landing := oi, counter := c, tiles := ofLe (cut 8 4 w),
                         lastAt := s.now }
    let u := landingTaken h (o.gen * 2 ^ 20 + oi) s
    offerArrives part src w s = sendHandoff h 0x21 (acceptBody u h) u := by
  have low : handleIdx (o.gen * 2 ^ 20 + oi) = oi := by
    rw [handleIdx]
    omega
  unfold offerFits at fits
  simp only [offerArrives, member, fresh, objs, free, List.filter_cons, fits, if_true, List.filter_nil, List.map_cons, List.map_nil,
    List.foldl_cons, List.foldl_nil, true_or, if_neg handle, low, ne_eq, not_true_eq_false, if_false,
    landingTaken]

end

/-- Settles O40: each message and each timer has a lemma for each state of its record. -/
theorem handoffsMoveARegion : Obligations.HandoffsMoveARegion := by
  refine ⟨fun part hdr body s w h came found => ⟨fun offered => ?_, fun other => ?_⟩,
    fun part hdr body s w h came found => ⟨fun committing => ?_, fun other => ?_⟩,
    fun part hdr body s w h came found => ⟨fun ended => ?_, fun open_ => ⟨?_, fun t cmd => ?_⟩⟩,
    fun part hdr body s w came => ?_,
    fun part hdr body s w h came found => ⟨fun ended => ?_, fun open_ => ?_⟩,
    fun num s h found => ⟨fun early => ?_, fun running due spent => ?_, fun running due left => ?_⟩,
    fun part hdr body s w came member => ⟨fun h found fresh => ?_, fun fresh noLanding => ?_,
      fun oi o c fresh objs free landing accepted state own cls tiles handle index => ?_⟩,
    fun part hdr body s w h came found => ⟨fun ended => ?_, fun committed => ?_, fun fresh uncommitted landed whole => ?_,
      fun fresh uncommitted bad => ?_⟩,
    fun part hdr body s w h came found => ⟨fun committed => ?_, fun other => ?_⟩,
    fun part hdr body s w h came found => ⟨fun copying => ?_, fun released committed => ?_, fun reclaimed => ?_, fun unknown => ?_⟩,
    fun dev num s h found => ⟨fun early => ?_, fun fresh due => ?_⟩⟩
  · exact next_mail came (acceptArrives_offered found offered)
  · exact next_mail came (acceptArrives_other found other)
  · exact next_mail came (ackArrives_committing found committing)
  · exact next_mail came (ackArrives_other found other)
  · exact next_mail came ((refuseArrives_reclaims found).trans (reclaim_over ended))
  · exact takenBack_thawed
  · exact next_mail came ((refuseArrives_reclaims found).trans (reclaim_open open_ cmd))
  · exact next_mail came rfl
  · exact next_mail came ((closeArrives_found found).trans (if_pos ended))
  · exact next_mail came ((closeArrives_found found).trans (if_neg (Nat.not_le.mpr open_)))
  · exact congrArg Host.Outcome.next (retransmit_early found early)
  · exact congrArg Host.Outcome.next ((retransmit_due found running due).trans (if_pos spent))
  · exact congrArg Host.Outcome.next ((retransmit_due found running due).trans (if_neg (Nat.not_le.mpr left)))
  · exact next_mail came (offerArrives_again member found fresh)
  · exact next_mail came (offerArrives_noLanding member fresh noLanding)
  · have fits : offerFits part (ofLe (cut 4 1 w)) (ofLe (cut 8 4 w)) (oi, o) = true := by
      simp only [offerFits, landing, accepted, state, own, cls, tiles, Option.isNone_none, beq_self_eq_true, decide_true, Bool.and_self]
    refine ⟨_, next_mail came (offerArrives_one member fresh objs free fits handle index), rfl, ?_, tget_tset_same ..⟩
    rw [landingTaken_obj, objs, show tget {} [(oi, o)] oi = o by simp [tget, tfind]]
  · exact next_mail came (commitArrives_over found ended)
  · exact next_mail came (commitArrives_again found committed)
  · exact next_mail came ((commitArrives_landing found fresh uncommitted).trans (if_pos ⟨landed, whole⟩))
  · exact next_mail came ((commitArrives_landing found fresh uncommitted).trans (if_neg fun h => bad.elim (fun b => b h.1) fun b => b h.2))
  · exact next_mail came ((releasedArrives_found found).trans (if_pos committed))
  · exact next_mail came ((releasedArrives_found found).trans (if_neg other))
  · exact next_mail came (stateArrives_copying found copying rfl)
  · exact next_mail came ((stateArrives_released found released rfl).trans (if_pos committed))
  · exact next_mail came (stateArrives_reclaimed found reclaimed rfl)
  · exact next_mail came (stateArrives_unknown found unknown rfl)
  · exact congrArg Host.Outcome.next ((queryTimer_found found).trans (if_pos early))
  · exact congrArg Host.Outcome.next ((queryTimer_found found).trans (if_neg fun h => h.elim fresh (Nat.not_lt.mpr due)))

end Sys2Proof.Machine
end

section
/-! PROOF of O12. Accumulation descriptors and arrival counters: opening, closing, and what a close leaves. -/

namespace Sys2Proof.Machine
open Sys2Proof Sys2Proof.Crypto

variable {q : Nat} {e : BitVec 1024} {inp : Bytes} {s b : State} {t : Taken} {rc : Nat}

theorem tget_tmap {α : Type} {d : α} {f : Nat → α → α} {k : Nat} (h : f k d = d) (t : Tab α) : tget d (tmap f t) k = f k (tget d t k) := by
  unfold tget
  rw [tfind_tmap]
  cases tfind t k with
  | none => exact h.symm
  | some v => rfl

/-! ### ACC_CLOSE (04 R123, R127) -/

theorem closeAcc_memSt (d : Nat) (s : State) (st : Nat) : (closeAcc d s).memSt st =
    { s.memSt st with accs := tmap (fun i c => if i = d then { c with state := 2 } else c) (s.memSt st).accs } :=
  tget_tmap (f := fun _ (m : MemSt) => { m with accs := tmap (fun i c => if i = d then { c with state := 2 } else c) m.accs }) rfl s.mem

/-- A station's copy of a descriptor that is closed is Closing, where the station has one. -/
theorem closeAcc_copy (d : Nat) (s : State) (st : Nat) :
    tget ({} : AccCopy) ((closeAcc d s).memSt st).accs d = tget {} (s.memSt st).accs d ∨
      (tget ({} : AccCopy) ((closeAcc d s).memSt st).accs d).state = 2 := by
  rw [closeAcc_memSt, tget, tfind_tmap, tget]
  cases tfind (s.memSt st).accs d with
  | none => exact .inl rfl
  | some c => exact .inr (by simp)

theorem bodyAccClose_runs (hb : Began q e inp s t b) (open_ : (tget ({} : Acc) s.accs (opnd e 0 1)).state = 1)
    (own : (s.obj (handleIdx (tget ({} : Acc) s.accs (opnd e 0 1)).handle.toNat)).part = (s.ctx (s.queue q).ctx).part) :
    bodyAccClose t rc inp b = keepRunning t (opnd e 0 1) (closeAcc (opnd e 0 1) b) := by
  simp only [bodyAccClose, hb.te, hb.accs, hb.partOf, hb.obj_eq, open_, own, ne_eq, not_true_eq_false, or_self, if_false]

/-! ### The end of a Closing descriptor (04 R127, R133) -/

/-- The references of an object once one of them has gone. -/
def unreferred (oi : Nat) (objs : Tab Obj) : Tab Obj := tmap (fun i o => if i = oi then { o with refs := o.refs - 1 } else o) objs

/-- The end of a descriptor touches its fence, its own entries and its object's reference. -/
theorem endAcc_frame (d : Nat) (s : State) : ∃ fences mem, endAcc d s =
    { s with fences := fences, mem := mem, accs := tdel s.accs d, objs := unreferred (handleIdx (tget ({} : Acc) s.accs d).handle.toNat) s.objs } := by
  unfold endAcc
  dsimp only
  split
  · exact ⟨_, _, rfl⟩
  · split <;> exact ⟨_, _, rfl⟩

theorem settleAcc_ends (drained : accDrained s t.aux = true) (unbound : ∀ p ∈ s.profs, p.2.queue ≠ some t.q) :
    Out.result t.q t.idx (resultEntry 0 t.seq s.now (accResult (accSums s t.aux))) ∈ (settleAcc t s).out ∧
      (settleAcc t s).accs = tdel s.accs t.aux ∧
      (settleAcc t s).objs = unreferred (handleIdx (tget ({} : Acc) s.accs t.aux).handle.toNat) s.objs := by
  obtain ⟨fences, mem, ended⟩ := endAcc_frame t.aux s
  rw [settleAcc, if_pos drained, ended]
  generalize accResult (accSums s t.aux) = r
  generalize hc : ({ s with fences := fences, mem := mem, accs := tdel s.accs t.aux,
                            objs := unreferred (handleIdx (tget ({} : Acc) s.accs t.aux).handle.toNat) s.objs } : State) = c
  have free : ∀ p ∈ c.profs, p.2.queue ≠ some t.q := by
    subst hc
    exact unbound
  have bare := done_bare (t := t) r free
  have answer := done_answer (t := t) r free
  subst hc
  exact ⟨answer, (congrArg State.accs bare :), (congrArg State.objs bare :)⟩

/-! ### ARRIVAL_OPEN and ARRIVAL_CLOSE (05 R169, R170) -/

/-- The counter that ARRIVAL_OPEN opens. -/
def openedArrival (q : Nat) (e : BitVec 1024) (s : State) : Arrival where
  state := 1
  part := (s.ctx (s.queue q).ctx).part
  ctx := (s.queue q).ctx
  handle := BitVec.ofNat 32 (opnd e 0 4)
  base := opnd e 4 5
  total := opnd e 12 4

theorem bodyArrivalOpen_opens {i : Nat} (hb : Began q e inp s t b) (handle : handleIdx (opnd e 0 4) ≠ 0) (aligned : opnd e 4 5 % 8192 = 0)
    (inside : opnd e 4 5 / 8192 + opnd e 12 4 ≤ (s.obj (handleIdx (opnd e 0 4))).tiles) (free : lowFree s.arrivals 0 1024 = some i) :
    bodyArrivalOpen t rc inp b = done t (le 2 i) ({ b with arrivals := tset s.arrivals i (openedArrival q e s) }.onObj (handleIdx (opnd e 0 4))
      fun o => { o with refs := o.refs + 1 }) := by
  have fits : ¬(opnd e 4 5 % 8192 ≠ 0 ∨ (s.obj (handleIdx (opnd e 0 4))).tiles < opnd e 4 5 / 8192 + opnd e 12 4) := by
    rintro (odd | outside)
    · exact odd aligned
    · exact Nat.not_lt.mpr inside outside
  simp only [bodyArrivalOpen, hb.te, hb.obj_eq, hb.arrivals, hb.partOf, hb.ctxOf, if_neg handle, if_neg fits, free, openedArrival]

theorem bodyArrivalClose_closes (hb : Began q e inp s t b) (open_ : (tget ({} : Arrival) s.arrivals (opnd e 0 2)).state = 1)
    (own : (tget ({} : Arrival) s.arrivals (opnd e 0 2)).part = (s.ctx (s.queue q).ctx).part) :
    bodyArrivalClose t rc inp b =
      done t (arrivalBytes { tget ({} : Arrival) s.arrivals (opnd e 0 2) with state := 2 }) (freeArrival (opnd e 0 2) b) := by
  simp only [bodyArrivalClose, hb.te, hb.arrivals, hb.partOf, open_, own, ne_eq, not_true_eq_false, or_self, if_false]

/-- Settles O12: each command's body on the state in which it begins, and the settle of a drained descriptor. -/
theorem descriptorsAndCountersOpenAndClose : Obligations.DescriptorsAndCountersOpenAndClose := by
  refine ⟨?_, fun t s drained unbound => settleAcc_ends drained unbound, ?_, ?_⟩
  · intro q e rc inp s starts d a open_ own
    obtain ⟨t, b, run, hb⟩ := takeCmd_begins starts (by decide)
    refine ⟨_, congrArg Host.Outcome.next (run.trans (bodyAccClose_runs hb open_ own)), hb.runs _ rfl rfl rfl, ?_, ?_, fun st => ?_⟩
    · exact congrArg (tmap fun i (a : Acc) => if i = d then { a with state := 2 } else a) hb.accs
    · exact congrArg (fun u : State => ({ u with accs := (closeAcc d b).accs, mem := (closeAcc d b).mem } : State)) hb.bare
    · rw [← hb.memSt_eq st]
      exact closeAcc_copy d b st
  · intro q e rc inp s starts h base n o i handle aligned inside free
    obtain ⟨t, b, run, hb⟩ := takeCmd_begins starts (by decide)
    obtain ⟨u, exec, completed, bare, -⟩ := hb.finishes
      (congrArg Host.Outcome.next (run.trans (bodyArrivalOpen_opens hb handle aligned inside free))) rfl rfl rfl rfl rfl hb.now
    refine ⟨u, exec, completed, bare.trans ?_⟩
    exact congrArg (fun u : State => ({ u with arrivals := tset s.arrivals i (openedArrival q e s),
                                               objs := tupd {} u.objs (handleIdx h) fun o => { o with refs := o.refs + 1 } } : State)) hb.bare
  · intro q e rc inp s starts i a open_ own
    obtain ⟨t, b, run, hb⟩ := takeCmd_begins starts (by decide)
    obtain ⟨u, exec, completed, bare, -⟩ := hb.finishes
      (congrArg Host.Outcome.next (run.trans (bodyArrivalClose_closes hb open_ own))) rfl rfl rfl rfl rfl hb.now
    exact ⟨u, exec, completed, bare.trans (congrArg (freeArrival i) hb.bare)⟩

end Sys2Proof.Machine
end

section
/-! PROOF of O18. Arriving packets: their checks, the order in which they are applied, and the answers of remote operations. -/

namespace Sys2Proof.Machine
open Sys2Proof Sys2Proof.Crypto

/-- What a station that is not Closed finds of `closed`. -/
theorem closed_eq_false {s : State} {st : Nat} (up : s.portState st ≠ .closed) : closed s st = false := decide_eq_false up

theorem closed_eq_true {s : State} {st : Nat} (down : s.portState st = .closed) : closed s st = true := decide_eq_true down

/-- A key in a station's cache is used at once. -/
theorem askKey_cached {st slot gen : Nat} {s : State} (cached : (s.port st).keys.contains (slot, gen) = true) : askKey st slot gen s =
    (halfOf (s.key slot) gen, s.onPort st fun p => { p with keys := (slot, gen) :: without p.keys (slot, gen) }) := by
  simp only [askKey, cached, if_true]

/-! ### A packet that is next for its space (05 R153 to R156) -/

section
variable {st slot part : Nat} {b : Bytes} {s : State} {j : Job} {h : Held}

/-- A packet whose header fits a job that is bound, not stalled, and of its generation. -/
theorem packetArrival_enters (up : s.portState st ≠ .closed) (formed : packetMalformed b = false)
    (job : ((s.linkSt st).jobs.find? fun x => x.2.state != 0 && x.2.keyIndex == ofLe (cut 16 2 b)) = some (part, j)) (hh : packetOf s.now part slot b = h)
    (bound : j.state = 1) (going : j.stalled = false) (gen : h.gen = j.gen)
    (live : ∀ x ∈ (s.linkSt st).lost, x.1 = part → x.2.1 = h.peer → x.2.2 ≤ h.sepoch)
    (word : ofLe (cut 24 8 b) / 2 ^ 36 = seqField j.own h.response h.gen 0 / 2 ^ 36) :
    packetArrival st slot b s = enterPacket st h s := by
  have peer : ofLe (cut 4 4 b) % 2 ^ 18 = h.peer := by rw [← hh, packetOf]
  have notLost : ((s.linkSt st).lost.any fun x => x.1 == part && x.2.1 == h.peer && decide (h.sepoch < x.2.2)) = false := by
    refine List.any_eq_false.mpr fun x mem => ?_
    simp only [Bool.and_eq_true, beq_iff_eq, decide_eq_true_eq, not_and, Nat.not_lt, and_imp]
    exact live x mem
  simp only [packetArrival, closed_eq_false up, formed, job, hh, peer, bound, going, gen, notLost, word, Bool.false_eq_true, if_false,
    show ¬(1 = 2) by decide, or_self, ne_eq, not_true_eq_false, false_and]

variable {c : Ctxt} (found : findCtx (s.linkSt st) h.part h.peer true h.response = some c) (open_ : c.state = 2)

include found open_ in
/-- The packet that is next in order for its space, of which no copy is held, goes on to its tag. -/
theorem enterPacket_next (gen : c.gen = h.gen) (sepoch : c.sepoch = h.sepoch) (next : h.seq = c.seq)
    (single : ∀ x ∈ (s.linkSt st).held, ¬(x.part = h.part ∧ x.peer = h.peer ∧ x.response = h.response ∧ x.gen = h.gen ∧ x.sepoch = h.sepoch ∧ x.seq = h.seq)) :
    enterPacket st h s = verify st h c s := by
  have notHeld : ((s.linkSt st).held.any fun x => x.phase != 0 && x.part == h.part && x.peer == h.peer && x.response == h.response &&
      x.gen == h.gen && x.sepoch == h.sepoch && x.seq == c.seq) = false := by
    refine List.any_eq_false.mpr fun x mem => ?_
    simp only [Bool.and_eq_true, beq_iff_eq, not_and, and_imp]
    exact fun _ a b c d e f => single x mem ⟨a, b, c, d, e, f.trans next.symm⟩
  simp only [enterPacket, admitPacket, found, open_, gen, sepoch, next, notHeld, show ¬(2 = 1) by decide, show ¬(2 = 4) by decide,
    show ¬(2 = 5) by decide, and_self, and_false, or_self, if_false, if_true, true_or, Nat.lt_irrefl, Bool.false_eq_true,
    ne_eq, not_true_eq_false, show ¬(c.seq + 1024 ≤ c.seq) by omega]

include open_ in
theorem accept_current (gen : c.gen = h.gen) (sepoch : c.sepoch = h.sepoch) : accept st h c s = holdPacket st h s := by
  simp only [accept, open_, gen, sepoch, true_or, and_self, if_true]

/-- A packet whose tag verifies under a key at hand. -/
theorem verify_passes {key : BitVec 256} {p : Bytes} (hj : jobOf s st h.part = j)
    (cached : (s.port st).keys.contains (j.slot, gen32 (s.key j.slot) h.gen) = true) (half : halfOf (s.key j.slot) (gen32 (s.key j.slot) h.gen) = some key)
    (opens : gcmOpen key (linkIv h.peer h.sepoch (ofLe (cut 24 8 h.body))) (h.body.take 8 ++ [0, 0] ++ cut 10 22 h.body)
      (cut 32 (h.body.length - 48) h.body) (cut (32 + (h.body.length - 48)) 16 h.body) = some p) :
    verify st h c s = accept st { h with phase := 2, body := p } c (s.onPort st fun p => { p with
      keys := (j.slot, gen32 (s.key j.slot) h.gen) :: without p.keys (j.slot, gen32 (s.key j.slot) h.gen) }) := by
  simp only [verify, hj, linkKey, askKey_cached cached, half, opens]

theorem holdPacket_onPort (link : isLink st = true) (f : Port → Port) :
    ((holdPacket st h (s.onPort st f)).linkSt st).held = (s.linkSt st).held ++ [h] ∧
      holdPacket st h (s.onPort st f) = { s with link := (holdPacket st h (s.onPort st f)).link } := by
  rw [onPort_link link, holdPacket, onLink_comp]
  exact ⟨by rw [linkSt_onLink], rfl⟩

end

/-! ### Application (05 R154) -/

section
variable {st : Nat} {c : Ctxt} {h : Held} {s : State}

/-- A packet of plain operations, with room for them and nothing of an earlier packet to join. -/
theorem applyPacket_plain (job : (jobOf s st h.part).state = 1) (good : sectionBad h (parseOps 289 h.body) = false)
    (plain : ∀ o ∈ parseOps 289 h.body, ofLe (cut 1 1 o.1) / 2 % 2 = 0 ∧ bulkWaits s o = false)
    (room : ((parseOps 289 h.body).filter fun o => decide (ofLe (o.1.take 1) < 0x80)).length = 0 ∨
      (s.linkSt st).ops.length + ((parseOps 289 h.body).filter fun o => decide (ofLe (o.1.take 1) < 0x80)).length ≤ 1024)
    (whole : ∀ x ∈ (s.linkSt st).contTx, ¬(x.part = h.part ∧ x.peer = h.peer ∧ x.response = h.response)) :
    applyPacket st c h s = each (parseOps 289 h.body) (fun o u => applyOp st h o u) (countApplied st h (s.onLink st fun l =>
      { putCtx { c with seq := c.seq + 1 } l with
        held := l.held.filter fun x => !(ofInstance c x && x.seq == h.seq && x.phase == 2),
        contTx := l.contTx.filter fun x => !(x.part == h.part && x.peer == h.peer && x.response == h.response) })) := by
  have noFirst : contFor (s.linkSt st) h = none := by
    refine List.find?_eq_none.mpr fun x mem => ?_
    simp only [Bool.and_eq_true, beq_iff_eq, not_and, and_imp]
    exact fun a b c => (whole x mem ⟨a, b, c⟩).elim
  have noHalf : ((s.linkSt st).contTx.filter fun x => x.part == h.part && x.peer == h.peer && x.response == h.response && !false) = [] := by
    refine List.filter_eq_nil_iff.mpr fun x mem => ?_
    simp only [Bool.and_eq_true, beq_iff_eq, Bool.not_false, and_true, and_assoc]
    exact whole x mem
  have notCont : ((parseOps 289 h.body).any fun o => ofLe (cut 1 1 o.1) / 2 % 2 == 1) = false :=
    List.any_eq_false.mpr fun o mem => by rw [(plain o mem).1]; decide
  have noWait : (parseOps 289 h.body).any (bulkWaits s) = false := List.any_eq_false.mpr fun o mem => by rw [(plain o mem).2]; decide
  have fits : ¬((((parseOps 289 h.body).filter fun o => decide (ofLe (o.1.take 1) < 0x80)).length ≠ 0 ∧
      1024 < (s.linkSt st).ops.length + ((parseOps 289 h.body).filter fun o => decide (ofLe (o.1.take 1) < 0x80)).length) ∨
      (parseOps 289 h.body).any (bulkWaits s) = true) := by
    rintro (⟨some_, over_⟩ | waits)
    · exact room.elim some_ (Nat.not_le.mpr over_)
    · rw [noWait] at waits
      cases waits
  simp only [applyPacket, job, good, notCont, noFirst, if_neg fits, noHalf, ne_eq, not_true_eq_false, if_false, Bool.and_false, Bool.false_eq_true]
  rfl

theorem packetApply_next {part peer : Nat} {resp : Bool} (hu : settleLink st s = u) (found : findCtx (u.linkSt st) part peer true resp = some c)
    (up : u.portState st ≠ .closed) (open_ : c.state = 2) (going : c.flagWait = false)
    (next : ((u.linkSt st).held.find? fun x => ofInstance c x && x.phase == 2 && x.seq == c.seq) = some h) :
    packetApply st part peer resp s = applyPacket st c h u := by
  simp only [packetApply, hu, found, closed_eq_false up, open_, going, next, Bool.false_eq_true, show ¬(2 = 6) by decide, false_and, if_false,
    true_or, not_true_eq_false, or_self]

end

/-! ### Operations that are done (05 R159 to R163, R171) -/

section
variable {st tag : Nat} {s : State} {o : RemOp}

theorem loadRelease_found (found : findOp s st tag 1 = some o) : loadRelease st tag s =
    if !o.done then s else if o.code ≠ 0 then sendError st o o.code (dropOp st tag s)
    else sendResp st o.part o.peer 0x81 0 o.tracker (loadBytes s o) (dropOp st tag s) := by
  simp only [loadRelease, found]

theorem atomicResult_found {old : BitVec 64} (found : findOp s st tag 3 = some o) :
    atomicResult st tag old s = sendResp st o.part o.peer 0x83 0 o.tracker (le 8 old.toNat) (dropOp st tag s) := by
  simp only [atomicResult, found]

theorem invalidateDone_found (found : findOp s st tag 4 = some o) :
    invalidateDone st tag s = sendResp st o.part o.peer 0x84 0 o.tracker [] (dropOp st tag s) := by
  simp only [invalidateDone, found]

theorem flushDone_found (found : findOp (settleLink st s) st tag 6 = some o) : flushDone st tag s =
    if (opsBefore ((settleLink st s).linkSt st) o).any fun x => !x.done then settleLink st s
    else sendResp st o.part o.peer 0x86 0 o.tracker [] (dropOp st tag (settleLink st s)) := by
  simp only [flushDone, found]

theorem flaggedRelease_first {part peer : Nat} (hu : settleLink st s = u)
    (found : ((u.linkSt st).ops.find? fun o => o.opcode == 2 && !o.issued && o.part == part && o.peer == peer) = some o)
    (before : ∀ x ∈ opsBefore (u.linkSt st) o, x.opcode = 2 → x.done = true) : flaggedRelease st part peer s =
      issueOp st o (u.onLink st fun l => { l with
        ctxs := l.ctxs.map fun c => if sameCtx part peer true false c then { c with flagWait := false } else c }) := by
  have done_ : ((opsBefore (u.linkSt st) o).any fun x => x.opcode == 2 && !x.done) = false := by
    refine List.any_eq_false.mpr fun x mem => ?_
    simp only [Bool.and_eq_true, beq_iff_eq, Bool.not_eq_true', not_and, Bool.not_eq_false]
    exact before x mem
  simp only [flaggedRelease, hu, found, done_, Bool.false_eq_true, if_false]

/-- What a bulk tile's report does to the counter of its copy. -/
def tileReported (o : RemOp) (a : Arrival) : Arrival :=
  if o.code = 0 then landTile ((o.off - a.base) / 8192) a
  else { a with failed := a.failed + 1, err := if a.err = 0 then o.code else a.err, bad := (o.off - a.base) / 8192 :: a.bad }

theorem bulkReport_moves (found : findOp s st tag 7 = some o) (done_ : o.done = true) :
    ((bulkReport st tag s).linkSt st).ops = (s.linkSt st).ops.filter (fun x => x.tag != tag) ∧
      ∀ i, tget {} (bulkReport st tag s).arrivals i =
        if i = o.tracker ∧ (tget {} s.arrivals i).state = 1 ∧ (tget {} s.arrivals i).part = o.part then tileReported o (tget {} s.arrivals i)
        else tget {} s.arrivals i := by
  simp only [bulkReport, found, done_, Bool.not_true, Bool.false_eq_true, if_false]
  refine ⟨?_, fun i => ?_⟩
  · change ((dropOp st tag s).linkSt st).ops = _
    rw [dropOp, linkSt_onLink]
  · exact tget_tmap (d := ({} : Arrival)) (if_neg fun h => absurd h.2.1 (by decide)) s.arrivals

end

/-- Settles O18: each row's outcome by a lemma over the checks that lead to it. -/
theorem packetsAreCheckedAppliedAndAnswered : Obligations.PacketsAreCheckedAppliedAndAnswered := by
  refine ⟨fun st slot b s down => ?_, fun st slot b s up bad => ⟨_, ?_, rfl⟩, ?_, ?_,
    fun st tag s o found => ⟨fun waits => ?_, fun done_ failed => ?_, fun done_ ok => ?_⟩,
    fun st tag old s o found => ?_, fun st tag s o found => ?_, fun st tag s o found => ⟨fun all => ?_, fun some_ => ?_⟩, ?_, ?_⟩
  · exact congrArg Host.Outcome.next (if_pos (closed_eq_true down))
  · change Host.Outcome.next (packetArrival st slot b s) = _
    simp only [packetArrival, closed_eq_false up, bad, Bool.false_eq_true, if_false, if_true]
    rfl
  · intro st slot b s part j c key p link up formed l h n aad job same bound going gen live word found open_ cgen csepoch next single cached half opens
    have verified := verify_passes (c := c) (h := h) same (by rw [port_link link]; exact cached) half opens
    have run := (packetArrival_enters up formed job rfl bound going gen live word).trans
      ((enterPacket_next found open_ cgen csepoch next single).trans (verified.trans (accept_current open_ cgen csepoch)))
    obtain ⟨held, frame⟩ := holdPacket_onPort (h := { h with phase := 2, body := p }) (s := s) link
      fun p => { p with keys := (j.slot, gen32 (s.key j.slot) h.gen) :: without p.keys (j.slot, gen32 (s.key j.slot) h.gen) }
    exact ⟨_, congrArg Host.Outcome.next run, held, frame⟩
  · intro st part peer resp s c h u l ops asks found up open_ going next good plain room whole job a
    exact congrArg Host.Outcome.next ((packetApply_next rfl found up open_ going next).trans (applyPacket_plain job good plain room whole))
  · exact congrArg Host.Outcome.next ((loadRelease_found found).trans (by rw [waits]; rfl))
  · exact congrArg Host.Outcome.next ((loadRelease_found found).trans (by rw [done_, if_neg (by decide), if_pos failed]))
  · exact congrArg Host.Outcome.next ((loadRelease_found found).trans (by rw [done_, if_neg (by decide), if_neg fun h => h ok]))
  · exact congrArg Host.Outcome.next (atomicResult_found found)
  · exact congrArg Host.Outcome.next (invalidateDone_found found)
  · exact congrArg Host.Outcome.next ((flushDone_found found).trans (if_neg fun h => by
      obtain ⟨x, mem, open_⟩ := List.any_eq_true.mp h
      rw [all x mem] at open_
      exact absurd open_ (by decide)))
  · obtain ⟨x, mem, open_⟩ := some_
    exact congrArg Host.Outcome.next ((flushDone_found found).trans (if_pos (List.any_eq_true.mpr ⟨x, mem, by rw [open_]; rfl⟩)))
  · intro st part peer s o u found before
    exact congrArg Host.Outcome.next (flaggedRelease_first rfl found before)
  · intro st tag s o found done_ a state part
    obtain ⟨ops, arrivals⟩ := bulkReport_moves found done_
    have own := (arrivals o.tracker).trans (if_pos ⟨rfl, state, part⟩)
    refine ⟨_, rfl, ops, fun ok => own.trans (if_pos ok), fun failed => own.trans (if_neg failed), fun i other => ?_⟩
    exact (arrivals i).trans (if_neg fun h => other h.1)

end Sys2Proof.Machine
end

section
/-! PROOF of O17. A link request: its checks, its tracker, and the packet that leaves at its space's next sequence. -/

namespace Sys2Proof.Machine
open Sys2Proof Sys2Proof.Crypto

/-! ### Sending one request -/

section
variable {st : Nat} {r : LReq} {u v : State} {c : Ctxt}

theorem sendWaiting_one (sent : trySend st r u = (true, v)) : sendWaiting st [r] [] u = ([], v) := by
  simp only [sendWaiting, sent, List.contains_nil, Bool.false_eq_true, if_false]

/-- A request that joins no other leaves when it can be sent at once. -/
theorem linkSend_one (idle : (u.linkSt st).waiting = [])
    (sent : trySend st r ((u.onLink st fun l => { l with waiting := l.waiting ++ [r] }).onLink st fun l => { l with waiting := [] }) = (true, v)) :
    linkSend st r u = v.onLink st fun x => { x with waiting := [] ++ x.waiting } := by
  have queued : ((u.onLink st fun l => { l with waiting := l.waiting ++ [r] }).linkSt st).waiting = [r] := by
    rw [linkSt_onLink]
    exact congrArg (· ++ [r]) idle
  simp only [linkSend, linkPump, queued, sendWaiting_one sent]

/-- The station's cache with a key moved to its front. -/
def keyUsed (slot gen : Nat) (p : Port) : Port := { p with keys := (slot, gen) :: without p.keys (slot, gen) }

/-- A tracked request of an idle open space whose key is at hand is sent. -/
theorem trySend_tracked {j : Job} {i : Nat} {key : BitVec 256} (up : u.portState st = .opened) (job : jobOf u st r.part = j) (bound : j.state = 1)
    (going : j.stalled = false) (below : atLimit (u.linkSt st) r = false) (free : freeTracker (u.linkSt st) = some i)
    (found : findCtx (u.linkSt st) r.part r.dst false r.resp = some c) (open_ : c.state = 2) (gen : c.gen = j.gen)
    (cached : (u.port st).keys.contains (j.slot, gen32 (u.key j.slot) j.gen) = true)
    (half : halfOf (u.key j.slot) (gen32 (u.key j.slot) j.gen) = some key) :
    trySend st r u = (true, sendReq st r c (u.onPort st (keyUsed j.slot (gen32 (u.key j.slot) j.gen)))) := by
  have enough : trackerless (u.linkSt st) r = false := by
    rw [trackerless, free, Option.isNone_some, Bool.and_false]
  have same : tget {} (u.linkSt st).jobs r.part = j := job
  simp only [trySend, up, reduceCtorEq, or_self, if_false, same, bound, going, below, enough, Bool.false_eq_true, ne_eq, not_true_eq_false, found,
    egress, open_, gen, job, and_self, if_true, linkKey, askKey_cached cached, half]
  rfl

/-- The tracker of a request that leaves through a context. -/
def trackerOf (r : LReq) (c : Ctxt) (now : Nat) : Tracker where
  part := r.part
  peer := r.dst
  engine := r.engine
  slot := r.slot
  tag := r.tag
  kind := r.kind
  fence := r.fence
  epoch := r.epoch
  sentAt := now
  seq := c.seq
  gen := c.gen
  layer := r.layer
  oper := r.oper

/-- The section that carries a tracked request under its tracker. -/
def trackedSection (r : LReq) (i : Nat) : Bytes :=
  opHdr r.kind 4 r.len i r.akind r.handle.toNat r.off ++ pad16 (if r.kind = 3 then fit r.len r.data else [])

theorem tracked_cases {k : Nat} (h : tracked k = true) : k = 1 ∨ k = 3 ∨ k = 4 ∨ k = 6 := by
  simpa only [tracked, Bool.or_eq_true, beq_iff_eq, or_assoc] using h

/-- A tracked request takes its tracker and the next sequence of its space, and leaves in one packet. -/
theorem sendReq_tracked {i : Nat} (request : r.resp = false) (wire : r.wire = r.kind) (kind : tracked r.kind = true)
    (unprofiled : ∀ p ∈ u.profs, p.2.fence ≠ r.fence) (noBundle : ∀ b ∈ (u.linkSt st).bundles, ¬(b.part = r.part ∧ b.peer = r.dst))
    (free : freeTracker (u.linkSt st) = some i) (short : (if r.kind = 3 then fit r.len r.data else []).length ≤ 4096) (space : c.response = false) :
    sendReq st r c u = sendPacket st c.part c.peer c.port 1 false c.gen c.sepoch c.seq (trackedSection r i)
      (takeSeq st c (u.onLink st fun l => { l with trackers := tset l.trackers i (trackerOf r c u.now) })) := by
  have none_ : ((u.linkSt st).bundles.filter fun b => b.part == r.part && b.peer == r.dst) = [] := by
    refine List.filter_eq_nil_iff.mpr fun b mem => ?_
    simp only [Bool.and_eq_true, beq_iff_eq]
    exact noBundle b mem
  have wireOk : r.kind ≠ 0xC1 ∧ r.kind ≠ 2 ∧ wireClass r.kind false = 1 := by
    rcases tracked_cases kind with h | h | h | h <;> rw [h] <;> decide
  obtain ⟨notRot, notStore, class_⟩ := wireOk
  simp only [sendReq, request, wire, notRot, notStore, kind, profCount_none unprofiled, closeBundles, none_, free, sendOp, short, space, class_,
    each, List.foldl_nil, Bool.false_eq_true, or_self, false_and, if_false, if_true, Bool.not_false, Bool.true_and, Nat.zero_add]
  rfl

end

/-! ### Intake (05 R138, R139) -/

/-- The port once it has taken a request. -/
def intakeNoted (tag : Nat) (p : Port) : Port := { p with intake := (p.intake + 1) % 2 ^ 32, lastTag := tag }

section
variable {st : Nat} {r : LReq} {s : State}

/-- A request that is taken leaves all but the station's port, its counters and what it emits as it was. -/
theorem intakeNoted_onL (link : isLink st = true) (tag : Nat) (s : State) : ∃ c x b l, bump st 2 1 (s.onPort st (intakeNoted tag)) =
    onL s st c x b (l ++ s.out) { s.linkSt st with port := intakeNoted tag (s.linkSt st).port } := by
  obtain ⟨c, x, b, l, bumped⟩ := onL_bump s st s.ctrs s.ctxs s.keep.pba s.out { s.linkSt st with port := intakeNoted tag (s.linkSt st).port } st 2 1
  exact ⟨c, x, b, l, (by rw [onPort_link link]; exact bumped)⟩

/-- A request at an Open station whose fence no profile follows: refused, or queued and sent. -/
theorem linkIntake_checks (link : isLink st = true) (up : s.portState st = .opened) (unprofiled : ∀ p ∈ s.profs, p.2.fence ≠ r.fence) :
    linkIntake st r s = if linkCheck s st r ≠ 0 then refuseLink st r (linkCheck s st r) (bump st 2 1 (s.onPort st (intakeNoted r.tag)))
      else linkSend st r (bump st 2 1 (s.onPort st (intakeNoted r.tag))) := by
  obtain ⟨c, x, b, l, noted⟩ := intakeNoted_onL link r.tag s
  have quiet : ∀ p ∈ (bump st 2 1 (s.onPort st (intakeNoted r.tag))).profs, p.2.fence ≠ r.fence := by
    rw [noted]
    exact unprofiled
  have same : linkCheck (bump st 2 1 (s.onPort st (intakeNoted r.tag))) st r = linkCheck s st r := by
    rw [noted]
    exact linkCheck_congr s st c x b (l ++ s.out) ((s.linkSt st).port.intake + 1 |>.mod (2 ^ 32)) r.tag (s.linkSt st).waiting r rfl
  unfold linkIntake
  rw [if_neg fun h => h up]
  change (let u := profCount st r.part r.fence r.layer r.oper [1] (bump st 2 1 (s.onPort st (intakeNoted r.tag)))
    if linkCheck u st r ≠ 0 then refuseLink st r (linkCheck u st r) u else linkSend st r u) = _
  rw [profCount_none quiet]
  dsimp only
  rw [same]

/-- What a chain of refusals answers when its first one does not apply. -/
theorem later_of_zero {p : Prop} [Decidable p] {a b : Nat} (pass : (if p then a else b) = 0) (refuses : p → a ≠ 0) : b = 0 := by
  split at pass
  · exact absurd pass (refuses ‹p›)
  · exact pass

theorem linkLenBad_of_pass (pass : linkCheck s st r = 0) : linkLenBad r = false := by
  have denied : yeDenied ≠ 0 := by decide
  have length : (if linkLenBad r then yeLength else 0) = 0 :=
    later_of_zero (later_of_zero (later_of_zero (later_of_zero (later_of_zero (later_of_zero pass fun _ => denied) fun _ => denied)
      fun _ => (by decide : yeKey ≠ 0)) id) fun _ => (by decide : yeLost ≠ 0)) fun _ => denied
  cases bad : linkLenBad r
  · rfl
  · rw [bad] at length
    cases length

/-- The data of a tracked request that passes its checks fits one packet. -/
theorem tracked_short (pass : linkCheck s st r = 0) : (if r.kind = 3 then fit r.len r.data else []).length ≤ 4096 := by
  split
  · rename_i atomic
    have length := linkLenBad_of_pass pass
    simp only [linkLenBad, atomic, Bool.or_eq_false_iff, Bool.not_eq_false', Bool.or_eq_true, beq_iff_eq] at length
    rw [fit_len]
    omega
  · exact Nat.zero_le _

end

/-! ### Instances, refills and bundles (05 R148, R149, R168) -/

section
variable {st part peer : Nat} {s : State} {c : Ctxt}

/-- The next stream epoch of a space that opens again. -/
def nextEpoch (c : Ctxt) (j : Job) : Nat := if c.gen = j.gen then max (c.sepoch + 1) j.mark else j.mark

/-- The context of a space as its next opening makes it. -/
def reopened (s : State) (st part peer : Nat) (j : Job) (c : Ctxt) : Ctxt := { c with
  state := 2, gen := j.gen, genBit := j.gen % 2 == 1, sepoch := nextEpoch c j, seq := 0, gather := false, final := none,
  port := tget 0 (s.dom part).portMap (peer % 64), st := st }

section
variable {resp : Bool} {j : Job} (found : findCtx (s.linkSt st) part peer false resp = some c) (up : s.portState st ≠ .closed)
  (job : tget {} (s.linkSt st).jobs part = j) (bound : j.state = 1) (going : j.stalled = false)
  (wanted : ∃ r ∈ (s.linkSt st).waiting, r.part = part ∧ r.dst = peer ∧ r.resp = resp)
  (shut : c.state = 3 ∨ c.state = 4 ∨ c.state = 5 ∨ (c.state = 2 ∧ c.gen ≠ j.gen))
include found up job bound going wanted shut

theorem instanceOpen_wanted : instanceOpen st part peer resp s =
    if 0x3FFF < nextEpoch c j then keyThreshold j.slot (s.onDom part fun d => { d with askRot := some 2 })
    else
      let a := closeElsewhere st (reopened s st part peer j c) (putRecord st (reopened s st part peer j c)
        (s.onLink st (putCtx (reopened s st part peer j c))))
      let rot : LReq := { part := part, dst := peer, resp := resp, wire := 0xC1, data := le 8 (c.seq - 1) }
      linkPump st (if c.gen ≠ j.gen ∧ c.seq ≠ 0 then a.onLink st fun l => { l with waiting := rot :: l.waiting } else a) := by
  have waits : ((s.linkSt st).waiting.any fun r => r.part == part && r.dst == peer && r.resp == resp) = true := by
    obtain ⟨r, mem, rfl, rfl, rfl⟩ := wanted
    exact List.any_eq_true.mpr ⟨r, mem, by simp⟩
  simp only [instanceOpen, found, job, closed_eq_false up, bound, going, waits, shut, Bool.false_eq_true, ne_eq, not_true_eq_false, Bool.not_true,
    or_self, if_false]
  rfl

end

section
variable {ing resp : Bool} (found : findCtx (s.linkSt st) part peer ing resp = some c)
include found

theorem refillDone_idle {code : Nat} (idle : c.state ≠ 1 ∨ s.portState st = .closed) : refillDone st part peer ing resp code s = s := by
  have none_ : closed s st = true ∨ c.state ≠ 1 := idle.symm.imp_left closed_eq_true
  simp only [refillDone, found, if_pos none_]

theorem refillDone_filling {code : Nat} (filling : c.state = 1) (up : s.portState st ≠ .closed) : refillDone st part peer ing resp code s =
    if code ≠ 0 then emit (.recordRead st part (recordIdx c)) s
    else linkPump st (retryHeld st 0 (fun h => ing && h.part == part && h.peer == peer && h.response == resp)
      (s.onLink st (putCtx (refillCtx s st c)))) := by
  simp only [refillDone, found, filling, closed_eq_false up, Bool.false_eq_true, ne_eq, not_true_eq_false, or_self, if_false]

end

theorem bundleFlush_idle (idle : s.portState st = .closed ∨ ∀ b ∈ (s.linkSt st).bundles, b.part = part → b.peer = peer →
    s.now < b.openAt + 5 * (jobOf s st part).flush) : bundleFlush st part peer s = s := by
  rcases idle with down | young
  · exact if_pos (closed_eq_true down)
  · have none_ : ((s.linkSt st).bundles.filter fun b => b.part == part && b.peer == peer &&
        decide (b.openAt + 5 * (jobOf s st part).flush ≤ s.now)) = [] := by
      refine List.filter_eq_nil_iff.mpr fun b mem => ?_
      simp only [Bool.and_eq_true, beq_iff_eq, decide_eq_true_eq, not_and, Nat.not_le, and_imp]
      exact young b mem
    unfold bundleFlush closeBundles
    rw [none_]
    exact ite_self _

theorem bundleFlush_due {b : Bundle} (up : s.portState st ≠ .closed) (one : (s.linkSt st).bundles = [b]) (part_ : b.part = part)
    (peer_ : b.peer = peer) (due : b.openAt + 5 * (jobOf s st part).flush ≤ s.now) : bundleFlush st part peer s = closeBundle st b s := by
  simp only [bundleFlush, closeBundles, closed_eq_false up, one, List.filter_cons, part_, peer_, due, beq_self_eq_true, decide_true, Bool.and_self,
    if_true, Bool.false_eq_true, if_false, List.filter_nil]
  rfl

end

/-! ### A request leaves (05 R140 to R145, R166) -/

/-- The packet of a section that leaves for a peer through an open context, under the job's key. -/
def packetOut (st peer : Nat) (key : BitVec 256) (j : Job) (c : Ctxt) (sect : Bytes) : Bytes :=
  let word := seqField peer false j.gen c.seq
  let hdr (n : Nat) := packetHdr 1 peer c.port j.own (st - 0x80) n j.keyIndex j.gen c.sepoch word
  let sealed_ := gcmSeal key (linkIv j.own c.sepoch word) (hdr 0) sect
  hdr sect.length ++ sealed_.1 ++ sealed_.2

section
variable {st i : Nat} {r : LReq} {s u : State} {c : Ctxt} {j : Job} {key : BitVec 256} (link : isLink st = true)
  (request : r.resp = false) (wire : r.wire = r.kind) (kind : tracked r.kind = true)
  (short : (if r.kind = 3 then fit r.len r.data else []).length ≤ 4096)
  (bound : j.state = 1) (going : j.stalled = false) (open_ : c.state = 2) (gen : c.gen = j.gen)
include link request wire kind bound going open_ gen

include short in
theorem trySend_leaves (up : u.portState st = .opened) (unprofiled : ∀ p ∈ u.profs, p.2.fence ≠ r.fence)
    (job : tget {} (u.linkSt st).jobs r.part = j) (below : atLimit (u.linkSt st) r = false)
    (noBundle : ∀ b ∈ (u.linkSt st).bundles, ¬(b.part = r.part ∧ b.peer = r.dst)) (free : freeTracker (u.linkSt st) = some i)
    (found : findCtx (u.linkSt st) r.part r.dst false false = some c)
    (cached : (u.linkSt st).port.keys.contains (j.slot, gen32 (u.key j.slot) j.gen) = true)
    (half : halfOf (u.key j.slot) (gen32 (u.key j.slot) j.gen) = some key) :
    ∃ v, trySend st r u = (true, v) ∧ Out.packet st (packetOut st r.dst key j c (trackedSection r i)) ∈ v.out ∧
      (v.linkSt st).waiting = (u.linkSt st).waiting ∧
      (v.linkSt st).trackers = tset (u.linkSt st).trackers i (trackerOf r c u.now) := by
  obtain ⟨part, peer, -, space⟩ := findCtx_same found
  have sent := trySend_tracked up job bound going below free (by rw [request]; exact found) open_ gen (by rw [port_link link]; exact cached) half
  rw [onPort_link link] at sent
  generalize hw : (u.onLink st fun l => { l with port := keyUsed j.slot (gen32 (u.key j.slot) j.gen) l.port }) = w at sent
  have station : w.linkSt st = { u.linkSt st with port := keyUsed j.slot (gen32 (u.key j.slot) j.gen) (u.linkSt st).port } := by
    rw [← hw, linkSt_onLink]
  have keys : w.key j.slot = u.key j.slot := by rw [← hw]; rfl
  have now : w.now = u.now := by rw [← hw]; rfl
  rw [sendReq_tracked request wire kind (by rw [← hw]; exact unprofiled) (by rw [station]; exact noBundle) (by rw [station]; exact free) short space]
    at sent
  generalize hz : takeSeq st c (w.onLink st fun l => { l with trackers := tset l.trackers i (trackerOf r c w.now) }) = z at sent
  have zLink : z.linkSt st = putCtx { c with seq := c.seq + 1 }
      { w.linkSt st with trackers := tset (w.linkSt st).trackers i (trackerOf r c w.now) } := by
    rw [← hz, takeSeq, linkSt_onLink, linkSt_onLink]
  have zJob : jobOf z st c.part = j := by
    rw [jobOf, zLink, part, station]
    exact job
  have zKey : z.key j.slot = u.key j.slot := (by rw [← hz]; rfl : z.key j.slot = w.key j.slot).trans keys
  obtain ⟨⟨trackers, waiting, -⟩, packet⟩ := sendPacket_does st c.part c.peer c.port 1 false c.gen c.sepoch c.seq (trackedSection r i) z
  rw [zJob, zKey, peer, gen, half, Option.getD_some] at packet
  rw [peer] at sent trackers waiting
  rw [gen] at sent trackers waiting
  refine ⟨_, sent, packet, waiting.trans ?_, trackers.trans ?_⟩
  · rw [zLink, station]
    rfl
  · rw [zLink, station, now]
    rfl

/-- A tracked request that passes its checks at an idle open space leaves at once. -/
theorem linkIntake_leaves (up : s.portState st = .opened) (unprofiled : ∀ p ∈ s.profs, p.2.fence ≠ r.fence)
    (pass : linkCheck s st r = 0) (job : tget {} (s.linkSt st).jobs r.part = j) (below : atLimit (s.linkSt st) r = false)
    (idle : (s.linkSt st).waiting = [])
    (noBundle : ∀ b ∈ (s.linkSt st).bundles, ¬(b.part = r.part ∧ b.peer = r.dst)) (free : freeTracker (s.linkSt st) = some i)
    (found : findCtx (s.linkSt st) r.part r.dst false false = some c)
    (cached : (s.linkSt st).port.keys.contains (j.slot, gen32 (s.key j.slot) j.gen) = true)
    (half : halfOf (s.key j.slot) (gen32 (s.key j.slot) j.gen) = some key) :
    Out.packet st (packetOut st r.dst key j c (trackedSection r i)) ∈ (linkIntake st r s).out ∧
      ((linkIntake st r s).linkSt st).waiting = [] ∧
      ((linkIntake st r s).linkSt st).trackers = tset (s.linkSt st).trackers i (trackerOf r c s.now) := by
  obtain ⟨n, x, b, l, noted⟩ := intakeNoted_onL link r.tag s
  have run := (linkIntake_checks link up unprofiled).trans (if_neg fun h => h pass)
  rw [noted] at run
  generalize hL : ({ s.linkSt st with port := intakeNoted r.tag (s.linkSt st).port } : LinkSt) = L at run
  have station : (onL s st n x b (l ++ s.out) { L with waiting := [] }).linkSt st = { L with waiting := [] } := onL_linkSt ..
  obtain ⟨v, sent, packet, waiting, trackers⟩ := trySend_leaves (u := onL s st n x b (l ++ s.out) { L with waiting := [] })
    link request wire kind (tracked_short pass) bound going open_ gen
    ((portState_link s link n x b (l ++ s.out) { L with waiting := [] } (by rw [← hL]; rfl) (by rw [← hL]; rfl)).trans up) unprofiled
    (by rw [station, ← hL]; exact job) (by rw [station, ← hL]; exact below) (by rw [station, ← hL]; exact noBundle)
    (by rw [station, ← hL]; exact free) (by rw [station, ← hL]; exact found) (by rw [station, ← hL]; exact cached) half
  rw [station] at waiting trackers
  rw [run, linkSend_one (v := v) (by rw [onL_linkSt, ← hL]; exact idle) (by rw [onL_onLink, onL_onLink]; exact sent), linkSt_onLink]
  refine ⟨packet, ?_, trackers.trans ?_⟩
  · rw [waiting]
    rfl
  · rw [← hL]
    rfl

end

/-- Settles O17: the checks of a request, its way through an idle open space, and the rows that open, refill and flush a space. -/
theorem linkRequestsLeaveThroughTheirSpace : Obligations.LinkRequestsLeaveThroughTheirSpace := by
  refine ⟨fun st req data s down => ?_, ?_, ?_, ?_, ?_, fun st part peer s => ⟨fun idle => ?_, fun b up one part_ peer_ due => ?_⟩⟩
  · exact congrArg Host.Outcome.next (if_pos down)
  · intro st req data s link up r unprofiled refused
    exact congrArg Host.Outcome.next ((linkIntake_checks link up unprofiled).trans (if_pos refused))
  · intro st req data s c i key link up r l j sect word hdr sealed_ unprofiled pass kind bound going below idle noBundle free found open_ gen cached half
    exact ⟨_, rfl, linkIntake_leaves link rfl rfl kind bound going open_ gen up unprofiled pass rfl below idle noBundle free found cached half⟩
  · intro st part peer resp s c l j e found up bound going wanted shut
    have run := instanceOpen_wanted found up rfl bound going wanted shut
    exact ⟨fun room => congrArg Host.Outcome.next (run.trans (if_neg (Nat.not_lt.mpr room))),
      fun full => congrArg Host.Outcome.next (run.trans (if_pos full))⟩
  · intro st part peer ing resp rc s c found
    refine ⟨fun idle => congrArg Host.Outcome.next (refillDone_idle found idle), fun filling up => ⟨fun failed => ?_, fun ok => ?_⟩⟩
    · refine congrArg Host.Outcome.next ((refillDone_filling found filling up).trans (if_pos fun h => failed ?_))
      exact BitVec.eq_of_toNat_eq h
    · subst ok
      exact congrArg Host.Outcome.next ((refillDone_filling found filling up).trans (if_neg fun h => h rfl))
  · exact congrArg Host.Outcome.next (bundleFlush_idle idle)
  · exact congrArg Host.Outcome.next (bundleFlush_due up one part_ peer_ due)

end Sys2Proof.Machine
end

section
/-! PROOF of O13. A memory request's intake: refused, waiting for its descriptor, or started at an idle station. -/

namespace Sys2Proof.Machine
open Sys2Proof Sys2Proof.Crypto

section
variable {st : Nat} {s : State} {r : MReq}

/-! ### Intake (03 R70 to R72) -/

theorem intake_notReady (shut : intakeOpen s st r.kind = false ∨ 1024 ≤ (s.memSt st).reqs.length) : intake st r s = s := by
  rw [intake_eq, if_pos]
  rcases shut with shut | full
  · rw [shut]
    rfl
  · rw [decide_eq_true full, Bool.or_true]

section
variable (ready : intakeOpen s st r.kind = true) (room : (s.memSt st).reqs.length < 1024)
include ready room

theorem intake_bad (bad : requestBad r = true) : intake st r s =
    refuseReq st (stamp ((s.port st).intake + 1) s.now r) 1 yeDenied (joins st (stamp ((s.port st).intake + 1) s.now r) (counted st r s)) := by
  rw [intake_eq, ready, decide_eq_false (Nat.not_le.mpr room), if_neg (by decide)]
  exact if_pos bad

theorem intake_missing (good : requestBad r = false)
    (missing : ((counted st r s).memSt st).descs.contains (handleIdx r.handle.toNat) = false) : intake st r s =
    bump st 15 1 (joins st (waitDesc (stamp ((s.port st).intake + 1) s.now r)) (counted st r s)) := by
  rw [intake_eq, ready, decide_eq_false (Nat.not_le.mpr room), if_neg (by decide), if_neg (by
    rw [show requestBad (stamp ((s.port st).intake + 1) s.now r) = requestBad r from rfl, good]
    decide), missing, if_neg (by decide)]

end

/-- A request that is taken changes its station's port, and counters and emissions. -/
theorem counted_quiet (mem : isMem st = true) (unprofiled : ∀ p ∈ s.profs, p.2.fence ≠ r.fence) :
    Quiet (s.onMem st fun m => { m with port := { m.port with intake := ((s.port st).intake + 1) % 2 ^ 32, lastTag := r.tag } }) (counted st r s) := by
  have quiet := Quiet.bump st 2 1
    (s.onMem st fun m => { m with port := { m.port with intake := ((s.port st).intake + 1) % 2 ^ 32, lastTag := r.tag } })
  rw [counted, onPort_mem mem, profCount_none]
  · exact quiet
  · rw [quiet.kept.2.2.1]
    exact unprofiled

theorem waiting_request (mem : isMem st = true) (unprofiled : ∀ p ∈ s.profs, p.2.fence ≠ r.fence) (x : MReq) :
    (bump st 15 1 (joins st x (counted st r s))).memSt st =
      { s.memSt st with
        port := { (s.memSt st).port with intake := ((s.port st).intake + 1) % 2 ^ 32, lastTag := r.tag }
        reqs := (s.memSt st).reqs ++ [x] } ∧
      ∀ v, v ≠ st → (bump st 15 1 (joins st x (counted st r s))).memSt v = s.memSt v := by
  have took := fun v => (counted_quiet (r := r) mem unprofiled).kept.memSt v
  refine ⟨?_, fun v other => ?_⟩
  · rw [(Quiet.bump ..).kept.memSt, joins, memSt_onMem, took, memSt_onMem]
  · rw [(Quiet.bump ..).kept.memSt, joins, memSt_onMem_other _ _ _ _ other, took, memSt_onMem_other _ _ _ _ other]

end

/-! ### The start at an idle station (03 R75 to R82; 04 R123) -/

/-- The state `t` in which the request `r`, alone at its station, reaches its version stage. -/
structure AtVersion (k st : Nat) (s : State) (r : MReq) (o : Obj) (p : Place) (t : State) : Prop where
  kind : r.kind = k
  alone : (t.memSt st).reqs = [r]
  stage : r.stage = 0
  unlocked : r.locked = false
  sector : r.sector = 0
  locks : lockCount (t.memSt st) < 64
  obj : t.obj (handleIdx r.handle.toNat) = o
  place : placeOf (t.obj (handleIdx r.handle.toNat)) st = some p
  addr : ∀ q, payAddr t q = payAddr s q
  chan : ∀ u, chanOf t u = chanOf s u
  unprofiled : ∀ p ∈ t.profs, p.2.fence ≠ r.fence
  safe : t.isSafe st = s.isSafe st
  accs : t.accs = s.accs
  lines : (t.memSt st).lines = (s.memSt st).lines
  vrt : (t.memSt st).vrt = (s.memSt st).vrt

theorem rowOf_sector (k origin : Nat) (req : BitVec 256) (data : Bytes) : (rowOf k origin req data).sector = 0 := by
  unfold rowOf rowReq
  generalize (if k ≤ 2 then [] else data) = d
  dsimp only
  split <;> rfl

section
variable {k st origin : Nat} {s t : State} {req : BitVec 256} {data : Bytes} {r : MReq} {o : Obj} {p : Place}

/-- An accepted request reaches its version stage. -/
theorem Accepted.atVersion {row : Nat → Nat → BitVec 256 → Bytes → Instr} (mem : isMem st = true) (row_ : (k, row) ∈ memRows)
    (accepted : Accepted k st origin req data s r o p) :
    ∃ t, exec (row st origin req data) s = .next (advance st r t).2 ∧ AtVersion k st s r o p t := by
  obtain ⟨t, run, kind, alone, stage, unlocked, locks, c, x, b, l, i, tag, ds, ht⟩ := accepted_advances row_ mem accepted
  obtain ⟨hr, ho, -, -, unprofiled, -, -, -, place, -, -⟩ := accepted
  have station : t.memSt st = took s st i tag ds [r] := by rw [ht]; exact acct_mem ..
  refine ⟨t, run, kind, alone, stage, unlocked, by rw [hr]; exact rowOf_sector .., locks, ?_, ?_, ?_, ?_, ?_, ?_, ?_, ?_, ?_⟩
  · rw [ho, ht]
    rfl
  · rw [← place, ho, ht]
    rfl
  · intro q
    rw [ht]
    rfl
  · intro u
    rw [ht]
    rfl
  · rw [ht]
    exact unprofiled
  · rw [ht]
    rfl
  · rw [ht]
    rfl
  · rw [station]
    rfl
  · rw [station]
    rfl

theorem readTile_plain (a : AtVersion 1 st s r o p t) (plain : o.cls = 4) : Out.chanRead st r.acc (32 * r.hslot) 32 ∈ (advance st r t).2.out ∧
    (r.hint ≠ 0 → Out.chanRead st r.acc (payAddr s r) (64 * r.hint) ∈ (advance st r t).2.out) ∧
    ((advance st r t).2.memSt st).reqs = [{ r with stage := 1, old := [] }] := by
  have policy : policyOf t o = 0 := if_pos (.inr plain)
  rw [adv1 a.place a.kind (by rw [a.obj, plain]; decide), a.obj, advReadTile, if_pos plain, policy, if_neg (by decide), ← a.addr]
  obtain ⟨header, payload, reqs⟩ := issueRead_does (n := 64 * r.hint) a.alone rfl a.unprofiled
  exact ⟨header, fun some_ => payload (by omega), reqs⟩

/-- A read that ends gives its data and its end, and leaves the station. -/
theorem endRead_does {n blocks : Nat} {u : State} {x : MReq} (alone : (u.memSt st).reqs = [x]) (acc : r.acc = x.acc)
    (unprofiled : ∀ p ∈ u.profs, p.2.fence ≠ r.fence) :
    Out.rdata st r.origin r.tag data ∈ (endRead st r n blocks data u).out ∧ Out.rfin st r.origin r.tag 16 0 ∈ (endRead st r n blocks data u).out ∧
      ((endRead st r n blocks data u).memSt st).reqs = [] := by
  unfold endRead
  extract_lets a m v w
  have kept : Kept a v := ((Quiet.bump st 3 1 a).trans ((Quiet.bump st 6 m _).trans (Quiet.bump st 9 blocks _))).kept.trans (Kept.meterReq ..)
  have same : w = v := profCount_none (by rw [kept.2.2.1]; exact unprofiled)
  rw [same]
  have answered := kept.trans (Kept.ackOrigin r 0 data v)
  refine ⟨answered.out (List.mem_cons_of_mem _ (List.mem_cons_self ..)), answered.out (List.mem_cons_self ..), ?_⟩
  rw [dropReq, memSt_onMem, answered.memSt]
  change ((u.memSt st).reqs.filter fun r' => r'.acc != r.acc) = []
  rw [alone, acc]
  simp

theorem readTile_zero {l : Line} (a : AtVersion 1 st s r o p t) (coarse : o.cls = 2)
    (good : vrtCond ((s.memSt st).entry (entryOf p (((chanOf s r.pslot).2 - p.first) / 32))) ≠ 3)
    (still : vrtReseal ((s.memSt st).entry (entryOf p (((chanOf s r.pslot).2 - p.first) / 32))) = false)
    (cached : cachedLine (s.memSt st) (entryOf p (((chanOf s r.pslot).2 - p.first) / 32)) = some l) (major : l.major = 0)
    (minor : minorOf l (((chanOf s r.pslot).2 - p.first) % 32) = 0) :
    Out.rdata st r.origin r.tag (zeroHeader ++ zeros 8192) ∈ (advance st r t).2.out ∧
      Out.rfin st r.origin r.tag 16 0 ∈ (advance st r t).2.out ∧ ((advance st r t).2.memSt st).reqs = [] := by
  have entry (e : Nat) : (t.memSt st).entry e = (s.memSt st).entry e := by rw [MemSt.entry, MemSt.entry, a.vrt]
  have line (e : Nat) : cachedLine (t.memSt st) e = cachedLine (s.memSt st) e := by rw [cachedLine, cachedLine, a.lines]
  have quiet := Quiet.bump st 11 1 (t.onMem st fun m => putLine m l)
  have run : (advance st r t).2 = endRead st r 8192 0 (zeroHeader ++ zeros 8192) (bump st 11 1 (t.onMem st fun m => putLine m l)) := by
    rw [adv1 a.place a.kind (by rw [a.obj, coarse]; decide), a.obj, a.chan]
    simp only [advReadTile, coarse, slotOf, entry, line, good, cached, readVersion, still, major, minor, show ¬(2 = 4) by decide,
      show ¬(2 = 1) by decide, show ¬(2 = 3) by decide, if_false, if_true, Bool.false_eq_true, and_self]
  rw [run]
  refine endRead_does (x := r) ?_ rfl ?_
  · rw [quiet.kept.memSt, memSt_onMem]
    exact a.alone
  · rw [quiet.kept.2.2.1]
    exact a.unprofiled

/-- The next sector asked of a plain tile is read at its place. -/
theorem advSectors_plain {i n c : Nat} {u : State} (plain : o.cls = 4) (next : nextSector r.smask r.sector = some i)
    (unprofiled : ∀ p ∈ u.profs, p.2.fence ≠ r.fence) : advSectors (n + 1) st r o p c u =
      (true, setReq st { r with sector := i, stage := 2 } (bump st 7 512 (emit (.chanRead st r.acc (payAddr u r + 512 * i) 512) u))) := by
  generalize hv : emit (.chanRead st r.acc (payAddr u r + 512 * i) 512) u = v
  have profs : ∀ p ∈ v.profs, p.2.fence ≠ r.fence := by rw [← hv]; exact unprofiled
  simp only [advSectors, next, plain, show ¬(4 = 3) by decide, if_true, if_false, hv, profCount_none profs]

theorem readSectors_plain {i : Nat} (a : AtVersion 2 st s r o p t) (plain : o.cls = 4) (first : nextSector r.smask 0 = some i) :
    Out.chanRead st r.acc (payAddr s r + 512 * i) 512 ∈ (advance st r t).2.out ∧
      ((advance st r t).2.memSt st).reqs = [{ r with sector := i, stage := 2 }] := by
  rw [adv2 a.place a.kind, a.obj, advSectors_plain (n := 16) plain (by rw [a.sector]; exact first) a.unprofiled, a.addr]
  refine ⟨(Grows.onMem ..).out ((Quiet.bump ..).kept.out (List.mem_cons_self ..)), setReq_one (r := r) ?_ rfl⟩
  rw [(Quiet.bump ..).kept.memSt]
  exact a.alone

theorem writeTile_plain (a : AtVersion 3 st s r o p t) (plain : o.cls = 4) (open_ : s.isSafe st = false) :
    Out.chanWrite st r.acc (payAddr s r) (fit r.len r.data ++ zeros ((64 - (fit r.len r.data).length % 64) % 64)) ∈ (advance st r t).2.out ∧
      ((advance st r t).2.memSt st).reqs = [{ r with stage := 3, committed := true, hdr := header [] r.len r.fmt 0, data := [] }] := by
  have run : (advance st r t).2 = issueWrite st r (payAddr s r) r.len 0
      (fit r.len r.data ++ zeros ((64 - (fit r.len r.data).length % 64) % 64)) (header [] r.len r.fmt 0) t := by
    rw [adv3 a.place a.kind (by rw [a.obj, plain]; decide), a.obj]
    simp only [advWriteTile, commitOk, a.safe, open_, plain, a.addr, Bool.not_false, Bool.not_true, Bool.false_eq_true, if_false, if_true]
  rw [run]
  exact issueWrite_does a.alone rfl a.unprofiled

theorem edgeUnits_aligned {off len : Nat} (start : off % 16 = 0) (length : len % 16 = 0) : edgeUnits off len = [] := by
  have last : (off + len) % 16 = 0 := by omega
  simp only [edgeUnits, start, last, if_true, true_or]

theorem writeRange_plain (a : AtVersion 4 st s r o p t) (plain : o.cls = 4) (open_ : s.isSafe st = false) (start : r.off % 16 = 0)
    (length : r.len % 16 = 0) : Out.chanWrite st r.acc (payAddr s r + r.off) (fit r.len r.data) ∈ (advance st r t).2.out ∧
      ((advance st r t).2.memSt st).reqs = [{ r with stage := 3, committed := true, hdr := [], data := [], locked := true }] := by
  have last : (r.off + r.len) % 16 = 0 := by omega
  have lane : r.off / 16 * 16 = r.off := by omega
  have run : (advance st r t).2 = issueWrite st { r with locked := true } (payAddr s r + r.off) r.len 0 (fit r.len r.data) []
      (setReq st { r with locked := true } t) := by
    rw [adv4 a.place a.kind a.stage a.unlocked a.locks (by rw [a.obj]; exact plain)]
    have same : (setReq st { r with locked := true } t).isSafe st = false := a.safe.trans open_
    have addr : payAddr (setReq st { r with locked := true } t) { r with locked := true } = payAddr s r := a.addr r
    simp only [advPlainRange, finishPlain, edgeUnits_aligned start length, List.isEmpty_nil, if_true, commitOk, same, Bool.not_false, Bool.not_true,
      Bool.false_eq_true, if_false, plainLanes, start, last, lane, List.nil_append, List.append_nil, addr]
  rw [run]
  exact issueWrite_does (setReq_one a.alone rfl) rfl a.unprofiled

theorem accumulate_plain (a : AtVersion 5 st s r o p t) (plain : o.cls = 4) (open_ : s.isSafe st = false)
    (desc : (tget {} s.accs r.desc).state ≠ 0) : Out.chanRead st r.acc (32 * r.hslot) 32 ∈ (advance st r t).2.out ∧
    (destLen (tget {} s.accs r.desc).bs ≠ 0 → Out.chanRead st r.acc (payAddr s r) (destLen (tget {} s.accs r.desc).bs) ∈ (advance st r t).2.out) ∧
    ((advance st r t).2.memSt st).reqs = [{ r with stage := 1, old := [], locked := true }] := by
  have run : (advance st r t).2 = issueRead st { r with locked := true } (destLen (tget {} s.accs r.desc).bs)
      (setReq st { r with locked := true } t) := by
    rw [adv5 a.place a.kind a.stage a.unlocked a.locks, a.obj]
    have same : (setReq st { r with locked := true } t).isSafe st = false := a.safe.trans open_
    have accs : (setReq st { r with locked := true } t).accs = s.accs := a.accs
    simp only [advCoarse, commitOk, same, accs, desc, plain, Bool.not_false, Bool.not_true, Bool.false_eq_true, if_false, if_true, and_false]
  have addr : payAddr (setReq st { r with locked := true } t) { r with locked := true } = payAddr s r := a.addr r
  rw [run, ← addr]
  exact issueRead_does (setReq_one a.alone rfl) rfl a.unprofiled

end

/-- Settles O13: the intake of a row, and for each kind what its version stage does. -/
theorem memoryRequestsEnterAndStart : Obligations.MemoryRequestsEnterAndStart := by
  intro st s mem
  refine ⟨fun k row row_ origin req data => ?_, ?_, ?_, ?_, ?_, ?_, ?_⟩
  · intro r n
    have run := row_intake row_ st origin req data s
    refine ⟨fun shut => run.trans (congrArg _ (intake_notReady shut)), fun ready room unprofiled => ⟨fun bad => ?_, fun good missing => ?_⟩⟩
    · obtain ⟨answer, gone⟩ := refuseReq_answers (st := st) (r := stamp n s.now r) (code := yeDenied)
        (s := joins st (stamp n s.now r) (counted st r s)) (rfl : (1 : Nat) = 1)
      exact ⟨_, run.trans (congrArg _ (intake_bad ready room bad)), answer, gone⟩
    · obtain ⟨station, others⟩ := waiting_request mem unprofiled (waitDesc (stamp n s.now r))
      have cold : ((counted st r s).memSt st).descs.contains (handleIdx r.handle.toNat) = false := by
        rw [(counted_quiet mem unprofiled).kept.memSt, memSt_onMem]
        exact missing
      refine ⟨_, run.trans (congrArg _ (intake_missing ready room good cold)), ?_, ?_, ?_, others⟩
      · rw [port_mem mem, station]
      · rw [port_mem mem, station]
      · rw [station]
        rfl
  · intro origin req r o p accepted plain
    obtain ⟨t, run, version⟩ := accepted.atVersion mem (row := fun st o r _ => .readTile st o r) (by simp [memRows])
    exact ⟨_, run, readTile_plain version plain⟩
  · intro origin req r o p l accepted coarse k v good still cached major minor
    obtain ⟨t, run, version⟩ := accepted.atVersion mem (row := fun st o r _ => .readTile st o r) (by simp [memRows])
    exact ⟨_, run, readTile_zero version coarse good still cached major minor⟩
  · intro origin req r o p i accepted plain first
    obtain ⟨t, run, version⟩ := accepted.atVersion mem (row := fun st o r _ => .readSectors st o r) (by simp [memRows])
    exact ⟨_, run, readSectors_plain version plain first⟩
  · intro origin req data r o p accepted plain open_ d
    obtain ⟨t, run, version⟩ := accepted.atVersion mem (row := .writeTile) (by simp [memRows])
    exact ⟨_, run, writeTile_plain version plain open_⟩
  · intro origin req data r o p accepted plain open_ start length
    obtain ⟨t, run, version⟩ := accepted.atVersion mem (row := .writeRange) (by simp [memRows])
    exact ⟨_, run, writeRange_plain version plain open_ start length⟩
  · intro origin req data r o p accepted plain open_ desc
    obtain ⟨t, run, version⟩ := accepted.atVersion mem (row := .accumulate) (by simp [memRows])
    exact ⟨_, run, accumulate_plain version plain open_ desc⟩

end Sys2Proof.Machine
end

section
/-! PROOF of O14. What the channel, the caches and the keep return to a memory station, and the 1 ms request timeout. -/

namespace Sys2Proof.Machine
open Sys2Proof Sys2Proof.Crypto

theorem onMem_comp (st : Nat) (f g : MemSt → MemSt) (s : State) : (s.onMem st f).onMem st g = s.onMem st fun m => g (f m) := by
  have last : tget {} (tset s.mem st (f (tget {} s.mem st))) st = f (tget {} s.mem st) := tget_tset_same ..
  unfold State.onMem tupd
  dsimp only
  rw [tset_tset, last]

section
variable {st acc : Nat} {s : State} {r : MReq} (found : findReq s st acc = some r) (up : s.portState st ≠ .closed)
include found up

/-! ### The header (03 R75, 02 R46) -/

/-- What a request has asked of a payload before its header is known. -/
def askedLen (s : State) (r : MReq) : Nat :=
  if r.kind = 1 then (if policyOf s (s.obj (handleIdx r.handle.toNat)) = 9 then 8192 else 64 * r.hint)
  else if r.kind = 5 ∧ (s.obj (handleIdx r.handle.toNat)).cls = 4 then destLen (tget {} s.accs r.desc).bs else 8192

section
variable {hdr : Bytes} (stage : r.stage = 1)
include stage

theorem headerReturn_bad (bad : headerOk (policyOf s (s.obj (handleIdx r.handle.toNat))) ((s.obj (handleIdx r.handle.toNat)).cls == 4) (fit 32 hdr) = false) :
    headerReturn st acc hdr s = pump st (tagFail st r s) := by
  simp only [headerReturn, found, closed_eq_false up, stage, bad, Bool.false_eq_true, ne_eq, not_true_eq_false, or_self, if_false, Bool.not_false, if_true]

variable (good : headerOk (policyOf s (s.obj (handleIdx r.handle.toNat))) ((s.obj (handleIdx r.handle.toNat)).cls == 4) (fit 32 hdr) = true)
include good

theorem headerReturn_enough (enough : headerLen (fit 32 hdr) ≤ askedLen s r) :
    headerReturn st acc hdr s = setReq st { r with hdr := fit 32 hdr, stage := 2 } s := by
  unfold askedLen at enough
  simp only [headerReturn, found, closed_eq_false up, stage, good, Bool.false_eq_true, ne_eq, not_true_eq_false, or_self, if_false, Bool.not_true,
    if_neg (Nat.not_lt.mpr enough)]

theorem headerReturn_more (unprofiled : ∀ p ∈ s.profs, p.2.fence ≠ r.fence) (more : askedLen s r < headerLen (fit 32 hdr)) :
    headerReturn st acc hdr s = setReq st { r with hdr := fit 32 hdr, stage := 2 }
      (emit (.chanRead st acc (payAddr s r + askedLen s r) (headerLen (fit 32 hdr) - askedLen s r)) (bump st 7 (headerLen (fit 32 hdr) - askedLen s r) s)) := by
  unfold askedLen at more ⊢
  simp only [headerReturn, found, closed_eq_false up, stage, good, Bool.false_eq_true, ne_eq, not_true_eq_false, or_self, if_false, Bool.not_true,
    if_pos more, profCount_none unprofiled]

end

/-! ### The payload (01 R27, 03 R75) -/

section
variable {data : Bytes} (stage : r.stage = 2)
include stage

theorem readReturn_write (write : isWrite r.kind = true) : readReturn st acc data s = pump st (setReq st { r with old := data, stage := 5 } s) := by
  simp only [readReturn, found, closed_eq_false up, stage, write, Bool.false_eq_true, ne_eq, not_true_eq_false, or_self, if_false, if_true]

variable (tile : r.kind = 1)
include tile

theorem readReturn_plain (plain : (s.obj (handleIdx r.handle.toNat)).cls = 4) :
    readReturn st acc data s = pump st (endRead st r (headerLen r.hdr) 0 (r.hdr ++ fit (headerLen r.hdr) data) s) := by
  simp only [readReturn, found, closed_eq_false up, stage, tile, plain, Bool.false_eq_true, ne_eq, not_true_eq_false, or_self, if_false,
    show isWrite 1 = false by decide, show ¬(4 = 3) by decide, not_false_eq_true, and_self, if_true]

theorem readReturn_sealed (sealed_ : (s.obj (handleIdx r.handle.toNat)).cls = 1 ∨ (s.obj (handleIdx r.handle.toNat)).cls = 2) :
    readReturn st acc data s = pump st (tileReturn st r (s.obj (handleIdx r.handle.toNat)) data s) := by
  have cls : (s.obj (handleIdx r.handle.toNat)).cls ≠ 3 ∧ (s.obj (handleIdx r.handle.toNat)).cls ≠ 4 := by omega
  simp only [readReturn, found, closed_eq_false up, stage, tile, cls.1, cls.2, Bool.false_eq_true, ne_eq, not_true_eq_false, or_self, if_false,
    show isWrite 1 = false by decide, not_false_eq_true, and_self, if_true]

end

/-! ### Acknowledgements (03 R79, R104) -/

theorem writeAck_payload (stage : r.stage = 3) (header : r.hdr ≠ []) : writeAck st acc s =
    if s.isSafe st then pump st (cutWrite st r s)
    else pump st (setReq st { r with stage := 4, hdr := [] }
      (emit (.chanWrite st acc (headAddr ((s.obj (handleIdx r.handle.toNat)).cls == 3) r) r.hdr) s)) := by
  simp only [writeAck, found, closed_eq_false up, stage, header, Bool.false_eq_true, ne_eq, not_false_eq_true, and_self, if_false, if_true]

theorem writeAck_last (last : r.stage = 4 ∨ (r.stage = 3 ∧ r.hdr = [])) :
    writeAck st acc s = pump st (accepted st ((s.obj (handleIdx r.handle.toNat)).cls == 3) r s) := by
  have whole : ¬(r.stage = 3 ∧ r.hdr ≠ []) := by
    rintro ⟨stage, header⟩
    rcases last with four | ⟨-, none_⟩
    · omega
    · exact header none_
  have done_ : r.stage = 3 ∨ r.stage = 4 := last.symm.imp_left And.left
  simp only [writeAck, found, closed_eq_false up, if_neg whole, if_pos done_, Bool.false_eq_true, if_false]

end

section
variable {st : Nat} {s : State} {r : MReq} {o : Obj} {data : Bytes} {key : BitVec 256} (half : halfOf (s.key r.keySlot) r.keyGen = some key)
include half

theorem tileReturn_forged (out : openTile key r.pslot (version r.major r.minor) (policyOf s o) r.hdr data = none) :
    tileReturn st r o data s = tagFail st r s := by
  simp only [tileReturn, half, out]

theorem tileReturn_opens {l f : Nat} {b : Bytes} (out : openTile key r.pslot (version r.major r.minor) (policyOf s o) r.hdr data = some (l, f, b)) :
    tileReturn st r o data s = endRead st r l (tileBlocks (ofLe (cut 19 1 r.hdr)) (headerLen r.hdr)) (header [] l f (ofLe (cut 19 1 r.hdr)) ++ b) s := by
  simp only [tileReturn, half, out]

end

/-! ### Version lines (02 R53, R61; 03 R85, R87) -/

section
variable {st e : Nat} {s : State} {line : BitVec 512} {slot gen : Nat}

/-- A line that comes back is looked at with its partition's version key at hand. -/
def lineAtHand (st e slot gen : Nat) (s : State) : State :=
  s.onMem st fun m => { m with
    fetching := without m.fetching e, port := { m.port with keys := (slot, gen) :: without m.port.keys (slot, gen) } }

/-- A version line as its bytes give it. -/
def lineOf (e : Nat) (line : BitVec 512) : Line := { entry := e, minors := line.extractLsb' 0 384, major := (line.extractLsb' 384 64).toNat }

theorem useVerKey_cached (ver : verKey s (vrtPart ((s.memSt st).entry e)) = some (slot, gen))
    (cached : (s.port st).keys.contains (slot, gen) = true) (half : halfOf (s.key slot) gen ≠ none) : useVerKey st (vrtPart ((s.memSt st).entry e)) s =
    (true, s.onPort st fun p => { p with keys := (slot, gen) :: without p.keys (slot, gen) }) := by
  have some_ : (halfOf (s.key slot) gen).isSome = true := Option.isSome_iff_ne_none.mpr half
  simp only [useVerKey, ver, useKey, cached, Bool.true_or, if_true, askKey_cached cached, some_]

theorem atHand_eq (mem : isMem st = true) : (s.onPort st fun p => { p with keys := (slot, gen) :: without p.keys (slot, gen) }).onMem st
    (fun m => { m with fetching := without m.fetching e }) = lineAtHand st e slot gen s := by
  rw [onPort_mem mem, onMem_comp, lineAtHand]

variable (mem : isMem st = true) (up : s.portState st ≠ .closed) (fetching : (s.memSt st).fetching.contains e = true)
  (ver : verKey s (vrtPart ((s.memSt st).entry e)) = some (slot, gen)) (cached : (s.port st).keys.contains (slot, gen) = true)
  (half : halfOf (s.key slot) gen ≠ none)
include mem up fetching ver cached half

/-- A line whose MAC does not match. -/
theorem lineReturn_forged (forged : lineMac (lineAtHand st e slot gen s) st (lineOf e line) (vrtPart ((s.memSt st).entry e))
    (vrtRoot ((s.memSt st).entry e)) ≠ le 8 (line.extractLsb' 448 64).toNat) : lineReturn st e line s =
      pump st (failOnLine st e yeTagFail 2 ((faultEvent st 0x02 0xFFFF (BitVec.ofNat 64 e) (lineAtHand st e slot gen s)).onMem st
        fun m => { m with vrt := tset m.vrt e (vrtSetCond ((s.memSt st).entry e) 3), reseal := m.reseal.filter (fun x => x.1 != e),
                          locks := m.locks.filter fun x => x.1 != e })) := by
  unfold lineOf at forged
  simp only [lineReturn, closed_eq_false up, fetching, useVerKey_cached ver cached half, atHand_eq mem,
    if_pos forged, Bool.not_true, Bool.or_self, Bool.false_eq_true, if_false]

section
variable {oi i : Nat} {p : Place} (genuine : lineMac (lineAtHand st e slot gen s) st (lineOf e line) (vrtPart ((s.memSt st).entry e))
    (vrtRoot ((s.memSt st).entry e)) = le 8 (line.extractLsb' 448 64).toNat) (owner : lineOwner s st e = some (oi, p, i))
include genuine owner

/-- A line that matches, of an object that is not of the partition its entry names. -/
theorem lineReturn_foreign (foreign : (s.obj oi).part ≠ vrtPart ((s.memSt st).entry e)) :
    lineReturn st e line s = pump st (failOnLine st e yeDenied 3 (lineAtHand st e slot gen s)) := by
  have owner_ : lineOwner (lineAtHand st e slot gen s) st e = some (oi, p, i) := owner
  have part : ((lineAtHand st e slot gen s).obj oi).part = (s.obj oi).part := rfl
  unfold lineOf at genuine
  simp only [lineReturn, closed_eq_false up, fetching, useVerKey_cached ver cached half, atHand_eq mem,
    genuine, owner_, part, foreign, Option.map_some, Option.some.injEq, Bool.not_true, Bool.or_self, Bool.false_eq_true, if_false, ne_eq,
    not_true_eq_false, not_false_eq_true, if_true]

/-- A line that matches, without a mark of a lost tile, joins the cache of an idle station. -/
theorem lineReturn_cached (own : (s.obj oi).part = vrtPart ((s.memSt st).entry e)) (unmarked : ∀ x ∈ (s.memSt st).marks, x.1 ≠ e)
    (idle : (s.memSt st).reqs = []) : lineReturn st e line s = (lineAtHand st e slot gen s).onMem st fun m =>
      putLine { m with marks := m.marks.filter fun x => x.1 != e } (lineOf e line) := by
  have owner_ : lineOwner (lineAtHand st e slot gen s) st e = some (oi, p, i) := owner
  have part : ((lineAtHand st e slot gen s).obj oi).part = (s.obj oi).part := rfl
  have marks : ((lineAtHand st e slot gen s).memSt st).marks.filter (fun x => x.1 == e) = [] := by
    rw [lineAtHand, memSt_onMem]
    exact List.filter_eq_nil_iff.mpr fun x mem => by simpa using unmarked x mem
  unfold lineOf at genuine ⊢
  simp only [lineReturn, closed_eq_false up, fetching, useVerKey_cached ver cached half, atHand_eq mem,
    genuine, owner_, part, own, marks, Option.map_some, Bool.not_true, Bool.or_self, Bool.false_eq_true, if_false, ne_eq, not_true_eq_false,
    List.isEmpty_nil, if_true]
  refine pump_idle ?_
  rw [memSt_onMem, lineAtHand, memSt_onMem]
  exact idle

end

end

/-! ### Keys, descriptors and the request timeout (03 R74, R88; 06 R194) -/

section
variable {st slot : Nat} {s : State}

/-- A key that the station asked for and may hold joins the cache of an idle station. -/
theorem keyDelivery_joins {gen : BitVec 32} {keys : List (Nat × Nat)} (mem : isMem st = true) (up : s.portState st ≠ .closed)
    (asked : (s.port st).asked.contains (slot, gen.toNat) = true) (active : (s.key slot).state = 1) (may : mayHold st (s.key slot).cls = true)
    (current : gen.toNat = (s.key slot).gen) (committed : (s.key slot).first = false) (kept : (s.key slot).purging ≠ 1)
    (room : keyRoom st s = some keys) (idle : (s.memSt st).reqs = []) : keyDelivery st slot gen s = s.onMem st fun m =>
      { m with port := { m.port with keys := (slot, gen.toNat) :: keys, asked := without m.port.asked (slot, gen.toNat) } } := by
  have half : (halfOf (s.key slot) (s.key slot).gen).isNone = false := by
    simp only [halfOf, active, committed, and_self, if_true, show ¬(1 = 0) by decide, if_false, Option.isNone_some]
  rw [current] at asked ⊢
  simp only [keyDelivery, closed_eq_false up, current, asked, active, may, half, kept, room, Bool.not_true, Bool.or_self, Bool.false_eq_true, if_false,
    show ¬(1 = 6) by decide, show ¬(1 = 0) by decide, show ¬(1 = 2) by decide, show ¬(1 = 3) by decide, ne_eq, not_true_eq_false, and_false,
    false_and, or_self, mem, if_true, onPort_mem mem, onMem_comp]
  refine pump_idle ?_
  rw [memSt_onMem]
  exact idle

theorem descRefill_missed {h : BitVec 32} : descRefill st h s =
    if closed s st || ((s.memSt st).reqs.filter fun r => r.stage == 9 && handleIdx r.handle.toNat == handleIdx h.toNat).isEmpty then s
    else each ((s.memSt st).reqs.filter fun r => r.stage == 9 && handleIdx r.handle.toNat == handleIdx h.toNat) (fun r u => checkAndGo st r u)
      (s.onMem st fun m => { m with descs := (handleIdx h.toNat :: without m.descs (handleIdx h.toNat)).take 128 }) := by
  have any_ (l : List MReq) (p : MReq → Bool) : (!l.any p) = (l.filter p).isEmpty := by
    rw [Bool.eq_iff_iff, Bool.not_eq_true', List.any_eq_false, List.isEmpty_iff, List.filter_eq_nil_iff]
  simp only [descRefill, any_, memSt_onMem]

/-- The first request under a tag that has been in the station for 1 ms and has not committed. -/
def overdue (st : Nat) (tag : BitVec 10) (s : State) : Option MReq :=
  (s.memSt st).reqs.find? fun r => r.tag == tag.toNat && uncommitted r && decide (r.born + Config.ms 1 ≤ s.now)

theorem requestTimeout_none {tag : BitVec 10} (young : overdue st tag s = none) : requestTimeout st tag s = s := by
  unfold overdue at young
  simp only [requestTimeout, young]

theorem requestTimeout_overdue {tag : BitVec 10} {r : MReq} (old : overdue st tag s = some r) :
    requestTimeout st tag s = pump st (failReq st r yeTimeout (faultEvent st 0x08 r.fence (BitVec.ofNat 64 r.pslot) s)) := by
  unfold overdue at old
  simp only [requestTimeout, old]

end

/-- Settles O14: each return by a lemma over the checks that lead to its outcome. -/
theorem stationReturnsAreActedOn : Obligations.StationReturnsAreActedOn := by
  refine ⟨?_, ?_, ?_, ?_, ?_, ?_, ?_, ?_⟩
  · intro st acc hdr s r found stage up unprofiled o h had
    refine ⟨fun bad => congrArg Host.Outcome.next (headerReturn_bad found up stage bad),
      fun good => ⟨fun enough => congrArg Host.Outcome.next (headerReturn_enough found up stage good enough), fun more => ?_⟩⟩
    refine ⟨_, congrArg Host.Outcome.next (headerReturn_more found up stage good unprofiled more), List.mem_cons_self .., ?_⟩
    exact setReq_memSt_congr ((Quiet.bump ..).kept.memSt st)
  · intro st acc data s r key found stage tile up o sealed_ half out code
    have run := readReturn_sealed (data := data) found up stage tile sealed_
    exact ⟨fun forged => congrArg Host.Outcome.next (run.trans (congrArg (pump st) (tileReturn_forged half forged))),
      fun l f b opens => congrArg Host.Outcome.next (run.trans (congrArg (pump st) (tileReturn_opens half opens)))⟩
  · intro st acc data s r found stage up
    exact ⟨fun tile plain => congrArg Host.Outcome.next (readReturn_plain found up stage tile plain),
      fun write => congrArg Host.Outcome.next (readReturn_write found up stage write)⟩
  · intro st acc s r found up fine
    refine ⟨fun stage header => ⟨fun open_ => ?_, fun safe => ?_⟩, fun last => congrArg Host.Outcome.next (writeAck_last found up last)⟩
    · exact congrArg Host.Outcome.next ((writeAck_payload found up stage header).trans (if_neg (by rw [open_]; decide)))
    · exact congrArg Host.Outcome.next ((writeAck_payload found up stage header).trans (if_pos safe))
  · intro st e line s slot gen mem up fetching v ver cached half u l
    refine ⟨fun forged => congrArg Host.Outcome.next (lineReturn_forged mem up fetching ver cached half forged),
      fun genuine oi p i owner => ⟨fun foreign => ?_, fun own unmarked idle => ?_⟩⟩
    · exact congrArg Host.Outcome.next (lineReturn_foreign mem up fetching ver cached half genuine owner foreign)
    · refine ⟨_, congrArg Host.Outcome.next (lineReturn_cached mem up fetching ver cached half genuine owner own unmarked idle), ?_, rfl, ?_, ?_⟩
      · rw [memSt_onMem]
        exact List.find?_cons_of_pos (by simp [lineOf])
      · rw [memSt_onMem, lineAtHand, memSt_onMem]
        rfl
      · intro w other
        rw [memSt_onMem_other _ _ _ _ other, lineAtHand, memSt_onMem_other _ _ _ _ other]
  · intro st slot gen s keys mem up asked active may current committed kept room idle
    refine ⟨_, congrArg Host.Outcome.next ((if_pos mem).trans (keyDelivery_joins mem up asked active may current committed kept room idle)), rfl, ?_,
      fun w other => memSt_onMem_other _ _ _ _ other⟩
    rw [memSt_onMem, port_mem mem]
  · intro st h s oi w
    refine ⟨fun none_ => congrArg Host.Outcome.next (descRefill_missed.trans (if_pos ?_)),
      fun some_ up => congrArg Host.Outcome.next (descRefill_missed.trans (if_neg ?_))⟩
    · rcases none_ with empty | down
      · exact Bool.or_eq_true_iff.mpr (.inr (List.isEmpty_iff.mpr empty))
      · exact Bool.or_eq_true_iff.mpr (.inl (closed_eq_true down))
    · rw [closed_eq_false up, Bool.false_or, List.isEmpty_iff]
      exact some_
  · intro st tag s old
    refine ⟨fun none_ => congrArg Host.Outcome.next ?_, fun r some_ => congrArg Host.Outcome.next ?_⟩
    · exact requestTimeout_none none_
    · exact requestTimeout_overdue some_

end Sys2Proof.Machine
end

section
/-! PROOF of O15, the first part. Re-seal, and a region's re-key at the keep and at its stations. -/

namespace Sys2Proof.Machine
open Sys2Proof Sys2Proof.Crypto

theorem keyGenFor_slot (s : State) (o : Obj) (p : Place) (pos cursor slot : Nat) :
    keyGenFor s o p pos cursor slot = (o.keySlot, (keyGenFor s o p pos cursor slot).2) := by
  simp only [keyGenFor]
  split <;> rfl

/-- A station's port once it has used a key of its cache. -/
theorem useKey_cached {st slot gen : Nat} {s : State} (cached : (s.port st).keys.contains (slot, gen) = true) : useKey st slot gen s =
    (halfOf (s.key slot) gen, s.onPort st fun p => { p with keys := (slot, gen) :: without p.keys (slot, gen) }) := by
  simp only [useKey, cached, Bool.true_or, if_true, askKey_cached cached]

/-! ### The re-seal engine (02 R62, 03 R89, R90) -/

theorem clearQueue_live {st : Nat} {s : State} (live : ∀ x ∈ (s.memSt st).reseal, staleMove s st x = false ∧ (lineOwner s st x.1).isSome = true) :
    (clearQueue st s).memSt st = s.memSt st := by
  have all : ((s.memSt st).reseal.filter fun x => !staleMove s st x && (lineOwner s st x.1).isSome) = (s.memSt st).reseal := by
    refine List.filter_eq_self.mpr fun x mem => ?_
    rw [(live x mem).1, (live x mem).2]
    rfl
  rw [clearQueue, memSt_onMem, all]

section
variable {st e line : Nat} {hdr payload : Bytes} {s w : State} (cleared : clearQueue st s = w)
include cleared

theorem resealSlot_empty (empty : (w.memSt st).reseal = []) : resealSlot st hdr payload s = w := by
  simp only [resealSlot, cleared, empty]

section
variable {rest : List (Nat × Bool)} {oi : Nat} {p : Place} {l : Line} (head : (w.memSt st).reseal = (e, false) :: rest)
  (owner : lineOwner w st e = some (oi, p, line)) (cached : cachedLine (w.memSt st) e = some l)
include head owner cached

/-- The slot of its place at which the engine stands. -/
def resealTile (o : Obj) (line i : Nat) : Nat := line * lineTiles o.cls + (if o.cls = 3 then i / 16 else i)

theorem resealSlot_waits (busy : backgroundOk w st = false ∨
    slotBusy w st (tileIndex w st (p.first + resealTile (w.obj oi) line (vrtCursor ((w.memSt st).entry e)))) = true) :
    resealSlot st hdr payload s = w := by
  have waits : (!backgroundOk w st || slotBusy w st (tileIndex w st (p.first + resealTile (w.obj oi) line (vrtCursor ((w.memSt st).entry e))))) = true := by
    rcases busy with shut | busy
    · rw [shut]
      rfl
    · rw [busy, Bool.or_true]
  unfold resealTile at waits
  simp only [resealSlot, cleared, head, owner, cached, waits, if_true]

theorem resealSlot_moves {g : Nat} {key : BitVec 256} (gen : (keyGenFor w (w.obj oi) p line 0 32).2 = g) (ready : backgroundOk w st = true)
    (free : slotBusy w st (tileIndex w st (p.first + resealTile (w.obj oi) line (vrtCursor ((w.memSt st).entry e)))) = false)
    (hand : (w.port st).keys.contains ((w.obj oi).keySlot, g) = true) (half : halfOf (w.key (w.obj oi).keySlot) g = some key) :
    let o := w.obj oi
    let v := (w.memSt st).entry e
    let i := vrtCursor v
    let k := resealTile o line i
    let u := tileIndex w st (p.first + k)
    let z := w.onPort st fun p => { p with keys := (o.keySlot, g) :: without p.keys (o.keySlot, g) }
    let a := if p.count ≤ k then z else resealStored st o u (i % 16) (l.major == 1 && minorOf l i == 0) key key
      (version (l.major - 1) (minorOf l i)) (version l.major 0) (policyOf z o) (p.hdr + hdrUnits o.cls * k) ((p.first + k) * 8192) hdr payload z
    let b := a.onMem st fun m => putLine { m with
      vrt := tset m.vrt e (vrtMake (vrtFine v) true ((i + 1) % 32) (vrtPart v) (vrtRoot v)) } (setMinor l i 0)
    resealSlot st hdr payload s = pump st (if i = 31 then endReseal st e b else b) := by
  have keyGen := keyGenFor_slot w (w.obj oi) p line 0 32
  rw [gen] at keyGen
  unfold resealTile at free ⊢
  simp only [resealSlot, cleared, head, owner, cached, ready, free, keyGen, useKey_cached hand, half, Bool.not_true, Bool.or_self, Bool.false_eq_true,
    if_false]
  exact (apply_ite (pump st) _ _ _).symm

end

end

/-! ### A report of a region reaches the keep (02 R59, 03 R92, R93) -/

theorem Quiet.each {α : Type} {l : List α} {f : α → State → State} (quiet : ∀ a s, Quiet s (f a s)) (s : State) : Quiet s (each l f s) :=
  each_inv (Quiet s) l f (fun a _ h => h.trans (quiet a _)) s (.refl s)

/-- A key's threshold is told at most once for its generation, and is noted. -/
theorem keyThreshold_quiet {slot : Nat} {s : State} (fresh : (s.key slot).warned = false) :
    Quiet (s.onKey slot fun k => { k with warned := true }) (keyThreshold slot s) := by
  unfold keyThreshold
  extract_lets k tell u
  have told : ∀ c v, Quiet v (tell c v) := fun c v => Quiet.event ..
  rw [if_neg (by rw [fresh]; decide)]
  change Quiet u (if k.keepOwn then tell 0 u else Machine.each _ (fun (c : Nat × Ctx) s => tell c.1 s) u)
  clear_value tell u
  split
  · exact told ..
  · exact .each (fun _ _ => told ..) _

theorem keyThreshold_only (slot : Nat) (s : State) : ∃ k c x b l, keyThreshold slot s =
    { s with keys := k, ctrs := c, ctxs := x, keep := { s.keep with pba := b }, out := l } ∧
      ∀ i, tget ({} : KeySlot) k i = if i = slot then { s.key i with warned := true } else s.key i := by
  cases fresh : (s.key slot).warned with
  | true =>
    refine ⟨s.keys, s.ctrs, s.ctxs, s.keep.pba, s.out, if_pos fresh, fun i => ?_⟩
    split
    · rename_i same
      rw [same, ← fresh]
      rfl
    · rfl
  | false =>
    obtain ⟨c, x, b, l, told⟩ := keyThreshold_quiet fresh
    refine ⟨_, c, x, b, _, told, fun i => ?_⟩
    split
    · rename_i same
      subst same
      exact key_onKey ..
    · rename_i other
      exact key_onKey_other _ _ _ _ other

section
variable {oi st line : Nat} {limit root : Bool} {s u : State}

/-- A region that can start a re-key draws its new key. -/
theorem startRekey_starts {fresh : List Nat} (cls : (s.obj oi).cls ≠ 4) (live : (s.obj oi).state = 1) (idle : (s.obj oi).rekey = none)
    (active : (s.key (s.obj oi).keySlot).state = 1) (loaded : (s.obj oi).loading = false) (draws : canDraw s 0 = true)
    (verified : s.keep.verifyBad = false) : startRekey oi limit fresh s = startDual (s.obj oi).keySlot (dropDesc oi (s.onObj oi fun o => { o with
      rekey := some { byLimit := limit }, wantRekey := false, wantLimit := false, wantFresh := [],
      places := o.places.map fun p => { p with moved := 0, moving := false, fresh := fresh.contains p.st } })) := by
  simp only [startRekey, cls, live, idle, active, loaded, draws, verified, true_or, not_true_eq_false, Option.isSome_none, Bool.false_eq_true,
    ne_eq, Bool.not_true, or_self, if_false]

/-- A slot's new key is the next one that the keep draws. -/
theorem startDual_draws (slot : Nat) (s : State) :
    (startDual slot s).keep.drbg0 = (drbgGen s.keep.drbg0).2 ∧
      (startDual slot s).key slot = { s.key slot with state := 4, pend := (drbgGen s.keep.drbg0).1, pendIs := 1 } ∧
      (∀ i, i ≠ slot → (startDual slot s).key i = s.key i) ∧ ∀ i, (startDual slot s).obj i = s.obj i := by
  obtain ⟨c, drawn⟩ := draw0_eq s
  unfold startDual
  rw [drawn]
  generalize drbgGen s.keep.drbg0 = g
  exact ⟨rfl, key_onKey .., fun i other => key_onKey_other _ _ _ _ other, fun _ => rfl⟩

theorem dropDesc_obj (oi i : Nat) (s : State) : (dropDesc oi s).obj i = s.obj i := rfl

variable (cls : (s.obj oi).cls ≠ 4) (live : (s.obj oi).state = 1)
include cls live

/-- The first report of a region starts its re-key. -/
theorem rekeyReport_starts (idle : (s.obj oi).rekey = none) (active : (s.key (s.obj oi).keySlot).state = 1)
    (loaded : (s.obj oi).loading = false) (draws : canDraw s 0 = true) (verified : s.keep.verifyBad = false) :
    let t := rekeyReport oi st line limit root s
    t.keep.drbg0 = (drbgGen s.keep.drbg0).2 ∧
      t.key (s.obj oi).keySlot =
        { s.key (s.obj oi).keySlot with state := 4, pend := (drbgGen s.keep.drbg0).1, pendIs := 1, warned := true } ∧
      t.obj oi = { s.obj oi with
        rekey := some { byLimit := limit }, wantRekey := false, wantLimit := false, wantFresh := []
        places := (s.obj oi).places.map fun p => { p with moved := 0, moving := false, fresh := (if root then [st] else []).contains p.st } } ∧
      (∀ i, i ≠ (s.obj oi).keySlot → t.key i = s.key i) ∧ ∀ i, i ≠ oi → t.obj i = s.obj i := by
  intro t
  obtain ⟨k, c, x, b, l, told, keys⟩ := keyThreshold_only (s.obj oi).keySlot s
  have own := (keys (s.obj oi).keySlot).trans (if_pos rfl)
  generalize hv : ({ s with keys := k, ctrs := c, ctxs := x, keep := { s.keep with pba := b }, out := l } : State) = v at told
  have vKeys : v.keys = k := by rw [← hv]
  have vObj (i : Nat) : v.obj i = s.obj i := by rw [← hv]; rfl
  have vDraws : canDraw v 0 = true := by rw [← hv]; exact draws
  have vVerified : v.keep.verifyBad = false := by rw [← hv]; exact verified
  have vActive : (v.key (v.obj oi).keySlot).state = 1 := by
    rw [vObj, State.key, vKeys, own]
    exact active
  have vDrbg : v.keep.drbg0 = s.keep.drbg0 := by rw [← hv]
  have run : t = startRekey oi limit (if root then [st] else []) v := by
    simp only [t, rekeyReport, live, cls, true_or, not_true_eq_false, or_self, if_false, told, idle]
  rw [startRekey_starts (by rw [vObj]; exact cls) (by rw [vObj]; exact live) (by rw [vObj]; exact idle) vActive (by rw [vObj]; exact loaded)
    vDraws vVerified, vObj] at run
  generalize hw : dropDesc oi (v.onObj oi fun o => { o with
      rekey := some { byLimit := limit }, wantRekey := false, wantLimit := false, wantFresh := [],
      places := o.places.map fun p => { p with moved := 0, moving := false, fresh := (if root then [st] else []).contains p.st } }) = w at run
  have wKey (i : Nat) : w.key i = if i = (s.obj oi).keySlot then { s.key i with warned := true } else s.key i := by
    rw [← keys, ← vKeys, ← hw]
    rfl
  have wDrbg : w.keep.drbg0 = s.keep.drbg0 := by rw [← hw]; exact vDrbg
  obtain ⟨drbg, key, others, objs⟩ := startDual_draws (s.obj oi).keySlot w
  rw [wDrbg] at drbg key
  generalize drbgGen s.keep.drbg0 = g at drbg key ⊢
  rw [run]
  refine ⟨drbg, key.trans ?_, (objs oi).trans ?_, fun i other => (others i other).trans ?_, fun i other => (objs i).trans ?_⟩
  · rw [wKey, if_pos rfl]
  · rw [← hw, dropDesc_obj, obj_onObj, vObj]
  · rw [wKey, if_neg other]
  · rw [← hw, dropDesc_obj, obj_onObj_other _ _ _ _ other, vObj]

/-- What a later report of a region under re-key does, by whether its line has been moved. -/
theorem rekeyReport_again {k : Rekey} {p : Place} (under : (s.obj oi).rekey = some k) (place : placeOf (s.obj oi) st = some p) :
    let o := s.obj oi
    let t := rekeyReport oi st line limit root s
    (∀ i, i ≠ oi → t.obj i = s.obj i) ∧
      (p.moved ≤ line → t.obj oi = onPlace { o with rekey := some { k with byLimit := k.byLimit || limit } } st
        (fun p => { p with fresh := p.fresh || root })) ∧
      (line < p.moved → t.obj oi = { o with
        rekey := some { k with again := true }, wantRekey := true, wantLimit := o.wantLimit || limit,
        wantFresh := o.wantFresh ++ (if root then [st] else []).filter fun u => !o.wantFresh.contains u }) := by
  intro o t
  obtain ⟨n, c, x, b, l, told, -⟩ := keyThreshold_only o.keySlot s
  generalize hv : ({ s with keys := n, ctrs := c, ctxs := x, keep := { s.keep with pba := b }, out := l } : State) = v at told
  have vObj (i : Nat) : v.obj i = s.obj i := by rw [← hv]; rfl
  have run : t = if line < p.moved then noteRekey oi limit (if root then [st] else []) (v.onObj oi fun o => { o with rekey := some { k with again := true } })
      else dropDesc oi (v.onObj oi fun o => onPlace { o with rekey := some { k with byLimit := k.byLimit || limit } } st
        fun p => { p with fresh := p.fresh || root }) := by
    simp only [t, rekeyReport, live, cls, true_or, not_true_eq_false, or_self, if_false, o, under, place, decide_eq_true_eq] at told ⊢
    rw [told]
  by_cases moved : line < p.moved
  · rw [if_pos moved] at run
    rw [run]
    refine ⟨fun i other => ?_, fun ahead => absurd moved (Nat.not_lt.mpr ahead), fun _ => ?_⟩
    · rw [noteRekey, obj_onObj_other _ _ _ _ other, obj_onObj_other _ _ _ _ other, vObj]
    · rw [noteRekey, obj_onObj, obj_onObj, vObj]
  · rw [if_neg moved] at run
    rw [run]
    refine ⟨fun i other => ?_, fun _ => ?_, fun behind => absurd behind moved⟩
    · rw [dropDesc_obj, obj_onObj_other _ _ _ _ other, vObj]
    · rw [dropDesc_obj, obj_onObj, vObj]

end

/-- A report that the station has not sent is taken as one of its own, about the line that its cause names. -/
theorem rekeyStart_unsent {oi st : Nat} {cause : BitVec 8} {s : State} (unsent : ∀ x ∈ (s.memSt st).reports, x.2 ≠ cause.toNat) :
    rekeyStart oi st cause s = rekeyReport oi st (reportLine s st oi cause.toNat) (cause.toNat == 2 || cause.toNat == 4)
      (cause.toNat == 3 || cause.toNat == 4) s := by
  have none_ : ((s.memSt st).reports.find? fun x => x.2 == cause.toNat && ((lineOwner s st x.1).map fun y => y.1) == some oi) = none :=
    List.find?_eq_none.mpr fun x mem => by
      rw [beq_eq_false_iff_ne.mpr (unsent x mem), Bool.false_and]
      exact Bool.false_ne_true
  simp only [rekeyStart, none_]

/-- A report is about some line of the region; one that the station has sent is on its way no longer. -/
theorem rekeyStart_reports (oi st : Nat) (cause : BitVec 8) (s : State) : ∃ line f, rekeyStart oi st cause s =
    rekeyReport oi st line (cause.toNat == 2 || cause.toNat == 4) (cause.toNat == 3 || cause.toNat == 4) { s with mem := f } := by
  simp only [rekeyStart]
  split
  · exact ⟨_, _, rfl⟩
  · exact ⟨_, s.mem, rfl⟩

/-! ### The move and the commit (03 R93 to R96) -/

section
variable {st oi slot g : Nat} {hdr payload : Bytes} {s : State} {p : Place} {k : Rekey}

theorem rekeyMove_waits (place : placeOf (s.obj oi) st = some p) (under : (s.obj oi).rekey = some k)
    (waits : backgroundOk s st = false ∨ (s.key (s.obj oi).keySlot).state ≠ 4) : rekeyMove st oi hdr payload s = s := by
  have shut : (!backgroundOk s st) = true ∨ (s.key (s.obj oi).keySlot).state ≠ 4 := waits.imp_left fun h => by rw [h]; rfl
  simp only [rekeyMove, place, under, if_pos shut]

theorem contains_after_use {keys : List (Nat × Nat)} (next : keys.contains (slot, g + 1) = true) :
    ((slot, g) :: without keys (slot, g)).contains (slot, g + 1) = true := by
  simp only [List.contains_iff_mem] at next ⊢
  refine List.mem_cons_of_mem _ ?_
  rw [without]
  exact List.mem_filter.mpr ⟨next, by simp⟩

/-- A memory station uses a key of its cache. -/
theorem useKey_mem (mem : isMem st = true) (cached : (s.port st).keys.contains (slot, g) = true) : useKey st slot g s =
    (halfOf (s.key slot) g, s.onMem st fun m => { m with port := { m.port with keys := (slot, g) :: without m.port.keys (slot, g) } }) := by
  rw [useKey_cached cached, onPort_mem mem]

/-- It then uses the slot's next key. -/
theorem useKey_next (mem : isMem st = true) (new : (s.port st).keys.contains (slot, g + 1) = true) :
    useKey st slot (g + 1) (s.onMem st fun m => { m with port := { m.port with keys := (slot, g) :: without m.port.keys (slot, g) } }) =
      (halfOf (s.key slot) (g + 1), s.onMem st fun m => { m with
        port := { m.port with keys := (slot, g + 1) :: without ((slot, g) :: without m.port.keys (slot, g)) (slot, g + 1) } }) := by
  have hand : ((s.onMem st fun m => { m with port := { m.port with keys := (slot, g) :: without m.port.keys (slot, g) } }).port st).keys.contains
      (slot, g + 1) = true := by
    rw [port_mem mem, memSt_onMem, ← port_mem mem]
    exact contains_after_use new
  rw [useKey_mem mem hand, onMem_comp]
  rfl

/-- One tile of a sealed region moves, with both keys at hand. -/
theorem rekeyMove_tile {k0 k1 : BitVec 256} (mem : isMem st = true) (place : placeOf (s.obj oi) st = some p) (under : (s.obj oi).rekey = some k)
    (ready : backgroundOk s st = true) (dual : (s.key (s.obj oi).keySlot).state = 4) (coarse : (s.obj oi).cls = 1) (left : p.moved < p.count)
    (old : (s.port st).keys.contains ((s.obj oi).keySlot, (s.key (s.obj oi).keySlot).gen) = true)
    (new : (s.port st).keys.contains ((s.obj oi).keySlot, (s.key (s.obj oi).keySlot).gen + 1) = true)
    (half0 : halfOf (s.key (s.obj oi).keySlot) (s.key (s.obj oi).keySlot).gen = some k0)
    (half1 : halfOf (s.key (s.obj oi).keySlot) ((s.key (s.obj oi).keySlot).gen + 1) = some k1) :
    let o := s.obj oi
    let slot := o.keySlot
    let g := (s.key slot).gen
    let tile := p.first + p.moved
    let z := s.onMem st fun m => { m with
      port := { m.port with keys := (slot, g + 1) :: without ((slot, g) :: without m.port.keys (slot, g)) (slot, g + 1) } }
    let a := resealStored st o (tileIndex s st tile) 0 false k0 k1 o.loadGen 1 (policyOf s o) (p.hdr + p.moved) (tile * 8192) hdr payload z
    rekeyMove st oi hdr payload s = pump st (a.onObj oi fun o => onPlace o st fun p => { p with moved := p.moved + 1 }) := by
  have shut : ¬((!backgroundOk s st) = true ∨ (s.key (s.obj oi).keySlot).state ≠ 4) := by
    rw [ready, dual]
    decide
  simp only [rekeyMove, place, under, if_neg shut, coarse, if_true, moveTile, if_neg (Nat.not_le.mpr left), useKey_mem mem old,
    useKey_next mem new, half0, half1]
  rfl

theorem rekeyCommit_early (under : (s.obj oi).rekey = some k) (left : allMoved (s.obj oi) = false) : rekeyCommit oi s = s := by
  simp only [rekeyCommit, under, left, Bool.not_false, true_or, if_true]

theorem rekeyCommit_swaps (under : (s.obj oi).rekey = some k) (moved : allMoved (s.obj oi) = true)
    (dual : (s.key (s.obj oi).keySlot).state = 4) : rekeyCommit oi s = commitSwap (s.obj oi).keySlot (dropDesc oi (s.onObj oi fun o => { o with
      rekey := none, wantRekey := o.wantRekey || k.again, loadGen := if o.cls = 1 then 1 else o.loadGen,
      places := o.places.map fun p => { p with moved := 0, fresh := false } })) := by
  simp only [rekeyCommit, under, moved, dual, Bool.not_true, Bool.false_eq_true, ne_eq, not_true_eq_false, or_self, if_false]

end

end Sys2Proof.Machine
end

section
/-! PROOF of O15, the second part. Marks, freezes, cuts and measurements at the memory stations. -/

namespace Sys2Proof.Machine
open Sys2Proof Sys2Proof.Crypto

theorem commitSwap_obj (slot i : Nat) (s : State) : (commitSwap slot s).obj i = s.obj i := rfl

theorem rekeyCommit_swapped {oi : Nat} {s : State} {k : Rekey} (under : (s.obj oi).rekey = some k) (moved : allMoved (s.obj oi) = true)
    (dual : (s.key (s.obj oi).keySlot).state = 4) :
    let o := s.obj oi
    let t := rekeyCommit oi s
    t.key o.keySlot = (let x := s.key o.keySlot
      { x with state := 5, cur := x.pend, pend := x.cur, pendIs := 2, gen := x.gen + 1, inv := 0, warned := false, waitSwap := holders x.cls }) ∧
    t.obj oi = { o with
      rekey := none, wantRekey := o.wantRekey || k.again, loadGen := if o.cls = 1 then 1 else o.loadGen,
      places := o.places.map fun p => { p with moved := 0, fresh := false } } ∧ t = { s with keys := t.keys, objs := t.objs, mem := t.mem } := by
  intro o t
  have run : t = _ := rekeyCommit_swaps under moved dual
  rw [run]
  exact ⟨key_onKey .., by rw [commitSwap_obj, dropDesc_obj, obj_onObj], rfl⟩

/-! ### One operation at each of a list of stations -/

/-- What one station of a list holds after an operation at each of them that touches no other. -/
theorem each_at {β : Type} (I : State → Prop) (g : State → β) (F : β → β) {l : List Nat} {f : Nat → State → State} {u : Nat} (nodup : l.Nodup)
    (mem : u ∈ l) (keeps : ∀ i ∈ l, ∀ s, I s → I (f i s)) (own : ∀ s, I s → g (f u s) = F (g s))
    (other : ∀ i ∈ l, i ≠ u → ∀ s, I s → g (f i s) = g s) {s : State} (start : I s) : g (each l f s) = F (g s) := by
  have away : ∀ l' : List Nat, (∀ i ∈ l', i ∈ l) → u ∉ l' → ∀ s, I s → g (each l' f s) = g s := by
    intro l' sub out
    induction l' with
    | nil => exact fun _ _ => rfl
    | cons a l' ih =>
      intro s hs
      have here := sub a (List.mem_cons_self ..)
      exact (ih (fun i hi => sub i (List.mem_cons_of_mem _ hi)) (fun h => out (List.mem_cons_of_mem _ h)) _ (keeps a here s hs)).trans
        (other a here (fun h => out (h ▸ List.mem_cons_self ..)) s hs)
  obtain ⟨l₁, l₂, rfl⟩ := List.append_of_mem mem
  have parts : each (l₁ ++ u :: l₂) f s = each l₂ f (f u (each l₁ f s)) := by simp only [each, List.foldl_append, List.foldl_cons]
  have apart : u ∉ l₁ ∧ u ∉ l₂ := by
    obtain ⟨-, later, between⟩ := List.nodup_append.mp nodup
    exact ⟨fun before => between u before u (List.mem_cons_self ..) rfl, (List.nodup_cons.mp later).1⟩
  have first : I (each l₁ f s) := each_inv_mem I _ _ (fun i s hi hs => keeps i (List.mem_append_left _ hi) s hs) s start
  rw [parts, away l₂ (fun i hi => List.mem_append_right _ (List.mem_cons_of_mem _ hi)) apart.2 _ (keeps u mem _ first), own _ first,
    away l₁ (fun i hi => List.mem_append_left _ hi) apart.1 s start]

theorem holders_nodup (cls : Nat) : (holders cls).Nodup := by
  have all : ∀ mem link host : Bool, ((if mem = true then Config.memIds else []) ++ (if link = true then Config.linkIds else []) ++
      (if host = true then [Config.hostId] else [])).Nodup := by decide
  exact all ..

theorem not_isMem_of_isLink {u : Nat} (link : isLink u = true) : isMem u = false := by
  simp only [isLink, Bool.and_eq_true, decide_eq_true_eq] at link
  exact decide_eq_false (by have : Config.memStations ≤ 0x80 := by decide
                            omega)

/-! ### The mark of a Retiring slot (06 R204) -/

section
variable {slot st i u : Nat} {s : State}

theorem retiringMark_mem (mem : isMem st = true) : (retiringMark slot st s).memSt st = { s.memSt st with
    retSlots := slot :: without (s.memSt st).retSlots slot,
    descs := (s.memSt st).descs.filter fun oi => (s.obj oi).keySlot != slot || (s.obj oi).cls == 4 } := by
  rw [retiringMark, if_pos mem, memSt_onMem]

theorem retiringMark_link (link : isLink st = true) : (retiringMark slot st s).linkSt st = { s.linkSt st with
    jobs := tmap (fun _ j => if j.slot = slot ∧ j.state = 1 then { j with state := 2 } else j) (s.linkSt st).jobs } := by
  rw [retiringMark, if_neg (by rw [not_isMem_of_isLink link]; exact Bool.false_ne_true), if_pos link, linkSt_onLink]

theorem retiringMark_other (other : i ≠ u) : (retiringMark slot i s).memSt u = s.memSt u ∧ (retiringMark slot i s).linkSt u = s.linkSt u ∧
    (retiringMark slot i s).objs = s.objs ∧ (retiringMark slot i s).keepway = s.keepway := by
  rw [retiringMark]
  split
  · exact ⟨memSt_onMem_other _ _ _ _ other.symm, rfl, rfl, rfl⟩
  split
  · exact ⟨rfl, linkSt_onLink_other _ _ _ _ other.symm, rfl, rfl⟩
  · exact ⟨rfl, rfl, rfl, rfl⟩

theorem retiringMark_rest : (retiringMark slot i s).objs = s.objs ∧ (retiringMark slot i s).keepway = s.keepway :=
  (retiringMark_other (u := i + 1) (by omega)).2.2

/-- The marks of all holders at once. -/
theorem retiringMarks {l : List Nat} (nodup : l.Nodup) :
    let t := each l (retiringMark slot) s
    t.keepway = s.keepway ∧ ∀ u ∈ l,
      (isMem u = true → t.memSt u = { s.memSt u with
        retSlots := slot :: without (s.memSt u).retSlots slot,
        descs := (s.memSt u).descs.filter fun oi => (s.obj oi).keySlot != slot || (s.obj oi).cls == 4 }) ∧
      (isLink u = true → t.linkSt u = { s.linkSt u with
        jobs := tmap (fun _ j => if j.slot = slot ∧ j.state = 1 then { j with state := 2 } else j) (s.linkSt u).jobs }) := by
  have keeps : ∀ i ∈ l, ∀ w : State, w.objs = s.objs → (retiringMark slot i w).objs = s.objs := fun i _ w h => retiringMark_rest.1.trans h
  refine ⟨each_inv (fun w => w.keepway = s.keepway) l _ (fun i w h => retiringMark_rest.2.trans h) s rfl, fun u hu => ⟨fun mem => ?_, fun link => ?_⟩⟩
  · refine each_at (fun w => w.objs = s.objs) (fun w => w.memSt u) (fun m => { m with
      retSlots := slot :: without m.retSlots slot,
      descs := m.descs.filter fun oi => (s.obj oi).keySlot != slot || (s.obj oi).cls == 4 }) nodup hu keeps (fun w h => ?_)
      (fun i _ other w _ => (retiringMark_other other).1) rfl
    simp only [retiringMark_mem mem, State.obj, h]
  · exact each_at (fun w => w.objs = s.objs) (fun w => w.linkSt u) (fun l => { l with
      jobs := tmap (fun _ j => if j.slot = slot ∧ j.state = 1 then { j with state := 2 } else j) l.jobs }) nodup hu keeps
      (fun w _ => retiringMark_link link) (fun i _ other w _ => (retiringMark_other other).2.1) rfl

end

/-- The message that a station waits for is the oldest on its way. -/
theorem arriveUpTo_head {kind id t0 : Nat} {rest : List (Nat × Nat × Nat)} {s : State} (head : s.keepway = (t0, kind, id) :: rest) :
    arriveUpTo kind id s = arrive kind id { s with keepway := rest } := by
  have found : s.keepway.findIdx? (fun m => m.2 == (kind, id)) = some 0 := by
    rw [head, List.findIdx?_cons]
    simp
  rw [arriveUpTo, found]
  simp only [arriveFirst, head]
  rfl

/-! ### The freezes of a partition and of a region (03 R99, R100) -/

section
variable {code st : Nat} {p : MReq → Bool} {s : State}

theorem cutReqs_idle (f : MemSt → MemSt) (idle : (f (s.memSt st)).reqs = []) :
    (cutReqs st code p (s.onMem st f)).memSt st = f (s.memSt st) ∧ (∀ u, u ≠ st → (cutReqs st code p (s.onMem st f)).memSt u = s.memSt u) ∧
      cutReqs st code p (s.onMem st f) = { s with mem := (cutReqs st code p (s.onMem st f)).mem } := by
  have none_ : ∀ q, (((s.onMem st f).onMem st fun m => { m with reqs := m.reqs.map q }).memSt st).reqs = [] := fun q => by
    rw [memSt_onMem, memSt_onMem, idle]
    rfl
  have run : cutReqs st code p (s.onMem st f) = (s.onMem st f).onMem st fun m => { m with
      reqs := m.reqs.map fun r => if p r && isWrite r.kind && !uncommitted r then { r with cut := code } else r } := by
    simp only [cutReqs, none_, List.filter_nil]
    exact pump_idle (none_ _)
  rw [run]
  refine ⟨?_, fun u other => ?_, rfl⟩
  · rw [memSt_onMem, memSt_onMem, idle]
    generalize f (s.memSt st) = m at idle
    rw [← idle]
    cases m
    cases idle
    rfl
  · rw [memSt_onMem_other _ _ _ _ other, memSt_onMem_other _ _ _ _ other]

/-- The state of a freeze on its way through stations without a request. -/
def Frozen (s w : State) : Prop := w = { s with mem := w.mem } ∧ ∀ u ∈ Config.memIds, (w.memSt u).reqs = []

/-- A freeze whose stations have no request changes each of them alone. -/
theorem each_freezes {f : Nat → State → State} (g : Nat → State → MemSt → MemSt) (reqs : ∀ i w m, (g i w m).reqs = m.reqs)
    (objs : ∀ i w m, w.objs = s.objs → g i w m = g i s m) (runs : ∀ i w, ∃ q, f i w = cutReqs i code q (w.onMem i (g i w)))
    (idle : ∀ u ∈ Config.memIds, (s.memSt u).reqs = []) :
    let t := each Config.memIds f s
    t = { s with mem := t.mem } ∧ ∀ u ∈ Config.memIds, t.memSt u = g u s (s.memSt u) := by
  intro t
  have step : ∀ i ∈ Config.memIds, ∀ w, Frozen s w → (f i w).memSt i = g i s (w.memSt i) ∧ (∀ u, u ≠ i → (f i w).memSt u = w.memSt u) ∧
      f i w = { w with mem := (f i w).mem } := by
    intro i hi w ⟨same, quiet⟩
    obtain ⟨q, run⟩ := runs i w
    rw [run, ← objs i w _ (by rw [same])]
    exact cutReqs_idle (g i w) ((reqs i w _).trans (quiet i hi))
  have keeps : ∀ i ∈ Config.memIds, ∀ w, Frozen s w → Frozen s (f i w) := by
    intro i hi w hw
    obtain ⟨own, other, rest⟩ := step i hi w hw
    obtain ⟨same, quiet⟩ := hw
    refine ⟨?_, fun u hu => ?_⟩
    · exact rest.trans (congrArg (fun v : State => { v with mem := (f i w).mem }) same)
    · by_cases h : u = i
      · rw [h, own, reqs]
        exact quiet i hi
      · rw [other u h]
        exact quiet u hu
  have start : Frozen s s := ⟨rfl, idle⟩
  refine ⟨(each_inv_mem (Frozen s) _ _ (fun i w hi hw => keeps i hi w hw) s start).1, fun u hu => ?_⟩
  exact each_at (Frozen s) (fun w => w.memSt u) (g u s) (by decide) hu keeps (fun w hw => (step u hu w hw).1)
    (fun i hi other w hw => (step i hi w hw).2.1 u other.symm) start

end

end Sys2Proof.Machine
end

section
/-! PROOF of O15, the third part. Freezes, cuts and measurements, and the statement. -/

namespace Sys2Proof.Machine
open Sys2Proof Sys2Proof.Crypto

theorem retireArrives_marks {st slot t0 : Nat} {rest : List (Nat × Nat × Nat)} {s : State} (head : s.keepway = (t0, 2, slot) :: rest)
    (retiring : (s.key slot).state = 6) (holds : (holders (s.key slot).cls).contains st = true) :
    retireArrives st slot s = each (holders (s.key slot).cls) (retiringMark slot) { s with keepway := rest } := by
  rw [retireArrives, if_pos holds, arriveUpTo_head head]
  exact if_pos retiring

section
variable {st part obj t0 : Nat} {rest : List (Nat × Nat × Nat)} {s : State} (mem : isMem st = true)
include mem

theorem freezeArrival_part (head : s.keepway = (t0, 0, part) :: rest) (frozen : (s.part part).state = 3 ∨ (s.part part).state = 4) :
    freezeArrival st part 0 s = each Config.memIds (freezePart part) { s with keepway := rest } := by
  rw [freezeArrival, mem, arriveUpTo_head head]
  exact if_pos frozen

theorem freezeArrival_region (named : obj ≠ 0) (head : s.keepway = (t0, 1, obj) :: rest) (frozen : (s.obj obj).frozen = true) :
    freezeArrival st 0 obj s = each Config.memIds (freezeRegion obj) { s with keepway := rest } := by
  rw [freezeArrival, mem, if_pos named, arriveUpTo_head head]
  exact if_pos frozen

end

section
variable {s : State} (idle : ∀ u ∈ Config.memIds, (s.memSt u).reqs = [])
include idle

theorem freezeParts (part : Nat) :
    let t := each Config.memIds (freezePart part) s
    t = { s with mem := t.mem } ∧ ∀ u ∈ Config.memIds, t.memSt u = { s.memSt u with
      frzParts := part :: without (s.memSt u).frzParts part, descs := (s.memSt u).descs.filter fun oi => (s.obj oi).part != part } :=
  each_freezes (fun _ w m => { m with
    frzParts := part :: without m.frzParts part, descs := m.descs.filter fun oi => (w.obj oi).part != part }) (fun _ _ _ => rfl)
    (fun _ w m objs => by simp only [State.obj, objs]) (fun _ _ => ⟨_, rfl⟩) idle

theorem freezeRegions (oi : Nat) :
    let t := each Config.memIds (freezeRegion oi) s
    t = { s with mem := t.mem } ∧ ∀ u ∈ Config.memIds, t.memSt u = { s.memSt u with
      frzObjs := oi :: without (s.memSt u).frzObjs oi, descs := without (s.memSt u).descs oi } :=
  each_freezes (fun _ _ m => { m with frzObjs := oi :: without m.frzObjs oi, descs := without m.descs oi }) (fun _ _ _ => rfl)
    (fun _ _ _ _ => rfl) (fun _ _ => ⟨_, rfl⟩) idle

end

/-! ### The cuts at their time (06 R204, 03 R97) -/

section
variable {st slot : Nat} {s : State}

theorem drainCut_mem (mem : isMem st = true) : drainCut st slot s = cutReqs st 0x05 (underSlot s slot) s := if_pos mem

theorem drainCut_link (mem : isMem st = false) (link : isLink st = true) : drainCut st slot s =
    each ((s.linkSt st).jobs.filter fun j => j.2.slot == slot && j.2.state != 0) (fun j u => cutJob st j.1 0x05 u) s := by
  rw [drainCut, mem, link]
  rfl

theorem epochCut_early (early : s.now < s.epochAt + Config.ms 5) : epochCut st s = s := by
  rw [epochCut, if_pos fun h => absurd early (Nat.not_lt.mpr h.2)]

theorem epochCut_mem (draining : s.epochDraining = true) (due : s.epochAt + Config.ms 5 ≤ s.now) (mem : isMem st = true) :
    epochCut st s = cutReqs st 0x04 (fun r => r.epoch == s.epoch - 1) s := by
  rw [epochCut, if_neg (not_not_intro ⟨draining, due⟩), if_pos mem]
  rfl

end

/-! ### Measured stripes and the fold of a sealed region (04 R109 to R114) -/

/-- A stripe of the object whose tiles are all hashed is folded at the station of its place. -/
theorem measuredHash_folds {st oi stripe : Nat} {s : State} {p : Place}
    (measuring : (s.obj oi).meas = 2) (place : (s.obj oi).places[stripe % (s.obj oi).places.length]? = some p) (here : p.st = st)
    (some_ : ((List.range 16).map (· + 16 * stripe) |>.filter fun k => decide (k < (s.obj oi).tiles)) ≠ [])
    (fresh : tfind (s.obj oi).nodes stripe = none)
    (hashed : ∀ k ∈ ((List.range 16).map (· + 16 * stripe) |>.filter fun k => decide (k < (s.obj oi).tiles)), (tfind (s.obj oi).leaves k).isSome = true) :
    let o := s.obj oi
    let ks := (List.range 16).map (· + 16 * stripe) |>.filter fun k => decide (k < o.tiles)
    (measuredHash st oi stripe s).obj oi = { o with
      nodes := tset o.nodes stripe (treeNode 1 stripe (ks.map fun k => tget [] o.leaves k)),
      leaves := o.leaves.filter fun x => x.1 / 16 != stripe } ∧ ∀ i, i ≠ oi → (measuredHash st oi stripe s).obj i = s.obj i := by
  intro o ks
  have due : o.meas = 2 ∧ (p.st == st) = true ∧ ks ≠ [] ∧ (tfind o.nodes stripe).isNone = true ∧
      (ks.all fun k => (tfind o.leaves k).isSome) = true :=
    ⟨measuring, beq_iff_eq.mpr here, some_, by rw [fresh]; rfl, List.all_eq_true.mpr hashed⟩
  have run : measuredHash st oi stripe s = bump st 24 ((7 + 48 * ks.length + 17 + 127) / 128) (s.onObj oi fun o => { o with
      nodes := tset o.nodes stripe (treeNode 1 stripe (ks.map fun k => tget [] o.leaves k)),
      leaves := o.leaves.filter fun x => x.1 / 16 != stripe }) := by
    simp only [measuredHash, place]
    exact if_pos due
  have objs := (run ▸ Ended.bump st 24 _ _ : Ended _ (measuredHash st oi stripe s)).objs
  unfold State.obj
  rw [objs]
  exact ⟨obj_onObj .., fun i other => obj_onObj_other _ _ _ _ other⟩

theorem countUpper_ended (m : Nat) (s : State) : Ended s (countUpper m s) := .each (fun _ _ => .bump ..) s

section
variable {oi : Nat} {s : State} {t : Taken} {rest : List Taken} (running : runningWith s 0x0402 oi = t :: rest)
include running

theorem sealFold_poisoned (poisoned : (s.obj oi).meas = 1) : sealFold oi s = failCmd t 0x02 s := by
  simp only [sealFold, running, List.head?_cons, if_pos poisoned]
  rfl

theorem sealFold_denied (clean : (s.obj oi).meas ≠ 1) (over_ : (s.obj oi).loading = false ∨ (s.obj oi).meas ≠ 2) :
    sealFold oi s = failCmd t 0x10 s := by
  have denied : (!(s.obj oi).loading) = true ∨ (s.obj oi).meas ≠ 2 := over_.imp_left fun h => by rw [h]; rfl
  simp only [sealFold, running, List.head?_cons, if_neg clean, if_pos denied]
  rfl

/-- A region whose stripes are all folded is sealed and its measurement enters its partition's register. -/
theorem sealFold_seals (measuring : (s.obj oi).meas = 2) (loading : (s.obj oi).loading = true) (full : cursorsFull (s.obj oi) = true)
    (folded : (s.obj oi).nodes.length = stripes (s.obj oi).tiles) (first : earlierSeal s t = false) (idle : (s.obj oi).wantRekey = false) :
    let o := s.obj oi
    let mr := sha384 ([2, BitVec.ofNat 8 o.kind] ++ le 2 o.label ++ le 4 o.tiles ++ treeRoot 8 1 (o.nodes.map (·.2)))
    let u := sealFold oi s
    u.part o.part = { s.part o.part with pmr := sha384 (fit 48 (s.part o.part).pmr ++ mr) } ∧
      u.obj oi = { o with meas := 3, mr := mr, loading := false } ∧ (∀ i, i ≠ o.part → u.part i = s.part i) ∧ ∀ i, i ≠ oi → u.obj i = s.obj i := by
  intro o mr u
  generalize hv : (s.onPart o.part fun p => { p with pmr := sha384 (fit 48 p.pmr ++ mr) }).onObj oi (fun o => { o with meas := 3, mr := mr }) = v
  have run : u = done t mr (leaveLoading oi (countUpper o.nodes.length v)) := by
    rw [← hv]
    simp only [u, sealFold, running, List.head?_cons, measuring, loading, full, folded, first, Bool.not_true, Bool.false_eq_true, ne_eq,
      not_true_eq_false, or_self, if_false, Nat.reduceEqDiff, o, mr]
  have counted := countUpper_ended o.nodes.length v
  generalize countUpper o.nodes.length v = w at run counted
  have wObj (i : Nat) : w.obj i = v.obj i := by rw [State.obj, counted.objs]; rfl
  have vObj : v.obj oi = { o with meas := 3, mr := mr } := by rw [← hv]; exact obj_onObj ..
  have vPart (i : Nat) : v.part i = (s.onPart o.part fun p => { p with pmr := sha384 (fit 48 p.pmr ++ mr) }).part i := by
    rw [← hv]
    rfl
  have left : leaveLoading oi w = dropDesc oi (w.onObj oi fun o => { o with loading := false }) := by
    refine if_neg ?_
    rw [dropDesc_obj, obj_onObj, wObj, vObj, show o.wantRekey = false from idle]
    exact Bool.false_ne_true
  rw [left] at run
  have ended : Ended (dropDesc oi (w.onObj oi fun o => { o with loading := false })) u := by
    rw [run]
    exact complete_ended t 0 0 mr _
  have uPart (i : Nat) : u.part i = v.part i := (ended.part i).trans (counted.part i)
  have uObj (i : Nat) : u.obj i = (w.onObj oi fun o => { o with loading := false }).obj i := by
    rw [State.obj, ended.objs]
    rfl
  refine ⟨(uPart _).trans ?_, (uObj oi).trans ?_, fun i other => (uPart i).trans ?_, fun i other => (uObj i).trans ?_⟩
  · rw [vPart, part_onPart]
  · rw [obj_onObj, wObj, vObj]
  · rw [vPart, part_onPart_other _ _ _ _ other]
  · rw [obj_onObj_other _ _ _ _ other, wObj, ← hv]
    exact obj_onObj_other _ _ _ _ other

end

/-- Settles O15, by a lemma per row and case. -/
theorem rekeysMarksCutsAndMeasurements : Obligations.RekeysMarksCutsAndMeasurements := by
  unfold Obligations.RekeysMarksCutsAndMeasurements
  refine ⟨?_, ?_, ?_, ?_, ?_, ?_, ?_, ?_, ?_, ?_, ?_⟩
  · intro st hdr payload s w
    refine ⟨clearQueue_live, fun empty => congrArg Host.Outcome.next (resealSlot_empty rfl empty), ?_⟩
    intro e rest oi p line l head owner cached o v i k u g
    refine ⟨fun busy => congrArg Host.Outcome.next (resealSlot_waits rfl head owner cached busy), ?_⟩
    intro key ready free hand half z a b
    exact congrArg Host.Outcome.next (resealSlot_moves rfl head owner cached rfl ready free hand half)
  · intro oi st cause s o limit root
    refine ⟨fun live cls idle active loaded draws verified => ?_, fun live cls unsent k p under place => ?_⟩
    · obtain ⟨line, f, run⟩ := rekeyStart_reports oi st cause s
      exact ⟨_, congrArg Host.Outcome.next run, rekeyReport_starts (s := { s with mem := f }) cls live idle active loaded draws verified⟩
    · exact ⟨_, congrArg Host.Outcome.next (rekeyStart_unsent unsent), rekeyReport_again cls live under place⟩
  · intro st oi hdr payload s p k place under o slot g
    refine ⟨fun waits => congrArg Host.Outcome.next (rekeyMove_waits place under waits), ?_⟩
    intro k0 k1 ready dual coarse left old new half0 half1 mem tile z a
    exact congrArg Host.Outcome.next (rekeyMove_tile mem place under ready dual coarse left old new half0 half1)
  · intro oi s k under o
    exact ⟨fun left => congrArg Host.Outcome.next (rekeyCommit_early under left), fun moved dual => ⟨_, rfl, rekeyCommit_swapped under moved dual⟩⟩
  · intro st slot t0 rest s head retiring holds
    exact ⟨_, congrArg Host.Outcome.next (retireArrives_marks head retiring holds), retiringMarks (holders_nodup _)⟩
  · refine fun st slot s => ⟨fun early => congrArg Host.Outcome.next ?_, fun due mem => congrArg Host.Outcome.next ?_,
      fun due mem link => congrArg Host.Outcome.next ?_⟩
    · rw [early, if_neg Bool.false_ne_true]
    · rw [if_pos due, drainCut_mem mem]
    · rw [if_pos due, drainCut_link mem link]
  · exact fun st s => ⟨fun early => congrArg Host.Outcome.next (epochCut_early early),
      fun draining due mem => congrArg Host.Outcome.next (epochCut_mem draining due mem)⟩
  · intro st part t0 rest s mem head frozen
    have run := freezeArrival_part mem head frozen
    exact ⟨congrArg Host.Outcome.next run, fun idle => ⟨_, congrArg Host.Outcome.next run, freezeParts (s := { s with keepway := rest }) idle part⟩⟩
  · intro st obj t0 rest s mem named head frozen
    have run := freezeArrival_region mem named head frozen
    exact ⟨congrArg Host.Outcome.next run, fun idle => ⟨_, congrArg Host.Outcome.next run, freezeRegions (s := { s with keepway := rest }) idle obj⟩⟩
  · intro st oi stripe s p o ks measuring place here some_ fresh hashed
    exact ⟨_, rfl, measuredHash_folds measuring place here some_ fresh hashed⟩
  · intro oi s t rest running o mr
    refine ⟨fun poisoned => congrArg Host.Outcome.next (sealFold_poisoned running poisoned),
      fun clean over_ => congrArg Host.Outcome.next (sealFold_denied running clean over_), fun measuring loading full folded first idle => ?_⟩
    exact ⟨_, rfl, sealFold_seals running measuring loading full folded first idle⟩

end Sys2Proof.Machine
end

section
/-! PROOF of O45 and O46. Fences, NOP and the work commands. -/

namespace Sys2Proof.Machine
open Sys2Proof Sys2Proof.Crypto

variable {op q : Nat} {e : BitVec 1024} {rc : BitVec 16} {inp : Bytes} {s b c : State} {t : Taken} {n i : Nat}

theorem Starts.fence_used (starts : Starts op q e rc s) : (s.fence (envFence e)).state ≠ 0 := by
  obtain ⟨-, -, -, -, -, -, used, -⟩ := starts
  exact used

theorem Starts.fence_kept (starts : Starts op q e rc s) : (s.fence (envFence e)).freed = false := by
  obtain ⟨-, -, -, -, -, -, -, -, -, kept, -⟩ := starts
  exact kept

/-- A fence as a started command finds it: its own is armed, the others are as before. -/
theorem Began.fence_at (hb : Began q e inp s t b) (i : Nat) :
    b.fence i = if i = envFence e then armed (s.fence i) (s.queue q).nextSeq else s.fence i := by
  split
  · rename_i own
    rw [own, hb.fence]
  · exact hb.fences i ‹_›

/-- A fence after a command that succeeds: its own has completed, the others are as its body left them. -/
theorem BeganCore.fence_after (hb : BeganCore q e inp s t b) (res : Bytes) (profs : c.profs = b.profs) (i : Nat) :
    (done t res c).fence i = if i = envFence e then completedFence (c.fence i) else c.fence i := by
  obtain ⟨-, -, others, own⟩ := hb.after res profs
  split
  · rename_i same
    rw [same, own]
  · exact others i ‹_›

theorem BeganCore.fence_changed (hb : BeganCore q e inp s t b) (res : Bytes) (i : Nat) (f : Fence → Fence) (j : Nat) :
    (done t res (b.onFence i f)).fence j = if j = envFence e then completedFence ((b.onFence i f).fence j) else (b.onFence i f).fence j :=
  hb.fence_after (c := b.onFence i f) res rfl j

theorem Began.owns (hb : Began q e inp s t b) (used : (s.fence i).state ≠ 0) (kept : (s.fence i).freed = false)
    (mine : (s.fence i).owner = (s.queue q).ctx) : ownsFence b t i = true := by
  have same : (b.fence i).state ≠ 0 ∧ (b.fence i).freed = false ∧ (b.fence i).owner = (s.queue q).ctx := by
    rw [hb.fence_at]
    split
    · exact ⟨by simp [armed], kept, mine⟩
    · exact ⟨used, kept, mine⟩
  obtain ⟨used, kept, mine⟩ := same
  simp [ownsFence, used, kept, mine, hb.ctxOf]

theorem onFence_bare (i : Nat) (f : Fence → Fence) (s : State) : (s.onFence i f).bare = s.bare := rfl

theorem keepRunning_bare (t : Taken) (aux : Nat) (s : State) : (keepRunning t aux s).bare = s.bare := rfl

/-- A command that changes only what the driver interface keeps, and then succeeds, leaves the rest as it was. -/
theorem Began.done_bare (hb : Began q e inp s t b) (res : Bytes) (profs : c.profs = b.profs) (bare : c.bare = b.bare) :
    (done t res c).bare = s.bare :=
  (Machine.done_bare res (hb.unbound profs rfl)).trans (bare.trans hb.bare)

/-! ### Fences (09 R309, R310) -/

theorem Began.freeFence (hb : Began q e inp s t b) (used : (s.fence (envFence e)).state ≠ 0) : freeFence b = Machine.freeFence s := by
  have same : (fun i => (b.fence i).state == 0) = fun i => (s.fence i).state == 0 := by
    funext i
    rw [hb.fence_at]
    split
    · rename_i own
      rw [own, beq_eq_false_iff_ne.mpr used]
      rfl
    · rfl
  rw [Machine.freeFence, same]
  rfl

theorem bodyFenceAlloc_hands (hb : Began q e inp s t b) (used : (s.fence (envFence e)).state ≠ 0) (free : freeFence s = some i) :
    bodyFenceAlloc t n inp b = done t (le 2 i) (b.onFence i fun _ => { state := 1, owner := (s.queue q).ctx }) := by
  simp only [bodyFenceAlloc, hb.taux, hb.freeFence used, free, hb.ctxOf, Nat.zero_ne_one, if_false]

theorem bodyFenceFree_waits (hb : Began q e inp s t b) (owned : ownsFence b t (opnd e 0 2) = true) (other : opnd e 0 2 ≠ envFence e)
    (pending : (s.fence (opnd e 0 2)).state = 2) : bodyFenceFree t n inp b = keepRunning t (opnd e 0 2 + 1) b := by
  simp only [bodyFenceFree, hb.te, owned, hb.fences _ other, if_neg other, pending, Bool.not_true, Bool.false_eq_true, if_false, if_true]

theorem bodyFenceFree_frees (hb : Began q e inp s t b) (owned : ownsFence b t (opnd e 0 2) = true) (other : opnd e 0 2 ≠ envFence e)
    (idle : (s.fence (opnd e 0 2)).state ≠ 2) : bodyFenceFree t n inp b = done t [] (letGo (opnd e 0 2) b) := by
  simp only [bodyFenceFree, hb.te, owned, hb.fences _ other, if_neg other, if_neg idle, Bool.not_true, Bool.false_eq_true, if_false]

theorem bodyFenceFree_own (hb : Began q e inp s t b) (owned : ownsFence b t (opnd e 0 2) = true) (own : opnd e 0 2 = envFence e) :
    bodyFenceFree t n inp b = letGo (opnd e 0 2) (done t [] b) := by
  simp only [bodyFenceFree, hb.te, owned, if_pos own, Bool.not_true, Bool.false_eq_true, if_false]

theorem Began.fence_users (hb : Began q e inp s t b) (i : Nat) : (b.fence i).importers = (s.fence i).importers ∧
    (b.fence i).owner = (s.fence i).owner ∧ (b.fence i).freed = (s.fence i).freed ∧ ((s.fence i).state ≠ 0 → (b.fence i).state ≠ 0) := by
  rw [hb.fence_at]
  split
  · exact ⟨rfl, rfl, rfl, fun _ => by simp [armed]⟩
  · exact ⟨rfl, rfl, rfl, id⟩

theorem bodyFenceShare_shares (hb : Began q e inp s t b) (owned : ownsFence b t (opnd e 0 2) = true) (live : (s.ctx (opnd e 2 2)).state = 1)
    (other : opnd e 2 2 ≠ (s.queue q).ctx)
    (same : (s.ctx (opnd e 2 2)).part = (s.ctx (s.queue q).ctx).part ∨ isOperatorCtx (s.ctx (opnd e 2 2)) = true)
    (fresh : (s.fence (opnd e 0 2)).importers.contains (opnd e 2 2) = false) :
    bodyFenceShare t n inp b = done t [] (b.onFence (opnd e 0 2) fun f => { f with importers := f.importers ++ [opnd e 2 2] }) := by
  have passes : ((s.ctx (opnd e 2 2)).part == (s.ctx (s.queue q).ctx).part || isOperatorCtx (s.ctx (opnd e 2 2))) = true := by
    rcases same with h | h
    · rw [h, beq_self_eq_true, Bool.true_or]
    · rw [h, Bool.or_true]
  simp only [bodyFenceShare, hb.te, owned, hb.ctx_eq, hb.ctxOf, live, passes, (hb.fence_users _).1, fresh, other, Bool.not_true, Bool.false_eq_true,
    ne_eq, not_true_eq_false, or_self, if_false]

/-- The end of a command keeps its fence's importers, unless it frees the fence. -/
theorem completedFence_importers {f : Fence} (kept : f.freed = false) : (completedFence f).importers = f.importers := by
  unfold completedFence
  rw [kept]
  split
  · rfl
  · rfl

theorem tryFreeFence_kept (kept : (s.fence i).freed = false) : tryFreeFence i s = s := by
  simp only [tryFreeFence, kept, Bool.false_eq_true, false_and, if_false]

theorem bodyFenceRelease_releases (hb : Began q e inp s t b) (used : (s.fence (opnd e 0 2)).state ≠ 0)
    (importer : (s.fence (opnd e 0 2)).importers.contains (s.queue q).ctx = true) (kept : (s.fence (opnd e 0 2)).freed = false) :
    bodyFenceRelease t n inp b = done t [] (b.onFence (opnd e 0 2) fun f => { f with importers := without f.importers (s.queue q).ctx }) := by
  obtain ⟨importers, -, freed, state⟩ := hb.fence_users (opnd e 0 2)
  have stays := tryFreeFence_kept (s := b.onFence (opnd e 0 2) fun f => { f with importers := without f.importers (s.queue q).ctx }) (i := opnd e 0 2)
    (by rw [fence_onFence]; exact freed.trans kept)
  simp only [bodyFenceRelease, hb.te, hb.ctxOf, importers, importer, state used, stays, Bool.not_true, Bool.false_eq_true, or_self, if_false]

theorem bodyFenceQuery_answers (hb : Began q e inp s t b) (used : (s.fence (opnd e 0 2)).state ≠ 0)
    (user : (s.fence (opnd e 0 2)).owner = (s.queue q).ctx ∨ (s.fence (opnd e 0 2)).importers.contains (s.queue q).ctx = true) :
    bodyFenceQuery t n inp b = done t (fenceBytes (if opnd e 0 2 = envFence e then armed (s.fence (opnd e 0 2)) (s.queue q).nextSeq
      else s.fence (opnd e 0 2))) b := by
  obtain ⟨importers, owner, -, state⟩ := hb.fence_users (opnd e 0 2)
  have may : ((s.fence (opnd e 0 2)).owner == (s.queue q).ctx || (s.fence (opnd e 0 2)).importers.contains (s.queue q).ctx) = true := by
    rcases user with h | h
    · rw [h, beq_self_eq_true, Bool.true_or]
    · rw [h, Bool.or_true]
  simp only [bodyFenceQuery, hb.te, hb.ctxOf, importers, owner, state used, may, Bool.not_true, Bool.false_eq_true, or_self, if_false]
  rw [hb.fence_at]

/-- Settles O45: each command's body on the state in which it begins. -/
theorem fencesAreAllocatedSharedAndFreed : Obligations.FencesAreAllocatedSharedAndFreed := by
  refine ⟨?_, ?_, ?_, ?_, ?_⟩
  · intro q e rc inp s starts i free
    obtain ⟨t, b, run, hb⟩ := takeCmd_begins (body := bodyFenceAlloc) (rc := rc) (inp := inp) starts (by decide)
    have other : i ≠ envFence e := fun same => starts.fence_used (same ▸ beq_iff_eq.mp (seek_some (p := fun i => (s.fence i).state == 0) free))
    refine ⟨_, congrArg Host.Outcome.next (run.trans (bodyFenceAlloc_hands hb starts.fence_used free)),
      hb.answered _ rfl hb.now rfl rfl rfl, hb.done_bare _ rfl (onFence_bare ..), ?_, fun j apart own => ?_⟩
    · rw [hb.fence_changed, if_neg other, fence_onFence]
    · rw [hb.fence_changed, if_neg own, fence_onFence_other _ _ _ _ apart, hb.fences j own]
  · intro q e rc inp s starts i f used kept mine
    obtain ⟨t, b, run, hb⟩ := takeCmd_begins (body := bodyFenceFree) (rc := rc) (inp := inp) starts (by decide)
    have owned := hb.owns used kept mine
    exact ⟨fun other pending => ⟨_, congrArg Host.Outcome.next (run.trans (bodyFenceFree_waits hb owned other pending)),
        hb.runs _ rfl rfl rfl, hb.bare⟩,
      fun other idle => ⟨t, b, hb, congrArg Host.Outcome.next (run.trans (bodyFenceFree_frees hb owned other idle))⟩,
      fun own => ⟨t, b, hb, congrArg Host.Outcome.next (run.trans (bodyFenceFree_own hb owned own))⟩⟩
  · intro q e rc inp s starts i c f used kept mine live other same fresh
    obtain ⟨t, b, run, hb⟩ := takeCmd_begins (body := bodyFenceShare) (rc := rc) (inp := inp) starts (by decide)
    obtain ⟨importers, -, freed, -⟩ := hb.fence_users i
    refine ⟨_, congrArg Host.Outcome.next (run.trans (bodyFenceShare_shares hb (hb.owns used kept mine) live other same fresh)),
      hb.answered _ rfl hb.now rfl rfl rfl, hb.done_bare _ rfl (onFence_bare ..), ?_, fun apart => ?_⟩
    · rw [hb.fence_changed]
      split
      · rw [completedFence_importers (by rw [fence_onFence]; exact freed.trans kept), fence_onFence, importers]
      · rw [fence_onFence, importers]
    · rw [hb.fence_changed, if_neg apart, fence_onFence, hb.fences i apart]
  · intro q e rc inp s starts i f c used importer other kept
    obtain ⟨t, b, run, hb⟩ := takeCmd_begins (body := bodyFenceRelease) (rc := rc) (inp := inp) starts (by decide)
    refine ⟨_, congrArg Host.Outcome.next (run.trans (bodyFenceRelease_releases hb used importer kept)),
      hb.answered _ rfl hb.now rfl rfl rfl, hb.done_bare _ rfl (onFence_bare ..), ?_⟩
    rw [hb.fence_changed, if_neg other, fence_onFence, hb.fences i other]
  · intro q e rc inp s starts i f c used user
    obtain ⟨t, b, run, hb⟩ := takeCmd_begins (body := bodyFenceQuery) (rc := rc) (inp := inp) starts (by decide)
    obtain ⟨u, exec, completed, bare, -⟩ := hb.finishes (congrArg Host.Outcome.next (run.trans (bodyFenceQuery_answers hb used user)))
      rfl rfl rfl rfl rfl hb.now
    exact ⟨u, exec, bare.trans hb.bare, completed⟩

/-! ### NOP, WORK_BEGIN and WORK_END (09 R314) -/

theorem bodyWorkEnd_ends {x : Taken} (hb : Began q e inp s t b) (owned : ownsFence b t (opnd e 0 2) = true)
    (work : s.taken.find? (fun x => x.phase == 2 && envOpcode x.e == 0x0940 && x.aux == 0 && envFence x.e == opnd e 0 2) = some x) :
    bodyWorkEnd t n inp b = done t [] (keepRunning x (s.now + 7) b) := by
  have found : b.taken.find? (fun x => x.phase == 2 && envOpcode x.e == 0x0940 && x.aux == 0 && envFence x.e == opnd e 0 2) = some x := by
    rw [hb.taken, List.find?_append, work, Option.some_or]
  simp only [bodyWorkEnd, hb.te, found, owned, hb.now, Bool.not_true, Bool.false_eq_true, if_false]
  rfl

/-- A command that marks another one of the taken leaves the rest. -/
theorem Began.marked {x : Taken} (hb : Began q e inp s t b) (mem : x ∈ s.taken) (aux : Nat) :
    (done t [] (keepRunning x aux b)).taken = s.taken.map fun y => if y.q == x.q && y.seq == x.seq then { y with phase := 2, aux := aux } else y := by
  have apart : (t.q == x.q) = false := beq_eq_false_iff_ne.mpr fun same => hb.only x mem (same.symm.trans hb.tq)
  obtain ⟨k, ctx, tr, v, o, fs, ends, -⟩ := done_only (t := t) (c := keepRunning x aux b) [] (hb.unbound rfl rfl)
  rw [ends]
  show List.filter _ (b.taken.map _) = _
  rw [hb.taken, List.map_append, List.filter_append, List.map_singleton, apart, Bool.false_and, if_neg Bool.false_ne_true]
  have kept : ∀ y ∈ s.taken.map (fun y => if y.q == x.q && y.seq == x.seq then { y with phase := 2, aux := aux } else y),
      (!(y.q == t.q && y.seq == t.seq)) = true := by
    intro y hy
    obtain ⟨z, hz, rfl⟩ := List.mem_map.mp hy
    have other := hb.only z hz
    split <;> simp [hb.tq, other]
  rw [List.filter_eq_self.mpr kept, List.filter_cons_of_neg (by simp), List.filter_nil, List.append_nil]

/-- Settles O46: each command's body on the state in which it begins. -/
theorem nopAndWorkCommandsRun : Obligations.NopAndWorkCommandsRun := by
  refine ⟨?_, ?_, ?_⟩
  · intro q e rc inp s starts
    obtain ⟨t, b, run, hb⟩ := takeCmd_begins (body := bodyNop) (rc := rc) (inp := inp) starts (by decide)
    obtain ⟨u, exec, completed, bare, -⟩ := hb.finishes (congrArg Host.Outcome.next run) rfl rfl rfl rfl rfl hb.now
    exact ⟨u, exec, completed, bare.trans hb.bare⟩
  · intro q e rc inp s starts
    obtain ⟨t, b, run, hb⟩ := takeCmd_begins (body := bodyWorkBegin) (rc := rc) (inp := inp) starts (by decide)
    exact ⟨_, congrArg Host.Outcome.next run, hb.runs _ rfl rfl rfl, hb.bare⟩
  · intro q e rc inp s starts i x work used kept mine
    obtain ⟨t, b, run, hb⟩ := takeCmd_begins (body := bodyWorkEnd) (rc := rc) (inp := inp) starts (by decide)
    exact ⟨_, congrArg Host.Outcome.next (run.trans (bodyWorkEnd_ends hb (hb.owns used kept mine) work)), hb.answered _ rfl hb.now rfl rfl rfl,
      hb.done_bare _ rfl (keepRunning_bare ..), hb.marked (List.mem_of_find?_eq_some work) _⟩

end Sys2Proof.Machine
end

section
/-! PROOF of O10 and O11. REGION_RELOAD, REGION_SEAL and ACC_OPEN. -/

namespace Sys2Proof.Machine
open Sys2Proof Sys2Proof.Crypto

variable {q n : Nat} {e : BitVec 1024} {inp : Bytes} {s b : State} {t : Taken}

/-! ### REGION_RELOAD and REGION_SEAL (02 R68, 04 R114) -/

/-- A sealed region that is loaded again. -/
def reloaded (o : Obj) : Obj :=
  { o with loading := true, loadGen := o.loadGen + 1, wantReload := false, leaves := [], nodes := [],
           meas := if o.measured then 2 else 0, mr := [], places := o.places.map fun p => { p with cursor := 0 } }

/-- What becomes of a region whose stations let go of its descriptor. -/
def changeObj (i : Nat) (f : Obj → Obj) (s : State) : State := dropDesc i (s.onObj i f)

theorem changeObj_bare (hb : Began q e inp s t b) (i : Nat) (f : Obj → Obj) : (changeObj i f b).bare =
    { s.bare with objs := tset s.objs i (f (s.obj i)), mem := (dropDesc i s).mem } :=
  congrArg (fun u : State => ({ u with objs := tset u.objs i (f (tget {} u.objs i)), mem := (dropDesc i u).mem } : State)) hb.bare

theorem reload_low {i : Nat} (low : (s.obj i).loadGen + 1 < 2 ^ 63) : reload i s = changeObj i reloaded s := by
  refine if_neg ?_
  rw [dropDesc_obj, obj_onObj]
  exact Nat.not_le.mpr low

theorem leaveLoading_idle {i : Nat} (idle : (s.obj i).wantRekey = false) : leaveLoading i s = changeObj i (fun o => { o with loading := false }) s := by
  refine if_neg ?_
  rw [dropDesc_obj, obj_onObj, idle]
  exact Bool.false_ne_true

theorem bodyRegionReload_reloads (hb : Began q e inp s t b) (handle : opnd e 0 4 ≠ 0) (coarse : (s.obj (handleIdx (opnd e 0 4))).cls = 1)
    (thawed : (s.obj (handleIdx (opnd e 0 4))).frozen = false) (landed : (s.obj (handleIdx (opnd e 0 4))).landing = false)
    (running : (s.part (s.obj (handleIdx (opnd e 0 4))).part).state ≠ 3) (kept : (s.part (s.obj (handleIdx (opnd e 0 4))).part).state ≠ 4)
    (idle : (s.obj (handleIdx (opnd e 0 4))).rekey = none) (low : (s.obj (handleIdx (opnd e 0 4))).loadGen + 1 < 2 ^ 63) :
    bodyRegionReload t n inp b = done t [] (changeObj (handleIdx (opnd e 0 4)) reloaded b) := by
  have open_ : writeFrozen b (s.obj (handleIdx (opnd e 0 4))) = false := by
    rw [writeFrozen, hb.part_eq, thawed, landed, beq_eq_false_iff_ne.mpr running, beq_eq_false_iff_ne.mpr kept]
    rfl
  have more : ¬ 2 ^ 64 - 1 ≤ (s.obj (handleIdx (opnd e 0 4))).loadGen := by omega
  simp only [bodyRegionReload, hb.te, hb.obj_eq, if_neg handle, coarse, open_, idle, more, Option.isSome_none, Bool.false_eq_true, ne_eq,
    not_true_eq_false, if_false]
  rw [reload_low (by rw [hb.obj_eq]; exact low)]

section
variable (hb : Began q e inp s t b) (handle : opnd e 0 4 ≠ 0) (coarse : (s.obj (handleIdx (opnd e 0 4))).cls = 1)
  (loading : (s.obj (handleIdx (opnd e 0 4))).loading = true) (clean : (s.obj (handleIdx (opnd e 0 4))).meas ≠ 1)
  (full : ∀ p ∈ (s.obj (handleIdx (opnd e 0 4))).places, p.cursor = p.count)
include hb handle coarse loading clean full

theorem bodyRegionSeal_passes : bodyRegionSeal t n inp b =
    if (s.obj (handleIdx (opnd e 0 4))).measured then keepRunning t (handleIdx (opnd e 0 4)) b
    else done t [] (leaveLoading (handleIdx (opnd e 0 4)) b) := by
  have all : cursorsFull (s.obj (handleIdx (opnd e 0 4))) = true := List.all_eq_true.mpr fun p mem => beq_iff_eq.mpr (full p mem)
  simp only [bodyRegionSeal, hb.te, hb.obj_eq, if_neg handle, coarse, loading, if_neg clean, all, Bool.not_true, Bool.false_eq_true, ne_eq,
    not_true_eq_false, or_self, if_false]

theorem bodyRegionSeal_leaves (plain : (s.obj (handleIdx (opnd e 0 4))).measured = false) (idle : (s.obj (handleIdx (opnd e 0 4))).wantRekey = false) :
    bodyRegionSeal t n inp b = done t [] (changeObj (handleIdx (opnd e 0 4)) (fun o => { o with loading := false }) b) := by
  rw [bodyRegionSeal_passes hb handle coarse loading clean full, plain, if_neg Bool.false_ne_true, leaveLoading_idle (by rw [hb.obj_eq]; exact idle)]

theorem bodyRegionSeal_folds (measured : (s.obj (handleIdx (opnd e 0 4))).measured = true) :
    bodyRegionSeal t n inp b = keepRunning t (handleIdx (opnd e 0 4)) b := by
  rw [bodyRegionSeal_passes hb handle coarse loading clean full, if_pos measured]

end

/-- Settles O10: each command's body on the state in which it begins. -/
theorem regionReloadAndSealRun : Obligations.RegionReloadAndSealRun := by
  refine ⟨?_, ?_⟩
  · intro q e rc inp s starts i o handle coarse thawed landed running kept idle low
    obtain ⟨t, b, run, hb⟩ := takeCmd_begins (body := bodyRegionReload) (rc := rc) (inp := inp) starts (by decide)
    obtain ⟨u, exec, completed, bare, -⟩ := hb.finishes (congrArg Host.Outcome.next
      (run.trans (bodyRegionReload_reloads hb handle coarse thawed landed running kept idle low))) rfl rfl rfl rfl rfl hb.now
    exact ⟨u, exec, completed, bare.trans (changeObj_bare hb i reloaded)⟩
  · intro q e rc inp s starts i o handle coarse loading clean full
    obtain ⟨t, b, run, hb⟩ := takeCmd_begins (body := bodyRegionSeal) (rc := rc) (inp := inp) starts (by decide)
    refine ⟨fun plain idle => ?_, fun measured => ?_⟩
    · obtain ⟨u, exec, completed, bare, -⟩ := hb.finishes (congrArg Host.Outcome.next
        (run.trans (bodyRegionSeal_leaves hb handle coarse loading clean full plain idle))) rfl rfl rfl rfl rfl hb.now
      exact ⟨u, exec, completed, bare.trans (changeObj_bare hb i _)⟩
    · exact ⟨_, congrArg Host.Outcome.next (run.trans (bodyRegionSeal_folds hb handle coarse loading clean full measured)), hb.runs _ rfl rfl rfl,
        (keepRunning_bare ..).trans hb.bare⟩

/-! ### ACC_OPEN (04 R120, R133) -/

/-- The descriptor that ACC_OPEN opens. -/
def openedAcc (q : Nat) (e : BitVec 1024) (s : State) : Acc where
  state := 1
  mode := opnd e 4 1
  e := BitVec.ofNat 8 (opnd e 5 1)
  bs := opnd e 6 1
  mask := BitVec.ofNat 8 (opnd e 7 1)
  fence := opnd e 8 2
  ctx := (s.queue q).ctx
  handle := BitVec.ofNat 32 (opnd e 0 4)

theorem bodyAccOpen_opens {d : Nat} (hb : BeganCore q e inp s t b) (handle : opnd e 0 4 ≠ 0)
    (cls : (s.obj (handleIdx (opnd e 0 4))).cls = 2 ∨ (s.obj (handleIdx (opnd e 0 4))).cls = 4)
    (mode : opnd e 4 1 = 1 ∨ opnd e 4 1 = 2 ∧ opnd e 5 1 = 0) (some_ : 1 ≤ opnd e 6 1) (few : opnd e 6 1 ≤ 63) (mask : opnd e 7 1 < 64)
    (free : lowFree s.accs 0 64 = some d) :
    ∃ m, bodyAccOpen t n inp b = done t [BitVec.ofNat 8 d]
        ({ b with accs := tset s.accs d (openedAcc q e s), mem := m }.onObj (handleIdx (opnd e 0 4)) fun o => { o with refs := o.refs + 1 }) ∧
      ∀ p ∈ (s.obj (handleIdx (opnd e 0 4))).places, tget ({} : AccCopy) (tget ({} : MemSt) m p.st).accs d = { state := 1 } := by
  obtain ⟨m, placed, copies⟩ := each_place_accs (s.obj (handleIdx (opnd e 0 4))).places d { state := 1 }
    { b with accs := tset s.accs d (openedAcc q e s) }
  refine ⟨m, ?_, fun p mem => (copies p.st).trans (if_pos ⟨p, mem, rfl⟩)⟩
  have valid : ¬(¬((s.obj (handleIdx (opnd e 0 4))).cls = 2 ∨ (s.obj (handleIdx (opnd e 0 4))).cls = 4) ∨ ¬(opnd e 4 1 = 1 ∨ opnd e 4 1 = 2) ∨
      (opnd e 4 1 = 2 ∧ BitVec.ofNat 8 (opnd e 5 1) ≠ 0) ∨ opnd e 6 1 = 0 ∨ 63 < opnd e 6 1 ∨ 64 ≤ (BitVec.ofNat 8 (opnd e 7 1)).toNat) := by
    have small : (BitVec.ofNat 8 (opnd e 7 1)).toNat = opnd e 7 1 := by
      rw [BitVec.toNat_ofNat, Nat.mod_eq_of_lt (by omega)]
    rw [small]
    rintro (h | h | ⟨h, g⟩ | h | h | h)
    · exact h cls
    · exact h (mode.imp_right And.left)
    · refine g ?_
      rw [(mode.resolve_left (by omega)).2]
      rfl
    all_goals omega
  simp only [bodyAccOpen, hb.te, hb.obj_eq, hb.accs, hb.ctxOf, if_neg handle, if_neg valid, free]
  exact congrArg (fun u : State => done t [BitVec.ofNat 8 d] (u.onObj (handleIdx (opnd e 0 4)) fun o => { o with refs := o.refs + 1 })) placed

/-- Settles O11: the command's body on the state in which it begins. -/
theorem accOpenOpensTheLowestFreeDescriptor : Obligations.AccOpenOpensTheLowestFreeDescriptor := by
  intro q e rc inp s starts h i o sf d handle cls mode some_ few mask used idle mine other free
  obtain ⟨t, b, run, hb, fences⟩ := takeCmd_begins_stream (body := bodyAccOpen) (rc := rc) (inp := inp) starts rfl used idle mine other
  obtain ⟨m, opens, copies⟩ := bodyAccOpen_opens (n := 0) hb handle cls mode some_ few mask free
  generalize hc : ({ b with accs := tset s.accs d (openedAcc q e s), mem := m } : State).onObj i (fun o => { o with refs := o.refs + 1 }) = c
    at opens
  have profs : c.profs = b.profs := by rw [← hc]; rfl
  have now : c.now = s.now := by rw [← hc]; exact hb.now
  have fence : c.fence sf = b.fence sf := by rw [← hc]; rfl
  have ofC : c.bare = { s.bare with accs := tset s.accs d (openedAcc q e s), objs := tset s.objs i { o with refs := o.refs + 1 }, mem := m } := by
    rw [← hc]
    exact congrArg (fun u : State => ({ u with
      accs := tset s.accs d (openedAcc q e s), mem := m, objs := tupd {} u.objs i fun o => { o with refs := o.refs + 1 } } : State)) hb.bare
  clear hc
  have bare := (done_bare [BitVec.ofNat 8 d] (hb.unbound profs rfl)).trans ofC
  have accs : (done t [BitVec.ofNat 8 d] c).accs = _ := (congrArg State.accs bare :)
  have objs : (done t [BitVec.ofNat 8 d] c).objs = _ := (congrArg State.objs bare :)
  have mem : (done t [BitVec.ofNat 8 d] c).mem = _ := (congrArg State.mem bare :)
  refine ⟨_, congrArg Host.Outcome.next (run.trans opens), hb.answered _ profs now rfl rfl rfl, accs, objs, ?_, fun p hp => ?_, ?_⟩
  · rw [hb.fence_after _ profs, if_neg other, fence, State.fence, fences, tget_tset_same]
  · rw [State.memSt, mem]
    exact copies p hp
  · rw [bare, accs, objs, mem]

end Sys2Proof.Machine
end

section
/-! PROOF of O27 and O60. Random sources, and the clocks. -/

namespace Sys2Proof.Machine
open Sys2Proof Sys2Proof.Crypto

variable {s : State}

/-! ### Random sources (06 R185, R186, R188) -/

theorem noiseFail_stays {i : Nat} {raw : BitVec 1024} (stays : s.keep.noise.getLsbD i = false ∨ unhealthy raw = false) : noiseFail i raw s = s := by
  refine if_neg fun ⟨_, _, on, bad⟩ => ?_
  rcases stays with off | good
  · rw [off] at on
    exact Bool.false_ne_true on
  · rw [good] at bad
    exact Bool.false_ne_true bad

theorem takeCond_two (s : State) : takeCond 2 s = (condBlock s.cond ++ condBlock (s.cond + 1), { s with cond := s.cond + 2 }) := by
  simp only [takeCond, List.range_succ, List.range_zero, List.nil_append, List.map_append, List.map_singleton, List.flatten_append,
    List.flatten_singleton, Nat.add_zero]

theorem reseed_reseeds {i : Nat} (low : i < 2) (live : drbgLive s i = true)
    (due : 4096 ≤ (s.drbg i).use ∨ (s.drbg i).since + Config.ms 100 ≤ s.now) (ready : 2 ≤ s.keep.condBuf) :
    let d := drbgReseed (condBlock s.cond ++ condBlock (s.cond + 1)) s.now (s.drbg i)
    let t := reseed i s
    t.drbg i = d ∧ t.drbg (1 - i) = s.drbg (1 - i) ∧
      t = { s with cond := s.cond + 2, keep := { s.keep with condBuf := s.keep.condBuf - 2, drbg0 := t.keep.drbg0, drbg1 := t.keep.drbg1 } } := by
  have may : ¬(2 ≤ i ∨ (!drbgLive s i) = true ∨ (!reseedDue s i) = true ∨ s.keep.condBuf < 2) := by
    have dueNow : reseedDue s i = true := by
      simp only [reseedDue, Bool.or_eq_true, decide_eq_true_eq]
      exact due
    rw [live, dueNow]
    rintro (h | h | h | h)
    · omega
    · exact Bool.false_ne_true h
    · exact Bool.false_ne_true h
    · omega
  rw [reseed, if_neg may, takeCond_two]
  generalize condBlock s.cond ++ condBlock (s.cond + 1) = entropy
  intro d t
  have run : t = { s with
      cond := s.cond + 2, keep := { s.keep with
        condBuf := s.keep.condBuf - 2, drbg0 := if i = 0 then d else s.keep.drbg0, drbg1 := if i = 0 then s.keep.drbg1 else d } } := rfl
  clear_value d t
  subst run
  obtain rfl | rfl : i = 0 ∨ i = 1 := by omega
  · exact ⟨rfl, rfl, rfl⟩
  · exact ⟨rfl, rfl, rfl⟩

section
variable {t : Taken} {q seq asked : Nat} (found : findTaken s q seq = some t) (asks : t.askedDrbg = some asked)
include found asks

theorem drbgTimeout_late (late : drawLimit t asked ≤ s.now) : drbgTimeout q seq s = failCmd t 0x0C s := by
  simp only [drbgTimeout, found, asks, if_pos late]
  rfl

theorem drbgTimeout_early (early : s.now < drawLimit t asked) : drbgTimeout q seq s = s := by
  simp only [drbgTimeout, found, asks, if_neg (Nat.not_le.mpr early)]

end

/-- Settles O27, by a lemma per row and case. -/
theorem randomSourcesFailReseedAndTimeOut : Obligations.RandomSourcesFailReseedAndTimeOut :=
  ⟨fun _ _ _ ready low on bad => congrArg Host.Outcome.next (if_pos ⟨ready, low, on, bad⟩),
    fun _ _ _ _ stays => congrArg Host.Outcome.next (noiseFail_stays stays),
    fun _ _ low live due ready => ⟨_, rfl, reseed_reseeds low live due ready⟩,
    fun _ _ _ _ _ found asks => ⟨fun late => congrArg Host.Outcome.next (drbgTimeout_late found asks late),
      fun early => congrArg Host.Outcome.next (drbgTimeout_early found asks early)⟩⟩

/-! ### The clocks (01 R20, R31; 14 R430 to R435) -/

theorem switchClock_takes {d : Nat} (sent : s.clk.next = some d) : switchClock s = { s with clk := { s.clk with
    divider := d, next := none, boost := d == 4, ilimEnded := s.clk.ilimEnded && d != 4 } } := by
  simp only [switchClock, sent]

theorem limitAssert_ends_boost (off : s.clk.ilim = false) : (limitAssert s).clk.ilim = true ∧ (limitAssert s).clk.boost = false ∧
    (limitAssert s).clk.divider = if s.clk.boost then 5 else s.clk.divider := by
  rw [limitAssert, off, if_neg Bool.false_ne_true]
  exact ⟨sel_ilim _, sel_boost _, sel_divider _⟩

theorem limitRelease_releases (on : s.clk.ilim = true) : (limitRelease s).clk.ilim = false ∧ (limitRelease s).clk.boost = s.clk.boost ∧
    (limitRelease s).clk.divider = s.clk.divider := by
  rw [limitRelease, if_pos on]
  exact ⟨sel_ilim _, sel_boost _, sel_divider _⟩

/-- One sensor of a die slice after a reading. -/
def readSensor (die : Nat) (raw : BitVec 64) (valid : BitVec 4) (v : Tab (BitVec 16)) (i : Nat) : Tab (BitVec 16) :=
  if valid.getLsbD i then tset v (4 * die + i) (raw.extractLsb' (16 * i) 16) else v

theorem readSensor_own (die : Nat) (raw : BitVec 64) (valid : BitVec 4) (v : Tab (BitVec 16)) (i : Nat) :
    tget 0 (readSensor die raw valid v i) (4 * die + i) = if valid.getLsbD i then raw.extractLsb' (16 * i) 16 else tget 0 v (4 * die + i) := by
  rw [readSensor]
  split
  · exact tget_tset_same ..
  · rfl

theorem readSensor_other {die j i : Nat} (raw : BitVec 64) (valid : BitVec 4) (v : Tab (BitVec 16)) (other : j ≠ 4 * die + i) :
    tget 0 (readSensor die raw valid v i) j = tget 0 v j := by
  rw [readSensor]
  split
  · exact tget_tset_other _ _ _ _ _ other
  · rfl

theorem readSensors_other {die j : Nat} (raw : BitVec 64) (valid : BitVec 4) {l : List Nat} (other : ∀ i ∈ l, j ≠ 4 * die + i)
    (v : Tab (BitVec 16)) : tget 0 (l.foldl (readSensor die raw valid) v) j = tget 0 v j := by
  induction l generalizing v with
  | nil => rfl
  | cons a l ih =>
    exact (ih (fun i mem => other i (List.mem_cons_of_mem _ mem)) _).trans (readSensor_other raw valid v (other a (List.mem_cons_self ..)))

theorem readSensors_own (die : Nat) (raw : BitVec 64) (valid : BitVec 4) {l : List Nat} {i : Nat} (nodup : l.Nodup) (mem : i ∈ l)
    (v : Tab (BitVec 16)) : tget 0 (l.foldl (readSensor die raw valid) v) (4 * die + i) =
      if valid.getLsbD i then raw.extractLsb' (16 * i) 16 else tget 0 v (4 * die + i) := by
  induction l generalizing v with
  | nil => exact absurd mem List.not_mem_nil
  | cons a l ih =>
    obtain ⟨out, rest⟩ := List.nodup_cons.mp nodup
    by_cases same : i = a
    · subst same
      exact (readSensors_other raw valid (fun k hk eq => out ((Nat.add_left_cancel eq : i = k) ▸ hk)) _).trans (readSensor_own ..)
    · refine (ih rest ((List.mem_cons.mp mem).resolve_left same) _).trans ?_
      rw [readSensor_other raw valid v (by omega)]

theorem junctionReading_reads {die : Nat} (raw : BitVec 64) (valid : BitVec 4) (known : die < Config.dies) (up : s.aon.phase ≠ 0) :
    junctionReading die raw valid s =
      judge die { s with clk := { s.clk with sensors := (List.range 4).foldl (readSensor die raw valid) s.clk.sensors } } :=
  if_neg fun h => h.elim (Nat.not_le.mpr known) up

theorem sensorInvalid_hot {die k : Nat} (known : die < Config.dies) (sensor : k < 4) (up : s.aon.phase ≠ 0) : sensorInvalid die k s =
    judge die { s with clk := { s.clk with sensors := tset s.clk.sensors (4 * die + k) (BitVec.ofInt 16 (16 * 115)) } } :=
  if_neg fun h => h.elim (Nat.not_le.mpr known) fun h => h.elim (Nat.not_le.mpr sensor) up

theorem stepDownExit_ends {w : Nat} (down : s.clk.stepDown = true) (cool : s.clk.coolSince = some w) (due : w + Config.ms 1 ≤ s.now) :
    (stepDownExit s).clk.stepDown = false ∧ (stepDownExit s).clk.coolSince = none := by
  simp only [stepDownExit, cool, if_pos (And.intro down due)]
  exact ⟨sel_stepDown _, sel_coolSince _⟩

/-- A barred boost is not selected. -/
theorem selectClock_barred (barred : boostBarred s.clk = true) : (selectClock s).clk.next ≠ some 4 := by
  have slow : dividerFor { s.clk with asked := boostWanted s } ≠ 4 := by
    have same : boostBarred { s.clk with asked := boostWanted s } = true := barred
    rw [dividerFor, if_pos same]
    split <;> decide
  have next : (selectClock s).clk.next = if dividerFor { s.clk with asked := boostWanted s } = s.clk.divider then none
      else some (dividerFor { s.clk with asked := boostWanted s }) := rfl
  rw [next]
  split
  · exact Option.some_ne_none _ ∘ Eq.symm
  · exact fun h => slow (Option.some.inj h)

theorem budgetSpent_bars (gone : Config.ms 200 ≤ s.clk.bins.sum) (fresh : s.clk.spent = false) :
    (budgetSpent s).clk.spent = true ∧ (budgetSpent s).clk.next ≠ some 4 ∧ (budgetSpent s).clk.bins = s.clk.bins := by
  have now : (budgetGone s.clk && !s.clk.spent) = true := by
    rw [budgetGone, decide_eq_true gone, fresh]
    rfl
  rw [budgetSpent, if_pos now]
  refine ⟨sel_spent _, selectClock_barred ?_, sel_bins _⟩
  simp only [boostBarred, Bool.or_true]

theorem binEnd_opens (up : s.aon.phase ≠ 0) (due : s.clk.binAt + Config.ms 10 ≤ s.now) :
    (binEnd s).clk.bins = (0 :: s.clk.bins).take 201 ∧ (binEnd s).clk.binAt = s.clk.binAt + Config.ms 10 ∧
      (binEnd s).clk.spent = decide (Config.ms 200 ≤ ((0 :: s.clk.bins).take 201).sum) := by
  have opens : ¬(s.aon.phase = 0 ∨ s.now < s.clk.binAt + binTicks) := fun h => h.elim up (Nat.not_lt.mpr due)
  rw [binEnd, if_neg opens]
  exact ⟨sel_bins _, sel_binAt _, sel_spent _⟩

/-- Settles O60, by a lemma per row. -/
theorem clocksFollowLimitsReadingsAndBudget : Obligations.ClocksFollowLimitsReadingsAndBudget := by
  refine ⟨fun s d sent => congrArg Host.Outcome.next (switchClock_takes sent), fun s off => ⟨_, rfl, limitAssert_ends_boost off⟩,
    fun s on => ⟨_, rfl, limitRelease_releases on⟩, fun die raw valid s known up => ?_,
    fun die k s known sensor up => congrArg Host.Outcome.next (sensorInvalid_hot known sensor up),
    fun s w down cool due => ⟨_, rfl, stepDownExit_ends down cool due⟩, fun s gone fresh => ⟨_, rfl, budgetSpent_bars gone fresh⟩,
    fun s up due => ⟨_, rfl, binEnd_opens up due⟩⟩
  refine ⟨_, congrArg Host.Outcome.next (junctionReading_reads raw valid known up), fun i low => ?_, fun j other => ?_⟩
  · exact readSensors_own die raw valid List.nodup_range (List.mem_range.mpr low) _
  · exact readSensors_other raw valid (fun i mem => other i (List.mem_range.mp mem)) _

end Sys2Proof.Machine
end

section
/-! PROOF of O41. The ends of a draining epoch, of a removal's drain and of a metering interval. -/

namespace Sys2Proof.Machine
open Sys2Proof Sys2Proof.Crypto

variable {s : State}

/-! ### A draining epoch (08 R265) -/

theorem execEpochDrainComplete_retires (live : s.keepLive = true) (draining : s.epochDraining = true) (drained : epochDrained s = true) :
    execEpochDrainComplete s = .next (retireEpoch s) :=
  congrArg Host.Outcome.next (if_pos ⟨live, draining, drained⟩)

/-- With no COMPOSE waiting, the end of an epoch clears every station's record of it and nothing else. -/
theorem retireEpoch_settles (alone : runningWith s 0x0803 1 = []) : let t := retireEpoch s
    t.epochDraining = false ∧ t.oldSlices = [] ∧ t.epoch = s.epoch ∧ t.slices = s.slices ∧
      ∀ u ∈ stationIds, t.port u = { s.port u with drain := none } := by
  have run : retireEpoch s = settleCompose { onEveryPort (fun p => { p with drain := none }) s with epochDraining := false, oldSlices := [] } := rfl
  obtain ⟨m, l, h, cleared⟩ := onEvery_only (fun p => { p with drain := none }) s
  have ports := onEvery_port (fun p => { p with drain := none }) s
  generalize onEveryPort (fun p => { p with drain := none }) s = v at run cleared ports
  have none_ : runningWith { v with epochDraining := false, oldSlices := [] } 0x0803 1 = [] := by
    rw [cleared]
    exact alone
  have settled : retireEpoch s = { v with epochDraining := false, oldSlices := [] } := by
    rw [run, settleCompose, none_]
    rfl
  rw [settled]
  have kept : v.epoch = s.epoch ∧ v.slices = s.slices := by
    rw [cleared]
    exact ⟨rfl, rfl⟩
  exact ⟨rfl, rfl, kept.1, kept.2, ports⟩

theorem epochTimeout_cuts (live : s.keepLive = true) (draining : s.epochDraining = true) (due : s.epochAt + Config.ms 5 ≤ s.now) :
    epochTimeout s = retireEpoch (each stationIds epochCut s) := if_pos ⟨live, draining, due⟩

/-! ### A removal (08 R284) -/

section
variable {part : Nat} (live : s.keepLive = true) (removing : (s.part part).state = 5)
include live removing

section
variable (running : (s.part part).drainEnd = none)
include running

theorem removalDrainEnd_open : removalDrainEnd part s =
    if partDrained s part then s.onPart part fun p => { p with drainEnd := some s.now }
    else if (s.part part).removeAt + Config.ms 2 ≤ s.now then
      (cutPart part s).onPart part fun p => { p with drainEnd := some (cutPart part s).now }
    else s := by
  simp only [removalDrainEnd, live, removing, running, not_true_eq_false, ne_eq, Option.isSome_none, Bool.false_eq_true, or_self, if_false]

theorem removalDrainEnd_drained (drained : partDrained s part = true) :
    let t := removalDrainEnd part s
    t.part part = { s.part part with drainEnd := some s.now } ∧ (∀ i, i ≠ part → t.part i = s.part i) ∧ t = { s with parts := t.parts } := by
  intro t
  have run : t = s.onPart part fun p => { p with drainEnd := some s.now } := (removalDrainEnd_open live removing running).trans (if_pos drained)
  rw [run]
  exact ⟨part_onPart .., fun i other => part_onPart_other _ _ _ _ other, rfl⟩

theorem removalDrainEnd_cuts (busy : partDrained s part = false) (due : (s.part part).removeAt + Config.ms 2 ≤ s.now) :
    removalDrainEnd part s = (cutPart part s).onPart part fun p => { p with drainEnd := some (cutPart part s).now } := by
  rw [removalDrainEnd_open live removing running, busy, if_neg Bool.false_ne_true, if_pos due]

theorem removalDrainEnd_waits (busy : partDrained s part = false) (early : s.now < (s.part part).removeAt + Config.ms 2) :
    removalDrainEnd part s = s := by
  rw [removalDrainEnd_open live removing running, busy, if_neg Bool.false_ne_true, if_neg (Nat.not_le.mpr early)]

end

theorem flightExpiry_destroys {ended : Nat} (first : (s.part part).destroying = false) (drained : (s.part part).drainEnd = some ended)
    (due : ended + Config.us 200 ≤ s.now) :
    let a := s.onPart part fun p => { p with destroying := true }
    let b := each (objsOf a part) freeObject a
    flightExpiry part s = settleRemoval part (each (slotsOf b part) (fun i u => if (u.key i).purging = 0 then startPurge i 1 u else u) b) := by
  simp only [flightExpiry, drained, live, removing, first, Nat.not_lt.mpr due, not_true_eq_false, ne_eq, Bool.false_eq_true, or_self, if_false]

end

/-! ### Metering (08 R288, R290) -/

theorem intervalEnd_due {at_ : Nat} (due : meterDue s = some at_) : intervalEnd s = endInterval at_ 0 s := by
  simp only [intervalEnd, due]

theorem intervalEnd_early (early : meterDue s = none) : intervalEnd s = s := by
  simp only [intervalEnd, early]

/-- The next multiple of 60 s. -/
theorem checkpointDue_at : checkpointDue s =
    let b := (s.meter.ckptAt / 6000000000 + 1) * 6000000000
    if s.keepLive ∧ b ≤ s.meter.startAt ∧ s.meter.backlog.length < 65536 ∧ canDraw s 1 then
      { checkpoint s with meter := { (checkpoint s).meter with ckptAt := b } }
    else s := by
  have minute : 60 * meterTicks = 6000000000 := rfl
  have room : meterBacklog = 65536 := rfl
  rw [checkpointDue, minute, room]

theorem checkpointDue_due (live : s.keepLive = true) (room : s.meter.backlog.length < 65536) (draws : canDraw s 1 = true)
    (due : (s.meter.ckptAt / 6000000000 + 1) * 6000000000 ≤ s.meter.startAt) :
    (checkpointDue s).meter = { (checkpoint s).meter with ckptAt := (s.meter.ckptAt / 6000000000 + 1) * 6000000000 } := by
  rw [checkpointDue_at]
  dsimp only
  rw [if_pos ⟨live, due, room, draws⟩]

theorem checkpointDue_early (early : s.meter.startAt < (s.meter.ckptAt / 6000000000 + 1) * 6000000000) : checkpointDue s = s := by
  rw [checkpointDue_at]
  exact if_neg fun h => absurd early (Nat.not_lt.mpr h.2.1)

/-- Settles O41, by a lemma per row and case. -/
theorem epochsRemovalsAndIntervalsEnd : Obligations.EpochsRemovalsAndIntervalsEnd := by
  refine ⟨fun s live draining drained => ?_, fun s live draining due => congrArg Host.Outcome.next (epochTimeout_cuts live draining due),
    fun part s live removing running => ⟨fun drained => ⟨_, rfl, removalDrainEnd_drained live removing running drained⟩,
      fun busy due => congrArg Host.Outcome.next (removalDrainEnd_cuts live removing running busy due),
      fun busy early => congrArg Host.Outcome.next (removalDrainEnd_waits live removing running busy early)⟩,
    ?_, fun s b due => congrArg Host.Outcome.next (intervalEnd_due due), fun s early => congrArg Host.Outcome.next (intervalEnd_early early), ?_⟩
  · have run := execEpochDrainComplete_retires live draining drained
    exact ⟨run, fun alone => ⟨_, run, retireEpoch_settles alone⟩⟩
  · intro part s ended live removing first drained due a b
    exact congrArg Host.Outcome.next (flightExpiry_destroys live removing first drained due)
  · intro s live room draws b
    exact ⟨fun due => ⟨_, rfl, checkpointDue_due live room draws due⟩,
      fun early => congrArg Host.Outcome.next (checkpointDue_early early)⟩

end Sys2Proof.Machine
end

section
/-! PROOF of O43. Contexts and queues: creation, destruction, closing and abandonment. -/

namespace Sys2Proof.Machine
open Sys2Proof Sys2Proof.Crypto

variable {q n : Nat} {e : BitVec 1024} {inp : Bytes} {s b : State} {t : Taken}

/-! ### CTX_CREATE and QUEUE_CREATE (09 R299, R300) -/

theorem Began.partUsable (hb : Began q e inp s t b) (p : Nat) : partUsable b p = Machine.partUsable s p := by
  simp only [Machine.partUsable, hb.part_eq]

/-- The context that CTX_CREATE opens. -/
def createdCtx (e : BitVec 1024) : Ctx where
  state := 1
  device := opnd e 1 1 == 1
  part := opnd e 0 1
  ring := BitVec.ofNat 64 (opnd e 8 8)
  size := opnd e 2 1
  vector := opnd e 4 2

theorem bodyCtxCreate_creates {c : Nat} (hb : Began q e inp s t b) (usable : partUsable s (opnd e 0 1) = true) (kind : opnd e 1 1 ≤ 1)
    (size : opnd e 2 1 ≤ 12) (vector : opnd e 4 2 < 2048)
    (ring : ringAddrBad s (opnd e 1 1 == 1) (opnd e 0 1) (opnd e 8 8) (16 * 2 ^ (opnd e 2 1 + 4)) = 0) (free : lowFree s.ctxs 1 4095 = some c) :
    bodyCtxCreate t n inp b = done t (le 2 c) { b with ctxs := tset s.ctxs c (createdCtx e) } := by
  simp only [bodyCtxCreate, hb.te, hb.partUsable, hb.ringAddr, hb.ctxs, usable, ring, free, Nat.not_lt.mpr kind, Nat.not_lt.mpr size,
    Nat.not_le.mpr vector, Bool.not_true, Bool.false_eq_true, ne_eq, not_true_eq_false, or_self, if_false, createdCtx]

/-- The queue that QUEUE_CREATE opens. -/
def createdQueue (e : BitVec 1024) : Queue where
  state := 1
  ctx := opnd e 0 2
  secure := opnd e 3 1 == 1
  ring := BitVec.ofNat 64 (opnd e 8 8)
  res := BitVec.ofNat 64 (opnd e 16 8)
  size := opnd e 2 1
  limit := opnd e 4 2

/-- A table's lowest free index is the same once an entry in use is written. -/
theorem lowFree_tset {α : Type} {d x : α} {tab : Tab α} {i : Nat} (used : tget d tab i ≠ d) (lo n : Nat) :
    lowFree (tset tab i x) lo n = lowFree tab lo n := by
  unfold lowFree
  congr 1
  funext j
  by_cases same : j = i
  · subst same
    rw [tfind_tset_same]
    cases found : tfind tab j with
    | none => exact absurd (by rw [tget, found]; rfl) used
    | some _ => rfl
  · rw [tfind_tset_other _ _ _ _ same]

theorem Began.lowFreeQueue (hb : Began q e inp s t b) (live : (s.queue q).state = 1) (lo n : Nat) : lowFree b.queues lo n = lowFree s.queues lo n := by
  rw [hb.queueTab]
  refine lowFree_tset (d := ({} : Queue)) (fun same => ?_) lo n
  rw [State.queue, same] at live
  exact absurd live (by decide)

theorem bodyQueueCreate_creates {m : Nat} (hb : Began q e inp s t b) (own : (s.queue q).state = 1) (live : (s.ctx (opnd e 0 2)).state = 1)
    (size : opnd e 2 1 ≤ 12) (flags : opnd e 3 1 ≤ 1)
    (secure : opnd e 3 1 = 1 → (s.ctx (opnd e 0 2)).device = false ∧
      (s.host.tdisp.any fun i => i.2.state == 2 && i.2.part == some (s.ctx (opnd e 0 2)).part) = true)
    (ring : ringAddrBad s (s.ctx (opnd e 0 2)).device (s.ctx (opnd e 0 2)).part (opnd e 8 8) (128 * 2 ^ (opnd e 2 1 + 4)) = 0)
    (res : ringAddrBad s (s.ctx (opnd e 0 2)).device (s.ctx (opnd e 0 2)).part (opnd e 16 8) (64 * 2 ^ (opnd e 2 1 + 4)) = 0)
    (free : lowFree s.queues 1 1023 = some m) :
    bodyQueueCreate t n inp b = done t (le 2 m) { b with queues := tset b.queues m (createdQueue e) } := by
  have may : ¬(opnd e 3 1 = 1 ∧ ((s.ctx (opnd e 0 2)).device = true ∨
      (!s.host.tdisp.any fun i => i.2.state == 2 && i.2.part == some (s.ctx (opnd e 0 2)).part) = true)) := by
    rintro ⟨one, bad⟩
    obtain ⟨host, runs⟩ := secure one
    rw [host, runs] at bad
    exact bad.elim Bool.false_ne_true Bool.false_ne_true
  simp only [bodyQueueCreate, hb.te, hb.ctx_eq, hb.host, hb.ringAddr, hb.lowFreeQueue own, live, ring, res, free, may,
    Nat.not_lt.mpr size, Nat.not_lt.mpr flags, ne_eq, not_true_eq_false, or_self, if_false, createdQueue]

/-! ### QUEUE_DESTROY (09 R300) -/

theorem dropQueue_unbound {m : Nat} (unbound : ∀ p ∈ s.profs, p.2.queue ≠ some m) : dropQueue m s = { s with queues := tdel s.queues m } := by
  have none_ : s.profs.filter (fun p => p.2.queue == some m) = [] :=
    List.filter_eq_nil_iff.mpr fun p mem => by
      rw [beq_iff_eq]
      exact unbound p mem
  rw [dropQueue, none_]
  rfl

theorem bodyQueueDestroy_drops (hb : Began q e inp s t b) (admin : opnd e 0 2 ≠ 0) (other : opnd e 0 2 ≠ q)
    (used : (s.queue (opnd e 0 2)).state ≠ 0) (empty : ∀ y ∈ s.taken, y.q ≠ opnd e 0 2) (unbound : ∀ p ∈ s.profs, p.2.queue ≠ some (opnd e 0 2)) :
    bodyQueueDestroy t n inp b = done t [] { b with queues := tdel b.queues (opnd e 0 2) } := by
  have none_ : (b.taken.any fun x => x.q == opnd e 0 2) = false := by
    rw [hb.taken, List.any_append, List.any_eq_false.mpr fun y mem => by rw [beq_iff_eq]; exact empty y mem, List.any_cons, List.any_nil, hb.tq,
      beq_eq_false_iff_ne.mpr other.symm]
    rfl
  simp only [bodyQueueDestroy, hb.te, hb.queues _ other, admin, used, none_, Bool.false_eq_true, or_self, if_false]
  rw [dropQueue_unbound (by rw [hb.profs]; exact unbound)]

/-! ### CTX_CLOSE and CTX_ABANDON (09 R325, R326) -/

theorem closeBad_false (hb : Began q e inp s t b) {c : Nat} (admin : c ≠ 0) (used : (s.ctx c).state ≠ 0) (other : c ≠ (s.queue q).ctx) :
    closeBad b t c = false := by
  rw [closeBad, hb.ctx_eq, hb.ctxOf, beq_eq_false_iff_ne.mpr admin, beq_eq_false_iff_ne.mpr used, beq_eq_false_iff_ne.mpr other.symm]
  rfl

theorem bodyCtxClose_closes (hb : Began q e inp s t b) (admin : opnd e 0 2 ≠ 0) (live : (s.ctx (opnd e 0 2)).state = 1)
    (other : opnd e 0 2 ≠ (s.queue q).ctx) :
    bodyCtxClose t n inp b = keepRunning t (opnd e 0 2) (b.onCtx (opnd e 0 2) fun x => { x with state := 2 }) := by
  have may := closeBad_false hb admin (by rw [live]; decide) other
  simp only [bodyCtxClose, hb.te, may, hb.ctx_eq, live, Bool.false_eq_true, ne_eq, not_true_eq_false, or_self, if_false]

theorem bodyCtxAbandon_abandons (hb : Began q e inp s t b) (admin : opnd e 0 2 ≠ 0) (used : (s.ctx (opnd e 0 2)).state ≠ 0)
    (fresh : (s.ctx (opnd e 0 2)).state ≠ 3) (other : opnd e 0 2 ≠ (s.queue q).ctx) :
    bodyCtxAbandon t n inp b = abandonCtx (opnd e 0 2) (keepRunning t (opnd e 0 2) b) := by
  simp only [bodyCtxAbandon, hb.te, closeBad_false hb admin used other, hb.ctx_eq, fresh, Bool.false_eq_true, or_self, if_false]

/-- A Closing context without a command is abandoned. -/
theorem closeComplete_abandons {c : Nat} (live : s.keepLive = true) (closing : (s.ctx c).state = 2)
    (alone : ∀ y ∈ s.taken, (s.queue y.q).ctx ≠ c) :
    closeComplete c s = settleCtx c { s with ctxs := tset s.ctxs c { s.ctx c with state := 3, torn := false, dropping := [] } } := by
  have none_ : takenOf s c = [] := List.filter_eq_nil_iff.mpr fun y mem => by
    rw [beq_iff_eq]
    exact alone y mem
  have cmds : abandonCmds c (s.onCtx c fun x => { x with state := 3, torn := false, dropping := [] }) =
      s.onCtx c fun x => { x with state := 3, torn := false, dropping := [] } := by
    have same : takenOf (s.onCtx c fun x => { x with state := 3, torn := false, dropping := [] }) c = [] := none_
    rw [abandonCmds, same]
    rfl
  rw [closeComplete, if_pos ⟨live, closing, by rw [none_]; rfl⟩, abandonCtx, cmds]
  rfl

/-- Settles O43: each command's body on the state in which it begins, and the end of a Closing context. -/
theorem contextsAndQueuesOpenAndEnd : Obligations.ContextsAndQueuesOpenAndEnd := by
  refine ⟨?_, ?_, ?_, ?_, ?_, fun c s live closing alone => congrArg Host.Outcome.next (closeComplete_abandons live closing alone)⟩
  · intro q e rc inp s starts part kind size ring c usable low small vector good free
    obtain ⟨t, b, run, hb⟩ := takeCmd_begins (body := bodyCtxCreate) (rc := rc) (inp := inp) starts (by decide)
    generalize hc : ({ b with ctxs := tset s.ctxs c (createdCtx e) } : State) = v
    have creates := bodyCtxCreate_creates (n := 0) hb usable low small vector good free
    rw [hc] at creates
    have profs : v.profs = b.profs := by rw [← hc]
    have ctxs : v.ctxs = tset s.ctxs c (createdCtx e) := by rw [← hc]
    have ctxOf : (v.queue q).ctx = (s.queue q).ctx := by rw [← hb.ctxOf, hb.tq, ← hc]; rfl
    have bare : v.bare = b.bare := by rw [← hc]; rfl
    have now : v.now = s.now := by rw [← hb.now, ← hc]; rfl
    clear hc
    obtain ⟨-, others, -, -⟩ := hb.after (le 2 c) profs
    rw [ctxOf] at others
    have fresh : c ≠ (s.queue q).ctx := fun same => by
      have := (own_listed starts).1
      rw [← same, State.ctx, tget, lowFree_none free] at this
      exact absurd this (by decide)
    refine ⟨_, congrArg Host.Outcome.next (run.trans creates), hb.answered _ profs now rfl rfl rfl, hb.done_bare _ profs bare, ?_,
      fun i other own => ?_⟩
    · rw [others c fresh, State.ctx, ctxs, tget_tset_same]
      rfl
    · rw [others i own, State.ctx, ctxs, tget_tset_other _ _ _ _ _ other]
      rfl
  · intro q e rc inp s starts c size flags x m live small low secure ring res free
    obtain ⟨t, b, run, hb⟩ := takeCmd_begins (body := bodyQueueCreate) (rc := rc) (inp := inp) starts (by decide)
    generalize hc : ({ b with queues := tset b.queues m (createdQueue e) } : State) = v
    have creates := bodyQueueCreate_creates (n := 0) hb (own_listed starts).2 live small low secure ring res free
    rw [hc] at creates
    have profs : v.profs = b.profs := by rw [← hc]
    have queues : v.queues = tset b.queues m (createdQueue e) := by rw [← hc]
    have bare : v.bare = b.bare := by rw [← hc]; rfl
    have now : v.now = s.now := by rw [← hb.now, ← hc]; rfl
    clear hc
    obtain ⟨same, -, -, -⟩ := hb.after (le 2 m) profs
    refine ⟨_, congrArg Host.Outcome.next (run.trans creates), hb.answered _ profs now rfl rfl rfl, hb.done_bare _ profs bare, ?_,
      fun i other own => ?_⟩
    · rw [State.queue, same, queues, tget_tset_same]
      rfl
    · rw [State.queue, same, queues, tget_tset_other _ _ _ _ _ other]
      exact hb.queues i own
  · intro q e rc inp s starts m admin other used empty unbound
    obtain ⟨t, b, run, hb⟩ := takeCmd_begins (body := bodyQueueDestroy) (rc := rc) (inp := inp) starts (by decide)
    generalize hc : ({ b with queues := tdel b.queues m } : State) = v
    have drops := bodyQueueDestroy_drops (n := 0) hb admin other used empty unbound
    rw [hc] at drops
    have profs : v.profs = b.profs := by rw [← hc]
    have queues : v.queues = tdel b.queues m := by rw [← hc]
    have bare : v.bare = b.bare := by rw [← hc]; rfl
    have now : v.now = s.now := by rw [← hb.now, ← hc]; rfl
    clear hc
    refine ⟨_, congrArg Host.Outcome.next (run.trans drops), hb.answered _ profs now rfl rfl rfl, hb.done_bare _ profs bare, ?_⟩
    rw [(hb.after [] profs).1, queues, hb.queueTab]
  · intro q e rc inp s starts c admin live other
    obtain ⟨t, b, run, hb⟩ := takeCmd_begins (body := bodyCtxClose) (rc := rc) (inp := inp) starts (by decide)
    refine ⟨_, congrArg Host.Outcome.next (run.trans (bodyCtxClose_closes hb admin live other)), hb.runs _ rfl rfl rfl, hb.bare, ?_⟩
    exact congrArg (fun x => tupd ({} : Ctx) x c fun y => { y with state := 2 }) hb.ctxs
  · intro q e rc inp s starts c admin used fresh other
    obtain ⟨t, b, run, hb⟩ := takeCmd_begins (body := bodyCtxAbandon) (rc := rc) (inp := inp) starts (by decide)
    exact ⟨t, b, hb, congrArg Host.Outcome.next (run.trans (bodyCtxAbandon_abandons hb admin used fresh other))⟩

end Sys2Proof.Machine
end

section
/-! PROOF of O47 and O48. Waiting commands, and the registers of the driver interface. -/

namespace Sys2Proof.Machine
open Sys2Proof Sys2Proof.Crypto

variable {s : State}

/-! ### A waiting command (09 R306, R307, R314) -/

section
variable {t : Taken} {q seq : Nat} (found : findTaken s q seq = some t)
include found

theorem waitTimeout_fails (waiting : t.phase = 1) (limited : (s.queue q).limit ≠ 0) (due : t.takenAt + Config.ms (s.queue q).limit ≤ s.now) :
    waitTimeout q seq s = failCmd t 0x0C s := by
  have late : overLimit s q t.takenAt = true := by
    rw [overLimit, bne_iff_ne.mpr limited, decide_eq_true due]
    rfl
  simp only [waitTimeout, found, if_pos (And.intro waiting late)]
  rfl

theorem workTimeout_fails (work : envOpcode t.e = 0x0940) (running : t.phase = 2) (unended : t.aux = 0) (limited : opnd t.e 0 4 ≠ 0)
    (due : t.startAt + Config.us (opnd t.e 0 4) ≤ s.now) : workTimeout q seq s = failCmd t 0x0C s := by
  simp only [workTimeout, found]
  exact if_pos ⟨work, running, unended, limited, due⟩

end

/-- An entry that has waited for its Pending fence past its queue's limit is refused. -/
theorem pauseTimeout_refuses {q paused : Nat} (at_ : (s.queue q).pausedAt = some paused) (limited : (s.queue q).limit ≠ 0)
    (due : paused + Config.ms (s.queue q).limit ≤ s.now) (pending : (s.fence (envFence (s.queue q).pausedE)).state = 2) :
    (pauseTimeout q s).queue q = dequeued (s.queue q) ∧ (pauseTimeout q s).fences = s.fences ∧
      Out.result q (s.queue q).head (resultEntry 0x0C (s.queue q).nextSeq s.now []) ∈ (pauseTimeout q s).out := by
  have late : overLimit s q paused = true := by
    rw [overLimit, bne_iff_ne.mpr limited, decide_eq_true due]
    rfl
  have run : pauseTimeout q s = refuseTake q (s.queue q).ctx (s.queue q).head (s.queue q).nextSeq yeTimeout (s.queue q).pausedE
      (bump Config.keepId 2 1 (s.onQueue q dequeued)) := by
    simp only [pauseTimeout, at_, if_pos (And.intro late pending)]
    rfl
  rw [run, bump_keep 2 1 (by decide)]
  generalize (bump Config.keepId 2 1 (s.onQueue q dequeued)).ctrs = counters
  obtain ⟨k, x, b, o, refused⟩ := refuseTake_only q (s.queue q).ctx (s.queue q).head (s.queue q).nextSeq yeTimeout (s.queue q).pausedE
    { s.onQueue q dequeued with ctrs := counters }
  rw [refused]
  exact ⟨tget_tset_same .., rfl, List.mem_append_right _ (List.mem_cons_self ..)⟩

theorem fenceReport_counts {i part : Nat} {code : Nat} (detail : BitVec 128) (own : i ≠ 0xFFFF) (pending : (s.fence i).state = 2)
    (mine : (s.ctx (s.fence i).owner).part = part) :
    let f := s.fence i
    fenceReport i part code detail s = { s with fences := tset s.fences i { f with
      errors := min 0xFFFF (f.errors + 1), code := if f.code = 0 ∨ code = 0x07 ∨ code = 0x08 then code else f.code,
      detail := if f.code = 0 then detail else f.detail } } :=
  if_pos ⟨own, pending, mine⟩

/-- Settles O47, by what a waiting command's turn does and a lemma per timeout. -/
theorem waitsStartOrTimeOut : Obligations.WaitsStartOrTimeOut := by
  refine ⟨?_, ?_, ?_, ?_, ?_⟩
  · intro q seq rc inp s t live found waiting first serial good sat bar unbound t'
    have turn : outOfTurn s { t with inp := inp } = false := by
      have serialTurn : (isSerial s t && !(earlier s t).isEmpty) = false := by
        cases h : isSerial s t with
        | false => rfl
        | true => rw [serial h]; rfl
      show ((earlier s t).any (fun x => x.phase == 1) || (isSerial s t && !(earlier s t).isEmpty)) = false
      rw [first, serialTurn]
      rfl
    obtain ⟨u, traced, run⟩ := tryStart_of_satisfied (body := bodyOf (envOpcode t.e)) (rc := rc.toNat) (inp := inp) turn good sat bar unbound
    exact ⟨u, traced, (exec_commandStart_of_waiting live found waiting).trans (congrArg Host.Outcome.next run)⟩
  · exact fun q seq s t live found waiting limited due =>
      congrArg Host.Outcome.next ((if_pos live).trans (waitTimeout_fails found waiting limited due))
  · exact fun q seq s t live found work running unended limited due =>
      congrArg Host.Outcome.next ((if_pos live).trans (workTimeout_fails found work running unended limited due))
  · exact fun q s paused live at_ limited due pending =>
      ⟨_, congrArg Host.Outcome.next (if_pos live), pauseTimeout_refuses at_ limited due pending⟩
  · exact fun i part code detail s live own pending mine =>
      congrArg Host.Outcome.next ((if_pos live).trans (fenceReport_counts detail own pending mine))

/-! ### Doorbells (09 R301) -/

theorem moveTail_only (q tail : Nat) (s : State) : let t := moveTail q tail s
    t.queue q = { s.queue q with tail := tail } ∧ (∀ i, i ≠ q → t.queue i = s.queue i) ∧ t = { s with queues := t.queues } :=
  ⟨tget_tset_same .., fun _ other => tget_tset_other _ _ _ _ _ other, rfl⟩

section
variable {q : Nat} (live : s.keepLive = true)
include live

theorem hostDoorbell_live (v : BitVec 64) (low : q < 1024) : hostDoorbell q v s =
    if (s.queue q).state ≠ 1 ∨ (s.ctx (s.queue q).ctx).device ∨ 2 ^ ((s.queue q).size + 4) ≤ rf v 0 16 then bump Config.keepId 5 1 s
    else moveTail q (rf v 0 16) s := by
  simp only [hostDoorbell, live, decide_eq_false (Nat.not_le.mpr low), Bool.not_true, Bool.or_self, Bool.false_eq_true, if_false]
  rfl

theorem deviceDoorbell_moves (v src : BitVec 32) (low : q < 1024)
    (leases : coreLeases s (rf src 0 8) (rf src 8 8) (src.extractLsb' 16 16) = true) (open_ : (s.queue q).state = 1)
    (device : (s.ctx (s.queue q).ctx).device = true) (own : (s.ctx (s.queue q).ctx).part = rf src 8 8)
    (inside : rf v 0 16 < 2 ^ ((s.queue q).size + 4)) (moved : rf v 0 16 ≠ (s.queue q).tail) :
    let t := deviceDoorbell q v src s
    t.queue q = { s.queue q with tail := rf v 0 16, pubs := (s.queue q).pubs ++ [(rf v 0 16, src)] } ∧
      (∀ i, i ≠ q → t.queue i = s.queue i) ∧ t = { s with queues := t.queues } := by
  have run : deviceDoorbell q v src s = (moveTail q (rf v 0 16) s).onQueue q fun x => { x with pubs := x.pubs ++ [(rf v 0 16, src)] } := by
    simp only [deviceDoorbell, live, leases, decide_eq_false (Nat.not_le.mpr low), open_, device, own, decide_eq_false (Nat.not_le.mpr inside),
      if_neg moved, bne_self_eq_false, Bool.not_true, Bool.or_self, Bool.false_eq_true, if_false]
  obtain ⟨here, others, rest⟩ := moveTail_only q (rf v 0 16) s
  generalize moveTail q (rf v 0 16) s = w at run here others rest
  rw [run]
  refine ⟨?_, fun i other => ?_, ?_⟩
  · rw [queue_onQueue, here]
  · rw [queue_onQueue_other _ _ _ _ other, others i other]
  · exact congrArg (fun u : State => { u with queues := tupd {} w.queues q fun x => { x with pubs := x.pubs ++ [(rf v 0 16, src)] } }) rest

theorem deviceDoorbell_ignored (v src : BitVec 32)
    (bad : coreLeases s (rf src 0 8) (rf src 8 8) (src.extractLsb' 16 16) = false ∨ 1024 ≤ q ∨ (s.queue q).state ≠ 1 ∨
      (s.ctx (s.queue q).ctx).device = false ∨ (s.ctx (s.queue q).ctx).part ≠ rf src 8 8 ∨ 2 ^ ((s.queue q).size + 4) ≤ rf v 0 16) :
    deviceDoorbell q v src s = bump Config.keepId 5 1 s := by
  have shut : (!coreLeases s (rf src 0 8) (rf src 8 8) (src.extractLsb' 16 16) || decide (1024 ≤ q) || (s.queue q).state != 1 ||
      !(s.ctx (s.queue q).ctx).device || (s.ctx (s.queue q).ctx).part != rf src 8 8 || decide (2 ^ ((s.queue q).size + 4) ≤ rf v 0 16)) = true := by
    simp only [Bool.or_eq_true, Bool.not_eq_true', bne_iff_ne, decide_eq_true_eq, or_assoc]
    exact bad
  simp only [deviceDoorbell, live, Bool.not_true, Bool.false_eq_true, if_false, shut, if_true]
  rfl

/-- An arrival counter is answered to its own partition. -/
theorem arrivalRead_answers (i : Nat) (src : BitVec 32) : arrivalRead i src s = { s with
    out := .data (if (tget {} s.arrivals i).state ≠ 0 ∧ (tget {} s.arrivals i).part = rf src 8 8 then arrivalBytes (tget {} s.arrivals i) else []) ::
      s.out } := by
  simp only [arrivalRead, live, Bool.not_true, Bool.false_eq_true, if_false]
  split <;> rfl

/-! ### Admin, table and event registers (09 R296, R297, R323) -/

section
variable {v : BitVec 32} (unset : s.keep.adminCtrl.getLsbD 16 = false) (enable : v.getLsbD 16 = true)
include unset enable

theorem adminWrite_enables : adminWrite v s = if 12 < rf v 12 4 ∨ 12 < rf v 8 4 then
      faultEvent Config.keepId 0x1D 0xFFFF 0 { s with keep := { s.keep with adminCtrl := v &&& 0x1FF00 } }
    else startAdmin { s with keep := { s.keep with adminCtrl := v &&& 0x1FF00 } } := by
  simp only [adminWrite, live, unset, enable, Bool.not_true, Bool.or_self, Bool.false_eq_true, if_false]

end

theorem tableRead_latches {v : BitVec 32} (go : v.getLsbD 0 = true) {b : Bytes}
    (entry : tableEntry s s.keep.tableSel.toNat s.keep.tableIdx.toNat = some b) :
    tableRead v s = { s with keep := { s.keep with tableStat := 2, tableData := fit 64 b } } := by
  simp only [tableRead, live, go, entry, Bool.not_true, Bool.or_self, Bool.false_eq_true, if_false]

theorem tableRead_errs {v : BitVec 32} (go : v.getLsbD 0 = true) (entry : tableEntry s s.keep.tableSel.toNat s.keep.tableIdx.toNat = none) :
    tableRead v s = { s with keep := { s.keep with tableStat := 4 } } := by
  simp only [tableRead, live, go, entry, Bool.not_true, Bool.or_self, Bool.false_eq_true, if_false]

theorem eventHead_sets {c : Nat} (v : BitVec 64) (low : c < 4096) (used : (s.ctx c).state ≠ 0) :
    let t := eventHead c v true true s
    t = { s with ctxs := t.ctxs } ∧ (∀ i, i ≠ c → t.ctx i = s.ctx i) ∧
      t.ctx c = { s.ctx c with head := rf v 0 16, ovf := if v.getLsbD 63 then false else (s.ctx c).ovf } := by
  intro t
  have run : t = s.onCtx c fun x => { x with head := rf v 0 16, ovf := if v.getLsbD 63 then false else x.ovf } := by
    simp only [t, eventHead, live, decide_eq_false (Nat.not_le.mpr low), beq_eq_false_iff_ne.mpr used, Bool.not_true, Bool.or_self,
      Bool.false_eq_true, if_false, if_true, Bool.true_and]
  rw [run]
  exact ⟨rfl, fun i other => tget_tset_other _ _ _ _ _ other, tget_tset_same ..⟩

theorem runNotice_kept {v : BitVec 32} {x : Slice} (known : s.slices.find? (fun x => x.idx == rf v 0 6) = some x) (zero : rf v 10 22 = 0)
    (held : v.getLsbD 9 = true ∨ rf v 6 3 < x.lessees.length) :
    (if s.keepLive then runNotice v s else s) = { s with meter := { s.meter with
      notices := s.meter.notices ++ [(rf v 0 6, if v.getLsbD 9 then none else some (rf v 6 3))] } } := by
  have fits : ¬(rf v 10 22 ≠ 0 ∨ (!v.getLsbD 9) = true ∧ x.lessees.length ≤ rf v 6 3) := by
    rintro (odd | ⟨busy, outside⟩)
    · exact odd zero
    · rcases held with idle | inside
      · rw [idle] at busy
        exact Bool.false_ne_true busy
      · omega
  rw [if_pos live]
  simp only [runNotice, known, if_neg fits]

end

/-- Context 0 and queue 0 stand as the admin registers describe them. -/
theorem startAdmin_opens (s : State) : let t := startAdmin s
    t.keep = { s.keep with adminReady := true } ∧
      t.ctx 0 = { state := 1, part := 0xFF, ring := s.keep.ev0Ring, size := rf s.keep.adminCtrl 8 4, vector := rf s.keep.ev0Vector 0 11 } ∧
      t.queue 0 = { state := 1, ctx := 0, ring := s.keep.aqRing, res := s.keep.aqResult, size := rf s.keep.adminCtrl 12 4 } ∧
      (∀ i, i ≠ 0 → t.ctx i = s.ctx i ∧ t.queue i = s.queue i) :=
  ⟨rfl, tget_tset_same .., tget_tset_same .., fun _ other => ⟨tget_tset_other _ _ _ _ _ other, tget_tset_other _ _ _ _ _ other⟩⟩

/-- Settles O48, by a lemma per row and case. -/
theorem doorbellAdminTableAndEventRegistersAct : Obligations.DoorbellAdminTableAndEventRegistersAct := by
  refine ⟨?_, ?_, fun q v src s live bad => congrArg Host.Outcome.next (deviceDoorbell_ignored live v src bad),
    fun v src s x live known zero held => congrArg Host.Outcome.next (runNotice_kept live known zero held),
    fun i src s live => congrArg Host.Outcome.next (arrivalRead_answers live i src), ?_, ?_,
    fun v s live go => ⟨fun b entry => congrArg Host.Outcome.next (tableRead_latches live go entry),
      fun entry => congrArg Host.Outcome.next (tableRead_errs live go entry)⟩,
    fun c v s live low used => ⟨_, rfl, eventHead_sets live v low used⟩⟩
  · intro q v s live low x tail
    refine ⟨fun open_ host inside => ⟨moveTail q tail s, congrArg Host.Outcome.next ?_, moveTail_only q tail s⟩,
      fun bad => congrArg Host.Outcome.next ?_⟩
    · rw [hostDoorbell_live live v low]
      refine if_neg ?_
      rintro (shut | device | outside)
      · exact shut open_
      · rw [host] at device
        exact Bool.false_ne_true device
      · exact Nat.not_lt.mpr outside inside
    · rw [hostDoorbell_live live v low]
      exact if_pos bad
  · intro q v src s live low x tail part leases open_ device own inside moved
    exact ⟨_, rfl, deviceDoorbell_moves live v src low leases open_ device own inside moved⟩
  · intro v s live unset enable b
    have run := adminWrite_enables live unset enable
    refine ⟨fun big => congrArg Host.Outcome.next (run.trans (if_pos big)), fun q c => ?_⟩
    refine ⟨_, congrArg Host.Outcome.next (run.trans (if_neg fun h => h.elim (Nat.not_lt.mpr q) (Nat.not_lt.mpr c))), ?_⟩
    exact startAdmin_opens b
  · intro v s set
    refine congrArg Host.Outcome.next (if_pos ?_)
    rw [set, Bool.or_true]

end Sys2Proof.Machine
end

section
/-! PROOF of O44. Objects: allocation, sharing, query, release and retirement. -/

namespace Sys2Proof.Machine
open Sys2Proof Sys2Proof.Crypto

variable {q n : Nat} {e : BitVec 1024} {inp : Bytes} {s b : State} {t : Taken}

/-! ### Allocation (09 R316 to R319) -/

/-- The record of a region as it is installed over one of generation `gen`. -/
def installedObj (a : Alloc) (slot : Nat) (ps : List Place) (gen : Nat) : Obj where
  state := 1
  cls := a.cls
  part := a.part
  measured := a.measured
  gen := gen
  owners := a.owners
  tiles := a.n
  keySlot := if a.cls = 4 then 0 else slot
  kind := a.kind
  label := a.label
  places := ps
  loadGen := if a.cls = 1 then 1 else 0
  loading := a.cls == 1
  meas := if a.measured then 2 else 0

theorem fineHeaders_objs (p : Place) (s : State) : (fineHeaders p s).objs = s.objs := by
  unfold fineHeaders
  exact each_inv (fun w => w.objs = s.objs) _ _ (fun k w h => (Ended.objs ((Ended.bump p.st 8 32 w).trans (.emit ..))).trans h) s rfl

/-- The first key of a slot, drawn by the keep, changes no object. -/
theorem drawnKey_objs (slot part : Nat) (own : Bool) (s : State) : (firstKey slot 1 part own (draw0 s).1 (draw0 s).2).objs = s.objs := by
  obtain ⟨k, drawn⟩ := draw0_eq s
  rw [drawn]
  generalize drbgGen s.keep.drbg0 = g
  rfl

/-- Installing a region writes the record of its object and of no other. -/
theorem installRegion_objs (a : Alloc) (oi slot : Nat) (ps : List Place) (s : State) :
    (installRegion a oi slot ps s).objs = tset s.objs oi (installedObj a slot ps (s.obj oi).gen) := by
  generalize hu : (if a.cls = 4 then s else firstKey slot 1 a.part (a.part == 0xFF) (draw0 s).1 (draw0 s).2) = u
  have keyed : u.objs = s.objs := by
    rw [← hu]
    split
    · rfl
    · exact drawnKey_objs ..
  have run : installRegion a oi slot ps s =
      if a.cls = 2 ∨ a.cls = 3 then
        each ps (fun p s => each (placeEntries a.cls p) (fun e s => newLine p.st e (a.cls == 3) a.part s)
          (if a.cls = 3 then fineHeaders p s else s)) (u.onObj oi fun o => installedObj a slot ps o.gen)
      else u.onObj oi fun o => installedObj a slot ps o.gen := by
    rw [← hu]
    rfl
  have base : (u.onObj oi fun o => installedObj a slot ps o.gen).objs = tset s.objs oi (installedObj a slot ps (s.obj oi).gen) := by
    rw [State.onObj, keyed]
    rfl
  rw [run]
  split
  · refine each_inv (fun w => w.objs = tset s.objs oi (installedObj a slot ps (s.obj oi).gen)) _ _ (fun p w h => ?_) _ base
    refine each_inv (fun w => w.objs = tset s.objs oi (installedObj a slot ps (s.obj oi).gen)) _ _ (fun i v h => (newLine_objs ..).trans h) _ ?_
    split
    · exact (fineHeaders_objs p w).trans h
    · exact h
  · exact base

theorem allocAt_installs {a : Alloc} {ps0 ps : List Place} {oi slot : Nat} (entries : withEntries s a.cls ps0 = .inr ps) (free : freeObj s = some oi)
    (key : (if a.cls = 4 then some 0 else freeSlot s (a.part == 0xFF)) = some slot)
    (draws : a.cls ≠ 4 → canDraw s 0 = true ∧ s.keep.verifyBad = false) (up : a.cls = 2 ∨ a.cls = 3 → (ps.any fun p => s.isSafe p.st) = false) :
    allocAt a ps0 s = .ok oi (installRegion a oi slot ps s) := by
  have ready : ¬((a.cls ≠ 4 ∧ (!canDraw s 0) = true) ∨ ((a.cls = 2 ∨ a.cls = 3) ∧ (ps.any fun p => s.isSafe p.st) = true)) := by
    rintro (⟨keyed, dry⟩ | ⟨lines, safe⟩)
    · rw [(draws keyed).1] at dry
      exact Bool.false_ne_true dry
    · rw [up lines] at safe
      exact Bool.false_ne_true safe
  have verified : ¬(a.cls ≠ 4 ∧ s.keep.verifyBad = true) := fun ⟨keyed, bad⟩ => by
    rw [(draws keyed).2] at bad
    exact Bool.false_ne_true bad
  simp only [allocAt, entries, free, key, if_neg ready, if_neg verified]

/-- What OBJ_ALLOC asks for. -/
def askedAlloc (q : Nat) (e : BitVec 1024) (s : State) : Alloc where
  part := (s.ctx (s.queue q).ctx).part
  owners := [(s.queue q).ctx]
  cls := opnd e 0 1
  n := opnd e 16 4
  measured := opnd e 1 1 % 2 == 1
  kind := opnd e 2 1
  label := opnd e 4 2

theorem Began.allocBad (hb : Began q e inp s t b) : allocBad b t = Machine.allocBad s { q := q, e := e } := by
  simp only [Machine.allocBad, hb.partOf, hb.part_eq, hb.te]
  rfl

/-- The body of a started command allocates as the state before it lets it. -/
theorem Began.allocAt (hb : Began q e inp s t b) {a : Alloc} {ps0 ps : List Place} {oi slot : Nat} (entries : withEntries s a.cls ps0 = .inr ps)
    (free : freeObj s = some oi) (key : (if a.cls = 4 then some 0 else freeSlot s (a.part == 0xFF)) = some slot)
    (draws : a.cls ≠ 4 → canDraw s 0 = true ∧ s.keep.verifyBad = false) (up : a.cls = 2 ∨ a.cls = 3 → (ps.any fun p => s.isSafe p.st) = false) :
    allocAt a ps0 b = .ok oi (installRegion a oi slot ps b) := by
  have sameSafe : b.isSafe = s.isSafe := hb.bareOf State.isSafe fun _ => rfl
  refine allocAt_installs ?_ ?_ ?_ (fun keyed => ?_) (fun lines => ?_)
  · rw [← entries]
    exact hb.bareOf (fun s => withEntries s a.cls ps0) fun _ => rfl
  · rw [← free]
    exact hb.bareOf freeObj fun _ => rfl
  · rw [← key, hb.bareOf (fun s => freeSlot s (a.part == 0xFF)) fun _ => rfl]
  · rw [hb.canDraw, hb.verifyBad]
    exact draws keyed
  · rw [sameSafe]
    exact up lines

section
variable {ps0 ps : List Place} {oi slot : Nat} (hb : Began q e inp s t b) (valid : allocBad s { q := q, e := e } = 0)
  (entries : withEntries s (opnd e 0 1) ps0 = .inr ps) (free : freeObj s = some oi)
  (key : (if opnd e 0 1 = 4 then some 0 else freeSlot s ((s.ctx (s.queue q).ctx).part == 0xFF)) = some slot)
  (draws : opnd e 0 1 ≠ 4 → canDraw s 0 = true ∧ s.keep.verifyBad = false)
  (up : opnd e 0 1 = 2 ∨ opnd e 0 1 = 3 → (ps.any fun p => s.isSafe p.st) = false)
include hb valid entries free key draws up

theorem bodyObjAlloc_auto (auto : opnd e 1 1 / 2 % 2 = 0)
    (placed : autoPlaces s (s.ctx (s.queue q).ctx).part (opnd e 0 1) (opnd e 16 4) (BitVec.ofNat 64 (opnd e 8 8)) = .inr ps0) :
    bodyObjAlloc t n inp b = done t (le 4 (handleOf (installRegion (askedAlloc q e s) oi slot ps b) oi) ++ le 1 ps0.length)
      (installRegion (askedAlloc q e s) oi slot ps b) := by
  have placedB : autoPlaces b (s.ctx (s.queue q).ctx).part (opnd e 0 1) (opnd e 16 4) (BitVec.ofNat 64 (opnd e 8 8)) = .inr ps0 := by
    rw [← placed]
    exact hb.bareOf (fun s' => autoPlaces s' (s.ctx (s.queue q).ctx).part (opnd e 0 1) (opnd e 16 4) (BitVec.ofNat 64 (opnd e 8 8))) fun _ => rfl
  have allocated := hb.allocAt (a := askedAlloc q e s) entries free key draws up
  unfold askedAlloc at allocated ⊢
  simp only [bodyObjAlloc, hb.allocBad, valid, hb.te, hb.partOf, hb.ctxOf, auto, placedB, allocated, ne_eq, not_true_eq_false, Nat.zero_ne_one, if_false]

theorem bodyObjAlloc_listed (listed : opnd e 1 1 / 2 % 2 = 1) (some_ : BitVec.ofNat 64 (opnd e 8 8) ≠ 0)
    (access : objAccess s (accPart s { q := q } (opnd e 20 4)) (opnd e 20 4) (opnd e 24 5) (16 * popc (BitVec.ofNat 64 (opnd e 8 8))) false = 0)
    (room : MeterFits s (accPart s { q := q } (opnd e 20 4)) 5 (16 * popc (BitVec.ofNat 64 (opnd e 8 8))))
    (placed : listPlaces s (s.ctx (s.queue q).ctx).part (opnd e 0 1) (opnd e 16 4) (BitVec.ofNat 64 (opnd e 8 8)) inp = .inr ps0) :
    let u := b.metered (accPart s { q := q } (opnd e 20 4)) 5 (16 * popc (BitVec.ofNat 64 (opnd e 8 8)))
    bodyObjAlloc t 0 inp b = done t (le 4 (handleOf (installRegion (askedAlloc q e s) oi slot ps u) oi) ++ le 1 ps0.length)
      (installRegion (askedAlloc q e s) oi slot ps u) := by
  intro u
  have charged := hb.metered (accPart s { q := q } (opnd e 20 4)) 5 (16 * popc (BitVec.ofNat 64 (opnd e 8 8)))
  have placedB : listPlaces u (s.ctx (s.queue q).ctx).part (opnd e 0 1) (opnd e 16 4) (BitVec.ofNat 64 (opnd e 8 8)) inp = .inr ps0 := by
    rw [← placed]
    exact charged.bareOf (fun s' => listPlaces s' (s.ctx (s.queue q).ctx).part (opnd e 0 1) (opnd e 16 4) (BitVec.ofNat 64 (opnd e 8 8)) inp)
      fun _ => rfl
  have allocated : allocAt (askedAlloc q e s) ps0 u = _ := charged.allocAt entries free key draws up
  have asks : (s.ctx (s.queue q).ctx).part = b.partOf t := hb.partOf.symm
  unfold askedAlloc at allocated ⊢
  simp only [bodyObjAlloc, hb.allocBad, valid, hb.te, hb.partOf, hb.ctxOf, listed, if_neg some_, ne_eq, not_true_eq_false, if_false, if_true,
    hb.reads rfl access room]
  rw [placedB]
  dsimp only
  rw [allocated]

end

/-! ### OBJ_SHARE, OBJ_QUERY and OBJ_FREE (09 R320, R321) -/

theorem bodyObjShare_shares (hb : Began q e inp s t b) (handle : opnd e 0 4 ≠ 0) (live : (s.ctx (opnd e 4 2)).state = 1)
    (same : (s.ctx (opnd e 4 2)).part = (s.obj (handleIdx (opnd e 0 4))).part)
    (fresh : (s.obj (handleIdx (opnd e 0 4))).owners.contains (opnd e 4 2) = false) :
    bodyObjShare t n inp b = done t [] (b.onObj (handleIdx (opnd e 0 4)) fun o => { o with owners := o.owners ++ [opnd e 4 2] }) := by
  simp only [bodyObjShare, hb.te, hb.ctx_eq, hb.obj_eq, if_neg handle, live, same, fresh, Bool.false_eq_true, ne_eq, not_true_eq_false, or_self,
    if_false]

theorem bodyObjQuery_answers (hb : Began q e inp s t b) (handle : opnd e 0 4 ≠ 0) :
    bodyObjQuery t n inp b = done t ((objBytes b (handleIdx (opnd e 0 4))).take 48) b := by
  simp only [bodyObjQuery, hb.te, if_neg handle]

/-- An object that one of its owners lets go of. -/
def droppedOwner (c : Nat) (o : Obj) : Obj :=
  { o with owners := without o.owners c, state := if o.state = 1 ∧ without o.owners c = [] then 2 else o.state }

theorem dropOwner_drops {c oi : Nat} (owned : (b.obj oi).owners.contains c = true) :
    dropOwner c oi b = { b with objs := tset b.objs oi (droppedOwner c (b.obj oi)) } := by
  unfold dropOwner State.onObj tupd
  rw [show tget {} b.objs oi = b.obj oi from rfl]
  simp only [owned, Bool.not_true, Bool.false_eq_true, if_false, List.isEmpty_iff, droppedOwner]

theorem bodyObjFree_frees (hb : Began q e inp s t b) (handle : opnd e 0 4 ≠ 0)
    (owned : (s.obj (handleIdx (opnd e 0 4))).owners.contains (s.queue q).ctx = true) :
    let oi := handleIdx (opnd e 0 4)
    let o' := droppedOwner (s.queue q).ctx (s.obj oi)
    bodyObjFree t n inp b = retireObject oi (done t (le 1 o'.state) { b with objs := tset s.objs oi o' }) := by
  have drops := dropOwner_drops (b := b) (c := (s.queue q).ctx) (oi := handleIdx (opnd e 0 4)) (by rw [hb.obj_eq]; exact owned)
  rw [hb.obj_eq, hb.objs] at drops
  simp only [bodyObjFree, hb.te, if_neg handle, hb.ctxOf, drops, State.obj, tget_tset_same]

/-! ### Retirement (09 R322) -/

/-- A Doomed object without references retires: a plain one is cut in 2 ms, another's key slot drains. -/
theorem retireObject_retires {oi : Nat} (doomed : (s.obj oi).state = 2) (unused : refsOf s oi = 0) :
    let t := retireObject oi s
    (t.obj oi).state = 3 ∧ ((s.obj oi).cls = 4 → (t.obj oi).cutAt = some (s.now + Config.ms 2)) ∧
      ((s.obj oi).cls ≠ 4 → t = retireSlot (s.obj oi).keySlot (Config.ms 2) { s with objs := tset s.objs oi { s.obj oi with state := 3 } }) := by
  intro t
  have may : ¬((s.obj oi).state ≠ 2 ∨ refsOf s oi ≠ 0) := by
    rw [doomed, unused]
    decide
  have run : t = if (s.obj oi).cls = 4 then issue 3 oi (s.onObj oi fun o => { o with state := 3, cutAt := some (s.now + Config.ms 2) })
      else retireSlot (s.obj oi).keySlot (Config.ms 2) (s.onObj oi fun o => { o with state := 3 }) := if_neg may
  by_cases plain : (s.obj oi).cls = 4
  · rw [if_pos plain] at run
    have record : t.obj oi = { s.obj oi with state := 3, cutAt := some (s.now + Config.ms 2) } := by
      rw [run]
      exact tget_tset_same ..
    exact ⟨by rw [record], fun _ => by rw [record], fun other => absurd plain other⟩
  · rw [if_neg plain] at run
    refine ⟨?_, fun same => absurd same plain, fun _ => run⟩
    rw [run, retire_only]
    exact congrArg Obj.state (obj_onObj oi (fun o => { o with state := 3 }) s)

theorem freeObject_frees {oi : Nat} (more : (s.obj oi).gen < 4095) :
    (freeObject oi s).obj oi = { gen := (s.obj oi).gen + 1 } ∧ ∀ i, i ≠ oi → (freeObject oi s).obj i = s.obj i := by
  unfold freeObject
  extract_lets o u w
  have same : u.objs = s.objs := by
    refine each_inv (fun v => v.objs = s.objs) _ _ (fun p v h => ?_) s rfl
    exact h
  replace same : w.objs = s.objs := same
  clear_value w u
  rw [if_neg (Nat.not_le.mpr more)]
  have gen : (w.obj oi).gen = (s.obj oi).gen := by rw [State.obj, same]; rfl
  refine ⟨?_, fun i other => ?_⟩
  · rw [obj_onObj, gen]
  · rw [obj_onObj_other _ _ _ _ other, State.obj, same]
    rfl

theorem plainCut_frees {oi : Nat} (plain : (s.obj oi).cls = 4) (retiring : (s.obj oi).state = 3) (drained : plainDrained s oi = true) :
    plainCut oi s = freeObject oi s := by
  simp only [plainCut, plain, retiring, drained, ne_eq, not_true_eq_false, or_self, if_false, if_true]

/-- Settles O44: each command's body on the state in which it begins, and the two rows of a retirement. -/
theorem objectsAreAllocatedSharedAndRetired : Obligations.ObjectsAreAllocatedSharedAndRetired := by
  refine ⟨?_, ?_, ?_, ?_, fun oi s live doomed unused => ⟨_, congrArg Host.Outcome.next (if_pos live), retireObject_retires doomed unused⟩,
    fun oi s live plain retiring drained more =>
      ⟨_, congrArg Host.Outcome.next ((if_pos live).trans (plainCut_frees plain retiring drained)), freeObject_frees more⟩⟩
  · intro q e rc inp s starts part cls flags mask a payer ps0 ps oi slot valid placed entries free key draws up
    obtain ⟨t, b, run, hb⟩ := takeCmd_begins (body := bodyObjAlloc) (rc := rc) (inp := inp) starts (by decide)
    have record (u : State) (same : u.objs = s.objs) : (installRegion a oi slot ps u).obj oi = installedObj a slot ps (s.obj oi).gen := by
      rw [State.obj, installRegion_objs, tget_tset_same, State.obj, same]
      rfl
    rcases placed with ⟨auto, placed⟩ | ⟨listed, some_, access, room, placed⟩
    · refine ⟨t, b, b, hb, (if_neg (by rw [auto]; decide)).symm, congrArg Host.Outcome.next (run.trans ?_), record b hb.objs⟩
      exact bodyObjAlloc_auto hb valid entries free key draws up auto placed
    · refine ⟨t, b, b.metered payer 5 (16 * popc mask), hb, (if_pos listed).symm, congrArg Host.Outcome.next (run.trans ?_), record _ hb.objs⟩
      exact bodyObjAlloc_listed hb valid entries free key draws up listed some_ access room placed
  · intro q e rc inp s starts oi c o handle live same fresh
    obtain ⟨t, b, run, hb⟩ := takeCmd_begins (body := bodyObjShare) (rc := rc) (inp := inp) starts (by decide)
    obtain ⟨u, exec, completed, bare, -⟩ := hb.finishes (congrArg Host.Outcome.next (run.trans (bodyObjShare_shares hb handle live same fresh)))
      rfl rfl rfl rfl rfl hb.now
    exact ⟨u, exec, completed, bare.trans (congrArg (fun u : State => ({ u with
      objs := tupd {} u.objs oi fun o => { o with owners := o.owners ++ [c] } } : State)) hb.bare)⟩
  · intro q e rc inp s starts handle
    obtain ⟨t, b, run, hb⟩ := takeCmd_begins (body := bodyObjQuery) (rc := rc) (inp := inp) starts (by decide)
    exact ⟨t, b, hb, congrArg Host.Outcome.next (run.trans (bodyObjQuery_answers hb handle))⟩
  · intro q e rc inp s starts oi o own handle owned o'
    obtain ⟨t, b, run, hb⟩ := takeCmd_begins (body := bodyObjFree) (rc := rc) (inp := inp) starts (by decide)
    exact ⟨t, b, hb, congrArg Host.Outcome.next (run.trans (bodyObjFree_frees hb handle owned))⟩

end Sys2Proof.Machine
end

section
/-! PROOF of O52 and O53. The reset commands and the keep starts. -/

namespace Sys2Proof.Machine
open Sys2Proof Sys2Proof.Crypto

variable {q n : Nat} {e : BitVec 1024} {inp : Bytes} {s b : State} {t : Taken}

/-! ### Signed requests in an object (11 R363, 12 R380) -/

theorem scratchOut_only (cipher : Bool) (x : Bytes) (s : State) : ∃ c, scratchOut cipher x s = { s with keep := { s.keep with scratch := c } } := by
  unfold scratchOut
  dsimp only
  split
  · exact ⟨s.keep.scratch, rfl⟩
  · exact ⟨_, rfl⟩

/-- The state in which a request that a started command has read stands in secure scratch. -/
def requested (q : Nat) (e : BitVec 1024) (inp : Bytes) (s b : State) : State :=
  scratchOut false (fit (opnd e 10 2) inp) (b.metered (accPart s { q := q } (opnd e 0 4)) 5 (opnd e 10 2))

theorem Began.request (hb : Began q e inp s t b)
    (access : objAccess s (accPart s { q := q } (opnd e 0 4)) (opnd e 0 4) (opnd e 4 5) (opnd e 10 2) false = 0)
    (room : MeterFits s (accPart s { q := q } (opnd e 0 4)) 5 (opnd e 10 2)) (k : Bytes → State → State) :
    withRequest t 0 inp k b = k (fit (opnd e 10 2) inp) (requested q e inp s b) := by
  simp only [withRequest, hb.te]
  exact hb.reads rfl access room

/-- What a started command that has read a request still sees of the state before it. -/
theorem requested_sees (hb : Began q e inp s t b) : (requested q e inp s b).aon = s.aon ∧
    ({ (requested q e inp s b).keep with rr := 0, pba := [], scratch := {} } : Keep) = { s.keep with rr := 0, pba := [], scratch := {} } := by
  obtain ⟨c, read⟩ := scratchOut_only false (fit (opnd e 10 2) inp) (b.metered (accPart s { q := q } (opnd e 0 4)) 5 (opnd e 10 2))
  rw [requested, read]
  exact ⟨hb.aon, congrArg (fun k : Keep => { k with scratch := {} }) hb.keepOf⟩

/-! ### The reset commands (11 R359 to R363, R366) -/

theorem bodyResetStation_resets (hb : Began q e inp s t b) (station : isStation (opnd e 0 1) = true) :
    bodyResetStation t n inp b = keepRunning t (opnd e 0 1) (resetStation (opnd e 0 1) ((blocks 4 inp).map ofLe) b) := by
  simp only [bodyResetStation, hb.te, station, Bool.not_true, Bool.false_eq_true, if_false]

/-- A warm reset that is requested of a running block. -/
theorem requestWarm_runs {cause : Nat} (running : s.aon.phase = 1) : ∃ a, requestWarm cause s = { s with aon := a } ∧ a.phase = 2 ∧
    a.phaseAt = s.now ∧ a.warmTimes = (s.now :: s.aon.warmTimes).take 3 :=
  ⟨_, if_neg (not_not_intro running), rfl, rfl, rfl⟩

theorem bodyResetNonce_draws (hb : Began q e inp s t b) (draws : canDraw s 1 = true) : ∃ k, bodyResetNonce t n inp b =
    done t ((drbgMany 1 s.keep.drbg1).1.take 32) { b with
      ctrs := k, keep := { b.keep with resetNonce := some ((drbgMany 1 s.keep.drbg1).1.take 32), drbg1 := (drbgMany 1 s.keep.drbg1).2 } } := by
  obtain ⟨k, drawn⟩ := drawBytes_at 32 b
  rw [hb.drbg1, show (32 + 31) / 32 = 1 from rfl] at drawn
  generalize drbgMany 1 s.keep.drbg1 = g at drawn ⊢
  refine ⟨k, ?_⟩
  have ready : (!canDraw b 1) = false := by
    rw [hb.canDraw, draws]
    rfl
  rw [bodyResetNonce, ready, if_neg Bool.false_ne_true, drawn]

/-- A cold reset that the operator signed over this part's identifier and nonce. -/
theorem bodyResetColdSigned_resets {d : Dual} {m : Cbor} {nonce : Bytes} (hb : Began q e inp s t b)
    (access : objAccess s (accPart s { q := q } (opnd e 0 4)) (opnd e 0 4) (opnd e 4 5) (opnd e 10 2) false = 0)
    (room : MeterFits s (accPart s { q := q } (opnd e 0 4)) 5 (opnd e 10 2)) (signed : (cborOf (fit (opnd e 10 2) inp)).bind dualOf = some d)
    (good : dualOk s.keep.opKeyM s.keep.opKeyP d = true) (payload : cborOf d.payload = some m) (size : m.size = 3)
    (ueid : m.bstr 1 = some (fit 32 s.aon.ueid)) (held : s.keep.resetNonce = some nonce) (named : m.bstr 2 = some nonce) (kind : m.nat 3 = some 1) :
    let c := requested q e inp s b
    let u := flushLog (logEntry 0x06 (nonce.take 16) { c with keep := { c.keep with resetNonce := none } })
    bodyResetColdSigned t 0 inp b = done t [] { u with aon := { u.aon with coldAt := some (u.now + Config.us 1) } } := by
  obtain ⟨aon, keep⟩ := requested_sees hb
  have opM : (requested q e inp s b).keep.opKeyM = s.keep.opKeyM := (congrArg Keep.opKeyM keep :)
  have opP : (requested q e inp s b).keep.opKeyP = s.keep.opKeyP := (congrArg Keep.opKeyP keep :)
  have nonceHeld : (requested q e inp s b).keep.resetNonce = some nonce := (congrArg Keep.resetNonce keep :).trans held
  simp only [bodyResetColdSigned, hb.request access room, signed, opM, opP, good, aon, nonceHeld, payload, size, ueid, named, kind, Option.getD_some,
    Bool.not_true, Bool.false_eq_true, reduceCtorEq, ne_eq, not_true_eq_false, or_self, if_false]

/-- Settles O52: each command's body on the state in which it begins. -/
theorem resetCommandsRun : Obligations.ResetCommandsRun := by
  refine ⟨?_, ?_, ?_, ?_⟩
  · intro q e rc inp s starts u station
    obtain ⟨t, b, run, hb⟩ := takeCmd_begins (body := bodyResetStation) (rc := rc) (inp := inp) starts (by decide)
    exact ⟨t, b, hb, congrArg Host.Outcome.next (run.trans (bodyResetStation_resets hb station))⟩
  · intro q e rc inp s starts
    obtain ⟨t, b, run, hb⟩ := takeCmd_begins (body := bodyResetWarm) (rc := rc) (inp := inp) starts (by decide)
    have running : (keepRunning t 0 b).aon.phase = 1 := by
      have may := starts.1
      simp only [mayTake, Bool.and_eq_true] at may
      obtain ⟨⟨⟨⟨⟨live, -⟩, -⟩, -⟩, -⟩, -⟩ := may
      exact (congrArg Aon.phase hb.aon).trans ((keepLive_iff s).mp live).2.2
    obtain ⟨a, warm, phase, phaseAt, times⟩ := requestWarm_runs (cause := 2) running
    refine ⟨_, congrArg Host.Outcome.next (run.trans warm), hb.runs (c := { b with aon := a }) 0 rfl rfl rfl, phase, phaseAt.trans hb.now, ?_, ?_⟩
    · rw [times]
      exact congrArg (fun x : Aon => (x.time :: x.warmTimes).take 3) hb.aon
    · exact congrArg (fun u : State => ({ u with aon := a } : State)) hb.bare
  · intro q e rc inp s starts draws g
    obtain ⟨t, b, run, hb⟩ := takeCmd_begins (body := bodyResetNonce) (rc := rc) (inp := inp) starts (by decide)
    obtain ⟨k, drawn⟩ := bodyResetNonce_draws (n := 0) hb draws
    have step := congrArg (Host.Outcome.next (φ := Fault) (ρ := Refusal)) (run.trans drawn)
    change _ = Host.Outcome.next (done t (g.1.take 32) { b with
      ctrs := k, keep := { b.keep with resetNonce := some (g.1.take 32), drbg1 := g.2 } }) at step
    clear_value g
    obtain ⟨u, exec, completed, bare, -⟩ := hb.finishes step rfl rfl rfl rfl rfl hb.now
    exact ⟨u, exec, completed, bare.trans (congrArg (fun u : State => ({ u with
      keep := { u.keep with resetNonce := some (g.1.take 32), drbg1 := g.2 } } : State)) hb.bare)⟩
  · intro q e rc inp s starts m' h payer d m nonce access room signed good payload size ueid held named kind
    obtain ⟨t, b, run, hb⟩ := takeCmd_begins (body := bodyResetColdSigned) (rc := rc) (inp := inp) starts (by decide)
    exact ⟨t, b, hb, congrArg Host.Outcome.next
      (run.trans (bodyResetColdSigned_resets hb access room signed good payload size ueid held named kind))⟩

/-! ### The keep starts (12 R376, R384; 14 R426, R427) -/

/-- What a cold keep start reads of its inputs first. -/
def coldBegun (env : List Bytes) (s : State) : State :=
  takeEnv env { s with aon := { s.aon with porLow := false, spares := s.aon.repairs.filter recValid } }

/-- The tests of a keep start, before its seed. -/
def startTested (selfFail badDies : List Nat) (raw : BitVec 4096) (kat : BitVec 2) (s : State) : State :=
  startRandom raw kat (selfTests selfFail badDies s)

theorem flashSlot_keep (i : Nat) (x : Bytes) (s : State) : (flashSlot i x s).keep = s.keep := by
  unfold flashSlot
  split <;> rfl

theorem coldBegun_keep (env : List Bytes) (s : State) : (coldBegun env s).keep = s.keep := by
  unfold coldBegun takeEnv
  dsimp only
  rw [flashSlot_keep, flashSlot_keep]

section
variable {env : List Bytes} {byPin pufOk runs : Bool} {pufKey : BitVec 256} {selfFail badDies : List Nat} {raw : BitVec 4096} {kat : BitVec 2}

theorem coldStart_begins (off : s.aon.phase = 0) (level : byPin = s.aon.porLow) :
    let b := coldBegun env s
    coldStart env byPin pufOk pufKey selfFail badDies raw kat runs s =
      if lcCode b.aon = 6 then dead { b with keep := { b.keep with capab := capTable b }, aon := { b.aon with coldOut := false } }
      else if (inProgress b.aon).isSome then { b with aon := { b.aon with phase := 6, phaseAt := b.now, retries := 0 } }
      else coldUp pufOk pufKey selfFail badDies raw kat runs b :=
  if_neg fun h => h.elim (fun up => up off) fun other => other level

section
variable {a u : State} (tested : startTested selfFail badDies raw kat { s with aon := { s.aon with coldOut := false } } = a)
include tested

theorem coldUp_unseeded (none_ : takeSeed pufOk pufKey a = none) :
    coldUp pufOk pufKey selfFail badDies raw kat runs s = dead (faultEvent Config.keepId 0x1B 0xFFFF 0 a) := by
  unfold startTested at tested
  simp only [coldUp, tested, none_]

theorem coldUp_unslotted (seeded : takeSeed pufOk pufKey a = some u) (none_ : selectSlot u = none) :
    coldUp pufOk pufKey selfFail badDies raw kat runs s = dead u := by
  unfold startTested at tested
  simp only [coldUp, tested, seeded, none_]

theorem coldUp_slotted {slot : Nat} (seeded : takeSeed pufOk pufKey a = some u) (chosen : selectSlot u = some slot) :
    coldUp pufOk pufKey selfFail badDies raw kat runs s = coldRun slot runs u := by
  unfold startTested at tested
  simp only [coldUp, tested, seeded, chosen]

end

theorem warmStart_begins (held : s.aon.phase = 3) (due : s.aon.phaseAt + Config.us 10 ≤ s.now) :
    warmStart pufOk pufKey selfFail badDies raw kat runs s =
      match takeSeed pufOk pufKey (startTested selfFail badDies raw kat (clearFaults s)) with
      | none => dead (faultEvent Config.keepId 0x1B 0xFFFF 0 (startTested selfFail badDies raw kat (clearFaults s)))
      | some u => warmRun runs u := by
  refine (if_neg fun h => h.elim (fun other => other held) (Nat.not_lt.mpr due)).trans ?_
  rfl

theorem warmRun_unloaded (bad : slotValid s s.aon.slot = false) : warmRun runs s = dead s := if_pos (by rw [bad]; rfl)

end

/-- Settles O53, by the branch that each keep start takes. -/
theorem keepStartsTakeTheirBranch : Obligations.KeepStartsTakeTheirBranch := by
  refine ⟨?_, ?_⟩
  · intro env byPin woken pufOk pufKey selfFail badDies raw kat hang s off level b a
    have begins := coldStart_begins (env := env) (pufOk := pufOk) (runs := !hang) (pufKey := pufKey) (selfFail := selfFail) (badDies := badDies)
      (raw := raw) (kat := kat) off level
    have ready : (coldBegun env s).keep.ready = s.keep.ready := congrArg Keep.ready (coldBegun_keep env s)
    have scrap (h : lcCode b.aon = 6) := begins.trans (if_pos h)
    have busy (h : lcCode b.aon ≠ 6) (g : (inProgress b.aon).isSome = true) := begins.trans ((if_neg h).trans (if_pos g))
    have up (h : lcCode b.aon ≠ 6) (g : inProgress b.aon = none) := begins.trans ((if_neg h).trans (if_neg (by
      rw [show inProgress (coldBegun env s).aon = none from g]
      exact Bool.false_ne_true)))
    refine ⟨fun h => ⟨_, congrArg Host.Outcome.next (scrap h), rfl, ready⟩,
      fun h g => congrArg Host.Outcome.next (busy h g),
      fun h g none_ => congrArg Host.Outcome.next ((up h g).trans (coldUp_unseeded rfl none_)), fun u h g seeded => ?_⟩
    exact ⟨fun none_ => congrArg Host.Outcome.next ((up h g).trans (coldUp_unslotted rfl seeded none_)),
      fun slot chosen => congrArg Host.Outcome.next ((up h g).trans (coldUp_slotted rfl seeded chosen))⟩
  · intro pufOk pufKey selfFail badDies raw kat hang s held due a
    have begins := warmStart_begins (pufOk := pufOk) (runs := !hang) (pufKey := pufKey) (selfFail := selfFail) (badDies := badDies)
      (raw := raw) (kat := kat) held due
    refine ⟨fun none_ => congrArg Host.Outcome.next (begins.trans ?_), fun u seeded => ?_⟩
    · rw [show takeSeed pufOk pufKey (startTested selfFail badDies raw kat (clearFaults s)) = none from none_]
      rfl
    · have seededRun : warmStart pufOk pufKey selfFail badDies raw kat (!hang) s = warmRun (!hang) u := begins.trans (by
        rw [show takeSeed pufOk pufKey (startTested selfFail badDies raw kat (clearFaults s)) = some u from seeded])
      exact ⟨fun bad => ⟨_, congrArg Host.Outcome.next (seededRun.trans (warmRun_unloaded bad)), rfl⟩,
        fun _ => congrArg Host.Outcome.next seededRun⟩

end Sys2Proof.Machine
end

section
/-! PROOF of O54, O56 and O57. The reset inputs and the watchdog, and the life cycle. -/

namespace Sys2Proof.Machine
open Sys2Proof Sys2Proof.Crypto

variable {q n : Nat} {e : BitVec 1024} {inp : Bytes} {s b : State} {t : Taken}

/-! ### Reset inputs, the warm reset sequence, the vault and the watchdog (11 R358 to R365) -/

/-- The times of the last three warm resets span 15 minutes exactly when two stand already and the older is recent. -/
theorem thirdWarm_iff (now : Nat) (times : List Nat) :
    (((now :: times).take 3).length == 3 && decide (now ≤ ((now :: times).take 3).getLast?.getD 0 + 90000000000)) =
      decide (times.length ≥ 2 ∧ now ≤ times.getD 1 0 + 90000000000) := by
  match times with
  | [] => simp
  | [_] => simp
  | _ :: _ :: _ => simp

theorem warmInput_requests {k : Nat} (long : 4 ≤ k) (running : s.aon.phase = 1) :
    let third := s.aon.warmTimes.length ≥ 2 ∧ s.now ≤ (s.aon.warmTimes.getD 1 0) + 90000000000
    warmInput k s = { s with aon := { s.aon with
      phase := 2, phaseAt := s.now, warmTimes := (s.now :: s.aon.warmTimes).take 3, cause := if third then 5 else 2,
      outOfService := s.aon.outOfService || decide third, cutTime := none } } := by
  have run : warmInput k s = requestWarm 2 s := if_pos long
  rw [run, requestWarm, if_neg (not_not_intro running)]
  simp only [thirdWarm_iff, decide_eq_true_eq, Nat.reduceEqDiff, if_false]

theorem dropHalves_key (s : State) (i : Nat) : ((dropHalves s).key i).cur = 0 ∧ ((dropHalves s).key i).pend = 0 := by
  rw [State.key, show tget ({} : KeySlot) (dropHalves s).keys i = _ from tget_tmap (f := fun _ k => { k with cur := 0, pend := 0 }) rfl s.keys]
  exact ⟨rfl, rfl⟩

theorem holdAll_stations (s : State) (u : Nat) : (holdAll s).memSt u = freshMem (s.memSt u) ∧ (holdAll s).linkSt u = freshLink (s.linkSt u) :=
  ⟨tget_tmap (f := fun _ m => freshMem m) rfl s.mem, tget_tmap (f := fun _ l => freshLink l) rfl s.link⟩

/-- The sequence ends with the keep and every station held and every key half lost. -/
theorem warmStep5_holds (s : State) : let t := warmStep5 s
    t.aon.phase = 3 ∧ t.aon.warmOut = true ∧ t.keep.ready = false ∧ (∀ i, (t.key i).cur = 0 ∧ (t.key i).pend = 0) ∧
      (∀ u ∈ Config.memIds, (t.memSt u).lines = [] ∧ (t.memSt u).reqs = []) ∧
      ∀ u ∈ Config.linkIds, (t.linkSt u).ctxs = [] ∧ (t.linkSt u).trackers = [] := by
  unfold warmStep5
  generalize each stationIds cutStation s = w
  refine ⟨rfl, rfl, rfl, dropHalves_key w, fun u _ => ?_, fun u _ => ?_⟩
  · have held : (holdAll (dropHalves w)).memSt u = _ := (holdAll_stations (dropHalves w) u).1
    exact ⟨congrArg MemSt.lines held, congrArg MemSt.reqs held⟩
  · have held : (holdAll (dropHalves w)).linkSt u = _ := (holdAll_stations (dropHalves w) u).2
    exact ⟨congrArg LinkSt.ctxs held, congrArg LinkSt.trackers held⟩

theorem vaultExpiry_at {w : Nat} (written : s.aon.vaultAt = some w) : vaultExpiry s = if w + 3000000000 ≤ s.now then eraseVault s else s := by
  simp only [vaultExpiry, written]

/-- Settles O54, by a lemma per row and case. -/
theorem resetInputsSequenceAndWatchdogRun : Obligations.ResetInputsSequenceAndWatchdogRun := by
  refine ⟨fun p s => rfl, fun k s => ⟨fun short => congrArg Host.Outcome.next (if_neg (Nat.not_le.mpr short)),
      fun long running => congrArg Host.Outcome.next (warmInput_requests long running)⟩,
    fun ll lc s phase => ⟨_, congrArg Host.Outcome.next (if_neg (not_not_intro phase)), warmStep5_holds _⟩,
    fun s w written => ⟨fun early => congrArg Host.Outcome.next ((vaultExpiry_at written).trans (if_neg (Nat.not_le.mpr early))),
      fun late => congrArg Host.Outcome.next ((vaultExpiry_at written).trans (if_pos late))⟩, ?_,
    fun s live unbeaten due => congrArg Host.Outcome.next (startTimeout_due live unbeaten due)⟩
  intro s live beaten due b
  refine congrArg Host.Outcome.next ((periodExpiry_due live beaten due).trans ?_)
  by_cases few : s.keep.missed < 9
  · rw [if_pos few, if_neg (by omega)]
    rfl
  · rw [if_neg few, if_pos (by omega)]
    rfl

/-! ### The life-cycle commands (12 R380 to R382, R391, R394) -/

theorem bodyLcNonce_held {x : Bytes} (hb : Began q e inp s t b) (held : s.keep.chipNonce = some x) : bodyLcNonce t n inp b = done t x b := by
  have same : b.keep.chipNonce = some x := (congrArg Keep.chipNonce hb.keepOf :).trans held
  simp only [bodyLcNonce, same]

theorem renewNonce_draws (draws : canDraw s 1 = true) : ∃ k, renewNonce s = { s with
    ctrs := k, keep := { s.keep with
      chipNonce := some ((drbgMany 1 s.keep.drbg1).1.take 32), drbg1 := (drbgMany 1 s.keep.drbg1).2 } } := by
  obtain ⟨k, drawn⟩ := drawBytes_at 32 s
  rw [show (32 + 31) / 32 = 1 from rfl] at drawn
  generalize drbgMany 1 s.keep.drbg1 = g at drawn ⊢
  exact ⟨k, by rw [renewNonce, if_pos draws, drawn]⟩

theorem bodyLcNonce_draws (hb : Began q e inp s t b) (unset : s.keep.chipNonce = none) (draws : canDraw s 1 = true) :
    ∃ k, bodyLcNonce t n inp b = done t ((drbgMany 1 s.keep.drbg1).1.take 32) { b with
      ctrs := k, keep := { b.keep with chipNonce := some ((drbgMany 1 s.keep.drbg1).1.take 32), drbg1 := (drbgMany 1 s.keep.drbg1).2 } } := by
  have same : b.keep.chipNonce = none := (congrArg Keep.chipNonce hb.keepOf :).trans unset
  have ready : canDraw b 1 = true := by
    rw [hb.canDraw, draws]
  obtain ⟨k, renewed⟩ := renewNonce_draws ready
  rw [hb.drbg1] at renewed
  generalize drbgMany 1 s.keep.drbg1 = g at renewed ⊢
  refine ⟨k, ?_⟩
  simp only [bodyLcNonce, same, ready, renewed, Bool.not_true, Bool.false_eq_true, if_false, Option.getD_some]

/-- A request that a started command has read passes the checks that it passes before. -/
theorem requested_checks (hb : Began q e inp s t b) (a : Nat) (r : LcReq) :
    lcAuthorityOk (requested q e inp s b) a r = lcAuthorityOk s a r ∧ lcFieldsOk (requested q e inp s b) r = lcFieldsOk s r := by
  obtain ⟨c, read⟩ := scratchOut_only false (fit (opnd e 10 2) inp) (b.metered (accPart s { q := q } (opnd e 0 4)) 5 (opnd e 10 2))
  rw [requested, read]
  exact ⟨hb.bareOf (fun s => lcAuthorityOk s a r) fun _ => rfl, hb.bareOf (fun s => lcFieldsOk s r) fun _ => rfl⟩

section
variable {r : LcReq} {en : Nat} (hb : Began q e inp s t b)
  (access : objAccess s (accPart s { q := q } (opnd e 0 4)) (opnd e 0 4) (opnd e 4 5) (opnd e 10 2) false = 0)
  (room : MeterFits s (accPart s { q := q } (opnd e 0 4)) 5 (opnd e 10 2)) (parsed : lcParse (fit (opnd e 10 2) inp) = some r)
  (signed : r.sig.ok r.sig.dual.payload = true) (fits : lcFieldsOk s r = true)
include hb access room parsed signed fits

theorem bodyLcTransition_starts (authority : lcAuthorityOk s 2 r = true) (entry : lcEntry s.aon r.target = some en) :
    bodyLcTransition t 0 inp b = lcHold r.target (done t (le 1 en) (lcStep1 r en (renewNonce (requested q e inp s b)))) := by
  obtain ⟨aon, -⟩ := requested_sees hb
  obtain ⟨may, fitting⟩ := requested_checks hb 2 r
  have checked := lcCheck_ok (a := 2) (c := some (r, en)) (s := requested q e inp s b) parsed (may.trans authority) signed (fitting.trans fits)
    (.inr ⟨by decide, en, by rw [aon]; exact entry, rfl⟩)
  simp only [bodyLcTransition, hb.request access room, checked]

theorem bodyDebugOpen_opens (authority : lcAuthorityOk s 3 r = true) :
    bodyDebugOpen t 0 inp b = debugReopen (done t [] (renewNonce (requested q e inp s b))) := by
  obtain ⟨may, fitting⟩ := requested_checks hb 3 r
  have checked := lcCheck_ok (a := 3) (c := some (r, 0)) (s := requested q e inp s b) parsed (may.trans authority) signed (fitting.trans fits)
    (.inl ⟨rfl, rfl⟩)
  simp only [bodyDebugOpen, hb.request access room, checked]

end

/-- Settles O56: each command's body on the state in which it begins. -/
theorem lifeCycleCommandsRun : Obligations.LifeCycleCommandsRun := by
  refine ⟨?_, ?_, ?_, ?_⟩
  · intro q e rc inp s starts
    obtain ⟨t, b, run, hb⟩ := takeCmd_begins (body := bodyLcNonce) (rc := rc) (inp := inp) starts (by decide)
    refine ⟨fun x held => ?_, ?_⟩
    · obtain ⟨u, exec, completed, bare, -⟩ := hb.finishes (congrArg Host.Outcome.next (run.trans (bodyLcNonce_held hb held))) rfl rfl rfl rfl rfl hb.now
      exact ⟨u, exec, completed, bare.trans hb.bare⟩
    · intro unset draws g
      obtain ⟨k, drawn⟩ := bodyLcNonce_draws (n := 0) hb unset draws
      have step := congrArg (Host.Outcome.next (φ := Fault) (ρ := Refusal)) (run.trans drawn)
      change _ = Host.Outcome.next (done t (g.1.take 32) { b with
        ctrs := k, keep := { b.keep with chipNonce := some (g.1.take 32), drbg1 := g.2 } }) at step
      clear_value g
      obtain ⟨u, exec, completed, bare, -⟩ := hb.finishes step rfl rfl rfl rfl rfl hb.now
      exact ⟨u, exec, completed, bare.trans (congrArg (fun u : State => ({ u with
        keep := { u.keep with chipNonce := some (g.1.take 32), drbg1 := g.2 } } : State)) hb.bare)⟩
  · intro q e rc inp s starts
    obtain ⟨t, b, run, hb⟩ := takeCmd_begins (body := bodyLcStatus) (rc := rc) (inp := inp) starts (by decide)
    have status : lcStatus b = lcStatus s := hb.bareOf lcStatus fun _ => rfl
    obtain ⟨u, exec, completed, bare, -⟩ := hb.finishes (congrArg Host.Outcome.next (run.trans (by rw [bodyLcStatus, status]))) rfl rfl rfl rfl rfl hb.now
    exact ⟨u, exec, completed, bare.trans hb.bare⟩
  · intro q e rc inp s starts m h payer r en access room parsed authority signed fits entry
    obtain ⟨t, b, run, hb⟩ := takeCmd_begins (body := bodyLcTransition) (rc := rc) (inp := inp) starts (by decide)
    exact ⟨t, b, hb, congrArg Host.Outcome.next (run.trans (bodyLcTransition_starts hb access room parsed signed fits authority entry)), rfl⟩
  · intro q e rc inp s starts m h payer r access room parsed authority signed fits
    obtain ⟨t, b, run, hb⟩ := takeCmd_begins (body := bodyDebugOpen) (rc := rc) (inp := inp) starts (by decide)
    exact ⟨t, b, hb, congrArg Host.Outcome.next (run.trans (bodyDebugOpen_opens hb access room parsed signed fits authority)), rfl⟩

/-! ### The life-cycle rows (12 R382 to R390, R393) -/

theorem eraseKeep_only (s : State) : (eraseKeep s).keys = s.keys ∧ (eraseKeep s).objs = [] ∧ (eraseKeep s).aon = s.aon := by
  unfold eraseKeep
  extract_lets noLease w
  obtain ⟨m, l, h, erased⟩ := onEvery_only noLease s
  have keys : w.keys = s.keys := by rw [show w = _ from erased]
  have aon : w.aon = s.aon := by rw [show w = _ from erased]
  clear_value w
  exact ⟨keys, rfl, aon⟩

theorem eraseStreams_rest (s : State) : (eraseStreams s).keys = s.keys ∧ (eraseStreams s).aon = s.aon := ⟨rfl, rfl⟩

theorem eraseVrt_rest {s : State} (empty : s.keys = []) : (eraseVrt s).keys = [] ∧ (eraseVrt s).aon = s.aon := by
  refine ⟨?_, rfl⟩
  rw [eraseVrt, empty]
  rfl

theorem eraseScratch_rest (s : State) : (eraseScratch s).keys = s.keys ∧ (eraseScratch s).aon = s.aon := ⟨rfl, rfl⟩

theorem eraseKeys_only (s : State) : (eraseKeys s).keys = [] ∧ (eraseKeys s).aon = s.aon := ⟨rfl, rfl⟩

/-- The erasures of a wipe before the keep's memory, from the keys to the streams. -/
theorem erasures_only (s : State) : let t := eraseStreams (eraseVrt (eraseScratch (eraseVault (eraseKeys s))))
    t.keys = [] ∧ t.aon = { s.aon with vault := [], vaultKey := 0, vaultAt := none } := by
  obtain ⟨keys₀, aon₀⟩ := eraseKeys_only s
  generalize eraseKeys s = a at keys₀ aon₀
  have aon₁ : (eraseVault a).aon = { s.aon with vault := [], vaultKey := 0, vaultAt := none } := by rw [eraseVault, aon₀]
  have keys₁ : (eraseVault a).keys = [] := keys₀
  generalize eraseVault a = b at keys₁ aon₁
  obtain ⟨keys₂, aon₂⟩ := eraseScratch_rest b
  generalize eraseScratch b = c at keys₂ aon₂
  obtain ⟨keys₃, aon₃⟩ := eraseVrt_rest (keys₂.trans keys₁)
  generalize eraseVrt c = d at keys₃ aon₃
  obtain ⟨keys₄, aon₄⟩ := eraseStreams_rest d
  exact ⟨keys₄.trans keys₃, aon₄.trans (aon₃.trans (aon₂.trans aon₁))⟩

theorem eraseMemCaches_rest (s : State) : (eraseMemCaches s).keys = s.keys ∧ (eraseMemCaches s).objs = s.objs ∧ (eraseMemCaches s).aon = s.aon :=
  ⟨rfl, rfl, rfl⟩

/-- A wipe leaves no key, no object and no vault. -/
theorem wipe_only (caches : Bool) (s : State) : (wipe caches s).keys = [] ∧ (wipe caches s).objs = [] ∧
    (wipe caches s).aon = { s.aon with vault := [], vaultKey := 0, vaultAt := none } := by
  obtain ⟨keys₀, aon₀⟩ := erasures_only s
  unfold wipe
  generalize eraseStreams (eraseVrt (eraseScratch (eraseVault (eraseKeys s)))) = a at keys₀ aon₀
  obtain ⟨keys, objs, aon⟩ := eraseKeep_only a
  dsimp only
  generalize eraseKeep a = w at keys objs aon
  cases caches with
  | false => exact ⟨keys.trans keys₀, objs, aon.trans aon₀⟩
  | true =>
    obtain ⟨keys', objs', aon'⟩ := eraseMemCaches_rest w
    exact ⟨keys'.trans (keys.trans keys₀), objs'.trans objs, aon'.trans (aon.trans aon₀)⟩

/-- The entry in progress once the wipe and the burns of its edge are done. -/
def sequenced (en : Nat) (s : State) : State :=
  let a := burnEntry en 0x20 (wipe true s)
  burnEntry en 0x40 (burnEntry en (BitVec.ofNat 64 (s.aon.target % 16 * 2 ^ 12)) { a with aon := edgeFuses (lcCode a.aon) s.aon.target a.aon })

theorem lcSequence_burns {ok : Bool} {en : Nat} {v : BitVec 64} (phase : s.aon.phase = 6) (tries : s.aon.retries < 4)
    (busy : inProgress s.aon = some (en, v)) :
    let b := sequenced en s
    let same := ((tget 0 b.aon.progress en).extractLsb' 12 4).toNat == s.aon.target
    lcSequence ok s = if ok && same then coldReset 1 (burnEntry en 0x80 b) else { b with aon := { b.aon with retries := b.aon.retries + 1 } } := by
  have may : ¬(s.aon.phase ≠ 6 ∨ 4 ≤ s.aon.retries) := fun h => h.elim (fun other => other phase) (Nat.not_le.mpr tries)
  simp only [lcSequence, if_neg may, busy]
  rfl

/-- The first open of a memory-test segment wipes the block and closes every station. -/
theorem testSession_opens {seg : Nat} (up : s.aon.phase = 1 ∨ s.aon.phase = 7) (first : s.aon.testSession = false)
    (opens : segmentOpens (lcCode s.aon) seg = true) : let t := testSession seg s
    t.aon.testSession = true ∧ t.keep.portsOpen = false ∧ t.keys = [] ∧ t.objs = [] ∧ ∀ u ∈ stationIds, (t.port u).opened = false := by
  have may : ¬(¬(s.aon.phase = 1 ∨ s.aon.phase = 7) ∨ s.aon.testSession = true ∨ (!segmentOpens (lcCode s.aon) seg) = true) := by
    rw [first, opens]
    rintro (down | h | h)
    · exact down up
    · exact Bool.false_ne_true h
    · exact Bool.false_ne_true h
  obtain ⟨keys, objs, -⟩ := wipe_only true { s with flt := { s.flt with blockSafe := true } }
  rw [testSession, if_neg may]
  generalize wipe true { s with flt := { s.flt with blockSafe := true } } = w at keys objs
  have ports := onEvery_port (fun p => { p with opened := false }) w
  obtain ⟨m, l, h, closed⟩ := onEvery_only (fun p => { p with opened := false }) w
  dsimp only
  generalize onEveryPort (fun p => { p with opened := false }) w = v at ports closed ⊢
  have vKeys : v.keys = [] := by rw [closed]; exact keys
  have vObjs : v.objs = [] := by rw [closed]; exact objs
  exact ⟨rfl, rfl, vKeys, vObjs, fun u hu => congrArg Port.opened (ports u hu)⟩

theorem testSession_stays {seg : Nat} (no : s.aon.testSession = true ∨ segmentOpens (lcCode s.aon) seg = false) : testSession seg s = s :=
  if_pos (.inr (no.imp_right fun h => by rw [h]; rfl))

section
variable {idx : BitVec 4} {token : BitVec 256}

/-- The digest under which a token of the part stands. -/
def tokenDigest (s : State) (token : BitVec 256) : Bytes := (sha384 (ascii "yk3 token" ++ fit 32 s.aon.ueid ++ le 32 token.toNat)).take 32

theorem tapToken_tried (up : s.aon.phase = 1 ∨ s.aon.phase = 7) (state : lcCode s.aon = 1 ∨ lcCode s.aon = 5) (few : s.aon.tokenFails < 3) :
    tapToken idx token s = if s.aon.tokens[idx.toNat]? == some (tokenDigest s token) && !s.aon.tokensUsed.getLsbD idx.toNat then
        wipe true { s with aon := { s.aon with tokensUsed := s.aon.tokensUsed ||| (1#16 <<< idx.toNat), testFrom := some (lcCode s.aon) } }
      else { s with aon := { s.aon with tokenFails := s.aon.tokenFails + 1 } } := by
  refine if_neg ?_
  rintro (down | other | many)
  · exact down up
  · exact other state
  · omega

theorem tapToken_blocked (many : 3 ≤ s.aon.tokenFails) : tapToken idx token s = s := if_pos (.inr (.inr many))

end

/-- What the port does with the outcome of a request's checks. -/
def tapTaken (r : Option (LcReq × Nat)) (s : State) : State :=
  match r with
  | some (r, e) => lcHold r.target (lcStep1 r e s)
  | none => s

section
variable {bytes : Bytes} (up : tapUp s.aon = true) (state : lcCode s.aon = 1 ∨ lcCode s.aon = 5)
include up state

theorem tapRequest_checks {code : Nat} {r : Option (LcReq × Nat)} {u : State}
    (whole : ((bytes.drop 4).take (ofLe (cut 0 4 bytes))).length = ofLe (cut 0 4 bytes))
    (checked : lcCheck 2 ((bytes.drop 4).take (ofLe (cut 0 4 bytes))) (scratchOut false ((bytes.drop 4).take (ofLe (cut 0 4 bytes))) s) = (code, r, u)) :
    tapRequest bytes s = tapTaken r (emit (.data (le 2 code)) u) := by
  have may : ¬((!tapUp s.aon) = true ∨ ¬(lcCode s.aon = 1 ∨ lcCode s.aon = 5)) := by
    rw [up]
    exact fun h => h.elim Bool.false_ne_true fun other => other state
  have long : ¬ ((bytes.drop 4).take (ofLe (cut 0 4 bytes))).length < ofLe (cut 0 4 bytes) := by omega
  simp only [tapRequest, if_neg may, if_neg long, checked]
  rfl

theorem tapRequest_short (short : ((bytes.drop 4).take (ofLe (cut 0 4 bytes))).length < ofLe (cut 0 4 bytes)) :
    tapRequest bytes s = emit (.data (le 2 0x0B)) s := by
  have may : ¬((!tapUp s.aon) = true ∨ ¬(lcCode s.aon = 1 ∨ lcCode s.aon = 5)) := by
    rw [up]
    exact fun h => h.elim Bool.false_ne_true fun other => other state
  simp only [tapRequest, if_neg may, if_pos short]
  rfl

end

theorem repairBurn_burns {r : BitVec 32} {columns : Nat} (session : s.aon.testSession = true) (inside : recColumn r < columns)
    (room : s.aon.repairs.length < 4096)
    (free : (s.aon.repairs.any fun x => recValid x && recMacro x == recMacro r && recSpare x == recSpare r) = false) :
    repairBurn r columns s = { s with aon := { s.aon with repairs := s.aon.repairs ++ [r &&& 0xFFF0FFFF] } } := by
  simp only [repairBurn, session, free, Nat.not_le.mpr inside, Nat.not_le.mpr room, Bool.not_true, Bool.false_eq_true, or_self, if_false]

/-- Settles O57, by a lemma per row and case. -/
theorem lifeCycleRowsAct : Obligations.LifeCycleRowsAct := by
  refine ⟨?_, fun seg s up first opens => ⟨_, rfl, testSession_opens up first opens⟩,
    fun seg s no => congrArg Host.Outcome.next (testSession_stays no), ?_, ?_,
    fun r columns s session inside room free => congrArg Host.Outcome.next (repairBurn_burns session inside room free)⟩
  · intro ok s en v phase tries busy t a b same
    have run := lcSequence_burns (ok := ok) phase tries busy
    exact ⟨fun good => congrArg Host.Outcome.next (run.trans (if_pos good)),
      fun bad => congrArg Host.Outcome.next (run.trans (if_neg (by
        rw [show (ok && ((tget 0 (sequenced en s).aon.progress en).extractLsb' 12 4).toNat == s.aon.target) = false from bad]
        exact Bool.false_ne_true)))⟩
  · intro idx token s up state d
    refine ⟨fun few known fresh => ?_, fun few bad => ?_, fun many => congrArg Host.Outcome.next (tapToken_blocked many)⟩
    · have good : (s.aon.tokens[idx.toNat]? == some (tokenDigest s token) && !s.aon.tokensUsed.getLsbD idx.toNat) = true := by
        rw [known, fresh]
        exact Bool.and_eq_true_iff.mpr ⟨beq_self_eq_true _, rfl⟩
      obtain ⟨keys, objs, aon⟩ := wipe_only true { s with aon := { s.aon with
        tokensUsed := s.aon.tokensUsed ||| (1#16 <<< idx.toNat), testFrom := some (lcCode s.aon) } }
      exact ⟨_, congrArg Host.Outcome.next ((tapToken_tried up state few).trans (if_pos good)), congrArg Aon.tokensUsed aon,
        congrArg Aon.testFrom aon, keys, objs⟩
    · have wrong : ¬(s.aon.tokens[idx.toNat]? == some (tokenDigest s token) && !s.aon.tokensUsed.getLsbD idx.toNat) = true := by
        rw [Bool.and_eq_true, beq_iff_eq]
        rintro ⟨known, fresh⟩
        rcases bad with other | used
        · exact other known
        · rw [used] at fresh
          exact Bool.false_ne_true fresh
      exact congrArg Host.Outcome.next ((tapToken_tried up state few).trans (if_neg wrong))
  · intro bytes s up state m req
    exact ⟨fun r en u whole checked => congrArg Host.Outcome.next (tapRequest_checks up state whole checked),
      fun code u whole checked => congrArg Host.Outcome.next (tapRequest_checks up state whole checked),
      fun short => congrArg Host.Outcome.next (tapRequest_short up state short)⟩

end Sys2Proof.Machine
end

section
/-! PROOF of O59. Dump triggers, trace drains, profile boundaries, ring offsets and the flash log. -/

namespace Sys2Proof.Machine
open Sys2Proof Sys2Proof.Crypto

variable {s : State}

/-! ### Dumps (11 R367, R368) -/

theorem triggerRow_acts {k : Nat} (free : s.aon.lockdown = false) (cause : triggerCause s k = true) :
    triggerRow k s = settleDump (if s.dump.armed == some k then s else dumpTrigger k s) := by
  simp only [triggerRow, free, cause, Bool.not_true, Bool.or_self, Bool.false_eq_true, if_false]

theorem triggerRow_stays {k : Nat} (no : s.aon.lockdown = true ∨ triggerCause s k = false) : triggerRow k s = s := by
  refine if_pos ?_
  rcases no with locked | none_
  · rw [locked, Bool.true_or]
  · rw [none_, Bool.not_false, Bool.or_true]

theorem sourceTimeout_left_out {u : Nat} (ring : s.dump.ring.isSome = true) (unit : isUnit u = true)
    (first : s.dump.unreachable.contains u = false) :
    sourceTimeout u s = { s with dump := { s.dump with unreachable := u :: s.dump.unreachable } } := by
  simp only [sourceTimeout, ring, unit, first, Bool.not_false, Bool.and_self, if_true]

/-! ### Traces, profiles and rings (13 R407, R411, R414) -/

theorem traceDrain_drains {src : Nat} (live : s.keepLive = true)
    (due : 512 ≤ (tget [] s.trace.bufs src).length ∨ ∃ r ∈ (tget [] s.trace.bufs src).head?, r.1 + Config.ms 1 ≤ s.now) :
    let buf := tget [] s.trace.bufs src
    let recs := (buf.take 512).map (·.2)
    let seq := tget 0 s.trace.drains src
    traceDrain src s = each ((List.range 256).filter fun p => recs.any fun r => ofLe (cut 1 1 r) == p)
      (fun p b => traceBlock src seq p (recs.filter fun r => ofLe (cut 1 1 r) == p) b) { s with trace := { s.trace with
        bufs := tset s.trace.bufs src (buf.drop 512), drains := tset s.trace.drains src (seq + 1) } } := by
  cases h : (tget [] s.trace.bufs src).head? with
  | none =>
    rw [h] at due
    have empty := List.head?_eq_none_iff.mp h
    rw [empty] at due
    rcases due with full | ⟨r, mem, -⟩
    · exact absurd full (by decide)
    · exact absurd mem (by simp)
  | some r =>
    have now : (decide (512 ≤ (tget [] s.trace.bufs src).length) || decide (r.1 + Config.ms 1 ≤ s.now)) = true := by
      rw [h] at due
      rw [Bool.or_eq_true, decide_eq_true_eq, decide_eq_true_eq]
      refine due.imp_right fun ⟨x, mem, old⟩ => ?_
      rw [Option.mem_some.mp mem]
      exact old
    simp only [traceDrain, h, live, now, Bool.not_true, Bool.or_self, Bool.false_eq_true, if_false]

theorem idleBoundary_ends {set w : Nat} (ended : (tget ({} : Prof) s.profs set).doneAt = some w) (last : (tget ({} : Prof) s.profs set).next = none)
    (bound : (tget ({} : Prof) s.profs set).seq.isSome = true) (due : w + Config.us 100 ≤ s.now) : idleBoundary set s = boundary set 1 s := by
  simp only [idleBoundary, ended]
  exact if_pos ⟨by rw [last]; rfl, bound, due⟩

/-- An operation at each of a list that changes nothing at any of its members. -/
theorem each_idle {α : Type} {l : List α} {f : α → State → State} (idle : ∀ a ∈ l, f a s = s) : each l f s = s :=
  each_inv_mem (fun w => w = s) l f (fun a w mem same => by rw [same, idle a mem]) s rfl

/-- An owner that has nothing waiting for the ring moves its read offset. -/
theorem ringAdvance_moves {h off : Nat} {r : Ring} (known : tfind s.rings (handleIdx h) = some r) (low : 64 ≤ off) (inside : off < r.size)
    (doms : ∀ d ∈ s.doms, d.2.ring = handleIdx h → d.2.outq = []) (migs : ∀ m ∈ s.migs, m.2.ring = handleIdx h → m.2.outq = []) :
    let b := { s with rings := tset s.rings (handleIdx h) { r with roff := off } }
    ringAdvance h off s = if s.meter.ring = some (handleIdx h) then drainBacklog b else b := by
  have valid : ¬(off < 64 ∨ r.size ≤ off) := by omega
  generalize hb : ({ s with rings := tset s.rings (handleIdx h) { r with roff := off } } : State) = b
  have ofMigs : b.migs = s.migs := by rw [← hb]
  have ofMeter : b.meter = s.meter := by rw [← hb]
  have first : each s.doms (fun d s => if d.2.ring = handleIdx h ∧ !d.2.outq.isEmpty then
      each d.2.outq (fun b s => outDom d.1 b s) (s.onDom d.1 fun d => { d with outq := [] }) else s) b = b := by
    refine each_idle fun d mem => if_neg fun ⟨ring, waits⟩ => ?_
    rw [doms d mem ring] at waits
    exact Bool.false_ne_true waits
  have second : each b.migs (fun m s => if m.2.ring = handleIdx h ∧ !m.2.outq.isEmpty then
      each m.2.outq (fun b s => outMig m.1 b s) { s with migs := tupd {} s.migs m.1 fun m => { m with outq := [] } } else s) b = b := by
    refine each_idle fun m mem => if_neg fun ⟨ring, waits⟩ => ?_
    rw [migs m (ofMigs ▸ mem) ring] at waits
    exact Bool.false_ne_true waits
  simp only [ringAdvance, known, if_neg valid, hb, first, second, ofMeter]

/-! ### The flash log (14 R448) -/

/-- The oldest queued entry goes to the newest sector, which has room for more than one. -/
theorem logWrite_writes {en : Bytes} {rest : List Bytes} {i : Nat} {x : Sector} (queued : s.flash.queue = en :: rest)
    (newest : s.flash.sectors.getLast? = some (i, x)) (found : tfind s.flash.sectors i = some x) (open_ : x.closed = none)
    (room : x.entries.length < 766) :
    logWrite s = { s with flash := { s.flash with
      queue := rest, logSeq := s.flash.logSeq + 1,
      sectors := tupd {} s.flash.sectors i fun x => { x with entries := x.entries ++ [le 8 s.flash.logSeq ++ en] } } } := by
  have unfilled : x.entries.length < 767 := by omega
  have stays : ¬ 767 ≤ (tget ({} : Sector) (tupd {} s.flash.sectors i fun x => { x with entries := x.entries ++ [le 8 s.flash.logSeq ++ en] }) i).entries.length := by
    rw [tget_tupd_same, tget, found]
    simp only [Option.getD_some, List.length_append, List.length_singleton]
    omega
  simp only [logWrite, queued, newest, open_, unfilled, Option.isSome_none, Bool.false_eq_true, if_false, if_true, logAdd, Option.map_some,
    Option.getD_some, if_neg stays]

/-- Settles O59, by a lemma per row and case. -/
theorem dumpTraceProfileAndLogRowsAct : Obligations.DumpTraceProfileAndLogRowsAct := by
  refine ⟨fun k s free cause => ?_, fun k s no => congrArg Host.Outcome.next (triggerRow_stays no),
    fun u s ring unit first => congrArg Host.Outcome.next (sourceTimeout_left_out ring unit first), ?_,
    fun set s more => congrArg Host.Outcome.next (if_pos more), fun set s last => congrArg Host.Outcome.next (if_neg ?_), ?_, ?_,
    fun s en rest i x live queued newest found open_ room =>
      congrArg Host.Outcome.next ((if_pos live).trans (logWrite_writes queued newest found open_ room))⟩
  · have acts := triggerRow_acts free cause
    exact ⟨fun armed => congrArg Host.Outcome.next (acts.trans (by rw [armed, beq_self_eq_true, if_pos rfl])),
      fun other => congrArg Host.Outcome.next (acts.trans (by rw [beq_eq_false_iff_ne.mpr other, if_neg Bool.false_ne_true]))⟩
  · intro src s buf recs seq own live due
    exact congrArg Host.Outcome.next (traceDrain_drains live due)
  · rw [last]
    exact Bool.false_ne_true
  · intro set s w p ended last bound due
    exact congrArg Host.Outcome.next (idleBoundary_ends ended last bound due)
  · intro ring off s r known low inside doms migs b
    exact congrArg Host.Outcome.next (ringAdvance_moves known low inside doms migs)

end Sys2Proof.Machine
end

section
/-! PROOF of O21 and O28. KEY_QUERY and RANDOM_GET, EVIDENCE_GET and IDENTITY_GET. -/

namespace Sys2Proof.Machine
open Sys2Proof Sys2Proof.Crypto

variable {q n : Nat} {e : BitVec 1024} {inp : Bytes} {s b c : State} {t : Taken}

/-! ### KEY_QUERY and RANDOM_GET (06 R187, R217, Table 6.10) -/

section
variable (hb : Began q e inp s t b) (known : opnd e 0 2 < 16384)
include hb known

theorem bodyKeyQuery_operator (host : (s.ctx (s.queue q).ctx).device = false) (operator : (s.ctx (s.queue q).ctx).part = 0xFF) :
    bodyKeyQuery t n inp b = done t (le 8 (attrWord (s.key (opnd e 0 2))).toNat ++ zeros 16) b := by
  simp only [bodyKeyQuery, hb.te, hb.key_eq, hb.ctxOf, hb.ctx_eq, if_neg (Nat.not_le.mpr known), host, operator, Bool.false_eq_true, true_or,
    if_true, if_false]

theorem bodyKeyQuery_owner (device : (s.ctx (s.queue q).ctx).device = true) (used : (s.key (opnd e 0 2)).state ≠ 0)
    (tenant : (s.key (opnd e 0 2)).keepOwn = false) (mine : (s.key (opnd e 0 2)).owner = (s.ctx (s.queue q).ctx).part)
    (written : (s.key (opnd e 0 2)).first = false) (both : (s.key (opnd e 0 2)).pendIs ≠ 0) :
    bodyKeyQuery t n inp b = done t (le 8 (attrWord (s.key (opnd e 0 2))).toNat ++ kcv (s.key (opnd e 0 2)).cur ++ kcv (s.key (opnd e 0 2)).pend) b := by
  have owned : (s.key (opnd e 0 2)).state ≠ 0 ∧ (!(s.key (opnd e 0 2)).keepOwn) = true ∧
      (s.key (opnd e 0 2)).owner = (s.ctx (s.queue q).ctx).part := ⟨used, by rw [tenant]; rfl, mine⟩
  simp only [bodyKeyQuery, hb.te, hb.key_eq, hb.ctxOf, hb.ctx_eq, if_neg (Nat.not_le.mpr known), device, if_pos owned, written, if_neg both,
    Bool.false_eq_true, if_true, if_false]

end

/-- An object that a command may write before it draws, it may write after. -/
theorem writeOut_drawn {part h off : Nat} {x : Bytes} {keep : Keep} {k : Tab Counters} (hb : Began q e inp s t b)
    (room : MeterFits s part 4 x.length) : writeOut part h off x { b with ctrs := k, keep := keep } =
      emit (.objWrite h off x) { b.metered part 4 x.length with ctrs := k, keep := keep } := by
  have roomB : MeterFits b part 4 x.length := room.began hb
  rw [writeOut_ok (s := { b with ctrs := k, keep := keep }) roomB]
  rfl

theorem bodyRandomGet_writes (hb : Began q e inp s t b) (some_ : 1 ≤ opnd e 10 2) (few : opnd e 10 2 ≤ 4096) (draws : canDraw s 1 = true)
    (access : objAccess s (accPart s { q := q } (opnd e 0 4)) (opnd e 0 4) (opnd e 4 5) (opnd e 10 2) true = 0)
    (room : MeterFits s (accPart s { q := q } (opnd e 0 4)) 4 (opnd e 10 2)) :
    let n := opnd e 10 2
    let drawn := drbgMany ((n + 31) / 32) s.keep.drbg1
    (drawn.1.take n).length = n ∧ ∃ k, bodyRandomGet t 0 inp b = done t [] (emit (.objWrite (opnd e 0 4) (opnd e 4 5) (drawn.1.take n))
      { b.metered (accPart s { q := q } (opnd e 0 4)) 4 n with ctrs := k, keep := { b.keep with drbg1 := drawn.2 } }) := by
  intro n drawn
  have length : (drawn.1.take n).length = n := by
    rw [List.length_take, drbgMany_len]
    omega
  obtain ⟨k, run⟩ := drawBytes_at n b
  rw [hb.drbg1] at run
  change drawBytes n b = (drawn.1.take n, { b with ctrs := k, keep := { b.keep with drbg1 := drawn.2 } }) at run
  clear_value drawn
  refine ⟨length, k, ?_⟩
  have valid : ¬(opnd e 10 2 = 0 ∨ 4096 < opnd e 10 2) := by omega
  have wrote := writeOut_drawn (h := opnd e 0 4) (off := opnd e 4 5) (x := drawn.1.take n) (k := k) (keep := { b.keep with drbg1 := drawn.2 }) hb
    (part := accPart s { q := q } (opnd e 0 4)) (by rw [length]; exact room)
  rw [length] at wrote
  simp only [bodyRandomGet, hb.te, hb.accPart, hb.access, access, if_neg valid, hb.canDraw, draws, Bool.not_true, Bool.false_eq_true, ne_eq,
    not_true_eq_false, if_false]
  rw [show drawBytes (opnd e 10 2) b = _ from run]
  dsimp only
  rw [wrote]

/-- Settles O21: each command's body on the state in which it begins. -/
theorem keyQueryAndRandomGetAnswer : Obligations.KeyQueryAndRandomGetAnswer := by
  refine ⟨?_, ?_⟩
  · intro q e rc inp s starts i k c known
    obtain ⟨t, b, run, hb⟩ := takeCmd_begins (body := bodyKeyQuery) (rc := rc) (inp := inp) starts (by decide)
    refine ⟨fun host operator => ?_, fun device used tenant mine written both => ?_⟩
    · obtain ⟨u, exec, completed, bare, -⟩ := hb.finishes (congrArg Host.Outcome.next (run.trans (bodyKeyQuery_operator hb known host operator)))
        rfl rfl rfl rfl rfl hb.now
      exact ⟨u, exec, completed, bare.trans hb.bare⟩
    · obtain ⟨u, exec, completed, bare, -⟩ := hb.finishes (congrArg Host.Outcome.next
        (run.trans (bodyKeyQuery_owner hb known device used tenant mine written both))) rfl rfl rfl rfl rfl hb.now
      exact ⟨u, exec, completed, bare.trans hb.bare⟩
  · intro q e rc inp s starts n h part drawn some_ few draws access room
    obtain ⟨t, b, run, hb⟩ := takeCmd_begins (body := bodyRandomGet) (rc := rc) (inp := inp) starts (by decide)
    obtain ⟨length, k, writes⟩ := bodyRandomGet_writes hb some_ few draws access room
    change bodyRandomGet t 0 inp b = done t [] (emit (.objWrite h (opnd e 4 5) (drawn.1.take n))
      { b.metered part 4 n with ctrs := k, keep := { b.keep with drbg1 := drawn.2 } }) at writes
    change (drawn.1.take n).length = n at length
    clear_value drawn
    obtain ⟨u, exec, completed, bare, emitted⟩ := hb.finishes (congrArg Host.Outcome.next (run.trans writes)) rfl rfl rfl rfl rfl hb.now
    refine ⟨u, exec, completed, length, emitted _ (List.mem_cons_self ..), bare.trans ?_⟩
    exact congrArg (fun u : State => ({ u with keep := { u.keep with drbg1 := drawn.2 } } : State)) (hb.metered part 4 n).bare

/-! ### EVIDENCE_GET and IDENTITY_GET (07 R225 to R228) -/

/-- The bundle of a started command is the one of the state before it. -/
theorem Began.zeler (hb : Began q e inp s t b) (part : Nat) (nonce : Bytes) : ∃ k, zeler part nonce b = ((Machine.zeler part nonce s).1, { b with
    ctrs := k, keep := { b.keep with
      scratch := (Machine.zeler part nonce s).2.keep.scratch, drbg1 := (drbgMany 2 (drbgMany 1 s.keep.drbg1).2).2 } }) := by
  have claim : claims b part nonce = claims s part nonce := hb.bareOf (fun s => claims s part nonce) fun _ => rfl
  have chain : chainOf b = chainOf s := hb.bareOf chainOf fun _ => rfl
  have endorse : b.keep.endorse = s.keep.endorse := (congrArg Keep.endorse hb.keepOf :)
  have ek : b.ek = s.ek := hb.bareOf State.ek fun _ => rfl
  have scratch : (scratchOut false (claims s part nonce) b).keep.scratch = (scratchOut false (claims s part nonce) s).keep.scratch :=
    hb.bareOf (fun u => (scratchOut false (claims s part nonce) u).keep.scratch) fun u => by
      unfold scratchOut
      dsimp only
      split <;> rfl
  obtain ⟨k, ofB⟩ := zeler_at part nonce b
  obtain ⟨k', ofS⟩ := zeler_at part nonce s
  refine ⟨k, ?_⟩
  rw [ofB, ofS, claim, chain, endorse, ek, scratch, hb.drbg1]

section
variable (hb : Began q e inp s t b) (may : (s.ctx (s.queue q).ctx).part = 0xFF ∨ opnd e 0 1 = (s.ctx (s.queue q).ctx).part)
  (used : opnd e 0 1 = 0xFF ∨ (s.part (opnd e 0 1)).state ≠ 0) (long : 32 ≤ opnd e 1 1) (short : opnd e 1 1 ≤ 64) (draws : canDraw s 1 = true)
include hb may used long short draws

theorem bodyEvidenceGet_writes {z : Bytes × State} (bundle : zeler (opnd e 0 1) ((opBytes e 16 64).take (opnd e 1 1)) s = z)
    (access : objAccess s (accPart s { q := q } (opnd e 4 4)) (opnd e 4 4) (opnd e 8 5) z.1.length true = 0)
    (room : MeterFits s (accPart s { q := q } (opnd e 4 4)) 4 z.1.length) :
    ∃ k, bodyEvidenceGet t n inp b = done t (le 4 z.1.length) (emit (.objWrite (opnd e 4 4) (opnd e 8 5) z.1)
      { b.metered (accPart s { q := q } (opnd e 4 4)) 4 z.1.length with
        ctrs := k, keep := { b.keep with scratch := z.2.keep.scratch, drbg1 := (drbgMany 2 (drbgMany 1 s.keep.drbg1).2).2 } }) := by
  obtain ⟨k, made⟩ := hb.zeler (opnd e 0 1) ((opBytes e 16 64).take (opnd e 1 1))
  rw [bundle] at made
  generalize (drbgMany 2 (drbgMany 1 s.keep.drbg1).2).2 = d at made ⊢
  refine ⟨k, ?_⟩
  have allowed : ¬(((s.ctx (s.queue q).ctx).part ≠ 0xFF ∧ opnd e 0 1 ≠ (s.ctx (s.queue q).ctx).part) ∨
      (opnd e 0 1 ≠ 0xFF ∧ (s.part (opnd e 0 1)).state = 0)) := by
    rintro (⟨a, c⟩ | ⟨a, c⟩)
    · exact may.elim a c
    · exact used.elim a fun live => live c
  have nonce : ¬(opnd e 1 1 < 32 ∨ 64 < opnd e 1 1) := by omega
  have accessB : objAccess { b with ctrs := k, keep := { b.keep with scratch := z.2.keep.scratch, drbg1 := d } }
      (accPart s { q := q } (opnd e 4 4)) (opnd e 4 4) (opnd e 8 5) z.1.length true = 0 := (hb.access ..).trans access
  simp only [bodyEvidenceGet, hb.te, hb.partOf, hb.part_eq, if_neg allowed, if_neg nonce, hb.canDraw, draws, made, Bool.not_true, Bool.false_eq_true,
    if_false]
  rw [show accPart { b with ctrs := k, keep := { b.keep with scratch := z.2.keep.scratch, drbg1 := d } } t (opnd e 4 4) = _ from hb.accPart (opnd e 4 4),
    putObj, accessB]
  exact congrArg (done t (le 4 z.1.length)) (writeOut_drawn hb room)

end

theorem bodyEvidenceGet_denied (hb : Began q e inp s t b) (tenant : (s.ctx (s.queue q).ctx).part ≠ 0xFF)
    (other : opnd e 0 1 ≠ (s.ctx (s.queue q).ctx).part) : bodyEvidenceGet t n inp b = failCmd t 0x10 b := by
  simp only [bodyEvidenceGet, hb.te, hb.partOf]
  exact if_pos (.inl ⟨tenant, other⟩)

theorem bodyIdentityGet_writes (hb : Began q e inp s t b)
    (access : objAccess s (accPart s { q := q } (opnd e 0 4)) (opnd e 0 4) (opnd e 4 5) (chainOf s).flatten.length true = 0)
    (room : MeterFits s (accPart s { q := q } (opnd e 0 4)) 4 (chainOf s).flatten.length) :
    bodyIdentityGet t n inp b = done t (fit 32 s.aon.ueid ++ le 4 (chainOf s).flatten.length)
      (emit (.objWrite (opnd e 0 4) (opnd e 4 5) (chainOf s).flatten)
        (b.metered (accPart s { q := q } (opnd e 0 4)) 4 (chainOf s).flatten.length)) := by
  have chain : chainOf b = chainOf s := hb.bareOf chainOf fun _ => rfl
  simp only [bodyIdentityGet, hb.te, chain, hb.accPart, hb.aon]
  rw [hb.writes access room]

/-- IDENTITY_GET's certificate chain is the one in flash, once it has been checked. -/
theorem chainOf_flatten (s : State) : (chainOf s).flatten = if s.keep.chainOk then s.flash.certs.flatten else [] := by
  unfold chainOf
  split <;> rfl

/-- Settles O28: each command's body on the state in which it begins. -/
theorem evidenceAndIdentityAreWritten : Obligations.EvidenceAndIdentityAreWritten := by
  refine ⟨?_, ?_, ?_⟩
  · intro q e rc inp s starts part n h own z payer may used long short draws access room
    obtain ⟨t, b, run, hb⟩ := takeCmd_begins (body := bodyEvidenceGet) (rc := rc) (inp := inp) starts (by decide)
    obtain ⟨k, writes⟩ := bodyEvidenceGet_writes (n := 0) (z := z) hb may used long short draws rfl access room
    clear_value z
    generalize (drbgMany 2 (drbgMany 1 s.keep.drbg1).2).2 = d at writes ⊢
    obtain ⟨u, exec, completed, bare, emitted⟩ := hb.finishes (congrArg Host.Outcome.next (run.trans writes)) rfl rfl rfl rfl rfl hb.now
    refine ⟨u, exec, completed, emitted _ (List.mem_cons_self ..), bare.trans ?_⟩
    exact congrArg (fun u : State => ({ u with keep := { u.keep with scratch := z.2.keep.scratch, drbg1 := d } } : State))
      (hb.metered payer 4 z.1.length).bare
  · intro q e rc inp s starts part own tenant other
    obtain ⟨t, b, run, hb⟩ := takeCmd_begins (body := bodyEvidenceGet) (rc := rc) (inp := inp) starts (by decide)
    have opcode : envOpcode t.e ≠ 0x0410 := by
      rw [hb.te, envOpcode_of_step1 starts.2.2.2.2.2.1]
      decide
    obtain ⟨answered, bare⟩ := hb.refused (c := b) (t' := t) (code := 0x10) (by decide) rfl hb.now rfl rfl rfl opcode
    exact ⟨_, congrArg Host.Outcome.next (run.trans (bodyEvidenceGet_denied hb tenant other)), answered, bare.trans hb.bare⟩
  · intro q e rc inp s starts h chain payer access room
    have same : chain = (chainOf s).flatten := (chainOf_flatten s).symm
    clear_value chain
    subst same
    obtain ⟨t, b, run, hb⟩ := takeCmd_begins (body := bodyIdentityGet) (rc := rc) (inp := inp) starts (by decide)
    obtain ⟨u, exec, completed, bare, emitted⟩ := hb.finishes (congrArg Host.Outcome.next (run.trans (bodyIdentityGet_writes hb access room)))
      rfl rfl rfl rfl rfl hb.now
    exact ⟨u, exec, completed, emitted _ (List.mem_cons_self ..), bare.trans (hb.metered payer 4 _).bare⟩

end Sys2Proof.Machine
end

section
/-! PROOF of O20. Keys: creation, import, rotation, retirement of the previous half, and destruction. -/

namespace Sys2Proof.Machine
open Sys2Proof Sys2Proof.Crypto

variable {q n : Nat} {e : BitVec 1024} {inp : Bytes} {s b : State} {t : Taken}

/-! ### A first key (06 R201, R202) -/

/-- A slot of a tenant's partition with its first key, over one of generation `gen`. -/
def tenantKey (cls owner gen : Nat) (k : BitVec 256) : KeySlot := { state := 1, cls := cls, owner := owner, gen := gen + 1, cur := k }

theorem firstKey_installs (i cls owner : Nat) (k : BitVec 256) (s : State) :
    firstKey i cls owner false k s = { s with keys := tset s.keys i (tenantKey cls owner (s.key i).gen k) } := rfl

/-- The result of a key that has just been installed. -/
theorem keyResult_firstKey (i cls owner : Nat) (k : BitVec 256) (s : State) :
    keyResult (firstKey i cls owner false k s) i = le 2 i ++ le 4 ((s.key i).gen + 1) ++ kcv k := by
  have own : (firstKey i cls owner false k s).key i = tenantKey cls owner (s.key i).gen k := tget_tset_same ..
  rw [keyResult, own]
  rfl

theorem takeKey_of_good {f : State → State} (good : s.keep.verifyBad = false) : takeKey t f s = f s := by
  rw [takeKey, good, if_neg Bool.false_ne_true]

theorem creatable_of {cls : Nat} (h : cls = 9 ∨ cls = 0xA ∨ cls = 0xC) : creatable cls = true := by
  rcases h with rfl | rfl | rfl <;> rfl

theorem freeSlot_began (hb : Began q e inp s t b) (own : Bool) : freeSlot b own = freeSlot s own := by
  simp only [freeSlot, hb.key_eq]

theorem bodyKeyCreate_installs {i : Nat} (hb : Began q e inp s t b) (cls : opnd e 0 1 = 9 ∨ opnd e 0 1 = 0xA ∨ opnd e 0 1 = 0xC)
    (free : freeSlot s false = some i) (draws : canDraw s 0 = true) (good : s.keep.verifyBad = false) :
    ∃ k, bodyKeyCreate t n inp b = done t (le 2 i ++ le 4 ((s.key i).gen + 1) ++ kcv (drbgGen s.keep.drbg0).1)
      { b with
        keep := { b.keep with drbg0 := (drbgGen s.keep.drbg0).2 }
        ctrs := k
        keys := tset s.keys i (tenantKey (opnd e 0 1) (s.ctx (s.queue q).ctx).part (s.key i).gen (drbgGen s.keep.drbg0).1) } := by
  obtain ⟨k, drawn⟩ := draw0_eq b
  rw [hb.drbg0] at drawn
  refine ⟨k, ?_⟩
  simp only [bodyKeyCreate, hb.te, creatable_of cls, freeSlot_began hb, free, hb.canDraw, draws, Bool.not_true, Bool.false_eq_true, if_false, drawn]
  generalize drbgGen s.keep.drbg0 = g
  rw [← hb.partOf, ← hb.key_eq, ← hb.keys, takeKey_of_good, keyResult_firstKey, firstKey_installs]
  · rfl
  · exact hb.verifyBad.trans good

theorem owns_of (hb : Began q e inp s t b) {i : Nat} (device : (s.ctx (s.queue q).ctx).device = true) (keep : (s.key i).keepOwn = false)
    (owner : (s.key i).owner = (s.ctx (s.queue q).ctx).part)
    (cls : (s.key i).cls = 9 ∨ (s.key i).cls = 0xA ∨ (s.key i).cls = 0xB ∨ (s.key i).cls = 0xC) (used : (s.key i).state ≠ 0) :
    ownsSlot b t i = true := by
  have tenant : isTenantCls (s.key i).cls = true := by rcases cls with h | h | h | h <;> rw [h] <;> rfl
  simp [ownsSlot, hb.key_eq, hb.ctxOf, hb.ctx_eq, hb.partOf, device, keep, owner, used, tenant]

theorem bodyKeyImport_installs {i : Nat} {key : Bytes} (hb : Began q e inp s t b) (owns : ownsSlot b t (opnd e 0 2) = true)
    (wrap : (s.key (opnd e 0 2)).cls = 0xA) (kept : (s.key (opnd e 0 2)).state ≠ 6)
    (cls : opnd e 2 1 = 9 ∨ opnd e 2 1 = 0xA ∨ opnd e 2 1 = 0xC)
    (payer : accPart s { q := q } (opnd e 4 4) = (s.ctx (s.queue q).ctx).part)
    (access : objAccess s (s.ctx (s.queue q).ctx).part (opnd e 4 4) (opnd e 8 5) 40 false = 0)
    (unwraps : kwUnwrap (s.key (opnd e 0 2)).cur (fit 40 inp) = some key) (free : freeSlot s false = some i)
    (room : MeterFits s (s.ctx (s.queue q).ctx).part 5 40) (good : s.keep.verifyBad = false) :
    bodyKeyImport t 0 inp b = done t (le 2 i ++ le 4 ((s.key i).gen + 1) ++ kcv (keyOf key))
      { b.metered (s.ctx (s.queue q).ctx).part 5 40 with
        keys := tset s.keys i (tenantKey (opnd e 2 1) (s.ctx (s.queue q).ctx).part (s.key i).gen (keyOf key)) } := by
  simp only [bodyKeyImport, hb.te, hb.key_eq, owns, wrap, creatable_of cls, Bool.not_true, Bool.false_eq_true, ne_eq, not_true_eq_false, or_self,
    if_false, if_neg kept]
  rw [hb.reads payer access room]
  have paid := hb.metered (s.ctx (s.queue q).ctx).part 5 40
  simp only [unwraps, Option.orElse_some, freeSlot_began paid, show freeSlot (s.metered _ 5 40) false = some i from free]
  rw [takeKey_of_good (paid.verifyBad.trans good), keyResult_firstKey, firstKey_installs, paid.key_eq, paid.keys, paid.partOf]
  rfl

/-! ### Rotation and the previous half (06 R203 to R205) -/

/-- A tenant slot one generation on: the new key in force, the old one in the other half (06 Table 6.5). -/
def rotatedKey (k : KeySlot) (x : BitVec 256) : KeySlot :=
  { k with state := 5, pend := k.cur, pendIs := 2, cur := x, gen := k.gen + 1, inv := 0, warned := false, waitSwap := [] }

theorem holders_tenant {cls : Nat} (h : cls = 9 ∨ cls = 0xA ∨ cls = 0xB ∨ cls = 0xC) : holders cls = [] := by
  rcases h with rfl | rfl | rfl | rfl <;> decide

/-- A tenant slot's rotation: the next key joins the slot and is committed at once, as no station holds the class. -/
theorem rotated_key {i : Nat} {x : BitVec 256} {s : State} (alone : holders (s.key i).cls = []) :
    commitSwap i (s.onKey i (writeNext x)) = { s with keys := tset s.keys i (rotatedKey (s.key i) x) } := by
  have next : rotatedKey (s.key i) x = { s.key i with
      state := 5, cur := x, pend := (s.key i).cur, pendIs := 2, gen := (s.key i).gen + 1, inv := 0, warned := false
      waitSwap := holders (s.key i).cls } := by
    rw [alone]
    rfl
  rw [next]
  simp only [commitSwap, State.onKey, tupd, tset_tset, tget_tset_same]
  rfl

theorem bodyKeyRotate_rotates {i : Nat} (hb : Began q e inp s t b) (slot : opnd e 0 2 = i) (owns : ownsSlot b t i = true)
    (tenant : (s.key i).cls = 9 ∨ (s.key i).cls = 0xA ∨ (s.key i).cls = 0xB ∨ (s.key i).cls = 0xC) (active : (s.key i).state = 1)
    (draws : canDraw s 0 = true) (good : s.keep.verifyBad = false) :
    ∃ k, bodyKeyRotate t n inp b = done t (le 4 ((s.key i).gen + 1) ++ kcv (drbgGen s.keep.drbg0).1)
      { b with
        keep := { b.keep with drbg0 := (drbgGen s.keep.drbg0).2 }
        ctrs := k
        keys := tset s.keys i (rotatedKey (s.key i) (drbgGen s.keep.drbg0).1) } := by
  obtain ⟨k, drawn⟩ := draw0_eq b
  rw [hb.drbg0] at drawn
  refine ⟨k, ?_⟩
  have region : (s.key i).cls ≠ 1 := by rcases tenant with h | h | h | h <;> rw [h] <;> decide
  simp only [bodyKeyRotate, hb.te, slot, hb.key_eq, region, owns, active, hb.canDraw, draws, drawn, Bool.not_true, Bool.false_eq_true, ne_eq,
    not_true_eq_false, false_and, if_false, Nat.reduceEqDiff]
  generalize drbgGen s.keep.drbg0 = g
  rw [takeKey_of_good, rotated_key, ← hb.key_eq, ← hb.keys]
  · congr 2
    exact congrArg (fun k : KeySlot => le 4 k.gen) (tget_tset_same ..)
  · exact (congrArg (fun k : KeySlot => holders k.cls) (hb.key_eq i)).trans (holders_tenant tenant)
  · exact hb.verifyBad.trans good

/-- A Draining slot without its previous half. -/
def withoutPrevious (k : KeySlot) : KeySlot := { k with state := 1, pend := 0, pendIs := 0, purging := 0, waitPurge := [], waitSwap := [] }

theorem overwrite_previous {i : Nat} {s : State} (purging : (s.key i).purging = 2) (kept : (s.key i).state ≠ 6) :
    ∃ entry, overwrite i s =
      { s with keys := tset s.keys i (withoutPrevious (s.key i)), flash := { s.flash with queue := s.flash.queue ++ [entry] } } := by
  have gens : purgedGens (s.key i) = [(s.key i).gen - 1] := by rw [purgedGens, if_pos purging]
  have gone : withoutPrevious (s.key i) = if (s.key i).purging = 2
      then { s.key i with state := if (s.key i).state = 6 then 6 else 1, pend := 0, pendIs := 0, purging := 0, waitPurge := [], waitSwap := [] }
      else { state := 0, gen := (s.key i).gen } := by
    rw [if_pos purging, if_neg kept]
    rfl
  rw [gone]
  simp only [overwrite, gens]
  exact ⟨_, rfl⟩

theorem afterDestroy_idle {i : Nat} {s : State} (used : (s.key i).state ≠ 0) (idle : runningWith s 0x0602 i = []) : afterDestroy i s = s := by
  simp only [afterDestroy, if_neg used, idle]
  rfl

/-- The purge of a previous half that no station holds is over at once. -/
theorem startPurge_previous {i : Nat} {s : State} (alone : holders (s.key i).cls = []) (draining : (s.key i).state = 5)
    (idle : runningWith s 0x0602 i = []) :
    ∃ keys entry, startPurge i 2 s = { s with keys := keys, flash := { s.flash with queue := s.flash.queue ++ [entry] } } ∧
      tget {} keys i = withoutPrevious (s.key i) := by
  have own : (s.onKey i (·.purged 2)).key i = (s.key i).purged 2 := key_onKey ..
  have unheld : ((s.key i).purged 2).waitPurge = [] := by simp [KeySlot.purged, alone]
  have kept : ((s.key i).purged 2).state ≠ 6 := by
    show (s.key i).state ≠ 6
    omega
  obtain ⟨entry, gone⟩ := overwrite_previous (i := i) (s := s.onKey i (·.purged 2)) (by rw [own]; rfl) (by rw [own]; exact kept)
  have run : startPurge i 2 s = afterDestroy i (overwrite i (s.onKey i (·.purged 2))) := by
    refine if_pos ?_
    show ((s.onKey i (·.purged 2)).key i).waitPurge.isEmpty = true
    rw [own, unheld]
    rfl
  rw [run, gone, own, afterDestroy_idle]
  · exact ⟨_, entry, rfl, tget_tset_same ..⟩
  · exact fun h => absurd ((congrArg KeySlot.state (tget_tset_same ..)).symm.trans h) (by decide : (1 : Nat) ≠ 0)
  · exact idle

theorem runningWith_began (hb : Began q e inp s t b) {op i : Nat} (other : envOpcode e ≠ op) (alone : ∀ x ∈ s.taken, envOpcode x.e ≠ op) :
    runningWith b op i = [] := by
  rw [runningWith, hb.taken, List.filter_eq_nil_iff]
  intro x mem
  have opcode : envOpcode x.e ≠ op := by
    rcases List.mem_append.mp mem with old | new
    · exact alone x old
    · rw [List.mem_singleton.mp new, hb.te]
      exact other
  simp [opcode]

theorem bodyKeyRetirePrevious_purges {i : Nat} (hb : Began q e inp s t b) (slot : opnd e 0 2 = i) (owns : ownsSlot b t i = true)
    (draining : (s.key i).state = 5) : bodyKeyRetirePrevious t n inp b = done t [] (startPurge i 2 b) := by
  simp only [bodyKeyRetirePrevious, hb.te, slot, owns, hb.key_eq, draining, Bool.not_true, Bool.false_eq_true, ne_eq, not_true_eq_false, or_self,
    if_false]

theorem bodyKeyDestroy_retires {i : Nat} (hb : Began q e inp s t b) (slot : opnd e 0 2 = i) (owns : ownsSlot b t i = true)
    (kept : (s.key i).state ≠ 6) : bodyKeyDestroy t n inp b = keepRunning t i (retireSlot i (Config.ms 2) b) := by
  simp only [bodyKeyDestroy, hb.te, slot, owns, hb.key_eq, if_neg kept, Bool.not_true, Bool.false_eq_true, if_false]

/-- Retiring a slot that is in use and not yet Retiring tells the stations over the keepway. -/
theorem retireSlot_issues {i limit : Nat} {s : State} (used : (s.key i).state ≠ 0) (kept : (s.key i).state ≠ 6) :
    retireSlot i limit s = { s with keys := (retireSlot i limit s).keys, keepway := s.keepway ++ [(s.now, 2, i)] } := by
  rw [retireSlot, if_neg (not_or_intro used kept)]
  rfl

/-- Settles O20: each command's body on the state in which it begins. -/
theorem keysAreCreatedRotatedAndDestroyed : Obligations.KeysAreCreatedRotatedAndDestroyed := by
  refine ⟨?_, ?_, ?_⟩
  · intro q e rc inp s starts cls drawn i class_ free draws good k
    obtain ⟨t, b, run, hb⟩ := takeCmd_begins (body := bodyKeyCreate) (rc := rc) (inp := inp) starts (by decide)
    obtain ⟨c, does⟩ := bodyKeyCreate_installs (n := 0) hb class_ free draws good
    change bodyKeyCreate t 0 inp b = done t (le 2 i ++ le 4 k.gen ++ kcv drawn.1)
      { b with keep := { b.keep with drbg0 := drawn.2 }, ctrs := c, keys := tset s.keys i k } at does
    clear_value drawn
    obtain ⟨u, exec, completed, bare, -⟩ := hb.finishes (congrArg Host.Outcome.next (run.trans does)) rfl rfl rfl rfl rfl hb.now
    have all := bare.trans (congrArg (fun u : State => ({ u with keys := tset s.keys i k, keep := { u.keep with drbg0 := drawn.2 } } : State)) hb.bare)
    exact ⟨u, exec, completed, (congrArg (fun u : State => u.key i) all).trans (tget_tset_same ..), all⟩
  · intro q e rc inp s starts w cls c i key device keep owner used kept wrap class_ payer access unwraps free room good k
    obtain ⟨t, b, run, hb⟩ := takeCmd_begins (body := bodyKeyImport) (rc := rc) (inp := inp) starts (by decide)
    obtain ⟨u, exec, completed, bare, -⟩ := hb.finishes (congrArg Host.Outcome.next (run.trans
      (bodyKeyImport_installs hb (owns_of hb device keep owner (.inr (.inl wrap)) used) wrap kept class_ payer access unwraps free room good)))
      rfl rfl rfl rfl rfl hb.now
    have all := bare.trans (congrArg (fun u : State => ({ u with keys := tset s.keys i k } : State)) (hb.metered c.part 5 40).bare)
    exact ⟨u, exec, completed, (congrArg (fun u : State => u.key i) all).trans (tget_tset_same ..), all⟩
  · intro q e rc inp s i k c device keep owner tenant
    refine ⟨?_, fun starts draining alone => ?_, fun starts used kept => ?_⟩
    · intro starts active draws good drawn
      obtain ⟨t, b, run, hb⟩ := takeCmd_begins (body := bodyKeyRotate) (rc := rc) (inp := inp) starts (by decide)
      have owns := owns_of hb device keep owner tenant (by show k.state ≠ 0; omega)
      obtain ⟨w, does⟩ := bodyKeyRotate_rotates (n := 0) hb rfl owns tenant active draws good
      change bodyKeyRotate t 0 inp b = done t (le 4 (k.gen + 1) ++ kcv drawn.1)
        { b with keep := { b.keep with drbg0 := drawn.2 }, ctrs := w, keys := tset s.keys i (rotatedKey k drawn.1) } at does
      clear_value drawn
      obtain ⟨u, exec, completed, bare, -⟩ := hb.finishes (congrArg Host.Outcome.next (run.trans does)) rfl rfl rfl rfl rfl hb.now
      exact ⟨u, exec, completed, bare.trans (congrArg (fun u : State =>
        ({ u with keep := { u.keep with drbg0 := drawn.2 }, keys := tset s.keys i (rotatedKey k drawn.1) } : State)) hb.bare)⟩
    · obtain ⟨t, b, run, hb⟩ := takeCmd_begins (body := bodyKeyRetirePrevious) (rc := rc) (inp := inp) starts (by decide)
      have owns := owns_of hb device keep owner tenant (by show k.state ≠ 0; omega)
      have opcode : envOpcode e ≠ 0x0602 := by
        rw [envOpcode_of_step1 starts.2.2.2.2.2.1]
        decide
      obtain ⟨keys, entry, purged, gone⟩ := startPurge_previous (i := i) (s := b) (by rw [hb.key_eq]; exact holders_tenant tenant)
        (by rw [hb.key_eq]; exact draining) (runningWith_began hb opcode alone)
      rw [hb.key_eq] at gone
      have does := (bodyKeyRetirePrevious_purges (n := 0) hb rfl owns draining).trans (congrArg (done t []) purged)
      obtain ⟨u, exec, completed, bare, -⟩ := hb.finishes (congrArg Host.Outcome.next (run.trans does)) rfl rfl rfl rfl rfl hb.now
      have all := bare.trans (congrArg (fun u : State =>
        ({ u with keys := keys, flash := { u.flash with queue := u.flash.queue ++ [entry] } } : State)) hb.bare)
      have same : u.keys = keys := congrArg (fun u : State => u.keys) all
      have log : u.flash.queue = s.flash.queue ++ [entry] := congrArg (fun u : State => u.flash.queue) all
      refine ⟨u, exec, completed, (congrArg (fun t : Tab KeySlot => tget ({} : KeySlot) t i) same).trans gone, ⟨entry, log⟩, ?_⟩
      rw [all, same, log]
      rfl
    · obtain ⟨t, b, run, hb⟩ := takeCmd_begins (body := bodyKeyDestroy) (rc := rc) (inp := inp) starts (by decide)
      have owns := owns_of hb device keep owner tenant used
      have does := bodyKeyDestroy_retires (n := 0) hb rfl owns kept
      have keys (j : Nat) : (keepRunning t i (retireSlot i (Config.ms 2) b)).key j = _ := retire_at i (Config.ms 2) j b
      simp only [hb.key_eq, hb.now] at keys
      have issued := retireSlot_issues (limit := Config.ms 2) (by rw [hb.key_eq]; exact used) (by rw [hb.key_eq]; exact kept)
      refine ⟨_, congrArg Host.Outcome.next (run.trans does), hb.runs i ?_ ?_ ?_, ?_, ?_, ?_, fun j other => ?_, ?_⟩
      · rw [issued]
      · rw [issued]
      · rw [issued]
      · rw [keys, if_pos ⟨rfl, used, kept⟩]
      · rw [keys, if_pos ⟨rfl, used, kept⟩]
      · rw [keys, if_pos ⟨rfl, used, kept⟩]
      · rw [keys, if_neg fun h => other h.1]
      · refine (keepRunning_bare ..).trans ((congrArg State.bare issued).trans ?_)
        rw [hb.now]
        exact congrArg (fun u : State => ({ u with keys := (retireSlot i (Config.ms 2) b).keys, keepway := u.keepway ++ [(s.now, 2, i)] } : State)) hb.bare

end Sys2Proof.Machine
end

section
/-! PROOF of O29. DOMAIN_CREATE: the anchor, its two first keys and the offers of admission. -/

namespace Sys2Proof.Machine
open Sys2Proof Sys2Proof.Crypto

variable {q : Nat} {e : BitVec 1024} {inp : Bytes} {s b : State} {t : Taken}

/-- The record of the anchor of a domain of `n` devices that is formed at `now` (07 R236, R238). -/
def anchorDom (dom n ring i j now : Nat) (pol : Bytes) (d : Dom) : Dom where
  attach := d.attach
  portMap := d.portMap
  msgNum := d.msgNum
  state := 4
  domain := dom
  own := 0
  n := n
  digest := sha384 pol
  policy := pol
  ring := ring
  anchor := 0
  deputy := 1
  memberGen := 1
  jobSlot := i
  ckptSlot := j
  keyIndex := i
  formAt := some now
  beatTx := now
  count := 1

/-- The ring open and the keys `k` and `k'` in their slots: what a domain's creation does before its record is written. -/
def keysInPlace (part ring kib i j : Nat) (k k' : BitVec 256) (s : State) : State :=
  openRing ring kib ((s.onKey i fun _ => firstOf part 3 k).onKey j fun _ => firstOf part 4 k')

/-- The state in which the domain stands, its keys drawn and its ring open. -/
def domainMade (part dom n ring kib i j : Nat) (pol : Bytes) (s : State) : State :=
  let u := keysInPlace part ring kib i j (draw0 s).1 (draw0 (draw0 s).2).1 (draw0 (draw0 s).2).2
  u.onDom part (anchorDom dom n ring i j u.now pol)

/-- All that a domain's creation changes outside the driver interface. -/
theorem domainMade_bare {part dom n ring kib i j : Nat} {pol : Bytes} {s : State} {job ckpt : BitVec 256 × Drbg}
    (first : drbgGen s.keep.drbg0 = job) (second : drbgGen job.2 = ckpt) : (domainMade part dom n ring kib i j pol s).bare =
    { s.bare with
      keep := { s.bare.keep with drbg0 := ckpt.2 }
      keys := tset (tset s.keys i (firstOf part 3 job.1)) j (firstOf part 4 ckpt.1)
      rings := tset s.rings ring { handle := ring, size := 1024 * kib }
      doms := tset s.doms part (anchorDom dom n ring i j s.now pol (s.dom part)) } := by
  obtain ⟨k, made⟩ := createKeys ring kib part i j s
  rw [first, second] at made
  rw [domainMade, keysInPlace, made]
  rfl

theorem nextSlot_began (hb : Began q e inp s t b) (i : Nat) : nextSlot b i = nextSlot s i := by
  simp only [nextSlot, hb.key_eq]

theorem bodyDomainCreate_makes {i j : Nat} (hb : Began q e inp s t b) (named : opnd e 0 3 ≠ 0) (part : opnd e 3 1 ≠ 0xFF)
    (live : (s.part (opnd e 3 1)).state = 1) (fresh : (s.dom (opnd e 3 1)).state = 0) (two : 2 ≤ opnd e 4 3) (most : opnd e 4 3 ≤ 262144)
    (given : opnd e 8 4 ≠ 0) (some_ : 1 ≤ opnd e 12 2) (fits : opnd e 12 2 ≤ 1024) (ring : ringBad b (opnd e 16 4) (opnd e 20 4) = 0)
    (access : objAccess s (accPart s { q := q } (opnd e 8 4)) (opnd e 8 4) 0 (opnd e 12 2) false = 0)
    (room : MeterFits s (accPart s { q := q } (opnd e 8 4)) 5 (opnd e 12 2)) (policy : (readPolicy (fit (opnd e 12 2) inp)).isSome)
    (first : freeSlot s false = some i) (second : nextSlot s i = some j) (draws : canDraw s 0 = true) (good : s.keep.verifyBad = false) :
    bodyDomainCreate t 0 inp b = done t (sha384 (fit (opnd e 12 2) inp)) (each (treeKids (opnd e 4 3) 0) (fun k s => offerTo (opnd e 3 1) k false s)
      (bindJob (opnd e 3 1) (domainMade (opnd e 3 1) (opnd e 0 3) (opnd e 4 3) (handleIdx (opnd e 16 4)) (opnd e 20 4) i j
        (fit (opnd e 12 2) inp) (b.metered (accPart s { q := q } (opnd e 8 4)) 5 (opnd e 12 2))))) := by
  have known : ¬(readPolicy (fit (opnd e 12 2) inp)).isNone = true := by simp [Option.isSome_iff_ne_none.mp policy]
  have paid := hb.metered (accPart s { q := q } (opnd e 8 4)) 5 (opnd e 12 2)
  simp only [bodyDomainCreate, hb.te, hb.part_eq, hb.dom_eq, live, fresh, ring, named, part, given, ne_eq, not_true_eq_false, or_self, if_false,
    Nat.not_lt.mpr two, Nat.not_lt.mpr most, Nat.not_lt.mpr fits, Nat.ne_of_gt some_]
  rw [hb.reads rfl access room]
  simp only [if_neg known, freeSlot_began paid, nextSlot_began paid, show freeSlot (s.metered _ 5 _) false = some i from first,
    show nextSlot (s.metered _ 5 _) i = some j from second, paid.canDraw, show canDraw (s.metered _ 5 _) 0 = true from draws, paid.verifyBad,
    show (s.metered _ 5 _).keep.verifyBad = false from good, Bool.not_true, Bool.false_eq_true, if_false]
  rw [domainMade]
  generalize draw0 (b.metered (accPart s { q := q } (opnd e 8 4)) 5 (opnd e 12 2)) = g
  generalize draw0 g.2 = g'
  rfl

/-- Settles O29: the body on the state in which the command begins. -/
theorem domainCreateMakesTheAnchorAndOffersAdmission : Obligations.DomainCreateMakesTheAnchorAndOffersAdmission := by
  intro q e rc inp s starts dom part n p len ring kib pol d i j named unit live fresh two most given some_ fits handle alive one room payer jobKey
    ckptKey access paid policy first second draws good firstKeyOf d'
  obtain ⟨t, b, run, hb⟩ := takeCmd_begins (body := bodyDomainCreate) (rc := rc) (inp := inp) starts (by decide)
  have makes := bodyDomainCreate_makes hb named unit live fresh two most given some_ fits (hb.ring handle alive one room) access paid policy first
    second draws good
  have job : drbgGen (b.metered payer 5 len).keep.drbg0 = jobKey := congrArg drbgGen hb.drbg0
  have ckpt : drbgGen jobKey.2 = ckptKey := rfl
  clear_value ckptKey jobKey
  refine ⟨t, _, hb.tq, hb.tseq, hb.tidx, hb.te, congrArg Host.Outcome.next (run.trans makes), (domainMade_bare job ckpt).trans ?_⟩
  have charged := hb.metered payer 5 len
  have keys : (b.metered payer 5 len).keys = s.keys := charged.keys
  have rings : (b.metered payer 5 len).rings = s.rings := charged.rings
  have doms : (b.metered payer 5 len).doms = s.doms := charged.doms
  have own : (b.metered payer 5 len).dom part = d := charged.dom_eq part
  have now : (b.metered payer 5 len).now = s.now := charged.now
  rw [keys, rings, doms, own, now]
  exact congrArg (fun u : State => ({ u with
    keep := { u.keep with drbg0 := ckptKey.2 }
    keys := tset (tset s.keys i (firstOf part 3 jobKey.1)) j (firstOf part 4 ckptKey.1)
    rings := tset s.rings (handleIdx ring) { handle := handleIdx ring, size := 1024 * kib }
    doms := tset s.doms part (anchorDom dom n (handleIdx ring) i j s.now pol d) } : State)) charged.bare

end Sys2Proof.Machine
end

section
/-! PROOF of O39. HANDOFF_OFFER, HANDOFF_LANDING, HANDOFF_ABANDON and METER_CONFIG. -/

namespace Sys2Proof.Machine
open Sys2Proof Sys2Proof.Crypto

variable {q n : Nat} {e : BitVec 1024} {inp : Bytes} {s b : State} {t : Taken}

/-! ### Handoffs (08 R268 to R272) -/

theorem offerBad_began (hb : Began q e inp s t b) (oi dev : Nat) : offerBad b oi dev = offerBad s oi dev := by
  simp only [offerBad, hb.obj_eq, hb.dom_eq, hb.key_eq, hb.handoffs]

/-- An offer that has just been started: its record, and its region frozen and told to the stations. -/
def offerStarted (oi dev : Nat) (s : State) : State :=
  { s with
    handoffs := s.handoffs ++ [{ offerer := true, peer := dev, num := s.nextHandoff.toNat, part := (s.obj oi).part, obj := oi
                                 tiles := (s.obj oi).tiles, lastAt := s.now }]
    nextHandoff := s.nextHandoff + 1
    objs := tset s.objs oi { s.obj oi with frozen := true, refs := (s.obj oi).refs + 1 }
    keepway := s.keepway ++ [(s.now, 1, oi)] }

theorem bodyHandoffOffer_starts (hb : Began q e inp s t b) (good : offerBad s (handleIdx (opnd e 0 4)) (opnd e 4 3) = 0)
    (still : (s.obj (handleIdx (opnd e 0 4))).rekey = none) : bodyHandoffOffer t n inp b =
      keepRunning t (s.nextHandoff.toNat + 1) (offerStarted (handleIdx (opnd e 0 4)) (opnd e 4 3) b) := by
  simp only [bodyHandoffOffer, beginOffer, hb.te, offerBad_began hb, good, ne_eq, not_true_eq_false, if_false, hb.obj_eq, still, Option.isSome_none,
    Bool.false_eq_true, ← hb.nextHandoff]
  simp only [← hb.obj_eq]
  rfl

theorem bodyHandoffLanding_registers (hb : Began q e inp s t b)
    (lines : (s.obj (handleIdx (opnd e 0 4))).cls = 2 ∨ (s.obj (handleIdx (opnd e 0 4))).cls = 3)
    (formed : (s.dom (s.obj (handleIdx (opnd e 0 4))).part).state = 4) (fresh : (s.obj (handleIdx (opnd e 0 4))).written = false)
    (room : (s.obj (handleIdx (opnd e 0 4))).landing = true ∨ (s.objs.filter fun x => x.2.landing).length < 256) :
    bodyHandoffLanding t n inp b = done t [] (b.onObj (handleIdx (opnd e 0 4)) fun o => { o with landing := true }) := by
  have placed : ¬((s.obj (handleIdx (opnd e 0 4))).cls ≠ 2 ∧ (s.obj (handleIdx (opnd e 0 4))).cls ≠ 3) := by omega
  have quota : ¬((!(s.obj (handleIdx (opnd e 0 4))).landing) = true ∧ 256 ≤ (s.objs.filter fun x => x.2.landing).length) := by
    rintro ⟨other, full⟩
    rcases room with landing | few
    · rw [landing] at other
      exact Bool.false_ne_true other
    · omega
  simp only [bodyHandoffLanding, hb.te, hb.obj_eq, hb.dom_eq, hb.objs, formed, fresh, placed, if_neg quota, ne_eq, not_true_eq_false,
    Bool.false_eq_true, or_self, if_false]

theorem bodyHandoffAbandon_found {h : Handoff} (hb : Began q e inp s t b)
    (found : (s.handoffs.find? fun h => h.num == opnd e 4 4 && (if h.offerer then (s.dom h.part).own == opnd e 0 3 else h.peer == opnd e 0 3)) = some h) :
    bodyHandoffAbandon t n inp b = done t (le 1 (if h.offerer = false then 4 else if h.state = 4 then 4 else 5)) (abandonHandoff 0x11 h b) := by
  simp only [bodyHandoffAbandon, hb.te, hb.handoffs, hb.dom_eq, found]
  cases h.offerer <;> rfl

/-! ### The meter (08 R289, R291) -/

theorem bodyMeterConfig_ready (hb : Began q e inp s t b) (given : opnd e 0 4 ≠ 0) (live : handleLive s (opnd e 0 4) = true)
    (plain : (s.obj (handleIdx (opnd e 0 4))).cls = 4) (operator : (s.obj (handleIdx (opnd e 0 4))).part = 0xFF) (least : 64 ≤ opnd e 4 4)
    (most : opnd e 4 4 ≤ (s.obj (handleIdx (opnd e 0 4))).tiles * 8)
    (session : opnd e 8 4 = 0 ∨ (sessionUp s (opnd e 8 4) = true ∧ meterBusy s = false)) : bodyMeterConfig t n inp b = meterConfig t b := by
  have up : ¬(opnd e 8 4 ≠ 0 ∧ (!sessionUp b (opnd e 8 4)) = true) := by
    rintro ⟨some_, down⟩
    obtain ⟨up, -⟩ := session.resolve_left some_
    rw [sessionUp, hb.host, ← sessionUp, up] at down
    exact Bool.false_ne_true down
  have idle : ¬(opnd e 8 4 ≠ 0 ∧ meterBusy b = true) := by
    rintro ⟨some_, busy⟩
    obtain ⟨-, idle⟩ := session.resolve_left some_
    simp only [meterBusy, hb.meter, hb.key_eq] at busy
    exact Bool.false_ne_true (idle.symm.trans busy)
  simp only [bodyMeterConfig, hb.te, hb.obj_eq, hb.live, live, given, plain, operator, Nat.not_lt.mpr least, Nat.not_lt.mpr most, if_neg up, if_neg idle,
    Bool.not_true, Bool.false_eq_true, ne_eq, not_true_eq_false, or_self, if_false]

theorem meterConfig_ring (hb : Began q e inp s t b) (alone : opnd e 8 4 = 0) :
    meterConfig t b = done t (le 4 (meterGen (nameRing (opnd e 0 4) (opnd e 4 4) b))) (nameRing (opnd e 0 4) (opnd e 4 4) b) := by
  simp only [meterConfig, hb.te, alone, if_true]

/-- A slot in which the next key has been committed, the old one kept in the other half until every holder has swapped. -/
def swappedKey (k : KeySlot) (x : BitVec 256) : KeySlot :=
  { k with state := 5, cur := x, pend := k.cur, pendIs := 2, gen := k.gen + 1, inv := 0, warned := false, waitSwap := holders k.cls }

theorem commitSwap_writeNext (i : Nat) (x : BitVec 256) (s : State) :
    commitSwap i (s.onKey i (writeNext x)) = { s with keys := tset s.keys i (swappedKey (s.key i) x) } := by
  simp only [commitSwap, State.onKey, tupd, tset_tset, tget_tset_same]
  rfl

theorem meterConfig_rekeys {i : Nat} {k : Bytes} (hb : Began q e inp s t b) (session : opnd e 8 4 ≠ 0) (slot : s.meter.slot = some i)
    (good : s.keep.verifyBad = false)
    (unwraps : kwUnwrap (keyOf (hkdfExpand (Config.spdmExport (opnd e 8 4) (tget {} s.host.spdm (opnd e 8 4)).fresh) (ascii "yk3 meter key") 32))
      (opBytes e 16 40) = some k) :
    meterConfig t b = done t (le 4 (meterGen (nameRing (opnd e 0 4) (opnd e 4 4) { b with keys := tset s.keys i (swappedKey (s.key i) (keyOf k)) })))
      (nameRing (opnd e 0 4) (opnd e 4 4) { b with keys := tset s.keys i (swappedKey (s.key i) (keyOf k)) }) := by
  rw [← hb.host] at unwraps
  rw [← hb.meter] at slot
  simp only [meterConfig, hb.te, if_neg session, unwraps]
  rw [takeKey_of_good (hb.verifyBad.trans good)]
  simp only [installMeterKey, slot]
  rw [commitSwap_writeNext, hb.keys, hb.key_eq]

/-- Settles O39: each command's body on the state in which it begins. -/
theorem handoffAndMeterCommandsRun : Obligations.HandoffAndMeterCommandsRun := by
  refine ⟨?_, ?_, ?_, ?_⟩
  · intro q e rc inp s starts oi dev o num good still
    obtain ⟨t, b, run, hb⟩ := takeCmd_begins (body := bodyHandoffOffer) (rc := rc) (inp := inp) starts (by decide)
    refine ⟨_, congrArg Host.Outcome.next (run.trans (bodyHandoffOffer_starts hb good still)), hb.runs _ rfl rfl rfl, (keepRunning_bare ..).trans ?_⟩
    exact congrArg (offerStarted oi dev) hb.bare
  · intro q e rc inp s starts oi o lines formed fresh room
    obtain ⟨t, b, run, hb⟩ := takeCmd_begins (body := bodyHandoffLanding) (rc := rc) (inp := inp) starts (by decide)
    obtain ⟨u, exec, completed, bare, -⟩ := hb.finishes (congrArg Host.Outcome.next (run.trans (bodyHandoffLanding_registers hb lines formed fresh room)))
      rfl rfl rfl rfl rfl hb.now
    exact ⟨u, exec, completed, bare.trans (congrArg (fun u : State => u.onObj oi fun o => { o with landing := true }) hb.bare)⟩
  · intro q e rc inp s starts num dev h found
    obtain ⟨t, b, run, hb⟩ := takeCmd_begins (body := bodyHandoffAbandon) (rc := rc) (inp := inp) starts (by decide)
    exact ⟨t, b, hb, congrArg Host.Outcome.next (run.trans (bodyHandoffAbandon_found hb found))⟩
  · intro q e rc inp s starts h kib sess o given live plain operator least most
    obtain ⟨t, b, run, hb⟩ := takeCmd_begins (body := bodyMeterConfig) (rc := rc) (inp := inp) starts (by decide)
    have ready (session) := run.trans (bodyMeterConfig_ready hb given live plain operator least most session)
    exact ⟨fun alone => ⟨t, b, hb, congrArg Host.Outcome.next ((ready (.inl alone)).trans (meterConfig_ring hb alone))⟩,
      fun i k session up idle slot good unwraps => ⟨t, b, hb,
        congrArg Host.Outcome.next ((ready (.inr ⟨up, idle⟩)).trans (meterConfig_rekeys hb session slot good unwraps))⟩⟩

end Sys2Proof.Machine
end

section
/-! PROOF of O55. DUMP_CONFIG, DUMP_START, IMAGE_UPDATE, IMAGE_STATUS and LOG_READ. -/

namespace Sys2Proof.Machine
open Sys2Proof Sys2Proof.Crypto

variable {q n : Nat} {e : BitVec 1024} {inp : Bytes} {s b : State} {t : Taken}

/-! ### The dump ring (11 R367, R370, R374) -/

/-- The dump ring as DUMP_CONFIG opens it. -/
def dumpNamed (ring kib mask flags : Nat) (ek : Bytes) (s : State) : State :=
  { s with
    rings := tset s.rings ring { handle := ring, size := 1024 * kib }
    out := .ring ring 0 (le 8 64 ++ le 8 64 ++ le 8 (1024 * kib) ++ zeros 40) :: s.out
    dump := { s.dump with ring := some ring, ek := ek, mask := BitVec.ofNat 8 mask, flags := BitVec.ofNat 8 flags } }

theorem bodyDumpConfig_names (hb : Began q e inp s t b) (given : opnd e 0 4 ≠ 0) (plain : (s.obj (handleIdx (opnd e 0 4))).cls = 4)
    (operator : (s.obj (handleIdx (opnd e 0 4))).part = 0xFF) (mask : opnd e 17 1 < 32) (flags : opnd e 18 1 < 4) (least : 2048 ≤ opnd e 4 4)
    (most : opnd e 4 4 ≤ (s.obj (handleIdx (opnd e 0 4))).tiles * 8)
    (access : objAccess s (accPart s { q := q } (opnd e 8 4)) (opnd e 8 4) (opnd e 12 5) 1568 false = 0)
    (room : MeterFits s (accPart s { q := q } (opnd e 8 4)) 5 1568) :
    bodyDumpConfig t 0 inp b = done t (sha384 (fit 1568 inp)) (dumpNamed (handleIdx (opnd e 0 4)) (opnd e 4 4) (opnd e 17 1) (opnd e 18 1)
      (fit 1568 inp) (b.metered (accPart s { q := q } (opnd e 8 4)) 5 1568)) := by
  simp only [bodyDumpConfig, hb.te, hb.obj_eq, given, plain, operator, Nat.not_le.mpr mask, Nat.not_le.mpr flags, Nat.not_lt.mpr least,
    Nat.not_lt.mpr most, ne_eq, not_true_eq_false, or_self, if_false]
  rw [hb.reads rfl access room]
  rfl

/-- Filling a table from a function: a place that is not filled reads as before. -/
theorem tget_foldl_tset_other {α : Type} (d : α) (f : Nat → α) {l : List Nat} {k : Nat} (out : k ∉ l) (t : Tab α) :
    tget d (l.foldl (fun t u => tset t u (f u)) t) k = tget d t k := by
  induction l generalizing t with
  | nil => rfl
  | cons u l ih =>
    rw [List.mem_cons, not_or] at out
    obtain ⟨apart, rest⟩ := out
    exact (ih rest _).trans (tget_tset_other _ _ _ _ _ apart)

/-- And each place filled reads its value. -/
theorem tget_foldl_tset {α : Type} (d : α) (f : Nat → α) {l : List Nat} {k : Nat} (mem : k ∈ l) (t : Tab α) :
    tget d (l.foldl (fun t u => tset t u (f u)) t) k = f k := by
  induction l generalizing t with
  | nil => exact absurd mem List.not_mem_nil
  | cons u l ih =>
    by_cases later : k ∈ l
    · exact ih later _
    · obtain rfl := (List.mem_cons.mp mem).resolve_right later
      exact (tget_foldl_tset_other d f later _).trans (tget_tset_same ..)

/-- The dump that DUMP_START takes: its mirrors latched, the sources known not to answer left out. -/
def startDump (s : State) : State :=
  let a := dumpTrigger 1 { s with dump := { s.dump with armed := none } }
  { a with dump := { a.dump with unreachable := s.dump.unreachable } }

/-- The mirrors of every unit as a trigger latches them. -/
def latchedMirrors (now : Nat) : Tab Bytes := unitIds.foldl (fun t u => tset t u (Config.mirrorBytes u now)) []

theorem latchedMirrors_first (now : Nat) : tget [] (latchedMirrors now) 0 = Config.mirrorBytes 0 now :=
  tget_foldl_tset [] (fun u => Config.mirrorBytes u now) (show 0 ∈ unitIds by decide) []

theorem dumpTrigger_arms {r : Nat} {m : Tab Bytes} (ring : s.dump.ring = some r) (mask : s.dump.mask.getLsbD 0 = true)
    (idle : s.dump.armed = none) (mirrors : latchedMirrors s.now = m) :
    dumpTrigger 1 s = { s with dump := { s.dump with
      armed := some 1, armedAt := s.now, latched := true, unreachable := [], startId := s.keep.startId, mirrors := m } } := by
  have set_ : ¬(s.dump.ring.isNone || !s.dump.mask.getLsbD (1 - 1)) = true := by simp [ring, mask]
  have free : ¬(s.dump.armed.isSome && decide (1 < 3)) = true := by simp [idle]
  rw [← mirrors, dumpTrigger, if_neg set_, if_neg free, latchedMirrors]

theorem startDump_eq {r : Nat} (ring : s.dump.ring = some r) (mask : s.dump.mask.getLsbD 0 = true) : startDump s =
    { s with dump := { s.dump with
      armed := some 1, armedAt := s.now, latched := true, startId := s.keep.startId, mirrors := latchedMirrors s.now } } := by
  have mirrors : latchedMirrors ({ s with dump := { s.dump with armed := none } } : State).now = latchedMirrors s.now := congrArg latchedMirrors rfl
  generalize latchedMirrors s.now = m at mirrors ⊢
  rw [startDump, dumpTrigger_arms (s := { s with dump := { s.dump with armed := none } }) ring mask rfl mirrors]
  rfl

/-- The first section of a dump: the mirrors of unit 0. -/
theorem dumpSections_first (s : State) : ∃ xs, dumpSections s = ⟨0, 1, 0xFF, tget [] s.dump.mirrors 0⟩ :: xs := by
  have units : unitIds = 0 :: unitIds.tail := by decide
  rw [dumpSections, units, List.map_cons, List.flatten_cons, List.append_assoc, List.append_assoc, List.singleton_append]
  exact ⟨_, rfl⟩

theorem startDump_sections {r : Nat} (ring : s.dump.ring = some r) (mask : s.dump.mask.getLsbD 0 = true) :
    ∃ xs, dumpSections (startDump s) = ⟨0, 1, 0xFF, Config.mirrorBytes 0 s.now⟩ :: xs := by
  have mirrors : (startDump s).dump.mirrors = latchedMirrors s.now := by rw [startDump_eq ring mask]
  obtain ⟨xs, sections⟩ := dumpSections_first (startDump s)
  rw [mirrors, latchedMirrors_first] at sections
  exact ⟨xs, sections⟩

theorem startDump_takes {r : Nat} (ring : s.dump.ring = some r) (mask : s.dump.mask.getLsbD 0 = true) (draws : canDraw s 0 = true)
    (opened : (tfind s.rings r).isSome = true)
    (room : 1704 + sectionLen s ⟨0, 1, 0xFF, Config.mirrorBytes 0 s.now⟩ ≤ ringRoom (tget {} s.rings r) / 16 * 16) :
    ∃ len u, takeDump (startDump s) = some (s.dump.num, len, u) := by
  obtain ⟨xs, sections⟩ := startDump_sections ring mask
  have started := startDump_eq ring mask
  have first : (startDump s).dump.ring = some r := by rw [started]; exact ring
  have rings : (startDump s).rings = s.rings := by rw [started]
  have num : (startDump s).dump.num = s.dump.num := by rw [started]
  have can : canDraw (startDump s) 0 = true := by rw [started]; exact draws
  have len : sectionLen (startDump s) ⟨0, 1, 0xFF, Config.mirrorBytes 0 s.now⟩ = sectionLen s ⟨0, 1, 0xFF, Config.mirrorBytes 0 s.now⟩ := by
    rw [started]
    simp only [sectionLen, bodyLen, ne_eq, not_true_eq_false, false_and, or_false]
  rw [← num]
  exact takeDump_some first (by rw [rings]; exact opened) can sections (by rw [len, rings]; exact room)

theorem bodyDumpStart_takes {num len : Nat} {u : State} {r : Nat} (hb : Began q e inp s t b) (ring : s.dump.ring = some r)
    (mask : s.dump.mask.getLsbD 0 = true) (idle : s.dump.armed = none) (draws : canDraw s 0 = true)
    (takes : takeDump (startDump b) = some (num, len, u)) :
    bodyDumpStart t n inp b = done t (le 4 num ++ le 8 len) { u with dump := { u.dump with armed := none } } := by
  have ready : ¬(b.dump.ring.isNone ∨ (!b.dump.mask.getLsbD 0) = true) := by simp [hb.dump, ring, mask]
  have other : ¬b.dump.armed = some 2 := by simp [hb.dump, idle]
  have free : ¬b.dump.armed.isSome = true := by simp [hb.dump, idle]
  have can : ¬(!canDraw b 0) = true := by simp [hb.canDraw, draws]
  unfold startDump at takes
  rw [bodyDumpStart, if_neg ready, if_neg other, if_neg can]
  dsimp only at takes ⊢
  rw [takes]
  dsimp only
  rw [if_neg free]

/-! ### Images and the flash log (14 R444 to R452) -/

theorem bodyImageUpdate_writes (hb : Began q e inp s t b) (least : 16384 ≤ opnd e 12 4) (most : opnd e 12 4 ≤ 2 ^ 20)
    (access : objAccess s (accPart s { q := q } (opnd e 0 4)) (opnd e 0 4) (opnd e 4 5) (opnd e 12 4) false = 0)
    (room : MeterFits s (accPart s { q := q } (opnd e 0 4)) 5 (opnd e 12 4)) (checked : imageCheck s.aon (fit (opnd e 12 4) inp) = 0)
    (next : (imageOf (fit (opnd e 12 4) inp)).seq = s.keep.imageSeq + 1) :
    bodyImageUpdate t 0 inp b =
      done t (le 1 (1 - s.aon.slot) ++ le 4 (imageOf (fit (opnd e 12 4) inp)).seq)
        (logEntry 0x07 (le 1 (1 - s.aon.slot) ++ zeros 3 ++ le 4 (imageOf (fit (opnd e 12 4) inp)).seq ++
            (imageOf (fit (opnd e 12 4) inp)).digest.take 32)
          { b.metered (accPart s { q := q } (opnd e 0 4)) 5 (opnd e 12 4) with
            flash := { s.flash with
              images := tset s.flash.images (1 - s.aon.slot) (fit (opnd e 12 4) inp), failed := tdel s.flash.failed (1 - s.aon.slot) } }) := by
  have paid := hb.metered (accPart s { q := q } (opnd e 0 4)) 5 (opnd e 12 4)
  have seq : (b.metered (accPart s { q := q } (opnd e 0 4)) 5 (opnd e 12 4)).keep.imageSeq = s.keep.imageSeq :=
    paid.bareOf (fun u => u.keep.imageSeq) fun _ => rfl
  have aon : (b.metered (accPart s { q := q } (opnd e 0 4)) 5 (opnd e 12 4)).aon = s.aon := paid.aon
  have flash : (b.metered (accPart s { q := q } (opnd e 0 4)) 5 (opnd e 12 4)).flash = s.flash := paid.flash
  simp only [bodyImageUpdate, hb.te, Nat.not_lt.mpr most, Nat.not_lt.mpr least, or_self, if_false, Nat.zero_mod]
  rw [hb.reads rfl access room]
  simp only [aon, checked, next, seq, flash, ne_eq, not_true_eq_false, if_false, if_true]

theorem bodyImageStatus_answers (hb : Began q e inp s t b) :
    bodyImageStatus t n inp b = done t (le 1 s.aon.slot ++
      (le 1 (b2n (slotValid s 0) 0) ++ le 1 (b2n (tfind s.flash.failed 0).isSome 0) ++ le 4 (fld (tget [] s.flash.images 0) 8 4)) ++
      (le 1 (b2n (slotValid s 1) 0) ++ le 1 (b2n (tfind s.flash.failed 1).isSome 0) ++ le 4 (fld (tget [] s.flash.images 1) 8 4))) b := by
  simp only [bodyImageStatus, slotValid, hb.aon, hb.flash]

theorem bodyLogRead_writes {bytes : Bytes} {secs : List (Nat × Sector)} (hb : Began q e inp s t b)
    (named : (s.flash.sectors.filter fun x => decide (opnd e 0 8 ≤ x.1) && decide (x.1 < opnd e 0 8 + opnd e 8 4)) = secs)
    (text : (secs.map fun x => sectorBytes x.1 x.2).flatten = bytes) (there : (tfind s.flash.sectors (opnd e 0 8)).isSome = true)
    (access : objAccess s (accPart s { q := q } (opnd e 12 4)) (opnd e 12 4) (opnd e 16 5) bytes.length true = 0)
    (room : MeterFits s (accPart s { q := q } (opnd e 12 4)) 4 bytes.length) :
    bodyLogRead t n inp b = done t (le 4 secs.length ++ le 8 ((s.flash.sectors.getLast?.map (·.1)).getD 0))
      (emit (.objWrite (opnd e 12 4) (opnd e 16 5) bytes) (b.metered (accPart s { q := q } (opnd e 12 4)) 4 bytes.length)) := by
  have present : ¬(tfind s.flash.sectors (opnd e 0 8)).isNone = true := by simp [Option.isSome_iff_ne_none.mp there]
  simp only [bodyLogRead, hb.te, hb.flash, named, text, if_neg present, hb.accPart]
  rw [hb.writes access room]

/-- Settles O55: each command's body on the state in which it begins. -/
theorem dumpImageAndLogCommandsRun : Obligations.DumpImageAndLogCommandsRun := by
  refine ⟨?_, ?_, ?_, ?_, ?_⟩
  · intro q e rc inp s starts h kib mask flags o given plain operator maskOk flagsOk least most payer access room
    obtain ⟨t, b, run, hb⟩ := takeCmd_begins (body := bodyDumpConfig) (rc := rc) (inp := inp) starts (by decide)
    have names := bodyDumpConfig_names hb given plain operator maskOk flagsOk least most access room
    generalize sha384 (fit 1568 inp) = digest at names ⊢
    generalize fit 1568 inp = ek at names ⊢
    obtain ⟨u, exec, completed, bare, -⟩ := hb.finishes (congrArg Host.Outcome.next (run.trans names)) rfl rfl rfl rfl rfl hb.now
    refine ⟨u, exec, completed, bare.trans ?_⟩
    exact congrArg (fun u : State => ({ u with
      rings := tset u.rings (handleIdx h) { handle := handleIdx h, size := 1024 * kib }
      dump := { u.dump with
        ring := some (handleIdx h), ek := ek, mask := BitVec.ofNat 8 mask, flags := BitVec.ofNat 8 flags } } : State))
      (hb.metered payer 5 1568).bare
  · intro q e rc inp s starts r ring mask idle draws opened room fits
    obtain ⟨t, b, run, hb⟩ := takeCmd_begins (body := bodyDumpStart) (rc := rc) (inp := inp) starts (by decide)
    have sameRoom : sectionLen b ⟨0, 1, 0xFF, Config.mirrorBytes 0 b.now⟩ = sectionLen s ⟨0, 1, 0xFF, Config.mirrorBytes 0 s.now⟩ := by
      simp only [sectionLen, bodyLen, hb.dump, hb.now, ne_eq, not_true_eq_false, false_and, or_false]
    have ringB : b.dump.ring = some r := by rw [hb.dump]; exact ring
    have maskB : b.dump.mask.getLsbD 0 = true := by rw [hb.dump]; exact mask
    obtain ⟨len, u, takes⟩ := startDump_takes ringB maskB ((hb.canDraw 0).trans draws) (by rw [hb.rings]; exact opened)
      (by rw [sameRoom, hb.rings]; exact fits)
    rw [hb.dump] at takes
    refine ⟨t, b, len, u, hb, ?_, congrArg Host.Outcome.next (run.trans (bodyDumpStart_takes hb ring mask idle draws takes))⟩
    unfold startDump at takes
    rw [hb.dump] at takes
    exact takes
  · intro q e rc inp s starts h n copy i slot payer least most access room checked next
    obtain ⟨t, b, run, hb⟩ := takeCmd_begins (body := bodyImageUpdate) (rc := rc) (inp := inp) starts (by decide)
    exact ⟨t, b, hb, congrArg Host.Outcome.next (run.trans (bodyImageUpdate_writes hb least most access room checked next))⟩
  · intro q e rc inp s starts one
    obtain ⟨t, b, run, hb⟩ := takeCmd_begins (body := bodyImageStatus) (rc := rc) (inp := inp) starts (by decide)
    obtain ⟨u, exec, completed, bare, -⟩ := hb.finishes (congrArg Host.Outcome.next (run.trans (bodyImageStatus_answers hb))) rfl rfl rfl rfl rfl hb.now
    exact ⟨u, exec, completed, bare.trans hb.bare⟩
  · intro q e rc inp s starts first h secs bytes payer there access room
    obtain ⟨t, b, run, hb⟩ := takeCmd_begins (body := bodyLogRead) (rc := rc) (inp := inp) starts (by decide)
    obtain ⟨u, exec, completed, bare, emitted⟩ := hb.finishes (congrArg Host.Outcome.next (run.trans
      (bodyLogRead_writes hb rfl rfl there access room))) rfl rfl rfl rfl rfl hb.now
    exact ⟨u, exec, completed, bare.trans (hb.metered payer 4 bytes.length).bare, emitted _ (List.mem_cons_self ..)⟩

end Sys2Proof.Machine
end

section
/-! PROOF of O16. LINK_JOB_CONFIG, BULK_COPY, CKPT_SEND, CKPT_RESTORE and PARITY_REBUILD. -/

namespace Sys2Proof.Machine
open Sys2Proof Sys2Proof.Crypto

variable {q n : Nat} {e : BitVec 1024} {inp : Bytes} {s b : State} {t : Taken}

/-! ### LINK_JOB_CONFIG (05 R135, R137) -/

/-- What a table reads at a place is an entry of it or the default value. -/
theorem tget_mem {α : Type} (d : α) (l : Tab α) (k : Nat) : tget d l k = d ∨ (k, tget d l k) ∈ l := by
  rw [tget]
  induction l with
  | nil => exact .inl rfl
  | cons x l ih =>
    obtain ⟨i, v⟩ := x
    by_cases same : i = k
    · subst same
      simp [tfind]
    · simp only [tfind, if_neg same]
      exact ih.imp_right (List.mem_cons_of_mem _)

/-- Every context of every link station is of one kind. -/
def LinksHold (P : Ctxt → Prop) (s : State) : Prop := ∀ l ∈ s.link, ∀ c ∈ l.2.ctxs, P c

theorem LinksHold.onJob {P : Ctxt → Prop} (h : LinksHold P s) (st part : Nat) (f : Job → Job) : LinksHold P (onJob s st part f) := by
  intro l mem c held
  rcases mem_tset mem with rfl | old
  · change c ∈ (tget {} s.link st).ctxs at held
    rcases tget_mem {} s.link st with fresh | there
    · rw [fresh] at held
      exact absurd held (List.not_mem_nil)
    · exact h _ there c held
  · exact h l old c held

/-- Where none of the job's egress instances would change its port, a new port map moves none. -/
theorem movePorts_still {part : Nat} {ports : Tab Nat}
    (backing : ∀ c ∈ s.backing, c.part = part → c.ingress = false → c.state = 2 → c.port = tget 0 ports (c.peer % 64))
    (links : LinksHold (fun c => c.part = part → c.ingress = false → c.state = 2 → c.port = tget 0 ports (c.peer % 64)) s) :
    movePorts part ports s = s := by
  have stays (c : Ctxt) (h : c.part = part → c.ingress = false → c.state = 2 → c.port = tget 0 ports (c.peer % 64)) :
      ¬(c.part == part && !c.ingress && c.state == 2 && c.port != tget 0 ports (c.peer % 64)) = true := by
    intro moved
    simp only [Bool.and_eq_true, beq_iff_eq, Bool.not_eq_true', bne_iff_ne, ne_eq] at moved
    obtain ⟨⟨⟨own, egress⟩, open_⟩, other⟩ := moved
    exact other (h own egress open_)
  have noRecord : (s.backing.filter fun c => c.part == part && !c.ingress && c.state == 2 && c.port != tget 0 ports (c.peer % 64)) = [] :=
    List.filter_eq_nil_iff.mpr fun c mem => stays c (backing c mem)
  have noStation : (s.link.filter fun l => l.2.ctxs.any fun c =>
      c.part == part && !c.ingress && c.state == 2 && c.port != tget 0 ports (c.peer % 64)) = [] := by
    refine List.filter_eq_nil_iff.mpr fun l mem => ?_
    rw [List.any_eq_true]
    rintro ⟨c, held, moved⟩
    exact stays c (links l mem c held) moved
  simp only [movePorts, noRecord, each, List.foldl_nil, noStation]

/-- The bundle flush time set at every link station. -/
def flushSet (part flush : Nat) (s : State) : State :=
  each Config.linkIds (fun st s => onJob s st part fun j => { j with flush := flush }) s

theorem bodyLinkJobConfig_sets {ports : Tab Nat} (hb : Began q e inp s t b)
    (map : ((List.range 64).map fun i => (i, opnd e 4 40 / 2 ^ (5 * i) % 32)) = ports) (bound : (jobOf s 0x80 (opnd e 0 1)).state = 1)
    (flush : opnd e 1 1 ≤ 200)
    (backing : ∀ c ∈ s.backing, c.part = opnd e 0 1 → c.ingress = false → c.state = 2 → c.port = tget 0 ports (c.peer % 64))
    (links : LinksHold (fun c => c.part = opnd e 0 1 → c.ingress = false → c.state = 2 → c.port = tget 0 ports (c.peer % 64)) s) :
    bodyLinkJobConfig t n inp b =
      done t [] ((flushSet (opnd e 0 1) (opnd e 1 1) b).onDom (opnd e 0 1) fun d => { d with portMap := ports }) := by
  have job : (jobOf b 0x80 (opnd e 0 1)).state = 1 := by rw [jobOf, State.linkSt, hb.link]; exact bound
  have kept : (flushSet (opnd e 0 1) (opnd e 1 1) b).backing = s.backing := by
    obtain ⟨k, only⟩ := each_onJob_only Config.linkIds (opnd e 0 1) (fun j => { j with flush := opnd e 1 1 }) b
    rw [flushSet, only, ← hb.backing]
  have held : LinksHold (fun c => c.part = opnd e 0 1 → c.ingress = false → c.state = 2 → c.port = tget 0 ports (c.peer % 64))
      (flushSet (opnd e 0 1) (opnd e 1 1) b) := by
    refine each_inv (LinksHold _) _ _ (fun st w h => h.onJob st _ _) b ?_
    unfold LinksHold at links ⊢
    rw [hb.link]
    exact links
  simp only [bodyLinkJobConfig, hb.te, job, map, Nat.not_lt.mpr flush, ne_eq, not_true_eq_false, or_self, if_false]
  rw [← flushSet]
  generalize flushSet (opnd e 0 1) (opnd e 1 1) b = u at kept held ⊢
  rw [← kept] at backing
  exact congrArg (done t []) (movePorts_still (s := u.onDom (opnd e 0 1) fun d => { d with portMap := ports }) backing held)

/-! ### BULK_COPY (05 R163, R169) -/

/-- A command whose result is held goes on running. -/
theorem Began.holds {c : State} (hb : Began q e inp s t b) (aux : Nat) (res : Bytes) (queues : c.queues = b.queues) (fences : c.fences = b.fences)
    (taken : c.taken = b.taken) : Running q e aux s (holdResult t aux res c) := by
  refine hb.running aux (t' := { t with phase := 2, aux := aux, inp := res }) queues fences ?_ rfl rfl rfl rfl rfl
  unfold holdResult
  rw [taken, hb.taken]
  exact List.mem_map.mpr ⟨t, by simp, by simp⟩

/-- The command as it stands among the taken ones once its result is held. -/
theorem Began.held_found {c : State} (hb : Began q e inp s t b) (aux : Nat) (res : Bytes) (taken : c.taken = b.taken) :
    ((holdResult t aux res c).taken.find? fun x => x.q == t.q && x.seq == t.seq) = some { t with phase := 2, aux := aux, inp := res } := by
  have old (x : Taken) (mem : x ∈ s.taken) : (x.q == t.q && x.seq == t.seq) = false := by
    have other : (x.q == t.q) = false := by
      rw [hb.tq]
      exact beq_false_of_ne (hb.only x mem)
    rw [other, Bool.false_and]
  unfold holdResult
  rw [taken, hb.taken, List.map_append, List.find?_append, List.find?_eq_none.mpr]
  · simp
  · intro y mem
    obtain ⟨x, there, rfl⟩ := List.mem_map.mp mem
    simp [old x there]

theorem settleCopy_asks {c : Copy} {m : Nat} {r : MReq} (found : (s.taken.find? fun t => t.q == c.q && t.seq == c.seq) = some t)
    (more : c.sent < c.tiles) (waits : c.got = none) (idle : c.asked = false) (req : tileReq s c.part c.obj (c.first + c.sent) false = some (m, r)) :
    settleCopy c s = emit (.dreq c.st 0 (c.seq % 1024) (le 1 m ++ packReq { r with origin := c.st, tag := c.seq % 1024, fence := c.fence }) [])
      { s with copies := s.copies.map fun x => if x.q = c.q ∧ x.seq = c.seq then { c with asked := true, got := none } else x } := by
  simp only [settleCopy, found, Nat.not_le.mpr more, waits, idle, req, if_false, Bool.false_eq_true]

theorem settleCopy_ends {c : Copy} {w : State} (found : (s.taken.find? fun t => t.q == c.q && t.seq == c.seq) = some t) (all : c.tiles ≤ c.sent)
    (left : { s with copies := s.copies.filter fun x => !(x.q == c.q && x.seq == c.seq) } = w) :
    settleCopy c s = keepSend c.part c.dst [keepFlush t c.part c.dst w] w := by
  subst left
  simp only [settleCopy, found, all, if_true]
  rfl

/-- No check of a list fails exactly when each passes. -/
theorem noCode_iff {l : List Nat} : (l.find? (· != 0)).getD 0 = 0 ↔ ∀ x ∈ l, x = 0 := by
  constructor
  · intro passes
    cases found : l.find? (· != 0) with
    | none => exact fun x mem => by simpa using List.find?_eq_none.mp found x mem
    | some x =>
      rw [found] at passes
      have failed := List.find?_some found
      rw [Option.getD_some] at passes
      simp [passes] at failed
  · intro all
    rw [List.find?_eq_none.mpr fun x mem => by simp [all x mem]]
    rfl

/-- The Flush that ends a copy, queued at its link station behind what waits there. -/
def flushQueued (t : Taken) (part dst st : Nat) (s : State) : State :=
  s.onLink st fun l => { l with waiting := l.waiting ++ [keepFlush t part dst s] }

theorem keepSend_flush {part dst st : Nat} (station : linkFor s part dst = st) :
    keepSend part dst [keepFlush t part dst s] s = linkPump st (flushQueued t part dst st s) := by
  rw [keepSend, station, flushQueued]

theorem flushQueued_waiting (t : Taken) (part dst st : Nat) (s : State) :
    ((flushQueued t part dst st s).linkSt st).waiting = (s.linkSt st).waiting ++ [keepFlush t part dst s] := by
  rw [flushQueued, State.linkSt, State.onLink, tget_tupd_same]
  rfl

/-- An object that a command may read has a station for each of its tiles. -/
theorem tileReq_of_access {part h off len : Nat} {write : Bool} (access : objAccess s part h off len write = 0) (some_ : 0 < len) :
    ∃ m r, tileReq s part (handleIdx h) (off / 8192) write = some (m, r) := by
  cases req : tileReq s part (handleIdx h) (off / 8192) write with
  | some x => exact ⟨x.1, x.2, rfl⟩
  | none =>
    exfalso
    unfold objAccess at access
    dsimp only at access
    split at access
    · exact absurd access (by decide)
    · split at access
      · exact absurd access (by decide)
      · split at access
        · exact absurd access (by decide)
        · split at access
          · exact absurd access (by decide)
          · have first : 0 < (off + len + 8191) / 8192 - off / 8192 := by omega
            have absent := noCode_iff.mp access _ (List.mem_map.mpr ⟨0, List.mem_range.mpr first, rfl⟩)
            rw [Nat.add_zero, req] at absent
            exact absurd absent (show yeDenied ≠ 0 by decide)

/-- The copy of a started BULK_COPY. -/
def copyOf (q : Nat) (e : BitVec 1024) (s : State) : Copy where
  st := linkFor s (s.ctx (s.queue q).ctx).part (opnd e 9 3)
  q := q
  seq := (s.queue q).nextSeq
  part := (s.ctx (s.queue q).ctx).part
  obj := handleIdx (opnd e 0 4)
  first := opnd e 4 5 / 8192
  tiles := opnd e 24 4
  dst := opnd e 9 3
  handle := BitVec.ofNat 32 (opnd e 12 4)
  off := opnd e 16 5
  counter := opnd e 22 2
  fence := envFence e

theorem keepLinkCheck_began (hb : Began q e inp s t b) (part dst : Nat) : keepLinkCheck b part dst = keepLinkCheck s part dst :=
  hb.bareOf (fun u => keepLinkCheck u part dst) fun _ => rfl

theorem bodyBulkCopy_settles (hb : Began q e inp s t b) (link : keepLinkCheck s (s.ctx (s.queue q).ctx).part (opnd e 9 3) = 0)
    (src : opnd e 4 5 % 8192 = 0) (dst : opnd e 16 5 % 8192 = 0)
    (access : objAccess s (s.ctx (s.queue q).ctx).part (opnd e 0 4) (opnd e 4 5) (8192 * opnd e 24 4) false = 0) :
    bodyBulkCopy t n inp b = settleCopy (copyOf q e s) (holdResult t 1 [] { b with copies := s.copies ++ [copyOf q e s] }) := by
  have station (part dst : Nat) : linkFor b part dst = linkFor s part dst := hb.bareOf (fun u => linkFor u part dst) fun _ => rfl
  simp only [bodyBulkCopy, hb.te, hb.partOf, keepLinkCheck_began hb, link, src, dst, hb.access, access, ne_eq, not_true_eq_false, or_self, if_false,
    station, hb.tq, hb.tseq, hb.copies]
  rfl

/-! ### CKPT_SEND (05 R179, R180) -/

/-- A text cut into chunks, put together again. -/
theorem chunks_flatten (k fuel : Nat) (text : Bytes) (enough : text.length ≤ fuel) : (chunks (k + 1) fuel text).flatten = text := by
  induction fuel generalizing text with
  | zero => rw [List.eq_nil_of_length_eq_zero (Nat.le_zero.mp enough)]; rfl
  | succ fuel ih =>
    cases text with
    | nil => rfl
    | cons x text =>
      have shorter : ((x :: text).drop (k + 1)).length ≤ fuel := by
        rw [List.length_drop]
        simp only [List.length_cons] at enough ⊢
        omega
      rw [chunks, List.flatten_cons, ih _ shorter, List.take_append_drop]
      exact List.cons_ne_nil _ _

/-- The chunks of a record on their way to a holder, put together, are the record. -/
theorem chunkReqs_record (t : Taken) (part dst h aux : Nat) (rcd : Bytes) (v : State) :
    (((chunkReqs t part dst h aux rcd v).filter fun r => r.wire == 8).map (·.data)).flatten = rcd := by
  have chunk : ∀ l : List (Bytes × Nat), ((l.map fun x => ({
      wire := 8, part := part, epoch := v.epoch, dst := dst, handle := BitVec.ofNat 32 h, off := 4096 * x.2, len := x.1.length, aux := aux
      fence := envFence t.e, data := x.1 } : LReq)).filter fun r => r.wire == 8).map (·.data) = l.map (·.1) := by
    intro l
    rw [List.filter_eq_self.mpr]
    · rw [List.map_map]
      rfl
    · intro r mem
      obtain ⟨x, -, rfl⟩ := List.mem_map.mp mem
      rfl
  rw [chunkReqs, List.filter_append, List.map_append, chunk, List.zipIdx_map_fst]
  have flush : ([keepFlush t part dst v].filter fun r => r.wire == 8) = [] := rfl
  rw [flush, List.map_nil, List.append_nil, chunks_flatten 4095 _ _ (Nat.le_refl _)]

/-- Everything sent to a holder of a record is of the partition, to the holder, and under the command's fence. -/
theorem chunkReqs_each (t : Taken) (part dst h aux : Nat) (rcd : Bytes) (v : State) :
    ∀ r ∈ chunkReqs t part dst h aux rcd v, r.part = part ∧ r.dst = dst ∧ r.fence = envFence t.e := by
  intro r mem
  rcases List.mem_append.mp mem with chunk | flush
  · obtain ⟨x, -, rfl⟩ := List.mem_map.mp chunk
    exact ⟨rfl, rfl, rfl⟩
  · rw [List.mem_singleton.mp flush]
    exact ⟨rfl, rfl, rfl⟩

/-- The devices that take a checkpoint record, each with its place there and its shard (05 Table 5.19). -/
def ckptHolders (e : BitVec 1024) : List (Nat × Nat × Nat) :=
  [(opnd e 9 3, opnd e 28 4, 15)] ++ (if 1 ≤ opnd e 27 1 then [(opnd e 32 3, opnd e 38 4, opnd e 26 1)] else []) ++
    (if opnd e 27 1 = 2 then [(opnd e 35 3, opnd e 42 4, opnd e 26 1 + 16)] else [])

/-- The checkpoint record of tile entries: its header, the tag and the entries sealed under the checkpoint key. -/
def ckptRecord (key : BitVec 256) (own num idx : Nat) (body : Bytes) : Bytes :=
  let hdr := ckptHdr num own idx body.length
  let sealed_ := gcmSeal key (ckptIv own num idx) hdr body
  hdr ++ sealed_.2 ++ sealed_.1

/-- A checkpoint key has already been used for this record number or a later one. -/
def ckptSeen (k : KeySlot) (num idx : Nat) : Bool :=
  match k.ckpt with
  | some (x, y) => decide (num < x ∨ (num = x ∧ idx ≤ y))
  | none => false

theorem bodyCkptSend_sends {part : Nat} {rcd : Bytes} (hb : Began q e inp s t b) (own : (s.ctx (s.queue q).ctx).part = part)
    (record : ckptRecord (s.key (s.dom part).ckptSlot).cur (s.dom part).own (opnd e 16 4) (opnd e 20 6)
      ((parseTiles (opnd e 12 4) inp).map tileEntry).flatten = rcd)
    (mode : opnd e 27 1 ≤ 2) (links : ∀ x ∈ ckptHolders e, keepLinkCheck s part x.1 = 0) (shard : opnd e 26 1 ≤ 7) (idx : opnd e 20 6 < 2 ^ 46)
    (cls : (s.key (s.dom part).ckptSlot).cls = 4) (aligned : opnd e 4 5 % 8192 = 0) (num : opnd e 16 4 + 1 < 2 ^ 32)
    (calm : opnd e 16 4 < 2 ^ 31 ∨ (s.key (s.dom part).ckptSlot).warned = true)
    (later : ∀ x y, (s.key (s.dom part).ckptSlot).ckpt = some (x, y) → x < opnd e 16 4 ∨ x = opnd e 16 4 ∧ y < opnd e 20 6)
    (access : objAccess s part (opnd e 0 4) (opnd e 4 5) (8192 * opnd e 12 4) false = 0)
    (room : MeterFits s part 5 ((parseTiles (opnd e 12 4) inp).map (·.1)).sum) :
    bodyCkptSend t 0 inp b = each (ckptHolders e) (fun x v => keepSend part x.1 (chunkReqs t part x.1 x.2.1 x.2.2 rcd v) v)
      (holdResult t (ckptHolders e).length (le 8 rcd.length) ((b.metered part 5 ((parseTiles (opnd e 12 4) inp).map (·.1)).sum).onKey
        (s.dom part).ckptSlot fun k => { k with ckpt := some (opnd e 16 4, opnd e 20 6) })) := by
  have reached : (((ckptHolders e).map fun x => keepLinkCheck s part x.1).find? (· != 0)).getD 0 = 0 :=
    noCode_iff.mpr fun x mem => by
      obtain ⟨y, there, rfl⟩ := List.mem_map.mp mem
      exact links y there
  have formed : ¬(2 < opnd e 27 1 ∨ 7 < opnd e 26 1 ∨ 2 ^ 46 ≤ opnd e 20 6 ∨ (s.key (s.dom part).ckptSlot).cls ≠ 4) := by omega
  have fresh : ¬ckptSeen (s.key (s.dom part).ckptSlot) (opnd e 16 4) (opnd e 20 6) = true := by
    unfold ckptSeen
    split
    · rename_i x y was
      have := later x y was
      simp only [decide_eq_true_eq]
      omega
    · exact Bool.false_ne_true
  have quiet : ¬(2 ^ 31 ≤ opnd e 16 4 ∧ (!(s.key (s.dom part).ckptSlot).warned) = true) := by
    rintro ⟨many, unwarned⟩
    rcases calm with few | warned
    · omega
    · rw [warned] at unwarned
      exact Bool.false_ne_true unwarned
  unfold ckptHolders at reached
  simp only [bodyCkptSend, hb.te, hb.partOf, own, hb.dom_eq, hb.key_eq, keepLinkCheck_began hb, hb.access, reached, access, aligned, if_neg formed,
    ne_eq, not_true_eq_false, if_false, if_neg (show ¬2 ^ 32 - 1 ≤ opnd e 16 4 by omega)]
  refine (if_neg fresh).trans ?_
  rw [withInput, if_neg (by decide), addMeter_ok (room.began hb), if_neg quiet]
  rw [ckptRecord] at record
  rw [record]
  rfl

/-! ### CKPT_RESTORE and PARITY_REBUILD (05 R180, R181) -/

/-- A checkpoint record opened under a key. -/
def ckptOpened (inp : Bytes) (key : BitVec 256) : Option Bytes :=
  gcmOpen key (ckptIv (ofLe (cut 4 3 inp)) (ofLe (cut 0 4 inp)) (ofLe (cut 8 6 inp))) (inp.take 32) (cut 48 (ofLe (cut 16 8 inp)) inp)
    (cut 32 16 inp)

theorem bodyCkptRestore_writes {part len : Nat} {text : Bytes} {tiles : List (Nat × Nat × Bytes)} (hb : Began q e inp s t b)
    (own : (s.ctx (s.queue q).ctx).part = part) (stored : ofLe (cut 16 8 inp) = len)
    (access : objAccess s part (opnd e 0 4) 0 (48 + len) false = 0) (aligned : opnd e 8 5 % 8192 = 0) (whole : len % 16 = 0)
    (there : 48 + len ≤ inp.length) (cls : (s.key (s.dom part).ckptSlot).cls = 4)
    (opens : ckptOpened inp (s.key (s.dom part).ckptSlot).cur = some text ∨ ckptOpened inp (s.key (s.dom part).ckptSlot).cur = none ∧
      (s.key (s.dom part).ckptSlot).pendIs = 2 ∧ ckptOpened inp (s.key (s.dom part).ckptSlot).pend = some text)
    (parsed : parseTiles (text.length / 16) text = tiles) (fits : tileAccess s part (opnd e 4 4) (opnd e 8 5) (8192 * tiles.length) = 0)
    (reads : MeterFits s part 5 (48 + len)) (writes : MeterFits s part 4 (tiles.map (·.1)).sum) :
    bodyCkptRestore t 0 inp b = done t (le 4 tiles.length)
      (each tiles.zipIdx (fun x s => emit (.tileWrite (opnd e 4 4) (opnd e 8 5 / 8192 + x.2) x.1.1 x.1.2.1 x.1.2.2) s)
        ((b.metered part 5 (48 + len)).metered part 4 (tiles.map (·.1)).sum)) := by
  have opened : ((ckptOpened inp (s.key (s.dom part).ckptSlot).cur).orElse fun _ => if (s.key (s.dom part).ckptSlot).pendIs = 2
      then ckptOpened inp (s.key (s.dom part).ckptSlot).pend else none) = some text := by
    rcases opens with cur | ⟨notCur, draining, prev⟩
    · rw [cur, Option.orElse_some]
    · rw [notCur, Option.orElse_none, if_pos draining, prev]
  have formed : ¬(opnd e 8 5 % 8192 ≠ 0 ∨ len % 16 ≠ 0 ∨ inp.length < 48 + len) := by omega
  have paid := hb.metered part 5 (48 + len)
  have place : tileAccess (b.metered part 5 (48 + len)) part (opnd e 4 4) (opnd e 8 5) (8192 * tiles.length) = 0 := by
    rw [tileAccess_metered, ← fits]
    exact hb.bareOf (fun u => tileAccess u part (opnd e 4 4) (opnd e 8 5) (8192 * tiles.length)) fun _ => rfl
  unfold ckptOpened at opened
  rw [stored] at opened
  simp only [bodyCkptRestore, withInput, hb.te, hb.partOf, own, hb.dom_eq, hb.key_eq, stored, hb.access, access, cls, if_neg formed, ne_eq,
    not_true_eq_false, if_false]
  rw [addMeter_ok (reads.began hb), opened]
  dsimp only
  rw [parsed, place, addMeter_ok ((writes.other (by decide)).began paid)]
  rfl

theorem bodyParityRebuild_writes {part read : Nat} {missing : List Nat} {shards : List Bytes} {cols : List (List (BitVec 8))} {text : Bytes}
    (hb : Began q e inp s t b) (own : (s.ctx (s.queue q).ctx).part = part)
    (lost : ((List.range 10).filter fun i => opnd e 1 2 / 2 ^ i % 2 == 1) = missing) (parsed : parseShards 10 inp = shards)
    (sum : (shards.map List.length).sum = read)
    (rebuilt : ((List.range ((shards.map List.length).foldl max 0)).map fun x => rebuildByte missing (shards.map fun b => b.getD x 0)) = cols)
    (joined : ((missing.filter fun i => !(opnd e 0 1 == 1 && i == 9)).map fun i => cols.map fun v => v.getD i 0).flatten = text)
    (mode : opnd e 0 1 = 2 ∨ opnd e 0 1 = 1 ∧ (missing.filter (· < 9)).length ≤ 1) (mask : opnd e 1 2 < 2 ^ 10) (two : missing.length ≤ 2)
    (named : ∀ i < 10, (opnd e (4 + 4 * i) 4 = 0 ↔ i ∈ missing) ∨ opnd e 0 1 = 1 ∧ i = 9)
    (reads : ∀ x ∈ shards.zipIdx, opnd e (4 + 4 * x.2) 4 = 0 ∨ objAccess s part (opnd e (4 + 4 * x.2) 4) 0 x.1.length false = 0)
    (access : objAccess s part (opnd e 44 4) 0 text.length true = 0) (readRoom : MeterFits s part 5 read) (writeRoom : MeterFits s part 4 text.length) :
    bodyParityRebuild t 0 inp b =
      done t [] (emit (.objWrite (opnd e 44 4) 0 text) ((b.metered part 5 read).metered part 4 text.length)) := by
  have survives : (if opnd e 0 1 = 1 then decide ((missing.filter (· < 9)).length ≤ 1) else opnd e 0 1 == 2) = true := by
    rcases mode with two_ | ⟨one, few⟩
    · rw [two_]
      rfl
    · rw [if_pos one]
      exact decide_eq_true few
  have fits : ((List.range 10).all fun i => (opnd e (4 + 4 * i) 4 == 0) == missing.contains i || (opnd e 0 1 == 1 && i == 9)) = true := by
    rw [List.all_eq_true]
    intro i mem
    rcases named i (List.mem_range.mp mem) with given | ⟨one, last⟩
    · have agree : (opnd e (4 + 4 * i) 4 == 0) = missing.contains i := by
        rw [Bool.eq_iff_iff, beq_iff_eq, List.contains_iff_mem]
        exact given
      rw [agree, beq_self_eq_true, Bool.true_or]
    · rw [one, last]
      exact Bool.or_true _
  have readable : (((shards.zipIdx.filter fun x => !(opnd e (4 + 4 * x.2) 4 == 0)).map fun x =>
      objAccess s part (opnd e (4 + 4 * x.2) 4) 0 x.1.length false).find? (· != 0)).getD 0 = 0 := noCode_iff.mpr fun c mem => by
    obtain ⟨x, there, rfl⟩ := List.mem_map.mp mem
    obtain ⟨held, given⟩ := List.mem_filter.mp there
    exact (reads x held).resolve_left (by simpa using given)
  have formed : ¬(2 ^ 10 ≤ opnd e 1 2 ∨ 2 < missing.length ∨ (true = false) ∨ (true = false)) := by
    rintro (wide | many | wrong | wrong)
    · omega
    · omega
    · exact Bool.false_ne_true wrong.symm
    · exact Bool.false_ne_true wrong.symm
  simp only [bodyParityRebuild, withInput, hb.te, hb.partOf, own, lost, parsed, hb.access, survives, fits, readable, rebuilt, joined, sum,
    if_neg formed, ne_eq, not_true_eq_false, if_false]
  rw [addMeter_ok (readRoom.began hb), (hb.metered part 5 read).writes (by rw [objAccess_metered]; exact access) (writeRoom.other (by decide))]

/-- The copies of other commands stand as they are while this one's, the last, is asked for. -/
theorem asked_last {c c' : Copy} {l : List Copy} (alone : ∀ x ∈ l, ¬(x.q = c.q ∧ x.seq = c.seq)) :
    ((l ++ [c]).map fun x => if x.q = c.q ∧ x.seq = c.seq then c' else x) = l ++ [c'] := by
  rw [List.map_append, List.map_singleton, if_pos ⟨rfl, rfl⟩, List.map_congr_left fun x mem => if_neg (alone x mem), List.map_id']

/-- And while it leaves. -/
theorem left_last {c : Copy} {l : List Copy} (alone : ∀ x ∈ l, ¬(x.q = c.q ∧ x.seq = c.seq)) :
    ((l ++ [c]).filter fun x => !(x.q == c.q && x.seq == c.seq)) = l := by
  rw [List.filter_append, List.filter_eq_self.mpr]
  · simp
  · intro x mem
    simpa only [Bool.not_eq_true', Bool.and_eq_false_imp, beq_iff_eq, beq_eq_false_iff_ne, ne_eq, not_and] using alone x mem

/-- Settles O16: each command's body on the state in which it begins. -/
theorem linkAndCheckpointCommandsRun : Obligations.LinkAndCheckpointCommandsRun := by
  refine ⟨?_, ?_, ?_, ?_, ?_⟩
  · intro q e rc inp s starts part ports stays bound flush backing links
    obtain ⟨t, b, run, hb⟩ := takeCmd_begins (body := bodyLinkJobConfig) (rc := rc) (inp := inp) starts (by decide)
    have sets := bodyLinkJobConfig_sets (n := 0) hb rfl bound flush backing links
    obtain ⟨k, only⟩ := each_onJob_only Config.linkIds part (fun j => { j with flush := opnd e 1 1 }) b
    have jobs (st : Nat) (mem : st ∈ Config.linkIds) : jobOf (flushSet part (opnd e 1 1) b) st part = { jobOf s st part with flush := opnd e 1 1 } := by
      rw [flushSet, each_onJob Config.linkIds (by decide), if_pos mem, jobOf, State.linkSt, hb.link]
      rfl
    have set_ : flushSet part (opnd e 1 1) b = { b with link := k } := only
    rw [set_] at sets jobs
    obtain ⟨u, exec, completed, bare, -⟩ := hb.finishes (congrArg Host.Outcome.next (run.trans sets)) rfl rfl rfl rfl rfl hb.now
    have link : u.link = k := congrArg (fun u : State => u.link) bare
    refine ⟨u, exec, completed, fun st mem => ?_, ?_⟩
    · rw [← jobs st mem]
      exact congrArg (fun l => tget ({} : Job) (tget ({} : LinkSt) l st).jobs part) link
    · rw [link]
      refine bare.trans ?_
      have doms : (tset s.doms part { s.dom part with portMap := ports }) = tset b.doms part { b.dom part with portMap := ports } := by
        rw [hb.doms, hb.dom_eq]
      rw [doms]
      exact congrArg (fun v : State => ({ v with link := k, doms := tset b.doms part { b.dom part with portMap := ports } } : State)) hb.bare
  · intro q e rc inp s starts dst n part seq st c link src off access alone
    obtain ⟨t, b, run, hb⟩ := takeCmd_begins (body := bodyBulkCopy) (rc := rc) (inp := inp) starts (by decide)
    have settles := run.trans (bodyBulkCopy_settles (n := 0) hb link src off access)
    have found := hb.held_found (c := { b with copies := s.copies ++ [copyOf q e s] }) 1 [] rfl
    obtain ⟨t', there, name⟩ : ∃ t', ({ t with phase := 2, aux := 1, inp := [] } : Taken) = t' ∧ t'.e = e := ⟨_, rfl, hb.te⟩
    rw [there, hb.tq, hb.tseq] at found
    have runs : Running q e 1 s (holdResult t 1 [] { b with copies := s.copies ++ [copyOf q e s] }) := hb.holds 1 [] rfl rfl rfl
    refine ⟨fun some_ => ?_, fun none_ => ?_⟩
    · obtain ⟨m, r, req⟩ := tileReq_of_access access (by omega)
      have asks := settleCopy_asks (c := copyOf q e s) (s := holdResult t 1 [] { b with copies := s.copies ++ [copyOf q e s] }) found some_ rfl rfl
        ((hb.bareOf (fun u => tileReq u part c.obj c.first false) fun _ => rfl).trans req)
      refine ⟨m, r, _, req, congrArg Host.Outcome.next (settles.trans asks), ⟨runs.fence, runs.queue, runs.taken, runs.fences, runs.queues⟩, ?_,
        List.mem_cons_self ..⟩
      have copies := asked_last (c := c) (c' := { c with asked := true }) alone
      exact congr (congrArg (fun (u : State) l => ({ u with copies := l } : State)) hb.bare) copies
    · have left := left_last (c := c) alone
      have same : ({ holdResult t 1 [] { b with copies := s.copies ++ [copyOf q e s] } with
          copies := (s.copies ++ [c]).filter fun x => !(x.q == c.q && x.seq == c.seq) } : State) = holdResult t 1 [] b := by
        rw [left, ← hb.copies]
        rfl
      have station : linkFor (holdResult t 1 [] b) part dst = st := hb.bareOf (fun u => linkFor u part dst) fun _ => rfl
      have held : Running q e 1 s (holdResult t 1 [] b) := hb.holds 1 [] rfl rfl rfl
      have bare : (holdResult t 1 [] b).bare = s.bare := hb.bare
      have fence : envFence t'.e = envFence e := congrArg envFence name
      have waiting : ((holdResult t 1 [] b).linkSt st).waiting = (s.linkSt st).waiting := congrArg LinkSt.waiting (hb.linkSt_eq st)
      have sent := settles.trans (settleCopy_ends (c := copyOf q e s) found (Nat.le_of_eq none_) same)
      generalize holdResult t 1 [] b = w at station held bare waiting sent
      refine ⟨flushQueued t' part dst st w,
        congrArg Host.Outcome.next (sent.trans (keepSend_flush station)), ⟨held.fence, held.queue, held.taken, held.fences, held.queues⟩, ?_,
        keepFlush t' part dst w, rfl, rfl, fence, ?_⟩
      · exact congrArg (fun u : State => ({ u with link := (flushQueued t' part dst st w).link } : State)) bare
      · rw [flushQueued_waiting, waiting]
  · intro q e rc inp s starts n num idx mode part d k tiles bytes body hdr sealed_ rcd holders two links shard idxOk cls aligned numOk calm later access room
    obtain ⟨t, b, run, hb⟩ := takeCmd_begins (body := bodyCkptSend) (rc := rc) (inp := inp) starts (by decide)
    have sends := bodyCkptSend_sends hb rfl rfl two links shard idxOk cls aligned numOk calm later access room
    refine ⟨t, _, hb.tq, hb.tseq, hb.te, congrArg Host.Outcome.next (run.trans sends), hb.holds _ _ rfl rfl rfl, ?_,
      fun x v => ⟨chunkReqs_record t part x.1 x.2.1 x.2.2 rcd v, ?_⟩⟩
    · have keys : (b.metered part 5 bytes).keys = s.keys := (hb.metered part 5 bytes).keys
      have key : (b.metered part 5 bytes).key d.ckptSlot = k := (hb.metered part 5 bytes).key_eq _
      have marked : tset (b.metered part 5 bytes).keys d.ckptSlot { (b.metered part 5 bytes).key d.ckptSlot with ckpt := some (num, idx) } =
          tset s.keys d.ckptSlot { k with ckpt := some (num, idx) } := by rw [keys, key]
      exact congr (congrArg (fun (u : State) ks => ({ u with keys := ks } : State)) (hb.metered part 5 bytes).bare) marked
    · have each_ := chunkReqs_each t part x.1 x.2.1 x.2.2 rcd v
      rw [hb.te] at each_
      exact each_
  · intro q e rc inp s starts h off part k len opened text access aligned whole there cls opens tiles bytes fits reads writes
    obtain ⟨t, b, run, hb⟩ := takeCmd_begins (body := bodyCkptRestore) (rc := rc) (inp := inp) starts (by decide)
    have restores := bodyCkptRestore_writes hb rfl rfl access aligned whole there cls opens rfl fits reads writes
    obtain ⟨o, only, out⟩ := each_emit tiles.zipIdx (fun x => .tileWrite h (off / 8192 + x.2) x.1.1 x.1.2.1 x.1.2.2)
      ((b.metered part 5 (48 + len)).metered part 4 bytes)
    have writes' := restores.trans (congrArg (done t (le 4 tiles.length)) only)
    obtain ⟨u, exec, completed, bare, emitted⟩ := hb.finishes (congrArg Host.Outcome.next (run.trans writes')) rfl rfl rfl rfl rfl hb.now
    exact ⟨u, exec, completed, bare.trans ((hb.metered part 5 (48 + len)).metered part 4 bytes).bare,
      fun x mem => emitted _ (List.mem_append_left _ (out x mem))⟩
  · intro q e rc inp s starts missing shards read cols mode out part modeOk mask two named reads access readRoom writeRoom
    obtain ⟨t, b, run, hb⟩ := takeCmd_begins (body := bodyParityRebuild) (rc := rc) (inp := inp) starts (by decide)
    have rebuilds := bodyParityRebuild_writes hb rfl rfl rfl rfl rfl rfl modeOk mask two named reads access readRoom writeRoom
    obtain ⟨u, exec, completed, bare, emitted⟩ := hb.finishes (congrArg Host.Outcome.next (run.trans rebuilds)) rfl rfl rfl rfl rfl hb.now
    exact ⟨u, exec, completed, bare.trans ((hb.metered part 5 read).metered part 4 out.length).bare, emitted _ (List.mem_cons_self ..)⟩

end Sys2Proof.Machine
end

section
/-! PROOF of O50. The fault commands and the stop commands. -/

namespace Sys2Proof.Machine
open Sys2Proof Sys2Proof.Crypto

variable {q n : Nat} {e : BitVec 1024} {inp : Bytes} {s b : State} {t : Taken}

theorem word_began (hb : Began q e inp s t b) (u : Nat) : b.word u = s.word u := hb.bareOf (fun v => v.word u) fun _ => rfl

/-! ### FAULT_CLEAR (10 R334) -/

/-- The classes that a mask of FAULT_CLEAR names: Degrade and Severe. -/
def namedClasses (m : Nat) : List Nat := [2, 3].filter fun c => m / 2 ^ (c - 1) % 2 == 1

/-- Where each class named may be cleared, the bits taken off are the mask's own, and none of them is left. -/
theorem namedClasses_cleared {w : FaultWord} {m : Nat} (even : m % 2 = 0) (small : m < 8) (degrade : m / 2 % 2 = 1 → mayClear w 2 = true)
    (severe : m / 4 % 2 = 1 → mayClear w 3 = true) :
    ((namedClasses m).filter fun c => mayClear w c).foldl (fun a c => a ||| (1#4 <<< (c - 1))) 0 = BitVec.ofNat 4 m ∧
    ((namedClasses m).any fun c => (w.uncleared &&& ~~~BitVec.ofNat 4 m).getLsbD (c - 1)) = false := by
  have masks : m = 0 ∨ m = 2 ∨ m = 4 ∨ m = 6 := by omega
  rcases masks with rfl | rfl | rfl | rfl
  · exact ⟨rfl, rfl⟩
  · have named : namedClasses 2 = [2] := rfl
    rw [named, List.filter_cons_of_pos (degrade rfl), List.filter_nil]
    simp
  · have named : namedClasses 4 = [3] := rfl
    rw [named, List.filter_cons_of_pos (severe rfl), List.filter_nil]
    simp
  · have named : namedClasses 6 = [2, 3] := rfl
    rw [named, List.filter_cons_of_pos (degrade rfl), List.filter_cons_of_pos (severe rfl), List.filter_nil]
    simp

/-- The classes of a mask taken out of a unit's uncleared ones. -/
def cleared (u m : Nat) (s : State) : State :=
  { s with flt := { s.flt with words := tset s.flt.words u { s.word u with uncleared := (s.word u).uncleared &&& ~~~BitVec.ofNat 4 m } } }

theorem bodyFaultClear_clears (hb : Began q e inp s t b) (unit : isUnit (opnd e 0 1) = true) (even : opnd e 1 1 % 2 = 0) (small : opnd e 1 1 < 8)
    (degrade : opnd e 1 1 / 2 % 2 = 1 → mayClear (s.word (opnd e 0 1)) 2 = true)
    (severe : opnd e 1 1 / 4 % 2 = 1 → mayClear (s.word (opnd e 0 1)) 3 = true) :
    bodyFaultClear t n inp b =
      done t (le 1 ((s.word (opnd e 0 1)).uncleared &&& ~~~BitVec.ofNat 4 (opnd e 1 1)).toNat) (cleared (opnd e 0 1) (opnd e 1 1) b) := by
  have formed : ¬((!isUnit (opnd e 0 1)) = true ∨ opnd e 1 1 % 2 = 1 ∨ 8 ≤ opnd e 1 1) := by
    rw [unit]
    simp only [Bool.not_true, Bool.false_eq_true, false_or]
    omega
  rw [← word_began hb] at degrade severe ⊢
  obtain ⟨mask, gone⟩ := namedClasses_cleared even small degrade severe
  rw [namedClasses] at mask gone
  simp only [bodyFaultClear, hb.te, if_neg formed]
  rw [mask, gone]
  rfl

/-! ### FAULT_THRESHOLD and HEDGEHOG_POLICY (10 R341) -/

/-- The units that a threshold of a source is set at. -/
def thresholdUnits (src u : Nat) : List Nat := if u = 0xFF then sourceUnits src else (sourceUnits src).filter (· == u)

theorem mem_thresholdUnits {src u v : Nat} : v ∈ thresholdUnits src u ↔ v ∈ sourceUnits src ∧ (u = 0xFF ∨ u = v) := by
  unfold thresholdUnits
  split
  · rename_i all
    simp [all]
  · rename_i one
    simp only [List.mem_filter, beq_iff_eq, one, false_or]
    exact and_congr_right fun _ => eq_comm

/-- The windows of a source with a new threshold at the units it is set at. -/
def thresholdSet (src u n w : Nat) (ws : List ((Nat × Nat) × Window)) : List ((Nat × Nat) × Window) :=
  (thresholdUnits src u).foldl (fun ws u => setWin ws (u, src) { findWin ws (u, src) with n := some n, w := some (Config.us w) }) ws

theorem bodyFaultThreshold_sets (hb : Began q e inp s t b) (valid : thresholdOk (opnd e 0 1) (opnd e 2 2) (opnd e 4 4) = true)
    (some_ : ∃ x ∈ sourceUnits (opnd e 0 1), opnd e 1 1 = 0xFF ∨ opnd e 1 1 = x) :
    bodyFaultThreshold t n inp b = done t [] { b with flt := { b.flt with
      windows := thresholdSet (opnd e 0 1) (opnd e 1 1) (opnd e 2 2) (opnd e 4 4) b.flt.windows } } := by
  obtain ⟨x, source, named⟩ := some_
  have unit : (thresholdUnits (opnd e 0 1) (opnd e 1 1)).isEmpty = false :=
    List.isEmpty_eq_false_iff_exists_mem.mpr ⟨x, mem_thresholdUnits.mpr ⟨source, named⟩⟩
  rw [thresholdUnits] at unit
  simp only [bodyFaultThreshold, hb.te, valid, unit, Bool.not_true, Bool.false_eq_true, or_self, if_false]
  rfl

theorem bodyHedgehogPolicy_raises (hb : Began q e inp s t b) (stronger : s.keep.policy ≤ opnd e 0 1)
    (allowed : policyAllowed (lcCode s.aon) (opnd e 0 1) = true) :
    bodyHedgehogPolicy t n inp b = done t (le 1 (opnd e 0 1)) { b with keep := { b.keep with policy := opnd e 0 1 } } := by
  have policy : b.keep.policy = s.keep.policy := hb.bareOf (fun u => u.keep.policy) fun _ => rfl
  have stays : ¬(opnd e 0 1 < b.keep.policy ∨ (!policyAllowed (lcCode b.aon) (opnd e 0 1)) = true) := by
    rw [policy, hb.aon, allowed]
    simp only [Bool.not_true, Bool.false_eq_true, or_false]
    omega
  simp only [bodyHedgehogPolicy, hb.te]
  rw [if_neg stays]

/-! ### FAULT_INJECT (10 R348, R349) -/

theorem bodyFaultInject_injects (hb : Began q e inp s t b) (notScrap : lcCode s.aon ≠ 4 ∧ lcCode s.aon ≠ 6) (unit : isUnit (opnd e 0 1) = true)
    (least : 1 ≤ opnd e 1 1) (most : opnd e 1 1 ≤ 5) :
    bodyFaultInject t n inp b = if opnd e 1 1 = 5 then lockdown 9 0 (done t (le 4 s.flt.logSeq) b)
      else faultAs (opnd e 0 1) 0x28 (opnd e 1 1) 0xFFFF 0 (done t (le 4 s.flt.logSeq) b) := by
  have formed : ¬(lcCode s.aon = 4 ∨ lcCode s.aon = 6 ∨ (!isUnit (opnd e 0 1)) = true ∨ opnd e 1 1 = 0 ∨ 5 < opnd e 1 1) := by
    rw [unit]
    simp only [Bool.not_true, Bool.false_eq_true, false_or, notScrap.1, notScrap.2]
    omega
  simp only [bodyFaultInject, hb.te, hb.aon, hb.flt, if_neg formed]

/-- The mark that a fault of a class that does not last leaves on its unit. -/
theorem faultAs_marks {u src c f : Nat} {d : BitVec 64} (momentary : lasting src = false) (unlocked : s.aon.lockdown = false) :
    (faultAs u src c f d s).flt.logSeq = (s.flt.logSeq + 1) % 2 ^ 32 ∧
      (faultAs u src c f d s).word u = {
        last := src
        uncleared := (s.word u).uncleared ||| (1#4 <<< (escalate (s.word u).unack c - 1))
        unack := (s.word u).unack ||| (1#4 <<< (escalate (s.word u).unack c - 1))
        active := (s.word u).active } := by
  obtain ⟨words, seq⟩ := raise_flt u src c false 1 f d (countFault u src s) unlocked
  refine ⟨seq, (congrArg (fun w : Tab FaultWord => tget ({} : FaultWord) w u) words).trans ((tget_tset_same ..).trans ?_)⟩
  rw [momentary, if_neg Bool.false_ne_true]
  rfl

/-! ### Stops (11 R351 to R357) -/

theorem leadOk_of {lead : Nat} (least : 4 ≤ lead) (most : lead ≤ 255) : leadOk lead = true := by
  rw [leadOk, decide_eq_true least, decide_eq_true most]
  rfl

theorem bodyStopWave_block (hb : Began q e inp s t b) (free : s.stop.inForce = false) (lead : leadOk (opnd e 2 1) = true) (scope : opnd e 0 1 = 1) :
    bodyStopWave t n inp b = keepRunning t 0 (stampStop (BitVec.ofNat 64 (opnd e 4 4)) false (opnd e 1 1) (s.now + opnd e 2 1) b) := by
  have ok : stopScopeOk b t = true := by
    rw [stopScopeOk, hb.te, scope]
    rfl
  simp only [bodyStopWave, ok, hb.te, hb.stop, free, lead, scope, hb.ttaken, Bool.not_true, Bool.false_eq_true, or_self, if_false, Nat.reduceEqDiff,
    Nat.add_zero]
  rfl

theorem bodyStopWave_domain (hb : Began q e inp s t b) (free : s.stop.inForce = false) (lead : leadOk (opnd e 2 1) = true) (scope : opnd e 0 1 = 2)
    (formed : (s.dom (opnd e 1 1)).state = 4) (anchor : isAnchor (s.dom (opnd e 1 1)) = true) :
    bodyStopWave t n inp b = keepRunning t 0
      (stampStop (BitVec.ofNat 64 (opnd e 4 4 + (s.dom (opnd e 1 1)).domain * 2 ^ 40)) true (opnd e 1 1) (s.now + opnd e 2 1)
        (mailAll (opnd e 1 1) (downTree (s.dom (opnd e 1 1))) 0x30
          (stopBody (BitVec.ofNat 64 (opnd e 4 4 + (s.dom (opnd e 1 1)).domain * 2 ^ 40)) (opnd e 2 1)) b)) := by
  have ok : stopScopeOk b t = true := by
    simp [stopScopeOk, hb.te, hb.dom_eq, scope, formed, anchor]
  simp only [bodyStopWave, ok, hb.te, hb.stop, hb.dom_eq, free, lead, scope, hb.ttaken, Bool.not_true, Bool.false_eq_true, or_self, if_false, if_true]
  rfl

theorem bodyStopResume_block (hb : Began q e inp s t b) (stopped : s.stop.inForce = true) (first : s.stop.resume = none)
    (lead : leadOk (opnd e 2 1) = true) (scope : opnd e 0 1 = 1) (block : s.stop.domain = false) :
    bodyStopResume t n inp b = keepRunning t 0 (stampResume (s.now + opnd e 2 1) b) := by
  simp [bodyStopResume, hb.te, hb.stop, stopped, first, lead, scope, block, hb.ttaken]

theorem bodyStopResume_domain (hb : Began q e inp s t b) (stopped : s.stop.inForce = true) (first : s.stop.resume = none)
    (lead : leadOk (opnd e 2 1) = true) (scope : opnd e 0 1 = 2) (domain : s.stop.domain = true) (own : opnd e 1 1 = s.stop.part) :
    bodyStopResume t n inp b = keepRunning t 0 (stampResume (s.now + opnd e 2 1)
      (mailAll (opnd e 1 1) (downTree (s.dom (opnd e 1 1))) 0x31 (stopBody s.stop.id (opnd e 2 1)) b)) := by
  simp [bodyStopResume, hb.te, hb.stop, hb.dom_eq, stopped, first, lead, scope, domain, own, hb.ttaken]

theorem bodyStopRecords_waits (hb : Began q e inp s t b) (ever : s.stop.ever = true) (stopped : s.keepStopped = true) :
    bodyStopRecords t n inp b = keepRunning t 0 b := by
  have stoppedB : b.keepStopped = true := (hb.bareOf State.keepStopped fun _ => rfl).trans stopped
  simp only [bodyStopRecords, hb.stop, ever, stoppedB, Bool.not_true, Bool.false_eq_true, if_false, if_true]

theorem bodyStopRecords_writes (hb : Began q e inp s t b) (ever : s.stop.ever = true) (going : s.keepStopped = false)
    (access : objAccess s (accPart s { q := q } (opnd e 0 4)) (opnd e 0 4) (opnd e 4 5) (stationIds.map (stopRecBytes s)).flatten.length true = 0)
    (room : MeterFits s (accPart s { q := q } (opnd e 0 4)) 4 (stationIds.map (stopRecBytes s)).flatten.length) :
    bodyStopRecords t n inp b = done t (le 2 stationIds.length) (emit (.objWrite (opnd e 0 4) (opnd e 4 5) (stationIds.map (stopRecBytes s)).flatten)
      (b.metered (accPart s { q := q } (opnd e 0 4)) 4 (stationIds.map (stopRecBytes s)).flatten.length)) := by
  have goingB : b.keepStopped = false := (hb.bareOf State.keepStopped fun _ => rfl).trans going
  have records : stopRecBytes b = stopRecBytes s := hb.bareOf stopRecBytes fun _ => rfl
  simp only [bodyStopRecords, writeStopRecords, hb.te, hb.stop, ever, goingB, records, hb.accPart, Bool.not_true, Bool.false_eq_true, if_false]
  rw [hb.writes access room]

/-- Settles O50: each command's body on the state in which it begins. -/
theorem faultAndStopCommandsRun : Obligations.FaultAndStopCommandsRun := by
  refine ⟨?_, ?_, ?_, ?_, ?_, ?_, ?_⟩
  · intro q e rc inp s starts u m w left unit even small degrade severe
    obtain ⟨t, b, run, hb⟩ := takeCmd_begins (body := bodyFaultClear) (rc := rc) (inp := inp) starts (by decide)
    have clears := run.trans (bodyFaultClear_clears (n := 0) hb unit even small degrade severe)
    obtain ⟨c, exec, completed, bare, -⟩ := hb.finishes (congrArg Host.Outcome.next clears) rfl rfl rfl rfl rfl hb.now
    exact ⟨c, exec, completed, bare.trans (congrArg (cleared u m) hb.bare)⟩
  · intro q e rc inp s starts src u n w valid some_
    obtain ⟨t, b, run, hb⟩ := takeCmd_begins (body := bodyFaultThreshold) (rc := rc) (inp := inp) starts (by decide)
    have sets := run.trans (bodyFaultThreshold_sets (n := 0) hb valid some_)
    generalize hws : thresholdSet (opnd e 0 1) (opnd e 1 1) (opnd e 2 2) (opnd e 4 4) b.flt.windows = ws at sets
    obtain ⟨c, exec, completed, bare, -⟩ := hb.finishes (congrArg Host.Outcome.next sets) rfl rfl rfl rfl rfl hb.now
    have windows : c.flt.windows = ws := congrArg (fun v : State => v.flt.windows) bare
    refine ⟨c, exec, completed, ?_, fun k => ?_⟩
    · rw [windows]
      exact bare.trans (congrArg (fun v : State => ({ v with flt := { v.flt with windows := ws } } : State)) hb.bare)
    · rw [windows, ← hws, hb.flt, thresholdSet, windows_fold]
      simp only [mem_thresholdUnits]
      rfl
  · intro q e rc inp s starts p stronger allowed
    obtain ⟨t, b, run, hb⟩ := takeCmd_begins (body := bodyHedgehogPolicy) (rc := rc) (inp := inp) starts (by decide)
    have raises := run.trans (bodyHedgehogPolicy_raises (n := 0) hb stronger allowed)
    obtain ⟨c, exec, completed, bare, -⟩ := hb.finishes (congrArg Host.Outcome.next raises) rfl rfl rfl rfl rfl hb.now
    exact ⟨c, exec, completed, bare.trans (congrArg (fun v : State => ({ v with keep := { v.keep with policy := p } } : State)) hb.bare)⟩
  · intro q e rc inp s starts u c notScrap notRma unit least most w k
    obtain ⟨t, b, run, hb⟩ := takeCmd_begins (body := bodyFaultInject) (rc := rc) (inp := inp) starts (by decide)
    have injects := run.trans (bodyFaultInject_injects (n := 0) hb ⟨notScrap, notRma⟩ unit least most)
    refine ⟨t, b, hb, fun five => congrArg Host.Outcome.next (injects.trans (if_pos five)),
      fun other => ⟨congrArg Host.Outcome.next (injects.trans (if_neg other)), fun unlocked => ?_⟩⟩
    obtain ⟨flt, aon⟩ := (complete_ended t 0 0 (le 4 s.flt.logSeq) b).flt_aon
    rw [hb.flt] at flt
    rw [hb.aon] at aon
    have word : (done t (le 4 s.flt.logSeq) b).word u = w := congrArg (fun f : Faults => tget ({} : FaultWord) f.words u) flt
    obtain ⟨seq, marked⟩ := faultAs_marks (u := u) (src := 0x28) (c := c) (f := 0xFFFF) (d := 0) (s := done t (le 4 s.flt.logSeq) b) rfl
      ((congrArg Aon.lockdown aon).trans unlocked)
    rw [word] at marked
    exact ⟨seq.trans (congrArg (fun f : Faults => (f.logSeq + 1) % 2 ^ 32) flt), marked⟩
  · intro q e rc inp s starts part lead free least most
    obtain ⟨t, b, run, hb⟩ := takeCmd_begins (body := bodyStopWave) (rc := rc) (inp := inp) starts (by decide)
    have ok := leadOk_of least most
    refine ⟨fun scope => ?_, fun scope formed anchor => ?_⟩
    · have stops := run.trans (bodyStopWave_block (n := 0) hb free ok scope)
      obtain ⟨m, l, h, only⟩ := stampStop_only (BitVec.ofNat 64 (opnd e 4 4)) false (opnd e 1 1) (s.now + opnd e 2 1) b
      refine ⟨_, congrArg Host.Outcome.next stops, hb.runs 0 ?_ ?_ ?_, ?_, fun u mem => ?_⟩
      · rw [only]
      · rw [only]
      · rw [only]
      · rw [keepRunning_stop, only]
      · rw [keepRunning_port, stampStop_port _ _ _ _ _ _ mem, hb.port]
    · exact ⟨t, b, hb, congrArg Host.Outcome.next (run.trans (bodyStopWave_domain hb free ok scope formed anchor))⟩
  · intro q e rc inp s starts part lead stopped first least most
    obtain ⟨t, b, run, hb⟩ := takeCmd_begins (body := bodyStopResume) (rc := rc) (inp := inp) starts (by decide)
    have ok := leadOk_of least most
    refine ⟨fun scope block => ?_, fun scope domain own => ?_⟩
    · have resumes := run.trans (bodyStopResume_block (n := 0) hb stopped first ok scope block)
      obtain ⟨m, l, h, only⟩ := stampResume_only (s.now + opnd e 2 1) b
      refine ⟨_, congrArg Host.Outcome.next resumes, hb.runs 0 ?_ ?_ ?_, ?_, fun u mem => ?_⟩
      · rw [only]
      · rw [only]
      · rw [only]
      · rw [keepRunning_stop, only, ← hb.stop]
      · rw [keepRunning_port, stampResume_port _ _ _ mem, hb.port]
    · exact ⟨t, b, hb, congrArg Host.Outcome.next (run.trans (bodyStopResume_domain hb stopped first ok scope domain own))⟩
  · intro q e rc inp s starts ever
    obtain ⟨t, b, run, hb⟩ := takeCmd_begins (body := bodyStopRecords) (rc := rc) (inp := inp) starts (by decide)
    refine ⟨fun stopped => ?_, ?_⟩
    · exact ⟨_, congrArg Host.Outcome.next (run.trans (bodyStopRecords_waits hb ever stopped)), hb.runs 0 rfl rfl rfl,
        (keepRunning_bare ..).trans hb.bare⟩
    · intro h recs payer going access room
      have writes := run.trans (bodyStopRecords_writes (n := 0) hb ever going access room)
      change _ = done t (le 2 stationIds.length) (emit (.objWrite h (opnd e 4 5) recs) (b.metered payer 4 recs.length)) at writes
      clear_value recs
      obtain ⟨u, exec, completed, bare, emitted⟩ := hb.finishes (congrArg Host.Outcome.next writes) rfl rfl rfl rfl rfl hb.now
      exact ⟨u, exec, completed, bare.trans (hb.metered payer 4 recs.length).bare, emitted _ (List.mem_cons_self ..)⟩

end Sys2Proof.Machine
end

section
/-! PROOF of O51. Tamper trips, keepway frames, fault windows, safe-state entry, and the stamps of a stop. -/

namespace Sys2Proof.Machine
open Sys2Proof Sys2Proof.Crypto

variable {s : State}

/-! ### Lockdown (10 R346, R347) -/

/-- What a lockdown's policy has erased before the units are held. -/
theorem locked_erased (p : Nat) (s : State) :
    (1 ≤ p → (lock3 p (lock2 p (lock1 p s))).keys = [] ∧ (lock3 p (lock2 p (lock1 p s))).keep.scratch.cells = []) ∧
    (p = 0 → lock3 p (lock2 p (lock1 p s)) = s) ∧
    (2 ≤ p → (lock3 p (lock2 p (lock1 p s))).aon.vault = [] ∧ (lock3 p (lock2 p (lock1 p s))).aon.vaultAt = none) := by
  unfold lock1 lock2 lock3
  refine ⟨fun one => ?_, fun zero => ?_, fun two => ?_⟩
  · rw [if_pos one]
    split
    · split
      · exact ⟨rfl, rfl⟩
      · exact ⟨rfl, rfl⟩
    · split
      · exact ⟨rfl, rfl⟩
      · exact ⟨rfl, rfl⟩
  · subst zero
    rfl
  · rw [if_pos two, if_pos (by omega : 1 ≤ p)]
    split
    · exact ⟨rfl, rfl⟩
    · exact ⟨rfl, rfl⟩

/-- And what it leaves as the trip set it. -/
theorem locked_kept (p : Nat) (s : State) : (lock3 p (lock2 p (lock1 p s))).flt = s.flt ∧
    (lock3 p (lock2 p (lock1 p s))).aon.lockdown = s.aon.lockdown ∧ (lock3 p (lock2 p (lock1 p s))).aon.alarm = s.aon.alarm ∧
    (lock3 p (lock2 p (lock1 p s))).aon.phase = s.aon.phase ∧ (lock3 p (lock2 p (lock1 p s))).aon.cause = s.aon.cause ∧
    (lock3 p (lock2 p (lock1 p s))).aon.trip = s.aon.trip := by
  have first (s : State) : (lock1 p s).flt = s.flt ∧ (lock1 p s).aon = s.aon := by
    unfold lock1
    split
    · exact ⟨rfl, rfl⟩
    · exact ⟨rfl, rfl⟩
  have third (s : State) : (lock3 p s).flt = s.flt ∧ (lock3 p s).aon = s.aon := by
    unfold lock3
    split
    · exact ⟨rfl, rfl⟩
    · exact ⟨rfl, rfl⟩
  rw [(third _).1, (third _).2]
  unfold lock2
  split
  · rw [← (first s).1, ← (first s).2]
    exact ⟨rfl, rfl, rfl, rfl, rfl, rfl⟩
  · rw [(first s).1, (first s).2]
    exact ⟨rfl, rfl, rfl, rfl, rfl, rfl⟩

/-! ### Keepway frames (01 R18) -/

/-- A bad frame's counts and a lost stamp change neither the fault windows nor the time. -/
theorem badFrame_kept (node u : Nat) (lost : Bool) (s : State) :
    let c := if lost then s.onPort u fun p => { p with stopAt := none, resumeAt := none } else s
    (countFault node 0x10 (bump node 3 1 c)).flt = s.flt ∧ (countFault node 0x10 (bump node 3 1 c)).aon = s.aon := by
  intro c
  have kept : c.flt = s.flt ∧ c.aon = s.aon := by
    unfold c
    split
    · rw [onPort_frame]
      exact ⟨rfl, rfl⟩
    · exact ⟨rfl, rfl⟩
  obtain ⟨flt, aon⟩ := (Ended.bump node 3 1 c).flt_aon
  exact ⟨flt.trans kept.1, aon.trans kept.2⟩

/-- What a bad frame does to its link's window, once it has been counted. -/
def crcCounted (node u : Nat) (b : State) : State :=
  let w := findWin b.flt.windows (crcLink node u)
  if w.closeAt.any (b.now ≤ ·) = true then
    raise node 0x10 4 true 2 0xFFFF (BitVec.ofNat 64 u)
      { b with flt := { b.flt with windows := setWin b.flt.windows (crcLink node u) { w with count := 0, closeAt := none } } }
  else { b with flt := { b.flt with windows := setWin b.flt.windows (crcLink node u) { w with count := 1, closeAt := some (b.now + Config.us 1) } } }

theorem crcError_counts {node u : Nat} (lost : Bool) (station : isNode node = true) (up : s.aon.phase = 1) : crcError node u lost s =
    crcCounted node u (countFault node 0x10 (bump node 3 1
      (if lost && isStation u then s.onPort u fun p => { p with stopAt := none, resumeAt := none } else s))) := by
  have acts : ¬(!isNode node || s.aon.phase != 1) = true := by simp [station, up]
  rw [crcError, if_neg acts]
  dsimp only
  generalize countFault _ _ _ = b
  unfold crcCounted
  dsimp only
  cases (findWin b.flt.windows (crcLink node u)).closeAt with
  | none => rfl
  | some x => rfl

/-- A fault window found in a table each of whose windows has been changed under its own key. -/
theorem findWin_map (f : (Nat × Nat) → Window → Window) (fresh : ∀ k, f k {} = {}) (ws : List ((Nat × Nat) × Window)) (k : Nat × Nat) :
    findWin (ws.map fun x => (x.1, f x.1 x.2)) k = f k (findWin ws k) := by
  unfold findWin
  rw [List.find?_map]
  have same : ((fun w : (Nat × Nat) × Window => w.1 == k) ∘ fun x : (Nat × Nat) × Window => (x.1, f x.1 x.2)) = fun w => w.1 == k := rfl
  rw [same]
  cases found : ws.find? fun w => w.1 == k with
  | none => exact (fresh k).symm
  | some w =>
    have own : w.1 = k := by simpa using List.find?_some found
    rw [← own]
    rfl

/-- A window that a close of the source at the unit finds. -/
def closedWindow (u src now : Nat) (k : Nat × Nat) (w : Window) : Window :=
  if k.1 = u ∧ k.2 % 256 = src ∧ w.closeAt.any (· ≤ now) = true then { w with count := 0, closeAt := none } else w

theorem windowClose_map (u src : Nat) (s : State) : windowClose u src s =
    { s with flt := { s.flt with windows := s.flt.windows.map fun x => (x.1, closedWindow u src s.now x.1 x.2) } } := by
  have each_ : ∀ x : (Nat × Nat) × Window, (if x.1.1 = u ∧ x.1.2 % 256 = src then (x.1, match x.2.closeAt with
      | some t => if t ≤ s.now then { x.2 with count := 0, closeAt := none } else x.2
      | none => x.2) else x) = (x.1, closedWindow u src s.now x.1 x.2) := by
    intro x
    unfold closedWindow
    by_cases named : x.1.1 = u ∧ x.1.2 % 256 = src
    · rw [if_pos named]
      cases x.2.closeAt with
      | none => simp
      | some t => simp [named.1, named.2]
    · rw [if_neg named, if_neg fun all => named ⟨all.1, all.2.1⟩]
  refine congrArg (fun l : List ((Nat × Nat) × Window) => ({ s with flt := { s.flt with windows := l } } : State)) ?_
  exact List.map_congr_left fun x _ => each_ x

/-! ### Safe state and link down (01 R33, 05 R168) -/

theorem not_isLink_of_isMem {u : Nat} (mem : isMem u = true) : isLink u = false := by
  cases link : isLink u with
  | false => rfl
  | true => exact absurd ((not_isMem_of_isLink link).symm.trans mem) Bool.false_ne_true

theorem cutEmission_other {u : Nat} (other : isLink u = false) (cut : List Nat) (s : State) : cutEmission u cut s = s := by
  rw [cutEmission, other]
  rfl

/-- Settles O51, each event by the branch it takes. -/
theorem faultEventsAndStopStampsAct : Obligations.FaultEventsAndStopStampsAct := by
  refine ⟨?_, ?_, ?_, ?_, ?_, ?_, ?_, fun s => rfl, fun s => rfl, ?_, ?_, ?_⟩
  · intro v s trips unlocked w
    have runs : hedgehogTrip v s = lockdown (tripCause w) w s := if_neg trips
    rw [lockdown_eq unlocked] at runs
    obtain ⟨erased, kept, vault⟩ := locked_erased s.keep.policy (lockB (tripCause w) w s)
    obtain ⟨flt, lock, alarm, phase, cause, trip⟩ := locked_kept s.keep.policy (lockB (tripCause w) w s)
    refine ⟨_, congrArg Host.Outcome.next runs, lock, alarm, phase, cause, trip, congrArg Faults.blockSafe flt, rfl, fun u _ => opened_hold _ u,
      erased,
      fun zero => (congrArg (fun u : State => (holdAll u).keys) (kept zero)).trans rfl, vault⟩
  · exact fun v s still => congrArg Host.Outcome.next (if_pos still)
  · intro node u stamp s station up c b k w
    obtain ⟨flt, aon⟩ := badFrame_kept node u (stamp && isStation u) s
    have counts : crcError node u stamp s = crcCounted node u b := crcError_counts stamp station up
    have windows : b.flt.windows = s.flt.windows := congrArg Faults.windows flt
    have now : b.now = s.now := congrArg Aon.time aon
    clear_value b
    refine ⟨fun over_ => congrArg Host.Outcome.next (counts.trans ?_), fun x closes again => congrArg Host.Outcome.next (counts.trans ?_)⟩
    · have first : ¬(findWin s.flt.windows (crcLink node u)).closeAt.any (s.now ≤ ·) = true := by
        cases closes : (findWin s.flt.windows (crcLink node u)).closeAt with
        | none => exact Bool.false_ne_true
        | some x => exact fun again => absurd (of_decide_eq_true again) (Nat.not_le.mpr (over_ x closes))
      rw [crcCounted, windows, now, if_neg first]
    · have second : (findWin s.flt.windows (crcLink node u)).closeAt.any (s.now ≤ ·) = true := by
        rw [show (findWin s.flt.windows (crcLink node u)).closeAt = some x from closes]
        exact decide_eq_true again
      rw [crcCounted, windows, now, if_pos second]
  · intro u src s
    refine ⟨_, congrArg Host.Outcome.next (windowClose_map u src.toNat s), rfl, fun k => ?_⟩
    exact findWin_map (closedWindow u src.toNat s.now) (fun k => by simp [closedWindow]) s.flt.windows k
  · intro u cut s safe
    have unsafe_ : ¬(!s.isSafe u) = true := by rw [safe]; decide
    refine ⟨fun mem => ?_, fun notMem link => ?_, fun notMem notLink => ?_⟩
    · have runs : safeStation u s = safeMem u s := (if_neg unsafe_).trans (if_pos mem)
      exact congrArg Host.Outcome.next ((cutEmission_other (not_isLink_of_isMem mem) _ _).trans runs)
    · have runs : safeStation u s = closeBundles u (fun _ => true) s :=
        (if_neg unsafe_).trans ((if_neg (by rw [notMem]; decide)).trans (if_pos link))
      refine congrArg Host.Outcome.next (congrArg (cutEmission u cut) (runs.trans ?_))
      rw [closeBundles, filter_all]
    · have runs : safeStation u s = s := (if_neg unsafe_).trans ((if_neg (by rw [notMem]; decide)).trans (if_neg (by rw [notLink]; decide)))
      exact congrArg Host.Outcome.next ((cutEmission_other notLink _ _).trans runs)
  · exact fun port p dev s one attached => congrArg Host.Outcome.next (linkDown_of_one_domain one attached)
  · intro port s free
    refine congrArg Host.Outcome.next (each_idle fun p mem => ?_)
    obtain ⟨d, there, rfl⟩ := List.mem_map.mp mem
    simp only [free d there]
  · intro node u s station lost
    have acts : ¬(!isNode node || !stampLost s u) = true := by simp [station, lost]
    refine ⟨fun going due => ?_, fun going late => ?_, fun r resumes due => ?_, fun r resumes late => ?_⟩
    · have runs : frameRepeat node u s = s.onPort u fun p => { p with stopAt := some s.stop.tick } := by
        rw [frameRepeat, if_neg acts, going]
        exact if_pos due
      exact ⟨_, congrArg Host.Outcome.next runs, port_onPort .., onPort_frame ..⟩
    · have runs : frameRepeat node u s = stopSettled (applyStop u s.now true (bump node 4 1 s)) := by
        rw [frameRepeat, if_neg acts, going]
        exact if_neg (Nat.not_le.mpr late)
      exact congrArg Host.Outcome.next runs
    · have runs : frameRepeat node u s = s.onPort u fun p => { p with resumeAt := some r } := by
        rw [frameRepeat, if_neg acts, resumes]
        exact if_pos due
      exact ⟨_, congrArg Host.Outcome.next runs, port_onPort .., onPort_frame ..⟩
    · have runs : frameRepeat node u s = resumeSettled (applyResume u (bump node 4 1 s)) := by
        rw [frameRepeat, if_neg acts, resumes]
        exact if_neg (Nat.not_le.mpr late)
      exact congrArg Host.Outcome.next runs
  · intro part hdr body s whole arrives formed b u
    refine congrArg Host.Outcome.next ((withMail_arrives arrives).trans ?_)
    exact if_neg fun other => other formed
  · intro part hdr body s whole arrives formed b u
    refine congrArg Host.Outcome.next ((withMail_arrives arrives).trans ?_)
    exact if_neg fun other => other formed

end Sys2Proof.Machine
end

section
/-! PROOF of O42. Host transactions, SPDM requests, IDE key management and TDISP interfaces. -/

namespace Sys2Proof.Machine
open Sys2Proof Sys2Proof.Crypto

variable {s b : State}

/-! ### Host transactions (01 R26, R27, R33) -/

/-- The host station's note of a transaction that it takes in. -/
def hostIntake (tag : Nat) (p : Port) : Port := { p with intake := (p.intake + 1) % 2 ^ 32, lastTag := tag }

/-- The state in which a transaction taken in is checked. -/
def hostTaken (tag : Nat) (s : State) : State := bump Config.hostId 2 1 (s.onPort Config.hostId (hostIntake tag))

/-- All that taking a transaction in changes, besides the counters. -/
theorem hostTaken_quiet (tag : Nat) (s : State) : Quiet { s with host := { s.host with port := hostIntake tag s.host.port } } (hostTaken tag s) :=
  Quiet.bump Config.hostId 2 1 _

section
variable {tag : Nat}

theorem hostTaken_host (tag : Nat) (s : State) : (hostTaken tag s).host = { s.host with port := hostIntake tag s.host.port } :=
  (host_quiet (hostTaken_quiet tag s)).1

theorem hostTaken_key (tag : Nat) (s : State) (i : Nat) : (hostTaken tag s).key i = s.key i :=
  congrArg (fun t : Tab KeySlot => tget ({} : KeySlot) t i) (host_quiet (hostTaken_quiet tag s)).2.1

theorem hostTaken_may (iface stream : Nat) (ide tbit : Bool) (part : Nat) :
    hostMay (hostTaken tag s) iface stream ide tbit part = hostMay s iface stream ide tbit part := by
  have aon : (hostTaken tag s).aon = s.aon := by
    obtain ⟨k, x, v, l, only⟩ := hostTaken_quiet tag s
    rw [only]
  unfold hostMay State.tdispOf State.ideOf
  rw [hostTaken_host, aon]

theorem hostTaken_ideSub (stream sub : Nat) : ideSub (hostTaken tag s) stream sub = ideSub s stream sub := by
  simp only [ideSub, hostTaken_host, hostTaken_key]

theorem hostTaken_chan (u : Nat) : chanOf (hostTaken tag s) u = chanOf s u := by
  obtain ⟨-, -, perm, shift, -⟩ := host_quiet (hostTaken_quiet tag s)
  simp only [chanOf, perm, shift]

end

/-- The request of a host transaction, under the host station's lease. -/
def hostReq (h : HostReq) (s : State) : MReq := { memReq Config.hostId h.req h.data with epoch := s.host.port.cur.epoch }

section
variable {h : HostReq}

theorem hostDma_opened (up : s.portState Config.hostId = .opened) : hostDma h s = hostTry h (hostTaken (hostReq h s).tag s) :=
  if_neg fun shut => shut up

theorem hostReq_taken (tag : Nat) : hostReq h (hostTaken tag s) = hostReq h s := by
  rw [hostReq, hostTaken_host]
  rfl

theorem hostGo_refused (bad : hostMay b h.iface h.stream h.ide h.tbit (hostReq h b).part = false ∨ isWrite (hostReq h b).kind ≠ h.write) :
    hostGo h b = (true, refuseHost (hostReq h b) yeDenied b) := by
  refine if_pos ?_
  rcases bad with barred | kind
  · exact (congrArg (fun x => !x || _) barred).trans rfl
  · exact (congrArg (fun x => _ || x) (bne_iff_ne.mpr kind)).trans (Bool.or_true _)

theorem hostGo_checks (may : hostMay b h.iface h.stream h.ide h.tbit (hostReq h b).part = true) (kind : isWrite (hostReq h b).kind = h.write) :
    ¬(!hostMay b h.iface h.stream h.ide h.tbit (hostReq h b).part || isWrite (hostReq h b).kind != h.write) = true := by
  simp [may, kind]

theorem hostGo_plain (plain : h.ide = false) (may : hostMay b h.iface h.stream h.ide h.tbit (hostReq h b).part = true)
    (kind : isWrite (hostReq h b).kind = h.write) : hostGo h b = (true, forwardHost h (hostReq h b) b) :=
  (if_neg (hostGo_checks may kind)).trans (if_pos (by rw [plain]; rfl))

theorem hostGo_forged {slot gen : Nat} {k : BitVec 256} (sealed_ : h.ide = true)
    (may : hostMay b h.iface h.stream h.ide h.tbit (hostReq h b).part = true) (kind : isWrite (hostReq h b).kind = h.write)
    (sub : ideSub b h.stream (if h.write then 0 else 1) = some (slot, gen)) (kept : (b.key slot).state ≠ 6)
    (cached : (b.port Config.hostId).keys.contains (slot, gen) = true) (half : halfOf (b.key slot) gen = some k)
    (forged : Config.ideOpen k h.data h.mac = none) :
    hostGo h b = (true, refuseHost (hostReq h b) yeTagFail (ideFailure h.stream
      (b.onPort Config.hostId fun p => { p with keys := (slot, gen) :: without p.keys (slot, gen) }))) := by
  refine (if_neg (hostGo_checks may kind)).trans ((if_neg (by rw [sealed_]; decide)).trans ?_)
  simp only [sub, if_neg kept, askKey_cached cached, half, forged]
  rfl

theorem forwardHost_plain {r : MReq} (plain : h.ide = false) : forwardHost h r b =
    emit (.dreq Config.hostId 0 r.tag (le 1 (chanOf b r.pslot).1 ++ packReq r) (if h.write then r.data else []))
      { b with host := { b.host with reqs := b.host.reqs ++ [(r.tag, h.iface, none)] } } := by
  simp only [forwardHost, plain, Bool.false_eq_true, false_and, if_false]
  rfl

theorem hostTry_goes {t : State} (free : h.ide = false ∨ b.host.waiting = []) (goes : hostGo h b = (true, t)) : hostTry h b = t := by
  have first : ¬(h.ide && b.host.waiting.any fun x => x.stream == h.stream) = true := by
    rcases free with plain | none_
    · rw [plain]
      exact Bool.false_ne_true
    · rw [none_]
      simp
  simp only [hostTry, if_neg first, goes]

end

/-- A report to a fence changes nothing of the host station. -/
theorem fenceReport_host (i part code : Nat) (d : BitVec 128) (s : State) : (fenceReport i part code d s).host = s.host := by
  simp only [fenceReport]
  split
  · rfl
  · exact (host_quiet (Quiet.bump Config.keepId 4 1 s)).1

theorem refuseHost_host (r : MReq) (code : Nat) (s : State) : (refuseHost r code s).host = s.host :=
  (host_quiet (Quiet.bump Config.hostId 6 1 _)).1.trans (fenceReport_host ..)

/-! ### SPDM (07 R250) -/

section
variable {session : Nat} {msg m : Bytes} (up : hostUp s = true)

/-- A request whose code is not one of the responder's changes nothing. -/
theorem spdmServe_unknown (unknown : spdmCodes.contains (ofLe (cut 1 1 msg)) = false) : spdmServe session msg s = (spdmError msg 0x07, s) :=
  if_pos (by rw [unknown]; rfl)

/-- GET_VERSION is answered from the responder's data. -/
theorem spdmServe_version (long : 4 ≤ msg.length) (code : ofLe (cut 1 1 msg) = 0x84) :
    spdmServe session msg s = (Config.spdmResponse session msg (spdmData s []), { s with freeSig := s.freeSig + 1 }) := by
  have known : 0x84 ∈ spdmCodes := by decide
  simp [spdmServe, code, known, Nat.not_lt.mpr long]

include up

theorem spdmRequest_open (down : sessionUp s session = false) : spdmRequest session msg s =
    emit (.spdm session (spdmServe session msg (bump Config.hostId 7 1 s)).1) (spdmServe session msg (bump Config.hostId 7 1 s)).2 := by
  simp only [spdmRequest, up, down, spdmSeal, Bool.not_true, Bool.not_false, Bool.false_eq_true, if_false, if_true]

theorem spdmRequest_forged (live : sessionUp s session = true) (forged : spdmOpen s session msg = none) : spdmRequest session msg s = s := by
  simp only [spdmRequest, up, live, forged, Bool.not_true, Bool.false_eq_true, if_false, if_true]

theorem spdmRequest_unknown (live : sessionUp s session = true) (opens : spdmOpen s session msg = some m)
    (unknown : spdmCodes.contains (ofLe (cut 1 1 m)) = false) : spdmRequest session msg s =
      emit (.spdm session (spdmSeal s session (spdmError m 0x07)))
        (scratchOut true (spdmError m 0x07) (scratchIn m (spdmCount session (bump Config.hostId 7 1 s)))) := by
  simp only [spdmRequest, up, live, opens, Bool.not_true, Bool.false_eq_true, if_false, if_true, spdmServe_unknown unknown]

end

/-! ### IDE keys and interfaces (07 R251, R252) -/

section
variable {session : Nat} (up : hostUp s = true) (live : sessionUp s session = true)
include up live

/-- Each of these messages is acted on in an established session of an Open host station. -/
theorem session_acts : ¬(!hostUp s || !sessionUp s session) = true := by simp [up, live]

/-- The slot with a programmed key in its pending half. -/
def programmed (key : BitVec 256) (k : KeySlot) : KeySlot := if k.state = 0 then writePending 7 0 true key k else writeNext key k

theorem keyProg_programs {stream keySet sub slot : Nat} {key : BitVec 256} (named : stream ≤ 255 ∧ keySet ≤ 1 ∧ sub ≤ 5)
    (room : (tfind s.host.ide stream).isSome = true ∨ s.host.ide.length < 8)
    (found : ((tfind (s.ideOf stream).slots (6 * keySet + sub)).orElse fun _ => freeSlot s true) = some slot) (fresh : (s.key slot).state ≤ 1)
    (good : s.keep.verifyBad = false) : keyProg session stream keySet sub key s = emit (.spdm session [3, 0])
      (onIde stream (fun x => { x with slots := tset x.slots (6 * keySet + sub) slot }) (s.onKey slot (programmed key))) := by
  have fits : ¬(255 < stream ∨ 1 < keySet ∨ 5 < sub ∨ ((!(tfind s.host.ide stream).isSome) = true ∧ 8 ≤ s.host.ide.length)) := by
    obtain ⟨h1, h2, h3⟩ := named
    rintro (wide | wide | wide | ⟨new, full⟩)
    · omega
    · omega
    · omega
    · rcases room with known | few
      · rw [known] at new
        exact Bool.false_ne_true new
      · omega
  have free : ¬2 ≤ (s.key slot).state := by omega
  have slotOf : s.onKey slot (if (s.key slot).state = 0 then writePending 7 0 true key else writeNext key) = s.onKey slot (programmed key) := by
    simp only [State.onKey, tupd, programmed]
    split
    · rename_i empty
      rw [if_pos (show (tget {} s.keys slot).state = 0 from empty)]
    · rename_i used
      rw [if_neg (show ¬(tget {} s.keys slot).state = 0 from used)]
  simp only [keyProg, session_acts up live, if_neg fits, found, if_neg free, good, Bool.false_eq_true, if_false, slotOf]

theorem kSetGo_none {stream keySet : Nat} (none_ : ((setSlots (s.ideOf stream) keySet).filter fun i => (s.key i).state == 2) = []) :
    kSetGo session stream keySet s = emit (.spdm session [6, 1]) s := by
  simp only [kSetGo, session_acts up live, none_, List.isEmpty_nil, Bool.false_eq_true, if_false, if_true]

theorem kSetGo_commits {stream keySet : Nat} {v : List Nat} (which : ((setSlots (s.ideOf stream) keySet).filter fun i => (s.key i).state == 2) = v)
    (some_ : v ≠ []) : kSetGo session stream keySet s = emit (.spdm session [6, 0]) (onIde stream (fun x => { x with live := true, set := keySet })
      (each v (fun i s => if (s.key i).first then commitFirst i s else commitSwap i s) s)) := by
  simp only [kSetGo, session_acts up live, which, List.isEmpty_eq_false_iff.mpr some_, Bool.false_eq_true, if_false]

/-- A key set taken out of its stream, its slots retired. -/
def setStopped (stream keySet : Nat) (s : State) : State :=
  onIde stream (fun x => { x with slots := x.slots.filter fun e => e.1 / 6 != keySet, live := x.live && x.set != keySet })
    (each (setSlots (s.ideOf stream) keySet) (fun i u => retireSlot i (Config.ms 2) u) s)

theorem kSetStop_stops {stream keySet : Nat} (some_ : setSlots (s.ideOf stream) keySet ≠ []) : kSetStop session stream keySet s =
    emit (.spdm session [6, 0]) (if (s.ideOf stream).live = true ∧ (s.ideOf stream).set = keySet then streamEnds stream (setStopped stream keySet s)
      else setStopped stream keySet s) := by
  simp only [kSetStop, session_acts up live, List.isEmpty_eq_false_iff.mpr some_, Bool.false_eq_true, if_false]
  rfl

theorem lockInterface_locks {iface part stream : Nat} (named : iface < 64) (free : (s.tdispOf iface).state = 0) (unit : part ≠ 0xFF)
    (there : (s.part part).state ≠ 0) (stays : (s.part part).state ≠ 5) (keyed : (s.ideOf stream).live = true) :
    lockInterface session iface part stream s =
      tdispAnswer session true (onTdisp iface (fun _ => { state := 1, part := some part, stream := stream }) s) := by
  simp only [lockInterface, session_acts up live, Nat.not_le.mpr named, free, unit, there, stays, keyed, Bool.not_true, Bool.false_eq_true, ne_eq,
    not_true_eq_false, or_self, if_false]

theorem startInterface_starts {iface : Nat} (locked : (s.tdispOf iface).state = 1) (keyed : (s.ideOf (s.tdispOf iface).stream).live = true) :
    startInterface session iface s = tdispAnswer session true (onTdisp iface (fun x => { x with state := 2 }) s) := by
  simp only [startInterface, session_acts up live, locked, keyed, and_self, Bool.false_eq_true, if_false, if_true]

theorem startInterface_refuses {iface : Nat} (other : (s.tdispOf iface).state ≠ 1) : startInterface session iface s = tdispAnswer session false s := by
  simp only [startInterface, session_acts up live, other, false_and, Bool.false_eq_true, if_false]

theorem stopInterface_frees {iface : Nat} (named : iface < 64) :
    stopInterface session iface s = tdispAnswer session true (stopSecure (onTdisp iface (fun _ => {}) s)) := by
  simp only [stopInterface, session_acts up live, Nat.not_le.mpr named, Bool.false_eq_true, if_false]

theorem interfaceReport_bound {iface p : Nat} (bound : (s.tdispOf iface).part = some p)
    (runs : (s.tdispOf iface).state = 1 ∨ (s.tdispOf iface).state = 2) :
    interfaceReport session iface s = emit (.spdm session (le 1 p ++ fit 48 (s.part p).pmr)) s := by
  simp only [interfaceReport, session_acts up live, bound, if_pos runs, Bool.false_eq_true, if_false]

theorem interfaceReport_free {iface : Nat} (free : (s.tdispOf iface).part = none) : interfaceReport session iface s = tdispAnswer session false s := by
  simp only [interfaceReport, session_acts up live, free, Bool.false_eq_true, if_false]

end

/-- Settles O42, each input by the branch it takes. -/
theorem hostLinkCommandsAct : Obligations.HostLinkCommandsAct := by
  refine ⟨?_, ?_, ?_, ?_, ?_, ?_, ?_, ?_, ?_, ?_, ?_⟩
  · exact fun iface stream ide tbit write req data mac s shut => congrArg Host.Outcome.next (if_pos shut)
  · intro iface stream ide tbit write req data mac s up r b
    have taken : exec (.hostDmaRequest iface stream ide tbit write req data mac) s = .next (hostTry
        { iface := iface, stream := stream, ide := ide, tbit := tbit, write := write, req := req, data := data, mac := mac } b) :=
      congrArg Host.Outcome.next (hostDma_opened up)
    have req_ : hostReq { iface := iface, stream := stream, ide := ide, tbit := tbit, write := write, req := req, data := data, mac := mac } b = r :=
      hostReq_taken _
    have host : b.host = { s.host with port := hostIntake r.tag s.host.port } := hostTaken_host _ s
    have reqs : b.host.reqs = s.host.reqs := by rw [host]
    have waiting : b.host.waiting = s.host.waiting := by rw [host]
    have keys : b.host.port.keys = s.host.port.keys := by
      rw [host]
      rfl
    have may (ide tbit) : hostMay b iface stream ide tbit r.part = hostMay s iface stream ide tbit r.part := hostTaken_may ..
    refine ⟨fun plain allowed kind => ?_, fun none_ bad => ?_, fun slot gen k sealed_ none_ allowed kind sub kept cached half forged => ?_⟩
    · subst plain
      have goes := hostGo_plain (b := b) (h := { iface := iface, stream := stream, ide := false, tbit := tbit, write := write, req := req, data := data
                                                 mac := mac }) rfl (by rw [req_]; exact (may ..).trans allowed) (by rw [req_]; exact kind)
      rw [req_] at goes
      have runs := taken.trans (congrArg Host.Outcome.next (hostTry_goes (.inl rfl) goes))
      rw [forwardHost_plain rfl] at runs
      have chan : chanOf b r.pslot = chanOf s r.pslot := hostTaken_chan _
      refine ⟨_, runs, ?_, ?_⟩
      · exact congrArg (· ++ [(r.tag, iface, none)]) reqs
      · rw [chan]
        exact List.mem_cons_self ..
    · have goes := hostGo_refused (b := b) (h := { iface := iface, stream := stream, ide := ide, tbit := tbit, write := write, req := req, data := data
                                                   mac := mac }) (by
        rw [req_]
        exact bad.imp_left (may ..).trans)
      rw [req_] at goes
      have runs := taken.trans (congrArg Host.Outcome.next (hostTry_goes (.inr (waiting.trans none_)) goes))
      exact ⟨_, runs, rfl, (congrArg HostSt.reqs (refuseHost_host ..)).trans reqs, List.mem_cons_self ..⟩
    · subst sealed_
      have key : b.key slot = s.key slot := hostTaken_key _ s slot
      have goes := hostGo_forged (b := b) (h := { iface := iface, stream := stream, ide := true, tbit := tbit, write := write, req := req, data := data
                                                  mac := mac }) rfl (by rw [req_]; exact (may ..).trans allowed) (by rw [req_]; exact kind)
        ((hostTaken_ideSub ..).trans sub) (by rw [key]; exact kept) ((congrArg (·.contains (slot, gen)) keys).trans cached) (by rw [key]; exact half) forged
      rw [req_] at goes
      exact taken.trans (congrArg Host.Outcome.next (hostTry_goes (.inr (waiting.trans none_)) goes))
  · intro stream s
    refine ⟨fun dead_ => congrArg Host.Outcome.next (if_pos (by rw [dead_]; rfl)), ?_⟩
    intro live a
    refine congrArg Host.Outcome.next (if_neg ?_)
    rw [live]
    exact Bool.false_ne_true
  · intro session msg s up down
    obtain ⟨host, keys, -, -, sig⟩ := host_quiet (Quiet.bump Config.hostId 7 1 s)
    have runs := spdmRequest_open (msg := msg) up down
    refine ⟨fun unknown => ?_, fun long code => ?_⟩
    · rw [spdmServe_unknown unknown] at runs
      exact ⟨_, congrArg Host.Outcome.next runs, List.mem_cons_self .., host, keys⟩
    · have same : spdmData (bump Config.hostId 7 1 s) [] = spdmData s [] := by
        obtain ⟨k, x, v, l, only⟩ := Quiet.bump Config.hostId 7 1 s
        rw [only]
        rfl
      rw [spdmServe_version long code, same] at runs
      exact ⟨_, congrArg Host.Outcome.next runs, List.mem_cons_self .., congrArg (· + 1) sig, host, keys⟩
  · intro session msg s up live
    exact ⟨fun forged => congrArg Host.Outcome.next (spdmRequest_forged up live forged),
      fun m opens unknown => congrArg Host.Outcome.next (spdmRequest_unknown up live opens unknown)⟩
  · intro session stream keySet sub key s slot up live streams sets subs room found fresh good
    refine ⟨_, congrArg Host.Outcome.next (keyProg_programs up live ⟨streams, sets, subs⟩ room found fresh good), List.mem_cons_self .., fun empty => ?_,
      fun active => ?_, ?_, fun i other => ?_⟩
    · exact (key_onKey ..).trans (if_pos empty)
    · exact (key_onKey ..).trans (if_neg (by omega))
    · exact ide_on ..
    · exact key_onKey_other _ _ _ _ other
  · intro session stream keySet s up live v
    refine ⟨fun none_ => congrArg Host.Outcome.next (kSetGo_none up live none_), fun some_ => ?_⟩
    refine ⟨_, congrArg Host.Outcome.next (kSetGo_commits up live rfl some_), List.mem_cons_self .., rfl, ?_, ?_⟩
    · exact congrArg Ide.live (ide_on ..)
    · exact congrArg Ide.set (ide_on ..)
  · intro session stream keySet s up live some_ dead_ a
    refine congrArg Host.Outcome.next ((kSetStop_stops up live some_).trans (congrArg (emit (.spdm session [6, 0])) (if_neg ?_)))
    rw [dead_]
    exact fun both => Bool.false_ne_true both.1
  · intro session stream keySet s up live some_ keyed inForce a
    exact congrArg Host.Outcome.next ((kSetStop_stops up live some_).trans (congrArg (emit (.spdm session [6, 0])) (if_pos ⟨keyed, inForce⟩)))
  · intro session iface part stream s up live named free unit there stays keyed
    exact ⟨_, congrArg Host.Outcome.next (lockInterface_locks up live named free unit there stays keyed), List.mem_cons_self .., tdisp_on ..,
      fun i other => tdisp_on_other _ _ other _ _⟩
  · intro session iface s up live x
    refine ⟨fun locked keyed => ?_, fun other => congrArg Host.Outcome.next (startInterface_refuses up live other),
      fun named => congrArg Host.Outcome.next (stopInterface_frees up live named),
      fun p bound runs => congrArg Host.Outcome.next (interfaceReport_bound up live bound runs),
      fun free => congrArg Host.Outcome.next (interfaceReport_free up live free)⟩
    exact ⟨_, congrArg Host.Outcome.next (startInterface_starts up live locked keyed), List.mem_cons_self .., tdisp_on ..,
      fun i other => tdisp_on_other _ _ other _ _⟩

end Sys2Proof.Machine
end
